-- ==== Sys2Proof/Word.lean ====
section
/-! DEFINITION. The words of the machine and the small plain types that its instructions and its state share. -/

namespace Sys2Proof

/-- A 64-bit value of a scalar register (R106). -/
abbrev Word := BitVec 64

/-- One byte of memory. -/
abbrev Byte := BitVec 8

/-- The contents of one vector or mask register, 16,384 bits (R3, R142). -/
abbrev VReg := BitVec 16384

/-- The contents of one accumulator tile, 128 x 64 f32 (R254). -/
abbrev Tile := BitVec 262144

/-- The two sequencers of a core (R106). -/
inductive SeqId where
  | main
  | matrix
deriving DecidableEq, Repr

/-- The number of a sequencer in TSTAT.SEQ and in fault records (R355, R364). -/
def SeqId.code : SeqId → Nat
  | .main => 0
  | .matrix => 1

/-- Names a task: its virtual device, its graph and the pool index of its record (R359). -/
structure TaskKey where
  vdev : Nat
  graph : Nat
  record : Nat
deriving DecidableEq, Repr

/-- The path by which the host reaches the device (R18, R304, R346, R414, R426): PF BAR2 at a DPA byte, a CXL port by CXL.mem at a
host physical byte address, the BAR0 of a PCIe function at a byte offset of its window (R407), the ordered doorbell page of a
CXL port by CXL.io, or, in the PF's configuration space, its vendor-specific or its AER capability at a byte offset. -/
inductive HostPath where
  | bar2
  | cxlMem (port : BitVec 1)
  | bar0 (function : Nat)
  | cxlIo (port : BitVec 1)
  | vendorCapability
  | aerCapability
deriving DecidableEq, Repr

/-- What ECC and the tag check find in a sector that an access touches (R288). -/
inductive Ecc where
  | clean
  | corrected
  | uncorrectable
deriving DecidableEq, Repr

/-- An access that arrives at a base die or an LPDDR6 controller (R283, R295): a physical bit address, how many bits,
whether it names a page as packed, and what the sector's check finds. -/
structure DieAccess where
  addr : Nat
  width : Nat
  packed : Bool
  ecc : Ecc
deriving DecidableEq, Repr

/-- One packet of an incoming network WRITE (R419): the exposed region's owner and key, the request it belongs to with the
byte range of all of it, its own byte offset and bytes (as a little-endian number with its length in bytes), and the amount that
the finished request adds to the receive counter. -/
structure Packet where
  vdev : Nat
  key : Nat
  request : Nat
  first : Nat
  total : Nat
  offset : Nat
  bytes : Nat
  value : Nat
  amount : Word
deriving DecidableEq, Repr

/-- The atomic memory operations of an application core (R416). -/
inductive AmoOp where
  | swap | add | xor | and | or | min | max | minu | maxu
deriving DecidableEq, Repr

/-- What an application core does to device memory (R416). Addresses are physical byte addresses; aq and rl are the ordering bits of
an atomic. -/
inductive HartAccess where
  | load (addr bytes : Nat)
  | store (addr bytes : Nat) (value : Nat)
  | amo (op : AmoOp) (addr bytes : Nat) (value : Nat) (aq rl : Bool)
  | loadReserved (addr bytes : Nat) (aq rl : Bool)
  | storeConditional (addr bytes : Nat) (value : Nat) (aq rl : Bool)
  | fence
deriving DecidableEq, Repr

/-- What is fatal besides the third authentication failure of a link (R425): a die's thermal trip, or an uncorrectable error in the
management core or in the slot table. -/
inductive FatalSource where
  | thermal (die : Nat)
  | managementCore
  | slotTable
deriving DecidableEq, Repr

/-- An HDM decoder of a CXL port (R414): where it starts in host physical space, how long it is, the DPA it maps to, its
interleave ways and granularity, all counted in bytes, and whether it is committed. -/
structure HdmDecoder where
  base : Nat
  size : Nat
  dpa : Nat
  ways : Nat
  granularity : Nat
  committed : Bool
deriving DecidableEq, Repr

end Sys2Proof
end

