-- ==== Sys2Proof/Config.lean ====
section
/-! DEFINITION. What the spec fixes for the LZ-9400 as constants, and the free values: constants without a body, which
nothing can evaluate, for what the spec leaves open (log 6). A free value is applied to a counter that State holds. -/

namespace Sys2Proof.Config

/-- The compute cores of the LZ-9400 (R1). -/
def cores : Nat := 224

/-- The bits of one vector register (R3). -/
def vlen : Nat := 16384

/-- Local store of a core in bits (R3). -/
def localStoreBits : Nat := 2 ^ 24

/-- Where the window control blocks lie in the local store (R250). -/
def blocksBase : Nat := 0xFFC000

/-- The populated bits of one HBM4E stack: 120 GB (R43). -/
def stackBits : Nat := 960000000000

/-- The first bit of the second tier (R43). -/
def tierBase : Nat := 0x00100000000000

/-- The populated bits of the second tier: 2,048 GB (R43). -/
def tierBits : Nat := 16384000000000

/-- The first bit of host and CXL memory (R43). -/
def hostBase : Nat := 0x20000000000000

/-- The end of the physical space (R43). -/
def physEnd : Nat := 2 ^ 54

/-- The reset value of GRANCAP: HSG 6, DMG 8, LSG 9 (R28). -/
def grancap : Word := 0x689

/-- The virtual device whose doorbell page a hart reaches (R416): Mason assigns it at boot. -/
opaque hartVdev : Nat → Nat

/-- The boot image's entry, at which the application cores are released (R428). -/
opaque hartEntry : Word

/-- How many refreshes of a bank the stack controller may postpone beyond the first (R290): the memory standard's limit. -/
opaque postponeExtra : Nat

/-- How many refreshes of a bank may be postponed (R290): at least one, for the rule says that they may be. -/
def postponeLimit : Nat := postponeExtra + 1

/-- A free choice for the n-th draw (log 6). -/
opaque freeBool : Nat → Bool

/-- A free number for the n-th draw (log 6). -/
opaque freeNat : Nat → Nat

/-- Free bits of any width for the n-th draw: which of the allowed older bits a constant-path read returns (log 13), the
contents of an AV1 temporal unit (log 17), a measurement digest (log 18), the bytes a remote module sends (log 19). -/
opaque freeBits : Nat → Nat

end Sys2Proof.Config
end

