-- ==== Sys2Proof/Syntax.lean ====
section
/-! DEFINITION. The instructions: one constructor for each row of spec/opcode_table.json. The arguments of an encoded
row are its fields, a field that the table splits being one argument (its high part first); d, a and b come first.
The arguments of a row without an encoding say which agent or unit the step concerns and what comes from outside. -/

namespace Sys2Proof

/-- One constructor per row of the opcode table, in the table's order; each docstring is the row's rule. -/
inductive Instr where
  /-- ADD (R107). -/
  | add (d : BitVec 5) (a : BitVec 5) (b : BitVec 5) (w : BitVec 3)
  /-- SUB (R107). -/
  | sub (d : BitVec 5) (a : BitVec 5) (b : BitVec 5) (w : BitVec 3)
  /-- AND (R107). -/
  | and (d : BitVec 5) (a : BitVec 5) (b : BitVec 5) (w : BitVec 3)
  /-- OR (R107). -/
  | or (d : BitVec 5) (a : BitVec 5) (b : BitVec 5) (w : BitVec 3)
  /-- XOR (R107). -/
  | xor (d : BitVec 5) (a : BitVec 5) (b : BitVec 5) (w : BitVec 3)
  /-- ANDN (R107). -/
  | andn (d : BitVec 5) (a : BitVec 5) (b : BitVec 5) (w : BitVec 3)
  /-- SLL (R107). -/
  | sll (d : BitVec 5) (a : BitVec 5) (b : BitVec 5) (w : BitVec 3)
  /-- SRL (R107). -/
  | srl (d : BitVec 5) (a : BitVec 5) (b : BitVec 5) (w : BitVec 3)
  /-- SRA (R107). -/
  | sra (d : BitVec 5) (a : BitVec 5) (b : BitVec 5) (w : BitVec 3)
  /-- ROL (R107). -/
  | rol (d : BitVec 5) (a : BitVec 5) (b : BitVec 5) (w : BitVec 3)
  /-- ROR (R107). -/
  | ror (d : BitVec 5) (a : BitVec 5) (b : BitVec 5) (w : BitVec 3)
  /-- SLT (R107). -/
  | slt (d : BitVec 5) (a : BitVec 5) (b : BitVec 5) (w : BitVec 3)
  /-- SLTU (R107). -/
  | sltu (d : BitVec 5) (a : BitVec 5) (b : BitVec 5) (w : BitVec 3)
  /-- MIN (R107). -/
  | min (d : BitVec 5) (a : BitVec 5) (b : BitVec 5) (w : BitVec 3)
  /-- MAX (R107). -/
  | max (d : BitVec 5) (a : BitVec 5) (b : BitVec 5) (w : BitVec 3)
  /-- MINU (R107). -/
  | minu (d : BitVec 5) (a : BitVec 5) (b : BitVec 5) (w : BitVec 3)
  /-- MAXU (R107). -/
  | maxu (d : BitVec 5) (a : BitVec 5) (b : BitVec 5) (w : BitVec 3)
  /-- MUL (R107). -/
  | mul (d : BitVec 5) (a : BitVec 5) (b : BitVec 5) (w : BitVec 3)
  /-- MULH (R107). -/
  | mulh (d : BitVec 5) (a : BitVec 5) (b : BitVec 5) (w : BitVec 3)
  /-- MULHU (R107). -/
  | mulhu (d : BitVec 5) (a : BitVec 5) (b : BitVec 5) (w : BitVec 3)
  /-- DIV (R108). -/
  | div (d : BitVec 5) (a : BitVec 5) (b : BitVec 5) (w : BitVec 3)
  /-- DIVU (R108). -/
  | divu (d : BitVec 5) (a : BitVec 5) (b : BitVec 5) (w : BitVec 3)
  /-- REM (R108). -/
  | rem (d : BitVec 5) (a : BitVec 5) (b : BitVec 5) (w : BitVec 3)
  /-- REMU (R108). -/
  | remu (d : BitVec 5) (a : BitVec 5) (b : BitVec 5) (w : BitVec 3)
  /-- CLZ (R107). -/
  | clz (d : BitVec 5) (a : BitVec 5) (w : BitVec 3)
  /-- CTZ (R107). -/
  | ctz (d : BitVec 5) (a : BitVec 5) (w : BitVec 3)
  /-- POPC (R107). -/
  | popc (d : BitVec 5) (a : BitVec 5) (w : BitVec 3)
  /-- BEXT (R109). -/
  | bext (d : BitVec 5) (a : BitVec 5) (b : BitVec 5) (w : BitVec 3)
  /-- BINS (R109). -/
  | bins (d : BitVec 5) (a : BitVec 5) (b : BitVec 5) (w : BitVec 3)
  /-- BADDR (R110). -/
  | baddr (d : BitVec 5) (a : BitVec 5) (b : BitVec 5) (w : BitVec 3)
  /-- SLLI (R107). -/
  | slli (d : BitVec 5) (a : BitVec 5) (s : BitVec 6) (w : BitVec 3)
  /-- SRLI (R107). -/
  | srli (d : BitVec 5) (a : BitVec 5) (s : BitVec 6) (w : BitVec 3)
  /-- SRAI (R107). -/
  | srai (d : BitVec 5) (a : BitVec 5) (s : BitVec 6) (w : BitVec 3)
  /-- ADDI (R107). -/
  | addi (d : BitVec 5) (a : BitVec 5) (i : BitVec 12) (w : BitVec 3)
  /-- ANDI (R107). -/
  | andi (d : BitVec 5) (a : BitVec 5) (i : BitVec 12) (w : BitVec 3)
  /-- ORI (R107). -/
  | ori (d : BitVec 5) (a : BitVec 5) (i : BitVec 12) (w : BitVec 3)
  /-- XORI (R107). -/
  | xori (d : BitVec 5) (a : BitVec 5) (i : BitVec 12) (w : BitVec 3)
  /-- SLTI (R107). -/
  | slti (d : BitVec 5) (a : BitVec 5) (i : BitVec 12) (w : BitVec 3)
  /-- LIMM (R51). -/
  | limm (d : BitVec 5) (i : BitVec 16) (h : BitVec 2) (k : BitVec 1)
  /-- LD (R112). -/
  | ld (d : BitVec 5) (a : BitVec 5) (b : BitVec 5) (s : BitVec 1) (w : BitVec 6) (h : BitVec 3)
  /-- ST (R112). -/
  | st (d : BitVec 5) (a : BitVec 5) (b : BitVec 5) (w : BitVec 6) (h : BitVec 3)
  /-- LDC (R113). -/
  | ldc (d : BitVec 5) (a : BitVec 5) (b : BitVec 5) (s : BitVec 1) (w : BitVec 6) (h : BitVec 3)
  /-- PREF (R114). -/
  | pref (a : BitVec 5) (b : BitVec 5) (w : BitVec 6) (h : BitVec 3)
  /-- ETAG (R36). -/
  | etag (d : BitVec 5) (a : BitVec 5) (b : BitVec 5) (w : BitVec 3)
  /-- EXTN (R37). -/
  | extn (d : BitVec 5) (a : BitVec 5) (b : BitVec 5) (p : BitVec 2) (w : BitVec 3)
  /-- EXTR_BASE (R38). -/
  | extrBase (d : BitVec 5) (b : BitVec 5) (w : BitVec 3)
  /-- EXTR_LEN (R38). -/
  | extrLen (d : BitVec 5) (b : BitVec 5) (w : BitVec 3)
  /-- EXTR_ATTR (R38). -/
  | extrAttr (d : BitVec 5) (b : BitVec 5) (w : BitVec 3)
  /-- BEQ (R126). -/
  | beq (a : BitVec 5) (b : BitVec 5) (o : BitVec 12)
  /-- BNE (R126). -/
  | bne (a : BitVec 5) (b : BitVec 5) (o : BitVec 12)
  /-- BLT (R126). -/
  | blt (a : BitVec 5) (b : BitVec 5) (o : BitVec 12)
  /-- BGE (R126). -/
  | bge (a : BitVec 5) (b : BitVec 5) (o : BitVec 12)
  /-- BLTU (R126). -/
  | bltu (a : BitVec 5) (b : BitVec 5) (o : BitVec 12)
  /-- BGEU (R126). -/
  | bgeu (a : BitVec 5) (b : BitVec 5) (o : BitVec 12)
  /-- JAL (R127). -/
  | jal (d : BitVec 5) (o : BitVec 20)
  /-- JALR (R127). -/
  | jalr (d : BitVec 5) (a : BitVec 5) (i : BitVec 12) (w : BitVec 3)
  /-- LOOP (R131). -/
  | loop (a : BitVec 5) (e : BitVec 11)
  /-- LOOPI (R131). -/
  | loopi (e : BitVec 11) (c : BitVec 10)
  /-- LEXIT (R133). -/
  | lexit
  /-- RPT (R64). -/
  | rpt (m : BitVec 3) (s : BitVec 3) (c : BitVec 10)
  /-- FORK (R135). -/
  | fork (o : BitVec 21)
  /-- RDV (R136). -/
  | rdv
  /-- RDV_END (R136). -/
  | rdvEnd
  /-- RDV_PAIR_COMPLETE (R137). -/
  | rdvPairComplete (c : Nat)
  /-- FADD (R118). -/
  | fadd (d : BitVec 5) (a : BitVec 5) (b : BitVec 5) (t : BitVec 2) (w : BitVec 3)
  /-- FSUB (R118). -/
  | fsub (d : BitVec 5) (a : BitVec 5) (b : BitVec 5) (t : BitVec 2) (w : BitVec 3)
  /-- FMUL (R118). -/
  | fmul (d : BitVec 5) (a : BitVec 5) (b : BitVec 5) (t : BitVec 2) (w : BitVec 3)
  /-- FDIV (R118). -/
  | fdiv (d : BitVec 5) (a : BitVec 5) (b : BitVec 5) (t : BitVec 2) (w : BitVec 3)
  /-- FSQRT (R118). -/
  | fsqrt (d : BitVec 5) (a : BitVec 5) (t : BitVec 2) (w : BitVec 3)
  /-- FMIN (R118). -/
  | fmin (d : BitVec 5) (a : BitVec 5) (b : BitVec 5) (t : BitVec 2) (w : BitVec 3)
  /-- FMAX (R118). -/
  | fmax (d : BitVec 5) (a : BitVec 5) (b : BitVec 5) (t : BitVec 2) (w : BitVec 3)
  /-- FMA (R118). -/
  | fma (d : BitVec 5) (a : BitVec 5) (b : BitVec 5) (t : BitVec 2) (w : BitVec 3)
  /-- FCMP (R119). -/
  | fcmp (d : BitVec 5) (a : BitVec 5) (b : BitVec 5) (c : BitVec 2) (t : BitVec 2) (w : BitVec 3)
  /-- FCVT (R120). -/
  | fcvt (d : BitVec 5) (a : BitVec 5) (w : BitVec 3) (c : BitVec 5)
  /-- FMV (R121). -/
  | fmv (d : BitVec 5) (a : BitVec 5) (t : BitVec 2) (w : BitVec 3) (o : BitVec 5)
  /-- CTLR (R122). -/
  | ctlr (d : BitVec 5) (r : BitVec 12)
  /-- CTLW (R122). -/
  | ctlw (d : BitVec 5) (a : BitVec 5) (r : BitVec 12)
  /-- CTLS (R122). -/
  | ctls (d : BitVec 5) (a : BitVec 5) (r : BitVec 12)
  /-- CTLC (R122). -/
  | ctlc (d : BitVec 5) (a : BitVec 5) (r : BitVec 12)
  /-- EXTENT_LOW_WRITE (R31). -/
  | extentLowWrite (c : Nat) (n : BitVec 4) (v : Word)
  /-- EXTENT_HIGH_WRITE (R31). -/
  | extentHighWrite (c : Nat) (n : BitVec 4) (v : Word)
  /-- VT_WRITE (R141). -/
  | vtWrite (c : Nat) (v : Word)
  /-- VL_WRITE (R143). -/
  | vlWrite (c : Nat) (v : Word)
  /-- FRM_WRITE (R173). -/
  | frmWrite (c : Nat) (v : Word)
  /-- SYS (R402). -/
  | sys (c : BitVec 16)
  /-- ERET (R390). -/
  | eret
  /-- WFE (R403). -/
  | wfe (d : BitVec 5) (a : BitVec 5) (b : BitVec 5)
  /-- WFE_WAKE (R403). -/
  | wfeWake (c : Nat)
  /-- TLBI_PAGE (R404). -/
  | tlbiPage (a : BitVec 5) (b : BitVec 5)
  /-- TLBI_ASID (R404). -/
  | tlbiAsid (b : BitVec 5)
  /-- TLBI_ALL (R404). -/
  | tlbiAll
  /-- CLWB (R405). -/
  | clwb (a : BitVec 5) (b : BitVec 5)
  /-- CLINV (R405). -/
  | clinv (a : BitVec 5) (b : BitVec 5)
  /-- CLDROP (R405). -/
  | cldrop (a : BitVec 5) (b : BitVec 5)
  /-- BKPT (R402). -/
  | bkpt (c : BitVec 16)
  /-- ILL (R402). -/
  | ill
  /-- AMO (R340). -/
  | amo (d : BitVec 5) (a : BitVec 5) (b : BitVec 5) (o : BitVec 4) (z : BitVec 2)
  /-- CAS (R340). -/
  | cas (d : BitVec 5) (a : BitVec 5) (b : BitVec 5) (z : BitVec 2)
  /-- VAMO (R341). -/
  | vamo (d : BitVec 5) (a : BitVec 5) (b : BitVec 5) (o : BitVec 3) (k : BitVec 3)
  /-- FAAS (R343). -/
  | faas (d : BitVec 5) (a : BitVec 5) (k : BitVec 3)
  /-- ACQ (R333). -/
  | acq (d : BitVec 5) (a : BitVec 5) (b : BitVec 5)
  /-- ACQ_SATISFIED (R333). -/
  | acqSatisfied (c : Nat) (q : SeqId)
  /-- REL (R332). -/
  | rel (d : BitVec 5) (a : BitVec 5)
  /-- GBIND (R330). -/
  | gbind (d : BitVec 5) (a : BitVec 5) (b : BitVec 5) (s : BitVec 2)
  /-- GUNBIND (R331). -/
  | gunbind (a : BitVec 5)
  /-- FENCE (R335). -/
  | fence (s : BitVec 2) (k : BitVec 2)
  /-- QFENCE (R338). -/
  | qfence (q : BitVec 16)
  /-- CFENCE (R337). -/
  | cfence
  /-- BARINIT (R252). -/
  | barinit (a : BitVec 5)
  /-- BARWAIT (R252). -/
  | barwait (a : BitVec 5) (b : BitVec 5)
  /-- BARREL (R252). -/
  | barrel (a : BitVec 5) (b : BitVec 5)
  /-- WINDOW_COUNT_REACHED (R155). -/
  | windowCountReached (c : Nat) (q : SeqId)
  /-- SETVL (R143). -/
  | setvl (d : BitVec 5) (a : BitVec 5) (w : BitVec 3)
  /-- SETVT (R143). -/
  | setvt (d : BitVec 5) (a : BitVec 5) (w : BitVec 3)
  /-- VLD (R149). -/
  | vld (d : BitVec 5) (a : BitVec 5) (k : BitVec 3) (h : BitVec 3)
  /-- VLDS (R149). -/
  | vlds (d : BitVec 5) (a : BitVec 5) (b : BitVec 5) (k : BitVec 3) (h : BitVec 3)
  /-- VLDX (R149). -/
  | vldx (d : BitVec 5) (a : BitVec 5) (b : BitVec 5) (k : BitVec 3) (h : BitVec 3)
  /-- VLDSEG (R149). -/
  | vldseg (d : BitVec 5) (a : BitVec 5) (k : BitVec 3) (h : BitVec 3) (n : BitVec 5)
  /-- VLDFF (R153). -/
  | vldff (d : BitVec 5) (a : BitVec 5) (k : BitVec 3) (h : BitVec 3)
  /-- VLD_WC (R155). -/
  | vldWc (d : BitVec 5) (a : BitVec 5) (k : BitVec 3) (h : BitVec 3)
  /-- VLDC (R158). -/
  | vldc (d : BitVec 5) (a : BitVec 5) (k : BitVec 3) (h : BitVec 3)
  /-- VST (R150). -/
  | vst (d : BitVec 5) (a : BitVec 5) (k : BitVec 3) (h : BitVec 3)
  /-- VSTS (R150). -/
  | vsts (d : BitVec 5) (a : BitVec 5) (b : BitVec 5) (k : BitVec 3) (h : BitVec 3)
  /-- VSTX (R150). -/
  | vstx (d : BitVec 5) (a : BitVec 5) (b : BitVec 5) (k : BitVec 3) (h : BitVec 3)
  /-- VSTSEG (R150). -/
  | vstseg (d : BitVec 5) (a : BitVec 5) (k : BitVec 3) (h : BitVec 3) (n : BitVec 5)
  /-- VADD_VV (R191). -/
  | vaddVv (d : BitVec 5) (a : BitVec 5) (b : BitVec 5) (k : BitVec 3) (w : BitVec 3)
  /-- VADD_VS (R191). -/
  | vaddVs (d : BitVec 5) (a : BitVec 5) (b : BitVec 5) (k : BitVec 3) (w : BitVec 3)
  /-- VADD_VI (R191). -/
  | vaddVi (d : BitVec 5) (a : BitVec 5) (k : BitVec 3) (w : BitVec 3) (i : BitVec 5)
  /-- VSUB_VV (R191). -/
  | vsubVv (d : BitVec 5) (a : BitVec 5) (b : BitVec 5) (k : BitVec 3) (w : BitVec 3)
  /-- VSUB_VS (R191). -/
  | vsubVs (d : BitVec 5) (a : BitVec 5) (b : BitVec 5) (k : BitVec 3) (w : BitVec 3)
  /-- VSUB_VI (R191). -/
  | vsubVi (d : BitVec 5) (a : BitVec 5) (k : BitVec 3) (w : BitVec 3) (i : BitVec 5)
  /-- VRSUB_VV (R191). -/
  | vrsubVv (d : BitVec 5) (a : BitVec 5) (b : BitVec 5) (k : BitVec 3) (w : BitVec 3)
  /-- VRSUB_VS (R191). -/
  | vrsubVs (d : BitVec 5) (a : BitVec 5) (b : BitVec 5) (k : BitVec 3) (w : BitVec 3)
  /-- VRSUB_VI (R191). -/
  | vrsubVi (d : BitVec 5) (a : BitVec 5) (k : BitVec 3) (w : BitVec 3) (i : BitVec 5)
  /-- VAND_VV (R191). -/
  | vandVv (d : BitVec 5) (a : BitVec 5) (b : BitVec 5) (k : BitVec 3) (w : BitVec 3)
  /-- VAND_VS (R191). -/
  | vandVs (d : BitVec 5) (a : BitVec 5) (b : BitVec 5) (k : BitVec 3) (w : BitVec 3)
  /-- VAND_VI (R191). -/
  | vandVi (d : BitVec 5) (a : BitVec 5) (k : BitVec 3) (w : BitVec 3) (i : BitVec 5)
  /-- VOR_VV (R191). -/
  | vorVv (d : BitVec 5) (a : BitVec 5) (b : BitVec 5) (k : BitVec 3) (w : BitVec 3)
  /-- VOR_VS (R191). -/
  | vorVs (d : BitVec 5) (a : BitVec 5) (b : BitVec 5) (k : BitVec 3) (w : BitVec 3)
  /-- VOR_VI (R191). -/
  | vorVi (d : BitVec 5) (a : BitVec 5) (k : BitVec 3) (w : BitVec 3) (i : BitVec 5)
  /-- VXOR_VV (R191). -/
  | vxorVv (d : BitVec 5) (a : BitVec 5) (b : BitVec 5) (k : BitVec 3) (w : BitVec 3)
  /-- VXOR_VS (R191). -/
  | vxorVs (d : BitVec 5) (a : BitVec 5) (b : BitVec 5) (k : BitVec 3) (w : BitVec 3)
  /-- VXOR_VI (R191). -/
  | vxorVi (d : BitVec 5) (a : BitVec 5) (k : BitVec 3) (w : BitVec 3) (i : BitVec 5)
  /-- VSLL_VV (R191). -/
  | vsllVv (d : BitVec 5) (a : BitVec 5) (b : BitVec 5) (k : BitVec 3) (w : BitVec 3)
  /-- VSLL_VS (R191). -/
  | vsllVs (d : BitVec 5) (a : BitVec 5) (b : BitVec 5) (k : BitVec 3) (w : BitVec 3)
  /-- VSLL_VI (R191). -/
  | vsllVi (d : BitVec 5) (a : BitVec 5) (k : BitVec 3) (w : BitVec 3) (i : BitVec 5)
  /-- VSRL_VV (R191). -/
  | vsrlVv (d : BitVec 5) (a : BitVec 5) (b : BitVec 5) (k : BitVec 3) (w : BitVec 3)
  /-- VSRL_VS (R191). -/
  | vsrlVs (d : BitVec 5) (a : BitVec 5) (b : BitVec 5) (k : BitVec 3) (w : BitVec 3)
  /-- VSRL_VI (R191). -/
  | vsrlVi (d : BitVec 5) (a : BitVec 5) (k : BitVec 3) (w : BitVec 3) (i : BitVec 5)
  /-- VSRA_VV (R191). -/
  | vsraVv (d : BitVec 5) (a : BitVec 5) (b : BitVec 5) (k : BitVec 3) (w : BitVec 3)
  /-- VSRA_VS (R191). -/
  | vsraVs (d : BitVec 5) (a : BitVec 5) (b : BitVec 5) (k : BitVec 3) (w : BitVec 3)
  /-- VSRA_VI (R191). -/
  | vsraVi (d : BitVec 5) (a : BitVec 5) (k : BitVec 3) (w : BitVec 3) (i : BitVec 5)
  /-- VMIN_VV (R191). -/
  | vminVv (d : BitVec 5) (a : BitVec 5) (b : BitVec 5) (k : BitVec 3) (w : BitVec 3)
  /-- VMIN_VS (R191). -/
  | vminVs (d : BitVec 5) (a : BitVec 5) (b : BitVec 5) (k : BitVec 3) (w : BitVec 3)
  /-- VMIN_VI (R191). -/
  | vminVi (d : BitVec 5) (a : BitVec 5) (k : BitVec 3) (w : BitVec 3) (i : BitVec 5)
  /-- VMAX_VV (R191). -/
  | vmaxVv (d : BitVec 5) (a : BitVec 5) (b : BitVec 5) (k : BitVec 3) (w : BitVec 3)
  /-- VMAX_VS (R191). -/
  | vmaxVs (d : BitVec 5) (a : BitVec 5) (b : BitVec 5) (k : BitVec 3) (w : BitVec 3)
  /-- VMAX_VI (R191). -/
  | vmaxVi (d : BitVec 5) (a : BitVec 5) (k : BitVec 3) (w : BitVec 3) (i : BitVec 5)
  /-- VMINU_VV (R191). -/
  | vminuVv (d : BitVec 5) (a : BitVec 5) (b : BitVec 5) (k : BitVec 3) (w : BitVec 3)
  /-- VMINU_VS (R191). -/
  | vminuVs (d : BitVec 5) (a : BitVec 5) (b : BitVec 5) (k : BitVec 3) (w : BitVec 3)
  /-- VMINU_VI (R191). -/
  | vminuVi (d : BitVec 5) (a : BitVec 5) (k : BitVec 3) (w : BitVec 3) (i : BitVec 5)
  /-- VMAXU_VV (R191). -/
  | vmaxuVv (d : BitVec 5) (a : BitVec 5) (b : BitVec 5) (k : BitVec 3) (w : BitVec 3)
  /-- VMAXU_VS (R191). -/
  | vmaxuVs (d : BitVec 5) (a : BitVec 5) (b : BitVec 5) (k : BitVec 3) (w : BitVec 3)
  /-- VMAXU_VI (R191). -/
  | vmaxuVi (d : BitVec 5) (a : BitVec 5) (k : BitVec 3) (w : BitVec 3) (i : BitVec 5)
  /-- VMERGE_VV (R193). -/
  | vmergeVv (d : BitVec 5) (a : BitVec 5) (b : BitVec 5) (k : BitVec 3) (w : BitVec 3)
  /-- VMERGE_VS (R193). -/
  | vmergeVs (d : BitVec 5) (a : BitVec 5) (b : BitVec 5) (k : BitVec 3) (w : BitVec 3)
  /-- VMERGE_VI (R193). -/
  | vmergeVi (d : BitVec 5) (a : BitVec 5) (k : BitVec 3) (w : BitVec 3) (i : BitVec 5)
  /-- VMV_VV (R191). -/
  | vmvVv (d : BitVec 5) (b : BitVec 5) (k : BitVec 3) (w : BitVec 3)
  /-- VMV_VS (R191). -/
  | vmvVs (d : BitVec 5) (b : BitVec 5) (k : BitVec 3) (w : BitVec 3)
  /-- VMV_VI (R191). -/
  | vmvVi (d : BitVec 5) (k : BitVec 3) (w : BitVec 3) (i : BitVec 5)
  /-- VIDX (R192). -/
  | vidx (d : BitVec 5) (k : BitVec 3) (w : BitVec 3) (t : BitVec 5) (s : BitVec 5)
  /-- VMUL_VV (R194). -/
  | vmulVv (d : BitVec 5) (a : BitVec 5) (b : BitVec 5) (k : BitVec 3) (w : BitVec 3)
  /-- VMUL_VS (R194). -/
  | vmulVs (d : BitVec 5) (a : BitVec 5) (b : BitVec 5) (k : BitVec 3) (w : BitVec 3)
  /-- VMULH_VV (R194). -/
  | vmulhVv (d : BitVec 5) (a : BitVec 5) (b : BitVec 5) (k : BitVec 3) (w : BitVec 3)
  /-- VMULH_VS (R194). -/
  | vmulhVs (d : BitVec 5) (a : BitVec 5) (b : BitVec 5) (k : BitVec 3) (w : BitVec 3)
  /-- VMULHU_VV (R194). -/
  | vmulhuVv (d : BitVec 5) (a : BitVec 5) (b : BitVec 5) (k : BitVec 3) (w : BitVec 3)
  /-- VMULHU_VS (R194). -/
  | vmulhuVs (d : BitVec 5) (a : BitVec 5) (b : BitVec 5) (k : BitVec 3) (w : BitVec 3)
  /-- VMACC_VV (R194). -/
  | vmaccVv (d : BitVec 5) (a : BitVec 5) (b : BitVec 5) (k : BitVec 3) (w : BitVec 3)
  /-- VMACC_VS (R194). -/
  | vmaccVs (d : BitVec 5) (a : BitVec 5) (b : BitVec 5) (k : BitVec 3) (w : BitVec 3)
  /-- VNMSAC_VV (R194). -/
  | vnmsacVv (d : BitVec 5) (a : BitVec 5) (b : BitVec 5) (k : BitVec 3) (w : BitVec 3)
  /-- VNMSAC_VS (R194). -/
  | vnmsacVs (d : BitVec 5) (a : BitVec 5) (b : BitVec 5) (k : BitVec 3) (w : BitVec 3)
  /-- VWADD_VV (R194). -/
  | vwaddVv (d : BitVec 5) (a : BitVec 5) (b : BitVec 5) (k : BitVec 3) (w : BitVec 3)
  /-- VWADD_VS (R194). -/
  | vwaddVs (d : BitVec 5) (a : BitVec 5) (b : BitVec 5) (k : BitVec 3) (w : BitVec 3)
  /-- VWMUL_VV (R194). -/
  | vwmulVv (d : BitVec 5) (a : BitVec 5) (b : BitVec 5) (k : BitVec 3) (w : BitVec 3)
  /-- VWMUL_VS (R194). -/
  | vwmulVs (d : BitVec 5) (a : BitVec 5) (b : BitVec 5) (k : BitVec 3) (w : BitVec 3)
  /-- VWMACC_VV (R194). -/
  | vwmaccVv (d : BitVec 5) (a : BitVec 5) (b : BitVec 5) (k : BitVec 3) (w : BitVec 3)
  /-- VWMACC_VS (R194). -/
  | vwmaccVs (d : BitVec 5) (a : BitVec 5) (b : BitVec 5) (k : BitVec 3) (w : BitVec 3)
  /-- VWMACCU_VV (R194). -/
  | vwmaccuVv (d : BitVec 5) (a : BitVec 5) (b : BitVec 5) (k : BitVec 3) (w : BitVec 3)
  /-- VWMACCU_VS (R194). -/
  | vwmaccuVs (d : BitVec 5) (a : BitVec 5) (b : BitVec 5) (k : BitVec 3) (w : BitVec 3)
  /-- VDIV_VV (R194). -/
  | vdivVv (d : BitVec 5) (a : BitVec 5) (b : BitVec 5) (k : BitVec 3) (w : BitVec 3)
  /-- VDIV_VS (R194). -/
  | vdivVs (d : BitVec 5) (a : BitVec 5) (b : BitVec 5) (k : BitVec 3) (w : BitVec 3)
  /-- VREM_VV (R194). -/
  | vremVv (d : BitVec 5) (a : BitVec 5) (b : BitVec 5) (k : BitVec 3) (w : BitVec 3)
  /-- VREM_VS (R194). -/
  | vremVs (d : BitVec 5) (a : BitVec 5) (b : BitVec 5) (k : BitVec 3) (w : BitVec 3)
  /-- VSADD_VV (R194). -/
  | vsaddVv (d : BitVec 5) (a : BitVec 5) (b : BitVec 5) (k : BitVec 3) (w : BitVec 3)
  /-- VSADD_VS (R194). -/
  | vsaddVs (d : BitVec 5) (a : BitVec 5) (b : BitVec 5) (k : BitVec 3) (w : BitVec 3)
  /-- VSADDU_VV (R194). -/
  | vsadduVv (d : BitVec 5) (a : BitVec 5) (b : BitVec 5) (k : BitVec 3) (w : BitVec 3)
  /-- VSADDU_VS (R194). -/
  | vsadduVs (d : BitVec 5) (a : BitVec 5) (b : BitVec 5) (k : BitVec 3) (w : BitVec 3)
  /-- VSSUB_VV (R194). -/
  | vssubVv (d : BitVec 5) (a : BitVec 5) (b : BitVec 5) (k : BitVec 3) (w : BitVec 3)
  /-- VSSUB_VS (R194). -/
  | vssubVs (d : BitVec 5) (a : BitVec 5) (b : BitVec 5) (k : BitVec 3) (w : BitVec 3)
  /-- VSSUBU_VV (R194). -/
  | vssubuVv (d : BitVec 5) (a : BitVec 5) (b : BitVec 5) (k : BitVec 3) (w : BitVec 3)
  /-- VSSUBU_VS (R194). -/
  | vssubuVs (d : BitVec 5) (a : BitVec 5) (b : BitVec 5) (k : BitVec 3) (w : BitVec 3)
  /-- VSMUL_VV (R194). -/
  | vsmulVv (d : BitVec 5) (a : BitVec 5) (b : BitVec 5) (k : BitVec 3) (w : BitVec 3)
  /-- VSMUL_VS (R194). -/
  | vsmulVs (d : BitVec 5) (a : BitVec 5) (b : BitVec 5) (k : BitVec 3) (w : BitVec 3)
  /-- VAADD_VV (R195). -/
  | vaaddVv (d : BitVec 5) (a : BitVec 5) (b : BitVec 5) (k : BitVec 3) (w : BitVec 3)
  /-- VAADD_VS (R195). -/
  | vaaddVs (d : BitVec 5) (a : BitVec 5) (b : BitVec 5) (k : BitVec 3) (w : BitVec 3)
  /-- VAADD_VI (R195). -/
  | vaaddVi (d : BitVec 5) (a : BitVec 5) (k : BitVec 3) (w : BitVec 3) (i : BitVec 5)
  /-- VSSR_VV (R195). -/
  | vssrVv (d : BitVec 5) (a : BitVec 5) (b : BitVec 5) (k : BitVec 3) (w : BitVec 3)
  /-- VSSR_VS (R195). -/
  | vssrVs (d : BitVec 5) (a : BitVec 5) (b : BitVec 5) (k : BitVec 3) (w : BitVec 3)
  /-- VSSR_VI (R195). -/
  | vssrVi (d : BitVec 5) (a : BitVec 5) (k : BitVec 3) (w : BitVec 3) (i : BitVec 5)
  /-- VNSHR_VV (R195). -/
  | vnshrVv (d : BitVec 5) (a : BitVec 5) (b : BitVec 5) (k : BitVec 3) (w : BitVec 3)
  /-- VNSHR_VS (R195). -/
  | vnshrVs (d : BitVec 5) (a : BitVec 5) (b : BitVec 5) (k : BitVec 3) (w : BitVec 3)
  /-- VNSHR_VI (R195). -/
  | vnshrVi (d : BitVec 5) (a : BitVec 5) (k : BitVec 3) (w : BitVec 3) (i : BitVec 5)
  /-- VSEXT_VV (R195). -/
  | vsextVv (d : BitVec 5) (a : BitVec 5) (b : BitVec 5) (k : BitVec 3) (w : BitVec 3)
  /-- VSEXT_VS (R195). -/
  | vsextVs (d : BitVec 5) (a : BitVec 5) (b : BitVec 5) (k : BitVec 3) (w : BitVec 3)
  /-- VSEXT_VI (R195). -/
  | vsextVi (d : BitVec 5) (a : BitVec 5) (k : BitVec 3) (w : BitVec 3) (i : BitVec 5)
  /-- VZEXT_VV (R195). -/
  | vzextVv (d : BitVec 5) (a : BitVec 5) (b : BitVec 5) (k : BitVec 3) (w : BitVec 3)
  /-- VZEXT_VS (R195). -/
  | vzextVs (d : BitVec 5) (a : BitVec 5) (b : BitVec 5) (k : BitVec 3) (w : BitVec 3)
  /-- VZEXT_VI (R195). -/
  | vzextVi (d : BitVec 5) (a : BitVec 5) (k : BitVec 3) (w : BitVec 3) (i : BitVec 5)
  /-- VCMP_VV (R196). -/
  | vcmpVv (d : BitVec 3) (a : BitVec 5) (b : BitVec 5) (c : BitVec 3) (k : BitVec 3) (w : BitVec 3)
  /-- VCMP_VS (R196). -/
  | vcmpVs (d : BitVec 3) (a : BitVec 5) (b : BitVec 5) (c : BitVec 3) (k : BitVec 3) (w : BitVec 3)
  /-- VCMP_VI (R196). -/
  | vcmpVi (d : BitVec 3) (a : BitVec 5) (c : BitVec 3) (k : BitVec 3) (w : BitVec 3) (i : BitVec 5)
  /-- VFADD_VV (R197). -/
  | vfaddVv (d : BitVec 5) (a : BitVec 5) (b : BitVec 5) (k : BitVec 3) (w : BitVec 3)
  /-- VFADD_VS (R197). -/
  | vfaddVs (d : BitVec 5) (a : BitVec 5) (b : BitVec 5) (k : BitVec 3) (w : BitVec 3)
  /-- VFSUB_VV (R197). -/
  | vfsubVv (d : BitVec 5) (a : BitVec 5) (b : BitVec 5) (k : BitVec 3) (w : BitVec 3)
  /-- VFSUB_VS (R197). -/
  | vfsubVs (d : BitVec 5) (a : BitVec 5) (b : BitVec 5) (k : BitVec 3) (w : BitVec 3)
  /-- VFMUL_VV (R197). -/
  | vfmulVv (d : BitVec 5) (a : BitVec 5) (b : BitVec 5) (k : BitVec 3) (w : BitVec 3)
  /-- VFMUL_VS (R197). -/
  | vfmulVs (d : BitVec 5) (a : BitVec 5) (b : BitVec 5) (k : BitVec 3) (w : BitVec 3)
  /-- VFDIV_VV (R197). -/
  | vfdivVv (d : BitVec 5) (a : BitVec 5) (b : BitVec 5) (k : BitVec 3) (w : BitVec 3)
  /-- VFDIV_VS (R197). -/
  | vfdivVs (d : BitVec 5) (a : BitVec 5) (b : BitVec 5) (k : BitVec 3) (w : BitVec 3)
  /-- VFMA_VV (R197). -/
  | vfmaVv (d : BitVec 5) (a : BitVec 5) (b : BitVec 5) (k : BitVec 3) (w : BitVec 3)
  /-- VFMA_VS (R197). -/
  | vfmaVs (d : BitVec 5) (a : BitVec 5) (b : BitVec 5) (k : BitVec 3) (w : BitVec 3)
  /-- VFNMA_VV (R197). -/
  | vfnmaVv (d : BitVec 5) (a : BitVec 5) (b : BitVec 5) (k : BitVec 3) (w : BitVec 3)
  /-- VFNMA_VS (R197). -/
  | vfnmaVs (d : BitVec 5) (a : BitVec 5) (b : BitVec 5) (k : BitVec 3) (w : BitVec 3)
  /-- VFMIN_VV (R197). -/
  | vfminVv (d : BitVec 5) (a : BitVec 5) (b : BitVec 5) (k : BitVec 3) (w : BitVec 3)
  /-- VFMIN_VS (R197). -/
  | vfminVs (d : BitVec 5) (a : BitVec 5) (b : BitVec 5) (k : BitVec 3) (w : BitVec 3)
  /-- VFMAX_VV (R197). -/
  | vfmaxVv (d : BitVec 5) (a : BitVec 5) (b : BitVec 5) (k : BitVec 3) (w : BitVec 3)
  /-- VFMAX_VS (R197). -/
  | vfmaxVs (d : BitVec 5) (a : BitVec 5) (b : BitVec 5) (k : BitVec 3) (w : BitVec 3)
  /-- VFSQRT (R198). -/
  | vfsqrt (d : BitVec 5) (a : BitVec 5) (k : BitVec 3) (w : BitVec 3)
  /-- VFEXP2 (R182). -/
  | vfexp2 (d : BitVec 5) (a : BitVec 5) (k : BitVec 3) (w : BitVec 3)
  /-- VFLOG2 (R182). -/
  | vflog2 (d : BitVec 5) (a : BitVec 5) (k : BitVec 3) (w : BitVec 3)
  /-- VFRECE (R183). -/
  | vfrece (d : BitVec 5) (a : BitVec 5) (k : BitVec 3) (w : BitVec 3)
  /-- VFRSQE (R183). -/
  | vfrsqe (d : BitVec 5) (a : BitVec 5) (k : BitVec 3) (w : BitVec 3)
  /-- VFCVT (R200). -/
  | vfcvt (d : BitVec 5) (a : BitVec 5) (k : BitVec 3) (w : BitVec 3) (c : BitVec 5)
  /-- VFCVT4 (R202). -/
  | vfcvt4 (d : BitVec 5) (a : BitVec 5) (b : BitVec 5) (w : BitVec 3)
  /-- VFCMP_VV (R199). -/
  | vfcmpVv (d : BitVec 3) (a : BitVec 5) (b : BitVec 5) (k : BitVec 3) (w : BitVec 3) (c : BitVec 2)
  /-- VFCMP_VS (R199). -/
  | vfcmpVs (d : BitVec 3) (a : BitVec 5) (b : BitVec 5) (k : BitVec 3) (w : BitVec 3) (c : BitVec 2)
  /-- VRSUM (R208). -/
  | vrsum (d : BitVec 5) (a : BitVec 5) (k : BitVec 3) (w : BitVec 3) (s : BitVec 3)
  /-- VRMAX (R208). -/
  | vrmax (d : BitVec 5) (a : BitVec 5) (k : BitVec 3) (w : BitVec 3) (s : BitVec 3)
  /-- VRMIN (R208). -/
  | vrmin (d : BitVec 5) (a : BitVec 5) (k : BitVec 3) (w : BitVec 3) (s : BitVec 3)
  /-- VRFSUM (R208). -/
  | vrfsum (d : BitVec 5) (a : BitVec 5) (k : BitVec 3) (w : BitVec 3) (s : BitVec 3)
  /-- VRFMAX (R208). -/
  | vrfmax (d : BitVec 5) (a : BitVec 5) (k : BitVec 3) (w : BitVec 3) (s : BitVec 3)
  /-- VSCAN (R211). -/
  | vscan (d : BitVec 5) (a : BitVec 5) (k : BitVec 3) (w : BitVec 3) (e : BitVec 1) (s : BitVec 3)
  /-- VFSCAN (R211). -/
  | vfscan (d : BitVec 5) (a : BitVec 5) (k : BitVec 3) (w : BitVec 3) (e : BitVec 1) (s : BitVec 3)
  /-- VSMAX (R213). -/
  | vsmax (d : BitVec 5) (a : BitVec 5) (b : BitVec 5) (k : BitVec 3) (w : BitVec 3)
  /-- VSLUP (R214). -/
  | vslup (d : BitVec 5) (a : BitVec 5) (b : BitVec 5) (k : BitVec 3) (w : BitVec 3)
  /-- VSLDN (R214). -/
  | vsldn (d : BitVec 5) (a : BitVec 5) (b : BitVec 5) (k : BitVec 3) (w : BitVec 3)
  /-- VRGAT (R215). -/
  | vrgat (d : BitVec 5) (a : BitVec 5) (b : BitVec 5) (k : BitVec 3) (w : BitVec 3)
  /-- VCOMP (R216). -/
  | vcomp (d : BitVec 5) (a : BitVec 5) (b : BitVec 5) (w : BitVec 3)
  /-- VIOTA (R217). -/
  | viota (d : BitVec 5) (a : BitVec 3) (k : BitVec 3) (w : BitVec 3)
  /-- VEXTR (R218). -/
  | vextr (d : BitVec 5) (a : BitVec 5) (b : BitVec 5) (w : BitVec 3)
  /-- VINS (R218). -/
  | vins (d : BitVec 5) (a : BitVec 5) (b : BitVec 5) (w : BitVec 3)
  /-- KAND (R219). -/
  | kand (d : BitVec 3) (a : BitVec 3) (b : BitVec 3) (w : BitVec 3)
  /-- KOR (R219). -/
  | kor (d : BitVec 3) (a : BitVec 3) (b : BitVec 3) (w : BitVec 3)
  /-- KXOR (R219). -/
  | kxor (d : BitVec 3) (a : BitVec 3) (b : BitVec 3) (w : BitVec 3)
  /-- KANDN (R219). -/
  | kandn (d : BitVec 3) (a : BitVec 3) (b : BitVec 3) (w : BitVec 3)
  /-- KNOT (R219). -/
  | knot (d : BitVec 3) (a : BitVec 3) (w : BitVec 3)
  /-- KFFS (R221). -/
  | kffs (d : BitVec 5) (a : BitVec 3) (k : BitVec 3) (w : BitVec 3)
  /-- KPOPC (R221). -/
  | kpopc (d : BitVec 5) (a : BitVec 3) (k : BitVec 3) (w : BitVec 3)
  /-- KSET (R220). -/
  | kset (d : BitVec 3) (a : BitVec 5) (w : BitVec 3)
  /-- KMV (R219). -/
  | kmv (d : BitVec 3) (a : BitVec 3) (w : BitVec 3)
  /-- C_ADD (R61). -/
  | cAdd (p : BitVec 5)
  /-- C_SUB (R61). -/
  | cSub (p : BitVec 5)
  /-- C_AND (R61). -/
  | cAnd (p : BitVec 5)
  /-- C_OR (R61). -/
  | cOr (p : BitVec 5)
  /-- C_XOR (R61). -/
  | cXor (p : BitVec 5)
  /-- C_MUL (R61). -/
  | cMul (p : BitVec 5)
  /-- C_ADDI (R61). -/
  | cAddi (i : BitVec 10)
  /-- C_LI (R61). -/
  | cLi (i : BitVec 10)
  /-- C_SLLI (R61). -/
  | cSlli (s : BitVec 5)
  /-- C_SRLI (R61). -/
  | cSrli (s : BitVec 5)
  /-- C_SRAI (R61). -/
  | cSrai (s : BitVec 5)
  /-- C_MV (R61). -/
  | cMv (p : BitVec 5)
  /-- C_MIN (R61). -/
  | cMin (p : BitVec 5)
  /-- C_MAX (R61). -/
  | cMax (p : BitVec 5)
  /-- C_VADD (R61). -/
  | cVadd (p : BitVec 5)
  /-- C_VSUB (R61). -/
  | cVsub (p : BitVec 5)
  /-- C_VAND (R61). -/
  | cVand (p : BitVec 5)
  /-- C_VOR (R61). -/
  | cVor (p : BitVec 5)
  /-- C_VXOR (R61). -/
  | cVxor (p : BitVec 5)
  /-- C_VMUL (R61). -/
  | cVmul (p : BitVec 5)
  /-- C_VMACC (R61). -/
  | cVmacc (q : BitVec 5) (p : BitVec 5)
  /-- C_VADDS (R61). -/
  | cVadds (p : BitVec 5)
  /-- C_VMULS (R61). -/
  | cVmuls (p : BitVec 5)
  /-- C_VFADD (R61). -/
  | cVfadd (p : BitVec 5)
  /-- C_VFMUL (R61). -/
  | cVfmul (p : BitVec 5)
  /-- C_VFMA (R61). -/
  | cVfma (q : BitVec 5) (p : BitVec 5)
  /-- C_VFMAS (R61). -/
  | cVfmas (q : BitVec 5) (p : BitVec 5)
  /-- C_VFADDS (R61). -/
  | cVfadds (p : BitVec 5)
  /-- VNLD (R308). -/
  | vnld (d : BitVec 5) (a : BitVec 5) (b : BitVec 5) (q : BitVec 1) (l : BitVec 1)
  /-- VNST (R311). -/
  | vnst (d : BitVec 5) (a : BitVec 5) (b : BitVec 5) (r : BitVec 1)
  /-- VNLDV (R309). -/
  | vnldv (d : BitVec 5) (a : BitVec 5) (b : BitVec 5) (k : BitVec 3) (q : BitVec 1)
  /-- VNSTV (R312). -/
  | vnstv (d : BitVec 5) (a : BitVec 5) (b : BitVec 5) (k : BitVec 3) (r : BitVec 1)
  /-- VNQRY (R314). -/
  | vnqry (d : BitVec 5) (a : BitVec 5) (s : BitVec 2)
  /-- VNDROP (R315). -/
  | vndrop (a : BitVec 5) (b : BitVec 5)
  /-- VNOPEN (R316). -/
  | vnopen (d : BitVec 5) (a : BitVec 5) (b : BitVec 5)
  /-- VNCLOSE (R316). -/
  | vnclose (d : BitVec 5) (a : BitVec 5)
  /-- VERSION_RECLAIM (R315). -/
  | versionReclaim (r : BitVec 6) (x : Nat)
  /-- VERSION_HEAP_FREE (R316). -/
  | versionHeapFree (r : BitVec 6)
  /-- VFULL_WATCHDOG (R313). -/
  | vfullWatchdog (r : BitVec 6) (i : Nat)
  /-- STRM (R235). -/
  | strm (a : BitVec 5) (b : BitVec 5) (q : BitVec 4)
  /-- SQWAIT (R236). -/
  | sqwait (q : BitVec 4)
  /-- SQSTAT (R237). -/
  | sqstat (d : BitVec 5) (q : BitVec 4) (s : BitVec 3)
  /-- SQWAIT_DRAINED (R236). -/
  | sqwaitDrained (c : Nat)
  /-- STREAM_PROGRAM_START (R233). -/
  | streamProgramStart (t : TaskKey) (q : BitVec 4)
  /-- STREAM_STALL_RESUME (R253). -/
  | streamStallResume (x : Nat)
  /-- DELIVERY_SPACE_READY (R228). -/
  | deliverySpaceReady (x : Nat)
  /-- SDESC (R244). -/
  | sdesc (d a : BitVec 4) (o : BitVec 46)
  /-- STILE (R228). -/
  | stile (d a b : BitVec 4) (cols rows : BitVec 12) (o0 o1 : BitVec 11)
  /-- SGATH (R248). -/
  | sgath (d a b : BitVec 4) (n : BitVec 12) (iw : BitVec 2)
  /-- SSCAT (R248). -/
  | sscat (d a b : BitVec 4) (n : BitVec 12) (iw : BitVec 2)
  /-- SCONV (R245). -/
  | sconv (f t : BitVec 5) (wd : BitVec 6) (rm : BitVec 3) (sat : BitVec 1)
  /-- SFILL (R246). -/
  | sfill (b : BitVec 4) (m : BitVec 46)
  /-- SLOOP (R249). -/
  | sloop (d a : BitVec 4) (r : BitVec 1) (n : BitVec 32)
  /-- SNEXT (R249). -/
  | snext (d : BitVec 4)
  /-- SWAITV (R320). -/
  | swaitv (a b : BitVec 4) (o : BitVec 46)
  /-- SVER (R320). -/
  | sver (d a b : BitVec 4) (o : BitVec 46)
  /-- SSIG (R231). -/
  | ssig (a b : BitVec 4) (o : BitVec 46)
  /-- SFENCE (R244). -/
  | sfence (s : BitVec 2)
  /-- SEND (R244). -/
  | send
  /-- MZERO (R266). -/
  | mzero (d : BitVec 3)
  /-- MLDA (R258). -/
  | mlda (a : BitVec 5) (b : BitVec 5) (f : BitVec 2)
  /-- MLDB (R260). -/
  | mldb (a : BitVec 5) (f : BitVec 3) (u : BitVec 1)
  /-- MMA (R261). -/
  | mma (d : BitVec 3)
  /-- MRSC (R263). -/
  | mrsc (d : BitVec 3) (a : BitVec 5) (m : BitVec 1)
  /-- MSTR (R267). -/
  | mstr (d : BitVec 3) (a : BitVec 5) (b : BitVec 5) (f : BitVec 3)
  /-- MMOVV_TO_V (R268). -/
  | mmovvToV (d : BitVec 5) (a : BitVec 3) (q : BitVec 4)
  /-- MMOVV_TO_T (R268). -/
  | mmovvToT (d : BitVec 3) (a : BitVec 5) (q : BitVec 4)
  /-- TENQ (R370). -/
  | tenq (d : BitVec 5) (a : BitVec 5)
  /-- TARG (R372). -/
  | targ (d : BitVec 5) (a : BitVec 5)
  /-- TYLD (R373). -/
  | tyld
  /-- TSELF (R375). -/
  | tself (d : BitVec 5) (s : BitVec 2)
  /-- TEND (R374). -/
  | tend
  /-- NPOST (R418). -/
  | npost (d : BitVec 5) (a : BitVec 5)
  /-- NWAIT (R420). -/
  | nwait (d : BitVec 5) (a : BitVec 5) (b : BitVec 5)
  /-- ENCJ (R421). -/
  | encj (d : BitVec 5) (a : BitVec 5)
  /-- NWAIT_SATISFIED (R420). -/
  | nwaitSatisfied (c : Nat)
  /-- NET_REQUEST_COMPLETE (R418). -/
  | netRequestComplete (i : Nat) (ok : Bool)
  /-- NET_PACKET_RECEIVE (R419). -/
  | netPacketReceive (p : Packet)
  /-- ENC_JOB_START (R422). -/
  | encJobStart (e : Nat)
  /-- ENC_JOB_COMPLETE (R422). -/
  | encJobComplete (e : Nat)
  /-- VARIABLE_LATENCY_COMPLETE (R55). -/
  | variableLatencyComplete (c : Nat) (q : SeqId) (i : Nat)
  /-- TASK_BIND (R368). -/
  | taskBind (c : Nat)
  /-- PREEMPT_SAVE (R392). -/
  | preemptSave (c : Nat)
  /-- BUDGET_END (R368). -/
  | budgetEnd (c : Nat)
  /-- BARRIER_PARK (R363). -/
  | barrierPark (c : Nat)
  /-- BARRIER_PARK_WAKE (R363). -/
  | barrierParkWake (t : TaskKey)
  /-- STG_SWAP (R367). -/
  | stgSwap (c : Nat) (back : Bool)
  /-- DCMD_PRE (R368). -/
  | dcmdPre (c : Nat)
  /-- CONTRACT_RELEASE (R381). -/
  | contractRelease (n : Nat)
  /-- FRAME_SYNC_PULSE (R381). -/
  | frameSyncPulse
  /-- CONTRACT_OVERRUN (R384). -/
  | contractOverrun (n : Nat)
  /-- LAUNCH (R361). -/
  | launch (p : Nat)
  /-- ABORT (R364). -/
  | abort (p : Nat)
  /-- ADMIT (R382). -/
  | admitCall (p : Nat)
  /-- REVOKE (R409). -/
  | revoke (p : Nat)
  /-- SETVD (R377). -/
  | setvd (p : Nat)
  /-- VNOPEN_CALL (R316). -/
  | vnopenCall (p : Nat)
  /-- VNCLOSE_CALL (R316). -/
  | vncloseCall (p : Nat)
  /-- STATUS (R412). -/
  | status (p : Nat)
  /-- ENCOPEN (R409). -/
  | encopen (p : Nat)
  /-- ENCCLOSE (R409). -/
  | encclose (p : Nat)
  /-- PEERSET (R412). -/
  | peerset (p : Nat)
  /-- EXPOSE (R417). -/
  | expose (p : Nat)
  /-- SETPWR (R424). -/
  | setpwr (p : Nat)
  /-- SETIRQ (R413). -/
  | setirq (p : Nat)
  /-- ENVELOPE_APPLY (R424). -/
  | envelopeApply
  /-- ORDERED_DOORBELL_WRITE (R346). -/
  | orderedDoorbellWrite (p : Nat) (o : Nat) (v : Word)
  /-- HOST_READ (R18). -/
  | hostRead (p : HostPath) (b n : Nat)
  /-- HOST_WRITE (R18). -/
  | hostWrite (p : HostPath) (b n : Nat) (v : Nat)
  /-- SPDM_GET_MEASUREMENTS (R423). -/
  | spdmGetMeasurements (i : Nat)
  /-- BASE_DIE_READ (R283). -/
  | baseDieRead (r : DieAccess)
  /-- BASE_DIE_WRITE (R283). -/
  | baseDieWrite (r : DieAccess) (v : Nat)
  /-- PKCMD_GO (R285). -/
  | pkcmdGo (s : BitVec 3) (v : Word)
  /-- PKCMD_REPACK_DONE (R285). -/
  | pkcmdRepackDone (s : BitVec 3)
  /-- OWNCMD_GO (R350). -/
  | owncmdGo (v : Word)
  /-- OWNCMD_FLIP_DONE (R350). -/
  | owncmdFlipDone
  /-- LLCCFG_WRITE (R292). -/
  | llccfgWrite (d : BitVec 2) (v : Word)
  /-- LLC_MODE_CHANGE_DONE (R292). -/
  | llcModeChangeDone (d : BitVec 2)
  /-- REGISTER_WINDOW_WRITE (R407). -/
  | registerWindowWrite (o : Nat) (v : Word)
  /-- REFRESH (R290). -/
  | refresh (s : BitVec 3) (k : Nat)
  /-- ALERT_BACKOFF (R290). -/
  | alertBackoff (s : BitVec 3) (k : Nat)
  /-- LINK_AUTH_FAILURE (R289). -/
  | linkAuthFailure (l : BitVec 5)
  /-- CXL_LINK_LOSS (R351). -/
  | cxlLinkLoss (p : BitVec 1)
  /-- THERMAL_TRIP (R424). -/
  | thermalTrip (x : FatalSource)
  /-- FUNCTION_LEVEL_RESET (R407). -/
  | functionLevelReset (n : Nat)
  /-- COLD_RESET (R428). -/
  | coldReset
  /-- WARM_RESET (R428). -/
  | warmReset
  /-- CXL_LINK_UP (R351). -/
  | cxlLinkUp (p : BitVec 1)
  /-- APPLICATION_CORE_ACCESS (R416). -/
  | applicationCoreAccess (h : BitVec 4) (a : HartAccess)
  /-- HDM_DECODER_COMMIT (R414). -/
  | hdmDecoderCommit (p : BitVec 1) (i : BitVec 2) (d : HdmDecoder)
deriving DecidableEq, Repr

end Sys2Proof
end

