-- ==== Sys2Proof/WellFormed.lean ====
section
/-! DEFINITION. Which instructions are well formed: field values that their rules do not give a meaning, and units that
the LZ-9400 does not have, are refused. An encoded instruction that is not well formed raises ILLOP when it is performed
(R49, R69). -/

namespace Sys2Proof

/-- The core of a step exists (R1). -/
def coreOk (c : Nat) : Bool := c < Config.cores

/-- An extent number is 0 to 15 (R35). -/
def extentOk (n : BitVec 5) : Bool := n.toNat < 16

/-- A doorbell page: functions 0 to 384, and the ordered pages of the two CXL ports (R346, R407). -/
def pageOk (p : Nat) : Bool := p < 387

/-- A descriptor slot is 0 to 7 (R241). -/
def slotOk (d : BitVec 4) : Bool := d.toNat < 8

/-- The field count of a segment form is 2 to 8 (R147). -/
def segOk (n : BitVec 5) : Bool := 1 ≤ n.toNat && n.toNat ≤ 7

/-- The conversion codes of FCVT (R120). -/
def cvtOk (c : BitVec 5) : Bool :=
  c.toNat ≤ 9 || (0x10 ≤ c.toNat && c.toNat ≤ 0x13) || (0x18 ≤ c.toNat && c.toNat ≤ 0x1B)

/-- The operations of AMO; FADD needs 32 or 64 bits (R339). -/
def amoOk (o : BitVec 4) (z : BitVec 2) : Bool := o.toNat ≤ 9 && (o ≠ 9 || 2 ≤ z.toNat)

/-- Whether an instruction is well formed. -/
def Instr.wf : Instr → Bool
  | .ldc d _ _ _ _ _ => d ≠ 0
  | .etag _ _ b _ => extentOk b
  | .extn d _ _ _ _ => d ≠ 0 && extentOk d
  | .extrBase _ b _ => extentOk b
  | .extrLen _ b _ => extentOk b
  | .extrAttr _ b _ => extentOk b
  | .loop _ e => e ≠ 0
  | .loopi e _ => e ≠ 0
  | .rdvPairComplete c => coreOk c
  | .fcvt _ _ _ c => cvtOk c
  | .fmv _ _ _ _ o => o.toNat ≤ 2
  | .extentLowWrite c _ _ => coreOk c
  | .extentHighWrite c _ _ => coreOk c
  | .vtWrite c _ => coreOk c
  | .vlWrite c _ => coreOk c
  | .frmWrite c _ => coreOk c
  | .wfeWake c => coreOk c
  | .amo _ _ _ o z => amoOk o z
  | .acqSatisfied c _ => coreOk c
  | .fence _ k => k ≠ 0
  | .qfence q => q ≠ 0
  | .windowCountReached c _ => coreOk c
  | .vldseg _ _ _ _ n => segOk n
  | .vstseg _ _ _ _ n => segOk n
  | .vmergeVv _ _ _ k _ => k ≠ 0
  | .vmergeVs _ _ _ k _ => k ≠ 0
  | .vmergeVi _ _ k _ _ => k ≠ 0
  | .vfcvt _ _ _ _ c => c.toNat ≤ 8
  | .vsmax _ _ b _ _ => 1 ≤ b.toNat && b.toNat ≤ 30
  | .vnld d _ _ _ l => l = 0 || (d ≠ 0 && d ≠ 31)
  | .strm _ b _ => b.toNat ≤ 29
  | .sqstat _ _ s => s.toNat ≤ 4
  | .sqwaitDrained c => coreOk c
  | .sdesc d _ _ => slotOk d
  | .stile d _ _ _ _ _ _ => slotOk d
  | .sgath d _ _ _ iw => slotOk d && iw ≠ 3
  | .sscat d _ _ _ iw => slotOk d && iw ≠ 3
  | .sconv f t _ rm _ => f.toNat ≤ 8 && t.toNat ≤ 8 && rm.toNat ≤ 5 && (f ≠ 0 || t = 0)
  | .sloop _ a r n => if r = 1 then n = 0 else a = 0
  | .mlda _ _ f => f ≠ 3
  | .mldb _ f u => f.toNat ≤ 3 && (u = 0 || 2 ≤ f.toNat)
  | .mstr _ _ _ f => f.toNat ≤ 5
  | .npost _ a => 1 ≤ a.toNat && a.toNat ≤ 26
  | .nwaitSatisfied c => coreOk c
  | .netPacketReceive p => p.value < 2 ^ (8 * p.bytes)
  | .encJobStart e => e < 16
  | .encJobComplete e => e < 16
  | .variableLatencyComplete c _ _ => coreOk c
  | .taskBind c => coreOk c
  | .preemptSave c => coreOk c
  | .budgetEnd c => coreOk c
  | .barrierPark c => coreOk c
  | .stgSwap c _ => coreOk c
  | .dcmdPre c => coreOk c
  | .launch p => pageOk p
  | .abort p => pageOk p
  | .admitCall p => pageOk p
  | .revoke p => pageOk p
  | .setvd p => pageOk p
  | .vnopenCall p => pageOk p
  | .vncloseCall p => pageOk p
  | .status p => pageOk p
  | .encopen p => pageOk p
  | .encclose p => pageOk p
  | .peerset p => pageOk p
  | .expose p => pageOk p
  | .setpwr p => pageOk p
  | .setirq p => pageOk p
  | .orderedDoorbellWrite p _ _ => p < 2
  | .hostWrite _ _ n v => v < 2 ^ (8 * n)
  | .baseDieRead r => r.addr + r.width ≤ Config.physEnd
  | .baseDieWrite r v => r.addr + r.width ≤ Config.physEnd && v < 2 ^ r.width
  | .registerWindowWrite o _ => o % 8 = 0
  | .hdmDecoderCommit _ _ d => 1 ≤ d.ways
  | .add .. | .sub .. | .and .. | .or .. | .xor .. | .andn .. | .sll .. | .srl .. | .sra .. | .rol .. | .ror .. |
    .slt .. | .sltu .. | .min .. | .max .. | .minu .. | .maxu .. | .mul .. | .mulh .. | .mulhu .. | .div .. | .divu
    .. | .rem .. | .remu .. | .clz .. | .ctz .. | .popc .. | .bext .. | .bins .. | .baddr .. | .slli .. | .srli .. |
    .srai .. | .addi .. | .andi .. | .ori .. | .xori .. | .slti .. | .limm .. | .ld .. | .st .. | .pref .. | .beq ..
    | .bne .. | .blt .. | .bge .. | .bltu .. | .bgeu .. | .jal .. | .jalr .. | .lexit | .rpt .. | .fork .. | .rdv |
    .rdvEnd | .fadd .. | .fsub .. | .fmul .. | .fdiv .. | .fsqrt .. | .fmin .. | .fmax .. | .fma .. | .fcmp .. |
    .ctlr .. | .ctlw .. | .ctls .. | .ctlc .. | .sys .. | .eret | .wfe .. | .tlbiPage .. | .tlbiAsid .. | .tlbiAll |
    .clwb .. | .clinv .. | .cldrop .. | .bkpt .. | .ill | .cas .. | .vamo .. | .faas .. | .acq .. | .rel .. | .gbind
    .. | .gunbind .. | .cfence | .barinit .. | .barwait .. | .barrel .. | .setvl .. | .setvt .. | .vld .. | .vlds ..
    | .vldx .. | .vldff .. | .vldWc .. | .vldc .. | .vst .. | .vsts .. | .vstx .. | .vaddVv .. | .vaddVs .. |
    .vaddVi .. | .vsubVv .. | .vsubVs .. | .vsubVi .. | .vrsubVv .. | .vrsubVs .. | .vrsubVi .. | .vandVv .. |
    .vandVs .. | .vandVi .. | .vorVv .. | .vorVs .. | .vorVi .. | .vxorVv .. | .vxorVs .. | .vxorVi .. | .vsllVv ..
    | .vsllVs .. | .vsllVi .. | .vsrlVv .. | .vsrlVs .. | .vsrlVi .. | .vsraVv .. | .vsraVs .. | .vsraVi .. |
    .vminVv .. | .vminVs .. | .vminVi .. | .vmaxVv .. | .vmaxVs .. | .vmaxVi .. | .vminuVv .. | .vminuVs .. |
    .vminuVi .. | .vmaxuVv .. | .vmaxuVs .. | .vmaxuVi .. | .vmvVv .. | .vmvVs .. | .vmvVi .. | .vidx .. | .vmulVv
    .. | .vmulVs .. | .vmulhVv .. | .vmulhVs .. | .vmulhuVv .. | .vmulhuVs .. | .vmaccVv .. | .vmaccVs .. |
    .vnmsacVv .. | .vnmsacVs .. | .vwaddVv .. | .vwaddVs .. | .vwmulVv .. | .vwmulVs .. | .vwmaccVv .. | .vwmaccVs
    .. | .vwmaccuVv .. | .vwmaccuVs .. | .vdivVv .. | .vdivVs .. | .vremVv .. | .vremVs .. | .vsaddVv .. | .vsaddVs
    .. | .vsadduVv .. | .vsadduVs .. | .vssubVv .. | .vssubVs .. | .vssubuVv .. | .vssubuVs .. | .vsmulVv .. |
    .vsmulVs .. | .vaaddVv .. | .vaaddVs .. | .vaaddVi .. | .vssrVv .. | .vssrVs .. | .vssrVi .. | .vnshrVv .. |
    .vnshrVs .. | .vnshrVi .. | .vsextVv .. | .vsextVs .. | .vsextVi .. | .vzextVv .. | .vzextVs .. | .vzextVi .. |
    .vcmpVv .. | .vcmpVs .. | .vcmpVi .. | .vfaddVv .. | .vfaddVs .. | .vfsubVv .. | .vfsubVs .. | .vfmulVv .. |
    .vfmulVs .. | .vfdivVv .. | .vfdivVs .. | .vfmaVv .. | .vfmaVs .. | .vfnmaVv .. | .vfnmaVs .. | .vfminVv .. |
    .vfminVs .. | .vfmaxVv .. | .vfmaxVs .. | .vfsqrt .. | .vfexp2 .. | .vflog2 .. | .vfrece .. | .vfrsqe .. |
    .vfcvt4 .. | .vfcmpVv .. | .vfcmpVs .. | .vrsum .. | .vrmax .. | .vrmin .. | .vrfsum .. | .vrfmax .. | .vscan ..
    | .vfscan .. | .vslup .. | .vsldn .. | .vrgat .. | .vcomp .. | .viota .. | .vextr .. | .vins .. | .kand .. |
    .kor .. | .kxor .. | .kandn .. | .knot .. | .kffs .. | .kpopc .. | .kset .. | .kmv .. | .cAdd .. | .cSub .. |
    .cAnd .. | .cOr .. | .cXor .. | .cMul .. | .cAddi .. | .cLi .. | .cSlli .. | .cSrli .. | .cSrai .. | .cMv .. |
    .cMin .. | .cMax .. | .cVadd .. | .cVsub .. | .cVand .. | .cVor .. | .cVxor .. | .cVmul .. | .cVmacc .. |
    .cVadds .. | .cVmuls .. | .cVfadd .. | .cVfmul .. | .cVfma .. | .cVfmas .. | .cVfadds .. | .vnst .. | .vnldv ..
    | .vnstv .. | .vnqry .. | .vndrop .. | .vnopen .. | .vnclose .. | .versionReclaim .. | .versionHeapFree .. |
    .vfullWatchdog .. | .sqwait .. | .streamProgramStart .. | .streamStallResume .. | .deliverySpaceReady .. |
    .sfill .. | .snext .. | .swaitv .. | .sver .. | .ssig .. | .sfence .. | .send | .mzero .. | .mma .. | .mrsc .. |
    .mmovvToV .. | .mmovvToT .. | .tenq .. | .targ .. | .tyld | .tself .. | .tend | .nwait .. | .encj .. |
    .netRequestComplete .. | .barrierParkWake .. | .contractRelease .. | .frameSyncPulse | .contractOverrun .. |
    .envelopeApply | .hostRead .. | .spdmGetMeasurements .. | .pkcmdGo .. | .pkcmdRepackDone .. | .owncmdGo .. |
    .owncmdFlipDone | .llccfgWrite .. | .llcModeChangeDone .. | .refresh .. | .alertBackoff .. | .linkAuthFailure ..
    | .cxlLinkLoss .. | .thermalTrip .. | .functionLevelReset .. | .coldReset | .warmReset | .cxlLinkUp .. |
    .applicationCoreAccess .. => true

end Sys2Proof
end

