-- ==== Sys2Proof/Decode.lean ====
section
/-! DEFINITION. The decoder, total on any bytes, and the encoder, both written from the fields and the fixed bits that
spec/opcode_table.json gives each row (R47, R48, R60, R61, R66-R70), and the same for stream commands (R241, R244,
R245). Definitions that build an instruction are marked noncomputable: Lean's compiler numbers no more than 244
constructors with fields. The kernel evaluates them all the same. -/

namespace Sys2Proof

/-- Why bits are not an instruction (R69, R241). -/
inductive Reject where
  /-- A major that is not assigned. -/
  | reservedMajor
  /-- Major 0x3F, permanently illegal (R70). -/
  | illegalMajor
  /-- A function value that is not assigned, or a non-zero unused field (R49). -/
  | unassigned
  /-- A compact OP that is not assigned (R61, R70). -/
  | reservedCompact
  /-- A compact form or a stream command with a non-zero unused field (R60, R241). -/
  | unusedField
  /-- A stream command whose SOP is not assigned (R241). -/
  | reservedCommand
  /-- A stream command whose CD names no descriptor slot (R241). -/
  | noSlot
  /-- The bytes end inside the instruction. -/
  | short
deriving DecidableEq, Repr

/-- The fields of the 32-bit formats (R48). -/
def fD (w : BitVec 32) : BitVec 5 := w.extractLsb' 7 5
def fA (w : BitVec 32) : BitVec 5 := w.extractLsb' 12 5
def fB (w : BitVec 32) : BitVec 5 := w.extractLsb' 17 5
def fW (w : BitVec 32) : BitVec 3 := w.extractLsb' 22 3
def fK (w : BitVec 32) : BitVec 3 := w.extractLsb' 25 3
def fF (w : BitVec 32) : BitVec 7 := w.extractLsb' 25 7
def fOp (w : BitVec 32) : BitVec 4 := w.extractLsb' 28 4

/-- Major 0x00 (R66, R68). -/
noncomputable def decodeMajor00 (w : BitVec 32) : Except Reject Instr :=
  if fF w = 0 then .ok (.add (fD w) (fA w) (fB w) (fW w)) else
  if fF w = 1 then .ok (.sub (fD w) (fA w) (fB w) (fW w)) else
  if fF w = 2 then .ok (.and (fD w) (fA w) (fB w) (fW w)) else
  if fF w = 3 then .ok (.or (fD w) (fA w) (fB w) (fW w)) else
  if fF w = 4 then .ok (.xor (fD w) (fA w) (fB w) (fW w)) else
  if fF w = 5 then .ok (.andn (fD w) (fA w) (fB w) (fW w)) else
  if fF w = 6 then .ok (.sll (fD w) (fA w) (fB w) (fW w)) else
  if fF w = 7 then .ok (.srl (fD w) (fA w) (fB w) (fW w)) else
  if fF w = 8 then .ok (.sra (fD w) (fA w) (fB w) (fW w)) else
  if fF w = 9 then .ok (.rol (fD w) (fA w) (fB w) (fW w)) else
  if fF w = 10 then .ok (.ror (fD w) (fA w) (fB w) (fW w)) else
  if fF w = 11 then .ok (.slt (fD w) (fA w) (fB w) (fW w)) else
  if fF w = 12 then .ok (.sltu (fD w) (fA w) (fB w) (fW w)) else
  if fF w = 13 then .ok (.min (fD w) (fA w) (fB w) (fW w)) else
  if fF w = 14 then .ok (.max (fD w) (fA w) (fB w) (fW w)) else
  if fF w = 15 then .ok (.minu (fD w) (fA w) (fB w) (fW w)) else
  if fF w = 16 then .ok (.maxu (fD w) (fA w) (fB w) (fW w)) else
  if fF w = 32 then .ok (.mul (fD w) (fA w) (fB w) (fW w)) else
  if fF w = 33 then .ok (.mulh (fD w) (fA w) (fB w) (fW w)) else
  if fF w = 34 then .ok (.mulhu (fD w) (fA w) (fB w) (fW w)) else
  if fF w = 35 then .ok (.div (fD w) (fA w) (fB w) (fW w)) else
  if fF w = 36 then .ok (.divu (fD w) (fA w) (fB w) (fW w)) else
  if fF w = 37 then .ok (.rem (fD w) (fA w) (fB w) (fW w)) else
  if fF w = 38 then .ok (.remu (fD w) (fA w) (fB w) (fW w)) else
  if fF w = 48 ∧ fB w = 0 then .ok (.clz (fD w) (fA w) (fW w)) else
  if fF w = 49 ∧ fB w = 0 then .ok (.ctz (fD w) (fA w) (fW w)) else
  if fF w = 50 ∧ fB w = 0 then .ok (.popc (fD w) (fA w) (fW w)) else
  if fF w = 51 then .ok (.bext (fD w) (fA w) (fB w) (fW w)) else
  if fF w = 52 then .ok (.bins (fD w) (fA w) (fB w) (fW w)) else
  if fF w = 53 then .ok (.baddr (fD w) (fA w) (fB w) (fW w)) else
  if w.extractLsb' 26 6 = 32 then .ok (.slli (fD w) (fA w) (w.extractLsb' 25 1 ++ (fB w)) (fW w)) else
  if w.extractLsb' 26 6 = 33 then .ok (.srli (fD w) (fA w) (w.extractLsb' 25 1 ++ (fB w)) (fW w)) else
  if w.extractLsb' 26 6 = 34 then .ok (.srai (fD w) (fA w) (w.extractLsb' 25 1 ++ (fB w)) (fW w)) else
  .error .unassigned

/-- Major 0x01 (R66, R68). -/
noncomputable def decodeMajor01 (w : BitVec 32) : Except Reject Instr :=
  .ok (.addi (fD w) (fA w) ((fF w) ++ (fB w)) (fW w))

/-- Major 0x02 (R66, R68). -/
noncomputable def decodeMajor02 (w : BitVec 32) : Except Reject Instr :=
  .ok (.andi (fD w) (fA w) ((fF w) ++ (fB w)) (fW w))

/-- Major 0x03 (R66, R68). -/
noncomputable def decodeMajor03 (w : BitVec 32) : Except Reject Instr :=
  .ok (.ori (fD w) (fA w) ((fF w) ++ (fB w)) (fW w))

/-- Major 0x04 (R66, R68). -/
noncomputable def decodeMajor04 (w : BitVec 32) : Except Reject Instr :=
  .ok (.xori (fD w) (fA w) ((fF w) ++ (fB w)) (fW w))

/-- Major 0x05 (R66, R68). -/
noncomputable def decodeMajor05 (w : BitVec 32) : Except Reject Instr :=
  .ok (.slti (fD w) (fA w) ((fF w) ++ (fB w)) (fW w))

/-- Major 0x06 (R66, R68). -/
noncomputable def decodeMajor06 (w : BitVec 32) : Except Reject Instr :=
  if w.extractLsb' 24 1 = 0 then
    .ok (.limm (fD w) ((fF w) ++ w.extractLsb' 13 9) (w.extractLsb' 22 2) (w.extractLsb' 12 1)) else
  .error .unassigned

/-- Major 0x08 (R66, R68). -/
noncomputable def decodeMajor08 (w : BitVec 32) : Except Reject Instr :=
  .ok (.ld (fD w) (fA w) (fB w) (w.extractLsb' 31 1) (w.extractLsb' 25 6) (fW w))

/-- Major 0x09 (R66, R68). -/
noncomputable def decodeMajor09 (w : BitVec 32) : Except Reject Instr :=
  if w.extractLsb' 31 1 = 0 then .ok (.st (fD w) (fA w) (fB w) (w.extractLsb' 25 6) (fW w)) else
  .error .unassigned

/-- Major 0x0A (R66, R68). -/
noncomputable def decodeMajor0A (w : BitVec 32) : Except Reject Instr :=
  if w.extractLsb' 31 1 = 0 ∧ fD w = 0 then .ok (.pref (fA w) (fB w) (w.extractLsb' 25 6) (fW w)) else
  .ok (.ldc (fD w) (fA w) (fB w) (w.extractLsb' 31 1) (w.extractLsb' 25 6) (fW w))

/-- Major 0x0B (R66, R68). -/
noncomputable def decodeMajor0B (w : BitVec 32) : Except Reject Instr :=
  if fF w = 0 then .ok (.etag (fD w) (fA w) (fB w) (fW w)) else
  if w.extractLsb' 27 5 = 1 then .ok (.extn (fD w) (fA w) (fB w) (w.extractLsb' 25 2) (fW w)) else
  if fF w = 8 ∧ fA w = 0 then .ok (.extrBase (fD w) (fB w) (fW w)) else
  if fF w = 9 ∧ fA w = 0 then .ok (.extrLen (fD w) (fB w) (fW w)) else
  if fF w = 10 ∧ fA w = 0 then .ok (.extrAttr (fD w) (fB w) (fW w)) else
  .error .unassigned

/-- Major 0x0C (R66, R68). -/
noncomputable def decodeMajor0C (w : BitVec 32) : Except Reject Instr :=
  if fW w = 0 then .ok (.beq (fA w) (fB w) ((fF w) ++ (fD w))) else
  if fW w = 1 then .ok (.bne (fA w) (fB w) ((fF w) ++ (fD w))) else
  if fW w = 2 then .ok (.blt (fA w) (fB w) ((fF w) ++ (fD w))) else
  if fW w = 3 then .ok (.bge (fA w) (fB w) ((fF w) ++ (fD w))) else
  if fW w = 4 then .ok (.bltu (fA w) (fB w) ((fF w) ++ (fD w))) else
  if fW w = 5 then .ok (.bgeu (fA w) (fB w) ((fF w) ++ (fD w))) else
  .error .unassigned

/-- Major 0x0D (R66, R68). -/
noncomputable def decodeMajor0D (w : BitVec 32) : Except Reject Instr :=
  .ok (.jal (fD w) (w.extractLsb' 12 20))

/-- Major 0x0E (R66, R68). -/
noncomputable def decodeMajor0E (w : BitVec 32) : Except Reject Instr :=
  .ok (.jalr (fD w) (fA w) ((fF w) ++ (fB w)) (fW w))

/-- Major 0x0F (R66, R68). -/
noncomputable def decodeMajor0F (w : BitVec 32) : Except Reject Instr :=
  if fOp w = 0 ∧ fD w = 0 then .ok (.loop (fA w) (w.extractLsb' 17 11)) else
  if fOp w = 1 then .ok (.loopi (w.extractLsb' 17 11) (w.extractLsb' 7 10)) else
  if w.extractLsb' 7 25 = 4194304 then .ok (.lexit) else
  if fOp w = 3 ∧ fD w = 0 then .ok (.rpt (fK w) (fW w) (w.extractLsb' 12 10)) else
  if fOp w = 4 then .ok (.fork (w.extractLsb' 7 21)) else
  if w.extractLsb' 7 25 = 10485760 then .ok (.rdv) else
  if w.extractLsb' 7 25 = 11534336 then .ok (.rdvEnd) else
  .error .unassigned

/-- Major 0x10 (R66, R68). -/
noncomputable def decodeMajor10 (w : BitVec 32) : Except Reject Instr :=
  if w.extractLsb' 27 5 = 0 then .ok (.fadd (fD w) (fA w) (fB w) (w.extractLsb' 25 2) (fW w)) else
  if w.extractLsb' 27 5 = 1 then .ok (.fsub (fD w) (fA w) (fB w) (w.extractLsb' 25 2) (fW w)) else
  if w.extractLsb' 27 5 = 2 then .ok (.fmul (fD w) (fA w) (fB w) (w.extractLsb' 25 2) (fW w)) else
  if w.extractLsb' 27 5 = 3 then .ok (.fdiv (fD w) (fA w) (fB w) (w.extractLsb' 25 2) (fW w)) else
  if w.extractLsb' 27 5 = 4 ∧ fB w = 0 then .ok (.fsqrt (fD w) (fA w) (w.extractLsb' 25 2) (fW w)) else
  if w.extractLsb' 27 5 = 5 then .ok (.fmin (fD w) (fA w) (fB w) (w.extractLsb' 25 2) (fW w)) else
  if w.extractLsb' 27 5 = 6 then .ok (.fmax (fD w) (fA w) (fB w) (w.extractLsb' 25 2) (fW w)) else
  .error .unassigned

/-- Major 0x11 (R66, R68). -/
noncomputable def decodeMajor11 (w : BitVec 32) : Except Reject Instr :=
  if w.extractLsb' 27 5 = 0 then .ok (.fma (fD w) (fA w) (fB w) (w.extractLsb' 25 2) (fW w)) else
  .error .unassigned

/-- Major 0x12 (R66, R68). -/
noncomputable def decodeMajor12 (w : BitVec 32) : Except Reject Instr :=
  if w.extractLsb' 29 3 = 0 then
    .ok (.fcmp (fD w) (fA w) (fB w) (w.extractLsb' 27 2) (w.extractLsb' 25 2) (fW w)) else
  .error .unassigned

/-- Major 0x13 (R66, R68). -/
noncomputable def decodeMajor13 (w : BitVec 32) : Except Reject Instr :=
  if fF w = 0 then .ok (.fcvt (fD w) (fA w) (fW w) (fB w)) else
  if w.extractLsb' 27 5 = 1 then .ok (.fmv (fD w) (fA w) (w.extractLsb' 25 2) (fW w) (fB w)) else
  .error .unassigned

/-- Major 0x14 (R66, R68). -/
noncomputable def decodeMajor14 (w : BitVec 32) : Except Reject Instr :=
  if fW w = 0 ∧ fA w = 0 then .ok (.ctlr (fD w) ((fF w) ++ (fB w))) else
  if fW w = 1 then .ok (.ctlw (fD w) (fA w) ((fF w) ++ (fB w))) else
  if fW w = 2 then .ok (.ctls (fD w) (fA w) ((fF w) ++ (fB w))) else
  if fW w = 3 then .ok (.ctlc (fD w) (fA w) ((fF w) ++ (fB w))) else
  .error .unassigned

/-- Major 0x15 (R66, R68). -/
noncomputable def decodeMajor15 (w : BitVec 32) : Except Reject Instr :=
  if fOp w = 0 ∧ fD w = 0 then .ok (.sys (w.extractLsb' 12 16)) else
  if w.extractLsb' 7 25 = 2097152 then .ok (.eret) else
  if w.extractLsb' 22 10 = 128 then .ok (.wfe (fD w) (fA w) (fB w)) else
  if w.extractLsb' 22 10 = 192 ∧ fD w = 0 then .ok (.tlbiPage (fA w) (fB w)) else
  if w.extractLsb' 22 10 = 208 ∧ w.extractLsb' 7 10 = 0 then .ok (.tlbiAsid (fB w)) else
  if w.extractLsb' 7 25 = 7340032 then .ok (.tlbiAll) else
  if w.extractLsb' 22 10 = 256 ∧ fD w = 0 then .ok (.clwb (fA w) (fB w)) else
  if w.extractLsb' 22 10 = 320 ∧ fD w = 0 then .ok (.clinv (fA w) (fB w)) else
  if w.extractLsb' 22 10 = 384 ∧ fD w = 0 then .ok (.cldrop (fA w) (fB w)) else
  if fOp w = 7 ∧ fD w = 0 then .ok (.bkpt (w.extractLsb' 12 16)) else
  if w.extractLsb' 7 25 = 16777216 then .ok (.ill) else
  .error .unassigned

/-- Major 0x16 (R66, R68). -/
noncomputable def decodeMajor16 (w : BitVec 32) : Except Reject Instr :=
  if fOp w = 0 then .ok (.amo (fD w) (fA w) (fB w) (w.extractLsb' 24 4) (w.extractLsb' 22 2)) else
  if w.extractLsb' 24 8 = 16 then .ok (.cas (fD w) (fA w) (fB w) (w.extractLsb' 22 2)) else
  if fOp w = 2 then .ok (.vamo (fD w) (fA w) (fB w) (fK w) (fW w)) else
  if fOp w = 3 ∧ w.extractLsb' 17 8 = 0 then .ok (.faas (fD w) (fA w) (fK w)) else
  .error .unassigned

/-- Major 0x17 (R66, R68). -/
noncomputable def decodeMajor17 (w : BitVec 32) : Except Reject Instr :=
  if w.extractLsb' 22 10 = 0 then .ok (.acq (fD w) (fA w) (fB w)) else
  if w.extractLsb' 17 15 = 2048 then .ok (.rel (fD w) (fA w)) else
  if fOp w = 2 ∧ w.extractLsb' 22 4 = 0 then .ok (.gbind (fD w) (fA w) (fB w) (w.extractLsb' 26 2)) else
  if w.extractLsb' 17 15 = 6144 ∧ fD w = 0 then .ok (.gunbind (fA w)) else
  if fOp w = 4 ∧ w.extractLsb' 7 17 = 0 then .ok (.fence (w.extractLsb' 26 2) (w.extractLsb' 24 2)) else
  if fOp w = 5 ∧ fD w = 0 then .ok (.qfence (w.extractLsb' 12 16)) else
  if w.extractLsb' 7 25 = 12582912 then .ok (.cfence) else
  if w.extractLsb' 17 15 = 14336 ∧ fD w = 0 then .ok (.barinit (fA w)) else
  if w.extractLsb' 22 10 = 512 ∧ fD w = 0 then .ok (.barwait (fA w) (fB w)) else
  if w.extractLsb' 22 10 = 576 ∧ fD w = 0 then .ok (.barrel (fA w) (fB w)) else
  .error .unassigned

/-- Major 0x18 (R66, R68). -/
noncomputable def decodeMajor18 (w : BitVec 32) : Except Reject Instr :=
  if fF w = 0 ∧ fB w = 0 then .ok (.setvl (fD w) (fA w) (fW w)) else
  if fF w = 1 ∧ fB w = 0 then .ok (.setvt (fD w) (fA w) (fW w)) else
  .error .unassigned

/-- Major 0x19 (R66, R68). -/
noncomputable def decodeMajor19 (w : BitVec 32) : Except Reject Instr :=
  if fOp w = 0 ∧ fB w = 0 then .ok (.vld (fD w) (fA w) (fK w) (fW w)) else
  if fOp w = 1 then .ok (.vlds (fD w) (fA w) (fB w) (fK w) (fW w)) else
  if fOp w = 2 then .ok (.vldx (fD w) (fA w) (fB w) (fK w) (fW w)) else
  if fOp w = 3 then .ok (.vldseg (fD w) (fA w) (fK w) (fW w) (fB w)) else
  if fOp w = 4 ∧ fB w = 0 then .ok (.vldff (fD w) (fA w) (fK w) (fW w)) else
  if fOp w = 5 ∧ fB w = 0 then .ok (.vldWc (fD w) (fA w) (fK w) (fW w)) else
  if fOp w = 6 ∧ fB w = 0 then .ok (.vldc (fD w) (fA w) (fK w) (fW w)) else
  .error .unassigned

/-- Major 0x1A (R66, R68). -/
noncomputable def decodeMajor1A (w : BitVec 32) : Except Reject Instr :=
  if fOp w = 0 ∧ fB w = 0 then .ok (.vst (fD w) (fA w) (fK w) (fW w)) else
  if fOp w = 1 then .ok (.vsts (fD w) (fA w) (fB w) (fK w) (fW w)) else
  if fOp w = 2 then .ok (.vstx (fD w) (fA w) (fB w) (fK w) (fW w)) else
  if fOp w = 3 then .ok (.vstseg (fD w) (fA w) (fK w) (fW w) (fB w)) else
  .error .unassigned

/-- Major 0x1B (R66, R68). -/
noncomputable def decodeMajor1B (w : BitVec 32) : Except Reject Instr :=
  if fOp w = 0 then .ok (.vaddVv (fD w) (fA w) (fB w) (fK w) (fW w)) else
  if fOp w = 1 then .ok (.vsubVv (fD w) (fA w) (fB w) (fK w) (fW w)) else
  if fOp w = 2 then .ok (.vrsubVv (fD w) (fA w) (fB w) (fK w) (fW w)) else
  if fOp w = 3 then .ok (.vandVv (fD w) (fA w) (fB w) (fK w) (fW w)) else
  if fOp w = 4 then .ok (.vorVv (fD w) (fA w) (fB w) (fK w) (fW w)) else
  if fOp w = 5 then .ok (.vxorVv (fD w) (fA w) (fB w) (fK w) (fW w)) else
  if fOp w = 6 then .ok (.vsllVv (fD w) (fA w) (fB w) (fK w) (fW w)) else
  if fOp w = 7 then .ok (.vsrlVv (fD w) (fA w) (fB w) (fK w) (fW w)) else
  if fOp w = 8 then .ok (.vsraVv (fD w) (fA w) (fB w) (fK w) (fW w)) else
  if fOp w = 9 then .ok (.vminVv (fD w) (fA w) (fB w) (fK w) (fW w)) else
  if fOp w = 10 then .ok (.vmaxVv (fD w) (fA w) (fB w) (fK w) (fW w)) else
  if fOp w = 11 then .ok (.vminuVv (fD w) (fA w) (fB w) (fK w) (fW w)) else
  if fOp w = 12 then .ok (.vmaxuVv (fD w) (fA w) (fB w) (fK w) (fW w)) else
  if fOp w = 13 then .ok (.vmergeVv (fD w) (fA w) (fB w) (fK w) (fW w)) else
  if fOp w = 14 ∧ fA w = 0 then .ok (.vmvVv (fD w) (fB w) (fK w) (fW w)) else
  .error .unassigned

/-- Major 0x1C (R66, R68). -/
noncomputable def decodeMajor1C (w : BitVec 32) : Except Reject Instr :=
  if fOp w = 0 then .ok (.vaddVs (fD w) (fA w) (fB w) (fK w) (fW w)) else
  if fOp w = 1 then .ok (.vsubVs (fD w) (fA w) (fB w) (fK w) (fW w)) else
  if fOp w = 2 then .ok (.vrsubVs (fD w) (fA w) (fB w) (fK w) (fW w)) else
  if fOp w = 3 then .ok (.vandVs (fD w) (fA w) (fB w) (fK w) (fW w)) else
  if fOp w = 4 then .ok (.vorVs (fD w) (fA w) (fB w) (fK w) (fW w)) else
  if fOp w = 5 then .ok (.vxorVs (fD w) (fA w) (fB w) (fK w) (fW w)) else
  if fOp w = 6 then .ok (.vsllVs (fD w) (fA w) (fB w) (fK w) (fW w)) else
  if fOp w = 7 then .ok (.vsrlVs (fD w) (fA w) (fB w) (fK w) (fW w)) else
  if fOp w = 8 then .ok (.vsraVs (fD w) (fA w) (fB w) (fK w) (fW w)) else
  if fOp w = 9 then .ok (.vminVs (fD w) (fA w) (fB w) (fK w) (fW w)) else
  if fOp w = 10 then .ok (.vmaxVs (fD w) (fA w) (fB w) (fK w) (fW w)) else
  if fOp w = 11 then .ok (.vminuVs (fD w) (fA w) (fB w) (fK w) (fW w)) else
  if fOp w = 12 then .ok (.vmaxuVs (fD w) (fA w) (fB w) (fK w) (fW w)) else
  if fOp w = 13 then .ok (.vmergeVs (fD w) (fA w) (fB w) (fK w) (fW w)) else
  if fOp w = 14 ∧ fA w = 0 then .ok (.vmvVs (fD w) (fB w) (fK w) (fW w)) else
  .error .unassigned

/-- Major 0x1D (R66, R68). -/
noncomputable def decodeMajor1D (w : BitVec 32) : Except Reject Instr :=
  if fOp w = 0 then .ok (.vaddVi (fD w) (fA w) (fK w) (fW w) (fB w)) else
  if fOp w = 1 then .ok (.vsubVi (fD w) (fA w) (fK w) (fW w) (fB w)) else
  if fOp w = 2 then .ok (.vrsubVi (fD w) (fA w) (fK w) (fW w) (fB w)) else
  if fOp w = 3 then .ok (.vandVi (fD w) (fA w) (fK w) (fW w) (fB w)) else
  if fOp w = 4 then .ok (.vorVi (fD w) (fA w) (fK w) (fW w) (fB w)) else
  if fOp w = 5 then .ok (.vxorVi (fD w) (fA w) (fK w) (fW w) (fB w)) else
  if fOp w = 6 then .ok (.vsllVi (fD w) (fA w) (fK w) (fW w) (fB w)) else
  if fOp w = 7 then .ok (.vsrlVi (fD w) (fA w) (fK w) (fW w) (fB w)) else
  if fOp w = 8 then .ok (.vsraVi (fD w) (fA w) (fK w) (fW w) (fB w)) else
  if fOp w = 9 then .ok (.vminVi (fD w) (fA w) (fK w) (fW w) (fB w)) else
  if fOp w = 10 then .ok (.vmaxVi (fD w) (fA w) (fK w) (fW w) (fB w)) else
  if fOp w = 11 then .ok (.vminuVi (fD w) (fA w) (fK w) (fW w) (fB w)) else
  if fOp w = 12 then .ok (.vmaxuVi (fD w) (fA w) (fK w) (fW w) (fB w)) else
  if fOp w = 13 then .ok (.vmergeVi (fD w) (fA w) (fK w) (fW w) (fB w)) else
  if fOp w = 14 ∧ fA w = 0 then .ok (.vmvVi (fD w) (fK w) (fW w) (fB w)) else
  if fOp w = 15 then .ok (.vidx (fD w) (fK w) (fW w) (fB w) (fA w)) else
  .error .unassigned

/-- Major 0x1E (R66, R68). -/
noncomputable def decodeMajor1E (w : BitVec 32) : Except Reject Instr :=
  if fOp w = 0 then .ok (.vmulVv (fD w) (fA w) (fB w) (fK w) (fW w)) else
  if fOp w = 1 then .ok (.vmulhVv (fD w) (fA w) (fB w) (fK w) (fW w)) else
  if fOp w = 2 then .ok (.vmulhuVv (fD w) (fA w) (fB w) (fK w) (fW w)) else
  if fOp w = 3 then .ok (.vmaccVv (fD w) (fA w) (fB w) (fK w) (fW w)) else
  if fOp w = 4 then .ok (.vnmsacVv (fD w) (fA w) (fB w) (fK w) (fW w)) else
  if fOp w = 5 then .ok (.vwaddVv (fD w) (fA w) (fB w) (fK w) (fW w)) else
  if fOp w = 6 then .ok (.vwmulVv (fD w) (fA w) (fB w) (fK w) (fW w)) else
  if fOp w = 7 then .ok (.vwmaccVv (fD w) (fA w) (fB w) (fK w) (fW w)) else
  if fOp w = 8 then .ok (.vwmaccuVv (fD w) (fA w) (fB w) (fK w) (fW w)) else
  if fOp w = 9 then .ok (.vdivVv (fD w) (fA w) (fB w) (fK w) (fW w)) else
  if fOp w = 10 then .ok (.vremVv (fD w) (fA w) (fB w) (fK w) (fW w)) else
  if fOp w = 11 then .ok (.vsaddVv (fD w) (fA w) (fB w) (fK w) (fW w)) else
  if fOp w = 12 then .ok (.vsadduVv (fD w) (fA w) (fB w) (fK w) (fW w)) else
  if fOp w = 13 then .ok (.vssubVv (fD w) (fA w) (fB w) (fK w) (fW w)) else
  if fOp w = 14 then .ok (.vssubuVv (fD w) (fA w) (fB w) (fK w) (fW w)) else
  if fOp w = 15 then .ok (.vsmulVv (fD w) (fA w) (fB w) (fK w) (fW w)) else
  .error .unassigned

/-- Major 0x1F (R66, R68). -/
noncomputable def decodeMajor1F (w : BitVec 32) : Except Reject Instr :=
  if fOp w = 0 then .ok (.vmulVs (fD w) (fA w) (fB w) (fK w) (fW w)) else
  if fOp w = 1 then .ok (.vmulhVs (fD w) (fA w) (fB w) (fK w) (fW w)) else
  if fOp w = 2 then .ok (.vmulhuVs (fD w) (fA w) (fB w) (fK w) (fW w)) else
  if fOp w = 3 then .ok (.vmaccVs (fD w) (fA w) (fB w) (fK w) (fW w)) else
  if fOp w = 4 then .ok (.vnmsacVs (fD w) (fA w) (fB w) (fK w) (fW w)) else
  if fOp w = 5 then .ok (.vwaddVs (fD w) (fA w) (fB w) (fK w) (fW w)) else
  if fOp w = 6 then .ok (.vwmulVs (fD w) (fA w) (fB w) (fK w) (fW w)) else
  if fOp w = 7 then .ok (.vwmaccVs (fD w) (fA w) (fB w) (fK w) (fW w)) else
  if fOp w = 8 then .ok (.vwmaccuVs (fD w) (fA w) (fB w) (fK w) (fW w)) else
  if fOp w = 9 then .ok (.vdivVs (fD w) (fA w) (fB w) (fK w) (fW w)) else
  if fOp w = 10 then .ok (.vremVs (fD w) (fA w) (fB w) (fK w) (fW w)) else
  if fOp w = 11 then .ok (.vsaddVs (fD w) (fA w) (fB w) (fK w) (fW w)) else
  if fOp w = 12 then .ok (.vsadduVs (fD w) (fA w) (fB w) (fK w) (fW w)) else
  if fOp w = 13 then .ok (.vssubVs (fD w) (fA w) (fB w) (fK w) (fW w)) else
  if fOp w = 14 then .ok (.vssubuVs (fD w) (fA w) (fB w) (fK w) (fW w)) else
  if fOp w = 15 then .ok (.vsmulVs (fD w) (fA w) (fB w) (fK w) (fW w)) else
  .error .unassigned

/-- Major 0x20 (R66, R68). -/
noncomputable def decodeMajor20 (w : BitVec 32) : Except Reject Instr :=
  if fOp w = 0 then .ok (.vaaddVv (fD w) (fA w) (fB w) (fK w) (fW w)) else
  if fOp w = 1 then .ok (.vssrVv (fD w) (fA w) (fB w) (fK w) (fW w)) else
  if fOp w = 2 then .ok (.vnshrVv (fD w) (fA w) (fB w) (fK w) (fW w)) else
  if fOp w = 3 then .ok (.vsextVv (fD w) (fA w) (fB w) (fK w) (fW w)) else
  if fOp w = 4 then .ok (.vzextVv (fD w) (fA w) (fB w) (fK w) (fW w)) else
  if w.extractLsb' 31 1 = 1 ∧ w.extractLsb' 10 2 = 0 then
    .ok (.vcmpVv (w.extractLsb' 7 3) (fA w) (fB w) (w.extractLsb' 28 3) (fK w) (fW w)) else
  .error .unassigned

/-- Major 0x21 (R66, R68). -/
noncomputable def decodeMajor21 (w : BitVec 32) : Except Reject Instr :=
  if fOp w = 0 then .ok (.vaaddVs (fD w) (fA w) (fB w) (fK w) (fW w)) else
  if fOp w = 1 then .ok (.vssrVs (fD w) (fA w) (fB w) (fK w) (fW w)) else
  if fOp w = 2 then .ok (.vnshrVs (fD w) (fA w) (fB w) (fK w) (fW w)) else
  if fOp w = 3 then .ok (.vsextVs (fD w) (fA w) (fB w) (fK w) (fW w)) else
  if fOp w = 4 then .ok (.vzextVs (fD w) (fA w) (fB w) (fK w) (fW w)) else
  if w.extractLsb' 31 1 = 1 ∧ w.extractLsb' 10 2 = 0 then
    .ok (.vcmpVs (w.extractLsb' 7 3) (fA w) (fB w) (w.extractLsb' 28 3) (fK w) (fW w)) else
  .error .unassigned

/-- Major 0x22 (R66, R68). -/
noncomputable def decodeMajor22 (w : BitVec 32) : Except Reject Instr :=
  if fOp w = 0 then .ok (.vaaddVi (fD w) (fA w) (fK w) (fW w) (fB w)) else
  if fOp w = 1 then .ok (.vssrVi (fD w) (fA w) (fK w) (fW w) (fB w)) else
  if fOp w = 2 then .ok (.vnshrVi (fD w) (fA w) (fK w) (fW w) (fB w)) else
  if fOp w = 3 then .ok (.vsextVi (fD w) (fA w) (fK w) (fW w) (fB w)) else
  if fOp w = 4 then .ok (.vzextVi (fD w) (fA w) (fK w) (fW w) (fB w)) else
  if w.extractLsb' 31 1 = 1 ∧ w.extractLsb' 10 2 = 0 then
    .ok (.vcmpVi (w.extractLsb' 7 3) (fA w) (w.extractLsb' 28 3) (fK w) (fW w) (fB w)) else
  .error .unassigned

/-- Major 0x23 (R66, R68). -/
noncomputable def decodeMajor23 (w : BitVec 32) : Except Reject Instr :=
  if fOp w = 0 then .ok (.vfaddVv (fD w) (fA w) (fB w) (fK w) (fW w)) else
  if fOp w = 1 then .ok (.vfsubVv (fD w) (fA w) (fB w) (fK w) (fW w)) else
  if fOp w = 2 then .ok (.vfmulVv (fD w) (fA w) (fB w) (fK w) (fW w)) else
  if fOp w = 3 then .ok (.vfdivVv (fD w) (fA w) (fB w) (fK w) (fW w)) else
  if fOp w = 4 then .ok (.vfmaVv (fD w) (fA w) (fB w) (fK w) (fW w)) else
  if fOp w = 5 then .ok (.vfnmaVv (fD w) (fA w) (fB w) (fK w) (fW w)) else
  if fOp w = 6 then .ok (.vfminVv (fD w) (fA w) (fB w) (fK w) (fW w)) else
  if fOp w = 7 then .ok (.vfmaxVv (fD w) (fA w) (fB w) (fK w) (fW w)) else
  if fOp w = 8 ∧ fB w = 0 then .ok (.vfsqrt (fD w) (fA w) (fK w) (fW w)) else
  if fOp w = 9 ∧ fB w = 0 then .ok (.vfexp2 (fD w) (fA w) (fK w) (fW w)) else
  if fOp w = 10 ∧ fB w = 0 then .ok (.vflog2 (fD w) (fA w) (fK w) (fW w)) else
  if fOp w = 11 ∧ fB w = 0 then .ok (.vfrece (fD w) (fA w) (fK w) (fW w)) else
  if fOp w = 12 ∧ fB w = 0 then .ok (.vfrsqe (fD w) (fA w) (fK w) (fW w)) else
  if fOp w = 13 then .ok (.vfcvt (fD w) (fA w) (fK w) (fW w) (fB w)) else
  if fF w = 112 then .ok (.vfcvt4 (fD w) (fA w) (fB w) (fW w)) else
  if fOp w = 15 then .ok (.vfcmpVv (w.extractLsb' 7 3) (fA w) (fB w) (fK w) (fW w) (w.extractLsb' 10 2)) else
  .error .unassigned

/-- Major 0x24 (R66, R68). -/
noncomputable def decodeMajor24 (w : BitVec 32) : Except Reject Instr :=
  if fOp w = 0 then .ok (.vfaddVs (fD w) (fA w) (fB w) (fK w) (fW w)) else
  if fOp w = 1 then .ok (.vfsubVs (fD w) (fA w) (fB w) (fK w) (fW w)) else
  if fOp w = 2 then .ok (.vfmulVs (fD w) (fA w) (fB w) (fK w) (fW w)) else
  if fOp w = 3 then .ok (.vfdivVs (fD w) (fA w) (fB w) (fK w) (fW w)) else
  if fOp w = 4 then .ok (.vfmaVs (fD w) (fA w) (fB w) (fK w) (fW w)) else
  if fOp w = 5 then .ok (.vfnmaVs (fD w) (fA w) (fB w) (fK w) (fW w)) else
  if fOp w = 6 then .ok (.vfminVs (fD w) (fA w) (fB w) (fK w) (fW w)) else
  if fOp w = 7 then .ok (.vfmaxVs (fD w) (fA w) (fB w) (fK w) (fW w)) else
  if fOp w = 15 then .ok (.vfcmpVs (w.extractLsb' 7 3) (fA w) (fB w) (fK w) (fW w) (w.extractLsb' 10 2)) else
  .error .unassigned

/-- Major 0x25 (R66, R68). -/
noncomputable def decodeMajor25 (w : BitVec 32) : Except Reject Instr :=
  if fOp w = 0 ∧ w.extractLsb' 20 2 = 0 then .ok (.vrsum (fD w) (fA w) (fK w) (fW w) (w.extractLsb' 17 3)) else
  if fOp w = 1 ∧ w.extractLsb' 20 2 = 0 then .ok (.vrmax (fD w) (fA w) (fK w) (fW w) (w.extractLsb' 17 3)) else
  if fOp w = 2 ∧ w.extractLsb' 20 2 = 0 then .ok (.vrmin (fD w) (fA w) (fK w) (fW w) (w.extractLsb' 17 3)) else
  if fOp w = 3 ∧ w.extractLsb' 20 2 = 0 then .ok (.vrfsum (fD w) (fA w) (fK w) (fW w) (w.extractLsb' 17 3)) else
  if fOp w = 4 ∧ w.extractLsb' 20 2 = 0 then .ok (.vrfmax (fD w) (fA w) (fK w) (fW w) (w.extractLsb' 17 3)) else
  if fOp w = 5 ∧ w.extractLsb' 21 1 = 0 then
    .ok (.vscan (fD w) (fA w) (fK w) (fW w) (w.extractLsb' 20 1) (w.extractLsb' 17 3)) else
  if fOp w = 6 ∧ w.extractLsb' 21 1 = 0 then
    .ok (.vfscan (fD w) (fA w) (fK w) (fW w) (w.extractLsb' 20 1) (w.extractLsb' 17 3)) else
  if fOp w = 7 then .ok (.vsmax (fD w) (fA w) (fB w) (fK w) (fW w)) else
  if fOp w = 8 then .ok (.vslup (fD w) (fA w) (fB w) (fK w) (fW w)) else
  if fOp w = 9 then .ok (.vsldn (fD w) (fA w) (fB w) (fK w) (fW w)) else
  if fOp w = 10 then .ok (.vrgat (fD w) (fA w) (fB w) (fK w) (fW w)) else
  if fF w = 88 then .ok (.vcomp (fD w) (fA w) (fB w) (fW w)) else
  if fOp w = 12 ∧ w.extractLsb' 15 7 = 0 then .ok (.viota (fD w) (w.extractLsb' 12 3) (fK w) (fW w)) else
  if fF w = 104 then .ok (.vextr (fD w) (fA w) (fB w) (fW w)) else
  if fF w = 112 then .ok (.vins (fD w) (fA w) (fB w) (fW w)) else
  .error .unassigned

/-- Major 0x26 (R66, R68). -/
noncomputable def decodeMajor26 (w : BitVec 32) : Except Reject Instr :=
  if fF w = 0 ∧ w.extractLsb' 20 2 = 0 ∧ w.extractLsb' 15 2 = 0 ∧ w.extractLsb' 10 2 = 0 then
    .ok (.kand (w.extractLsb' 7 3) (w.extractLsb' 12 3) (w.extractLsb' 17 3) (fW w)) else
  if fF w = 8 ∧ w.extractLsb' 20 2 = 0 ∧ w.extractLsb' 15 2 = 0 ∧ w.extractLsb' 10 2 = 0 then
    .ok (.kor (w.extractLsb' 7 3) (w.extractLsb' 12 3) (w.extractLsb' 17 3) (fW w)) else
  if fF w = 16 ∧ w.extractLsb' 20 2 = 0 ∧ w.extractLsb' 15 2 = 0 ∧ w.extractLsb' 10 2 = 0 then
    .ok (.kxor (w.extractLsb' 7 3) (w.extractLsb' 12 3) (w.extractLsb' 17 3) (fW w)) else
  if fF w = 24 ∧ w.extractLsb' 20 2 = 0 ∧ w.extractLsb' 15 2 = 0 ∧ w.extractLsb' 10 2 = 0 then
    .ok (.kandn (w.extractLsb' 7 3) (w.extractLsb' 12 3) (w.extractLsb' 17 3) (fW w)) else
  if fF w = 32 ∧ w.extractLsb' 15 7 = 0 ∧ w.extractLsb' 10 2 = 0 then
    .ok (.knot (w.extractLsb' 7 3) (w.extractLsb' 12 3) (fW w)) else
  if fOp w = 5 ∧ w.extractLsb' 15 7 = 0 then .ok (.kffs (fD w) (w.extractLsb' 12 3) (fK w) (fW w)) else
  if fOp w = 6 ∧ w.extractLsb' 15 7 = 0 then .ok (.kpopc (fD w) (w.extractLsb' 12 3) (fK w) (fW w)) else
  if fF w = 56 ∧ fB w = 0 ∧ w.extractLsb' 10 2 = 0 then .ok (.kset (w.extractLsb' 7 3) (fA w) (fW w)) else
  if fF w = 64 ∧ w.extractLsb' 15 7 = 0 ∧ w.extractLsb' 10 2 = 0 then
    .ok (.kmv (w.extractLsb' 7 3) (w.extractLsb' 12 3) (fW w)) else
  .error .unassigned

/-- Major 0x28 (R66, R68). -/
noncomputable def decodeMajor28 (w : BitVec 32) : Except Reject Instr :=
  if fOp w = 0 ∧ w.extractLsb' 22 4 = 0 then
    .ok (.vnld (fD w) (fA w) (fB w) (w.extractLsb' 27 1) (w.extractLsb' 26 1)) else
  if fOp w = 1 ∧ w.extractLsb' 22 5 = 0 then .ok (.vnst (fD w) (fA w) (fB w) (w.extractLsb' 27 1)) else
  if fOp w = 2 ∧ w.extractLsb' 22 2 = 0 then .ok (.vnldv (fD w) (fA w) (fB w) (fK w) (w.extractLsb' 24 1)) else
  if fOp w = 3 ∧ w.extractLsb' 22 2 = 0 then .ok (.vnstv (fD w) (fA w) (fB w) (fK w) (w.extractLsb' 24 1)) else
  .error .unassigned

/-- Major 0x29 (R66, R68). -/
noncomputable def decodeMajor29 (w : BitVec 32) : Except Reject Instr :=
  if fOp w = 0 ∧ w.extractLsb' 17 9 = 0 then .ok (.vnqry (fD w) (fA w) (w.extractLsb' 26 2)) else
  if w.extractLsb' 22 10 = 64 ∧ fD w = 0 then .ok (.vndrop (fA w) (fB w)) else
  if w.extractLsb' 22 10 = 128 then .ok (.vnopen (fD w) (fA w) (fB w)) else
  if w.extractLsb' 17 15 = 6144 then .ok (.vnclose (fD w) (fA w)) else
  .error .unassigned

/-- Major 0x2C (R66, R68). -/
noncomputable def decodeMajor2C (w : BitVec 32) : Except Reject Instr :=
  if fOp w = 0 ∧ w.extractLsb' 22 2 = 0 ∧ fD w = 0 then .ok (.strm (fA w) (fB w) (w.extractLsb' 24 4)) else
  if fOp w = 1 ∧ w.extractLsb' 7 17 = 0 then .ok (.sqwait (w.extractLsb' 24 4)) else
  if fOp w = 2 ∧ w.extractLsb' 12 9 = 0 then .ok (.sqstat (fD w) (w.extractLsb' 24 4) (w.extractLsb' 21 3)) else
  .error .unassigned

/-- Major 0x30 (R66, R68). -/
noncomputable def decodeMajor30 (w : BitVec 32) : Except Reject Instr :=
  if w.extractLsb' 10 22 = 0 then .ok (.mzero (w.extractLsb' 7 3)) else
  if fOp w = 1 ∧ w.extractLsb' 22 4 = 0 ∧ fD w = 0 then .ok (.mlda (fA w) (fB w) (w.extractLsb' 26 2)) else
  if fOp w = 2 ∧ w.extractLsb' 17 7 = 0 ∧ fD w = 0 then .ok (.mldb (fA w) (fK w) (w.extractLsb' 24 1)) else
  if w.extractLsb' 10 22 = 786432 then .ok (.mma (w.extractLsb' 7 3)) else
  if fOp w = 4 ∧ w.extractLsb' 17 10 = 0 ∧ w.extractLsb' 10 2 = 0 then
    .ok (.mrsc (w.extractLsb' 7 3) (fA w) (w.extractLsb' 27 1)) else
  if fOp w = 5 ∧ fW w = 0 ∧ w.extractLsb' 10 2 = 0 then .ok (.mstr (w.extractLsb' 7 3) (fA w) (fB w) (fK w)) else
  if w.extractLsb' 27 5 = 12 ∧ w.extractLsb' 15 8 = 0 then
    .ok (.mmovvToV (fD w) (w.extractLsb' 12 3) (w.extractLsb' 23 4)) else
  if w.extractLsb' 27 5 = 13 ∧ w.extractLsb' 17 6 = 0 ∧ w.extractLsb' 10 2 = 0 then
    .ok (.mmovvToT (w.extractLsb' 7 3) (fA w) (w.extractLsb' 23 4)) else
  .error .unassigned

/-- Major 0x36 (R66, R68). -/
noncomputable def decodeMajor36 (w : BitVec 32) : Except Reject Instr :=
  if w.extractLsb' 17 15 = 0 then .ok (.tenq (fD w) (fA w)) else
  if w.extractLsb' 17 15 = 2048 then .ok (.targ (fD w) (fA w)) else
  if w.extractLsb' 7 25 = 4194304 then .ok (.tyld) else
  if fOp w = 3 ∧ w.extractLsb' 12 14 = 0 then .ok (.tself (fD w) (w.extractLsb' 26 2)) else
  if w.extractLsb' 7 25 = 8388608 then .ok (.tend) else
  .error .unassigned

/-- Major 0x37 (R66, R68). -/
noncomputable def decodeMajor37 (w : BitVec 32) : Except Reject Instr :=
  if w.extractLsb' 17 15 = 0 then .ok (.npost (fD w) (fA w)) else
  if w.extractLsb' 22 10 = 64 then .ok (.nwait (fD w) (fA w) (fB w)) else
  if w.extractLsb' 17 15 = 4096 then .ok (.encj (fD w) (fA w)) else
  .error .unassigned

/-- A 32-bit instruction by its major opcode (R66, R69, R70). -/
noncomputable def decode32 (w : BitVec 32) : Except Reject Instr :=
  match (w.extractLsb' 1 6).toNat with
  | 0x00 => decodeMajor00 w
  | 0x01 => decodeMajor01 w
  | 0x02 => decodeMajor02 w
  | 0x03 => decodeMajor03 w
  | 0x04 => decodeMajor04 w
  | 0x05 => decodeMajor05 w
  | 0x06 => decodeMajor06 w
  | 0x08 => decodeMajor08 w
  | 0x09 => decodeMajor09 w
  | 0x0A => decodeMajor0A w
  | 0x0B => decodeMajor0B w
  | 0x0C => decodeMajor0C w
  | 0x0D => decodeMajor0D w
  | 0x0E => decodeMajor0E w
  | 0x0F => decodeMajor0F w
  | 0x10 => decodeMajor10 w
  | 0x11 => decodeMajor11 w
  | 0x12 => decodeMajor12 w
  | 0x13 => decodeMajor13 w
  | 0x14 => decodeMajor14 w
  | 0x15 => decodeMajor15 w
  | 0x16 => decodeMajor16 w
  | 0x17 => decodeMajor17 w
  | 0x18 => decodeMajor18 w
  | 0x19 => decodeMajor19 w
  | 0x1A => decodeMajor1A w
  | 0x1B => decodeMajor1B w
  | 0x1C => decodeMajor1C w
  | 0x1D => decodeMajor1D w
  | 0x1E => decodeMajor1E w
  | 0x1F => decodeMajor1F w
  | 0x20 => decodeMajor20 w
  | 0x21 => decodeMajor21 w
  | 0x22 => decodeMajor22 w
  | 0x23 => decodeMajor23 w
  | 0x24 => decodeMajor24 w
  | 0x25 => decodeMajor25 w
  | 0x26 => decodeMajor26 w
  | 0x28 => decodeMajor28 w
  | 0x29 => decodeMajor29 w
  | 0x2C => decodeMajor2C w
  | 0x30 => decodeMajor30 w
  | 0x36 => decodeMajor36 w
  | 0x37 => decodeMajor37 w
  | 0x3F => .error .illegalMajor
  | _ => .error .reservedMajor

/-- A compact form by its OP (R48, R61). -/
noncomputable def decode16 (w : BitVec 16) : Except Reject Instr :=
  match (w.extractLsb' 1 5).toNat with
  | 0x01 => if w.extractLsb' 11 5 = 0 then .ok (.cAdd (w.extractLsb' 6 5)) else .error .unusedField
  | 0x02 => if w.extractLsb' 11 5 = 0 then .ok (.cSub (w.extractLsb' 6 5)) else .error .unusedField
  | 0x03 => if w.extractLsb' 11 5 = 0 then .ok (.cAnd (w.extractLsb' 6 5)) else .error .unusedField
  | 0x04 => if w.extractLsb' 11 5 = 0 then .ok (.cOr (w.extractLsb' 6 5)) else .error .unusedField
  | 0x05 => if w.extractLsb' 11 5 = 0 then .ok (.cXor (w.extractLsb' 6 5)) else .error .unusedField
  | 0x06 => if w.extractLsb' 11 5 = 0 then .ok (.cMul (w.extractLsb' 6 5)) else .error .unusedField
  | 0x07 => .ok (.cAddi (w.extractLsb' 6 10))
  | 0x08 => .ok (.cLi (w.extractLsb' 6 10))
  | 0x09 => if w.extractLsb' 6 5 = 0 then .ok (.cSlli (w.extractLsb' 11 5)) else .error .unusedField
  | 0x0A => if w.extractLsb' 6 5 = 0 then .ok (.cSrli (w.extractLsb' 11 5)) else .error .unusedField
  | 0x0B => if w.extractLsb' 6 5 = 0 then .ok (.cSrai (w.extractLsb' 11 5)) else .error .unusedField
  | 0x0C => if w.extractLsb' 11 5 = 0 then .ok (.cMv (w.extractLsb' 6 5)) else .error .unusedField
  | 0x0D => if w.extractLsb' 11 5 = 0 then .ok (.cMin (w.extractLsb' 6 5)) else .error .unusedField
  | 0x0E => if w.extractLsb' 11 5 = 0 then .ok (.cMax (w.extractLsb' 6 5)) else .error .unusedField
  | 0x10 => if w.extractLsb' 11 5 = 0 then .ok (.cVadd (w.extractLsb' 6 5)) else .error .unusedField
  | 0x11 => if w.extractLsb' 11 5 = 0 then .ok (.cVsub (w.extractLsb' 6 5)) else .error .unusedField
  | 0x12 => if w.extractLsb' 11 5 = 0 then .ok (.cVand (w.extractLsb' 6 5)) else .error .unusedField
  | 0x13 => if w.extractLsb' 11 5 = 0 then .ok (.cVor (w.extractLsb' 6 5)) else .error .unusedField
  | 0x14 => if w.extractLsb' 11 5 = 0 then .ok (.cVxor (w.extractLsb' 6 5)) else .error .unusedField
  | 0x15 => if w.extractLsb' 11 5 = 0 then .ok (.cVmul (w.extractLsb' 6 5)) else .error .unusedField
  | 0x16 => .ok (.cVmacc (w.extractLsb' 11 5) (w.extractLsb' 6 5))
  | 0x17 => if w.extractLsb' 11 5 = 0 then .ok (.cVadds (w.extractLsb' 6 5)) else .error .unusedField
  | 0x18 => if w.extractLsb' 11 5 = 0 then .ok (.cVmuls (w.extractLsb' 6 5)) else .error .unusedField
  | 0x19 => if w.extractLsb' 11 5 = 0 then .ok (.cVfadd (w.extractLsb' 6 5)) else .error .unusedField
  | 0x1A => if w.extractLsb' 11 5 = 0 then .ok (.cVfmul (w.extractLsb' 6 5)) else .error .unusedField
  | 0x1B => .ok (.cVfma (w.extractLsb' 11 5) (w.extractLsb' 6 5))
  | 0x1C => .ok (.cVfmas (w.extractLsb' 11 5) (w.extractLsb' 6 5))
  | 0x1D => if w.extractLsb' 11 5 = 0 then .ok (.cVfadds (w.extractLsb' 6 5)) else .error .unusedField
  | _ => .error .reservedCompact

/-- The word of an instruction of 32 bits (R48); none for any other instruction. -/
def encode32 : Instr → Option (BitVec 32)
  | .add d a b w => some (0#7 ++ w ++ b ++ a ++ d ++ 1#7)
  | .sub d a b w => some (1#7 ++ w ++ b ++ a ++ d ++ 1#7)
  | .and d a b w => some (2#7 ++ w ++ b ++ a ++ d ++ 1#7)
  | .or d a b w => some (3#7 ++ w ++ b ++ a ++ d ++ 1#7)
  | .xor d a b w => some (4#7 ++ w ++ b ++ a ++ d ++ 1#7)
  | .andn d a b w => some (5#7 ++ w ++ b ++ a ++ d ++ 1#7)
  | .sll d a b w => some (6#7 ++ w ++ b ++ a ++ d ++ 1#7)
  | .srl d a b w => some (7#7 ++ w ++ b ++ a ++ d ++ 1#7)
  | .sra d a b w => some (8#7 ++ w ++ b ++ a ++ d ++ 1#7)
  | .rol d a b w => some (9#7 ++ w ++ b ++ a ++ d ++ 1#7)
  | .ror d a b w => some (10#7 ++ w ++ b ++ a ++ d ++ 1#7)
  | .slt d a b w => some (11#7 ++ w ++ b ++ a ++ d ++ 1#7)
  | .sltu d a b w => some (12#7 ++ w ++ b ++ a ++ d ++ 1#7)
  | .min d a b w => some (13#7 ++ w ++ b ++ a ++ d ++ 1#7)
  | .max d a b w => some (14#7 ++ w ++ b ++ a ++ d ++ 1#7)
  | .minu d a b w => some (15#7 ++ w ++ b ++ a ++ d ++ 1#7)
  | .maxu d a b w => some (16#7 ++ w ++ b ++ a ++ d ++ 1#7)
  | .mul d a b w => some (32#7 ++ w ++ b ++ a ++ d ++ 1#7)
  | .mulh d a b w => some (33#7 ++ w ++ b ++ a ++ d ++ 1#7)
  | .mulhu d a b w => some (34#7 ++ w ++ b ++ a ++ d ++ 1#7)
  | .div d a b w => some (35#7 ++ w ++ b ++ a ++ d ++ 1#7)
  | .divu d a b w => some (36#7 ++ w ++ b ++ a ++ d ++ 1#7)
  | .rem d a b w => some (37#7 ++ w ++ b ++ a ++ d ++ 1#7)
  | .remu d a b w => some (38#7 ++ w ++ b ++ a ++ d ++ 1#7)
  | .clz d a w => some (48#7 ++ w ++ 0#5 ++ a ++ d ++ 1#7)
  | .ctz d a w => some (49#7 ++ w ++ 0#5 ++ a ++ d ++ 1#7)
  | .popc d a w => some (50#7 ++ w ++ 0#5 ++ a ++ d ++ 1#7)
  | .bext d a b w => some (51#7 ++ w ++ b ++ a ++ d ++ 1#7)
  | .bins d a b w => some (52#7 ++ w ++ b ++ a ++ d ++ 1#7)
  | .baddr d a b w => some (53#7 ++ w ++ b ++ a ++ d ++ 1#7)
  | .slli d a s w => some (32#6 ++ s.extractLsb' 5 1 ++ w ++ s.extractLsb' 0 5 ++ a ++ d ++ 1#7)
  | .srli d a s w => some (33#6 ++ s.extractLsb' 5 1 ++ w ++ s.extractLsb' 0 5 ++ a ++ d ++ 1#7)
  | .srai d a s w => some (34#6 ++ s.extractLsb' 5 1 ++ w ++ s.extractLsb' 0 5 ++ a ++ d ++ 1#7)
  | .addi d a i w => some (i.extractLsb' 5 7 ++ w ++ i.extractLsb' 0 5 ++ a ++ d ++ 3#7)
  | .andi d a i w => some (i.extractLsb' 5 7 ++ w ++ i.extractLsb' 0 5 ++ a ++ d ++ 5#7)
  | .ori d a i w => some (i.extractLsb' 5 7 ++ w ++ i.extractLsb' 0 5 ++ a ++ d ++ 7#7)
  | .xori d a i w => some (i.extractLsb' 5 7 ++ w ++ i.extractLsb' 0 5 ++ a ++ d ++ 9#7)
  | .slti d a i w => some (i.extractLsb' 5 7 ++ w ++ i.extractLsb' 0 5 ++ a ++ d ++ 11#7)
  | .limm d i h k => some (i.extractLsb' 9 7 ++ 0#1 ++ h ++ i.extractLsb' 0 9 ++ k ++ d ++ 13#7)
  | .ld d a b s w h => some (s ++ w ++ h ++ b ++ a ++ d ++ 17#7)
  | .st d a b w h => some (0#1 ++ w ++ h ++ b ++ a ++ d ++ 19#7)
  | .ldc d a b s w h => some (s ++ w ++ h ++ b ++ a ++ d ++ 21#7)
  | .pref a b w h => some (0#1 ++ w ++ h ++ b ++ a ++ 21#12)
  | .etag d a b w => some (0#7 ++ w ++ b ++ a ++ d ++ 23#7)
  | .extn d a b p w => some (1#5 ++ p ++ w ++ b ++ a ++ d ++ 23#7)
  | .extrBase d b w => some (8#7 ++ w ++ b ++ 0#5 ++ d ++ 23#7)
  | .extrLen d b w => some (9#7 ++ w ++ b ++ 0#5 ++ d ++ 23#7)
  | .extrAttr d b w => some (10#7 ++ w ++ b ++ 0#5 ++ d ++ 23#7)
  | .beq a b o => some (o.extractLsb' 5 7 ++ 0#3 ++ b ++ a ++ o.extractLsb' 0 5 ++ 25#7)
  | .bne a b o => some (o.extractLsb' 5 7 ++ 1#3 ++ b ++ a ++ o.extractLsb' 0 5 ++ 25#7)
  | .blt a b o => some (o.extractLsb' 5 7 ++ 2#3 ++ b ++ a ++ o.extractLsb' 0 5 ++ 25#7)
  | .bge a b o => some (o.extractLsb' 5 7 ++ 3#3 ++ b ++ a ++ o.extractLsb' 0 5 ++ 25#7)
  | .bltu a b o => some (o.extractLsb' 5 7 ++ 4#3 ++ b ++ a ++ o.extractLsb' 0 5 ++ 25#7)
  | .bgeu a b o => some (o.extractLsb' 5 7 ++ 5#3 ++ b ++ a ++ o.extractLsb' 0 5 ++ 25#7)
  | .jal d o => some (o ++ d ++ 27#7)
  | .jalr d a i w => some (i.extractLsb' 5 7 ++ w ++ i.extractLsb' 0 5 ++ a ++ d ++ 29#7)
  | .loop a e => some (0#4 ++ e ++ a ++ 31#12)
  | .loopi e c => some (1#4 ++ e ++ c ++ 31#7)
  | .lexit => some (536870943#32)
  | .rpt m s c => some (3#4 ++ m ++ s ++ c ++ 31#12)
  | .fork o => some (4#4 ++ o ++ 31#7)
  | .rdv => some (1342177311#32)
  | .rdvEnd => some (1476395039#32)
  | .fadd d a b t w => some (0#5 ++ t ++ w ++ b ++ a ++ d ++ 33#7)
  | .fsub d a b t w => some (1#5 ++ t ++ w ++ b ++ a ++ d ++ 33#7)
  | .fmul d a b t w => some (2#5 ++ t ++ w ++ b ++ a ++ d ++ 33#7)
  | .fdiv d a b t w => some (3#5 ++ t ++ w ++ b ++ a ++ d ++ 33#7)
  | .fsqrt d a t w => some (4#5 ++ t ++ w ++ 0#5 ++ a ++ d ++ 33#7)
  | .fmin d a b t w => some (5#5 ++ t ++ w ++ b ++ a ++ d ++ 33#7)
  | .fmax d a b t w => some (6#5 ++ t ++ w ++ b ++ a ++ d ++ 33#7)
  | .fma d a b t w => some (0#5 ++ t ++ w ++ b ++ a ++ d ++ 35#7)
  | .fcmp d a b c t w => some (0#3 ++ c ++ t ++ w ++ b ++ a ++ d ++ 37#7)
  | .fcvt d a w c => some (0#7 ++ w ++ c ++ a ++ d ++ 39#7)
  | .fmv d a t w o => some (1#5 ++ t ++ w ++ o ++ a ++ d ++ 39#7)
  | .ctlr d r => some (r.extractLsb' 5 7 ++ 0#3 ++ r.extractLsb' 0 5 ++ 0#5 ++ d ++ 41#7)
  | .ctlw d a r => some (r.extractLsb' 5 7 ++ 1#3 ++ r.extractLsb' 0 5 ++ a ++ d ++ 41#7)
  | .ctls d a r => some (r.extractLsb' 5 7 ++ 2#3 ++ r.extractLsb' 0 5 ++ a ++ d ++ 41#7)
  | .ctlc d a r => some (r.extractLsb' 5 7 ++ 3#3 ++ r.extractLsb' 0 5 ++ a ++ d ++ 41#7)
  | .sys c => some (0#4 ++ c ++ 43#12)
  | .eret => some (268435499#32)
  | .wfe d a b => some (128#10 ++ b ++ a ++ d ++ 43#7)
  | .tlbiPage a b => some (192#10 ++ b ++ a ++ 43#12)
  | .tlbiAsid b => some (208#10 ++ b ++ 43#17)
  | .tlbiAll => some (939524139#32)
  | .clwb a b => some (256#10 ++ b ++ a ++ 43#12)
  | .clinv a b => some (320#10 ++ b ++ a ++ 43#12)
  | .cldrop a b => some (384#10 ++ b ++ a ++ 43#12)
  | .bkpt c => some (7#4 ++ c ++ 43#12)
  | .ill => some (2147483691#32)
  | .amo d a b o z => some (0#4 ++ o ++ z ++ b ++ a ++ d ++ 45#7)
  | .cas d a b z => some (16#8 ++ z ++ b ++ a ++ d ++ 45#7)
  | .vamo d a b o k => some (2#4 ++ o ++ k ++ b ++ a ++ d ++ 45#7)
  | .faas d a k => some (3#4 ++ k ++ 0#8 ++ a ++ d ++ 45#7)
  | .acq d a b => some (0#10 ++ b ++ a ++ d ++ 47#7)
  | .rel d a => some (2048#15 ++ a ++ d ++ 47#7)
  | .gbind d a b s => some (2#4 ++ s ++ 0#4 ++ b ++ a ++ d ++ 47#7)
  | .gunbind a => some (6144#15 ++ a ++ 47#12)
  | .fence s k => some (4#4 ++ s ++ k ++ 47#24)
  | .qfence q => some (5#4 ++ q ++ 47#12)
  | .cfence => some (1610612783#32)
  | .barinit a => some (14336#15 ++ a ++ 47#12)
  | .barwait a b => some (512#10 ++ b ++ a ++ 47#12)
  | .barrel a b => some (576#10 ++ b ++ a ++ 47#12)
  | .setvl d a w => some (0#7 ++ w ++ 0#5 ++ a ++ d ++ 49#7)
  | .setvt d a w => some (1#7 ++ w ++ 0#5 ++ a ++ d ++ 49#7)
  | .vld d a k h => some (0#4 ++ k ++ h ++ 0#5 ++ a ++ d ++ 51#7)
  | .vlds d a b k h => some (1#4 ++ k ++ h ++ b ++ a ++ d ++ 51#7)
  | .vldx d a b k h => some (2#4 ++ k ++ h ++ b ++ a ++ d ++ 51#7)
  | .vldseg d a k h n => some (3#4 ++ k ++ h ++ n ++ a ++ d ++ 51#7)
  | .vldff d a k h => some (4#4 ++ k ++ h ++ 0#5 ++ a ++ d ++ 51#7)
  | .vldWc d a k h => some (5#4 ++ k ++ h ++ 0#5 ++ a ++ d ++ 51#7)
  | .vldc d a k h => some (6#4 ++ k ++ h ++ 0#5 ++ a ++ d ++ 51#7)
  | .vst d a k h => some (0#4 ++ k ++ h ++ 0#5 ++ a ++ d ++ 53#7)
  | .vsts d a b k h => some (1#4 ++ k ++ h ++ b ++ a ++ d ++ 53#7)
  | .vstx d a b k h => some (2#4 ++ k ++ h ++ b ++ a ++ d ++ 53#7)
  | .vstseg d a k h n => some (3#4 ++ k ++ h ++ n ++ a ++ d ++ 53#7)
  | .vaddVv d a b k w => some (0#4 ++ k ++ w ++ b ++ a ++ d ++ 55#7)
  | .vaddVs d a b k w => some (0#4 ++ k ++ w ++ b ++ a ++ d ++ 57#7)
  | .vaddVi d a k w i => some (0#4 ++ k ++ w ++ i ++ a ++ d ++ 59#7)
  | .vsubVv d a b k w => some (1#4 ++ k ++ w ++ b ++ a ++ d ++ 55#7)
  | .vsubVs d a b k w => some (1#4 ++ k ++ w ++ b ++ a ++ d ++ 57#7)
  | .vsubVi d a k w i => some (1#4 ++ k ++ w ++ i ++ a ++ d ++ 59#7)
  | .vrsubVv d a b k w => some (2#4 ++ k ++ w ++ b ++ a ++ d ++ 55#7)
  | .vrsubVs d a b k w => some (2#4 ++ k ++ w ++ b ++ a ++ d ++ 57#7)
  | .vrsubVi d a k w i => some (2#4 ++ k ++ w ++ i ++ a ++ d ++ 59#7)
  | .vandVv d a b k w => some (3#4 ++ k ++ w ++ b ++ a ++ d ++ 55#7)
  | .vandVs d a b k w => some (3#4 ++ k ++ w ++ b ++ a ++ d ++ 57#7)
  | .vandVi d a k w i => some (3#4 ++ k ++ w ++ i ++ a ++ d ++ 59#7)
  | .vorVv d a b k w => some (4#4 ++ k ++ w ++ b ++ a ++ d ++ 55#7)
  | .vorVs d a b k w => some (4#4 ++ k ++ w ++ b ++ a ++ d ++ 57#7)
  | .vorVi d a k w i => some (4#4 ++ k ++ w ++ i ++ a ++ d ++ 59#7)
  | .vxorVv d a b k w => some (5#4 ++ k ++ w ++ b ++ a ++ d ++ 55#7)
  | .vxorVs d a b k w => some (5#4 ++ k ++ w ++ b ++ a ++ d ++ 57#7)
  | .vxorVi d a k w i => some (5#4 ++ k ++ w ++ i ++ a ++ d ++ 59#7)
  | .vsllVv d a b k w => some (6#4 ++ k ++ w ++ b ++ a ++ d ++ 55#7)
  | .vsllVs d a b k w => some (6#4 ++ k ++ w ++ b ++ a ++ d ++ 57#7)
  | .vsllVi d a k w i => some (6#4 ++ k ++ w ++ i ++ a ++ d ++ 59#7)
  | .vsrlVv d a b k w => some (7#4 ++ k ++ w ++ b ++ a ++ d ++ 55#7)
  | .vsrlVs d a b k w => some (7#4 ++ k ++ w ++ b ++ a ++ d ++ 57#7)
  | .vsrlVi d a k w i => some (7#4 ++ k ++ w ++ i ++ a ++ d ++ 59#7)
  | .vsraVv d a b k w => some (8#4 ++ k ++ w ++ b ++ a ++ d ++ 55#7)
  | .vsraVs d a b k w => some (8#4 ++ k ++ w ++ b ++ a ++ d ++ 57#7)
  | .vsraVi d a k w i => some (8#4 ++ k ++ w ++ i ++ a ++ d ++ 59#7)
  | .vminVv d a b k w => some (9#4 ++ k ++ w ++ b ++ a ++ d ++ 55#7)
  | .vminVs d a b k w => some (9#4 ++ k ++ w ++ b ++ a ++ d ++ 57#7)
  | .vminVi d a k w i => some (9#4 ++ k ++ w ++ i ++ a ++ d ++ 59#7)
  | .vmaxVv d a b k w => some (10#4 ++ k ++ w ++ b ++ a ++ d ++ 55#7)
  | .vmaxVs d a b k w => some (10#4 ++ k ++ w ++ b ++ a ++ d ++ 57#7)
  | .vmaxVi d a k w i => some (10#4 ++ k ++ w ++ i ++ a ++ d ++ 59#7)
  | .vminuVv d a b k w => some (11#4 ++ k ++ w ++ b ++ a ++ d ++ 55#7)
  | .vminuVs d a b k w => some (11#4 ++ k ++ w ++ b ++ a ++ d ++ 57#7)
  | .vminuVi d a k w i => some (11#4 ++ k ++ w ++ i ++ a ++ d ++ 59#7)
  | .vmaxuVv d a b k w => some (12#4 ++ k ++ w ++ b ++ a ++ d ++ 55#7)
  | .vmaxuVs d a b k w => some (12#4 ++ k ++ w ++ b ++ a ++ d ++ 57#7)
  | .vmaxuVi d a k w i => some (12#4 ++ k ++ w ++ i ++ a ++ d ++ 59#7)
  | .vmergeVv d a b k w => some (13#4 ++ k ++ w ++ b ++ a ++ d ++ 55#7)
  | .vmergeVs d a b k w => some (13#4 ++ k ++ w ++ b ++ a ++ d ++ 57#7)
  | .vmergeVi d a k w i => some (13#4 ++ k ++ w ++ i ++ a ++ d ++ 59#7)
  | .vmvVv d b k w => some (14#4 ++ k ++ w ++ b ++ 0#5 ++ d ++ 55#7)
  | .vmvVs d b k w => some (14#4 ++ k ++ w ++ b ++ 0#5 ++ d ++ 57#7)
  | .vmvVi d k w i => some (14#4 ++ k ++ w ++ i ++ 0#5 ++ d ++ 59#7)
  | .vidx d k w t s => some (15#4 ++ k ++ w ++ t ++ s ++ d ++ 59#7)
  | .vmulVv d a b k w => some (0#4 ++ k ++ w ++ b ++ a ++ d ++ 61#7)
  | .vmulVs d a b k w => some (0#4 ++ k ++ w ++ b ++ a ++ d ++ 63#7)
  | .vmulhVv d a b k w => some (1#4 ++ k ++ w ++ b ++ a ++ d ++ 61#7)
  | .vmulhVs d a b k w => some (1#4 ++ k ++ w ++ b ++ a ++ d ++ 63#7)
  | .vmulhuVv d a b k w => some (2#4 ++ k ++ w ++ b ++ a ++ d ++ 61#7)
  | .vmulhuVs d a b k w => some (2#4 ++ k ++ w ++ b ++ a ++ d ++ 63#7)
  | .vmaccVv d a b k w => some (3#4 ++ k ++ w ++ b ++ a ++ d ++ 61#7)
  | .vmaccVs d a b k w => some (3#4 ++ k ++ w ++ b ++ a ++ d ++ 63#7)
  | .vnmsacVv d a b k w => some (4#4 ++ k ++ w ++ b ++ a ++ d ++ 61#7)
  | .vnmsacVs d a b k w => some (4#4 ++ k ++ w ++ b ++ a ++ d ++ 63#7)
  | .vwaddVv d a b k w => some (5#4 ++ k ++ w ++ b ++ a ++ d ++ 61#7)
  | .vwaddVs d a b k w => some (5#4 ++ k ++ w ++ b ++ a ++ d ++ 63#7)
  | .vwmulVv d a b k w => some (6#4 ++ k ++ w ++ b ++ a ++ d ++ 61#7)
  | .vwmulVs d a b k w => some (6#4 ++ k ++ w ++ b ++ a ++ d ++ 63#7)
  | .vwmaccVv d a b k w => some (7#4 ++ k ++ w ++ b ++ a ++ d ++ 61#7)
  | .vwmaccVs d a b k w => some (7#4 ++ k ++ w ++ b ++ a ++ d ++ 63#7)
  | .vwmaccuVv d a b k w => some (8#4 ++ k ++ w ++ b ++ a ++ d ++ 61#7)
  | .vwmaccuVs d a b k w => some (8#4 ++ k ++ w ++ b ++ a ++ d ++ 63#7)
  | .vdivVv d a b k w => some (9#4 ++ k ++ w ++ b ++ a ++ d ++ 61#7)
  | .vdivVs d a b k w => some (9#4 ++ k ++ w ++ b ++ a ++ d ++ 63#7)
  | .vremVv d a b k w => some (10#4 ++ k ++ w ++ b ++ a ++ d ++ 61#7)
  | .vremVs d a b k w => some (10#4 ++ k ++ w ++ b ++ a ++ d ++ 63#7)
  | .vsaddVv d a b k w => some (11#4 ++ k ++ w ++ b ++ a ++ d ++ 61#7)
  | .vsaddVs d a b k w => some (11#4 ++ k ++ w ++ b ++ a ++ d ++ 63#7)
  | .vsadduVv d a b k w => some (12#4 ++ k ++ w ++ b ++ a ++ d ++ 61#7)
  | .vsadduVs d a b k w => some (12#4 ++ k ++ w ++ b ++ a ++ d ++ 63#7)
  | .vssubVv d a b k w => some (13#4 ++ k ++ w ++ b ++ a ++ d ++ 61#7)
  | .vssubVs d a b k w => some (13#4 ++ k ++ w ++ b ++ a ++ d ++ 63#7)
  | .vssubuVv d a b k w => some (14#4 ++ k ++ w ++ b ++ a ++ d ++ 61#7)
  | .vssubuVs d a b k w => some (14#4 ++ k ++ w ++ b ++ a ++ d ++ 63#7)
  | .vsmulVv d a b k w => some (15#4 ++ k ++ w ++ b ++ a ++ d ++ 61#7)
  | .vsmulVs d a b k w => some (15#4 ++ k ++ w ++ b ++ a ++ d ++ 63#7)
  | .vaaddVv d a b k w => some (0#4 ++ k ++ w ++ b ++ a ++ d ++ 65#7)
  | .vaaddVs d a b k w => some (0#4 ++ k ++ w ++ b ++ a ++ d ++ 67#7)
  | .vaaddVi d a k w i => some (0#4 ++ k ++ w ++ i ++ a ++ d ++ 69#7)
  | .vssrVv d a b k w => some (1#4 ++ k ++ w ++ b ++ a ++ d ++ 65#7)
  | .vssrVs d a b k w => some (1#4 ++ k ++ w ++ b ++ a ++ d ++ 67#7)
  | .vssrVi d a k w i => some (1#4 ++ k ++ w ++ i ++ a ++ d ++ 69#7)
  | .vnshrVv d a b k w => some (2#4 ++ k ++ w ++ b ++ a ++ d ++ 65#7)
  | .vnshrVs d a b k w => some (2#4 ++ k ++ w ++ b ++ a ++ d ++ 67#7)
  | .vnshrVi d a k w i => some (2#4 ++ k ++ w ++ i ++ a ++ d ++ 69#7)
  | .vsextVv d a b k w => some (3#4 ++ k ++ w ++ b ++ a ++ d ++ 65#7)
  | .vsextVs d a b k w => some (3#4 ++ k ++ w ++ b ++ a ++ d ++ 67#7)
  | .vsextVi d a k w i => some (3#4 ++ k ++ w ++ i ++ a ++ d ++ 69#7)
  | .vzextVv d a b k w => some (4#4 ++ k ++ w ++ b ++ a ++ d ++ 65#7)
  | .vzextVs d a b k w => some (4#4 ++ k ++ w ++ b ++ a ++ d ++ 67#7)
  | .vzextVi d a k w i => some (4#4 ++ k ++ w ++ i ++ a ++ d ++ 69#7)
  | .vcmpVv d a b c k w => some (1#1 ++ c ++ k ++ w ++ b ++ a ++ 0#2 ++ d ++ 65#7)
  | .vcmpVs d a b c k w => some (1#1 ++ c ++ k ++ w ++ b ++ a ++ 0#2 ++ d ++ 67#7)
  | .vcmpVi d a c k w i => some (1#1 ++ c ++ k ++ w ++ i ++ a ++ 0#2 ++ d ++ 69#7)
  | .vfaddVv d a b k w => some (0#4 ++ k ++ w ++ b ++ a ++ d ++ 71#7)
  | .vfaddVs d a b k w => some (0#4 ++ k ++ w ++ b ++ a ++ d ++ 73#7)
  | .vfsubVv d a b k w => some (1#4 ++ k ++ w ++ b ++ a ++ d ++ 71#7)
  | .vfsubVs d a b k w => some (1#4 ++ k ++ w ++ b ++ a ++ d ++ 73#7)
  | .vfmulVv d a b k w => some (2#4 ++ k ++ w ++ b ++ a ++ d ++ 71#7)
  | .vfmulVs d a b k w => some (2#4 ++ k ++ w ++ b ++ a ++ d ++ 73#7)
  | .vfdivVv d a b k w => some (3#4 ++ k ++ w ++ b ++ a ++ d ++ 71#7)
  | .vfdivVs d a b k w => some (3#4 ++ k ++ w ++ b ++ a ++ d ++ 73#7)
  | .vfmaVv d a b k w => some (4#4 ++ k ++ w ++ b ++ a ++ d ++ 71#7)
  | .vfmaVs d a b k w => some (4#4 ++ k ++ w ++ b ++ a ++ d ++ 73#7)
  | .vfnmaVv d a b k w => some (5#4 ++ k ++ w ++ b ++ a ++ d ++ 71#7)
  | .vfnmaVs d a b k w => some (5#4 ++ k ++ w ++ b ++ a ++ d ++ 73#7)
  | .vfminVv d a b k w => some (6#4 ++ k ++ w ++ b ++ a ++ d ++ 71#7)
  | .vfminVs d a b k w => some (6#4 ++ k ++ w ++ b ++ a ++ d ++ 73#7)
  | .vfmaxVv d a b k w => some (7#4 ++ k ++ w ++ b ++ a ++ d ++ 71#7)
  | .vfmaxVs d a b k w => some (7#4 ++ k ++ w ++ b ++ a ++ d ++ 73#7)
  | .vfsqrt d a k w => some (8#4 ++ k ++ w ++ 0#5 ++ a ++ d ++ 71#7)
  | .vfexp2 d a k w => some (9#4 ++ k ++ w ++ 0#5 ++ a ++ d ++ 71#7)
  | .vflog2 d a k w => some (10#4 ++ k ++ w ++ 0#5 ++ a ++ d ++ 71#7)
  | .vfrece d a k w => some (11#4 ++ k ++ w ++ 0#5 ++ a ++ d ++ 71#7)
  | .vfrsqe d a k w => some (12#4 ++ k ++ w ++ 0#5 ++ a ++ d ++ 71#7)
  | .vfcvt d a k w c => some (13#4 ++ k ++ w ++ c ++ a ++ d ++ 71#7)
  | .vfcvt4 d a b w => some (112#7 ++ w ++ b ++ a ++ d ++ 71#7)
  | .vfcmpVv d a b k w c => some (15#4 ++ k ++ w ++ b ++ a ++ c ++ d ++ 71#7)
  | .vfcmpVs d a b k w c => some (15#4 ++ k ++ w ++ b ++ a ++ c ++ d ++ 73#7)
  | .vrsum d a k w s => some (0#4 ++ k ++ w ++ 0#2 ++ s ++ a ++ d ++ 75#7)
  | .vrmax d a k w s => some (1#4 ++ k ++ w ++ 0#2 ++ s ++ a ++ d ++ 75#7)
  | .vrmin d a k w s => some (2#4 ++ k ++ w ++ 0#2 ++ s ++ a ++ d ++ 75#7)
  | .vrfsum d a k w s => some (3#4 ++ k ++ w ++ 0#2 ++ s ++ a ++ d ++ 75#7)
  | .vrfmax d a k w s => some (4#4 ++ k ++ w ++ 0#2 ++ s ++ a ++ d ++ 75#7)
  | .vscan d a k w e s => some (5#4 ++ k ++ w ++ 0#1 ++ e ++ s ++ a ++ d ++ 75#7)
  | .vfscan d a k w e s => some (6#4 ++ k ++ w ++ 0#1 ++ e ++ s ++ a ++ d ++ 75#7)
  | .vsmax d a b k w => some (7#4 ++ k ++ w ++ b ++ a ++ d ++ 75#7)
  | .vslup d a b k w => some (8#4 ++ k ++ w ++ b ++ a ++ d ++ 75#7)
  | .vsldn d a b k w => some (9#4 ++ k ++ w ++ b ++ a ++ d ++ 75#7)
  | .vrgat d a b k w => some (10#4 ++ k ++ w ++ b ++ a ++ d ++ 75#7)
  | .vcomp d a b w => some (88#7 ++ w ++ b ++ a ++ d ++ 75#7)
  | .viota d a k w => some (12#4 ++ k ++ w ++ 0#7 ++ a ++ d ++ 75#7)
  | .vextr d a b w => some (104#7 ++ w ++ b ++ a ++ d ++ 75#7)
  | .vins d a b w => some (112#7 ++ w ++ b ++ a ++ d ++ 75#7)
  | .kand d a b w => some (0#7 ++ w ++ 0#2 ++ b ++ 0#2 ++ a ++ 0#2 ++ d ++ 77#7)
  | .kor d a b w => some (8#7 ++ w ++ 0#2 ++ b ++ 0#2 ++ a ++ 0#2 ++ d ++ 77#7)
  | .kxor d a b w => some (16#7 ++ w ++ 0#2 ++ b ++ 0#2 ++ a ++ 0#2 ++ d ++ 77#7)
  | .kandn d a b w => some (24#7 ++ w ++ 0#2 ++ b ++ 0#2 ++ a ++ 0#2 ++ d ++ 77#7)
  | .knot d a w => some (32#7 ++ w ++ 0#7 ++ a ++ 0#2 ++ d ++ 77#7)
  | .kffs d a k w => some (5#4 ++ k ++ w ++ 0#7 ++ a ++ d ++ 77#7)
  | .kpopc d a k w => some (6#4 ++ k ++ w ++ 0#7 ++ a ++ d ++ 77#7)
  | .kset d a w => some (56#7 ++ w ++ 0#5 ++ a ++ 0#2 ++ d ++ 77#7)
  | .kmv d a w => some (64#7 ++ w ++ 0#7 ++ a ++ 0#2 ++ d ++ 77#7)
  | .vnld d a b q l => some (0#4 ++ q ++ l ++ 0#4 ++ b ++ a ++ d ++ 81#7)
  | .vnst d a b r => some (1#4 ++ r ++ 0#5 ++ b ++ a ++ d ++ 81#7)
  | .vnldv d a b k q => some (2#4 ++ k ++ q ++ 0#2 ++ b ++ a ++ d ++ 81#7)
  | .vnstv d a b k r => some (3#4 ++ k ++ r ++ 0#2 ++ b ++ a ++ d ++ 81#7)
  | .vnqry d a s => some (0#4 ++ s ++ 0#9 ++ a ++ d ++ 83#7)
  | .vndrop a b => some (64#10 ++ b ++ a ++ 83#12)
  | .vnopen d a b => some (128#10 ++ b ++ a ++ d ++ 83#7)
  | .vnclose d a => some (6144#15 ++ a ++ d ++ 83#7)
  | .strm a b q => some (0#4 ++ q ++ 0#2 ++ b ++ a ++ 89#12)
  | .sqwait q => some (1#4 ++ q ++ 89#24)
  | .sqstat d q s => some (2#4 ++ q ++ s ++ 0#9 ++ d ++ 89#7)
  | .mzero d => some (0#22 ++ d ++ 97#7)
  | .mlda a b f => some (1#4 ++ f ++ 0#4 ++ b ++ a ++ 97#12)
  | .mldb a f u => some (2#4 ++ f ++ u ++ 0#7 ++ a ++ 97#12)
  | .mma d => some (786432#22 ++ d ++ 97#7)
  | .mrsc d a m => some (4#4 ++ m ++ 0#10 ++ a ++ 0#2 ++ d ++ 97#7)
  | .mstr d a b f => some (5#4 ++ f ++ 0#3 ++ b ++ a ++ 0#2 ++ d ++ 97#7)
  | .mmovvToV d a q => some (12#5 ++ q ++ 0#8 ++ a ++ d ++ 97#7)
  | .mmovvToT d a q => some (13#5 ++ q ++ 0#6 ++ a ++ 0#2 ++ d ++ 97#7)
  | .tenq d a => some (0#15 ++ a ++ d ++ 109#7)
  | .targ d a => some (2048#15 ++ a ++ d ++ 109#7)
  | .tyld => some (536871021#32)
  | .tself d s => some (3#4 ++ s ++ 0#14 ++ d ++ 109#7)
  | .tend => some (1073741933#32)
  | .npost d a => some (0#15 ++ a ++ d ++ 111#7)
  | .nwait d a b => some (64#10 ++ b ++ a ++ d ++ 111#7)
  | .encj d a => some (4096#15 ++ a ++ d ++ 111#7)
  | _ => none

/-- The parcel of a compact form (R61); none for any other instruction. -/
def encode16 : Instr → Option (BitVec 16)
  | .cAdd p => some (0#5 ++ p ++ 2#6)
  | .cSub p => some (0#5 ++ p ++ 4#6)
  | .cAnd p => some (0#5 ++ p ++ 6#6)
  | .cOr p => some (0#5 ++ p ++ 8#6)
  | .cXor p => some (0#5 ++ p ++ 10#6)
  | .cMul p => some (0#5 ++ p ++ 12#6)
  | .cAddi i => some (i ++ 14#6)
  | .cLi i => some (i ++ 16#6)
  | .cSlli s => some (s ++ 18#11)
  | .cSrli s => some (s ++ 20#11)
  | .cSrai s => some (s ++ 22#11)
  | .cMv p => some (0#5 ++ p ++ 24#6)
  | .cMin p => some (0#5 ++ p ++ 26#6)
  | .cMax p => some (0#5 ++ p ++ 28#6)
  | .cVadd p => some (0#5 ++ p ++ 32#6)
  | .cVsub p => some (0#5 ++ p ++ 34#6)
  | .cVand p => some (0#5 ++ p ++ 36#6)
  | .cVor p => some (0#5 ++ p ++ 38#6)
  | .cVxor p => some (0#5 ++ p ++ 40#6)
  | .cVmul p => some (0#5 ++ p ++ 42#6)
  | .cVmacc q p => some (q ++ p ++ 44#6)
  | .cVadds p => some (0#5 ++ p ++ 46#6)
  | .cVmuls p => some (0#5 ++ p ++ 48#6)
  | .cVfadd p => some (0#5 ++ p ++ 50#6)
  | .cVfmul p => some (0#5 ++ p ++ 52#6)
  | .cVfma q p => some (q ++ p ++ 54#6)
  | .cVfmas q p => some (q ++ p ++ 56#6)
  | .cVfadds p => some (0#5 ++ p ++ 58#6)
  | _ => none

/-- The mask and the match of every 32-bit row of the opcode table. -/
def rows32 : List (Nat × Nat) :=
  [(0xFE00007F, 0x00000001), (0xFE00007F, 0x02000001), (0xFE00007F, 0x04000001), (0xFE00007F, 0x06000001),
   (0xFE00007F, 0x08000001), (0xFE00007F, 0x0A000001), (0xFE00007F, 0x0C000001), (0xFE00007F, 0x0E000001),
   (0xFE00007F, 0x10000001), (0xFE00007F, 0x12000001), (0xFE00007F, 0x14000001), (0xFE00007F, 0x16000001),
   (0xFE00007F, 0x18000001), (0xFE00007F, 0x1A000001), (0xFE00007F, 0x1C000001), (0xFE00007F, 0x1E000001),
   (0xFE00007F, 0x20000001), (0xFE00007F, 0x40000001), (0xFE00007F, 0x42000001), (0xFE00007F, 0x44000001),
   (0xFE00007F, 0x46000001), (0xFE00007F, 0x48000001), (0xFE00007F, 0x4A000001), (0xFE00007F, 0x4C000001)] ++
  [(0xFE3E007F, 0x60000001), (0xFE3E007F, 0x62000001), (0xFE3E007F, 0x64000001), (0xFE00007F, 0x66000001),
   (0xFE00007F, 0x68000001), (0xFE00007F, 0x6A000001), (0xFC00007F, 0x80000001), (0xFC00007F, 0x84000001),
   (0xFC00007F, 0x88000001), (0x0000007F, 0x00000003), (0x0000007F, 0x00000005), (0x0000007F, 0x00000007),
   (0x0000007F, 0x00000009), (0x0000007F, 0x0000000B), (0x0100007F, 0x0000000D), (0x0000007F, 0x00000011),
   (0x8000007F, 0x00000013), (0x0000007F, 0x00000015), (0x80000FFF, 0x00000015), (0xFE00007F, 0x00000017),
   (0xF800007F, 0x08000017), (0xFE01F07F, 0x10000017), (0xFE01F07F, 0x12000017), (0xFE01F07F, 0x14000017)] ++
  [(0x01C0007F, 0x00000019), (0x01C0007F, 0x00400019), (0x01C0007F, 0x00800019), (0x01C0007F, 0x00C00019),
   (0x01C0007F, 0x01000019), (0x01C0007F, 0x01400019), (0x0000007F, 0x0000001B), (0x0000007F, 0x0000001D),
   (0xF0000FFF, 0x0000001F), (0xF000007F, 0x1000001F), (0xFFFFFFFF, 0x2000001F), (0xF0000FFF, 0x3000001F),
   (0xF000007F, 0x4000001F), (0xFFFFFFFF, 0x5000001F), (0xFFFFFFFF, 0x5800001F), (0xF800007F, 0x00000021),
   (0xF800007F, 0x08000021), (0xF800007F, 0x10000021), (0xF800007F, 0x18000021), (0xF83E007F, 0x20000021),
   (0xF800007F, 0x28000021), (0xF800007F, 0x30000021), (0xF800007F, 0x00000023), (0xE000007F, 0x00000025)] ++
  [(0xFE00007F, 0x00000027), (0xF800007F, 0x08000027), (0x01C1F07F, 0x00000029), (0x01C0007F, 0x00400029),
   (0x01C0007F, 0x00800029), (0x01C0007F, 0x00C00029), (0xF0000FFF, 0x0000002B), (0xFFFFFFFF, 0x1000002B),
   (0xFFC0007F, 0x2000002B), (0xFFC00FFF, 0x3000002B), (0xFFC1FFFF, 0x3400002B), (0xFFFFFFFF, 0x3800002B),
   (0xFFC00FFF, 0x4000002B), (0xFFC00FFF, 0x5000002B), (0xFFC00FFF, 0x6000002B), (0xF0000FFF, 0x7000002B),
   (0xFFFFFFFF, 0x8000002B), (0xF000007F, 0x0000002D), (0xFF00007F, 0x1000002D), (0xF000007F, 0x2000002D),
   (0xF1FE007F, 0x3000002D), (0xFFC0007F, 0x0000002F), (0xFFFE007F, 0x1000002F), (0xF3C0007F, 0x2000002F)] ++
  [(0xFFFE0FFF, 0x3000002F), (0xF0FFFFFF, 0x4000002F), (0xF0000FFF, 0x5000002F), (0xFFFFFFFF, 0x6000002F),
   (0xFFFE0FFF, 0x7000002F), (0xFFC00FFF, 0x8000002F), (0xFFC00FFF, 0x9000002F), (0xFE3E007F, 0x00000031),
   (0xFE3E007F, 0x02000031), (0xF03E007F, 0x00000033), (0xF000007F, 0x10000033), (0xF000007F, 0x20000033),
   (0xF000007F, 0x30000033), (0xF03E007F, 0x40000033), (0xF03E007F, 0x50000033), (0xF03E007F, 0x60000033),
   (0xF03E007F, 0x00000035), (0xF000007F, 0x10000035), (0xF000007F, 0x20000035), (0xF000007F, 0x30000035),
   (0xF000007F, 0x00000037), (0xF000007F, 0x00000039), (0xF000007F, 0x0000003B), (0xF000007F, 0x10000037)] ++
  [(0xF000007F, 0x10000039), (0xF000007F, 0x1000003B), (0xF000007F, 0x20000037), (0xF000007F, 0x20000039),
   (0xF000007F, 0x2000003B), (0xF000007F, 0x30000037), (0xF000007F, 0x30000039), (0xF000007F, 0x3000003B),
   (0xF000007F, 0x40000037), (0xF000007F, 0x40000039), (0xF000007F, 0x4000003B), (0xF000007F, 0x50000037),
   (0xF000007F, 0x50000039), (0xF000007F, 0x5000003B), (0xF000007F, 0x60000037), (0xF000007F, 0x60000039),
   (0xF000007F, 0x6000003B), (0xF000007F, 0x70000037), (0xF000007F, 0x70000039), (0xF000007F, 0x7000003B),
   (0xF000007F, 0x80000037), (0xF000007F, 0x80000039), (0xF000007F, 0x8000003B), (0xF000007F, 0x90000037)] ++
  [(0xF000007F, 0x90000039), (0xF000007F, 0x9000003B), (0xF000007F, 0xA0000037), (0xF000007F, 0xA0000039),
   (0xF000007F, 0xA000003B), (0xF000007F, 0xB0000037), (0xF000007F, 0xB0000039), (0xF000007F, 0xB000003B),
   (0xF000007F, 0xC0000037), (0xF000007F, 0xC0000039), (0xF000007F, 0xC000003B), (0xF000007F, 0xD0000037),
   (0xF000007F, 0xD0000039), (0xF000007F, 0xD000003B), (0xF001F07F, 0xE0000037), (0xF001F07F, 0xE0000039),
   (0xF001F07F, 0xE000003B), (0xF000007F, 0xF000003B), (0xF000007F, 0x0000003D), (0xF000007F, 0x0000003F),
   (0xF000007F, 0x1000003D), (0xF000007F, 0x1000003F), (0xF000007F, 0x2000003D), (0xF000007F, 0x2000003F)] ++
  [(0xF000007F, 0x3000003D), (0xF000007F, 0x3000003F), (0xF000007F, 0x4000003D), (0xF000007F, 0x4000003F),
   (0xF000007F, 0x5000003D), (0xF000007F, 0x5000003F), (0xF000007F, 0x6000003D), (0xF000007F, 0x6000003F),
   (0xF000007F, 0x7000003D), (0xF000007F, 0x7000003F), (0xF000007F, 0x8000003D), (0xF000007F, 0x8000003F),
   (0xF000007F, 0x9000003D), (0xF000007F, 0x9000003F), (0xF000007F, 0xA000003D), (0xF000007F, 0xA000003F),
   (0xF000007F, 0xB000003D), (0xF000007F, 0xB000003F), (0xF000007F, 0xC000003D), (0xF000007F, 0xC000003F),
   (0xF000007F, 0xD000003D), (0xF000007F, 0xD000003F), (0xF000007F, 0xE000003D), (0xF000007F, 0xE000003F)] ++
  [(0xF000007F, 0xF000003D), (0xF000007F, 0xF000003F), (0xF000007F, 0x00000041), (0xF000007F, 0x00000043),
   (0xF000007F, 0x00000045), (0xF000007F, 0x10000041), (0xF000007F, 0x10000043), (0xF000007F, 0x10000045),
   (0xF000007F, 0x20000041), (0xF000007F, 0x20000043), (0xF000007F, 0x20000045), (0xF000007F, 0x30000041),
   (0xF000007F, 0x30000043), (0xF000007F, 0x30000045), (0xF000007F, 0x40000041), (0xF000007F, 0x40000043),
   (0xF000007F, 0x40000045), (0x80000C7F, 0x80000041), (0x80000C7F, 0x80000043), (0x80000C7F, 0x80000045),
   (0xF000007F, 0x00000047), (0xF000007F, 0x00000049), (0xF000007F, 0x10000047), (0xF000007F, 0x10000049)] ++
  [(0xF000007F, 0x20000047), (0xF000007F, 0x20000049), (0xF000007F, 0x30000047), (0xF000007F, 0x30000049),
   (0xF000007F, 0x40000047), (0xF000007F, 0x40000049), (0xF000007F, 0x50000047), (0xF000007F, 0x50000049),
   (0xF000007F, 0x60000047), (0xF000007F, 0x60000049), (0xF000007F, 0x70000047), (0xF000007F, 0x70000049),
   (0xF03E007F, 0x80000047), (0xF03E007F, 0x90000047), (0xF03E007F, 0xA0000047), (0xF03E007F, 0xB0000047),
   (0xF03E007F, 0xC0000047), (0xF000007F, 0xD0000047), (0xFE00007F, 0xE0000047), (0xF000007F, 0xF0000047),
   (0xF000007F, 0xF0000049), (0xF030007F, 0x0000004B), (0xF030007F, 0x1000004B), (0xF030007F, 0x2000004B)] ++
  [(0xF030007F, 0x3000004B), (0xF030007F, 0x4000004B), (0xF020007F, 0x5000004B), (0xF020007F, 0x6000004B),
   (0xF000007F, 0x7000004B), (0xF000007F, 0x8000004B), (0xF000007F, 0x9000004B), (0xF000007F, 0xA000004B),
   (0xFE00007F, 0xB000004B), (0xF03F807F, 0xC000004B), (0xFE00007F, 0xD000004B), (0xFE00007F, 0xE000004B),
   (0xFE318C7F, 0x0000004D), (0xFE318C7F, 0x1000004D), (0xFE318C7F, 0x2000004D), (0xFE318C7F, 0x3000004D),
   (0xFE3F8C7F, 0x4000004D), (0xF03F807F, 0x5000004D), (0xF03F807F, 0x6000004D), (0xFE3E0C7F, 0x7000004D),
   (0xFE3F8C7F, 0x8000004D), (0xF3C0007F, 0x00000051), (0xF7C0007F, 0x10000051), (0xF0C0007F, 0x20000051)] ++
  [(0xF0C0007F, 0x30000051), (0xF3FE007F, 0x00000053), (0xFFC00FFF, 0x10000053), (0xFFC0007F, 0x20000053),
   (0xFFFE007F, 0x30000053), (0xF0C00FFF, 0x00000059), (0xF0FFFFFF, 0x10000059), (0xF01FF07F, 0x20000059),
   (0xFFFFFC7F, 0x00000061), (0xF3C00FFF, 0x10000061), (0xF0FE0FFF, 0x20000061), (0xFFFFFC7F, 0x30000061),
   (0xF7FE0C7F, 0x40000061), (0xF1C00C7F, 0x50000061), (0xF87F807F, 0x60000061), (0xF87E0C7F, 0x68000061),
   (0xFFFE007F, 0x0000006D), (0xFFFE007F, 0x1000006D), (0xFFFFFFFF, 0x2000006D), (0xF3FFF07F, 0x3000006D),
   (0xFFFFFFFF, 0x4000006D), (0xFFFE007F, 0x0000006F), (0xFFC0007F, 0x1000006F), (0xFFFE007F, 0x2000006F)]

/-- Whether a 32-bit word is an instruction, by the masks of the table (R49, R66-R69). -/
def isInstr32 (w : BitVec 32) : Bool := rows32.any fun r => w.toNat &&& r.1 = r.2

/-- The number of a little-endian list of bytes. -/
def bytesToNat : List Byte → Nat
  | [] => 0
  | b :: bs => b.toNat + 256 * bytesToNat bs

/-- The little-endian bytes of a number. -/
def natToBytes (x : Nat) : Nat → List Byte
  | 0 => []
  | n + 1 => BitVec.ofNat 8 x :: natToBytes (x / 256) n

/-- The instruction that a list of bytes starts with, and the rest: bit 0 of the first parcel gives the length (R47). -/
noncomputable def decode (bs : List Byte) : Except Reject (Instr × List Byte) :=
  match bs with
  | b0 :: b1 :: rest =>
    if b0.getLsbD 0 then
      match rest with
      | b2 :: b3 :: rest =>
        match decode32 (b3 ++ b2 ++ b1 ++ b0) with
        | .ok i => .ok (i, rest)
        | .error e => .error e
      | _ => .error .short
    else
      match decode16 (b1 ++ b0) with
      | .ok i => .ok (i, rest)
      | .error e => .error e
  | _ => .error .short

/-- The bytes of an instruction, the lowest address first; none for a row without an encoding. -/
def encode (i : Instr) : List Byte :=
  match encode32 i with
  | some w => natToBytes w.toNat 4
  | none =>
    match encode16 i with
    | some w => natToBytes w.toNat 2
    | none => []

/-- What the decoder reads from an instruction of the opcode table: nbits bits of value w, and zeros above. -/
noncomputable def decodeTableWord (nbits w : Nat) : Option Instr :=
  match decode (natToBytes (w % 2 ^ nbits) 4) with
  | .ok (i, _) => some i
  | .error _ => none

/-- The fields of a stream command (R241): SOP[63:58] CD[57:54] CA[53:50] CB[49:46] IMM[45:0]. -/
def cmdSop (w : BitVec 64) : Nat := (w.extractLsb' 58 6).toNat
def cmdD (w : BitVec 64) : BitVec 4 := w.extractLsb' 54 4
def cmdA (w : BitVec 64) : BitVec 4 := w.extractLsb' 50 4
def cmdB (w : BitVec 64) : BitVec 4 := w.extractLsb' 46 4
def cmdImm (w : BitVec 64) : BitVec 46 := w.extractLsb' 0 46

/-- A command that needs some fields to be zero. -/
def cmdIf (ok : Bool) (i : Instr) : Except Reject Instr := if ok then .ok i else .error .unusedField

/-- A command whose CD names a d slot (R241). -/
def cmdSlot (w : BitVec 64) (r : Except Reject Instr) : Except Reject Instr :=
  if 8 ≤ (cmdD w).toNat then .error .noSlot else r

/-- A stream command (R241, R244, R245, R248, R249). -/
noncomputable def decodeCommand (w : BitVec 64) : Except Reject Instr :=
  let d := cmdD w
  let a := cmdA w
  let b := cmdB w
  let m := cmdImm w
  match cmdSop w with
  | 0x01 => cmdSlot w (cmdIf (b = 0) (.sdesc d a m))
  | 0x02 => cmdSlot w (.ok (.stile d a b (m.extractLsb' 34 12) (m.extractLsb' 22 12) (m.extractLsb' 11 11)
      (m.extractLsb' 0 11)))
  | 0x03 => cmdSlot w (cmdIf (m.extractLsb' 0 32 = 0) (.sgath d a b (m.extractLsb' 34 12) (m.extractLsb' 32 2)))
  | 0x04 => cmdSlot w (cmdIf (m.extractLsb' 0 32 = 0) (.sscat d a b (m.extractLsb' 34 12) (m.extractLsb' 32 2)))
  | 0x05 => cmdIf (d = 0 ∧ a = 0 ∧ b = 0 ∧ m.extractLsb' 0 26 = 0)
      (.sconv (m.extractLsb' 41 5) (m.extractLsb' 36 5) (m.extractLsb' 30 6) (m.extractLsb' 27 3) (m.extractLsb' 26 1))
  | 0x06 => cmdIf (d = 0 ∧ a = 0) (.sfill b m)
  | 0x07 => cmdIf (b = 0 ∧ m.extractLsb' 32 13 = 0 ∧
      (if m.extractLsb' 45 1 = 1 then m.extractLsb' 0 32 = 0 else a = 0))
      (.sloop d a (m.extractLsb' 45 1) (m.extractLsb' 0 32))
  | 0x08 => cmdIf (a = 0 ∧ b = 0 ∧ m = 0) (.snext d)
  | 0x09 => cmdIf (d = 0) (.swaitv a b m)
  | 0x0A => .ok (.sver d a b m)
  | 0x0B => cmdIf (d = 0) (.ssig a b m)
  | 0x0C => cmdIf (d = 0 ∧ a = 0 ∧ b = 0 ∧ m.extractLsb' 2 44 = 0) (.sfence (m.extractLsb' 0 2))
  | 0x0D => cmdIf (d = 0 ∧ a = 0 ∧ b = 0 ∧ m = 0) .send
  | _ => .error .reservedCommand

/-- A command word from its fields (R241). -/
def cmdWord (sop : BitVec 6) (d a b : BitVec 4) (m : BitVec 46) : BitVec 64 := sop ++ d ++ a ++ b ++ m

/-- The word of a stream command; none for any other instruction (R241, R244, R245). -/
def encodeCommand : Instr → Option (BitVec 64)
  | .sdesc d a o => some (cmdWord 1 d a 0 o)
  | .stile d a b cols rows o0 o1 => some (cmdWord 2 d a b (cols ++ rows ++ o0 ++ o1))
  | .sgath d a b n iw => some (cmdWord 3 d a b (n ++ iw ++ 0#32))
  | .sscat d a b n iw => some (cmdWord 4 d a b (n ++ iw ++ 0#32))
  | .sconv f t wd rm sat => some (cmdWord 5 0 0 0 (f ++ t ++ wd ++ rm ++ sat ++ 0#26))
  | .sfill b m => some (cmdWord 6 0 0 b m)
  | .sloop d a r n => some (cmdWord 7 d a 0 (r ++ 0#13 ++ n))
  | .snext d => some (cmdWord 8 d 0 0 0)
  | .swaitv a b o => some (cmdWord 9 0 a b o)
  | .sver d a b o => some (cmdWord 10 d a b o)
  | .ssig a b o => some (cmdWord 11 0 a b o)
  | .sfence s => some (cmdWord 12 0 0 0 (0#44 ++ s))
  | .send => some (cmdWord 13 0 0 0 0)
  | _ => none

end Sys2Proof
end

