-- ==== Sys2Proof/Machine/State.lean ====
section
/-! DEFINITION. The state of the machine as plain data, and the state right after reset. Registers of 64 bits and fewer are
held as 64-bit words whose reserved bits are zero; the accessors of Ops.lean name their fields. -/

namespace Sys2Proof.Machine

/-- Why a step stops with a fault. -/
inductive Fault where
  /-- Raised by BASE_DIE_READ, BASE_DIE_WRITE and APPLICATION_CORE_ACCESS for an address that R43 calls a hole or an
  unpopulated part: no memory is there and the spec names no answer. Safe. -/
  | noSuchAddress
deriving DecidableEq, Repr

/-- Why a step is refused. -/
inductive Refusal where
  /-- Raised by an arm of exec whose instruction has no meaning yet. Safe. -/
  | notModelled (mnemonic : String)
deriving DecidableEq, Repr

/-- The trap causes of R354. -/
inductive Cause where
  | illop | illframe | loopovf | waitshort | addr | bounds | page | perm | missver | vcollide | vstale | vfull
  | barclobber | linkdown | poollock | fpexc | syscall | bkpt
deriving DecidableEq, Repr

/-- The code of a cause in TCAUSE (R354). -/
def Cause.code : Cause → Nat
  | .illop => 1 | .illframe => 2 | .loopovf => 3 | .waitshort => 4 | .addr => 5 | .bounds => 6 | .page => 7 | .perm => 8
  | .missver => 9 | .vcollide => 10 | .vstale => 11 | .vfull => 12 | .barclobber => 13 | .linkdown => 14
  | .poollock => 15 | .fpexc => 16 | .syscall => 17 | .bkpt => 18

/-- What a trap records: its cause, TVAL and the two auxiliary fields (R387). -/
structure Trap where
  cause : Cause
  tval : Word
  xa : Word := 0
  xb : Word := 0
deriving DecidableEq, Repr

/-- The register classes of LDR and of WAITSHORT (R56, R59). -/
inductive RegClass where
  | g | v | k
deriving DecidableEq, Repr

/-- One producer in the declared-distance record (R53): the register it wrote, its latency, the distance declared since it
issued, and what the register held before (R57). -/
structure Pending where
  cls : RegClass
  reg : Nat
  lat : Nat
  dist : Nat
  old : VReg
deriving DecidableEq, Repr

/-- What an early read sees in one register under unchecked issue (R57). -/
structure Seen where
  cls : RegClass
  reg : Nat
  value : VReg
deriving DecidableEq, Repr

/-- A captured repeat frame (R63, R64): where its RPT lies, its pass count, STEP and SM, its sixteen instruction words, and
the index of the next one to perform. -/
structure Frame where
  base : BitVec 58
  passes : Nat
  step : Nat
  sm : BitVec 3
  words : List (BitVec 32)
  pos : Nat
deriving DecidableEq, Repr

/-- What an instruction reads or writes besides memory and control registers (R254, R391): a register, a tile, an extent
register, or one of the matrix unit's buffers. -/
inductive Res where
  | reg (c : RegClass) (n : Nat)
  | tile (n : Nat)
  | ext (n : Nat)
  | bufA
  | bufB
deriving DecidableEq, Repr

/-- What a chained load captures when it issues (R34, R154, R155, R163): its operands, its extent and released count, and the
vector state in force. -/
structure Chain where
  first : Nat
  d : BitVec 5
  t : Word
  ext : BitVec 128
  rel : Nat
  vl : Word
  vt : Word
  /-- The active and the masked-off elements from its first one on (R144). -/
  act : List Nat
  off : List Nat
deriving DecidableEq, Repr

/-- The matrix unit's buffers and MSTAT before an MLDA or MLDB (R273). -/
structure Buffers where
  a : BitVec 65536
  b : BitVec 22528
  mstat : Word
deriving DecidableEq, Repr

/-- A variable-latency instruction in flight (R55, R391): where it stands, its captured operands and first element (R392),
what it still owes, one list for each element group (R152), all that it writes and what it reads, and what an abandonment puts
back: the old contents of its destinations and their marks (R161), those without the policies of R145 for the groups that are
complete (R162), and the buffers (R273). -/
structure InFlight where
  addr : BitVec 58
  word : BitVec 32
  first : Nat
  ga : Word
  gb : Word
  gd : Word
  /-- The elements of one group at the VT it issued under (R142). -/
  epr : Nat
  owes : List (List Res)
  dests : List Res
  reads : List Res
  old : List Seen := []
  bare : List Seen := []
  bufs : Option Buffers := none
  hwea : Word := 0
  hweb : Word := 0
  /-- The flags, FXSAT in bit 8, of each of its groups that is not complete, the next one first; none where it raises none (R164). -/
  flags : List Word := []
  /-- A load through a kind-L or kind-W extent, whose group under way a pre-emption finishes (R162). -/
  near : Bool := false
  /-- The window it reads (R226, R252). -/
  window : Option Nat := none
  /-- A VLD.WC whose last groups have not arrived (R155). -/
  chain : Option Chain := none
  /-- How many groups have left `owes`. -/
  done : Nat := 0
deriving DecidableEq, Repr

/-- One entry of the replay list (R392, R395). -/
structure Replay where
  addr : BitVec 58
  word : BitVec 32
  first : Nat
  ga : Word
  gb : Word
  gd : Word
deriving DecidableEq, Repr

/-- How a stopped sequencer goes on after its replay list (R65, R393, R394). The save area has no place for it (log 43). -/
structure Owed where
  /-- It goes on with the rest of an interrupted repeat frame. -/
  frame : Bool := false
  /-- The last entry of its list stands just before the saved PC and is the instruction that goes on there, and has not
  retired. -/
  unretired : Bool := false
  /-- ESTART after the list. -/
  estart : Nat := 0
deriving DecidableEq, Repr

/-- What a sequencer waits in: the instruction, with the register numbers that a wake event needs. -/
inductive Wait where
  | fork
  | rdv (ends : Bool)
  | barwait (a b : BitVec 5)
  | barrel
  /-- A VLD.WC that will trap once its earlier groups have arrived (R155). -/
  | chained (c : Chain)
  /-- Held by the scoreboard behind a VLD.WC that waits (R152); the instruction has not issued. -/
  | held
  | acq (d a b : BitVec 5)
  | wfe (d a b : BitVec 5)
  | nwait (d a b : BitVec 5)
  | sqwait (q : BitVec 4)
  | strm
  | qfence
  | npost
  | encj
  | tend
  /-- In an instruction at which its task parks (R297, R313, R371). -/
  | parked
deriving DecidableEq, Repr

/-- What one sequencer owns (R106). -/
structure Seq where
  running : Bool
  pc : BitVec 58
  g : Vector Word 32
  depth : BitVec 3
  lc : Vector Word 6
  li : Vector Word 6
  lb : Vector Word 6
  le : Vector Word 6
  ldr : Word
  rpidx : Word
  rpbase : Word
  frame : Option Frame
  record : List Pending
  view : List Seen
  /-- The instruction register: the word of the instruction that is being performed, a compact parcel zero-extended. -/
  insn : BitVec 32
  /-- The instruction the sequencer waits in, if it waits. -/
  wait : Option Wait
  /-- Cycles it has waited (R363). -/
  waited : Nat
  /-- The extent registers as the waiting instruction read them when it issued (R34). -/
  snap : Option (Vector (BitVec 128) 16)
  /-- Cycles until its next instruction may issue (R52). -/
  due : Nat
  owed : Owed
  inFlight : List InFlight
  replay : List Replay
  /-- While its oldest replay entry is performed, the PC at which it goes on after the list (R393). -/
  back : Option (BitVec 58)
  /-- Writes older than this stamp are no longer returned by its constant-path reads (R113, R337). -/
  constMark : Nat
deriving DecidableEq, Repr

/-- The control registers of a core that both sequencers share (R106, R123), and the extent staging register (R31). -/
structure Ctl where
  vl : Word
  vt : Word
  estart : Word
  fxrm : Word
  fxsat : Word
  frm : Word
  fflags : Word
  hwea : Word
  hweb : Word
  mode : Word
  cycle : Word
  taskid : Word
  vbyp : Word
  mstat : Word
  llcp : Word
  tcause : Word
  tval : Word
  tpc : Word
  tvec : Word
  tstat : Word
  txa : Word
  txb : Word
  ptroot : Word
  staged : Word
  /-- Flags of FFLAGS, and of FXSAT in bit 8, that the other sequencer raised since the last RDV pair: the main, or the
  matrix, sequencer may not see them yet (R164). -/
  unseenMain : Word
  unseenMatrix : Word
deriving DecidableEq, Repr

/-- One entry of the guard binding table (R328). -/
structure Guard where
  sc : BitVec 2
  rlen : Nat
  regionLocal : Bool
  rbase : Nat
  guardLocal : Bool
  gaddr : Nat
deriving DecidableEq, Repr

/-- Memory as a list of address and byte pairs (addresses count bytes). -/
abbrev Mem := List Host.Cell

/-- One compute core: its sequencers, the registers they share and its local store (R106, R254, R328, R368). -/
structure Core where
  main : Seq
  matrix : Seq
  v : Vector VReg 32
  k : Vector VReg 8
  t : Vector Tile 8
  abuf : BitVec 65536
  bbuf : BitVec 22528
  ctl : Ctl
  e : Vector (BitVec 128) 16
  /-- Local store by byte, the window control blocks included (R250). -/
  ls : Mem
  guards : List Guard
  budget : Word
deriving DecidableEq, Repr

/-- A byte whose home holds another value than the coherent one: the die whose LLC holds the line dirty, the byte's
address, and the home's value (R291, R294, R405). -/
structure Dirty where
  die : Nat
  addr : Nat
  home : Byte
deriving DecidableEq, Repr

/-- A byte of a packed page that a die's LLC holds dirty in an expanded line (R283, R291): the die, the byte's logical address,
frame and offset together, and its value. -/
structure Cached where
  die : Nat
  addr : Nat
  value : Byte
deriving DecidableEq, Repr

/-- A byte that a write replaced: when, where, and what it held (R113). -/
structure Past where
  stamp : Nat
  addr : Nat
  old : Byte
deriving DecidableEq, Repr

/-- A TLBI that has completed (R404): when, for which address space (all of them if none) and for which 4 MiB page (all
pages if none). No translation read before it is used after it. -/
structure Shootdown where
  stamp : Nat
  asid : Option Nat
  page : Option Nat
deriving DecidableEq, Repr

/-- The registers of one compute die's LLC (R292, R293). -/
structure LlcDie where
  cfg : Word
  src : Word
  part : Vector Word 64
deriving DecidableEq, Repr

/-- One live version (R304). -/
structure Version where
  region : Nat
  word : Nat
  number : Nat
  value : Word
deriving DecidableEq, Repr

/-- Who waits for a version (R306). -/
inductive Waiter where
  | task (t : TaskKey)
  | stream (pid : Nat)
  | encoder (job : Nat)
deriving DecidableEq, Repr

/-- A wait for a version (R306): entered in the unit's wait table, or only counted by OVF. -/
structure VWait where
  region : Nat
  word : Nat
  number : Nat
  who : Waiter
  entered : Bool
deriving DecidableEq, Repr

/-- A store parked for heap space (R313), and the tick from which its no-progress count runs. Every reclamation of the region
ends the wait, so the count never restarts within one. -/
structure HeapWait where
  region : Nat
  who : Waiter
  start : Nat
deriving DecidableEq, Repr

/-- The record of a stream fault (R239). -/
structure SFault where
  cause : Nat
  tval : Word
  width : Word
  limit : Word
  command : Word
deriving DecidableEq, Repr

/-- A stream program as STRM submits it (R235). -/
structure Program where
  pid : Nat
  pc : Word
  root : Word
  assured : Bool
  ext : Vector (BitVec 128) 16
  c : Vector Word 16
  /-- The constant-path mark of its sequencer at its STRM (R113, R225, R243). -/
  constMark : Nat
  /-- LLCP.SPID at its STRM, the partition of its accesses (R293). -/
  part : Nat
deriving DecidableEq, Repr

/-- What stands in a stream queue: a program, or the join marker of a QFENCE with the programs that must end first
(R234, R338). -/
inductive QEntry where
  | program (p : Program)
  | marker (after : List Nat)
deriving DecidableEq, Repr

/-- One stream queue of a task (R234, R239). -/
structure Queue where
  entries : List QEntry
  fault : Option SFault
deriving DecidableEq, Repr

/-- A conversion set by SCONV (R245). -/
structure Conv where
  src : Nat
  dst : Nat
  wd : Nat
  rm : Nat
  sat : Bool
deriving DecidableEq, Repr

/-- A stream program context (R240) and the engine and context it runs on (R233). -/
structure Ctx where
  pid : Nat
  task : TaskKey
  queue : Nat
  engine : Nat
  slot : Nat
  spc : Word
  root : Word
  assured : Bool
  c : Vector Word 16
  d : Vector (BitVec 512) 8
  loops : List (Nat × Nat × Word)
  conv : Conv
  ext : Vector (BitVec 128) 16
  /-- The windows it is bound to (R251). -/
  bound : List Nat
  /-- It waits for a version or for the heap. -/
  waiting : Bool
  /-- It waits for space: in which window, until the released count is at least this (R228). -/
  space : Option (Nat × Nat)
  /-- How many loops it is skipping (R249). -/
  skip : Nat
  /-- It stalls on a detached local store (R253). -/
  stalled : Bool
  /-- Its heap wait reached the watchdog (R313, R320). -/
  vfull : Bool
  constMark : Nat
  part : Nat
deriving DecidableEq, Repr

/-- The states of a task record (R362). -/
inductive TaskState where
  | recorded | waiting | ready | bound | running
  | blockedVersion | blockedBarrier | blockedRendezvous | blockedPool
  | preempted | ended
deriving DecidableEq, Repr

/-- The code of a state in the record (R362). -/
def TaskState.code : TaskState → Nat
  | .recorded => 0 | .waiting => 1 | .ready => 2 | .bound => 3 | .running => 4
  | .blockedVersion => 5 | .blockedBarrier => 6 | .blockedRendezvous => 7 | .blockedPool => 8
  | .preempted => 9 | .ended => 10

/-- A task as the ready unit, dispatch and Mason hold it: its record (R357), its state, whether a saved context stands at
its save area, and what belongs to the task while it is unbound. -/
structure Task where
  key : TaskKey
  image : BitVec 512
  state : TaskState
  /-- The state a withdrawn bind record gives back (R362). -/
  left : TaskState
  saved : Bool
  ctx : Nat
  /-- A parked store's VFULL is pending (R313). -/
  vfull : Bool
  /-- Added by TENQ in this release (R381). -/
  added : Bool
  queues : Vector Queue 16
  /-- Network requests not yet completed, and posted so far (R418). -/
  pendingNet : Nat
  posted : Nat
  /-- Core cycles since it was bound (R378, R383). -/
  ran : Nat
  /-- Its release was overrun, so it runs as best effort (R384). -/
  demoted : Bool
  /-- The constant-path marks of its two sequencers while it is unbound (R113, R337). -/
  markMain : Nat
  markMatrix : Nat
  /-- How its two sequencers go on (R65, R393, R394) while it is unbound. -/
  owedMain : Owed := {}
  owedMatrix : Owed := {}
  /-- The window counts that its parked barrier waits need (R363): window and count. -/
  needs : List (Nat × Nat) := []
deriving DecidableEq, Repr

/-- A graph (R360, R361, R364, R365). -/
structure Graph where
  vdev : Nat
  gid : Nat
  pool : Nat
  cap : Nat
  nrec : Nat
  done : Nat
  fault : Nat
  images : List (BitVec 512)
  contract : Nat
  aborted : Bool
  code : Nat
  live : Bool
deriving DecidableEq, Repr

/-- The ready lists (R366): system, one per contract, and one per virtual device and priority. -/
inductive ReadyList where
  | system
  | contract (n : Nat)
  | bestEffort (vdev prio : Nat)
deriving DecidableEq, Repr

/-- Mason's settings of a virtual device (R377), its page-table root and its credit (R378). -/
structure Settings where
  weight : Nat := 1
  quant : Nat := 100000
  pkt : Nat := 12000
  vfwd : Nat := 1000000
  assured : Bool := false
  share : Nat := 0
  chk : Bool := true
  cpid : Nat := 0
  spid : Nat := 0
  root : Word := 0
  credit : Int := 0
deriving DecidableEq, Repr

/-- An admitted contract (R380-R384). -/
structure Contract where
  number : Nat
  vdev : Nat
  gid : Nat
  desc : BitVec 256
  admitted : Nat
  releases : Nat
  /-- The number of the release under way (R375, R381). -/
  current : Nat
  overruns : Nat
  skips : Nat
  pulses : Nat
  lastRelease : Nat
  remaining : Nat
  open_ : Bool
deriving DecidableEq, Repr

/-- One core's slots and dispatch register (R367, R368). -/
structure Slot where
  run : BitVec 256
  stg : BitVec 256
  dcmd : Word
  /-- When RUN was bound, for "most recently bound" (R383). -/
  since : Nat
  /-- The pre-emption under way came at a budget notice or a budget's end, so that the task enters its list at the tail (R366). -/
  tail : Bool := false
deriving DecidableEq, Repr

/-- What one doorbell page holds (R408). -/
structure Doorbell where
  page : Nat
  taken : Word
  err : Word
  calls : List (BitVec 58)
deriving DecidableEq, Repr

/-- An entry of the peer table (R412). -/
structure Peer where
  vdev : Nat
  index : Nat
  addr : BitVec 128
  job : BitVec 24
deriving DecidableEq, Repr

/-- An exposed region (R417). -/
structure Exposed where
  vdev : Nat
  key : Nat
  base : Nat
  len : Nat
  counter : Nat
  write : Bool
  read : Bool
deriving DecidableEq, Repr

/-- A network request that has not completed (R418). -/
structure NetReq where
  task : TaskKey
  number : Nat
  read : Bool
  peer : Nat
  /-- Where the local buffer and the counter lie: in the local store, or at a virtual bit address under a root. -/
  bufLocal : Bool
  buf : Nat
  len : Nat
  remote : Word
  ctrLocal : Bool
  ctr : Nat
  root : Word
  /-- MODE.ASR of its task when it was posted (R11, R382). -/
  assured : Bool
  amount : Word
deriving DecidableEq, Repr

/-- An open encoder stream (R421). -/
structure EncStream where
  number : Nat
  vdev : Nat
  encoder : Nat
  width : Nat
  height : Nat
  deep : Bool
  interval : Nat
  rate : Nat
  quant : Nat
  failed : Bool
deriving DecidableEq, Repr

/-- An encoder job (R421, R422): its image, its extents as ENCJ read them, and the address space. -/
structure EncJob where
  id : Nat
  stream : Nat
  encoder : Nat
  image : BitVec 512
  ext : Vector (BitVec 128) 16
  root : Word
  /-- MODE.ASR of its task when it was submitted (R11, R382). -/
  assured : Bool
  started : Bool
  /-- Its wait for the input version ended in a fault (R321, R422). -/
  bad : Bool
  /-- The completion value, once the unit stands in the buffer while step 4 waits for heap space (R422, R313). -/
  written : Option Nat
deriving DecidableEq, Repr

/-- What a requester outside the cores was answered (R288, R304, R407, R423): data or a completed write, Completer Abort, data
marked poisoned, a dropped write, the cause for which an access of a die or an application core fails, or nothing yet. -/
inductive ReplyStatus where
  | ok | completerAbort | poisoned | dropped | none
  | trap (c : Cause)
deriving DecidableEq, Repr

structure Reply where
  status : ReplyStatus
  value : Nat
deriving DecidableEq, Repr

/-- A network WRITE that arrives (R419): its region's owner and key, its number, the byte ranges of it that are placed, and whether a
packet of it could not be. -/
structure Incoming where
  vdev : Nat
  key : Nat
  request : Nat
  placed : List (Nat × Nat)
  bad : Bool
deriving DecidableEq, Repr

/-- An application core (R416, R428): whether it has been released, where it was, and the reservation of its latest load-reserved:
byte address, bytes, and the write number at that time. -/
structure Hart where
  released : Bool
  pc : Word
  reserved : Option (Nat × Nat × Nat)
deriving DecidableEq, Repr

/-- What the boot ROM finds of one firmware image (R423). -/
structure Image where
  present : Bool
  signed : Bool
  version : Nat
  rollback : Nat
deriving DecidableEq, Repr

/-- Which agent moves: a sequencer of a core, a stream program, or a step of another agent. -/
inductive Agent where
  | seq (core : Nat) (q : SeqId)
  | stream (pid : Nat)
  | event (i : Instr)
deriving DecidableEq, Repr

/-- The memory system outside the cores. -/
structure MemSys where
  /-- The coherent value of physical memory by byte (R22, R324). -/
  mem : Mem
  dirty : List Dirty
  cached : List Cached
  /-- Pack frames written through a raw mapping since their header was (R282). -/
  tainted : List Nat
  past : List Past
  stamp : Nat
  shootdowns : List Shootdown
  /-- CLINVs that have completed (R405): the first and the last line, and when. No constant-path read after it returns what
  a write before it replaced. -/
  refreshed : List (Nat × Nat × Nat)
  /-- Poisoned sectors by number (R288). -/
  poison : List Nat
  pklast : Vector Word 8
  pkcmd : Vector Word 8
  /-- Refreshes postponed, by stack and bank (R290). -/
  postponed : List (Nat × Nat × Nat)
  llc : Vector LlcDie 4
  authFails : Vector Nat 32
  keyGen : Nat
  owncmd : Word
  hostPages : List Nat
  qbase : Word
  qctl : Word
  linkUp : Vector Bool 2
  /-- Even and odd 4 KiB blocks of host memory whose port was lost and not cleared since (R351, R415). -/
  lost : Vector Bool 2
  hdm : Vector HdmDecoder 8
deriving DecidableEq, Repr

/-- The version units (R299-R316). -/
structure VerSys where
  regions : Vector (BitVec 384) 64
  versions : List Version
  waits : List VWait
  heapWaits : List HeapWait
  /-- Words (region, word number) that the reclamation after a raised watermark has not reached (R315). -/
  reclaim : List (Nat × Nat)
  /-- Heaps of closed regions still to be freed: region, stack base and capacity (R316). -/
  closing : List (Nat × Nat × Nat)
deriving DecidableEq, Repr

/-- The scheduler: the ready unit, the slot table and Mason (R357-R384). -/
structure Sched where
  graphs : List Graph
  tasks : List Task
  lists : List (ReadyList × TaskKey)
  /-- Pool-parked tasks, earliest first (R371). -/
  poolParked : List TaskKey
  slots : List (Nat × Slot)
  vdevs : List (Nat × Settings)
  lastChosen : Nat
  contracts : List Contract
  ticks : Nat
  /-- Extent handles installed by loaders: virtual device, handle, descriptor (R104). -/
  handles : List (Nat × Nat × BitVec 128)
  /-- lsimages handed over with the records: the task and the bits (R96). -/
  lsimages : List (TaskKey × Nat)
  /-- Notices dispatch has sent to Mason: cores at budget end (R368). -/
  notices : List Nat
deriving DecidableEq, Repr

/-- The stream engines (R232-R240). -/
structure Streams where
  ctxs : List Ctx
  nextPid : Nat
  /-- The program whose command is being performed, and the command's word. -/
  focus : Nat
  word : Word
deriving DecidableEq, Repr

/-- The I/O die: host ports, network, encoders, module state and black box (R407-R428). -/
structure Io where
  doorbells : List Doorbell
  msix : List (Nat × Nat)
  route : Vector Nat 5
  peers : List Peer
  exposed : List Exposed
  incoming : List Incoming
  requests : List NetReq
  encStreams : List EncStream
  encJobs : List EncJob
  /-- Jobs accepted so far; it names each one. -/
  nextJob : Nat
  env : Word
  envAsked : Word
  mstate : Word
  /-- The PCIe port's report of an uncorrectable internal error by AER (R425). -/
  aer : Bool
  harts : Vector Hart 16
  bbcnt : Word
  ring : List (BitVec 128)
  images : List Image
  /-- Memory training succeeds at the next cold reset (R426, R428). -/
  trains : Bool
  reply : Reply
deriving DecidableEq, Repr

structure State where
  core : Core
  coreNo : Nat
  others : List (Nat × Core)
  cur : SeqId
  ms : MemSys
  ver : VerSys
  sched : Sched
  str : Streams
  io : Io
  agenda : List Agent
  turn : Nat
  fresh : Nat
deriving DecidableEq, Repr

/-- A sequencer without a task: every register at its reset value, or at the value log 5 names. -/
def Seq.reset : Seq where
  running := false
  pc := 0
  g := Vector.replicate 32 0
  depth := 0
  lc := Vector.replicate 6 0
  li := Vector.replicate 6 0
  lb := Vector.replicate 6 0
  le := Vector.replicate 6 0
  ldr := 0
  rpidx := 0
  rpbase := 0
  frame := none
  record := []
  view := []
  insn := 0
  wait := none
  waited := 0
  snap := none
  due := 0
  owed := {}
  inFlight := []
  replay := []
  back := none
  constMark := 0

/-- The control registers at reset (R123 and the layouts it names). -/
def Ctl.reset : Ctl where
  vl := 0
  vt := 0
  estart := 0
  fxrm := 0
  fxsat := 0
  frm := 0
  fflags := 0
  hwea := 0
  hweb := 0
  mode := 1
  cycle := 0
  taskid := 0
  vbyp := 0x80000
  mstat := 0
  llcp := 0
  tcause := 0
  tval := 0
  tpc := 0
  tvec := 0
  tstat := 0
  txa := 0
  txb := 0
  ptroot := 0
  staged := 0
  unseenMain := 0
  unseenMatrix := 0

/-- The extent e0 of every task: the whole virtual space, kind G, read and write (R30). -/
def extentZero : BitVec 128 := 0x03#8 ++ 0x0#3 ++ 0x400000000000000#59 ++ 0#58

/-- A core at reset: no task bound. -/
def Core.reset : Core where
  main := Seq.reset
  matrix := Seq.reset
  v := Vector.replicate 32 0
  k := Vector.replicate 8 0
  t := Vector.replicate 8 0
  abuf := 0
  bbuf := 0
  ctl := Ctl.reset
  e := (Vector.replicate 16 0).set 0 extentZero
  ls := []
  guards := []
  budget := 0

/-- An HDM decoder that is not committed. -/
def HdmDecoder.reset : HdmDecoder := { base := 0, size := 0, dpa := 0, ways := 1, granularity := 256, committed := false }

/-- The registers of a die's LLC at reset (R292, R293). -/
def LlcDie.reset : LlcDie where
  cfg := 0
  src := 0
  part := Vector.replicate 64 0xFFFFFFFFFFFF

/-- The memory system at reset. -/
def MemSys.reset : MemSys where
  mem := []
  dirty := []
  cached := []
  tainted := []
  past := []
  stamp := 0
  shootdowns := []
  refreshed := []
  poison := []
  pklast := Vector.replicate 8 0
  pkcmd := Vector.replicate 8 0
  postponed := []
  llc := Vector.replicate 4 LlcDie.reset
  authFails := Vector.replicate 32 0
  keyGen := 0
  owncmd := 0
  hostPages := []
  qbase := 0
  qctl := 0
  linkUp := Vector.replicate 2 true
  lost := Vector.replicate 2 false
  hdm := Vector.replicate 8 HdmDecoder.reset

/-- The version units at reset: every region closed. -/
def VerSys.reset : VerSys where
  regions := Vector.replicate 64 0
  versions := []
  waits := []
  heapWaits := []
  reclaim := []
  closing := []

/-- Mason's own graph, live at all times (R385). The spec gives it no descriptor: it has no pool, no completion word and no fault
record in memory (DESIGN CHOICE, log 21). -/
def masonGraph : Graph where
  vdev := 0
  gid := 0xFFFF
  pool := 0
  cap := 0
  nrec := 0
  done := 0
  fault := 0
  images := []
  contract := 0
  aborted := false
  code := 0
  live := true

/-- The scheduler at reset. -/
def Sched.reset : Sched where
  graphs := [masonGraph]
  tasks := []
  lists := []
  poolParked := []
  slots := []
  vdevs := []
  lastChosen := 0
  contracts := []
  ticks := 0
  handles := []
  lsimages := []
  notices := []

/-- The stream engines at reset. -/
def Streams.reset : Streams where
  ctxs := []
  nextPid := 0
  focus := 0
  word := 0

/-- A firmware image that the boot ROM accepts. -/
def Image.good : Image := { present := true, signed := true, version := 0, rollback := 0 }

/-- An application core that has been released at the boot image's entry (R428), and one that has not. -/
def Hart.atEntry : Hart := { released := true, pc := Config.hartEntry, reserved := none }
def Hart.held : Hart := { released := false, pc := 0, reserved := none }

/-- The I/O die at reset, after bring-up step 8 (R428), with an envelope of 2,600 W (R10). -/
def Io.reset : Io where
  doorbells := []
  msix := []
  route := Vector.replicate 5 31
  peers := []
  exposed := []
  incoming := []
  requests := []
  encStreams := []
  encJobs := []
  nextJob := 0
  env := 2600
  envAsked := 2600
  mstate := 8
  aer := false
  harts := Vector.replicate 16 Hart.atEntry
  bbcnt := 0
  ring := []
  images := [Image.good, Image.good, Image.good]
  trains := true
  reply := { status := .none, value := 0 }

/-- The module right after reset and bring-up: no task bound, memory zero, every register at the spec's reset value or at
the value the assumption log names (log 1, 4, 5). -/
def State.reset : State where
  core := Core.reset
  coreNo := 0
  others := []
  cur := .main
  ms := MemSys.reset
  ver := VerSys.reset
  sched := Sched.reset
  str := Streams.reset
  io := Io.reset
  agenda := []
  turn := 0
  fresh := 0

end Sys2Proof.Machine
end

