-- ==== Sys2Proof/Machine/Mem.lean ====
section
/-! DEFINITION. Memory as bytes: reading and writing whole bytes and bit ranges, in the one canonical form (R16, R17, R20,
R21). A byte that is not listed reads zero (log 4). -/

namespace Sys2Proof.Machine

/-- A list without its repeats. -/
def distinct {α : Type} [DecidableEq α] : List α → List α
  | [] => []
  | x :: xs => if xs.contains x then distinct xs else x :: distinct xs

/-- Bits hi down to lo of a value, as a number. -/
def bits (x hi lo : Nat) : Nat := (x >>> lo) % 2 ^ (hi - lo + 1)

/-- The value with bits hi down to lo replaced. -/
def putBits (x hi lo v : Nat) : Nat :=
  let m := (2 ^ (hi - lo + 1) - 1) <<< lo
  (x ||| m) ^^^ (m ^^^ ((v % 2 ^ (hi - lo + 1)) <<< lo))

/-- Sign extension of the low n bits of x to an integer (R165). -/
def toInt (n x : Nat) : Int := if x % 2 ^ n < 2 ^ (n - 1) then (x % 2 ^ n : Nat) else (x % 2 ^ n : Nat) - (2 ^ n : Nat)

/-- An integer modulo 2^n. -/
def ofInt (n : Nat) (x : Int) : Nat := (x % (2 ^ n : Nat)).toNat

/-- The canonical form: addresses rise strictly and no listed byte is zero. -/
abbrev Mem.wf (m : Mem) : Prop := m.Pairwise (fun a b => a.1 < b.1) ∧ ∀ c ∈ m, c.2 ≠ 0

/-- The byte at an address; an unlisted one is zero. -/
def Mem.byte (m : Mem) (a : Nat) : Byte :=
  match m with
  | [] => 0
  | c :: m => if c.1 = a then c.2 else Mem.byte m a

/-- n bytes from address a as a little-endian number (R18). -/
def Mem.read (m : Mem) (a n : Nat) : Nat :=
  match m with
  | [] => 0
  | c :: m =>
    let rest := Mem.read m a n
    if a ≤ c.1 ∧ c.1 < a + n then rest ||| (c.2.toNat <<< (8 * (c.1 - a))) else rest

/-- The listed cells of n bytes from address a that hold the number v. -/
def Mem.cells (a n v : Nat) : Mem :=
  match n with
  | 0 => []
  | n + 1 =>
    let b := BitVec.ofNat 8 v
    if b = 0 then Mem.cells (a + 1) n (v >>> 8) else (a, b) :: Mem.cells (a + 1) n (v >>> 8)

/-- Writes n bytes from address a with the number v; the form stays canonical. -/
def Mem.write (m : Mem) (a n v : Nat) : Mem :=
  m.filter (fun c => c.1 < a) ++ (Mem.cells a n v ++ m.filter (fun c => a + n ≤ c.1))

/-- How many bytes hold the w bits from bit address a. -/
def spanBytes (a w : Nat) : Nat := (a % 8 + w + 7) / 8

/-- w bits from bit address a (R17). -/
def Mem.readBits (m : Mem) (a w : Nat) : Nat := (m.read (a / 8) (spanBytes a w) >>> (a % 8)) % 2 ^ w

/-- Writes, of the w bits from bit address a, those whose bit of the mask is 1 (R21). -/
def Mem.writeMasked (m : Mem) (a w v mask : Nat) : Mem :=
  let old := m.read (a / 8) (spanBytes a w)
  let k := (mask % 2 ^ w) <<< (a % 8)
  m.write (a / 8) (spanBytes a w) ((old ||| k) ^^^ (k ^^^ (k &&& (v <<< (a % 8)))))

/-- Writes the w bits from bit address a (R21). -/
def Mem.writeBits (m : Mem) (a w v : Nat) : Mem := m.writeMasked a w v (2 ^ w - 1)

/-- The bytes of a range whose value differs between two memories. -/
def changedBytes (old new : Mem) (a n : Nat) : List Nat :=
  let inside (m : Mem) : Mem := m.filter fun c => a ≤ c.1 ∧ c.1 < a + n
  let o := inside old
  let w := inside new
  (o.filter fun c => w.byte c.1 ≠ c.2).map (·.1) ++ (w.filter fun c => c.2 ≠ 0 ∧ o.byte c.1 = 0).map (·.1)

/-- The bytes that a masked write of w bits from bit address a writes a bit of. -/
def touchedBytes (a w mask : Nat) : List Nat :=
  let k := (mask % 2 ^ w) <<< (a % 8)
  ((List.range (spanBytes a w)).filter fun j => (k >>> (8 * j)) % 256 ≠ 0).map (a / 8 + ·)

/-- The byte that the home of an address holds: the recorded one where the line is dirty (R291). -/
def MemSys.homeByte (ms : MemSys) (a : Nat) : Byte :=
  match ms.dirty.find? (fun d => d.addr = a) with
  | some d => d.home
  | none => ms.mem.byte a

/-- A masked write of physical bits by an agent of die `die`, which leaves the bytes it writes dirty in that die's LLC, or, with no
die, at the home (R22, R291, R323). What it replaces goes into the history of R113. A write of a whole
sector clears its poison (R288). -/
def MemSys.writeMasked (ms : MemSys) (die : Option Nat) (a w v mask : Nat) : MemSys :=
  let mem := ms.mem.writeMasked a w v mask
  let ch := changedBytes ms.mem mem (a / 8) (spanBytes a w)
  let wrote := touchedBytes a w mask
  let others := ms.dirty.filter fun d => ! wrote.contains d.addr
  let dirty :=
    match die with
    | none => others
    | some n => (wrote.map fun x => { die := n, addr := x, home := ms.homeByte x }) ++ others
  let past := (ch.map fun x => { stamp := ms.stamp + 1, addr := x, old := ms.mem.byte x }) ++ ms.past
  let whole (x : Nat) : Bool := a ≤ 1024 * x && 1024 * x + 1024 ≤ a + w && bits mask (1024 * x - a + 1023) (1024 * x - a) = 2 ^ 1024 - 1
  { ms with mem := mem, dirty := dirty, past := past, stamp := ms.stamp + 1, poison := ms.poison.filter fun x => ! whole x }

/-- A write of physical bits. -/
def MemSys.writeBits (ms : MemSys) (die : Option Nat) (a w v : Nat) : MemSys := ms.writeMasked die a w v (2 ^ w - 1)

/-- w bits from a as they were after write number n (the history undone back to it). -/
def MemSys.readBitsAt (ms : MemSys) (n a w : Nat) : Nat :=
  let base := a / 8
  let old := ms.past.foldl (fun v p =>
    if n < p.stamp ∧ base ≤ p.addr ∧ p.addr < base + spanBytes a w
    then putBits v (8 * (p.addr - base) + 7) (8 * (p.addr - base)) p.old.toNat else v)
    (ms.mem.read base (spanBytes a w))
  (old >>> (a % 8)) % 2 ^ w

/-- The 1,024-bit line that holds a bit (R275, R291). -/
def lineOf (a : Nat) : Nat := a / 1024

/-- The lines that w physical bits touch. -/
def linesOf (a w : Nat) : List Nat :=
  if w = 0 then [] else (List.range (lineOf (a + w - 1) + 1 - lineOf a)).map (lineOf a + ·)

/-- The fields of a page-table entry (R41). -/
def pteValid (e : Nat) : Bool := bits e 0 0 = 1
def pteLeaf (e : Nat) : Bool := bits e 4 4 = 1
def pteReserved (e : Nat) : Bool := bits e 57 54 ≠ 0 ∨ bits e 16 8 ≠ 0
def ptePacked (e : Nat) : Bool := bits e 7 7 = 1
def pteTable (e : Nat) : Nat := bits e 53 17 <<< 17

/-- The page-table entry at a physical bit address; one in a poisoned sector is no valid entry (R288). -/
def MemSys.pte (ms : MemSys) (a : Nat) : Nat := if ms.poison.contains (a / 1024) then 0 else ms.mem.readBits a 64

/-- Whether the constant path may still hold what a write replaced: no CLINV of its line came after it (R405). -/
def MemSys.stale (ms : MemSys) (p : Past) : Bool :=
  ! ms.refreshed.any fun r => r.1 ≤ lineOf (8 * p.addr) && lineOf (8 * p.addr) ≤ r.2.1 && p.stamp ≤ r.2.2

/-- The bits of a range that some write after number n changed, as the constant path may still show them. -/
def MemSys.changedBits (ms : MemSys) (n a w : Nat) : Nat :=
  let base := a / 8
  let m := ms.past.foldl (fun v p =>
    if n < p.stamp ∧ base ≤ p.addr ∧ p.addr < base + spanBytes a w ∧ ms.stale p
    then v ||| ((p.old ^^^ ms.mem.byte p.addr).toNat <<< (8 * (p.addr - base))) else v) 0
  (m >>> (a % 8)) % 2 ^ w

/-- A read on the constant path (R113, R337): each bit that some write after the mark changed is free between the values
it has had since; every other bit is as memory holds it. -/
def MemSys.readConst (ms : MemSys) (mark free a w : Nat) : Nat :=
  let now := ms.mem.readBits a w
  let m := ms.changedBits mark a w
  (now ||| m) ^^^ (m &&& free)

/-- Writes a line back to its home and keeps it (R405). -/
def MemSys.writeBack (ms : MemSys) (line : Nat) : MemSys :=
  { ms with dirty := ms.dirty.filter fun d => lineOf (8 * d.addr) ≠ line }

/-- Writes every dirty line of a range of bits back to its home and keeps it (R405); the write-back of a line clears its
poison (R288). -/
def MemSys.cleanRange (ms : MemSys) (a w : Nat) : MemSys :=
  let inside (l : Nat) : Bool := lineOf a ≤ l && l ≤ lineOf (a + w - 1)
  { ms with
    dirty := ms.dirty.filter fun d => ! inside (lineOf (8 * d.addr))
    poison := ms.poison.filter fun x => ! (inside x && ms.dirty.any fun d => lineOf (8 * d.addr) = x) }

/-- From now on the constant path reads the lines of a range at their home (R405). -/
def MemSys.refresh (ms : MemSys) (a w : Nat) : MemSys :=
  { ms with refreshed := (lineOf a, lineOf (a + w - 1), ms.stamp) :: ms.refreshed }

/-- Removes a line's copies from one die's LLC and L1s, or from every die's, without write-back: each lost byte gets its
home's value back, as a write by the LLC (R294, R405). -/
def MemSys.dropLine (ms : MemSys) (die : Option Nat) (line : Nat) : MemSys :=
  let lost := ms.dirty.filter fun d => lineOf (8 * d.addr) = line ∧ (die = none ∨ die = some d.die)
  let mem := lost.foldl (fun m d => m.write d.addr 1 d.home.toNat) ms.mem
  let past := (lost.map fun d => { stamp := ms.stamp + 1, addr := d.addr, old := ms.mem.byte d.addr }) ++ ms.past
  { ms with mem := mem, dirty := ms.dirty.filter (fun d => ¬ lost.contains d), past := past, stamp := ms.stamp + 1 }

/-- Removes every copy of every line of a range without write-back (R294, R405). -/
def MemSys.dropRange (ms : MemSys) (a w : Nat) : MemSys :=
  let lines := (ms.dirty.map fun d => lineOf (8 * d.addr)).filter fun l => lineOf a ≤ l ∧ l ≤ lineOf (a + w - 1)
  lines.foldl (fun ms l => ms.dropLine none l) ms

/-- Whether a physical bit address is in a populated part of memory (R43). -/
def populated (a : Nat) : Bool :=
  if a < 2 ^ 43 then a % 2 ^ 40 < Config.stackBits
  else if Config.tierBase ≤ a ∧ a < Config.tierBase + Config.tierBits then true
  else Config.hostBase ≤ a ∧ a < Config.physEnd

/-- Whether a physical bit address lies in HBM4E, and in which stack (R43). -/
def stackOf (a : Nat) : Option Nat := if a < 2 ^ 43 then some (a / 2 ^ 40) else none

/-- Whether a physical bit address is homed at the host (R43). -/
def hostHomed (a : Nat) : Bool := Config.hostBase ≤ a

/-- The granule of a physical bit address (R24). -/
def granuleOf (a : Nat) : Nat := if hostHomed a then 64 else 256

end Sys2Proof.Machine
end

