-- ==== Sys2Proof/Machine/Flags.lean ====
section
/-! DEFINITION. Number formats and rounding: saturation (R166), fixed-point rounding (R167), the floating formats (R169, R170),
RoundF (R172) with its flags (R174), and the arithmetic, comparisons, conversions, special functions and estimates built
on them (R117-R120, R177, R180-R183, R201). A value is computed exactly and rounded once. -/

namespace Sys2Proof.Machine

/-- SatS of R166. -/
def satS (x : Int) (w : Nat) : Int :=
  if x > (2 ^ (w - 1) : Nat) - 1 then (2 ^ (w - 1) : Nat) - 1 else if x < -(2 ^ (w - 1) : Nat) then -(2 ^ (w - 1) : Nat) else x

/-- SatZ of R166. -/
def satZ (x : Int) (w : Nat) : Int := if x > (2 ^ w : Nat) - 1 then (2 ^ w : Nat) - 1 else if x < 0 then 0 else x

/-- RoundFX of R167: x divided by 2^k under mode 0 NU, 1 NE, 2 DN, 3 OD. -/
def roundFX (x : Int) (k mode : Nat) : Int :=
  if k = 0 then x else
  let d : Int := (2 ^ k : Nat)
  let h : Int := (2 ^ (k - 1) : Nat)
  let q := x / d
  let r := x % d
  match mode with
  | 0 => if r ≥ h then q + 1 else q
  | 1 => if r > h ∨ (r = h ∧ q % 2 = 1) then q + 1 else q
  | 2 => q
  | _ => if r ≠ 0 ∧ q % 2 = 0 then q + 1 else q

/-- The flag bits of FFLAGS (R174). -/
def flNX : Nat := 1
def flUF : Nat := 2
def flOF : Nat := 4
def flDZ : Nat := 8
def flNV : Nat := 16

/-- The floating formats of R169. -/
inductive Fmt where
  | f64 | f32 | f16 | bf16 | e5m2 | e4m3 | e2m1 | ue5m3
deriving DecidableEq, Repr

/-- Width, exponent bits, fraction bits and bias (R169). -/
def Fmt.width : Fmt → Nat
  | .f64 => 64 | .f32 => 32 | .f16 => 16 | .bf16 => 16 | .e5m2 => 8 | .e4m3 => 8 | .e2m1 => 4 | .ue5m3 => 8
def Fmt.expBits : Fmt → Nat
  | .f64 => 11 | .f32 => 8 | .f16 => 5 | .bf16 => 8 | .e5m2 => 5 | .e4m3 => 4 | .e2m1 => 2 | .ue5m3 => 5
def Fmt.frac : Fmt → Nat
  | .f64 => 52 | .f32 => 23 | .f16 => 10 | .bf16 => 7 | .e5m2 => 2 | .e4m3 => 3 | .e2m1 => 1 | .ue5m3 => 3
def Fmt.bias : Fmt → Nat
  | .f64 => 1023 | .f32 => 127 | .f16 => 15 | .bf16 => 127 | .e5m2 => 15 | .e4m3 => 7 | .e2m1 => 1 | .ue5m3 => 16

/-- The format has a sign bit; only ue5m3 has none (R169). -/
def Fmt.signed (f : Fmt) : Bool := f ≠ .ue5m3

/-- The format has infinities (R169). -/
def Fmt.hasInf : Fmt → Bool
  | .e4m3 | .e2m1 | .ue5m3 => false
  | _ => true

/-- The exponent of the smallest normal value. -/
def Fmt.emin (f : Fmt) : Int := 1 - (f.bias : Int)

/-- The canonical NaN of R170; e2m1 has none and gives 0. -/
def Fmt.canonNaN : Fmt → Nat
  | .f64 => 0x7FF8000000000000 | .f32 => 0x7FC00000 | .f16 => 0x7E00 | .bf16 => 0x7FC0
  | .e5m2 => 0x7E | .e4m3 => 0x7F | .e2m1 => 0 | .ue5m3 => 0xFF

/-- The encoding of the largest finite magnitude (R169). -/
def Fmt.maxFinite : Fmt → Nat
  | .f64 => 0x7FEFFFFFFFFFFFFF | .f32 => 0x7F7FFFFF | .f16 => 0x7BFF | .bf16 => 0x7F7F
  | .e5m2 => 0x7B | .e4m3 => 0x7E | .e2m1 => 0x7 | .ue5m3 => 0xFE

/-- The encoding of infinity, where the format has one. -/
def Fmt.infinity (f : Fmt) : Nat := (2 ^ f.expBits - 1) <<< f.frac

/-- The sign bit put on an encoding. -/
def Fmt.withSign (f : Fmt) (neg : Bool) (x : Nat) : Nat := if neg && f.signed then x + 2 ^ (f.width - 1) else x

/-- A floating value: a NaN (signalling, or made by an invalid operation), an infinity, or (-1)^neg * m * 2^e. -/
inductive FVal where
  | nan (invalid : Bool)
  | inf (neg : Bool)
  | fin (neg : Bool) (m : Nat) (e : Int)
deriving DecidableEq, Repr

/-- The value of an encoding (R169, R170). -/
def Fmt.unpack (f : Fmt) (x : Nat) : FVal :=
  let m := x % 2 ^ f.frac
  let e := (x >>> f.frac) % 2 ^ f.expBits
  let neg := f.signed && bits x (f.width - 1) (f.width - 1) = 1
  if f.hasInf ∧ e = 2 ^ f.expBits - 1 then
    if m = 0 then .inf neg
    else .nan (if f = .e5m2 then m = 1 else m < 2 ^ (f.frac - 1))
  else if (f = .e4m3 ∨ f = .ue5m3) ∧ e = 2 ^ f.expBits - 1 ∧ m = 7 then .nan false
  else if e = 0 then .fin neg m (f.emin - f.frac)
  else .fin neg (2 ^ f.frac + m) ((e : Int) - f.bias - f.frac)

/-- A result: its encoding and the flags it raises (R174). -/
structure FOut where
  bits : Nat
  flags : Nat := 0
deriving DecidableEq, Repr

/-- n * 2^k, the fraction dropped where k is negative. -/
def scaleBy (n : Nat) (k : Int) : Nat := if 0 ≤ k then n <<< k.toNat else n >>> (-k).toNat

/-- m divided by 2^sh, rounded to an integer under a mode of R172, and whether it was inexact. -/
def roundInt (mode : Nat) (neg : Bool) (m sh : Nat) : Nat × Bool :=
  let n := m >>> sh
  let r := m % 2 ^ sh
  let h := 2 ^ (sh - 1)
  let up : Bool :=
    if r = 0 then false else
    match mode with
    | 0 => h < r ∨ (r = h ∧ n % 2 = 1)
    | 1 => false
    | 2 => neg
    | 3 => ! neg
    | 4 => h ≤ r
    | _ => n % 2 = 0
  (if up then n + 1 else n, r ≠ 0)

/-- m * 2^e rounded to an integer under a mode of R172, and whether it was inexact. -/
def roundToInt (mode : Nat) (neg : Bool) (m : Nat) (e : Int) : Nat × Bool :=
  if 0 ≤ e then (m <<< e.toNat, false) else roundInt mode neg m (-e).toNat

/-- The encoding of n * 2^q, which the format holds exactly. -/
def Fmt.encodeExact (f : Fmt) (neg : Bool) (n : Nat) (q : Int) : Nat :=
  if n = 0 then f.withSign neg 0 else
  let top : Int := Nat.log2 n + q
  f.withSign neg <|
    if top < f.emin then scaleBy n (q - (f.emin - f.frac))
    else ((top + f.bias).toNat <<< f.frac) + (scaleBy n (q - (top - f.frac)) - 2 ^ f.frac)

/-- Whether n * 2^q is above the format's largest finite value. -/
def Fmt.tooLarge (f : Fmt) (n : Nat) (q : Int) : Bool :=
  let top : Int := Nat.log2 n + q
  if top > f.bias + 1 then true
  else if top < f.emin then false
  else match f.unpack f.maxFinite with
    | .fin _ mm me => scaleBy mm (me - min q me) < scaleBy n (q - min q me)
    | _ => false

/-- Finite overflow (R172): infinity or the largest finite value by mode, OF and NX. -/
def Fmt.overflow (f : Fmt) (mode : Nat) (neg : Bool) : FOut :=
  let toInf : Bool := f.hasInf && (mode = 0 ∨ mode = 4 ∨ (mode = 2 ∧ neg) ∨ (mode = 3 ∧ neg = false))
  { bits := f.withSign neg (if toInf then f.infinity else f.maxFinite), flags := flOF + flNX }

/-- RoundF of R172 on m * 2^e, with p fraction bits, or as many as a subnormal keeps, in the format's exponent range (R183). `sticky` says that the value lies
strictly between m * 2^e and (m + 1) * 2^e; m then has at least p + 2 bits. -/
def Fmt.roundP (f : Fmt) (p mode : Nat) (neg : Bool) (m : Nat) (e : Int) (sticky : Bool) : FOut :=
  if m = 0 ∧ sticky = false then { bits := f.withSign neg 0 } else
  let m := 2 * m + sticky.toNat
  let e := e - 1
  let lead : Int := Nat.log2 m + e
  let at_ (q : Int) : Nat × Bool := if q ≤ e then (m <<< (e - q).toNat, false) else roundInt mode neg m (q - e).toNat
  let q := max (lead - p) (f.emin - f.frac)
  let (n, inexact) := at_ q
  if f.tooLarge n q then f.overflow mode neg else
  let small : Bool := lead < f.emin ∧ (Nat.log2 (at_ (lead - p)).1 : Int) + (lead - p) < f.emin
  { bits := f.encodeExact neg n q, flags := if inexact then flNX + (if small then flUF else 0) else 0 }

/-- RoundF of R172. -/
def Fmt.round (f : Fmt) (mode : Nat) (neg : Bool) (m : Nat) (e : Int) (sticky : Bool := false) : FOut :=
  f.roundP f.frac mode neg m e sticky

/-- An infinite result; a format without infinities gives its canonical NaN with NV (R172). -/
def Fmt.infOut (f : Fmt) (neg : Bool) (flags : Nat := 0) : FOut :=
  if f.hasInf then { bits := f.withSign neg f.infinity, flags := flags } else { bits := f.canonNaN, flags := flags ||| flNV }

/-- A NaN result (R170). -/
def Fmt.nanOut (f : Fmt) (invalid : Bool) : FOut := { bits := f.canonNaN, flags := if invalid then flNV else 0 }

/-- An exact value rounded to a format. -/
def Fmt.roundV (f : Fmt) (mode : Nat) : FVal → FOut
  | .nan i => f.nanOut i
  | .inf n => f.infOut n
  | .fin n m e => f.round mode n m e

def FVal.isNaN : FVal → Bool
  | .nan _ => true
  | _ => false

def FVal.invalid : FVal → Bool
  | .nan i => i
  | _ => false

def FVal.isZero : FVal → Bool
  | .fin _ 0 _ => true
  | _ => false

def FVal.isInf : FVal → Bool
  | .inf _ => true
  | _ => false

def FVal.negate : FVal → FVal
  | .nan i => .nan i
  | .inf n => .inf (! n)
  | .fin n m e => .fin (! n) m e

/-- The signed integer of a finite value at exponent q, with q at most its own. -/
def signedAt (neg : Bool) (m : Nat) (e q : Int) : Int := if neg then -(scaleBy m (e - q) : Int) else scaleBy m (e - q)

/-- The exact sum; the mode decides the sign of an exact zero (R172). -/
def FVal.add (mode : Nat) : FVal → FVal → FVal
  | .nan i, y => .nan (i || y.invalid)
  | x, .nan i => .nan (i || x.invalid)
  | .inf a, .inf b => if a = b then .inf a else .nan true
  | .inf a, .fin _ _ _ => .inf a
  | .fin _ _ _, .inf b => .inf b
  | .fin a m e, .fin b n k =>
    let q := min e k
    let x := signedAt a m e q + signedAt b n k q
    if x = 0 then .fin (if m = 0 ∧ n = 0 ∧ a = b then a else mode = 2) 0 0
    else .fin (x < 0) x.natAbs q

/-- The exact product. -/
def FVal.mul : FVal → FVal → FVal
  | .nan i, y => .nan (i || y.invalid)
  | x, .nan i => .nan (i || x.invalid)
  | .inf a, .inf b => .inf (a != b)
  | .inf a, .fin b m _ => if m = 0 then .nan true else .inf (a != b)
  | .fin a m _, .inf b => if m = 0 then .nan true else .inf (a != b)
  | .fin a m e, .fin b n k => .fin (a != b) (m * n) (e + k)

/-- The exact a * b + d; zero times infinity is invalid whatever d is, as R197 has it; that a scalar FMA raises NV for it where d is a
quiet NaN is a DESIGN CHOICE (log 48), for R118 leaves it to IEEE 754, which does not fix it. -/
def FVal.fma (mode : Nat) (a b d : FVal) : FVal :=
  if (a.isZero && b.isInf) || (a.isInf && b.isZero) then .nan true else (a.mul b).add mode d

/-- Whether x < y, for values that are not NaNs. -/
def FVal.lt : FVal → FVal → Bool
  | .inf a, .inf b => a && ! b
  | .inf a, _ => a
  | _, .inf b => ! b
  | .fin a m e, .fin b n k => let q := min e k; signedAt a m e q < signedAt b n k q
  | _, _ => false

/-- The rounding mode of an operation that is no conversion: ROD acts as RNE (R173). -/
def opMode (frm : Nat) : Nat := if frm = 5 then 0 else frm

def fAdd (f : Fmt) (mode a b : Nat) : FOut := f.roundV mode ((f.unpack a).add mode (f.unpack b))
def fSub (f : Fmt) (mode a b : Nat) : FOut := f.roundV mode ((f.unpack a).add mode (f.unpack b).negate)
def fMul (f : Fmt) (mode a b : Nat) : FOut := f.roundV mode ((f.unpack a).mul (f.unpack b))

/-- a * b + d, and d - a * b where `neg` (R118, R197). -/
def fFma (f : Fmt) (mode : Nat) (neg : Bool) (a b d : Nat) : FOut :=
  let x := f.unpack a
  f.roundV mode (FVal.fma mode (if neg then x.negate else x) (f.unpack b) (f.unpack d))

/-- Division (R118): DZ for a finite non-zero a over zero. -/
def fDiv (f : Fmt) (mode a b : Nat) : FOut :=
  match f.unpack a, f.unpack b with
  | .nan i, y => f.nanOut (i || y.invalid)
  | _, .nan i => f.nanOut i
  | .inf _, .inf _ => f.nanOut true
  | .inf a, .fin b _ _ => f.infOut (a != b)
  | .fin a _ _, .inf b => { bits := f.withSign (a != b) 0 }
  | .fin a m e, .fin b n k =>
    if n = 0 then (if m = 0 then f.nanOut true else f.infOut (a != b) flDZ)
    else if m = 0 then { bits := f.withSign (a != b) 0 }
    else
      let sh := Nat.log2 n + f.frac + 4
      f.round mode (a != b) ((m <<< sh) / n) (e - k - sh) ((m <<< sh) % n ≠ 0)

/-- One Newton step towards the integer square root, repeated; it stops where it no longer falls. -/
def sqrtFrom (x : Nat) : Nat → Nat → Nat
  | 0, r => r
  | n + 1, r => let r' := (r + x / r) / 2; if r ≤ r' then r else sqrtFrom x n r'

/-- The integer square root. -/
def isqrt (x : Nat) : Nat := if x = 0 then 0 else sqrtFrom x (Nat.log2 x + 2) (2 ^ (Nat.log2 x / 2 + 1))

/-- Square root (R118, R198). -/
def fSqrt (f : Fmt) (mode a : Nat) : FOut :=
  match f.unpack a with
  | .nan i => f.nanOut i
  | .inf neg => if neg then f.nanOut true else f.infOut false
  | .fin neg m e =>
    if m = 0 then { bits := f.withSign neg 0 }
    else if neg then f.nanOut true
    else
      let m := if e % 2 = 0 then m else 2 * m
      let e := if e % 2 = 0 then e else e - 1
      let k := f.frac + 4
      let x := m <<< (2 * k)
      let r := isqrt x
      f.round mode false r (e / 2 - k) (r * r ≠ x)

/-- minimumNumber and maximumNumber (R118). -/
def fMinMax (f : Fmt) (isMax : Bool) (a b : Nat) : FOut :=
  let x := f.unpack a
  let y := f.unpack b
  let fl := if x.invalid || y.invalid then flNV else 0
  if x.isNaN then (if y.isNaN then { bits := f.canonNaN, flags := fl } else { bits := b, flags := fl })
  else if y.isNaN then { bits := a, flags := fl }
  else
    let negA := f.signed && bits a (f.width - 1) (f.width - 1) = 1
    let less := x.lt y || (y.lt x = false && negA)
    { bits := if less = isMax then b else a }

/-- FCMP's conditions: 0 EQ, 1 LT, 2 LE, 3 UNORD (R119). -/
def fCmp (f : Fmt) (cond a b : Nat) : Bool × Nat :=
  let x := f.unpack a
  let y := f.unpack b
  if x.isNaN || y.isNaN then
    (cond = 3, if cond = 1 ∨ cond = 2 ∨ x.invalid ∨ y.invalid then flNV else 0)
  else
    (match cond with
     | 0 => ! (x.lt y) && ! (y.lt x)
     | 1 => x.lt y
     | 2 => ! (y.lt x)
     | _ => false, 0)

/-- Float to float (R120, R201). -/
def fCvt (src dst : Fmt) (mode a : Nat) : FOut := dst.roundV mode (src.unpack a)

/-- Integer to float (R120, R201). -/
def fOfInt (f : Fmt) (mode : Nat) (x : Int) : FOut := f.round mode (x < 0) x.natAbs 0

/-- Float to integer of n bits: rounded, then saturated (R120, R201). -/
def fToInt (f : Fmt) (mode : Nat) (signed : Bool) (n a : Nat) : FOut :=
  let top : Int := if signed then (2 ^ (n - 1) : Nat) - 1 else (2 ^ n : Nat) - 1
  let low : Int := if signed then -(2 ^ (n - 1) : Nat) else 0
  match f.unpack a with
  | .nan _ => { bits := ofInt n top, flags := flNV }
  | .inf neg => { bits := ofInt n (if neg then low else top), flags := flNV }
  | .fin neg m e =>
    let (r, inexact) := roundToInt mode neg m e
    let x : Int := if neg then -(r : Int) else r
    if x > top then { bits := ofInt n top, flags := flNV }
    else if x < low then { bits := ofInt n low, flags := flNV }
    else { bits := ofInt n x, flags := if inexact then flNX else 0 }

/-- Bits of precision with which 2^x and log2 x are computed before their one rounding (log 12). -/
def precBits : Nat := 320

/-- The product of the factors 2^(1/2), 2^(1/4), ... that the bits of a fraction select, at precBits bits. c is the factor of
the fraction's top bit, `frac` the fraction's remaining n bits. -/
def exp2Bits : Nat → Nat → Nat → Nat → Nat
  | 0, _, _, acc => acc
  | n + 1, frac, c, acc =>
    let acc := if frac / 2 ^ n % 2 = 1 then (acc * c) >>> precBits else acc
    exp2Bits n frac (isqrt (c <<< precBits)) acc

/-- 2^(x / 2^k) rounded once by RNE, x an integer (R182, R213). -/
def exp2Round (f : Fmt) (x : Int) (k : Nat) : FOut :=
  let d : Int := (2 ^ k : Nat)
  let n := x / d
  let r := (x % d).toNat
  if n > f.bias + 2 then f.round 0 false 1 (f.bias + 2)
  else if n < -((f.bias : Int) + f.frac + 4) then f.round 0 false (2 ^ (f.frac + 4)) (-((f.bias : Int) + 2 * f.frac + 9)) true
  else if r = 0 then f.round 0 false 1 n
  else f.round 0 false (exp2Bits k r (isqrt (2 <<< (2 * precBits))) (2 ^ precBits)) (n - precBits) true

/-- VFEXP2 (R182). -/
def fExp2 (f : Fmt) (a : Nat) : FOut :=
  match f.unpack a with
  | .nan i => f.nanOut i
  | .inf neg => if neg then { bits := 0 } else f.infOut false
  | .fin neg m e =>
    let x := signedAt neg m (max e 0) 0
    if 0 ≤ e then
      if e > 64 then exp2Round f (if m = 0 then 0 else if neg then -100000 else 100000) 0 else exp2Round f x 0
    else exp2Round f (if neg then -(m : Int) else m) (-e).toNat

/-- The fraction bits of log2 y, for y in [1, 2) at precBits bits: y is squared again and again. -/
def log2Bits : Nat → Nat → Nat → Nat
  | 0, _, acc => acc
  | n + 1, y, acc =>
    let s := (y * y) >>> precBits
    if 2 ^ (precBits + 1) ≤ s then log2Bits n (s / 2) (2 * acc + 1) else log2Bits n s (2 * acc)

/-- VFLOG2 (R182). -/
def fLog2 (f : Fmt) (a : Nat) : FOut :=
  match f.unpack a with
  | .nan i => f.nanOut i
  | .inf neg => if neg then f.nanOut true else f.infOut false
  | .fin neg m e =>
    if m = 0 then f.infOut true flDZ
    else if neg then f.nanOut true
    else
      let top := Nat.log2 m
      let k : Int := top + e
      if m = 2 ^ top then f.round 0 (k < 0) k.natAbs 0
      else
        let n := precBits / 2
        let v : Int := k * (2 ^ n : Nat) + log2Bits n (m <<< (precBits - top)) 0
        if 0 ≤ v then f.round 0 false v.toNat (-(n : Int)) true
        else f.round 0 true (-v - 1).toNat (-(n : Int)) true

/-- An estimate (R183): RNE to min(12, p + 1) significant bits in the format's exponent range; NX is never raised, and every
tiny result raises UF. -/
def Fmt.estimate (f : Fmt) (neg : Bool) (m : Nat) (e : Int) (sticky : Bool) : FOut :=
  let p := min 12 (f.frac + 1) - 1
  let r := f.roundP p 0 neg m e sticky
  let probe := f.roundP p 0 neg (m <<< 64 + 1) (e - 64) true
  { bits := r.bits, flags := (r.flags &&& flOF) ||| (probe.flags &&& flUF) }

/-- VFRECE (R183). -/
def fRece (f : Fmt) (a : Nat) : FOut :=
  match f.unpack a with
  | .nan i => f.nanOut i
  | .inf neg => { bits := f.withSign neg 0 }
  | .fin neg m e =>
    if m = 0 then f.infOut neg flDZ
    else
      let k := Nat.log2 m + 80
      f.estimate neg (2 ^ k / m) (-e - k) (2 ^ k % m ≠ 0)

/-- VFRSQE (R183). -/
def fRsqe (f : Fmt) (a : Nat) : FOut :=
  match f.unpack a with
  | .nan i => f.nanOut i
  | .inf neg => if neg then f.nanOut true else { bits := 0 }
  | .fin neg m e =>
    if m = 0 then f.infOut neg flDZ
    else if neg then f.nanOut true
    else
      let m := if e % 2 = 0 then m else 2 * m
      let e := if e % 2 = 0 then e else e - 1
      let k := Nat.log2 m + 80
      let r := isqrt (2 ^ (2 * k) / m)
      f.estimate false r (-(e / 2) - k) (r * r * m ≠ 2 ^ (2 * k))

/-- PairTree of R181 over a list of results; the flags of the additions are collected. -/
def pairOnce (op : Nat → Nat → FOut) : List Nat → List Nat × Nat
  | a :: b :: rest =>
    let r := op a b
    let (xs, fl) := pairOnce op rest
    (r.bits :: xs, r.flags ||| fl)
  | xs => (xs, 0)

/-- The levels of PairTree; the fuel is the length of the list. -/
def pairTree (op : Nat → Nat → FOut) (empty : Nat) : Nat → List Nat → FOut
  | _, [] => { bits := empty }
  | _, [x] => { bits := x }
  | 0, x :: _ => { bits := x }
  | n + 1, xs =>
    let (ys, fl) := pairOnce op xs
    let r := pairTree op empty n ys
    { bits := r.bits, flags := r.flags ||| fl }

/-- A scale times a sum in f32 (R180). A NaN scale raises no flag, also a signalling one (DESIGN CHOICE, log 48). -/
def scaleMul (scale sum : Nat) : FOut :=
  match Fmt.f32.unpack scale, Fmt.f32.unpack sum with
  | .nan _, _ => { bits := Fmt.f32.canonNaN }
  | s, x =>
    if s.isZero then (if x.isNaN || x.isInf then { bits := Fmt.f32.canonNaN } else { bits := 0 })
    else Fmt.f32.roundV 0 (s.mul x)

end Sys2Proof.Machine
end

