-- ==== Sys2Proof/Machine/Packed.lean ====
section
/-! DEFINITION. Packed pages: the index, the header, the chunk image, reads, writes, spills and repacks (R276-R285). A frame is
the physical bit address of a pack frame; a chunk is its number, 0 to 1,023. -/

namespace Sys2Proof.Machine

/-- A field that is sign-extended from n bits and taken modulo 2^m (R280). -/
def sextMod (n m x : Nat) : Nat := ofInt m (toInt n x)

/-- The parts of w bits of x, lowest first. -/
def slices (w n x : Nat) : List Nat := (List.range n).map fun i => (x >>> (w * i)) % 2 ^ w

/-- Puts parts of w bits together, the first lowest. -/
def joinSlices (w : Nat) (xs : List Nat) : Nat := xs.foldr (fun x acc => x % 2 ^ w + acc <<< w) 0

/-- The payload length of a sector code, if the code and its PRM are allowed (R280). -/
def payloadBits (code prm : Nat) : Option Nat :=
  match code with
  | 0 => if prm = 0 then some 0 else none
  | 1 => if prm = 0 then some 1024 else none
  | 2 => if prm = 0 then some 32 else none
  | 3 => if prm < 4 then some (32 + 32 * (4 * (prm + 1))) else none
  | 4 => if prm < 4 then some (16 + 64 * (2 * (prm + 1))) else none
  | 5 => some (256 * (prm % 2 + prm / 2 % 2 + prm / 4 % 2 + prm / 8 % 2))
  | _ => none

/-- The byte planes of R280: plane b holds byte b of every word, word 0 first. -/
def joinPlanes (prm payload : Nat) : Nat :=
  let stored := (List.range 4).filter fun b => prm / 2 ^ b % 2 = 1
  let plane (b : Nat) : Nat := if prm / 2 ^ b % 2 = 1 then (payload >>> (256 * (stored.filter (· < b)).length)) % 2 ^ 256 else 0
  joinSlices 32 ((List.range 32).map fun i =>
    joinSlices 8 ((List.range 4).map fun b => (plane b >>> (8 * i)) % 256))

/-- A sector's value from its payload (R280). -/
def expandSector (code prm payload : Nat) : Nat :=
  match code with
  | 1 => payload % 2 ^ 1024
  | 2 => joinSlices 32 (List.replicate 32 payload)
  | 3 =>
    let dw := 4 * (prm + 1)
    joinSlices 32 ((slices dw 32 (payload >>> 32)).map fun d => (payload % 2 ^ 32 + sextMod dw 32 d) % 2 ^ 32)
  | 4 =>
    let dw := 2 * (prm + 1)
    joinSlices 16 ((slices dw 64 (payload >>> 16)).map fun d => (payload % 2 ^ 16 + sextMod dw 16 d) % 2 ^ 16)
  | 5 => joinPlanes prm payload
  | _ => 0

/-- Deltas of dw bits from the first of the m-bit parts, if they all fit (R280, R281). -/
def deltas (dw m : Nat) (xs : List Nat) : Option Nat :=
  let b := xs.headD 0
  let ds := xs.map fun x => toInt m (ofInt m ((x : Int) - b))
  if ds.all fun d => -(2 ^ (dw - 1) : Nat) ≤ d ∧ d < (2 ^ (dw - 1) : Nat)
  then some (b + joinSlices dw (ds.map (ofInt dw)) <<< m) else none

/-- The codes that can hold a sector, in ascending order of CODE and width: code, PRM, payload (R280). -/
def sectorCodes (x : Nat) : List (Nat × Nat × Nat) :=
  let ws := slices 32 32 x
  let hs := slices 16 64 x
  let planes := (List.range 4).map fun b => joinSlices 8 (ws.map fun w => (w >>> (8 * b)) % 256)
  let prm := (List.range 4).foldl (fun p b => if planes.getD b 0 ≠ 0 then p + 2 ^ b else p) 0
  (if x = 0 then [(0, 0, 0)] else []) ++ [(1, 0, x)] ++
  (if ws.all (· = ws.headD 0) then [(2, 0, ws.headD 0)] else []) ++
  ((List.range 4).filterMap fun p => (deltas (4 * (p + 1)) 32 ws).map fun v => (3, p, v)) ++
  ((List.range 4).filterMap fun p => (deltas (2 * (p + 1)) 16 hs).map fun v => (4, p, v)) ++
  [(5, prm, joinSlices 256 (planes.filter (· ≠ 0)))]

/-- The code of the shortest payload; the first of equals (R281). -/
def bestCode (x : Nat) : Nat × Nat × Nat :=
  (sectorCodes x).foldl (fun b c =>
    if (payloadBits c.1 c.2.1).getD 4096 < (payloadBits b.1 b.2.1).getD 4096 then c else b) (1, 0, x)

/-- The chunk image of 32 sectors and its length (R279). -/
def packImage (sectors : List Nat) : Nat × Nat :=
  let cs := sectors.map bestCode
  let header := joinSlices 8 (cs.map fun c => c.1 + 8 * c.2.1)
  cs.foldl (fun (v, n) c => (v + c.2.2 <<< n, n + (payloadBits c.1 c.2.1).getD 0)) (header, 256)

/-- Decodes an image from its s-th header byte on; none if it is malformed (R281). A header byte with bit 7 set is malformed (DEDUCED
from R279, log 44). -/
def unpackFrom (image csize : Nat) : Nat → Nat → Nat → Option (List Nat)
  | 0, _, pos => if pos = csize then some [] else none
  | n + 1, s, pos =>
    let h := (image >>> (8 * s)) % 256
    if h ≥ 128 then none else
    match payloadBits (h % 8) (h / 8) with
    | none => none
    | some len =>
      (unpackFrom image csize n (s + 1) (pos + len)).map fun rest =>
        expandSector (h % 8) (h / 8) ((image >>> pos) % 2 ^ len) :: rest

/-- The 32 sectors of an image (R279). -/
def unpackImage (image csize : Nat) : Option (List Nat) := unpackFrom image csize 32 0 256

/-- Index entry i of a pack frame (R276, R277). -/
def MemSys.pkEntry (ms : MemSys) (frame i : Nat) : Nat := ms.mem.readBits (frame + 128 * i) 128

/-- Where the page header starts (R276). -/
def pkHeader (frame : Nat) : Nat := frame + 32 * 4096

/-- The page header's word 0 (R278). -/
def MemSys.pkWord (ms : MemSys) (frame : Nat) : Nat := ms.mem.readBits (pkHeader frame) 64

/-- Whether a block is in use by the free map (R278). -/
def MemSys.pkUsed (ms : MemSys) (frame b : Nat) : Bool := ms.mem.readBits (pkHeader frame + 64 + b) 1 = 1

def entryForm (e : Nat) : Nat := bits e 127 126
def entryNb (e : Nat) : Nat := bits e 125 122
def entrySize (e : Nat) : Nat := bits e 119 104
def entryBlocks (e : Nat) : List Nat := (List.range (entryNb e)).map fun j => bits e (13 * j + 12) (13 * j)

/-- An index entry from its fields (R277). -/
def mkEntry (form nb size : Nat) (blocks : List Nat) : Nat :=
  (form <<< 126) + (nb <<< 122) + (size <<< 104) + joinSlices 13 blocks

/-- The bits of a list of blocks, the first block lowest (R277). -/
def MemSys.pkBlocks (ms : MemSys) (frame : Nat) (blocks : List Nat) : Nat :=
  joinSlices 4096 (blocks.map fun b => ms.mem.readBits (frame + 4096 * b) 4096)

/-- The rubble copy of a chunk starts here (R278, R283): RFN is used as it stands, populated second tier or not (DESIGN CHOICE, log
44). -/
def MemSys.rubble (ms : MemSys) (frame i : Nat) : Nat := (bits (ms.pkWord frame) 53 25) <<< 25 + 32768 * i

/-- Whether header and index entry are well formed (R281). An image need not fill its NB blocks, and may not be longer (DEDUCED,
log 44). -/
def MemSys.pkSound (ms : MemSys) (frame i : Nat) : Bool :=
  let e := ms.pkEntry frame i
  bits (ms.pkWord frame) 63 63 = 1 &&
  (match entryForm e with
   | 1 => 1 ≤ entryNb e && entryNb e ≤ 8 && entrySize e ≤ 4096 * entryNb e
   | 2 => entryNb e = 8
   | _ => entryNb e = 0) &&
  (entryBlocks e).all fun b => 35 ≤ b && b ≤ 8191 && ms.pkUsed frame b

/-- The 32 sectors of a chunk, or none where the page is malformed (R281-R283). -/
def MemSys.chunk (ms : MemSys) (frame i : Nat) : Option (List Nat) :=
  let e := ms.pkEntry frame i
  if ms.pkSound frame i = false then none else
  match entryForm e with
  | 0 => some (List.replicate 32 0)
  | 1 => unpackImage (ms.pkBlocks frame (entryBlocks e)) (entrySize e)
  | 2 => some (slices 1024 32 (ms.pkBlocks frame (entryBlocks e)))
  | _ => some (slices 1024 32 (ms.mem.readBits (ms.rubble frame i) 32768))

/-- Marks blocks used or free (R278). -/
def MemSys.pkMark (ms : MemSys) (frame : Nat) (blocks : List Nat) (used : Nat) : MemSys :=
  blocks.foldl (fun ms b => ms.writeBits none (pkHeader frame + 64 + b) 1 used) ms

/-- The free blocks of the pool, ascending (R276, R283). -/
def MemSys.pkFree (ms : MemSys) (frame : Nat) : List Nat :=
  (List.range 8192).filter fun b => 35 ≤ b && ! ms.pkUsed frame b

/-- The form, length and bits of a chunk's contents (R281). -/
def chunkForm (sectors : List Nat) : Nat × Nat × Nat :=
  if sectors.all (· = 0) then (0, 0, 0) else
  let (v, n) := packImage sectors
  if 32768 < n then (2, 0, joinSlices 1024 sectors) else (1, n, v)

/-- Blocks that a form of a length needs (R281). -/
def formBlocks (form size : Nat) : Nat := if form = 2 then 8 else if form = 1 then (size + 4095) / 4096 else 0

/-- Installs a chunk in a form over the given blocks (R283). -/
def MemSys.pkInstall (ms : MemSys) (frame i form size value : Nat) (blocks : List Nat) : MemSys :=
  let ms := blocks.zipIdx.foldl (fun ms (b, j) => ms.writeBits none (frame + 4096 * b) 4096 (value >>> (4096 * j))) ms
  ms.writeBits none (frame + 128 * i) 128 (mkEntry form blocks.length size blocks)

/-- Re-forms a chunk that is not in rubble with new contents: it keeps, takes or frees blocks, or spills to the rubble frame. The
flag says that it spilled (R281, R283). -/
def MemSys.writeChunk (ms : MemSys) (frame i : Nat) (sectors : List Nat) : MemSys × Bool :=
  let e := ms.pkEntry frame i
  let (form, size, value) := chunkForm sectors
  let need := formBlocks form size
  let held := entryBlocks e
  if need ≤ held.length then
    let ms := ms.pkMark frame (held.drop need) 0
    (ms.pkInstall frame i form size value (held.take need), false)
  else
    let fresh := (ms.pkFree frame).take (need - held.length)
    if held.length + fresh.length = need then
      let ms := ms.pkMark frame fresh 1
      (ms.pkInstall frame i form size value (held ++ fresh), false)
    else
      let ms := ms.writeBits none (ms.rubble frame i) 32768 (joinSlices 1024 sectors)
      let ms := ms.writeBits none (frame + 128 * i) 128 (mkEntry 3 0 0 [])
      let ms := ms.pkMark frame held 0
      let ms := ms.writeBits none (pkHeader frame) 11 (bits (ms.pkWord frame) 10 0 + 1)
      let last := (1 <<< 63) + ((frame >>> 25) <<< 25) + i
      ({ ms with pklast := ms.pklast.setIfInBounds ((stackOf frame).getD 0) (BitVec.ofNat 64 last) }, true)

/-- w bits from an offset of a packed page at its home, chunk by chunk; none where a chunk is malformed (R282, R283). The fuel
bounds the number of chunks. -/
def MemSys.readChunks (ms : MemSys) (frame : Nat) : Nat → Nat → Nat → Option Nat
  | 0, _, _ => some 0
  | n + 1, off, w =>
    if w = 0 then some 0 else
    let o := off % 32768
    let k := min w (32768 - o)
    match ms.chunk frame (off / 32768) with
    | none => none
    | some ss => (ms.readChunks frame n (off + k) (w - k)).map fun hi => (joinSlices 1024 ss >>> o) % 2 ^ k + hi <<< k

def MemSys.readPacked (ms : MemSys) (frame off w : Nat) : Option Nat := ms.readChunks frame (w / 32768 + 2) off w

/-- Writes the masked bits at an offset of one chunk: in place where it is in rubble (R281, R283). -/
def MemSys.mergeChunk (ms : MemSys) (frame i off w v mask : Nat) : MemSys × Bool :=
  match ms.chunk frame i with
  | none => (ms, false)
  | some ss =>
    if entryForm (ms.pkEntry frame i) = 3 then (ms.writeMasked none (ms.rubble frame i + off) w v mask, false) else
    let x := joinSlices 1024 ss
    let k := (mask % 2 ^ w) <<< off
    ms.writeChunk frame i (slices 1024 32 ((x ||| k) ^^^ (k ^^^ (k &&& (v <<< off)))))

/-- Writes the masked bits from an offset of a packed page at its home, the lower chunk first; says which chunks spilled (R283). -/
def MemSys.writeChunks (ms : MemSys) (frame : Nat) : Nat → Nat → Nat → Nat → Nat → MemSys × List Nat
  | 0, _, _, _, _ => (ms, [])
  | n + 1, off, w, v, mask =>
    if w = 0 then (ms, []) else
    let o := off % 32768
    let k := min w (32768 - o)
    let r := ms.mergeChunk frame (off / 32768) o k v mask
    let q := r.1.writeChunks frame n (off + k) (w - k) (v >>> k) (mask >>> k)
    (q.1, if r.2 then off / 32768 :: q.2 else q.2)

def MemSys.writePacked (ms : MemSys) (frame off w v mask : Nat) : MemSys × List Nat :=
  ms.writeChunks frame (w / 32768 + 2) off w v mask

/-- A value of w bits at a logical bit address with the bytes over it that an LLC holds dirty (R291). -/
def MemSys.overlay (ms : MemSys) (a w v : Nat) : Nat :=
  let base := a / 8
  let x := ms.cached.foldl (fun x c =>
    if base ≤ c.addr ∧ c.addr < base + spanBytes a w
    then putBits x (8 * (c.addr - base) + 7) (8 * (c.addr - base)) c.value.toNat else x) (v <<< (a % 8))
  (x >>> (a % 8)) % 2 ^ w

/-- The coherent value of w bits from an offset of a packed page (R22, R291). -/
def MemSys.readLines (ms : MemSys) (frame off w : Nat) : Option Nat :=
  (ms.readPacked frame off w).map (ms.overlay (frame + off) w)

/-- A masked write of bits of a packed page. It leaves the bytes it writes in the LLC of die `die`, or, with none, at the home (R22,
R283, R291); says which chunks spilled. -/
def MemSys.writeLines (ms : MemSys) (die : Option Nat) (frame off w v mask : Nat) : MemSys × List Nat :=
  let lo := off / 8 * 8
  let n := spanBytes off w
  let k := (mask % 2 ^ w) <<< (off % 8)
  let old := (ms.readLines frame lo (8 * n)).getD 0
  let new := (old ||| k) ^^^ (k ^^^ (k &&& (v <<< (off % 8))))
  let base := (frame + off) / 8
  let wrote := touchedBytes (frame + off) w mask
  let rest := ms.cached.filter fun c => ! wrote.contains c.addr
  match die with
  | some d =>
    ({ ms with cached := (wrote.map fun x => { die := d, addr := x, value := BitVec.ofNat 8 (new >>> (8 * (x - base))) }) ++ rest }, [])
  | none =>
    let bytes := joinSlices 8 ((List.range n).map fun j => if wrote.contains (base + j) then 255 else 0)
    ({ ms with cached := rest }).writePacked frame lo (8 * n) new bytes

/-- The dirty bits of one expanded line go home (R283, R405). Of a chunk in rubble the line is a whole sector, whose poison its
write-back clears (R288). -/
def MemSys.cleanLine (ms : MemSys) (line : Nat) : MemSys × List Nat :=
  let mine := ms.cached.filter fun c => lineOf (8 * c.addr) = line
  let at_ (c : Cached) : Nat := 8 * (c.addr - 128 * line)
  let v := mine.foldl (fun x c => putBits x (at_ c + 7) (at_ c) c.value.toNat) 0
  let mask := mine.foldl (fun x c => putBits x (at_ c + 7) (at_ c) 255) 0
  if mine.isEmpty then (ms, []) else
  let frame := 1024 * line / 2 ^ 25 * 2 ^ 25
  let i := line % 2 ^ 15 / 32
  let r := ({ ms with cached := ms.cached.filter fun c => lineOf (8 * c.addr) ≠ line }).writePacked frame (1024 * line % 2 ^ 25) 1024 v mask
  if entryForm (ms.pkEntry frame i) ≠ 3 then r else
  ({ r.1 with poison := r.1.poison.filter (· ≠ ms.rubble frame i / 1024 + line % 32) }, r.2)

/-- An expanded line leaves one die's LLC, or every die's, without write-back (R294, R405). -/
def MemSys.dropCached (ms : MemSys) (die : Option Nat) (line : Nat) : MemSys :=
  { ms with cached := ms.cached.filter fun c => ¬ (lineOf (8 * c.addr) = line ∧ (die = none ∨ die = some c.die)) }

/-- Where image sector y of a chunk lies: the number of the physical sector (R277). -/
def imageSector (frame : Nat) (blocks : List Nat) (y : Nat) : Nat := (frame + 4096 * blocks.getD (y / 4) 0) / 1024 + y % 4

/-- Where the payload of sector s starts in an image, and its length (R279, R280). -/
def payloadAt (image s : Nat) : Nat × Nat :=
  let len (j : Nat) : Nat := (payloadBits ((image >>> (8 * j)) % 8) ((image >>> (8 * j)) % 256 / 8)).getD 0
  ((List.range s).foldl (fun n j => n + len j) 256, len s)

/-- The physical sectors that an access to bits lo to hi of chunk i reaches (R283): its index entry and, by its form, the image
header and the payloads, the sectors asked for, or, where it is re-formed, all of it, the page header, the blocks it may take after
`before` earlier chunks of the access, and its place in the rubble frame. With `needs` only those whose bits it needs (R288): no block
that it only takes, and no sector that it writes whole. -/
def MemSys.chunkSectors (ms : MemSys) (frame i lo hi : Nat) (wr needs : Bool) (before : Nat) : List Nat :=
  let e := ms.pkEntry frame i
  let bs := entryBlocks e
  let image := ms.pkBlocks frame bs
  let forms := wr && entryForm e ≠ 3
  let whole (s : Nat) : Bool := wr && lo ≤ 1024 * s && 1024 * s + 1023 ≤ hi
  let asked := (List.range 32).filter fun s => (forms || (lo / 1024 ≤ s && s ≤ hi / 1024)) && ! (needs && whole s)
  let header := if forms then (List.range 9).map (pkHeader frame / 1024 + ·) else []
  let taken := if forms && ! needs then
      ((bs ++ (ms.pkFree frame).take (8 * (before + 1))).flatMap fun b => (List.range 4).map (imageSector frame [b])) ++
        (List.range 32).map (ms.rubble frame i / 1024 + ·)
    else []
  let payload (s : Nat) : List Nat :=
    let p := payloadAt image s
    if p.2 = 0 then [] else
      (List.range ((p.1 + p.2 - 1) / 1024 + 1 - p.1 / 1024)).map fun j => imageSector frame bs (p.1 / 1024 + j)
  let parts := match entryForm e with
    | 1 => if asked = [] then [] else imageSector frame bs 0 :: asked.flatMap payload
    | 2 => asked.map (imageSector frame bs)
    | 3 => asked.map fun s => ms.rubble frame i / 1024 + s
    | _ => []
  (frame + 128 * i) / 1024 :: (header ++ parts ++ taken)

/-- The same of an access to a packed page, chunk by chunk (R283, R288). -/
def MemSys.pkNeeds (ms : MemSys) (frame : Nat) (wr needs : Bool) : Nat → Nat → Nat → Nat → List Nat
  | 0, _, _, _ => []
  | n + 1, before, off, w =>
    if w = 0 then [] else
    let o := off % 32768
    let k := min w (32768 - o)
    ms.chunkSectors frame (off / 32768) o (o + k - 1) wr needs before ++ ms.pkNeeds frame wr needs n (before + 1) (off + k) (w - k)

/-- The sectors that an access to a packed page reaches, and those whose bits it needs. -/
def MemSys.packedReach (ms : MemSys) (frame off w : Nat) (wr : Bool) : List Nat := ms.pkNeeds frame wr false (w / 32768 + 2) 0 off w
def MemSys.packedSectors (ms : MemSys) (frame off w : Nat) (wr : Bool) : List Nat := ms.pkNeeds frame wr true (w / 32768 + 2) 0 off w

/-- The entries that some page table in memory may hold: the bit addresses of the 64-bit words with a byte that is listed. -/
def MemSys.entries (ms : MemSys) : List Nat := distinct (ms.mem.map fun c => 8 * (c.1 / 8 * 8))

/-- The tables of the entries that lead on to a table (R40, R41). -/
def MemSys.tablesOver (ms : MemSys) (table : Nat) : List Nat :=
  (ms.entries.filter fun a =>
    let e := ms.pte a
    pteValid e && ! pteReserved e && ! pteLeaf e && ! ptePacked e && pteTable e = table).map fun a => (a >>> 17) <<< 17

/-- A packed mapping of 4 MiB frame f exists: a leaf with PK = 1 in a table to which two levels of entries lead (R40, R41, R282; log
44). -/
def MemSys.packedMapped (ms : MemSys) (f : Nat) : Bool :=
  ms.entries.any fun a =>
    let e := ms.pte a
    pteValid e && ! pteReserved e && pteLeaf e && ptePacked e && bits e 24 17 = 0 && bits e 53 25 = f &&
      (ms.tablesOver ((a >>> 17) <<< 17)).any fun t => ms.tablesOver t ≠ []

/-- The pack frames whose packed mappings hold unspecified values after a raw write of w bits at a reached frame f: those written while
a packed mapping exists, until the header is written while none does (R282, R286, log 44). -/
def MemSys.taintFrame (ms : MemSys) (a w f : Nat) : List Nat :=
  let h := pkHeader (f * 2 ^ 25)
  if ms.packedMapped f then (if ms.tainted.contains f then ms.tainted else f :: ms.tainted)
  else if a < h + 64 ∧ h < a + w then ms.tainted.filter (· ≠ f)
  else ms.tainted

/-- The 4 MiB frames that hold bits of a range. -/
def framesOf (a w : Nat) : List Nat := (List.range ((a + w - 1) / 2 ^ 25 + 1 - a / 2 ^ 25)).map (a / 2 ^ 25 + ·)

/-- What a raw write to HBM leaves of the packed mappings of the frames it reached (R282). -/
def MemSys.taint (ms : MemSys) (a w : Nat) : MemSys :=
  if (stackOf a).isNone ∨ w = 0 then ms else
  (framesOf a w).foldl (fun ms f => { ms with tainted := ms.taintFrame a w f }) ms

/-- A masked write of physical bits through a raw mapping. -/
def MemSys.rawWrite (ms : MemSys) (die : Option Nat) (a w v mask : Nat) : MemSys := (ms.writeMasked die a w v mask).taint a w

/-- The physical sectors that a repack of a chunk may reach: its index entry, the page header, its rubble copy, and the blocks it may
take (R283, R285). -/
def MemSys.repackReach (ms : MemSys) (frame i : Nat) : List Nat :=
  (frame + 128 * i) / 1024 :: ((List.range 12).map (pkHeader frame / 1024 + ·) ++ (List.range 32).map (ms.rubble frame i / 1024 + ·) ++
    ((ms.pkFree frame).take 8).flatMap fun b => (List.range 4).map (imageSector frame [b]))

/-- The result of a repack of a chunk: the memory and the RES code (R285). Header and entry are tested for 3 before FORM is for 2, and
no image is (DESIGN CHOICE, log 44). That a sector it reads is poisoned has no code there, and
changes nothing (DESIGN CHOICE, log 44). -/
def MemSys.repack (ms : MemSys) (frame i : Nat) : MemSys × Nat :=
  if ms.pkSound frame i = false then (ms, 3) else
  if entryForm (ms.pkEntry frame i) ≠ 3 then (ms, 2) else
  let (form, size, value) := chunkForm (slices 1024 32 (ms.mem.readBits (ms.rubble frame i) 32768))
  let need := formBlocks form size
  let fresh := (ms.pkFree frame).take need
  if fresh.length < need then (ms, 1) else
  let ms := ms.pkMark frame fresh 1
  let ms := ms.pkInstall frame i form size value fresh
  (ms.writeBits none (pkHeader frame) 11 (bits (ms.pkWord frame) 10 0 - 1), 0)

end Sys2Proof.Machine
end

