-- ==== Sys2Proof/Machine/Access.lean ====
section
/-! DEFINITION. How an access reaches memory: extents (R29-R33), translation (R39-R46), permissions, and reading and writing
the bits it names. -/

namespace Sys2Proof.Machine

/-- Runs a change on one part of the state. -/
def State.mapCore (s : State) (f : Core → Core) : State := { s with core := f s.core }
def State.mapCtl (s : State) (f : Ctl → Ctl) : State := { s with core := { s.core with ctl := f s.core.ctl } }
def State.mapMs (s : State) (f : MemSys → MemSys) : State := { s with ms := f s.ms }
def State.mapVer (s : State) (f : VerSys → VerSys) : State := { s with ver := f s.ver }
def State.mapSched (s : State) (f : Sched → Sched) : State := { s with sched := f s.sched }
def State.mapStr (s : State) (f : Streams → Streams) : State := { s with str := f s.str }
def State.mapIo (s : State) (f : Io → Io) : State := { s with io := f s.io }

/-- The sequencer that performs the instruction. -/
def State.seq (s : State) : Seq :=
  match s.cur with
  | .main => s.core.main
  | .matrix => s.core.matrix

/-- Runs a change on the sequencer that performs the instruction. -/
def State.mapSeq (s : State) (f : Seq → Seq) : State :=
  match s.cur with
  | .main => { s with core := { s.core with main := f s.core.main } }
  | .matrix => { s with core := { s.core with matrix := f s.core.matrix } }

/-- The extent registers as the instruction reads them: as it issued, if it has waited since (R34). -/
def State.extents (s : State) : Vector (BitVec 128) 16 := s.seq.snap.getD s.core.e

/-- A free number of this step, by purpose and by what it is for (log 6). -/
def State.drawNat (s : State) (purpose sub : Nat) : Nat := Config.freeNat (s.fresh <<< 64 + purpose <<< 59 + sub)

/-- A free choice of this step, by purpose and by what it is for (log 6). -/
def State.drawBool (s : State) (purpose sub : Nat) : Bool := Config.freeBool (s.fresh <<< 64 + purpose <<< 59 + sub)

/-- A fatal module error has stopped every core, engine and encoder (R425). -/
def State.halted (s : State) : Bool := s.io.mstate.getLsbD 5

/-- The die of a core (R1). -/
def dieOf (core : Nat) : Nat := core / 56

/-- Writes one black-box event, the oldest of 4,096 falling out (R427). -/
def State.event (s : State) (type die unit data : Nat) : State :=
  let e := ((s.sched.ticks % 2 ^ 40) <<< 88) + ((type % 256) <<< 80) + ((die % 16) <<< 76) + ((unit % 4096) <<< 64) + data % 2 ^ 64
  s.mapIo fun io => { io with bbcnt := io.bbcnt + 1, ring := (BitVec.ofNat 128 e :: io.ring).take 4096 }

/-- Raises an MSI-X vector of a function; a vector that SETIRQ redirected goes to the IMSIC of its hart, written as
function 512 + hart (R413). -/
def State.raise (s : State) (fn vec : Nat) : State :=
  let hart := if fn = 0 then (s.io.route[vec]?).getD 31 else 31
  s.mapIo fun io => { io with msix := io.msix ++ [(if hart = 31 then fn else 512 + hart, vec)] }

/-- The fields of an extent register (R30). -/
def extBase (x : BitVec 128) : Nat := bits x.toNat 57 0
def extLen (x : BitVec 128) : Nat := bits x.toNat 116 58
def extKind (x : BitVec 128) : Nat := bits x.toNat 119 117
def extRead (x : BitVec 128) : Bool := bits x.toNat 120 120 = 1
def extWrite (x : BitVec 128) : Bool := bits x.toNat 121 121 = 1
def extTidx (x : BitVec 128) : Nat := bits x.toNat 127 122

/-- An extent from its fields (R30). A base of 2^58, which EXTN gives with off = LEN and a length of 0 at the end of the space, does
not fit the field and wraps to 0 (DESIGN CHOICE, log 48). -/
def mkExtent (base len kind : Nat) (rd wr : Bool) (tidx : Nat) : BitVec 128 :=
  BitVec.ofNat 128 (base % 2 ^ 58 + (len % 2 ^ 59) <<< 58 + (kind % 8) <<< 117 + rd.toNat <<< 120 + wr.toNat <<< 121 + (tidx % 64) <<< 122)

/-- The tag and the offset of a tagged address (R29). -/
def tagOf (t : Word) : Nat := bits t.toNat 63 60
def offOf (t : Word) : Nat := bits t.toNat 57 0
def tagged (n off : Nat) : Word := BitVec.ofNat 64 ((n % 16) <<< 60 + off % 2 ^ 58)

/-- The LLC that keeps what an agent writes: its die, and whether a miss of its class allocates there (R291, R293). -/
structure Keep where
  die : Nat
  allocates : Bool
deriving DecidableEq, Repr

/-- What an access needs (R32, R33): the kinds it may use (0 G, 1 L, 2 W, 3 V, 4 C), whether it reads and writes, and
whether its bits must lie in one granule (R26). -/
structure Class where
  kinds : List Nat
  rd : Bool
  wr : Bool
  whole : Bool := false

def Class.load : Class := { kinds := [0, 1, 2], rd := true, wr := false }
def Class.store : Class := { kinds := [0, 1, 2], rd := false, wr := true }
def Class.atomic : Class := { kinds := [0, 1, 2], rd := true, wr := true, whole := true }
/-- ACQ, WFE and NWAIT read one granule atomically (R333, R403, R420). -/
def Class.watch : Class := { kinds := [0, 1, 2], rd := true, wr := false, whole := true }
def Class.const : Class := { kinds := [0, 4], rd := true, wr := false }
def Class.matrix : Class := { kinds := [0, 1, 2, 4], rd := true, wr := false }
def Class.verLoad : Class := { kinds := [3], rd := true, wr := false }
def Class.verStore : Class := { kinds := [3], rd := false, wr := true }
def Class.clean : Class := { kinds := [0, 4], rd := true, wr := false }
def Class.drop : Class := { kinds := [0], rd := false, wr := true }
def Class.chained : Class := { kinds := [2], rd := true, wr := false }
/-- What an engine reads, writes or adds to in an address space (R12, R41, R418). -/
def Class.engineRead : Class := { kinds := [0], rd := true, wr := false }
def Class.engineWrite : Class := { kinds := [0], rd := false, wr := true }
def Class.engineAtomic : Class := { kinds := [0], rd := true, wr := true }

/-- The means of an access: the extents it goes through, the page-table root, whether host memory is closed to it (R382),
and the LLC that its writes stay in. -/
structure Via where
  ext : Vector (BitVec 128) 16
  root : Word
  assured : Bool
  die : Option Keep

/-- Whether a miss of a partition's writes, or atomics, allocates in a die's LLC: in hint residency way masks are ignored (R293, R294). -/
def State.allocates (s : State) (d part : Nat) (atomic : Bool) : Bool :=
  let x := (s.ms.llc[d]?).getD LlcDie.reset
  let m := ((x.part[part]?).getD 0).toNat
  x.cfg.getLsbD 0 || (if atomic then bits m 47 32 ≠ 0 else bits m 31 16 ≠ 0)

/-- The LLC of the task's own writes, or atomics: its die's, by LLCP.CPID (R293). -/
def State.keep (s : State) (atomic : Bool) : Keep where
  die := dieOf s.coreNo
  allocates := s.allocates (dieOf s.coreNo) (bits s.core.ctl.llcp.toNat 5 0) atomic

/-- The LLC that may keep a write of an agent which is on no die: which die's, or none, is open, and its entry for the agent's partition
there decides (R22, R293; DESIGN CHOICE, log 15). `key` tells the writes of a step apart. -/
def State.visit (s : State) (key : Nat) (part : Nat → Nat) : Option Keep :=
  let n := s.drawNat 15 key % 5
  if n = 4 then none else some { die := n, allocates := s.allocates n (part n) false }

/-- The means of the task's own accesses. -/
def State.via (s : State) : Via where
  ext := s.extents
  root := s.core.ctl.ptroot
  assured := s.core.ctl.mode.getLsbD 1
  die := some (s.keep false)

/-- Where the bits of an access lie: in this core's local store, at physical bits, or in a packed page. -/
inductive Seg where
  | ls (a w : Nat)
  | phys (a w : Nat)
  | packed (frame off w : Nat)
deriving DecidableEq, Repr

def Seg.width : Seg → Nat
  | .ls _ w => w
  | .phys _ w => w
  | .packed _ _ w => w

/-- The check of R33 before translation: the kind and the address (virtual, or in the local store). -/
def checkExtent (ext : Vector (BitVec 128) 16) (t : Word) (w : Nat) (c : Class) : Except Trap (Nat × Nat) :=
  let n := tagOf t
  let off := offOf t
  let x := ext[n]?.getD 0
  if bits t.toNat 59 58 ≠ 0 then .error ⟨.addr, t, 0, 0⟩ else
  if ¬ c.kinds.contains (extKind x) then .error ⟨.perm, t, 0, 0⟩ else
  if (c.rd ∧ ¬ extRead x) ∨ (c.wr ∧ ¬ extWrite x) then .error ⟨.perm, t, 0, 0⟩ else
  if n = 0 then
    if off + w > 2 ^ 58 then .error ⟨.addr, t, 0, 0⟩ else .ok (extKind x, off)
  else if off + w > extLen x then .error ⟨.bounds, t, BitVec.ofNat 64 w, BitVec.ofNat 64 (extLen x)⟩
  else .ok (extKind x, extBase x + off)

/-- The three-level walk of R40 and R41: the leaf or block entry, the physical address, and whether it is a block; none for
PAGE. An entry is read by `pte`; a table outside populated memory holds no valid entry. -/
def walkLevels (pte : Nat → Nat) (root : Word) (va : Nat) : Option (Nat × Nat × Bool) :=
  if bits root.toNat 0 0 = 0 then none else
  let entry (table i : Nat) : Nat := if populated (table + 64 * i) then pte (table + 64 * i) else 0
  let e1 := entry (bits root.toNat 53 17 <<< 17) (bits va 57 47)
  if ¬ pteValid e1 ∨ pteReserved e1 ∨ pteLeaf e1 ∨ ptePacked e1 then none else
  let e2 := entry (pteTable e1) (bits va 46 36)
  if ¬ pteValid e2 ∨ pteReserved e2 ∨ ptePacked e2 then none else
  if pteLeaf e2 then
    if bits e2 35 17 ≠ 0 then none else some (e2, bits e2 53 36 <<< 36 + va % 2 ^ 36, true)
  else
  let e3 := entry (pteTable e2) (bits va 35 25)
  if ¬ pteValid e3 ∨ pteReserved e3 ∨ ¬ pteLeaf e3 ∨ bits e3 24 17 ≠ 0 then none else
  some (e3, bits e3 53 25 <<< 25 + va % 2 ^ 25, false)

/-- The entry and the physical address that the walk gives. -/
def walk (pte : Nat → Nat) (root : Word) (va : Nat) : Option (Nat × Nat) := (walkLevels pte root va).map fun r => (r.1, r.2.1)

/-- Entry i of the table that a root or an entry x points to, what the walker finds there, and whether that leads on to a table (R40,
R41, R43). -/
def tableSlot (x i : Nat) : Nat := pteTable x + 64 * i
def entryAt (pte : Nat → Nat) (a : Nat) : Nat := if populated a then pte a else 0
def leadsOn (e : Nat) : Bool := pteValid e && ! pteReserved e && ! pteLeaf e && ! ptePacked e

/-- The addresses of the entries that the walk of va reads, as far as it comes (R40, R41). -/
def walkReads (pte : Nat → Nat) (root : Word) (va : Nat) : List Nat :=
  let a1 := tableSlot root.toNat (bits va 57 47)
  let a2 := tableSlot (entryAt pte a1) (bits va 46 36)
  let a3 := tableSlot (entryAt pte a2) (bits va 35 25)
  if bits root.toNat 0 0 = 0 then []
  else a1 :: if leadsOn (entryAt pte a1) then a2 :: (if leadsOn (entryAt pte a2) then [a3] else []) else []

/-- The latest TLBI of an address space for which `hit` holds of its page (R44, R404). -/
def MemSys.latest (ms : MemSys) (asid : Nat) (hit : Option Nat → Bool) : Nat :=
  ms.shootdowns.foldl (fun m x => if x.asid.getD asid = asid ∧ hit x.page then max m x.stamp else m) 0

/-- The write after which a translation of this page must be read (R44, R404). -/
def MemSys.tlbMark (ms : MemSys) (asid page : Nat) : Nat := ms.latest asid fun p => p.getD page = page

/-- The same for a block translation, which a TLBI of any page of its 8 GiB removes (R40, R404). -/
def MemSys.blockMark (ms : MemSys) (asid page : Nat) : Nat := ms.latest asid fun p => p.getD page >>> 11 = page >>> 11

/-- The translation an access uses: the current one, or, until a TLBI, one that was read before and is kept, a free choice (R44,
log 14). It starts at the root in force: one that PTROOT held before is used no more, though its ASID be the same (DESIGN CHOICE,
log 14). A walk that failed is never kept: the current one is used in its place (DESIGN CHOICE, log 14). -/
def State.translate (s : State) (root : Word) (va : Nat) : Option (Nat × Nat) :=
  let now := walk s.ms.pte root va
  let asid := bits root.toNat 63 54
  let mark := s.ms.tlbMark asid (va >>> 25)
  if s.ms.past.all (fun p => p.stamp ≤ mark) ∧ s.ms.poison = [] then now else
  let n := mark + s.drawNat 0 (va >>> 25) % (s.ms.stamp - mark + 1)
  match walkLevels (fun a => s.ms.readBitsAt n a 64) root va with
  | some (e, pa, block) =>
    if s.drawBool 10 (va >>> 25) ∨ (block ∧ n < s.ms.blockMark asid (va >>> 25)) then now else some (e, pa)
  | none => now

/-- Whether two ranges of bits meet. -/
def overlaps (a n b m : Nat) : Bool := a < b + m ∧ b < a + n

/-- Whether physical bits lie in the protected heap of a region that is not closed or not yet freed (R304, R316). -/
def State.inHeap (s : State) (a w : Nat) : Bool :=
  (s.ver.regions.toList.any fun r =>
    bits r.toNat 255 254 ≠ 0 && overlaps a w (bits r.toNat 181 128) (bits r.toNat 303 256)) ||
  s.ver.closing.any fun (_, b, n) => overlaps a w b n

/-- Whether the walk of va reads an entry that lies in a heap, which none but the version unit may (R304). -/
def State.walkInHeap (s : State) (root : Word) (va : Nat) : Bool := (walkReads s.ms.pte root va).any fun a => s.inHeap a 64

/-- The 4 KiB block of host memory of an address (R415). -/
def hostBlock (a : Nat) : Nat := (a - Config.hostBase) / 8 / 4096

/-- The port parity of a host address: which 4 KiB blocks of host memory it belongs to (R415). -/
def hostParity (a : Nat) : Nat := hostBlock a % 2

/-- Whether a bit of a range lies behind a lost port (R351): the blocks belong to the two ports in turn (R415). -/
def State.linkDown (s : State) (a w : Nat) : Bool :=
  hostHomed a && s.ms.qctl.getLsbD 63 &&
  (if hostBlock a = hostBlock (a + w - 1) then s.ms.lost[hostParity a]?.getD false else s.ms.lost.toList.any id)

/-- Whether the walk of va reads an entry behind a lost port (R351). -/
def State.walkLost (s : State) (root : Word) (va : Nat) : Bool := (walkReads s.ms.pte root va).any fun a => s.linkDown a 64

/-- What bars the walk of va: an entry in a heap (R304), ahead of one behind a lost port (R351; DESIGN CHOICE, log 14). A translation
that is kept from before reads no table, so it may serve behind a lost port, a free choice. -/
def State.walkBar (s : State) (root : Word) (va : Nat) : Option Cause :=
  if s.walkInHeap root va then some .perm
  else if s.walkLost root va && ! s.drawBool 16 (va >>> 25) then some .linkdown else none

/-- The cause of a translation that fails: what bars the walk, else PAGE (R41, R43). -/
def State.walkCause (s : State) (root : Word) (va : Nat) : Cause := (s.walkBar root va).getD .page

/-- Whether an access needs bits of a poisoned sector; a write of a whole sector needs none (R288). -/
def State.poisoned (s : State) (a w : Nat) (wr : Bool) : Bool :=
  s.ms.poison.any fun x => overlaps a w (1024 * x) 1024 && ! (wr && a ≤ 1024 * x && 1024 * x + 1024 ≤ a + w)

/-- One page of an access, translated; it fails for a walk that fails or is barred, an unpopulated frame, AC or DT (R41, R43, R304,
R351). -/
def State.page (s : State) (via : Via) (va w : Nat) (wr : Bool) : Option (Nat × Nat) :=
  if (s.walkBar via.root va).isSome then none else
  match s.translate via.root va with
  | none => none
  | some (e, pa) =>
    if ¬ populated pa ∨ ¬ populated (pa + w - 1) ∨ bits e 5 5 = 0 ∨ (wr ∧ bits e 6 6 = 0) ∨
       (ptePacked e ∧ stackOf pa = none) then none
    else some (e, pa)

/-- The frame and the offset of a physical address. -/
def frameOf (pa : Nat) : Nat := (pa >>> 25) <<< 25
def pageOff (pa : Nat) : Nat := pa % 2 ^ 25

/-- Whether an access to a packed page reaches bits of a heap (R283, R304). -/
def State.packedInHeap (s : State) (pa w : Nat) (wr : Bool) : Bool :=
  (s.ms.packedReach (frameOf pa) (pageOff pa) w wr).any fun x => s.inHeap (1024 * x) 1024

/-- Whether an access to a packed page needs a poisoned sector (R288). -/
def State.packedPoisoned (s : State) (pa w : Nat) (wr : Bool) : Bool :=
  (s.ms.packedSectors (frameOf pa) (pageOff pa) w wr).any s.ms.poison.contains

/-- The permission of one page (R41, R304, R382), then the link (R351), poison (R288) and packing (R282). -/
def State.permit (s : State) (via : Via) (c : Class) (kind e pa w : Nat) : Option Cause :=
  if (c.rd ∧ bits e 1 1 = 0) ∨ (c.wr ∧ bits e 2 2 = 0) then some .perm else
  if kind = 3 ∧ ptePacked e then some .perm else
  if (if ptePacked e then s.packedInHeap pa w c.wr else s.inHeap pa w) then some .perm else
  if via.assured ∧ hostHomed pa then some .perm else
  if s.linkDown pa w then some .linkdown else
  if ptePacked e then
    if (s.ms.readPacked (frameOf pa) (pageOff pa) w).isNone ∨ s.packedPoisoned pa w c.wr then some .page else none
  else if s.poisoned pa w c.wr then some .page else none

/-- The segment of a translated page. -/
def pageSeg (e pa w : Nat) : Seg :=
  if ptePacked e then .packed (frameOf pa) (pageOff pa) w else .phys pa w

/-- The bits from va that lie on its page. -/
def pageRest (va : Nat) : Nat := 2 ^ 25 - va % 2 ^ 25

/-- Translation and permission of w bits at va, in the order of R46: both pages are translated before a permission is
tested. t is the tagged address of the access. -/
def State.pages (s : State) (via : Via) (t : Word) (va w : Nat) (c : Class) (kind : Nat) : Except Trap (List Seg) :=
  let w1 := min w (pageRest va)
  let t2 := t + BitVec.ofNat 64 w1
  match s.page via va w1 c.wr with
  | none => .error ⟨s.walkCause via.root va, t, 0, 0⟩
  | some (e1, p1) =>
    if w = w1 then
      match s.permit via c kind e1 p1 w with
      | some x => .error ⟨x, t, 0, 0⟩
      | none => .ok [pageSeg e1 p1 w]
    else
      match s.page via (va + w1) (w - w1) c.wr with
      | none => .error ⟨s.walkCause via.root (va + w1), t2, 0, 0⟩
      | some (e2, p2) =>
        match s.permit via c kind e1 p1 w1 with
        | some x => .error ⟨x, t, 0, 0⟩
        | none =>
          match s.permit via c kind e2 p2 (w - w1) with
          | some x => .error ⟨x, t2, 0, 0⟩
          | none => .ok [pageSeg e1 p1 w1, pageSeg e2 p2 (w - w1)]

/-- Window control block n: 256 bits (R250). -/
def Core.block (c : Core) (n : Nat) : Nat := c.ls.readBits (Config.blocksBase + 256 * n) 256

/-- Whether a block is live (R250). -/
def blockLive (b : Nat) : Bool := bits b 154 154 = 1

/-- Whether a range of the local store touches a live window control block (R250). -/
def Core.touchesLive (c : Core) (a w : Nat) : Bool :=
  Config.blocksBase < a + w &&
  (List.range 64).any fun n => overlaps a w (Config.blocksBase + 256 * n) 256 && blockLive (c.block n)

/-- The granule of a segment holds it whole (R24, R26). -/
def Seg.inGranule : Seg → Bool
  | .ls a w => a % 512 + w ≤ 512
  | .phys a w => a % granuleOf a + w ≤ granuleOf a
  | .packed f o w => (f + o) % 256 + w ≤ 256

/-- All checks of an access of w bits at tagged address t (R33, R41, R43, R46, then R26 and R250), and where its bits
lie. -/
def State.resolve (s : State) (via : Via) (t : Word) (w : Nat) (c : Class) : Except Trap (List Seg) :=
  match checkExtent via.ext t w c with
  | .error x => .error x
  | .ok (kind, a) =>
    if kind = 1 ∨ kind = 2 then
      if c.whole ∧ ¬ (Seg.ls a w).inGranule then .error ⟨.addr, t, 0, 0⟩ else
      if c.wr ∧ s.core.touchesLive a w then .error ⟨.barclobber, t, 0, 0⟩ else
      .ok [.ls a w]
    else
      match s.pages via t a w c kind with
      | .error x => .error x
      | .ok segs =>
        if c.whole ∧ (segs.length ≠ 1 ∨ ¬ segs.all Seg.inGranule) then .error ⟨.addr, t, 0, 0⟩ else .ok segs

/-- w bits of a packed page, as a plain load reads them; after a raw write to its frame they are free (R282, log 44). -/
def State.readPage (s : State) (f o w : Nat) : Nat :=
  if s.ms.tainted.contains (f >>> 25) then Config.freeBits (s.fresh <<< 64 + f + o) % 2 ^ w else (s.ms.readLines f o w).getD 0

/-- The bits of one segment, as a plain load reads them (R116). -/
def State.readSeg (s : State) : Seg → Nat
  | .ls a w => s.core.ls.readBits a w
  | .phys a w => s.ms.mem.readBits a w
  | .packed f o w => s.readPage f o w

/-- The bits of one segment as the constant path may return them (R113, R158, R337; log 13). Of a packed page it returns the newest
value (DESIGN CHOICE, log 13). -/
def State.readSegConst (s : State) (mark : Nat) : Seg → Nat
  | .ls a w => s.core.ls.readBits a w
  | .phys a w =>
    if s.ms.changedBits mark a w = 0 then s.ms.mem.readBits a w
    else s.ms.readConst mark (Config.freeBits (s.fresh <<< 64 + a)) a w
  | .packed f o w => s.readPage f o w

/-- The first bit of an access. -/
def firstBit : List Seg → Nat
  | .ls a _ :: _ => a
  | .phys a _ :: _ => a
  | .packed f o _ :: _ => f + o
  | [] => 0

/-- Several segments in ascending order as one value. -/
def joinSegs (read : Seg → Nat) : List Seg → Nat
  | [] => 0
  | g :: gs => read g + joinSegs read gs <<< g.width

def State.readSegs (s : State) (gs : List Seg) : Nat := joinSegs s.readSeg gs
def State.readSegsConst (s : State) (mark : Nat) (gs : List Seg) : Nat := joinSegs (s.readSegConst mark) gs

/-- The mask of a local-store range that leaves out the window control blocks, which no store writes (R250). -/
def lsMask (a w mask : Nat) : Nat := if a + w ≤ Config.blocksBase then mask else mask % 2 ^ (Config.blocksBase - a)

/-- Notes the spills of a write to a packed page: a black-box event each, and the spill interrupt (R284). -/
def State.spills (s : State) (frame : Nat) (chunks : List Nat) : State :=
  chunks.foldl (fun s i =>
    (s.event 9 (8 + (stackOf frame).getD 0) 0 (bits frame 53 25 + i <<< 32)).raise 0 2) s

/-- The die that keeps the lines of a packed page it writes, a free choice; with none they go home at once (R283, log 44). -/
def State.keeper (s : State) (die : Option Keep) (f o : Nat) : Option Nat :=
  if s.drawBool 11 (f + o) then die.map Keep.die else none

/-- The lines of a write of w bits at a that are not left in the LLC of k (R293): a miss that does not allocate. A line that is dirty
there is a hit, and of any other it is a free choice (log 42). -/
def State.missLines (s : State) (k : Keep) (a w : Nat) : List Nat :=
  if k.allocates then [] else
  (linesOf a w).filter fun l => ! (s.ms.dirty.any fun d => d.die = k.die && lineOf (8 * d.addr) = l) && ! s.drawBool 14 l

/-- The bits of lines that the LLC of a die does not keep go on to the home. -/
def MemSys.sendHome (ms : MemSys) (die : Nat) (lines : List Nat) : MemSys :=
  { ms with dirty := ms.dirty.filter fun d => ! (d.die = die && lines.contains (lineOf (8 * d.addr))) }

/-- A masked write of physical bits, which stay in the LLC of k where they hit or allocate (R22, R291, R293). -/
def State.writePhys (s : State) (k : Option Keep) (a w v mask : Nat) : MemSys :=
  let ms := s.ms.rawWrite (k.map Keep.die) a w v mask
  match k with
  | some x => ms.sendHome x.die (s.missLines x a w)
  | none => ms

/-- Writes the masked bits of one segment (R21, R22). -/
def State.writeSeg (s : State) (die : Option Keep) (g : Seg) (v mask : Nat) : State :=
  match g with
  | .ls a w => s.mapCore fun c => { c with ls := c.ls.writeMasked a w v (lsMask a w mask) }
  | .phys a w => { s with ms := s.writePhys die a w v mask }
  | .packed f o w =>
    let r := s.ms.writeLines (s.keeper die f o) f o w v mask
    ({ s with ms := r.1 }).spills f r.2

/-- Writes the masked bits of several segments, the lower first (R21). -/
def State.writeSegs (s : State) (die : Option Keep) : List Seg → Nat → Nat → State
  | [], _, _ => s
  | g :: gs, v, mask => (s.writeSeg die g v mask).writeSegs die gs (v >>> g.width) (mask >>> g.width)

/-- Writes all w bits of an access. -/
def State.store (s : State) (die : Option Keep) (gs : List Seg) (w v : Nat) : State := s.writeSegs die gs v (2 ^ w - 1)

/-- A range that crosses many pages, cut at page boundaries: the offset of each part from the start and its width. -/
def pageParts (va w : Nat) : Nat → Nat → List (Nat × Nat)
  | 0, _ => []
  | n + 1, off =>
    if w ≤ off then [] else
    let k := min (w - off) (pageRest (va + off))
    (off, k) :: pageParts va w n (off + k)

end Sys2Proof.Machine
end

