-- ==== Sys2Proof/Machine/Ready.lean ====
section
/-! DEFINITION. The ready unit, graphs and their ends: records and their states (R357, R362), ready lists (R366), the slot table
(R367), the end and the abort of a graph (R364, R365), and what Mason reads and writes in an owner's memory. -/

namespace Sys2Proof.Machine

/-- Settings of a virtual device; an unlisted one has the defaults of R377. -/
def Sched.settings (c : Sched) (vd : Nat) : Settings :=
  match c.vdevs.find? (fun x => x.1 = vd) with
  | some x => x.2
  | none => {}

def Sched.setSettings (c : Sched) (vd : Nat) (x : Settings) : Sched :=
  { c with vdevs := (vd, x) :: c.vdevs.filter fun y => y.1 ≠ vd }

/-- The slots of a core; an unlisted core's are empty. -/
def Sched.slot (c : Sched) (n : Nat) : Slot :=
  match c.slots.find? (fun x => x.1 = n) with
  | some x => x.2
  | none => { run := 0, stg := 0, dcmd := 0, since := 0, tail := false }

def Sched.setSlot (c : Sched) (n : Nat) (x : Slot) : Sched :=
  { c with slots := (n, x) :: c.slots.filter fun y => y.1 ≠ n }

/-- The fields of a bind record (R367). -/
def bindValid (r : BitVec 256) : Bool := r.getLsbD 63
def bindTid (r : BitVec 256) : Nat := bits r.toNat 40 0
def bindCtx (r : BitVec 256) : Nat := bits r.toNat 121 64

/-- The task that TASKID bits name (R359). -/
def keyOf (tid : Nat) : TaskKey := { vdev := bits tid 40 32, graph := bits tid 31 16, record := bits tid 15 0 }
def tidOf (k : TaskKey) : Nat := (k.vdev % 512) <<< 32 + (k.graph % 65536) <<< 16 + k.record % 65536

/-- The fields of a task record (R357). -/
def recEntry (r : BitVec 512) : Nat := bits r.toNat 57 0
def recArgs (r : BitVec 512) : Nat := bits r.toNat 121 64
def recExt (r : BitVec 512) (j : Nat) : Nat := bits r.toNat (128 + 16 * j + 15) (128 + 16 * j)
def recExv (r : BitVec 512) (j : Nat) : Bool := bits r.toNat (256 + j) (256 + j) = 1
def recDeps (r : BitVec 512) : Nat := bits r.toNat 279 264
def recNsucc (r : BitVec 512) : Nat := bits r.toNat 282 280
def recSucc (r : BitVec 512) (j : Nat) : Nat := bits r.toNat (288 + 16 * j + 15) (288 + 16 * j)
def recGraph (r : BitVec 512) : Nat := bits r.toNat 399 384
def recContract (r : BitVec 512) : Nat := bits r.toNat 415 400
def recPrio (r : BitVec 512) : Nat := bits r.toNat 419 416
def recFoot (r : BitVec 512) : Nat := bits r.toNat 448 424
def recTiles (r : BitVec 512) : Nat := bits r.toNat 463 456
def recSuccs (r : BitVec 512) : List Nat := (List.range (min 6 (recNsucc r))).map (recSucc r)

/-- A reserved bit of a record is set (R357, R361, R370). -/
def recReserved (r : BitVec 512) : Bool :=
  bits r.toNat 511 468 ≠ 0 || bits r.toNat 455 449 ≠ 0 || bits r.toNat 423 420 ≠ 0 || bits r.toNat 287 283 ≠ 0 ||
  bits r.toNat 127 122 ≠ 0 || bits r.toNat 63 58 ≠ 0

def Sched.task (c : Sched) (k : TaskKey) : Option Task := c.tasks.find? fun t => t.key = k

def Sched.setTask (c : Sched) (t : Task) : Sched :=
  if c.tasks.any fun u => u.key = t.key then { c with tasks := c.tasks.map fun u => if u.key = t.key then t else u }
  else { c with tasks := c.tasks ++ [t] }

def Sched.mapTask (c : Sched) (k : TaskKey) (f : Task → Task) : Sched :=
  { c with tasks := c.tasks.map fun u => if u.key = k then f u else u }

def Sched.graph (c : Sched) (vd gid : Nat) : Option Graph := c.graphs.find? fun g => g.live && g.vdev = vd && g.gid = gid

def Sched.mapGraph (c : Sched) (vd gid : Nat) (f : Graph → Graph) : Sched :=
  { c with graphs := c.graphs.map fun g => if g.live && g.vdev = vd && g.gid = gid then f g else g }

/-- The tasks of a graph. -/
def Sched.graphTasks (c : Sched) (vd gid : Nat) : List Task := c.tasks.filter fun t => t.key.vdev = vd && t.key.graph = gid

/-- Where w bits of an owner's memory lie: pages of device memory that the owner's page tables map with the permission asked
for (R360, R410). -/
def State.ownerSegs (s : State) (vd va w : Nat) (wr : Bool) : Option (List Seg) :=
  let via : Via := { ext := Vector.replicate 16 0, root := (s.sched.settings vd).root, assured := false, die := none }
  if 2 ^ 58 < va + w then none else
  match s.pages via 0 va w { kinds := [0], rd := ! wr, wr := wr } 0 with
  | .error _ => none
  | .ok segs =>
    if segs.all fun g => match g with
      | .phys a _ => ! hostHomed a
      | _ => true
    then some segs else none

/-- w bits of an owner's memory. -/
def State.ownerRead (s : State) (vd va w : Nat) : Option Nat := (s.ownerSegs vd va w false).map s.readSegs

/-- Mason's write of w bits to an owner's memory; where it is not mapped, nothing is written. -/
def State.ownerWrite (s : State) (vd va w v : Nat) : State :=
  match s.ownerSegs vd va w true with
  | none => s
  | some segs => s.store none segs w v

/-- Mason's write of n 64-bit words. -/
def State.ownerWords (s : State) (vd va : Nat) : List Nat → State
  | [] => s
  | x :: xs => (s.ownerWrite vd va 64 x).ownerWords vd (va + 64) xs

/-- Mason's own graph (R385), which has no descriptor (log 21). -/
def Graph.own (g : Graph) : Bool := g.vdev = 0 && g.gid = 0xFFFF

/-- Puts a task's record into its pool slot, with its STATE (R357, R362). Mason's own graph has no pool in memory. -/
def State.syncRecord (s : State) (t : Task) : State :=
  match s.sched.graph t.key.vdev t.key.graph with
  | none => s
  | some g =>
    if g.own then s else
    let img := putBits t.image.toNat 467 464 t.state.code
    s.ownerWords g.vdev (g.pool + 512 * t.key.record) ((List.range 8).map fun i => bits img (64 * i + 63) (64 * i))

/-- Sets a task's state and its record's STATE. -/
def State.setTaskState (s : State) (k : TaskKey) (x : TaskState) : State :=
  match s.sched.task k with
  | none => s
  | some t =>
    let t := { t with state := x }
    (s.mapSched fun c => c.setTask t).syncRecord t

/-- The contract a task runs under: the one its record names, or the one its graph was admitted under (R357, R380), where the record
names none (DESIGN CHOICE, log 29); 0 for best effort. -/
def Sched.contractOf (c : Sched) (t : Task) : Nat :=
  if recContract t.image ≠ 0 then recContract t.image else
  match c.graph t.key.vdev t.key.graph with
  | some g => g.contract
  | none => 0

/-- The ready list of a task (R366, R384). -/
def Sched.readyListOf (c : Sched) (t : Task) : ReadyList :=
  if t.key.vdev = 0 ∧ t.key.graph = 0xFFFF then .system
  else if c.contractOf t ≠ 0 ∧ t.demoted = false then .contract (c.contractOf t)
  else .bestEffort t.key.vdev (recPrio t.image)

/-- Takes a task off its ready list. -/
def Sched.unlist (c : Sched) (k : TaskKey) : Sched := { c with lists := c.lists.filter fun x => x.2 ≠ k }

/-- Puts a task on its ready list, at the head or at the tail (R366). -/
def Sched.enlist (c : Sched) (k : TaskKey) (head : Bool) : Sched :=
  match c.task k with
  | none => c
  | some t =>
    let c := c.unlist k
    { c with lists := if head then (c.readyListOf t, k) :: c.lists else c.lists ++ [(c.readyListOf t, k)] }

/-- A task without a saved context becomes ready, or one with it pre-empted, on its list (R362, R366). -/
def State.makeReady (s : State) (k : TaskKey) (head : Bool) : State :=
  match s.sched.task k with
  | none => s
  | some t =>
    let s := s.setTaskState k (if t.saved then .preempted else .ready)
    s.mapSched fun c => c.enlist k head

/-- One predecessor of a record has ended (R357, R374). -/
def State.decDeps (s : State) (vd gid idx : Nat) : State :=
  let k : TaskKey := { vdev := vd, graph := gid, record := idx }
  match s.sched.task k with
  | none => s
  | some t =>
    if t.state ≠ .waiting then s else
    let n := recDeps t.image - 1
    let s := s.mapSched fun c => c.setTask { t with image := BitVec.ofNat 512 (putBits t.image.toNat 279 264 n) }
    if n = 0 then s.makeReady k false else s.setTaskState k .waiting

/-- Wakes the earliest pool-parked task of a graph (R371). -/
def State.wakePool (s : State) (vd gid : Nat) : State :=
  match s.sched.poolParked.find? fun k => k.vdev = vd && k.graph = gid with
  | none => s
  | some k => (s.mapSched fun c => { c with poolParked := c.poolParked.filter (· ≠ k) }).makeReady k false

/-- Changes core n, the one in focus or another (an unlisted core is a core at reset); there are 224 (R1). -/
def State.mapCoreNo (s : State) (n : Nat) (f : Core → Core) : State :=
  if Config.cores ≤ n then s else
  if n = s.coreNo then { s with core := f s.core } else
  let c := match s.others.find? (fun x => x.1 = n) with
    | some x => x.2
    | none => Core.reset
  { s with others := (n, f c) :: s.others.filter fun x => x.1 ≠ n }

/-- Core n. -/
def State.coreAt (s : State) (n : Nat) : Core :=
  if n = s.coreNo then s.core else
  match s.others.find? (fun x => x.1 = n) with
  | some x => x.2
  | none => Core.reset

/-- Brings a sequencer of core n into focus. -/
def State.focus (s : State) (n : Nat) (q : SeqId) : State :=
  if n = s.coreNo then { s with cur := q }
  else { s with core := s.coreAt n, coreNo := n, cur := q,
                others := (s.coreNo, s.core) :: s.others.filter fun x => x.1 ≠ n ∧ x.1 ≠ s.coreNo }

/-- A sequencer stops: no task is bound to its core any more. -/
def Seq.idle (q : Seq) : Seq :=
  { q with running := false, wait := none, snap := none, frame := none, owed := {}, record := [], view := [], inFlight := []
           replay := [], back := none }

/-- A core's sequencers stop. -/
def Core.idle (c : Core) : Core := { c with main := c.main.idle, matrix := c.matrix.idle }

/-- The cores whose RUN record names a task of a graph (R364). -/
def Sched.coresOf (c : Sched) (vd gid : Nat) : List Nat :=
  (c.slots.filter fun x =>
    bindValid x.2.run && (keyOf (bindTid x.2.run)).vdev = vd && (keyOf (bindTid x.2.run)).graph = gid).map (·.1)

/-- An unbind charges the cycles the task ran: the credit of its virtual device (R378), and what remains of its contract's
release (R383). -/
def Sched.charge (c : Sched) (k : TaskKey) : Sched :=
  match c.task k with
  | none => c
  | some t =>
    let x := c.settings k.vdev
    let c := c.setSettings k.vdev { x with credit := x.credit - (t.ran : Int) }
    let n := c.contractOf t
    let c := { c with contracts := c.contracts.map fun (y : Contract) =>
      if y.number = n ∧ t.demoted = false then { y with remaining := y.remaining - t.ran } else y }
    c.setTask { t with ran := 0 }

/-- The virtual devices that have a ready best-effort task, ascending. -/
def Sched.readyVdevs (c : Sched) : List Nat :=
  (List.range 385).filter fun vd => c.lists.any fun x =>
    match x.1 with
    | .bestEffort v _ => v = vd
    | _ => false

/-- A virtual device with no ready task has its credit set to 0 (R378). -/
def Sched.settle (c : Sched) : Sched :=
  { c with vdevs := c.vdevs.map fun x => if c.readyVdevs.contains x.1 then x else (x.1, { x.2 with credit := 0 }) }

/-- Frees the slots that name tasks of a graph. -/
def Sched.clearSlots (c : Sched) (vd gid : Nat) : Sched :=
  let hit (r : BitVec 256) : Bool := bindValid r && (keyOf (bindTid r)).vdev = vd && (keyOf (bindTid r)).graph = gid
  { c with slots := c.slots.map fun (n, x) =>
      (n, { x with run := if hit x.run then 0 else x.run, stg := if hit x.stg then 0 else x.stg }) }

/-- A queue with nothing in it. -/
def Queue.empty : Queue := { entries := [], fault := none }

/-- Waits end without a wake, and OVF clears in every region that has no unentered waiter left (R306). -/
def VerSys.dropWaits (v : VerSys) (gone : Waiter → Bool) : VerSys :=
  let waits := v.waits.filter fun w => ! gone w.who
  { v with
    waits := waits
    heapWaits := v.heapWaits.filter fun w => ! gone w.who
    regions := v.regions.mapIdx fun n r =>
      if waits.any fun w => w.region = n && ! w.entered then r else r &&& ~~~(1#384 <<< 250) }

/-- The programs of a graph's tasks stop and their queues and waits are emptied (R364 steps 3 and 4). -/
def State.stopGraph (s : State) (vd gid : Nat) : State :=
  let mine (k : TaskKey) : Bool := k.vdev = vd && k.graph = gid
  let pids := (s.str.ctxs.filter fun x => mine x.task).map (·.pid)
  let who : Waiter → Bool
    | .task k => mine k
    | .stream p => pids.contains p
    | .encoder _ => false
  let s := s.mapStr fun r => { r with ctxs := r.ctxs.filter fun x => ¬ mine x.task }
  let s := s.mapVer fun v => v.dropWaits who
  s.mapSched fun c => ({ c with
    tasks := c.tasks.map (fun t => if mine t.key then { t with queues := Vector.replicate 16 Queue.empty } else t)
    poolParked := c.poolParked.filter (fun k => ¬ mine k)
    lists := c.lists.filter fun x => ¬ mine x.2 } : Sched).settle

/-- When every record of a graph has ended, Mason writes the completion word; the graph is then no longer live, unless a
contract releases it again (R365, R381). -/
def State.finishGraph (s : State) (vd gid : Nat) : State :=
  match s.sched.graph vd gid with
  | none => s
  | some g =>
    if g.own then s else
    if ¬ (s.sched.graphTasks vd gid).all (fun t => t.state = .ended) then s else
    let s := s.ownerWrite vd g.done 64 ((if g.aborted then 2 else 1) + g.code <<< 4)
    if g.contract ≠ 0 ∧ g.aborted = false then s
    else s.mapSched fun c => c.mapGraph vd gid fun g => { g with live := false }

/-- Cores give up the tasks of a graph, whose contexts are discarded. -/
def State.clearCores (s : State) (vd gid : Nat) : State :=
  let s := (s.sched.coresOf vd gid).foldl (fun s n =>
    (s.mapCoreNo n Core.idle).mapSched fun c => c.charge (keyOf (bindTid (c.slot n).run))) s
  (s.mapSched fun c => c.clearSlots vd gid).stopGraph vd gid

/-- Aborts a graph: the fault record of the first fault or abort, its tasks' cores stopped and contexts discarded, its
programs, queues and waits gone, its records ended (R364), then its completion word (R365). -/
def State.abortGraph (s : State) (vd gid code : Nat) (words : List Nat) : State :=
  match s.sched.graph vd gid with
  | none => s
  | some g =>
    let s := if g.aborted ∨ g.own then s else s.ownerWords vd g.fault words
    let s := s.event 10 4 0 (gid + vd <<< 16)
    let s := s.mapSched fun c => c.mapGraph vd gid fun g =>
      if g.aborted ∨ g.own then g else { g with aborted := true, code := code }
    let s := s.clearCores vd gid
    let s := (s.sched.graphTasks vd gid).foldl (fun s t =>
      if t.state = .ended then s else s.setTaskState t.key .ended) s
    s.finishGraph vd gid

/-- Mason's check for a graph that can free no slot (R371): it aborts it with POOLLOCK. -/
def State.poolLock (s : State) (vd gid : Nat) : State :=
  let ts := s.sched.graphTasks vd gid
  let parked := s.sched.poolParked.find? fun k => k.vdev = vd && k.graph = gid
  match parked with
  | none => s
  | some k =>
    if ts.any fun t => t.state = .ready || t.state = .bound || t.state = .running || t.state = .preempted ||
        t.state = .blockedVersion || t.state = .blockedBarrier || t.state = .blockedRendezvous then s
    else s.abortGraph vd gid 15 [15 + k.record <<< 16, 0, 0, 0, 0, 0, 0, 0]

/-- The task bound to the core in focus (R359, R367). -/
def State.taskKey (s : State) : TaskKey := keyOf (bits s.core.ctl.taskid.toNat 40 0)

def State.task (s : State) : Option Task := s.sched.task s.taskKey

/-- A task is privileged exactly in graph 0xFFFF of virtual device 0 (R385). -/
def State.privileged (s : State) : Bool := s.taskKey.vdev = 0 && s.taskKey.graph = 0xFFFF

end Sys2Proof.Machine
end

