-- ==== Sys2Proof/Machine/Ops.lean ====
section
/-! DEFINITION. The shared operations of a sequencer: its registers (R106), the last destination register (R59), falling
through with the loop end check and the repeat frame (R64, R132), taking a trap (R15, R356, R387) and returning from one
(R390). -/

namespace Sys2Proof.Machine

/-- An outcome of the model. -/
abbrev Result := Host.Outcome State Fault Refusal

/-- The word of the instruction that is being performed, as ILLOP reports it (R69). -/
def State.word (s : State) : Word := s.seq.insn.setWidth 64

/-- What an early read sees of a register, if the instruction reads it early (R57). -/
def Seq.seen (q : Seq) (c : RegClass) (r : Nat) : Option VReg :=
  (q.view.find? fun x => x.cls = c ∧ x.reg = r).map Seen.value

/-- The stored contents of a scalar register; g0 reads zero (R107). -/
def State.gRaw (s : State) (r : BitVec 5) : Word := if r = 0 then 0 else s.seq.g.get r.toFin

/-- A scalar register as the instruction reads it (R57). -/
def State.g (s : State) (r : BitVec 5) : Word :=
  match s.seq.seen .g r.toNat with
  | some x => x.setWidth 64
  | none => s.gRaw r

/-- The stored contents of a vector register. -/
def State.vRaw (s : State) (r : Nat) : VReg := (s.core.v[r]?).getD 0

/-- A vector register as the instruction reads it (R57). What the other sequencer wrote shows at once (DESIGN CHOICE, log 50); R137
promises it only after FORK or an RDV pair. -/
def State.v (s : State) (r : Nat) : VReg := (s.seq.seen .v r).getD (s.vRaw r)

/-- The stored contents of a mask register. -/
def State.kRaw (s : State) (r : Nat) : VReg := (s.core.k[r]?).getD 0

/-- A mask register as the instruction reads it (R57). -/
def State.k (s : State) (r : Nat) : VReg := (s.seq.seen .k r).getD (s.kRaw r)

/-- Writes a scalar register; a write to g0 is discarded (R107). -/
def State.setG (s : State) (r : BitVec 5) (x : Word) : State :=
  if r = 0 then s else s.mapSeq fun q => { q with g := q.g.set r.toNat x r.isLt }

/-- Writes a vector register. -/
def State.setV (s : State) (r : Nat) (x : VReg) : State := s.mapCore fun c => { c with v := c.v.setIfInBounds r x }

/-- Writes a mask register. -/
def State.setK (s : State) (r : Nat) (x : VReg) : State := s.mapCore fun c => { c with k := c.k.setIfInBounds r x }

/-- The code of a register class in LDR and WAITSHORT (R56, R59). -/
def RegClass.code : RegClass → Nat
  | .g => 1
  | .v => 2
  | .k => 3

/-- LDR takes the class and number of the register that D names (R59). -/
def State.setLdr (s : State) (c : RegClass) (n : Nat) : State :=
  s.mapSeq fun q => { q with ldr := BitVec.ofNat 64 (32 * c.code + n % 32) }

/-- The end check of R132 over the top frames: the next address and the frames left. `k` frames are in use. -/
def Seq.endCheck (q : Seq) (next : BitVec 58) : Nat → Seq
  | 0 => { q with depth := 0, pc := next }
  | k + 1 =>
    if (q.le[k]?.getD 0).toNat = next.toNat then
      let c := q.lc[k]?.getD 0 - 1
      let q := { q with lc := q.lc.setIfInBounds k c, li := q.li.setIfInBounds k (q.li[k]?.getD 0 + 1) }
      if c = 0 then q.endCheck next k
      else { q with depth := BitVec.ofNat 3 (k + 1), pc := (q.lb[k]?.getD 0).setWidth 58 }
    else { q with depth := BitVec.ofNat 3 (k + 1), pc := next }

/-- Continues at an address by falling through to it, with the end check of R132. -/
def Seq.fallTo (q : Seq) (next : BitVec 58) : Seq := q.endCheck next q.depth.toNat

/-- RPIDX from its fields (R65). -/
def mkRpidx (act : Bool) (pos idx : Nat) : Word := BitVec.ofNat 64 (act.toNat <<< 15 + (pos % 16) <<< 10 + idx % 1024)

/-- The address of instruction j of a repeat frame, all of 32 bits (R63). -/
def Frame.addr (f : Frame) (j : Nat) : BitVec 58 := f.base + BitVec.ofNat 58 (32 + 32 * j)

/-- The next instruction of a repeat frame, the next pass, or the end of the frame with its one end check (R64, R134). -/
def Seq.frameNext (q : Seq) (f : Frame) : Seq :=
  let i := bits q.rpidx.toNat 9 0
  if f.pos + 1 < 16 then { q with frame := some { f with pos := f.pos + 1 }, pc := f.addr (f.pos + 1) }
  else if i + 1 < f.passes then
    { q with frame := some { f with pos := 0 }, pc := f.addr 0, rpidx := mkRpidx false 0 (i + 1) }
  else { q with frame := none, rpidx := 0, rpbase := 0 }.fallTo (f.addr 16)

/-- An instruction of len bits completes without a taken branch: the sequencer goes on, inside its repeat frame or by
falling through with the end check (R64, R132). -/
def Seq.advance (q : Seq) (len : Nat) : Seq :=
  let q := { q with wait := none, waited := 0, snap := none, view := [] }
  match q.frame with
  | some f => q.frameNext f
  | none => q.fallTo (q.pc + BitVec.ofNat 58 len)

/-- The instruction completes (R132). -/
def State.retire (s : State) (len : Nat) : State := s.mapSeq fun q => q.advance len

/-- A taken branch or jump: no end check (R132). -/
def State.jump (s : State) (target : BitVec 58) : State :=
  s.mapSeq fun q => { q with pc := target, wait := none, waited := 0, snap := none, view := [] }

/-- The instruction waits: it is performed again at the sequencer's next turn, with the extents it issued under (R34). -/
def State.waitIn (s : State) (i : Wait) : State :=
  s.mapSeq fun q => { q with wait := some i, snap := some s.extents }

/-- Writes g[D] with LDR and completes (R59). -/
def State.finishG (s : State) (len : Nat) (d : BitVec 5) (x : Word) : State :=
  ((s.setG d x).setLdr .g d.toNat).retire len

/-- The handler's address, if the task has one (R353). -/
def State.vector (s : State) : BitVec 58 := (s.core.ctl.tvec).setWidth 58

/-- The trap registers as R386 and R387 set them: TCAUSE, TVAL, TXA, TXB and TPC. -/
def Ctl.recordTrap (c : Ctl) (t : Trap) (pc : BitVec 58) : Ctl :=
  { c with tcause := BitVec.ofNat 64 t.cause.code, tval := t.tval, txa := t.xa, txb := t.xb,
           tpc := (pc &&& ~~~(15 : BitVec 58)).setWidth 64 }

/-- A sequencer inside a repeat frame notes the frame's place (R65). -/
def Seq.suspendFrame (q : Seq) : Seq :=
  match q.frame with
  | none => q
  | some f => { q with frame := none, rpidx := mkRpidx true f.pos (bits q.rpidx.toNat 9 0), rpbase := f.base.setWidth 64 }

/-- A stop completes every fixed-latency producer and clears the declared-distance record (R58). -/
def Seq.settle (q : Seq) : Seq := { q with record := [], view := [], wait := none, waited := 0, snap := none }

/-- The task ends as faulted with the record of its trap, and its graph is aborted (R15, R362, R364). A core whose TASKID
names no task of the ready unit only stops. -/
def State.endFaulted (s : State) : State :=
  let c := s.core.ctl
  let k := s.taskKey
  let words := [c.tcause.toNat + s.cur.code <<< 5 + k.record <<< 16, c.tval.toNat, c.tpc.toNat, c.estart.toNat,
    c.txa.toNat, c.txb.toNat, 0, 0]
  let s := s.mapCore Core.idle
  s.abortGraph k.vdev k.graph c.tcause.toNat words

/-- TAKING A TRAP (R356, R387): the trap registers are written, a black-box event is recorded, and the trapping sequencer
goes on at the handler, or the task ends as faulted where it has none or one already runs. `pc` is the address that TPC
names. -/
def State.trapAt (s : State) (t : Trap) (pc : BitVec 58) : State :=
  let s := s.mapCtl fun c => c.recordTrap t pc
  let s := s.mapSeq fun q => { q.suspendFrame.settle with owed := {} }
  let s := s.event 1 (dieOf s.coreNo) (s.coreNo % 56) (t.cause.code + (bits s.core.ctl.taskid.toNat 40 0) <<< 5)
  if s.vector = 0 ∨ s.core.ctl.tstat.getLsbD 0 then s.endFaulted
  else
    let s := s.mapCtl fun c => { c with tstat := BitVec.ofNat 64 (1 + 2 * s.cur.code) }
    s.mapSeq fun q => { q with pc := s.vector }

/-- A trap of the instruction being performed (R387). -/
def State.trap (s : State) (t : Trap) : State := s.trapAt t s.seq.pc

/-- ILLOP with the instruction word (R69). -/
def State.illop (s : State) : State := s.trap ⟨.illop, s.word, 0, 0⟩

/-- The TVAL of a privileged operation refused to a task, and of an undeclared tile (R256, R385). -/
def State.refusedValue (s : State) : Word := BitVec.ofNat 64 (0xFFFFFFFF <<< 32 + s.seq.insn.toNat)

/-- PERM for a privileged operation (R385). -/
def State.denied (s : State) : State := s.trap ⟨.perm, s.refusedValue, 0, 0⟩

/-- Goes on with a value, or takes the trap. -/
def State.orTrap {α : Type} (s : State) (r : Except Trap α) (f : α → State) : State :=
  match r with
  | .ok x => f x
  | .error t => s.trap t

/-- Whether an exact branch target is a legal address of the virtual space (R128). -/
def legalTarget (x : Int) : Bool := 0 ≤ x && x < (2 ^ 58 : Nat)

/-- PC + 16 times a signed offset, exactly (R50). -/
def branchTarget (pc : BitVec 58) (off : Int) : Int := (pc.toNat : Int) + 16 * off

/-- A jump to an exact target, or ADDR with the target in TVAL (R128). -/
def State.jumpTo (s : State) (x : Int) : State :=
  if legalTarget x then s.jump (BitVec.ofInt 58 x) else s.trap ⟨.addr, BitVec.ofInt 64 x, 0, 0⟩

/-- The exact offset of an address plus a signed amount, as a tagged address, or ADDR with the base (R111, R148). -/
def offsetBy (t : Word) (d : Int) : Except Trap Word :=
  let o := (offOf t : Int) + d
  if o < 0 ∨ o ≥ (2 ^ 58 : Nat) then .error ⟨.addr, t, 0, 0⟩ else .ok (tagged (tagOf t) o.toNat)

/-- The effective address of a scalar memory instruction (R111). -/
def effective (t b : Word) : Except Trap Word :=
  if bits t.toNat 59 58 ≠ 0 then .error ⟨.addr, t, 0, 0⟩ else offsetBy t b.toInt

end Sys2Proof.Machine
end

