-- ==== Sys2Proof/Machine/Operands.lean ====
section
/-! DEFINITION. Operand forms: the fields of VT and vector groups (R139-R145), active elements and the element-wise frame
(R187), high-water marks (R161, R397), compact forms (R60), and what each instruction word reads and writes, with its
latency (R54-R57, R63). -/

namespace Sys2Proof.Machine

/-- The fields of VT (R139). -/
def vtCw (vt : Word) : Nat := 8 * 2 ^ bits vt.toNat 2 0
def vtG (vt : Word) : Nat := 2 ^ bits vt.toNat 5 3
def vtTail (vt : Word) : Bool := vt.getLsbD 6
def vtMskp (vt : Word) : Bool := vt.getLsbD 7
def vtW (vt : Word) : Nat := bits vt.toNat 13 8 + 1
def vtMsx (vt : Word) : Bool := vt.getLsbD 14
def vtMsat (vt : Word) : Bool := vt.getLsbD 15
def vtFfmt (vt : Word) : Nat := bits vt.toNat 18 16

/-- VLMAX (R140). -/
def vlmax (vt : Word) : Nat := 16384 * vtG vt / vtCw vt

/-- A valid VT value (R141). -/
def vtValid (x : Word) : Bool :=
  bits x.toNat 63 19 = 0 && bits x.toNat 2 0 ≤ 3 && bits x.toNat 5 3 ≤ 3 && vtFfmt x ≤ 3 && vtW x ≤ vtCw x

/-- The floating format of the containers, if the pairing of cw and FFMT is allowed (R171). -/
def vtFmt (vt : Word) : Option Fmt :=
  match vtCw vt, vtFfmt vt with
  | 64, _ => some .f64
  | 32, _ => some .f32
  | 16, 0 => some .f16
  | 16, 1 => some .bf16
  | 8, 2 => some .e4m3
  | 8, 3 => some .e5m2
  | _, _ => none

/-- The vector state an instruction reads when it issues (R163). -/
def State.vt (s : State) : Word := s.core.ctl.vt
def State.vl (s : State) : Nat := s.core.ctl.vl.toNat
def State.cw (s : State) : Nat := vtCw s.vt
def State.grp (s : State) : Nat := vtG s.vt
def State.estart (s : State) : Nat := s.core.ctl.estart.toNat
def State.setEstart (s : State) (i : Nat) : State := s.mapCtl fun c => { c with estart := BitVec.ofNat 64 i }
def State.frm (s : State) : Nat := s.core.ctl.frm.toNat
def State.fxrm (s : State) : Nat := s.core.ctl.fxrm.toNat

/-- The rounding mode of operations that are no conversion (R173). -/
def State.rmode (s : State) : Nat := opMode s.frm

/-- The trap enables of FFLAGS (R174). -/
def State.ten (s : State) : Nat := bits s.core.ctl.fflags.toNat 12 8

/-- The flags of FFLAGS, with FXSAT in bit 8. -/
def Ctl.flags (c : Ctl) : Word := (c.fflags &&& 0x1F) ||| (c.fxsat <<< 8)

/-- A sequencer raises flags, FXSAT being bit 8 (R164, R168, R174): it sees them itself, and the other does not need to see
those that are new until the next RDV pair. -/
def Ctl.raise (c : Ctl) (q : SeqId) (fl : Word) : Ctl :=
  let new := fl &&& ~~~c.flags
  { c with
    fflags := c.fflags ||| (fl &&& 0x1F)
    fxsat := c.fxsat ||| (fl >>> 8)
    unseenMain := if q = .main then c.unseenMain &&& ~~~fl else c.unseenMain ||| new
    unseenMatrix := if q = .matrix then c.unseenMatrix &&& ~~~fl else c.unseenMatrix ||| new }

/-- ORs flags into FFLAGS (R174). -/
def State.orFlags (s : State) (fl : Nat) : State := s.mapCtl fun c => c.raise s.cur (BitVec.ofNat 64 (fl % 32))

/-- Sets FXSAT where a result saturated (R168). -/
def State.orSat (s : State) (sat : Bool) : State := if sat then s.mapCtl fun c => c.raise s.cur 0x100 else s

/-- Element i of w bits of a group's contents (R142). -/
def elem (x w i : Nat) : Nat := (x >>> (w * i)) % 2 ^ w

/-- Puts elements of w bits into a group's contents. -/
def setElems (x w : Nat) (es : List (Nat × Nat)) : Nat :=
  es.foldl (fun x e => putBits x (w * e.1 + w - 1) (w * e.1) e.2) x

/-- The contents of n registers from r as the instruction reads them (R57, R142). -/
def State.group (s : State) (r n : Nat) : Nat := joinSlices 16384 ((List.range n).map fun j => (s.v (r + j)).toNat)

/-- The stored contents of n registers from r. -/
def State.groupRaw (s : State) (r n : Nat) : Nat := joinSlices 16384 ((List.range n).map fun j => (s.vRaw (r + j)).toNat)

/-- Writes n registers from r. -/
def State.setGroup (s : State) (r n x : Nat) : State :=
  (List.range n).foldl (fun s j => s.setV (r + j) (BitVec.ofNat 16384 (x >>> (16384 * j)))) s

/-- Raises the mark of register r to cover bit b (R397). -/
def raiseMark (hw : Nat) (m b : Nat) : Nat :=
  putBits hw (4 * m + 3) (4 * m) (max (bits hw (4 * m + 3) (4 * m)) (max 1 ((b + 1024) / 1024 - 1)))

/-- Raises the marks for values in the elements of w bits, named by number, of the registers from r (R161, R189). -/
def Ctl.marked (c : Ctl) (r w : Nat) (is : List Nat) : Ctl :=
  let put (hw half : Nat) : Nat := is.foldl (fun hw i =>
    let p := r + i * w / 16384
    if p / 16 = half then raiseMark hw (p % 16) (i * w % 16384 + w - 1) else hw) hw
  { c with hwea := BitVec.ofNat 64 (put c.hwea.toNat 0), hweb := BitVec.ofNat 64 (put c.hweb.toNat 1) }

def State.mark (s : State) (r w : Nat) (is : List Nat) : State := s.mapCtl fun c => c.marked r w is

/-- Bit i of mask register k as the instruction reads it; k0 in a mask field means unmasked (R144). -/
def State.maskBit (s : State) (k : BitVec 3) (i : Nat) : Bool := k = 0 || (s.k k.toNat).getLsbD i

/-- The active elements from `start` on (R144). -/
def State.active (s : State) (k : BitVec 3) (start : Nat) : List Nat :=
  (List.range s.vl).filter fun i => start ≤ i && s.maskBit k i

/-- The masked-off elements from `start` on (R144). -/
def State.maskedOff (s : State) (k : BitVec 3) (start : Nat) : List Nat :=
  (List.range s.vl).filter fun i => start ≤ i && ! s.maskBit k i

/-- Writes computed elements of w bits into a group of n registers, with its marks. -/
def State.putElems (s : State) (d n w : Nat) (es : List (Nat × Nat)) : State :=
  (s.setGroup d n (setElems (s.groupRaw d n) w es)).mark d w (es.map (·.1))

/-- The masked policy of R145 and R187 for a group: with MSKP = 1 the masked-off elements become zero. -/
def State.maskPolicy (s : State) (d n w : Nat) (off : List Nat) : State :=
  if vtMskp s.vt then s.setGroup d n (setElems (s.groupRaw d n) w (off.map fun i => (i, 0))) else s

/-- The tail policy of R145 and R187: with TAIL = 1 the elements from `first` on become zero. -/
def State.tailPolicy (s : State) (d n w first : Nat) : State :=
  if vtTail s.vt then s.setGroup d n (s.groupRaw d n % 2 ^ (w * first)) else s

/-- A group field names a multiple of its register count, and the group ends at v31 (R142, R186). -/
def groupOk (d : BitVec 5) (n : Nat) : Bool := d.toNat % n = 0 && d.toNat + n ≤ 32

/-- Two groups share a register (R147, R186). -/
def groupsMeet (d : BitVec 5) (n : Nat) (a : BitVec 5) (m : Nat) : Bool := overlaps d.toNat n a.toNat m

/-- What an element operation gives: its value, its floating flags, and whether it saturated. -/
structure Out where
  val : Nat
  flags : Nat := 0
  sat : Bool := false

/-- A floating result as an element result. -/
def FOut.out (r : FOut) : Out := { val := r.bits, flags := r.flags }

/-- The element-wise frame (R187, R188, R175): the active elements from ESTART are computed; `write` stores the results,
`finish` applies the policies. An enabled flag stops at the lowest element that raises one. -/
def State.eachElem (s : State) (len : Nat) (act : List Nat) (op : Nat → Out) (write : State → List (Nat × Nat) → State)
    (finish : State → State) : State :=
  let outs := act.map fun i => (i, op i)
  match outs.find? fun x => x.2.flags &&& s.ten ≠ 0 with
  | none =>
    let s := write s (outs.map fun x => (x.1, x.2.val))
    let s := (s.orFlags (outs.foldl (fun f x => f ||| x.2.flags) 0)).orSat (outs.any fun x => x.2.sat)
    ((finish s).setEstart 0).retire len
  | some bad =>
    let below := outs.filter fun x => x.1 < bad.1
    let s := write s (below.map fun x => (x.1, x.2.val))
    let s := s.orFlags (below.foldl (fun f x => f ||| x.2.flags) bad.2.flags)
    (s.setEstart bad.1).trap ⟨.fpexc, BitVec.ofNat 64 (bad.2.flags &&& s.ten), 0, 0⟩

/-- The frame with a vector destination of n registers and w-bit elements; VMERGE takes no part in MSKP (R187, R193). -/
def State.vecOp (s : State) (len : Nat) (d : BitVec 5) (n w : Nat) (k : BitVec 3) (merge : Bool) (op : Nat → Out) : State :=
  let act := if merge then s.active 0 s.estart else s.active k s.estart
  let off := if merge then [] else s.maskedOff k s.estart
  let vl := s.vl
  s.eachElem len act op (fun s es => s.putElems d.toNat n w es) fun s =>
    ((s.maskPolicy d.toNat n w off).tailPolicy d.toNat n w vl).setLdr .v d.toNat

/-- Writes bits of a mask register. -/
def State.putBitsK (s : State) (d : Nat) (es : List (Nat × Nat)) : State :=
  s.setK d (BitVec.ofNat 16384 (setElems (s.kRaw d).toNat 1 es))

/-- Zeroes the tail bits of a mask register when TAIL = 1 (R196, R219). -/
def State.tailK (s : State) (d vl : Nat) : State :=
  if vtTail s.vt then s.setK d (BitVec.ofNat 16384 ((s.kRaw d).toNat % 2 ^ vl)) else s

/-- The frame with a mask destination (R196). -/
def State.maskOp (s : State) (len : Nat) (d : BitVec 3) (k : BitVec 3) (op : Nat → Out) : State :=
  let off := s.maskedOff k s.estart
  let vl := s.vl
  s.eachElem len (s.active k s.estart) op (fun s es => s.putBitsK d.toNat es) fun s =>
    let s := if vtMskp s.vt then s.putBitsK d.toNat (off.map fun i => (i, 0)) else s
    (s.tailK d.toNat vl).setLdr .k d.toNat

/-- A compact form: its class must be that of LDR, whose register L it works on (R60). -/
def State.compact (s : State) (c : RegClass) (f : BitVec 5 → State) : State :=
  if bits s.seq.ldr.toNat 6 5 = c.code then f (s.seq.ldr.setWidth 5) else s.illop

/-- The immediate of a format I instruction (R48). -/
def imm12 (i : BitVec 12) : Word := i.signExtend 64

/-- One operand of an instruction word: class, first register, how many registers, and whether it is read and written. -/
structure Operand where
  cls : RegClass
  num : Nat
  count : Nat
  src : Bool
  dst : Bool
deriving DecidableEq, Repr

/-- Operands read, written, or both. -/
def rd (c : RegClass) (n : Nat) (count : Nat := 1) : Option Operand := some ⟨c, n, count, true, false⟩
def wr (c : RegClass) (n : Nat) (count : Nat := 1) : Option Operand := some ⟨c, n, count, false, true⟩
def rw (c : RegClass) (n : Nat) (count : Nat := 1) : Option Operand := some ⟨c, n, count, true, true⟩

/-- What an instruction word does with its fields A, B, D and K (R48, R54, R63): their operands, in the order of R56, with a
further register that it writes (the correction of VSMAX); the latency of a fixed-latency result; and whether A, B and D
may be staggered. -/
structure Operands where
  a : Option Operand := none
  b : Option Operand := none
  d : Option Operand := none
  k : Option Operand := none
  x : Option Operand := none
  lat : Option Nat := none
  fixB : Bool := false
  fixD : Bool := false
deriving DecidableEq, Repr

/-- The mask field K as a source; 0 reads no register (R48). -/
def maskOf (w : BitVec 32) : Option Operand := if fK w = 0 then none else rd .k (fK w).toNat

/-- Operands of the two-register integer functions (major 0x00; R54, R68). -/
def operands00 (w : BitVec 32) : Operands :=
  let d := (fD w).toNat
  let a := rd .g (fA w).toNat
  let b := rd .g (fB w).toNat
  let f := (fF w).toNat
  if f ≤ 0x10 then { a := a, b := b, d := wr .g d, lat := some 1 }
  else if f < 0x20 then {}
  else if f ≤ 0x22 then { a := a, b := b, d := wr .g d, lat := some 3 }
  else if f ≤ 0x26 then { a := a, b := b, d := wr .g d }
  else if f < 0x30 then {}
  else if f ≤ 0x32 then { a := a, d := wr .g d, lat := some 1 }
  else if f = 0x34 then { a := a, b := b, d := rw .g d, lat := some 1 }
  else if f ≤ 0x35 then { a := a, b := b, d := wr .g d, lat := some 1 }
  else if 0x40 ≤ f ∧ f ≤ 0x45 then { a := a, d := wr .g d, lat := some 1 }
  else {}

/-- The codes of FCVT with f64 on a side (R54). -/
def cvtF64 (c : Nat) : Bool := [0x00, 0x01, 0x02, 0x03, 0x08, 0x09, 0x10, 0x11, 0x18, 0x19].contains c

/-- Operands of scalar floating point (majors 0x10 to 0x13; R54, R68). -/
def operandsFp (maj : Nat) (w : BitVec 32) : Operands :=
  let d := (fD w).toNat
  let a := rd .g (fA w).toNat
  let b := rd .g (fB w).toNat
  let op := (fF w).toNat / 4
  let lat := some (if (fF w).toNat % 4 = 0 then 6 else 4)
  match maj with
  | 0x10 =>
    if op = 3 then { a := a, b := b, d := wr .g d }
    else if op = 4 then { a := a, d := wr .g d }
    else if op ≤ 6 then { a := a, b := b, d := wr .g d, lat := lat } else {}
  | 0x11 => if op = 0 then { a := a, b := b, d := rw .g d, lat := lat } else {}
  | 0x12 => if op ≤ 3 then { a := a, b := b, d := wr .g d, lat := lat } else {}
  | _ =>
    if op = 0 then { a := a, d := wr .g d, lat := some (if cvtF64 (fB w).toNat then 6 else 4) }
    else if op = 1 then { a := a, d := wr .g d, lat := some 1 } else {}

/-- Operand B of a vector form: a group, or a scalar; the immediate form reads none (R185). -/
def formB (form : Nat) (w : BitVec 32) (n : Nat) : Option Operand :=
  match form with
  | 0 => rd .v (fB w).toNat n
  | 1 => rd .g (fB w).toNat
  | _ => none

/-- The latency of a vector instruction whose largest group has n registers (R54). -/
def vlat (l p n : Nat) : Option Nat := some (l + (n - 1) * p)

/-- Operands of vector integer group A (R191). form 0 .vv, 1 .vs, 2 .vi. -/
def operandsA (g form : Nat) (w : BitVec 32) : Operands :=
  let op := (fOp w).toNat
  let d := wr .v (fD w).toNat g
  let k := maskOf w
  if op = 15 then (if form = 2 then { d := d, k := k, lat := vlat 4 1 g } else {})
  else if op = 14 then { b := formB form w g, d := d, k := k, lat := vlat 4 1 g }
  else { a := rd .v (fA w).toNat g, b := formB form w g, d := d, k := k, lat := vlat 4 1 g }

/-- Operands of vector integer group B (R194). -/
def operandsB (g form : Nat) (w : BitVec 32) : Operands :=
  let op := (fOp w).toNat
  let d := (fD w).toNat
  let o : Operands := { a := rd .v (fA w).toNat g, b := formB form w g, k := maskOf w }
  if op = 3 ∨ op = 4 then { o with d := rw .v d g, lat := vlat 6 1 g }
  else if op = 5 ∨ op = 6 then { o with d := wr .v d (2 * g), lat := vlat 6 1 (2 * g) }
  else if op = 7 ∨ op = 8 then { o with d := rw .v d (2 * g), lat := vlat 6 1 (2 * g) }
  else if op = 9 ∨ op = 10 then { o with d := wr .v d g }
  else { o with d := wr .v d g, lat := vlat 6 1 g }

/-- Operands of vector integer group C (R195, R196). -/
def operandsC (g form : Nat) (w : BitVec 32) : Operands :=
  let op := (fOp w).toNat
  let d := (fD w).toNat
  let o : Operands := { a := rd .v (fA w).toNat g, b := formB form w g, k := maskOf w }
  if op ≤ 1 then { o with d := wr .v d g, lat := vlat 6 1 g }
  else if op = 2 then
    { a := rd .v (fA w).toNat (2 * g), b := formB form w (2 * g), d := wr .v d g, k := maskOf w, lat := vlat 6 1 (2 * g) }
  else if op ≤ 4 then { o with d := wr .v d g, lat := vlat 4 1 g }
  else if op < 8 then {}
  else { o with d := wr .k d, lat := vlat 4 1 g }

/-- Operands of vector floating point (R197-R202). -/
def operandsF (vt : Word) (form : Nat) (w : BitVec 32) : Operands :=
  let g := vtG vt
  let cw := vtCw vt
  let op := (fOp w).toNat
  let d := (fD w).toNat
  let fl (wide : Bool) (n : Nat) : Option Nat := if cw = 64 ∨ (wide ∧ cw = 32) then vlat 9 4 n else vlat 6 1 n
  let a := rd .v (fA w).toNat g
  let o : Operands := { a := a, b := formB form w g, k := maskOf w }
  let u : Operands := { a := a, d := wr .v d g, k := maskOf w }
  if op = 3 then { o with d := wr .v d g }
  else if op = 4 ∨ op = 5 then { o with d := rw .v d g, lat := fl false g }
  else if op ≤ 7 then { o with d := wr .v d g, lat := fl false g }
  else if op = 15 then { o with d := wr .k (d % 8), lat := fl false g, fixD := true }
  else if form = 1 then {}
  else if op ≤ 10 then u
  else if op ≤ 12 then { u with lat := fl false g }
  else if op = 13 then
    let c := (fB w).toNat
    if c ≤ 1 then { u with d := wr .v d (2 * g), lat := fl true (2 * g) }
    else if c ≤ 3 then { u with a := rd .v (fA w).toNat (2 * g), lat := fl true (2 * g) }
    else { u with lat := fl false g }
  else { a := a, b := wr .v (fB w).toNat, d := wr .v d, lat := vlat 8 2 g }

/-- Operands of reductions, scans, VSMAX and permutations (R206). -/
def operands25 (g : Nat) (w : BitVec 32) : Operands :=
  let op := (fOp w).toNat
  let d := (fD w).toNat
  let seg := (fB w).toNat % 8
  let b : Option Operand := if seg = 0 then none else rd .k seg
  let va := rd .v (fA w).toNat g
  let gb := rd .g (fB w).toNat
  let k := maskOf w
  if op ≤ 4 then { a := va, b := b, d := if seg = 0 then wr .g d else wr .v d g, k := k, lat := vlat 12 2 g }
  else if op ≤ 6 then { a := va, b := b, d := wr .v d g, k := k, lat := vlat 12 2 g, fixB := true }
  else match op with
  | 7 => { a := va, b := rw .g (fB w).toNat, d := wr .v d g, k := k, x := wr .g ((fB w).toNat + 1), lat := vlat 16 2 g }
  | 8 => { a := va, b := gb, d := wr .v d g, k := k, lat := vlat 4 1 g }
  | 9 => { a := va, b := gb, d := wr .v d g, k := k, lat := vlat 4 1 g }
  | 10 => { a := va, b := rd .v (fB w).toNat g, d := wr .v d g, k := k }
  | 11 => { a := va, b := rd .k (fB w).toNat, d := wr .v d g }
  | 12 => { a := rd .k (fA w).toNat, d := wr .v d g, k := k, lat := vlat 4 1 g }
  | 13 => { a := va, b := gb, d := wr .g d, lat := vlat 4 1 g }
  | 14 => { a := rd .g (fA w).toNat, b := gb, d := wr .v d g, lat := vlat 4 1 g }
  | _ => {}

/-- Operands of the mask instructions (R206). -/
def operands26 (w : BitVec 32) : Operands :=
  let op := (fOp w).toNat
  let d := (fD w).toNat
  let a := rd .k (fA w).toNat
  if op ≤ 3 then { a := a, b := rd .k (fB w).toNat, d := wr .k d, lat := some 1 }
  else if op = 4 ∨ op = 8 then { a := a, d := wr .k d, lat := some 1 }
  else if op ≤ 6 then { a := a, d := wr .g d, k := maskOf w, lat := some 2 }
  else if op = 7 then { a := rd .g (fA w).toNat, d := wr .k d, lat := some 1 }
  else {}

/-- Operands of atomics (R340-R343). -/
def operands16 (g : Nat) (w : BitVec 32) : Operands :=
  let d := (fD w).toNat
  let a := rd .g (fA w).toNat
  match (fOp w).toNat with
  | 0 => { a := a, b := rd .g (fB w).toNat, d := wr .g d }
  | 1 => { a := a, b := rd .g (fB w).toNat, d := rw .g d }
  | 2 =>
    let k := (fW w).toNat
    { a := a, b := rd .v (fB w).toNat g, d := rw .v d g, k := if k = 0 then none else rd .k k }
  | 3 => { a := a, d := rw .v d g, k := maskOf w }
  | _ => {}

/-- Operands of guards, fences and barriers (R252, R328). -/
def operands17 (w : BitVec 32) : Operands :=
  let d := (fD w).toNat
  let a := rd .g (fA w).toNat
  let b := rd .g (fB w).toNat
  match (fOp w).toNat with
  | 0 => { a := a, b := b, d := wr .g d }
  | 1 => { a := a, d := wr .g d }
  | 2 => { a := a, b := b, d := rd .g d }
  | 3 => { a := a }
  | 7 => { a := a }
  | 8 => { a := a, b := b }
  | 9 => { a := a, b := b }
  | _ => {}

/-- Operands of vector loads and stores (R146). -/
def operandsMem (g : Nat) (load : Bool) (w : BitVec 32) : Operands :=
  let op := (fOp w).toNat
  let n := if op = 3 then g * ((fB w).toNat + 1) else g
  let b : Option Operand := if op = 1 then rd .g (fB w).toNat else if op = 2 then rd .v (fB w).toNat g else none
  let d := (fD w).toNat
  { a := rd .g (fA w).toNat, b := b, d := if load then wr .v d n else rd .v d n, k := maskOf w }

/-- Operands of the matrix instructions (R254, R268). -/
def operands30 (w : BitVec 32) : Operands :=
  let a := rd .g (fA w).toNat
  match (fOp w).toNat with
  | 1 => { a := a, b := rd .g (fB w).toNat }
  | 2 => { a := a }
  | 4 => { a := a }
  | 5 => { a := a, b := rd .g (fB w).toNat }
  | 6 => if w.getLsbD 27 then { a := rd .v (fA w).toNat } else { d := wr .v (fD w).toNat }
  | _ => {}

/-- Operands of versioned, stream, task, network and encoder instructions. -/
def operandsSys (maj g : Nat) (w : BitVec 32) : Operands :=
  let d := (fD w).toNat
  let a := rd .g (fA w).toNat
  let b := rd .g (fB w).toNat
  match maj, (fOp w).toNat with
  | 0x28, 0 => { a := a, b := b, d := wr .g d (if w.getLsbD 26 then 2 else 1) }
  | 0x28, 1 => { a := a, b := b, d := rd .g d }
  | 0x28, 2 => { a := a, b := b, d := wr .v d g, k := maskOf w }
  | 0x28, 3 => { a := a, b := b, d := rd .v d g, k := maskOf w }
  | 0x29, 0 => { a := a, d := wr .g d }
  | 0x29, 1 => { a := a, b := b }
  | 0x29, 2 => { a := a, b := b, d := wr .g d }
  | 0x29, 3 => { a := a, d := wr .g d }
  | 0x2C, 0 => { a := a, b := rd .g (fB w).toNat 3 }
  | 0x2C, 2 => { d := wr .g d }
  | 0x36, 0 => { a := a, d := wr .g d }
  | 0x36, 1 => { a := a, d := wr .g d }
  | 0x36, 3 => { d := wr .g d }
  | 0x37, 0 => { a := rd .g (fA w).toNat 6, d := wr .g d }
  | 0x37, 1 => { a := a, b := b, d := wr .g d }
  | 0x37, 2 => { a := a, d := wr .g d }
  | _, _ => {}

/-- Operands of a 32-bit instruction word under VT (R48, R54, R66, R68). -/
def operands (vt : Word) (w : BitVec 32) : Operands :=
  let maj := (w.extractLsb' 1 6).toNat
  let d := (fD w).toNat
  let a := rd .g (fA w).toNat
  let b := rd .g (fB w).toNat
  let g := vtG vt
  if maj = 0 then operands00 w
  else if maj ≤ 5 then { a := a, d := wr .g d, lat := some 1 }
  else match maj with
  | 0x06 => { d := if w.getLsbD 12 then rw .g d else wr .g d, lat := some 1 }
  | 0x08 => { a := a, b := b, d := wr .g d }
  | 0x09 => { a := a, b := b, d := rd .g d }
  | 0x0A => { a := a, b := b, d := if d = 0 then none else wr .g d }
  | 0x0B =>
    let f := (fF w).toNat
    if f = 0 then { a := a, d := wr .g d, lat := some 1 }
    else if f < 8 then { a := a, b := b } else { d := wr .g d, lat := some 1 }
  | 0x0C => { a := a, b := b }
  | 0x0D => { d := wr .g d, lat := some 1 }
  | 0x0E => { a := a, d := wr .g d, lat := some 1 }
  | 0x0F => if fOp w = 0 then { a := a } else {}
  | 0x10 => operandsFp 0x10 w
  | 0x11 => operandsFp 0x11 w
  | 0x12 => operandsFp 0x12 w
  | 0x13 => operandsFp 0x13 w
  | 0x14 => if fW w = 0 then { d := wr .g d } else { a := a, d := wr .g d }
  | 0x15 =>
    match (fOp w).toNat with
    | 2 => { a := a, b := b, d := wr .g d }
    | 3 => if w.extractLsb' 26 2 = 0 then { a := a, b := b } else if w.extractLsb' 26 2 = 1 then { b := b } else {}
    | 4 => { a := a, b := b }
    | 5 => { a := a, b := b }
    | 6 => { a := a, b := b }
    | _ => {}
  | 0x16 => operands16 g w
  | 0x17 => operands17 w
  | 0x18 => { a := a, d := wr .g d }
  | 0x19 => operandsMem g true w
  | 0x1A => operandsMem g false w
  | 0x1B => operandsA g 0 w
  | 0x1C => operandsA g 1 w
  | 0x1D => operandsA g 2 w
  | 0x1E => operandsB g 0 w
  | 0x1F => operandsB g 1 w
  | 0x20 => operandsC g 0 w
  | 0x21 => operandsC g 1 w
  | 0x22 => operandsC g 2 w
  | 0x23 => operandsF vt 0 w
  | 0x24 => operandsF vt 1 w
  | 0x25 => operands25 g w
  | 0x26 => operands26 w
  | 0x30 => operands30 w
  | m => operandsSys m g w

/-- The stall count W of an instruction word (R52): only the R, I and V formats carry it. -/
def stallOf (w : BitVec 32) : Nat :=
  let maj := (w.extractLsb' 1 6).toNat
  if maj ≤ 5 ∨ maj = 0x0B ∨ maj = 0x0E ∨ (0x10 ≤ maj ∧ maj ≤ 0x13) ∨ maj = 0x18 ∨ (0x1B ≤ maj ∧ maj ≤ 0x26)
  then (fW w).toNat else 0

/-- A word of the R, I or V format from its fields, with W = 0. -/
def expandR (f : BitVec 7) (b a d : BitVec 5) (maj : BitVec 6) : BitVec 32 := f ++ 0#3 ++ b ++ a ++ d ++ maj ++ 1#1

/-- The 32-bit expansion of a compact form on register L (R61), for its operands and latency. -/
def expandCompact (w : BitVec 16) (l : BitVec 5) : Option (BitVec 32) :=
  let p := w.extractLsb' 6 5
  let q := w.extractLsb' 11 5
  let i := (q ++ p).signExtend 12
  let imm (a : BitVec 5) : BitVec 32 := i.extractLsb' 5 7 ++ 0#3 ++ i.extractLsb' 0 5 ++ a ++ l ++ 1#6 ++ 1#1
  match (w.extractLsb' 1 5).toNat with
  | 0x01 => some (expandR 0x00 p l l 0)
  | 0x02 => some (expandR 0x01 p l l 0)
  | 0x03 => some (expandR 0x02 p l l 0)
  | 0x04 => some (expandR 0x03 p l l 0)
  | 0x05 => some (expandR 0x04 p l l 0)
  | 0x06 => some (expandR 0x20 p l l 0)
  | 0x07 => some (imm l)
  | 0x08 => some (imm 0)
  | 0x09 => some (expandR 0x40 q l l 0)
  | 0x0A => some (expandR 0x42 q l l 0)
  | 0x0B => some (expandR 0x44 q l l 0)
  | 0x0C => some (expandR 0x00 0 p l 0)
  | 0x0D => some (expandR 0x0D p l l 0)
  | 0x0E => some (expandR 0x0E p l l 0)
  | 0x10 => some (expandR 0x00 p l l 0x1B)
  | 0x11 => some (expandR 0x08 p l l 0x1B)
  | 0x12 => some (expandR 0x18 p l l 0x1B)
  | 0x13 => some (expandR 0x20 p l l 0x1B)
  | 0x14 => some (expandR 0x28 p l l 0x1B)
  | 0x15 => some (expandR 0x00 p l l 0x1E)
  | 0x16 => some (expandR 0x18 q p l 0x1E)
  | 0x17 => some (expandR 0x00 p l l 0x1C)
  | 0x18 => some (expandR 0x00 p l l 0x1F)
  | 0x19 => some (expandR 0x00 p l l 0x23)
  | 0x1A => some (expandR 0x10 p l l 0x23)
  | 0x1B => some (expandR 0x20 q p l 0x23)
  | 0x1C => some (expandR 0x20 q p l 0x24)
  | 0x1D => some (expandR 0x00 p l l 0x24)
  | _ => none

end Sys2Proof.Machine
end

