-- ==== Sys2Proof/Machine/Fetch.lean ====
section
/-! DEFINITION. Fetching an instruction's parcels (R19, R47) and capturing and checking a repeat frame (R63, R65). -/

namespace Sys2Proof.Machine

/-- A fetch needs execute permission in the page entry, and takes no other permission (R19, R41). -/
def State.fetchPage (s : State) (va w : Nat) : Except Trap (Nat × Nat) :=
  match s.page s.via va w false with
  | some r => .ok r
  | none => .error ⟨s.walkCause s.via.root va, BitVec.ofNat 64 va, 0, 0⟩

/-- The bits of a segment as an instruction cache may hold them: of each bit that a write changed since the last CLINV of its line,
any value it has had (R104, R405; log 13). -/
def State.fetchSeg (s : State) (g : Seg) : Nat := s.readSegConst 0 g

/-- The permission of a fetched page and its bits (R41, R304, R351, R382). -/
def State.fetchBits (s : State) (va w : Nat) (r : Nat × Nat) : Except Trap Nat :=
  if bits r.1 3 3 = 0 then .error ⟨.perm, BitVec.ofNat 64 va, 0, 0⟩ else
  match s.permit s.via { kinds := [0], rd := false, wr := false } 0 r.1 r.2 w with
  | some x => .error ⟨x, BitVec.ofNat 64 va, 0, 0⟩
  | none => .ok (s.fetchSeg (pageSeg r.1 r.2 w))

/-- The parcel of a page that may not be executed, as far as it decides the instruction's length (R46, R47). -/
def State.peekLong (s : State) (r : Nat × Nat) : Bool := s.fetchSeg (pageSeg r.1 r.2 16) % 2 = 1

/-- Fetches the instruction at va: its word, or its parcel zero-extended, and its length (R47). Where it lies on two pages,
both are translated before the permission of either is tested (R46). -/
def State.fetchAt (s : State) (va : BitVec 58) : Except Trap (BitVec 32 × Nat) :=
  let a := va.toNat
  match s.fetchPage a 16 with
  | .error t => .error t
  | .ok r1 =>
    if s.peekLong r1 = false then (s.fetchBits a 16 r1).map fun x => (BitVec.ofNat 32 x, 16)
    else if a + 32 > 2 ^ 58 then .error ⟨.addr, BitVec.ofNat 64 a, 0, 0⟩
    else
      match s.fetchPage (a + 16) 16 with
      | .error t => .error t
      | .ok r2 =>
        match s.fetchBits a 16 r1, s.fetchBits (a + 16) 16 r2 with
        | .error t, _ => .error t
        | _, .error t => .error t
        | .ok x, .ok y => .ok (BitVec.ofNat 32 (x + y <<< 16), 32)

/-- The addresses, words and lengths of n instructions from va (R63). -/
def State.capture (s : State) (va : BitVec 58) : Nat → Except Trap (List (BitVec 58 × BitVec 32 × Nat))
  | 0 => .ok []
  | n + 1 =>
    match s.fetchAt va with
    | .error t => .error t
    | .ok (w, len) => (s.capture (va + BitVec.ofNat 58 len) n).map fun rest => (va, w, len) :: rest

/-- The arithmetic majors (R63). -/
def arithMajor (w : BitVec 32) : Bool :=
  let m := (w.extractLsb' 1 6).toNat
  m ≤ 6 || (0x10 ≤ m && m ≤ 0x13) || (0x1B ≤ m && m ≤ 0x26)

/-- The highest number of a register class. -/
def RegClass.last : RegClass → Nat
  | .k => 7
  | _ => 31

/-- The operands of a word that is an instruction; any other word uses no field. -/
def usedBy (vt : Word) (w : BitVec 32) : Operands := if isInstr32 w then operands vt w else {}

/-- The fields that SM staggers, with the limit of each (R63): whether D, A and B are. -/
def staggered (vt : Word) (sm : BitVec 3) (w : BitVec 32) : List (Nat × RegClass) :=
  let o := usedBy vt w
  let one (bit : Nat) (fixed : Bool) (x : Option Operand) : List (Nat × RegClass) :=
    match x with
    | some p => if sm.getLsbD bit && ! fixed then [(bit, p.cls)] else []
    | none => []
  one 0 o.fixD o.d ++ one 1 false o.a ++ one 2 o.fixB o.b

/-- The field that a bit of SM names: 0 D, 1 A, 2 B. -/
def smField (w : BitVec 32) : Nat → Nat
  | 0 => (fD w).toNat
  | 1 => (fA w).toNat
  | _ => (fB w).toNat

/-- A word with its staggered fields moved on by `by_` (R64). -/
def staggerWord (vt : Word) (sm : BitVec 3) (by_ : Nat) (w : BitVec 32) : BitVec 32 :=
  (staggered vt sm w).foldl (fun w x => w + BitVec.ofNat 32 (by_ <<< (7 + 5 * x.1))) w

/-- The reason for which one captured instruction fails the checks of R63. -/
def frameFault (vt : Word) (f : Frame) (ends : List Nat) (x : BitVec 58 × BitVec 32 × Nat) : Option Nat :=
  let (va, w, len) := x
  if len = 16 ∨ ¬ arithMajor w then some 0
  else if (staggered vt f.sm w).any fun y => y.2.last < smField w y.1 + (f.passes - 1) * f.step then some 1
  else if ends.any fun e => va.toNat ≤ e ∧ e < va.toNat + len then some 2
  else none

/-- The first failing instruction of a frame: its index, its word and the reason. -/
def frameCheck (vt : Word) (f : Frame) (ends : List Nat) :
    Nat → List (BitVec 58 × BitVec 32 × Nat) → Option (Nat × BitVec 32 × Nat)
  | _, [] => none
  | j, x :: xs =>
    match frameFault vt f ends x with
    | some r => some (j, x.2.1, r)
    | none => frameCheck vt f ends (j + 1) xs

/-- TVAL of ILLFRAME (R63). -/
def frameValue (j : Nat) (w : BitVec 32) (reason : Nat) : Word :=
  BitVec.ofNat 64 (w.toNat + j <<< 32 + reason <<< 36)

/-- The end addresses of the loop frames in use (R130). -/
def Seq.loopEnds (q : Seq) : List Nat := (List.range q.depth.toNat).map fun k => (q.le[k]?.getD 0).toNat

/-- Captures and checks the frame of the RPT word at `base` (R63). -/
def State.openFrame (s : State) (base : BitVec 58) (passes step : Nat) (sm : BitVec 3) : Except Trap Frame :=
  match s.capture (base + 32) 16 with
  | .error t => .error t
  | .ok xs =>
    let f : Frame := { base := base, passes := passes, step := step, sm := sm, words := xs.map fun x => x.2.1, pos := 0 }
    match frameCheck s.vt f s.seq.loopEnds 0 xs with
    | some (j, w, r) => .error ⟨.illframe, frameValue j w r, 0, 0⟩
    | none => .ok f

/-- Whether a word is an RPT (R62). -/
def isRpt (w : BitVec 32) : Bool := w &&& 0xF0000FFF#32 = 0x3000001F#32

/-- The frame resumption of ERET (R65): refetches the RPT at RPBASE, recaptures its frame and gives it at POS. -/
def State.resumeFrame (s : State) : Except Trap Frame :=
  let base : BitVec 58 := s.seq.rpbase.setWidth 58
  let idx := bits s.seq.rpidx.toNat 9 0
  match s.fetchAt base with
  | .error t => .error t
  | .ok (w, _) =>
    let cnt := (w.extractLsb' 12 10).toNat
    if ¬ isRpt w ∨ cnt < idx then .error ⟨.illframe, frameValue 0 w 3, 0, 0⟩
    else
      (s.openFrame base (cnt + 1) (w.extractLsb' 22 3).toNat (w.extractLsb' 25 3)).map fun f =>
        { f with pos := bits s.seq.rpidx.toNat 13 10 }

end Sys2Proof.Machine
end

