-- ==== Sys2Proof/Machine/Flight.lean ====
section
/-! DEFINITION. What is in flight on a sequencer (R55, R391): what an instruction reads and writes, when the scoreboard holds it
(R135, R152, R225, R226, R252, R269, R352), the declared-distance record (R53), and what a stop leaves of an instruction in
flight (R138, R162, R204, R224, R273, R319, R376, R392). -/

namespace Sys2Proof.Machine

/-- The major opcode of a word (R66). -/
def majorOf (w : BitVec 32) : Nat := (w.extractLsb' 1 6).toNat

/-- The registers of an operand. -/
def Operand.regs (o : Operand) : List (RegClass × Nat) := (List.range o.count).map fun j => (o.cls, o.num + j)

/-- The operands in the order of R56. -/
def Operands.all (o : Operands) : List Operand := [o.a, o.b, o.d, o.k, o.x].filterMap id

/-- The registers read, in the order in which R56 names them. -/
def Operands.sources (o : Operands) : List (RegClass × Nat) := (o.all.filter Operand.src).flatMap Operand.regs

/-- The registers written. -/
def Operands.dests (o : Operands) : List (RegClass × Nat) := (o.all.filter Operand.dst).flatMap Operand.regs

/-- The word of what is issued: a compact form stands for its expansion, on the register of LDR where it has one (R60). -/
def State.fullWord (s : State) (w : BitVec 32) (len : Nat) : BitVec 32 :=
  if len = 32 then w else (expandCompact (w.setWidth 16) (s.seq.ldr.setWidth 5)).getD w

/-- Whether a word is a vector instruction, which starts at ESTART (R145, R187). -/
def isVector (w : BitVec 32) : Bool :=
  let m := majorOf w
  (0x19 ≤ m && m ≤ 0x24) || (m = 0x16 && fOp w = 2) || (m = 0x28 && (fOp w = 2 || fOp w = 3))

/-- The vector word of an instruction: a compact form stands for its expansion on the register of LDR (R60). -/
def State.vectorWord (s : State) (w : BitVec 32) (len : Nat) : Option (BitVec 32) :=
  if len = 32 then (if isVector w then some w else none)
  else (expandCompact (w.setWidth 16) (s.seq.ldr.setWidth 5)).filter fun x =>
    isVector x && bits s.seq.ldr.toNat 6 5 = RegClass.v.code

/-- The length of the instruction of a replay entry (R47). -/
def Replay.len (e : Replay) : Nat := if e.word.getLsbD 0 then 32 else 16

/-- The operands of what is issued; a compact form has those of its expansion, if its class is that of LDR (R60). -/
def State.issueOperands (s : State) (w : BitVec 32) (len : Nat) : Operands :=
  if len = 32 then operands s.vt w else
  let p : BitVec 16 := w.setWidth 16
  match expandCompact p (s.seq.ldr.setWidth 5) with
  | none => {}
  | some x =>
    let cls := if (p.extractLsb' 1 5).toNat < 0x10 then RegClass.g else RegClass.v
    if bits s.seq.ldr.toNat 6 5 = cls.code then operands s.vt x else {}

/-- Majors whose instructions of variable latency stay in flight (R54, R55). CTL, SETVL and SETVT serialise, so they never do. -/
def trackedMajors : List Nat :=
  [0x00, 0x08, 0x09, 0x0A, 0x0B, 0x10, 0x15, 0x16, 0x17, 0x19, 0x1A, 0x1E, 0x1F, 0x23, 0x24, 0x25, 0x28, 0x29, 0x2C, 0x30, 0x36, 0x37]

/-- VLDFF (R153) and VLD.WC (R154). -/
def isVldff (w : BitVec 32) : Bool := majorOf w = 0x19 && fOp w = 4
def isVldWc (w : BitVec 32) : Bool := majorOf w = 0x19 && fOp w = 5

/-- FORK (R135), ERET (R390), RDV and RDV.END (R136), STRM (R225), BARREL (R226), a FENCE of kind .acq or .full (R335) and CFENCE
(R337). -/
def isFork (w : BitVec 32) : Bool := w &&& 0xF000007F#32 = 0x4000001F#32
def isEret (w : BitVec 32) : Bool := majorOf w = 0x15 && fOp w = 1
def isRdv (w : BitVec 32) : Bool := w &&& 0xF000007F#32 = 0x5000001F#32
def isStrm (w : BitVec 32) : Bool := majorOf w = 0x2C && fOp w = 0
def isBarrel (w : BitVec 32) : Bool := majorOf w = 0x17 && fOp w = 9
def isAcquireFence (w : BitVec 32) : Bool := majorOf w = 0x17 && fOp w = 4 && w.getLsbD 25
def isCfence (w : BitVec 32) : Bool := majorOf w = 0x17 && fOp w = 6

/-- The versioned instructions (R317), and the loads among them that acquire (R298). -/
def isVersioned (w : BitVec 32) : Bool := majorOf w = 0x28 || majorOf w = 0x29
def acquires (w : BitVec 32) : Bool := majorOf w = 0x28 && ((fOp w = 0 && w.getLsbD 27) || (fOp w = 2 && w.getLsbD 24))

/-- An instruction that issues only once nothing of its sequencer is in flight (R55, R135, R163, R352, R390): so no control register
that an older one reads is changed, but for the flags and marks that are only added to, LDR and ESTART (R391; DEDUCED, log 47). -/
def serialises (w : BitVec 32) : Bool := majorOf w = 0x14 || majorOf w = 0x18 || isFork w || isEret w || isVldff w

/-- Whether an instruction stays in flight after it is performed: a VLDFF serialises (R352), and a VLD.WC enters its own wait
(R155). -/
def tracked (w : BitVec 32) : Bool := trackedMajors.contains (majorOf w) && ! isVldff w && ! isVldWc w && ! isEret w

/-- A memory read or an atomic (R391); TENQ reads its image by plain loads (R370). -/
def readsMemory (w : BitVec 32) : Bool :=
  match majorOf w, (fOp w).toNat with
  | 0x08, _ => true
  | 0x0A, _ => true
  | 0x15, op => op = 2
  | 0x16, _ => true
  | 0x17, op => op ≤ 1
  | 0x19, _ => true
  | 0x28, op => op = 0 || op = 2
  | 0x29, op => op = 0
  | 0x30, op => op = 1 || op = 2 || op = 4
  | 0x36, op => op ≤ 1
  | 0x37, _ => true
  | _, _ => false

/-- A memory write (R391). -/
def writesMemory (w : BitVec 32) : Bool :=
  match majorOf w, (fOp w).toNat with
  | 0x09, _ => true
  | 0x16, _ => true
  | 0x17, op => op = 1
  | 0x1A, _ => true
  | 0x28, op => op = 1 || op = 3
  | 0x30, op => op = 5
  | _, _ => false

/-- A memory, barrier or stream instruction: a STRM waits for it (R225), and it for a load that acquires (R298, R336). -/
def beforeStream (w : BitVec 32) : Bool :=
  readsMemory w || writesMemory w || majorOf w = 0x15 || majorOf w = 0x17 || majorOf w = 0x28 || majorOf w = 0x29 || majorOf w = 0x2C

/-- Whether a word's field A is the tagged address of what it accesses (R34). -/
def taggedA (w : BitVec 32) : Bool :=
  match majorOf w, (fOp w).toNat with
  | 0x0B, _ => (fF w).toNat ≠ 0 && (fF w).toNat < 8
  | 0x15, op => op = 2 || (4 ≤ op && op ≤ 6)
  | 0x17, op => op ≤ 3 || 7 ≤ op
  | 0x2C, op => op = 0
  | 0x30, op => op = 1 || op = 2 || op = 4 || op = 5
  | 0x36, op => op ≤ 1
  | m, _ => [0x08, 0x09, 0x0A, 0x16, 0x19, 0x1A, 0x28, 0x29, 0x37].contains m

/-- The extent registers that an instruction reads (R34): all of them where its task's extents are handed on (R225, R421). -/
def State.readsExtents (s : State) (w : BitVec 32) : List Nat :=
  if isStrm w ∨ majorOf w = 0x37 then List.range 16
  else if majorOf w = 0x0B ∧ 8 ≤ (fF w).toNat then [(fB w).toNat]
  else if taggedA w then tagOf (s.g (fA w)) :: (if majorOf w = 0x17 ∧ fOp w = 2 then [tagOf (s.g (fD w))] else [])
  else []

/-- What a matrix instruction reads and writes of the matrix unit (R254, R269). -/
def matrixUses (w : BitVec 32) : List Res × List Res :=
  let d := (fD w).toNat % 8
  match (fOp w).toNat with
  | 0 => ([], [.tile d])
  | 1 => ([], [.bufA])
  | 2 => ([], [.bufB])
  | 3 => ([.tile d, .bufA, .bufB], [.tile d])
  | 4 => ([.tile d], [.tile d])
  | 5 => ([.tile d], [])
  | _ => if w.getLsbD 27 then ([.tile d], [.tile d]) else ([.tile ((fA w).toNat % 8)], [])

/-- Registers as resources; g0 is none. -/
def regsOf (xs : List (RegClass × Nat)) : List Res := (xs.filter fun r => r ≠ (.g, 0)).map fun r => .reg r.1 r.2

/-- What a 32-bit instruction reads and writes. -/
def State.uses (s : State) (w : BitVec 32) (len : Nat) (o : Operands) : List Res × List Res :=
  if len = 16 then (regsOf o.sources, regsOf o.dests) else
  let m := if majorOf w = 0x30 then matrixUses w else ([], [])
  let e := if majorOf w = 0x0B ∧ (fF w).toNat ≠ 0 ∧ (fF w).toNat < 8 then [Res.ext (fD w).toNat] else []
  (regsOf o.sources ++ (s.readsExtents w).map .ext ++ m.1, regsOf o.dests ++ e ++ m.2)

/-- Two lists of resources share one. -/
def meets (xs ys : List Res) : Bool := xs.any ys.contains

/-- An instruction in flight stands in the way of the given reads and writes (R55, R152, R391): it still owes what would be read, or
it reads or writes, a group that is complete too, what would be written. Its scalar sources are captured (R393), so it reads none
(R269). -/
def InFlight.blocks (x : InFlight) (u : List Res × List Res) : Bool :=
  meets x.owes.flatten u.1 || meets (x.dests ++ x.reads) u.2

/-- The window that a kind-W access goes through (R226, R252). -/
def State.windowOf? (s : State) (w : BitVec 32) : Option Nat :=
  let x := (s.extents[tagOf (s.g (fA w))]?).getD 0
  if taggedA w ∧ extKind x = 2 then some (extTidx x) else none

/-- The plain loads and matrix loads that a BARREL waits for (R226, R252). -/
def loadsWindow (w : BitVec 32) : Bool := majorOf w = 0x08 || majorOf w = 0x19 || (majorOf w = 0x30 && (fOp w = 1 || fOp w = 2))

/-- An instruction in flight reads through the constant path (R113, R158, R270). -/
def State.readsConstant (s : State) (x : InFlight) : Bool :=
  match majorOf x.word, (fOp x.word).toNat with
  | 0x0A, _ => fD x.word ≠ 0
  | 0x19, op => op = 6
  | 0x30, op => (op = 1 || op = 2 || op = 4) && extKind ((s.extents[tagOf x.ga]?).getD 0) = 4
  | _, _ => false

/-- The scoreboard holds an instruction of a sequencer behind what is in flight there, for the reads and writes u (R55, R135,
R163, R225, R226, R252, R317, R335 to R337, R391). At an RDV everything earlier is complete, as each side then sees it (R137, R152,
R269). -/
def State.heldFor (s : State) (w : BitVec 32) (len : Nat) (u : List Res × List Res) : Bool :=
  let fl := s.seq.inFlight
  8 ≤ fl.length || fl.any (·.blocks u) ||
  (len = 32 && ((serialises w && ! fl.isEmpty) ||
    (writesMemory w && fl.any fun x => readsMemory x.word) ||
    (isRdv w && ! fl.isEmpty) ||
    (isVersioned w && fl.any fun x => isVersioned x.word) ||
    (isAcquireFence w && fl.any fun x => readsMemory x.word) ||
    (beforeStream w && fl.any fun x => acquires x.word) ||
    (isCfence w && fl.any s.readsConstant) ||
    (isStrm w && fl.any fun x => beforeStream x.word) ||
    (isBarrel w && fl.any fun x => x.chain.isNone && loadsWindow x.word && x.window.isSome && x.window == s.windowOf? w)))

def State.held (s : State) (w : BitVec 32) (len : Nat) (o : Operands) : Bool := s.heldFor w len (s.uses w len o)

/-- The oldest instruction in flight that does not wait for a window completes. -/
def dropOldest : List InFlight → List InFlight
  | [] => []
  | x :: xs => if x.chain.isSome then x :: dropOldest xs else xs

/-- What is left of an instruction in flight once its next element group, or all of it, is complete (R55, R152), and the flags that
this raises (R164). -/
def InFlight.release (x : InFlight) (one : Bool) : Option InFlight × Word :=
  match x.owes with
  | _ :: y :: rest =>
    if one then (some { x with owes := y :: rest, done := x.done + 1, flags := x.flags.tail }, x.flags.headD 0)
    else (none, x.flags.foldl (· ||| ·) 0)
  | _ => (none, x.flags.foldl (· ||| ·) 0)

/-- The flags of what completes in flight are raised (R164). -/
def State.landed (s : State) (fl : Word) : State := s.mapCtl fun c => c.raise s.cur fl

/-- Whether the scoreboard holds the instruction behind a VLD.WC that waits (R152, R363). -/
def State.behindChain (s : State) : Bool := s.seq.inFlight.all fun x => x.chain.isSome

/-- The stored contents of a register. -/
def State.stored (s : State) (r : RegClass × Nat) : VReg :=
  match r.1 with
  | .g => (s.gRaw (BitVec.ofNat 5 r.2)).setWidth 16384
  | .v => s.vRaw r.2
  | .k => s.kRaw r.2

/-- Puts a register's contents back. -/
def State.putBack (s : State) (x : Seen) : State :=
  match x.cls with
  | .g => s.setG (BitVec.ofNat 5 x.reg) (x.value.setWidth 64)
  | .v => s.setV x.reg x.value
  | .k => s.setK x.reg x.value

/-- The contents of registers. -/
def State.contents (s : State) (rs : List (RegClass × Nat)) : List Seen :=
  rs.map fun r => { cls := r.1, reg := r.2, value := s.stored r }

/-- The destinations of a vector instruction by element group: register j of each of its groups of G (R142, R152). -/
def groupsOf (g : Nat) (ds : List (RegClass × Nat)) : List (List Res) :=
  (List.range g).map fun j => regsOf ((ds.zipIdx.filter fun x => x.2 % g = j).map (·.1))

/-- An instruction whose element groups complete one by one (R152, R204): a vector load, or a vector division, root,
exponential or logarithm. -/
def byGroups (w : BitVec 32) : Bool :=
  let m := majorOf w
  let op := (fOp w).toNat
  m = 0x19 || ((m = 0x1E || m = 0x1F) && (op = 9 || op = 10)) || ((m = 0x23 || m = 0x24) && op = 3) ||
  (m = 0x23 && 8 ≤ op && op ≤ 10)

/-- A stop may abandon it, and it is then performed again (R138, R162, R204, R224, R273, R319, R376): divisions and roots,
loads and prefetches, vector loads, VRGAT and VCOMP, MLDA and MLDB, VNLD, VNLDV and VNQRY, and TARG. -/
def abandons (w : BitVec 32) : Bool :=
  match majorOf w, (fOp w).toNat with
  | 0x00, _ => true
  | 0x08, _ => true
  | 0x0A, _ => true
  | 0x10, _ => true
  | 0x25, op => op = 10 || op = 11
  | 0x28, op => op = 0 || op = 2
  | 0x29, op => op = 0
  | 0x30, op => op = 1 || op = 2
  | 0x36, op => op = 1
  | _, _ => byGroups w

/-- What an instruction in flight reads and a younger one may not write: all but the scalar registers, which are captured (R391,
R393). -/
def Res.guarded : Res → Bool
  | .reg .g _ => false
  | _ => true

/-- Whether a tagged address is of the local store or of a window (R31, R162). -/
def State.nearLoad (s : State) (t : Word) : Bool := let x := (s.extents[tagOf t]?).getD 0; extKind x = 1 || extKind x = 2

/-- What enters the scoreboard when a 32-bit instruction is performed on s; `bare` is the state it would have left without the
masked and tail policies. -/
def State.flight (s bare : State) (w : BitVec 32) (o : Operands) : InFlight :=
  let u := s.uses w 32 o
  { addr := s.seq.pc, word := w, first := if s.cur = .main then s.estart else 0
    ga := s.g (fA w), gb := s.g (fB w), gd := s.g (fD w), epr := 16384 / s.cw
    owes := if byGroups w then groupsOf s.grp o.dests else if u.2.isEmpty then [] else [u.2]
    dests := u.2, near := majorOf w = 0x19 && s.nearLoad (s.g (fA w))
    reads := u.1.filter Res.guarded, old := s.contents o.dests, bare := if byGroups w then bare.contents o.dests else []
    hwea := s.core.ctl.hwea, hweb := s.core.ctl.hweb
    bufs := if majorOf w = 0x30 then some { a := s.core.abuf, b := s.core.bbuf, mstat := s.core.ctl.mstat } else none
    window := s.windowOf? w }

/-- A register of a list of contents. -/
def Seen.res (x : Seen) : Res := .reg x.cls x.reg

/-- Puts the buffer that an abandoned MLDA or MLDB loaded back, with its bits of MSTAT (R255, R273). -/
def Core.putBuffers (c : Core) (w : BitVec 32) (x : Buffers) : Core :=
  let m (hi lo : Nat) : Word := BitVec.ofNat 64 (putBits c.ctl.mstat.toNat hi lo (bits x.mstat.toNat hi lo))
  if fOp w = 1 then { c with abuf := x.a, ctl := { c.ctl with mstat := m 18 16 } }
  else { c with bbuf := x.b, ctl := { c.ctl with mstat := m 23 19 } }

/-- The replay entry of an instruction in flight, from the first element of its first group that is not complete (R392). -/
def InFlight.entry (x : InFlight) : Replay :=
  { addr := x.addr, word := x.word, first := max x.first (if byGroups x.word then x.done * x.epr else 0), ga := x.ga, gb := x.gb, gd := x.gd }

/-- The high-water mark of a vector register as it was before an instruction in flight wrote it (R161, R224). -/
def Ctl.unmark (c : Ctl) (x : InFlight) (n : Nat) : Ctl :=
  let m := n % 16
  let put (now old : Word) : Word := BitVec.ofNat 64 (putBits now.toNat (4 * m + 3) (4 * m) (bits old.toNat (4 * m + 3) (4 * m)))
  if n < 16 then { c with hwea := put c.hwea x.hwea } else { c with hweb := put c.hweb x.hweb }

/-- The vector registers among the old contents that go back. -/
def vectorRegs (xs : List Seen) : List Nat := (xs.filter fun y => y.cls = .v).map Seen.reg

/-- ABANDONING an instruction in flight (R138, R162, R204, R224, R273): the groups that are complete stand without the policies; of
the others the old contents and marks come back. Their flags, the NV of an MLDB too, are not raised: its reissue raises them (R164;
DEDUCED, log 43). -/
def State.abandon (s : State) (x : InFlight) : State :=
  let owed := x.owes.flatten
  let back := x.old.filter fun y => owed.contains y.res
  let s := (x.bare.filter fun y => ! owed.contains y.res).foldl State.putBack s
  let s := back.foldl State.putBack s
  let s := s.mapCtl fun c => (vectorRegs back).foldl (fun c n => c.unmark x n) c
  match x.bufs with
  | some b => s.mapCore fun c => c.putBuffers x.word b
  | none => s

/-- ESTART where a stop leaves the first unfinished element of a vector instruction of the main sequencer (R162, R204). -/
def State.stopAt (s : State) (first : Nat) : State := if s.cur = .main then s.setEstart first else s

/-- The first vector instruction of the replay list. -/
def State.firstVector (s : State) : Option Replay := s.seq.replay.find? fun e => (s.vectorWord e.word e.len).isSome

/-- Instructions that have retired and are now abandoned come before what is on the replay list (R392). ESTART names the first
unfinished element of the first vector instruction of the list (R162); how the sequencer goes on after the list stays. -/
def State.pushReplay (s : State) (es : List Replay) : State :=
  let t := s.mapSeq fun q => { q with
    replay := es ++ q.replay
    owed := if q.replay = [] then { q.owed with unretired := false, estart := s.estart } else q.owed }
  match t.firstVector with
  | some e => t.stopAt e.first
  | none => t

/-- An instruction in flight is abandoned with what is left of it; a load through L or W finishes its group under way first, and is
complete where that was its last (R162). -/
def State.giveUp (s : State) (x : InFlight) : State × List Replay :=
  let (y, fl) := if x.near then x.release true else (some x, 0)
  match y with
  | none => (s.landed fl, [])
  | some y => ((s.landed fl).abandon y, [y.entry])

/-- The stop of what is in flight on the sequencer in focus, oldest first (R392): a chained load that waits is abandoned at
once, what may be abandoned is so or completes, a free choice, and the rest completes. -/
def State.stopFlight (s : State) : State :=
  let (t, es, _) := s.seq.inFlight.foldl (fun (r : State × List Replay × Nat) x =>
    let (s, es, i) := r
    if x.chain.isSome then (s, es ++ [x.entry], i + 1)
    else if abandons x.word ∧ s.drawBool 4 (2 * i + s.cur.code) then let (t, e) := s.giveUp x; (t, es ++ e, i + 1)
    else (s.landed (x.release false).2, es, i + 1)) (s, [], 0)
  (t.pushReplay es).mapSeq fun q => { q with inFlight := [] }

/-- The first unfinished element of an instruction that waits: the first of a chained load's first incomplete group (R162). -/
def State.waitFirst (s : State) (w : Wait) : Nat :=
  match w with
  | .chained c =>
    let epr := 16384 / vtCw c.vt
    max c.first (c.act.headD 0 / epr * epr)
  | _ => if s.cur = .main then s.estart else 0

/-- The replay list of an instruction that has not retired and that the sequencer then goes on behind (R392, R393), with its captured
operands; `t` is the state in which it is performed, and `estart` what ESTART is without it. -/
def Seq.unretired (q : Seq) (t : State) (at_ : BitVec 58) (len first estart : Nat) : Seq :=
  let w := t.fullWord t.seq.insn len
  { q with
    pc := at_ + BitVec.ofNat 58 len
    replay := [{ addr := at_, word := t.seq.insn, first := first, ga := t.g (fA w), gb := t.g (fB w), gd := t.g (fD w) }]
    owed := { q.owed with unretired := true, estart := estart } }

/-- The instruction that the sequencer waits in joins the replay list with its captured operands (R392, R393), and the saved PC
names what follows it; a replay entry that waits stands in the list already, and one of a repeat frame is left to the frame, which
goes on at it (R65). ESTART names its first unfinished element (R162). -/
def State.stopWait (s : State) : State :=
  let q := s.seq
  match q.wait with
  | none => s
  | some .held => s
  | some x =>
    let n := s.waitFirst x
    (match q.replay with
    | e :: rest => s.mapSeq fun q => { q with replay := { e with first := n } :: rest, pc := q.back.getD q.pc, back := none }
    | [] => if q.frame.isSome then s else s.mapSeq fun q => q.unretired s q.pc 32 n s.estart).stopAt n

/-- The declared-distance record after an instruction of stall W: every distance grows by 1 + W (R53), a new producer takes
the place of an older one of its registers, and what has reached its latency leaves. -/
def nextRecord (old : List Pending) (o : Operands) (w : Nat) (contents : RegClass × Nat → VReg) : List Pending :=
  let kept := (old.filter fun p => ! o.dests.contains (p.cls, p.reg)).map fun p => { p with dist := p.dist + 1 + w }
  let made := match o.lat with
    | none => []
    | some l => o.dests.map fun r => { cls := r.1, reg := r.2, lat := l, dist := 1 + w, old := contents r }
  (made ++ kept).filter fun p => p.dist < p.lat && (p.cls ≠ .g || p.reg ≠ 0)

/-- Whether an instruction stays in flight after it is performed (R54, R55). -/
def staysInFlight (w : BitVec 32) (len : Nat) (o : Operands) : Bool := len = 32 && o.lat.isNone && tracked w

/-- The instruction of a word is entered in the record and, where it stays in flight, in the scoreboard (R53, R55); `s` is the
state it was performed on. -/
def Seq.account (q : Seq) (s : State) (x : InFlight) (len : Nat) (o : Operands) (stall : Nat) : Seq :=
  { q with
    record := nextRecord q.record o stall s.stored
    inFlight := if staysInFlight x.word len o then q.inFlight ++ [x] else q.inFlight
    due := 1 + stall }

/-- PC, the loop stack and LDR of another sequencer value. -/
def Seq.withPlace (q r : Seq) : Seq :=
  { q with pc := r.pc, depth := r.depth, lc := r.lc, li := r.li, lb := r.lb, le := r.le, ldr := r.ldr }

/-- The last entry of a replay list, with `rest` after it, is the instruction behind which the sequencer goes on (R393). -/
def Seq.lastRetires (q : Seq) (rest : List Replay) : Bool := rest.isEmpty && q.owed.unretired

/-- A sequencer q after the oldest entry of its replay list, which alone leaves r (R393): an instruction that had retired leaves PC,
the loop stack and LDR as they stand (R59). -/
def Seq.afterReplay (r q : Seq) (rest : List Replay) : Seq :=
  let r := { r with replay := rest, back := none, owed := { q.owed with unretired := q.owed.unretired && ! rest.isEmpty } }
  if q.lastRetires rest then r else r.withPlace q

/-- An RDV of this sequencer completes while its partner performs: it goes on, as a replay entry where it is one (R393), and
counts in the record (R53). -/
def Seq.passRdv (q : Seq) : Seq :=
  let next := match q.replay with
    | [] => q.advance 32
    | e :: rest => ({ q with pc := e.addr }.advance 32).afterReplay q rest
  { next with record := nextRecord q.record {} 0 fun _ => 0, due := 1 }

end Sys2Proof.Machine
end

