-- ==== Sys2Proof/Machine/Issue.lean ====
section
/-! DEFINITION. How a sequencer issues around the meaning of its instruction: which majors it accepts (R67), the scoreboard
(R55, R391), issue checking and early reads (R53, R56, R57), time (R52), replay (R393), the wake of a wait and the resumption
of a frame (R65). The meaning of a word is a parameter. -/

namespace Sys2Proof.Machine

/-- The meaning of an instruction word or parcel of a given length; none where it is no instruction (R69). -/
abbrev Meaning := BitVec 32 → Nat → Option (State → Result)

/-- Whether a sequencer accepts a word or parcel (R67). -/
def accepts (q : SeqId) (w : BitVec 32) (len : Nat) : Bool :=
  let m := (w.extractLsb' 1 6).toNat
  match q with
  | .main => len = 16 || m ≠ 0x30
  | .matrix =>
    if len = 16 then let op := (w.extractLsb' 1 5).toNat; 1 ≤ op && op ≤ 0x0E
    else m ≤ 0x14 || (m = 0x15 && (fOp w = 7 || fOp w = 8)) || (m = 0x16 && fOp w ≠ 2) || m = 0x17 || m = 0x30

/-- The producer of a register that is still short of its latency (R53, R56). -/
def Seq.early (q : Seq) (r : RegClass × Nat) : Option Pending :=
  q.record.find? fun p => p.cls = r.1 ∧ p.reg = r.2 ∧ p.dist < p.lat

/-- What an early read sees of a register: each element group wholly old or wholly new, a free choice (R57, log 7). -/
def State.seenEarly (s : State) (p : Pending) : Seen :=
  let r := (p.cls, p.reg)
  let id := 32 * p.cls.code + p.reg
  let value : VReg :=
    match p.cls with
    | .k =>
      let epr := 16384 / s.cw
      (List.range s.cw).foldl (fun x j =>
        if s.drawBool 2 (128 * j + id) then
          BitVec.ofNat 16384 (putBits x.toNat (j * epr + epr - 1) (j * epr) (bits p.old.toNat (j * epr + epr - 1) (j * epr)))
        else x) (s.stored r)
    | _ => if s.drawBool 2 id then p.old else s.stored r
  { cls := p.cls, reg := p.reg, value := value }

/-- TVAL of WAITSHORT (R56). -/
def waitValue (p : Pending) : Word := BitVec.ofNat 64 (p.reg + p.cls.code <<< 5 + ((p.lat - p.dist) % 256) <<< 8)

/-- Whether a trap or the end of the task ended the instruction, from the state before it to the state after it: a trap sets INH and
writes an event (R356, R427), which a CTLW that sets INH does not (R355). -/
def stoppedBy (s t : State) : Bool :=
  ! t.seq.running || (! s.core.ctl.tstat.getLsbD 0 && t.core.ctl.tstat.getLsbD 0 && s.io.bbcnt != t.io.bbcnt)

/-- Cycles pass on the core: CYCLE counts on, the budget falls, the task's run time grows, a sequencer that waits has waited
longer, and the time until one may issue runs down (R52, R125, R363, R368, R378). -/
def Seq.lapse (q : Seq) (n : Nat) : Seq :=
  { q with due := q.due - n, waited := if q.wait.isSome then q.waited + n else q.waited }

def State.elapse (s : State) (n : Nat) : State :=
  let s := s.mapCore fun c => { c with
    main := c.main.lapse n, matrix := c.matrix.lapse n
    ctl := { c.ctl with cycle := c.ctl.cycle + BitVec.ofNat 64 n }, budget := BitVec.ofNat 64 (c.budget.toNat - n) }
  s.mapSched fun c => c.mapTask s.taskKey fun t => { t with ran := t.ran + n }

/-- The cycles that pass before a turn: those that the last stall count still asks for, and a free number (R52, log 8). -/
def State.turnCycles (s : State) : Nat := s.seq.due + s.drawNat 1 0

/-- The state with VT's policies off, in which an instruction leaves masked-off and tail elements as they are (R145). -/
def State.noPolicies (s : State) : State :=
  s.mapCtl fun c => { c with vt := BitVec.ofNat 64 (putBits c.vt.toNat 7 6 0) }

/-- What an instruction would leave without the masked and tail policies. -/
def bareRun (act : State → Result) (s : State) : State :=
  match act s.noPolicies with
  | .next t => t
  | _ => s

/-- The flags, FXSAT in bit 8, that stand after an instruction performed on s; none where it gives no next state. -/
def flagsAfter (act : State → Result) (s : State) : Word :=
  match act s with
  | .next t => t.core.ctl.flags
  | _ => 0

/-- The state with all flags clear. -/
def State.noFlags (s : State) : State := s.mapCtl fun c => { c with fflags := c.fflags &&& ~~~ 0x1F, fxsat := 0 }

/-- Element group n alone of a vector instruction, from ESTART on (R142, R145). -/
def State.groupAlone (s : State) (n : Nat) : State :=
  let epr := 16384 / s.cw
  s.mapCtl fun c => { c with
    vl := BitVec.ofNat 64 (min s.vl ((n + 1) * epr)), estart := BitVec.ofNat 64 (max s.estart (n * epr)) }

/-- The flags that an instruction which is performed on s and leaves t raises, those of each element group where it completes by
groups (R164). -/
def State.flagList (act : State → Result) (s t : State) (w : BitVec 32) : List Word :=
  let all := if s.core.ctl.flags = 0 then t.core.ctl.flags else flagsAfter act s.noFlags
  if all = 0 then [] else if byGroups w then (List.range s.grp).map fun n => flagsAfter act (s.noFlags.groupAlone n) else [all]

/-- What enters the scoreboard when an instruction is performed on s and leaves t. -/
def State.flown (act : State → Result) (s t : State) (w : BitVec 32) (o : Operands) : InFlight :=
  { s.flight (if byGroups w then bareRun act s else s) w o with flags := s.flagList act t w }

/-- The flags of c and what each side may see of them, in other control registers. -/
def Ctl.flagsOf (r c : Ctl) : Ctl :=
  { r with fflags := c.fflags, fxsat := c.fxsat, unseenMain := c.unseenMain, unseenMatrix := c.unseenMatrix }

/-- An instruction that is performed on s, and stays in flight in t, has its flags raised when it is complete (R164). -/
def State.flagsLater (t s : State) : State := t.mapCtl fun c => c.flagsOf s.core.ctl

/-- The instruction in the instruction register is performed and its issue is entered in the record and the scoreboard
(R53, R55). One that waits has not completed and is not entered. -/
def State.perform (s : State) (len : Nat) (act : State → Result) : Result :=
  let w := s.seq.insn
  let o := s.issueOperands w len
  let stall := if len = 32 then stallOf w else 0
  match act s with
  | .fault r => .fault r
  | .refused r => .refused r
  | .next t =>
    if stoppedBy s t then .next (t.mapSeq fun q => { q with due := 1 + stall })
    else if t.seq.wait.isSome then .next (t.mapSeq fun q => { q with due := 1 })
    else
      let u := if staysInFlight w len o then t.flagsLater s else t
      .next (u.mapSeq fun q => q.account s (s.flown act t w o) len o stall)

/-- An instruction ends in ILLOP with its word in TVAL (R69). -/
def endsIllegal (act : State → Result) (s : State) : Bool :=
  match act s with
  | .next t => stoppedBy s t && t.core.ctl.tcause = 1 && t.core.ctl.tval = s.word
  | _ => false

/-- The registers of the producers ps, all bits as b. -/
def Seq.viewAll (q : Seq) (ps : List Pending) (b : Bool) : Seq :=
  { q with view := ps.map fun p => { cls := p.cls, reg := p.reg, value := if b then BitVec.allOnes 16384 else 0 } }

/-- The illegality of an encoding, which comes before a source that is read early (R56, R69): an ILLOP that does not rest on the value
of a source whose producer is among ps (log 10). -/
def State.illegal (s : State) (ps : List Pending) (act : State → Result) : Bool :=
  endsIllegal act s && [false, true].all fun b => endsIllegal act (s.mapSeq fun q => q.viewAll ps b)

/-- Performs the instruction in the instruction register with its sources checked (R56), or read early (R57). -/
def State.checked (s : State) (len : Nat) (act : State → Result) : Result :=
  let early := (s.issueOperands s.seq.insn len).sources.filterMap s.seq.early
  if s.core.ctl.mode.getLsbD 0 then
    match early with
    | p :: _ => if s.illegal early act then s.perform len act else .next (s.trap ⟨.waitshort, waitValue p, 0, 0⟩)
    | [] => s.perform len act
  else (s.mapSeq fun q => { q with view := early.map s.seenEarly }).perform len act

/-- The scoreboard holds the instruction for this turn, and the oldest in flight completes meanwhile, or the sequencer waits
for a window's bits (R55, R152). -/
def State.hold (s : State) : State :=
  (s.mapSeq fun q => { q with inFlight := dropOldest q.inFlight, wait := if s.behindChain then some .held else none }).landed
    ((s.seq.inFlight.find? fun x => x.chain.isNone).elim 0 fun x => (x.release false).2)

/-- Issues a word or parcel at PC: refuses what is no instruction, waits for the scoreboard, checks distances, performs. -/
def State.issue (m : Meaning) (s : State) (w : BitVec 32) (len : Nat) : Result :=
  let s := s.mapSeq fun q => { q with insn := w, wait := none, due := 1 }
  if ¬ accepts s.cur w len then .next s.illop else
  match m w len with
  | none => .next s.illop
  | some act => if s.held w len (s.issueOperands w len) then .next s.hold else s.checked len act

/-- The word that a repeat frame performs next (R64), with its staggered fields; TVAL of its ILLOP is this word (DESIGN CHOICE,
log 9). -/
def State.frameWord (s : State) (f : Frame) : BitVec 32 :=
  staggerWord s.vt f.sm (bits s.seq.rpidx.toNat 9 0 * f.step) ((f.words[f.pos]?).getD 0)

/-- Resumes a frame (R65): a failure traps with TPC at the RPT. -/
def State.reopen (s : State) : State :=
  match s.resumeFrame with
  | .error t => s.trapAt t (s.seq.rpbase.setWidth 58)
  | .ok f => s.mapSeq fun q => { q with
      frame := some f, pc := f.addr f.pos, rpidx := mkRpidx false 0 (bits q.rpidx.toNat 9 0), rpbase := 0, owed := {} }

/-- The scalar registers that a replay entry captured, as the replayed instruction reads them (R393); a compact form's are those of
its expansion (R60). -/
def State.captured (s : State) (e : Replay) : List Seen :=
  let w := s.fullWord e.word e.len
  [(fA w, e.ga), (fB w, e.gb), (fD w, e.gd)].map fun x => { cls := .g, reg := x.1.toNat, value := x.2.setWidth 16384 }

/-- The state in which the oldest replay entry is performed (R393): at its address, with its captured operands, from its first
unfinished element. Its VL, VT, FRM and FXRM are those in force when it is reissued (DEDUCED, log 43). -/
def State.atReplay (s : State) (e : Replay) : State :=
  let t := s.mapSeq fun q => { q with pc := e.addr, insn := e.word, view := s.captured e, back := some q.pc }
  if (s.vectorWord e.word e.len).isSome then t.stopAt e.first else t

/-- What a trap or an end of the task leaves of the replay list: nothing (R394). -/
def Seq.dropReplay (q : Seq) : Seq := { q with replay := [], back := none, owed := { frame := q.owed.frame } }

/-- The state after the oldest replay entry, which leaves u (R393): ESTART, too, is as it stands for what comes after the list. -/
def State.afterReplay (s u : State) (rest : List Replay) : State :=
  let v := u.mapSeq fun x => x.afterReplay s.seq rest
  if s.seq.lastRetires rest then v else v.stopAt s.seq.owed.estart

/-- Performs the oldest replay entry. The sequencer then goes on at its saved PC, or, where the entry is the instruction before it
that has not retired, as the instruction itself goes on. After the list LDR and ESTART are what the instructions behind it left: a
replayed one, VRGAT and VCOMP too, changes them for itself alone (DEDUCED, log 43). -/
def State.replayWith (s : State) (e : Replay) (rest : List Replay) (act : State → Result) : Result :=
  let q := s.seq
  let t := s.atReplay e
  match t.perform e.len act with
  | .fault r => .fault r
  | .refused r => .refused r
  | .next u =>
    if stoppedBy t u then .next (u.mapSeq Seq.dropReplay)
    else if u.seq.wait.isSome then .next (u.mapSeq fun x => { x with pc := q.pc, back := none })
    else .next (s.afterReplay u rest)

/-- A turn with a replay list (R393). -/
def State.replayStep (m : Meaning) (s : State) (e : Replay) (rest : List Replay) : Result :=
  match m e.word e.len with
  | none => .next ((s.atReplay e).illop.mapSeq Seq.dropReplay)
  | some act =>
    let t := s.atReplay e
    if t.held e.word e.len (t.issueOperands e.word e.len) then .next s.hold
    else (s.mapSeq fun q => { q with wait := none, due := 1 }).replayWith e rest act

/-- The instruction that the sequencer waits in is performed once more (R34, R393). -/
def State.again (s : State) (act : State → Result) : Result :=
  match s.seq.replay with
  | e :: rest => s.replayWith e rest act
  | [] => s.perform 32 act

/-- An event that ends a wait: the waiting instruction is performed again on its sequencer, and nothing happens where it would
only wait on. -/
def State.wake (s : State) (c : Nat) (q : SeqId) (act : State → State) : State :=
  if s.halted then s else
  match (s.focus c q).again fun t => .next (act t) with
  | .next t => if t.seq.wait.isSome then s else t
  | _ => s

end Sys2Proof.Machine
end

