-- ==== Sys2Proof/Machine/Scalar.lean ====
section
/-! DEFINITION. Scalar integer instructions, LIMM and the compact scalar forms (R51, R60, R61, R107-R110). -/

namespace Sys2Proof.Machine

/-- A signed or unsigned comparison as 0 or 1. -/
def boolWord (b : Bool) : Word := if b then 1 else 0

/-- SLT: signed a < b. -/
def lessS (a b : Word) : Bool := a.slt b

/-- The minimum or maximum, signed or unsigned (R107). -/
def minS (a b : Word) : Word := if a.slt b then a else b
def maxS (a b : Word) : Word := if a.slt b then b else a
def minU (a b : Word) : Word := if a < b then a else b
def maxU (a b : Word) : Word := if a < b then b else a

/-- Bits [5:0] of a shift amount (R107). -/
def shamt (b : Word) : Nat := (b.setWidth 6).toNat

/-- The high half of a signed or unsigned product (R107). -/
def mulHigh (a b : Word) : Word := BitVec.ofInt 64 ((a.toInt * b.toInt) / (2 ^ 64 : Nat))
def mulHighU (a b : Word) : Word := BitVec.ofNat 64 ((a.toNat * b.toNat) / 2 ^ 64)

/-- Quotients and remainders of n-bit values with the corners of R108. -/
def divS (n : Nat) (a b : Int) : Int := if b = 0 then -1 else if a = -(2 ^ (n - 1) : Nat) ∧ b = -1 then a else a.tdiv b
def remS (n : Nat) (a b : Int) : Int := if b = 0 then a else if a = -(2 ^ (n - 1) : Nat) ∧ b = -1 then 0 else a.tmod b
def divU (a b : Word) : Word := if b = 0 then -1 else BitVec.ofNat 64 (a.toNat / b.toNat)
def remU (a b : Word) : Word := if b = 0 then a else BitVec.ofNat 64 (a.toNat % b.toNat)

/-- Leading zeros, trailing zeros and ones of a word (R107). -/
def clz (a : Word) : Nat := if a = 0 then 64 else 63 - Nat.log2 a.toNat
def popCount (n x : Nat) : Nat := ((List.range n).filter x.testBit).length
def ctz (a : Word) : Nat := ((List.range 64).find? a.toNat.testBit).getD 64

/-- The field that g[B] describes: position, length and sign extension (R109). -/
def fieldPos (b : Word) : Nat := bits b.toNat 5 0
def fieldLen (b : Word) : Nat := bits b.toNat 13 8 + 1
def fieldSx (b : Word) : Bool := b.getLsbD 16

/-- BEXT (R109). -/
def bitExtract (a b : Word) : Word :=
  let n := fieldLen b
  let f := (a.toNat >>> fieldPos b) % 2 ^ n
  if fieldSx b then BitVec.ofInt 64 (toInt n f) else BitVec.ofNat 64 f

/-- BINS (R109). -/
def bitInsert (d a b : Word) : Word :=
  let m : Word := BitVec.ofNat 64 ((2 ^ fieldLen b - 1) <<< fieldPos b)
  (d &&& ~~~m) ||| ((a <<< fieldPos b) &&& m)

/-- LIMM (R51): the immediate in 16-bit part `h`, the rest of the old value kept where K = 1. -/
def immPart (old : Word) (i : BitVec 16) (h : BitVec 2) (k : BitVec 1) : Word :=
  let sh := 16 * h.toNat
  let x : Word := i.setWidth 64 <<< sh
  if k = 1 then (old &&& ~~~((0xFFFF : Word) <<< sh)) ||| x else x

/-- A two-operand result (R107). -/
def State.op2 (s : State) (len : Nat) (d a b : BitVec 5) (f : Word → Word → Word) : State :=
  s.finishG len d (f (s.g a) (s.g b))

/-- A result of one register (R107). -/
def State.op1 (s : State) (len : Nat) (d a : BitVec 5) (f : Word → Word) : State := s.finishG len d (f (s.g a))

def execAdd (d a b : BitVec 5) (_w : BitVec 3) (s : State) : Result := .next (s.op2 32 d a b fun x y => x + y)
def execSub (d a b : BitVec 5) (_w : BitVec 3) (s : State) : Result := .next (s.op2 32 d a b fun x y => x - y)
def execAnd (d a b : BitVec 5) (_w : BitVec 3) (s : State) : Result := .next (s.op2 32 d a b fun x y => x &&& y)
def execOr (d a b : BitVec 5) (_w : BitVec 3) (s : State) : Result := .next (s.op2 32 d a b fun x y => x ||| y)
def execXor (d a b : BitVec 5) (_w : BitVec 3) (s : State) : Result := .next (s.op2 32 d a b fun x y => x ^^^ y)
def execAndn (d a b : BitVec 5) (_w : BitVec 3) (s : State) : Result := .next (s.op2 32 d a b fun x y => x &&& ~~~y)
def execSll (d a b : BitVec 5) (_w : BitVec 3) (s : State) : Result := .next (s.op2 32 d a b fun x y => x <<< shamt y)
def execSrl (d a b : BitVec 5) (_w : BitVec 3) (s : State) : Result := .next (s.op2 32 d a b fun x y => x >>> shamt y)
def execSra (d a b : BitVec 5) (_w : BitVec 3) (s : State) : Result :=
  .next (s.op2 32 d a b fun x y => x.sshiftRight (shamt y))
def execRol (d a b : BitVec 5) (_w : BitVec 3) (s : State) : Result :=
  .next (s.op2 32 d a b fun x y => x.rotateLeft (shamt y))
def execRor (d a b : BitVec 5) (_w : BitVec 3) (s : State) : Result :=
  .next (s.op2 32 d a b fun x y => x.rotateRight (shamt y))
def execSlt (d a b : BitVec 5) (_w : BitVec 3) (s : State) : Result :=
  .next (s.op2 32 d a b fun x y => boolWord (lessS x y))
def execSltu (d a b : BitVec 5) (_w : BitVec 3) (s : State) : Result :=
  .next (s.op2 32 d a b fun x y => boolWord (x < y))
def execMin (d a b : BitVec 5) (_w : BitVec 3) (s : State) : Result := .next (s.op2 32 d a b minS)
def execMax (d a b : BitVec 5) (_w : BitVec 3) (s : State) : Result := .next (s.op2 32 d a b maxS)
def execMinu (d a b : BitVec 5) (_w : BitVec 3) (s : State) : Result := .next (s.op2 32 d a b minU)
def execMaxu (d a b : BitVec 5) (_w : BitVec 3) (s : State) : Result := .next (s.op2 32 d a b maxU)
def execMul (d a b : BitVec 5) (_w : BitVec 3) (s : State) : Result := .next (s.op2 32 d a b fun x y => x * y)
def execMulh (d a b : BitVec 5) (_w : BitVec 3) (s : State) : Result := .next (s.op2 32 d a b mulHigh)
def execMulhu (d a b : BitVec 5) (_w : BitVec 3) (s : State) : Result := .next (s.op2 32 d a b mulHighU)
def execDiv (d a b : BitVec 5) (_w : BitVec 3) (s : State) : Result :=
  .next (s.op2 32 d a b fun x y => BitVec.ofInt 64 (divS 64 x.toInt y.toInt))
def execDivu (d a b : BitVec 5) (_w : BitVec 3) (s : State) : Result := .next (s.op2 32 d a b divU)
def execRem (d a b : BitVec 5) (_w : BitVec 3) (s : State) : Result :=
  .next (s.op2 32 d a b fun x y => BitVec.ofInt 64 (remS 64 x.toInt y.toInt))
def execRemu (d a b : BitVec 5) (_w : BitVec 3) (s : State) : Result := .next (s.op2 32 d a b remU)
def execClz (d a : BitVec 5) (_w : BitVec 3) (s : State) : Result := .next (s.op1 32 d a fun x => BitVec.ofNat 64 (clz x))
def execCtz (d a : BitVec 5) (_w : BitVec 3) (s : State) : Result := .next (s.op1 32 d a fun x => BitVec.ofNat 64 (ctz x))
def execPopc (d a : BitVec 5) (_w : BitVec 3) (s : State) : Result :=
  .next (s.op1 32 d a fun x => BitVec.ofNat 64 (popCount 64 x.toNat))
def execBext (d a b : BitVec 5) (_w : BitVec 3) (s : State) : Result := .next (s.op2 32 d a b bitExtract)
def execBins (d a b : BitVec 5) (_w : BitVec 3) (s : State) : Result := .next (s.op2 32 d a b (bitInsert (s.g d)))

/-- BADDR (R110): ADDR with g[A] where the tag byte is malformed or the offset leaves the space. -/
def execBaddr (d a b : BitVec 5) (_w : BitVec 3) (s : State) : Result :=
  let t := s.g a
  .next <| if bits t.toNat 59 58 ≠ 0 then s.trap ⟨.addr, t, 0, 0⟩
    else s.orTrap (offsetBy t (8 * (s.g b).toInt)) fun x => s.finishG 32 d x

def execSlli (d a : BitVec 5) (sh : BitVec 6) (_w : BitVec 3) (s : State) : Result :=
  .next (s.op1 32 d a fun x => x <<< sh.toNat)
def execSrli (d a : BitVec 5) (sh : BitVec 6) (_w : BitVec 3) (s : State) : Result :=
  .next (s.op1 32 d a fun x => x >>> sh.toNat)
def execSrai (d a : BitVec 5) (sh : BitVec 6) (_w : BitVec 3) (s : State) : Result :=
  .next (s.op1 32 d a fun x => x.sshiftRight sh.toNat)
def execAddi (d a : BitVec 5) (i : BitVec 12) (_w : BitVec 3) (s : State) : Result :=
  .next (s.op1 32 d a fun x => x + imm12 i)
def execAndi (d a : BitVec 5) (i : BitVec 12) (_w : BitVec 3) (s : State) : Result :=
  .next (s.op1 32 d a fun x => x &&& imm12 i)
def execOri (d a : BitVec 5) (i : BitVec 12) (_w : BitVec 3) (s : State) : Result :=
  .next (s.op1 32 d a fun x => x ||| imm12 i)
def execXori (d a : BitVec 5) (i : BitVec 12) (_w : BitVec 3) (s : State) : Result :=
  .next (s.op1 32 d a fun x => x ^^^ imm12 i)
def execSlti (d a : BitVec 5) (i : BitVec 12) (_w : BitVec 3) (s : State) : Result :=
  .next (s.op1 32 d a fun x => boolWord (lessS x (imm12 i)))

/-- LIMM (R51). -/
def execLimm (d : BitVec 5) (i : BitVec 16) (h : BitVec 2) (k : BitVec 1) (s : State) : Result :=
  .next (s.finishG 32 d (immPart (s.g d) i h k))

/-- The compact scalar forms (R61): L is the register of LDR. -/
def execCAdd (p : BitVec 5) (s : State) : Result := .next (s.compact .g fun l => s.op2 16 l l p fun x y => x + y)
def execCSub (p : BitVec 5) (s : State) : Result := .next (s.compact .g fun l => s.op2 16 l l p fun x y => x - y)
def execCAnd (p : BitVec 5) (s : State) : Result := .next (s.compact .g fun l => s.op2 16 l l p fun x y => x &&& y)
def execCOr (p : BitVec 5) (s : State) : Result := .next (s.compact .g fun l => s.op2 16 l l p fun x y => x ||| y)
def execCXor (p : BitVec 5) (s : State) : Result := .next (s.compact .g fun l => s.op2 16 l l p fun x y => x ^^^ y)
def execCMul (p : BitVec 5) (s : State) : Result := .next (s.compact .g fun l => s.op2 16 l l p fun x y => x * y)
def execCAddi (i : BitVec 10) (s : State) : Result :=
  .next (s.compact .g fun l => s.op1 16 l l fun x => x + i.signExtend 64)
def execCLi (i : BitVec 10) (s : State) : Result := .next (s.compact .g fun l => s.finishG 16 l (i.signExtend 64))
def execCSlli (sh : BitVec 5) (s : State) : Result := .next (s.compact .g fun l => s.op1 16 l l fun x => x <<< sh.toNat)
def execCSrli (sh : BitVec 5) (s : State) : Result := .next (s.compact .g fun l => s.op1 16 l l fun x => x >>> sh.toNat)
def execCSrai (sh : BitVec 5) (s : State) : Result :=
  .next (s.compact .g fun l => s.op1 16 l l fun x => x.sshiftRight sh.toNat)
def execCMv (p : BitVec 5) (s : State) : Result := .next (s.compact .g fun l => s.op1 16 l p fun x => x)
def execCMin (p : BitVec 5) (s : State) : Result := .next (s.compact .g fun l => s.op2 16 l l p minS)
def execCMax (p : BitVec 5) (s : State) : Result := .next (s.compact .g fun l => s.op2 16 l l p maxS)

end Sys2Proof.Machine
end

