-- ==== Sys2Proof/Machine/VecInt.lean ====
section
/-! DEFINITION. Vector integer arithmetic, comparison and the compact vector forms (R184-R196, R60, R61). -/

namespace Sys2Proof.Machine

/-- Where operand b comes from (R185): a group, a scalar, a signed or an unsigned immediate. -/
inductive VSrc where
  | vv (b : BitVec 5)
  | vs (b : BitVec 5)
  | imm (i : BitVec 5)
  | uimm (i : BitVec 5)
deriving DecidableEq, Repr

/-- Element i of operand b at w bits, its group having n registers (R185). -/
def State.source (s : State) (b : VSrc) (n w : Nat) : Nat → Nat :=
  match b with
  | .vv r => let x := s.group r.toNat n; fun i => elem x w i
  | .vs r => let x := (s.g r).toNat % 2 ^ w; fun _ => x
  | .imm i => let x := ofInt w i.toInt; fun _ => x
  | .uimm i => fun _ => i.toNat

/-- The group of operand b is legal (R186). -/
def VSrc.ok (b : VSrc) (n : Nat) : Bool :=
  match b with
  | .vv r => groupOk r n
  | _ => true

/-- The group of operand b shares a register with another (R186). -/
def VSrc.meets (b : VSrc) (n : Nat) (d : BitVec 5) (m : Nat) : Bool :=
  match b with
  | .vv r => groupsMeet r n d m
  | _ => false

/-- A same-width operation on a, b and d (R186, R187). -/
def State.vecSame (s : State) (len : Nat) (d a : BitVec 5) (b : VSrc) (k : BitVec 3) (op : Nat → Nat → Nat → Out) : State :=
  let g := s.grp
  let w := s.cw
  if ¬ (groupOk d g ∧ groupOk a g ∧ b.ok g) then s.illop else
  let x := s.group a.toNat g
  let y := s.source b g w
  let z := s.group d.toNat g
  s.vecOp len d g w k false fun i => op (elem x w i) (y i) (elem z w i)

/-- A widening operation (R186). -/
def State.vecWide (s : State) (d a : BitVec 5) (b : VSrc) (k : BitVec 3) (op : Nat → Nat → Nat → Out) : State :=
  let g := s.grp
  let w := s.cw
  if w = 64 ∨ g = 8 ∨ ¬ (groupOk d (2 * g) ∧ groupOk a g ∧ b.ok g) ∨ groupsMeet a g d (2 * g) ∨ b.meets g d (2 * g)
  then s.illop else
  let x := s.group a.toNat g
  let y := s.source b g w
  let z := s.group d.toNat (2 * g)
  s.vecOp 32 d (2 * g) (2 * w) k false fun i => op (elem x w i) (y i) (elem z (2 * w) i)

/-- A narrowing operation; operand b has the width of a (R186). -/
def State.vecNarrow (s : State) (d a : BitVec 5) (b : VSrc) (k : BitVec 3) (op : Nat → Nat → Out) : State :=
  let g := s.grp
  let w := s.cw
  if w = 64 ∨ g = 8 ∨ ¬ (groupOk d g ∧ groupOk a (2 * g) ∧ b.ok (2 * g)) ∨ groupsMeet a (2 * g) d g ∨ b.meets (2 * g) d g
  then s.illop else
  let x := s.group a.toNat (2 * g)
  let y := s.source b (2 * g) (2 * w)
  s.vecOp 32 d g w k false fun i => op (elem x (2 * w) i) (y i)

/-- An integer result as an element result. -/
def intOut (w : Nat) (x : Int) : Out := { val := ofInt w x }

/-- A saturated result: `sat` where it differs from the exact value (R166, R188). -/
def satOut (w : Nat) (signed : Bool) (x : Int) : Out :=
  let y := if signed then satS x w else satZ x w
  { val := ofInt w y, sat := y ≠ x }

/-- A value read with signedness (R190). -/
def extInt (signed : Bool) (w x : Nat) : Int := if signed then toInt w x else (x % 2 ^ w : Nat)

/-- The operations of group A (R191), on w-bit values. -/
def opAdd (w a b _d : Nat) : Out := intOut w (a + b : Nat)
def opSub (w a b _d : Nat) : Out := intOut w ((a : Int) - b)
def opRsub (w a b _d : Nat) : Out := intOut w ((b : Int) - a)
def opAnd (_w a b _d : Nat) : Out := { val := a &&& b }
def opOr (_w a b _d : Nat) : Out := { val := a ||| b }
def opXor (_w a b _d : Nat) : Out := { val := a ^^^ b }
def opSll (w a b _d : Nat) : Out := { val := (a <<< (b % w)) % 2 ^ w }
def opSrl (w a b _d : Nat) : Out := { val := a >>> (b % w) }
def opSra (w a b _d : Nat) : Out := intOut w (toInt w a / (2 ^ (b % w) : Nat))
def opMin (w a b _d : Nat) : Out := { val := if toInt w a < toInt w b then a else b }
def opMax (w a b _d : Nat) : Out := { val := if toInt w a < toInt w b then b else a }
def opMinu (_w a b _d : Nat) : Out := { val := min a b }
def opMaxu (_w a b _d : Nat) : Out := { val := max a b }
def opMv (_w _a b _d : Nat) : Out := { val := b }

/-- The operations of group B (R194). -/
def opMul (w a b _d : Nat) : Out := { val := (a * b) % 2 ^ w }
def opMulh (w a b _d : Nat) : Out := intOut w (toInt w a * toInt w b / (2 ^ w : Nat))
def opMulhu (w a b _d : Nat) : Out := { val := a * b / 2 ^ w }
def opMacc (w a b d : Nat) : Out := { val := (d + a * b) % 2 ^ w }
def opNmsac (w a b d : Nat) : Out := intOut w ((d : Int) - a * b)
def opWadd (signed : Bool) (w a b _d : Nat) : Out := intOut (2 * w) (extInt signed w a + extInt signed w b)
def opWmul (signed : Bool) (w a b _d : Nat) : Out := intOut (2 * w) (extInt signed w a * extInt signed w b)
def opWmacc (signed : Bool) (w a b d : Nat) : Out := intOut (2 * w) (d + extInt signed w a * extInt signed w b)
def opDiv (signed : Bool) (w a b _d : Nat) : Out :=
  if signed then intOut w (divS w (toInt w a) (toInt w b)) else { val := if b = 0 then 2 ^ w - 1 else a / b }
def opRem (signed : Bool) (w a b _d : Nat) : Out :=
  if signed then intOut w (remS w (toInt w a) (toInt w b)) else { val := if b = 0 then a else a % b }
def opSadd (w a b _d : Nat) : Out := satOut w true (toInt w a + toInt w b)
def opSaddu (w a b _d : Nat) : Out := satOut w false ((a : Int) + b)
def opSsub (w a b _d : Nat) : Out := satOut w true (toInt w a - toInt w b)
def opSsubu (w a b _d : Nat) : Out := satOut w false ((a : Int) - b)
def opSmul (mode w a b _d : Nat) : Out := satOut w true (roundFX (toInt w a * toInt w b) (w - 1) mode)

/-- The operations of group C (R195). -/
def opAadd (mode w a b _d : Nat) : Out := intOut w (roundFX (toInt w a + toInt w b) 1 mode)
def opSsr (mode w a b _d : Nat) : Out := intOut w (roundFX (toInt w a) (b % w) mode)
def opNshr (signed : Bool) (mode w a b : Nat) : Out := satOut w signed (roundFX (extInt signed (2 * w) a) (b % (2 * w)) mode)
def opSext (w a n : Nat) : Out := { val := if w ≤ n then a else ofInt w (toInt n a) }
def opZext (w a n : Nat) : Out := { val := if w ≤ n then a else a % 2 ^ n }
/-- The field width that a register operand gives: bits [5:0] plus 1 (R195). -/
def extWidth (b : Nat) : Nat := b % 64 + 1

/-- The conditions of VCMP: EQ NE LT LE LTU LEU GT GTU (R196). -/
def vcmp (c w a b : Nat) : Bool :=
  let x := toInt w a
  let y := toInt w b
  match c with
  | 0 => a = b
  | 1 => a ≠ b
  | 2 => x < y
  | 3 => x ≤ y
  | 4 => a < b
  | 5 => a ≤ b
  | 6 => y < x
  | _ => b < a

/-- VCMP (R196). -/
def State.vecCmp (s : State) (d : BitVec 3) (a : BitVec 5) (b : VSrc) (c k : BitVec 3) : State :=
  let g := s.grp
  let w := s.cw
  if ¬ (groupOk a g ∧ b.ok g) then s.illop else
  let x := s.group a.toNat g
  let y := s.source b g w
  s.maskOp 32 d k fun i => { val := (vcmp c.toNat w (elem x w i) (y i)).toNat }

/-- VMERGE (R193). -/
def State.vecMerge (s : State) (d a : BitVec 5) (b : VSrc) (k : BitVec 3) : State :=
  let g := s.grp
  let w := s.cw
  if k = 0 ∨ ¬ (groupOk d g ∧ groupOk a g ∧ b.ok g) then s.illop else
  let x := s.group a.toNat g
  let y := s.source b g w
  s.vecOp 32 d g w k true fun i => { val := if s.maskBit k i then y i else elem x w i }

/-- VMV (R191). -/
def State.vecMv (s : State) (d : BitVec 5) (b : VSrc) (k : BitVec 3) : State :=
  let g := s.grp
  let w := s.cw
  if ¬ (groupOk d g ∧ b.ok g) then s.illop else
  let y := s.source b g w
  s.vecOp 32 d g w k false fun i => { val := y i }

/-- VIDX (R192). -/
def execVidx (d : BitVec 5) (k _w : BitVec 3) (t st : BitVec 5) (s : State) : Result :=
  .next <| if ¬ groupOk d s.grp then s.illop
    else s.vecOp 32 d s.grp s.cw k false fun i => intOut s.cw (st.toInt + i * t.toInt)


/-- Group A: .vv, .vs and .vi of each operation (R191). -/
def execVaddVv (d a b : BitVec 5) (k _w : BitVec 3) (s : State) : Result :=
  .next (s.vecSame 32 d a (.vv b) k (opAdd s.cw))
def execVaddVs (d a b : BitVec 5) (k _w : BitVec 3) (s : State) : Result :=
  .next (s.vecSame 32 d a (.vs b) k (opAdd s.cw))
def execVaddVi (d a : BitVec 5) (k _w : BitVec 3) (i : BitVec 5) (s : State) : Result :=
  .next (s.vecSame 32 d a (.imm i) k (opAdd s.cw))
def execVsubVv (d a b : BitVec 5) (k _w : BitVec 3) (s : State) : Result :=
  .next (s.vecSame 32 d a (.vv b) k (opSub s.cw))
def execVsubVs (d a b : BitVec 5) (k _w : BitVec 3) (s : State) : Result :=
  .next (s.vecSame 32 d a (.vs b) k (opSub s.cw))
def execVsubVi (d a : BitVec 5) (k _w : BitVec 3) (i : BitVec 5) (s : State) : Result :=
  .next (s.vecSame 32 d a (.imm i) k (opSub s.cw))
def execVrsubVv (d a b : BitVec 5) (k _w : BitVec 3) (s : State) : Result :=
  .next (s.vecSame 32 d a (.vv b) k (opRsub s.cw))
def execVrsubVs (d a b : BitVec 5) (k _w : BitVec 3) (s : State) : Result :=
  .next (s.vecSame 32 d a (.vs b) k (opRsub s.cw))
def execVrsubVi (d a : BitVec 5) (k _w : BitVec 3) (i : BitVec 5) (s : State) : Result :=
  .next (s.vecSame 32 d a (.imm i) k (opRsub s.cw))
def execVandVv (d a b : BitVec 5) (k _w : BitVec 3) (s : State) : Result :=
  .next (s.vecSame 32 d a (.vv b) k (opAnd s.cw))
def execVandVs (d a b : BitVec 5) (k _w : BitVec 3) (s : State) : Result :=
  .next (s.vecSame 32 d a (.vs b) k (opAnd s.cw))
def execVandVi (d a : BitVec 5) (k _w : BitVec 3) (i : BitVec 5) (s : State) : Result :=
  .next (s.vecSame 32 d a (.imm i) k (opAnd s.cw))
def execVorVv (d a b : BitVec 5) (k _w : BitVec 3) (s : State) : Result :=
  .next (s.vecSame 32 d a (.vv b) k (opOr s.cw))
def execVorVs (d a b : BitVec 5) (k _w : BitVec 3) (s : State) : Result :=
  .next (s.vecSame 32 d a (.vs b) k (opOr s.cw))
def execVorVi (d a : BitVec 5) (k _w : BitVec 3) (i : BitVec 5) (s : State) : Result :=
  .next (s.vecSame 32 d a (.imm i) k (opOr s.cw))
def execVxorVv (d a b : BitVec 5) (k _w : BitVec 3) (s : State) : Result :=
  .next (s.vecSame 32 d a (.vv b) k (opXor s.cw))
def execVxorVs (d a b : BitVec 5) (k _w : BitVec 3) (s : State) : Result :=
  .next (s.vecSame 32 d a (.vs b) k (opXor s.cw))
def execVxorVi (d a : BitVec 5) (k _w : BitVec 3) (i : BitVec 5) (s : State) : Result :=
  .next (s.vecSame 32 d a (.imm i) k (opXor s.cw))
def execVsllVv (d a b : BitVec 5) (k _w : BitVec 3) (s : State) : Result :=
  .next (s.vecSame 32 d a (.vv b) k (opSll s.cw))
def execVsllVs (d a b : BitVec 5) (k _w : BitVec 3) (s : State) : Result :=
  .next (s.vecSame 32 d a (.vs b) k (opSll s.cw))
def execVsllVi (d a : BitVec 5) (k _w : BitVec 3) (i : BitVec 5) (s : State) : Result :=
  .next (s.vecSame 32 d a (.uimm i) k (opSll s.cw))
def execVsrlVv (d a b : BitVec 5) (k _w : BitVec 3) (s : State) : Result :=
  .next (s.vecSame 32 d a (.vv b) k (opSrl s.cw))
def execVsrlVs (d a b : BitVec 5) (k _w : BitVec 3) (s : State) : Result :=
  .next (s.vecSame 32 d a (.vs b) k (opSrl s.cw))
def execVsrlVi (d a : BitVec 5) (k _w : BitVec 3) (i : BitVec 5) (s : State) : Result :=
  .next (s.vecSame 32 d a (.uimm i) k (opSrl s.cw))
def execVsraVv (d a b : BitVec 5) (k _w : BitVec 3) (s : State) : Result :=
  .next (s.vecSame 32 d a (.vv b) k (opSra s.cw))
def execVsraVs (d a b : BitVec 5) (k _w : BitVec 3) (s : State) : Result :=
  .next (s.vecSame 32 d a (.vs b) k (opSra s.cw))
def execVsraVi (d a : BitVec 5) (k _w : BitVec 3) (i : BitVec 5) (s : State) : Result :=
  .next (s.vecSame 32 d a (.uimm i) k (opSra s.cw))
def execVminVv (d a b : BitVec 5) (k _w : BitVec 3) (s : State) : Result :=
  .next (s.vecSame 32 d a (.vv b) k (opMin s.cw))
def execVminVs (d a b : BitVec 5) (k _w : BitVec 3) (s : State) : Result :=
  .next (s.vecSame 32 d a (.vs b) k (opMin s.cw))
def execVminVi (d a : BitVec 5) (k _w : BitVec 3) (i : BitVec 5) (s : State) : Result :=
  .next (s.vecSame 32 d a (.imm i) k (opMin s.cw))
def execVmaxVv (d a b : BitVec 5) (k _w : BitVec 3) (s : State) : Result :=
  .next (s.vecSame 32 d a (.vv b) k (opMax s.cw))
def execVmaxVs (d a b : BitVec 5) (k _w : BitVec 3) (s : State) : Result :=
  .next (s.vecSame 32 d a (.vs b) k (opMax s.cw))
def execVmaxVi (d a : BitVec 5) (k _w : BitVec 3) (i : BitVec 5) (s : State) : Result :=
  .next (s.vecSame 32 d a (.imm i) k (opMax s.cw))
def execVminuVv (d a b : BitVec 5) (k _w : BitVec 3) (s : State) : Result :=
  .next (s.vecSame 32 d a (.vv b) k (opMinu s.cw))
def execVminuVs (d a b : BitVec 5) (k _w : BitVec 3) (s : State) : Result :=
  .next (s.vecSame 32 d a (.vs b) k (opMinu s.cw))
def execVminuVi (d a : BitVec 5) (k _w : BitVec 3) (i : BitVec 5) (s : State) : Result :=
  .next (s.vecSame 32 d a (.imm i) k (opMinu s.cw))
def execVmaxuVv (d a b : BitVec 5) (k _w : BitVec 3) (s : State) : Result :=
  .next (s.vecSame 32 d a (.vv b) k (opMaxu s.cw))
def execVmaxuVs (d a b : BitVec 5) (k _w : BitVec 3) (s : State) : Result :=
  .next (s.vecSame 32 d a (.vs b) k (opMaxu s.cw))
def execVmaxuVi (d a : BitVec 5) (k _w : BitVec 3) (i : BitVec 5) (s : State) : Result :=
  .next (s.vecSame 32 d a (.imm i) k (opMaxu s.cw))
def execVmergeVv (d a b : BitVec 5) (k _w : BitVec 3) (s : State) : Result := .next (s.vecMerge d a (.vv b) k)
def execVmergeVs (d a b : BitVec 5) (k _w : BitVec 3) (s : State) : Result := .next (s.vecMerge d a (.vs b) k)
def execVmergeVi (d a : BitVec 5) (k _w : BitVec 3) (i : BitVec 5) (s : State) : Result :=
  .next (s.vecMerge d a (.imm i) k)
def execVmvVv (d b : BitVec 5) (k _w : BitVec 3) (s : State) : Result := .next (s.vecMv d (.vv b) k)
def execVmvVs (d b : BitVec 5) (k _w : BitVec 3) (s : State) : Result := .next (s.vecMv d (.vs b) k)
def execVmvVi (d : BitVec 5) (k _w : BitVec 3) (i : BitVec 5) (s : State) : Result := .next (s.vecMv d (.imm i) k)

/-- Group B (R194): .vv and .vs of each operation. -/
def execVmulVv (d a b : BitVec 5) (k _w : BitVec 3) (s : State) : Result :=
  .next (s.vecSame 32 d a (.vv b) k (opMul s.cw))
def execVmulVs (d a b : BitVec 5) (k _w : BitVec 3) (s : State) : Result :=
  .next (s.vecSame 32 d a (.vs b) k (opMul s.cw))
def execVmulhVv (d a b : BitVec 5) (k _w : BitVec 3) (s : State) : Result :=
  .next (s.vecSame 32 d a (.vv b) k (opMulh s.cw))
def execVmulhVs (d a b : BitVec 5) (k _w : BitVec 3) (s : State) : Result :=
  .next (s.vecSame 32 d a (.vs b) k (opMulh s.cw))
def execVmulhuVv (d a b : BitVec 5) (k _w : BitVec 3) (s : State) : Result :=
  .next (s.vecSame 32 d a (.vv b) k (opMulhu s.cw))
def execVmulhuVs (d a b : BitVec 5) (k _w : BitVec 3) (s : State) : Result :=
  .next (s.vecSame 32 d a (.vs b) k (opMulhu s.cw))
def execVmaccVv (d a b : BitVec 5) (k _w : BitVec 3) (s : State) : Result :=
  .next (s.vecSame 32 d a (.vv b) k (opMacc s.cw))
def execVmaccVs (d a b : BitVec 5) (k _w : BitVec 3) (s : State) : Result :=
  .next (s.vecSame 32 d a (.vs b) k (opMacc s.cw))
def execVnmsacVv (d a b : BitVec 5) (k _w : BitVec 3) (s : State) : Result :=
  .next (s.vecSame 32 d a (.vv b) k (opNmsac s.cw))
def execVnmsacVs (d a b : BitVec 5) (k _w : BitVec 3) (s : State) : Result :=
  .next (s.vecSame 32 d a (.vs b) k (opNmsac s.cw))
def execVwaddVv (d a b : BitVec 5) (k _w : BitVec 3) (s : State) : Result :=
  .next (s.vecWide d a (.vv b) k (opWadd (vtMsx s.vt) s.cw))
def execVwaddVs (d a b : BitVec 5) (k _w : BitVec 3) (s : State) : Result :=
  .next (s.vecWide d a (.vs b) k (opWadd (vtMsx s.vt) s.cw))
def execVwmulVv (d a b : BitVec 5) (k _w : BitVec 3) (s : State) : Result :=
  .next (s.vecWide d a (.vv b) k (opWmul (vtMsx s.vt) s.cw))
def execVwmulVs (d a b : BitVec 5) (k _w : BitVec 3) (s : State) : Result :=
  .next (s.vecWide d a (.vs b) k (opWmul (vtMsx s.vt) s.cw))
def execVwmaccVv (d a b : BitVec 5) (k _w : BitVec 3) (s : State) : Result :=
  .next (s.vecWide d a (.vv b) k (opWmacc true s.cw))
def execVwmaccVs (d a b : BitVec 5) (k _w : BitVec 3) (s : State) : Result :=
  .next (s.vecWide d a (.vs b) k (opWmacc true s.cw))
def execVwmaccuVv (d a b : BitVec 5) (k _w : BitVec 3) (s : State) : Result :=
  .next (s.vecWide d a (.vv b) k (opWmacc false s.cw))
def execVwmaccuVs (d a b : BitVec 5) (k _w : BitVec 3) (s : State) : Result :=
  .next (s.vecWide d a (.vs b) k (opWmacc false s.cw))
def execVdivVv (d a b : BitVec 5) (k _w : BitVec 3) (s : State) : Result :=
  .next (s.vecSame 32 d a (.vv b) k (opDiv (vtMsx s.vt) s.cw))
def execVdivVs (d a b : BitVec 5) (k _w : BitVec 3) (s : State) : Result :=
  .next (s.vecSame 32 d a (.vs b) k (opDiv (vtMsx s.vt) s.cw))
def execVremVv (d a b : BitVec 5) (k _w : BitVec 3) (s : State) : Result :=
  .next (s.vecSame 32 d a (.vv b) k (opRem (vtMsx s.vt) s.cw))
def execVremVs (d a b : BitVec 5) (k _w : BitVec 3) (s : State) : Result :=
  .next (s.vecSame 32 d a (.vs b) k (opRem (vtMsx s.vt) s.cw))
def execVsaddVv (d a b : BitVec 5) (k _w : BitVec 3) (s : State) : Result :=
  .next (s.vecSame 32 d a (.vv b) k (opSadd s.cw))
def execVsaddVs (d a b : BitVec 5) (k _w : BitVec 3) (s : State) : Result :=
  .next (s.vecSame 32 d a (.vs b) k (opSadd s.cw))
def execVsadduVv (d a b : BitVec 5) (k _w : BitVec 3) (s : State) : Result :=
  .next (s.vecSame 32 d a (.vv b) k (opSaddu s.cw))
def execVsadduVs (d a b : BitVec 5) (k _w : BitVec 3) (s : State) : Result :=
  .next (s.vecSame 32 d a (.vs b) k (opSaddu s.cw))
def execVssubVv (d a b : BitVec 5) (k _w : BitVec 3) (s : State) : Result :=
  .next (s.vecSame 32 d a (.vv b) k (opSsub s.cw))
def execVssubVs (d a b : BitVec 5) (k _w : BitVec 3) (s : State) : Result :=
  .next (s.vecSame 32 d a (.vs b) k (opSsub s.cw))
def execVssubuVv (d a b : BitVec 5) (k _w : BitVec 3) (s : State) : Result :=
  .next (s.vecSame 32 d a (.vv b) k (opSsubu s.cw))
def execVssubuVs (d a b : BitVec 5) (k _w : BitVec 3) (s : State) : Result :=
  .next (s.vecSame 32 d a (.vs b) k (opSsubu s.cw))
def execVsmulVv (d a b : BitVec 5) (k _w : BitVec 3) (s : State) : Result :=
  .next (s.vecSame 32 d a (.vv b) k (opSmul s.fxrm s.cw))
def execVsmulVs (d a b : BitVec 5) (k _w : BitVec 3) (s : State) : Result :=
  .next (s.vecSame 32 d a (.vs b) k (opSmul s.fxrm s.cw))

/-- Group C (R195, R196). -/
def execVaaddVv (d a b : BitVec 5) (k _w : BitVec 3) (s : State) : Result :=
  .next (s.vecSame 32 d a (.vv b) k (opAadd s.fxrm s.cw))
def execVaaddVs (d a b : BitVec 5) (k _w : BitVec 3) (s : State) : Result :=
  .next (s.vecSame 32 d a (.vs b) k (opAadd s.fxrm s.cw))
def execVaaddVi (d a : BitVec 5) (k _w : BitVec 3) (i : BitVec 5) (s : State) : Result :=
  .next (s.vecSame 32 d a (.imm i) k (opAadd s.fxrm s.cw))
def execVssrVv (d a b : BitVec 5) (k _w : BitVec 3) (s : State) : Result :=
  .next (s.vecSame 32 d a (.vv b) k (opSsr s.fxrm s.cw))
def execVssrVs (d a b : BitVec 5) (k _w : BitVec 3) (s : State) : Result :=
  .next (s.vecSame 32 d a (.vs b) k (opSsr s.fxrm s.cw))
def execVssrVi (d a : BitVec 5) (k _w : BitVec 3) (i : BitVec 5) (s : State) : Result :=
  .next (s.vecSame 32 d a (.uimm i) k (opSsr s.fxrm s.cw))
def execVnshrVv (d a b : BitVec 5) (k _w : BitVec 3) (s : State) : Result :=
  .next (s.vecNarrow d a (.vv b) k (opNshr (vtMsx s.vt) s.fxrm s.cw))
def execVnshrVs (d a b : BitVec 5) (k _w : BitVec 3) (s : State) : Result :=
  .next (s.vecNarrow d a (.vs b) k (opNshr (vtMsx s.vt) s.fxrm s.cw))
def execVnshrVi (d a : BitVec 5) (k _w : BitVec 3) (i : BitVec 5) (s : State) : Result :=
  .next (s.vecNarrow d a (.uimm i) k (opNshr (vtMsx s.vt) s.fxrm s.cw))
def execVsextVv (d a b : BitVec 5) (k _w : BitVec 3) (s : State) : Result :=
  .next (s.vecSame 32 d a (.vv b) k fun x y _ => opSext s.cw x (extWidth y))
def execVsextVs (d a b : BitVec 5) (k _w : BitVec 3) (s : State) : Result :=
  .next (s.vecSame 32 d a (.vs b) k fun x y _ => opSext s.cw x (extWidth y))
def execVsextVi (d a : BitVec 5) (k _w : BitVec 3) (i : BitVec 5) (s : State) : Result :=
  .next (s.vecSame 32 d a (.uimm i) k fun x y _ => opSext s.cw x (y + 1))
def execVzextVv (d a b : BitVec 5) (k _w : BitVec 3) (s : State) : Result :=
  .next (s.vecSame 32 d a (.vv b) k fun x y _ => opZext s.cw x (extWidth y))
def execVzextVs (d a b : BitVec 5) (k _w : BitVec 3) (s : State) : Result :=
  .next (s.vecSame 32 d a (.vs b) k fun x y _ => opZext s.cw x (extWidth y))
def execVzextVi (d a : BitVec 5) (k _w : BitVec 3) (i : BitVec 5) (s : State) : Result :=
  .next (s.vecSame 32 d a (.uimm i) k fun x y _ => opZext s.cw x (y + 1))
def execVcmpVv (d : BitVec 3) (a b : BitVec 5) (c k _w : BitVec 3) (s : State) : Result :=
  .next (s.vecCmp d a (.vv b) c k)
def execVcmpVs (d : BitVec 3) (a b : BitVec 5) (c k _w : BitVec 3) (s : State) : Result :=
  .next (s.vecCmp d a (.vs b) c k)
def execVcmpVi (d : BitVec 3) (a : BitVec 5) (c k _w : BitVec 3) (i : BitVec 5) (s : State) : Result :=
  .next (s.vecCmp d a (.imm i) c k)

/-- The compact integer vector forms (R61): L is the register of LDR, K = 0. -/
def execCVadd (p : BitVec 5) (s : State) : Result :=
  .next (s.compact .v fun l => s.vecSame 16 l l (.vv p) 0 (opAdd s.cw))
def execCVsub (p : BitVec 5) (s : State) : Result :=
  .next (s.compact .v fun l => s.vecSame 16 l l (.vv p) 0 (opSub s.cw))
def execCVand (p : BitVec 5) (s : State) : Result :=
  .next (s.compact .v fun l => s.vecSame 16 l l (.vv p) 0 (opAnd s.cw))
def execCVor (p : BitVec 5) (s : State) : Result := .next (s.compact .v fun l => s.vecSame 16 l l (.vv p) 0 (opOr s.cw))
def execCVxor (p : BitVec 5) (s : State) : Result :=
  .next (s.compact .v fun l => s.vecSame 16 l l (.vv p) 0 (opXor s.cw))
def execCVmul (p : BitVec 5) (s : State) : Result :=
  .next (s.compact .v fun l => s.vecSame 16 l l (.vv p) 0 (opMul s.cw))
def execCVmacc (q p : BitVec 5) (s : State) : Result :=
  .next (s.compact .v fun l => s.vecSame 16 l p (.vv q) 0 (opMacc s.cw))
def execCVadds (p : BitVec 5) (s : State) : Result :=
  .next (s.compact .v fun l => s.vecSame 16 l l (.vs p) 0 (opAdd s.cw))
def execCVmuls (p : BitVec 5) (s : State) : Result :=
  .next (s.compact .v fun l => s.vecSame 16 l l (.vs p) 0 (opMul s.cw))

end Sys2Proof.Machine
end

