-- ==== Sys2Proof/Machine/Memory.lean ====
section
/-! DEFINITION. Scalar loads and stores, the constant path, prefetch (R111-R116) and the extent instructions (R35-R38), with
what a last-use hint does (R294). -/

namespace Sys2Proof.Machine

/-- A last-use hint is obeyed: H[24] is set and the die is in hint residency (R115, R292, R294). -/
def State.lastUse (s : State) (h : BitVec 3) : Bool :=
  h.getLsbD 2 && ((s.ms.llc[dieOf s.coreNo]?).getD LlcDie.reset).cfg.getLsbD 0

/-- Writes the masked bits of a range, which memory already holds, through to their home (R294). -/
def MemSys.writeThrough (ms : MemSys) (a w mask : Nat) : MemSys :=
  let k := (mask % 2 ^ w) <<< (a % 8)
  { ms with dirty := ms.dirty.map fun d =>
      if a / 8 ≤ d.addr ∧ d.addr < a / 8 + spanBytes a w then
        let b : Byte := BitVec.ofNat 8 (k >>> (8 * (d.addr - a / 8)))
        { d with home := (d.home &&& ~~~b) ||| (ms.mem.byte d.addr &&& b) }
      else d }

/-- What a last-use access leaves of the lines it touched: they are removed without write-back (R294). -/
def State.dropSegs (s : State) (segs : List Seg) : State :=
  segs.foldl (fun s g =>
    match g with
    | .phys a w => s.mapMs fun ms => (linesOf a w).foldl (fun ms l => ms.dropLine (some (dieOf s.coreNo)) l) ms
    | .packed f o w => s.mapMs fun ms => (linesOf (f + o) w).foldl (fun ms l => ms.dropCached (some (dieOf s.coreNo)) l) ms
    | .ls _ _ => s) s

/-- Writes the bits that a last-use store has just stored through to memory (R294). -/
def State.throughSegs (s : State) (segs : List Seg) : State :=
  segs.foldl (fun s g =>
    match g with
    | .phys a w => s.mapMs fun ms => ms.writeThrough a w (2 ^ w - 1)
    | .packed f o w =>
      let r := s.ms.writePacked f o w ((s.ms.readLines f o w).getD 0) (2 ^ w - 1)
      ({ s with ms := r.1 }).spills f r.2
    | .ls _ _ => s) s

/-- A load with hint H: the lines go after it (R294). -/
def State.loadHint (s : State) (h : BitVec 3) (segs : List Seg) : State :=
  if s.lastUse h then s.dropSegs segs else s

/-- A masked store with hint H: with last-use it first writes its own bits through to memory (R294). -/
def State.storeHint (s : State) (h : BitVec 3) (segs : List Seg) (v mask : Nat) : State :=
  let s := s.writeSegs s.via.die segs v mask
  if s.lastUse h then
    (s.throughSegs segs).dropSegs segs
  else s

/-- The value a load of w bits returns: extended as S says (R112). -/
def extendTo (sx : Bool) (w x : Nat) : Word := if sx then BitVec.ofInt 64 (toInt w x) else BitVec.ofNat 64 x

/-- A scalar load through `read` (R111-R113). -/
def State.loadWith (s : State) (d a b : BitVec 5) (sx : BitVec 1) (w : Nat) (h : BitVec 3) (c : Class)
    (read : List Seg → Nat) : State :=
  s.orTrap (effective (s.g a) (s.g b)) fun ea =>
  s.orTrap (s.resolve s.via ea w c) fun segs =>
    (s.loadHint h segs).finishG 32 d (extendTo (sx = 1) w (read segs))

/-- LD (R112). -/
def execLd (d a b : BitVec 5) (sx : BitVec 1) (w : BitVec 6) (h : BitVec 3) (s : State) : Result :=
  .next (s.loadWith d a b sx (w.toNat + 1) h .load s.readSegs)

/-- ST (R112): the low w bits of g[D], under a mask of exactly those bits. -/
def execSt (d a b : BitVec 5) (w : BitVec 6) (h : BitVec 3) (s : State) : Result :=
  let n := w.toNat + 1
  .next <|
    s.orTrap (effective (s.g a) (s.g b)) fun ea =>
    s.orTrap (s.resolve s.via ea n .store) fun segs =>
      (s.storeHint h segs (s.g d).toNat (2 ^ n - 1)).retire 32

/-- LDC (R113); its row with D = 0 is a PREF with S = 1, which is ILLOP (R114). -/
def execLdc (d a b : BitVec 5) (sx : BitVec 1) (w : BitVec 6) (h : BitVec 3) (s : State) : Result :=
  .next <| if d = 0 then s.illop
    else s.loadWith d a b sx (w.toNat + 1) h .const (s.readSegsConst s.seq.constMark)

/-- PREF (R114): no architectural effect and no trap. -/
def execPref (_a _b : BitVec 5) (_w : BitVec 6) (_h : BitVec 3) (s : State) : Result := .next (s.retire 32)

/-- Extent register n as the instruction reads it (R34). -/
def State.e (s : State) (n : Nat) : BitVec 128 := (s.extents[n]?).getD 0

/-- Writes extent register n. -/
def State.setE (s : State) (n : Nat) (x : BitVec 128) : State := s.mapCore fun c => { c with e := c.e.setIfInBounds n x }

/-- ETAG (R36). -/
def execEtag (d a b : BitVec 5) (_w : BitVec 3) (s : State) : Result :=
  let x := s.g a
  .next <| if 15 < b.toNat then s.illop
    else if bits x.toNat 63 58 ≠ 0 then s.trap ⟨.addr, x, 0, 0⟩
    else s.finishG 32 d (tagged b.toNat (offOf x))

/-- EXTN (R37). -/
def execExtn (d a b : BitVec 5) (p : BitVec 2) (_w : BitVec 3) (s : State) : Result :=
  let t := s.g a
  let len := s.g b
  let x := s.e (tagOf t)
  let off := offOf t
  .next <| if d = 0 ∨ 15 < d.toNat then s.illop
    else if bits t.toNat 59 58 ≠ 0 then s.trap ⟨.addr, t, 0, 0⟩
    else if extKind x = 2 then s.trap ⟨.perm, t, 0, 0⟩
    else if extKind x = 3 ∧ (off % 64 ≠ 0 ∨ len.toNat % 64 ≠ 0) then s.trap ⟨.addr, t, 0, 0⟩
    else if off + len.toNat > extLen x then s.trap ⟨.bounds, t, len, BitVec.ofNat 64 (extLen x)⟩
    else
      (s.setE d.toNat (mkExtent (extBase x + off) len.toNat (extKind x) (extRead x && p.getLsbD 0)
        (extWrite x && p.getLsbD 1) (extTidx x))).retire 32

/-- A field of an extent register into g[D] (R38). -/
def State.extr (s : State) (d b : BitVec 5) (f : BitVec 128 → Nat) : State :=
  if 15 < b.toNat then s.illop else s.finishG 32 d (BitVec.ofNat 64 (f (s.e b.toNat)))

/-- KIND, PR, PW and TIDX as EXTR.ATTR shows them (R38). -/
def extAttr (x : BitVec 128) : Nat :=
  extKind x + (extRead x).toNat <<< 3 + (extWrite x).toNat <<< 4 + extTidx x <<< 5

def execExtrBase (d b : BitVec 5) (_w : BitVec 3) (s : State) : Result := .next (s.extr d b extBase)
def execExtrLen (d b : BitVec 5) (_w : BitVec 3) (s : State) : Result := .next (s.extr d b extLen)
def execExtrAttr (d b : BitVec 5) (_w : BitVec 3) (s : State) : Result := .next (s.extr d b extAttr)

end Sys2Proof.Machine
end

