-- ==== Sys2Proof/Machine/VecMem.lean ====
section
/-! DEFINITION. Vector loads and stores (R144-R158): element addresses, their checks in element order, the policies, the
fault-only-first and the window-chained forms. -/

namespace Sys2Proof.Machine

/-- Maps a partial function over a list, up to its first error. -/
def tryAll {α β ε : Type} (f : α → Except ε β) : List α → Except ε (List β)
  | [] => .ok []
  | x :: xs =>
    match f x with
    | .error e => .error e
    | .ok y =>
      match tryAll f xs with
      | .error e => .error e
      | .ok ys => .ok (y :: ys)

/-- Checks elements in ascending order (R46): what the elements below the first failing one resolve to, and that failure. -/
def scanElems {β : Type} (f : Nat → Except Trap β) : List Nat → List (Nat × β) × Option (Nat × Trap)
  | [] => ([], none)
  | i :: is =>
    match f i with
    | .error t => ([], some (i, t))
    | .ok x => let (rest, bad) := scanElems f is; ((i, x) :: rest, bad)

/-- The tagged address of an element at an exact offset from g[A] (R148). Bits 59:58 of g[A] that are not zero (R29) raise ADDR
(DESIGN CHOICE, log 10). -/
def elemAddr (t : Word) (d : Int) : Except Trap Word :=
  if bits t.toNat 59 58 ≠ 0 then .error ⟨.addr, t, 0, 0⟩ else offsetBy t d

/-- A vector memory access: the base, the offset of field f of element i, the number of fields, and the class. -/
structure VAccess where
  base : Word
  delta : Nat → Nat → Int
  nf : Nat := 1
  cls : Class

/-- Where the fields of element i lie, once all of them pass (R148). -/
def State.elemSegs (s : State) (x : VAccess) (i : Nat) : Except Trap (List (List Seg)) :=
  tryAll (fun f =>
    match elemAddr x.base (x.delta i f) with
    | .error t => .error t
    | .ok t => s.resolve s.via t (vtW s.vt) x.cls) (List.range x.nf)

/-- The offset of field f of element i with consecutive elements (R146). -/
def unitDelta (nf w : Nat) (i f : Nat) : Int := ((i * nf + f) * w : Nat)

/-- A loaded value as a container holds it (R149). -/
def State.loaded (s : State) (x : Nat) : Nat :=
  if vtMsx s.vt then ofInt s.cw (toInt (vtW s.vt) x) else x % 2 ^ s.cw

/-- Places loaded elements, field by field, with their marks (R149, R161). -/
def State.putFields (s : State) (d : BitVec 5) (nf : Nat) (es : List (Nat × List Nat)) : State :=
  (List.range nf).foldl (fun s f =>
    s.putElems (d.toNat + f * s.grp) s.grp s.cw (es.map fun e => (e.1, e.2.getD f 0))) s

/-- The completion step of a load (R145): the policies of every group it writes; the tail starts at VL. A dependent instruction that
begins on an early group finds them applied there already (DESIGN CHOICE, log 47). -/
def State.finishLoad (s : State) (d : BitVec 5) (nf : Nat) (off : List Nat) : State :=
  let s := (List.range nf).foldl (fun s f =>
    (s.maskPolicy (d.toNat + f * s.grp) s.grp s.cw off).tailPolicy (d.toNat + f * s.grp) s.grp s.cw s.vl) s
  ((s.setLdr .v d.toNat).setEstart 0).retire 32

/-- The causes that end a fault-only-first load early without a trap (R153). -/
def trims (c : Cause) : Bool := c = .addr || c = .bounds || c = .page || c = .perm

/-- A vector load (R149); with `ff` a fault-only-first one (R153). -/
def State.vload (s : State) (d : BitVec 5) (k h : BitVec 3) (x : VAccess) (ff : Bool) (read : List Seg → Nat) : State :=
  let (good, bad) := scanElems (s.elemSegs x) (s.active k s.estart)
  let off := s.maskedOff k s.estart
  let t := s.putFields d x.nf (good.map fun e => (e.1, e.2.map fun g => s.loaded (read g)))
  let t := t.loadHint h (good.flatMap fun e => e.2.flatten)
  match bad with
  | none => t.finishLoad d x.nf off
  | some (i, r) =>
    if ff ∧ good ≠ [] ∧ trims r.cause then
      (t.mapCtl fun c => { c with vl := BitVec.ofNat 64 i }).finishLoad d x.nf (off.filter (· < i))
    else (t.setEstart i).trap r

/-- A container as a store writes it, and whether it saturated (R150). -/
def State.narrowed (s : State) (x : Nat) : Nat × Bool :=
  let w := vtW s.vt
  if ¬ vtMsat s.vt ∨ w = s.cw then (x % 2 ^ w, false)
  else if vtMsx s.vt then
    let v := toInt s.cw x
    (ofInt w (satS v w), satS v w ≠ v)
  else ((satZ x w).toNat, satZ x w ≠ x)

/-- A vector store (R150): elements in ascending order, and fields in ascending order within each. -/
def State.vstore (s : State) (d : BitVec 5) (k h : BitVec 3) (x : VAccess) : State :=
  let w := vtW s.vt
  let (good, bad) := scanElems (s.elemSegs x) (s.active k s.estart)
  let groups := (List.range x.nf).map fun f => s.group (d.toNat + f * s.grp) s.grp
  let data := good.flatMap fun e => (groups.zip e.2).map fun p => (p.2, s.narrowed (elem p.1 s.cw e.1))
  let t := data.foldl (fun t y => t.writeSegs s.via.die y.1 y.2.1 (2 ^ w - 1)) s
  let t := t.orSat (data.any fun y => y.2.2)
  let t := if s.lastUse h then
      (t.throughSegs (data.flatMap fun y => y.1)).dropSegs (data.flatMap fun y => y.1)
    else t
  match bad with
  | none => (t.setEstart 0).retire 32
  | some (i, r) => (t.setEstart i).trap r

/-- The register fields of a unit, strided or segment form are legal (R147). -/
def State.vmemOk (s : State) (d : BitVec 5) (nf : Nat) : Bool := groupOk d s.grp && d.toNat + nf * s.grp ≤ 32

def State.unit (s : State) (a : BitVec 5) (c : Class) : VAccess :=
  { base := s.g a, delta := unitDelta 1 (vtW s.vt), cls := c }

def State.strided (s : State) (a b : BitVec 5) (c : Class) : VAccess :=
  { base := s.g a, delta := fun i _ => (i : Int) * (s.g b).toInt, cls := c }

def State.indexed (s : State) (a b : BitVec 5) (c : Class) : VAccess :=
  let x := s.group b.toNat s.grp
  { base := s.g a, delta := fun i _ => (elem x s.cw i : Nat), cls := c }

def State.segments (s : State) (a : BitVec 5) (nf : Nat) (c : Class) : VAccess :=
  { base := s.g a, delta := unitDelta nf (vtW s.vt), nf := nf, cls := c }

def execVld (d a : BitVec 5) (k h : BitVec 3) (s : State) : Result :=
  .next <| if s.vmemOk d 1 then s.vload d k h (s.unit a .load) false s.readSegs else s.illop

def execVlds (d a b : BitVec 5) (k h : BitVec 3) (s : State) : Result :=
  .next <| if s.vmemOk d 1 then s.vload d k h (s.strided a b .load) false s.readSegs else s.illop

def execVldx (d a b : BitVec 5) (k h : BitVec 3) (s : State) : Result :=
  .next <| if s.vmemOk d 1 ∧ groupOk b s.grp ∧ ¬ groupsMeet d s.grp b s.grp
    then s.vload d k h (s.indexed a b .load) false s.readSegs else s.illop

def execVldseg (d a : BitVec 5) (k h : BitVec 3) (n : BitVec 5) (s : State) : Result :=
  let nf := n.toNat + 1
  .next <| if 2 ≤ nf ∧ nf ≤ 8 ∧ s.vmemOk d nf then s.vload d k h (s.segments a nf .load) false s.readSegs else s.illop

def execVldff (d a : BitVec 5) (k h : BitVec 3) (s : State) : Result :=
  .next <| if s.vmemOk d 1 then s.vload d k h (s.unit a .load) true s.readSegs else s.illop

/-- VLDC reads through the constant path (R158). -/
def execVldc (d a : BitVec 5) (k h : BitVec 3) (s : State) : Result :=
  .next <| if s.vmemOk d 1 then s.vload d k h (s.unit a .const) false (s.readSegsConst s.seq.constMark) else s.illop

def execVst (d a : BitVec 5) (k h : BitVec 3) (s : State) : Result :=
  .next <| if s.vmemOk d 1 then s.vstore d k h (s.unit a .store) else s.illop

def execVsts (d a b : BitVec 5) (k h : BitVec 3) (s : State) : Result :=
  .next <| if s.vmemOk d 1 then s.vstore d k h (s.strided a b .store) else s.illop

def execVstx (d a b : BitVec 5) (k h : BitVec 3) (s : State) : Result :=
  .next <| if s.vmemOk d 1 ∧ groupOk b s.grp then s.vstore d k h (s.indexed a b .store) else s.illop

def execVstseg (d a : BitVec 5) (k h : BitVec 3) (n : BitVec 5) (s : State) : Result :=
  let nf := n.toNat + 1
  .next <| if 2 ≤ nf ∧ nf ≤ 8 ∧ s.vmemOk d nf then s.vstore d k h (s.segments a nf .store) else s.illop

/-- The fields of a window control block (R250). -/
def blockWcnt (b : Nat) : Nat := bits b 63 0
def blockRcnt (b : Nat) : Nat := bits b 127 64
def blockCap (b : Nat) : Nat := bits b 152 128
def blockBound (b : Nat) : Bool := bits b 155 155 = 1
def blockQueue (b : Nat) : Nat := bits b 159 156

/-- The stream position of ring offset o with released count rel and capacity cap (R155). -/
def ringPosition (rel cap o : Nat) : Nat := rel + (((o : Int) - rel) % cap).toNat

/-- The kind-W extent that a tagged address selects, with its block: PERM where it is of another kind, its block is not
live or has another capacity (R154, R252). These checks come first, also where no element is active, and keep ESTART (DESIGN
CHOICE, log 10). -/
def State.liveWindow (s : State) (t : Word) : Except Trap (BitVec 128 × Nat) :=
  let x := s.e (tagOf t)
  let b := s.core.block (extTidx x)
  if bits t.toNat 59 58 ≠ 0 then .error ⟨.addr, t, 0, 0⟩
  else if extKind x ≠ 2 ∨ ¬ blockLive b ∨ blockCap b ≠ extLen x then .error ⟨.perm, t, 0, 0⟩
  else .ok (x, b)

/-- The means of a chained load: the extent it captured when it issued (R34). -/
def State.chainVia (s : State) (c : Chain) : Via := { s.via with ext := Vector.replicate 16 c.ext }

/-- Where element i of a chained load lies, and the write count it needs (R155). -/
def State.chainElem (s : State) (c : Chain) (i : Nat) : Except Trap (List Seg × Nat) :=
  let w := vtW c.vt
  match elemAddr c.t (unitDelta 1 w i 0) with
  | .error e => .error e
  | .ok u =>
    match s.resolve (s.chainVia c) u w .chained with
    | .error e => .error e
    | .ok segs =>
      let p := ringPosition c.rel (extLen c.ext) (offOf u)
      if p + w > c.rel + extLen c.ext then .error ⟨.bounds, u, BitVec.ofNat 64 w, BitVec.ofNat 64 (extLen c.ext)⟩
      else .ok (segs, p + w)

/-- The groups of a chained load that the write count allows, in ascending order: how many of the checked elements they
hold (R155). -/
def readyElems (wcnt epr : Nat) : Nat → List (Nat × List Seg × Nat) → Nat
  | 0, _ => 0
  | _, [] => 0
  | fuel + 1, e :: es =>
    let j := e.1 / epr
    let grp := (e :: es).takeWhile fun x => x.1 / epr = j
    if grp.all fun x => x.2.2 ≤ wcnt then grp.length + readyElems wcnt epr fuel ((e :: es).drop grp.length) else 0

/-- The elements of one group under a chained load's VT. -/
def Chain.epr (c : Chain) : Nat := 16384 / vtCw c.vt

/-- Runs a change of the destination under the VL and VT that a chained load captured (R163). -/
def State.under (s : State) (c : Chain) (f : State → State) : State :=
  let ctl := s.core.ctl
  (f (s.mapCtl fun x => { x with vl := c.vl, vt := c.vt })).mapCtl fun x => { x with vl := ctl.vl, vt := ctl.vt }

/-- Writes loaded elements of a chained load. -/
def State.chainPut (s : State) (c : Chain) (es : List (Nat × List Seg × Nat)) : State :=
  s.under c fun t => t.putFields c.d 1 (es.map fun e => (e.1, [t.loaded (t.readSegs e.2.1)]))

/-- The policies of a chained load whose last group has arrived (R145). A dependent instruction that begins on an earlier group finds
its other elements as they were (DESIGN CHOICE, log 47). -/
def State.chainPolicies (s : State) (c : Chain) : State :=
  s.under c fun t => (t.maskPolicy c.d.toNat t.grp t.cw c.off).tailPolicy c.d.toNat t.grp t.cw c.vl.toNat

/-- The write count of the window that a chained load reads. -/
def State.chainCount (s : State) (c : Chain) : Nat := blockWcnt (s.core.block (extTidx c.ext))

/-- The write count for which the first incomplete group of a chained load waits (R155, R363). -/
def State.chainNeed (s : State) (c : Chain) (done : Nat) : Nat :=
  let (good, _) := scanElems (s.chainElem c) (c.act.filter fun i => done ≤ i / c.epr)
  match good with
  | [] => 0
  | e :: _ => ((good.takeWhile fun x => x.1 / c.epr = e.1 / c.epr).map fun x => x.2.2).foldl max 0

/-- A chained load enters its wait in the scoreboard: the groups below the one of element i are complete (R152, R155). It has
issued, so ESTART, LDR and pc are as after it. -/
def State.beginChain (s : State) (c : Chain) (i : Nat) : State :=
  let g := vtG c.vt
  let n := i / c.epr
  let x : InFlight := { s.flight s s.seq.insn (operands c.vt s.seq.insn) with
    first := c.first, epr := c.epr, owes := (groupsOf g ((List.range g).map fun j => (.v, c.d.toNat + j))).drop n, done := n
    dests := regsOf ((List.range g).map fun j => (.v, c.d.toNat + j))
    old := [], bare := [], window := some (extTidx c.ext), chain := some c }
  let t := s.mapSeq fun q => { q with inFlight := q.inFlight ++ [x] }
  ((t.setLdr .v c.d.toNat).setEstart 0).retire 32

/-- A chained load goes on from what it captured (R155): the groups whose bits have arrived complete. Where a group must wait,
the load waits in the scoreboard and its sequencer goes on (R156), or, where an element will trap, the sequencer waits in it.
ESTART stands for its start until then, so that the policies still apply to every element of the instruction. -/
def State.chainGo (s : State) (c : Chain) : State :=
  let (good, bad) := scanElems (s.chainElem c) c.act
  let n := readyElems (s.chainCount c) c.epr 512 good
  let t := s.chainPut c (good.take n)
  match (good.drop n).head?, bad with
  | none, none => ((((t.chainPolicies c).setLdr .v c.d.toNat).setEstart 0).retire 32)
  | none, some (i, r) => (t.setEstart i).trap r
  | some e, some _ => t.waitIn (.chained { c with act := c.act.filter fun i => e.1 / c.epr ≤ i / c.epr })
  | some e, none => t.beginChain c e.1

/-- VLD.WC (R154, R155): its operands, the released count and the vector state are read once, when it issues. -/
def State.chainedLoad (s : State) (d a : BitVec 5) (k : BitVec 3) : State :=
  if ¬ s.vmemOk d 1 then s.illop else
  s.orTrap (s.liveWindow (s.g a)) fun (x, b) =>
    s.chainGo { first := s.estart, d := d, t := s.g a, ext := x, rel := blockRcnt b, vl := s.core.ctl.vl, vt := s.vt
                act := s.active k s.estart, off := s.maskedOff k s.estart }

def execVldWc (d a : BitVec 5) (k _h : BitVec 3) (s : State) : Result := .next (s.chainedLoad d a k)

/-- The element groups of a chained load in flight that have arrived since complete (R155); none is left of it once all have. -/
def State.chainStep (s : State) (x : InFlight) (c : Chain) : State × Option InFlight :=
  let (good, _) := scanElems (s.chainElem c) (c.act.filter fun i => x.done ≤ i / c.epr)
  let n := readyElems (s.chainCount c) c.epr 512 good
  let t := s.chainPut c (good.take n)
  match (good.drop n).head? with
  | none => (t.chainPolicies c, none)
  | some e => (t, some { x with owes := x.owes.drop (e.1 / c.epr - x.done), done := e.1 / c.epr })

/-- The chained loads of the sequencer in focus go on with what has arrived (R155). -/
def State.chains (s : State) : State :=
  let (t, fl) := s.seq.inFlight.foldl (fun (r : State × List InFlight) x =>
    match x.chain with
    | none => (r.1, r.2 ++ [x])
    | some c =>
      let (u, y) := r.1.chainStep x c
      (u, r.2 ++ y.toList)) (s, [])
  if s.seq.inFlight.any fun x => x.chain.isSome then t.mapSeq fun q => { q with inFlight := fl } else s

end Sys2Proof.Machine
end

