-- ==== Sys2Proof/Machine/Sync.lean ====
section
/-! DEFINITION. Atomics (R339-R344), guards and fences (R328-R337), windows (R250-R253, R226), and the waits they make. Every
write of the model is performed for every agent when it is made (log 3), so a release has nothing left to wait for. -/

namespace Sys2Proof.Machine

/-- A sequencer of a core. -/
def Core.seqAt (c : Core) : SeqId → Seq
  | .main => c.main
  | .matrix => c.matrix

/-- The new value of AMO, on w-bit values (R339). -/
def amoOp (op w m b : Nat) : Nat :=
  match op with
  | 0 => (m + b) % 2 ^ w
  | 1 => m &&& b
  | 2 => m ||| b
  | 3 => m ^^^ b
  | 4 => if toInt w b < toInt w m then b else m
  | 5 => if toInt w m < toInt w b then b else m
  | 6 => min m b
  | 7 => max m b
  | 8 => b
  | _ => (fAdd (if w = 32 then .f32 else .f64) 0 m b).bits

/-- One indivisible read and write at the home of a target; none writes nothing (R340). -/
def State.atomic (s : State) (segs : List Seg) (w : Nat) (f : Nat → Option Nat) : State :=
  match f (s.readSegs segs) with
  | some x => s.store (some (s.keep true)) segs w x
  | none => s

/-- AMO and CAS (R340): g[D] receives the old value. -/
def State.amo (s : State) (d a : BitVec 5) (w : Nat) (f : Nat → Option Nat) : State :=
  s.orTrap (s.resolve s.via (s.g a) w .atomic) fun segs =>
    (s.atomic segs w f).finishG 32 d (BitVec.ofNat 64 (s.readSegs segs))

/-- The width that SZ names (R339). -/
def szWidth (z : BitVec 2) : Nat := 8 * 2 ^ z.toNat

def execAmo (d a b : BitVec 5) (o : BitVec 4) (z : BitVec 2) (s : State) : Result :=
  let w := szWidth z
  .next <| if 9 < o.toNat ∨ (o = 9 ∧ z.toNat < 2) then s.illop
    else s.amo d a w fun m => some (amoOp o.toNat w m ((s.g b).toNat % 2 ^ w))

def execCas (d a b : BitVec 5) (z : BitVec 2) (s : State) : Result :=
  let w := szWidth z
  .next (s.amo d a w fun m => if m = (s.g d).toNat % 2 ^ w then some ((s.g b).toNat % 2 ^ w) else none)

/-- The new value of VAMO; fadd takes the format of R171 (R339, R341). -/
def vamoOp (op w : Nat) (f : Option Fmt) (m b : Nat) : Nat :=
  match op, f with
  | 0, _ => amoOp 0 w m b
  | 1, some f => (fAdd f 0 m b).bits
  | 1, none => m
  | op, _ => amoOp (op - 1 + (if 4 ≤ op then 1 else 0)) w m b

/-- VAMO (R341): one atomic per active element, in ascending order. -/
def State.vamo (s : State) (d a b : BitVec 5) (op : Nat) (k : BitVec 3) : State :=
  let w := s.cw
  let g := s.grp
  let f := vtFmt s.vt
  if vtW s.vt ≠ w ∨ (op = 1 ∧ (f = none ∨ w < 16)) ∨ ¬ (groupOk d g ∧ groupOk b g) ∨ groupsMeet d g b g then s.illop else
  let x := s.group d.toNat g
  let (good, bad) := scanElems (s.elemSegs (s.indexed a b .atomic)) (s.active k s.estart)
  let run := good.foldl (fun (r : State × List (Nat × Nat)) e =>
    let segs := e.2.flatten
    (r.1.atomic segs w fun m => some (vamoOp op w f m (elem x w e.1)), (e.1, r.1.readSegs segs) :: r.2)) (s, [])
  let off := s.maskedOff k s.estart
  let t := run.1.putElems d.toNat g w run.2
  match bad with
  | none => t.finishLoad d 1 off
  | some (i, r) => (t.setEstart i).trap r

def execVamo (d a b : BitVec 5) (o k : BitVec 3) (s : State) : Result := .next (s.vamo d a b o.toNat k)

/-- The running sums of a list, each before its own element, from m on. -/
def prefixSums (m : Nat) : List Nat → List Nat
  | [] => []
  | x :: xs => m :: prefixSums (m + x) xs

/-- FAAS (R343): performed whole, with ESTART taken as 0; on the matrix sequencer ESTART stays (R386). -/
def State.faas (s : State) (d a : BitVec 5) (k : BitVec 3) : State :=
  let w := s.cw
  let g := s.grp
  if ¬ groupOk d g then s.illop else
  s.orTrap (s.resolve s.via (s.g a) w .atomic) fun segs =>
    let x := s.group d.toNat g
    let act := s.active k 0
    let off := s.maskedOff k 0
    let xs := act.map fun i => elem x w i
    let m := s.readSegs segs
    let t := s.atomic segs w fun m => some ((m + xs.foldl (· + ·) 0) % 2 ^ w)
    let t := t.putElems d.toNat g w (act.zip (prefixSums m xs))
    let t := ((t.maskPolicy d.toNat g w off).tailPolicy d.toNat g w s.vl).setLdr .v d.toNat
    (if s.cur = .main then t.setEstart 0 else t).retire 32

def execFaas (d a : BitVec 5) (k : BitVec 3) (s : State) : Result := .next (s.faas d a k)

/-- The checks of R330 on a guard word: whether it lies in the local store, and its address. -/
def State.guardWord (s : State) (t : Word) (wr : Bool) : Except Trap (Bool × Nat) :=
  match checkExtent s.extents t 64 { kinds := [0, 1, 2], rd := true, wr := wr } with
  | .error e => .error e
  | .ok (kind, a) => if a % 64 ≠ 0 then .error ⟨.addr, t, 0, 0⟩ else .ok (kind ≠ 0, a)

/-- GBIND (R330). -/
def execGbind (d a b : BitVec 5) (sc : BitVec 2) (s : State) : Result :=
  let n := s.g b
  .next <| if n = 0 then s.trap ⟨.addr, s.g a, 0, 0⟩ else
    s.orTrap (s.guardWord (s.g d) true) fun (gl, ga) =>
    if gl ∧ sc ≠ 0 then s.trap ⟨.perm, s.g d, 0, 0⟩ else
    s.orTrap (checkExtent s.extents (s.g a) n.toNat { kinds := [0, 1], rd := false, wr := true }) fun (kind, ra) =>
    if 16 ≤ s.core.guards.length then s.trap ⟨.perm, s.g d, 0, 0⟩ else
    (s.mapCore fun c => { c with guards := c.guards ++ [{
      sc := sc, rlen := n.toNat, regionLocal := kind ≠ 0, rbase := ra, guardLocal := gl, gaddr := ga }] }).retire 32

/-- GUNBIND (R331). -/
def execGunbind (a : BitVec 5) (s : State) : Result :=
  .next <| s.orTrap (checkExtent s.extents (s.g a) 64 { kinds := [0, 1, 2], rd := true, wr := true }) fun (kind, ga) =>
    (s.mapCore fun c => { c with guards := c.guards.filter fun x => ¬ (x.guardLocal = (kind ≠ 0) ∧ x.gaddr = ga) }).retire 32

/-- REL (R332). -/
def execRel (d a : BitVec 5) (s : State) : Result :=
  .next <| s.orTrap (s.guardWord (s.g a) true) fun _ =>
    s.orTrap (s.resolve s.via (s.g a) 64 .atomic) fun segs =>
      let c := (s.readSegs segs + 1) % 2 ^ 64
      (s.store (some (s.keep true)) segs 64 c).finishG 32 d (BitVec.ofNat 64 c)

/-- ACQ (R333). -/
def State.acq (s : State) (d a b : BitVec 5) : State :=
  s.orTrap (s.guardWord (s.g a) false) fun _ =>
    s.orTrap (s.resolve s.via (s.g a) 64 .watch) fun segs =>
      let c := s.readSegs segs
      if (s.g b).toNat ≤ c then s.finishG 32 d (BitVec.ofNat 64 c) else s.waitIn (.acq d a b)

def execAcq (d a b : BitVec 5) (s : State) : Result := .next (s.acq d a b)

/-- ACQ_SATISFIED (R333). -/
def execAcqSatisfied (c : Nat) (q : SeqId) (s : State) : Result :=
  .next <| match ((s.coreAt c).seqAt q).wait with
    | some (.acq d a b) => s.wake c q fun t => t.acq d a b
    | _ => s

/-- WFE (R403). -/
def State.wfe (s : State) (d a b : BitVec 5) : State :=
  s.orTrap (s.resolve s.via (s.g a) 64 .watch) fun segs =>
    let c := s.readSegs segs
    if (s.g b).toNat ≠ c then s.finishG 32 d (BitVec.ofNat 64 c) else s.waitIn (.wfe d a b)

def execWfe (d a b : BitVec 5) (s : State) : Result := .next (s.wfe d a b)

/-- WFE_WAKE (R403). -/
def execWfeWake (c : Nat) (s : State) : Result :=
  .next <| match (s.coreAt c).main.wait with
    | some (.wfe d a b) => s.wake c .main fun t => t.wfe d a b
    | _ => s

/-- FENCE (R335): KD = 0 is ILLOP. -/
def execFence (_sc k : BitVec 2) (s : State) : Result := .next (if k = 0 then s.illop else s.retire 32)

/-- CFENCE (R337): later constant-path reads return nothing that a write before it replaced. -/
def execCfence (s : State) : Result := .next ((s.mapSeq fun q => { q with constMark := s.ms.stamp }).retire 32)

/-- Writes window control block n (R250). -/
def Core.putBlock (c : Core) (n b : Nat) : Core := { c with ls := c.ls.writeBits (Config.blocksBase + 256 * n) 256 b }

/-- A window control block from its fields (R250). -/
def mkBlock (wcnt rcnt cap : Nat) (live bound : Bool) (queue : Nat) : Nat :=
  wcnt + rcnt <<< 64 + cap <<< 128 + live.toNat <<< 154 + bound.toNat <<< 155 + queue <<< 156

/-- The kind-W extent that a window instruction selects, with the permission it needs and offset 0 (R252). -/
def State.windowExtent (s : State) (t : Word) (wr : Bool) : Except Trap (BitVec 128) :=
  let x := s.e (tagOf t)
  if bits t.toNat 59 58 ≠ 0 then .error ⟨.addr, t, 0, 0⟩
  else if extKind x ≠ 2 ∨ (if wr then extWrite x else extRead x) = false then .error ⟨.perm, t, 0, 0⟩
  else if offOf t ≠ 0 then .error ⟨.addr, t, 0, 0⟩
  else .ok x

/-- The extent and the block of a live window of the extent's capacity (R252). -/
def State.openWindow (s : State) (t : Word) (wr : Bool) : Except Trap (BitVec 128 × Nat) :=
  match s.windowExtent t wr with
  | .error e => .error e
  | .ok x =>
    let b := s.core.block (extTidx x)
    if ¬ blockLive b ∨ blockCap b ≠ extLen x then .error ⟨.perm, t, 0, 0⟩ else .ok (x, b)

/-- BARINIT (R252). -/
def execBarinit (a : BitVec 5) (s : State) : Result :=
  let t := s.g a
  .next <| s.orTrap (s.windowExtent t true) fun x =>
    let b := s.core.block (extTidx x)
    if extLen x = 0 then s.trap ⟨.bounds, t, 1, 0⟩
    else if blockLive b ∧ blockBound b then s.trap ⟨.barclobber, t, 0, 0⟩
    else (s.mapCore fun c => c.putBlock (extTidx x) (mkBlock 0 0 (extLen x) true false 0)).retire 32

/-- BARWAIT (R252). -/
def State.barwait (s : State) (a b : BitVec 5) : State :=
  s.orTrap (s.openWindow (s.g a) false) fun (_, w) =>
    if (s.g b).toNat ≤ blockWcnt w then s.retire 32 else s.waitIn (.barwait a b)

def execBarwait (a b : BitVec 5) (s : State) : Result := .next (s.barwait a b)

/-- A VLD.WC through window n is in flight on the core (R156): in the scoreboard, with its sequencer waiting in it, or on the replay
list, from which it is issued again. -/
def Core.chaining (c : Core) (n : Nat) : Bool :=
  let ext (t : Word) : BitVec 128 := (c.e[tagOf t]?).getD 0
  (c.main.inFlight.any fun x => x.chain.isSome && x.window == some n) ||
  (match c.main.wait with
  | some (.chained k) => extTidx k.ext = n
  | _ => false) ||
  c.main.replay.any fun e => isVldWc e.word && extKind (ext e.ga) = 2 && extTidx (ext e.ga) = n

/-- BARREL (R252, R226, R156). -/
def State.barrel (s : State) (a b : BitVec 5) : State :=
  let t := s.g a
  let n := (s.g b).toNat
  s.orTrap (s.openWindow t true) fun (x, w) =>
    if s.core.chaining (extTidx x) then s.waitIn .barrel
    else if blockWcnt w < blockRcnt w + n then
      s.trap ⟨.bounds, t, s.g b, BitVec.ofNat 64 (blockWcnt w - blockRcnt w)⟩
    else
      (s.mapCore fun c => c.putBlock (extTidx x) (putBits w 127 64 (blockRcnt w + n))).retire 32

def execBarrel (a b : BitVec 5) (s : State) : Result := .next (s.barrel a b)

/-- WINDOW_COUNT_REACHED (R155, R252): a BARWAIT, or the chained loads, of a sequencer of core c go on. -/
def execWindowCountReached (c : Nat) (q : SeqId) (s : State) : Result :=
  match ((s.coreAt c).seqAt q).wait with
  | some (.barwait a b) => .next (s.wake c q fun t => t.barwait a b)
  | some (.chained x) => if s.halted then .next s else (s.focus c q).again fun t => .next (t.chainGo x)
  | _ => .next (if s.halted ∨ Config.cores ≤ c then s else (s.focus c q).chains)

/-- VARIABLE_LATENCY_COMPLETE (R55, R152, R164): the i-th instruction in flight leaves the scoreboard, or its next element group
does, a free choice, and its flags are raised. A chained load completes by its window's count alone (R155). -/
def execVariableLatencyComplete (c : Nat) (q : SeqId) (i : Nat) (s : State) : Result :=
  .next <| if Config.cores ≤ c then s else
    let t := s.focus c q
    match t.seq.inFlight[i]? with
    | none => t
    | some x => if x.chain.isSome then t else
      let (left, fl) := x.release (t.drawBool 4 255)
      (t.mapSeq fun y => { y with inFlight := y.inFlight.take i ++ left.toList ++ y.inFlight.drop (i + 1) }).landed fl

end Sys2Proof.Machine
end

