-- ==== Sys2Proof/Machine/Control.lean ====
section
/-! DEFINITION. Branches, jumps, hardware loops, the repeat frame, FORK and rendezvous (R126-R137, R62-R64). -/

namespace Sys2Proof.Machine

/-- A conditional branch (R126, R128, R132). -/
def State.branch (s : State) (a b : BitVec 5) (o : BitVec 12) (taken : Word → Word → Bool) : State :=
  if taken (s.g a) (s.g b) then s.jumpTo (branchTarget s.seq.pc o.toInt) else s.retire 32

def execBeq (a b : BitVec 5) (o : BitVec 12) (s : State) : Result := .next (s.branch a b o fun x y => x = y)
def execBne (a b : BitVec 5) (o : BitVec 12) (s : State) : Result := .next (s.branch a b o fun x y => x ≠ y)
def execBlt (a b : BitVec 5) (o : BitVec 12) (s : State) : Result := .next (s.branch a b o fun x y => x.slt y)
def execBge (a b : BitVec 5) (o : BitVec 12) (s : State) : Result := .next (s.branch a b o fun x y => ! x.slt y)
def execBltu (a b : BitVec 5) (o : BitVec 12) (s : State) : Result := .next (s.branch a b o fun x y => x < y)
def execBgeu (a b : BitVec 5) (o : BitVec 12) (s : State) : Result := .next (s.branch a b o fun x y => y ≤ x)

/-- The link value, PC + 32 (R127); behind the last instruction of the space it is 0 (DESIGN CHOICE, log 38). -/
def State.link (s : State) : Word := (s.seq.pc + 32).setWidth 64

/-- JAL (R127): a target that is no address writes no link (R128). -/
def execJal (d : BitVec 5) (o : BitVec 20) (s : State) : Result :=
  let x := branchTarget s.seq.pc o.toInt
  .next <| if legalTarget x then ((s.setG d s.link).setLdr .g d.toNat).jumpTo x else s.jumpTo x

/-- JALR (R127): a target with a bit of [63:58] or [3:0] set, or out of the space, raises ADDR (R19, R128). -/
def execJalr (d a : BitVec 5) (i : BitVec 12) (_w : BitVec 3) (s : State) : Result :=
  let x : Int := (s.g a).toNat + i.toInt
  .next <| if legalTarget x ∧ x % 16 = 0 then ((s.setG d s.link).setLdr .g d.toNat).jumpTo x
    else s.trap ⟨.addr, BitVec.ofInt 64 x, 0, 0⟩

/-- LOOP and LOOPI (R131); END = 0 is ILLOP (R129). -/
def State.openLoop (s : State) (n : Word) (e : BitVec 11) : State :=
  let body := s.seq.pc + 32
  let last := body + BitVec.ofNat 58 (16 * e.toNat)
  let k := s.seq.depth.toNat
  if e = 0 then s.illop
  else if n = 0 then s.mapSeq fun q => { q with wait := none, waited := 0, snap := none, view := [] }.fallTo last
  else if 6 ≤ k then s.trap ⟨.loopovf, s.word, 0, 0⟩
  else
    (s.mapSeq fun q => { q with
      lc := q.lc.setIfInBounds k n, li := q.li.setIfInBounds k 0
      lb := q.lb.setIfInBounds k (body.setWidth 64), le := q.le.setIfInBounds k (last.setWidth 64)
      depth := BitVec.ofNat 3 (k + 1) }).jump body

def execLoop (a : BitVec 5) (e : BitVec 11) (s : State) : Result := .next (s.openLoop (s.g a) e)
def execLoopi (e : BitVec 11) (c : BitVec 10) (s : State) : Result := .next (s.openLoop (c.setWidth 64) e)

/-- LEXIT (R133). -/
def execLexit (s : State) : Result :=
  .next <| if s.seq.depth = 0 then s.trap ⟨.loopovf, s.word + BitVec.ofNat 64 (2 ^ 32), 0, 0⟩
    else (s.mapSeq fun q => { q with depth := q.depth - 1 }).retire 32

/-- RPT (R63, R64): captures and checks its frame, and goes on at its first instruction in pass 0. -/
def execRpt (sm st : BitVec 3) (c : BitVec 10) (s : State) : Result :=
  .next <| s.orTrap (s.openFrame s.seq.pc (c.toNat + 1) st.toNat sm) fun f =>
    (s.mapSeq fun q => { q with frame := some f, rpidx := mkRpidx false 0 0 }).jump (f.addr 0)

/-- FORK (R135): waits for the main sequencer's earlier instructions and an idle matrix sequencer, then starts it. -/
def State.fork (s : State) (target : Int) : State :=
  if s.cur = .matrix then s.illop
  else if ¬ legalTarget target then s.trap ⟨.addr, BitVec.ofInt 64 target, 0, 0⟩
  else if s.core.matrix.running ∨ s.core.main.inFlight ≠ [] then s.waitIn .fork
  else
    (s.mapCore fun c => { c with matrix := { c.matrix with
      running := true, pc := BitVec.ofInt 58 target, g := c.main.g, depth := 0, ldr := 0, rpidx := 0, rpbase := 0
      frame := none, record := [], view := [], wait := none, waited := 0, snap := none, due := 0, owed := {}
      inFlight := [], replay := [], back := none }, ctl := { c.ctl with unseenMatrix := 0 } }).retire 32

def execFork (o : BitVec 21) (s : State) : Result := .next (s.fork (branchTarget s.seq.pc o.toInt))

/-- A sequencer stands at an RDV. -/
def Seq.atRdv (q : Seq) : Bool :=
  match q.wait with
  | some (.rdv _) => true
  | _ => false

/-- The matrix sequencer stands at RDV.END. -/
def Seq.atRdvEnd (q : Seq) : Bool := q.wait = some (.rdv true)

/-- A rendezvous pair completes (R136) while the sequencer in focus performs its RDV: its partner goes on too, each now sees
the other's flags (R164), and after RDV.END the matrix sequencer goes idle, and a handler on it ends (R389). -/
def State.completeRdv (s : State) : State :=
  let ends := s.core.matrix.atRdvEnd
  let s := s.mapCore fun c => { c with
    main := if s.cur = .main then c.main.advance 32 else c.main.passRdv
    matrix := { (if s.cur = .matrix then c.matrix.advance 32 else c.matrix.passRdv) with running := ! ends }
    ctl := { c.ctl with unseenMain := 0, unseenMatrix := 0 } }
  if ends ∧ s.core.ctl.tstat = 3 then s.mapCtl fun c => { c with tstat := 2 } else s

/-- RDV and RDV.END (R136). -/
def State.rdv (s : State) (ends : Bool) : State :=
  if ends ∧ s.cur = .main then s.illop
  else if s.cur = .main ∧ s.core.matrix.running = false then s.retire 32
  else if s.core.main.atRdv ∧ s.core.matrix.atRdv then s.completeRdv
  else s.waitIn (.rdv ends)

def execRdv (s : State) : Result := .next (s.rdv false)
def execRdvEnd (s : State) : Result := .next (s.rdv true)

/-- RDV_PAIR_COMPLETE (R136, R137) on core c, once both sequencers stand at an RDV: the main sequencer performs its RDV. -/
def execRdvPairComplete (c : Nat) (s : State) : Result :=
  let k := s.coreAt c
  .next <| if k.main.atRdv ∧ k.matrix.atRdv then s.wake c .main fun t => t.rdv false else s

end Sys2Proof.Machine
end

