-- ==== Sys2Proof/Machine/Matrix.lean ====
section
/-! DEFINITION. The matrix unit (R254-R273): its buffers and tiles, loading, the order of accumulation, rescaling, storing
and moving tiles. -/

namespace Sys2Proof.Machine

/-- The fields of MSTAT (R255). -/
def mstatDecl (m : Word) (d : BitVec 3) : Bool := m.getLsbD (8 + d.toNat)
def mstatAv (m : Word) : Bool := m.getLsbD 16
def mstatBv (m : Word) : Bool := m.getLsbD 19
def mstatAf (m : Word) : Nat := bits m.toNat 18 17

/-- Replaces bits hi down to lo of MSTAT. -/
def State.putMstat (s : State) (hi lo v : Nat) : State :=
  s.mapCtl fun c => { c with mstat := BitVec.ofNat 64 (putBits c.mstat.toNat hi lo v) }

/-- Tile n. -/
def State.tile (s : State) (d : BitVec 3) : Nat := (s.core.t.get d.toFin).toNat

/-- Writes tile n and sets its DT bit (R256). -/
def State.setTile (s : State) (d : BitVec 3) (x : Nat) : State :=
  (s.mapCore fun c => { c with t := c.t.set d.toNat (BitVec.ofNat 262144 x) d.isLt }).putMstat d.toNat d.toNat 1

/-- The 32 bits of tile element i, i = 64 r + c (R254). -/
def tileElem (t i : Nat) : Nat := elem t 32 i

/-- An instruction that writes tile D: PERM where the tile is not declared (R256). -/
def State.onTile (s : State) (d : BitVec 3) (f : State) : State :=
  if mstatDecl s.core.ctl.mstat d then f else s.denied

/-- The failing access of the lowest offset (R272). -/
def lowestFault {α : Type} (rs : List (Int × Except Trap α)) : Option (Int × Trap) :=
  rs.foldl (fun m x =>
    match x.2, m with
    | .ok _, _ => m
    | .error e, none => some (x.1, e)
    | .error e, some (d, e0) => if x.1 < d then some (x.1, e) else some (d, e0)) none

/-- Reads fields at offsets from g[A], each of its width, all checked first (R258, R272): through kind C on the constant
path, else as plain loads. -/
def State.readFields (s : State) (t : Word) (items : List (Int × Nat)) : Except Trap (List Nat) :=
  let rs := items.map fun x => (x.1,
    match elemAddr t x.1 with
    | .error e => .error e
    | .ok u => s.resolve s.via u x.2 .matrix)
  let read := if extKind (s.e (tagOf t)) = 4 then s.readSegsConst s.seq.constMark else s.readSegs
  match lowestFault rs with
  | some (_, e) => .error e
  | none => .ok (rs.map fun x =>
      match x.2 with
      | .ok segs => read segs
      | .error _ => 0)

/-- The formats of MLDA (R258). -/
def aFmt (f : Nat) : Fmt := if f = 0 then .bf16 else if f = 1 then .e4m3 else .e5m2

/-- MLDA (R258): the buffer holds each element's pattern in a 16-bit field (R395). -/
def State.loadA (s : State) (a b : BitVec 5) (f : Nat) : State :=
  if f = 3 then s.illop else
  let w := (aFmt f).width
  let rs : Int := if b = 0 then (32 * w : Nat) else (s.g b).toInt
  let items := (List.range 4096).map fun i => ((i / 32 : Nat) * rs + (i % 32 * w : Nat), w)
  s.orTrap (s.readFields (s.g a) items) fun xs =>
    (((s.mapCore fun c => { c with abuf := BitVec.ofNat 65536 (joinSlices 16 xs) }).putMstat 18 17 f).putMstat 16 16 1).retire 32

def execMlda (a b : BitVec 5) (f : BitVec 2) (s : State) : Result := .next (s.loadA a b f.toNat)

/-- A B-lane value from its fields (R179). -/
def mkLane (neg : Bool) (m e : Nat) : Nat := neg.toNat <<< 9 + m <<< 5 + e

/-- The B-lane form of a code less its zero point (R179). -/
def laneInt (d : Int) : Nat := mkLane (d < 0) d.natAbs 16

/-- The B-lane form of an e4m3 or e5m2 value (R179). -/
def laneFloat (f : Fmt) (x : Nat) : Nat :=
  match f.unpack x with
  | .nan _ => mkLane false 8 31
  | .inf neg => mkLane neg 0 31
  | .fin neg m e => mkLane neg m (e + 16).toNat

/-- The value of a B-lane form (R179). -/
def laneVal (x : Nat) : FVal :=
  let neg := bits x 9 9 = 1
  let m := bits x 8 5
  let e := bits x 4 0
  if e = 31 then (if m = 0 then .inf neg else .nan false) else .fin neg m ((e : Int) - 16)

/-- The outlier slot of row k under a mask: the set bits below it, if fewer than eight (R230). -/
def outlierSlot (mask k : Nat) : Option Nat :=
  let m := ((List.range k).filter fun i => mask.testBit i).length
  if mask.testBit k ∧ m < 8 then some m else none

/-- The parts of the block that MLDB reads, as offsets and widths (R229, R259). -/
def blockItems (wf : Nat) (u : Bool) : List (Int × Nat) :=
  let part (n base w : Nat) : List (Int × Nat) := (List.range n).map fun i => (((base + i * w : Nat) : Int), w)
  if wf ≤ 1 then
    let cb := 4 - wf
    part 2048 0 cb ++ (part 64 (2048 * cb) cb ++ (part 64 (2112 * cb) 16 ++
      (part 1 (2112 * cb + 1024) 32 ++ part 512 (2112 * cb + 1056) 8)))
  else part 2048 0 8 ++ if u then [] else part 64 16384 16

/-- The B-lane values of a coded block (R260): xs are its parts in the order of blockItems. -/
def codedLanes (xs : List Nat) : List Nat :=
  let codes := xs.take 2048
  let zeros := (xs.drop 2048).take 64
  let mask := (xs.drop 2176).headD 0
  let outliers := xs.drop 2177
  (List.range 32).flatMap fun k =>
    match outlierSlot mask k with
    | some m => ((outliers.drop (64 * m)).take 64).map (laneFloat .e4m3)
    | none => (((codes.drop (64 * k)).take 64).zip zeros).map fun x => laneInt ((x.1 : Int) - x.2)

/-- MLDB (R259, R260). -/
def State.loadB (s : State) (a : BitVec 5) (wf : Nat) (u : Bool) : State :=
  if 3 < wf ∨ (u ∧ wf < 2) then s.illop else
  s.orTrap (s.readFields (s.g a) (blockItems wf u)) fun xs =>
    let f : Fmt := if wf = 2 then .e4m3 else .e5m2
    let lanes := if wf ≤ 1 then codedLanes xs else (xs.take 2048).map (laneFloat f)
    let scales := if u then List.replicate 64 0x3F80 else (xs.drop (if wf ≤ 1 then 2112 else 2048)).take 64
    let nv := 1 < wf ∧ (xs.take 2048).any fun x => (f.unpack x).invalid
    let b := joinSlices 10 lanes + joinSlices 32 (scales.map (· <<< 16)) <<< 20480
    let s := s.mapCore fun c => { c with bbuf := BitVec.ofNat 22528 b }
    (((s.orFlags (if nv then flNV else 0)).putMstat 23 20 (8 * u.toNat + wf)).putMstat 19 19 1).retire 32

def execMldb (a : BitVec 5) (f : BitVec 3) (u : BitVec 1) (s : State) : Result := .next (s.loadB a f.toNat (u = 1))

/-- The signed grid units of a product at largest exponent E, truncated towards zero (R261 step 2). -/
def gridUnits (top : Int) (p : FVal) : Int :=
  match p with
  | .fin neg m e =>
    let q := scaleBy m (e + 40 - top)
    if neg then -(q : Int) else q
  | _ => 0

/-- The largest exponent of the non-zero products (R261 step 1). -/
def topExponent (ps : List FVal) : Option Int :=
  ps.foldl (fun m p =>
    match p with
    | .fin _ n e =>
      if n = 0 then m else
      let x : Int := Nat.log2 n + e
      some (match m with | none => x | some y => max x y)
    | _ => m) none

/-- GroupSum of R261 for finite products. -/
def groupSum (ps : List FVal) : FOut :=
  match topExponent ps with
  | none => { bits := 0 }
  | some top =>
    let t := ps.foldl (fun acc p => acc + gridUnits top p) 0
    if t = 0 then { bits := 0 } else Fmt.f32.round 0 (t < 0) t.natAbs (top - 40)

/-- The sum of one element's 32 products with the special operands of R262. -/
def groupOf (row col : List FVal) : FOut :=
  let pairs := row.zip col
  let anyNan := pairs.any fun x => x.1.isNaN || x.2.isNaN
  let signalling := pairs.any fun x => x.1.invalid
  let zeroInf := pairs.any fun x => (x.1.isZero && x.2.isInf) || (x.1.isInf && x.2.isZero)
  let ps := (pairs.filter fun x => ! (x.1.isNaN || x.2.isNaN)).map fun x => x.1.mul x.2
  let up := ps.contains (.inf false)
  let down := ps.contains (.inf true)
  let nv := if signalling || zeroInf || (up && down) then flNV else 0
  if anyNan || zeroInf || (up && down) then { bits := Fmt.f32.canonNaN, flags := nv }
  else if up || down then { bits := Fmt.f32.withSign down Fmt.f32.infinity }
  else groupSum ps

/-- Element (r, c) after MMA adds its group: steps 5 and 6 of R261. -/
def mmaElem (old scale : Nat) (row col : List FVal) : FOut :=
  let x := groupOf row col
  let y := scaleMul scale x.bits
  let z := fAdd .f32 0 old y.bits
  { bits := z.bits, flags := x.flags ||| y.flags ||| z.flags }

/-- The rows of the A buffer and the columns of the B buffer, as values. -/
def bufferRows (f : Fmt) (a : Nat) : List (List FVal) :=
  (List.range 128).map fun r => (List.range 32).map fun k => f.unpack (elem a 16 (32 * r + k))
def bufferCols (b : Nat) : List (List FVal) :=
  (List.range 64).map fun c => (List.range 32).map fun k => laneVal (elem b 10 (64 * k + c))

/-- MMA (R261, R262). -/
def State.mma (s : State) (d : BitVec 3) : State :=
  let m := s.core.ctl.mstat
  if mstatAv m = false ∨ mstatBv m = false then s.illop else
  s.onTile d <|
    let t := s.tile d
    let b := s.core.bbuf.toNat
    let cols := (bufferCols b).zipIdx
    let outs := (bufferRows (aFmt (mstatAf m)) s.core.abuf.toNat).zipIdx.flatMap fun row =>
      cols.map fun col => mmaElem (tileElem t (64 * row.2 + col.2)) (elem (b >>> 20480) 32 col.2) row.1 col.1
    ((s.setTile d (joinSlices 32 (outs.map FOut.bits))).orFlags (outs.foldl (fun f x => f ||| x.flags) 0)).retire 32

def execMma (d : BitVec 3) (s : State) : Result := .next (s.mma d)

/-- MZERO (R266). -/
def execMzero (d : BitVec 3) (s : State) : Result := .next (s.onTile d ((s.setTile d 0).retire 32))

/-- One element of the integer rescale (R264). -/
def rescaleInt (mode entry x : Nat) : Out :=
  satOut 32 true (roundFX (toInt 32 x * toInt 32 entry) (bits entry 37 32) mode)

/-- MRSC (R263-R265): the table of 64 entries is read whole before the tile changes. -/
def State.rescale (s : State) (d : BitVec 3) (a : BitVec 5) (whole : Bool) : State :=
  let w := if whole then 64 else 32
  s.onTile d <|
    s.orTrap (s.readFields (s.g a) ((List.range 64).map fun c => (((w * c : Nat) : Int), w))) fun xs =>
      let t := s.tile d
      let outs := (List.range 128).flatMap fun r => xs.zipIdx.map fun x =>
        if whole then rescaleInt s.fxrm x.1 (tileElem t (64 * r + x.2))
        else (scaleMul x.1 (tileElem t (64 * r + x.2))).out
      (((s.setTile d (joinSlices 32 (outs.map Out.val))).orFlags (outs.foldl (fun f x => f ||| x.flags) 0)).orSat
        (outs.any Out.sat)).retire 32

def execMrsc (d : BitVec 3) (a : BitVec 5) (m : BitVec 1) (s : State) : Result := .next (s.rescale d a (m = 1))

/-- The formats of MSTR, none being raw (R267). -/
def storeFmt (f : Nat) : Option Fmt := [Fmt.f32, .bf16, .f16, .e4m3, .e5m2][f]?

/-- The rows that MSTR stores (R267). -/
def State.storedRows (s : State) (b : BitVec 5) : Nat := min (s.g b).toNat 128

/-- Stores the first n elements of a tile in format f, with their flags; those before a failing one stand (R267, R272). -/
def State.storeTileElems (s : State) (d : BitVec 3) (a : BitVec 5) (f n : Nat) : State × Option Trap :=
  let w := match storeFmt f with
    | some x => x.width
    | none => 32
  let t := s.tile d
  let (good, bad) := scanElems (fun i =>
    match elemAddr (s.g a) ((i * w : Nat) : Int) with
    | .error e => .error e
    | .ok u => s.resolve s.via u w .store) (List.range n)
  let outs := good.map fun e => (e.2,
    match storeFmt f with
    | some x => fCvt .f32 x s.frm (tileElem t e.1)
    | none => { bits := tileElem t e.1 })
  let u := outs.foldl (fun u x => u.store s.via.die x.1 w x.2.bits) s
  (u.orFlags (outs.foldl (fun fl x => fl ||| x.2.flags) 0), bad.map (·.2))

/-- MSTR (R267). -/
def State.storeTile (s : State) (d : BitVec 3) (a b : BitVec 5) (f : Nat) : State :=
  if 5 < f then s.illop else
  match s.storeTileElems d a f (64 * s.storedRows b) with
  | (u, none) => u.retire 32
  | (u, some e) => u.trap e

def execMstr (d : BitVec 3) (a b : BitVec 5) (f : BitVec 3) (s : State) : Result := .next (s.storeTile d a b f.toNat)

/-- MMOVV to a vector register (R268). -/
def execMmovvToV (d : BitVec 5) (a : BitVec 3) (q : BitVec 4) (s : State) : Result :=
  let x := BitVec.ofNat 16384 (s.tile a >>> (16384 * q.toNat))
  .next ((((s.setV d.toNat x).mark d.toNat 32 [511]).setLdr .v d.toNat).retire 32)

/-- MMOVV to a tile (R268). The matrix sequencer reads the vector register as the main one left it, at once (DESIGN CHOICE, log 50). -/
def execMmovvToT (d : BitVec 3) (a : BitVec 5) (q : BitVec 4) (s : State) : Result :=
  let lo := 16384 * q.toNat
  .next (s.onTile d ((s.setTile d (putBits (s.tile d) (lo + 16383) lo (s.v a.toNat).toNat)).retire 32))

end Sys2Proof.Machine
end

