-- ==== Sys2Proof/Machine/Special.lean ====
section
/-! DEFINITION. Control registers (R122-R125, R130, R139, R141, R143, R168, R173, R174, R255, R293, R353-R355, R359, R386,
R397), SETVL and SETVT, and the installation of extents (R31). -/

namespace Sys2Proof.Machine

/-- The checks of R31 on an extent. -/
def extentOk (x : BitVec 128) : Bool :=
  let limit := if extKind x = 1 ∨ extKind x = 2 then 2 ^ 24 else 2 ^ 58
  extBase x + extLen x ≤ limit ∧ extKind x ≤ 4 ∧ (extKind x = 2 ∨ extKind x = 3 ∨ extTidx x = 0)

/-- An extent checked as R31 checks it: where a check fails it is installed with LEN = 0. -/
def checkedExtent (x : BitVec 128) : BitVec 128 :=
  if extentOk x then x else mkExtent (extBase x) 0 (extKind x) (extRead x) (extWrite x) (extTidx x)

/-- The low word of an extent register goes to the staging register; e0 ignores it (R31). -/
def Core.stageExtent (c : Core) (n : Nat) (v : Word) : Core :=
  if n = 0 then c else { c with ctl := { c.ctl with staged := v } }

/-- The high word installs all 128 bits with the staged low word; e0 ignores it (R31). -/
def Core.installExtent (c : Core) (n : Nat) (v : Word) : Core :=
  if n = 0 then c else { c with e := c.e.setIfInBounds n (checkedExtent (v ++ c.ctl.staged)) }

/-- Installs a valid VT value and clips VL to its VLMAX (R143). -/
def Ctl.installVt (c : Ctl) (v : Word) : Ctl :=
  { c with vt := v, vl := BitVec.ofNat 64 (min c.vl.toNat (vlmax v)) }

/-- VL at most VLMAX (R139, R143). -/
def Ctl.installVl (c : Ctl) (v : Word) : Ctl := { c with vl := BitVec.ofNat 64 (min v.toNat (vlmax c.vt)) }

/-- The flags, FXSAT in bit 8, that the sequencer does not see in this step, a free choice among those that the other one
raised since the last RDV pair (R164). -/
def State.hidden (s : State) : Word :=
  (if s.cur = .main then s.core.ctl.unseenMain else s.core.ctl.unseenMatrix) &&& BitVec.ofNat 64 (s.drawNat 4 256)

/-- A control register's value; none for an address that is not in the map (R122, R123). -/
def State.ctlRead (s : State) (a : Nat) : Option Word :=
  let c := s.core.ctl
  let q := s.seq
  match a with
  | 0x000 => some c.vl
  | 0x001 => some c.vt
  | 0x002 => some c.estart
  | 0x003 => some c.fxrm
  | 0x004 => some (c.fxsat &&& ~~~(s.hidden >>> 8))
  | 0x005 => some c.frm
  | 0x006 => some (c.fflags &&& ~~~(s.hidden &&& 0x1F))
  | 0x007 => some q.ldr
  | 0x008 => some q.rpidx
  | 0x009 => some c.hwea
  | 0x00A => some c.hweb
  | 0x00B => some q.rpbase
  | 0x01C => some (q.depth.setWidth 64)
  | 0x020 => some c.mode
  | 0x021 => some c.cycle
  | 0x022 => some c.taskid
  | 0x023 => some Config.grancap
  | 0x024 => some c.vbyp
  | 0x025 => some c.mstat
  | 0x026 => some c.llcp
  | 0x040 => some c.tcause
  | 0x041 => some c.tval
  | 0x042 => some c.tpc
  | 0x043 => some c.tvec
  | 0x044 => some c.tstat
  | 0x045 => some c.txa
  | 0x046 => some c.txb
  | 0x050 => some c.ptroot
  | _ =>
    if 0x010 ≤ a ∧ a ≤ 0x015 then q.lc[a - 0x010]?
    else if 0x016 ≤ a ∧ a ≤ 0x01B then q.le[a - 0x016]?
    else if 0x030 ≤ a ∧ a ≤ 0x035 then q.li[a - 0x030]?
    else if 0x038 ≤ a ∧ a ≤ 0x03D then q.lb[a - 0x038]?
    else if 0x100 ≤ a ∧ a ≤ 0x11F then
      (s.core.e[(a - 0x100) / 2]?).map fun (x : BitVec 128) => if a % 2 = 0 then x.setWidth 64 else (x >>> 64).setWidth 64
    else none

/-- The registers whose write is privileged (R122, R123). -/
def ctlPrivileged (a : Nat) : Bool :=
  [0x020, 0x022, 0x024, 0x025, 0x026, 0x050].contains a || (0x100 ≤ a && a ≤ 0x11F)

/-- The bits that a register holds: reserved ones read zero (R122). -/
def ctlMask (a : Nat) : Word :=
  match a with
  | 0x002 => 0x7FFF
  | 0x003 => 0x3
  | 0x004 => 0x1
  | 0x006 => 0x1F1F
  | 0x007 => 0x7F
  | 0x008 => 0xBFFF
  | 0x020 => 0x3
  | 0x022 => 0x1FFFFFFFFFF
  | 0x024 => 0x3FFFFFFFFFFFFFF
  | 0x025 => 0xFFFFFF
  | 0x026 => 0x3F3F
  | 0x040 => 0x1F
  | 0x044 => 0x3
  | 0x050 => 0xFFFFFFFFFFFE0001
  | 0x042 => 0x3FFFFFFFFFFFFF0
  | 0x043 => 0x3FFFFFFFFFFFFF0
  | 0x00B => 0x3FFFFFFFFFFFFF0
  | _ => if (0x016 ≤ a ∧ a ≤ 0x01B) ∨ (0x038 ≤ a ∧ a ≤ 0x03D) then 0x3FFFFFFFFFFFFF0 else 0xFFFFFFFFFFFFFFFF

/-- Stores a masked value in a register of the core; other addresses are the sequencer's. -/
def Ctl.store (c : Ctl) (a : Nat) (v : Word) : Ctl :=
  match a with
  | 0x000 => c.installVl v
  | 0x001 => c.installVt v
  | 0x002 => { c with estart := v }
  | 0x003 => { c with fxrm := v }
  | 0x004 => { c with fxsat := v }
  | 0x005 => { c with frm := v }
  | 0x006 => { c with fflags := v }
  | 0x009 => { c with hwea := v }
  | 0x00A => { c with hweb := v }
  | 0x020 => { c with mode := v }
  | 0x022 => { c with taskid := v }
  | 0x024 => { c with vbyp := v }
  | 0x025 => { c with mstat := v }
  | 0x026 => { c with llcp := v }
  | 0x040 => { c with tcause := v }
  | 0x041 => { c with tval := v }
  | 0x042 => { c with tpc := v }
  | 0x043 => { c with tvec := v }
  | 0x044 => { c with tstat := v }
  | 0x045 => { c with txa := v }
  | 0x046 => { c with txb := v }
  | 0x050 => { c with ptroot := v }
  | _ => c

/-- Stores a masked value in a register of a sequencer (R59, R65, R130): DEPTH = 7 is not taken. -/
def Seq.store (q : Seq) (a : Nat) (v : Word) : Seq :=
  if a = 0x007 then { q with ldr := v }
  else if a = 0x008 then { q with rpidx := v }
  else if a = 0x00B then { q with rpbase := v }
  else if 0x010 ≤ a ∧ a ≤ 0x015 then { q with lc := q.lc.setIfInBounds (a - 0x010) v }
  else if 0x016 ≤ a ∧ a ≤ 0x01B then { q with le := q.le.setIfInBounds (a - 0x016) v }
  else if a = 0x01C then (if v.setWidth 3 = (7 : BitVec 3) then q else { q with depth := v.setWidth 3 })
  else if 0x030 ≤ a ∧ a ≤ 0x035 then { q with li := q.li.setIfInBounds (a - 0x030) v }
  else if 0x038 ≤ a ∧ a ≤ 0x03D then { q with lb := q.lb.setIfInBounds (a - 0x038) v }
  else q

/-- A control register takes a value: the rejected values of VT and FRM raise ILLOP (R141, R173), CYCLE and GRANCAP take
none, and extent words are staged and installed (R31). -/
def State.ctlStore (s : State) (a : Nat) (v : Word) : Except Trap State :=
  if a = 0x001 ∧ ¬ vtValid v then .error ⟨.illop, v, 0, 0⟩
  else if a = 0x005 then
    if 5 < bits v.toNat 2 0 then .error ⟨.illop, v, 0, 0⟩ else .ok (s.mapCtl fun c => c.store a (v &&& 7))
  else if 0x100 ≤ a ∧ a ≤ 0x11F then
    .ok (s.mapCore fun c =>
      if a % 2 = 0 then c.stageExtent ((a - 0x100) / 2) v else c.installExtent ((a - 0x100) / 2) v)
  else .ok ((s.mapCtl fun c => c.store a (v &&& ctlMask a)).mapSeq fun q => q.store a (v &&& ctlMask a))

/-- A control-register write by an instruction (R122): a privileged register refuses a task (R385). -/
def State.ctlWrite (s : State) (a : Nat) (v : Word) : Except Trap State :=
  if ctlPrivileged a ∧ ¬ s.privileged then .error ⟨.perm, s.refusedValue, 0, 0⟩ else s.ctlStore a v

/-- The value of a control register that CTLS and CTLC change: its own, whichever flags the sequencer sees of it (R122). -/
def State.ctlTrue (s : State) (a : Nat) (seen : Word) : Word :=
  if a = 0x004 then s.core.ctl.fxsat else if a = 0x006 then s.core.ctl.fflags else seen

/-- A sequencer sees the flags that it has written itself (R164). -/
def Ctl.noted (c : Ctl) (q : SeqId) (a : Nat) (x : Word) : Ctl :=
  let fl : Word := if a = 0x004 then (x &&& 1) <<< 8 else if a = 0x006 then x &&& 0x1F else 0
  match q with
  | .main => { c with unseenMain := c.unseenMain &&& ~~~fl }
  | .matrix => { c with unseenMatrix := c.unseenMatrix &&& ~~~fl }

/-- CTLW, CTLS and CTLC with x in g[A]: the old value into g[D], the new one into the register, as one step (R122); LDR stays
(R59). -/
def State.ctl (s : State) (d : BitVec 5) (r : BitVec 12) (x : Word) (f : Word → Word → Word) : State :=
  match s.ctlRead r.toNat with
  | none => s.illop
  | some old =>
    s.orTrap (s.ctlWrite r.toNat (f (s.ctlTrue r.toNat old) x)) fun t =>
      ((t.mapCtl fun c => c.noted s.cur r.toNat x).setG d old).retire 32

/-- CTLR (R122). -/
def execCtlr (d : BitVec 5) (r : BitVec 12) (s : State) : Result :=
  .next <| match s.ctlRead r.toNat with
    | none => s.illop
    | some old => (s.setG d old).retire 32

def execCtlw (d a : BitVec 5) (r : BitVec 12) (s : State) : Result := .next (s.ctl d r (s.g a) fun _ x => x)
def execCtls (d a : BitVec 5) (r : BitVec 12) (s : State) : Result := .next (s.ctl d r (s.g a) fun old x => old ||| x)
def execCtlc (d a : BitVec 5) (r : BitVec 12) (s : State) : Result := .next (s.ctl d r (s.g a) fun old x => old &&& ~~~x)

/-- SETVL (R143). -/
def execSetvl (d a : BitVec 5) (_w : BitVec 3) (s : State) : Result :=
  let n : Word := BitVec.ofNat 64 (min (s.g a).toNat (vlmax s.vt))
  .next ((s.mapCtl fun c => { c with vl := n, estart := 0 }).finishG 32 d n)

/-- SETVT (R143). -/
def execSetvt (d a : BitVec 5) (_w : BitVec 3) (s : State) : Result :=
  let v := s.g a
  .next <| if ¬ vtValid v then s.trap ⟨.illop, v, 0, 0⟩
    else (s.mapCtl fun c => { c.installVt v with estart := 0 }).finishG 32 d (BitVec.ofNat 64 (vlmax v))

/-- EXTENT_LOW_WRITE and EXTENT_HIGH_WRITE (R31): privileged code writes an extent word of core c. -/
def execExtentLowWrite (c : Nat) (n : BitVec 4) (v : Word) (s : State) : Result :=
  .next (s.mapCoreNo c fun k => k.stageExtent n.toNat v)
def execExtentHighWrite (c : Nat) (n : BitVec 4) (v : Word) (s : State) : Result :=
  .next (s.mapCoreNo c fun k => k.installExtent n.toNat v)

/-- VT_WRITE, VL_WRITE and FRM_WRITE (R141, R143, R173): the write that a CTL instruction of core c's main sequencer makes;
a rejected value is its ILLOP. -/
def execVtWrite (c : Nat) (v : Word) (s : State) : Result :=
  let t := s.focus c .main
  .next (if Config.cores ≤ c then s else t.orTrap (t.ctlStore 0x001 v) id)
def execVlWrite (c : Nat) (v : Word) (s : State) : Result :=
  let t := s.focus c .main
  .next (if Config.cores ≤ c then s else t.orTrap (t.ctlStore 0x000 v) id)
def execFrmWrite (c : Nat) (v : Word) (s : State) : Result :=
  let t := s.focus c .main
  .next (if Config.cores ≤ c then s else t.orTrap (t.ctlStore 0x005 v) id)

end Sys2Proof.Machine
end

