-- ==== Sys2Proof/Machine/Context.lean ====
section
/-! DEFINITION. Binding and unbinding a task: the state a fresh task starts in (R14, R96, R256, R368), the context save area
(R395-R397), the save, the restore (R398) and the unbind that pre-emption, yield and parking share (R368, R392, R394). -/

namespace Sys2Proof.Machine

/-- The fields of a bind record (R367). -/
def bindPtrt (r : BitVec 256) : Word := BitVec.ofNat 64 (bits r.toNat 255 192) &&& ctlMask 0x050
def bindBudget (r : BitVec 256) : Nat := bits r.toNat 191 128
def bindBn (r : BitVec 256) : Bool := r.getLsbD 58
def bindSpid (r : BitVec 256) : Nat := bits r.toNat 57 52
def bindCpid (r : BitVec 256) : Nat := bits r.toNat 51 46
def bindAsr (r : BitVec 256) : Bool := r.getLsbD 45
def bindChk (r : BitVec 256) : Bool := r.getLsbD 44

/-- A valid bind record from its fields (R367). -/
def mkBind (root : Word) (budget ctx : Nat) (bn : Bool) (spid cpid : Nat) (asr chk : Bool) (k : TaskKey) : BitVec 256 :=
  BitVec.ofNat 256 (root.toNat <<< 192 + (budget % 2 ^ 64) <<< 128 + (ctx % 2 ^ 58) <<< 64 + 1 <<< 63 + bn.toNat <<< 58 +
    (spid % 64) <<< 52 + (cpid % 64) <<< 46 + asr.toNat <<< 45 + chk.toNat <<< 44 + tidOf k)

/-- A list of 64-bit words as one value, the first lowest. -/
def packWords (xs : List Word) : Nat := joinSlices 64 (xs.map BitVec.toNat)

/-- Word i of a value. -/
def wordAt (x i : Nat) : Word := BitVec.ofNat 64 (x >>> (64 * i))

/-- A replay entry as R395 lays it out. -/
def Replay.pack (e : Replay) : Nat :=
  packWords [BitVec.ofNat 64 (2 ^ 63 + e.addr.toNat / 16 * 16), BitVec.ofNat 64 (e.word.toNat + (e.first % 2 ^ 15) <<< 32), e.ga, e.gb, e.gd]

/-- The address in bits [57:4] of a word (R19, R395). -/
def parcelAddr (x : Nat) : BitVec 58 := BitVec.ofNat 58 (x / 16 * 16)

/-- A replay entry as it is read back. -/
def Replay.unpack (x : Nat) : Replay where
  addr := parcelAddr x
  word := BitVec.ofNat 32 (x >>> 64)
  first := bits x 110 96
  ga := wordAt x 2
  gb := wordAt x 3
  gd := wordAt x 4

/-- A sequencer block (R395). -/
def Seq.pack (q : Seq) : Nat :=
  packWords ([BitVec.ofNat 64 (q.running.toNat <<< 63 + q.pc.toNat / 16 * 16)] ++ q.g.toList.tail ++ [q.depth.setWidth 64] ++
    q.lc.toList ++ q.le.toList ++ q.lb.toList ++ q.li.toList ++ [q.ldr, q.rpidx, q.rpbase, BitVec.ofNat 64 q.replay.length]) +
  (joinSlices 512 (q.replay.map Replay.pack)) <<< 4096

/-- n words from word i of a value. -/
def wordsFrom (x i n : Nat) : Vector Word n := Vector.ofFn fun (j : Fin n) => wordAt x (i + j.val)

/-- A sequencer as its block, its constant-path mark and the way it goes on give it back (R113, R393, R394, R398). -/
def Seq.unpack (x mark : Nat) (owed : Owed) : Seq :=
  { Seq.reset with
    running := bits x 63 63 = 1
    pc := parcelAddr x
    g := (wordsFrom x 0 32).set 0 0
    depth := BitVec.ofNat 3 (x >>> (64 * 32))
    lc := wordsFrom x 33 6
    le := (wordsFrom x 39 6).map (· &&& ctlMask 0x016)
    lb := (wordsFrom x 45 6).map (· &&& ctlMask 0x038)
    li := wordsFrom x 51 6
    ldr := wordAt x 57 &&& ctlMask 0x007
    rpidx := wordAt x 58 &&& ctlMask 0x008
    rpbase := wordAt x 59 &&& ctlMask 0x00B
    replay := (List.range (min 8 (wordAt x 60).toNat)).map fun i => Replay.unpack (x >>> (4096 + 512 * i))
    owed := owed
    constMark := mark }

/-- The core block (R395). -/
def Core.packCtl (c : Core) : Nat :=
  let r := c.ctl
  packWords ([r.vl, r.vt, r.estart, r.fxrm, r.fxsat, r.frm, r.fflags, r.hwea, r.hweb, r.tcause, r.tval, r.tpc, r.tvec, r.tstat,
    r.txa, r.txb, r.mstat, r.staged] ++
    c.e.toList.tail.flatMap fun x => [BitVec.ofNat 64 x.toNat, BitVec.ofNat 64 (x.toNat >>> 64)])

/-- The control registers that a core block gives back, reserved bits zero (R122); the others are the core's and the bind
record's. -/
def Ctl.unpack (c : Ctl) (x : Nat) : Ctl :=
  { c with
    vl := wordAt x 0, vt := wordAt x 1 &&& 0x7FFFF, estart := wordAt x 2 &&& ctlMask 0x002, fxrm := wordAt x 3 &&& ctlMask 0x003
    fxsat := wordAt x 4 &&& ctlMask 0x004, frm := wordAt x 5 &&& 7, fflags := wordAt x 6 &&& ctlMask 0x006
    hwea := wordAt x 7, hweb := wordAt x 8, tcause := wordAt x 9 &&& ctlMask 0x040, tval := wordAt x 10
    tpc := wordAt x 11 &&& ctlMask 0x042, tvec := wordAt x 12 &&& ctlMask 0x043, tstat := wordAt x 13 &&& ctlMask 0x044
    txa := wordAt x 14, txb := wordAt x 15, mstat := wordAt x 16 &&& ctlMask 0x025, staged := wordAt x 17
    unseenMain := 0, unseenMatrix := 0 }

/-- e0 and the extents that a core block gives back. -/
def unpackExtents (x : Nat) : Vector (BitVec 128) 16 :=
  Vector.ofFn fun (n : Fin 16) => if n.val = 0 then extentZero else BitVec.ofNat 128 (x >>> (64 * (18 + 2 * (n.val - 1))))

/-- A guard entry (R328). -/
def Guard.pack (g : Guard) : Nat :=
  2 ^ 191 + g.sc.toNat <<< 187 + g.rlen <<< 128 + g.regionLocal.toNat <<< 127 + g.rbase <<< 64 + g.guardLocal.toNat <<< 63 + g.gaddr

def Guard.unpack (x : Nat) : Guard where
  sc := BitVec.ofNat 2 (x >>> 187)
  rlen := bits x 186 128
  regionLocal := bits x 127 127 = 1
  rbase := bits x 121 64
  guardLocal := bits x 63 63 = 1
  gaddr := bits x 57 0

/-- The bits that the high-water mark of register n covers (R397). -/
def markCover (hwea hweb : Word) (n : Nat) : Nat :=
  let h := if n < 16 then bits hwea.toNat (4 * n + 3) (4 * n) else bits hweb.toNat (4 * (n - 16) + 3) (4 * (n - 16))
  if h = 0 then 0 else 1024 * (h + 1)

/-- The tiles a save writes: DECL and DT both 1 (R396). -/
def savedTile (m : Word) (n : Nat) : Bool := m.getLsbD n && m.getLsbD (8 + n)

/-- Where the footprint starts in the save area (R395). -/
def saveStore : Nat := 2881536

/-- What a save writes (R396): offset from CTX, width and value (R395). -/
def Core.saveParts (c : Core) (foot : Nat) : List (Nat × Nat × Nat) :=
  [(0, 1024, packWords [1, BitVec.ofNat 64 foot, BitVec.ofNat 64 c.guards.length]),
   (1024, 8192, c.main.pack), (9216, 8192, c.matrix.pack), (17408, 4096, c.packCtl),
   (21504, 131072, joinSlices 16384 (c.k.toList.map BitVec.toNat)),
   (152576, 3072, joinSlices 192 (c.guards.map Guard.pack)),
   (155648, 16384, c.ls.readBits Config.blocksBase 16384)] ++
  (if mstatAv c.ctl.mstat then [(172032, 65536, c.abuf.toNat)] else []) ++
  (if mstatBv c.ctl.mstat then [(237568, 22528, c.bbuf.toNat)] else []) ++
  ((List.range 32).filterMap fun n =>
    let w := markCover c.ctl.hwea c.ctl.hweb n
    if w = 0 then none else some (260096 + 16384 * n, w, (c.v[n]?.getD 0).toNat)) ++
  ((List.range 8).filterMap fun n =>
    if savedTile c.ctl.mstat n then some (784384 + 262144 * n, 262144, (c.t[n]?.getD 0).toNat) else none) ++
  (if foot = 0 then [] else [(saveStore, foot, c.ls.readBits 0 foot)])

/-- Dispatch writes a core's context at CTX (R392, R395). -/
def State.saveContext (s : State) (c : Core) (ctx foot : Nat) : State :=
  (c.saveParts foot).foldl (fun s x => s.mapMs fun ms => ms.writeBits none (ctx + x.1) x.2.1 x.2.2) s

/-- A core's local store with a footprint's bits, the window control blocks' bits and zero elsewhere (R368, R398). -/
def localStore (foot x blocks : Nat) : Mem :=
  let m := Mem.writeBits [] 0 foot x
  m.writeBits Config.blocksBase 16384 blocks

/-- The restore of R398: what dispatch reads back at CTX into core c for task t. -/
def State.restoreContext (s : State) (c : Core) (ctx : Nat) (t : Task) : Core :=
  let at_ (o w : Nat) : Nat := s.ms.mem.readBits (ctx + o) w
  let foot := at_ 64 64 % 2 ^ 25
  let x := at_ 17408 4096
  let ctl := c.ctl.unpack x
  { c with
    main := Seq.unpack (at_ 1024 8192) t.markMain t.owedMain
    matrix := Seq.unpack (at_ 9216 8192) t.markMatrix t.owedMatrix
    ctl := ctl
    e := unpackExtents x
    k := Vector.ofFn fun (n : Fin 8) => BitVec.ofNat 16384 (at_ (21504 + 16384 * n.val) 16384)
    guards := (List.range (min 16 (at_ 128 64))).map fun i => Guard.unpack (at_ (152576 + 192 * i) 192)
    abuf := if mstatAv ctl.mstat then BitVec.ofNat 65536 (at_ 172032 65536) else c.abuf
    bbuf := if mstatBv ctl.mstat then BitVec.ofNat 22528 (at_ 237568 22528) else c.bbuf
    v := Vector.ofFn fun (n : Fin 32) => BitVec.ofNat 16384 (at_ (260096 + 16384 * n.val) (markCover ctl.hwea ctl.hweb n.val))
    t := Vector.ofFn fun (n : Fin 8) =>
      if savedTile ctl.mstat n.val then BitVec.ofNat 262144 (at_ (784384 + 262144 * n.val) 262144) else 0
    ls := localStore foot (at_ saveStore foot) (at_ 155648 16384) }

/-- The extents a fresh task starts with (R14). A handle is looked up by virtual device and number (DESIGN CHOICE, log 45). -/
def State.startExtents (s : State) (t : Task) : Vector (BitVec 128) 16 :=
  let handle (j : Nat) : BitVec 128 :=
    if recExv t.image j then
      match s.sched.handles.find? fun x => x.1 = t.key.vdev ∧ x.2.1 = recExt t.image j with
      | some x => checkedExtent x.2.2
      | none => 0
    else 0
  Vector.ofFn fun (n : Fin 16) =>
    if n.val = 0 then extentZero
    else if n.val ≤ 8 then handle (n.val - 1)
    else if n.val = 15 then mkExtent 0 (2 ^ 24) 1 true true 0
    else 0

/-- The state a task without a saved context starts in (R14, R96, R256, R368): a core at reset but for what the record, the
handles and the lsimage give it. CYCLE and VBYP are the core's. An lsimage lasts until its graph identifier is launched again
(DESIGN CHOICE, log 45). k0, which R14 does not name, starts at zero like k1 to k7, and so do the matrix sequencer's registers and the
contents of the empty A and B buffers (DESIGN CHOICE, log 5). -/
def State.startContext (s : State) (c : Core) (t : Task) : Core :=
  let foot := recFoot t.image
  let image := match s.sched.lsimages.find? fun x => x.1 = t.key && ! t.added with
    | some x => x.2
    | none => 0
  { c with
    main := { Seq.reset with
      running := true, pc := BitVec.ofNat 58 (recEntry t.image)
      g := Seq.reset.g.set 1 (tagged 0 (recArgs t.image)), constMark := s.ms.stamp }
    matrix := { Seq.reset with constMark := s.ms.stamp }
    v := Core.reset.v, k := Core.reset.k, t := Core.reset.t, abuf := 0, bbuf := 0
    ctl := { Ctl.reset with cycle := c.ctl.cycle, vbyp := c.ctl.vbyp, mstat := BitVec.ofNat 64 (recTiles t.image <<< 8) }
    e := s.startExtents t
    ls := localStore foot (image % 2 ^ foot) 0
    guards := [] }

/-- What a bind installs from its record (R11, R359, R368). -/
def Core.bindRegs (c : Core) (r : BitVec 256) : Core :=
  { c with
    budget := BitVec.ofNat 64 (bindBudget r)
    ctl := { c.ctl with
      ptroot := bindPtrt r
      mode := BitVec.ofNat 64 ((bindChk r).toNat + 2 * (bindAsr r).toNat)
      llcp := BitVec.ofNat 64 (bindCpid r + bindSpid r <<< 8)
      taskid := BitVec.ofNat 64 (bindTid r) } }

/-- Dispatch takes a bind record into RUN of core n (R368): the task starts, or its context is restored. CYCLE has counted on
meanwhile, by a free amount (R125, log 8). -/
def State.bind (s : State) (n : Nat) (r : BitVec 256) : State :=
  let k := keyOf (bindTid r)
  match s.sched.task k with
  | none => s
  | some t =>
    let make (c : Core) : Core :=
      let c := { c with ctl := { c.ctl with cycle := c.ctl.cycle + BitVec.ofNat 64 (s.drawNat 1 1) } }
      if t.saved then s.restoreContext c (bindCtx r) t else s.startContext c t
    let s := s.mapCoreNo n fun c => (make c).bindRegs r
    let s := s.mapSched fun c => { c with
      slots := (c.setSlot n { run := r, stg := 0, dcmd := 0, since := c.ticks, tail := false }).slots
      notices := c.notices.filter (· ≠ n) }
    (s.mapSched fun c => c.mapTask k fun t => { t with ran := 0 }).setTaskState k .running

/-- TASK_BIND (R368): a core without a running record takes its staged one. -/
def execTaskBind (c : Nat) (s : State) : Result :=
  let x := s.sched.slot c
  .next (if c < Config.cores ∧ bindValid x.stg ∧ bindValid x.run = false then s.bind c x.stg else s)

/-- A sequencer that has stopped (R58, R65): its record is clear, and inside a repeat frame it owes the rest of it. -/
def Seq.stopped (q : Seq) : Seq := 
  { q.suspendFrame.settle with owed := { q.owed with frame := q.owed.frame || q.frame.isSome } }

/-- The stop of both sequencers of core n before a save (R392): the replay lists hold what is stopped or abandoned. -/
def State.stopCore (s : State) (n : Nat) : State :=
  let one (t : State) (q : SeqId) : State := ((t.focus n q).stopWait.stopFlight).mapSeq Seq.stopped
  ((one (one s .main) .matrix)).focus s.coreNo s.cur

/-- UNBINDING core n's running task (R368, R392, R394): its context is saved, RUN is cleared, and the task takes its new
state; a pre-empted one enters its list at the head or at the tail. A core without a running record keeps its task. -/
def State.unbind (s : State) (n : Nat) (toState : TaskState) (head : Bool) : State :=
  let x := s.sched.slot n
  let k := keyOf (bindTid x.run)
  match s.sched.task k with
  | none => s
  | some t =>
    if bindValid x.run = false then s else
    let s := s.stopCore n
    let c := s.coreAt n
    let s := s.saveContext c (bindCtx x.run) (recFoot t.image)
    let s := s.mapCoreNo n fun _ => c.idle
    let s := s.event 2 (dieOf n) (n % 56) ((bindTid x.run) <<< 5)
    let s := s.mapSched fun d => { (d.charge k).setSlot n { x with run := 0, dcmd := 0 } with
      notices := d.notices.filter (· ≠ n) }
    let s := s.mapSched fun d => d.mapTask k fun t =>
      { t with saved := true, markMain := c.main.constMark, markMatrix := c.matrix.constMark
               owedMain := c.main.owed, owedMatrix := c.matrix.owed }
    let s := s.setTaskState k toState
    (if toState = .preempted then s.mapSched fun d => d.enlist k head else s).mapSched Sched.settle

/-- The task of the core in focus parks in its instruction (R297, R313, R371), which is performed again when it is resumed. -/
def State.park (s : State) (toState : TaskState) : State := (s.waitIn .parked).unbind s.coreNo toState false

/-- PREEMPT_SAVE (R366, R392): a pre-emption that DCMD holds is carried out. The task enters its list at the tail at the end of its
quantum, and at the head otherwise. -/
def execPreemptSave (c : Nat) (s : State) : Result :=
  .next (if c < Config.cores ∧ (s.sched.slot c).dcmd ≠ 0 then s.unbind c .preempted (! (s.sched.slot c).tail) else s)

/-- DCMD.PRE is set on a core that runs a task (R368); `tail` says where that task then goes (R366). -/
def Sched.preempt (c : Sched) (n : Nat) (tail : Bool) : Sched :=
  let x := c.slot n
  if bindValid x.run ∧ x.dcmd = 0 then c.setSlot n { x with dcmd := 1, tail := tail } else c

/-- A wait that R363 counts. -/
def Wait.parks : Wait → Bool
  | .barwait _ _ => true
  | .chained _ => true
  | .held => true
  | .rdv _ => true
  | _ => false

/-- The window counts that the wait of a sequencer of core n needs (R363): window and count. -/
def State.waitNeeds (s : State) (n : Nat) (q : SeqId) : List (Nat × Nat) :=
  let t := s.focus n q
  match t.seq.wait with
  | some (.barwait a b) => [(extTidx (t.e (tagOf (t.g a))), (t.g b).toNat)]
  | some (.chained c) => [(extTidx c.ext, t.chainNeed c 0)]
  | some .held => t.seq.inFlight.filterMap fun x => x.chain.map fun c => (extTidx c.ext, t.chainNeed c x.done)
  | _ => []

/-- BARRIER_PARK (R363). -/
def execBarrierPark (c : Nat) (s : State) : Result :=
  let x := s.sched.slot c
  let k := s.coreAt c
  let qs := [k.main, k.matrix].filter Seq.running
  let pkt := (s.sched.settings (keyOf (bindTid x.run)).vdev).pkt
  let waits := qs.filterMap Seq.wait
  .next <|
    if c < Config.cores ∧ bindValid x.run ∧ bindValid x.stg ∧ qs ≠ [] ∧ waits.length = qs.length ∧
        (qs.all fun q => pkt < q.waited) ∧ waits.all Wait.parks ∧ waits.any (fun w => w ≠ .rdv true ∧ w ≠ .rdv false) then
      let needs := s.waitNeeds c .main ++ s.waitNeeds c .matrix
      (s.unbind c (if k.main.atRdv then .blockedRendezvous else .blockedBarrier) false).mapSched fun d =>
        d.mapTask (keyOf (bindTid x.run)) fun t => { t with needs := needs }
    else s

/-- A count that a parked barrier wait needs is reached, in the window control blocks of its save area (R363, R395). -/
def State.needReached (s : State) (t : Task) : Bool :=
  t.needs.any fun x => x.2 ≤ s.ms.mem.readBits (t.ctx + 155648 + 256 * x.1) 64

/-- BARRIER_PARK_WAKE (R363): the count is reached, or a stream program of the parked task stalls on its detached local
store. -/
def execBarrierParkWake (t : TaskKey) (s : State) : Result :=
  .next <| match s.sched.task t with
    | none => s
    | some x =>
      if (x.state = .blockedBarrier ∨ x.state = .blockedRendezvous) ∧
          (s.needReached x ∨ s.str.ctxs.any fun y => y.task = t && y.stalled)
      then s.makeReady t false else s

end Sys2Proof.Machine
end

