-- ==== Sys2Proof/Machine/System.lean ====
section
/-! DEFINITION. The system instructions (R390, R401-R406): SYS, BKPT, ILL, ERET, TLBI and cache maintenance. -/

namespace Sys2Proof.Machine

/-- SYS (R402): completes, with its loop end check, and then takes SYSCALL. -/
def execSys (c : BitVec 16) (s : State) : Result := .next ((s.retire 32).trap ⟨.syscall, c.setWidth 64, 0, 0⟩)

/-- BKPT (R402). -/
def execBkpt (c : BitVec 16) (s : State) : Result := .next (s.trap ⟨.bkpt, c.setWidth 64, 0, 0⟩)

/-- ILL (R402). -/
def execIll (s : State) : Result := .next s.illop

/-- ERET (R65, R390): RETURNING FROM A HANDLER. -/
def State.eret (s : State) : State :=
  let leave (t : State) : State := t.mapCtl fun c => { c with tstat := c.tstat &&& ~~~1 }
  let q := s.seq
  if s.core.ctl.tstat.getLsbD 0 = false then s.illop
  else if q.rpidx.getLsbD 15 then
    match s.resumeFrame with
    | .error t => s.trapAt t (q.rpbase.setWidth 58)
    | .ok f => leave (s.mapSeq fun q => { q.settle with
        frame := some f, pc := f.addr f.pos, rpidx := mkRpidx false 0 (bits q.rpidx.toNat 9 0), rpbase := 0 })
  else leave (s.mapSeq fun q => { q.settle with pc := (s.core.ctl.tpc &&& ctlMask 0x042).setWidth 58 })

def execEret (s : State) : Result := .next s.eret

/-- A privileged operation (R385). -/
def State.ifPrivileged (s : State) (f : State) : State := if s.privileged then f else s.denied

/-- Translations read before now are used no more (R404). -/
def State.shootdown (s : State) (asid page : Option Nat) : State :=
  (s.mapMs fun ms => { ms with shootdowns := { stamp := ms.stamp, asid := asid, page := page } :: ms.shootdowns }).retire 32

/-- The ASID operand of TLBI (R404). -/
def asidOf (x : Word) : Nat := bits x.toNat 9 0

/-- TLBI (R404). -/
def execTlbiPage (a b : BitVec 5) (s : State) : Result :=
  let va := s.g a
  .next <| s.ifPrivileged <|
    if bits va.toNat 63 58 ≠ 0 then s.trap ⟨.addr, va, 0, 0⟩
    else s.shootdown (some (asidOf (s.g b))) (some (va.toNat >>> 25))
def execTlbiAsid (b : BitVec 5) (s : State) : Result := .next (s.ifPrivileged (s.shootdown (some (asidOf (s.g b))) none))
def execTlbiAll (s : State) : Result := .next (s.ifPrivileged (s.shootdown none none))

/-- The expanded lines of packed bits from logical bit address a that are dirty in some LLC. -/
def MemSys.dirtyLines (ms : MemSys) (a w : Nat) : List Nat :=
  (linesOf a w).filter fun l => ms.cached.any fun c => lineOf (8 * c.addr) = l

/-- What bars the write-back of an expanded line (R283): a heap that it may reach (R304), a malformed chunk (R281), or poison in a
sector whose bits it needs beside its own (R288; log 44). -/
def State.lineFails (s : State) (l : Nat) : Option Cause :=
  let a := 1024 * l
  if s.packedInHeap a 1024 true then some .perm
  else if (s.ms.readPacked (frameOf a) (pageOff a) 1024).isNone ∨ s.packedPoisoned a 1024 true then some .page else none

/-- A dirty expanded line goes home (R283, R405); one whose write-back is barred stays dirty (DESIGN CHOICE, log 44). -/
def State.cleanLine (s : State) (l : Nat) : State :=
  if s.lineFails l ≠ none then s else
  let r := s.ms.cleanLine l
  ({ s with ms := r.1 }).spills (frameOf (1024 * l)) r.2

/-- What bars the write-back of the first of some lines, one after the other, that is barred. -/
def State.linesFail (s : State) : List Nat → Option Cause
  | [] => none
  | l :: ls =>
    match s.lineFails l with
    | some x => some x
    | none => (s.cleanLine l).linesFail ls

/-- The permission of a page for cache maintenance: of an unpacked page no bits are needed, and of a packed one those that the
write-backs of its dirty lines need (R41, R283, R288, R304, R351, R382, R405). -/
def State.permitLines (s : State) (c : Class) (e pa w : Nat) : Option Cause :=
  let back := if ptePacked e ∧ c.wr = false then s.linesFail (s.ms.dirtyLines pa w) else none
  let heap := if ptePacked e then back = some .perm else s.inHeap pa w
  if (c.rd ∧ bits e 1 1 = 0) ∨ (c.wr ∧ bits e 2 2 = 0) ∨ heap ∨ (s.via.assured ∧ hostHomed pa) then some .perm
  else if s.linkDown pa w then some .linkdown else back

/-- What a maintenance instruction does to a range of one page: physical bits, or the expanded lines of a packed page (R405). -/
abbrev LineAct := State → Seg → State

/-- The dirty expanded lines of a range of packed frame f go home (R283, R405). -/
def State.cleanPacked (s : State) (f o w : Nat) : State :=
  (s.ms.dirtyLines (f + o) w).foldl State.cleanLine s

/-- Dirty lines go home and stay valid (R283, R405). -/
def cleanLines : LineAct := fun s g =>
  match g with
  | .phys a w => s.mapMs fun ms => ms.cleanRange a w
  | .packed f o w => s.cleanPacked f o w
  | .ls _ _ => s

/-- Dirty lines go home, and no copy is left (R405). -/
def invalidateLines : LineAct := fun s g =>
  match g with
  | .phys a w => (cleanLines s g).mapMs fun ms => ms.refresh a w
  | _ => cleanLines s g

/-- Every copy goes without write-back, those of instruction caches and constant paths too (R294, R405). -/
def dropLines : LineAct := fun s g =>
  match g with
  | .phys a w => s.mapMs fun ms => (ms.dropRange a w).refresh a w
  | .packed f o w => s.mapMs fun ms => (linesOf (f + o) w).foldl (fun ms l => ms.dropCached none l) ms
  | .ls _ _ => s

/-- Works through the pages of a range in ascending order, up to the first that fails; the fuel bounds their number. -/
def State.overPages (s : State) (t : Word) (va w : Nat) (c : Class) (act : LineAct) : Nat → Nat → State × Option Trap
  | 0, _ => (s, none)
  | n + 1, off =>
    if w ≤ off then (s, none) else
    let k := min (w - off) (pageRest (va + off))
    let u := t + BitVec.ofNat 64 off
    match s.page s.via (va + off) k c.wr with
    | none => (s, some ⟨s.walkCause s.via.root (va + off), u, 0, 0⟩)
    | some (e, pa) =>
      match s.permitLines c e pa k with
      | some x => (s, some ⟨x, u, 0, 0⟩)
      | none => (act s (pageSeg e pa k)).overPages t va w c act n (off + k)

/-- Works through w bits of a range whose extent has been checked, line by line (R405). -/
def State.maintainPart (s : State) (t : Word) (va w : Nat) (c : Class) (act : LineAct) : State × Option Trap :=
  s.overPages t va w c act (w / 2 ^ 25 + 2) 0

/-- Cache maintenance over the range of g[A] and g[B] (R405). -/
def State.maintain (s : State) (a b : BitVec 5) (c : Class) (act : LineAct) : State :=
  let t := s.g a
  let w := (s.g b).toNat
  if w = 0 then s.retire 32 else
  s.orTrap (checkExtent s.extents t w c) fun (_, va) =>
    match s.maintainPart t va w c act with
    | (u, none) => u.retire 32
    | (u, some x) => u.trap x

def execClwb (a b : BitVec 5) (s : State) : Result := .next (s.maintain a b .clean cleanLines)
def execClinv (a b : BitVec 5) (s : State) : Result := .next (s.maintain a b .clean invalidateLines)
def execCldrop (a b : BitVec 5) (s : State) : Result := .next (s.ifPrivileged (s.maintain a b .drop dropLines))

/-- The class and the effect of a maintenance instruction word (R405). -/
def lineWord (w : BitVec 32) : Option (Class × LineAct) :=
  if majorOf w = 0x15 then
    match (fOp w).toNat with
    | 4 => some (.clean, cleanLines)
    | 5 => some (.clean, invalidateLines)
    | 6 => some (.drop, dropLines)
    | _ => none
  else none

/-- The first lines of a maintenance instruction, before it is abandoned at a pre-emption (R406): `n` of them, where that is
less than all. None where it would do nothing or trap. -/
def State.maintainSome (s : State) (w : BitVec 32) (n : Nat) : Option State :=
  match lineWord w with
  | none => none
  | some (c, act) =>
    let t := s.g (fA w)
    let size := (s.g (fB w)).toNat
    if fOp w = 6 ∧ s.privileged = false then none else
    match checkExtent s.extents t size c with
    | .error _ => none
    | .ok (_, va) =>
      let cut := 1024 * n - va % 1024
      if size ≤ cut ∨ n = 0 then none else
      match s.maintainPart t va cut c act with
      | (u, none) => some u
      | (_, some _) => none

end Sys2Proof.Machine
end

