-- ==== Sys2Proof/Machine/Versions.lean ====
section
/-! DEFINITION. Versioned memory (R296-R321): the region table, the checks of a versioned access, loads, stores, waits and
wakes, queries, the watermark, opening and closing regions, and the version units' own steps. Acquire and release order
nothing further here: every write of the model is performed for every agent when it is made (log 3). -/

namespace Sys2Proof.Machine

/-- The fields of a region table entry (R302). -/
def regBase (r : BitVec 384) : Nat := bits r.toNat 57 0
def regLen (r : BitVec 384) : Nat := bits r.toNat 122 64
def regHbase (r : BitVec 384) : Nat := bits r.toNat 181 128
def regAsid (r : BitVec 384) : Nat := bits r.toNat 191 182
def regWmark (r : BitVec 384) : Nat := bits r.toNat 247 200
def regOvf (r : BitVec 384) : Bool := bits r.toNat 250 250 = 1
def regHs (r : BitVec 384) : Nat := bits r.toNat 253 251
def regSt (r : BitVec 384) : Nat := bits r.toNat 255 254
def regHcap (r : BitVec 384) : Nat := bits r.toNat 303 256
def regHused (r : BitVec 384) : Nat := bits r.toNat 367 320

/-- The entry of region n. -/
def VerSys.region (v : VerSys) (n : Nat) : BitVec 384 := (v.regions[n]?).getD 0

/-- Replaces bits hi down to lo of a region's entry. -/
def VerSys.put (v : VerSys) (n hi lo x : Nat) : VerSys :=
  { v with regions := v.regions.setIfInBounds n (BitVec.ofNat 384 (putBits (v.region n).toNat hi lo x)) }

/-- Whether version v of a word exists (R304). -/
def VerSys.find (s : VerSys) (n x v : Nat) : Option Version :=
  s.versions.find? fun y => y.region = n ∧ y.word = x ∧ y.number = v

/-- The highest version of a word that is at most v (R308). -/
def VerSys.latest (s : VerSys) (n x v : Nat) : Option Version :=
  s.versions.foldl (fun m y =>
    if y.region = n ∧ y.word = x ∧ y.number ≤ v then
      match m with
      | some z => if z.number < y.number then some y else m
      | none => some y
    else m) none

/-- The number of live versions of a region. -/
def VerSys.live (s : VerSys) (n : Nat) : Nat := (s.versions.filter fun y => y.region = n).length

/-- The bound of a version number (R303). -/
def versionLimit : Nat := 2 ^ 48

/-- The checks of R300: the region and the word number that a versioned access names. -/
def State.verWord (s : State) (via : Via) (t : Word) (c : Class) : Except Trap (Nat × Nat) :=
  match checkExtent via.ext t 64 c with
  | .error e => .error e
  | .ok (_, va) =>
    if va % 64 ≠ 0 then .error ⟨.addr, t, 0, 0⟩ else
    match s.page via va 64 c.wr with
    | none => .error ⟨s.walkCause via.root va, t, 0, 0⟩
    | some (e, pa) =>
      let n := extTidx ((via.ext[tagOf t]?).getD 0)
      let r := s.ver.region n
      if s.permit via c 3 e pa 64 = some .perm then .error ⟨.perm, t, 0, 0⟩
      else if regSt r ≠ 1 ∨ regAsid r ≠ bits via.root.toNat 63 54 ∨ va < regBase r ∨ regBase r + regLen r ≤ va ∨
          stackOf pa ≠ some (regHs r) then .error ⟨.perm, t, 0, 0⟩
      else .ok (n, (va - regBase r) / 64)

/-- A trap of the version checks: the version operand and the watermark (R303). -/
def VerSys.refuse (s : VerSys) (c : Cause) (t : Word) (n : Nat) (v : Word) : Trap :=
  ⟨c, t, v, BitVec.ofNat 64 (regWmark (s.region n))⟩

/-- The wake of one waiter: a task becomes ready (R310, R366), a stream program goes on; an encoder tests for itself. -/
def State.wakeWaiter (s : State) (w : Waiter) : State :=
  match w with
  | .task k => s.makeReady k false
  | .stream p => s.mapStr fun r => { r with ctxs := r.ctxs.map fun x => if x.pid = p then { x with waiting := false } else x }
  | .encoder _ => s

/-- Ends every wait for a version that `hit` selects; OVF clears where no unentered waiter remains (R306). Several
tasks become ready in the order of the wait list (DESIGN CHOICE, log 52). -/
def State.wakeVersions (s : State) (n : Nat) (hit : VWait → Bool) : State :=
  let woken := s.ver.waits.filter hit
  let s := s.mapVer fun v => { v with waits := v.waits.filter fun w => ! hit w }
  let s := if (s.ver.waits.any fun w => w.region = n && ! w.entered) then s else s.mapVer fun v => v.put n 250 250 0
  woken.foldl (fun s w => s.wakeWaiter w.who) s

/-- Ends every heap wait of a region, in list order (R313). -/
def State.wakeHeap (s : State) (n : Nat) : State :=
  let woken := s.ver.heapWaits.filter fun w => w.region = n
  let s := s.mapVer fun v => { v with heapWaits := v.heapWaits.filter fun w => w.region ≠ n }
  woken.foldl (fun s w => s.wakeWaiter w.who) s

/-- Enters a wait for a version in the wait table of the region's home, of 8,192 entries; where it is full, the waiter is left
out and OVF is set (R306). -/
def State.waitVersion (s : State) (n x v : Nat) (who : Waiter) : State :=
  let hs := regHs (s.ver.region n)
  let used := (s.ver.waits.filter fun w => w.entered && regHs (s.ver.region w.region) = hs).length
  let fits : Bool := used < 8192
  s.mapVer fun u =>
    let u := { u with waits := u.waits ++ [{ region := n, word := x, number := v, who := who, entered := fits }] }
    if fits then u else u.put n 250 250 1

/-- Creates a version (R311) and wakes who waits for it, and, while OVF stands, every unentered waiter (R306). -/
def State.createVersion (s : State) (n x v : Nat) (value : Word) : State :=
  let s := s.mapVer fun u =>
    { u.put n 367 320 (regHused (u.region n) + 128) with
      versions := { region := n, word := x, number := v, value := value } :: u.versions }
  s.wakeVersions n fun w => w.region = n && ((w.word = x && w.number = v) || ! w.entered)

/-- What a store of version v finds (R311), or, without a trap, whether the heap is full. -/
def State.storeCheck (s : State) (via : Via) (t v : Word) : Except Trap (Nat × Nat × Bool) :=
  match s.verWord via t .verStore with
  | .error e => .error e
  | .ok (n, x) =>
    let r := s.ver.region n
    if versionLimit ≤ v.toNat then .error ⟨.addr, t, 0, 0⟩
    else if v.toNat < regWmark r then .error (s.ver.refuse .vstale t n v)
    else if (s.ver.find n x v.toNat).isSome then .error (s.ver.refuse .vcollide t n v)
    else .ok (n, x, regHcap r < regHused r + 128)

/-- VFULL (R303, R313). -/
def State.vfullTrap (s : State) (t : Word) (n : Nat) (v : Word) : Trap :=
  ⟨.vfull, t, v, BitVec.ofNat 64 (regHcap (s.ver.region n))⟩

/-- A record runs on the core in focus, so that its task can park. -/
def State.bound (s : State) : Bool :=
  let r := (s.sched.slot s.coreNo).run
  bindValid r && (s.sched.task (keyOf (bindTid r))).isSome

/-- The task that the running record names. -/
def State.boundKey (s : State) : TaskKey := keyOf (bindTid (s.sched.slot s.coreNo).run)

/-- PARKING FOR A VERSION (R297): the task leaves its core and waits. -/
def State.parkVersion (s : State) (n x v : Nat) : State :=
  if s.bound then (s.park .blockedVersion).waitVersion n x v (.task s.boundKey) else s

/-- Parking for heap space (R313). -/
def State.parkHeap (s : State) (n : Nat) : State :=
  if s.bound then
    (s.park .blockedVersion).mapVer fun u =>
      { u with heapWaits := u.heapWaits ++ [{ region := n, who := .task s.boundKey, start := s.sched.ticks }] }
  else s

/-- A VFULL is pending for the task's parked store (R313). -/
def State.vfullPending (s : State) : Bool := (s.sched.task s.taskKey).any Task.vfull

/-- The store that a pending VFULL belongs to has been performed. -/
def State.clearVfull (s : State) : State := s.mapSched fun c => c.mapTask s.taskKey fun t => { t with vfull := false }

/-- What the look-up of a load finds (R308): the value, nothing yet, or a trap. -/
inductive Found where
  | value (x : Word)
  | missing (n x : Nat)
  | bad (t : Trap)
deriving DecidableEq, Repr

/-- The look-up of VNLD for version v (R308). -/
def State.lookUp (s : State) (via : Via) (t v : Word) : Found :=
  match s.verWord via t .verLoad with
  | .error e => .bad e
  | .ok (n, x) =>
    if versionLimit ≤ v.toNat then .bad ⟨.addr, t, 0, 0⟩
    else if v.toNat < regWmark (s.ver.region n) then .bad (s.ver.refuse .missver t n v)
    else
      match s.ver.find n x v.toNat with
      | some y => .value y.value
      | none => .missing n x

/-- VNLD.LE (R308). -/
def State.vnldLe (s : State) (d a b : BitVec 5) : State :=
  let t := s.g a
  let v := s.g b
  if d = 0 ∨ d = 31 then s.illop else
  s.orTrap (s.verWord s.via t .verLoad) fun (n, x) =>
    if versionLimit ≤ v.toNat then s.trap ⟨.addr, t, 0, 0⟩
    else
      match s.ver.latest n x v.toNat with
      | some y => (s.setG (d + 1) (BitVec.ofNat 64 y.number)).finishG 32 d y.value
      | none => (s.setG (d + 1) (BitVec.ofNat 64 (2 ^ 64 - 1))).finishG 32 d 0

/-- VNLD (R308). -/
def State.vnld (s : State) (d a b : BitVec 5) : State :=
  match s.lookUp s.via (s.g a) (s.g b) with
  | .value x => s.finishG 32 d x
  | .missing n x => s.parkVersion n x (s.g b).toNat
  | .bad t => s.trap t

def execVnld (d a b : BitVec 5) (_q l : BitVec 1) (s : State) : Result :=
  .next (if l = 1 then s.vnldLe d a b else s.vnld d a b)

/-- VNST (R311). -/
def State.vnst (s : State) (d a b : BitVec 5) : State :=
  let t := s.g a
  let v := s.g b
  match s.storeCheck s.via t v with
  | .error e => s.clearVfull.trap e
  | .ok (n, x, full) =>
    if full then
      if s.vfullPending then s.clearVfull.trap (s.vfullTrap t n v) else s.parkHeap n
    else ((s.clearVfull.createVersion n x v.toNat (s.g d)).retire 32)

def execVnst (d a b : BitVec 5) (_r : BitVec 1) (s : State) : Result := .next (s.vnst d a b)

/-- The tagged address of word i of a vector form (R296). -/
def wordAddr (t : Word) (i : Nat) : Except Trap Word := elemAddr t (64 * i : Nat)

/-- The look-ups of VNLDV up to the first that finds nothing or fails. -/
def State.lookUps (s : State) (t v : Word) : List Nat → List (Nat × Nat) × Option (Nat × Found)
  | [] => ([], none)
  | i :: is =>
    match wordAddr t i with
    | .error e => ([], some (i, .bad e))
    | .ok u =>
      match s.lookUp s.via u v with
      | .value x => let (rest, bad) := s.lookUps t v is; ((i, x.toNat) :: rest, bad)
      | other => ([], some (i, other))

/-- VNLDV (R296, R309). -/
def State.vnldv (s : State) (d a b : BitVec 5) (k : BitVec 3) : State :=
  if s.cw ≠ 64 ∨ ¬ groupOk d s.grp then s.illop else
  let (good, bad) := s.lookUps (s.g a) (s.g b) (s.active k s.estart)
  match bad with
  | some (_, .missing n x) => s.parkVersion n x (s.g b).toNat
  | some (i, .bad t) => ((s.putElems d.toNat s.grp 64 good).setEstart i).trap t
  | _ => (s.putElems d.toNat s.grp 64 good).finishLoad d 1 (s.maskedOff k s.estart)

def execVnldv (d a b : BitVec 5) (k : BitVec 3) (_q : BitVec 1) (s : State) : Result := .next (s.vnldv d a b k)

/-- The elements of VNSTV in ascending order (R312). -/
def State.storeElems (s : State) (t v : Word) (x : Nat) : List Nat → State
  | [] => (s.clearVfull.setEstart 0).retire 32
  | i :: is =>
    match wordAddr t i with
    | .error e => (s.clearVfull.setEstart i).trap e
    | .ok u =>
      match s.storeCheck s.via u v with
      | .error e => (s.clearVfull.setEstart i).trap e
      | .ok (n, w, full) =>
        if full then
          if s.vfullPending then (s.clearVfull.setEstart i).trap (s.vfullTrap u n v) else (s.setEstart i).parkHeap n
        else (s.createVersion n w v.toNat (BitVec.ofNat 64 (elem x 64 i))).storeElems t v x is

/-- VNSTV (R296, R312). -/
def State.vnstv (s : State) (d a b : BitVec 5) (k : BitVec 3) : State :=
  if s.cw ≠ 64 ∨ ¬ groupOk d s.grp then s.illop
  else s.storeElems (s.g a) (s.g b) (s.group d.toNat s.grp) (s.active k s.estart)

def execVnstv (d a b : BitVec 5) (k : BitVec 3) (_r : BitVec 1) (s : State) : Result := .next (s.vnstv d a b k)

/-- The region that a query by region names (R314): check 1 of R300, an open entry and the address space. -/
def State.queryRegion (s : State) (t : Word) : Except Trap (BitVec 384) :=
  match checkExtent s.via.ext t 64 .verLoad with
  | .error e => .error e
  | .ok _ =>
    let r := s.ver.region (extTidx (s.e (tagOf t)))
    if regSt r ≠ 1 ∨ regAsid r ≠ bits s.core.ctl.ptroot.toNat 63 54 then .error ⟨.perm, t, 0, 0⟩ else .ok r

/-- VNQRY (R314). -/
def State.vnqry (s : State) (d a : BitVec 5) (sel : Nat) : State :=
  let t := s.g a
  if sel = 0 then
    s.orTrap (s.verWord s.via t .verLoad) fun (n, x) =>
      s.finishG 32 d (match s.ver.latest n x versionLimit with
        | some y => BitVec.ofNat 64 y.number
        | none => BitVec.ofNat 64 (2 ^ 64 - 1))
  else
    s.orTrap (s.queryRegion t) fun r =>
      s.finishG 32 d (BitVec.ofNat 64 (if sel = 1 then regWmark r else if sel = 2 then regHcap r else regHused r))

def execVnqry (d a : BitVec 5) (sel : BitVec 2) (s : State) : Result := .next (s.vnqry d a sel.toNat)

/-- Raises the watermark of region n to w (R315): waiters below it wake, and every word awaits its reclamation. -/
def State.raiseWatermark (s : State) (n w : Nat) : State :=
  let words := (s.ver.versions.filter fun y => y.region = n).map fun y => (n, y.word)
  let s := s.mapVer fun v => { v.put n 247 200 w with reclaim := distinct (words.filter fun x => ! v.reclaim.contains x) ++ v.reclaim }
  s.wakeVersions n fun x => x.region = n && x.number < w

/-- VNDROP (R315). -/
def State.vndrop (s : State) (a b : BitVec 5) : State :=
  let t := s.g a
  let w := s.g b
  s.orTrap (s.verWord s.via t .verStore) fun (n, _) =>
    if versionLimit ≤ w.toNat then s.trap ⟨.addr, t, 0, 0⟩
    else if w.toNat ≤ regWmark (s.ver.region n) then s.retire 32
    else (s.raiseWatermark n w.toNat).retire 32

def execVndrop (a b : BitVec 5) (s : State) : Result := .next (s.vndrop a b)

/-- VERSION_RECLAIM (R305, R315): the reclamation reaches word x of region r. -/
def execVersionReclaim (r : BitVec 6) (x : Nat) (s : State) : Result :=
  let n := r.toNat
  let w := regWmark (s.ver.region n)
  let mine := s.ver.versions.filter fun y => y.region = n ∧ y.word = x
  let keep : Option Version := if mine.any fun y => w ≤ y.number then none else s.ver.latest n x versionLimit
  let gone := mine.filter fun y => y.number < w ∧ some y ≠ keep
  .next <|
    if ! s.ver.reclaim.contains (n, x) then s else
    let s := s.mapVer fun v =>
      { v.put n 367 320 (regHused (v.region n) - 128 * gone.length) with
        versions := v.versions.filter fun y => ! gone.contains y
        reclaim := v.reclaim.filter (· ≠ (n, x)) }
    if gone = [] then s else s.wakeHeap n

/-- VERSION_HEAP_FREE (R316): the heap of a closed region loses its protection. Its bits then read as before
VNOPEN (DESIGN CHOICE, log 52). -/
def execVersionHeapFree (r : BitVec 6) (s : State) : Result :=
  .next (s.mapVer fun v => { v with closing := v.closing.filter fun x => x.1 ≠ r.toNat })

/-- The jobs of an encoder stream are discarded, with their waits (R422). -/
def State.dropJobs (s : State) (n : Nat) : State :=
  let gone := (s.io.encJobs.filter fun j => j.stream = n).map EncJob.id
  let mine : Waiter → Bool
    | .encoder i => gone.contains i
    | _ => false
  (s.mapIo fun io => { io with encJobs := io.encJobs.filter fun j => j.stream ≠ n }).mapVer fun v => v.dropWaits mine

/-- A black-box event whose type and data the spec leaves open (R418, R422, R427; log 6). -/
def State.openEvent (s : State) (unit : Nat) : State := s.event (s.drawNat 7 0) 4 unit (s.drawNat 7 1)

/-- An encoder stream fails (R422): an event, and its jobs are discarded. -/
def State.failStream (s : State) (n : Nat) : State :=
  match s.io.encStreams.find? fun x => x.number = n with
  | none => s
  | some x =>
    ((s.openEvent x.encoder).dropJobs n).mapIo fun io => { io with
      encStreams := io.encStreams.map fun (y : EncStream) => if y.number = n then { y with failed := true } else y }

/-- VFULL_WATCHDOG (R313): the count of heap waiter i of region r reaches VFWD of its virtual device. -/
def execVfullWatchdog (r : BitVec 6) (i : Nat) (s : State) : Result :=
  let ws := s.ver.heapWaits.filter fun w => w.region = r.toNat
  let due (vd : Nat) (w : HeapWait) : Bool := (s.sched.settings vd).vfwd ≤ s.sched.ticks - w.start
  .next <| match ws[i]? with
    | none => s
    | some w =>
      let out := s.mapVer fun v => { v with heapWaits := v.heapWaits.filter (· ≠ w) }
      match w.who with
      | .task k =>
        if due k.vdev w then (out.mapSched fun c => c.mapTask k fun t => { t with vfull := true }).makeReady k false else s
      | .stream p =>
        match s.str.ctxs.find? fun x => x.pid = p with
        | some x =>
          if due x.task.vdev w then
            (out.mapStr fun q => { q with ctxs := q.ctxs.map fun y => if y.pid = p then { y with vfull := true } else y }).wakeWaiter w.who
          else s
        | none => s
      | .encoder i =>
        match s.io.encJobs.find? fun j => j.id = i with
        | some j =>
          let vd := ((s.io.encStreams.find? fun x => x.number = j.stream).map EncStream.vdev).getD 0
          if due vd w then s.failStream j.stream else s
        | none => s

/-- The image of VNOPEN as an open entry: ST = 1, HUSED = 0, OVF = 0 and reserved bits zero (R302, R316). -/
def openEntry (img : Nat) : BitVec 384 :=
  let x : BitVec 384 := BitVec.ofNat 384 img
  BitVec.ofNat 384 (regBase x + regLen x <<< 64 + regHbase x <<< 128 + regAsid x <<< 182 + regWmark x <<< 200 + regHs x <<< 251 +
    1 <<< 254 + regHcap x <<< 256)

/-- The closed entries of the region table. -/
def VerSys.closed (v : VerSys) : List Nat := (List.range 64).filter fun n => regSt (v.region n) = 0

/-- The entry number that VNOPEN takes: the one asked for, or for 64 a free one, a free choice (log 6). -/
def State.chosenRegion (s : State) (want : Nat) : Nat :=
  if want = 64 then s.ver.closed.getD (s.drawNat 4 0 % s.ver.closed.length) 64 else want

/-- The reason for which VNOPEN installs nothing (R316); 0 if none. The lowest is given. Reason 5 counts the heap of a closed region
that is still being freed, and takes an empty region (LEN = 0) strictly inside another for one that overlaps it (DESIGN CHOICES,
log 52). -/
def State.openReason (s : State) (x : BitVec 384) (want : Nat) : Nat :=
  let stack := regHs x * 2 ^ 40
  let meets (y : BitVec 384) : Bool :=
    regSt y ≠ 0 && ((regSt y = 1 && regAsid y = regAsid x && overlaps (regBase x) (regLen x) (regBase y) (regLen y)) ||
      overlaps (regHbase x) (regHcap x) (regHbase y) (regHcap y))
  if want = 64 ∧ s.ver.closed = [] then 1
  else if 64 < want ∨ (want < 64 ∧ regSt (s.ver.region want) ≠ 0) then 2
  else if regBase x % 64 ≠ 0 ∨ regLen x % 64 ≠ 0 ∨ 2 ^ 58 < regBase x + regLen x ∨ regHcap x = 0 ∨ regHcap x % 128 ≠ 0 ∨
      regHbase x % 1024 ≠ 0 then 3
  else if regHbase x < stack ∨ stack + Config.stackBits < regHbase x + regHcap x then 4
  else if s.ver.regions.toList.any meets ∨ s.ver.closing.any (fun y => overlaps (regHbase x) (regHcap x) y.2.1 y.2.2) then 5
  else 0

/-- OPENING A REGION (R316): the state, and the value of g[D]. -/
def State.openRegion (s : State) (img want : Nat) : State × Word :=
  let x := openEntry img
  match s.openReason x want with
  | 0 =>
    let n := s.chosenRegion want
    (s.mapVer fun v => { v with regions := v.regions.setIfInBounds n x }, BitVec.ofNat 64 n)
  | r => (s, BitVec.ofNat 64 (2 ^ 63 + r))

/-- VNOPEN (R316). -/
def State.vnopen (s : State) (d a b : BitVec 5) : State :=
  s.orTrap (s.resolve s.via (s.g a) 384 .load) fun segs =>
    let r := s.openRegion (s.readSegs segs) (s.g b).toNat
    r.1.finishG 32 d r.2

def execVnopen (d a b : BitVec 5) (s : State) : Result := .next (s.ifPrivileged (s.vnopen d a b))

/-- CLOSING A REGION (R316): its waiters wake, its live versions are counted, and its heap is left to be freed. -/
def State.closeRegion (s : State) (n : Nat) : State × Word :=
  let r := s.ver.region n
  if regSt r = 0 then (s, 0) else
  let live := s.ver.live n
  let woken := (s.ver.waits.filter fun w => w.region = n).map VWait.who ++
    (s.ver.heapWaits.filter fun w => w.region = n).map HeapWait.who
  let s := s.mapVer fun v => { (v.put n 255 254 2).put n 250 250 0 with
    waits := v.waits.filter fun w => w.region ≠ n, heapWaits := v.heapWaits.filter fun w => w.region ≠ n }
  let s := woken.foldl State.wakeWaiter s
  (s.mapVer fun v => { (v.put n 255 254 0).put n 367 320 0 with
    versions := v.versions.filter fun y => y.region ≠ n
    reclaim := v.reclaim.filter fun y => y.1 ≠ n
    closing := v.closing ++ [(n, regHbase r, regHcap r)] }, BitVec.ofNat 64 live)

/-- VNCLOSE (R316). -/
def State.vnclose (s : State) (d a : BitVec 5) : State :=
  if 63 < (s.g a).toNat then s.illop else
  let r := s.closeRegion (s.g a).toNat
  r.1.finishG 32 d r.2

def execVnclose (d a : BitVec 5) (s : State) : Result := .next (s.ifPrivileged (s.vnclose d a))

end Sys2Proof.Machine
end

