-- ==== Sys2Proof/Machine/Streams.lean ====
section
/-! DEFINITION. The stream engines (R225-R253, R320, R338): queues and their instructions, program contexts, the commands,
deliveries into windows and memory, and stream faults. A command is performed in one step; one that meets a detached local
store stalls before its first effect. -/

namespace Sys2Proof.Machine

/-- The programs of a queue, submitted and not ended. -/
def Queue.programs (q : Queue) : List Program :=
  q.entries.filterMap fun e =>
    match e with
    | .program p => some p
    | .marker _ => none

/-- How many join markers a queue holds (R338). -/
def Queue.markers (q : Queue) : Nat := q.entries.length - q.programs.length

/-- Queue q of a task. -/
def Task.queue (t : Task) (q : Nat) : Queue := (t.queues[q]?).getD Queue.empty

/-- Replaces queue q of a task. -/
def Sched.setQueue (c : Sched) (k : TaskKey) (q : Nat) (x : Queue) : Sched :=
  c.mapTask k fun t => { t with queues := t.queues.setIfInBounds q x }

/-- Queue q of the task bound to the core in focus; that of no task is empty. -/
def State.queue (s : State) (q : Nat) : Queue :=
  match s.task with
  | some t => t.queue q
  | none => Queue.empty

/-- The code of a stream fault (R239). -/
def streamCode : Cause → Nat
  | .addr => 1 | .bounds => 2 | .page => 3 | .perm => 4 | .illop => 5 | .barclobber => 6
  | .missver => 7 | .vcollide => 8 | .vstale => 9 | .vfull => 10 | .linkdown => 11
  | _ => 0

/-- The trap that a stream fault's code stands for (R239). -/
def streamCause : Nat → Cause
  | 1 => .addr | 2 => .bounds | 3 => .page | 4 => .perm | 6 => .barclobber
  | 7 => .missver | 8 => .vcollide | 9 => .vstale | 10 => .vfull | 11 => .linkdown
  | _ => .illop

/-- The trap of a faulted queue (R239, R387). -/
def SFault.trap (f : SFault) : Trap :=
  if f.cause = 2 then ⟨.bounds, f.tval, f.width, f.limit⟩ else ⟨streamCause f.cause, f.tval, 0, 0⟩

/-- Takes a queue's fault: the queue is emptied of programs and no longer faulted, and the instruction traps (R239). -/
def State.takeFault (s : State) (q : Nat) (f : SFault) : State :=
  let x := s.queue q
  let keep := x.entries.filter fun e => match e with
    | .program _ => false
    | .marker _ => true
  (s.mapSched fun c => c.setQueue s.taskKey q { entries := keep, fault := none }).trap f.trap

/-- STRM (R225, R235). -/
def State.strm (s : State) (a b : BitVec 5) (q : Nat) : State :=
  let t := s.g a
  if 29 < b.toNat then s.illop
  else if bits t.toNat 59 58 ≠ 0 ∨ bits t.toNat 5 0 ≠ 0 then s.trap ⟨.addr, t, 0, 0⟩
  else
    let x := s.queue q
    match x.fault with
    | some f => s.takeFault q f
    | none =>
      if 8 ≤ x.programs.length then s.waitIn .strm
      else
        let c : Vector Word 16 := (((Vector.replicate 16 0).set 0 s.core.ctl.vl).set 1 (s.g b)).set 2 (s.g (b + 1)) |>.set 3 (s.g (b + 2))
        let p : Program := { pid := s.str.nextPid, pc := t, root := s.via.root, assured := s.via.assured, ext := s.extents, c := c,
                             constMark := s.seq.constMark, part := bits s.core.ctl.llcp.toNat 13 8 }
        let s := s.mapSched fun d => d.setQueue s.taskKey q { x with entries := x.entries ++ [.program p] }
        (s.mapStr fun r => { r with nextPid := r.nextPid + 1 }).retire 32

def execStrm (a b : BitVec 5) (q : BitVec 4) (s : State) : Result := .next (s.strm a b q.toNat)

/-- SQWAIT (R236): markers are no programs. -/
def State.sqwait (s : State) (q : BitVec 4) : State :=
  let x := s.queue q.toNat
  match x.fault with
  | some f => s.takeFault q.toNat f
  | none => if x.programs = [] then s.retire 32 else s.waitIn (.sqwait q)

def execSqwait (q : BitVec 4) (s : State) : Result := .next (s.sqwait q)

/-- The context that runs a queue's head program. -/
def State.running (s : State) (x : Queue) : Option Ctx :=
  match x.entries.head? with
  | some (.program p) => s.str.ctxs.find? fun c => c.pid = p.pid
  | _ => none

/-- The report of SQSTAT (R237). With FLT = 0 SEL 1 and 2 report 0 (DESIGN CHOICE, log 51). -/
def State.queueReport (s : State) (x : Queue) (sel : Nat) : Word :=
  match sel, x.fault with
  | 0, f =>
    let run := s.running x
    let eng := match run with
      | some c => c.engine
      | none => 63
    BitVec.ofNat 64 ((match f with | some y => y.cause | none => 0) <<< 20 + eng <<< 8 + f.isSome.toNat <<< 5 +
      run.isSome.toNat <<< 4 + x.programs.length)
  | 1, some f => f.tval
  | 2, some f => f.command
  | 3, some f => f.limit
  | 4, some f => f.width
  | _, _ => 0

/-- SQSTAT (R237). -/
def execSqstat (d : BitVec 5) (q : BitVec 4) (sel : BitVec 3) (s : State) : Result :=
  .next (if 4 < sel.toNat then s.illop else s.finishG 32 d (s.queueReport (s.queue q.toNat) sel.toNat))

/-- The queues that a QFENCE names. -/
def namedQueues (m : BitVec 16) : List Nat := (List.range 16).filter fun q => m.getLsbD q

/-- QFENCE (R338): a marker in every named queue, which waits for the programs then submitted to any of them. -/
def State.qfence (s : State) (m : BitVec 16) : State :=
  let qs := namedQueues m
  if m = 0 then s.illop
  else if qs.any fun q => 8 ≤ (s.queue q).markers then s.waitIn .qfence
  else
    let after := qs.flatMap fun q => (s.queue q).programs.map Program.pid
    (s.mapSched fun c => qs.foldl (fun c q =>
      c.setQueue s.taskKey q { s.queue q with entries := (s.queue q).entries ++ [.marker after] }) c).retire 32

def execQfence (q : BitVec 16) (s : State) : Result := .next (s.qfence q)

/-- The core that a task runs on. -/
def Sched.coreOf (c : Sched) (k : TaskKey) : Option Nat :=
  (c.slots.find? fun x => bindValid x.2.run && keyOf (bindTid x.2.run) = k).map (·.1)

/-- The program whose command is performed. -/
def State.prog (s : State) : Option Ctx := s.str.ctxs.find? fun x => x.pid = s.str.focus

/-- Changes that program's context. -/
def State.mapProg (s : State) (f : Ctx → Ctx) : State :=
  s.mapStr fun r => { r with ctxs := r.ctxs.map fun x => if x.pid = r.focus then f x else x }

/-- The means of a program's accesses: the snapshot of R225. What an engine writes is written at the home (log 15). -/
def Ctx.via (x : Ctx) : Via := { ext := x.ext, root := x.root, assured := x.assured, die := none }

/-- The program's task is bound to no core, so that its local store is detached (R253). -/
def State.detached (s : State) (x : Ctx) : Bool := (s.sched.coreOf x.task).isNone

/-- How a command ends: done, done with SPC set by itself, a fault with the width of the failing access, a wait, or a stall on
the detached local store (R239, R253). -/
inductive Move where
  | ok (s : State)
  | jump (s : State)
  | bad (s : State) (t : Trap) (w : Nat)
  | wait (s : State)
  | stall

/-- Where an element access of a command goes (R243): its segments, a fault, or a stall. -/
inductive Reach where
  | segs (g : List Seg)
  | bad (t : Trap)
  | stall
deriving DecidableEq, Repr

/-- Checks one element access of w bits at an exact offset from a tagged address (R243). -/
def State.reach (s : State) (x : Ctx) (t : Word) (d : Int) (w : Nat) (c : Class) : Reach :=
  match elemAddr t d with
  | .error e => .bad e
  | .ok u =>
    match checkExtent x.ext u w c with
    | .error e => .bad e
    | .ok (kind, _) =>
      if (kind = 1 ∨ kind = 2) ∧ s.detached x then .stall else
      match s.resolve x.via u w c with
      | .error e => .bad e
      | .ok g => .segs g

/-- What a read of a command gives. -/
inductive Got where
  | val (x : Nat)
  | bad (t : Trap) (w : Nat)
  | stall
deriving DecidableEq, Repr

/-- Goes on with a value that was read. -/
def Got.andThen (s : State) (g : Got) (f : Nat → Move) : Move :=
  match g with
  | .val x => f x
  | .bad t w => .bad s t w
  | .stall => .stall

/-- A read of w bits (R243): through kind C on the constant path, as old as its sequencer may see at the STRM (R113, R225, R337),
also of bits that the program itself has written since (DESIGN CHOICE, log 13: R242 and R243 differ). -/
def State.streamRead (s : State) (x : Ctx) (t : Word) (d : Int) (w : Nat) : Got :=
  match s.reach x t d w .matrix with
  | .bad e => .bad e w
  | .stall => .stall
  | .segs g =>
    let const : Bool := extKind ((x.ext[tagOf t]?).getD 0) = 4
    .val (if const then s.readSegsConst x.constMark g else s.readSegs g)

/-- The LLC that may keep a write of a program, by the partition it was submitted with (R293). -/
def State.streamKeep (s : State) (x : Ctx) (g : List Seg) : Option Keep := s.visit (firstBit g) fun _ => x.part

/-- A write of w bits (R243). -/
def State.streamWrite (s : State) (x : Ctx) (t : Word) (d : Int) (w v : Nat) : Move :=
  match s.reach x t d w .store with
  | .bad e => .bad s e w
  | .stall => .stall
  | .segs g => .ok (s.store (s.streamKeep x g) g w v)

/-- Performs the writes of a list of items in order, up to the first that does not complete. -/
def doAll (f : State → Nat → Move) (s : State) : List Nat → Move
  | [] => .ok s
  | i :: is =>
    match f s i with
    | .ok t => doAll f t is
    | other => other

/-- Window control block n with its binding changed (R251). -/
def State.putBinding (s : State) (n : Nat) (on : Bool) (q : Nat) : State :=
  s.mapCore fun c => c.putBlock n (putBits (c.block n) 159 155 (on.toNat + (if on then q else 0) <<< 1))

/-- The program's producer bindings are cleared (R239, R244). -/
def State.clearBindings (s : State) (x : Ctx) : State := x.bound.foldl (fun s n => s.putBinding n false 0) s

/-- The die and the number within it of a stream engine (R232, R427). -/
def engineDie (e : Nat) : Nat := if e < 32 then 8 + e / 4 else 4
def engineUnit (e : Nat) : Nat := if e < 32 then e % 4 else e - 32

/-- A program leaves its context (R244). -/
def State.dropProgram (s : State) (pid : Nat) : State :=
  let s := s.mapStr fun r => { r with ctxs := r.ctxs.filter fun y => y.pid ≠ pid }
  s.mapVer fun v => v.dropWaits fun w => w = .stream pid

/-- A STREAM FAULT (R239). A program that is bound to windows of a detached local store stalls before it. -/
def State.streamFault (s : State) (t : Trap) (w : Nat) : State :=
  match s.prog with
  | none => s
  | some x =>
    if x.bound ≠ [] ∧ s.detached x then s.mapProg fun y => { y with stalled := true } else
    let s := (s.clearBindings x).dropProgram x.pid
    let f : SFault := { cause := streamCode t.cause, tval := t.tval, width := BitVec.ofNat 64 w,
                        limit := if t.cause = .bounds then t.xb else 0, command := x.spc }
    let s := s.event 3 (engineDie x.engine) (engineUnit x.engine) (t.cause.code + (tidOf x.task) <<< 5)
    match s.sched.task x.task with
    | none => s
    | some k =>
      let keep := (k.queue x.queue).entries.filter fun e => match e with
        | .program _ => false
        | .marker _ => true
      s.mapSched fun c => c.setQueue x.task x.queue { entries := keep, fault := some f }

/-- Performs a command of the program in focus. -/
def State.command (s : State) (f : State → Ctx → Move) : State :=
  match s.prog with
  | none => s
  | some x =>
    match f s x with
    | .ok t => t.mapProg fun y => { y with spc := y.spc + 64 }
    | .jump t => t
    | .bad t e w => t.streamFault e w
    | .wait t => t
    | .stall => s.mapProg fun y => { y with stalled := true }

/-- An ILLOP stream fault: TVAL holds the command word (log 16). -/
def State.badCommand (s : State) : Move := .bad s ⟨.illop, s.str.word, 0, 0⟩ 0

/-- A command that names a descriptor slot: a CD above 7 names none, an ILLOP stream fault (R241). -/
def State.slotCommand (s : State) (d : BitVec 4) (f : State → Ctx → Move) : State :=
  s.command fun s x => if 7 < d.toNat then s.badCommand else f s x

/-- A program register. -/
def Ctx.reg (x : Ctx) (r : BitVec 4) : Word := x.c.get r.toFin

/-- Writes a program register. -/
def Ctx.setReg (x : Ctx) (r : BitVec 4) (v : Word) : Ctx := { x with c := x.c.set r.toNat v r.isLt }

/-- The fields of a tensor descriptor (R227). -/
def descBase (d : BitVec 512) : Word := BitVec.ofNat 64 d.toNat
def descW (d : BitVec 512) : Nat := bits d.toNat 69 64 + 1
def descNd (d : BitVec 512) : Nat := bits d.toNat 71 70
def descStr (d : BitVec 512) (j : Nat) : Int := toInt 64 (bits d.toNat (255 + 64 * j) (192 + 64 * j))
def descFill (d : BitVec 512) : Nat := bits d.toNat 511 448

/-- The size of dimension j; one at or above ND + 1 has size 1 (R244). -/
def descSize (d : BitVec 512) (j : Nat) : Nat := if descNd d < j then 1 else bits d.toNat (95 + 24 * j) (72 + 24 * j)

/-- Descriptor slot d. -/
def Ctx.desc (x : Ctx) (d : BitVec 4) : BitVec 512 := (x.d[d.toNat]?).getD 0

/-- The indices of an element (R244). -/
def Ctx.index (x : Ctx) (i0 i1 : Nat) : List Nat := [i0, i1, (x.c.get 14).toNat, (x.c.get 15).toNat]

/-- An element lies inside its tensor (R244). -/
def inside (d : BitVec 512) (is : List Nat) : Bool := (is.zip (List.range 4)).all fun p => p.1 < descSize d p.2

/-- The offset of an element from BASE (R227, R244). -/
def descDelta (d : BitVec 512) (is : List Nat) : Int :=
  ((is.zip (List.range 4)).map fun p => (p.1 : Int) * descStr d p.2).foldl (· + ·) 0

/-- SDESC (R244). -/
def execSdesc (d a : BitVec 4) (o : BitVec 46) (s : State) : Result :=
  .next <| s.slotCommand d fun s x =>
    (s.streamRead x (x.reg a) o.toInt 512).andThen s fun v =>
      if bits v 191 168 ≠ 0 then s.badCommand
      else .ok (s.mapProg fun y => { y with d := y.d.setIfInBounds d.toNat (BitVec.ofNat 512 v) })

/-- Tensor element (i0, i1), or FILL where it lies outside (R228, R244). -/
def State.tensorRead (s : State) (x : Ctx) (d : BitVec 512) (i0 i1 : Nat) : Got :=
  let is := x.index i0 i1
  if inside d is then s.streamRead x (descBase d) (descDelta d is) (descW d) else .val (descFill d % 2 ^ descW d)

/-- The floating format of a conversion code (R245). -/
def convFmt : Nat → Option Fmt
  | 1 => some .f64
  | 2 => some .f32
  | 3 => some .f16
  | 4 => some .bf16
  | 5 => some .e4m3
  | 6 => some .e5m2
  | _ => none

/-- A conversion of one element from a side of v bits to a side of w bits (R245). -/
def Conv.apply (c : Conv) (v w x : Nat) : Nat :=
  match convFmt c.src, convFmt c.dst with
  | some f, some g => (fCvt f g c.rm x).bits
  | some f, none => (fToInt f c.rm (c.dst = 7) w x).bits
  | none, some g => (fOfInt g c.rm (if c.src = 7 then toInt v x else (x : Int))).bits
  | none, none =>
    let y : Int := if c.src = 7 then toInt v x else (x : Int)
    if c.sat then (if c.dst = 7 then ofInt w (satS y w) else (satZ y w).toNat) else ofInt w y

/-- A code that names a format of the given width (R245). -/
def convOk (code w : Nat) : Bool :=
  match convFmt code with
  | some f => f.width = w
  | none => code = 7 || code = 8

/-- The conversion in force for a descriptor of width w: the width of the other side and the element's change; none for ILLOP
(R245). -/
def Conv.use (c : Conv) (w : Nat) (scatter : Bool) : Option (Nat × (Nat → Nat)) :=
  if c.src = 0 ∧ c.dst = 0 then some (w, id)
  else
    let from_ := if scatter then c.wd else w
    let to_ := if scatter then w else c.wd
    if 5 < c.rm ∨ ¬ convOk c.src from_ ∨ ¬ convOk c.dst to_ then none else some (c.wd, c.apply from_ to_)

/-- The pieces of w bits at position p of a window's ring (R228): local-store address, width, and first bit. -/
def ringPieces (e : BitVec 128) (p w : Nat) : List (Nat × Nat × Nat) :=
  let o := p % extLen e
  let k := min w (extLen e - o)
  (extBase e + o, k, 0) :: (if k < w then [(extBase e, w - k, k)] else [])

/-- Writes w bits at position p of the ring of the window behind dst (R228, R250). An extent without PW fails with PERM at an item's place
in the ring, so after the wait for space and the binding, and never in a delivery of no items (DESIGN CHOICE, log 51). -/
def State.ringWrite (s : State) (dst : Word) (e : BitVec 128) (p w v : Nat) : Move :=
  let name (a : Nat) : Word := tagged (tagOf dst) (a - extBase e)
  if ¬ extWrite e then .bad s ⟨.perm, name (extBase e + p % extLen e), 0, 0⟩ w else
  match (ringPieces e p w).find? fun x => s.core.touchesLive x.1 x.2.1 with
  | some x => .bad s ⟨.barclobber, name x.1, 0, 0⟩ w
  | none => .ok ((ringPieces e p w).foldl (fun s x =>
      s.writeSeg none (.ls x.1 x.2.1) (v >>> x.2.2) (2 ^ x.2.1 - 1)) s)

/-- Takes a window for a delivery of n bits, and binds it (R228, R247, R251): its write count, or how it ends. Where several of its
faults hold, PERM goes first, then BOUNDS, then ADDR; an n of 2^64 or more is recorded modulo 2^64 (DESIGN CHOICE, log 51). -/
def State.openDelivery (s : State) (x : Ctx) (dst : Word) (e : BitVec 128) (n : Nat) (go : State → Nat → Move) : Move :=
  let k := extTidx e
  let b := s.core.block k
  if ¬ blockLive b ∨ blockCap b ≠ extLen e ∨ (blockBound b ∧ ¬ x.bound.contains k) then .bad s ⟨.perm, dst, 0, 0⟩ 0
  else if extLen e < n then .bad s ⟨.bounds, dst, BitVec.ofNat 64 n, BitVec.ofNat 64 (extLen e)⟩ n
  else if 2 ^ 64 ≤ blockWcnt b + n then .bad s ⟨.addr, dst, 0, 0⟩ 0
  else
    let s := if blockBound b then s else
      (s.putBinding k true x.queue).mapProg fun y => { y with bound := k :: y.bound.filter (· ≠ k) }
    if blockRcnt b + extLen e < blockWcnt b + n then
      .wait (s.mapProg fun y => { y with space := some (k, blockWcnt b + n - extLen e) })
    else go s (blockWcnt b)

/-- A DELIVERY of count items of w bits each (R228, R246): into a window's ring, or densely into kind L or G. The body puts the
items, each by its number and value. -/
def State.deliverBy (s : State) (x : Ctx) (dst : Word) (w count : Nat) (body : (State → Nat → Nat → Move) → State → Move) : Move :=
  let e := (x.ext[tagOf dst]?).getD 0
  if extKind e ≠ 2 ∧ extKind e ≠ 3 ∧ extKind e ≠ 4 then body (fun s i v => s.streamWrite x dst (i * w : Nat) w v) s
  else if bits dst.toNat 59 58 ≠ 0 then .bad s ⟨.addr, dst, 0, 0⟩ 0
  else if extKind e ≠ 2 then .bad s ⟨.perm, dst, 0, 0⟩ 0
  else if offOf dst ≠ 0 then .bad s ⟨.addr, dst, 0, 0⟩ 0
  else if s.detached x then .stall
  else
    s.openDelivery x dst e (count * w) fun s p =>
      match body (fun s i v => s.ringWrite dst e (p + i * w) w v) s with
      | .ok t => .ok (t.mapCore fun c => c.putBlock (extTidx e) (putBits (c.block (extTidx e)) 63 0 (p + count * w)))
      | other => other

/-- A delivery of items that are read one by one: an item that overlaps the bits which the delivery itself writes is read after the
items below it are written (DESIGN CHOICE, log 32). -/
def State.deliver (s : State) (x : Ctx) (dst : Word) (w count : Nat) (get : State → Nat → Got) : Move :=
  s.deliverBy x dst w count fun put s => doAll (fun s i => (get s i).andThen s fun v => put s i v) s (List.range count)

/-- STILE (R228, R246). In the origin c[A] is unsigned and the product is exact (DESIGN CHOICE, log 51). -/
def execStile (d a b : BitVec 4) (cols rows : BitVec 12) (o0 o1 : BitVec 11) (s : State) : Result :=
  .next <| s.slotCommand d fun s x =>
    let r := x.desc d
    let t0 := cols.toNat + 1
    let t1 := rows.toNat + 1
    match x.conv.use (descW r) false with
    | none => s.badCommand
    | some (w, f) =>
      s.deliver x (x.reg b) w (t0 * t1) fun s i =>
        match s.tensorRead x r ((x.reg a).toNat * o0.toNat + i % t0) ((x.reg a).toNat * o1.toNat + i / t0) with
        | .val v => .val (f v)
        | other => other

/-- The number of rows that SGATH and SSCAT move (R248). -/
def Ctx.rows (x : Ctx) (n : BitVec 12) : Nat := if n = 0 then (x.c.get 0).toNat else n.toNat

/-- The width of an index (R248). -/
def indexWidth (iw : BitVec 2) : Nat := 16 * 2 ^ iw.toNat

/-- SGATH (R248): the index of a row is read once, before its elements. -/
def execSgath (d a b : BitVec 4) (n : BitVec 12) (iw : BitVec 2) (s : State) : Result :=
  .next <| s.slotCommand d fun s x =>
    let r := x.desc d
    let z := descSize r 0
    match x.conv.use (descW r) false with
    | none => s.badCommand
    | some (w, f) =>
      if iw = 3 then s.badCommand else
      s.deliverBy x (x.reg b) w (x.rows n * z) fun put s =>
        doAll (fun s i =>
          (s.streamRead x (x.reg a) (i * indexWidth iw : Nat) (indexWidth iw)).andThen s fun j =>
            doAll (fun s k => (s.tensorRead x r k j).andThen s fun v => put s (i * z + k) (f v)) s (List.range z)) s
          (List.range (x.rows n))

/-- SSCAT (R248). It reads and writes element by element, so that a later read finds what the command itself has written (DESIGN
CHOICE, log 32). -/
def execSscat (d a b : BitVec 4) (n : BitVec 12) (iw : BitVec 2) (s : State) : Result :=
  .next <| s.slotCommand d fun s x =>
    let r := x.desc d
    let z := descSize r 0
    match x.conv.use (descW r) true with
    | none => s.badCommand
    | some (w, f) =>
      if iw = 3 then s.badCommand else
      doAll (fun s i =>
        (s.streamRead x (x.reg b) (i * indexWidth iw : Nat) (indexWidth iw)).andThen s fun j =>
          if descSize r 1 ≤ j then .ok s else
          doAll (fun s e =>
            let is := x.index e j
            if ¬ inside r is then .ok s else
            (s.streamRead x (x.reg a) ((i * z + e) * w : Nat) w).andThen s fun v =>
              s.streamWrite x (descBase r) (descDelta r is) (descW r) (f v)) s (List.range z)) s (List.range (x.rows n))

/-- SCONV (R245). -/
def execSconv (f t : BitVec 5) (wd : BitVec 6) (rm : BitVec 3) (sat : BitVec 1) (s : State) : Result :=
  .next <| s.command fun s _ => .ok (s.mapProg fun y => { y with
    conv := { src := f.toNat, dst := t.toNat, wd := wd.toNat + 1, rm := rm.toNat, sat := sat = 1 } })

/-- SFILL (R244, R246): each fill bit is one element. -/
def execSfill (b : BitVec 4) (m : BitVec 46) (s : State) : Result :=
  .next <| s.command fun s x =>
    if m = 0 then .ok s else s.deliver x (x.reg b) 1 m.toNat fun _ _ => .val 0

/-- SLOOP (R249). With A = D the count is read before c[D] becomes 0 (DESIGN CHOICE, log 32). -/
def execSloop (d a : BitVec 4) (r : BitVec 1) (n : BitVec 32) (s : State) : Result :=
  .next <| s.command fun s x =>
    let count : Word := if r = 1 then x.reg a else n.setWidth 64
    if count = 0 then .ok (s.mapProg fun y => { y.setReg d 0 with skip := 1 })
    else if 4 ≤ x.loops.length then s.badCommand
    else .ok (s.mapProg fun y => { y.setReg d 0 with loops := (d.toNat, count.toNat, y.spc + 64) :: y.loops })

/-- SNEXT (R249). -/
def execSnext (d : BitVec 4) (s : State) : Result :=
  .next <| s.command fun s x =>
    match x.loops with
    | [] => s.badCommand
    | (r, n, body) :: rest =>
      if r ≠ d.toNat then s.badCommand else
      let c := x.reg d + 1
      if c.toNat < n then .jump (s.mapProg fun y => { y.setReg d c with spc := body })
      else .ok (s.mapProg fun y => { y.setReg d c with loops := rest })

/-- SWAITV (R244, R320). -/
def execSwaitv (a b : BitVec 4) (o : BitVec 46) (s : State) : Result :=
  .next <| s.command fun s x =>
    match elemAddr (x.reg a) o.toInt with
    | .error e => .bad s e 64
    | .ok t =>
      match s.lookUp x.via t (x.reg b) with
      | .value _ => .ok s
      | .missing n w =>
        .wait ((s.waitVersion n w (x.reg b).toNat (.stream x.pid)).mapProg fun y => { y with waiting := true })
      | .bad e => .bad s e 64

/-- SVER (R244, R320). -/
def execSver (d a b : BitVec 4) (o : BitVec 46) (s : State) : Result :=
  .next <| s.command fun s x =>
    match elemAddr (x.reg a) o.toInt with
    | .error e => .bad s e 64
    | .ok t =>
      match s.storeCheck x.via t (x.reg b) with
      | .error e => .bad s e 64
      | .ok (n, w, full) =>
        if full then
          if x.vfull then .bad s (s.vfullTrap t n (x.reg b)) 64
          else
            .wait ((s.mapVer fun u => { u with
              heapWaits := u.heapWaits ++ [{ region := n, who := .stream x.pid, start := s.sched.ticks }] }).mapProg
                fun y => { y with waiting := true })
        else .ok ((s.createVersion n w (x.reg b).toNat (x.reg d)).mapProg fun y => { y with vfull := false })

/-- SSIG (R231, R244). -/
def execSsig (a b : BitVec 4) (o : BitVec 46) (s : State) : Result :=
  .next <| s.command fun s x => s.streamWrite x (x.reg a) o.toInt 64 (x.reg b).toNat

/-- SFENCE (R244): every write of the model is performed when it is made. -/
def execSfence (_sc : BitVec 2) (s : State) : Result := .next (s.command fun s _ => .ok s)

/-- SEND (R244): the bindings go, then the context and the program's place in its queue. -/
def execSend (s : State) : Result :=
  .next <| s.command fun s x =>
    if x.bound ≠ [] ∧ s.detached x then .stall else
    let s := (s.clearBindings x).dropProgram x.pid
    match s.sched.task x.task with
    | none => .jump s
    | some k =>
      let q := k.queue x.queue
      .jump (s.mapSched fun c => c.setQueue x.task x.queue { q with entries := q.entries.filter fun e =>
        match e with
        | .program p => p.pid ≠ x.pid
        | .marker _ => true })

/-- The meaning of a stream command word; none where it is no command (R241). -/
abbrev Commands := Word → Option (State → Result)

/-- One turn of a stream program: its next command, or, in a loop that runs no pass, over it (R235, R242, R249). A command whose own
fetch faults reports 64 as its width in SEL 4 (DESIGN CHOICE, log 51). -/
def State.streamTurn (m : Commands) (s : State) (pid : Nat) : Result :=
  let s := s.mapStr fun r => { r with focus := pid }
  match s.prog with
  | none => .next s
  | some x =>
    if x.waiting ∨ x.stalled ∨ x.space.isSome ∨ s.halted then .next s else
    let s := match s.sched.coreOf x.task with
      | some n => s.focus n s.cur
      | none => s
    match s.reach x x.spc 0 64 { kinds := [0], rd := true, wr := false } with
    | .bad t => .next (s.streamFault t 64)
    | .stall => .next s
    | .segs g =>
      let w : Word := BitVec.ofNat 64 (s.readSegs g)
      let s := s.mapStr fun r => { r with word := w }
      match m w with
      | none => .next (s.command fun s _ => s.badCommand)
      | some act =>
        if x.skip = 0 then act s else
        let sop := bits w.toNat 63 58
        .next (s.command fun s _ => .ok (s.mapProg fun y => { y with
          skip := if sop = 7 then y.skip + 1 else if sop = 8 then y.skip - 1 else y.skip }))

/-- The engines beside the home of a program's first command (R233): that of its first bit, where its extent and every page of it
let it be fetched (R33, R41, R43, R46, R240). -/
def State.enginesOf (s : State) (p : Program) : List Nat :=
  let io := (List.range 8).map (32 + ·)
  let via : Via := { ext := p.ext, root := p.root, assured := p.assured, die := none }
  match checkExtent via.ext p.pc 64 { kinds := [0], rd := true, wr := false } with
  | .error _ => io
  | .ok (_, va) =>
    let n := min 64 (pageRest va)
    match s.page via va n false with
    | none => io
    | some (_, pa) =>
      if n < 64 ∧ s.page via (va + n) (64 - n) false = none then io else
      match stackOf pa with
      | some k => (List.range 4).map (4 * k + ·)
      | none => io

/-- The lowest free context of an engine (R233). -/
def Streams.freeSlot (r : Streams) (e : Nat) : Option Nat :=
  (List.range 16).find? fun n => ! r.ctxs.any fun x => x.engine = e && x.slot = n

/-- A marker whose programs have all ended leaves its queue (R338). -/
def dropMarkers (live : List Nat) : List QEntry → List QEntry
  | [] => []
  | .marker after :: rest => if after.any live.contains then .marker after :: rest else dropMarkers live rest
  | es => es

/-- A program takes a context (R240). -/
def Program.start (p : Program) (t : TaskKey) (q e n : Nat) : Ctx where
  pid := p.pid
  task := t
  queue := q
  engine := e
  slot := n
  spc := p.pc
  root := p.root
  assured := p.assured
  c := p.c
  d := Vector.replicate 8 0
  loops := []
  conv := { src := 0, dst := 0, wd := 1, rm := 0, sat := false }
  ext := p.ext
  bound := []
  waiting := false
  space := none
  skip := 0
  stalled := false
  vfull := false
  constMark := p.constMark
  part := p.part

/-- STREAM_PROGRAM_START (R233, R238): the head program of a queue takes a context beside its first command's home, or else
the lowest free one of the module. -/
def execStreamProgramStart (t : TaskKey) (q : BitVec 4) (s : State) : Result :=
  .next <| match s.sched.task t with
  | none => s
  | some k =>
    let live := k.queues.toList.flatMap fun x => x.programs.map Program.pid
    let x := k.queue q.toNat
    let es := dropMarkers live x.entries
    let s := s.mapSched fun c => c.setQueue t q.toNat { x with entries := es }
    match es with
    | .program p :: _ =>
      if (s.str.ctxs.any fun y => y.pid = p.pid) then s else
      match (s.enginesOf p ++ List.range 40).find? fun e => (s.str.freeSlot e).isSome with
      | none => s
      | some e => s.mapStr fun r => { r with ctxs := r.ctxs ++ [p.start t q.toNat e ((r.freeSlot e).getD 0)] }
    | _ => s

/-- STREAM_STALL_RESUME (R253): the task is bound again. -/
def execStreamStallResume (x : Nat) (s : State) : Result :=
  let free (y : Ctx) : Ctx := if y.pid = x ∧ s.detached y = false then { y with stalled := false } else y
  .next (s.mapStr fun r => { r with ctxs := r.ctxs.map free })

/-- DELIVERY_SPACE_READY (R228): the released count of the window allows a waiting delivery. A detached window shows no
count: the delivery then meets the stall. -/
def execDeliverySpaceReady (x : Nat) (s : State) : Result :=
  let ready (y : Ctx) : Bool := match y.space, s.sched.coreOf y.task with
    | some (n, need), some k => need ≤ blockRcnt ((s.coreAt k).block n)
    | some _, none => true
    | none, _ => false
  .next (s.mapStr fun r => { r with ctxs := r.ctxs.map fun y => if y.pid = x && ready y then { y with space := none } else y })

end Sys2Proof.Machine
end

