-- ==== Sys2Proof/Machine/Tasks.lean ====
section
/-! DEFINITION. Tasks and the scheduler (R357-R384): the task instructions, Mason's choice and its swap of a staged record,
pre-emption by DCMD, and the releases and overruns of contracts. -/

namespace Sys2Proof.Machine

/-- A new record in a pool slot (R357, R362), with the save area that Mason gives it: a free aligned range of one stack (log 6). A child of
a task that an overrun demoted is best effort too (R384). -/
def newTask (k : TaskKey) (image : BitVec 512) (added demoted : Bool) (area : Nat) : Task where
  key := k
  image := image
  state := .recorded
  left := .recorded
  saved := false
  ctx := (area % 8) * 2 ^ 40 + 1024 * (area / 8 % ((Config.stackBits - 2 ^ 25) / 1024))
  vfull := false
  added := added
  queues := Vector.replicate 16 Queue.empty
  pendingNet := 0
  posted := 0
  ran := 0
  demoted := demoted
  markMain := 0
  markMatrix := 0

/-- A record enters the state its DEPS gives, and a ready one its list (R361, R362). -/
def State.enterTask (s : State) (t : Task) : State :=
  let s := s.mapSched fun c => c.setTask t
  if recDeps t.image = 0 then s.makeReady t.key false else s.setTaskState t.key .waiting

/-- A graph's slots that no unended record holds, ascending (R362). -/
def Sched.freeSlots (c : Sched) (g : Graph) : List Nat :=
  (List.range g.cap).filter fun i =>
    match c.task { vdev := g.vdev, graph := g.gid, record := i } with
    | some t => t.state = .ended
    | none => true

/-- The open region of an owner's address space that holds an extent (R98, R302). -/
def State.regionHolding (s : State) (vd : Nat) (x : BitVec 128) : Option Nat :=
  (List.range 64).find? fun n =>
    let r := s.ver.region n
    regSt r = 1 && regAsid r = bits (s.sched.settings vd).root.toNat 63 54 && regBase r ≤ extBase x &&
      extBase x + extLen x ≤ regBase r + regLen r

/-- A descriptor as a loader installs it (R98): with the checks of R31 and, for kind V, of R84, and then with the number of the region
that holds it. A descriptor that fails rejects its set, and no handle comes of it. -/
def State.loadable (s : State) (vd : Nat) (x : BitVec 128) : Option (BitVec 128) :=
  if ¬ extentOk x then none
  else if extKind x ≠ 3 then some x
  else if extBase x % 64 ≠ 0 ∨ extLen x % 64 ≠ 0 then none
  else (s.regionHolding vd x).map (mkExtent (extBase x) (extLen x) 3 (extRead x) (extWrite x))

/-- What loaders outside the module may have done before a record reaches Mason (R104, step 5; log 45): for a handle that the record
names, which no loader installed yet, an extent with free bits that pass the loader's checks (R98), a free choice. -/
def State.loadHandles (s : State) (vd n : Nat) (img : BitVec 512) : State :=
  (List.range 8).foldl (fun s j =>
    let h := recExt img j
    if recExv img j ∧ (! s.sched.handles.any fun x => x.1 = vd ∧ x.2.1 = h) ∧ s.drawBool 12 (8 * n + j) then
      let x : BitVec 128 := BitVec.ofNat 128 (Config.freeBits (s.fresh <<< 64 + 12 <<< 59 + 8 * n + j))
      match s.loadable vd x with
      | some y => s.mapSched fun c => { c with handles := (vd, h, y) :: c.handles }
      | none => s
    else s) s

/-- An EXV bit names a handle that no loader installed (R361, R370). -/
def Sched.missingHandle (c : Sched) (vd : Nat) (img : BitVec 512) : Bool :=
  (List.range 8).any fun j => recExv img j && ! c.handles.any fun x => x.1 = vd && x.2.1 = recExt img j

/-- The reason for which TENQ refuses an image (R370); 0 if none. -/
def State.tenqReason (s : State) (k : TaskKey) (cap contract : Nat) (img : BitVec 512) : Nat :=
  if recReserved img ∨ 6 < recNsucc img ∨ 2 ^ 24 < recFoot img ∨ recEntry img % 16 ≠ 0 then 1
  else if recGraph img ≠ k.graph then 2
  else if (recSuccs img).any fun i => cap ≤ i ||
      ! (s.sched.task { k with record := i }).any fun t => t.state = .waiting then 3
  else if recContract img ≠ contract then 4
  else if s.sched.missingHandle k.vdev img then 5
  else 0

/-- The install step of TENQ (R370): the image in a slot, and one more predecessor for each successor field. -/
def State.install (s : State) (k : TaskKey) (img : BitVec 512) : State :=
  let s := (recSuccs img).foldl (fun s i =>
    let j : TaskKey := { k with record := i }
    (s.mapSched fun c => c.mapTask j fun t =>
      { t with image := BitVec.ofNat 512 (putBits t.image.toNat 279 264 (recDeps t.image + 1)) }).setTaskState j .waiting) s
  s.enterTask (newTask k img true (s.task.any Task.demoted) (s.drawNat 5 k.record))

/-- The task of the core in focus parks for a pool slot (R371). -/
def State.parkPool (s : State) : State :=
  if s.bound then
    let k := s.boundKey
    ((s.park .blockedPool).mapSched fun c => { c with poolParked := c.poolParked ++ [k] }).poolLock k.vdev k.graph
  else s

/-- The eight words of a record image, each checked as a plain load (R370). -/
def State.readImage (s : State) (t : Word) : Except Trap (BitVec 512) :=
  (tryAll (fun i =>
    match elemAddr t (64 * i : Nat) with
    | .error e => .error e
    | .ok u => (s.resolve s.via u 64 .load).map s.readSegs) (List.range 8)).map fun xs => BitVec.ofNat 512 (joinSlices 64 xs)

/-- TENQ (R370). -/
def State.tenq (s : State) (d a : BitVec 5) : State :=
  let t := s.g a
  if bits t.toNat 5 0 ≠ 0 then s.trap ⟨.addr, t, 0, 0⟩ else
  s.orTrap (s.readImage t) fun img =>
    let k := s.taskKey
    let g := s.sched.graph k.vdev k.graph
    let cap := match g with
      | some g => g.cap
      | none => 0
    let contract := match s.task with
      | some t => recContract t.image
      | none => 0
    let s := s.loadHandles k.vdev 0 img
    let r := s.tenqReason k cap contract img
    if r ≠ 0 then s.finishG 32 d (BitVec.ofNat 64 (2 ^ 63 + r))
    else
      match g.bind fun g => (s.sched.freeSlots g).head? with
      | none => s.parkPool
      | some i => (s.install { k with record := i } img).finishG 32 d (BitVec.ofNat 64 i)

def execTenq (d a : BitVec 5) (s : State) : Result := .next (s.tenq d a)

/-- TARG (R372). -/
def execTarg (d a : BitVec 5) (s : State) : Result :=
  let args := match s.task with
    | some t => recArgs t.image
    | none => 0
  let x := args + 64 * (s.g a).toNat
  .next <| if 2 ^ 58 ≤ x then s.trap ⟨.addr, tagged 0 args, 0, 0⟩
    else s.orTrap (s.resolve s.via (tagged 0 x) 64 .load) fun segs => s.finishG 32 d (BitVec.ofNat 64 (s.readSegs segs))

/-- TYLD (R373). -/
def execTyld (s : State) : Result := .next ((s.retire 32).unbind s.coreNo .preempted false)

/-- The number of a task's contract release (R375): the release under way, counted from 0 with those that were skipped (R381). -/
def State.releaseNumber (s : State) : Nat :=
  match s.task with
  | none => 0
  | some t =>
    match s.sched.contracts.find? fun c => c.number = s.sched.contractOf t with
    | some c => c.current
    | none => 0

/-- TSELF (R375). -/
def execTself (d : BitVec 5) (sel : BitVec 2) (s : State) : Result :=
  let img := match s.task with
    | some t => t.image
    | none => 0
  .next <| s.finishG 32 d <|
    if sel = 0 then s.core.ctl.taskid
    else if sel = 1 then BitVec.ofNat 64 s.releaseNumber
    else if sel = 2 then s.core.budget
    else BitVec.ofNat 64 (recPrio img + recContract img <<< 16)

/-- The windows of a task that ends (R374). -/
def Core.closeWindows (c : Core) : Core :=
  (List.range 64).foldl (fun c n => c.putBlock n (putBits (c.block n) 154 154 0)) c

/-- A record ends (R374): its successors lose a predecessor, its slot is free, and its graph may be complete (R365, R371). -/
def State.endTask (s : State) (k : TaskKey) : State :=
  match s.sched.task k with
  | none => s
  | some t =>
    let s := (recSuccs t.image).foldl (fun s i => s.decDeps k.vdev k.graph i) s
    let s := (s.setTaskState k .ended).wakePool k.vdev k.graph
    s.finishGraph k.vdev k.graph

/-- The queues that still hold programs, and the faulted ones (R374). -/
def State.busyQueues (s : State) : List Nat :=
  (List.range 16).filter fun q => (s.queue q).fault.isNone && (s.queue q).programs ≠ []
def State.faultedQueue (s : State) : Option (Nat × SFault) :=
  (List.range 16).findSome? fun q => (s.queue q).fault.map fun f => (q, f)

/-- The end of the task bound to the core in focus (R374). -/
def State.endBound (s : State) : State :=
  let k := s.taskKey
  let n := s.coreNo
  let s := s.mapCore fun c => { c.closeWindows.idle with guards := [] }
  let s := s.mapSched fun c =>
    let x := c.slot n
    { (c.charge k).setSlot n { x with run := 0, dcmd := 0 } with notices := c.notices.filter (· ≠ n) }
  (s.endTask k).mapSched Sched.settle

/-- TEND (R374). -/
def State.tend (s : State) : State :=
  if s.core.matrix.running then s.illop
  else if s.busyQueues ≠ [] then s.waitIn .tend
  else
    match s.faultedQueue with
    | some (q, f) => s.takeFault q f
    | none => s.endBound

def execTend (s : State) : Result := .next s.tend

/-- SQWAIT_DRAINED (R236, R374). -/
def execSqwaitDrained (c : Nat) (s : State) : Result :=
  .next <| match (s.coreAt c).main.wait with
    | some (.sqwait q) => s.wake c .main fun t => t.sqwait q
    | some .tend => s.wake c .main State.tend
    | _ => s

/-- The fields of a contract descriptor (R380). -/
def ctrP (d : BitVec 256) : Nat := bits d.toNat 31 0
def ctrC (d : BitVec 256) : Nat := bits d.toNat 71 32
def ctrK (d : BitVec 256) : Nat := bits d.toNat 75 72
def ctrSync (d : BitVec 256) : Bool := bits d.toNat 76 76 = 1
def ctrDiv (d : BitVec 256) : Nat := bits d.toNat 87 80
def ctrGid (d : BitVec 256) : Nat := bits d.toNat 103 88
def ctrPhase (d : BitVec 256) : Nat := bits d.toNat 159 128

/-- The deadline of a contract's release (R381). -/
def Contract.deadline (c : Contract) : Nat := c.lastRelease + ctrP c.desc

/-- The first task of a ready list (R366). -/
def Sched.head (c : Sched) (l : ReadyList) : Option TaskKey := (c.lists.find? fun x => x.1 = l).map (·.2)

/-- The tasks that RUN and STG records name. -/
def Sched.placed (c : Sched) : List TaskKey :=
  c.slots.flatMap fun x => ([x.2.run, x.2.stg].filter bindValid).map fun r => keyOf (bindTid r)

/-- The tasks of a contract that are bound (R383). -/
def Sched.contractBound (c : Sched) (n : Nat) : Bool :=
  c.placed.any fun k => (c.task k).any fun t => c.contractOf t = n && ! t.demoted

/-- How many contract tasks of a virtual device are bound (R383). -/
def Sched.contractsOf (c : Sched) (vd : Nat) : Nat :=
  (c.placed.filter fun k => k.vdev = vd && (c.task k).any fun t => c.contractOf t ≠ 0 && ! t.demoted).length

/-- The contract of a running contract task of core n's slots. -/
def Sched.runContract (c : Sched) (x : Slot) : Option Contract :=
  if bindValid x.run = false then none else
  (c.task (keyOf (bindTid x.run))).bind fun t =>
    if t.demoted then none else c.contracts.find? fun y => y.number = c.contractOf t && y.number ≠ 0

/-- A virtual device runs as many contract tasks as its share S (R383). -/
def Sched.shareFull (c : Sched) (vd : Nat) : Bool := (c.settings vd).share ≤ c.contractsOf vd

/-- The core of a virtual device's running contract task with the latest deadline, and that deadline (R383). -/
def Sched.latest (c : Sched) (vd : Nat) : Option (Nat × Nat) :=
  c.slots.foldl (fun m x =>
    match c.runContract x.2 with
    | none => m
    | some y => if y.vdev = vd ∧ m.all (fun z => z.2 < y.deadline) then some (x.1, y.deadline) else m) none

/-- The task of a contract that may be bound (R383): the first of its list, while no other task of it is bound and budget is left. -/
def Sched.contractReady (c : Sched) (x : Contract) : Option TaskKey :=
  if c.contractBound x.number ∨ x.remaining = 0 then none else c.head (.contract x.number)

/-- The contract whose task runs next (R383): earliest deadline first, ties to the lower number, among the virtual devices that have a
core of their share left. -/
def Sched.nextContract (c : Sched) : Option (Contract × TaskKey) :=
  c.contracts.foldl (fun m x =>
    match c.contractReady x with
    | none => m
    | some k =>
      if c.shareFull x.vdev then m else
      match m with
      | none => some (x, k)
      | some (y, _) =>
        if x.deadline < y.deadline ∨ (x.deadline = y.deadline ∧ x.number < y.number) then some (x, k) else m) none

/-- Core n is of a die in hint residency or on its way to it, which takes tasks of the system class alone (R292). -/
def State.hinted (s : State) (n : Nat) : Bool := ((s.ms.llc[dieOf n]?).getD LlcDie.reset).cfg &&& 3 ≠ 0

/-- A core is free for contract and best-effort tasks: it has neither a running nor a staged record, and its die is not hinted. -/
def Slot.free (x : Slot) : Bool := ! bindValid x.run && ! bindValid x.stg
def State.isFree (s : State) (n : Nat) : Bool := (s.sched.slot n).free && ! s.hinted n
def State.freeCore (s : State) : Bool := (List.range Config.cores).any s.isFree

/-- A bind record names a best-effort task. -/
def Sched.isBest (c : Sched) (r : BitVec 256) : Bool :=
  (c.task (keyOf (bindTid r))).any fun t =>
    match c.readyListOf t with
    | .bestEffort _ _ => true
    | _ => false

/-- Nothing of the system or contract classes is staged on a core (R378). -/
def Sched.stagesBest (c : Sched) (x : Slot) : Bool := ! bindValid x.stg || c.isBest x.stg

/-- A core runs a best-effort task, and no contract or system task is staged on it. -/
def Sched.yields (c : Sched) (x : Slot) : Bool := bindValid x.run && c.isBest x.run && c.stagesBest x

/-- The core that a ready contract task takes (R383): an idle one first; failing that, the one with the most recently bound
best-effort task. -/
def State.takes (s : State) (n : Nat) : Bool :=
  let c := s.sched
  if s.freeCore then s.isFree n
  else c.yields (c.slot n) && c.slots.all fun y => ! c.yields y.2 || y.2.since ≤ (c.slot n).since

/-- Mason's order of them: ascending after the last one chosen (R378). -/
def Sched.vdevOrder (c : Sched) : List Nat :=
  c.readyVdevs.filter (c.lastChosen < ·) ++ c.readyVdevs.filter (· ≤ c.lastChosen)

/-- What one refill gains (R378). -/
def Settings.gain (x : Settings) : Nat := x.weight * x.quant * 12

/-- How many refills give a virtual device credit. -/
def Settings.rounds (x : Settings) : Option Nat := if x.gain = 0 then none else some ((-x.credit).toNat / x.gain + 1)

/-- The deficit round robin (R378): the virtual device, and the credits as they then stand. -/
def Sched.roundRobin (c : Sched) : Option (Nat × Sched) :=
  let ready := c.readyVdevs
  let c := { c with vdevs := c.vdevs.map fun (vd, x) => (vd, if ready.contains vd then x else { x with credit := 0 }) }
  let pick (c : Sched) : Option Nat := c.vdevOrder.find? fun vd => 0 < (c.settings vd).credit
  match pick c with
  | some vd => some (vd, { c with lastChosen := vd })
  | none =>
    match (ready.filterMap fun vd => (c.settings vd).rounds).min? with
    | none => c.vdevOrder.head?.map fun vd => (vd, { c with lastChosen := vd })
    | some r =>
      let c := ready.foldl (fun c vd =>
        let x := c.settings vd
        c.setSettings vd { x with credit := x.credit + (r * x.gain : Nat) }) c
      (pick c).map fun vd => (vd, { c with lastChosen := vd })

/-- The first task of the highest priority of a virtual device (R378). -/
def Sched.bestOf (c : Sched) (vd : Nat) : Option TaskKey :=
  ((List.range 16).reverse.findSome? fun p => c.head (.bestEffort vd p))

/-- A bind record for a task (R367, R377, R378, R383): the settings in force when it is staged, which a later SETVD leaves as they are
(R11; DESIGN CHOICE, log 49). -/
def Sched.record (c : Sched) (k : TaskKey) (budget : Nat) (bn : Bool) : BitVec 256 :=
  let x := c.settings k.vdev
  mkBind x.root budget ((c.task k).elim 0 Task.ctx) bn x.spid x.cpid x.assured x.chk k

/-- MASON'S CHOICE for a core (R366, R378, R383): the bind record, and the credits as they then stand. A contract task is chosen for
the core it takes alone, and best effort only where nothing of a higher class is staged. -/
def State.choose (s : State) (n : Nat) : Option (BitVec 256 × Sched) :=
  let c := s.sched
  match c.head .system with
  | some k => some (c.record k 0 false, c)
  | none =>
    if s.hinted n then none else
    match c.nextContract.filter fun _ => s.takes n with
    | some (x, k) => some (c.record k x.remaining false, c)
    | none =>
      if ¬ c.stagesBest (c.slot n) then none else
      match c.roundRobin with
      | none => none
      | some (vd, c) => (c.bestOf vd).map fun k => (c.record k (12 * (c.settings vd).quant) true, c)

/-- Mason takes a staged record back (R362, R366). -/
def State.withdraw (s : State) (n : Nat) : State :=
  let x := s.sched.slot n
  if bindValid x.stg = false then s else
  let k := keyOf (bindTid x.stg)
  let s := s.mapSched fun c => c.setSlot n { x with stg := 0 }
  match s.sched.task k with
  | none => s
  | some t => (s.setTaskState k t.left).mapSched fun c => c.enlist k true

/-- Mason stages a record (R362, R367). -/
def State.stage (s : State) (n : Nat) (r : BitVec 256) : State :=
  let k := keyOf (bindTid r)
  let s := s.mapSched fun c => (((c.setSlot n { c.slot n with stg := r }).unlist k).settle).mapTask k fun t => { t with left := t.state }
  s.setTaskState k .bound

/-- A ready contract task finds S tasks of its virtual device running, and core n runs the one with the latest deadline, which is
later than its own (R383). -/
def Sched.displaced (c : Sched) (n : Nat) : Bool :=
  c.contracts.any fun x => (c.contractReady x).isSome && c.shareFull x.vdev &&
    (c.latest x.vdev).any fun z => decide (z.1 = n) && decide (x.deadline < z.2)

/-- A contract task is staged on a core that runs a best-effort task. -/
def Sched.outranked (c : Sched) (n : Nat) : Bool :=
  let x := c.slot n
  bindValid x.stg && ((c.task (keyOf (bindTid x.stg))).any fun t => c.readyListOf t = .contract (c.contractOf t)) &&
  (c.task (keyOf (bindTid x.run))).any fun t => c.readyListOf t = .bestEffort t.key.vdev (recPrio t.image)

/-- STG_SWAP (R367, R383): Mason withdraws the staged record of core c, or swaps in the one it chooses; a contract task pre-empts
the best-effort task of the core it takes, and, where S already run, the contract task with the latest deadline goes first. -/
def execStgSwap (c : Nat) (back : Bool) (s : State) : Result :=
  .next <|
    if Config.cores ≤ c then s
    else if back then s.withdraw c
    else if s.sched.displaced c then s.mapSched fun d => d.preempt c false
    else
      match s.choose c with
      | none => s
      | some (r, d) =>
        (({ s with sched := d }.withdraw c).stage c r).mapSched fun d => if d.outranked c then d.preempt c false else d

/-- Mason pre-empts at a budget notice only if another virtual device with credit has a ready task and no core is free
(R378). -/
def State.quantumOver (s : State) (n : Nat) : Bool :=
  let c := s.sched
  let vd := (keyOf (bindTid (c.slot n).run)).vdev
  (c.readyVdevs.any fun v => v ≠ vd && decide (0 < (c.settings v).credit)) && ! s.freeCore

/-- BUDGET_END (R368, R378): dispatch notifies Mason, and pre-empts the task with BN = 0 or reloads the counter with BN = 1. A notice of
the second kind stands only where Mason then ends the task's quantum; else the task runs on (log 27). -/
def execBudgetEnd (c : Nat) (s : State) : Result :=
  let x := s.sched.slot c
  .next <|
    if Config.cores ≤ c ∨ bindValid x.run = false ∨ bindBudget x.run = 0 ∨ (s.coreAt c).budget ≠ 0 ∨ x.dcmd ≠ 0 then s else
    let ends := s.quantumOver c
    let s := s.mapSched fun d => { d with
      notices := if d.notices.contains c ∨ (bindBn x.run ∧ ¬ ends) then d.notices else d.notices ++ [c] }
    if bindBn x.run then s.mapCoreNo c fun k => { k with budget := BitVec.ofNat 64 (bindBudget x.run) }
    else s.mapSched fun d => d.preempt c true

/-- An envelope clamp may take core n: it runs no contract task, or no core runs another (R383, R424). -/
def Sched.clampable (c : Sched) (n : Nat) : Bool :=
  (c.runContract (c.slot n)).isNone || c.slots.all fun x => ! bindValid x.2.run || (c.runContract x.2).isSome

/-- DCMD_PRE (R366, R368, R378): Mason pre-empts core c's task, at the notice that ends its quantum, or for another reason (R292, R424).
A clamp spares a core that runs a contract task; whether the reason is one is a free choice (log 27). -/
def execDcmdPre (c : Nat) (s : State) : Result :=
  let notice := s.sched.notices.contains c
  .next <|
    if Config.cores ≤ c then s
    else if notice ∨ s.sched.clampable c ∨ s.drawBool 13 c then
      s.mapSched fun d => { d.preempt c notice with notices := d.notices.filter (· ≠ c) }
    else s

/-- A release (R381, R384): every record returns to its launch state, and those that TENQ added are gone; or the release is skipped
where the one before has not ended. What the launch itself still runs at release 0 stops there (log 29). A contract outlives the abortion of its graph, and releases
whatever live graph has its identifier (DESIGN CHOICE, log 36). -/
def State.release (s : State) (c : Contract) (at_ : Nat) : State :=
  let put (f : Contract → Contract) (s : State) : State :=
    s.mapSched fun d => { d with contracts := d.contracts.map fun x => if x.number = c.number then f x else x }
  let gid := ctrGid c.desc
  match s.sched.graph c.vdev gid with
  | none => s
  | some g =>
    let busy : Bool := (s.sched.graphTasks c.vdev gid).any fun t => t.state ≠ .ended
    if 0 < c.releases ∧ busy then
      (put (fun x => { x with skips := x.skips + 1 }) s).event 8 4 0 c.number
    else
      let s := if busy then s.clearCores c.vdev gid else s
      let s := put (fun x => { x with
        releases := x.releases + 1, current := x.releases + x.skips, lastRelease := at_, remaining := ctrC c.desc, open_ := true }) s
      let s := s.mapSched fun d => { d with
        tasks := d.tasks.filter fun t => ¬ (t.key.vdev = c.vdev ∧ t.key.graph = gid) }
      (g.images.zip (List.range g.images.length)).foldl (fun s p =>
        let k : TaskKey := { vdev := c.vdev, graph := gid, record := p.2 }
        s.enterTask (newTask k p.1 false false (s.drawNat 5 p.2))) s

/-- CONTRACT_RELEASE (R381): release k of a contract on the management counter, at tick A + PHASE + k P. -/
def execContractRelease (n : Nat) (s : State) : Result :=
  .next <| match s.sched.contracts.find? fun c => c.number = n with
  | none => s
  | some c =>
    let due := c.admitted + ctrPhase c.desc + (c.releases + c.skips) * ctrP c.desc
    if ctrSync c.desc ∨ s.sched.ticks < due then s else s.release c due

/-- A pulse for one contract (R381): every DIV-th starts a release; one that comes less than P after the last is ignored and
counted as a skip. -/
def State.pulse (s : State) (c : Contract) : State :=
  let put (f : Contract → Contract) : State :=
    s.mapSched fun d => { d with contracts := d.contracts.map fun x => if x.number = c.number then f x else x }
  let c' := { c with pulses := c.pulses + 1 }
  if c'.pulses % ctrDiv c.desc ≠ 0 then put fun _ => c'
  else if 0 < c.releases ∧ s.sched.ticks < c.deadline then put fun _ => { c' with skips := c.skips + 1 }
  else (put fun _ => c').release c' s.sched.ticks

/-- FRAME_SYNC_PULSE (R381). -/
def execFrameSyncPulse (s : State) : Result :=
  .next ((s.sched.contracts.filter fun c => ctrSync c.desc).foldl State.pulse s)

/-- The core that runs a task of a contract, if one does. -/
def Sched.contractCores (c : Sched) (n : Nat) : List Nat :=
  (c.slots.filter fun x => bindValid x.2.run &&
    (c.task (keyOf (bindTid x.2.run))).any fun t => c.contractOf t = n && ! t.demoted).map (·.1)

/-- CONTRACT_OVERRUN (R384): the release's budget has reached 0; its running task is pre-empted, its unended tasks go to the
best-effort lists, and an event is written. -/
def execContractOverrun (n : Nat) (s : State) : Result :=
  .next <| match s.sched.contracts.find? fun c => c.number = n with
  | none => s
  | some c =>
    let cores := s.sched.contractCores n
    if ¬ c.open_ ∨ (c.remaining ≠ 0 ∧ ¬ cores.any fun k => bindBudget (s.sched.slot k).run ≠ 0 && (s.coreAt k).budget = 0) then s
    else
      let s := s.mapSched fun d => cores.foldl (fun d n => d.preempt n true) { d with
        contracts := d.contracts.map fun x => if x.number = n then { x with overruns := x.overruns + 1, open_ := false } else x }
      let mine := (s.sched.graphTasks c.vdev (ctrGid c.desc)).filter fun t => t.state ≠ .ended
      let s := mine.foldl (fun s t => s.mapSched fun d =>
        let d := d.mapTask t.key fun u => { u with demoted := true }
        if d.lists.any fun x => x.2 = t.key then d.enlist t.key false else d) s
      s.event 7 4 0 n

end Sys2Proof.Machine
end

