-- ==== Sys2Proof/Machine/Calls.lean ====
section
/-! DEFINITION. The service calls (R360, R361, R377, R380-R384, R408-R413, R417, R424): doorbell pages, the call block, its checks
and each call. Where cases with different reasons hold, the lowest is reported. -/

namespace Sys2Proof.Machine

/-- What one doorbell page holds. Pages 0 to 384 are those of the PCIe functions, 385 and 386 the ordered pages of the CXL
ports (R346, R408). -/
def Io.doorbell (io : Io) (p : Nat) : Doorbell :=
  match io.doorbells.find? fun x => x.page = p with
  | some x => x
  | none => { page := p, taken := 0, err := 0, calls := [] }

def Io.setDoorbell (io : Io) (x : Doorbell) : Io :=
  { io with doorbells := x :: io.doorbells.filter fun y => y.page ≠ x.page }

/-- The virtual device that a doorbell page acts for (R346, R408). -/
def pageVdev (p : Nat) : Nat := if p ≤ 384 then p else 0

/-- The fields of MSTATE (R426). -/
def Io.step (io : Io) : Nat := bits io.mstate.toNat 3 0
def Io.bootFail (io : Io) : Bool := io.mstate.getLsbD 4
def Io.fatal (io : Io) : Bool := io.mstate.getLsbD 5

/-- A write to a doorbell page (R408): DBCALL submits a call, accepted from bring-up step 8 on (R428), and DBERR.V is cleared by
writing one. -/
def State.doorbellWrite (s : State) (p o : Nat) (v : Word) : State :=
  let x := s.io.doorbell p
  if o = 0 then
    if s.io.step = 8 then s.mapIo fun io => io.setDoorbell { x with calls := x.calls ++ [v.setWidth 58] } else s
  else if o = 0x10 ∧ v.getLsbD 63 then s.mapIo fun io => io.setDoorbell { x with err := x.err &&& ~~~(1#64 <<< 63) }
  else s

/-- A doorbell page as it reads (R408): DBCALL is write-only. -/
def Io.doorbellRead (io : Io) (p o : Nat) : Word :=
  let x := io.doorbell p
  if o = 8 then x.taken else if o = 0x10 then x.err else 0

/-- A call block fault (R410). -/
def State.blockFault (s : State) (p cb : Nat) : State :=
  let vd := pageVdev p
  let s := s.mapIo fun io => io.setDoorbell { io.doorbell p with err := BitVec.ofNat 64 (2 ^ 63 + cb) }
  (s.event 13 4 vd cb).raise vd 1

/-- The result of a call goes into word 7, and vector 0 is raised if the block asks for it (R409, R411). -/
def State.finishCall (s : State) (p cb : Nat) (irq : Bool) (r : Except Nat Word) : State :=
  let vd := pageVdev p
  let v := match r with
    | .ok x => x.toNat
    | .error n => 2 ^ 63 + n
  match s.ownerSegs vd (cb + 448) 64 true with
  | none => s.blockFault p cb
  | some segs =>
    let s := s.store none segs 64 v
    if irq then s.raise vd 0 else s

/-- What a call works on: its virtual device and words 1 to 6. -/
structure Args where
  vd : Nat
  w : Nat → Word

/-- Every bit that the table of R412 does not name is zero: `masks` gives the named bits of words 1, 2, … -/
def Args.plain (a : Args) (masks : List Word) : Bool :=
  (List.range 6).all fun i => a.w (i + 1) &&& ~~~(masks.getD i 0) = 0

/-- The next call of page p, if it is of this code (R408-R411). A reserved code is refused with reason 0xFF. -/
def State.call (s : State) (p code : Nat) (masks : List Word) (body : State → Args → State × Except Nat Word) : State :=
  let x := s.io.doorbell p
  let vd := pageVdev p
  match x.calls with
  | [] => s
  | c :: rest =>
    let cb := c.toNat
    let s' := s.mapIo fun io => io.setDoorbell { x with calls := rest, taken := x.taken + 1 }
    match s.ownerRead vd cb 512, s.ownerSegs vd cb 512 true with
    | some b, some _ =>
      if cb % 512 ≠ 0 then s'.blockFault p cb else
      let word (i : Nat) : Word := BitVec.ofNat 64 (b >>> (64 * i))
      let n := bits b 7 0
      let irq : Bool := bits b 8 8 = 1
      let a : Args := { vd := vd, w := word }
      if n = 0 ∨ 14 < n then s'.finishCall p cb irq (.error 0xFF)
      else if n ≠ code then s
      else if bits b 63 9 ≠ 0 ∨ ¬ a.plain masks then s'.finishCall p cb irq (.error 1)
      else
        let r := body s' a
        r.1.finishCall p cb irq r.2
    | _, _ => s'.blockFault p cb

/-- The lowest reason that holds, if one does. -/
def reasons (rs : List (Bool × Nat)) : Option Nat := (rs.find? (·.1)).map (·.2)

/-- A call that is refused for the lowest reason that holds, or else has its effect. -/
def refuseOr (s : State) (rs : List (Bool × Nat)) (f : Unit → State × Except Nat Word) : State × Except Nat Word :=
  match reasons rs with
  | some n => (s, .error n)
  | none => f ()

/-- 58 address bits. -/
def mask58 : Word := 0x3FFFFFFFFFFFFFF

/-- The fields of a graph descriptor (R360). -/
def gdPool (d : Nat) : Nat := bits d 57 0
def gdCap (d : Nat) : Nat := bits d 79 64
def gdNrec (d : Nat) : Nat := bits d 95 80
def gdGid (d : Nat) : Nat := bits d 111 96
def gdDone (d : Nat) : Nat := bits d 185 128
def gdFault (d : Nat) : Nat := bits d 249 192
def gdReserved (d : Nat) : Bool := bits d 511 250 ≠ 0 || bits d 191 186 ≠ 0 || bits d 127 112 ≠ 0 || bits d 63 58 ≠ 0

/-- How many SUCC fields of the records name record i (R357, R361). -/
def predecessors (imgs : List (BitVec 512)) (i : Nat) : Nat := ((imgs.flatMap recSuccs).filter (· = i)).length

/-- A virtual device has been admitted a contract (R361). -/
def Sched.admitted (c : Sched) (vd n : Nat) : Bool := c.contracts.any fun x => x.number = n && x.vdev = vd

/-- A record that the checks of reason 0x05 refuse (R361). -/
def State.badRecord (s : State) (vd gid : Nat) (imgs : List (BitVec 512)) (i : Nat) (r : BitVec 512) : Bool :=
  recGraph r ≠ gid || (recSuccs r).any (fun j => imgs.length ≤ j) || recEntry r % 16 ≠ 0 ||
  (recContract r ≠ 0 && ! s.sched.admitted vd (recContract r)) || s.sched.missingHandle vd r ||
  recDeps r ≠ predecessors imgs i

/-- The records of a launch that lie in readable memory. -/
def State.readRecords (s : State) (vd pool n : Nat) : List (BitVec 512) :=
  (List.range n).filterMap fun i => (s.ownerRead vd (pool + 512 * i) 512).map (BitVec.ofNat 512)

/-- What a loader hands over with the records of a graph (R96, R104; log 45): handles, and for a record an lsimage with free bits, a
free choice. An image of an earlier graph of that identifier is gone. -/
def State.load (s : State) (vd gid : Nat) (imgs : List (BitVec 512)) : State :=
  let fresh := (List.range imgs.length).filterMap fun i =>
    if s.drawBool 12 (2 ^ 20 + i) then
      some (({ vdev := vd, graph := gid, record := i } : TaskKey), Config.freeBits (s.fresh <<< 64 + 12 <<< 59 + 2 ^ 20 + i))
    else none
  ((imgs.zip (List.range imgs.length)).foldl (fun s x => s.loadHandles vd x.2 x.1) s).mapSched fun c =>
    { c with lsimages := fresh ++ c.lsimages.filter fun x => ¬ (x.1.vdev = vd ∧ x.1.graph = gid) }

/-- LAUNCHING A GRAPH (R361, R365). Mason reads and writes the pool's slots, and writes the completion word and the fault record, so these
are the permissions they need (R411). -/
def State.launch (s : State) (a : Args) : State × Except Nat Word :=
  let at_ := (a.w 1).toNat
  match s.ownerRead a.vd at_ 512 with
  | none => (s, .error 2)
  | some d =>
    if at_ % 512 ≠ 0 then (s, .error 2) else
    let pool := gdPool d
    let cap := gdCap d
    let n := gdNrec d
    let gid := gdGid d
    let imgs := s.readRecords a.vd pool n
    let s' := s.load a.vd gid imgs
    let unwritable (va w : Nat) : Bool := (s.ownerSegs a.vd va w true).isNone
    let unreadable (va w : Nat) : Bool := (s.ownerSegs a.vd va w false).isNone
    refuseOr s
      [(gdReserved d || cap = 0 || cap < n || imgs.any fun r => recReserved r || 6 < recNsucc r || 2 ^ 24 < recFoot r, 1),
       (pool % 512 ≠ 0 || gdDone d % 64 ≠ 0 || gdFault d % 512 ≠ 0 || unwritable (gdDone d) 64 ||
          unwritable (gdFault d) 512 || (List.range cap).any fun i => unreadable (pool + 512 * i) 512 || unwritable (pool + 512 * i) 512, 2),
       ((s.sched.graph a.vd gid).isSome || gid = 0xFFFF, 4),
       ((imgs.zip (List.range n)).any fun x => s'.badRecord a.vd gid imgs x.2 x.1, 5)]
      fun _ =>
        let g : Graph := { vdev := a.vd, gid := gid, pool := pool, cap := cap, nrec := n, done := gdDone d, fault := gdFault d,
                           images := imgs, contract := 0, aborted := false, code := 0, live := true }
        let s := s'.mapSched fun c => { c with
          graphs := g :: c.graphs.filter (fun x => ¬ (x.vdev = a.vd ∧ x.gid = gid))
          tasks := c.tasks.filter fun t => ¬ (t.key.vdev = a.vd ∧ t.key.graph = gid) }
        let s := (imgs.zip (List.range n)).foldl (fun s x =>
          s.enterTask (newTask { vdev := a.vd, graph := gid, record := x.2 } x.1 false false (s.drawNat 5 x.2))) s
        (if n = 0 then s.finishGraph a.vd gid else s, .ok 0)

def execLaunch (p : Nat) (s : State) : Result := .next (s.call p 1 [mask58] State.launch)

/-- ABORT (R364): Mason's own graph is no owner's (R385). -/
def State.abortCall (s : State) (a : Args) : State × Except Nat Word :=
  let gid := bits (a.w 1).toNat 15 0
  if (s.sched.graph a.vd gid).isNone ∨ gid = 0xFFFF then (s, .error 3)
  else (s.abortGraph a.vd gid 0 [0, 0, 0, 0, 0, 0, 0, 0], .ok 0)

def execAbort (p : Nat) (s : State) : Result := .next (s.call p 2 [0xFFFF] State.abortCall)

/-- X of R382 for the records of a graph. -/
def contractX (imgs : List (BitVec 512)) : Nat :=
  let most (f : BitVec 512 → Nat) : Nat := imgs.foldl (fun m r => max m (f r)) 0
  let ones (r : BitVec 512) : Nat := ((List.range 8).filter fun j => (recTiles r).testBit j).length
  4800 + (most recFoot + 4095) / 4096 + 64 * most ones

/-- U of R382: the numerator, over the denominator 12 P. -/
def contractU (d : BitVec 256) (imgs : List (BitVec 512)) : Nat × Nat := (ctrC d + ctrK d * contractX imgs, 12 * ctrP d)

/-- The admission test of R382, exactly computed, over the numerators and denominators of every contract of a device of share
S: each U ≤ 1, and Σ U ≤ S − (S − 1) max U. -/
def admits (share : Nat) (us : List (Nat × Nat)) : Bool :=
  let den := us.foldl (fun m u => m * u.2) 1
  let scaled (u : Nat × Nat) : Nat := u.1 * (den / u.2)
  let total := us.foldl (fun m u => m + scaled u) 0
  let top := us.foldl (fun m u => max m (scaled u)) 0
  us.all (fun u => u.1 ≤ u.2) && decide ((total : Int) ≤ (share : Int) * den - ((share : Int) - 1) * top)

/-- Reserved bits of a contract descriptor, and values out of their ranges (R380). -/
def ctrReserved (d : BitVec 256) : Bool := bits d.toNat 255 160 ≠ 0 || bits d.toNat 127 104 ≠ 0 || bits d.toNat 79 77 ≠ 0
def ctrRange (d : BitVec 256) : Bool := 1000 ≤ ctrP d && 1 ≤ ctrK d && (! ctrSync d || 1 ≤ ctrDiv d)

/-- A free choice among the numbers below n that are not in use (log 6); none where all are. -/
def State.freeNumber (s : State) (purpose lo n : Nat) (used : Nat → Bool) : Option Nat :=
  let xs := ((List.range n).map (lo + ·)).filter fun x => ! used x
  xs[s.drawNat 6 purpose % max 1 xs.length]?

/-- ADMIT (R380, R382). -/
def State.accept (s : State) (a : Args) : State × Except Nat Word :=
  let at_ := (a.w 1).toNat
  match s.ownerRead a.vd at_ 256 with
  | none => (s, .error 2)
  | some x =>
    if at_ % 256 ≠ 0 then (s, .error 2) else
    let d : BitVec 256 := BitVec.ofNat 256 x
    let gid := ctrGid d
    let g := s.sched.graph a.vd gid
    let images (n : Nat) : List (BitVec 512) := match s.sched.graph a.vd n with
      | some g => g.images
      | none => []
    let us := contractU d (images gid) ::
      ((s.sched.contracts.filter fun c => c.vdev = a.vd).map fun c => contractU c.desc (images (ctrGid c.desc)))
    let number := s.freeNumber 0 1 4095 fun n => s.sched.contracts.any fun c => c.number = n
    refuseOr s
      [(ctrReserved d, 1), (g.isNone || (a.vd = 0 && gid = 0xFFFF), 3), (g.any fun g => g.contract ≠ 0, 4), (! ctrRange d, 5),
       (! admits (s.sched.settings a.vd).share us, 6), (number.isNone, 7), (! (s.sched.settings a.vd).assured, 9)]
      fun _ =>
        let n := number.getD 0
        let c : Contract := { number := n, vdev := a.vd, gid := gid, desc := d, admitted := s.sched.ticks, releases := 0,
                              current := 0, overruns := 0, skips := 0, pulses := 0, lastRelease := 0, remaining := 0, open_ := false }
        (s.mapSched fun q => { q.mapGraph a.vd gid fun g => { g with contract := n } with
          contracts := q.contracts ++ [c] }, .ok (BitVec.ofNat 64 n))

def execAdmitCall (p : Nat) (s : State) : Result := .next (s.call p 3 [mask58] State.accept)

/-- WITHDRAWING A CONTRACT (R409): its graph's tasks are best effort from then on. -/
def State.withdrawContract (s : State) (c : Contract) : State :=
  let gid := ctrGid c.desc
  let s := s.mapSched fun q => { q.mapGraph c.vdev gid fun g => { g with contract := 0 } with
    contracts := q.contracts.filter fun x => x.number ≠ c.number }
  let s := (s.sched.graphTasks c.vdev gid).foldl (fun s t => s.mapSched fun q =>
    if q.lists.any fun x => x.2 = t.key then q.enlist t.key false else q) s
  s.finishGraph c.vdev gid

/-- REVOKE (R409). -/
def State.revoke (s : State) (a : Args) : State × Except Nat Word :=
  match s.sched.contracts.find? fun c => c.number = (a.w 1).toNat ∧ c.vdev = a.vd with
  | none => (s, .error 3)
  | some c => (s.withdrawContract c, .ok 0)

def execRevoke (p : Nat) (s : State) : Result := .next (s.call p 4 [0xFFF] State.revoke)

/-- SETVD (R377, R412). A VF that leaves assured mode writes S unchanged, and its device keeps that share (DESIGN CHOICE, log 30). -/
def State.setvd (s : State) (a : Args) : State × Except Nat Word :=
  let vd := (a.w 1).toNat
  let w := (a.w 2).toNat
  let old := s.sched.settings vd
  let x := { old with
    weight := bits w 7 0, assured := bits w 8 8 = 1, chk := bits w 9 9 = 1, cpid := bits w 15 10, spid := bits w 21 16
    share := bits w 29 22, quant := bits (a.w 3).toNat 31 0, pkt := bits (a.w 3).toNat 63 32, vfwd := (a.w 4).toNat }
  let others := (s.sched.vdevs.filter fun y => y.1 ≠ vd).foldl (fun m y => m + y.2.share) 0
  let unended : Bool := s.sched.tasks.any fun t => t.key.vdev = vd && t.state ≠ .ended
  refuseOr s
    [(384 < vd || x.quant < 1000 || x.vfwd = 0 || 224 < x.share || (! x.assured && x.share ≠ 0 && (a.vd = 0 || x.share ≠ old.share)), 1),
     (224 < others + x.share, 6),
     (a.vd ≠ 0 && (a.vd ≠ vd || x.weight ≠ old.weight || x.share ≠ old.share || x.cpid ≠ old.cpid || x.spid ≠ old.spid), 8),
     (x.assured && ! old.assured && unended, 9)]
    fun _ => (s.mapSched fun c => c.setSettings vd x, .ok 0)

def execSetvd (p : Nat) (s : State) : Result :=
  .next (s.call p 5 [0x1FF, 0x3FFFFFFF, 0xFFFFFFFFFFFFFFFF, 0xFFFFFFFF] State.setvd)

/-- The address space of a virtual device's tasks. -/
def Sched.asid (c : Sched) (vd : Nat) : Nat := bits (c.settings vd).root.toNat 63 54

/-- VNOPEN on the caller's behalf (R316, R411). -/
def State.vnopenCall (s : State) (a : Args) : State × Except Nat Word :=
  let want := (a.w 2).toNat
  if 64 < want then (s, .error 1) else
  match s.ownerRead a.vd (a.w 1).toNat 384 with
  | none => (s, .error 2)
  | some img =>
    let r := s.openRegion img want
    (r.1, if r.2.getLsbD 63 then .error (0x10 + bits r.2.toNat 7 0) else .ok r.2)

def execVnopenCall (p : Nat) (s : State) : Result := .next (s.call p 6 [mask58, 0x7F] State.vnopenCall)

/-- VNCLOSE on the caller's behalf (R316): the caller's regions are the open ones of its address space; a closed one gives 0. -/
def State.vncloseCall (s : State) (a : Args) : State × Except Nat Word :=
  let n := (a.w 1).toNat
  let r := s.ver.region n
  if regSt r ≠ 0 ∧ regAsid r ≠ s.sched.asid a.vd then (s, .error 3) else
  let r := s.closeRegion n
  (r.1, .ok r.2)

def execVncloseCall (p : Nat) (s : State) : Result := .next (s.call p 7 [0x3F] State.vncloseCall)

/-- STATUS (R412). -/
def State.statusCall (s : State) (a : Args) : State × Except Nat Word :=
  let w := (a.w 1).toNat
  let n := bits w 31 16
  if bits w 0 0 = 0 then
    match s.sched.graph a.vd n with
    | none => (s, .error 3)
    | some _ => (s, .ok (BitVec.ofNat 64 (((s.sched.graphTasks a.vd n).filter fun t => t.state ≠ .ended).length % 2 ^ 17)))
  else
    match s.sched.contracts.find? fun c => c.number = n ∧ c.vdev = a.vd with
    | none => (s, .error 3)
    | some c => (s, .ok (BitVec.ofNat 64
        (c.releases % 2 ^ 26 + (c.overruns % 2 ^ 18) <<< 26 + (c.skips % 2 ^ 18) <<< 44)))

def execStatus (p : Nat) (s : State) : Result := .next (s.call p 8 [0xFFFF0001] State.statusCall)

/-- ENCOPEN (R409, R412). -/
def State.encopen (s : State) (a : Args) : State × Except Nat Word :=
  let w := (a.w 1).toNat
  let q := (a.w 2).toNat
  let e := bits w 44 40
  let bad : Bool := bits w 10 0 % 2 = 1 || bits w 10 0 < 64 || 1920 < bits w 10 0 || bits w 21 11 % 2 = 1 ||
    bits w 21 11 < 64 || 1080 < bits w 21 11 || bits w 38 23 = 0 || (15 < e && e ≠ 31) ||
    (if bits w 39 39 = 0 then 2 ^ 8 ≤ q else 2 ^ 40 ≤ q)
  let number := s.freeNumber 1 0 1024 fun n => s.io.encStreams.any fun x => x.number = n
  refuseOr s [(bad, 1), (number.isNone, 7)] fun _ =>
      let n := number.getD 0
      let x : EncStream := { number := n, vdev := a.vd, encoder := if e = 31 then s.drawNat 6 2 % 16 else e, width := bits w 10 0,
                             height := bits w 21 11, deep := bits w 22 22 = 1, interval := bits w 38 23, rate := bits w 39 39,
                             quant := q, failed := false }
      (s.mapIo fun io => { io with encStreams := io.encStreams ++ [x] }, .ok (BitVec.ofNat 64 n))

def execEncopen (p : Nat) (s : State) : Result := .next (s.call p 9 [0x1FFFFFFFFFFF, 0xFFFFFFFFFF] State.encopen)

/-- An encoder stream closes, with the jobs it still has. -/
def State.closeStream (s : State) (n : Nat) : State :=
  (s.dropJobs n).mapIo fun io => { io with encStreams := io.encStreams.filter fun x => x.number ≠ n }

/-- ENCCLOSE (R409). -/
def State.encclose (s : State) (a : Args) : State × Except Nat Word :=
  let n := (a.w 1).toNat
  if s.io.encStreams.any fun x => x.number = n && x.vdev = a.vd then (s.closeStream n, .ok 0) else (s, .error 3)

def execEncclose (p : Nat) (s : State) : Result := .next (s.call p 10 [0x3FF] State.encclose)

/-- PEERSET (R412). -/
def State.peerset (s : State) (a : Args) : State × Except Nat Word :=
  let w := (a.w 1).toNat
  let i := bits w 11 0
  let others := s.io.peers.filter fun x => ¬ (x.vdev = a.vd ∧ x.index = i)
  if bits w 12 12 = 1 then
    (s.mapIo fun io => { io with peers := { vdev := a.vd, index := i, addr := a.w 3 ++ a.w 2, job := (a.w 4).setWidth 24 } :: others },
      .ok 0)
  else if others.length = s.io.peers.length then (s, .error 3)
  else (s.mapIo fun io => { io with peers := others }, .ok 0)

def execPeerset (p : Nat) (s : State) : Result :=
  .next (s.call p 11 [0x1FFF, 0xFFFFFFFFFFFFFFFF, 0xFFFFFFFFFFFFFFFF, 0xFFFFFF] State.peerset)

/-- Whether a range of an owner's memory is mapped in device memory with the permission asked for, page by page. -/
def State.ownerMapped (s : State) (vd va w : Nat) (wr : Bool) : Bool :=
  (pageParts va w (w / 2 ^ 25 + 2) 0).all fun p => (s.ownerSegs vd (va + p.1) p.2 wr).isSome

/-- EXPOSE (R412, R417). -/
def State.expose (s : State) (a : Args) : State × Except Nat Word :=
  let base := (a.w 2).toNat
  let len := (a.w 3).toNat
  let ctr := (a.w 4).toNat
  let wr := (a.w 5).getLsbD 0
  let rd := (a.w 5).getLsbD 1
  let number := s.freeNumber 3 0 4096 fun n => s.io.exposed.any fun x => x.vdev = a.vd && x.key = n
  refuseOr s
    [(len % 8 ≠ 0 || 2 ^ 58 < base + len, 1),
     (base % 8 ≠ 0 || ctr % 64 ≠ 0 || (s.ownerSegs a.vd ctr 64 true).isNone || (s.ownerSegs a.vd ctr 64 false).isNone ||
        (wr && ! s.ownerMapped a.vd base len true) || (rd && ! s.ownerMapped a.vd base len false), 2),
     (number.isNone, 7)]
    fun _ =>
      let n := number.getD 0
      (s.mapIo fun io => { io with
        exposed := { vdev := a.vd, key := n, base := base, len := len, counter := ctr, write := wr, read := rd } :: io.exposed },
        .ok (BitVec.ofNat 64 n))

def execExpose (p : Nat) (s : State) : Result :=
  .next (s.call p 12 [0, mask58, 0x7FFFFFFFFFFFFFF, mask58, 3] State.expose)

/-- SETPWR (R424): the envelope in force is the value; the new one takes effect by ENVELOPE_APPLY. -/
def State.setpwr (s : State) (a : Args) : State × Except Nat Word :=
  let w := a.w 1
  refuseOr s [(w.toNat < 1200 || 2600 < w.toNat, 1), (a.vd ≠ 0, 8)] fun _ =>
    (s.mapIo fun io => { io with envAsked := w }, .ok s.io.env)

def execSetpwr (p : Nat) (s : State) : Result := .next (s.call p 13 [0xFFF] State.setpwr)

/-- SETIRQ (R413). -/
def State.setirq (s : State) (a : Args) : State × Except Nat Word :=
  let v := (a.w 1).toNat
  let h := (a.w 2).toNat
  refuseOr s [(v < 2 || 4 < v || (15 < h && h ≠ 31), 1), (a.vd ≠ 0, 8)] fun _ =>
    (s.mapIo fun io => { io with route := io.route.setIfInBounds v h }, .ok 0)

def execSetirq (p : Nat) (s : State) : Result := .next (s.call p 14 [7, 0x1F] State.setirq)

/-- ENVELOPE_APPLY (R424): it changes only timing (R13). -/
def execEnvelopeApply (s : State) : Result := .next (s.mapIo fun io => { io with env := io.envAsked })

/-- ORDERED_DOORBELL_WRITE (R346): every write that the port received before is already performed (log 3). -/
def execOrderedDoorbellWrite (p o : Nat) (v : Word) (s : State) : Result :=
  .next (if p < 2 then s.doorbellWrite (385 + p) o v else s)

end Sys2Proof.Machine
end

