-- ==== Sys2Proof/Machine/Float.lean ====
section
/-! DEFINITION. Scalar floating point (R117-R121). -/

namespace Sys2Proof.Machine

/-- The format that F[26:25] names (R68). -/
def scalarFmt (t : BitVec 2) : Fmt :=
  match t.toNat with
  | 0 => .f64
  | 1 => .f32
  | 2 => .f16
  | _ => .bf16

/-- The operand in a register: its low bits (R117). -/
def State.fp (s : State) (f : Fmt) (r : BitVec 5) : Nat := (s.g r).toNat % 2 ^ f.width

/-- A floating result with its flags: FPEXC where an enabled flag is raised (R117, R175). -/
def State.finishF (s : State) (d : BitVec 5) (r : FOut) : State :=
  let s := s.orFlags r.flags
  if r.flags &&& s.ten ≠ 0 then s.trap ⟨.fpexc, BitVec.ofNat 64 (r.flags &&& s.ten), 0, 0⟩
  else s.finishG 32 d (BitVec.ofNat 64 r.bits)

/-- An operation on g[A] and g[B] (R118). -/
def State.fpOp2 (s : State) (d a b : BitVec 5) (t : BitVec 2) (op : Fmt → Nat → Nat → FOut) : State :=
  let f := scalarFmt t
  s.finishF d (op f (s.fp f a) (s.fp f b))

def execFadd (d a b : BitVec 5) (t : BitVec 2) (_w : BitVec 3) (s : State) : Result :=
  .next (s.fpOp2 d a b t fun f => fAdd f s.rmode)
def execFsub (d a b : BitVec 5) (t : BitVec 2) (_w : BitVec 3) (s : State) : Result :=
  .next (s.fpOp2 d a b t fun f => fSub f s.rmode)
def execFmul (d a b : BitVec 5) (t : BitVec 2) (_w : BitVec 3) (s : State) : Result :=
  .next (s.fpOp2 d a b t fun f => fMul f s.rmode)
def execFdiv (d a b : BitVec 5) (t : BitVec 2) (_w : BitVec 3) (s : State) : Result :=
  .next (s.fpOp2 d a b t fun f => fDiv f s.rmode)
def execFsqrt (d a : BitVec 5) (t : BitVec 2) (_w : BitVec 3) (s : State) : Result :=
  .next (s.finishF d (fSqrt (scalarFmt t) s.rmode (s.fp (scalarFmt t) a)))
def execFmin (d a b : BitVec 5) (t : BitVec 2) (_w : BitVec 3) (s : State) : Result :=
  .next (s.fpOp2 d a b t fun f => fMinMax f false)
def execFmax (d a b : BitVec 5) (t : BitVec 2) (_w : BitVec 3) (s : State) : Result :=
  .next (s.fpOp2 d a b t fun f => fMinMax f true)

/-- FMA (R118): g[A] x g[B] + g[D] with one rounding. -/
def execFma (d a b : BitVec 5) (t : BitVec 2) (_w : BitVec 3) (s : State) : Result :=
  .next (s.fpOp2 d a b t fun f x y => fFma f s.rmode false x y (s.fp f d))

/-- FCMP (R119). -/
def execFcmp (d a b : BitVec 5) (c t : BitVec 2) (_w : BitVec 3) (s : State) : Result :=
  .next (s.fpOp2 d a b t fun f x y =>
    let r := fCmp f c.toNat x y
    { bits := r.1.toNat, flags := r.2 })

/-- FCVT's conversions by code, the operand being all of g[A] (R120); none for a code that is not assigned. -/
def scalarCvt (mode code : Nat) (x : Word) : Option FOut :=
  let ff (src dst : Fmt) : Option FOut := some (fCvt src dst mode (x.toNat % 2 ^ src.width))
  match code with
  | 0x00 => ff .f64 .f32
  | 0x01 => ff .f64 .f16
  | 0x02 => ff .f64 .bf16
  | 0x03 => ff .f32 .f64
  | 0x04 => ff .f32 .f16
  | 0x05 => ff .f32 .bf16
  | 0x06 => ff .f16 .f32
  | 0x07 => ff .bf16 .f32
  | 0x08 => ff .f16 .f64
  | 0x09 => ff .bf16 .f64
  | 0x10 => some (fOfInt .f64 mode x.toInt)
  | 0x11 => some (fOfInt .f64 mode x.toNat)
  | 0x12 => some (fOfInt .f32 mode x.toInt)
  | 0x13 => some (fOfInt .f32 mode x.toNat)
  | 0x18 => some (fToInt .f64 mode true 64 x.toNat)
  | 0x19 => some (fToInt .f64 mode false 64 x.toNat)
  | 0x1A => some (fToInt .f32 mode true 64 (x.toNat % 2 ^ 32))
  | 0x1B => some (fToInt .f32 mode false 64 (x.toNat % 2 ^ 32))
  | _ => none

/-- FCVT (R120): rounds by FRM, round-to-odd included. -/
def execFcvt (d a : BitVec 5) (_w : BitVec 3) (c : BitVec 5) (s : State) : Result :=
  .next <| match scalarCvt s.frm c.toNat (s.g a) with
    | none => s.illop
    | some r => s.finishF d r

/-- FMV (R121). -/
def execFmv (d a : BitVec 5) (t : BitVec 2) (_w : BitVec 3) (o : BitVec 5) (s : State) : Result :=
  let f := scalarFmt t
  let x := s.fp f a
  let top := 2 ^ (f.width - 1)
  .next <| match o.toNat with
    | 0 => s.finishG 32 d (BitVec.ofNat 64 x)
    | 1 => s.finishG 32 d (BitVec.ofNat 64 (x ^^^ top))
    | 2 => s.finishG 32 d (BitVec.ofNat 64 (x % top))
    | _ => s.illop

end Sys2Proof.Machine
end

