-- ==== Sys2Proof/Machine/Net.lean ====
section
/-! DEFINITION. The network engine (R417-R420) and the frame encoders (R321, R421, R422): NPOST, NWAIT, ENCJ, and the engines'
own steps. What the spec leaves to the network and to AV1 is free (log 6, 17, 19). -/

namespace Sys2Proof.Machine

/-- The reason for which NPOST enqueues nothing (R418); 0 if none. -/
def State.postReason (s : State) (w : Nat → Word) : Nat :=
  let op := bits (w 0).toNat 3 0
  let len := (w 2).toNat
  if (op ≠ 1 ∧ op ≠ 2) ∨ bits (w 0).toNat 63 24 ≠ 0 ∨ bits (w 0).toNat 7 4 ≠ 0 then 1
  else if len % 8 ≠ 0 ∨ len < 8 ∨ 2 ^ 35 < len then 2
  else if offOf (w 1) % 8 ≠ 0 then 3
  else if ! (s.io.peers.any fun x => x.vdev = s.taskKey.vdev && x.index = bits (w 0).toNat 23 8) then 4
  else 0

/-- The request number of the next request of the task, and how many are not yet completed (R418). -/
def State.posts (s : State) : Nat × Nat :=
  match s.task with
  | some t => (t.posted, t.pendingNet)
  | none => (0, (s.io.requests.filter fun r => r.task = s.taskKey).length)

/-- NPOST (R418). -/
def State.npost (s : State) (d a : BitVec 5) : State :=
  if a = 0 ∨ 26 < a.toNat then s.illop else
  let w (i : Nat) : Word := s.g (a + BitVec.ofNat 5 i)
  match s.postReason w with
  | 0 =>
    let read : Bool := bits (w 0).toNat 3 0 = 2
    let len := (w 2).toNat
    s.orTrap (checkExtent s.extents (w 1) len { kinds := [0, 1], rd := ! read, wr := read }) fun (bk, ba) =>
    s.orTrap (checkExtent s.extents (w 4) 64 .atomic) fun (ck, ca) =>
      let granule := if ck = 0 then 256 else 512
      if granule < ca % granule + 64 then s.trap ⟨.addr, w 4, 0, 0⟩
      else if 256 ≤ s.posts.2 then s.waitIn .npost
      else
        let n := s.posts.1
        let r : NetReq := { task := s.taskKey, number := n, read := read, peer := bits (w 0).toNat 23 8, bufLocal := bk ≠ 0, buf := ba,
                            len := len, remote := w 3, ctrLocal := ck ≠ 0, ctr := ca, root := s.via.root, assured := s.via.assured,
                            amount := w 5 }
        let s := s.mapIo fun io => { io with requests := io.requests ++ [r] }
        let s := s.mapSched fun c => c.mapTask s.taskKey fun t => { t with pendingNet := t.pendingNet + 1, posted := t.posted + 1 }
        s.finishG 32 d (BitVec.ofNat 64 n)
  | r => s.finishG 32 d (BitVec.ofNat 64 (2 ^ 63 + r))

def execNpost (d a : BitVec 5) (s : State) : Result := .next (s.npost d a)

/-- NWAIT (R420). -/
def State.nwait (s : State) (d a b : BitVec 5) : State :=
  s.orTrap (s.resolve s.via (s.g a) 64 .watch) fun segs =>
    let c := s.readSegs segs
    if (s.g b).toNat ≤ c then s.finishG 32 d (BitVec.ofNat 64 c) else s.waitIn (.nwait d a b)

def execNwait (d a b : BitVec 5) (s : State) : Result := .next (s.nwait d a b)

/-- NWAIT_SATISFIED (R420). -/
def execNwaitSatisfied (c : Nat) (s : State) : Result :=
  .next <| match (s.coreAt c).main.wait with
    | some (.nwait d a b) => s.wake c .main fun t => t.nwait d a b
    | _ => s

/-- The means of the engines' accesses: through an address space, to the home (R12, R418, R422). -/
def engineVia (root : Word) (assured : Bool) : Via := { ext := Vector.replicate 16 0, root := root, assured := assured, die := none }

/-- The segments of a range, page by page (R418); none where a page is not mapped with the permission. -/
def State.engineSegs (s : State) (via : Via) (va w : Nat) (c : Class) : Option (List Seg) :=
  (pageParts va w (w / 2 ^ 25 + 2) 0).foldr (fun p acc =>
    match s.pages via 0 (va + p.1) p.2 c 0, acc with
    | .ok g, some gs => some (g ++ gs)
    | _, _ => none) (some [])

/-- Puts the masked bits of a value into a range as they move, page by page, and says whether every page was mapped for it; where one is
not, its bits are left out (R418). -/
def State.fillPages (s : State) (via : Via) (va w v mask : Nat) : State × Bool :=
  (pageParts va w (w / 2 ^ 25 + 2) 0).foldl (fun r p =>
    match r.1.pages via 0 (va + p.1) p.2 .engineWrite 0 with
    | .ok g => (r.1.writeSegs none g (v >>> p.1) (mask >>> p.1), r.2)
    | .error _ => (r.1, false)) (s, true)

/-- A place that a request names: in the local store of a core, where the task no longer has one nowhere, or segments of
memory. -/
inductive Place where
  | store (core a w : Nat)
  | nowhere
  | segs (g : List Seg)

/-- The local store of a task that is unbound, as far as its save area holds it (R395, R420). -/
def State.savedStore (s : State) (k : TaskKey) (a w : Nat) : Place :=
  match s.sched.task k with
  | none => .nowhere
  | some t =>
    let foot := recFoot t.image
    if t.saved = false ∨ t.state = .ended ∨ foot ≤ a then .nowhere
    else .segs [.phys (t.ctx + saveStore + a) (min w (foot - a))]

/-- The place of w bits at a; none where the translation fails. A local store is that of the task's core, or, while it is unbound,
its save area (R420). -/
def State.place (s : State) (r : NetReq) (inLocal : Bool) (a w : Nat) (c : Class) : Option Place :=
  if inLocal then
    match s.sched.coreOf r.task with
    | some n => some (.store n a w)
    | none => some (s.savedStore r.task a w)
  else (s.engineSegs (engineVia r.root r.assured) a w c).map .segs

/-- Writes the masked bits of a place. -/
def State.putPlace (s : State) (p : Place) (v mask : Nat) : State :=
  match p with
  | .store n a w => s.mapCoreNo n fun c => { c with ls := c.ls.writeMasked a w v (lsMask a w mask) }
  | .nowhere => s
  | .segs g => s.writeSegs none g v mask

/-- What a place holds. -/
def State.getPlace (s : State) : Place → Nat
  | .store n a w => (s.coreAt n).ls.readBits a w
  | .nowhere => 0
  | .segs g => s.readSegs g

/-- The data of a request have moved, and whether all of them have (R418): a READ has placed the bits that came back, which are free,
or, where it fails, a free part of them on the pages that are mapped. -/
def State.moveData (s : State) (r : NetReq) (ok : Bool) : State × Bool :=
  let v := Config.freeBits (s.fresh <<< 64)
  let part := Config.freeBits (s.fresh <<< 64 + 1)
  if r.read = false then (s, ok && (s.place r r.bufLocal r.buf r.len .engineRead).isSome)
  else if r.bufLocal then
    (((s.place r true r.buf r.len .engineWrite).map fun p => s.putPlace p v (if ok then 2 ^ r.len - 1 else part)).getD s, ok)
  else
    let fill := s.fillPages (engineVia r.root r.assured) r.buf r.len v
    if ok && (fill (2 ^ r.len - 1)).2 then ((fill (2 ^ r.len - 1)).1, true) else ((fill part).1, false)

/-- The i-th request ends (R418, R419): its data have moved, or it fails with an event; then the counter is added to, as one atomic at
its home. -/
def State.endRequest (s : State) (i : Nat) (r : NetReq) (ok : Bool) : State :=
  let s := s.mapIo fun io => { io with requests := io.requests.eraseIdx i }
  let s := s.mapSched fun c => c.mapTask r.task fun t => { t with pendingNet := t.pendingNet - 1 }
  let (s, ok) := s.moveData r ok
  let s := if ok then s else s.openEvent 0
  match s.place r r.ctrLocal r.ctr 64 .engineAtomic with
  | some p => s.putPlace p (s.getPlace p + (if ok then 1 else 2 ^ 32)) (2 ^ 64 - 1)
  | none => s

/-- NET_REQUEST_COMPLETE (R418). -/
def execNetRequestComplete (i : Nat) (ok : Bool) (s : State) : Result :=
  .next <| match s.io.requests[i]? with
    | none => s
    | some r => if s.halted then s else s.endRequest i r ok

/-- What has arrived of the request that a packet belongs to. -/
def Io.arrived (io : Io) (p : Packet) : Incoming :=
  (io.incoming.find? fun x => x.vdev = p.vdev ∧ x.key = p.key ∧ x.request = p.request).getD
    { vdev := p.vdev, key := p.key, request := p.request, placed := [], bad := false }

/-- Records what has arrived of a request. -/
def Io.setArrived (io : Io) (y : Incoming) : Io :=
  { io with incoming := y :: io.incoming.filter fun x => ¬ (x.vdev = y.vdev ∧ x.key = y.key ∧ x.request = y.request) }

/-- NET_PACKET_RECEIVE (R419): the bytes are placed, and once every byte of the request is, the receive counter is added to. A
request with a byte outside the region, or to a region without write permission, is refused whole; so is a packet that lies
outside its request, or that was placed before. One packet that cannot be placed keeps the counter as it is (log 19). -/
def State.receive (s : State) (p : Packet) : State :=
  match s.io.exposed.find? fun x => x.vdev = p.vdev ∧ x.key = p.key with
  | none => s
  | some x =>
    if x.write = false ∨ x.len < 8 * (p.first + p.total) then s else
    let y := s.io.arrived p
    if p.bytes = 0 ∨ p.offset < p.first ∨ p.first + p.total < p.offset + p.bytes ∨
        y.placed.any fun z => overlaps p.offset p.bytes z.1 z.2 then s else
    let via := engineVia (s.sched.settings p.vdev).root (s.sched.settings p.vdev).assured
    match s.engineSegs via (x.base + 8 * p.offset) (8 * p.bytes) .engineWrite with
    | none => s.mapIo fun io => io.setArrived { y with bad := true }
    | some g =>
      let s := s.store none g (8 * p.bytes) p.value
      let y := { y with placed := (p.offset, p.bytes) :: y.placed }
      if (y.placed.map (·.2)).sum < p.total then s.mapIo fun io => io.setArrived y else
      let s := s.mapIo fun io => { io.setArrived y with
        incoming := io.incoming.filter fun z => ¬ (z.vdev = y.vdev ∧ z.key = y.key ∧ z.request = y.request) }
      match y.bad, s.engineSegs via x.counter 64 .engineAtomic with
      | false, some c => s.store none c 64 (s.readSegs c + p.amount.toNat)
      | _, _ => s

def execNetPacketReceive (p : Packet) (s : State) : Result := .next (if s.halted then s else s.receive p)

/-- Word i of an encoder job (R421). -/
def jobWord (img : BitVec 512) (i : Nat) : Word := BitVec.ofNat 64 (bits img.toNat (64 * i + 63) (64 * i))
def jobStream (img : BitVec 512) : Nat := bits img.toNat 9 0

/-- The bits of the planes of a stream's frames, 4:2:0 (R422). -/
def EncStream.planes (x : EncStream) : Nat := x.width * x.height * 3 / 2 * (if x.deep then 10 else 8)

/-- The extents of a job, as ENCJ checks them (R421). -/
def State.jobExtents (s : State) (x : EncStream) (img : BitVec 512) : Except Trap Unit :=
  let e := s.extents
  match checkExtent e (jobWord img 1) 64 .verLoad with
  | .error t => .error t
  | .ok _ =>
    match checkExtent e (jobWord img 3) x.planes { kinds := [0], rd := true, wr := false } with
    | .error t => .error t
    | .ok _ =>
      if offOf (jobWord img 4) % 8 ≠ 0 then .error ⟨.addr, jobWord img 4, 0, 0⟩ else
      match checkExtent e (jobWord img 4) (jobWord img 5).toNat { kinds := [0], rd := false, wr := true } with
      | .error t => .error t
      | .ok _ => (checkExtent e (jobWord img 6) 64 .verStore).map fun _ => ()

/-- ENCJ (R421). -/
def State.encj (s : State) (d a : BitVec 5) : State :=
  s.orTrap (s.resolve s.via (s.g a) 512 .load) fun segs =>
    let img : BitVec 512 := BitVec.ofNat 512 (s.readSegs segs)
    match s.io.encStreams.find? fun x => x.number = jobStream img ∧ x.vdev = s.taskKey.vdev with
    | none => s.finishG 32 d (BitVec.ofNat 64 (2 ^ 63 + 1))
    | some x =>
      if bits img.toNat 63 11 ≠ 0 then s.finishG 32 d (BitVec.ofNat 64 (2 ^ 63 + 1)) else
      s.orTrap (s.jobExtents x img) fun _ =>
        if 64 ≤ (s.io.encJobs.filter fun j => j.encoder = x.encoder).length then s.waitIn .encj
        else
          let j : EncJob := { id := s.io.nextJob, stream := x.number, encoder := x.encoder, image := img, ext := s.extents,
                              root := s.via.root, assured := s.via.assured, started := false, bad := false, written := none }
          let s := if x.failed then s else s.mapIo fun io => { io with encJobs := io.encJobs ++ [j], nextJob := io.nextJob + 1 }
          s.finishG 32 d (BitVec.ofNat 64 (s.drawNat 7 2 % 2 ^ 63))

def execEncj (d a : BitVec 5) (s : State) : Result := .next (s.encj d a)

/-- The means of a job's accesses (R34, R422). -/
def EncJob.via (j : EncJob) : Via := { engineVia j.root j.assured with ext := j.ext }

/-- The jobs of encoder e that are next in their streams (R422). -/
def Io.nextJobs (io : Io) (e : Nat) : List EncJob :=
  let mine := io.encJobs.filter fun j => j.encoder = e
  mine.filter fun j => (mine.find? fun y => y.stream = j.stream).any fun y => y.id = j.id

/-- Changes one job. -/
def State.mapJob (s : State) (i : Nat) (f : EncJob → EncJob) : State :=
  s.mapIo fun io => { io with encJobs := io.encJobs.map fun j => if j.id = i then f j else j }

/-- ENC_JOB_START (R422): an idle encoder tries the input version of a job that is next in its stream, a free choice among
streams; the job starts, or waits for the version. -/
def State.startJob (s : State) (e : Nat) : State :=
  let js := s.io.nextJobs e
  if js.any EncJob.started then s else
  match js[s.drawNat 7 3 % max 1 js.length]? with
  | none => s
  | some j =>
    let v := jobWord j.image 2
    match s.lookUp j.via (jobWord j.image 1) v with
    | .value _ => s.mapJob j.id fun j => { j with started := true }
    | .bad _ => s.mapJob j.id fun j => { j with started := true, bad := true }
    | .missing n x =>
      if s.ver.waits.any fun w => w.who = .encoder j.id then s else s.waitVersion n x v.toNat (.encoder j.id)

def execEncJobStart (e : Nat) (s : State) : Result := .next (if s.halted then s else s.startJob e)

/-- What the encoding of a job gives (R422): the state with the unit written, and the completion value. The unit and its length
in bits are free (log 17). Only the buffer's bits that the unit takes are translated. A failed one may have written any part of
the buffer up to a free length. A unit that stands written is not written again. -/
def State.encode (s : State) (j : EncJob) (x : EncStream) : State × Nat :=
  let via := j.via
  let base (i : Nat) : Nat := extBase ((j.ext[tagOf (jobWord j.image i)]?).getD 0) + offOf (jobWord j.image i)
  let room := (jobWord j.image 5).toNat
  let unit := Config.freeBits (s.fresh <<< 64)
  let part := Config.freeBits (s.fresh <<< 64 + 1)
  let len := 8 * (s.drawNat 7 4 % 2 ^ 37)
  let out (n : Nat) : Option (List Seg) := s.engineSegs via (base 4) n .engineWrite
  let reached := s.drawNat 7 8 % (min room len + 1)
  let some_ : State := ((out reached).map fun g => s.writeSegs none g unit part).getD s
  if j.bad then (s, 2 ^ 63 + 2) else
  match j.written with
  | some n => (s, n)
  | none =>
  match s.engineSegs via (base 3) x.planes .engineRead, out (min room len) with
  | some _, some g => if room < len then (s.writeSegs none g unit part, 2 ^ 63 + 1) else (s.store none g len unit, len)
  | _, _ => (some_, 2 ^ 63 + 2)

/-- ENC_JOB_COMPLETE (R422): the unit is written, then version OV of the completion word is created. Where the heap is full, the
job waits as SVER does (R313, R320), with its unit written. -/
def State.finishJob (s : State) (j : EncJob) (x : EncStream) : State :=
  let t := jobWord j.image 6
  let v := jobWord j.image 7
  let r := s.encode j x
  match r.1.storeCheck j.via t v with
  | .error _ => r.1.failStream x.number
  | .ok (n, w, full) =>
    if full then
      let s := r.1.mapJob j.id fun y => { y with written := some r.2 }
      if s.ver.heapWaits.any fun y => y.who = .encoder j.id then s
      else s.mapVer fun u => { u with heapWaits := u.heapWaits ++ [{ region := n, who := .encoder j.id, start := s.sched.ticks }] }
    else
      (r.1.createVersion n w v.toNat (BitVec.ofNat 64 r.2)).mapIo fun io => { io with encJobs := io.encJobs.filter fun y => y.id ≠ j.id }

def execEncJobComplete (e : Nat) (s : State) : Result :=
  .next <|
    if s.halted then s else
    match s.io.encJobs.find? fun j => j.encoder = e ∧ j.started with
    | none => s
    | some j =>
      match s.io.encStreams.find? fun x => x.number = j.stream with
      | none => s
      | some x => s.finishJob j x

end Sys2Proof.Machine
end

