-- ==== Sys2Proof/Machine/Ports.lean ====
section
/-! DEFINITION. What reaches the device memory from outside the cores: the host's accesses (R18, R304, R407, R414), the base dies
and the controllers of the second tier (R283, R288, R295), the application cores (R416), and the register windows of R407. -/

namespace Sys2Proof.Machine

/-- What the requester is answered. -/
def State.answer (s : State) (x : ReplyStatus) (v : Nat) : State := s.mapIo fun io => { io with reply := { status := x, value := v } }

/-- The bytes of one stack's share of the DPA space, of all stacks, and of the whole space (R414). -/
def dpaStack : Nat := 120000000000
def dpaTier : Nat := 960000000000
def dpaEnd : Nat := 3008000000000

/-- Device physical address d as a physical bit address (R414). -/
def dpaBits (d : Nat) : Nat :=
  if d < dpaTier then d / dpaStack * 2 ^ 40 + 8 * (d % dpaStack) else Config.tierBase + 8 * (d - dpaTier)

/-- The bytes from d on that lie together (R414). -/
def dpaRest (d : Nat) : Nat := if d < dpaTier then dpaStack - d % dpaStack else dpaEnd - d

/-- n bytes from DPA d as ranges of bits, each with its place in the value; bytes beyond the space have none (R407, R414). -/
def dpaParts : Nat → Nat → Nat → Nat → List (Nat × Nat × Nat)
  | 0, _, _, _ => []
  | fuel + 1, d, n, off =>
    if n ≤ off ∨ dpaEnd ≤ d + off then [] else
    let k := min (n - off) (dpaRest (d + off))
    (8 * off, dpaBits (d + off), 8 * k) :: dpaParts fuel d n (off + k)

def dpaRanges (d n : Nat) : List (Nat × Nat × Nat) := dpaParts 12 d n 0

/-- The bytes of the DPA space that a committed decoder exposes (R414). -/
def hdmCovers (x : HdmDecoder) (d n : Nat) : Bool := x.committed && overlaps d n x.dpa (x.size / max 1 x.ways)

/-- Port p's decoders (R414). -/
def MemSys.decoders (ms : MemSys) (p : Nat) : List HdmDecoder := (ms.hdm.toList.drop (4 * p)).take 4

/-- The DPA of a physical bit address (R414). -/
def dpaOf (a : Nat) : Nat := if a < 2 ^ 43 then a / 2 ^ 40 * dpaStack + a % 2 ^ 40 / 8 else dpaTier + (a - Config.tierBase) / 8

/-- The black-box data of a sector (R427). -/
def sectorData (a : Nat) : Nat := (bits a 53 10) <<< 10

/-- The die and the number of the memory controller that an address belongs to (R274, R295, R427). -/
def memoryDie (a : Nat) : Nat := match stackOf a with
  | some s => 8 + s
  | none => 4

/-- A host access to a protected heap is refused, and recorded (R304, R427). -/
def State.refuseHost (s : State) (p : HostPath) (a : Nat) (wr : Bool) : State :=
  let s := s.event 14 (memoryDie a) 0 (sectorData a % 2 ^ 63 + wr.toNat <<< 63)
  s.answer (match p, wr with
    | .cxlMem _, true => .ok
    | .cxlMem _, false => .poisoned
    | _, true => .dropped
    | _, false => .completerAbort) 0

/-- The first part of a host access that meets a heap, by the address where that part begins, which the event of type 14 then names
(DESIGN CHOICE, log 40). -/
def State.heapRange (s : State) (rs : List (Nat × Nat × Nat)) : Option Nat := (rs.find? fun r => s.inHeap r.2.1 r.2.2).map (·.2.1)

/-- A host read of device memory (R18, R304, R407). -/
def State.hostLoad (s : State) (p : HostPath) (d n : Nat) : State :=
  let rs := dpaRanges d n
  match s.heapRange rs with
  | some a => s.refuseHost p a false
  | none =>
    if rs.any fun r => s.poisoned r.2.1 r.2.2 false then s.answer .poisoned 0
    else s.answer .ok (rs.foldl (fun v r => v + s.ms.mem.readBits r.2.1 r.2.2 <<< r.1) 0)

/-- The LLC that may keep a host write: over CXL by LLCSRC.HPID of the die (R293), over PCI Express none. -/
def State.hostKeep (s : State) (p : HostPath) (a : Nat) : Option Keep :=
  match p with
  | .cxlMem _ => s.visit a fun d => bits ((s.ms.llc[d]?).getD LlcDie.reset).src.toNat 13 8
  | _ => none

/-- A host write of device memory: exactly the bytes it names (R18, R304). -/
def State.hostStore (s : State) (p : HostPath) (d n v : Nat) : State :=
  let rs := dpaRanges d n
  match s.heapRange rs with
  | some a => s.refuseHost p a true
  | none =>
    if rs.any fun r => s.poisoned r.2.1 r.2.2 true then s.answer .dropped 0
    else (rs.foldl (fun s r => { s with ms := s.writePhys (s.hostKeep p r.2.1) r.2.1 r.2.2 (v >>> r.1) (2 ^ r.2.2 - 1) }) s).answer .ok 0

/-- The named bits of a register take a value; the others keep theirs. -/
def putMask (old new mask : Word) : Word := (old &&& ~~~mask) ||| (new &&& mask)

/-- A bit that is cleared by writing one. -/
def clearOnOne (old new : Word) (bit : Nat) : Word := if new.getLsbD bit then old &&& ~~~(1#64 <<< bit) else old

/-- A write of PKLAST (R284). -/
def State.writePklast (s : State) (n : Nat) (v : Word) : State :=
  s.mapMs fun ms => { ms with pklast := ms.pklast.setIfInBounds n (clearOnOne ((ms.pklast[n]?).getD 0) v 63) }

/-- A write of PKCMD (R285): ignored while GO = 1; one with GO = 1 starts a repack. -/
def State.writePkcmd (s : State) (n : Nat) (v : Word) : State :=
  let old := (s.ms.pkcmd[n]?).getD 0
  if old.getLsbD 63 then s
  else s.mapMs fun ms => { ms with pkcmd := ms.pkcmd.setIfInBounds n (putMask old v 0x803FFFFFFE0003FF) }

/-- A repack ends (R285). A frame that does not lie in the die's stack is malformed, and so is a chunk whose repack would reach a
heap, which no agent but the version unit may access (R304; DESIGN CHOICE, log 44). -/
def State.repackDone (s : State) (n : Nat) : State :=
  let c := (s.ms.pkcmd[n]?).getD 0
  let frame := (bits c.toNat 53 25) <<< 25
  if c.getLsbD 63 = false then s else
  let i := bits c.toNat 9 0
  let heap := (s.ms.repackReach frame i).any fun x => s.inHeap (1024 * x) 1024
  let r := if stackOf frame = some n ∧ heap = false then s.ms.repack frame i else (s.ms, 3)
  { s with ms := { r.1 with pkcmd := r.1.pkcmd.setIfInBounds n (BitVec.ofNat 64 (putBits c.toNat 63 61 r.2)) } }

/-- A write of OWNCMD (R350): ignored while GO = 1; one with GO = 1 starts a flip. -/
def State.writeOwncmd (s : State) (v : Word) : State :=
  if s.ms.owncmd.getLsbD 63 then s else s.mapMs fun ms => { ms with owncmd := putMask ms.owncmd v 0x903FFFFFFE000000 }

/-- A 4 MiB page that a committed decoder exposes (R349). -/
def MemSys.pageExposed (ms : MemSys) (a : Nat) : Bool :=
  populated a && ! hostHomed a && ms.hdm.toList.any fun x => hdmCovers x (dpaOf a) (min (2 ^ 22) (dpaRest (dpaOf a)))

/-- The flip of OWNCMD takes effect (R349, R350): a page that goes to the host has its dirty lines written back, the expanded lines of
its packed mappings too. No load is then left to abandon: it read its bits in the step that issued it (log 3). -/
def State.flipDone (s : State) : State :=
  let c := s.ms.owncmd
  let a := (bits c.toNat 53 25) <<< 25
  let toHost := c.getLsbD 60
  if c.getLsbD 63 = false then s else
  let finish (s : State) (res : Nat) : State := s.mapMs fun ms => { ms with owncmd := BitVec.ofNat 64 (putBits c.toNat 63 61 res) }
  if s.ms.pageExposed a = false then finish s 1
  else if s.ms.hostPages.contains (a >>> 25) = toHost then finish s 2
  else if toHost then
    finish (((s.cleanPacked a 0 (2 ^ 25)).mapMs fun ms => ms.cleanRange a (2 ^ 25)).mapMs fun ms => { ms with hostPages := (a >>> 25) :: ms.hostPages }) 0
  else finish (s.mapMs fun ms => { ms with hostPages := ms.hostPages.filter (· ≠ a >>> 25) }) 0

/-- A task not of the privileged context is bound or staged on a core of the die (R292, R385). -/
def Sched.dieBusy (c : Sched) (d : Nat) : Bool :=
  let plain (r : BitVec 256) : Bool := bindValid r && ! ((keyOf (bindTid r)).vdev = 0 && (keyOf (bindTid r)).graph = 0xFFFF)
  c.slots.any fun x => dieOf x.1 = d && (plain x.2.run || plain x.2.stg)

/-- Changes the registers of a die's LLC. -/
def State.mapLlc (s : State) (d : Nat) (f : LlcDie → LlcDie) : State :=
  s.mapMs fun ms => match ms.llc[d]? with
    | some x => { ms with llc := ms.llc.setIfInBounds d (f x) }
    | none => ms

/-- A write of LLCCFG (R292): a change of HINT waits for the accesses in flight, or is ignored. -/
def State.writeLlccfg (s : State) (d : Nat) (v : Word) : State :=
  s.mapLlc d fun x =>
    if x.cfg.getLsbD 0 = v.getLsbD 0 ∨ x.cfg.getLsbD 1 ∨ s.sched.dieBusy d then x else { x with cfg := x.cfg ||| 2 }

/-- The change of HINT takes effect (R292). -/
def State.llcModeDone (s : State) (d : Nat) : State :=
  s.mapLlc d fun x => if x.cfg.getLsbD 1 then { x with cfg := (x.cfg ^^^ 1) &&& 1 } else x

/-- A write of QCTL (R351): LD stays while a link is down. -/
def State.writeQctl (s : State) (v : Word) : State :=
  s.mapMs fun ms =>
    let up : Bool := ms.linkUp.toList.all id
    let q := clearOnOne (putMask ms.qctl v 0xFFFF) v 62
    if up ∧ v.getLsbD 63 then { ms with qctl := clearOnOne q v 63, lost := Vector.replicate 2 false } else { ms with qctl := q }

/-- A register of the PF's windows by its offset (R407). -/
inductive WindowReg where
  | doorbell (o : Nat)
  | owncmd | qbase | qctl | bbcnt | env | mstate
  | llccfg (d : Nat) | llcsrc (d : Nat) | llcpart (d p : Nat)
  | pklast (s : Nat) | pkcmd (s : Nat)
  | ring (i : Nat) (high : Bool)
  | nothing

/-- The register at an offset of the PF's BAR0 (R407). -/
def windowReg (o : Nat) : WindowReg :=
  if o % 8 ≠ 0 then .nothing
  else if o < 0x1000 then .doorbell o
  else if 0x10000 ≤ o ∧ o < 0x20000 then .ring ((o - 0x10000) / 16) (o % 16 = 8)
  else if o = 0x100000 then .owncmd
  else if o = 0x100008 then .qbase
  else if o = 0x100010 then .qctl
  else if o = 0x100018 then .bbcnt
  else if o = 0x100020 then .env
  else if o = 0x100028 then .mstate
  else if 0x200000 ≤ o ∧ o < 0x600000 then
    let d := (o - 0x200000) / 0x100000
    let x := o % 0x100000
    if x = 0 then .llccfg d else if x = 8 then .llcsrc d
    else if 0x100 ≤ x ∧ x < 0x300 then .llcpart d ((x - 0x100) / 8) else .nothing
  else if 0x800000 ≤ o ∧ o < 0x880000 then
    let n := (o - 0x800000) / 0x10000
    if o % 0x10000 = 0 then .pklast n else if o % 0x10000 = 8 then .pkcmd n else .nothing
  else .nothing

/-- The event in entry i of the black-box ring (R427). -/
def Io.ringEntry (io : Io) (i : Nat) : BitVec 128 :=
  let n := io.bbcnt.toNat
  if i < n then (io.ring[(n - 1 - i) % 4096]?).getD 0 else 0

/-- A register of the windows as it reads (R407). -/
def State.windowRead (s : State) (o : Nat) : Word :=
  let llc (d : Nat) : LlcDie := (s.ms.llc[d]?).getD LlcDie.reset
  match windowReg o with
  | .doorbell o => s.io.doorbellRead 0 o
  | .owncmd => s.ms.owncmd
  | .qbase => s.ms.qbase
  | .qctl => s.ms.qctl
  | .bbcnt => s.io.bbcnt
  | .env => s.io.env
  | .mstate => s.io.mstate
  | .llccfg d => (llc d).cfg
  | .llcsrc d => (llc d).src
  | .llcpart d p => ((llc d).part[p]?).getD 0
  | .pklast n => (s.ms.pklast[n]?).getD 0
  | .pkcmd n => (s.ms.pkcmd[n]?).getD 0
  | .ring i high => BitVec.ofNat 64 ((s.io.ringEntry i).toNat >>> (if high then 64 else 0))
  | .nothing => 0

/-- A write of a window register that has no row of its own (R407). -/
def State.windowWriteOther (s : State) (o : Nat) (v : Word) : State :=
  match windowReg o with
  | .doorbell o => if o = 0 then s else s.doorbellWrite 0 o v
  | .qbase => s.mapMs fun ms => { ms with qbase := v &&& 0x3FFFFFFFFFF800 }
  | .qctl => s.writeQctl v
  | .llcsrc d => s.mapLlc d fun x => { x with src := v &&& 0x3F3F }
  | .llcpart d p => s.mapLlc d fun x => { x with part := x.part.setIfInBounds p (v &&& 0xFFFFFFFFFFFF) }
  | .pklast n => s.writePklast n v
  | _ => s

/-- A write of any register of the PF's windows (R407). -/
def State.windowWrite (s : State) (o : Nat) (v : Word) : State :=
  match windowReg o with
  | .doorbell o => s.doorbellWrite 0 o v
  | .owncmd => s.writeOwncmd v
  | .llccfg d => s.writeLlccfg d v
  | .pkcmd n => s.writePkcmd n v
  | _ => s.windowWriteOther o v

/-- The ordered doorbell page of a CXL port (R346, R408), by the number of its page. -/
def orderedPage (p : BitVec 1) : Nat := 385 + p.toNat

/-- A 64-bit word at an offset of the PF's vendor-specific capability: at 0x08 lies a copy of MSTATE (R426). -/
def State.vendorWord (s : State) (o : Nat) : Word := if o = 8 then s.io.mstate else 0

/-- A 64-bit word at an offset of the PF's AER capability: the uncorrectable error status lies at 0x04, and its bit 22 is an
uncorrectable internal error (R425; PRESUMED from PCI Express, log 41). -/
def State.aerWord (s : State) (o : Nat) : Word := if o = 0 then BitVec.ofNat 64 (s.io.aer.toNat <<< 54) else 0

/-- The 64-bit word at an offset of a function's BAR0 (R407). -/
def State.barRead (s : State) (fn o : Nat) : Word :=
  if fn = 0 then s.windowRead o else if fn ≤ 384 ∧ o < 0x1000 then s.io.doorbellRead fn o else 0

/-- A write of n bytes at an offset of a function's BAR0: registers are written whole (R407). -/
def State.barWrite (s : State) (fn o n : Nat) (v : Word) : State :=
  if n ≠ 8 ∨ o % 8 ≠ 0 then s
  else if fn = 0 then s.windowWrite o v else if fn ≤ 384 ∧ o < 0x1000 then s.doorbellWrite fn o v else s

/-- The DPA of a host physical byte address by one decoder of port p (R414): with two ways, blocks of the granularity go to the ports
in turn, port 0 first, and each port's blocks lie together (log 22). -/
def hdmDecode (x : HdmDecoder) (p h n : Nat) : Option Nat :=
  let o := h - x.base
  if x.committed = false ∨ h < x.base ∨ x.size < o + n then none
  else if x.ways = 2 then
    if o / x.granularity % 2 = p ∧ o % x.granularity + n ≤ x.granularity
    then some (x.dpa + o / (2 * x.granularity) * x.granularity + o % x.granularity) else none
  else some (x.dpa + o)

/-- Where a CXL.mem access of n bytes at host physical byte address h reaches the device: the port's link is up, and a committed
decoder of the port decodes it (R414). -/
def State.cxlReaches (s : State) (p : BitVec 1) (h n : Nat) : Option Nat :=
  if (s.ms.linkUp[p.toNat]?).getD false then (s.ms.decoders p.toNat).findSome? fun x => hdmDecode x p.toNat h n else none

/-- n bytes at byte b of a space that is read by 64-bit words. -/
def readWords (word : Nat → Word) (b n : Nat) : Nat :=
  let words := (List.range (n / 8 + 2)).map fun i => (word (8 * (b / 8 + i))).toNat
  (joinSlices 64 words >>> (8 * (b % 8))) % 2 ^ (8 * n)

/-- A path of the PCIe configuration space, which alone answers in BOOTFAIL (R423). -/
def configPath : HostPath → Bool
  | .vendorCapability => true
  | .aerCapability => true
  | _ => false

/-- HOST_READ (R18, R304, R346, R407, R408, R414, R426): in BOOTFAIL the configuration space alone answers (R423). -/
def State.hostRead (s : State) (p : HostPath) (b n : Nat) : State :=
  if s.io.bootFail ∧ ¬ configPath p then s.answer .none 0 else
  match p with
  | .bar2 => s.hostLoad p b n
  | .cxlMem q =>
    match s.cxlReaches q b n with
    | some d => s.hostLoad p d n
    | none => s.answer .none 0
  | .bar0 fn => s.answer .ok (readWords (s.barRead fn) b n)
  | .cxlIo q => s.answer .ok (readWords (s.io.doorbellRead (orderedPage q)) b n)
  | .vendorCapability => s.answer .ok (readWords s.vendorWord b n)
  | .aerCapability => s.answer .ok (readWords s.aerWord b n)

def execHostRead (p : HostPath) (b n : Nat) (s : State) : Result := .next (s.hostRead p b n)

/-- HOST_WRITE (R18, R304, R345, R346, R347, R407, R414, R426). -/
def State.hostWrite (s : State) (p : HostPath) (b n v : Nat) : State :=
  if s.io.bootFail ∧ ¬ configPath p then s.answer .none 0 else
  match p with
  | .bar2 => s.hostStore p b n v
  | .cxlMem q =>
    match s.cxlReaches q b n with
    | some d => s.hostStore p d n v
    | none => s.answer .none 0
  | .bar0 fn => (s.barWrite fn b n (BitVec.ofNat 64 v)).answer .ok 0
  | .cxlIo q =>
    (if n = 8 ∧ b % 8 = 0 ∧ b < 0x1000 then s.doorbellWrite (orderedPage q) b (BitVec.ofNat 64 v) else s).answer .ok 0
  | .vendorCapability => s.answer .ok 0
  | .aerCapability =>
    (if b = 4 ∧ v.testBit 22 then s.mapIo fun io => { io with aer := false } else s).answer .ok 0

def execHostWrite (p : HostPath) (b n : Nat) (v : Nat) (s : State) : Result := .next (s.hostWrite p b n v)

/-- PKCMD_GO, OWNCMD_GO, LLCCFG_WRITE and REGISTER_WINDOW_WRITE: privileged writes of the windows' registers. -/
def execPkcmdGo (n : BitVec 3) (v : Word) (s : State) : Result := .next (s.writePkcmd n.toNat v)
def execPkcmdRepackDone (n : BitVec 3) (s : State) : Result := .next (s.repackDone n.toNat)
def execOwncmdGo (v : Word) (s : State) : Result := .next (s.writeOwncmd v)
def execOwncmdFlipDone (s : State) : Result := .next s.flipDone
def execLlccfgWrite (d : BitVec 2) (v : Word) (s : State) : Result := .next (s.writeLlccfg d.toNat v)
def execLlcModeChangeDone (d : BitVec 2) (s : State) : Result := .next (s.llcModeDone d.toNat)
def execRegisterWindowWrite (o : Nat) (v : Word) (s : State) : Result := .next (s.windowWriteOther o v)

/-- What the home of an address range holds: the dirty bytes' home values in place of the coherent ones (R291). -/
def MemSys.homeBits (ms : MemSys) (a w : Nat) : Nat :=
  let base := a / 8
  let v := ms.dirty.foldr (fun d v =>
    if base ≤ d.addr ∧ d.addr < base + spanBytes a w then putBits v (8 * (d.addr - base) + 7) (8 * (d.addr - base)) d.home.toNat else v)
    (ms.mem.read base (spanBytes a w))
  (v >>> (a % 8)) % 2 ^ w

/-- The physical sectors whose bits an access at a die needs (R283, R288): those of its range, or, to a packed page, those that hold
its bits. -/
def State.dieSectors (s : State) (r : DieAccess) (wr : Bool) : List Nat :=
  if r.packed then distinct (s.ms.packedSectors (frameOf r.addr) (pageOff r.addr) r.width wr)
  else (List.range ((r.addr + r.width - 1) / 1024 + 1 - r.addr / 1024)).map (r.addr / 1024 + ·)

/-- What ECC and the tag find in one of those sectors, a free choice among them (R288): a corrected error is recorded; an
uncorrectable one poisons the sector and is recorded. -/
def State.checkSector (s : State) (r : DieAccess) (wr : Bool) : State :=
  let xs := s.dieSectors r wr
  let x := xs.getD (s.drawNat 8 0 % max 1 xs.length) 0
  match r.ecc with
  | .clean => s
  | .corrected => s.event 4 (memoryDie (1024 * x)) 0 (sectorData (1024 * x))
  | .uncorrectable =>
    (s.event 5 (memoryDie (1024 * x)) 0 (sectorData (1024 * x))).mapMs fun ms =>
      { ms with poison := if ms.poison.contains x then ms.poison else x :: ms.poison }

/-- An access that arrives at a base die or at a controller of the second tier, up to what it does there (R282, R288, R304). -/
def State.dieAccess (s : State) (r : DieAccess) (wr : Bool) (f : State → State) : Result :=
  if hostHomed r.addr ∨ ¬ populated r.addr ∨ ¬ populated (r.addr + r.width - 1) then .fault .noSuchAddress else
  let s := s.checkSector r wr
  .next <|
    if r.packed then
      if stackOf r.addr = none ∨ 2 ^ 25 < pageOff r.addr + r.width then s.answer (.trap .page) 0
      else if s.packedInHeap r.addr r.width wr then s.answer (.trap .perm) 0
      else if (s.ms.readPacked (frameOf r.addr) (pageOff r.addr) r.width).isNone ∨ s.packedPoisoned r.addr r.width wr
      then s.answer (.trap .page) 0
      else f s
    else if s.inHeap r.addr r.width then s.answer (.trap .perm) 0
    else if s.poisoned r.addr r.width wr then s.answer (.trap .page) 0
    else f s

/-- What the home of a packed range holds: after a raw write to its frame, free bits (R282). -/
def State.homePacked (s : State) (f o w : Nat) : Nat :=
  if s.ms.tainted.contains (f >>> 25) then Config.freeBits (s.fresh <<< 64 + f + o) % 2 ^ w else (s.ms.readPacked f o w).getD 0

/-- BASE_DIE_READ (R283, R288, R295). -/
def execBaseDieRead (r : DieAccess) (s : State) : Result :=
  s.dieAccess r false fun s => s.answer .ok <|
    if r.packed then s.homePacked (frameOf r.addr) (pageOff r.addr) r.width else s.ms.homeBits r.addr r.width

/-- BASE_DIE_WRITE (R22, R283, R288, R295). -/
def execBaseDieWrite (r : DieAccess) (v : Nat) (s : State) : Result :=
  s.dieAccess r true fun s =>
    (s.store none [if r.packed then .packed (frameOf r.addr) (pageOff r.addr) r.width else .phys r.addr r.width] r.width v).answer .ok 0

/-- The doorbell page of a hart (R416): its byte address. -/
def hartPage : Nat := 0x800000000000

/-- An application core's access to memory (R304, R351, R416): what stops it, or what it does. -/
def State.hartMemory (s : State) (addr bytes : Nat) (wr : Bool) (f : State → Nat → Nat → State) : Result :=
  let a := 8 * addr
  let w := 8 * bytes
  if ¬ populated a ∨ ¬ populated (a + w - 1) then .fault .noSuchAddress else
  .next <|
    if s.inHeap a w then s.answer (.trap .perm) 0
    else if s.linkDown a w then s.answer (.trap .linkdown) 0
    else if s.poisoned a w wr then s.answer (.trap .page) 0
    else f s a w

/-- An access lies in the hart's doorbell page (R416). -/
def onHartPage (addr : Nat) : Bool := hartPage ≤ addr && addr < hartPage + 0x1000

/-- The result of an atomic memory operation on a word of w bits (R416). -/
def amoResult (op : AmoOp) (w old v : Nat) : Nat :=
  match op with
  | .swap => v
  | .add => old + v
  | .xor => old ^^^ v
  | .and => old &&& v
  | .or => old ||| v
  | .min => if toInt w old ≤ toInt w v then old else v
  | .max => if toInt w old ≤ toInt w v then v else old
  | .minu => if old ≤ v % 2 ^ w then old else v
  | .maxu => if old ≤ v % 2 ^ w then v else old

/-- Application core h. -/
def Io.hart (io : Io) (h : Nat) : Hart := (io.harts[h]?).getD Hart.held

def State.mapHart (s : State) (h : Nat) (f : Hart → Hart) : State :=
  s.mapIo fun io => { io with harts := io.harts.setIfInBounds h (f (io.hart h)) }

/-- The LLC of an application core's writes, or atomics: its die's, by LLCSRC.APID (R293). -/
def State.hartKeep (s : State) (h : Nat) (atomic : Bool) : Keep where
  die := h / 4
  allocates := s.allocates (h / 4) (bits ((s.ms.llc[h / 4]?).getD LlcDie.reset).src.toNat 5 0) atomic

/-- A write of an application core, an atomic one or not: it ends the reservations that the others hold on its bytes (R416). -/
def State.hartWrite (s : State) (h addr bytes value : Nat) (atomic : Bool) : State :=
  (s.mapIo fun io => { io with harts := io.harts.map fun x =>
    if (x.reserved.any fun r => overlaps addr bytes r.1 r.2.1) then { x with reserved := none } else x }).store
      (some (s.hartKeep h atomic)) [.phys (8 * addr) (8 * bytes)] (8 * bytes) value

/-- An atomic of an application core on an aligned word of 32 or 64 bits in device memory (R416). -/
def State.hartAtomic (s : State) (addr bytes : Nat) (wr : Bool) (f : State → Nat → State) : Result :=
  if onHartPage addr ∨ (bytes ≠ 4 ∧ bytes ≠ 8) ∨ addr % bytes ≠ 0 then .next (s.answer (.trap .addr) 0)
  else s.hartMemory addr bytes wr fun s a w => f s (s.ms.mem.readBits a w)

/-- A store-conditional finds its reservation: for these bytes, with none of them written since. It may fail all the same, a free
choice. -/
def State.hartReserved (s : State) (h addr bytes : Nat) : Bool :=
  ((s.io.hart h).reserved.any fun r => r.1 = addr && r.2.1 = bytes &&
    s.ms.past.all fun p => p.stamp ≤ r.2.2 || ! overlaps p.addr 1 addr bytes) && s.drawBool 7 9

/-- APPLICATION_CORE_ACCESS (R416). Every write of the model is performed for every agent when it is made, so that a FENCE, an acquire
and a release have nothing left to wait for (log 3). An atomic is answered with the old value, a store-conditional with 0 where it
succeeds and 1 where it fails. -/
def State.hartAccess (s : State) (h : Nat) (x : HartAccess) : Result :=
  let page := Config.hartVdev h
  match x with
  | .load addr bytes =>
    if onHartPage addr then .next (s.answer .ok (readWords (s.io.doorbellRead page) (addr - hartPage) bytes))
    else s.hartMemory addr bytes false fun s a w => s.answer .ok (s.ms.mem.readBits a w)
  | .store addr bytes value =>
    if onHartPage addr then
      .next ((if bytes = 8 ∧ addr % 8 = 0 then s.doorbellWrite page (addr - hartPage) (BitVec.ofNat 64 value) else s).answer .ok 0)
    else s.hartMemory addr bytes true fun s _ _ => (s.hartWrite h addr bytes value false).answer .ok 0
  | .amo op addr bytes value _ _ =>
    s.hartAtomic addr bytes false fun s m => (s.hartWrite h addr bytes (amoResult op (8 * bytes) m value) true).answer .ok m
  | .loadReserved addr bytes _ _ =>
    s.hartAtomic addr bytes false fun s m =>
      (s.mapHart h fun x => { x with reserved := some (addr, bytes, s.ms.stamp) }).answer .ok m
  | .storeConditional addr bytes value _ _ =>
    s.hartAtomic addr bytes true fun s _ =>
      let won := s.hartReserved h addr bytes
      let s := s.mapHart h fun x => { x with reserved := none }
      (if won then s.hartWrite h addr bytes value true else s).answer .ok (if won then 0 else 1)
  | .fence => .next (s.answer .ok 0)

/-- An application core that has been released moves, unless a fatal error stopped it (R425, R428). -/
def execApplicationCoreAccess (h : BitVec 4) (a : HartAccess) (s : State) : Result :=
  if s.halted ∨ (s.io.hart h.toNat).released = false then .next s else s.hartAccess h.toNat a

/-- HDM_DECODER_COMMIT (R414): it fails for a reach beyond the mapped space, or an interleave that the ports do not have. In
BOOTFAIL the decoders do not answer (R423). -/
def State.commitHdm (s : State) (p i : Nat) (d : HdmDecoder) : State :=
  if s.io.bootFail then s.answer .none 0 else
  let good : Bool := (d.ways = 1 || d.ways = 2) && (List.range 7).any (fun j => d.granularity = 256 <<< j) &&
    d.dpa + (d.size + d.ways - 1) / d.ways ≤ dpaEnd
  if good ∨ d.committed = false then
    (s.mapMs fun ms => { ms with hdm := ms.hdm.setIfInBounds (4 * p + i) d }).answer .ok 0
  else s.answer .dropped 0

def execHdmDecoderCommit (p : BitVec 1) (i : BitVec 2) (d : HdmDecoder) (s : State) : Result := .next (s.commitHdm p.toNat i.toNat d)

end Sys2Proof.Machine
end

