-- ==== Sys2Proof/Machine/Module.lean ====
section
/-! DEFINITION. The module (R289, R290, R351, R407, R423-R428): refresh, links, fatal errors, function level reset, cold and warm
reset, and the measurements. -/

namespace Sys2Proof.Machine

/-- Refreshes postponed for a bank (R290). -/
def MemSys.owed (ms : MemSys) (n k : Nat) : Nat :=
  match ms.postponed.find? fun x => x.1 = n ∧ x.2.1 = k with
  | some x => x.2.2
  | none => 0

def MemSys.setOwed (ms : MemSys) (n k c : Nat) : MemSys :=
  let others := ms.postponed.filter fun x => ¬ (x.1 = n ∧ x.2.1 = k)
  { ms with postponed := if c = 0 then others else (n, k, c) :: others }

/-- REFRESH (R290): a refresh that falls due is postponed, up to the limit, or issued with a free number of the owed ones. -/
def execRefresh (n : BitVec 3) (k : Nat) (s : State) : Result :=
  let owed := s.ms.owed n.toNat k
  .next <| s.mapMs fun ms => ms.setOwed n.toNat k
    (if owed < Config.postponeLimit ∧ s.drawBool 7 0 then owed + 1 else owed - s.drawNat 7 5 % (owed + 1))

/-- ALERT_BACKOFF (R290): where the limit is reached, the owed refreshes are issued before the refresh management command. -/
def execAlertBackoff (n : BitVec 3) (k : Nat) (s : State) : Result :=
  .next <| s.mapMs fun ms => if Config.postponeLimit ≤ ms.owed n.toNat k then ms.setOwed n.toNat k 0 else ms

/-- A FATAL MODULE ERROR (R425): MSTATE.FATAL, its event, the AER report and vector 4. -/
def State.fatalError (s : State) (die : Nat) : State :=
  if s.halted then s else
  ((s.mapIo fun io => { io with mstate := io.mstate ||| 0x20, aer := true }).event 11 die 0 0).raise 0 4

/-- LINK_AUTH_FAILURE (R289): the flit group is sent again. Whether one was good since the last failure is a free choice. The
third failure in a row is fatal. -/
def execLinkAuthFailure (l : BitVec 5) (s : State) : Result :=
  let n := if s.drawBool 7 1 then (s.ms.authFails[l.toNat]?).getD 0 + 1 else 1
  let s := s.mapMs fun ms => { ms with authFails := ms.authFails.setIfInBounds l.toNat n }
  let s := s.event 6 (l.toNat / 8) (l.toNat % 8) (l.toNat + 3 <<< 8)
  .next (if 3 ≤ n then s.fatalError (l.toNat / 8) else s)

/-- The die of a fatal error: the management core and the slot table lie on the I/O die (R367, R427). -/
def fatalDie : FatalSource → Nat
  | .thermal d => d
  | .managementCore => 4
  | .slotTable => 4

/-- THERMAL_TRIP (R424, R425), and the other errors that are fatal at once (log 41). -/
def execThermalTrip (x : FatalSource) (s : State) : Result := .next (s.fatalError (fatalDie x))

/-- A host line lies behind port p (R415): its 4 KiB block's port, or the trained one where the other is down. -/
def MemSys.behind (ms : MemSys) (p a : Nat) : Bool :=
  hostHomed a && (hostParity a = p || ! (ms.linkUp[1 - p]?).getD true)

/-- Moves a dirty line into the next free quarantine slot, or loses it where none is left (R351). -/
def State.quarantine (s : State) (line : Nat) : State :=
  let q := s.ms.qctl
  let n := bits q.toNat 31 16
  let slot := bits s.ms.qbase.toNat 53 11 <<< 11 + 2048 * n
  let v := s.ms.mem.readBits (1024 * line) 1024
  let s :=
    if n < bits q.toNat 15 0 then
      let image := v + (2 ^ 63 + sectorData (1024 * line)) <<< 1024
      let s := if populated slot ∧ ! hostHomed slot then s.mapMs fun ms => ms.writeBits none slot 2048 image else s
      s.mapMs fun ms => { ms with qctl := BitVec.ofNat 64 (putBits q.toNat 31 16 (n + 1)) }
    else s.mapMs fun ms => { ms with qctl := q ||| (1#64 <<< 62) }
  s.mapMs fun ms => ms.dropLine none line

/-- Puts x before the first element whose key is not below its own. -/
def insertByKey (key : Nat → Nat) (x : Nat) : List Nat → List Nat
  | [] => [x]
  | y :: ys => if key x ≤ key y then x :: y :: ys else y :: insertByKey key x ys

/-- The order in which the LLCs take the dirty lines is a free choice. -/
def State.freeOrder (s : State) (xs : List Nat) : List Nat := xs.foldr (insertByKey (s.drawNat 8)) []

/-- CXL_LINK_LOSS (R351). -/
def State.linkLoss (s : State) (p : Nat) : State :=
  if (s.ms.linkUp[p]?).getD false = false then s else
  let lines := distinct ((s.ms.dirty.map fun d => lineOf (8 * d.addr)).filter fun l => s.ms.behind p (1024 * l))
  let alone := ! (s.ms.linkUp[1 - p]?).getD true
  let s := (s.freeOrder lines).foldl State.quarantine s
  let s := s.mapMs fun ms => { ms with
    qctl := ms.qctl ||| (1#64 <<< 63)
    linkUp := ms.linkUp.setIfInBounds p false
    lost := if alone then Vector.replicate 2 true else ms.lost.setIfInBounds p true }
  (s.event 6 4 p (p + 1 <<< 8)).raise 0 3

def execCxlLinkLoss (p : BitVec 1) (s : State) : Result := .next (s.linkLoss p.toNat)

/-- CXL_LINK_UP (R351). -/
def execCxlLinkUp (p : BitVec 1) (s : State) : Result :=
  .next <|
    if (s.ms.linkUp[p.toNat]?).getD true then s else
    (s.mapMs fun ms => { ms with linkUp := ms.linkUp.setIfInBounds p.toNat true }).event 6 4 p.toNat (p.toNat + 2 <<< 8)

/-- FUNCTION_LEVEL_RESET (R407) of virtual function n. -/
def State.functionReset (s : State) (n : Nat) : State :=
  if n = 0 ∨ 384 < n then s else
  let gids := (s.sched.graphs.filter fun g => g.live && g.vdev = n).map Graph.gid
  let s := gids.foldl (fun s g => s.abortGraph n g 0 [0, 0, 0, 0, 0, 0, 0, 0]) s
  let s := (s.sched.contracts.filter fun c => c.vdev = n).foldl State.withdrawContract s
  let mine := (List.range 64).filter fun r => regSt (s.ver.region r) ≠ 0 && regAsid (s.ver.region r) = s.sched.asid n
  let s := mine.foldl (fun s r => (s.closeRegion r).1) s
  let s := ((s.io.encStreams.filter fun x => x.vdev = n).map EncStream.number).foldl State.closeStream s
  s.mapIo fun io => { io with exposed := io.exposed.filter fun x => x.vdev ≠ n }

def execFunctionLevelReset (n : Nat) (s : State) : Result := .next (s.functionReset n)

/-- Why the boot ROM rejects an image (R423, R426); 0 if it does not. -/
def Image.berr (x : Image) : Nat :=
  if x.present = false then 3 else if x.signed = false then 1 else if x.version < x.rollback then 2 else 0

/-- The verification of the images, in order: the first reason (R423). -/
def bootReason (xs : List Image) : Nat := ((xs.map Image.berr).find? (· ≠ 0)).getD 0

/-- The application cores after bring-up (R428): released at the boot image's entry, unless an image or memory check failed. -/
def bootHarts (reason : Nat) : Vector Hart 16 := Vector.replicate 16 (if reason = 0 then Hart.atEntry else Hart.held)

/-- MSTATE after bring-up: step 8, or BOOTFAIL with its reason and the last step completed (R426, R428). -/
def bootState (reason last : Nat) : Word := if reason = 0 then 8 else BitVec.ofNat 64 (reason <<< 8 + 16 + last)

/-- What a reset leaves of the interplay of the model's own fields: the agents' order, the free values' counter and the write
number go on. -/
def State.freshStart (s : State) (ms : MemSys) (io : Io) : State :=
  { State.reset with ms := { ms with stamp := s.ms.stamp }, io := io, agenda := s.agenda, turn := s.turn, fresh := s.fresh }

/-- COLD_RESET (R287, R423, R428): memory zero with valid tags, new keys, and the bring-up steps. Host memory stays as the host
holds it. -/
def State.coldReset (s : State) : State :=
  let host := (s.ms.dirty.foldl (fun m d => m.write d.addr 1 d.home.toNat) s.ms.mem).filter fun c => hostHomed (8 * c.1)
  let reason := if s.io.trains then bootReason s.io.images else 4
  (s.freshStart { MemSys.reset with mem := host, keyGen := s.ms.keyGen + 1 }
    { Io.reset with images := s.io.images, trains := s.io.trains, harts := bootHarts reason
                    mstate := bootState reason (if s.io.trains then 3 else 1) }).event 12 4 0 0

def execColdReset (s : State) : Result := .next s.coldReset

/-- WARM_RESET (R428): memory contents, memory keys and the black box are kept, and bring-up starts at step 4. -/
def State.warmReset (s : State) : State :=
  (s.freshStart { MemSys.reset with mem := s.ms.mem, cached := s.ms.cached, tainted := s.ms.tainted, poison := s.ms.poison
                                    postponed := s.ms.postponed, keyGen := s.ms.keyGen }
    { Io.reset with images := s.io.images, trains := s.io.trains, bbcnt := s.io.bbcnt, ring := s.io.ring
                    harts := bootHarts (bootReason s.io.images), mstate := bootState (bootReason s.io.images) 3 }).event 12 4 0 0

def execWarmReset (s : State) : Result := .next s.warmReset

/-- SPDM_GET_MEASUREMENTS (R423): a SHA-512 digest for each of the three images, the fuses and the mode table, whose value is free
(log 18). In BOOTFAIL nothing is answered. -/
def execSpdmGetMeasurements (i : Nat) (s : State) : Result :=
  .next (if s.io.bootFail ∨ 5 ≤ i then s.answer .none 0 else s.answer .ok (Config.freeBits (2 ^ 70 + i) % 2 ^ 512))

/-- What still happens after a fatal module error (R425): the host's accesses, the links, memory upkeep and resets. Every core,
engine and encoder has stopped, the management core with Mason among them. -/
def outlivesFatal : Instr → Bool
  | .hostRead _ _ _ | .hostWrite _ _ _ _ | .spdmGetMeasurements _ | .baseDieRead _ | .baseDieWrite _ _ | .refresh _ _
  | .alertBackoff _ _ | .linkAuthFailure _ | .cxlLinkLoss _ | .cxlLinkUp _ | .thermalTrip _ | .coldReset | .warmReset
  | .hdmDecoderCommit _ _ _ | .orderedDoorbellWrite _ _ _ => true
  | _ => false

end Sys2Proof.Machine
end

