-- ==== Sys2Proof/Machine/VecFloat.lean ====
section
/-! DEFINITION. Vector floating point, conversions and the fused block convert (R171, R177, R182, R183, R197-R202). -/

namespace Sys2Proof.Machine

/-- Runs a vector floating operation in the format of cw and FFMT; a pairing that R171 rejects is ILLOP. -/
def State.withFmt (s : State) (f : Fmt → State) : State :=
  match vtFmt s.vt with
  | some x => f x
  | none => s.illop

/-- A binary or fused operation (R197). -/
def State.vecF (s : State) (len : Nat) (d a : BitVec 5) (b : VSrc) (k : BitVec 3) (op : Fmt → Nat → Nat → Nat → FOut) : State :=
  s.withFmt fun f => s.vecSame len d a b k fun x y z => (op f x y z).out

/-- A unary operation (R198). -/
def State.vecF1 (s : State) (d a : BitVec 5) (k : BitVec 3) (op : Fmt → Nat → FOut) : State :=
  s.withFmt fun f => s.vecSame 32 d a (.imm 0) k fun x _ _ => (op f x).out

/-- A special function, for f32, f16 and bf16 only (R182, R198). -/
def State.vecSpecial (s : State) (d a : BitVec 5) (k : BitVec 3) (op : Fmt → Nat → FOut) : State :=
  s.withFmt fun f => if f = .f32 ∨ f = .f16 ∨ f = .bf16 then s.vecF1 d a k op else s.illop

/-- VFCMP (R199): the condition and the mask register. -/
def State.vecFcmp (s : State) (d : BitVec 3) (a : BitVec 5) (b : VSrc) (k : BitVec 3) (c : BitVec 2) : State :=
  s.withFmt fun f =>
    let g := s.grp
    let w := s.cw
    if ¬ (groupOk a g ∧ b.ok g) then s.illop else
    let x := s.group a.toNat g
    let y := s.source b g w
    s.maskOp 32 d k fun i =>
      let r := fCmp f c.toNat (elem x w i) (y i)
      { val := r.1.toNat, flags := r.2 }

/-- The float format of twice a width (R200). -/
def wideFmt (w : Nat) : Fmt := if w = 8 then .f16 else if w = 16 then .f32 else .f64

/-- The other format of the same width (R200). -/
def otherFmt : Fmt → Option Fmt
  | .f16 => some .bf16
  | .bf16 => some .f16
  | .e5m2 => some .e4m3
  | .e4m3 => some .e5m2
  | _ => none

/-- VFCVT (R200, R201). -/
def State.vecCvt (s : State) (d a : BitVec 5) (k : BitVec 3) (c : Nat) : State :=
  let w := s.cw
  let m := s.frm
  let same (op : Nat → FOut) : State := s.vecSame 32 d a (.imm 0) k fun x _ _ => (op x).out
  let wide (op : Nat → FOut) : State := s.vecWide d a (.imm 0) k fun x _ _ => (op x).out
  let narrow (op : Nat → FOut) : State := s.vecNarrow d a (.imm 0) k fun x _ => (op x).out
  s.withFmt fun f =>
    match c with
    | 0x00 => wide (fCvt f (wideFmt w) m)
    | 0x01 => if w = 8 then wide (fCvt f .bf16 m) else s.illop
    | 0x02 => narrow (fCvt (wideFmt w) f m)
    | 0x03 => if w = 8 then narrow (fCvt .bf16 f m) else s.illop
    | 0x04 => same (fToInt f m true w)
    | 0x05 => same (fToInt f m false w)
    | 0x06 => same fun x => fOfInt f m (toInt w x)
    | 0x07 => same fun x => fOfInt f m x
    | 0x08 =>
      match otherFmt f with
      | some o => same (fCvt o f m)
      | none => s.illop
    | _ => s.illop

/-- A finite f32 magnitude in units of 2^-149. -/
def magnitude (x : Nat) : Nat :=
  match Fmt.f32.unpack x with
  | .fin _ m e => m <<< (e + 149).toNat
  | _ => 0

/-- The value of a ue5m3 scale code in units of 2^-149 (R169). -/
def scaleUnits (c : Nat) : Nat := if c < 8 then c <<< 131 else (8 + c % 8) <<< (c / 8 + 130)

/-- The e2m1 magnitude code nearest to x / s, ties to even (R177). -/
def e2m1Code (x s : Nat) : Nat :=
  ([1, 3, 5, 7, 10, 14, 20].zipIdx.filter fun (t, j) => t * s < 4 * x || (t * s = 4 * x && j % 2 = 1)).length

/-- Twice the value of an e2m1 magnitude code (R169). -/
def e2m1Twice (c : Nat) : Nat := [0, 1, 2, 3, 4, 6, 8, 12].getD c 0

/-- The fused convert of 32 f32 patterns (R177): the 128 code bits, then the scale at bit 128; with its flags. A negative xj whose
quotient rounds to zero keeps its sign, code 0x8; a block of zeros only has code 0x0 throughout, also for -0 (DESIGN CHOICE, log
48). -/
def blockConvert (xs : List Nat) : Out :=
  let vs := xs.map Fmt.f32.unpack
  let nan : Nat := 0xFF <<< 128
  if vs.any FVal.isNaN then { val := nan, flags := if vs.any FVal.invalid then flNV else 0 }
  else if vs.any FVal.isInf then { val := nan, flags := flNV }
  else
    let ms := xs.map magnitude
    let a := ms.foldl max 0
    if a = 0 then { val := 0 } else
    let tooBig : Bool := 6 * scaleUnits 0xFE < a
    let c := if tooBig then 0xFE else ((List.range 0xFF).find? fun c => 0 < c && a ≤ 6 * scaleUnits c).getD 0xFE
    let s := scaleUnits c
    let codes := ms.map fun m => e2m1Code m s
    let neg := xs.map fun x => bits x 31 31
    let inexact := (ms.zip codes).any fun (m, q) => e2m1Twice q * s ≠ 2 * m
    let under := (ms.zip codes).any fun (m, q) => m ≠ 0 && q = 0
    { val := joinSlices 4 ((codes.zip neg).map fun (q, n) => q + 8 * n) + c <<< 128
      flags := (if tooBig then flOF + flNX else if inexact then flNX else 0) + if under then flUF else 0 }

/-- VFCVT4 (R202): the unit of a trap is the block. -/
def State.vecCvt4 (s : State) (d a b : BitVec 5) : State :=
  let g := s.grp
  if s.cw ≠ 32 ∨ ¬ groupOk a g ∨ groupsMeet d 1 a g ∨ groupsMeet b 1 a g ∨ d = b then s.illop else
  let x := s.group a.toNat g % 2 ^ (32 * s.vl)
  let nb := (s.vl + 31) / 32
  let blocks := ((List.range nb).filter fun j => s.estart / 32 ≤ j).map (32 * ·)
  s.eachElem 32 blocks (fun i => blockConvert ((List.range 32).map fun m => elem x 32 (i + m)))
    (fun s es =>
      (s.putElems d.toNat 1 128 (es.map fun e => (e.1 / 32, e.2 % 2 ^ 128))).putElems b.toNat 1 8
        (es.map fun e => (e.1 / 32, e.2 >>> 128)))
    fun s => ((s.tailPolicy d.toNat 1 128 nb).tailPolicy b.toNat 1 8 nb).setLdr .v d.toNat

def execVfaddVv (d a b : BitVec 5) (k _w : BitVec 3) (s : State) : Result :=
  .next (s.vecF 32 d a (.vv b) k fun f x y _ => fAdd f s.rmode x y)
def execVfaddVs (d a b : BitVec 5) (k _w : BitVec 3) (s : State) : Result :=
  .next (s.vecF 32 d a (.vs b) k fun f x y _ => fAdd f s.rmode x y)
def execVfsubVv (d a b : BitVec 5) (k _w : BitVec 3) (s : State) : Result :=
  .next (s.vecF 32 d a (.vv b) k fun f x y _ => fSub f s.rmode x y)
def execVfsubVs (d a b : BitVec 5) (k _w : BitVec 3) (s : State) : Result :=
  .next (s.vecF 32 d a (.vs b) k fun f x y _ => fSub f s.rmode x y)
def execVfmulVv (d a b : BitVec 5) (k _w : BitVec 3) (s : State) : Result :=
  .next (s.vecF 32 d a (.vv b) k fun f x y _ => fMul f s.rmode x y)
def execVfmulVs (d a b : BitVec 5) (k _w : BitVec 3) (s : State) : Result :=
  .next (s.vecF 32 d a (.vs b) k fun f x y _ => fMul f s.rmode x y)
def execVfdivVv (d a b : BitVec 5) (k _w : BitVec 3) (s : State) : Result :=
  .next (s.vecF 32 d a (.vv b) k fun f x y _ => fDiv f s.rmode x y)
def execVfdivVs (d a b : BitVec 5) (k _w : BitVec 3) (s : State) : Result :=
  .next (s.vecF 32 d a (.vs b) k fun f x y _ => fDiv f s.rmode x y)
def execVfmaVv (d a b : BitVec 5) (k _w : BitVec 3) (s : State) : Result :=
  .next (s.vecF 32 d a (.vv b) k fun f x y z => fFma f s.rmode false x y z)
def execVfmaVs (d a b : BitVec 5) (k _w : BitVec 3) (s : State) : Result :=
  .next (s.vecF 32 d a (.vs b) k fun f x y z => fFma f s.rmode false x y z)
def execVfnmaVv (d a b : BitVec 5) (k _w : BitVec 3) (s : State) : Result :=
  .next (s.vecF 32 d a (.vv b) k fun f x y z => fFma f s.rmode true x y z)
def execVfnmaVs (d a b : BitVec 5) (k _w : BitVec 3) (s : State) : Result :=
  .next (s.vecF 32 d a (.vs b) k fun f x y z => fFma f s.rmode true x y z)
def execVfminVv (d a b : BitVec 5) (k _w : BitVec 3) (s : State) : Result :=
  .next (s.vecF 32 d a (.vv b) k fun f x y _ => fMinMax f false x y)
def execVfminVs (d a b : BitVec 5) (k _w : BitVec 3) (s : State) : Result :=
  .next (s.vecF 32 d a (.vs b) k fun f x y _ => fMinMax f false x y)
def execVfmaxVv (d a b : BitVec 5) (k _w : BitVec 3) (s : State) : Result :=
  .next (s.vecF 32 d a (.vv b) k fun f x y _ => fMinMax f true x y)
def execVfmaxVs (d a b : BitVec 5) (k _w : BitVec 3) (s : State) : Result :=
  .next (s.vecF 32 d a (.vs b) k fun f x y _ => fMinMax f true x y)
def execVfsqrt (d a : BitVec 5) (k _w : BitVec 3) (s : State) : Result :=
  .next (s.vecF1 d a k fun f x => fSqrt f s.rmode x)
def execVfexp2 (d a : BitVec 5) (k _w : BitVec 3) (s : State) : Result := .next (s.vecSpecial d a k fExp2)
def execVflog2 (d a : BitVec 5) (k _w : BitVec 3) (s : State) : Result := .next (s.vecSpecial d a k fLog2)
def execVfrece (d a : BitVec 5) (k _w : BitVec 3) (s : State) : Result := .next (s.vecF1 d a k fRece)
def execVfrsqe (d a : BitVec 5) (k _w : BitVec 3) (s : State) : Result := .next (s.vecF1 d a k fRsqe)
def execVfcvt (d a : BitVec 5) (k _w : BitVec 3) (c : BitVec 5) (s : State) : Result := .next (s.vecCvt d a k c.toNat)
def execVfcvt4 (d a b : BitVec 5) (_w : BitVec 3) (s : State) : Result := .next (s.vecCvt4 d a b)
def execVfcmpVv (d : BitVec 3) (a b : BitVec 5) (k _w : BitVec 3) (c : BitVec 2) (s : State) : Result :=
  .next (s.vecFcmp d a (.vv b) k c)
def execVfcmpVs (d : BitVec 3) (a b : BitVec 5) (k _w : BitVec 3) (c : BitVec 2) (s : State) : Result :=
  .next (s.vecFcmp d a (.vs b) k c)

/-- The compact floating vector forms (R61). -/
def execCVfadd (p : BitVec 5) (s : State) : Result :=
  .next (s.compact .v fun l => s.vecF 16 l l (.vv p) 0 fun f x y _ => fAdd f s.rmode x y)
def execCVfmul (p : BitVec 5) (s : State) : Result :=
  .next (s.compact .v fun l => s.vecF 16 l l (.vv p) 0 fun f x y _ => fMul f s.rmode x y)
def execCVfma (q p : BitVec 5) (s : State) : Result :=
  .next (s.compact .v fun l => s.vecF 16 l p (.vv q) 0 fun f x y z => fFma f s.rmode false x y z)
def execCVfmas (q p : BitVec 5) (s : State) : Result :=
  .next (s.compact .v fun l => s.vecF 16 l p (.vs q) 0 fun f x y z => fFma f s.rmode false x y z)
def execCVfadds (p : BitVec 5) (s : State) : Result :=
  .next (s.compact .v fun l => s.vecF 16 l l (.vs p) 0 fun f x y _ => fAdd f s.rmode x y)

end Sys2Proof.Machine
end

