-- ==== Sys2Proof/Machine/Rearrange.lean ====
section
/-! DEFINITION. Reductions, scans, VSMAX, permutations and mask instructions (R206-R224). Each is performed whole, with
ESTART as 0. -/

namespace Sys2Proof.Machine

/-- A reduction's result: the exact integer or the encoding, and the floating flags. -/
structure Fold where
  val : Int
  flags : Nat := 0

/-- PairTree of R181 over exact integers; every operation used is associative and commutative, and `e` is its identity. -/
def foldInt (op : Int → Int → Int) (e : Int) (xs : List Int) : Fold := { val := xs.foldl op e }

/-- PairTree of R181 over encodings. -/
def foldFloat (op : Nat → Nat → FOut) (e : Nat) (xs : List Nat) : Fold :=
  let r := pairTree op e xs.length xs
  { val := r.bits, flags := r.flags }

/-- The identity of VRMAX and VRMIN (R209). -/
def leastInt (signed : Bool) (w : Nat) : Int := if signed then -(2 ^ (w - 1) : Nat) else 0
def greatestInt (signed : Bool) (w : Nat) : Int := if signed then (2 ^ (w - 1) : Nat) - 1 else (2 ^ w : Nat) - 1

/-- The identity of VRFMAX (R209). -/
def leastFloat (f : Fmt) : Nat := if f.hasInf then f.withSign true f.infinity else f.withSign true f.maxFinite

/-- The segments of 0 .. n-1 that the boundary marks make, in ascending order (R210). -/
def segmentsOf (starts : Nat → Bool) (n : Nat) : List (List Nat) :=
  (List.range n).foldr (fun i acc =>
    match acc with
    | [] => [[i]]
    | g :: gs => if starts (i + 1) && i + 1 < n then [i] :: g :: gs else (i :: g) :: gs) []

/-- The segments of an instruction under boundary mask S; 0 means one segment (R206, R210). -/
def State.segmentsBy (s : State) (sm : BitVec 3) : List (List Nat) :=
  let m := s.k sm.toNat
  segmentsOf (fun i => sm ≠ 0 && m.getLsbD i) s.vl

/-- An enabled flag traps with nothing written; ESTART becomes 0 (R223). -/
def State.wholeTrap (s : State) (flags : Nat) : State :=
  ((s.orFlags flags).setEstart 0).trap ⟨.fpexc, BitVec.ofNat 64 (flags &&& s.ten), 0, 0⟩

/-- An instruction of this chapter with its flags: it traps, or it writes, raises the flags and completes (R207, R223). -/
def State.whole (s : State) (flags : Nat) (write : State → State) : State :=
  if flags &&& s.ten ≠ 0 then s.wholeTrap flags else (((write s).orFlags flags).setEstart 0).retire 32

/-- Writes g[D] with LDR (R59). -/
def State.putG (s : State) (d : BitVec 5) (x : Word) : State := (s.setG d x).setLdr .g d.toNat

/-- A reduction of vA with S as the boundary mask (R208-R210). `fold` reduces the elements of a list. -/
def State.reduce (s : State) (d a : BitVec 5) (k sm : BitVec 3) (fold : List Nat → Fold) : State :=
  let g := s.grp
  let w := s.cw
  if ¬ (groupOk a g ∧ (sm = 0 ∨ groupOk d g)) then s.illop else
  let x := s.group a.toNat g
  let act := s.maskBit k
  let run (seg : List Nat) : Fold := fold ((seg.filter act).map fun i => elem x w i)
  if sm = 0 then
    let r := run (List.range s.vl)
    s.whole r.flags fun s => s.putG d (BitVec.ofInt 64 r.val)
  else
    let rs := (s.segmentsBy sm).map run
    s.whole (rs.foldl (fun f r => f ||| r.flags) 0) fun s =>
      ((s.putElems d.toNat g w (rs.zipIdx.map fun r => (r.2, ofInt w r.1.val))).tailPolicy d.toNat g w rs.length).setLdr
        .v d.toNat

/-- An integer reduction reads its elements with the signedness of MSX (R208). -/
def State.reduceInt (s : State) (d a : BitVec 5) (k sm : BitVec 3) (op : Int → Int → Int) (e : Bool → Nat → Int) : State :=
  let sg := vtMsx s.vt
  s.reduce d a k sm fun xs => foldInt op (e sg s.cw) (xs.map (extInt sg s.cw))

def execVrsum (d a : BitVec 5) (k _w sm : BitVec 3) (s : State) : Result :=
  .next (s.reduceInt d a k sm (· + ·) fun _ _ => 0)
def execVrmax (d a : BitVec 5) (k _w sm : BitVec 3) (s : State) : Result :=
  .next (s.reduceInt d a k sm (fun x y => if x < y then y else x) leastInt)
def execVrmin (d a : BitVec 5) (k _w sm : BitVec 3) (s : State) : Result :=
  .next (s.reduceInt d a k sm (fun x y => if y < x then y else x) greatestInt)
def execVrfsum (d a : BitVec 5) (k _w sm : BitVec 3) (s : State) : Result :=
  .next (s.withFmt fun f => s.reduce d a k sm (foldFloat (fAdd f s.rmode) 0))
def execVrfmax (d a : BitVec 5) (k _w sm : BitVec 3) (s : State) : Result :=
  .next (s.withFmt fun f => s.reduce d a k sm (foldFloat (fMinMax f true) (leastFloat f)))

/-- An entry of a scan: the element of start(i), and the value, none being ABSENT (R211). -/
structure Entry where
  start : Nat
  val : Option Nat

/-- comb of R211. -/
def comb (op : Nat → Nat → FOut) : Option Nat → Option Nat → Option Nat × Nat
  | u, none => (u, 0)
  | none, w => (w, 0)
  | some u, some w => (some (op u w).bits, (op u w).flags)

/-- One level of the scan at distance h (R211). -/
def scanLevel (op : Nat → Nat → FOut) (h : Nat) (xs : List Entry) : List Entry × Nat :=
  let absent : Entry := { start := 0, val := none }
  let before := (List.replicate h absent ++ xs).zip xs
  let ys := before.zipIdx.map fun p =>
    if p.1.2.start + h ≤ p.2 then
      let r := comb op p.1.1.val p.1.2.val
      ({ p.1.2 with val := r.1 }, r.2)
    else (p.1.2, 0)
  (ys.map (·.1), ys.foldl (fun f y => f ||| y.2) 0)

/-- The levels l with 2^l < n, from distance h on; the fuel bounds their number. -/
def scanLevels (op : Nat → Nat → FOut) (n : Nat) : Nat → Nat → List Entry → List Entry × Nat
  | 0, _, xs => (xs, 0)
  | fuel + 1, h, xs =>
    if h < n then
      let (ys, f1) := scanLevel op h xs
      let (zs, f2) := scanLevels op n fuel (2 * h) ys
      (zs, f1 ||| f2)
    else (xs, 0)

/-- A scan (R211). -/
def State.scan (s : State) (d a : BitVec 5) (k sm : BitVec 3) (ex : BitVec 1) (op : Nat → Nat → FOut) : State :=
  let g := s.grp
  let w := s.cw
  if ¬ (groupOk a g ∧ groupOk d g) then s.illop else
  let x := s.group a.toNat g
  let vl := s.vl
  let entries := (s.segmentsBy sm).flatMap fun seg =>
    seg.map fun i => { start := seg.headD 0, val := if s.maskBit k i then some (elem x w i) else none : Entry }
  let (ys, flags) := scanLevels op vl 16 1 entries
  let prev := { start := 0, val := none } :: ys
  let vals := (ys.zip prev).zipIdx.map fun p =>
    let (e, b) := p.1
    (p.2, (if ex = 0 then e.val else if p.2 = e.start then none else b.val).getD 0)
  let act := vals.filter fun p => s.maskBit k p.1
  let off := s.maskedOff k 0
  s.whole flags fun s =>
    (((s.putElems d.toNat g w act).maskPolicy d.toNat g w off).tailPolicy d.toNat g w vl).setLdr .v d.toNat

def execVscan (d a : BitVec 5) (k _w : BitVec 3) (ex : BitVec 1) (sm : BitVec 3) (s : State) : Result :=
  .next (s.scan d a k sm ex fun x y => { bits := (x + y) % 2 ^ s.cw })
def execVfscan (d a : BitVec 5) (k _w : BitVec 3) (ex : BitVec 1) (sm : BitVec 3) (s : State) : Result :=
  .next (s.withFmt fun f => s.scan d a k sm ex (fAdd f s.rmode))

/-- Dif of R213, exact. -/
def softDif (x m : FVal) : FVal :=
  if ! (x.lt m) && ! (m.lt x) && ! x.isNaN && ! m.isNaN then .fin false 0 0 else x.add 0 m.negate

/-- RoundF(2^x, f32, RNE) (R213). -/
def softExp (x : FVal) : FOut :=
  match x with
  | .nan i => Fmt.f32.nanOut i
  | .inf neg => if neg then { bits := 0 } else Fmt.f32.infOut false
  | .fin neg m e =>
    if 0 ≤ e then exp2Round .f32 (signedAt neg m e 0) 0 else exp2Round .f32 (if neg then -(m : Int) else m) (-e).toNat

/-- A strip of softmax: the elements, the new state, the correction and the flags (R213). -/
structure Strip where
  elems : List Nat
  state : Word
  corr : Word
  flags : Nat

/-- The exponential of an element against the new maximum (R213). -/
def stripElem (mnew a : Nat) : FOut :=
  let x := Fmt.f32.unpack a
  if x.isNaN then Fmt.f32.nanOut x.invalid else softExp (softDif x (Fmt.f32.unpack mnew))

/-- The arithmetic of VSMAX on the active elements (R213). -/
def strip (old : Word) (as : List Nat) : Strip :=
  let f := Fmt.f32
  let mold := bits old.toNat 31 0
  let sold := bits old.toNat 63 32
  let mloc := pairTree (fMinMax f true) (leastFloat f) as.length as
  let mnew := fMinMax f true mold mloc.bits
  let es := as.map (stripElem mnew.bits)
  let m := f.unpack mold
  let c : FOut := if m.isNaN then { bits := 0 } else softExp (softDif m (f.unpack mnew.bits))
  let t := pairTree (fAdd f 0) 0 es.length (es.map FOut.bits)
  let sum := fFma f 0 false sold c.bits t.bits
  { elems := es.map FOut.bits
    state := BitVec.ofNat 64 (sum.bits <<< 32 + mnew.bits)
    corr := BitVec.ofNat 64 c.bits
    flags := es.foldl (fun x e => x ||| e.flags) (mloc.flags ||| mnew.flags ||| c.flags ||| t.flags ||| sum.flags) }

/-- VSMAX (R212, R213). -/
def State.softmax (s : State) (d a b : BitVec 5) (k : BitVec 3) : State :=
  let g := s.grp
  let vl := s.vl
  if s.cw ≠ 32 ∨ b = 0 ∨ b = 31 ∨ ¬ (groupOk d g ∧ groupOk a g) then s.illop else
  let x := s.group a.toNat g
  let act := s.active k 0
  let off := s.maskedOff k 0
  let r := strip (s.g b) (act.map fun i => elem x 32 i)
  s.whole r.flags fun s =>
    ((((((s.putElems d.toNat g 32 (act.zip r.elems)).setG b r.state).setG (b + 1) r.corr).maskPolicy d.toNat g 32
      off).tailPolicy d.toNat g 32 vl)).setLdr .v d.toNat

def execVsmax (d a b : BitVec 5) (k _w : BitVec 3) (s : State) : Result := .next (s.softmax d a b k)

/-- A permutation: active elements take a value where one is given, then the policies (R214, R215, R217). -/
def State.permute (s : State) (d : BitVec 5) (k : BitVec 3) (op : Nat → Option Nat) : State :=
  let g := s.grp
  let w := s.cw
  let vl := s.vl
  let es := (s.active k 0).filterMap fun i => (op i).map fun x => (i, x)
  let off := s.maskedOff k 0
  s.whole 0 fun s =>
    (((s.putElems d.toNat g w es).maskPolicy d.toNat g w off).tailPolicy d.toNat g w vl).setLdr .v d.toNat

/-- VSLUP (R214). -/
def execVslup (d a b : BitVec 5) (k _w : BitVec 3) (s : State) : Result :=
  .next <| if ¬ (groupOk d s.grp ∧ groupOk a s.grp) then s.illop else
    let x := s.group a.toNat s.grp
    let n := (s.g b).toNat
    s.permute d k fun i => if n ≤ i then some (elem x s.cw (i - n)) else none

/-- VSLDN (R214). -/
def execVsldn (d a b : BitVec 5) (k _w : BitVec 3) (s : State) : Result :=
  .next <| if ¬ (groupOk d s.grp ∧ groupOk a s.grp) then s.illop else
    let x := s.group a.toNat s.grp
    let n := (s.g b).toNat
    s.permute d k fun i => some (if i + n < s.vl then elem x s.cw (i + n) else 0)

/-- VRGAT (R215). -/
def execVrgat (d a b : BitVec 5) (k _w : BitVec 3) (s : State) : Result :=
  .next <| if ¬ (groupOk d s.grp ∧ groupOk a s.grp ∧ groupOk b s.grp) then s.illop else
    let x := s.group a.toNat s.grp
    let y := s.group b.toNat s.grp
    s.permute d k fun i => let j := elem y s.cw i; some (if j < s.vl then elem x s.cw j else 0)

/-- VCOMP (R216); k0 is a data operand here. -/
def execVcomp (d a b : BitVec 5) (_w : BitVec 3) (s : State) : Result :=
  .next <| if ¬ (groupOk d s.grp ∧ groupOk a s.grp ∧ b.toNat < 8) then s.illop else
    let g := s.grp
    let w := s.cw
    let x := s.group a.toNat g
    let m := s.k b.toNat
    let es := ((List.range s.vl).filter fun i => m.getLsbD i).map fun i => elem x w i
    s.whole 0 fun s =>
      ((s.putElems d.toNat g w (es.zipIdx.map fun e => (e.2, e.1))).tailPolicy d.toNat g w es.length).setLdr .v d.toNat

/-- VIOTA (R217). -/
def execViota (d : BitVec 5) (a k _w : BitVec 3) (s : State) : Result :=
  .next <| if ¬ groupOk d s.grp then s.illop else
    let m := s.k a.toNat
    s.permute d k fun i =>
      some (((List.range i).filter fun j => s.maskBit k j && m.getLsbD j).length % 2 ^ s.cw)

/-- VEXTR (R218). -/
def execVextr (d a b : BitVec 5) (_w : BitVec 3) (s : State) : Result :=
  .next <| if ¬ groupOk a s.grp then s.illop else
    let j := (s.g b).toNat
    let x := extInt (vtMsx s.vt) s.cw (elem (s.group a.toNat s.grp) s.cw j)
    s.whole 0 fun s => s.putG d (if j < s.vl then BitVec.ofInt 64 x else 0)

/-- VINS (R218). -/
def execVins (d a b : BitVec 5) (_w : BitVec 3) (s : State) : Result :=
  .next <| if ¬ groupOk d s.grp then s.illop else
    let j := (s.g b).toNat
    let x := (s.g a).toNat % 2 ^ s.cw
    let es := if j < s.vl then [(j, x)] else []
    s.whole 0 fun s => (s.putElems d.toNat s.grp s.cw es).setLdr .v d.toNat

/-- A mask instruction: bits 0 to VL - 1 of k[D], then the tail (R219). -/
def State.maskLogic (s : State) (d : BitVec 3) (x : VReg) : State :=
  let vl := s.vl
  let old := (s.kRaw d.toNat).toNat
  let low := x.toNat % 2 ^ vl
  s.whole 0 fun s =>
    (s.setK d.toNat (BitVec.ofNat 16384 (low + (if vtTail s.vt then 0 else (old >>> vl) <<< vl)))).setLdr .k d.toNat

def execKand (d a b _w : BitVec 3) (s : State) : Result := .next (s.maskLogic d (s.k a.toNat &&& s.k b.toNat))
def execKor (d a b _w : BitVec 3) (s : State) : Result := .next (s.maskLogic d (s.k a.toNat ||| s.k b.toNat))
def execKxor (d a b _w : BitVec 3) (s : State) : Result := .next (s.maskLogic d (s.k a.toNat ^^^ s.k b.toNat))
def execKandn (d a b _w : BitVec 3) (s : State) : Result := .next (s.maskLogic d (s.k a.toNat &&& ~~~ s.k b.toNat))
def execKnot (d a _w : BitVec 3) (s : State) : Result := .next (s.maskLogic d (~~~ s.k a.toNat))
def execKmv (d a _w : BitVec 3) (s : State) : Result := .next (s.maskLogic d (s.k a.toNat))

/-- KSET (R220). -/
def execKset (d : BitVec 3) (a : BitVec 5) (_w : BitVec 3) (s : State) : Result :=
  .next (s.maskLogic d (BitVec.ofNat 16384 (2 ^ min (s.g a).toNat s.vl - 1)))

/-- The active elements whose bit of k[A] is 1 (R221). -/
def State.setBits (s : State) (a k : BitVec 3) : List Nat :=
  let m := s.k a.toNat
  (s.active k 0).filter fun i => m.getLsbD i

def execKffs (d : BitVec 5) (a k _w : BitVec 3) (s : State) : Result :=
  .next (s.whole 0 fun t => t.putG d (match s.setBits a k with | [] => BitVec.allOnes 64 | i :: _ => BitVec.ofNat 64 i))
def execKpopc (d : BitVec 5) (a k _w : BitVec 3) (s : State) : Result :=
  .next (s.whole 0 fun t => t.putG d (BitVec.ofNat 64 (s.setBits a k).length))

end Sys2Proof.Machine
end

