-- ==== Sys2Proof/Machine/Dispatch.lean ====
section
/-! DEFINITION. One arm per instruction: each calls the instruction's meaning, which stands in the file of its family. -/

namespace Sys2Proof.Machine

def exec (i : Instr) (s : State) : Host.Outcome State Fault Refusal :=
  match i with
  | .add d a b w => Sys2Proof.Machine.execAdd d a b w s
  | .sub d a b w => Sys2Proof.Machine.execSub d a b w s
  | .and d a b w => Sys2Proof.Machine.execAnd d a b w s
  | .or d a b w => Sys2Proof.Machine.execOr d a b w s
  | .xor d a b w => Sys2Proof.Machine.execXor d a b w s
  | .andn d a b w => Sys2Proof.Machine.execAndn d a b w s
  | .sll d a b w => Sys2Proof.Machine.execSll d a b w s
  | .srl d a b w => Sys2Proof.Machine.execSrl d a b w s
  | .sra d a b w => Sys2Proof.Machine.execSra d a b w s
  | .rol d a b w => Sys2Proof.Machine.execRol d a b w s
  | .ror d a b w => Sys2Proof.Machine.execRor d a b w s
  | .slt d a b w => Sys2Proof.Machine.execSlt d a b w s
  | .sltu d a b w => Sys2Proof.Machine.execSltu d a b w s
  | .min d a b w => Sys2Proof.Machine.execMin d a b w s
  | .max d a b w => Sys2Proof.Machine.execMax d a b w s
  | .minu d a b w => Sys2Proof.Machine.execMinu d a b w s
  | .maxu d a b w => Sys2Proof.Machine.execMaxu d a b w s
  | .mul d a b w => Sys2Proof.Machine.execMul d a b w s
  | .mulh d a b w => Sys2Proof.Machine.execMulh d a b w s
  | .mulhu d a b w => Sys2Proof.Machine.execMulhu d a b w s
  | .div d a b w => Sys2Proof.Machine.execDiv d a b w s
  | .divu d a b w => Sys2Proof.Machine.execDivu d a b w s
  | .rem d a b w => Sys2Proof.Machine.execRem d a b w s
  | .remu d a b w => Sys2Proof.Machine.execRemu d a b w s
  | .clz d a w => Sys2Proof.Machine.execClz d a w s
  | .ctz d a w => Sys2Proof.Machine.execCtz d a w s
  | .popc d a w => Sys2Proof.Machine.execPopc d a w s
  | .bext d a b w => Sys2Proof.Machine.execBext d a b w s
  | .bins d a b w => Sys2Proof.Machine.execBins d a b w s
  | .baddr d a b w => Sys2Proof.Machine.execBaddr d a b w s
  | .slli d a s0 w => Sys2Proof.Machine.execSlli d a s0 w s
  | .srli d a s0 w => Sys2Proof.Machine.execSrli d a s0 w s
  | .srai d a s0 w => Sys2Proof.Machine.execSrai d a s0 w s
  | .addi d a imm w => Sys2Proof.Machine.execAddi d a imm w s
  | .andi d a imm w => Sys2Proof.Machine.execAndi d a imm w s
  | .ori d a imm w => Sys2Proof.Machine.execOri d a imm w s
  | .xori d a imm w => Sys2Proof.Machine.execXori d a imm w s
  | .slti d a imm w => Sys2Proof.Machine.execSlti d a imm w s
  | .limm d imm h k => Sys2Proof.Machine.execLimm d imm h k s
  | .ld d a b s0 w h => Sys2Proof.Machine.execLd d a b s0 w h s
  | .st d a b w h => Sys2Proof.Machine.execSt d a b w h s
  | .ldc d a b s0 w h => Sys2Proof.Machine.execLdc d a b s0 w h s
  | .pref a b w h => Sys2Proof.Machine.execPref a b w h s
  | .etag d a b w => Sys2Proof.Machine.execEtag d a b w s
  | .extn d a b p w => Sys2Proof.Machine.execExtn d a b p w s
  | .extrBase d b w => Sys2Proof.Machine.execExtrBase d b w s
  | .extrLen d b w => Sys2Proof.Machine.execExtrLen d b w s
  | .extrAttr d b w => Sys2Proof.Machine.execExtrAttr d b w s
  | .beq a b o => Sys2Proof.Machine.execBeq a b o s
  | .bne a b o => Sys2Proof.Machine.execBne a b o s
  | .blt a b o => Sys2Proof.Machine.execBlt a b o s
  | .bge a b o => Sys2Proof.Machine.execBge a b o s
  | .bltu a b o => Sys2Proof.Machine.execBltu a b o s
  | .bgeu a b o => Sys2Proof.Machine.execBgeu a b o s
  | .jal d o => Sys2Proof.Machine.execJal d o s
  | .jalr d a imm w => Sys2Proof.Machine.execJalr d a imm w s
  | .loop a e => Sys2Proof.Machine.execLoop a e s
  | .loopi e c => Sys2Proof.Machine.execLoopi e c s
  | .lexit => Sys2Proof.Machine.execLexit s
  | .rpt m s0 c => Sys2Proof.Machine.execRpt m s0 c s
  | .fork o => Sys2Proof.Machine.execFork o s
  | .rdv => Sys2Proof.Machine.execRdv s
  | .rdvEnd => Sys2Proof.Machine.execRdvEnd s
  | .rdvPairComplete c => Sys2Proof.Machine.execRdvPairComplete c s
  | .fadd d a b t w => Sys2Proof.Machine.execFadd d a b t w s
  | .fsub d a b t w => Sys2Proof.Machine.execFsub d a b t w s
  | .fmul d a b t w => Sys2Proof.Machine.execFmul d a b t w s
  | .fdiv d a b t w => Sys2Proof.Machine.execFdiv d a b t w s
  | .fsqrt d a t w => Sys2Proof.Machine.execFsqrt d a t w s
  | .fmin d a b t w => Sys2Proof.Machine.execFmin d a b t w s
  | .fmax d a b t w => Sys2Proof.Machine.execFmax d a b t w s
  | .fma d a b t w => Sys2Proof.Machine.execFma d a b t w s
  | .fcmp d a b c t w => Sys2Proof.Machine.execFcmp d a b c t w s
  | .fcvt d a w c => Sys2Proof.Machine.execFcvt d a w c s
  | .fmv d a t w o => Sys2Proof.Machine.execFmv d a t w o s
  | .ctlr d r => Sys2Proof.Machine.execCtlr d r s
  | .ctlw d a r => Sys2Proof.Machine.execCtlw d a r s
  | .ctls d a r => Sys2Proof.Machine.execCtls d a r s
  | .ctlc d a r => Sys2Proof.Machine.execCtlc d a r s
  | .extentLowWrite c n v => Sys2Proof.Machine.execExtentLowWrite c n v s
  | .extentHighWrite c n v => Sys2Proof.Machine.execExtentHighWrite c n v s
  | .vtWrite c v => Sys2Proof.Machine.execVtWrite c v s
  | .vlWrite c v => Sys2Proof.Machine.execVlWrite c v s
  | .frmWrite c v => Sys2Proof.Machine.execFrmWrite c v s
  | .sys c => Sys2Proof.Machine.execSys c s
  | .eret => Sys2Proof.Machine.execEret s
  | .wfe d a b => Sys2Proof.Machine.execWfe d a b s
  | .wfeWake c => Sys2Proof.Machine.execWfeWake c s
  | .tlbiPage a b => Sys2Proof.Machine.execTlbiPage a b s
  | .tlbiAsid b => Sys2Proof.Machine.execTlbiAsid b s
  | .tlbiAll => Sys2Proof.Machine.execTlbiAll s
  | .clwb a b => Sys2Proof.Machine.execClwb a b s
  | .clinv a b => Sys2Proof.Machine.execClinv a b s
  | .cldrop a b => Sys2Proof.Machine.execCldrop a b s
  | .bkpt c => Sys2Proof.Machine.execBkpt c s
  | .ill => Sys2Proof.Machine.execIll s
  | .amo d a b o z => Sys2Proof.Machine.execAmo d a b o z s
  | .cas d a b z => Sys2Proof.Machine.execCas d a b z s
  | .vamo d a b o k => Sys2Proof.Machine.execVamo d a b o k s
  | .faas d a k => Sys2Proof.Machine.execFaas d a k s
  | .acq d a b => Sys2Proof.Machine.execAcq d a b s
  | .acqSatisfied c q => Sys2Proof.Machine.execAcqSatisfied c q s
  | .rel d a => Sys2Proof.Machine.execRel d a s
  | .gbind d a b s0 => Sys2Proof.Machine.execGbind d a b s0 s
  | .gunbind a => Sys2Proof.Machine.execGunbind a s
  | .fence s0 k => Sys2Proof.Machine.execFence s0 k s
  | .qfence q => Sys2Proof.Machine.execQfence q s
  | .cfence => Sys2Proof.Machine.execCfence s
  | .barinit a => Sys2Proof.Machine.execBarinit a s
  | .barwait a b => Sys2Proof.Machine.execBarwait a b s
  | .barrel a b => Sys2Proof.Machine.execBarrel a b s
  | .windowCountReached c q => Sys2Proof.Machine.execWindowCountReached c q s
  | .setvl d a w => Sys2Proof.Machine.execSetvl d a w s
  | .setvt d a w => Sys2Proof.Machine.execSetvt d a w s
  | .vld d a k h => Sys2Proof.Machine.execVld d a k h s
  | .vlds d a b k h => Sys2Proof.Machine.execVlds d a b k h s
  | .vldx d a b k h => Sys2Proof.Machine.execVldx d a b k h s
  | .vldseg d a k h n => Sys2Proof.Machine.execVldseg d a k h n s
  | .vldff d a k h => Sys2Proof.Machine.execVldff d a k h s
  | .vldWc d a k h => Sys2Proof.Machine.execVldWc d a k h s
  | .vldc d a k h => Sys2Proof.Machine.execVldc d a k h s
  | .vst d a k h => Sys2Proof.Machine.execVst d a k h s
  | .vsts d a b k h => Sys2Proof.Machine.execVsts d a b k h s
  | .vstx d a b k h => Sys2Proof.Machine.execVstx d a b k h s
  | .vstseg d a k h n => Sys2Proof.Machine.execVstseg d a k h n s
  | .vaddVv d a b k w => Sys2Proof.Machine.execVaddVv d a b k w s
  | .vaddVs d a b k w => Sys2Proof.Machine.execVaddVs d a b k w s
  | .vaddVi d a k w imm => Sys2Proof.Machine.execVaddVi d a k w imm s
  | .vsubVv d a b k w => Sys2Proof.Machine.execVsubVv d a b k w s
  | .vsubVs d a b k w => Sys2Proof.Machine.execVsubVs d a b k w s
  | .vsubVi d a k w imm => Sys2Proof.Machine.execVsubVi d a k w imm s
  | .vrsubVv d a b k w => Sys2Proof.Machine.execVrsubVv d a b k w s
  | .vrsubVs d a b k w => Sys2Proof.Machine.execVrsubVs d a b k w s
  | .vrsubVi d a k w imm => Sys2Proof.Machine.execVrsubVi d a k w imm s
  | .vandVv d a b k w => Sys2Proof.Machine.execVandVv d a b k w s
  | .vandVs d a b k w => Sys2Proof.Machine.execVandVs d a b k w s
  | .vandVi d a k w imm => Sys2Proof.Machine.execVandVi d a k w imm s
  | .vorVv d a b k w => Sys2Proof.Machine.execVorVv d a b k w s
  | .vorVs d a b k w => Sys2Proof.Machine.execVorVs d a b k w s
  | .vorVi d a k w imm => Sys2Proof.Machine.execVorVi d a k w imm s
  | .vxorVv d a b k w => Sys2Proof.Machine.execVxorVv d a b k w s
  | .vxorVs d a b k w => Sys2Proof.Machine.execVxorVs d a b k w s
  | .vxorVi d a k w imm => Sys2Proof.Machine.execVxorVi d a k w imm s
  | .vsllVv d a b k w => Sys2Proof.Machine.execVsllVv d a b k w s
  | .vsllVs d a b k w => Sys2Proof.Machine.execVsllVs d a b k w s
  | .vsllVi d a k w imm => Sys2Proof.Machine.execVsllVi d a k w imm s
  | .vsrlVv d a b k w => Sys2Proof.Machine.execVsrlVv d a b k w s
  | .vsrlVs d a b k w => Sys2Proof.Machine.execVsrlVs d a b k w s
  | .vsrlVi d a k w imm => Sys2Proof.Machine.execVsrlVi d a k w imm s
  | .vsraVv d a b k w => Sys2Proof.Machine.execVsraVv d a b k w s
  | .vsraVs d a b k w => Sys2Proof.Machine.execVsraVs d a b k w s
  | .vsraVi d a k w imm => Sys2Proof.Machine.execVsraVi d a k w imm s
  | .vminVv d a b k w => Sys2Proof.Machine.execVminVv d a b k w s
  | .vminVs d a b k w => Sys2Proof.Machine.execVminVs d a b k w s
  | .vminVi d a k w imm => Sys2Proof.Machine.execVminVi d a k w imm s
  | .vmaxVv d a b k w => Sys2Proof.Machine.execVmaxVv d a b k w s
  | .vmaxVs d a b k w => Sys2Proof.Machine.execVmaxVs d a b k w s
  | .vmaxVi d a k w imm => Sys2Proof.Machine.execVmaxVi d a k w imm s
  | .vminuVv d a b k w => Sys2Proof.Machine.execVminuVv d a b k w s
  | .vminuVs d a b k w => Sys2Proof.Machine.execVminuVs d a b k w s
  | .vminuVi d a k w imm => Sys2Proof.Machine.execVminuVi d a k w imm s
  | .vmaxuVv d a b k w => Sys2Proof.Machine.execVmaxuVv d a b k w s
  | .vmaxuVs d a b k w => Sys2Proof.Machine.execVmaxuVs d a b k w s
  | .vmaxuVi d a k w imm => Sys2Proof.Machine.execVmaxuVi d a k w imm s
  | .vmergeVv d a b k w => Sys2Proof.Machine.execVmergeVv d a b k w s
  | .vmergeVs d a b k w => Sys2Proof.Machine.execVmergeVs d a b k w s
  | .vmergeVi d a k w imm => Sys2Proof.Machine.execVmergeVi d a k w imm s
  | .vmvVv d b k w => Sys2Proof.Machine.execVmvVv d b k w s
  | .vmvVs d b k w => Sys2Proof.Machine.execVmvVs d b k w s
  | .vmvVi d k w imm => Sys2Proof.Machine.execVmvVi d k w imm s
  | .vidx d k w t s0 => Sys2Proof.Machine.execVidx d k w t s0 s
  | .vmulVv d a b k w => Sys2Proof.Machine.execVmulVv d a b k w s
  | .vmulVs d a b k w => Sys2Proof.Machine.execVmulVs d a b k w s
  | .vmulhVv d a b k w => Sys2Proof.Machine.execVmulhVv d a b k w s
  | .vmulhVs d a b k w => Sys2Proof.Machine.execVmulhVs d a b k w s
  | .vmulhuVv d a b k w => Sys2Proof.Machine.execVmulhuVv d a b k w s
  | .vmulhuVs d a b k w => Sys2Proof.Machine.execVmulhuVs d a b k w s
  | .vmaccVv d a b k w => Sys2Proof.Machine.execVmaccVv d a b k w s
  | .vmaccVs d a b k w => Sys2Proof.Machine.execVmaccVs d a b k w s
  | .vnmsacVv d a b k w => Sys2Proof.Machine.execVnmsacVv d a b k w s
  | .vnmsacVs d a b k w => Sys2Proof.Machine.execVnmsacVs d a b k w s
  | .vwaddVv d a b k w => Sys2Proof.Machine.execVwaddVv d a b k w s
  | .vwaddVs d a b k w => Sys2Proof.Machine.execVwaddVs d a b k w s
  | .vwmulVv d a b k w => Sys2Proof.Machine.execVwmulVv d a b k w s
  | .vwmulVs d a b k w => Sys2Proof.Machine.execVwmulVs d a b k w s
  | .vwmaccVv d a b k w => Sys2Proof.Machine.execVwmaccVv d a b k w s
  | .vwmaccVs d a b k w => Sys2Proof.Machine.execVwmaccVs d a b k w s
  | .vwmaccuVv d a b k w => Sys2Proof.Machine.execVwmaccuVv d a b k w s
  | .vwmaccuVs d a b k w => Sys2Proof.Machine.execVwmaccuVs d a b k w s
  | .vdivVv d a b k w => Sys2Proof.Machine.execVdivVv d a b k w s
  | .vdivVs d a b k w => Sys2Proof.Machine.execVdivVs d a b k w s
  | .vremVv d a b k w => Sys2Proof.Machine.execVremVv d a b k w s
  | .vremVs d a b k w => Sys2Proof.Machine.execVremVs d a b k w s
  | .vsaddVv d a b k w => Sys2Proof.Machine.execVsaddVv d a b k w s
  | .vsaddVs d a b k w => Sys2Proof.Machine.execVsaddVs d a b k w s
  | .vsadduVv d a b k w => Sys2Proof.Machine.execVsadduVv d a b k w s
  | .vsadduVs d a b k w => Sys2Proof.Machine.execVsadduVs d a b k w s
  | .vssubVv d a b k w => Sys2Proof.Machine.execVssubVv d a b k w s
  | .vssubVs d a b k w => Sys2Proof.Machine.execVssubVs d a b k w s
  | .vssubuVv d a b k w => Sys2Proof.Machine.execVssubuVv d a b k w s
  | .vssubuVs d a b k w => Sys2Proof.Machine.execVssubuVs d a b k w s
  | .vsmulVv d a b k w => Sys2Proof.Machine.execVsmulVv d a b k w s
  | .vsmulVs d a b k w => Sys2Proof.Machine.execVsmulVs d a b k w s
  | .vaaddVv d a b k w => Sys2Proof.Machine.execVaaddVv d a b k w s
  | .vaaddVs d a b k w => Sys2Proof.Machine.execVaaddVs d a b k w s
  | .vaaddVi d a k w imm => Sys2Proof.Machine.execVaaddVi d a k w imm s
  | .vssrVv d a b k w => Sys2Proof.Machine.execVssrVv d a b k w s
  | .vssrVs d a b k w => Sys2Proof.Machine.execVssrVs d a b k w s
  | .vssrVi d a k w imm => Sys2Proof.Machine.execVssrVi d a k w imm s
  | .vnshrVv d a b k w => Sys2Proof.Machine.execVnshrVv d a b k w s
  | .vnshrVs d a b k w => Sys2Proof.Machine.execVnshrVs d a b k w s
  | .vnshrVi d a k w imm => Sys2Proof.Machine.execVnshrVi d a k w imm s
  | .vsextVv d a b k w => Sys2Proof.Machine.execVsextVv d a b k w s
  | .vsextVs d a b k w => Sys2Proof.Machine.execVsextVs d a b k w s
  | .vsextVi d a k w imm => Sys2Proof.Machine.execVsextVi d a k w imm s
  | .vzextVv d a b k w => Sys2Proof.Machine.execVzextVv d a b k w s
  | .vzextVs d a b k w => Sys2Proof.Machine.execVzextVs d a b k w s
  | .vzextVi d a k w imm => Sys2Proof.Machine.execVzextVi d a k w imm s
  | .vcmpVv d a b c k w => Sys2Proof.Machine.execVcmpVv d a b c k w s
  | .vcmpVs d a b c k w => Sys2Proof.Machine.execVcmpVs d a b c k w s
  | .vcmpVi d a c k w imm => Sys2Proof.Machine.execVcmpVi d a c k w imm s
  | .vfaddVv d a b k w => Sys2Proof.Machine.execVfaddVv d a b k w s
  | .vfaddVs d a b k w => Sys2Proof.Machine.execVfaddVs d a b k w s
  | .vfsubVv d a b k w => Sys2Proof.Machine.execVfsubVv d a b k w s
  | .vfsubVs d a b k w => Sys2Proof.Machine.execVfsubVs d a b k w s
  | .vfmulVv d a b k w => Sys2Proof.Machine.execVfmulVv d a b k w s
  | .vfmulVs d a b k w => Sys2Proof.Machine.execVfmulVs d a b k w s
  | .vfdivVv d a b k w => Sys2Proof.Machine.execVfdivVv d a b k w s
  | .vfdivVs d a b k w => Sys2Proof.Machine.execVfdivVs d a b k w s
  | .vfmaVv d a b k w => Sys2Proof.Machine.execVfmaVv d a b k w s
  | .vfmaVs d a b k w => Sys2Proof.Machine.execVfmaVs d a b k w s
  | .vfnmaVv d a b k w => Sys2Proof.Machine.execVfnmaVv d a b k w s
  | .vfnmaVs d a b k w => Sys2Proof.Machine.execVfnmaVs d a b k w s
  | .vfminVv d a b k w => Sys2Proof.Machine.execVfminVv d a b k w s
  | .vfminVs d a b k w => Sys2Proof.Machine.execVfminVs d a b k w s
  | .vfmaxVv d a b k w => Sys2Proof.Machine.execVfmaxVv d a b k w s
  | .vfmaxVs d a b k w => Sys2Proof.Machine.execVfmaxVs d a b k w s
  | .vfsqrt d a k w => Sys2Proof.Machine.execVfsqrt d a k w s
  | .vfexp2 d a k w => Sys2Proof.Machine.execVfexp2 d a k w s
  | .vflog2 d a k w => Sys2Proof.Machine.execVflog2 d a k w s
  | .vfrece d a k w => Sys2Proof.Machine.execVfrece d a k w s
  | .vfrsqe d a k w => Sys2Proof.Machine.execVfrsqe d a k w s
  | .vfcvt d a k w c => Sys2Proof.Machine.execVfcvt d a k w c s
  | .vfcvt4 d a b w => Sys2Proof.Machine.execVfcvt4 d a b w s
  | .vfcmpVv d a b k w c => Sys2Proof.Machine.execVfcmpVv d a b k w c s
  | .vfcmpVs d a b k w c => Sys2Proof.Machine.execVfcmpVs d a b k w c s
  | .vrsum d a k w s0 => Sys2Proof.Machine.execVrsum d a k w s0 s
  | .vrmax d a k w s0 => Sys2Proof.Machine.execVrmax d a k w s0 s
  | .vrmin d a k w s0 => Sys2Proof.Machine.execVrmin d a k w s0 s
  | .vrfsum d a k w s0 => Sys2Proof.Machine.execVrfsum d a k w s0 s
  | .vrfmax d a k w s0 => Sys2Proof.Machine.execVrfmax d a k w s0 s
  | .vscan d a k w e s0 => Sys2Proof.Machine.execVscan d a k w e s0 s
  | .vfscan d a k w e s0 => Sys2Proof.Machine.execVfscan d a k w e s0 s
  | .vsmax d a b k w => Sys2Proof.Machine.execVsmax d a b k w s
  | .vslup d a b k w => Sys2Proof.Machine.execVslup d a b k w s
  | .vsldn d a b k w => Sys2Proof.Machine.execVsldn d a b k w s
  | .vrgat d a b k w => Sys2Proof.Machine.execVrgat d a b k w s
  | .vcomp d a b w => Sys2Proof.Machine.execVcomp d a b w s
  | .viota d a k w => Sys2Proof.Machine.execViota d a k w s
  | .vextr d a b w => Sys2Proof.Machine.execVextr d a b w s
  | .vins d a b w => Sys2Proof.Machine.execVins d a b w s
  | .kand d a b w => Sys2Proof.Machine.execKand d a b w s
  | .kor d a b w => Sys2Proof.Machine.execKor d a b w s
  | .kxor d a b w => Sys2Proof.Machine.execKxor d a b w s
  | .kandn d a b w => Sys2Proof.Machine.execKandn d a b w s
  | .knot d a w => Sys2Proof.Machine.execKnot d a w s
  | .kffs d a k w => Sys2Proof.Machine.execKffs d a k w s
  | .kpopc d a k w => Sys2Proof.Machine.execKpopc d a k w s
  | .kset d a w => Sys2Proof.Machine.execKset d a w s
  | .kmv d a w => Sys2Proof.Machine.execKmv d a w s
  | .cAdd p => Sys2Proof.Machine.execCAdd p s
  | .cSub p => Sys2Proof.Machine.execCSub p s
  | .cAnd p => Sys2Proof.Machine.execCAnd p s
  | .cOr p => Sys2Proof.Machine.execCOr p s
  | .cXor p => Sys2Proof.Machine.execCXor p s
  | .cMul p => Sys2Proof.Machine.execCMul p s
  | .cAddi imm => Sys2Proof.Machine.execCAddi imm s
  | .cLi imm => Sys2Proof.Machine.execCLi imm s
  | .cSlli s0 => Sys2Proof.Machine.execCSlli s0 s
  | .cSrli s0 => Sys2Proof.Machine.execCSrli s0 s
  | .cSrai s0 => Sys2Proof.Machine.execCSrai s0 s
  | .cMv p => Sys2Proof.Machine.execCMv p s
  | .cMin p => Sys2Proof.Machine.execCMin p s
  | .cMax p => Sys2Proof.Machine.execCMax p s
  | .cVadd p => Sys2Proof.Machine.execCVadd p s
  | .cVsub p => Sys2Proof.Machine.execCVsub p s
  | .cVand p => Sys2Proof.Machine.execCVand p s
  | .cVor p => Sys2Proof.Machine.execCVor p s
  | .cVxor p => Sys2Proof.Machine.execCVxor p s
  | .cVmul p => Sys2Proof.Machine.execCVmul p s
  | .cVmacc q p => Sys2Proof.Machine.execCVmacc q p s
  | .cVadds p => Sys2Proof.Machine.execCVadds p s
  | .cVmuls p => Sys2Proof.Machine.execCVmuls p s
  | .cVfadd p => Sys2Proof.Machine.execCVfadd p s
  | .cVfmul p => Sys2Proof.Machine.execCVfmul p s
  | .cVfma q p => Sys2Proof.Machine.execCVfma q p s
  | .cVfmas q p => Sys2Proof.Machine.execCVfmas q p s
  | .cVfadds p => Sys2Proof.Machine.execCVfadds p s
  | .vnld d a b q l => Sys2Proof.Machine.execVnld d a b q l s
  | .vnst d a b r => Sys2Proof.Machine.execVnst d a b r s
  | .vnldv d a b k q => Sys2Proof.Machine.execVnldv d a b k q s
  | .vnstv d a b k r => Sys2Proof.Machine.execVnstv d a b k r s
  | .vnqry d a s0 => Sys2Proof.Machine.execVnqry d a s0 s
  | .vndrop a b => Sys2Proof.Machine.execVndrop a b s
  | .vnopen d a b => Sys2Proof.Machine.execVnopen d a b s
  | .vnclose d a => Sys2Proof.Machine.execVnclose d a s
  | .versionReclaim r x => Sys2Proof.Machine.execVersionReclaim r x s
  | .versionHeapFree r => Sys2Proof.Machine.execVersionHeapFree r s
  | .vfullWatchdog r imm => Sys2Proof.Machine.execVfullWatchdog r imm s
  | .strm a b q => Sys2Proof.Machine.execStrm a b q s
  | .sqwait q => Sys2Proof.Machine.execSqwait q s
  | .sqstat d q s0 => Sys2Proof.Machine.execSqstat d q s0 s
  | .sqwaitDrained c => Sys2Proof.Machine.execSqwaitDrained c s
  | .streamProgramStart t q => Sys2Proof.Machine.execStreamProgramStart t q s
  | .streamStallResume x => Sys2Proof.Machine.execStreamStallResume x s
  | .deliverySpaceReady x => Sys2Proof.Machine.execDeliverySpaceReady x s
  | .sdesc d a o => Sys2Proof.Machine.execSdesc d a o s
  | .stile d a b cols rows o0 o1 => Sys2Proof.Machine.execStile d a b cols rows o0 o1 s
  | .sgath d a b n iw => Sys2Proof.Machine.execSgath d a b n iw s
  | .sscat d a b n iw => Sys2Proof.Machine.execSscat d a b n iw s
  | .sconv f t wd rm sat => Sys2Proof.Machine.execSconv f t wd rm sat s
  | .sfill b m => Sys2Proof.Machine.execSfill b m s
  | .sloop d a r n => Sys2Proof.Machine.execSloop d a r n s
  | .snext d => Sys2Proof.Machine.execSnext d s
  | .swaitv a b o => Sys2Proof.Machine.execSwaitv a b o s
  | .sver d a b o => Sys2Proof.Machine.execSver d a b o s
  | .ssig a b o => Sys2Proof.Machine.execSsig a b o s
  | .sfence s0 => Sys2Proof.Machine.execSfence s0 s
  | .send => Sys2Proof.Machine.execSend s
  | .mzero d => Sys2Proof.Machine.execMzero d s
  | .mlda a b f => Sys2Proof.Machine.execMlda a b f s
  | .mldb a f u => Sys2Proof.Machine.execMldb a f u s
  | .mma d => Sys2Proof.Machine.execMma d s
  | .mrsc d a m => Sys2Proof.Machine.execMrsc d a m s
  | .mstr d a b f => Sys2Proof.Machine.execMstr d a b f s
  | .mmovvToV d a q => Sys2Proof.Machine.execMmovvToV d a q s
  | .mmovvToT d a q => Sys2Proof.Machine.execMmovvToT d a q s
  | .tenq d a => Sys2Proof.Machine.execTenq d a s
  | .targ d a => Sys2Proof.Machine.execTarg d a s
  | .tyld => Sys2Proof.Machine.execTyld s
  | .tself d s0 => Sys2Proof.Machine.execTself d s0 s
  | .tend => Sys2Proof.Machine.execTend s
  | .npost d a => Sys2Proof.Machine.execNpost d a s
  | .nwait d a b => Sys2Proof.Machine.execNwait d a b s
  | .encj d a => Sys2Proof.Machine.execEncj d a s
  | .nwaitSatisfied c => Sys2Proof.Machine.execNwaitSatisfied c s
  | .netRequestComplete imm ok => Sys2Proof.Machine.execNetRequestComplete imm ok s
  | .netPacketReceive p => Sys2Proof.Machine.execNetPacketReceive p s
  | .encJobStart e => Sys2Proof.Machine.execEncJobStart e s
  | .encJobComplete e => Sys2Proof.Machine.execEncJobComplete e s
  | .variableLatencyComplete c q imm => Sys2Proof.Machine.execVariableLatencyComplete c q imm s
  | .taskBind c => Sys2Proof.Machine.execTaskBind c s
  | .preemptSave c => Sys2Proof.Machine.execPreemptSave c s
  | .budgetEnd c => Sys2Proof.Machine.execBudgetEnd c s
  | .barrierPark c => Sys2Proof.Machine.execBarrierPark c s
  | .barrierParkWake t => Sys2Proof.Machine.execBarrierParkWake t s
  | .stgSwap c back => Sys2Proof.Machine.execStgSwap c back s
  | .dcmdPre c => Sys2Proof.Machine.execDcmdPre c s
  | .contractRelease n => Sys2Proof.Machine.execContractRelease n s
  | .frameSyncPulse => Sys2Proof.Machine.execFrameSyncPulse s
  | .contractOverrun n => Sys2Proof.Machine.execContractOverrun n s
  | .launch p => Sys2Proof.Machine.execLaunch p s
  | .abort p => Sys2Proof.Machine.execAbort p s
  | .admitCall p => Sys2Proof.Machine.execAdmitCall p s
  | .revoke p => Sys2Proof.Machine.execRevoke p s
  | .setvd p => Sys2Proof.Machine.execSetvd p s
  | .vnopenCall p => Sys2Proof.Machine.execVnopenCall p s
  | .vncloseCall p => Sys2Proof.Machine.execVncloseCall p s
  | .status p => Sys2Proof.Machine.execStatus p s
  | .encopen p => Sys2Proof.Machine.execEncopen p s
  | .encclose p => Sys2Proof.Machine.execEncclose p s
  | .peerset p => Sys2Proof.Machine.execPeerset p s
  | .expose p => Sys2Proof.Machine.execExpose p s
  | .setpwr p => Sys2Proof.Machine.execSetpwr p s
  | .setirq p => Sys2Proof.Machine.execSetirq p s
  | .envelopeApply => Sys2Proof.Machine.execEnvelopeApply s
  | .orderedDoorbellWrite p o v => Sys2Proof.Machine.execOrderedDoorbellWrite p o v s
  | .hostRead p b n => Sys2Proof.Machine.execHostRead p b n s
  | .hostWrite p b n v => Sys2Proof.Machine.execHostWrite p b n v s
  | .spdmGetMeasurements imm => Sys2Proof.Machine.execSpdmGetMeasurements imm s
  | .baseDieRead r => Sys2Proof.Machine.execBaseDieRead r s
  | .baseDieWrite r v => Sys2Proof.Machine.execBaseDieWrite r v s
  | .pkcmdGo s0 v => Sys2Proof.Machine.execPkcmdGo s0 v s
  | .pkcmdRepackDone s0 => Sys2Proof.Machine.execPkcmdRepackDone s0 s
  | .owncmdGo v => Sys2Proof.Machine.execOwncmdGo v s
  | .owncmdFlipDone => Sys2Proof.Machine.execOwncmdFlipDone s
  | .llccfgWrite d v => Sys2Proof.Machine.execLlccfgWrite d v s
  | .llcModeChangeDone d => Sys2Proof.Machine.execLlcModeChangeDone d s
  | .registerWindowWrite o v => Sys2Proof.Machine.execRegisterWindowWrite o v s
  | .refresh s0 k => Sys2Proof.Machine.execRefresh s0 k s
  | .alertBackoff s0 k => Sys2Proof.Machine.execAlertBackoff s0 k s
  | .linkAuthFailure l => Sys2Proof.Machine.execLinkAuthFailure l s
  | .cxlLinkLoss p => Sys2Proof.Machine.execCxlLinkLoss p s
  | .thermalTrip x => Sys2Proof.Machine.execThermalTrip x s
  | .functionLevelReset n => Sys2Proof.Machine.execFunctionLevelReset n s
  | .coldReset => Sys2Proof.Machine.execColdReset s
  | .warmReset => Sys2Proof.Machine.execWarmReset s
  | .cxlLinkUp p => Sys2Proof.Machine.execCxlLinkUp p s
  | .applicationCoreAccess h a => Sys2Proof.Machine.execApplicationCoreAccess h a s
  | .hdmDecoderCommit p imm d => Sys2Proof.Machine.execHdmDecoderCommit p imm d s

end Sys2Proof.Machine
end

