-- ==== Sys2Proof/Machine/Stop.lean ====
section
/-! DEFINITION. One turn of a sequencer (R47, R52, R65, R393), and its turns in the stop phase of a pre-emption: what of the next
instruction is performed before it is stopped (R162, R204, R273, R319, R344, R392, R406). -/

namespace Sys2Proof.Machine

/-- A pre-emption has been triggered: DCMD.PRE or BSY stands (R368, R392). -/
def State.stopping (s : State) : Bool := (s.sched.slot s.coreNo).dcmd ≠ 0

/-- VNSTV stops at any element; VNLDV is abandoned at once (R319). -/
def isVnstv (w : BitVec 32) : Bool := majorOf w = 0x28 && fOp w = 3
def isVnldv (w : BitVec 32) : Bool := majorOf w = 0x28 && fOp w = 2

/-- Where the vector instruction under way may stop: at an element-group boundary, VNSTV at any element (R204, R319). -/
def State.boundaries (s : State) (w : BitVec 32) : List Nat :=
  if isVnstv w then (List.range s.vl).filter fun x => s.estart < x
  else ((List.range (8 * 64)).map fun j => (j + 1) * (16384 / s.cw)).filter fun x => s.estart < x && x < s.vl

/-- A segment load or store, whose field f of element group j is register v(D + f * G + j) (R146). -/
def isSegment (w : BitVec 32) (len : Nat) : Bool := len = 32 && (majorOf w = 0x19 || majorOf w = 0x1A) && fOp w = 3

/-- The registers of an operand that the first n of g element groups use: of a vector group the part in proportion, one register at
least, and of a segment form that part of every field (R142, R146, R202). -/
def Operand.firstRegs (p : Operand) (n g : Nat) (segment : Bool) : List (RegClass × Nat) :=
  ((List.range p.count).filter fun j => p.cls ≠ .v || (if segment then j % g < n else j < (n * p.count + g - 1) / g)).map fun j =>
    (p.cls, p.num + j)

/-- What the first n element groups of an instruction read and write: of its vector registers those alone. -/
def State.firstUses (s : State) (w : BitVec 32) (len : Nat) (o : Operands) (n : Nat) : List Res × List Res :=
  let part (rs : List Res) (ps : List Operand) : List Res :=
    let used := regsOf (ps.flatMap fun p => p.firstRegs n s.grp (isSegment w len))
    rs.filter fun r => match r with
      | .reg .v _ => used.contains r
      | _ => true
  let u := s.uses w len o
  (part u.1 (o.all.filter Operand.src), part u.2 (o.all.filter Operand.dst))

/-- Where the next instruction comes from: a replay entry, a repeat frame, or memory. -/
inductive Source where
  | replay (e : Replay) (rest : List Replay)
  | frame
  | memory

/-- The next instruction of the sequencer: where it comes from, the state in which it is performed, and its length. -/
def State.upcoming (s : State) : Option (Source × State × Nat) :=
  match s.seq.replay with
  | e :: rest => some (.replay e rest, s.atReplay e, e.len)
  | [] =>
    match s.seq.frame with
    | some f => some (.frame, s.mapSeq fun q => { q with insn := s.frameWord f }, 32)
    | none =>
      match s.fetchAt s.seq.pc with
      | .error _ => none
      | .ok (w, len) => some (.memory, s.mapSeq fun q => { q with insn := w }, len)

/-- The sequencer after a part of its next instruction: pc, loops, frame and LDR as they were in q, and the instruction first on
the replay list with its captured operands (R392), or, in a repeat frame, left to the frame (R65). -/
def Seq.halfway (x q : Seq) (c : Source) (t : State) (len first estart : Nat) : Seq :=
  let y := { (x.withPlace q) with frame := q.frame, rpidx := q.rpidx, rpbase := q.rpbase, record := [], view := []
                                  wait := none, back := none, inFlight := q.inFlight, owed := q.owed }
  match c with
  | .frame => y
  | .replay e rest => { y with replay := { e with first := first } :: rest }
  | .memory => y.unretired t q.pc len first estart

/-- The elements below a bound of the vector instruction under way are performed, without its policies (R162, R204, R392); `t` is
the state in which it is performed. A trap in them is taken (R394). -/
def State.stopInside (s t : State) (c : Source) (act : State → Result) (len bound : Nat) : Result :=
  let ctl := t.core.ctl
  match act (t.noPolicies.mapCtl fun c => { c with vl := BitVec.ofNat 64 bound }) with
  | .fault r => .fault r
  | .refused r => .refused r
  | .next u =>
    let back := u.mapCtl fun c => { c with vl := ctl.vl, vt := ctl.vt }
    if (u.sched.task s.taskKey).any fun x => x.state = .blockedVersion then .next s
    else if stoppedBy t u then .next (back.mapSeq Seq.dropReplay)
    else if u.seq.wait.isSome ∨ u.core.ctl.vl ≠ BitVec.ofNat 64 bound then .next s
    else .next ((back.setEstart bound).mapSeq fun x => x.halfway s.seq c t len bound s.estart)

/-- A turn of a sequencer in the stop phase: nothing, or a part of its next instruction (R392): element groups of a vector
instruction, elements of an MSTR, or lines of a cache maintenance. One that the scoreboard would hold for that part, or that
reads a register too early under CHK, has not begun. An MSTR that stops part-way has ORed the flags of the elements it wrote into FFLAGS
(DESIGN CHOICE, log 43). -/
def State.stopStep (m : Meaning) (s : State) : Result :=
  if (s.seq.wait.isSome ∧ s.seq.wait ≠ some .held) ∨ s.drawBool 3 0 then .next s else
  match s.upcoming with
  | none => .next s
  | some (c, t, len) =>
    let w := t.seq.insn
    let o := t.issueOperands w len
    let early := o.sources.filterMap t.seq.early
    if ¬ accepts s.cur w len ∨ (t.core.ctl.mode.getLsbD 0 ∧ early ≠ []) then .next s else
    let t := if t.core.ctl.mode.getLsbD 0 then t else t.mapSeq fun q => { q with view := early.map t.seenEarly ++ q.view }
    match m w len, t.vectorWord w len with
    | none, _ => .next s
    | some act, some x =>
      let bs := t.boundaries x
      if s.cur = .matrix ∨ bs = [] ∨ isVldWc x ∨ isVnldv x then .next s else
      let bound := bs.getD (s.drawNat 3 0 % bs.length) 0
      let groups := (bound * s.cw + 16383) / 16384
      if t.heldFor w len (t.firstUses w len o groups) then .next s else s.stopInside t c act len bound
    | some _, none =>
      if len = 16 ∨ t.held w len o then .next s
      else if majorOf w = 0x30 ∧ fOp w = 5 ∧ (fK w).toNat ≤ 5 then
        let n := s.drawNat 3 0 % (64 * t.storedRows (fB w) + 1)
        match t.storeTileElems ((fD w).setWidth 3) (fA w) (fK w).toNat n with
        | (u, none) => .next (u.mapSeq fun x => x.halfway s.seq c t 32 0 s.estart)
        | (u, some e) => .next ((u.trap e).mapSeq Seq.dropReplay)
      else
        match t.maintainSome w (s.drawNat 3 0) with
        | some u => .next (u.mapSeq fun x => x.halfway s.seq c t 32 0 s.estart)
        | none => .next s

/-- The instruction that the sequencer goes on with: the rest of a replay list, of an interrupted frame, the next word of its
frame, or the one it fetches (R47, R64, R65, R393). -/
def State.goOn (m : Meaning) (s : State) : Result :=
  match s.seq.replay with
  | e :: rest => s.replayStep m e rest
  | [] =>
    if s.seq.owed.frame then .next s.reopen
    else
      match s.seq.frame with
      | some f => s.issue m (s.frameWord f) 32
      | none =>
        match s.fetchAt s.seq.pc with
        | .error t => .next (s.trap t)
        | .ok (w, len) => s.issue m w len

/-- One turn of the sequencer in focus, after the cycles until it: its chained loads go on, and then the instruction it waits in
is performed once more, or it goes on. An idle one does nothing, nor does any after a fatal error (R425). -/
def State.turnSeq (m : Meaning) (s : State) : Result :=
  if ¬ s.seq.running ∨ s.halted then .next s
  else if s.stopping then s.stopStep m
  else
    let s := (s.elapse s.turnCycles).chains
    match s.seq.wait with
    | none => s.goOn m
    | some .held => s.goOn m
    | some (.chained c) => s.again fun t => .next (t.chainGo c)
    | some _ =>
      match m s.seq.insn 32 with
      | some act => s.again act
      | none => .next s

end Sys2Proof.Machine
end

