-- ==== Sys2Proof/Machine/Turn.lean ====
section
/-! DEFINITION. What a step is made of (log 1, 2): which agent moves, its turn with the decoder and exec, the passing of time, and
how an instruction comes to stand where a sequencer fetches. -/

namespace Sys2Proof.Machine

/-- The instruction that a word or parcel of a length in bits decodes to (R47, R69). -/
noncomputable def instrOf (w : BitVec 32) (len : Nat) : Option Instr :=
  match decode (natToBytes w.toNat (len / 8)) with
  | .ok (i, _) => some i
  | .error _ => none

/-- The meaning of a word or parcel. -/
noncomputable def meaning : Meaning := fun w len => (instrOf w len).map exec

/-- The meaning of a stream command word. -/
noncomputable def commandMeaning : Commands := fun w =>
  match decodeCommand w with
  | .ok i => some (exec i)
  | .error _ => none

/-- An instruction that no sequencer and no stream engine fetches: the step of another agent. -/
def isEvent (i : Instr) : Bool := (encode i).isEmpty && (encodeCommand i).isNone

/-- The turn of an agent. After a fatal error only some still move (R425). -/
noncomputable def State.turnOf (s : State) (a : Agent) : Result :=
  match a with
  | .seq c q => if c < Config.cores then (s.focus c q).turnSeq meaning else .next s
  | .stream pid => s.streamTurn commandMeaning pid
  | .event i => if isEvent i ∧ (s.halted = false ∨ outlivesFatal i) then exec i s else .next s

/-- The running sequencers of a core. -/
def Core.movers (c : Core) (n : Nat) : List Agent :=
  (if c.main.running then [.seq n .main] else []) ++ (if c.matrix.running then [.seq n .matrix] else [])

/-- The sequencers and stream programs that can go on by themselves. -/
def State.movers (s : State) : List Agent :=
  s.core.movers s.coreNo ++ s.others.flatMap (fun x => x.2.movers x.1) ++
  (s.str.ctxs.filter fun x => ! x.waiting && ! x.stalled && x.space.isNone).map fun x => .stream x.pid

/-- Time passes by a free amount, and the next step draws fresh values (R2, log 2, 6). -/
def State.tick (s : State) (n : Nat) : State :=
  { s with fresh := s.fresh + 1, sched := { s.sched with ticks := s.sched.ticks + n } }

/-- A result after which time has passed. -/
def tickResult (n : Nat) (r : Result) : Result :=
  match r with
  | .next s => .next (s.tick n)
  | .fault f => .fault f
  | .refused f => .refused f

/-- The agent whose turn it is: the first of the agenda, or, where that is empty, the next of those that can go on by
themselves, in turn; and the state that remembers it. -/
def State.nextAgent (s : State) : Option (Agent × State) :=
  match s.agenda with
  | a :: rest => some (a, { s with agenda := rest })
  | [] =>
    match s.movers[s.turn % max 1 s.movers.length]? with
    | some a => some (a, { s with turn := s.turn + 1 })
    | none => none

/-- One step of the module. -/
noncomputable def State.advance (s : State) : Result :=
  let n := s.drawNat 9 0
  match s.nextAgent with
  | some (a, t) => tickResult n (t.turnOf a)
  | none => .next (s.tick n)

/-- Where the model stands a program (log 1): its page tables and its code, as physical bit addresses, and its virtual
address. -/
def tableBase (level : Nat) : Nat := level * 2 ^ 17
def codeFrame : Nat := 2 ^ 25
def codeAddr : Nat := 2 ^ 25

/-- A page-table entry that points to a table, and a leaf with every permission (R41). -/
def tableEntry (table : Nat) : Nat := table + 1
def leafEntry (frame : Nat) : Nat := frame + 0x7F

/-- The tables that map the code's page, and the code (R40, R41). -/
def Mem.withCode (m : Mem) (w : Nat) : Mem :=
  let m := m.write (tableBase 1 / 8) 8 (tableEntry (tableBase 2))
  let m := m.write (tableBase 2 / 8) 8 (tableEntry (tableBase 3))
  let m := m.write (tableBase 3 / 8 + 8) 8 (leafEntry codeFrame)
  m.write (codeFrame / 8) 4 w

/-- A sequencer that fetches at the code next. -/
def Seq.atCode (q : Seq) : Seq :=
  { q with running := true, pc := BitVec.ofNat 58 codeAddr, frame := none, rpidx := 0, record := [], view := [], wait := none,
           snap := none, due := 0, owed := {}, inFlight := [], replay := [], back := none }

/-- The sequencer that accepts the word (R67): the matrix sequencer for what only it performs. -/
def seqFor (w : Nat) (len : Nat) : SeqId := if accepts .main (BitVec.ofNat 32 w) len then .main else .matrix

/-- The state with a word where the next step fetches (log 1): a sequencer of the core in focus runs, its address space maps
one page of code, and its turn is next. -/
def State.placeCode (s : State) (nbits w : Nat) : State :=
  let v := w % 2 ^ nbits
  let q := seqFor v (if v % 2 = 1 then 32 else 16)
  let c := s.core
  let ctl := { c.ctl with ptroot := BitVec.ofNat 64 (tableBase 1 + 1) }
  { s with
    core := match q with
      | .main => { c with ctl := ctl, main := c.main.atCode }
      | .matrix => { c with ctl := ctl, matrix := c.matrix.atCode }
    cur := q
    ms := { s.ms with mem := s.ms.mem.withCode v, past := [], poison := [] }
    sched := s.sched.setSlot s.coreNo { s.sched.slot s.coreNo with dcmd := 0 }
    io := { s.io with mstate := s.io.mstate &&& ~~~0x20 }
    agenda := [.seq s.coreNo q] }

end Sys2Proof.Machine
end

