-- ==== Sys2Proof/Machine/Step.lean ====
section
/-! DEFINITION. The step of the machine, and the state with an instruction where it fetches next. -/

namespace Sys2Proof.Machine

/-- One step: the agent whose turn it is moves (log 2). -/
noncomputable def step (s : State) : Host.Outcome State Fault Refusal := s.advance

/-- s with an instruction of nbits bits, zeros above, where step fetches next (log 1). -/
def State.withFetchWord (s : State) (nbits w : Nat) : State := s.placeCode nbits w

end Sys2Proof.Machine
end

