-- ==== Sys2Proof/Safety.lean ====
section
/-! DEFINITION. The terms in which the statements speak of a step: what a sequencer keeps and how it goes on, what a write of
registers, vectors and memory leaves alone, and the invariant of the memory. -/

namespace Sys2Proof.Machine

/-- The state with another value of the sequencer that performs. Nothing outside that sequencer differs: no other register
of any core, no control register, no byte of memory. -/
def State.withSeq (s : State) (q : Seq) : State := s.mapSeq fun _ => q

/-- What an instruction that completes leaves of its sequencer besides pc, loop counters, repeat frame and its results. -/
structure Seq.Kept (q r : Seq) : Prop where
  running : r.running = q.running
  lb : r.lb = q.lb
  le : r.le = q.le
  insn : r.insn = q.insn
  record : r.record = q.record
  inFlight : r.inFlight = q.inFlight
  replay : r.replay = q.replay
  back : r.back = q.back
  owed : r.owed = q.owed
  due : r.due = q.due
  constMark : r.constMark = q.constMark

/-- The innermost loop in use ends at an address (R132). -/
def Seq.EndsAt (q : Seq) (next : BitVec 58) : Prop :=
  0 < q.depth.toNat ∧ (q.le[q.depth.toNat - 1]?.getD 0).toNat = next.toNat

/-- A sequencer waits in nothing, and reads nothing early. -/
structure Seq.Fresh (r : Seq) : Prop where
  wait : r.wait = none
  waited : r.waited = 0
  snap : r.snap = none
  view : r.view = []

/-- How an instruction of len bits goes on (R64, R132): where `Seq.advance` leads, in its repeat frame or past its loops' ends. -/
structure Seq.GoesOn (len : Nat) (q r : Seq) : Prop extends Seq.Fresh r where
  pc : r.pc = (q.advance len).pc
  depth : r.depth = (q.advance len).depth
  lc : r.lc = (q.advance len).lc
  li : r.li = (q.advance len).li
  frame : r.frame = (q.advance len).frame
  rpidx : r.rpidx = (q.advance len).rpidx
  rpbase : r.rpbase = (q.advance len).rpbase

/-- A zero-count loop falls through to its end (R131, R132): where the end check leads. -/
structure Seq.FallsTo (q r : Seq) (next : BitVec 58) : Prop extends Seq.Fresh r where
  pc : r.pc = (q.fallTo next).pc
  depth : r.depth = (q.fallTo next).depth
  lc : r.lc = (q.fallTo next).lc
  li : r.li = (q.fallTo next).li
  frame : r.frame = q.frame
  rpidx : r.rpidx = q.rpidx
  rpbase : r.rpbase = q.rpbase

/-- The scalar registers after a write of d: g0 discards it (R107). -/
def wroteG (old new : Vector Word 32) (d : BitVec 5) (x : Word) : Prop :=
  ∀ r : Fin 32, new.get r = if r = d.toFin ∧ d ≠ 0 then x else old.get r

/-- LDR when it names register n of a class (R59). -/
def ldrOf (c : RegClass) (n : Nat) : Word := BitVec.ofNat 64 (32 * c.code + n % 32)

/-- An instruction of len bits completes with x in g[d] and LDR on d, and changes nothing else. -/
def State.WritesG (s t : State) (len : Nat) (d : BitVec 5) (x : Word) : Prop :=
  ∃ q, t = s.withSeq q ∧ wroteG s.seq.g q.g d x ∧ q.ldr = ldrOf .g d.toNat ∧ s.seq.Kept q ∧ s.seq.GoesOn len q

/-- An instruction of len bits completes and writes no register at all. -/
def State.WritesNone (s t : State) (len : Nat) : Prop :=
  ∃ q, t = s.withSeq q ∧ q.g = s.seq.g ∧ q.ldr = s.seq.ldr ∧ s.seq.Kept q ∧ s.seq.GoesOn len q

/-- A taken branch goes on at an address, with no end check (R132). -/
structure Seq.Jumps (q r : Seq) (target : BitVec 58) : Prop extends Seq.Fresh r where
  pc : r.pc = target
  depth : r.depth = q.depth
  lc : r.lc = q.lc
  li : r.li = q.li
  frame : r.frame = q.frame
  rpidx : r.rpidx = q.rpidx
  rpbase : r.rpbase = q.rpbase

end Sys2Proof.Machine
end

