-- ==== Sys2Proof/Safety/Vector.lean ====
section
/-! DEFINITION. The results that the rules give the element-wise vector instructions (R187 to R201), written from the rules' own
formulas: the statements compare exec with these tables. -/

namespace Sys2Proof.Machine

/-- An element-wise instruction with a vector destination: its length, the group of n registers from d with elements of w bits,
its mask, and what element i gets where it is active. -/
structure VSpec where
  len : Nat
  d : BitVec 5
  n : Nat
  w : Nat
  k : BitVec 3
  f : Nat → Out

/-- An element-wise instruction with a mask destination. -/
structure KSpec where
  d : BitVec 3
  k : BitVec 3
  f : Nat → Out

/-- Element i of the group of n registers from r, as the registers hold it (R142). -/
def State.elemAt (s : State) (r n w i : Nat) : Nat := elem (s.groupRaw r n) w i

/-- What element i of the destination holds after an element-wise instruction (R187): the tail from VL on, the elements below
ESTART, the active ones, and the masked-off ones. -/
def State.afterElem (s : State) (r : VSpec) (i : Nat) : Nat :=
  let old := s.elemAt r.d.toNat r.n r.w i
  if s.vl ≤ i then (if vtTail s.vt then 0 else old)
  else if i < s.estart then old
  else if s.maskBit r.k i then (r.f i).val % 2 ^ r.w
  else if vtMskp s.vt then 0 else old

/-- The floating flags that the active elements raise, and whether one saturates. -/
def State.flagsOf (s : State) (k : BitVec 3) (f : Nat → Out) : Nat :=
  (s.active k s.estart).foldl (fun x i => x ||| (f i).flags) 0
def State.satOf (s : State) (k : BitVec 3) (f : Nat → Out) : Bool := (s.active k s.estart).any fun i => (f i).sat

/-- No element raises an enabled flag (R175). -/
def State.Quiet (s : State) (k : BitVec 3) (f : Nat → Out) : Prop :=
  ∀ i, s.estart ≤ i → i < s.vl → s.maskBit k i = true → (f i).flags &&& s.ten = 0

/-- Control registers in which the sequencer in focus has raised flags, and set FXSAT where a result saturated (R164, R168,
R174). -/
def State.raised (s : State) (c : Ctl) (flags : Nat) (sat : Bool) : Ctl :=
  let u := s.core.ctl.raise s.cur (BitVec.ofNat 64 (flags % 32 + 256 * sat.toNat))
  { c with
    fflags := c.fflags ||| BitVec.ofNat 64 (flags % 32)
    fxsat := c.fxsat ||| BitVec.ofNat 64 sat.toNat
    unseenMain := u.unseenMain
    unseenMatrix := u.unseenMatrix }

/-- The control registers after a vector instruction (R163, R164, R168, R174): ESTART is 0, flags are added, and FXSAT is set where
a result saturated; no other one changes. -/
def State.vectorCtl (s : State) (flags : Nat) (sat : Bool) : Ctl := { (s.raised s.core.ctl flags sat) with estart := 0 }

/-- The control registers where element n takes a trap (R175): the flags are added and ESTART names it. -/
def State.trapCtl (s : State) (flags n : Nat) : Ctl := { (s.raised s.core.ctl flags false) with estart := BitVec.ofNat 64 n }

/-- The high-water mark of register n (R397). -/
def Ctl.markAt (c : Ctl) (n : Nat) : Nat := (if n < 16 then c.hwea else c.hweb).toNat / 2 ^ (4 * (n % 16)) % 16

/-- The mark h raised to cover the elements of w bits `is` of the group from r that lie in register n: to at least 1, and past
the last bit of each (R161, R189, R397). -/
def coverMark (r w n : Nat) (is : List Nat) (h : Nat) : Nat :=
  is.foldl (fun h i => if r + i * w / 16384 = n then max h (max 1 ((i * w % 16384 + w - 1) / 1024)) else h) h

/-- An instruction of len bits completes with the values val in the elements of w bits of the group of n registers from d,
of which those in `is` are computed and raise the high-water marks (R161, R189), LDR on d, and the control registers as above; no
other register and no byte of memory changes. -/
def State.WritesV (s t : State) (len d n w : Nat) (is : List Nat) (val : Nat → Nat) (flags : Nat) (sat : Bool) : Prop :=
  ∃ q v,
    t = ({ s with core := { s.core with v := v, ctl := (s.vectorCtl flags sat).marked d w is } }).withSeq q ∧
    (∀ i, w * i + w ≤ 16384 * n → t.elemAt d n w i = val i) ∧
    (∀ p, p < d ∨ d + n ≤ p → t.vRaw p = s.vRaw p) ∧
    q.g = s.seq.g ∧ q.ldr = ldrOf .v d ∧ s.seq.Kept q ∧ s.seq.GoesOn len q

/-- A same-width form (R186): its groups are multiples of G and end at v31. -/
def State.same (s : State) (len : Nat) (d a : BitVec 5) (b : VSrc) (k : BitVec 3) (op : Nat → Nat → Nat → Nat → Out) :
    Option VSpec :=
  if groupOk d s.grp ∧ groupOk a s.grp ∧ b.ok s.grp then
    some { len := len, d := d, n := s.grp, w := s.cw, k := k
           f := fun i => op s.cw (elem (s.group a.toNat s.grp) s.cw i) (s.source b s.grp s.cw i)
             (elem (s.group d.toNat s.grp) s.cw i) }
  else none

/-- A widening form (R186): vD has 2G registers of 2cw-bit elements and meets no source. -/
def State.wide (s : State) (d a : BitVec 5) (b : VSrc) (k : BitVec 3) (op : Nat → Nat → Nat → Nat → Out) : Option VSpec :=
  if s.cw ≠ 64 ∧ s.grp ≠ 8 ∧ groupOk d (2 * s.grp) ∧ groupOk a s.grp ∧ b.ok s.grp ∧
      ¬ groupsMeet a s.grp d (2 * s.grp) ∧ ¬ b.meets s.grp d (2 * s.grp) then
    some { len := 32, d := d, n := 2 * s.grp, w := 2 * s.cw, k := k
           f := fun i => op s.cw (elem (s.group a.toNat s.grp) s.cw i) (s.source b s.grp s.cw i)
             (elem (s.group d.toNat (2 * s.grp)) (2 * s.cw) i) }
  else none

/-- A narrowing form (R186): vA, and vB where it is a group, have 2G registers of 2cw-bit elements. -/
def State.narrow (s : State) (d a : BitVec 5) (b : VSrc) (k : BitVec 3) (op : Nat → Nat → Nat → Out) : Option VSpec :=
  if s.cw ≠ 64 ∧ s.grp ≠ 8 ∧ groupOk d s.grp ∧ groupOk a (2 * s.grp) ∧ b.ok (2 * s.grp) ∧
      ¬ groupsMeet a (2 * s.grp) d s.grp ∧ ¬ b.meets (2 * s.grp) d s.grp then
    some { len := 32, d := d, n := s.grp, w := s.cw, k := k
           f := fun i => op s.cw (elem (s.group a.toNat (2 * s.grp)) (2 * s.cw) i) (s.source b (2 * s.grp) (2 * s.cw) i) }
  else none

/-- An exact value modulo 2^w. -/
def modOut (w : Nat) (x : Int) : Out := { val := (x % 2 ^ w).toNat }

/-- An exact value saturated as sW or as zW, with FXSAT where that changes it (R166, R188). -/
def clampS (w : Nat) (x : Int) : Out := { val := (satS x w % 2 ^ w).toNat, sat := satS x w ≠ x }
def clampZ (w : Nat) (x : Int) : Out := { val := (satZ x w).toNat, sat := satZ x w ≠ x }

/-- A value read as sW or as zW (R190). -/
def readAs (signed : Bool) (w x : Nat) : Int := if signed then toInt w x else x

/-- VDIV and VREM with their corners (R194). -/
def quotient (signed : Bool) (w a b : Nat) : Out :=
  if b = 0 then { val := 2 ^ w - 1 }
  else if signed then modOut w ((toInt w a).tdiv (toInt w b)) else { val := a / b }
def remainder (signed : Bool) (w a b : Nat) : Out :=
  if b = 0 then { val := a }
  else if signed then modOut w ((toInt w a).tmod (toInt w b)) else { val := a % b }

/-- The field of n bits of an element, extended to w bits (R195). -/
def signField (w a n : Nat) : Out := if w ≤ n then { val := a } else modOut w (toInt n a)
def zeroField (w a n : Nat) : Out := if w ≤ n then { val := a } else { val := a % 2 ^ n }

/-- The operations of R191, R194 and R195 on elements of w bits. -/
def vaddSpec (w a b _ : Nat) : Out := modOut w (a + b)
def vsubSpec (w a b _ : Nat) : Out := modOut w (a - b)
def vrsubSpec (w a b _ : Nat) : Out := modOut w (b - a)
def vandSpec (_ a b _ : Nat) : Out := { val := a &&& b }
def vorSpec (_ a b _ : Nat) : Out := { val := a ||| b }
def vxorSpec (_ a b _ : Nat) : Out := { val := a ^^^ b }
def vsllSpec (w a b _ : Nat) : Out := { val := a * 2 ^ (b % w) % 2 ^ w }
def vsrlSpec (w a b _ : Nat) : Out := { val := a / 2 ^ (b % w) }
def vsraSpec (w a b _ : Nat) : Out := modOut w (toInt w a / 2 ^ (b % w))
def vminSpec (w a b _ : Nat) : Out := modOut w (min (toInt w a) (toInt w b))
def vmaxSpec (w a b _ : Nat) : Out := modOut w (max (toInt w a) (toInt w b))
def vminuSpec (_ a b _ : Nat) : Out := { val := min a b }
def vmaxuSpec (_ a b _ : Nat) : Out := { val := max a b }
def vmulSpec (w a b _ : Nat) : Out := { val := a * b % 2 ^ w }
def vmulhSpec (w a b _ : Nat) : Out := modOut w (toInt w a * toInt w b / 2 ^ w)
def vmulhuSpec (w a b _ : Nat) : Out := { val := a * b / 2 ^ w }
def vmaccSpec (w a b d : Nat) : Out := { val := (d + a * b) % 2 ^ w }
def vnmsacSpec (w a b d : Nat) : Out := modOut w (d - a * b)
def vdivSpec (s : State) (w a b _ : Nat) : Out := quotient (vtMsx s.vt) w a b
def vremSpec (s : State) (w a b _ : Nat) : Out := remainder (vtMsx s.vt) w a b
def vsaddSpec (w a b _ : Nat) : Out := clampS w (toInt w a + toInt w b)
def vsadduSpec (w a b _ : Nat) : Out := clampZ w (a + b)
def vssubSpec (w a b _ : Nat) : Out := clampS w (toInt w a - toInt w b)
def vssubuSpec (w a b _ : Nat) : Out := clampZ w (a - b)
def vsmulSpec (s : State) (w a b _ : Nat) : Out := clampS w (roundFX (toInt w a * toInt w b) (w - 1) s.fxrm)
def vaaddSpec (s : State) (w a b _ : Nat) : Out := modOut w (roundFX (toInt w a + toInt w b) 1 s.fxrm)
def vssrSpec (s : State) (w a b _ : Nat) : Out := modOut w (roundFX (toInt w a) (b % w) s.fxrm)
def vwaddSpec (s : State) (w a b _ : Nat) : Out := modOut (2 * w) (readAs (vtMsx s.vt) w a + readAs (vtMsx s.vt) w b)
def vwmulSpec (s : State) (w a b _ : Nat) : Out := modOut (2 * w) (readAs (vtMsx s.vt) w a * readAs (vtMsx s.vt) w b)
def vwmaccSpec (w a b d : Nat) : Out := modOut (2 * w) (d + toInt w a * toInt w b)
def vwmaccuSpec (w a b d : Nat) : Out := { val := (d + a * b) % 2 ^ (2 * w) }
def vnshrSpec (s : State) (w a b : Nat) : Out :=
  let u := roundFX (readAs (vtMsx s.vt) (2 * w) a) (b % (2 * w)) s.fxrm
  if vtMsx s.vt then clampS w u else clampZ w u

/-- A compact vector form: LDR.CLS is the vector class (R60), and the expansion has the destination L of LDR. -/
def State.compactV (s : State) (f : BitVec 5 → Option VSpec) : Option VSpec :=
  if s.seq.ldr.toNat / 32 % 4 = 2 then f (s.seq.ldr.setWidth 5) else none

/-- VMERGE (R193): every element from ESTART takes b_i where its mask bit is 1, and a_i where it is 0. -/
def State.merge (s : State) (d a : BitVec 5) (b : VSrc) (k : BitVec 3) : Option VSpec :=
  if k ≠ 0 ∧ groupOk d s.grp ∧ groupOk a s.grp ∧ b.ok s.grp then
    some { len := 32, d := d, n := s.grp, w := s.cw, k := 0
           f := fun i => { val := if (s.k k.toNat).getLsbD i then s.source b s.grp s.cw i
                                  else elem (s.group a.toNat s.grp) s.cw i } }
  else none

/-- The same-width integer instructions of groups A, B and C, VIDX, VMV, VMERGE and the compact forms (R191 to R195, R61). -/
def State.vectorInteger (s : State) : Instr → Option VSpec
  | .vaddVv d a b k _ => s.same 32 d a (.vv b) k vaddSpec
  | .vaddVs d a b k _ => s.same 32 d a (.vs b) k vaddSpec
  | .vaddVi d a k _ i => s.same 32 d a (.imm i) k vaddSpec
  | .vsubVv d a b k _ => s.same 32 d a (.vv b) k vsubSpec
  | .vsubVs d a b k _ => s.same 32 d a (.vs b) k vsubSpec
  | .vsubVi d a k _ i => s.same 32 d a (.imm i) k vsubSpec
  | .vrsubVv d a b k _ => s.same 32 d a (.vv b) k vrsubSpec
  | .vrsubVs d a b k _ => s.same 32 d a (.vs b) k vrsubSpec
  | .vrsubVi d a k _ i => s.same 32 d a (.imm i) k vrsubSpec
  | .vandVv d a b k _ => s.same 32 d a (.vv b) k vandSpec
  | .vandVs d a b k _ => s.same 32 d a (.vs b) k vandSpec
  | .vandVi d a k _ i => s.same 32 d a (.imm i) k vandSpec
  | .vorVv d a b k _ => s.same 32 d a (.vv b) k vorSpec
  | .vorVs d a b k _ => s.same 32 d a (.vs b) k vorSpec
  | .vorVi d a k _ i => s.same 32 d a (.imm i) k vorSpec
  | .vxorVv d a b k _ => s.same 32 d a (.vv b) k vxorSpec
  | .vxorVs d a b k _ => s.same 32 d a (.vs b) k vxorSpec
  | .vxorVi d a k _ i => s.same 32 d a (.imm i) k vxorSpec
  | .vsllVv d a b k _ => s.same 32 d a (.vv b) k vsllSpec
  | .vsllVs d a b k _ => s.same 32 d a (.vs b) k vsllSpec
  | .vsllVi d a k _ i => s.same 32 d a (.uimm i) k vsllSpec
  | .vsrlVv d a b k _ => s.same 32 d a (.vv b) k vsrlSpec
  | .vsrlVs d a b k _ => s.same 32 d a (.vs b) k vsrlSpec
  | .vsrlVi d a k _ i => s.same 32 d a (.uimm i) k vsrlSpec
  | .vsraVv d a b k _ => s.same 32 d a (.vv b) k vsraSpec
  | .vsraVs d a b k _ => s.same 32 d a (.vs b) k vsraSpec
  | .vsraVi d a k _ i => s.same 32 d a (.uimm i) k vsraSpec
  | .vminVv d a b k _ => s.same 32 d a (.vv b) k vminSpec
  | .vminVs d a b k _ => s.same 32 d a (.vs b) k vminSpec
  | .vminVi d a k _ i => s.same 32 d a (.imm i) k vminSpec
  | .vmaxVv d a b k _ => s.same 32 d a (.vv b) k vmaxSpec
  | .vmaxVs d a b k _ => s.same 32 d a (.vs b) k vmaxSpec
  | .vmaxVi d a k _ i => s.same 32 d a (.imm i) k vmaxSpec
  | .vminuVv d a b k _ => s.same 32 d a (.vv b) k vminuSpec
  | .vminuVs d a b k _ => s.same 32 d a (.vs b) k vminuSpec
  | .vminuVi d a k _ i => s.same 32 d a (.imm i) k vminuSpec
  | .vmaxuVv d a b k _ => s.same 32 d a (.vv b) k vmaxuSpec
  | .vmaxuVs d a b k _ => s.same 32 d a (.vs b) k vmaxuSpec
  | .vmaxuVi d a k _ i => s.same 32 d a (.imm i) k vmaxuSpec
  | .vmulVv d a b k _ => s.same 32 d a (.vv b) k vmulSpec
  | .vmulVs d a b k _ => s.same 32 d a (.vs b) k vmulSpec
  | .vmulhVv d a b k _ => s.same 32 d a (.vv b) k vmulhSpec
  | .vmulhVs d a b k _ => s.same 32 d a (.vs b) k vmulhSpec
  | .vmulhuVv d a b k _ => s.same 32 d a (.vv b) k vmulhuSpec
  | .vmulhuVs d a b k _ => s.same 32 d a (.vs b) k vmulhuSpec
  | .vmaccVv d a b k _ => s.same 32 d a (.vv b) k vmaccSpec
  | .vmaccVs d a b k _ => s.same 32 d a (.vs b) k vmaccSpec
  | .vnmsacVv d a b k _ => s.same 32 d a (.vv b) k vnmsacSpec
  | .vnmsacVs d a b k _ => s.same 32 d a (.vs b) k vnmsacSpec
  | .vdivVv d a b k _ => s.same 32 d a (.vv b) k (vdivSpec s)
  | .vdivVs d a b k _ => s.same 32 d a (.vs b) k (vdivSpec s)
  | .vremVv d a b k _ => s.same 32 d a (.vv b) k (vremSpec s)
  | .vremVs d a b k _ => s.same 32 d a (.vs b) k (vremSpec s)
  | .vsaddVv d a b k _ => s.same 32 d a (.vv b) k vsaddSpec
  | .vsaddVs d a b k _ => s.same 32 d a (.vs b) k vsaddSpec
  | .vsadduVv d a b k _ => s.same 32 d a (.vv b) k vsadduSpec
  | .vsadduVs d a b k _ => s.same 32 d a (.vs b) k vsadduSpec
  | .vssubVv d a b k _ => s.same 32 d a (.vv b) k vssubSpec
  | .vssubVs d a b k _ => s.same 32 d a (.vs b) k vssubSpec
  | .vssubuVv d a b k _ => s.same 32 d a (.vv b) k vssubuSpec
  | .vssubuVs d a b k _ => s.same 32 d a (.vs b) k vssubuSpec
  | .vsmulVv d a b k _ => s.same 32 d a (.vv b) k (vsmulSpec s)
  | .vsmulVs d a b k _ => s.same 32 d a (.vs b) k (vsmulSpec s)
  | .vaaddVv d a b k _ => s.same 32 d a (.vv b) k (vaaddSpec s)
  | .vaaddVs d a b k _ => s.same 32 d a (.vs b) k (vaaddSpec s)
  | .vaaddVi d a k _ i => s.same 32 d a (.imm i) k (vaaddSpec s)
  | .vssrVv d a b k _ => s.same 32 d a (.vv b) k (vssrSpec s)
  | .vssrVs d a b k _ => s.same 32 d a (.vs b) k (vssrSpec s)
  | .vssrVi d a k _ i => s.same 32 d a (.uimm i) k (vssrSpec s)
  | .vmergeVv d a b k _ => s.merge d a (.vv b) k
  | .vmergeVs d a b k _ => s.merge d a (.vs b) k
  | .vmergeVi d a k _ i => s.merge d a (.imm i) k
  | .vmvVv d b k _ => s.same 32 d d (.vv b) k fun _ _ b _ => { val := b }
  | .vmvVs d b k _ => s.same 32 d d (.vs b) k fun _ _ b _ => { val := b }
  | .vmvVi d k _ i => s.same 32 d d (.imm i) k fun _ _ b _ => { val := b }
  | .vidx d k _ t st =>
    if groupOk d s.grp then
      some { len := 32, d := d, n := s.grp, w := s.cw, k := k, f := fun i => modOut s.cw (st.toInt + i * t.toInt) }
    else none
  | .vsextVv d a b k _ => s.same 32 d a (.vv b) k fun w a b _ => signField w a (b % 64 + 1)
  | .vsextVs d a b k _ => s.same 32 d a (.vs b) k fun w a b _ => signField w a (b % 64 + 1)
  | .vsextVi d a k _ i => s.same 32 d a (.uimm i) k fun w a b _ => signField w a (b + 1)
  | .vzextVv d a b k _ => s.same 32 d a (.vv b) k fun w a b _ => zeroField w a (b % 64 + 1)
  | .vzextVs d a b k _ => s.same 32 d a (.vs b) k fun w a b _ => zeroField w a (b % 64 + 1)
  | .vzextVi d a k _ i => s.same 32 d a (.uimm i) k fun w a b _ => zeroField w a (b + 1)
  | .cVadd p => s.compactV fun l => s.same 16 l l (.vv p) 0 vaddSpec
  | .cVsub p => s.compactV fun l => s.same 16 l l (.vv p) 0 vsubSpec
  | .cVand p => s.compactV fun l => s.same 16 l l (.vv p) 0 vandSpec
  | .cVor p => s.compactV fun l => s.same 16 l l (.vv p) 0 vorSpec
  | .cVxor p => s.compactV fun l => s.same 16 l l (.vv p) 0 vxorSpec
  | .cVmul p => s.compactV fun l => s.same 16 l l (.vv p) 0 vmulSpec
  | .cVmacc q p => s.compactV fun l => s.same 16 l p (.vv q) 0 vmaccSpec
  | .cVadds p => s.compactV fun l => s.same 16 l l (.vs p) 0 vaddSpec
  | .cVmuls p => s.compactV fun l => s.same 16 l l (.vs p) 0 vmulSpec
  | _ => none

/-- The widening and narrowing integer instructions (R194, R195). -/
def State.vectorResizing (s : State) : Instr → Option VSpec
  | .vwaddVv d a b k _ => s.wide d a (.vv b) k (vwaddSpec s)
  | .vwaddVs d a b k _ => s.wide d a (.vs b) k (vwaddSpec s)
  | .vwmulVv d a b k _ => s.wide d a (.vv b) k (vwmulSpec s)
  | .vwmulVs d a b k _ => s.wide d a (.vs b) k (vwmulSpec s)
  | .vwmaccVv d a b k _ => s.wide d a (.vv b) k vwmaccSpec
  | .vwmaccVs d a b k _ => s.wide d a (.vs b) k vwmaccSpec
  | .vwmaccuVv d a b k _ => s.wide d a (.vv b) k vwmaccuSpec
  | .vwmaccuVs d a b k _ => s.wide d a (.vs b) k vwmaccuSpec
  | .vnshrVv d a b k _ => s.narrow d a (.vv b) k (vnshrSpec s)
  | .vnshrVs d a b k _ => s.narrow d a (.vs b) k (vnshrSpec s)
  | .vnshrVi d a k _ i => s.narrow d a (.uimm i) k (vnshrSpec s)
  | _ => none

end Sys2Proof.Machine
end

