-- ==== Sys2Proof/Safety/Memory.lean ====
section
/-! DEFINITION. What loads and stores leave of memory, bit by bit and byte by byte, and the elements that the vector loads and
stores of R145 to R158 move. -/

namespace Sys2Proof.Machine

/-- The bit of memory at a bit address (R16, R17). -/
def Mem.bit (m : Mem) (b : Nat) : Bool := (m.byte (b / 8)).getLsbD (b % 8)

/-- The canonical form of everything that holds bytes: memory and the local store of every core. -/
structure State.Inv (s : State) : Prop where
  mem : s.ms.mem.wf
  ls : s.core.ls.wf
  others : ∀ x ∈ s.others, x.2.ls.wf

/-- No part of an access lies in a packed page (R276). -/
def unpacked (segs : List Seg) : Prop := ∀ g ∈ segs, ∀ f o w, g ≠ .packed f o w

/-- The lines of physical memory that an access touches (R291). -/
def touchesLine (segs : List Seg) (line : Nat) : Prop := ∃ a w, Seg.phys a w ∈ segs ∧ line ∈ linesOf a w

/-- What the bits of a value v become where its parts lie (R21): the value that the last part over bit b of physical memory
gives it. -/
def writtenBit : List Seg → Nat → Nat → Option Bool
  | [], _, _ => none
  | g :: gs, v, b =>
    match writtenBit gs (v >>> g.width) b with
    | some x => some x
    | none =>
      match g with
      | .phys a w => if a ≤ b ∧ b < a + w then some (v.testBit (b - a)) else none
      | _ => none

/-- The same for the local store, whose window control blocks no store writes (R250). -/
def writtenLocal : List Seg → Nat → Nat → Option Bool
  | [], _, _ => none
  | g :: gs, v, b =>
    match writtenLocal gs (v >>> g.width) b with
    | some x => some x
    | none =>
      match g with
      | .ls a w => if a ≤ b ∧ b < a + w ∧ (a + w ≤ Config.blocksBase ∨ b < Config.blocksBase) then some (v.testBit (b - a)) else none
      | _ => none

/-- After a store of v: every bit of physical memory and of the local store that the access does not name is as before, and
those it names are v's. -/
structure State.Stored (s t : State) (segs : List Seg) (v : Nat) : Prop where
  mem : ∀ b, t.ms.mem.bit b = (writtenBit segs v b).getD (s.ms.mem.bit b)
  ls : ∀ b, t.core.ls.bit b = (writtenLocal segs v b).getD (s.core.ls.bit b)

/-- Bytes keep their values outside the lines that a last-use hint removes (R115, R294). -/
def State.OnlyLines (s t : State) (segs : List Seg) : Prop :=
  ∀ x, ¬ touchesLine segs (lineOf (8 * x)) → t.ms.mem.byte x = s.ms.mem.byte x

/-- A page-table entry that points to a table, one that maps an 8 GiB block, and one that maps a 4 MiB page (R40, R41). -/
def isTable (e : Nat) : Prop := e % 2 = 1 ∧ e / 2 ^ 4 % 2 = 0 ∧ e / 2 ^ 54 % 16 = 0 ∧ e / 2 ^ 8 % 2 ^ 9 = 0 ∧ e / 2 ^ 7 % 2 = 0
def isBlock (e : Nat) : Prop :=
  e % 2 = 1 ∧ e / 2 ^ 4 % 2 = 1 ∧ e / 2 ^ 54 % 16 = 0 ∧ e / 2 ^ 8 % 2 ^ 9 = 0 ∧ e / 2 ^ 7 % 2 = 0 ∧ e / 2 ^ 17 % 2 ^ 19 = 0
def isLeaf (e : Nat) : Prop := e % 2 = 1 ∧ e / 2 ^ 4 % 2 = 1 ∧ e / 2 ^ 54 % 16 = 0 ∧ e / 2 ^ 8 % 2 ^ 9 = 0 ∧ e / 2 ^ 17 % 2 ^ 8 = 0

/-- Entry i of the table that a root or a table entry x points to is e; no memory is there where it is not populated (R40, R43). -/
def entryIs (pte : Nat → Nat) (x i e : Nat) : Prop :=
  populated (x / 2 ^ 17 % 2 ^ 37 * 2 ^ 17 + 64 * i) = true ∧ e = pte (x / 2 ^ 17 % 2 ^ 37 * 2 ^ 17 + 64 * i)

/-- The walk of va from a root leads to the leaf or block entry e and to the physical address pa (R40, R41). -/
def LeadsTo (pte : Nat → Nat) (root : Word) (va e pa : Nat) : Prop :=
  root.toNat % 2 = 1 ∧ ∃ e1 e2, entryIs pte root.toNat (va / 2 ^ 47 % 2 ^ 11) e1 ∧ isTable e1 ∧
    entryIs pte e1 (va / 2 ^ 36 % 2 ^ 11) e2 ∧
    ((isBlock e2 ∧ e = e2 ∧ pa = e2 / 2 ^ 36 % 2 ^ 18 * 2 ^ 36 + va % 2 ^ 36) ∨
      (isTable e2 ∧ entryIs pte e2 (va / 2 ^ 25 % 2 ^ 11) e ∧ isLeaf e ∧ pa = e / 2 ^ 25 % 2 ^ 29 * 2 ^ 25 + va % 2 ^ 25))

/-- The walk of va from a root reads the entry at address a (R40, R41). -/
def WalkReads (pte : Nat → Nat) (root : Word) (va a : Nat) : Prop :=
  let at_ (x i : Nat) : Nat := x / 2 ^ 17 % 2 ^ 37 * 2 ^ 17 + 64 * i
  root.toNat % 2 = 1 ∧ (a = at_ root.toNat (va / 2 ^ 47 % 2 ^ 11) ∨
    ∃ e1, entryIs pte root.toNat (va / 2 ^ 47 % 2 ^ 11) e1 ∧ isTable e1 ∧ (a = at_ e1 (va / 2 ^ 36 % 2 ^ 11) ∨
      ∃ e2, entryIs pte e1 (va / 2 ^ 36 % 2 ^ 11) e2 ∧ isTable e2 ∧ a = at_ e2 (va / 2 ^ 25 % 2 ^ 11)))

/-- The walk of va reads an entry in the protected heap of a region (R304). -/
def State.WalksHeap (s : State) (root : Word) (va : Nat) : Prop := ∃ a, WalkReads s.ms.pte root va a ∧ s.inHeap a 64 = true

/-- The walk of va reads an entry behind a lost port (R351). -/
def State.WalksLost (s : State) (root : Word) (va : Nat) : Prop := ∃ a, WalkReads s.ms.pte root va a ∧ s.linkDown a 64 = true

/-- The cause of a page that fails (R41, R304, R351): PERM where its walk reads a heap, and LINKDOWN may stand where it reads behind a
lost port, unless a translation that is kept serves. -/
def State.PageFails (s : State) (root : Word) (va : Nat) (c : Cause) : Prop :=
  (s.WalksHeap root va → c = .perm) ∧ (¬ s.WalksHeap root va → c = .page ∨ (c = .linkdown ∧ s.WalksLost root va))

/-- The exact offset that a scalar access forms (R111). -/
def eaOffset (t b : Word) : Int := (t.toNat % 2 ^ 58 : Nat) + b.toInt

/-- The effective address of R111, where it traps on none of its checks. -/
def eaOf (t b : Word) : Option Word :=
  if t.toNat / 2 ^ 58 % 4 = 0 ∧ 0 ≤ eaOffset t b ∧ eaOffset t b < 2 ^ 58 then
    some (BitVec.ofNat 64 (t.toNat / 2 ^ 60 * 2 ^ 60 + (eaOffset t b).toNat))
  else none

/-- Where w bits at an exact offset from a base lie, or the trap of the first failing check (R111, R148, R258). -/
def State.spot (s : State) (base : Word) (off : Int) (w : Nat) (c : Class) : Except Trap (List Seg) :=
  let o : Int := (base.toNat % 2 ^ 58 : Nat) + off
  if base.toNat / 2 ^ 58 % 4 ≠ 0 ∨ o < 0 ∨ 2 ^ 58 ≤ o then .error ⟨.addr, base, 0, 0⟩
  else s.resolve s.via (BitVec.ofNat 64 (base.toNat / 2 ^ 60 * 2 ^ 60 + o.toNat)) w c

/-- A value of w bits as LD writes it: extended with zeros, or from bit w - 1 (R112). -/
def extended (sx : BitVec 1) (w : Nat) (x : Nat) : Word :=
  if sx = 1 then (BitVec.ofNat w x).signExtend 64 else (BitVec.ofNat w x).setWidth 64

end Sys2Proof.Machine
end

