-- ==== Sys2Proof/Safety/VectorMemory.lean ====
section
/-! DEFINITION. The elements that vector loads and stores move, as R144 to R158 state them: where each lies, what it holds
afterwards, and what memory holds. -/

namespace Sys2Proof.Machine

/-- A vector load or store: its first data register, mask and hint, the fields of an element, the base, the exact offset of
field f of element i, the class of its accesses, and how a load reads. -/
structure MSpec where
  d : BitVec 5
  k : BitVec 3
  h : BitVec 3
  nf : Nat
  base : Word
  off : Nat → Nat → Int
  cls : Class
  read : List Seg → Nat

/-- A form with one field, where its data group is legal (R147). -/
def State.oneField (s : State) (d a : BitVec 5) (k h : BitVec 3) (c : Class) (read : List Seg → Nat) (off : Nat → Int) :
    Option MSpec :=
  if d.toNat % s.grp = 0 ∧ d.toNat + s.grp ≤ 32 then
    some { d := d, k := k, h := h, nf := 1, base := s.g a, off := fun i _ => off i, cls := c, read := read }
  else none

/-- A segment form (R146, R147). -/
def State.manyFields (s : State) (d a : BitVec 5) (k h : BitVec 3) (n : BitVec 5) (c : Class) : Option MSpec :=
  let nf := n.toNat + 1
  if 2 ≤ nf ∧ nf ≤ 8 ∧ d.toNat % s.grp = 0 ∧ d.toNat + nf * s.grp ≤ 32 then
    some { d := d, k := k, h := h, nf := nf, base := s.g a, off := fun i f => ((i * nf + f) * vtW s.vt : Nat), cls := c,
           read := s.readSegs }
  else none

/-- Element i of an index group, as an offset (R146). -/
def State.indexAt (s : State) (b : BitVec 5) (i : Nat) : Int := (elem (s.group b.toNat s.grp) s.cw i : Nat)

/-- The vector loads with legal fields (R146, R147, R158). -/
def State.vectorLoad (s : State) : Instr → Option MSpec
  | .vld d a k h => s.oneField d a k h .load s.readSegs fun i => (i * vtW s.vt : Nat)
  | .vlds d a b k h => s.oneField d a k h .load s.readSegs fun i => i * (s.g b).toInt
  | .vldx d a b k h =>
    if groupOk b s.grp ∧ ¬ groupsMeet d s.grp b s.grp then s.oneField d a k h .load s.readSegs (s.indexAt b) else none
  | .vldseg d a k h n => s.manyFields d a k h n .load
  | .vldff d a k h => s.oneField d a k h .load s.readSegs fun i => (i * vtW s.vt : Nat)
  | .vldc d a k h => s.oneField d a k h .const (s.readSegsConst s.seq.constMark) fun i => (i * vtW s.vt : Nat)
  | _ => none

/-- The vector stores with legal fields. -/
def State.vectorStore (s : State) : Instr → Option MSpec
  | .vst d a k h => s.oneField d a k h .store s.readSegs fun i => (i * vtW s.vt : Nat)
  | .vsts d a b k h => s.oneField d a k h .store s.readSegs fun i => i * (s.g b).toInt
  | .vstx d a b k h => if groupOk b s.grp then s.oneField d a k h .store s.readSegs (s.indexAt b) else none
  | .vstseg d a k h n => s.manyFields d a k h n .store
  | _ => none

/-- Where field f of element i lies, or the trap of its first failing check (R148). -/
def State.fieldAt (s : State) (r : MSpec) (i f : Nat) : Except Trap (List Seg) :=
  s.spot r.base (r.off i f) (vtW s.vt) r.cls

/-- Every field of every active element from ESTART, below n, passes its checks, and lies where `at_` says. -/
def State.Placed (s : State) (r : MSpec) (n : Nat) (at_ : Nat → Nat → List Seg) : Prop :=
  ∀ i ∈ s.active r.k s.estart, i < n → ∀ f, f < r.nf → s.fieldAt r i f = .ok (at_ i f)

/-- Element i is the lowest active one that fails, with the trap of its first failing field (R148). -/
def State.FailsAt (s : State) (r : MSpec) (i : Nat) (tr : Trap) : Prop :=
  i ∈ s.active r.k s.estart ∧ ∃ f, f < r.nf ∧ s.fieldAt r i f = .error tr ∧ ∀ g, g < f → ∃ x, s.fieldAt r i g = .ok x

/-- The parts of memory that the active elements below n touch. -/
def State.parts (s : State) (r : MSpec) (n : Nat) (at_ : Nat → Nat → List Seg) : List Seg :=
  ((s.active r.k s.estart).filter (· < n)).flatMap fun i => (List.range r.nf).flatMap fun f => at_ i f

/-- A loaded value in its container (R149). -/
def State.container (s : State) (x : Nat) : Nat :=
  if vtMsx s.vt then ((BitVec.ofNat (vtW s.vt) x).signExtend s.cw).toNat else x % 2 ^ s.cw

/-- Element i of field f after a load that performs the elements below n; `done` says that it has completed (R145, R149). -/
def State.afterLoad (s : State) (r : MSpec) (n : Nat) (done : Bool) (at_ : Nat → Nat → List Seg) (f i : Nat) : Nat :=
  let old := s.elemAt (r.d.toNat + f * s.grp) s.grp s.cw i
  if s.vl ≤ i then (if done && vtTail s.vt then 0 else old)
  else if i < s.estart then old
  else if s.maskBit r.k i then (if i < n then s.container (r.read (at_ i f)) else old)
  else if done && vtMskp s.vt then 0 else old

/-- The elements and the other vector registers after a load. -/
def State.Loads (s t : State) (r : MSpec) (n : Nat) (done : Bool) (at_ : Nat → Nat → List Seg) : Prop :=
  (∀ f, f < r.nf → ∀ i, s.cw * i + s.cw ≤ 16384 * s.grp →
    t.elemAt (r.d.toNat + f * s.grp) s.grp s.cw i = s.afterLoad r n done at_ f i) ∧
  ∀ p, p < r.d.toNat ∨ r.d.toNat + r.nf * s.grp ≤ p → t.vRaw p = s.vRaw p

/-- Control registers in which the elements `is` of each field have raised the high-water marks (R161). -/
def State.loadMarks (s : State) (r : MSpec) (c : Ctl) (is : List Nat) : Ctl :=
  (List.range r.nf).foldl (fun c f => c.marked (r.d.toNat + f * s.grp) s.cw is) c

/-- The stream position of element i of a chained load (R155): the one at its ring offset in the lap from the released count on. -/
def State.chainPos (s : State) (t : Word) (x : BitVec 128) (rel i : Nat) : Nat :=
  rel + ((((t.toNat % 2 ^ 58 + i * vtW s.vt : Nat) : Int) - (rel : Nat)) % ((extLen x : Nat) : Int)).toNat

/-- Where element i of a chained load lies, or the trap of its first failing check, of which the last is that it lies within
one lap of the released count (R154, R155). -/
def State.chainAt (s : State) (t : Word) (x : BitVec 128) (rel i : Nat) : Except Trap (List Seg) :=
  let w := vtW s.vt
  match s.spot t (i * w : Nat) w .chained with
  | .error e => .error e
  | .ok segs =>
    if s.chainPos t x rel i + w ≤ rel + extLen x then .ok segs
    else .error ⟨.bounds, t + BitVec.ofNat 64 (i * w), BitVec.ofNat 64 w, BitVec.ofNat 64 (extLen x)⟩

/-- What a chained load captures when it issues (R34, R154, R163). -/
def State.chainOf (s : State) (d : BitVec 5) (t : Word) (k : BitVec 3) (x : BitVec 128) (rel : Nat) : Chain :=
  { first := s.estart, d := d, t := t, ext := x, rel := rel, vl := s.core.ctl.vl, vt := s.vt
    act := s.active k s.estart, off := (List.range s.vl).filter fun i => s.estart ≤ i ∧ s.maskBit k i = false }

/-- What a store writes of a container, and whether it saturates (R150). -/
def State.storedOut (s : State) (x : Nat) : Out :=
  let w := vtW s.vt
  if ¬ vtMsat s.vt ∨ w = s.cw then { val := x % 2 ^ w }
  else if vtMsx s.vt then clampS w (toInt s.cw x) else clampZ w x

/-- The writes of a store, in their order: the active elements from ESTART below n, each with its fields in order (R150). -/
def State.writes (s : State) (r : MSpec) (n : Nat) (at_ : Nat → Nat → List Seg) : List (List Seg × Out) :=
  ((s.active r.k s.estart).filter (· < n)).flatMap fun i => (List.range r.nf).map fun f =>
    (at_ i f, s.storedOut (elem (s.group (r.d.toNat + f * s.grp) s.grp) s.cw i))

/-- The value that a list of writes leaves in bit b of physical memory: that of the last one over it (R23, R150). -/
def writtenBits : List (List Seg × Out) → Nat → Option Bool
  | [], _ => none
  | x :: xs, b => (writtenBits xs b).or (writtenBit x.1 x.2.val b)

/-- The same for the local store. -/
def writtenLocals : List (List Seg × Out) → Nat → Option Bool
  | [], _ => none
  | x :: xs, b => (writtenLocals xs b).or (writtenLocal x.1 x.2.val b)

/-- What a store leaves: every bit as the last write over it says, no register but FXSAT and ESTART changed. -/
structure State.Stores (s t : State) (ws : List (List Seg × Out)) (estart : Word) (q : Seq) : Prop where
  frame : ∃ ms ls, t = ({ s with ms := ms, core := { s.core with
    ls := ls, ctl := { (s.raised s.core.ctl 0 (ws.any fun x => x.2.sat)) with estart := estart } } }).withSeq q
  mem : ∀ b, t.ms.mem.bit b = (writtenBits ws b).getD (s.ms.mem.bit b)
  ls : ∀ b, t.core.ls.bit b = (writtenLocals ws b).getD (s.core.ls.bit b)

end Sys2Proof.Machine
end

