-- ==== Sys2Proof/Safety/Sync.lean ====
section
/-! DEFINITION. Atomics, guards, windows and waits as their rules state them (R250 to R253, R328 to R344, R403). -/

namespace Sys2Proof.Machine

/-- The new value of an AMO by the code of its operation (R339): m is the memory value, b the operand, of w bits. -/
def amoValue (op w m b : Nat) : Nat :=
  if op = 0 then (m + b) % 2 ^ w
  else if op = 1 then m &&& b
  else if op = 2 then m ||| b
  else if op = 3 then m ^^^ b
  else if op = 4 then (if toInt w m ≤ toInt w b then m else b)
  else if op = 5 then (if toInt w b ≤ toInt w m then m else b)
  else if op = 6 then min m b
  else if op = 7 then max m b
  else if op = 8 then b
  else (fAdd (if w = 32 then .f32 else .f64) 0 m b).bits

/-- The new value of a VAMO by the code of its operation; .fadd adds in the format of cw (R339). -/
def vamoValue (op w : Nat) (f : Fmt) (m b : Nat) : Nat :=
  if op = 0 then amoValue 0 w m b
  else if op = 1 then (fAdd f 0 m b).bits
  else if op = 2 then amoValue 1 w m b
  else if op = 3 then amoValue 2 w m b
  else amoValue op w m b

/-- One atomic per listed element, in order, each on what the ones before it left: the state, and the old value that each
element sees (R341). -/
def State.vamoRun (s : State) (w : Nat) (new : Nat → Nat → Nat) (at_ : Nat → List Seg) : List Nat → State × (Nat → Nat)
  | [] => (s, fun _ => 0)
  | i :: is =>
    let m := s.readSegs (at_ i)
    let r := (s.store (some (s.keep true)) (at_ i) w (new i m)).vamoRun w new at_ is
    (r.1, fun j => if j = i then m else r.2 j)

/-- The fields of a window control block (R250). -/
def State.blockOf (s : State) (n : Nat) : Nat := s.core.ls.readBits (Config.blocksBase + 256 * n) 256
def wcntOf (b : Nat) : Nat := b % 2 ^ 64
def rcntOf (b : Nat) : Nat := b / 2 ^ 64 % 2 ^ 64
def capOf (b : Nat) : Nat := b / 2 ^ 128 % 2 ^ 25
def liveOf (b : Nat) : Prop := b / 2 ^ 154 % 2 = 1
def boundOf (b : Nat) : Prop := b / 2 ^ 155 % 2 = 1

/-- The trap of the extent checks of a window instruction on a tagged address, or its extent (R252). -/
def State.windowOf (s : State) (t : Word) (wr : Bool) : Except Trap (BitVec 128) :=
  let x := s.extents[t.toNat / 2 ^ 60]?.getD 0
  if t.toNat / 2 ^ 58 % 4 ≠ 0 then .error ⟨.addr, t, 0, 0⟩
  else if extKind x ≠ 2 ∨ (wr = true ∧ extWrite x = false) ∨ (wr = false ∧ extRead x = false) then .error ⟨.perm, t, 0, 0⟩
  else if t.toNat % 2 ^ 58 ≠ 0 then .error ⟨.addr, t, 0, 0⟩
  else .ok x

/-- The state in which the instruction that the sequencer in focus waits in is performed again: as its replay entry where it is
one (R393). -/
def State.retried (s : State) : State :=
  match s.seq.replay with
  | [] => s
  | e :: _ => s.atReplay e

/-- The instruction that the sequencer of s waited in has completed, and left v: the sequencer goes on behind it, or, where it was
a replay entry that had retired, at the saved PC, with the loop stack, LDR and ESTART as they stand for what follows (R59, R393), and
with the rest of the list. Its distances, what it has in flight and the time until its next instruction are left open (R52, R53,
R55). -/
def State.EndsWait (s v t : State) : Prop :=
  ∃ rec fl due, let q : Seq := { v.seq with record := rec, inFlight := fl, due := due }
    match s.seq.replay with
    | [] => t = v.withSeq q
    | _ :: rest =>
      let o := s.seq.owed
      let r : Seq := { q with replay := rest, back := none, owed := { o with unretired := o.unretired && ! rest.isEmpty } }
      t = if rest = [] ∧ o.unretired = true then v.withSeq r
        else if s.cur = .main then (v.withSeq (r.withPlace s.seq)).setEstart o.estart
        else v.withSeq (r.withPlace s.seq)

/-- The state with the vector state and the extent that a chained load captured when it issued (R34, R163). -/
def State.asIssued (s : State) (k : Chain) : State :=
  (s.mapCtl fun c => { c with vl := k.vl, vt := k.vt }).withSeq { s.seq with snap := some (Vector.replicate 16 k.ext) }

/-- Element i of a chained load lies at `at_`, and the write count of its window has passed it (R155). -/
def State.Arrived (s : State) (k : Chain) (i : Nat) (at_ : List Seg) : Prop :=
  let z := s.asIssued k
  z.chainAt k.t k.ext k.rel i = .ok at_ ∧
    z.chainPos k.t k.ext k.rel i + vtW k.vt ≤ s.core.ls.readBits (Config.blocksBase + 256 * extTidx k.ext) 64

/-- What a chained load captured is as an issue leaves it: a legal group, and elements below a VL of at most VLMAX. -/
def Chain.Sound (k : Chain) : Prop :=
  k.d.toNat % vtG k.vt = 0 ∧ k.d.toNat + vtG k.vt ≤ 32 ∧ k.vl.toNat ≤ vlmax k.vt ∧
  k.act.Sublist (List.range k.vl.toNat) ∧ k.off.Sublist (List.range k.vl.toNat)

/-- The window is open: live, with the extent's capacity. -/
def State.isOpen (s : State) (x : BitVec 128) : Prop := liveOf (s.blockOf (extTidx x)) ∧ capOf (s.blockOf (extTidx x)) = extLen x

/-- Only block n of the local store differs. -/
def State.OnlyBlock (s u : State) (n : Nat) : Prop :=
  ∃ ls, u = { s with core := { s.core with ls := ls } } ∧
    ∀ x, x < (Config.blocksBase + 256 * n) / 8 ∨ (Config.blocksBase + 256 * n) / 8 + 32 ≤ x → ls.byte x = s.core.ls.byte x

end Sys2Proof.Machine
end

