-- ==== Sys2Proof/Safety/Streams.lean ====
section
/-! DEFINITION. Stream queues, programs and commands as their rules state them (R228, R233 to R253, R320, R338). -/

namespace Sys2Proof.Machine

/-- The programs and the markers of a queue (R234, R338). -/
def QEntry.isProgram : QEntry → Bool
  | .program _ => true
  | .marker _ => false
def Queue.count (q : Queue) : Nat := (q.entries.filter QEntry.isProgram).length
def Queue.joins (q : Queue) : Nat := (q.entries.filter fun e => ! e.isProgram).length

/-- The trap that a recorded stream fault raises (R239). -/
def SFault.raised (f : SFault) : Trap :=
  let cause := [Cause.illop, .addr, .bounds, .page, .perm, .illop, .barclobber, .missver, .vcollide, .vstale, .vfull, .linkdown]
  if f.cause = 2 then ⟨.bounds, f.tval, f.width, f.limit⟩ else ⟨cause.getD f.cause .illop, f.tval, 0, 0⟩

/-- The machine differs in the task's queues alone, and of these in queue q alone. -/
def State.OnlyQueue (s u : State) (q : Nat) (x : Queue) : Prop :=
  ∃ ts, u = { s with sched := { s.sched with tasks := ts } } ∧ u.queue q = x ∧ ∀ p, p ≠ q → u.queue p = s.queue p

/-- The report of SQSTAT (R237). -/
def reportOf (s : State) (x : Queue) (sel : Nat) : Nat :=
  let run := match x.entries with
    | .program p :: _ => s.str.ctxs.find? fun (c : Ctx) => c.pid = p.pid
    | _ => none
  match sel, x.fault with
  | 0, f => (f.elim 0 SFault.cause) * 2 ^ 20 + (run.elim 63 Ctx.engine) * 2 ^ 8 + (if f.isSome then 2 ^ 5 else 0) +
      (if run.isSome then 2 ^ 4 else 0) + x.count
  | 1, some f => f.tval.toNat
  | 2, some f => f.command.toNat
  | 3, some f => f.limit.toNat
  | 4, some f => f.width.toNat
  | _, _ => 0

/-- The command is done: the program's context is changed by f and stands behind the command (R242). Nothing but that context
differs from u. -/
def State.CommandDone (u t : State) (f : Ctx → Ctx) : Prop := t = u.mapProg fun y => { f y with spc := y.spc + 64 }

/-- A delivery (R246): its destination, the width and number of its items, and how an item is read, where `at_ n` is the state after
the first n items are placed. -/
structure Delivery where
  dst : Word
  w : Nat
  count : Nat
  get : (Nat → State) → Nat → Got

/-- A value that was read, converted. -/
def Got.convert (g : Got) (f : Nat → Nat) : Got :=
  match g with
  | .val v => .val (f v)
  | other => other

/-- Element j of an index list at t, of 16, 32 or 64 bits, read by the program (R248). -/
def State.indexRead (s : State) (x : Ctx) (t : Word) (iw : BitVec 2) (j : Nat) : Got :=
  s.streamRead x t (j * (16 * 2 ^ iw.toNat) : Nat) (16 * 2 ^ iw.toNat)

/-- The rows that SGATH and SSCAT move: the field, or c0 for 0 (R248). -/
def Ctx.rowCount (x : Ctx) (n : BitVec 12) : Nat := if n.toNat = 0 then (x.c.get 0).toNat else n.toNat

/-- The deliveries of STILE, SGATH and SFILL with legal fields (R228, R241, R244 to R248). SGATH reads the index of a row once, before the
row's elements; one whose rows have no elements delivers nothing. -/
def State.delivery (x : Ctx) : Instr → Option Delivery
  | .stile d a b cols rows o0 o1 =>
    let r := x.d[d.toNat]?.getD 0
    let t0 := cols.toNat + 1
    match x.conv.use (descW r) false with
    | none => none
    | some (w, f) => if 8 ≤ d.toNat then none else some { dst := x.c.get b.toFin, w := w, count := t0 * (rows.toNat + 1), get := fun at_ i =>
        ((at_ i).tensorRead x r ((x.c.get a.toFin).toNat * o0.toNat + i % t0) ((x.c.get a.toFin).toNat * o1.toNat + i / t0)).convert f }
  | .sgath d a b n iw =>
    let r := x.d[d.toNat]?.getD 0
    let z := descSize r 0
    match x.conv.use (descW r) false with
    | none => none
    | some (w, f) => if 8 ≤ d.toNat ∨ iw = 3 ∨ z = 0 then none else
      some { dst := x.c.get b.toFin, w := w, count := x.rowCount n * z, get := fun at_ i =>
        match (at_ (i - i % z)).indexRead x (x.c.get a.toFin) iw (i / z) with
        | .val j => ((at_ i).tensorRead x r (i % z) j).convert f
        | other => other }
  | .sfill b m => if m = 0 then none else some { dst := x.c.get b.toFin, w := 1, count := m.toNat, get := fun _ _ => .val 0 }
  | _ => none

/-- The items below n written one after the other where `at_` says (R246). -/
def State.dense (s : State) (x : Ctx) (at_ : Nat → List Seg) (w : Nat) (val : Nat → Nat) (n : Nat) : State :=
  (List.range n).foldl (fun u i => u.store (u.streamKeep x (at_ i)) (at_ i) w (val i)) s

/-- w bits written at position p of the ring of the window behind extent e (R228): at ring offset p mod CAP, and, past the end,
from the ring's start. -/
def State.ringPut (s : State) (e : BitVec 128) (p w v : Nat) : State :=
  let o := p % extLen e
  if o + w ≤ extLen e then s.writeSeg none (.ls (extBase e + o) w) v (2 ^ w - 1)
  else
    let k := extLen e - o
    (s.writeSeg none (.ls (extBase e + o) k) v (2 ^ k - 1)).writeSeg none (.ls (extBase e) (w - k)) (v / 2 ^ k) (2 ^ (w - k) - 1)

/-- The items below n written into the ring from position p on. -/
def State.ringItems (s : State) (e : BitVec 128) (p w : Nat) (val : Nat → Nat) (n : Nat) : State :=
  (List.range n).foldl (fun u i => u.ringPut e (p + i * w) w (val i)) s

/-- The window n bound to the program in focus, with its queue (R251). -/
def State.bindWindow (s : State) (x : Ctx) (n : Nat) : State :=
  if s.blockOf n / 2 ^ 155 % 2 = 1 then s else
  (s.putBinding n true x.queue).mapProg fun y => { y with bound := n :: y.bound.filter (· ≠ n) }

/-- The write count of window n set to v. -/
def State.setCount (s : State) (n v : Nat) : State := s.mapCore fun c => c.putBlock n (putBits (c.block n) 63 0 v)

/-- The rows of a scatter (R248): where element e of row i goes and what it is; a row out of range, and an element out of its
tensor, is dropped. -/
def State.scatterElems (s : State) (r : BitVec 512) (x : Ctx) (j i : Nat) (at_ : Nat → Nat → List Seg) (val : Nat → Nat → Nat)
    (n : Nat) : State :=
  (List.range n).foldl (fun u e => if inside r (x.index e j) then u.store (u.streamKeep x (at_ i e)) (at_ i e) (descW r) (val i e) else u) s
def State.scatterRows (s : State) (r : BitVec 512) (x : Ctx) (idx : Nat → Nat) (at_ : Nat → Nat → List Seg) (val : Nat → Nat → Nat)
    (n : Nat) : State :=
  (List.range n).foldl (fun u i => if idx i < descSize r 1 then u.scatterElems r x (idx i) i at_ val (descSize r 0) else u) s

/-- What a stream fault leaves (R239): the queue faulted with its record and without programs, the program gone. -/
structure State.Faults (s u : State) (x : Ctx) (t : Trap) (w : Nat) : Prop where
  record : ∃ k, u.sched.task x.task = some k ∧ ∃ f, (k.queue x.queue).fault = some f ∧ f.raised = ⟨t.cause, t.tval,
    if t.cause = .bounds then BitVec.ofNat 64 w else 0, if t.cause = .bounds then t.xb else 0⟩ ∧
    f.width = BitVec.ofNat 64 w ∧ f.command = x.spc ∧ (k.queue x.queue).count = 0
  gone : ∀ y ∈ u.str.ctxs, y.pid ≠ x.pid
  others : ∀ y, y.pid ≠ x.pid → (y ∈ u.str.ctxs ↔ y ∈ s.str.ctxs)
  event : u.io.bbcnt = s.io.bbcnt + 1
  memory : u.ms = s.ms
  core : x.bound = [] → u.core = s.core

/-- The causes that a stream fault records (R239). -/
def streamCauses : List Cause :=
  [.illop, .addr, .bounds, .page, .perm, .barclobber, .missver, .vcollide, .vstale, .vfull, .linkdown]

end Sys2Proof.Machine
end

