-- ==== Sys2Proof/Safety/System.lean ====
section
/-! DEFINITION. Control registers, traps, the return from a handler and privilege as their rules state them (R31, R122 to R125, R139
to R143, R353 to R356, R385 to R390, R402 to R405). -/

namespace Sys2Proof.Machine

/-- The value of each control register of the map (R123). -/
def State.crValue (s : State) (a : Nat) : Option Word :=
  let c := s.core.ctl
  let q := s.seq
  let one : List (Nat × Word) :=
    [(0x000, c.vl), (0x001, c.vt), (0x002, c.estart), (0x003, c.fxrm), (0x004, c.fxsat), (0x005, c.frm), (0x006, c.fflags),
     (0x007, q.ldr), (0x008, q.rpidx), (0x009, c.hwea), (0x00A, c.hweb), (0x00B, q.rpbase), (0x01C, q.depth.setWidth 64),
     (0x020, c.mode), (0x021, c.cycle), (0x022, c.taskid), (0x023, Config.grancap), (0x024, c.vbyp), (0x025, c.mstat),
     (0x026, c.llcp), (0x040, c.tcause), (0x041, c.tval), (0x042, c.tpc), (0x043, c.tvec), (0x044, c.tstat), (0x045, c.txa),
     (0x046, c.txb), (0x050, c.ptroot)]
  let six (base : Nat) (v : Vector Word 6) : List (Nat × Word) := v.toList.zipIdx.map fun x => (base + x.2, x.1)
  let ext : List (Nat × Word) := s.core.e.toList.zipIdx.flatMap fun x =>
    [(0x100 + 2 * x.2, x.1.extractLsb' 0 64), (0x101 + 2 * x.2, x.1.extractLsb' 64 64)]
  ((one ++ six 0x010 q.lc ++ six 0x016 q.le ++ six 0x030 q.li ++ six 0x038 q.lb ++ ext).find? fun x => x.1 = a).map (·.2)

/-- What the performing sequencer may read of a register that holds x: of FXSAT and FFLAGS, without flags that the other
sequencer raised since the last RDV pair (R164). -/
def State.crSees (s : State) (a : Nat) (x y : Word) : Prop :=
  ∃ h : Word, h &&& (if s.cur = .main then s.core.ctl.unseenMain else s.core.ctl.unseenMatrix) = h ∧
    y = if a = 0x004 then x &&& ~~~(h >>> 8) else if a = 0x006 then x &&& ~~~(h &&& 0x1F) else x

/-- The bits that a register holds; the reserved ones read zero whatever is written (R122). -/
def crBits (a : Nat) : Word :=
  let addr : Word := 0x03FFFFFFFFFFFFF0
  (([(0x002, 0x7FFF), (0x003, 3), (0x004, 1), (0x005, 7), (0x006, 0x1F1F), (0x007, 0x7F), (0x008, 0xBFFF), (0x00B, addr),
     (0x020, 3), (0x022, 2 ^ 41 - 1), (0x024, 2 ^ 58 - 1), (0x025, 2 ^ 24 - 1), (0x026, 0x3F3F), (0x040, 0x1F), (0x042, addr),
     (0x043, addr), (0x044, 3), (0x050, 0xFFFFFFFFFFFE0001)] ++
    (List.range 6).flatMap fun i => [(0x016 + i, addr), (0x038 + i, addr)] : List (Nat × Word)).find? fun x => x.1 = a).elim
      (BitVec.allOnes 64) (·.2)

/-- The registers that only a privileged task writes (R122). -/
def crPrivileged (a : Nat) : Prop := a ∈ [0x020, 0x022, 0x024, 0x025, 0x026, 0x050] ∨ (0x100 ≤ a ∧ a ≤ 0x11F)

/-- A valid VT value (R141). -/
def vtLegal (v : Word) : Prop :=
  v.toNat < 2 ^ 19 ∧ v.toNat % 8 ≤ 3 ∧ v.toNat / 8 % 8 ≤ 3 ∧ v.toNat / 2 ^ 16 % 8 ≤ 3 ∧
  v.toNat / 2 ^ 8 % 64 + 1 ≤ 8 * 2 ^ (v.toNat % 8)

/-- VLMAX under a VT value (R140). -/
def vlMaxOf (v : Word) : Nat := 16384 * 2 ^ (v.toNat / 8 % 8) / (8 * 2 ^ (v.toNat % 8))

/-- An extent as the high-word write installs it: with LEN = 0 where a check of R31 fails. -/
def installed (x : BitVec 128) : BitVec 128 :=
  let kind := (x.extractLsb' 117 3).toNat
  let limit := if kind = 1 ∨ kind = 2 then 2 ^ 24 else 2 ^ 58
  if (x.extractLsb' 0 58).toNat + (x.extractLsb' 58 59).toNat ≤ limit ∧ kind ≤ 4 ∧
      (kind = 2 ∨ kind = 3 ∨ x.extractLsb' 122 6 = 0) then x
  else x &&& ~~~(((2 ^ 59 - 1 : Nat) : BitVec 128) <<< 58)

/-- What a register of the map holds after a write of v (R31, R122, R125, R130, R143): old is what it held. -/
def State.crHeld (s : State) (a : Nat) (v old : Word) : Word :=
  if a = 0x000 then BitVec.ofNat 64 (min v.toNat (vlMaxOf s.vt))
  else if a = 0x021 ∨ a = 0x023 then old
  else if a = 0x01C then (if v.toNat % 8 = 7 then old else v &&& 7)
  else if 0x100 ≤ a ∧ a ≤ 0x11F then
    if a % 2 = 0 ∨ a ≤ 0x101 then old else (installed (v ++ s.core.ctl.staged)).extractLsb' 64 64
  else v &&& crBits a

/-- Whether a write of register a may change register b too: VT clips VL, an extent's high word installs its low word. -/
def crLinked (a b : Nat) : Prop := a = b ∨ (a = 0x001 ∧ b = 0x000) ∨ (0x100 ≤ a ∧ a % 2 = 1 ∧ b + 1 = a)

/-- Nothing but control registers, extents and the registers of the performing sequencer differs, and that sequencer stands
where it stood. -/
def State.OnlyControl (s u : State) : Prop :=
  ∃ c e q, u = ({ s with core := { s.core with ctl := c, e := e } }).withSeq q ∧ q.pc = s.seq.pc ∧ q.frame = s.seq.frame ∧
    q.running = s.seq.running ∧ q.insn = s.seq.insn ∧ q.record = s.seq.record ∧ q.inFlight = s.seq.inFlight ∧
    q.replay = s.seq.replay ∧ q.back = s.seq.back ∧ q.owed = s.seq.owed ∧ q.due = s.seq.due ∧ q.constMark = s.seq.constMark ∧
    q.wait = s.seq.wait ∧ q.snap = s.seq.snap ∧ q.view = s.seq.view ∧ q.waited = s.seq.waited

/-- TVAL of a privileged operation refused to a task (R385). -/
def State.refusal (s : State) : Trap := ⟨.perm, BitVec.ofNat 64 (0xFFFFFFFF * 2 ^ 32 + s.seq.insn.toNat), 0, 0⟩

/-- The state of a core's sequencer after trap entry (R65, R356): stopped with its frame noted, at the handler. -/
def Seq.Enters (q r : Seq) (handler : BitVec 58) : Prop :=
  r.Fresh ∧ r.pc = handler ∧ r.running = q.running ∧ r.frame = none ∧ r.record = [] ∧ r.owed = {} ∧ r.back = q.back ∧
  r.due = q.due ∧ r.insn = q.insn ∧ r.g = q.g ∧ r.depth = q.depth ∧
  r.lc = q.lc ∧ r.li = q.li ∧ r.lb = q.lb ∧ r.le = q.le ∧ r.ldr = q.ldr ∧ r.inFlight = q.inFlight ∧ r.replay = q.replay ∧
  r.constMark = q.constMark ∧
  (q.frame = none → r.rpidx = q.rpidx ∧ r.rpbase = q.rpbase) ∧
  (∀ f, q.frame = some f → r.rpidx = BitVec.ofNat 64 (2 ^ 15 + 2 ^ 10 * (f.pos % 16) + q.rpidx.toNat % 1024) ∧
    r.rpbase = f.base.setWidth 64)

end Sys2Proof.Machine
end

