-- ==== Sys2Proof/Safety/Versions.lean ====
section
/-! DEFINITION. Versions, waits and the region table as their rules state them (R296 to R321): what a creation leaves, what
waking and parking change, and the region entry. -/

namespace Sys2Proof.Machine

/-- Two region entries with equal fields, HUSED, ST and OVF left out (R302). -/
def sameRegion (x y : BitVec 384) : Prop :=
  regBase x = regBase y ∧ regLen x = regLen y ∧ regHbase x = regHbase y ∧ regAsid x = regAsid y ∧ regHs x = regHs y ∧
  regHcap x = regHcap y

/-- Every region but n, and its versions, waits and heap waits, are as before. -/
def VerSys.OthersKept (v w : VerSys) (n : Nat) : Prop :=
  (∀ m, m ≠ n → w.region m = v.region m) ∧
  (∀ y, y.region ≠ n → (y ∈ w.versions ↔ y ∈ v.versions)) ∧
  (∀ y, y.region ≠ n → (y ∈ w.waits ↔ y ∈ v.waits)) ∧
  (∀ y, y.region ≠ n → (y ∈ w.heapWaits ↔ y ∈ v.heapWaits))

/-- What the version units hold after the creation of version k of word x of region n (R304, R306, R311). -/
structure VerSys.Creates (v w : VerSys) (n x k : Nat) (value : Word) : Prop where
  versions : w.versions = { region := n, word := x, number := k, value := value } :: v.versions
  used : regHused (w.region n) = (regHused (v.region n) + 128) % 2 ^ 48
  entry : sameRegion (w.region n) (v.region n) ∧ regWmark (w.region n) = regWmark (v.region n) ∧ regSt (w.region n) = regSt (v.region n)
  waits : w.waits = v.waits.filter fun y => ¬ (y.region = n ∧ ((y.word = x ∧ y.number = k) ∨ y.entered = false))
  others : v.OthersKept w n
  rest : w.heapWaits = v.heapWaits ∧ w.reclaim = v.reclaim ∧ w.closing = v.closing

/-- Who waits for what a test selects. -/
def VerSys.waiters (v : VerSys) (p : VWait → Bool) : List Waiter := (v.waits.filter p).map VWait.who

/-- Mason's write of one 64-bit word of an owner's memory, to the places that its address has, if it has any (R360, R410): the bits of
those places become the word's, and nothing else changes but what a packed page's spill notes (R284). -/
def State.OwnerStored (s t : State) (place : Option (List Seg)) (x : Nat) : Prop :=
  match place with
  | none => t = s
  | some segs => t = s.store none segs 64 x ∧ t = { s with ms := t.ms, io := t.io } ∧
      (unpacked segs → t.io = s.io ∧ (s.Inv → t.Inv ∧ s.Stored t segs x))

/-- The same for several words in ascending order. -/
def State.OwnerWrote (s : State) (vd va : Nat) : List Nat → State → Prop
  | [], u => u = s
  | x :: xs, u => ∃ t : State, s.OwnerStored t (s.ownerSegs vd va 64 true) x ∧ t.OwnerWrote vd (va + 64) xs u

/-- The eight words of a task's record as the owner's pool shows them: its image with its STATE in bits 467:464 (R357, R362). -/
def Task.recordWords (t : Task) : List Nat :=
  let r := t.image.toNat
  (List.range 8).map fun i => (r - r / 2 ^ 464 % 16 * 2 ^ 464 + t.state.code * 2 ^ 464) / 2 ^ (64 * i) % 2 ^ 64

/-- The record of a task is written to its place in its graph's pool; Mason's own graph has none (R357, R385). -/
def State.RecordWrote (s u : State) (y : Task) : Prop :=
  match s.sched.graph y.key.vdev y.key.graph with
  | none => u = s
  | some g => if g.vdev = 0 ∧ g.gid = 0xFFFF then u = s
    else s.OwnerWrote g.vdev (g.pool + 512 * y.key.record) y.recordWords u

/-- A task takes a state, which its record in the pool shows, and nothing else changes (R362). -/
def State.TakesState (s u : State) (k : TaskKey) (st : TaskState) : Prop :=
  match s.sched.task k with
  | none => u = s
  | some x =>
    let y := { x with state := st }
    ({ s with sched := { s.sched with tasks := s.sched.tasks.map fun z => if z.key = k then y else z } } : State).RecordWrote u y

/-- A task becomes ready, or pre-empted where it has a saved context, and goes to the tail of its list (R362, R366): its state, its
record in the pool and the lists change, and nothing else does. -/
def State.Readies (s u : State) (k : TaskKey) : Prop :=
  match s.sched.task k with
  | none => u = s
  | some x =>
    let st := if x.saved then TaskState.preempted else .ready
    ∃ w : State, s.TakesState w k st ∧
      u = { w with sched := { w.sched with
        lists := (w.sched.lists.filter fun l => l.2 ≠ k) ++ [(w.sched.readyListOf { x with state := st }, k)] } }

/-- The waiters are woken one after the other: a task becomes ready, a stream program goes on, an encoder tests for itself. -/
def State.WakesEach (s : State) : List Waiter → State → Prop
  | [], u => u = s
  | .task k :: ws, u => ∃ t : State, s.Readies t k ∧ t.WakesEach ws u
  | .stream p :: ws, u =>
    ({ s with str := { s.str with ctxs := s.str.ctxs.map fun x => if x.pid = p then { x with waiting := false } else x } } : State).WakesEach ws u
  | .encoder _ :: ws, u => s.WakesEach ws u

/-- Outside the version units an operation wakes the waiters named and does nothing else: a task becomes ready, or pre-empted
where it has a saved context, and a stream program goes on. Nothing of a core changes, no byte of memory but those of the records of
the tasks woken, and no task or program that is not named (R297, R310, R362). -/
structure State.Wakes (s u : State) (woken : List Waiter) : Prop where
  nobody : woken = [] → u = { s with ver := u.ver }
  each : ∃ (v : VerSys) (w : State), (∀ a n, ({ s with ver := v } : State).inHeap a n = s.inHeap a n) ∧
    ({ s with ver := v } : State).WakesEach woken w ∧ u = { w with ver := u.ver }
  cores : u.core = s.core ∧ u.coreNo = s.coreNo ∧ u.others = s.others ∧ u.cur = s.cur
  tasks : ∀ k, Waiter.task k ∈ woken → ∀ x, s.sched.task k = some x →
    ∃ y, u.sched.task k = some y ∧ y.state = if x.saved then .preempted else .ready
  streams : ∀ p, Waiter.stream p ∈ woken → ∀ c ∈ u.str.ctxs, c.pid = p → c.waiting = false

/-- The task of the core in focus leaves its core and waits in state x (R297, R313): its context is saved, its slot is free, and
where its main sequencer performed the instruction and nothing was in flight, no register of the core has changed. -/
structure State.Parks (s t : State) (x : TaskState) : Prop where
  task : ∃ y, t.sched.task s.boundKey = some y ∧ y.state = x ∧ y.saved = true
  slot : bindValid (t.sched.slot s.coreNo).run = false
  idle : t.core.main.running = false ∧ t.core.matrix.running = false
  regs : s.cur = .main → s.core.main.inFlight = [] → s.core.matrix.inFlight = [] → t.core.ctl = s.core.ctl ∧ t.core.v = s.core.v ∧
    t.core.k = s.core.k ∧ t.core.e = s.core.e ∧ t.core.main.g = s.core.main.g
  versions : t.ver.versions = s.ver.versions ∧ t.ver.reclaim = s.ver.reclaim

/-- What the look-up of word i of a vector form finds, and what the checks of a store to it give (R296, R300). -/
def State.lookUpAt (s : State) (t v : Word) (i : Nat) : Found :=
  match wordAddr t i with
  | .error e => .bad e
  | .ok u => s.lookUp s.via u v
def State.storeAt (s : State) (t v : Word) (i : Nat) : Except Trap (Nat × Nat × Bool) :=
  match wordAddr t i with
  | .error e => .error e
  | .ok u => s.storeCheck s.via u v

/-- A store of version k of a list of words, one after the other, with the values of a vector (R312). -/
def State.createAll (s : State) (k : Nat) (at_ : Nat → Nat × Nat) (value : Nat → Word) (is : List Nat) : State :=
  is.foldl (fun s i => s.createVersion (at_ i).1 (at_ i).2 k (value i)) s

/-- The reason for which VNOPEN installs nothing, by the table of R316. -/
def State.refusesRegion (s : State) (x : BitVec 384) (want reason : Nat) : Prop :=
  let meets (a n b m : Nat) : Prop := a < b + m ∧ b < a + n
  match reason with
  | 1 => want = 64 ∧ ∀ n, n < 64 → regSt (s.ver.region n) ≠ 0
  | 2 => 64 < want ∨ (want < 64 ∧ regSt (s.ver.region want) ≠ 0)
  | 3 => regBase x % 64 ≠ 0 ∨ regLen x % 64 ≠ 0 ∨ 2 ^ 58 < regBase x + regLen x ∨ regHcap x = 0 ∨ regHcap x % 128 ≠ 0 ∨
      regHbase x % 1024 ≠ 0
  | 4 => regHbase x < regHs x * 2 ^ 40 ∨ regHs x * 2 ^ 40 + Config.stackBits < regHbase x + regHcap x
  | 5 => (∃ n, n < 64 ∧ regSt (s.ver.region n) ≠ 0 ∧
        (meets (regHbase x) (regHcap x) (regHbase (s.ver.region n)) (regHcap (s.ver.region n)) ∨
          (regSt (s.ver.region n) = 1 ∧ regAsid (s.ver.region n) = regAsid x ∧
            meets (regBase x) (regLen x) (regBase (s.ver.region n)) (regLen (s.ver.region n))))) ∨
      ∃ y ∈ s.ver.closing, meets (regHbase x) (regHcap x) y.2.1 y.2.2
  | _ => False

/-- A region is opened with an image (R302, R316): an entry that was closed holds it with ST = 1, HUSED = 0 and OVF = 0, and
nothing else of the machine differs. -/
def State.Opens (s u : State) (x : BitVec 384) (n : Nat) : Prop :=
  n < 64 ∧ regSt (s.ver.region n) = 0 ∧ u = { s with ver := { s.ver with regions := u.ver.regions } } ∧
  (∀ m, m ≠ n → u.ver.region m = s.ver.region m) ∧ sameRegion (u.ver.region n) x ∧ regWmark (u.ver.region n) = regWmark x ∧
  regSt (u.ver.region n) = 1 ∧ regHused (u.ver.region n) = 0 ∧ regOvf (u.ver.region n) = false

/-- Region n is closed (R316): no version and no wait of it is left, its heap is to be freed, its waiters are awake. -/
def State.Closes (s u : State) (n : Nat) : Prop :=
  s.Wakes u (s.ver.waiters (fun w => w.region = n) ++
    (s.ver.heapWaits.filter fun w => w.region = n).map HeapWait.who) ∧
  regSt (u.ver.region n) = 0 ∧ s.ver.OthersKept u.ver n ∧ (∀ y ∈ u.ver.versions, y.region ≠ n) ∧
  (∀ y ∈ u.ver.waits, y.region ≠ n) ∧ (∀ y ∈ u.ver.heapWaits, y.region ≠ n) ∧ (∀ y ∈ u.ver.reclaim, y.1 ≠ n) ∧
  u.ver.closing = s.ver.closing ++ [(n, regHbase (s.ver.region n), regHcap (s.ver.region n))]

end Sys2Proof.Machine
end

