-- ==== Sys2Proof/Safety/Tasks.lean ====
section
/-! DEFINITION. Task records, the scheduler and the context save area as their rules state them (R357 to R398). -/

namespace Sys2Proof.Machine

/-- Bits hi down to lo of a record, a bind record or a word. -/
def field {n : Nat} (r : BitVec n) (hi lo : Nat) : Nat := r.toNat / 2 ^ lo % 2 ^ (hi - lo + 1)

/-- The successors that a record names (R357). -/
def successors (r : BitVec 512) : List Nat :=
  (List.range (min 6 (field r 282 280))).map fun j => field r (303 + 16 * j) (288 + 16 * j)

/-- The reason for which TENQ refuses an image, by R370. -/
def State.refusesImage (s : State) (k : TaskKey) (cap contract : Nat) (r : BitVec 512) (reason : Nat) : Prop :=
  match reason with
  | 1 => field r 511 468 ≠ 0 ∨ field r 455 449 ≠ 0 ∨ field r 423 420 ≠ 0 ∨ field r 287 283 ≠ 0 ∨ field r 127 122 ≠ 0 ∨
      field r 63 58 ≠ 0 ∨ 6 < field r 282 280 ∨ 2 ^ 24 < field r 448 424 ∨ field r 3 0 ≠ 0
  | 2 => field r 399 384 ≠ k.graph
  | 3 => ∃ i ∈ successors r, cap ≤ i ∨ ∀ t, s.sched.task { k with record := i } = some t → t.state ≠ .waiting
  | 4 => field r 415 400 ≠ contract
  | 5 => ∃ j, j < 8 ∧ r.getLsbD (256 + j) = true ∧ ∀ x ∈ s.sched.handles, ¬ (x.1 = k.vdev ∧ x.2.1 = field r (143 + 16 * j) (128 + 16 * j))
  | _ => False

/-- What a loader may have done before a record reaches Mason (R104): w is s but for handles that the record names and that were not
installed. -/
def State.Loaded (s w : State) (vd : Nat) (r : BitVec 512) : Prop :=
  w = { s with sched := { s.sched with handles := w.sched.handles } } ∧ ∃ more, w.sched.handles = more ++ s.sched.handles ∧
  ∀ x ∈ more, x.1 = vd ∧ (∀ y ∈ s.sched.handles, ¬ (y.1 = vd ∧ y.2.1 = x.2.1)) ∧
    ∃ j, j < 8 ∧ r.getLsbD (256 + j) = true ∧ x.2.1 = field r (143 + 16 * j) (128 + 16 * j)

/-- Slot i of a graph is free: no record, or an ended one (R362). -/
def Sched.slotFree (c : Sched) (g : Graph) (i : Nat) : Prop :=
  i < g.cap ∧ ∀ t, c.task { vdev := g.vdev, graph := g.gid, record := i } = some t → t.state = .ended

/-- The state that the count of predecessors gives (R362). -/
def launchState (deps : Nat) : TaskState := if deps = 0 then .ready else .waiting

/-- Core n has no task: both sequencers stand, and RUN is empty (R368). -/
def State.Vacant (s : State) (n : Nat) : Prop :=
  bindValid (s.sched.slot n).run = false ∧ (s.coreAt n).main.running = false ∧ (s.coreAt n).matrix.running = false

/-- Record k is in state x. -/
def State.InState (s : State) (k : TaskKey) (x : TaskState) : Prop := ∃ t, s.sched.task k = some t ∧ t.state = x

/-- A record that has just been woken: pre-empted where it has a saved context, and ready otherwise (R362). -/
def wokenState (t : Task) : TaskState := if t.saved then .preempted else .ready

/-- A sequencer at the start of a task (R14): its loop stack is empty, LDR, RPIDX and RPBASE are zero, and no instruction, repeat frame,
wait or replay is left over. -/
structure Seq.Starts (q : Seq) : Prop where
  loops : q.depth = 0 ∧ q.lc = Vector.replicate 6 0 ∧ q.li = Vector.replicate 6 0 ∧ q.lb = Vector.replicate 6 0 ∧ q.le = Vector.replicate 6 0
  regs : q.ldr = 0 ∧ q.rpidx = 0 ∧ q.rpbase = 0
  rest : q.frame = none ∧ q.wait = none ∧ q.record = [] ∧ q.inFlight = [] ∧ q.replay = []

/-- A core that starts a task without a saved context (R14, R96, R256, R368): handles gives each installed handle its
descriptor, and image the bits of its lsimage. -/
structure Core.Starts (c : Core) (r : BitVec 512) (handles : Nat → Option (BitVec 128)) (image : Nat) : Prop where
  main : c.main.running = true ∧ c.main.pc.toNat = field r 57 0 ∧ c.main.Starts
  matrix : c.matrix.running = false ∧ c.matrix.Starts ∧ c.matrix.g = Vector.replicate 32 0
  regs : ∀ i : Fin 32, c.main.g.get i = if i.val = 1 then BitVec.ofNat 64 (field r 121 64) else 0
  vectors : c.v = Vector.replicate 32 0 ∧ c.k = Vector.replicate 8 0 ∧ c.t = Vector.replicate 8 0
  buffers : c.abuf = 0 ∧ c.bbuf = 0
  ctl : c.ctl.vl = 0 ∧ c.ctl.vt = 0 ∧ c.ctl.estart = 0 ∧ c.ctl.fflags = 0 ∧ c.ctl.tvec = 0 ∧ c.ctl.tstat = 0 ∧
    c.ctl.mstat = BitVec.ofNat 64 (256 * field r 463 456)
  modes : c.ctl.frm = 0 ∧ c.ctl.fxrm = 0 ∧ c.ctl.fxsat = 0 ∧ c.ctl.hwea = 0 ∧ c.ctl.hweb = 0 ∧ c.ctl.staged = 0 ∧
    c.ctl.unseenMain = 0 ∧ c.ctl.unseenMatrix = 0
  traps : c.ctl.tcause = 0 ∧ c.ctl.tval = 0 ∧ c.ctl.tpc = 0 ∧ c.ctl.txa = 0 ∧ c.ctl.txb = 0
  ext : c.e[0]? = some extentZero ∧ c.e[15]? = some (mkExtent 0 (2 ^ 24) 1 true true 0) ∧
    (∀ j, j < 8 → c.e[j + 1]? = some (if r.getLsbD (256 + j) then
      (handles (field r (143 + 16 * j) (128 + 16 * j))).elim 0 installed else 0)) ∧
    ∀ j, 9 ≤ j → j < 15 → c.e[j]? = some 0
  store : ∀ b, c.ls.bit b = (decide (b < field r 448 424 ∧ ¬ (0xFFC000 ≤ b ∧ b < 2 ^ 24)) && image.testBit b)
  guards : c.guards = []

/-- What a bind installs from its record (R11, R367, R368). -/
structure Core.Bound (c : Core) (r : BitVec 256) : Prop where
  budget : c.budget = BitVec.ofNat 64 (field r 191 128)
  root : c.ctl.ptroot = BitVec.ofNat 64 (field r 255 192) &&& 0xFFFFFFFFFFFE0001
  mode : c.ctl.mode = BitVec.ofNat 64 (field r 44 44 + 2 * field r 45 45)
  llcp : c.ctl.llcp = BitVec.ofNat 64 (field r 51 46 + 2 ^ 8 * field r 57 52)
  taskid : c.ctl.taskid = BitVec.ofNat 64 (field r 40 0)

/-- What a save leaves in memory of a sequencer, in its block at bit x (R395): RUN and PC, the scalar registers, the loop stack, LDR and
the repeat frame's registers, and the replay list with its captured operands. -/
structure Seq.SavedAt (q : Seq) (m : Mem) (x : Nat) : Prop where
  pc : m.readBits x 64 = (if q.running then 2 ^ 63 else 0) + q.pc.toNat / 16 * 16
  g : ∀ i : Fin 32, i.val ≠ 0 → m.readBits (x + 64 * i.val) 64 = (q.g.get i).toNat
  depth : m.readBits (x + 64 * 32) 64 = q.depth.toNat
  loops : ∀ i : Fin 6, m.readBits (x + 64 * (33 + i.val)) 64 = (q.lc.get i).toNat ∧ m.readBits (x + 64 * (39 + i.val)) 64 = (q.le.get i).toNat ∧
    m.readBits (x + 64 * (45 + i.val)) 64 = (q.lb.get i).toNat ∧ m.readBits (x + 64 * (51 + i.val)) 64 = (q.li.get i).toNat
  ldr : m.readBits (x + 64 * 57) 64 = q.ldr.toNat
  frame : m.readBits (x + 64 * 58) 64 = q.rpidx.toNat ∧ m.readBits (x + 64 * 59) 64 = q.rpbase.toNat
  replay : m.readBits (x + 64 * 60) 64 = q.replay.length % 2 ^ 64 ∧ ∀ (i : Nat) (e : Replay), i < 8 → q.replay[i]? = some e →
    let y := x + 4096 + 512 * i
    m.readBits y 64 = 2 ^ 63 + e.addr.toNat / 16 * 16 ∧ m.readBits (y + 64) 64 = e.word.toNat + 2 ^ 32 * (e.first % 2 ^ 15) ∧
    m.readBits (y + 128) 64 = e.ga.toNat ∧ m.readBits (y + 192) 64 = e.gb.toNat ∧ m.readBits (y + 256) 64 = e.gd.toNat

/-- The control registers of words 0 to 17 of a core block, in their order (R395). -/
def Ctl.saved (c : Ctl) : List Word :=
  [c.vl, c.vt, c.estart, c.fxrm, c.fxsat, c.frm, c.fflags, c.hwea, c.hweb, c.tcause, c.tval, c.tpc, c.tvec, c.tstat, c.txa, c.txb,
   c.mstat, c.staged]

/-- What a save at ctx leaves in memory of a core's context (R395, R396, R397): every register it holds, the buffers that are valid,
the vector registers up to their marks, the declared tiles that were written, the guards, the window control blocks and the
footprint. -/
structure Core.SavedAt (c : Core) (m : Mem) (ctx foot : Nat) : Prop where
  head : m.readBits ctx 64 = 1 ∧ m.readBits (ctx + 64) 64 = foot % 2 ^ 64 ∧ m.readBits (ctx + 128) 64 = c.guards.length % 2 ^ 64
  main : c.main.SavedAt m (ctx + 1024)
  matrix : c.matrix.SavedAt m (ctx + 9216)
  ctl : ∀ (i : Nat) (v : Word), c.ctl.saved[i]? = some v → m.readBits (ctx + 17408 + 64 * i) 64 = v.toNat
  extents : ∀ n : Fin 16, 0 < n.val → m.readBits (ctx + 17408 + 64 * (16 + 2 * n.val)) 128 = (c.e.get n).toNat
  masks : ∀ n : Fin 8, m.readBits (ctx + 21504 + 16384 * n.val) 16384 = (c.k.get n).toNat
  guards : ∀ (i : Nat) (g : Guard), i < 16 → c.guards[i]? = some g → m.readBits (ctx + 152576 + 192 * i) 192 = g.pack % 2 ^ 192
  windows : m.readBits (ctx + 155648) 16384 = c.ls.readBits Config.blocksBase 16384
  buffers : (c.ctl.mstat.getLsbD 16 = true → m.readBits (ctx + 172032) 65536 = c.abuf.toNat) ∧
    (c.ctl.mstat.getLsbD 19 = true → m.readBits (ctx + 237568) 22528 = c.bbuf.toNat)
  vectors : ∀ n : Fin 32, let w := markCover c.ctl.hwea c.ctl.hweb n.val
    m.readBits (ctx + 260096 + 16384 * n.val) w = (c.v.get n).toNat % 2 ^ w
  tiles : ∀ n : Fin 8, c.ctl.mstat.getLsbD n.val = true → c.ctl.mstat.getLsbD (8 + n.val) = true →
    m.readBits (ctx + 784384 + 262144 * n.val) 262144 = (c.t.get n).toNat
  store : m.readBits (ctx + 2881536) foot = c.ls.readBits 0 foot

/-- The bits of the control registers of words 0 to 17 of a core block that are not reserved (R122, R395). -/
def savedBits : List Word :=
  let all : Word := 0xFFFFFFFFFFFFFFFF
  let pc : Word := 0x3FFFFFFFFFFFFF0
  [all, 0x7FFFF, 0x7FFF, 3, 1, 7, 0x1F1F, all, all, 0x1F, all, pc, pc, 3, all, all, 0xFFFFFF, all]

/-- What a restore gives a sequencer from its block at bit x (R395, R398), reserved bits as zero. -/
structure Seq.RestoredAt (q : Seq) (m : Mem) (x : Nat) : Prop where
  pc : q.running = (m.readBits x 64).testBit 63 ∧ q.pc = BitVec.ofNat 58 (m.readBits x 64 / 16 * 16)
  g : ∀ i : Fin 32, q.g.get i = if i.val = 0 then 0 else BitVec.ofNat 64 (m.readBits (x + 64 * i.val) 64)
  depth : q.depth = BitVec.ofNat 3 (m.readBits (x + 64 * 32) 64)
  loops : ∀ i : Fin 6, let word (n : Nat) : Word := BitVec.ofNat 64 (m.readBits (x + 64 * (n + i.val)) 64)
    q.lc.get i = word 33 ∧ q.le.get i = word 39 &&& 0x3FFFFFFFFFFFFF0 ∧ q.lb.get i = word 45 &&& 0x3FFFFFFFFFFFFF0 ∧ q.li.get i = word 51
  ldr : q.ldr = BitVec.ofNat 64 (m.readBits (x + 64 * 57) 64) &&& 0x7F
  frame : q.frame = none ∧ q.rpidx = BitVec.ofNat 64 (m.readBits (x + 64 * 58) 64) &&& 0xBFFF ∧
    q.rpbase = BitVec.ofNat 64 (m.readBits (x + 64 * 59) 64) &&& 0x3FFFFFFFFFFFFF0
  fresh : q.wait = none ∧ q.inFlight = [] ∧ q.record = []
  replay : q.replay.length = min 8 (m.readBits (x + 64 * 60) 64) ∧ ∀ (i : Nat) (e : Replay), q.replay[i]? = some e →
    let word (n : Nat) : Nat := m.readBits (x + 4096 + 512 * i + 64 * n) 64
    e.addr = BitVec.ofNat 58 (word 0 / 16 * 16) ∧ e.word = BitVec.ofNat 32 (word 1) ∧ e.first = word 1 / 2 ^ 32 % 2 ^ 15 ∧
    e.ga = BitVec.ofNat 64 (word 2) ∧ e.gb = BitVec.ofNat 64 (word 3) ∧ e.gd = BitVec.ofNat 64 (word 4)

/-- What a restore at ctx gives a core (R395, R397, R398): what a save wrote, and zero beyond the marks, in the tiles that were not
written and in the local store beyond the footprint. -/
structure Core.RestoredAt (c : Core) (m : Mem) (ctx : Nat) : Prop where
  main : c.main.RestoredAt m (ctx + 1024)
  matrix : c.matrix.RestoredAt m (ctx + 9216)
  ctl : ∀ (i : Nat) (v b : Word), c.ctl.saved[i]? = some v → savedBits[i]? = some b →
    v = BitVec.ofNat 64 (m.readBits (ctx + 17408 + 64 * i) 64) &&& b
  extents : ∀ n : Fin 16, c.e.get n = if n.val = 0 then extentZero else BitVec.ofNat 128 (m.readBits (ctx + 17408 + 64 * (16 + 2 * n.val)) 128)
  masks : ∀ n : Fin 8, c.k.get n = BitVec.ofNat 16384 (m.readBits (ctx + 21504 + 16384 * n.val) 16384)
  guards : c.guards.length = min 16 (m.readBits (ctx + 128) 64) ∧ ∀ (i : Nat) (g : Guard), c.guards[i]? = some g →
    let x := m.readBits (ctx + 152576 + 192 * i) 192
    g.sc = BitVec.ofNat 2 (x / 2 ^ 187) ∧ g.rlen = x / 2 ^ 128 % 2 ^ 59 ∧ g.regionLocal = x.testBit 127 ∧ g.rbase = x / 2 ^ 64 % 2 ^ 58 ∧
    g.guardLocal = x.testBit 63 ∧ g.gaddr = x % 2 ^ 58
  buffers : (c.ctl.mstat.getLsbD 16 = true → c.abuf = BitVec.ofNat 65536 (m.readBits (ctx + 172032) 65536)) ∧
    (c.ctl.mstat.getLsbD 19 = true → c.bbuf = BitVec.ofNat 22528 (m.readBits (ctx + 237568) 22528))
  vectors : ∀ n : Fin 32, c.v.get n =
    BitVec.ofNat 16384 (m.readBits (ctx + 260096 + 16384 * n.val) (markCover c.ctl.hwea c.ctl.hweb n.val))
  tiles : ∀ n : Fin 8, c.t.get n = if c.ctl.mstat.getLsbD n.val ∧ c.ctl.mstat.getLsbD (8 + n.val) then
    BitVec.ofNat 262144 (m.readBits (ctx + 784384 + 262144 * n.val) 262144) else 0
  store : let foot := m.readBits (ctx + 64) 64 % 2 ^ 25
    ∀ b, c.ls.bit b = if 0xFFC000 ≤ b ∧ b < 2 ^ 24 then (m.readBits (ctx + 155648) 16384).testBit (b - 0xFFC000)
      else decide (b < foot) && (m.readBits (ctx + 2881536) foot).testBit b

/-- A bind record names a task of a graph. -/
def namesGraph (vd gid : Nat) (r : BitVec 256) : Prop := bindValid r = true ∧ field r 40 32 = vd ∧ field r 31 16 = gid

/-- What the end of one of its records leaves of a graph (R365, R381): while another has not ended, nothing happens; otherwise the
completion word is written, 1 or, for an aborted graph, 2 in bits 3:0 and its code in bits 8:4, and the graph is no longer live, unless a
contract goes on releasing it (the model's reading, log 36). Mason's own graph has neither word nor end. -/
def State.GraphEnds (s u : State) (vd gid : Nat) : Prop :=
  match s.sched.graph vd gid with
  | none => u = s
  | some g =>
    let mine (k : TaskKey) : Prop := k.vdev = vd ∧ k.graph = gid
    let open_ := (g.vdev = 0 ∧ g.gid = 0xFFFF) ∨ ∃ x ∈ s.sched.tasks, mine x.key ∧ x.state ≠ .ended
    (open_ → u = s) ∧ (¬ open_ → ∃ w : State,
      s.OwnerStored w (s.ownerSegs vd g.done 64 true) ((if g.aborted then 2 else 1) + 16 * g.code) ∧
      u = if g.contract ≠ 0 ∧ g.aborted = false then w else { w with sched := { w.sched with
        graphs := w.sched.graphs.map fun h => if h.live ∧ h.vdev = vd ∧ h.gid = gid then { h with live := false } else h } })

/-- What a task is to its graph: its key, its state, its record and whether it has a saved context (R357, R362). -/
def Task.record (x : Task) : TaskKey × TaskState × BitVec 512 × Bool := (x.key, x.state, x.image, x.saved)

/-- Steps 2 to 4 of an abort (R364): the cores whose RUN names a task of the graph stand, no slot, program, wait or list names one, and
memory, the other cores and the states and records of all tasks are as before. -/
structure State.GivesUp (s u : State) (vd gid : Nat) : Prop where
  memory : u.ms = s.ms ∧ u.ver.versions = s.ver.versions
  cores : ∀ p ∈ s.sched.slots, p.1 < 224 → namesGraph vd gid p.2.run → (u.coreAt p.1).main.running = false ∧ (u.coreAt p.1).matrix.running = false
  others : ∀ n, (∀ p ∈ s.sched.slots, p.1 = n → ¬ namesGraph vd gid p.2.run) → u.coreAt n = s.coreAt n
  slots : ∀ p ∈ u.sched.slots, ¬ namesGraph vd gid p.2.run ∧ ¬ namesGraph vd gid p.2.stg
  programs : ∀ x, x ∈ u.str.ctxs ↔ x ∈ s.str.ctxs ∧ ¬ (x.task.vdev = vd ∧ x.task.graph = gid)
  waits : (∀ y ∈ u.ver.waits, ∀ k, y.who = .task k → ¬ (k.vdev = vd ∧ k.graph = gid)) ∧
    ∀ y ∈ u.ver.heapWaits, ∀ k, y.who = .task k → ¬ (k.vdev = vd ∧ k.graph = gid)
  lists : (∀ k, k ∈ u.sched.poolParked ↔ k ∈ s.sched.poolParked ∧ ¬ (k.vdev = vd ∧ k.graph = gid)) ∧
    ∀ l, l ∈ u.sched.lists ↔ l ∈ s.sched.lists ∧ ¬ (l.2.vdev = vd ∧ l.2.graph = gid)
  tasks : ∀ k, (u.sched.task k).map Task.record = (s.sched.task k).map Task.record

/-- Tasks become ended, one after the other (R364 step 5). -/
def State.EndsEach (s : State) : List TaskKey → State → Prop
  | [], u => u = s
  | k :: ks, u => ∃ t : State, s.TakesState t k .ended ∧ t.EndsEach ks u

/-- A graph is aborted (R364, R365): its fault record, the stop of all that is its own, the end of its records, its completion word. -/
def State.Aborts (s t : State) (g : Graph) (code : Nat) (words : List Nat) : Prop :=
  ∃ w v u : State, s.OwnerWrote g.vdev g.fault words w ∧ w.GivesUp v g.vdev g.gid ∧
    v.sched.graph g.vdev g.gid = some { g with aborted := true, code := code } ∧
    v.EndsEach ((v.sched.tasks.filter fun x => (x.key.vdev = g.vdev ∧ x.key.graph = g.gid) ∧ x.state ≠ .ended).map Task.key) u ∧
    u.GraphEnds t g.vdev g.gid

/-- A contract whose task may be bound (R383): the first of its list is ready, none of its tasks is bound, and budget is left. -/
def Sched.Awaits (c : Sched) (x : Contract) (k : TaskKey) : Prop :=
  x ∈ c.contracts ∧ c.head (.contract x.number) = some k ∧ c.contractBound x.number = false ∧ x.remaining ≠ 0

/-- Such a contract, of a device that has a core of its share left (R383). -/
def Sched.eligible (c : Sched) (x : Contract) (k : TaskKey) : Prop :=
  c.Awaits x k ∧ c.contractsOf x.vdev < (c.settings x.vdev).share

/-- Core n is to give up its contract task (R383): S contract tasks of its device run, its own has the latest deadline, and a ready
one's is earlier. -/
def Sched.Displaced (c : Sched) (n : Nat) : Prop :=
  ∃ x k e, c.Awaits x k ∧ (c.settings x.vdev).share ≤ c.contractsOf x.vdev ∧ c.latest x.vdev = some (n, e) ∧ x.deadline < e

/-- A record names a best-effort task. -/
def Sched.BestEffort (c : Sched) (r : BitVec 256) : Prop :=
  ∃ y v p, c.task (keyOf (field r 40 0)) = some y ∧ c.readyListOf y = .bestEffort v p

/-- Core n is idle: it has neither a running nor a staged record, and its die is neither in hint residency nor on its way to it, where
it would take tasks of the system class alone (R292). -/
def State.idleCore (s : State) (n : Nat) : Prop :=
  n < 224 ∧ bindValid (s.sched.slot n).run = false ∧ bindValid (s.sched.slot n).stg = false ∧
    ((s.ms.llc[n / 56]?).getD LlcDie.reset).cfg.toNat % 4 = 0

/-- A ready contract task takes core n (R383): an idle one if there is one, and else the one whose best-effort task was bound
last. -/
def State.Takes (s : State) (n : Nat) : Prop :=
  let c := s.sched
  ((∃ m, s.idleCore m) → s.idleCore n) ∧
  ((¬ ∃ m, s.idleCore m) → c.yields (c.slot n) = true ∧ ∀ p ∈ c.slots, c.yields p.2 = true → p.2.since ≤ (c.slot n).since)

/-- At a notice, the quantum of the task of core n is over (R378): another device with credit has a ready task, and no core is idle. -/
def State.QuantumOver (s : State) (n : Nat) : Prop :=
  let c := s.sched
  (∃ v, v ≠ (keyOf (field (c.slot n).run 40 0)).vdev ∧ v ∈ c.readyVdevs ∧ 0 < (c.settings v).credit) ∧ ∀ m, ¬ s.idleCore m

end Sys2Proof.Machine
end

