-- ==== Sys2Proof/Safety/Calls.lean ====
section
/-! DEFINITION. The service calls as their rules state them (R360, R361, R377, R380 to R384, R408 to R413, R417, R424). -/

namespace Sys2Proof.Machine

/-- The page and the code of each call, and the bits of words 1, 2, … that R412 names. -/
def callForm : Instr → Option (Nat × Nat × List Word)
  | .launch p => some (p, 1, [0x3FFFFFFFFFFFFFF])
  | .abort p => some (p, 2, [0xFFFF])
  | .admitCall p => some (p, 3, [0x3FFFFFFFFFFFFFF])
  | .revoke p => some (p, 4, [0xFFF])
  | .setvd p => some (p, 5, [0x1FF, 0x3FFFFFFF, 0xFFFFFFFFFFFFFFFF, 0xFFFFFFFF])
  | .vnopenCall p => some (p, 6, [0x3FFFFFFFFFFFFFF, 0x7F])
  | .vncloseCall p => some (p, 7, [0x3F])
  | .status p => some (p, 8, [0xFFFF0001])
  | .encopen p => some (p, 9, [0x1FFFFFFFFFFF, 0xFFFFFFFFFF])
  | .encclose p => some (p, 10, [0x3FF])
  | .peerset p => some (p, 11, [0x1FFF, 0xFFFFFFFFFFFFFFFF, 0xFFFFFFFFFFFFFFFF, 0xFFFFFF])
  | .expose p => some (p, 12, [0, 0x3FFFFFFFFFFFFFF, 0x7FFFFFFFFFFFFFF, 0x3FFFFFFFFFFFFFF, 3])
  | .setpwr p => some (p, 13, [0xFFF])
  | .setirq p => some (p, 14, [7, 0x1F])
  | _ => none

/-- What each call does by its code: the state, and its value or the reason of its refusal. -/
def callEffect (code : Nat) (s : State) (a : Args) : State × Except Nat Word :=
  ([State.launch, State.abortCall, State.accept, State.revoke, State.setvd, State.vnopenCall, State.vncloseCall, State.statusCall,
    State.encopen, State.encclose, State.peerset, State.expose, State.setpwr, State.setirq].getD (code - 1) fun s _ => (s, .error 0xFF)) s a

/-- Word i of a call block. -/
def blockWord (b i : Nat) : Word := BitVec.ofNat 64 (b / 2 ^ (64 * i))

/-- Page p's next call has been taken (R408): the count rises and the call leaves the page. -/
def State.takesCall (s : State) (p : Nat) (rest : List (BitVec 58)) : State :=
  let x := s.io.doorbell p
  { s with io := s.io.setDoorbell { x with calls := rest, taken := x.taken + 1 } }

/-- A call block fault on page p (R410): V and CB are set, an event of type 13 is written and vector 1 is raised. -/
def State.BlockFaults (s u : State) (p : Nat) (cb : BitVec 58) : Prop :=
  u = { s with io := u.io } ∧ u.io.bbcnt = s.io.bbcnt + 1 ∧
  u.io.doorbell p = { s.io.doorbell p with err := BitVec.ofNat 64 (2 ^ 63 + cb.toNat) } ∧
  ∃ fn, u.io.msix = s.io.msix ++ [(fn, 1)] ∧ (pageVdev p ≠ 0 ∨ s.io.route[1]?.getD 31 = 31 → fn = pageVdev p)

/-- A call ends with a result (R409): it stands in word 7 of the block, and vector 0 is raised where the block asks for it; where
the word has become unwritable, the block faults and the effects stand (R410). -/
def State.Returns (s u : State) (p : Nat) (cb : BitVec 58) (irq : Bool) (result : Nat) : Prop :=
  (∀ segs, s.ownerSegs (pageVdev p) (cb.toNat + 448) 64 true = some segs →
    let t := s.store none segs 64 result
    (irq = false → u = t) ∧ (irq = true → ∃ fn, u = { t with io := { t.io with msix := t.io.msix ++ [(fn, 0)] } })) ∧
  (s.ownerSegs (pageVdev p) (cb.toNat + 448) 64 true = none → s.BlockFaults u p cb)

/-- Result word of a call: its value, or bit 63 with the reason (R411). -/
def resultWord : Except Nat Word → Nat
  | .ok x => x.toNat
  | .error n => 2 ^ 63 + n

/-- A call that is refused for the lowest of the reasons that hold, with nothing changed (R361, R411). -/
def Refuses (s : State) (r : State × Except Nat Word) (why : Nat → Prop) : Prop :=
  ∀ n, why n → (∀ m, m < n → ¬ why m) → r.1 = s ∧ r.2 = .error n

/-- The reasons for which a virtual device's settings are refused (R377, R412). -/
def State.refusesSettings (s : State) (a : Args) (reason : Nat) : Prop :=
  let vd := (a.w 1).toNat
  let w := (a.w 2).toNat
  let old := s.sched.settings vd
  let share := w / 2 ^ 22 % 2 ^ 8
  let assured := w / 2 ^ 8 % 2 = 1
  match reason with
  | 1 => 384 < vd ∨ (a.w 3).toNat % 2 ^ 32 < 1000 ∨ (a.w 4).toNat = 0 ∨ 224 < share ∨ (¬ assured ∧ share ≠ 0 ∧ (a.vd = 0 ∨ share ≠ old.share))
  | 6 => 224 < ((s.sched.vdevs.filter fun y => y.1 ≠ vd).map fun y => y.2.share).sum + share
  | 8 => a.vd ≠ 0 ∧ (a.vd ≠ vd ∨ w % 2 ^ 8 ≠ old.weight ∨ share ≠ old.share ∨ w / 2 ^ 10 % 2 ^ 6 ≠ old.cpid ∨ w / 2 ^ 16 % 2 ^ 6 ≠ old.spid)
  | 9 => assured ∧ old.assured = false ∧ ∃ t ∈ s.sched.tasks, t.key.vdev = vd ∧ t.state ≠ .ended
  | _ => False

/-- What loaders may have handed over with the records of a graph (R96, R104): w is s but for handles that the records name and that
were not installed, and for the lsimages of the graph's records, which replace those of an earlier graph of that identifier. -/
def State.Handed (s w : State) (vd gid : Nat) (imgs : List (BitVec 512)) : Prop :=
  w = { s with sched := { s.sched with handles := w.sched.handles, lsimages := w.sched.lsimages } } ∧
  (∃ more, w.sched.handles = more ++ s.sched.handles ∧ ∀ x ∈ more, x.1 = vd ∧ (∀ y ∈ s.sched.handles, ¬ (y.1 = vd ∧ y.2.1 = x.2.1)) ∧
    ∃ r ∈ imgs, ∃ j, j < 8 ∧ r.getLsbD (256 + j) = true ∧ x.2.1 = field r (143 + 16 * j) (128 + 16 * j)) ∧
  ∃ more, w.sched.lsimages = more ++ s.sched.lsimages.filter (fun x => ¬ (x.1.vdev = vd ∧ x.1.graph = gid)) ∧
    ∀ x ∈ more, x.1.vdev = vd ∧ x.1.graph = gid ∧ x.1.record < imgs.length

/-- The reasons for which LAUNCH refuses a readable descriptor d (R361). -/
def State.refusesLaunch (s : State) (vd d : Nat) (imgs : List (BitVec 512)) (reason : Nat) : Prop :=
  let pool := d % 2 ^ 58
  let cap := d / 2 ^ 64 % 2 ^ 16
  let n := d / 2 ^ 80 % 2 ^ 16
  let gid := d / 2 ^ 96 % 2 ^ 16
  let done := d / 2 ^ 128 % 2 ^ 58
  let fault := d / 2 ^ 192 % 2 ^ 58
  let writable (va w : Nat) : Prop := s.ownerSegs vd va w true ≠ none
  match reason with
  | 1 => d / 2 ^ 250 % 2 ^ 262 ≠ 0 ∨ d / 2 ^ 186 % 2 ^ 6 ≠ 0 ∨ d / 2 ^ 112 % 2 ^ 16 ≠ 0 ∨ d / 2 ^ 58 % 2 ^ 6 ≠ 0 ∨ cap = 0 ∨ cap < n ∨
      ∃ r ∈ imgs, recReserved r = true ∨ 6 < field r 282 280 ∨ 2 ^ 24 < field r 448 424
  | 2 => pool % 512 ≠ 0 ∨ done % 64 ≠ 0 ∨ fault % 512 ≠ 0 ∨ ¬ writable done 64 ∨ ¬ writable fault 512 ∨
      ∃ i, i < cap ∧ (¬ writable (pool + 512 * i) 512 ∨ s.ownerSegs vd (pool + 512 * i) 512 false = none)
  | 4 => s.sched.graph vd gid ≠ none ∨ gid = 0xFFFF
  | 5 => ∃ (i : Nat) (r : BitVec 512), imgs[i]? = some r ∧ i < n ∧ (field r 399 384 ≠ gid ∨ (∃ j ∈ successors r, imgs.length ≤ j) ∨
      field r 3 0 ≠ 0 ∨ (field r 415 400 ≠ 0 ∧ ∀ c ∈ s.sched.contracts, ¬ (c.number = field r 415 400 ∧ c.vdev = vd)) ∨
      s.sched.missingHandle vd r = true ∨ field r 279 264 ≠ ((imgs.flatMap successors).count i))
  | _ => False

end Sys2Proof.Machine
end

