-- ==== Sys2Proof/Safety/Control.lean ====
section
/-! DEFINITION. Control transfer as its rules state it: branches, loops, the repeat frame, FORK and rendezvous (R62 to R64, R126
to R136). -/

namespace Sys2Proof.Machine

/-- Whether a conditional branch is taken, and its offset (R126). -/
def State.branchOf (s : State) : Instr → Option (Bool × BitVec 12)
  | .beq a b o => some (s.g a = s.g b, o)
  | .bne a b o => some (s.g a ≠ s.g b, o)
  | .blt a b o => some ((s.g a).toInt < (s.g b).toInt, o)
  | .bge a b o => some ((s.g b).toInt ≤ (s.g a).toInt, o)
  | .bltu a b o => some ((s.g a).toNat < (s.g b).toNat, o)
  | .bgeu a b o => some ((s.g b).toNat ≤ (s.g a).toNat, o)
  | _ => none

/-- An exact address of the 58-bit space (R128). -/
def inSpace (x : Int) : Prop := 0 ≤ x ∧ x < 2 ^ 58

/-- The sequencer goes on at an exact address and has changed nothing else (R126, R132). -/
def State.JumpsTo (s t : State) (x : Int) : Prop :=
  ∃ q, t = s.withSeq q ∧ s.seq.Jumps q (BitVec.ofInt 58 x) ∧ q.g = s.seq.g ∧ q.ldr = s.seq.ldr ∧ s.seq.Kept q

/-- The same with a link in g[D] and LDR on it (R127). -/
def State.JumpsLinking (s t : State) (d : BitVec 5) (x : Int) : Prop :=
  ∃ q, t = s.withSeq q ∧ s.seq.Jumps q (BitVec.ofInt 58 x) ∧ wroteG s.seq.g q.g d ((s.seq.pc + 32).setWidth 64) ∧
    q.ldr = ldrOf .g d.toNat ∧ s.seq.Kept q

/-- The sequencer waits in its instruction: pc stands, and nothing but the note of the wait changes, with the extents that the
instruction goes on reading (R34). -/
def State.WaitsIn (s t : State) (w : Wait) : Prop :=
  t = s.withSeq { s.seq with wait := some w, snap := some s.extents }

/-- A loop is opened at level k (R131): its counters, its begin and its end; the sequencer goes on at its body. -/
structure Seq.Opens (q r : Seq) (n : Word) (body last : BitVec 58) : Prop extends Seq.Fresh r where
  depth : r.depth.toNat = q.depth.toNat + 1
  pc : r.pc = body
  lc : r.lc = q.lc.setIfInBounds q.depth.toNat n
  li : r.li = q.li.setIfInBounds q.depth.toNat 0
  lb : r.lb = q.lb.setIfInBounds q.depth.toNat (body.setWidth 64)
  le : r.le = q.le.setIfInBounds q.depth.toNat (last.setWidth 64)
  g : r.g = q.g
  ldr : r.ldr = q.ldr
  frame : r.frame = q.frame
  running : r.running = q.running
  insn : r.insn = q.insn
  record : r.record = q.record
  inFlight : r.inFlight = q.inFlight
  replay : r.replay = q.replay
  back : r.back = q.back
  owed : r.owed = q.owed
  due : r.due = q.due
  constMark : r.constMark = q.constMark
  rpidx : r.rpidx = q.rpidx
  rpbase : r.rpbase = q.rpbase

/-- What completing the partner of an RDV leaves of a sequencer that stood at it (R53, R136, R393): it goes on, or, where its RDV was
the oldest entry of a replay list, at its saved PC with the rest of the list; and the RDV counts in its distances. -/
structure Seq.Passes (q r : Seq) : Prop extends Seq.Fresh r where
  kept : r.g = q.g ∧ r.ldr = q.ldr ∧ r.lb = q.lb ∧ r.le = q.le ∧ r.insn = q.insn ∧ r.inFlight = q.inFlight ∧
    r.constMark = q.constMark
  distances : ∀ p ∈ r.record, ∃ o ∈ q.record, p = { o with dist := o.dist + 1 }
  plain : q.replay = [] → q.GoesOn 32 r ∧ r.replay = [] ∧ r.owed = q.owed
  replayed : ∀ e rest, q.replay = e :: rest → r.replay = rest ∧
    r.owed = { q.owed with unretired := q.owed.unretired && ! rest.isEmpty } ∧
    (¬ (rest = [] ∧ q.owed.unretired = true) → r.pc = q.pc ∧ r.depth = q.depth ∧ r.lc = q.lc ∧ r.li = q.li)

/-- The arithmetic majors (R63). -/
def isArithmetic (w : BitVec 32) : Prop :=
  let m := w.toNat / 2 % 64
  m ≤ 6 ∨ (0x10 ≤ m ∧ m ≤ 0x13) ∨ (0x1B ≤ m ∧ m ≤ 0x26)

/-- Field j of a word: 0 for D, 1 for A, 2 for B (R48). -/
def regField (w : BitVec 32) (j : Nat) : Nat := w.toNat / 2 ^ (7 + 5 * j) % 32

/-- The limit of field j of a word, where SM staggers it (R63): where the instruction uses it, by itself, to name a register. -/
def staggerLimit (vt : Word) (sm : BitVec 3) (w : BitVec 32) (j : Nat) : Option Nat :=
  let o := usedBy vt w
  let limit (x : Option Operand) : Option Nat := x.map fun p => if p.cls = .k then 7 else 31
  if sm.getLsbD j = false then none else
  match j with
  | 0 => if o.fixD then none else limit o.d
  | 1 => limit o.a
  | 2 => if o.fixB then none else limit o.b
  | _ => none

/-- Check r of R63 fails for an instruction of len bits at va in a frame of n passes: it is not arithmetic, a staggered field passes its
limit in the last pass, or the end of a loop on the stack lies within it. -/
def State.FrameFails (s : State) (sm : BitVec 3) (n step va : Nat) (w : BitVec 32) (len : Nat) : Nat → Prop
  | 0 => len = 16 ∨ ¬ isArithmetic w
  | 1 => ∃ j m, staggerLimit s.vt sm w j = some m ∧ m < regField w j + (n - 1) * step
  | 2 => ∃ k, k < s.seq.depth.toNat ∧ let e := (s.seq.le[k]?.getD 0).toNat
      va ≤ e ∧ e < va + len
  | _ => False

/-- The pass counter that RPIDX holds (R65). -/
def Seq.pass (q : Seq) : Nat := q.rpidx.toNat % 1024

end Sys2Proof.Machine
end

