-- ==== Sys2Proof/Safety/VectorFloat.lean ====
section
/-! DEFINITION. The results that the rules give the element-wise floating-point instructions, the conversions and the comparisons
to masks (R196 to R202), and what a floating-point exception of a vector instruction leaves (R175). -/

namespace Sys2Proof.Machine

/-- A same-width floating form in the format of cw and FFMT, where R171 allows the pairing. -/
def State.sameF (s : State) (len : Nat) (d a : BitVec 5) (b : VSrc) (k : BitVec 3) (op : Fmt → Nat → Nat → Nat → FOut) :
    Option VSpec :=
  (vtFmt s.vt).bind fun f => s.same len d a b k fun _ x y z => (op f x y z).out

/-- The special functions exist for f32, f16 and bf16 (R198). -/
def State.specialF (s : State) (d a : BitVec 5) (k : BitVec 3) (op : Fmt → Nat → FOut) : Option VSpec :=
  (vtFmt s.vt).bind fun f =>
    if f ∈ [Fmt.f32, Fmt.f16, Fmt.bf16] then s.same 32 d a (.imm 0) k fun _ x _ _ => (op f x).out else none

/-- The conversions of R200 by code, rounded as R201 says. -/
def State.convertF (s : State) (d a : BitVec 5) (k : BitVec 3) (c : Nat) : Option VSpec :=
  let m := s.frm
  let same (op : Nat → FOut) : Option VSpec := s.same 32 d a (.imm 0) k fun _ x _ _ => (op x).out
  let wide (op : Nat → FOut) : Option VSpec := s.wide d a (.imm 0) k fun _ x _ _ => (op x).out
  let narrow (op : Nat → FOut) : Option VSpec := s.narrow d a (.imm 0) k fun _ x _ => (op x).out
  (vtFmt s.vt).bind fun f =>
    if c = 0 then wide (fCvt f (wideFmt s.cw) m)
    else if c = 1 ∧ s.cw = 8 then wide (fCvt f .bf16 m)
    else if c = 2 then narrow (fCvt (wideFmt s.cw) f m)
    else if c = 3 ∧ s.cw = 8 then narrow (fCvt .bf16 f m)
    else if c = 4 then same (fToInt f m true s.cw)
    else if c = 5 then same (fToInt f m false s.cw)
    else if c = 6 then same fun x => fOfInt f m (toInt s.cw x)
    else if c = 7 then same fun x => fOfInt f m x
    else if c = 8 then
      match f with
      | .f16 => same (fCvt .bf16 f m)
      | .bf16 => same (fCvt .f16 f m)
      | .e5m2 => same (fCvt .e4m3 f m)
      | .e4m3 => same (fCvt .e5m2 f m)
      | _ => none
    else none

/-- The floating instructions with a vector destination (R197, R198, R200, R61). -/
def State.vectorFloat (s : State) : Instr → Option VSpec
  | .vfaddVv d a b k _ => s.sameF 32 d a (.vv b) k fun f x y _ => fAdd f s.rmode x y
  | .vfaddVs d a b k _ => s.sameF 32 d a (.vs b) k fun f x y _ => fAdd f s.rmode x y
  | .vfsubVv d a b k _ => s.sameF 32 d a (.vv b) k fun f x y _ => fSub f s.rmode x y
  | .vfsubVs d a b k _ => s.sameF 32 d a (.vs b) k fun f x y _ => fSub f s.rmode x y
  | .vfmulVv d a b k _ => s.sameF 32 d a (.vv b) k fun f x y _ => fMul f s.rmode x y
  | .vfmulVs d a b k _ => s.sameF 32 d a (.vs b) k fun f x y _ => fMul f s.rmode x y
  | .vfdivVv d a b k _ => s.sameF 32 d a (.vv b) k fun f x y _ => fDiv f s.rmode x y
  | .vfdivVs d a b k _ => s.sameF 32 d a (.vs b) k fun f x y _ => fDiv f s.rmode x y
  | .vfmaVv d a b k _ => s.sameF 32 d a (.vv b) k fun f x y z => fFma f s.rmode false x y z
  | .vfmaVs d a b k _ => s.sameF 32 d a (.vs b) k fun f x y z => fFma f s.rmode false x y z
  | .vfnmaVv d a b k _ => s.sameF 32 d a (.vv b) k fun f x y z => fFma f s.rmode true x y z
  | .vfnmaVs d a b k _ => s.sameF 32 d a (.vs b) k fun f x y z => fFma f s.rmode true x y z
  | .vfminVv d a b k _ => s.sameF 32 d a (.vv b) k fun f x y _ => fMinMax f false x y
  | .vfminVs d a b k _ => s.sameF 32 d a (.vs b) k fun f x y _ => fMinMax f false x y
  | .vfmaxVv d a b k _ => s.sameF 32 d a (.vv b) k fun f x y _ => fMinMax f true x y
  | .vfmaxVs d a b k _ => s.sameF 32 d a (.vs b) k fun f x y _ => fMinMax f true x y
  | .vfsqrt d a k _ => s.sameF 32 d a (.imm 0) k fun f x _ _ => fSqrt f s.rmode x
  | .vfrece d a k _ => s.sameF 32 d a (.imm 0) k fun f x _ _ => fRece f x
  | .vfrsqe d a k _ => s.sameF 32 d a (.imm 0) k fun f x _ _ => fRsqe f x
  | .vfexp2 d a k _ => s.specialF d a k fExp2
  | .vflog2 d a k _ => s.specialF d a k fLog2
  | .vfcvt d a k _ c => s.convertF d a k c.toNat
  | .cVfadd p => s.compactV fun l => s.sameF 16 l l (.vv p) 0 fun f x y _ => fAdd f s.rmode x y
  | .cVfmul p => s.compactV fun l => s.sameF 16 l l (.vv p) 0 fun f x y _ => fMul f s.rmode x y
  | .cVfma q p => s.compactV fun l => s.sameF 16 l p (.vv q) 0 fun f x y z => fFma f s.rmode false x y z
  | .cVfmas q p => s.compactV fun l => s.sameF 16 l p (.vs q) 0 fun f x y z => fFma f s.rmode false x y z
  | .cVfadds p => s.compactV fun l => s.sameF 16 l l (.vs p) 0 fun f x y _ => fAdd f s.rmode x y
  | _ => none

/-- A comparison of R196, by the code of its condition. -/
def compares (c w a b : Nat) : Bool :=
  if c = 0 then a = b
  else if c = 1 then a ≠ b
  else if c = 2 then toInt w a < toInt w b
  else if c = 3 then toInt w a ≤ toInt w b
  else if c = 4 then a < b
  else if c = 5 then a ≤ b
  else if c = 6 then toInt w b < toInt w a
  else b < a

/-- A comparison to a mask register. -/
def State.compareK (s : State) (d : BitVec 3) (a : BitVec 5) (b : VSrc) (k : BitVec 3) (op : Nat → Nat → Out) : Option KSpec :=
  if groupOk a s.grp ∧ b.ok s.grp then
    some { d := d, k := k, f := fun i => op (elem (s.group a.toNat s.grp) s.cw i) (s.source b s.grp s.cw i) }
  else none

/-- The instructions with a mask destination (R196, R199). -/
def State.vectorMask (s : State) : Instr → Option KSpec
  | .vcmpVv d a b c k _ => s.compareK d a (.vv b) k fun x y => { val := (compares c.toNat s.cw x y).toNat }
  | .vcmpVs d a b c k _ => s.compareK d a (.vs b) k fun x y => { val := (compares c.toNat s.cw x y).toNat }
  | .vcmpVi d a c k _ i => s.compareK d a (.imm i) k fun x y => { val := (compares c.toNat s.cw x y).toNat }
  | .vfcmpVv d a b k _ c => (vtFmt s.vt).bind fun f =>
      s.compareK d a (.vv b) k fun x y => { val := (fCmp f c.toNat x y).1.toNat, flags := (fCmp f c.toNat x y).2 }
  | .vfcmpVs d a b k _ c => (vtFmt s.vt).bind fun f =>
      s.compareK d a (.vs b) k fun x y => { val := (fCmp f c.toNat x y).1.toNat, flags := (fCmp f c.toNat x y).2 }
  | _ => none

/-- Bit i of a mask register as it stands. -/
def State.bitAt (s : State) (d : BitVec 3) (i : Nat) : Bool := (s.kRaw d.toNat).getLsbD i

/-- What bit i of the destination holds after a comparison (R196). -/
def State.afterBit (s : State) (r : KSpec) (i : Nat) : Bool :=
  if s.vl ≤ i then (if vtTail s.vt then false else s.bitAt r.d i)
  else if i < s.estart then s.bitAt r.d i
  else if s.maskBit r.k i then (r.f i).val % 2 = 1
  else if vtMskp s.vt then false else s.bitAt r.d i

/-- An instruction of 32 bits completes with the bits val in mask register d, LDR on d and the control registers as above; no
other register and no byte of memory changes. -/
def State.WritesK (s t : State) (d : BitVec 3) (val : Nat → Bool) (flags : Nat) : Prop :=
  ∃ q x,
    t = ({ s with core := { s.core with
      k := s.core.k.setIfInBounds d.toNat x, ctl := s.vectorCtl flags false } }).withSeq q ∧
    (∀ i, i < 16384 → x.getLsbD i = val i) ∧
    q.g = s.seq.g ∧ q.ldr = ldrOf .k d.toNat ∧ s.seq.Kept q ∧ s.seq.GoesOn 32 q

/-- What an element of the destination holds where element i has trapped (R175): the active elements from ESTART below it
are written, the others as they were. -/
def State.beforeElem (s : State) (r : VSpec) (i j : Nat) : Nat :=
  if s.estart ≤ j ∧ j < i ∧ s.maskBit r.k j = true then (r.f j).val % 2 ^ r.w else s.elemAt r.d.toNat r.n r.w j

/-- The flags of the active elements from ESTART up to i. -/
def State.flagsUpTo (s : State) (k : BitVec 3) (f : Nat → Out) (i : Nat) : Nat :=
  ((s.active k s.estart).filter (· ≤ i)).foldl (fun x j => x ||| (f j).flags) 0

/-- Element i is the lowest active one from ESTART that raises an enabled flag. -/
def State.TrapsAt (s : State) (k : BitVec 3) (f : Nat → Out) (i : Nat) : Prop :=
  i ∈ s.active k s.estart ∧ (f i).flags &&& s.ten ≠ 0 ∧ ∀ j ∈ s.active k s.estart, j < i → (f j).flags &&& s.ten = 0

end Sys2Proof.Machine
end

