-- ==== Sys2Proof/Safety/Rearrange.lean ====
section
/-! DEFINITION. What the rules give reductions, scans, VSMAX, permutations and mask instructions (R206 to R223). -/

namespace Sys2Proof.Machine

/-- The state from which an instruction performed whole takes FPEXC: its flags are added, ESTART is 0 (R223). -/
def State.flagged (s : State) (flags : Nat) : State :=
  { s with core := { s.core with ctl := s.vectorCtl flags false } }

/-- An instruction of 32 bits completes with x in g[d], LDR on d, the flags added and ESTART 0, and changes nothing else. -/
def State.WritesGV (s t : State) (d : BitVec 5) (x : Word) (flags : Nat) : Prop :=
  ∃ q, t = (s.flagged flags).withSeq q ∧
    wroteG s.seq.g q.g d x ∧ q.ldr = ldrOf .g d.toNat ∧ s.seq.Kept q ∧ s.seq.GoesOn 32 q

/-- The elements at which a segment starts under boundary mask sm; 0 makes one segment (R210). -/
def State.starts (s : State) (sm : BitVec 3) : List Nat :=
  (List.range s.vl).filter fun i => i = 0 || (sm ≠ 0 && (s.k sm.toNat).getLsbD i)

/-- The first element of the segment of i (R211). -/
def State.startOf (s : State) (sm : BitVec 3) (i : Nat) : Nat := ((s.starts sm).filter (· ≤ i)).getLastD 0

/-- A reduction: its fields and what it makes of a list of elements, with the flags. -/
structure RSpec where
  d : BitVec 5
  a : BitVec 5
  k : BitVec 3
  sm : BitVec 3
  fold : List Nat → Fold

/-- The integer reductions read their elements by MSX. -/
def State.signedElems (s : State) (xs : List Nat) : List Int := xs.map (readAs (vtMsx s.vt) s.cw)

/-- The reductions of R208 with the identities of R209. -/
def State.reduction (s : State) : Instr → Option RSpec
  | .vrsum d a k _ sm => some ⟨d, a, k, sm, fun xs => { val := (s.signedElems xs).sum }⟩
  | .vrmax d a k _ sm => some ⟨d, a, k, sm, fun xs =>
      { val := (s.signedElems xs).foldl max (if vtMsx s.vt then -2 ^ (s.cw - 1) else 0) }⟩
  | .vrmin d a k _ sm => some ⟨d, a, k, sm, fun xs =>
      { val := (s.signedElems xs).foldl min (if vtMsx s.vt then 2 ^ (s.cw - 1) - 1 else 2 ^ s.cw - 1) }⟩
  | .vrfsum d a k _ sm => (vtFmt s.vt).map fun f => ⟨d, a, k, sm, fun xs =>
      { val := (pairTree (fAdd f s.rmode) 0 xs.length xs).bits, flags := (pairTree (fAdd f s.rmode) 0 xs.length xs).flags }⟩
  | .vrfmax d a k _ sm => (vtFmt s.vt).map fun f =>
      let e := if f = .e4m3 then 0xFE else f.withSign true f.infinity
      ⟨d, a, k, sm, fun xs =>
        { val := (pairTree (fMinMax f true) e xs.length xs).bits, flags := (pairTree (fMinMax f true) e xs.length xs).flags }⟩
  | _ => none

/-- The result of segment j: its active elements in ascending order, reduced (R210). -/
def State.segmentResult (s : State) (r : RSpec) (j : Nat) : Fold :=
  r.fold (((s.active r.k 0).filter fun i => ((s.starts r.sm).filter (· ≤ i)).length = j + 1).map fun i =>
    elem (s.group r.a.toNat s.grp) s.cw i)

/-- The result without segments. -/
def State.wholeResult (s : State) (r : RSpec) : Fold :=
  r.fold ((s.active r.k 0).map fun i => elem (s.group r.a.toNat s.grp) s.cw i)

/-- The flags of all segments. -/
def State.segmentFlags (s : State) (r : RSpec) : Nat :=
  (List.range (s.starts r.sm).length).foldl (fun x j => x ||| (s.segmentResult r j).flags) 0

/-- The values and flags that m doublings of the distance h make of x (R211). -/
def scanRun (op : Nat → Nat → FOut) (start : Nat → Nat) (n : Nat) : Nat → Nat → (Nat → Option Nat) → (Nat → Option Nat) × Nat
  | 0, _, x => (x, 0)
  | m + 1, h, x =>
    let y (i : Nat) : Option Nat × Nat := if start i + h ≤ i then comb op (x (i - h)) (x i) else (x i, 0)
    let r := scanRun op start n m (2 * h) fun i => (y i).1
    (r.1, (List.range n).foldl (fun f i => f ||| (y i).2) r.2)

/-- The sum that VSCAN gives element i: the active elements of its segment up to it, or below it with EX (R211). -/
def State.runningSum (s : State) (a : BitVec 5) (k sm : BitVec 3) (ex : BitVec 1) (i : Nat) : Nat :=
  (((s.active k 0).filter fun j => s.startOf sm i ≤ j ∧ (if ex = 0 then j ≤ i else j < i)).map fun j =>
    elem (s.group a.toNat s.grp) s.cw j).sum

/-- A scan's destination, as R187 leaves it, with ESTART as 0. -/
def State.scanned (s : State) (d : BitVec 5) (k : BitVec 3) (f : Nat → Nat) (i : Nat) : Nat :=
  (s.setEstart 0).afterElem { len := 32, d := d, n := s.grp, w := s.cw, k := k, f := fun i => { val := f i } } i

/-- A permutation: its destination, the elements that it computes, and every element of the destination afterwards. -/
structure PSpec where
  d : BitVec 5
  computed : List Nat
  val : Nat → Nat

/-- The elements that VCOMP packs (R216). -/
def State.packed (s : State) (a b : BitVec 5) : List Nat :=
  ((List.range s.vl).filter fun i => (s.k b.toNat).getLsbD i).map fun i => elem (s.group a.toNat s.grp) s.cw i

/-- The permutations of R214 to R218 with legal groups. -/
def State.permutation (s : State) : Instr → Option PSpec
  | .vslup d a b k _ =>
    if groupOk d s.grp ∧ groupOk a s.grp then
      some ⟨d, (s.active k 0).filter fun i => (s.g b).toNat ≤ i, s.scanned d k fun i =>
        if (s.g b).toNat ≤ i then elem (s.group a.toNat s.grp) s.cw (i - (s.g b).toNat) else s.elemAt d.toNat s.grp s.cw i⟩
    else none
  | .vsldn d a b k _ =>
    if groupOk d s.grp ∧ groupOk a s.grp then
      some ⟨d, s.active k 0, s.scanned d k fun i =>
        if i + (s.g b).toNat < s.vl then elem (s.group a.toNat s.grp) s.cw (i + (s.g b).toNat) else 0⟩
    else none
  | .vrgat d a b k _ =>
    if groupOk d s.grp ∧ groupOk a s.grp ∧ groupOk b s.grp then
      some ⟨d, s.active k 0, s.scanned d k fun i =>
        let j := elem (s.group b.toNat s.grp) s.cw i
        if j < s.vl then elem (s.group a.toNat s.grp) s.cw j else 0⟩
    else none
  | .viota d a k _ =>
    if groupOk d s.grp then
      some ⟨d, s.active k 0, s.scanned d k fun i =>
        ((List.range i).filter fun j => j ∈ s.active k 0 ∧ (s.k a.toNat).getLsbD j).length⟩
    else none
  | .vcomp d a b _ =>
    if groupOk d s.grp ∧ groupOk a s.grp ∧ b.toNat < 8 then
      some ⟨d, List.range (s.packed a b).length, fun i =>
        match (s.packed a b)[i]? with
        | some x => x
        | none => if vtTail s.vt then 0 else s.elemAt d.toNat s.grp s.cw i⟩
    else none
  | .vins d a b _ =>
    if groupOk d s.grp then
      some ⟨d, if (s.g b).toNat < s.vl then [(s.g b).toNat] else [], fun i =>
        if i = (s.g b).toNat ∧ i < s.vl then (s.g a).toNat % 2 ^ s.cw else s.elemAt d.toNat s.grp s.cw i⟩
    else none
  | _ => none

/-- The scalar results of VEXTR, KFFS and KPOPC (R218, R221). -/
def State.scalarFromVector (s : State) : Instr → Option (BitVec 5 × Word)
  | .vextr d a b _ =>
    if groupOk a s.grp then
      some (d, if (s.g b).toNat < s.vl then
        BitVec.ofInt 64 (readAs (vtMsx s.vt) s.cw (elem (s.group a.toNat s.grp) s.cw (s.g b).toNat)) else 0)
    else none
  | .kffs d a k _ =>
    some (d, match (s.active k 0).find? fun i => (s.k a.toNat).getLsbD i with
      | some i => BitVec.ofNat 64 i
      | none => -1)
  | .kpopc d a k _ => some (d, BitVec.ofNat 64 ((s.active k 0).countP fun i => (s.k a.toNat).getLsbD i))
  | _ => none

/-- The mask instructions: the destination and bit i below VL (R219, R220). -/
def State.maskResult (s : State) : Instr → Option (BitVec 3 × (Nat → Bool))
  | .kand d a b _ => some (d, fun i => (s.k a.toNat).getLsbD i && (s.k b.toNat).getLsbD i)
  | .kor d a b _ => some (d, fun i => (s.k a.toNat).getLsbD i || (s.k b.toNat).getLsbD i)
  | .kxor d a b _ => some (d, fun i => (s.k a.toNat).getLsbD i != (s.k b.toNat).getLsbD i)
  | .kandn d a b _ => some (d, fun i => (s.k a.toNat).getLsbD i && ! (s.k b.toNat).getLsbD i)
  | .knot d a _ => some (d, fun i => ! (s.k a.toNat).getLsbD i)
  | .kmv d a _ => some (d, fun i => (s.k a.toNat).getLsbD i)
  | .kset d a _ => some (d, fun i => i < (s.g a).toNat)
  | _ => none

end Sys2Proof.Machine
end

