-- ==== Sys2Proof/Safety/Float.lean ====
section
/-! DEFINITION. What the rules give the scalar floating-point instructions (R117 to R121). -/

namespace Sys2Proof.Machine

/-- The low bits of g[r] as an operand of a format. -/
def State.low (s : State) (t : BitVec 2) (r : BitVec 5) : Nat := (s.g r).toNat % 2 ^ (scalarFmt t).width

/-- An operation of R118 on two operands. -/
def State.float2 (s : State) (d a b : BitVec 5) (t : BitVec 2) (op : Fmt → Nat → Nat → FOut) : Option (BitVec 5 × FOut) :=
  some (d, op (scalarFmt t) (s.low t a) (s.low t b))

/-- The results and flags of R118 to R121. -/
def State.scalarFloat (s : State) : Instr → Option (BitVec 5 × FOut)
  | .fadd d a b t _ => s.float2 d a b t fun f => fAdd f s.rmode
  | .fsub d a b t _ => s.float2 d a b t fun f => fSub f s.rmode
  | .fmul d a b t _ => s.float2 d a b t fun f => fMul f s.rmode
  | .fdiv d a b t _ => s.float2 d a b t fun f => fDiv f s.rmode
  | .fmin d a b t _ => s.float2 d a b t fun f => fMinMax f false
  | .fmax d a b t _ => s.float2 d a b t fun f => fMinMax f true
  | .fma d a b t _ => s.float2 d a b t fun f x y => fFma f s.rmode false x y (s.low t d)
  | .fcmp d a b c t _ => s.float2 d a b t fun f x y => { bits := if (fCmp f c.toNat x y).1 then 1 else 0, flags := (fCmp f c.toNat x y).2 }
  | .fsqrt d a t _ => some (d, fSqrt (scalarFmt t) s.rmode (s.low t a))
  | .fcvt d a _ c => (scalarCvt s.frm c.toNat (s.g a)).map fun r => (d, r)
  | .fmv d a t _ o =>
    if o = 0 then some (d, { bits := s.low t a })
    else if o = 1 then some (d, { bits := (s.low t a + 2 ^ ((scalarFmt t).width - 1)) % 2 ^ (scalarFmt t).width })
    else if o = 2 then some (d, { bits := s.low t a % 2 ^ ((scalarFmt t).width - 1) })
    else none
  | _ => none

end Sys2Proof.Machine
end

