-- ==== Sys2Proof/Safety/Matrix.lean ====
section
/-! DEFINITION. The matrix unit as R254 to R272 state it: what tiles, buffers and MSTAT hold afterwards. -/

namespace Sys2Proof.Machine

/-- Tile d of a state, as element i = 64 r + c of 32 bits (R254). -/
def State.tileAt (s : State) (d : BitVec 3) (i : Nat) : Nat := elem (s.core.t.get d.toFin).toNat 32 i

/-- Tile d is in MSTAT.DECL (R255). -/
def State.declared (s : State) (d : BitVec 3) : Prop := s.core.ctl.mstat.toNat / 2 ^ (8 + d.toNat) % 2 = 1

/-- An instruction completes with the elements val in tile d, whose DT bit is set, the flags and FXSAT raised, and nothing else
changed (R256). -/
def State.WritesTile (s t : State) (d : BitVec 3) (val : Nat → Nat) (flags : Nat) (sat : Bool) : Prop :=
  ∃ q ts,
    t = ({ s with core := { s.core with t := ts, ctl := s.raised { s.core.ctl with
      mstat := s.core.ctl.mstat ||| (1#64 <<< d.toNat) } flags sat } }).withSeq q ∧
    (∀ i, i < 8192 → t.tileAt d i = val i) ∧ (∀ e : BitVec 3, e ≠ d → t.core.t.get e.toFin = s.core.t.get e.toFin) ∧
    q.g = s.seq.g ∧ q.ldr = s.seq.ldr ∧ s.seq.Kept q ∧ s.seq.GoesOn 32 q

/-- How a matrix load reads: through kind C on the constant path (R258). -/
def State.matrixRead (s : State) (base : Word) : List Seg → Nat :=
  if extKind (s.extents[base.toNat / 2 ^ 60]?.getD 0) = 4 then s.readSegsConst s.seq.constMark else s.readSegs

/-- The trap of the failing field of the lowest offset, the first in order among equals (R272). -/
def State.LowestFails (s : State) (base : Word) (items : List (Int × Nat)) (tr : Trap) : Prop :=
  ∃ (n : Nat) (x : Int × Nat), items[n]? = some x ∧ s.spot base x.1 x.2 .matrix = .error tr ∧
    ∀ (m : Nat) (y : Int × Nat) (e : Trap), items[m]? = some y → s.spot base y.1 y.2 .matrix = .error e → x.1 < y.1 ∨ (x.1 = y.1 ∧ n ≤ m)

/-- Every field passes its checks and lies where `at_` says. -/
def State.AllPass (s : State) (base : Word) (items : List (Int × Nat)) (at_ : Int → Nat → List Seg) : Prop :=
  ∀ x ∈ items, s.spot base x.1 x.2 .matrix = .ok (at_ x.1 x.2)

/-- The fields of MLDA: element i = 32 r + j (R258). -/
def mldaItems (rs : Int) (w : Nat) : List (Int × Nat) := (List.range 4096).map fun i => ((i / 32 : Nat) * rs + (i % 32 * w : Nat), w)

/-- The weight, zero point, scale, mask and outlier fields of a coded block with cb-bit codes (R229, R259). -/
def codeAt (cb k c : Nat) : Int × Nat := (((64 * k + c) * cb : Nat), cb)
def zeroAt (cb c : Nat) : Int × Nat := ((2048 * cb + c * cb : Nat), cb)
def scaleAt (wf c : Nat) : Int × Nat := ((if wf ≤ 1 then 2112 * (4 - wf) + 16 * c else 16384 + 16 * c : Nat), 16)
def outlierMaskAt (cb : Nat) : Int × Nat := ((2112 * cb + 1024 : Nat), 32)
def outlierAt (cb m c : Nat) : Int × Nat := ((2112 * cb + 1056 + 8 * (64 * m + c) : Nat), 8)

/-- The B-lane form of element (k, c) of a block whose fields read as rd says (R230, R260). -/
def laneOf (wf : Nat) (rd : Int × Nat → Nat) (k c : Nat) : Nat :=
  if wf ≤ 1 then
    let cb := 4 - wf
    let mask := rd (outlierMaskAt cb)
    let m := (List.range k).countP fun i => mask.testBit i
    if mask.testBit k ∧ m < 8 then laneFloat .e4m3 (rd (outlierAt cb m c))
    else laneInt ((rd (codeAt cb k c) : Int) - rd (zeroAt cb c))
  else laneFloat (if wf = 2 then .e4m3 else .e5m2) (rd (codeAt 8 k c))

/-- The operands of element i = 64 r + c of MMA: its row of the A buffer and its column of the B buffer (R261). -/
def State.mmaRow (s : State) (i : Nat) : List FVal :=
  (List.range 32).map fun k =>
    (aFmt (s.core.ctl.mstat.toNat / 2 ^ 17 % 4)).unpack (elem s.core.abuf.toNat 16 (32 * (i / 64) + k))
def State.mmaCol (s : State) (i : Nat) : List FVal :=
  (List.range 32).map fun k => laneVal (elem s.core.bbuf.toNat 10 (64 * k + i % 64))

/-- q of a product at largest exponent E: 2^(40 - E) times its value, truncated towards zero (R261 step 2). -/
def gridOf (E : Int) : FVal → Int
  | .fin neg m e =>
    let k := e + 40 - E
    let x : Nat := if 0 ≤ k then m * 2 ^ k.toNat else m / 2 ^ (-k).toNat
    if neg then -(x : Int) else x
  | _ => 0

/-- E is the largest exponent of the non-zero products (R261 step 1). -/
def LargestExponent (ps : List FVal) (E : Int) : Prop :=
  (∃ neg m e, FVal.fin neg m e ∈ ps ∧ m ≠ 0 ∧ E = Nat.log2 m + e) ∧
  ∀ neg m e, FVal.fin neg m e ∈ ps → m ≠ 0 → (Nat.log2 m + e : Int) ≤ E

/-- The value and flags of element i after MMA: steps 1 to 6 of R261, with the scale of its column. -/
def State.mmaOf (s : State) (d : BitVec 3) (i : Nat) : FOut :=
  let x := groupOf (s.mmaRow i) (s.mmaCol i)
  let y := scaleMul (elem (s.core.bbuf.toNat / 2 ^ 20480) 32 (i % 64)) x.bits
  let z := fAdd .f32 0 (s.tileAt d i) y.bits
  { bits := z.bits, flags := x.flags ||| y.flags ||| z.flags }

/-- The value of element i after MRSC, whose table reads as rd says: R263 and R264. -/
def State.rescaled (s : State) (d : BitVec 3) (whole : Bool) (rd : Int × Nat → Nat) (i : Nat) : Out :=
  let c := i % 64
  if whole then
    let e := rd ((64 * c : Nat), 64)
    let u := roundFX (toInt 32 (s.tileAt d i) * toInt 32 e) (e / 2 ^ 32 % 64) s.fxrm
    { val := (satS u 32 % 2 ^ 32).toNat, sat := satS u 32 ≠ u }
  else (scaleMul (rd ((32 * c : Nat), 32)) (s.tileAt d i)).out

/-- The formats of MSTR; the last stores the bits as they are (R267). -/
def State.mstrValue (s : State) (f x : Nat) : FOut :=
  match f with
  | 0 => fCvt .f32 .f32 s.frm x
  | 1 => fCvt .f32 .bf16 s.frm x
  | 2 => fCvt .f32 .f16 s.frm x
  | 3 => fCvt .f32 .e4m3 s.frm x
  | 4 => fCvt .f32 .e5m2 s.frm x
  | _ => { bits := x }
def mstrWidth (f : Nat) : Nat := if f = 0 ∨ f = 5 then 32 else if f ≤ 2 then 16 else 8

/-- The writes of the first n elements of MSTR, in ascending order. -/
def State.mstrWrites (s : State) (d : BitVec 3) (f n : Nat) (at_ : Nat → List Seg) : List (List Seg × Out) :=
  (List.range n).map fun i => (at_ i, (s.mstrValue f (s.tileAt d i)).out)

/-- What MSTR leaves after some writes: memory by them, their flags added, and no other register. -/
structure State.StoresTile (s t : State) (ws : List (List Seg × Out)) (q : Seq) : Prop where
  frame : ∃ ms ls, t = ({ s with ms := ms, core := { s.core with
    ls := ls, ctl := s.raised s.core.ctl (ws.foldl (fun f (x : List Seg × Out) => f ||| x.2.flags) 0) false } }).withSeq q
  mem : ∀ b, t.ms.mem.bit b = (writtenBits ws b).getD (s.ms.mem.bit b)
  ls : ∀ b, t.core.ls.bit b = (writtenLocals ws b).getD (s.core.ls.bit b)

end Sys2Proof.Machine
end

