-- ==== Sys2Proof/Safety/Ports.lean ====
section
/-! DEFINITION. What the ports reach, as the rules give it: the DPA space (R414), the register windows (R407, R408), and what an
access that arrives at a die leaves (R288). -/

namespace Sys2Proof.Machine

/-- Only the answer to the requester differs. -/
def State.withReply (s : State) (x : ReplyStatus) (v : Nat) : State := { s with io := { s.io with reply := { status := x, value := v } } }

/-- The bytes of the DPA space, and the physical byte at DPA d (R414). -/
def dpaBytes : Nat := 3008 * 10 ^ 9
def dpaByte (d : Nat) : Nat :=
  if d < 960 * 10 ^ 9 then d / (120 * 10 ^ 9) * 2 ^ 37 + d % (120 * 10 ^ 9) else 2 ^ 41 + (d - 960 * 10 ^ 9)

/-- Byte k of a value. -/
def byteOf (v k : Nat) : Nat := v / 2 ^ (8 * k) % 256

/-- The old word with the masked bits of the new one. -/
def mixWord (old new mask : Word) : Word := (old &&& ~~~mask) ||| (new &&& mask)

/-- A decoder of port q gives n bytes at host address h the DPA d (R414): it is committed and covers them; with two ways the port
has every second block of the granularity, the first for port 0, and its blocks lie together (log 22). -/
def hdmGives (x : HdmDecoder) (q h n d : Nat) : Prop :=
  x.committed = true ∧ ∃ o, h = x.base + o ∧ o + n ≤ x.size ∧
    if x.ways = 2 then
      ∃ k r, o = (2 * k + q) * x.granularity + r ∧ r + n ≤ x.granularity ∧ r < x.granularity ∧ d = x.dpa + k * x.granularity + r
    else d = x.dpa + o

/-- A host access of n bytes reaches DPA d: by BAR2, whose offsets are the DPA space, or by CXL.mem through an up link and a decoder
of the port, where none before it decodes the address (R407, R414). -/
def State.hostReaches (s : State) (p : HostPath) (h n d : Nat) : Prop :=
  match p with
  | .bar2 => d = h
  | .cxlMem q => s.ms.linkUp[q.toNat]? = some true ∧
      0 < n ∧ ∃ (i : Nat) (x : HdmDecoder), i < 4 ∧ s.ms.hdm[4 * q.toNat + i]? = some x ∧ hdmGives x q.toNat h n d ∧
        ∀ j y e, j < i → s.ms.hdm[4 * q.toNat + j]? = some y → ¬ hdmGives y q.toNat h n e
  | _ => False

/-- One of the ranges that n bytes from DPA d make up lies in a heap, or in a poisoned sector (R288, R304). -/
def State.hostInHeap (s : State) (d n : Nat) : Prop := ∃ r ∈ dpaRanges d n, s.inHeap r.2.1 r.2.2 = true
def State.hostPoisoned (s : State) (d n : Nat) (wr : Bool) : Prop := ∃ r ∈ dpaRanges d n, s.poisoned r.2.1 r.2.2 wr = true

/-- One more event stands in the black box, and nothing else differs (R427). -/
def State.withEvent (s : State) (e : BitVec 128) : State :=
  { s with io := { s.io with bbcnt := s.io.bbcnt + 1, ring := (e :: s.io.ring).take 4096 } }

/-- A host access to a heap was refused: nothing but the answer and an event of type 14 (R304, R427). -/
def State.HostRefused (s t : State) (x : ReplyStatus) (wr : Bool) : Prop :=
  ∃ e : BitVec 128, t = (s.withEvent e).withReply x 0 ∧ e.extractLsb' 80 8 = 14#8 ∧ e.getLsbD 63 = wr

/-- What a word of a doorbell page reads as (R408). -/
def pageWord (x : Doorbell) (o : Nat) : Word := if o = 0x8 then x.taken else if o = 0x10 then x.err else 0

/-- What a word of the PF's windows reads as, at a multiple of 8, the black-box ring aside (R407). -/
def State.ioWord (s : State) (o : Nat) : Word :=
  let r := o % 2 ^ 20
  let die := (s.ms.llc[o / 2 ^ 20 - 2]?).getD LlcDie.reset
  let base := (o - 0x800000) / 2 ^ 16
  if o < 0x1000 then pageWord (s.io.doorbell 0) o
  else if o / 2 ^ 20 = 1 then
    ([s.ms.owncmd, s.ms.qbase, s.ms.qctl, s.io.bbcnt, s.io.env, s.io.mstate][r / 8]?).getD 0
  else if 2 ≤ o / 2 ^ 20 ∧ o / 2 ^ 20 < 6 then
    if r = 0 then die.cfg else if r = 8 then die.src else if 0x100 ≤ r ∧ r < 0x300 then (die.part[(r - 0x100) / 8]?).getD 0 else 0
  else if 0x800000 ≤ o ∧ o < 0x880000 then
    if o % 2 ^ 16 = 0 then (s.ms.pklast[base]?).getD 0 else if o % 2 ^ 16 = 8 then (s.ms.pkcmd[base]?).getD 0 else 0
  else 0

/-- What a write of a doorbell page's word leaves (R408, R428). -/
def State.pagePut (s : State) (p o : Nat) (v : Word) : State :=
  let x := s.io.doorbell p
  let put (y : Doorbell) : State := { s with io := s.io.setDoorbell y }
  if o = 0 ∧ s.io.mstate.toNat % 16 = 8 then put { x with calls := x.calls ++ [v.setWidth 58] }
  else if o = 0x10 ∧ v.getLsbD 63 then put { x with err := x.err &&& 0x7FFFFFFFFFFFFFFF }
  else s

/-- Changes one die's LLC registers. -/
def State.withLlc (s : State) (d : Nat) (f : LlcDie → LlcDie) : State :=
  match s.ms.llc[d]? with
  | some x => { s with ms := { s.ms with llc := s.ms.llc.setIfInBounds d (f x) } }
  | none => s

/-- What a write of a word of the PF's windows leaves, the registers with an instruction of their own aside (R284, R293, R351,
R407). -/
def State.ioPut (s : State) (o : Nat) (v : Word) : State :=
  let r := o % 2 ^ 20
  let base := (o - 0x800000) / 2 ^ 16
  let up : Bool := s.ms.linkUp.toList.all id
  let q := mixWord s.ms.qctl v 0xFFFF
  let q := if v.getLsbD 62 then q &&& 0xBFFFFFFFFFFFFFFF else q
  if o < 0x1000 then (if o = 0 then s else s.pagePut 0 o v)
  else if o = 0x100008 then { s with ms := { s.ms with qbase := v &&& 0x3FFFFFFFFFF800 } }
  else if o = 0x100010 then
    if v.getLsbD 63 ∧ up then { s with ms := { s.ms with qctl := q &&& 0x7FFFFFFFFFFFFFFF, lost := Vector.replicate 2 false } }
    else { s with ms := { s.ms with qctl := q } }
  else if 2 ≤ o / 2 ^ 20 ∧ o / 2 ^ 20 < 6 then
    if r = 8 then s.withLlc (o / 2 ^ 20 - 2) fun x => { x with src := v &&& 0x3F3F }
    else if 0x100 ≤ r ∧ r < 0x300 then s.withLlc (o / 2 ^ 20 - 2) fun x => { x with
      part := x.part.setIfInBounds ((r - 0x100) / 8) (v &&& 0xFFFFFFFFFFFF) }
    else s
  else if 0x800000 ≤ o ∧ o < 0x880000 ∧ o % 2 ^ 16 = 0 ∧ v.getLsbD 63 then
    { s with ms := { s.ms with pklast := s.ms.pklast.setIfInBounds base ((s.ms.pklast[base]?).getD 0 &&& 0x7FFFFFFFFFFFFFFF) } }
  else s

/-- A task not of the privileged context is bound or staged on a core of the die (R292, R385). -/
def State.dieInUse (s : State) (d : Nat) : Prop :=
  ∃ x ∈ s.sched.slots, x.1 / 56 = d ∧ ∃ r, (r = x.2.run ∨ r = x.2.stg) ∧ bindValid r = true ∧
    ¬ ((keyOf (field r 40 0)).vdev = 0 ∧ (keyOf (field r 40 0)).graph = 0xFFFF)

/-- The sectors that hold what an access at a die needs: those of its range, or, to a packed page, those of its index line, header,
blocks and rubble whose bits it needs (R283, R288). -/
def State.needed (s : State) (r : DieAccess) (wr : Bool) (x : Nat) : Prop :=
  if r.packed then x ∈ s.ms.packedSectors (frameOf r.addr) (pageOff r.addr) r.width wr
  else r.addr / 1024 ≤ x ∧ x ≤ (r.addr + r.width - 1) / 1024

/-- What ECC and the tag leave before an access at a die (R288, R427): of an error, the event names the sector it was found in, and
an uncorrectable one poisons that sector. -/
def State.Checked (s u : State) (r : DieAccess) (wr : Bool) : Prop :=
  match r.ecc with
  | .clean => u = s
  | .corrected => ∃ x e, s.needed r wr x ∧ u = s.withEvent e ∧ e.extractLsb' 80 8 = 4#8 ∧
      (e.extractLsb' 0 64).toNat = 1024 * x % 2 ^ 54
  | .uncorrectable => ∃ x e ps, s.needed r wr x ∧ u = { (s.withEvent e) with ms := { s.ms with poison := ps } } ∧
      e.extractLsb' 80 8 = 5#8 ∧ (e.extractLsb' 0 64).toNat = 1024 * x % 2 ^ 54 ∧ ∀ y, y ∈ ps ↔ y ∈ s.ms.poison ∨ y = x

/-- The result of an atomic of an application core on a word of w bits (R416). -/
def amoGives (op : AmoOp) (w old v : Nat) : BitVec w :=
  let a := BitVec.ofNat w old
  let b := BitVec.ofNat w v
  match op with
  | .swap => b
  | .add => a + b
  | .xor => a ^^^ b
  | .and => a &&& b
  | .or => a ||| b
  | .min => if a.sle b then a else b
  | .max => if a.sle b then b else a
  | .minu => if a.ule b then a else b
  | .maxu => if a.ule b then b else a

/-- A write of n bytes at byte a by an application core: memory holds v there and is as before elsewhere, the reservations on those
bytes end, and nothing but the answer differs besides (R416). -/
def State.HartWrote (s t : State) (a n v answer : Nat) : Prop :=
  t = { (s.withReply .ok answer) with ms := t.ms, io := { (s.withReply .ok answer).io with harts := t.io.harts } } ∧
  (∀ k, k < n → (t.ms.mem.byte (a + k)).toNat = byteOf v k) ∧ (∀ b, b < a ∨ a + n ≤ b → t.ms.mem.byte b = s.ms.mem.byte b) ∧
  ∀ (i : Nat) (x : Hart), s.io.harts[i]? = some x → t.io.harts[i]? = some
    (if x.reserved.any (fun r => decide (a < r.1 + r.2.1 ∧ r.1 < a + n)) then { x with reserved := none } else x)

/-- No memory is at the first or the last bit of an access (R43). -/
def outside (a w : Nat) : Prop := populated a = false ∨ populated (a + w - 1) = false

end Sys2Proof.Machine
end

