-- ==== Sys2Proof/Safety/Module.lean ====
section
/-! DEFINITION. What the events of the module as a whole leave, as the rules give it: a fatal error (R425), a lost CXL link (R351), the
boot state (R423, R426, R428). -/

namespace Sys2Proof.Machine

/-- One black-box event of a type was written, and nothing else differs but what the caller names (R427). -/
def Io.Recorded (x y : Io) (type : BitVec 8) : Prop :=
  y.bbcnt = x.bbcnt + 1 ∧ ∃ e : BitVec 128, y.ring = (e :: x.ring).take 4096 ∧ e.extractLsb' 80 8 = type

/-- A fatal module error (R425): MSTATE.FATAL, the AER report, one event of type 11 and vector 4; in a module that has had one,
nothing. -/
def State.Fails (s t : State) : Prop :=
  (s.io.mstate.getLsbD 5 = true → t = s) ∧
  (s.io.mstate.getLsbD 5 = false → t = { s with io := { s.io with mstate := s.io.mstate ||| 0x20, aer := true, bbcnt := t.io.bbcnt, ring := t.io.ring, msix := t.io.msix } } ∧
    s.io.Recorded t.io 11 ∧ ∃ fn, t.io.msix = s.io.msix ++ [(fn, 4)])

/-- The dirty host-homed lines behind port p, with the other port's where that one is down (R351, R415). -/
def MemSys.behindPort (ms : MemSys) (p l : Nat) : Prop :=
  (∃ y ∈ ms.dirty, y.addr / 128 = l) ∧ Config.hostBase ≤ 1024 * l ∧
  ((1024 * l - Config.hostBase) / 2 ^ 15 % 2 = p ∨ ms.linkUp[1 - p]? = some false)

/-- Slot n of the quarantine, and what it holds of a line with value v (R351). -/
def MemSys.slotAt (ms : MemSys) (n : Nat) : Nat := ms.qbase.toNat / 2 ^ 11 % 2 ^ 43 * 2 ^ 11 + 2048 * n
def slotImage (l v : Nat) : Nat := v + 2 ^ 1024 * (2 ^ 63 + 1024 * l % 2 ^ 54)

/-- The reason for which bring-up stops at the images, 0 if it does not: that of the first image that fails (R423, R426). -/
def imagesReason : List Image → Nat
  | [] => 0
  | x :: xs => if ¬ x.present then 3 else if ¬ x.signed then 1 else if x.version < x.rollback then 2 else imagesReason xs

/-- MSTATE after a bring-up that stops for a reason after a step, or that completes (R426, R428). -/
def broughtUp (reason last : Nat) : Word := if reason = 0 then 8 else BitVec.ofNat 64 (256 * reason + 16 + last)

end Sys2Proof.Machine
end

