-- ==== Sys2Proof/Safety/Net.lean ====
section
/-! DEFINITION. The network engine's and the encoders' steps, as the rules give them (R417 to R422). -/

namespace Sys2Proof.Machine

/-- The reasons for which NPOST enqueues nothing, on the six registers w (R418). -/
def State.refusesPost (s : State) (w : Nat → Word) (reason : Nat) : Prop :=
  let op := (w 0).toNat % 2 ^ 4
  let len := (w 2).toNat
  match reason with
  | 1 => (op ≠ 1 ∧ op ≠ 2) ∨ (w 0).toNat / 2 ^ 4 % 2 ^ 4 ≠ 0 ∨ (w 0).toNat / 2 ^ 24 ≠ 0
  | 2 => len % 8 ≠ 0 ∨ len < 8 ∨ 2 ^ 35 < len
  | 3 => (w 1).toNat % 2 ^ 58 % 8 ≠ 0
  | 4 => ∀ x ∈ s.io.peers, ¬ (x.vdev = s.taskKey.vdev ∧ x.index = (w 0).toNat / 2 ^ 8 % 2 ^ 16)
  | _ => False

/-- Where the local bits of a request lie (R418, R420): in the local store of the core that its task is bound to, or, while it is
unbound, in its save area as far as that holds them; or behind the translation of its address space. -/
inductive Spot where
  | core (n : Nat)
  | gone
  | segs (g : List Seg)

def State.spotOf (s : State) (r : NetReq) (inLocal : Bool) (a w : Nat) (c : Class) : Option Spot :=
  if inLocal then
    match s.sched.coreOf r.task with
    | some n => some (.core n)
    | none =>
      match s.sched.task r.task with
      | some t =>
        let foot := t.image.toNat / 2 ^ 424 % 2 ^ 25
        if t.saved = true ∧ t.state ≠ .ended ∧ a < foot then some (.segs [.phys (t.ctx + 2881536 + a) (min w (foot - a))]) else some .gone
      | none => some .gone
  else (s.engineSegs (engineVia r.root r.assured) a w c).map .segs

/-- What is read and written there. -/
def State.spotRead (s : State) (a w : Nat) : Spot → Nat
  | .core n => (s.coreAt n).ls.readBits a w
  | .gone => 0
  | .segs g => s.readSegs g

def State.spotWrite (s : State) (a w v mask : Nat) : Spot → State
  | .core n => s.mapCoreNo n fun c => { c with ls := c.ls.writeMasked a w v (lsMask a w mask) }
  | .gone => s
  | .segs g => s.writeSegs none g v mask

/-- The masked bits of x move into the parts of a range at va, one after the other (R418): those of a page that is mapped for a write are
placed, those of another are not; `whole` says that all were mapped. -/
inductive FillsPages (via : Via) (va x mask : Nat) : List (Nat × Nat) → State → State → Bool → Prop where
  | done (s : State) : FillsPages via va x mask [] s s true
  | placed {s t : State} {off k : Nat} {ps : List (Nat × Nat)} {g : List Seg} {whole : Bool}
      (h : s.pages via 0 (va + off) k .engineWrite 0 = .ok g)
      (rest : FillsPages via va x mask ps (s.writeSegs none g (x / 2 ^ off) (mask / 2 ^ off)) t whole) :
      FillsPages via va x mask ((off, k) :: ps) s t whole
  | skipped {s t : State} {off k : Nat} {ps : List (Nat × Nat)} {e : Trap} {whole : Bool}
      (h : s.pages via 0 (va + off) k .engineWrite 0 = .error e) (rest : FillsPages via va x mask ps s t whole) :
      FillsPages via va x mask ((off, k) :: ps) s t false

/-- Only the black box has grown by one event. -/
def State.OneEvent (s t : State) : Prop :=
  t = { s with io := { s.io with bbcnt := t.io.bbcnt, ring := t.io.ring } } ∧ t.io.bbcnt = s.io.bbcnt + 1

/-- Word i of an encoder job (R421), and the bits of a stream's frame in 4:2:0 (R422). -/
def jobField (img : BitVec 512) (i : Nat) : Word := BitVec.ofNat 64 (img.toNat / 2 ^ (64 * i))
def frameBits (x : EncStream) : Nat := x.width * x.height * 3 / 2 * (if x.deep then 10 else 8)

/-- Job j is the next of its stream at encoder e (R422). -/
def Io.Next (io : Io) (e : Nat) (j : EncJob) : Prop :=
  ∃ xs ys, io.encJobs = xs ++ j :: ys ∧ j.encoder = e ∧ ∀ y ∈ xs, ¬ (y.encoder = e ∧ y.stream = j.stream)

/-- What encoding a job leaves in memory, and its completion value (R422): a unit of len bits, whole bytes, and its length, or a
failure with its reason, which may have written a part of the buffer's bits that the unit takes. A unit that stands written already
gives its value again. -/
def State.Encodes (s u : State) (j : EncJob) (x : EncStream) (value : Nat) : Prop :=
  let base (i : Nat) : Nat := let t := jobField j.image i
    extBase ((j.ext[t.toNat / 2 ^ 60]?).getD 0) + t.toNat % 2 ^ 58
  let room := (jobField j.image 5).toNat
  let out (n : Nat) : Option (List Seg) := s.engineSegs j.via (base 4) n .engineWrite
  (j.bad = true → u = s ∧ value = 2 ^ 63 + 2) ∧
  (∀ n, j.bad = false → j.written = some n → u = s ∧ value = n) ∧
  (j.bad = false → j.written = none → ∃ len, len % 8 = 0 ∧ len < 2 ^ 40 ∧
    let ok := s.engineSegs j.via (base 3) (frameBits x) .engineRead ≠ none ∧ out (min room len) ≠ none
    (ok → len ≤ room → value = len ∧ ∃ unit g, out len = some g ∧ u = s.store none g len unit) ∧
    (ok → room < len → value = 2 ^ 63 + 1 ∧ ∃ unit mask g, out room = some g ∧ u = s.writeSegs none g unit mask) ∧
    (¬ ok → value = 2 ^ 63 + 2 ∧ (u = s ∨ ∃ n g unit mask, n ≤ min room len ∧ out n = some g ∧ u = s.writeSegs none g unit mask)))

end Sys2Proof.Machine
end

