-- ==== Sys2Proof/Safety/Scalar.lean ====
section
/-! DEFINITION. The results that the rules give the scalar instructions, written from the rules' own formulas: the
statements compare exec with these tables. -/

namespace Sys2Proof.Machine

/-- A scalar result: the instruction's length in bits, the register it names in D, and the value. -/
structure GResult where
  len : Nat
  d : BitVec 5
  x : Word
deriving DecidableEq, Repr

/-- A 32-bit instruction's result. -/
def res (d : BitVec 5) (x : Word) : Option GResult := some ⟨32, d, x⟩

/-- A compact form's result, on the register L of LDR, where LDR.CLS is the scalar class (R59, R60). -/
def State.res16 (s : State) (x : Word) : Option GResult :=
  if s.seq.ldr.toNat / 32 % 4 = 1 then some ⟨16, s.seq.ldr.setWidth 5, x⟩ else none

/-- The register L of a compact form, as it reads it. -/
def State.l (s : State) : Word := s.g (s.seq.ldr.setWidth 5)

/-- A comparison as 1 or 0. -/
def oneIf (p : Prop) [Decidable p] : Word := if p then 1 else 0

/-- BEXT (R109): n bits from POS, those past 63 reading as 0, extended as SX says. -/
def bextValue (a b : Word) : Word :=
  let n := b.toNat / 2 ^ 8 % 64 + 1
  let f : BitVec n := (a >>> (b.toNat % 64)).setWidth n
  if b.getLsbD 16 then f.signExtend 64 else f.setWidth 64

/-- BINS (R109): the bits of g[D] outside m, and those of a moved up by POS inside it. -/
def binsValue (d a b : Word) : Word :=
  let n := b.toNat / 2 ^ 8 % 64 + 1
  let m := ((1#64 <<< n) - 1) <<< (b.toNat % 64)
  (d &&& ~~~m) ||| ((a <<< (b.toNat % 64)) &&& m)

/-- LIMM (R51): the immediate at 16 SH; with K = 1 the other bits of the old value stay. -/
def limmValue (old : Word) (i : BitVec 16) (h : BitVec 2) (k : BitVec 1) : Word :=
  let x : Word := i.setWidth 64 <<< (16 * h.toNat)
  if k = 0 then x else (old &&& ~~~((0xFFFF : Word) <<< (16 * h.toNat))) ||| x

/-- The results of R107, R108, R109, R51 and the scalar compact forms of R61. -/
def State.scalarResult (s : State) : Instr → Option GResult
  | .add d a b _ => res d (s.g a + s.g b)
  | .sub d a b _ => res d (s.g a - s.g b)
  | .and d a b _ => res d (s.g a &&& s.g b)
  | .or d a b _ => res d (s.g a ||| s.g b)
  | .xor d a b _ => res d (s.g a ^^^ s.g b)
  | .andn d a b _ => res d (s.g a &&& ~~~s.g b)
  | .sll d a b _ => res d (s.g a <<< ((s.g b).toNat % 64))
  | .srl d a b _ => res d (s.g a >>> ((s.g b).toNat % 64))
  | .sra d a b _ => res d ((s.g a).sshiftRight ((s.g b).toNat % 64))
  | .rol d a b _ => res d ((s.g a).rotateLeft ((s.g b).toNat % 64))
  | .ror d a b _ => res d ((s.g a).rotateRight ((s.g b).toNat % 64))
  | .slt d a b _ => res d (oneIf ((s.g a).toInt < (s.g b).toInt))
  | .sltu d a b _ => res d (oneIf ((s.g a).toNat < (s.g b).toNat))
  | .min d a b _ => res d (BitVec.ofInt 64 (min (s.g a).toInt (s.g b).toInt))
  | .max d a b _ => res d (BitVec.ofInt 64 (max (s.g a).toInt (s.g b).toInt))
  | .minu d a b _ => res d (BitVec.ofNat 64 (min (s.g a).toNat (s.g b).toNat))
  | .maxu d a b _ => res d (BitVec.ofNat 64 (max (s.g a).toNat (s.g b).toNat))
  | .mul d a b _ => res d (s.g a * s.g b)
  | .mulh d a b _ => res d (BitVec.ofInt 64 ((s.g a).toInt * (s.g b).toInt / 2 ^ 64))
  | .mulhu d a b _ => res d (BitVec.ofNat 64 ((s.g a).toNat * (s.g b).toNat / 2 ^ 64))
  | .div d a b _ => res d (if s.g b = 0 then -1 else (s.g a).sdiv (s.g b))
  | .divu d a b _ => res d (if s.g b = 0 then -1 else s.g a / s.g b)
  | .rem d a b _ => res d (if s.g b = 0 then s.g a else (s.g a).srem (s.g b))
  | .remu d a b _ => res d (if s.g b = 0 then s.g a else s.g a % s.g b)
  | .clz d a _ => res d (BitVec.ofNat 64 (64 - (s.g a).toNat.size))
  | .ctz d a _ => res d (BitVec.ofNat 64 (((List.range 64).takeWhile fun n => ! (s.g a).getLsbD n).length))
  | .popc d a _ => res d (BitVec.ofNat 64 ((List.finRange 64).countP fun n => (s.g a).getLsbD n.val))
  | .bext d a b _ => res d (bextValue (s.g a) (s.g b))
  | .bins d a b _ => res d (binsValue (s.g d) (s.g a) (s.g b))
  | .slli d a n _ => res d (s.g a <<< n.toNat)
  | .srli d a n _ => res d (s.g a >>> n.toNat)
  | .srai d a n _ => res d ((s.g a).sshiftRight n.toNat)
  | .addi d a i _ => res d (s.g a + i.signExtend 64)
  | .andi d a i _ => res d (s.g a &&& i.signExtend 64)
  | .ori d a i _ => res d (s.g a ||| i.signExtend 64)
  | .xori d a i _ => res d (s.g a ^^^ i.signExtend 64)
  | .slti d a i _ => res d (oneIf ((s.g a).toInt < i.toInt))
  | .limm d i h k => res d (limmValue (s.g d) i h k)
  | .cAdd p => s.res16 (s.l + s.g p)
  | .cSub p => s.res16 (s.l - s.g p)
  | .cAnd p => s.res16 (s.l &&& s.g p)
  | .cOr p => s.res16 (s.l ||| s.g p)
  | .cXor p => s.res16 (s.l ^^^ s.g p)
  | .cMul p => s.res16 (s.l * s.g p)
  | .cAddi i => s.res16 (s.l + i.signExtend 64)
  | .cLi i => s.res16 (i.signExtend 64)
  | .cSlli n => s.res16 (s.l <<< n.toNat)
  | .cSrli n => s.res16 (s.l >>> n.toNat)
  | .cSrai n => s.res16 (s.l.sshiftRight n.toNat)
  | .cMv p => s.res16 (s.g p)
  | .cMin p => s.res16 (BitVec.ofInt 64 (min s.l.toInt (s.g p).toInt))
  | .cMax p => s.res16 (BitVec.ofInt 64 (max s.l.toInt (s.g p).toInt))
  | _ => none

/-- The exact offset that BADDR forms (R110). -/
def baddrOffset (a b : Word) : Int := (a.toNat % 2 ^ 58 : Nat) + 8 * b.toInt

/-- The results of the tagged-address and extent instructions where none of their checks fails (R36, R38, R110). -/
def State.addressResult (s : State) : Instr → Option GResult
  | .baddr d a b _ =>
    if (s.g a).toNat / 2 ^ 58 % 4 = 0 ∧ 0 ≤ baddrOffset (s.g a) (s.g b) ∧ baddrOffset (s.g a) (s.g b) < 2 ^ 58 then
      res d (BitVec.ofNat 64 ((s.g a).toNat / 2 ^ 60 * 2 ^ 60 + (baddrOffset (s.g a) (s.g b)).toNat))
    else none
  | .etag d a b _ =>
    if b.toNat < 16 ∧ (s.g a).toNat < 2 ^ 58 then res d (BitVec.ofNat 64 (b.toNat * 2 ^ 60 + (s.g a).toNat)) else none
  | .extrBase d b _ => if b.toNat < 16 then res d (((s.extents[b.toNat]?.getD 0).extractLsb' 0 58).setWidth 64) else none
  | .extrLen d b _ => if b.toNat < 16 then res d (((s.extents[b.toNat]?.getD 0).extractLsb' 58 59).setWidth 64) else none
  | .extrAttr d b _ =>
    let x := s.extents[b.toNat]?.getD 0
    if b.toNat < 16 then
      res d (BitVec.ofNat 64 ((x.extractLsb' 117 3).toNat + 8 * (x.extractLsb' 120 1).toNat +
        16 * (x.extractLsb' 121 1).toNat + 32 * (x.extractLsb' 122 6).toNat))
    else none
  | _ => none

end Sys2Proof.Machine
end

