-- ==== Sys2Proof/Safety/Step.lean ====
section
/-! DEFINITION. What a step adds around the meaning of the instruction it runs (R47, R52, R67, R391; log 1, 2, 8). -/

namespace Sys2Proof.Machine

/-- The sequencer in focus as it issues a word or parcel: in its instruction register, waiting in nothing. -/
def State.issuing (v : State) (w : BitVec 32) : State := v.withSeq { v.seq with insn := w, wait := none, due := 1 }

/-- The turn's sequencer comes into focus, the cycles until it pass, what its chained loads wait for arrives, and its next word or
parcel, fetched or given by its repeat frame, is in its instruction register: the state u in which that is issued. -/
structure State.Issues (s u : State) (w : BitVec 32) (len : Nat) : Prop where
  turn : ∃ c q s0, s.nextAgent = some (.seq c q, s0) ∧ c < 224 ∧ let v0 := s0.focus c q
    let v := (v0.elapse v0.turnCycles).chains
    u = v.issuing w ∧ v0.seq.running = true ∧ v0.io.mstate.getLsbD 5 = false ∧ (v0.sched.slot v0.coreNo).dcmd = 0 ∧
    (v.seq.wait = none ∨ v.seq.wait = some .held) ∧ v.seq.replay = [] ∧ v.seq.owed.frame = false ∧
    ((∃ f, v.seq.frame = some f ∧ w = v.frameWord f ∧ len = 32) ∨ (v.seq.frame = none ∧ v.fetchAt v.seq.pc = .ok (w, len)))

/-- The stall count W: in bits 24:22 of the R, I and V formats, and 0 in the others and in a parcel (R48, R52). -/
def stallCount (w : BitVec 32) (len : Nat) : Nat :=
  let m := w.toNat / 2 % 64
  if len = 32 ∧ (m ≤ 5 ∨ m = 0x0B ∨ m = 0x0E ∨ (0x10 ≤ m ∧ m ≤ 0x13) ∨ m = 0x18 ∨ (0x1B ≤ m ∧ m ≤ 0x26)) then w.toNat / 2 ^ 22 % 8 else 0

/-- The latency of an instruction word by the table of R54, L + (G - 1) P; none where it is variable. -/
def fixedLatency (vt w : Nat) : Option Nat :=
  let m := w / 2 % 64
  let f := w / 2 ^ 25 % 128
  let vf := w / 2 ^ 28
  let cw := 8 * 2 ^ (vt % 8)
  let g := 2 ^ (vt / 8 % 8)
  let scalar (f64 : Bool) : Option Nat := some (if f64 then 6 else 4)
  let group (l p n : Nat) : Option Nat := some (l + (n - 1) * p)
  let float (f64 : Bool) (n : Nat) : Option Nat := if f64 then group 9 4 n else group 6 1 n
  match m with
  | 0x00 => if f ≤ 0x10 ∨ (0x30 ≤ f ∧ f ≤ 0x35) ∨ (0x40 ≤ f ∧ f ≤ 0x45) then some 1 else if 0x20 ≤ f ∧ f ≤ 0x22 then some 3 else none
  | 0x01 | 0x02 | 0x03 | 0x04 | 0x05 | 0x06 | 0x0D | 0x0E => some 1
  | 0x0B => if f = 0 ∨ 8 ≤ f then some 1 else none
  | 0x10 => if f / 4 ≤ 6 ∧ f / 4 ≠ 3 ∧ f / 4 ≠ 4 then scalar (f % 4 = 0) else none
  | 0x11 => if f / 4 = 0 then scalar (f % 4 = 0) else none
  | 0x12 => if f / 4 ≤ 3 then scalar (f % 4 = 0) else none
  | 0x13 => if f / 4 = 0 then scalar (w / 2 ^ 17 % 32 ∈ [0x00, 0x01, 0x02, 0x03, 0x08, 0x09, 0x10, 0x11, 0x18, 0x19])
      else if f / 4 = 1 then some 1 else none
  | 0x1B | 0x1C => if vf = 15 then none else group 4 1 g
  | 0x1D => group 4 1 g
  | 0x1E | 0x1F => if vf = 9 ∨ vf = 10 then none else if 5 ≤ vf ∧ vf ≤ 8 then group 6 1 (2 * g) else group 6 1 g
  | 0x20 | 0x21 | 0x22 =>
    if vf ≤ 1 then group 6 1 g else if vf = 2 then group 6 1 (2 * g) else if vf ≤ 4 ∨ 8 ≤ vf then group 4 1 g else none
  | 0x23 | 0x24 =>
    if (4 ≤ vf ∧ vf ≤ 7) ∨ vf = 15 ∨ vf ≤ 2 then float (cw = 64) g
    else if m = 0x24 ∨ vf = 3 ∨ (8 ≤ vf ∧ vf ≤ 10) then none
    else if vf ≤ 12 then float (cw = 64) g
    else if vf = 13 then (if w / 2 ^ 17 % 32 ≤ 3 then float (cw = 64 ∨ cw = 32) (2 * g) else float (cw = 64) g)
    else group 8 2 g
  | 0x25 =>
    if vf ≤ 6 then group 12 2 g else if vf = 7 then group 16 2 g
    else if vf = 10 ∨ vf = 11 ∨ vf = 15 then none else group 4 1 g
  | 0x26 => if vf = 5 ∨ vf = 6 then some 2 else if vf ≤ 8 then some 1 else none
  | _ => none

/-- The record of declared distances after an instruction with operands o and stall W, from what it was (R53): every distance has grown
by 1 + W, the registers that it writes with a fixed latency begin at 1 + W, and what has reached its latency is gone. -/
def State.Accounts (s : State) (old rec : List Pending) (o : Operands) (stall : Nat) : Prop :=
  ∀ p, p ∈ rec ↔ p.dist < p.lat ∧ ¬ (p.cls = .g ∧ p.reg = 0) ∧
    ((∃ y ∈ old, (y.cls, y.reg) ∉ o.dests ∧ p = { y with dist := y.dist + 1 + stall }) ∨
      ∃ l r, o.lat = some l ∧ r ∈ o.dests ∧ p = { cls := r.1, reg := r.2, lat := l, dist := 1 + stall, old := s.stored r })

/-- What a source that is read early may show under unchecked issue (R57): its old or its new contents, of a mask register for each
element group of its own. -/
def State.EarlyValue (s : State) (p : Pending) (x : VReg) : Prop :=
  let new := s.stored (p.cls, p.reg)
  if p.cls = .k then
    ∀ j, j < s.cw → let epr := 16384 / s.cw
      let group (y : VReg) : Nat := y.toNat / 2 ^ (j * epr) % 2 ^ epr
      group x = group p.old ∨ group x = group new
  else x = p.old ∨ x = new

/-- The instruction w, performed on s, has left t, and only what the scoreboard notes of it differs in x: the sequencer's record of
distances, the cycles until its next instruction, 1 + W (R52), the ticks and the count of free values, and, for one of variable latency
that neither trapped nor waits, its entry among those in flight and its flags, which are raised when it is complete (R55, R164). One that
traps or waits enters no distance, and one that waits costs one cycle a turn. -/
def State.Passed (s t x : State) (w : BitVec 32) (len : Nat) : Prop :=
  let ends := stoppedBy s t = true
  let waits := stoppedBy s t = false ∧ t.seq.wait ≠ none
  let stays := staysInFlight w len (s.issueOperands w len) = true ∧ stoppedBy s t = false ∧ t.seq.wait = none
  ∃ (rec : List Pending) (fl : List InFlight) (due n : Nat),
    (ends ∨ waits → rec = t.seq.record) ∧
    (¬ ends → ¬ waits → s.Accounts t.seq.record rec (s.issueOperands w len) (stallCount w len)) ∧
    (waits → due = 1) ∧ (¬ waits → due = 1 + stallCount w len) ∧
    let u : State := { (t.withSeq { t.seq with record := rec, inFlight := fl, due := due }) with
      fresh := t.fresh + 1, sched := { t.sched with ticks := t.sched.ticks + n } }
    (¬ stays → x = u ∧ fl = t.seq.inFlight) ∧
    (stays → ∃ y, fl = t.seq.inFlight ++ [y] ∧ y.word = w ∧ y.addr = s.seq.pc ∧
      x = { u with core := { u.core with ctl := { u.core.ctl with
        fflags := s.core.ctl.fflags, fxsat := s.core.ctl.fxsat, unseenMain := s.core.ctl.unseenMain, unseenMatrix := s.core.ctl.unseenMatrix } } } ∧
      (byGroups w = false → s.core.ctl.flags = 0 → y.flags.foldl (· ||| ·) 0 = t.core.ctl.flags))

/-- The oldest instruction in flight that waits for no window is complete, and its flags are raised (R55, R164). -/
def State.oldestDone (s : State) : State :=
  let fl := (s.seq.inFlight.find? fun x => x.chain.isNone).elim 0 fun x => x.flags.foldl (· ||| ·) 0
  (s.withSeq { s.seq with inFlight := dropOldest s.seq.inFlight }).mapCtl fun c => c.raise s.cur fl

/-- Only time has passed. -/
def State.Later (t x : State) : Prop := ∃ n, x = { t with fresh := t.fresh + 1, sched := { t.sched with ticks := t.sched.ticks + n } }

/-- The sources that are still short of their latency, in the order of R56. -/
def State.earlySources (s : State) (w : BitVec 32) (len : Nat) : List Pending := (s.issueOperands w len).sources.filterMap s.seq.early

end Sys2Proof.Machine
end

