-- ==== Sys2Proof/Certificates/Slice0/Obligations.lean ====
section
/-! DEFINITION. The statements about the machine, for the provers. Each docstring says what its statement says; OBLIGATIONS.json
names the rules of spec/ that it rests on. -/

open Sys2Proof Sys2Proof.Machine

/-- O1. Every scalar integer instruction (the register and immediate forms, LIMM, BEXT, BINS, and the scalar compact forms where LDR names a scalar
register) answers a next state in every state: g[D] holds the value that the rules give (a write to g0 is discarded), LDR names D, the sequencer goes
on behind the instruction, and no other register of any core, no control register and no byte of memory changes. -/
def Obligations.ScalarResults : Prop :=
  ∀ (s : State) (i : Instr) (r : GResult), s.scalarResult i = some r →
    ∃ t, exec i s = .next t ∧ s.WritesG t r.len r.d r.x

/-- O2. EXTN into e1 to e15 where its checks pass leaves in e[D] the source's base moved by the offset, the length of g[B], the source's kind and TIDX,
and the permissions that both the source and the instruction keep; every other extent, register and byte is unchanged, LDR too; its checks trap with
ADDR, PERM, ADDR and BOUNDS in that order, and with ILLOP for D = 0 or above 15. BADDR, ETAG and the three EXTR forms answer a next state with the
value of their rules in g[D] and nothing else changed, where their checks pass; BADDR with a malformed tag or an offset out of the space, and ETAG of
a word with a bit of [63:58] set, take ADDR with g[A] in TVAL; an extent number above 15 is ILLOP. That an extent moved to the very end of the space
has base 0 is the model's choice (log 48). -/
def Obligations.AddressesAndExtents : Prop :=
  (∀ (s : State) (i : Instr) (r : GResult), s.addressResult i = some r → ∃ t, exec i s = .next t ∧ s.WritesG t r.len r.d r.x) ∧
  (∀ (s : State) (d a b : BitVec 5) (w : BitVec 3),
    ((s.g a).toNat / 2 ^ 58 % 4 ≠ 0 ∨ baddrOffset (s.g a) (s.g b) < 0 ∨ 2 ^ 58 ≤ baddrOffset (s.g a) (s.g b) →
      exec (.baddr d a b w) s = .next (s.trap ⟨.addr, s.g a, 0, 0⟩)) ∧
    (b.toNat < 16 → 2 ^ 58 ≤ (s.g a).toNat → exec (.etag d a b w) s = .next (s.trap ⟨.addr, s.g a, 0, 0⟩)) ∧
    (16 ≤ b.toNat → exec (.etag d a b w) s = .next s.illop ∧ exec (.extrBase d b w) s = .next s.illop ∧
      exec (.extrLen d b w) s = .next s.illop ∧ exec (.extrAttr d b w) s = .next s.illop)) ∧
  (∀ (s : State) (d a b : BitVec 5) (p : BitVec 2) (w : BitVec 3), 0 < d.toNat → d.toNat < 16 →
      let t := s.g a
      let len := (s.g b).toNat
      let off := t.toNat % 2 ^ 58
      let x := s.extents[t.toNat / 2 ^ 60]?.getD 0
      let tr : Option Trap :=
        if t.toNat / 2 ^ 58 % 4 ≠ 0 then some ⟨.addr, t, 0, 0⟩
        else if extKind x = 2 then some ⟨.perm, t, 0, 0⟩
        else if extKind x = 3 ∧ (off % 64 ≠ 0 ∨ len % 64 ≠ 0) then some ⟨.addr, t, 0, 0⟩
        else if extLen x < off + len then some ⟨.bounds, t, s.g b, BitVec.ofNat 64 (extLen x)⟩
        else none
      match tr with
      | some e => exec (.extn d a b p w) s = .next (s.trap e)
      | none => ∃ u y, exec (.extn d a b p w) s = .next u ∧
          (s.mapCore fun c => { c with e := c.e.setIfInBounds d.toNat y }).WritesNone u 32 ∧
          extBase y = (extBase x + off) % 2 ^ 58 ∧ extLen y = len ∧ extKind y = extKind x ∧ extTidx y = extTidx x ∧
          extRead y = (extRead x && p.getLsbD 0) ∧ extWrite y = (extWrite x && p.getLsbD 1)) ∧
  (∀ (s : State) (d a b : BitVec 5) (p : BitVec 2) (w : BitVec 3), d.toNat = 0 ∨ 16 ≤ d.toNat → exec (.extn d a b p w) s = .next s.illop)

/-- O3. Where R111's address is legal and every check of the access passes, LD answers a next state with the w bits read at the parts of the access in
g[D], extended as S says; LDC (D not 0) does so with the bits its constant path returns, which are LD's where no write since its mark touched them
(the mark, which bounds how old a value that path may return, is the model's reading of R113, log 13). Where no last-use hint is obeyed nothing else
changes at all; where one is, no byte outside the lines of the access changes, and no register but g[D] and LDR. -/
def Obligations.ScalarLoad : Prop :=
  ∀ (s : State) (d a b : BitVec 5) (sx : BitVec 1) (w : BitVec 6) (h : BitVec 3) (ea : Word) (segs : List Seg),
    eaOf (s.g a) (s.g b) = some ea →
    (s.resolve s.via ea (w.toNat + 1) .load = .ok segs →
      ∃ t, exec (.ld d a b sx w h) s = .next t ∧
        (s.loadHint h segs).WritesG t 32 d (extended sx (w.toNat + 1) (s.readSegs segs)) ∧
        (s.lastUse h = false → s.WritesG t 32 d (extended sx (w.toNat + 1) (s.readSegs segs))) ∧
        s.OnlyLines t segs ∧ t.core.ls = s.core.ls) ∧
    (d ≠ 0 → s.resolve s.via ea (w.toNat + 1) .const = .ok segs →
      ∃ t, exec (.ldc d a b sx w h) s = .next t ∧
        (s.loadHint h segs).WritesG t 32 d (extended sx (w.toNat + 1) (s.readSegsConst s.seq.constMark segs)) ∧
        ((∀ x y, Seg.phys x y ∈ segs → s.ms.changedBits s.seq.constMark x y = 0) →
          s.readSegsConst s.seq.constMark segs = s.readSegs segs) ∧
        s.OnlyLines t segs ∧ t.core.ls = s.core.ls)

/-- O4. Where R111's address is legal and every check of the access passes, ST answers a next state in which no register has changed. Outside packed
pages, and where no last-use hint is obeyed, every bit of physical memory and of the local store that the access names holds its bit of g[D] (the
window control blocks of the local store excepted) and every other bit is as before; with an obeyed hint, what the lines then lose is what the hint's
own rule drops. -/
def Obligations.ScalarStore : Prop :=
  ∀ (s : State) (d a b : BitVec 5) (w : BitVec 6) (h : BitVec 3) (ea : Word) (segs : List Seg), s.Inv →
    eaOf (s.g a) (s.g b) = some ea → s.resolve s.via ea (w.toNat + 1) .store = .ok segs →
      ∃ t, exec (.st d a b w h) s = .next t ∧
        (s.storeHint h segs (s.g d).toNat (2 ^ (w.toNat + 1) - 1)).WritesNone t 32 ∧
        (unpacked segs → s.lastUse h = false → s.Stored t segs (s.g d).toNat)

/-- O5. LD, LDC (D not 0) and ST with a malformed tag or an offset out of the space take ADDR with g[A] in TVAL; where a check of the access itself fails
they take the trap that the checks name, from the state as it was. PREF and the fences answer a next state that only goes on, whatever the address is
(that a FENCE has nothing left to order is the model's choice, log 3). Every access of w bits at tagged address t is checked in this order (the
model's reading, log 10): bits 59:58 (ADDR), the kind and the permissions of the extent (PERM), its end (ADDR through e0, else BOUNDS with w and LEN),
all with TVAL = t; then, in the local store, an atomic's granule of 512 bits (ADDR) and a live window control block (BARCLOBBER), and elsewhere the
translation of both pages (PAGE at t or at the page boundary, or PERM there where the walk reads a table in a heap, and LINKDOWN where it reads one
behind a lost port, unless a kept translation serves: the model's reading, log 14), the permission of the first and then of the second (the cause of
`permit` at t or at the boundary), and an atomic's granule (ADDR); an access that passes names the w bits from BASE + offset, on one page or two. -/
def Obligations.ScalarAccessTraps : Prop :=
  (∀ (s : State) (d a b : BitVec 5) (sx : BitVec 1) (w : BitVec 6) (h : BitVec 3),
    (eaOf (s.g a) (s.g b) = none →
      exec (.ld d a b sx w h) s = .next (s.trap ⟨.addr, s.g a, 0, 0⟩) ∧
      exec (.st d a b w h) s = .next (s.trap ⟨.addr, s.g a, 0, 0⟩) ∧
      (d ≠ 0 → exec (.ldc d a b sx w h) s = .next (s.trap ⟨.addr, s.g a, 0, 0⟩))) ∧
    (∀ ea tr, eaOf (s.g a) (s.g b) = some ea →
      (s.resolve s.via ea (w.toNat + 1) .load = .error tr → exec (.ld d a b sx w h) s = .next (s.trap tr)) ∧
      (s.resolve s.via ea (w.toNat + 1) .store = .error tr → exec (.st d a b w h) s = .next (s.trap tr)) ∧
      (d ≠ 0 → s.resolve s.via ea (w.toNat + 1) .const = .error tr → exec (.ldc d a b sx w h) s = .next (s.trap tr))) ∧
    (∃ t, exec (.pref a b w h) s = .next t ∧ s.WritesNone t 32) ∧
    (∀ sc k : BitVec 2, k ≠ 0 → ∃ t, exec (.fence sc k) s = .next t ∧ s.WritesNone t 32)) ∧
  (∀ (s : State) (t : Word) (w : Nat) (c : Machine.Class), 0 < w → w ≤ 64 →
    let n := t.toNat / 2 ^ 60
    let x := s.extents[n]?.getD 0
    let off := t.toNat % 2 ^ 58
    let allowed := extKind x ∈ c.kinds ∧ (c.rd = true → extRead x = true) ∧ (c.wr = true → extWrite x = true)
    let fits := if n = 0 then off + w ≤ 2 ^ 58 else off + w ≤ extLen x
    let a := if n = 0 then off else extBase x + off
    let w1 := min w (2 ^ 25 - a % 2 ^ 25)
    let fails (y : Cause) : Trap := ⟨y, t, 0, 0⟩
    let fails2 (y : Cause) : Trap := ⟨y, t + BitVec.ofNat 64 w1, 0, 0⟩
    let inLocal := extKind x = 1 ∨ extKind x = 2
    let crosses := c.whole = true ∧ 512 < a % 512 + w
    let may (e pa k : Nat) : Option Cause := s.permit s.via c (extKind x) e pa k
    (t.toNat / 2 ^ 58 % 4 ≠ 0 → s.resolve s.via t w c = .error (fails .addr)) ∧
    (t.toNat / 2 ^ 58 % 4 = 0 →
      (¬ allowed → s.resolve s.via t w c = .error (fails .perm)) ∧
      (allowed → ¬ fits → s.resolve s.via t w c = .error (if n = 0 then fails .addr else
        ⟨.bounds, t, BitVec.ofNat 64 w, BitVec.ofNat 64 (extLen x)⟩)) ∧
      (allowed → fits → inLocal →
        (crosses → s.resolve s.via t w c = .error (fails .addr)) ∧
        (¬ crosses → c.wr = true → s.core.touchesLive a w = true → s.resolve s.via t w c = .error (fails .barclobber)) ∧
        (¬ crosses → ¬ (c.wr = true ∧ s.core.touchesLive a w = true) → s.resolve s.via t w c = .ok [.ls a w])) ∧
      (allowed → fits → ¬ inLocal →
        (s.page s.via a w1 c.wr = none → ∃ y, s.PageFails s.via.root a y ∧ s.resolve s.via t w c = .error (fails y)) ∧
        (∀ e pa, s.page s.via a w1 c.wr = some (e, pa) →
          (w1 = w →
            (∀ y, may e pa w = some y → s.resolve s.via t w c = .error (fails y)) ∧
            (may e pa w = none → s.resolve s.via t w c =
              if c.whole = true ∧ (pageSeg e pa w).inGranule = false then .error (fails .addr) else .ok [pageSeg e pa w])) ∧
          (w1 < w → s.page s.via (a + w1) (w - w1) c.wr = none →
            ∃ y, s.PageFails s.via.root (a + w1) y ∧ s.resolve s.via t w c = .error (fails2 y)) ∧
          (w1 < w → ∀ e2 pa2, s.page s.via (a + w1) (w - w1) c.wr = some (e2, pa2) →
            (∀ y, may e pa w1 = some y → s.resolve s.via t w c = .error (fails y)) ∧
            (may e pa w1 = none → ∀ y, may e2 pa2 (w - w1) = some y → s.resolve s.via t w c = .error (fails2 y)) ∧
            (may e pa w1 = none → may e2 pa2 (w - w1) = none → s.resolve s.via t w c =
              if c.whole = true then .error (fails .addr) else .ok [pageSeg e pa w1, pageSeg e2 pa2 (w - w1)]))))))

/-- O6. Every scalar floating-point instruction in every format (and FCVT and FMV with an assigned code) that raises no enabled flag answers a next state
with its result zero-extended in g[D], LDR on D, its flags added to FFLAGS and nothing else changed; where it raises an enabled flag it takes FPEXC
with those flags in TVAL from the state with the flags added and g[D] as before; unassigned codes of FCVT and FMV are ILLOP. -/
def Obligations.ScalarFloatResults : Prop :=
  (∀ (s : State) (i : Instr) (d : BitVec 5) (r : FOut), s.scalarFloat i = some (d, r) →
    (r.flags &&& s.ten = 0 → ∃ t, exec i s = .next t ∧ (s.orFlags r.flags).WritesG t 32 d (BitVec.ofNat 64 r.bits)) ∧
    (r.flags &&& s.ten ≠ 0 →
      exec i s = .next ((s.orFlags r.flags).trap ⟨.fpexc, BitVec.ofNat 64 (r.flags &&& s.ten), 0, 0⟩))) ∧
  (∀ (s : State) (d a : BitVec 5) (t : BitVec 2) (w : BitVec 3) (c : BitVec 5),
    (c.toNat ∉ [0, 1, 2, 3, 4, 5, 6, 7, 8, 9, 16, 17, 18, 19, 24, 25, 26, 27] → exec (.fcvt d a w c) s = .next s.illop) ∧
    (3 ≤ c.toNat → exec (.fmv d a t w c) s = .next s.illop))

/-- O7. RoundFX(x, k, mode) is x for k = 0; for k from 1 the result y has x / 2^k in [y - 1/2, y + 1/2) in mode 0; is nearest, and even at a tie, in mode
1; is the floor in mode 2; and differs by less than 1 and is odd unless exact in mode 3. SatS and SatZ are the nearest integers of their ranges and
leave a value in range. -/
def Obligations.FixedPointRounding : Prop :=
  (∀ (x : Int) (mode : Nat), roundFX x 0 mode = x) ∧
  (∀ (x : Int) (k : Nat), 0 < k →
    (let r := x - 2 ^ k * roundFX x k 0; -(2 ^ k : Int) ≤ 2 * r ∧ 2 * r < 2 ^ k) ∧
    (let r := x - 2 ^ k * roundFX x k 1; -(2 ^ k : Int) ≤ 2 * r ∧ 2 * r ≤ 2 ^ k ∧ (2 * r = 2 ^ k ∨ 2 * r = -2 ^ k → roundFX x k 1 % 2 = 0)) ∧
    (let r := x - 2 ^ k * roundFX x k 2; 0 ≤ r ∧ r < 2 ^ k) ∧
    (let r := x - 2 ^ k * roundFX x k 3; -(2 ^ k : Int) < r ∧ r < 2 ^ k ∧ (r ≠ 0 → roundFX x k 3 % 2 = 1))) ∧
  (∀ (x : Int) (w : Nat), 0 < w →
    satS x w = max (-2 ^ (w - 1)) (min (2 ^ (w - 1) - 1) x) ∧ satZ x w = max 0 (min (2 ^ w - 1) x))

/-- O8. For each of the eight formats, each mode and every encoding that is finite, rounding the value of the encoding gives back the encoding and raises
no flag; a NaN gives the canonical NaN. The integer n that a magnitude m / 2^k rounds to is exact where it can be and is otherwise: nearest with ties
to even (RNE), below (RTZ), by sign down or up (RDN, RUP), nearest with ties away (RMM), or the odd neighbour (ROD); inexact is reported exactly when
it is. -/
def Obligations.FloatRounding : Prop :=
  (∀ (f : Fmt) (mode x : Nat), x < 2 ^ f.width →
    (∀ neg m e, f.unpack x = .fin neg m e → f.roundV mode (f.unpack x) = { bits := x, flags := 0 }) ∧
    (∀ inv, f.unpack x = .nan inv → (f.roundV mode (f.unpack x)).bits = f.canonNaN)) ∧
  (∀ (neg : Bool) (m k : Nat), 0 < k →
    (∀ mode, (roundInt mode neg m k).2 = decide (m % 2 ^ k ≠ 0) ∧ (m % 2 ^ k = 0 → (roundInt mode neg m k).1 = m / 2 ^ k)) ∧
    (m % 2 ^ k ≠ 0 →
      let lo := m / 2 ^ k
      let half := 2 ^ (k - 1)
      (roundInt 0 neg m k).1 = (if m % 2 ^ k < half ∨ (m % 2 ^ k = half ∧ lo % 2 = 0) then lo else lo + 1) ∧
      (roundInt 1 neg m k).1 = lo ∧
      (roundInt 2 neg m k).1 = (if neg then lo + 1 else lo) ∧
      (roundInt 3 neg m k).1 = (if neg then lo else lo + 1) ∧
      (roundInt 4 neg m k).1 = (if m % 2 ^ k < half then lo else lo + 1) ∧
      (roundInt 5 neg m k).1 = (if lo % 2 = 0 then lo + 1 else lo)))

/-- O9. A conditional branch answers a next state in every state: where its condition fails the sequencer only goes on behind it; where it holds, pc
becomes pc + 16 x offset with no end check, and nothing else changes; where that exact target is no address of the space, ADDR is taken with the
target in TVAL. -/
def Obligations.ConditionalBranches : Prop :=
  ∀ (s : State) (i : Instr) (taken : Bool) (o : BitVec 12), s.branchOf i = some (taken, o) →
    let x : Int := s.seq.pc.toNat + 16 * o.toInt
    (taken = false → ∃ t, exec i s = .next t ∧ s.WritesNone t 32) ∧
    (taken = true → inSpace x → ∃ t, exec i s = .next t ∧ s.JumpsTo t x) ∧
    (taken = true → ¬ inSpace x → exec i s = .next (s.trap ⟨.addr, BitVec.ofInt 64 x, 0, 0⟩))

/-- O10. JAL to pc + 16 x offset and JALR to g[A] + imm (exact, with bits [3:0] zero and inside the space) answer a next state with pc + 32 in g[D], LDR
on D, pc at the target and nothing else changed; a target out of the space, or for JALR one with a bit of [63:58] or [3:0] set, takes ADDR with the
target in TVAL from the state as it was, so no link is written. That the link of a jump whose pc + 32 is 2^58 is 0 is the model's choice (log 38). -/
def Obligations.Jumps : Prop :=
  ∀ (s : State) (d a : BitVec 5) (o : BitVec 20) (i : BitVec 12) (w : BitVec 3),
    let x : Int := s.seq.pc.toNat + 16 * o.toInt
    let y : Int := (s.g a).toNat + i.toInt
    (inSpace x → ∃ t, exec (.jal d o) s = .next t ∧ s.JumpsLinking t d x) ∧
    (¬ inSpace x → exec (.jal d o) s = .next (s.trap ⟨.addr, BitVec.ofInt 64 x, 0, 0⟩)) ∧
    (inSpace y → y % 16 = 0 → ∃ t, exec (.jalr d a i w) s = .next t ∧ s.JumpsLinking t d y) ∧
    (¬ (inSpace y ∧ y % 16 = 0) → exec (.jalr d a i w) s = .next (s.trap ⟨.addr, BitVec.ofInt 64 y, 0, 0⟩))

/-- O11. LOOP and LOOPI with a count and a free level push a frame with the count, index 0, the body's first address and its end, and go on at the body; a
zero count falls through to the end with nothing pushed; END = 0 is ILLOP; a count with six frames in use takes LOOPOVF with the word. LEXIT pops the
innermost frame and goes on; with none it takes LOOPOVF with bit 32 set. Falling through to an address at which the innermost loop ends subtracts one
from its count and adds one to its index; with passes left pc goes to the loop's first address and the frame stays; with none left the frame is popped
and the check goes on with the frame below it. Where the innermost loop does not end there, pc is that address and nothing else changes. A jump makes
no check. -/
def Obligations.HardwareLoops : Prop :=
  (∀ (s : State) (a : BitVec 5) (e : BitVec 11) (c : BitVec 10),
      let body := s.seq.pc + 32
      let last := body + BitVec.ofNat 58 (16 * e.toNat)
      (∀ i n, (i, n) = (Instr.loop a e, s.g a) ∨ (i, n) = (Instr.loopi e c, c.setWidth 64) →
        (e = 0 → exec i s = .next s.illop) ∧
        (e ≠ 0 → n = 0 → ∃ q, exec i s = .next (s.withSeq q) ∧ s.seq.FallsTo q last ∧
          q.g = s.seq.g ∧ q.ldr = s.seq.ldr ∧ s.seq.Kept q) ∧
        (e ≠ 0 → n ≠ 0 → s.seq.depth.toNat < 6 → ∃ q, exec i s = .next (s.withSeq q) ∧ s.seq.Opens q n body last) ∧
        (e ≠ 0 → n ≠ 0 → 6 ≤ s.seq.depth.toNat → exec i s = .next (s.trap ⟨.loopovf, s.word, 0, 0⟩))) ∧
      (s.seq.depth = 0 → exec .lexit s = .next (s.trap ⟨.loopovf, s.word + BitVec.ofNat 64 (2 ^ 32), 0, 0⟩)) ∧
      (0 < s.seq.depth.toNat → ∃ t, exec .lexit s = .next t ∧
        (s.withSeq { s.seq with depth := s.seq.depth - 1 }).WritesNone t 32)) ∧
  (∀ (q : Seq) (next : BitVec 58) (k : Nat), q.depth.toNat = k + 1 → k < 6 → q.EndsAt next →
    let c := q.lc[k]?.getD 0 - 1
    let r := { q with lc := q.lc.setIfInBounds k c, li := q.li.setIfInBounds k (q.li[k]?.getD 0 + 1) }
    (c ≠ 0 → q.fallTo next = { r with pc := (q.lb[k]?.getD 0).setWidth 58 }) ∧
    (c = 0 → q.fallTo next = ({ r with depth := BitVec.ofNat 3 k } : Seq).fallTo next)) ∧
  (∀ (q : Seq) (next : BitVec 58), ¬ q.EndsAt next → q.fallTo next = { q with pc := next }) ∧
  (∀ (s : State) (x : BitVec 58), (s.jump x).seq.pc = x ∧ (s.jump x).seq.lc = s.seq.lc ∧ (s.jump x).seq.depth = s.seq.depth)

/-- O12. A frame takes the 16 instructions that stand behind its RPT, each fetched where the one before ends: a fetch that fails traps, and the first
instruction that fails check 1, 2 or 3 of R63 raises ILLFRAME with its word, its index and the reason; else the frame's words are the 32-bit words at
32 + 32 j behind the RPT. RPT, where these checks pass, answers a next state that stands at the frame's first instruction in pass 0, with the CNT + 1
passes, STEP and SM of the word and the words captured; where they fail it takes the trap they name. In a pass the word that is performed is the
captured one with each staggered field read as f + i STEP and no other bit changed. Completing an instruction inside a frame goes to the next of its
16, behind the last to the first of the next pass, and behind the last pass to the address behind the frame with RPIDX and RPBASE zero and one end
check; no end check is made inside. -/
def Obligations.RepeatFrame : Prop :=
  (∀ (s : State) (base : BitVec 58) (n step : Nat) (sm : BitVec 3) (at_ : Nat → BitVec 58) (w : Nat → BitVec 32) (len : Nat → Nat),
    at_ 0 = base + 32 →
    let got (m : Nat) : Prop := ∀ j, j < m → s.fetchAt (at_ j) = .ok (w j, len j) ∧ at_ (j + 1) = at_ j + BitVec.ofNat 58 (len j)
    let fails (j r : Nat) : Prop := s.FrameFails sm n step (at_ j).toNat (w j) (len j) r
    (∀ m tr, m < 16 → got m → s.fetchAt (at_ m) = .error tr → s.openFrame base n step sm = .error tr) ∧
    (got 16 → (∀ j r, j < 16 → ¬ fails j r) → (∀ j, j < 16 → at_ j = base + BitVec.ofNat 58 (32 + 32 * j) ∧ len j = 32) ∧
      s.openFrame base n step sm = .ok { base := base, passes := n, step := step, sm := sm, words := (List.range 16).map w, pos := 0 }) ∧
    (∀ j r, got 16 → j < 16 → fails j r → (∀ q, q < r → ¬ fails j q) → (∀ i q, i < j → ¬ fails i q) →
      s.openFrame base n step sm = .error ⟨.illframe, BitVec.ofNat 64 ((w j).toNat + 2 ^ 32 * j + 2 ^ 36 * r), 0, 0⟩)) ∧
  (∀ (s : State) (f : Frame) (w : BitVec 32), f.words[f.pos]? = some w → let i := s.seq.pass
    (∀ j m, staggerLimit s.vt f.sm w j = some m → regField w j + i * f.step ≤ m) → let x := s.frameWord f
    x.toNat % 128 = w.toNat % 128 ∧ x.toNat / 2 ^ 22 = w.toNat / 2 ^ 22 ∧
    ∀ j, j < 3 → regField x j = regField w j + if staggerLimit s.vt f.sm w j = none then 0 else i * f.step) ∧
  (∀ (s : State) (sm st : BitVec 3) (c : BitVec 10),
    (∀ f, s.openFrame s.seq.pc (c.toNat + 1) st.toNat sm = .ok f →
      f.base = s.seq.pc ∧ f.passes = c.toNat + 1 ∧ f.step = st.toNat ∧ f.sm = sm ∧ f.words.length = 16 ∧ f.pos = 0 ∧
      ∃ q, exec (.rpt sm st c) s = .next (s.withSeq q) ∧ q.frame = some f ∧ q.pc = s.seq.pc + 32 ∧ q.rpidx = 0 ∧ q.Fresh ∧
        q.g = s.seq.g ∧ q.ldr = s.seq.ldr ∧ s.seq.Kept q ∧ q.depth = s.seq.depth ∧ q.lc = s.seq.lc ∧ q.li = s.seq.li) ∧
    (∀ tr, s.openFrame s.seq.pc (c.toNat + 1) st.toNat sm = .error tr → exec (.rpt sm st c) s = .next (s.trap tr))) ∧
  (∀ (q : Seq) (f : Frame) (len : Nat), q.frame = some f → f.pos < 16 → q.pass < f.passes → f.passes ≤ 1024 →
    let r := q.advance len
    (f.pos < 15 → r.frame = some { f with pos := f.pos + 1 } ∧ r.pc = f.base + BitVec.ofNat 58 (32 + 32 * (f.pos + 1)) ∧
      r.rpidx = q.rpidx ∧ r.depth = q.depth ∧ r.lc = q.lc) ∧
    (f.pos = 15 → q.pass + 1 < f.passes → r.frame = some { f with pos := 0 } ∧ r.pc = f.base + 32 ∧
      r.rpidx = BitVec.ofNat 64 (q.pass + 1) ∧ r.depth = q.depth ∧ r.lc = q.lc) ∧
    (f.pos = 15 → q.pass + 1 = f.passes → r.frame = none ∧ r.rpidx = 0 ∧ r.rpbase = 0 ∧
      (¬ q.EndsAt (f.base + 544) → r.pc = f.base + 544 ∧ r.depth = q.depth)))

/-- O13. FORK on the main sequencer to an address of the space, with nothing in flight and the matrix sequencer idle, starts it at the target with a copy
of the main sequencer's scalar registers, no loop, LDR 0 and no frame, and goes on; otherwise it waits; on the matrix sequencer it is ILLOP, and a
target out of the space takes ADDR. RDV on the main sequencer with an idle matrix sequencer goes on; where both sequencers stand at an RDV both go on,
the matrix sequencer becoming idle after RDV.END; otherwise the sequencer waits; RDV.END on the main sequencer is ILLOP. The event that completes a
pair does the same from outside. In either case the pair counts once in the distances of each side, and each side then sees the other's flags. -/
def Obligations.ForkAndRendezvous : Prop :=
  (∀ (s : State) (o : BitVec 21), let x : Int := s.seq.pc.toNat + 16 * o.toInt
    (s.cur = .main → inSpace x → s.core.matrix.running = false → s.core.main.inFlight = [] →
      ∃ t, exec (.fork o) s = .next t ∧
        (s.mapCore fun c => { c with matrix := t.core.matrix, ctl := { c.ctl with unseenMatrix := 0 } }).WritesNone t 32 ∧
        t.core.matrix.running = true ∧
        t.core.matrix.pc = BitVec.ofInt 58 x ∧ t.core.matrix.g = s.core.main.g ∧ t.core.matrix.depth = 0 ∧
        t.core.matrix.ldr = 0 ∧ t.core.matrix.frame = none ∧ t.core.matrix.rpidx = 0 ∧ t.core.matrix.rpbase = 0 ∧
        t.core.matrix.record = [] ∧ t.core.matrix.inFlight = [] ∧ t.core.matrix.replay = [] ∧ t.core.matrix.owed = {} ∧
        t.core.matrix.Fresh) ∧
    (s.cur = .main → inSpace x → s.core.matrix.running = true ∨ s.core.main.inFlight ≠ [] →
      ∃ t, exec (.fork o) s = .next t ∧ s.WaitsIn t .fork) ∧
    (s.cur = .matrix → exec (.fork o) s = .next s.illop) ∧
    (s.cur = .main → ¬ inSpace x → exec (.fork o) s = .next (s.trap ⟨.addr, BitVec.ofInt 64 x, 0, 0⟩))) ∧
  (∀ (s : State) (ends : Bool), let i := if ends then Instr.rdvEnd else Instr.rdv
    (s.cur = .main → ends = true → exec i s = .next s.illop) ∧
    (s.cur = .main → ends = false → s.core.matrix.running = false → ∃ t, exec i s = .next t ∧ s.WritesNone t 32) ∧
    ((s.cur = .main → ends = false ∧ s.core.matrix.running = true) →
      (s.core.main.atRdv && s.core.matrix.atRdv) = false → ∃ t, exec i s = .next t ∧ s.WaitsIn t (.rdv ends)) ∧
    ((s.cur = .main → ends = false ∧ s.core.matrix.running = true) →
      s.core.main.atRdv = true → s.core.matrix.atRdv = true → exec i s = .next s.completeRdv)) ∧
  (∀ (s : State) (c : Nat), (s.coreAt c).main.atRdv = true → (s.coreAt c).matrix.atRdv = true → (s.coreAt c).main.running = true →
    (s.coreAt c).matrix.running = true → s.io.mstate.getLsbD 5 = false →
    ((s.coreAt c).main.replay = [] → ∃ rec fl due, let u := (s.focus c .main).completeRdv
      exec (.rdvPairComplete c) s = .next (u.withSeq { u.seq with record := rec, inFlight := fl, due := due })) ∧
    ∀ e rest, (s.coreAt c).main.replay = e :: rest → ∃ t, exec (.rdvPairComplete c) s = .next t ∧
      t.core.main.wait = none ∧ t.core.matrix.wait = none ∧ t.core.main.replay = rest) ∧
  (∀ (s : State), let t := s.completeRdv
    (s.cur = .main → s.core.main.Kept t.core.main ∧ s.core.main.GoesOn 32 t.core.main ∧ t.core.main.g = s.core.main.g ∧
      s.core.matrix.Passes t.core.matrix) ∧
    (s.cur = .matrix → s.core.matrix.GoesOn 32 t.core.matrix ∧ t.core.matrix.g = s.core.matrix.g ∧ s.core.main.Passes t.core.main ∧
      t.core.main.running = s.core.main.running) ∧
    (s.core.matrix.wait = some (.rdv true) → t.core.matrix.running = false) ∧
    (s.core.matrix.wait = some (.rdv false) → t.core.matrix.running = true) ∧
    t.core.ctl.unseenMain = 0 ∧ t.core.ctl.unseenMatrix = 0 ∧
    t.ms = s.ms ∧ t.core.v = s.core.v ∧ t.core.k = s.core.k ∧ t.core.t = s.core.t ∧ t.core.ls = s.core.ls ∧ t.core.e = s.core.e)

/-- O14. Every same-width integer vector instruction (groups A, B and C, VIDX, VMV, VMERGE and the compact forms where LDR names a vector register), with
legal groups, answers a next state: each element of vD from ESTART below VL that is active holds its operation's result at cw bits, a masked-off one
is zero with MSKP = 1 and kept otherwise, those from VL on are zero with TAIL = 1 and kept otherwise, and those below ESTART are kept; FXSAT is set
exactly where an active result saturated; the high-water marks rise to cover the active elements; ESTART is 0; LDR names D; no other vector, mask,
scalar, control or extent register and no byte of memory changes. VMERGE with K = 0 is ILLOP. VWADD, VWMUL, VWMACC, VWMACCU and VNSHR in every form,
with cw below 64, G below 8 and groups that meet R186, do the same at the width of their destination. -/
def Obligations.VectorIntegerResults : Prop :=
  (∀ (s : State) (i : Instr) (r : VSpec), s.vectorInteger i = some r ∨ s.vectorResizing i = some r →
    ∃ t, exec i s = .next t ∧ s.WritesV t r.len r.d.toNat r.n r.w (s.active r.k s.estart) (s.afterElem r) 0 (s.satOf r.k r.f)) ∧
  (∀ (s : State) (d a b : BitVec 5) (w : BitVec 3), exec (.vmergeVv d a b 0 w) s = .next s.illop ∧
    exec (.vmergeVs d a b 0 w) s = .next s.illop ∧ exec (.vmergeVi d a 0 w b) s = .next s.illop)

/-- O15. Every floating vector instruction with a vector destination (arithmetic, fused, minimum and maximum, square root, special functions, estimates,
VFCVT and the compact forms) in a format that R171 allows, with legal groups and where no active element raises an enabled flag, answers a next state
with the elements as R187 leaves them and the flags of all active elements added to FFLAGS. VCMP and VFCMP do so with the bits of the mask register:
active bits hold the comparison, masked-off and tail bits follow MSKP and TAIL. ESTART is 0, LDR names D, for a vector destination the high-water
marks rise to cover the active elements, and nothing else changes. The spacing of subnormal results of VFRECE and VFRSQE (log 35) and the 320 bits to
which 2^x and log2 x are computed before they are rounded (log 12) are the model's reading. -/
def Obligations.VectorFloatResults : Prop :=
  (∀ (s : State) (i : Instr) (r : VSpec), s.vectorFloat i = some r → s.Quiet r.k r.f →
    ∃ t, exec i s = .next t ∧
      s.WritesV t r.len r.d.toNat r.n r.w (s.active r.k s.estart) (s.afterElem r) (s.flagsOf r.k r.f) false) ∧
  (∀ (s : State) (i : Instr) (r : KSpec), s.vectorMask i = some r → s.Quiet r.k r.f →
    ∃ t, exec i s = .next t ∧ s.WritesK t r.d (s.afterBit r) (s.flagsOf r.k r.f))

/-- O16. Where element n is the lowest active one that raises an enabled flag, a floating vector instruction with a vector destination takes FPEXC, with
the enabled flags of that element in TVAL, from a state in which the active elements from ESTART below n are written and no other element of any
register has changed, ESTART is n, the flags of the active elements up to n are added to FFLAGS and the high-water marks cover what is written; memory
and every other register are as before. VFCMP does the same with the bits of its mask register, which has no mark. -/
def Obligations.VectorFloatTraps : Prop :=
  (∀ (s : State) (i : Instr) (r : VSpec) (n : Nat), s.vectorFloat i = some r → s.TrapsAt r.k r.f n →
    ∃ u : State, exec i s = .next (u.trap ⟨.fpexc, BitVec.ofNat 64 ((r.f n).flags &&& s.ten), 0, 0⟩) ∧
      (∃ v, u = { s with core := { s.core with v := v, ctl := ((s.trapCtl (s.flagsUpTo r.k r.f n) n).marked r.d.toNat r.w
        ((s.active r.k s.estart).filter (· < n))) } }) ∧
      (∀ j, r.w * j + r.w ≤ 16384 * r.n → u.elemAt r.d.toNat r.n r.w j = s.beforeElem r n j) ∧
      (∀ p, p < r.d.toNat ∨ r.d.toNat + r.n ≤ p → u.vRaw p = s.vRaw p)) ∧
  (∀ (s : State) (i : Instr) (r : KSpec) (n : Nat), s.vectorMask i = some r → s.TrapsAt r.k r.f n →
    ∃ (u : State) (x : VReg), exec i s = .next (u.trap ⟨.fpexc, BitVec.ofNat 64 ((r.f n).flags &&& s.ten), 0, 0⟩) ∧
      u = { s with core := { s.core with k := s.core.k.setIfInBounds r.d.toNat x, ctl := s.trapCtl (s.flagsUpTo r.k r.f n) n } } ∧
      ∀ j, j < 16384 → x.getLsbD j =
        if s.estart ≤ j ∧ j < n ∧ s.maskBit r.k j = true then decide ((r.f j).val % 2 = 1) else s.bitAt r.d j)

/-- O17. VFCVT4 with cw = 32, a legal source group that holds neither destination, and two destinations, where no block from ESTART div 32 on raises an
enabled flag, answers a next state: each of those blocks below ceil(VL / 32) has its 128 code bits in vD and its scale in vB (elements at or above VL
count as zero), the fields behind them are zero with TAIL = 1 and kept otherwise, those below are kept, the high-water marks of vD and vB rise to
cover the blocks, ESTART is 0, LDR names D, the flags are added, and nothing else changes; in every other case of its fields it is ILLOP. Where ESTART
is at or above VL, the block that holds ESTART is still done whole if it is the last, and no block where ESTART lies behind it (R202, log 24). Where
block n is the lowest of those that raises an enabled flag, FPEXC is taken with the blocks below n alone written, ESTART at the first element of block
n and the flags of the blocks up to n added. The codes of a negative that rounds to zero and of a block with -0 are the model's choice (log 48). -/
def Obligations.BlockConvert : Prop :=
  ∀ (s : State) (d a b : BitVec 5) (w : BitVec 3),
    let x := s.group a.toNat s.grp % 2 ^ (32 * s.vl)
    let nb := (s.vl + 31) / 32
    let out (j : Nat) := blockConvert ((List.range 32).map fun m => elem x 32 (32 * j + m))
    let ok := s.cw = 32 ∧ groupOk a s.grp = true ∧ ¬ groupsMeet d 1 a s.grp ∧ ¬ groupsMeet b 1 a s.grp ∧ d ≠ b
    let todo := (List.range nb).filter fun j => s.estart / 32 ≤ j
    let flags := todo.foldl (fun f j => f ||| (out j).flags) 0
    let marks (c : Ctl) (js : List Nat) : Ctl := (c.marked d.toNat 128 js).marked b.toNat 8 js
    (¬ ok → exec (.vfcvt4 d a b w) s = .next s.illop) ∧
    (s.vl ≤ s.estart → todo = if s.estart / 32 < nb then [nb - 1] else []) ∧
    (ok → (∀ j ∈ todo, (out j).flags &&& s.ten = 0) →
      ∃ t q v, exec (.vfcvt4 d a b w) s = .next t ∧
        t = ({ s with core := { s.core with v := v, ctl := marks (s.vectorCtl flags false) todo } }).withSeq q ∧
        (∀ j, j < 128 → elem (t.vRaw d.toNat).toNat 128 j =
          if nb ≤ j then (if vtTail s.vt then 0 else elem (s.vRaw d.toNat).toNat 128 j)
          else if j < s.estart / 32 then elem (s.vRaw d.toNat).toNat 128 j else (out j).val % 2 ^ 128) ∧
        (∀ j, j < 2048 → elem (t.vRaw b.toNat).toNat 8 j =
          if nb ≤ j then (if vtTail s.vt then 0 else elem (s.vRaw b.toNat).toNat 8 j)
          else if j < s.estart / 32 then elem (s.vRaw b.toNat).toNat 8 j else (out j).val / 2 ^ 128 % 2 ^ 8) ∧
        (∀ p, p ≠ d.toNat → p ≠ b.toNat → t.vRaw p = s.vRaw p) ∧
        q.g = s.seq.g ∧ q.ldr = ldrOf .v d.toNat ∧ s.seq.Kept q ∧ s.seq.GoesOn 32 q) ∧
    (ok → ∀ n ∈ todo, (out n).flags &&& s.ten ≠ 0 → (∀ j ∈ todo, j < n → (out j).flags &&& s.ten = 0) →
      let done := todo.filter (· < n)
      let raised := (todo.filter (· ≤ n)).foldl (fun f j => f ||| (out j).flags) 0
      ∃ (u : State) (v : Vector VReg 32), exec (.vfcvt4 d a b w) s = .next (u.trap ⟨.fpexc, BitVec.ofNat 64 ((out n).flags &&& s.ten), 0, 0⟩) ∧
        u = { s with core := { s.core with v := v, ctl := marks (s.trapCtl raised (32 * n)) done } } ∧
        (∀ j, j < 128 → elem (u.vRaw d.toNat).toNat 128 j = if j ∈ done then (out j).val % 2 ^ 128 else elem (s.vRaw d.toNat).toNat 128 j) ∧
        (∀ j, j < 2048 → elem (u.vRaw b.toNat).toNat 8 j =
          if j ∈ done then (out j).val / 2 ^ 128 % 2 ^ 8 else elem (s.vRaw b.toNat).toNat 8 j) ∧
        ∀ p, p ≠ d.toNat → p ≠ b.toNat → u.vRaw p = s.vRaw p)

/-- O18. VLD, VLDS, VLDX, VLDSEG, VLDFF and VLDC with legal fields, where every field of every active element from ESTART passes its checks, answer a next
state: each active element holds the bits read at its place, extended into its container as MSX says, and raises the high-water mark of its register;
masked-off elements are zero with MSKP = 1, the tail of every group is zero with TAIL = 1, all other elements and registers are kept; ESTART is 0, LDR
names D, FXSAT and the flags stay. Memory is as before but for what an obeyed last-use hint drops of the lines touched, and exactly as before without
one. The value of a VLDC (log 13), and that every element is read before a last-use hint drops a line and what the drop then loses (logs 15, 24), are
the model's reading. -/
def Obligations.VectorLoads : Prop :=
  ∀ (s : State) (i : Instr) (r : MSpec) (at_ : Nat → Nat → List Seg), s.vectorLoad i = some r → s.Placed r s.vl at_ →
    ∃ t q v, exec i s = .next t ∧
      t = ({ s.loadHint r.h (s.parts r s.vl at_) with core := { s.core with
        v := v, ctl := s.loadMarks r (s.vectorCtl 0 false) (s.active r.k s.estart) } }).withSeq q ∧
      s.Loads t r s.vl true at_ ∧ q.g = s.seq.g ∧ q.ldr = ldrOf .v r.d.toNat ∧ s.seq.Kept q ∧ s.seq.GoesOn 32 q ∧
      (s.lastUse r.h = false → t.ms = s.ms) ∧ s.OnlyLines t (s.parts r s.vl at_)

/-- O19. Where element n is the lowest active one from ESTART that fails a check, a vector load takes that trap from a state in which the active elements
below n are loaded and have raised the high-water marks, and no other element of any register, no policy and no control register but ESTART, which is
n, has changed; but VLDFF, where some active element lies below n and the cause is ADDR, BOUNDS, PAGE or PERM, takes no trap: it does exactly what VLD
does with VL set to n, so that VL is n and the elements from n on are tail. That a trapping load obeys its last-use hint for the elements below n
(logs 15, 24) and the value of a VLDC (log 13) are the model's reading. -/
def Obligations.VectorLoadFaults : Prop :=
  ∀ (s : State) (i : Instr) (r : MSpec) (n : Nat) (tr : Trap) (at_ : Nat → Nat → List Seg), s.vectorLoad i = some r →
    s.FailsAt r n tr → s.Placed r n at_ →
    let below := (s.active r.k s.estart).filter (· < n)
    let early := below ≠ [] ∧ tr.cause ∈ [Cause.addr, .bounds, .page, .perm]
    ((∀ d a k h, i ≠ .vldff d a k h) ∨ ¬ early → ∃ (u : State) (v : Vector VReg 32),
      exec i s = .next (u.trap tr) ∧
      u = { s.loadHint r.h (s.parts r n at_) with core := { s.core with
        v := v, ctl := { s.loadMarks r s.core.ctl below with estart := BitVec.ofNat 64 n } } } ∧
      s.Loads u r n false at_) ∧
    (∀ d a k h, i = .vldff d a k h → early →
      exec i s = exec (.vld d a k h) (s.mapCtl fun c => { c with vl := BitVec.ofNat 64 n }))

/-- O20. VST, VSTS, VSTX and VSTSEG with legal fields, on parts outside packed pages and without an obeyed hint: where every field of every active element
from ESTART passes its checks, the store answers a next state in which each bit of physical memory and of the local store is what the last write over
it, in ascending element and field order, puts there (saturated as MSAT and MSX say), every other bit is kept (window control blocks always), FXSAT is
set exactly where a written value saturated, ESTART is 0 and no other register changes; where element n is the lowest that fails, the store takes that
trap with exactly the elements below n written and ESTART = n. -/
def Obligations.VectorStores : Prop :=
  ∀ (s : State) (i : Instr) (r : MSpec) (at_ : Nat → Nat → List Seg), s.Inv → s.vectorStore i = some r →
    s.lastUse r.h = false →
    (s.Placed r s.vl at_ → unpacked (s.parts r s.vl at_) →
      ∃ t q, exec i s = .next t ∧ s.Stores t (s.writes r s.vl at_) 0 q ∧ q.g = s.seq.g ∧ q.ldr = s.seq.ldr ∧
        s.seq.Kept q ∧ s.seq.GoesOn 32 q) ∧
    (∀ n tr, s.FailsAt r n tr → s.Placed r n at_ → unpacked (s.parts r n at_) →
      ∃ u : State, exec i s = .next (u.trap tr) ∧ s.Stores u (s.writes r n at_) (BitVec.ofNat 64 n) s.seq)

/-- O21. VLD.WC with a group that is not legal is ILLOP; with bits 59:58 of g[A] set it takes ADDR; through an extent that is not of kind W, or whose
control block is not live or has another capacity, it takes PERM. Otherwise, with VL at most VLMAX, an element's checks are those of every access and
then that it lies within one lap of the released count (BOUNDS with the width and the capacity). Where every active element passes and the write count
has reached it, the load answers a next state with those elements loaded, their marks raised and the policies applied. Where group m is the first that
has not arrived and no active element fails, the sequencer goes on: the groups below m are loaded without the policies, and the load stands in the
scoreboard, owing its registers from m on, with what it captured at its issue. Where element n is the lowest that fails, its trap is taken with the
elements below n loaded and ESTART = n, once all of those have arrived; until then the sequencer waits in the instruction, with the groups below the
first unfinished one loaded. No byte of memory changes. That ADDR and PERM come first, also where no element is active or ESTART is at or above VL,
and keep ESTART then, is the model's choice (log 10); that the load stands in the scoreboard while the sequencer goes on, and that the sequencer waits
in it where a later element fails, is its reading (log 47). -/
def Obligations.ChainedLoad : Prop :=
  ∀ (s : State) (d a : BitVec 5) (k h : BitVec 3) (at_ : Nat → List Seg),
    let t := s.g a
    let x := s.extents[t.toNat / 2 ^ 60]?.getD 0
    let blk := s.core.ls.readBits (Config.blocksBase + 256 * extTidx x) 256
    let rel := blk / 2 ^ 64 % 2 ^ 64
    let live := extKind x = 2 ∧ blk / 2 ^ 154 % 2 = 1 ∧ blk / 2 ^ 128 % 2 ^ 25 = extLen x
    let legal := d.toNat % s.grp = 0 ∧ d.toNat + s.grp ≤ 32
    let act := s.active k s.estart
    let grp (i : Nat) : Nat := i / (16384 / s.cw)
    let here (i : Nat) : Prop := s.chainPos t x rel i + vtW s.vt ≤ blk % 2 ^ 64
    let r : MSpec := { d := d, k := k, h := h, nf := 1, base := t, off := fun i _ => (i * vtW s.vt : Nat), cls := .chained,
                       read := s.readSegs }
    let c := s.chainOf d t k x rel
    (¬ legal → exec (.vldWc d a k h) s = .next s.illop) ∧
    (legal → t.toNat / 2 ^ 58 % 4 ≠ 0 → exec (.vldWc d a k h) s = .next (s.trap ⟨.addr, t, 0, 0⟩)) ∧
    (legal → t.toNat / 2 ^ 58 % 4 = 0 → ¬ live → exec (.vldWc d a k h) s = .next (s.trap ⟨.perm, t, 0, 0⟩)) ∧
    (legal → t.toNat / 2 ^ 58 % 4 = 0 → live → s.vl ≤ vlmax s.vt →
      ((∀ i ∈ act, s.chainAt t x rel i = .ok (at_ i)) →
        ((∀ i ∈ act, here i) → ∃ u q v, exec (.vldWc d a k h) s = .next u ∧
          u = ({ s with core := { s.core with v := v, ctl := s.loadMarks r (s.vectorCtl 0 false) act } }).withSeq q ∧
          s.Loads u r s.vl true (fun i _ => at_ i) ∧ q.g = s.seq.g ∧ q.ldr = ldrOf .v d.toNat ∧ s.seq.Kept q ∧
          s.seq.GoesOn 32 q) ∧
        (∀ m, (∃ i ∈ act, grp i = m ∧ ¬ here i) → (∀ i ∈ act, grp i < m → here i) →
          ∃ u q v y, exec (.vldWc d a k h) s = .next u ∧
            u = ({ s with core := { s.core with
              v := v, ctl := { s.loadMarks r s.core.ctl (act.filter (grp · < m)) with estart := 0 } } }).withSeq
                { q with inFlight := s.seq.inFlight ++ [y] } ∧
            s.Loads u r (m * (16384 / s.cw)) false (fun i _ => at_ i) ∧
            y.chain = some c ∧ y.done = m ∧ y.first = s.estart ∧ y.word = s.seq.insn ∧ y.addr = s.seq.pc ∧
            y.owes.flatten = (List.range' (d.toNat + m) (s.grp - m)).map (.reg .v) ∧ y.window = some (extTidx x) ∧
            q.g = s.seq.g ∧ q.ldr = ldrOf .v d.toNat ∧ s.seq.Kept q ∧ s.seq.GoesOn 32 q)) ∧
      (∀ n tr, n ∈ act → s.chainAt t x rel n = .error tr → (∀ i ∈ act, i < n → s.chainAt t x rel i = .ok (at_ i)) →
        ((∀ i ∈ act, i < n → here i) → ∃ (u : State) (v : Vector VReg 32), exec (.vldWc d a k h) s = .next (u.trap tr) ∧
          u = { s with core := { s.core with
            v := v, ctl := { s.loadMarks r s.core.ctl (act.filter (· < n)) with estart := BitVec.ofNat 64 n } } } ∧
          s.Loads u r n false (fun i _ => at_ i)) ∧
        (∀ m, (∃ i ∈ act, i < n ∧ grp i = m ∧ ¬ here i) → (∀ i ∈ act, i < n → grp i < m → here i) →
          ∃ u v, exec (.vldWc d a k h) s = .next u ∧
            u = ({ s with core := { s.core with v := v, ctl := s.loadMarks r s.core.ctl (act.filter (grp · < m)) } }).withSeq
              { s.seq with wait := some (.chained { c with act := act.filter (m ≤ grp ·) }), snap := some s.extents } ∧
            s.Loads u r (m * (16384 / s.cw)) false (fun i _ => at_ i))))

/-- O22. The five reductions with legal groups: with S = 0, g[D] receives the reduction of the active elements below VL (integers exactly, modulo 2^64;
floats in the order of PairTree), whatever ESTART holds; with S not 0, element j of vD receives that of segment j at cw bits, and the elements behind
the last segment are zero with TAIL = 1 and kept otherwise; the flags are added, ESTART is 0, and nothing else changes. Where an enabled flag is
raised no destination is written: FPEXC is taken with the flags added and ESTART = 0. -/
def Obligations.Reductions : Prop :=
  ∀ (s : State) (i : Instr) (r : RSpec), s.reduction i = some r → groupOk r.a s.grp = true →
    (r.sm = 0 →
      ((s.wholeResult r).flags &&& s.ten = 0 →
        ∃ t, exec i s = .next t ∧ s.WritesGV t r.d (BitVec.ofInt 64 (s.wholeResult r).val) (s.wholeResult r).flags) ∧
      ((s.wholeResult r).flags &&& s.ten ≠ 0 → exec i s =
        .next ((s.flagged (s.wholeResult r).flags).trap ⟨.fpexc, BitVec.ofNat 64 ((s.wholeResult r).flags &&& s.ten), 0, 0⟩))) ∧
    (r.sm ≠ 0 → groupOk r.d s.grp = true →
      (s.segmentFlags r &&& s.ten = 0 →
        ∃ t, exec i s = .next t ∧ s.WritesV t 32 r.d.toNat s.grp s.cw (List.range (s.starts r.sm).length) (fun j =>
          if j < (s.starts r.sm).length then ((s.segmentResult r j).val % 2 ^ s.cw).toNat
          else if vtTail s.vt then 0 else s.elemAt r.d.toNat s.grp s.cw j) (s.segmentFlags r) false) ∧
      (s.segmentFlags r &&& s.ten ≠ 0 → exec i s =
        .next ((s.flagged (s.segmentFlags r)).trap ⟨.fpexc, BitVec.ofNat 64 (s.segmentFlags r &&& s.ten), 0, 0⟩)))

/-- O23. With legal groups and VL at most VLMAX, VSCAN leaves in each active element the sum modulo 2^cw of the active elements of its segment up to it
(with EX, of those before it), although it is computed by doubling distances; VFSCAN leaves the value that the doubling loop of the rule gives,
rounding each addition, or takes FPEXC with nothing written where an enabled flag is raised. Masked-off and tail elements follow their policies,
ESTART is 0 and nothing else changes. -/
def Obligations.Scans : Prop :=
  ∀ (s : State) (d a : BitVec 5) (k w sm : BitVec 3) (ex : BitVec 1), groupOk a s.grp = true → groupOk d s.grp = true →
    s.vl ≤ vlmax s.vt →
    (∃ t, exec (.vscan d a k w ex sm) s = .next t ∧
      s.WritesV t 32 d.toNat s.grp s.cw (s.active k 0) (s.scanned d k fun i => s.runningSum a k sm ex i % 2 ^ s.cw) 0 false) ∧
    (∀ f, vtFmt s.vt = some f →
      let r := scanRun (fAdd f s.rmode) (s.startOf sm) s.vl (Nat.clog 2 s.vl) 1 fun i =>
        if s.maskBit k i then some (elem (s.group a.toNat s.grp) s.cw i) else none
      let out (i : Nat) : Nat := (if ex = 0 then r.1 i else if i = s.startOf sm i then none else r.1 (i - 1)).getD 0
      (r.2 &&& s.ten = 0 →
        ∃ t, exec (.vfscan d a k w ex sm) s = .next t ∧ s.WritesV t 32 d.toNat s.grp s.cw (s.active k 0) (s.scanned d k out) r.2 false) ∧
      (r.2 &&& s.ten ≠ 0 → exec (.vfscan d a k w ex sm) s =
        .next ((s.flagged r.2).trap ⟨.fpexc, BitVec.ofNat 64 (r.2 &&& s.ten), 0, 0⟩)))

/-- O24. VSMAX with cw = 32, B from 1 to 30 and legal groups, where no enabled flag is raised, answers a next state with the strip's exponentials in the
active elements of vD (masked-off and tail elements by their policies), the new sum and maximum in g[B], the correction in g[B + 1], the flags added,
ESTART = 0, LDR on vD and nothing else changed; B = 0, B = 31 and another cw are ILLOP; an enabled flag takes FPEXC with nothing written. -/
def Obligations.StripSoftmax : Prop :=
  ∀ (s : State) (d a b : BitVec 5) (k w : BitVec 3),
    let r := strip (s.g b) ((s.active k 0).map fun i => elem (s.group a.toNat s.grp) 32 i)
    let ok := s.cw = 32 ∧ b ≠ 0 ∧ b ≠ 31 ∧ groupOk d s.grp = true ∧ groupOk a s.grp = true
    (¬ ok → exec (.vsmax d a b k w) s = .next s.illop) ∧
    (ok → r.flags &&& s.ten ≠ 0 → exec (.vsmax d a b k w) s =
      .next ((s.flagged r.flags).trap ⟨.fpexc, BitVec.ofNat 64 (r.flags &&& s.ten), 0, 0⟩)) ∧
    (ok → r.flags &&& s.ten = 0 → ∃ t q v, exec (.vsmax d a b k w) s = .next t ∧
      t = ({ s with core := { s.core with
        v := v, ctl := (s.vectorCtl r.flags false).marked d.toNat 32 (s.active k 0) } }).withSeq q ∧
      (∀ i, 32 * i + 32 ≤ 16384 * s.grp → t.elemAt d.toNat s.grp 32 i =
        s.scanned d k (fun i => ((s.active k 0).zip r.elems).foldl (fun x e => if e.1 = i then e.2 else x) 0) i) ∧
      (∀ p, p < d.toNat ∨ d.toNat + s.grp ≤ p → t.vRaw p = s.vRaw p) ∧
      (∀ n : Fin 32, q.g.get n = if n = b.toFin then r.state else if n = (b + 1).toFin then r.corr else s.seq.g.get n) ∧
      q.ldr = ldrOf .v d.toNat ∧ s.seq.Kept q ∧ s.seq.GoesOn 32 q)

/-- O25. VSLUP, VSLDN, VRGAT, VIOTA, VCOMP and VINS with legal groups answer a next state in which every element of vD is what its rule gives from the
operands as they were before (so that vD may be a source), the masked-off and tail elements follow the policies that the rule applies, ESTART is 0,
LDR names D, and no other register and no byte of memory changes. -/
def Obligations.Permutations : Prop :=
  ∀ (s : State) (i : Instr) (r : PSpec), s.permutation i = some r →
    ∃ t, exec i s = .next t ∧ s.WritesV t 32 r.d.toNat s.grp s.cw r.computed r.val 0 false

/-- O26. KAND, KOR, KXOR, KANDN, KNOT, KMV and KSET answer a next state in every state: bits below VL of k[D] hold the operation, bits from VL to 16,383
are zero with TAIL = 1 and kept otherwise. KFFS, KPOPC, and VEXTR with a legal group, write g[D] with the lowest set active bit (2^64 - 1 for none),
the number of set active bits, and the extended element (0 at or above VL). ESTART is 0, LDR names D and nothing else changes. -/
def Obligations.MaskResults : Prop :=
  (∀ (s : State) (i : Instr) (d : BitVec 3) (f : Nat → Bool), s.maskResult i = some (d, f) →
    ∃ t, exec i s = .next t ∧
      s.WritesK t d (fun i => if i < s.vl then f i else if vtTail s.vt then false else s.bitAt d i) 0) ∧
  (∀ (s : State) (i : Instr) (d : BitVec 5) (x : Word), s.scalarFromVector i = some (d, x) →
    ∃ t, exec i s = .next t ∧ s.WritesGV t d x 0)

/-- O27. MZERO of a declared tile leaves every element of it +0, and MMOVV into a declared tile leaves elements 512 q to 512 q + 511 with the 32-bit
elements of vA and the others as they were; both set the tile's DT bit and change nothing else. MMOVV to vD gives it the bits of those elements,
raises its high-water mark alone, to cover the register, puts LDR on vD and changes nothing else, VL, VT, ESTART and the flags included. A tile that
is not declared is unchanged: PERM is taken with 0xFFFFFFFF above the word in TVAL. Wherever elements of a container width are written, the marks that
this and the other statements name rise to max(h, 1, the 1,024-bit part of the element's last bit) in the registers that hold them, and no other mark
and no other control register changes. -/
def Obligations.TileMoves : Prop :=
  ∀ (s : State) (t : BitVec 3) (v : BitVec 5) (q : BitVec 4),
    (s.declared t → ∃ u, exec (.mzero t) s = .next u ∧ s.WritesTile u t (fun _ => 0) 0 false) ∧
    (s.declared t → ∃ u, exec (.mmovvToT t v q) s = .next u ∧ s.WritesTile u t (fun i =>
      if i / 512 = q.toNat then elem (s.v v.toNat).toNat 32 (i % 512) else s.tileAt t i) 0 false) ∧
    (∃ u r x, exec (.mmovvToV v t q) s = .next u ∧
      u = ({ s with core := { s.core with
        v := s.core.v.setIfInBounds v.toNat x, ctl := s.core.ctl.marked v.toNat 32 [511] } }).withSeq r ∧
      u.core.ctl.markAt v.toNat = 15 ∧ (∀ n, n < 32 → n ≠ v.toNat → u.core.ctl.markAt n = s.core.ctl.markAt n) ∧
      (∀ i, i < 512 → elem x.toNat 32 i = s.tileAt t (512 * q.toNat + i)) ∧
      r.g = s.seq.g ∧ r.ldr = ldrOf .v v.toNat ∧ s.seq.Kept r ∧ s.seq.GoesOn 32 r) ∧
    (¬ s.declared t →
      let tr : Trap := ⟨.perm, BitVec.ofNat 64 (0xFFFFFFFF * 2 ^ 32 + s.seq.insn.toNat), 0, 0⟩
      exec (.mzero t) s = .next (s.trap tr) ∧ exec (.mmovvToT t v q) s = .next (s.trap tr) ∧
      exec (.mma t) s = .next (if s.core.ctl.mstat.getLsbD 16 ∧ s.core.ctl.mstat.getLsbD 19 then s.trap tr else s.illop) ∧
      ∀ a m, exec (.mrsc t a m) s = .next (s.trap tr)) ∧
    (∀ r w is, w ∈ [8, 16, 32, 64, 128] →
      s.core.ctl.marked r w is =
        { s.core.ctl with hwea := (s.core.ctl.marked r w is).hwea, hweb := (s.core.ctl.marked r w is).hweb } ∧
      ∀ n, n < 32 → (s.core.ctl.marked r w is).markAt n = coverMark r w n is (s.core.ctl.markAt n))

/-- O28. MLDA with FMT 0 to 2, where all 4,096 elements pass, leaves each in the A buffer as its pattern, AF = FMT and AV = 1; MLDB with a legal WF and U,
where all fields of its block pass, leaves each B-lane value (outlier rows in their slots, codes less their zero points, or float codes) and each
column's scale widened to f32 (1.0 with U = 1), BF, BU and BV, and raises NV exactly where it expands a signalling e5m2 NaN; nothing else changes.
Where a field fails, the trap is that of the lowest offset and neither buffer nor MSTAT changes. FMT 3, WF 4 to 7 and U = 1 with a coded WF are ILLOP.
-/
def Obligations.MatrixLoads : Prop :=
  ∀ (s : State) (a : BitVec 5) (at_ : Int → Nat → List Seg),
    let rd (x : Int × Nat) : Nat := s.matrixRead (s.g a) (at_ x.1 x.2)
    (∀ (b : BitVec 5) (f : BitVec 2),
      let w := if f = 0 then 16 else 8
      let rs : Int := if b = 0 then (32 * w : Nat) else (s.g b).toInt
      (f = 3 → exec (.mlda a b f) s = .next s.illop) ∧
      (f ≠ 3 → s.AllPass (s.g a) (mldaItems rs w) at_ → ∃ t q x, exec (.mlda a b f) s = .next t ∧
        t = ({ s with core := { s.core with abuf := x, ctl := { s.core.ctl with
          mstat := s.core.ctl.mstat &&& ~~~(0x60000#64) ||| (f.setWidth 64 <<< 17) ||| 0x10000 } } }).withSeq q ∧
        (∀ i, i < 4096 → elem x.toNat 16 i = rd ((i / 32 : Nat) * rs + (i % 32 * w : Nat), w)) ∧
        q.g = s.seq.g ∧ q.ldr = s.seq.ldr ∧ s.seq.Kept q ∧ s.seq.GoesOn 32 q) ∧
      (f ≠ 3 → ∀ tr, s.LowestFails (s.g a) (mldaItems rs w) tr → exec (.mlda a b f) s = .next (s.trap tr))) ∧
    (∀ (f : BitVec 3) (u : BitVec 1),
      let ok := f.toNat ≤ 3 ∧ (u = 1 → 2 ≤ f.toNat)
      let items := blockItems f.toNat (u = 1)
      (¬ ok → exec (.mldb a f u) s = .next s.illop) ∧
      (ok → s.AllPass (s.g a) items at_ → ∃ t q x, exec (.mldb a f u) s = .next t ∧
        t = ({ s with core := { s.core with bbuf := x, ctl := (s.raised { s.core.ctl with
          mstat := s.core.ctl.mstat &&& ~~~(0xF00000#64) ||| (f.setWidth 64 <<< 20) ||| (u.setWidth 64 <<< 23) ||| 0x80000 }
          (if f = 3 ∧ ((List.range 2048).any fun i => (Fmt.e5m2.unpack (rd ((8 * i : Nat), 8))).invalid) then 16 else 0) false) } }).withSeq q ∧
        (∀ k c, k < 32 → c < 64 → elem x.toNat 10 (64 * k + c) = laneOf f.toNat rd k c) ∧
        (∀ c, c < 64 → elem (x.toNat / 2 ^ 20480) 32 c = if u = 1 then 0x3F800000 else rd (scaleAt f.toNat c) * 2 ^ 16) ∧
        q.g = s.seq.g ∧ q.ldr = s.seq.ldr ∧ s.seq.Kept q ∧ s.seq.GoesOn 32 q) ∧
      (ok → ∀ tr, s.LowestFails (s.g a) items tr → exec (.mldb a f u) s = .next (s.trap tr)))

/-- O29. MMA with both buffers valid and a declared tile leaves every element as the six steps give it from its row of the A buffer, its column of the B
buffer and the column's scale, adds the flags of all elements (and never takes FPEXC), sets DT and changes nothing else; without a valid buffer it is
ILLOP. MRSC of a declared tile, where its 64 table entries pass, leaves every element rescaled by its column's entry with the flags or FXSAT of the
rules; where an entry fails, the lowest traps with the tile unchanged. The sum of a group of products does not depend on their order, is Σ q[k] on the
grid of its largest exponent, rounded once, and a group of zeros, or one whose Σ q[k] is zero by cancellation, gives +0. -/
def Obligations.MatrixMultiply : Prop :=
  (∀ (s : State) (d : BitVec 3),
    let av := s.core.ctl.mstat.getLsbD 16
    let bv := s.core.ctl.mstat.getLsbD 19
    (¬ (av ∧ bv) → exec (.mma d) s = .next s.illop) ∧
    (av ∧ bv → s.declared d → ∃ t, exec (.mma d) s = .next t ∧
      s.WritesTile t d (fun i => (s.mmaOf d i).bits % 2 ^ 32) ((List.range 8192).foldl (fun f i => f ||| (s.mmaOf d i).flags) 0)
        false)) ∧
  (∀ (s : State) (d : BitVec 3) (a : BitVec 5) (m : BitVec 1) (at_ : Int → Nat → List Seg), s.declared d →
    let w := if m = 1 then 64 else 32
    let items : List (Int × Nat) := (List.range 64).map fun c => ((w * c : Nat), w)
    let out (i : Nat) := s.rescaled d (m = 1) (fun x => s.matrixRead (s.g a) (at_ x.1 x.2)) i
    (s.AllPass (s.g a) items at_ → ∃ t, exec (.mrsc d a m) s = .next t ∧
      s.WritesTile t d (fun i => (out i).val % 2 ^ 32) ((List.range 8192).foldl (fun f i => f ||| (out i).flags) 0)
        ((List.range 8192).any fun i => (out i).sat)) ∧
    (∀ tr, s.LowestFails (s.g a) items tr → exec (.mrsc d a m) s = .next (s.trap tr))) ∧
  (∀ ps qs : List FVal, ps.Perm qs → groupSum ps = groupSum qs) ∧
  (∀ ps : List FVal, (∀ p ∈ ps, p.isZero = true) → groupSum ps = { bits := 0 }) ∧
  (∀ (ps : List FVal) (E : Int), LargestExponent ps E → let q := (ps.map (gridOf E)).sum
    (q = 0 → groupSum ps = { bits := 0 }) ∧ (q ≠ 0 → groupSum ps = Fmt.f32.round 0 (q < 0) q.natAbs (E - 40)))

/-- O30. MSTR with FMT 0 to 5, on parts outside packed pages, where every element of the first n = min(g[B], 128) rows passes its checks, answers a next
state in which each bit of memory is what the last element over it puts there, in the format of FMT under FRM or as raw bits, every other bit is kept,
the flags of the elements are added, and no other register changes; where element k is the lowest that fails, it takes that trap with exactly the
elements below k written and their flags added. FMT 6 and 7 are ILLOP. -/
def Obligations.TileStore : Prop :=
  ∀ (s : State) (d : BitVec 3) (a b : BitVec 5) (f : BitVec 3) (at_ : Nat → List Seg), s.Inv →
    let n := 64 * min (s.g b).toNat 128
    let w := mstrWidth f.toNat
    let passes (m : Nat) : Prop := ∀ i, i < m → s.spot (s.g a) ((i * w : Nat) : Int) w .store = .ok (at_ i) ∧ unpacked (at_ i)
    (6 ≤ f.toNat → exec (.mstr d a b f) s = .next s.illop) ∧
    (f.toNat < 6 → passes n → ∃ t q, exec (.mstr d a b f) s = .next t ∧ s.StoresTile t (s.mstrWrites d f.toNat n at_) q ∧
      q.g = s.seq.g ∧ q.ldr = s.seq.ldr ∧ s.seq.Kept q ∧ s.seq.GoesOn 32 q) ∧
    (f.toNat < 6 → ∀ k tr, k < n → passes k → s.spot (s.g a) ((k * w : Nat) : Int) w .store = .error tr →
      ∃ u : State, exec (.mstr d a b f) s = .next (u.trap tr) ∧ s.StoresTile u (s.mstrWrites d f.toNat k at_) s.seq)

/-- O31. CTLR of every address of the map puts the register that the map names there into g[D], leaves LDR and changes nothing else (no privilege is
needed to read); every other address is ILLOP. The map's values are those of the core's shared registers, of the performing sequencer's own registers
and of the halves of its extents; of FXSAT and FFLAGS, flags that the other sequencer raised since the last RDV pair may be missing, and no others.
VLMAX is the function of VT that the rule gives. -/
def Obligations.ControlReads : Prop :=
  (∀ (s : State) (d : BitVec 5) (r : BitVec 12),
    match s.crValue r.toNat with
    | none => exec (.ctlr d r) s = .next s.illop
    | some x => ∃ t q y, exec (.ctlr d r) s = .next t ∧ t = s.withSeq q ∧ s.crSees r.toNat x y ∧ wroteG s.seq.g q.g d y ∧
        q.ldr = s.seq.ldr ∧ s.seq.Kept q ∧ s.seq.GoesOn 32 q) ∧
  (∀ v : Word, vlmax v = vlMaxOf v)

/-- O32. CTLW, CTLS and CTLC of a register of the map, by a task that may write it and with a value it accepts, put the old value as the sequencer sees it
into g[D] (LDR stays) and leave the register holding the legal part of g[A], old | g[A] or old & ~g[A]: reserved bits zero, VL at most VLMAX, LSTAT
not 7, CYCLE and GRANCAP as they were, an even extent word staged, an odd one installing the extent with the staged low word (LEN = 0 where a check
fails, e0 ignored); every other register reads as before, but VL is clipped by VT; no extent beside the one named, no memory and no other core
changes, and the sequencer goes on. A task's write of a privileged register is PERM with nothing changed; VT and FRM refuse illegal values with ILLOP
and the value in TVAL; an address outside the map is ILLOP. -/
def Obligations.ControlWrites : Prop :=
  ∀ (s : State) (d a : BitVec 5) (r : BitVec 12) (old : Word) (i : Instr) (v : Word),
    s.crValue r.toNat = some old →
    (i = .ctlw d a r ∧ v = s.g a ∨ i = .ctls d a r ∧ v = old ||| s.g a ∨ i = .ctlc d a r ∧ v = old &&& ~~~(s.g a)) →
    (crPrivileged r.toNat → s.privileged = false → exec i s = .next (s.trap s.refusal)) ∧
    (¬ crPrivileged r.toNat ∨ s.privileged = true →
      ((r = 0x001 ∧ ¬ vtLegal v ∨ r = 0x005 ∧ 5 < v.toNat % 8) → exec i s = .next (s.trap ⟨.illop, v, 0, 0⟩)) ∧
      (¬ (r = 0x001 ∧ ¬ vtLegal v ∨ r = 0x005 ∧ 5 < v.toNat % 8) → ∃ t u, exec i s = .next t ∧ u.WritesNone t 32 ∧
        s.OnlyControl u ∧ (∃ y, s.crSees r.toNat old y ∧ wroteG s.seq.g u.seq.g d y) ∧
        u.crValue r.toNat = some (s.crHeld r.toNat v old) ∧
        (∀ b, ¬ crLinked r.toNat b → u.crValue b = s.crValue b) ∧
        (r = 0x001 → u.vl = min s.vl (vlMaxOf v)) ∧
        (∀ n : Fin 16, 0 < n.val → r.toNat = 0x100 + 2 * n.val → u.core.ctl.staged = v ∧ u.core.e = s.core.e) ∧
        (∀ n : Fin 16, 0 < n.val → r.toNat = 0x101 + 2 * n.val →
          u.core.ctl.staged = s.core.ctl.staged ∧ u.core.e.get n = installed (v ++ s.core.ctl.staged) ∧
          ∀ m : Fin 16, m ≠ n → u.core.e.get m = s.core.e.get m) ∧
        (r.toNat ∈ [0x100, 0x101] → u.core.e = s.core.e ∧ u.core.ctl.staged = s.core.ctl.staged)))

/-- O33. The steps EXTENT_LOW_WRITE and EXTENT_HIGH_WRITE by privileged code on an existing core stage the low word, and install all 128 bits with the
staged low word and the checks of the rule, and leave every other extent and all other cores as they were; VL_WRITE on the core in focus takes
min(value, VLMAX); VT_WRITE with a legal value installs it and clips VL, and FRM_WRITE with a mode of 0 to 5 installs it, and each changes nothing
else; an illegal VT or FRM value is the ILLOP of that core's main sequencer with the value in TVAL. -/
def Obligations.RegisterWriteEvents : Prop :=
  (∀ (s : State) (c : Nat) (n : BitVec 4) (v : Word), c < 224 →
    (∃ t, exec (.extentLowWrite c n v) s = .next t ∧
      t.coreAt c = { s.coreAt c with ctl := { (s.coreAt c).ctl with staged := if n = 0 then (s.coreAt c).ctl.staged else v } } ∧
      (∀ m, m ≠ c → t.coreAt m = s.coreAt m) ∧ t.ms = s.ms ∧ t.ver = s.ver ∧ t.sched = s.sched ∧ t.str = s.str ∧ t.io = s.io) ∧
    (∃ t, exec (.extentHighWrite c n v) s = .next t ∧
      t.coreAt c = { s.coreAt c with e := if n = 0 then (s.coreAt c).e
        else (s.coreAt c).e.setIfInBounds n.toNat (installed (v ++ (s.coreAt c).ctl.staged)) } ∧
      (∀ m, m ≠ c → t.coreAt m = s.coreAt m) ∧ t.ms = s.ms ∧ t.ver = s.ver ∧ t.sched = s.sched ∧ t.str = s.str ∧ t.io = s.io)) ∧
  (∀ (s : State) (v : Word), s.cur = SeqId.main → s.coreNo < 224 →
    (exec (.vlWrite s.coreNo v) s = .next { s with core := { s.core with ctl := { s.core.ctl with
      vl := BitVec.ofNat 64 (min v.toNat (vlMaxOf s.vt)) } } }) ∧
    (vtLegal v → exec (.vtWrite s.coreNo v) s = .next { s with core := { s.core with ctl := { s.core.ctl with
      vt := v, vl := BitVec.ofNat 64 (min s.vl (vlMaxOf v)) } } }) ∧
    (¬ vtLegal v → exec (.vtWrite s.coreNo v) s = .next (s.trap ⟨.illop, v, 0, 0⟩)) ∧
    (v.toNat % 8 ≤ 5 → exec (.frmWrite s.coreNo v) s = .next { s with core := { s.core with ctl := { s.core.ctl with
      frm := v &&& 7 } } }) ∧
    (5 < v.toNat % 8 → exec (.frmWrite s.coreNo v) s = .next (s.trap ⟨.illop, v, 0, 0⟩)))

/-- O34. SETVL leaves VL = min(g[A], VLMAX), ESTART = 0 and the new VL in g[D]; SETVT of a valid value leaves VT that value, VL at most the new VLMAX,
ESTART = 0 and the new VLMAX in g[D]; nothing else changes. SETVT of an invalid value takes ILLOP with the value in TVAL and VT, VL, ESTART and g[D]
as they were; a value is valid exactly where bits 63 to 19 are zero, EWC, GRP and FFMT are at most 3 and w is at most cw. -/
def Obligations.VectorConfiguration : Prop :=
  ∀ (s : State) (d a : BitVec 5) (w : BitVec 3), let v := s.g a
    (∃ t, exec (.setvl d a w) s = .next t ∧
      ({ s with core := { s.core with ctl := { s.core.ctl with vl := BitVec.ofNat 64 (min v.toNat (vlMaxOf s.vt)), estart := 0 } } } :
        State).WritesG t 32 d (BitVec.ofNat 64 (min v.toNat (vlMaxOf s.vt)))) ∧
    (vtLegal v → ∃ t, exec (.setvt d a w) s = .next t ∧
      ({ s with core := { s.core with ctl := { s.core.ctl with
        vt := v, vl := BitVec.ofNat 64 (min s.vl (vlMaxOf v)), estart := 0 } } } : State).WritesG t 32 d
          (BitVec.ofNat 64 (vlMaxOf v))) ∧
    (¬ vtLegal v → exec (.setvt d a w) s = .next (s.trap ⟨.illop, v, 0, 0⟩))

/-- O35. A trap taken while the task has a handler and none runs sets TCAUSE to the cause's code, TVAL, TXA and TXB to the trap's values, TPC to the
instruction's address, TSTAT to INH with the trapping sequencer, notes a repeat frame in RPIDX and RPBASE, writes one black-box event, and goes on at
VEC; every g, v, k and e register, VL, VT, LDR, ESTART, the loop stack, the other sequencer, memory and every other core keep what they held. Taken
without a handler or inside one, it records the same values, stops both sequencers of the core, and every record of the task's live graph has then
ended. -/
def Obligations.TrapEntry : Prop :=
  ∀ (s : State) (t : Trap), let u := s.trap t
    let c : Ctl := { s.core.ctl with
      tcause := BitVec.ofNat 64 t.cause.code, tval := t.tval, txa := t.xa, txb := t.xb
      tpc := (s.seq.pc &&& 0x3FFFFFFFFFFFFF0).setWidth 64 }
    let handler : BitVec 58 := s.core.ctl.tvec.setWidth 58
    (handler ≠ 0 → s.core.ctl.tstat.getLsbD 0 = false →
      ∃ q io, u = ({ s with io := io, core := { s.core with ctl := { c with tstat := if s.cur = SeqId.main then 1 else 3 } } }).withSeq q ∧
        s.seq.Enters q handler ∧ io.bbcnt = s.io.bbcnt + 1 ∧ io = { s.io with bbcnt := io.bbcnt, ring := io.ring }) ∧
    (handler = 0 ∨ s.core.ctl.tstat.getLsbD 0 = true →
      (u.core.main.running = false ∧ u.core.matrix.running = false ∧ u.core.ctl.tcause = c.tcause ∧ u.core.ctl.tval = c.tval ∧
        u.core.ctl.tpc = c.tpc ∧ u.core.ctl.txa = c.txa ∧ u.core.ctl.txb = c.txb) ∧
      (s.sched.graph s.taskKey.vdev s.taskKey.graph ≠ none →
        ∀ x ∈ u.sched.tasks, x.key.vdev = s.taskKey.vdev → x.key.graph = s.taskKey.graph → x.state = .ended))

/-- O36. SYS completes, with its loop end check, and then takes SYSCALL with its code, so that TPC names where it completes to; BKPT takes BKPT with its
code and ILL takes ILLOP with its word, from the state as it was. ERET while a handler runs goes on at the address of TPC (its reserved bits taken as
zero, so that none is illegal), or, where RPIDX.ACT is set, inside the recaptured frame at its noted instruction and pass with ACT and RPBASE cleared,
and clears INH alone in TSTAT; where the frame cannot be recaptured it traps with TPC at the RPT; without a handler it is ILLOP. ERET changes no
general, vector or mask register and no memory. -/
def Obligations.SystemTrapsAndReturn : Prop :=
  ∀ (s : State),
    (∀ c : BitVec 16, (∃ u, s.WritesNone u 32 ∧ exec (.sys c) s = .next (u.trap ⟨.syscall, c.setWidth 64, 0, 0⟩)) ∧
      exec (.bkpt c) s = .next (s.trap ⟨.bkpt, c.setWidth 64, 0, 0⟩)) ∧
    exec .ill s = .next (s.trap ⟨.illop, s.seq.insn.setWidth 64, 0, 0⟩) ∧
    (s.core.ctl.tstat.getLsbD 0 = false → exec .eret s = .next s.illop) ∧
    (s.core.ctl.tstat.getLsbD 0 = true →
      let u : State := { s with core := { s.core with ctl := { s.core.ctl with tstat := s.core.ctl.tstat &&& ~~~1 } } }
      let q : Seq := { s.seq with record := [], view := [], wait := none, waited := 0, snap := none }
      (s.seq.rpidx.getLsbD 15 = false →
        exec .eret s = .next (u.withSeq { q with pc := BitVec.ofNat 58 (16 * (s.core.ctl.tpc.toNat / 16 % 2 ^ 54)) })) ∧
      (s.seq.rpidx.getLsbD 15 = true →
        (∀ f, s.resumeFrame = .ok f → exec .eret s = .next (u.withSeq { q with
          frame := some f, pc := f.base + BitVec.ofNat 58 (32 + 32 * f.pos),
          rpidx := BitVec.ofNat 64 (s.seq.rpidx.toNat % 1024), rpbase := 0 }) ∧
          f.base = s.seq.rpbase.setWidth 58 ∧ f.pos = s.seq.rpidx.toNat / 2 ^ 10 % 16) ∧
        (∀ tr, s.resumeFrame = .error tr → exec .eret s = .next (s.trapAt tr (s.seq.rpbase.setWidth 58)))))

/-- O37. The task is privileged exactly where TASKID names virtual device 0 and graph 0xFFFF. TLBI in every form, CLDROP, and CTLW, CTLS and CTLC of every
privileged register, performed by any other task, take PERM with 0xFFFFFFFF above the instruction word in TVAL, from the state as it was. -/
def Obligations.Privilege : Prop :=
  (∀ s : State, s.privileged = true ↔ s.core.ctl.taskid.toNat / 2 ^ 32 % 512 = 0 ∧ s.core.ctl.taskid.toNat / 2 ^ 16 % 2 ^ 16 = 0xFFFF) ∧
  (∀ (s : State) (a b d : BitVec 5) (r : BitVec 12), s.privileged = false →
    exec (.tlbiPage a b) s = .next (s.trap s.refusal) ∧ exec (.tlbiAsid b) s = .next (s.trap s.refusal) ∧
    exec .tlbiAll s = .next (s.trap s.refusal) ∧ exec (.cldrop a b) s = .next (s.trap s.refusal) ∧
    (crPrivileged r.toNat → s.crValue r.toNat ≠ none →
      exec (.ctlw d a r) s = .next (s.trap s.refusal) ∧ exec (.ctls d a r) s = .next (s.trap s.refusal) ∧
      exec (.ctlc d a r) s = .next (s.trap s.refusal)))

/-- O38. A privileged TLBI.page with bits 63 to 58 of g[A] zero, TLBI.asid and TLBI.all answer a next state in which no register and no byte of memory has
changed and every translation of the page, of the address space or of any, respectively, is the walk of the tables as memory then holds them, provided
no noted write lies in the future; TLBI.page with one of those bits set takes ADDR. Ahead of any TLBI, too, a translation is the current walk where no
write has been noted. An entry in a poisoned sector may count as no entry, a walk that reads a table in a heap ends in PERM, and one that reads a
table behind a lost port fails or a translation that was kept serves (R351). The walk answers entry and physical address exactly where three levels
lead to a leaf, or two to a block, with every reserved bit as the table says; an access of a page fails with PAGE where the walk fails, where memory
is not populated, with AC = 0, on a write with DT = 0, and for a packed page outside HBM. A load without RD, a store without WR and a kind V access to
a packed page lack permission, and a page that permits an access lacks none of these and, for an assured task, is not the host's. That an access needs
its own bits of a frame populated and no others, and that an entry in a poisoned sector (R288) may count as none while an older translation may serve,
that a heap's PERM goes ahead of a lost port's LINKDOWN, that no translation over a table in a heap is kept and none outlasts a change of the root, is
the model's reading (log 14). -/
def Obligations.TranslationMaintenance : Prop :=
  (∀ (pte : Nat → Nat) (root : Word) (va e pa : Nat), walk pte root va = some (e, pa) ↔ LeadsTo pte root va e pa) ∧
  (∀ (s : State) (via : Via) (va w : Nat) (wr : Bool),
    (s.translate via.root va = none ∨ s.WalksHeap via.root va → s.page via va w wr = none) ∧
    (∀ e pa, s.translate via.root va = some (e, pa) → ¬ s.WalksHeap via.root va →
      (s.WalksLost via.root va ∧ s.page via va w wr = none) ∨ s.page via va w wr =
      if populated pa = true ∧ populated (pa + w - 1) = true ∧ e / 2 ^ 5 % 2 = 1 ∧ (wr = true → e / 2 ^ 6 % 2 = 1) ∧
        (e / 2 ^ 7 % 2 = 1 → pa < 2 ^ 43) then some (e, pa) else none)) ∧
  (∀ (s : State) (via : Via) (c : Machine.Class) (kind e pa w : Nat),
    let lacks := (c.rd = true ∧ e / 2 % 2 = 0) ∨ (c.wr = true ∧ e / 2 ^ 2 % 2 = 0) ∨ (kind = 3 ∧ e / 2 ^ 7 % 2 = 1)
    (lacks → s.permit via c kind e pa w = some .perm) ∧
    (s.permit via c kind e pa w = none → ¬ lacks ∧ (via.assured = true → pa < Config.hostBase))) ∧
  ∀ (s : State) (a b : BitVec 5), s.privileged = true → (∀ p ∈ s.ms.past, p.stamp ≤ s.ms.stamp) →
    let walks (t : State) (root : Word) (va : Nat) : Prop := t.translate root va = walk t.ms.pte root va ∨
      (t.ms.poison ≠ [] ∧ t.translate root va = walk (fun x => t.ms.mem.readBits x 64) root va)
    let done (t : State) : Prop := ∃ x, ({ s with ms := { s.ms with shootdowns := x } } : State).WritesNone t 32
    (∃ t, exec .tlbiAll s = .next t ∧ done t ∧ ∀ root va, walks t root va) ∧
    (∃ t, exec (.tlbiAsid b) s = .next t ∧ done t ∧
      ∀ root va, root.toNat / 2 ^ 54 = (s.g b).toNat % 1024 → walks t root va) ∧
    ((s.g a).toNat < 2 ^ 58 → ∃ t, exec (.tlbiPage a b) s = .next t ∧ done t ∧
      ∀ root va, root.toNat / 2 ^ 54 = (s.g b).toNat % 1024 → va / 2 ^ 25 = (s.g a).toNat / 2 ^ 25 → walks t root va) ∧
    (2 ^ 58 ≤ (s.g a).toNat → exec (.tlbiPage a b) s = .next (s.trap ⟨.addr, s.g a, 0, 0⟩)) ∧
    (s.ms.past = [] → ∀ root va, walks s root va)

/-- O39. With g[B] = 0, CLWB, CLINV and (privileged) CLDROP only go on (the model's reading, log 25). For a range on one unpacked page that passes the
checks: CLWB leaves every byte's coherent value and makes the home of each byte of the lines touched hold it, all other homes as before; CLINV does
that too, and no constant-path read of those lines then sees what an earlier write replaced; CLDROP gives every byte of those lines its home's value,
to a constant-path read too, and leaves all other bytes as before; of a packed page it takes exactly the expanded lines of the range out of every LLC,
and memory is as before (how packed lines are kept and sent home is the model's reading, logs 15 and 25). No register changes. Where the range check
fails, the trap is taken with nothing done. -/
def Obligations.CacheMaintenance : Prop :=
  ∀ (s : State) (a b : BitVec 5), let t0 := s.g a
    let w := (s.g b).toNat
    (w = 0 → (∃ t, exec (.clwb a b) s = .next t ∧ s.WritesNone t 32) ∧ (∃ t, exec (.clinv a b) s = .next t ∧ s.WritesNone t 32) ∧
      (s.privileged = true → ∃ t, exec (.cldrop a b) s = .next t ∧ s.WritesNone t 32)) ∧
    (w ≠ 0 → ∀ kind va e pa, va % 2 ^ 25 + w ≤ 2 ^ 25 → ptePacked e = false →
      let inside (x : Nat) : Prop := pa / 1024 ≤ 8 * x / 1024 ∧ 8 * x / 1024 ≤ (pa + w - 1) / 1024
      (checkExtent s.extents t0 w .clean = .ok (kind, va) → s.page s.via va w false = some (e, pa) →
        s.permitLines .clean e pa w = none →
        (∃ t ms, exec (.clwb a b) s = .next t ∧ ({ s with ms := ms } : State).WritesNone t 32 ∧ ms.mem = s.ms.mem ∧
          ∀ x, ms.homeByte x = if inside x then s.ms.mem.byte x else s.ms.homeByte x) ∧
        (∃ t ms, exec (.clinv a b) s = .next t ∧ ({ s with ms := ms } : State).WritesNone t 32 ∧ ms.mem = s.ms.mem ∧
          (∀ x, ms.homeByte x = if inside x then s.ms.mem.byte x else s.ms.homeByte x) ∧
          ∀ p ∈ ms.past, inside p.addr → p.stamp ≤ s.ms.stamp → ms.stale p = false)) ∧
      (s.privileged = true → s.ms.mem.wf → (s.ms.dirty.map (·.addr)).Nodup → checkExtent s.extents t0 w .drop = .ok (kind, va) →
        s.page s.via va w true = some (e, pa) → s.permitLines .drop e pa w = none →
        ∃ t ms, exec (.cldrop a b) s = .next t ∧ ({ s with ms := ms } : State).WritesNone t 32 ∧
          (∀ x, ms.mem.byte x = if inside x then s.ms.homeByte x else s.ms.mem.byte x) ∧
          ∀ p ∈ ms.past, inside p.addr → p.stamp ≤ ms.stamp → ms.stale p = false)) ∧
    (w ≠ 0 → s.privileged = true → ∀ kind va e pa, va % 2 ^ 25 + w ≤ 2 ^ 25 → ptePacked e = true →
      checkExtent s.extents t0 w .drop = .ok (kind, va) → s.page s.via va w true = some (e, pa) →
      s.permitLines .drop e pa w = none →
      ∃ t ms, exec (.cldrop a b) s = .next t ∧ ({ s with ms := ms } : State).WritesNone t 32 ∧ ms.mem = s.ms.mem ∧
        ∀ c, c ∈ ms.cached ↔ c ∈ s.ms.cached ∧ ¬ (pa / 1024 ≤ 8 * c.addr / 1024 ∧ 8 * c.addr / 1024 ≤ (pa + w - 1) / 1024)) ∧
    (w ≠ 0 → ∀ tr, checkExtent s.extents t0 w .clean = .error tr →
      exec (.clwb a b) s = .next (s.trap tr) ∧ exec (.clinv a b) s = .next (s.trap tr))

/-- O40. Where the access passes its checks (the granule test included), AMO with a legal operation and CAS answer a next state with the old w bits
zero-extended in g[D] and LDR on D; outside packed pages, the w bits named hold the operation's new value (for CAS, g[B] where the old value equals
g[D], and what they held otherwise), the window control blocks excepted, and every other bit of memory and of the local store is as before; no other
register changes. Where a check fails the trap is taken from the state as it was; OP 10 to 15, and .fadd below 32 bits, are ILLOP. -/
def Obligations.Atomics : Prop :=
  ∀ (s : State) (d a b : BitVec 5) (o : BitVec 4) (z : BitVec 2) (segs : List Seg), s.Inv →
    let w := 8 * 2 ^ z.toNat
    let m := s.readSegs segs
    let x := (s.g b).toNat % 2 ^ w
    let legal := o.toNat ≤ 9 ∧ (o = 9 → 2 ≤ z.toNat)
    (¬ legal → exec (.amo d a b o z) s = .next s.illop) ∧
    (s.resolve s.via (s.g a) w .atomic = .ok segs →
      (legal → ∃ t, exec (.amo d a b o z) s = .next t ∧
        (s.store (some (s.keep true)) segs w (amoValue o.toNat w m x)).WritesG t 32 d (BitVec.ofNat 64 m) ∧
        (unpacked segs → s.Stored t segs (amoValue o.toNat w m x))) ∧
      (m = (s.g d).toNat % 2 ^ w → ∃ t, exec (.cas d a b z) s = .next t ∧
        (s.store (some (s.keep true)) segs w x).WritesG t 32 d (BitVec.ofNat 64 m) ∧ (unpacked segs → s.Stored t segs x)) ∧
      (m ≠ (s.g d).toNat % 2 ^ w → ∃ t, exec (.cas d a b z) s = .next t ∧ s.WritesG t 32 d (BitVec.ofNat 64 m))) ∧
    (∀ tr, s.resolve s.via (s.g a) w .atomic = .error tr →
      (legal → exec (.amo d a b o z) s = .next (s.trap tr)) ∧ exec (.cas d a b z) s = .next (s.trap tr))

/-- O41. VAMO with MW + 1 = cw, legal groups and a legal operation, where every active element passes its checks, applies the operation element by element
in ascending order, each on the memory that the ones before it left, and leaves in each active element the old value it saw; masked-off and tail
elements follow R145, the marks rise, ESTART is 0 and nothing else changes. Where element n is the lowest that fails, its trap is taken with the
elements below n performed, no policy applied (the model's reading of R148 and R341, log 26) and ESTART = n; in every other case of its fields it is
ILLOP. FAAS with a legal group, where its word passes, adds the active elements from element 0 on to the word modulo 2^cw and leaves in each the word
plus the active elements below it; the policies take ESTART as 0; ESTART becomes 0 on the main sequencer and stays on the matrix sequencer; nothing
else changes. Where its word fails, FAAS traps from the state as it was; an illegal group is ILLOP. -/
def Obligations.VectorAtomics : Prop :=
  (∀ (s : State) (d a b : BitVec 5) (o k : BitVec 3) (at_ : Nat → List Seg) (f : Fmt),
    let place (i : Nat) := s.spot (s.g a) (s.indexAt b i) s.cw .atomic
    let act := s.active k s.estart
    let legal := vtW s.vt = s.cw ∧ groupOk d s.grp = true ∧ groupOk b s.grp = true ∧ ¬ groupsMeet d s.grp b s.grp ∧
      (o = 1 → vtFmt s.vt ≠ none ∧ 16 ≤ s.cw)
    let run (is : List Nat) :=
      s.vamoRun s.cw (fun i m => vamoValue o.toNat s.cw f m (elem (s.group d.toNat s.grp) s.cw i)) at_ is
    (¬ legal → exec (.vamo d a b o k) s = .next s.illop) ∧
    (legal → (o = 1 → vtFmt s.vt = some f) →
      ((∀ i ∈ act, place i = .ok (at_ i)) → ∃ t, exec (.vamo d a b o k) s = .next t ∧
        (run act).1.WritesV t 32 d.toNat s.grp s.cw act
          (s.afterElem { len := 32, d := d, n := s.grp, w := s.cw, k := k, f := fun i => { val := (run act).2 i } }) 0 false) ∧
      (∀ n ∈ act, ∀ tr, place n = .error tr → (∀ i ∈ act, i < n → place i = .ok (at_ i)) →
        let below := act.filter (· < n)
        ∃ (u : State) (v : Vector VReg 32), exec (.vamo d a b o k) s = .next (u.trap tr) ∧
          u = { (run below).1 with core := { (run below).1.core with
            v := v, ctl := { s.core.ctl.marked d.toNat s.cw below with estart := BitVec.ofNat 64 n } } } ∧
          (∀ j, s.cw * j + s.cw ≤ 16384 * s.grp → u.elemAt d.toNat s.grp s.cw j =
            if j ∈ below then (run below).2 j % 2 ^ s.cw else s.elemAt d.toNat s.grp s.cw j) ∧
          ∀ p, p < d.toNat ∨ d.toNat + s.grp ≤ p → u.vRaw p = s.vRaw p))) ∧
  (∀ (s : State) (d a : BitVec 5) (k : BitVec 3),
    (groupOk d s.grp = false → exec (.faas d a k) s = .next s.illop) ∧
    (groupOk d s.grp = true → ∀ tr, s.resolve s.via (s.g a) s.cw .atomic = .error tr →
      exec (.faas d a k) s = .next (s.trap tr)) ∧
    (groupOk d s.grp = true → ∀ segs, s.resolve s.via (s.g a) s.cw .atomic = .ok segs →
      let m := s.readSegs segs
      let x (i : Nat) := elem (s.group d.toNat s.grp) s.cw i
      let below (i : Nat) : Nat := (((s.active k 0).filter (· < i)).map x).sum
      let u := s.store (some (s.keep true)) segs s.cw ((m + ((s.active k 0).map x).sum) % 2 ^ s.cw)
      ∃ t, exec (.faas d a k) s = .next (if s.cur = SeqId.main then t else
          { t with core := { t.core with ctl := { t.core.ctl with estart := s.core.ctl.estart } } }) ∧
        u.WritesV t 32 d.toNat s.grp s.cw (s.active k 0) ((s.setEstart 0).afterElem
          { len := 32, d := d, n := s.grp, w := s.cw, k := k, f := fun i => { val := (m + below i) % 2 ^ s.cw } }) 0 false))

/-- O42. GBIND, where its checks pass in their order, adds one entry with the scope, the region and the guard; GUNBIND removes exactly the entries of its
guard; neither changes anything else. REL adds one to the guard word modulo 2^64 and returns it. ACQ returns the word where it has reached g[B], and
WFE returns it where it differs from g[B]; otherwise each waits in the instruction with nothing else changed. CFENCE changes only its sequencer's
constant-path mark, after which that sequencer's constant-path reads return what memory holds (provided no noted write lies in the future). A length
of 0, a misaligned guard, a local guard with a scope and a full table trap as stated. (By R330 to R333, R337 and R403. That REL and ACQ have no more
to make visible, since every write is visible at once, is the model's choice, log 3; the constant-path mark of a sequencer and its free choice of an
older value are the model's own device, log 13 and 25.) -/
def Obligations.GuardsAndWaits : Prop :=
  (∀ (s : State) (d a b : BitVec 5) (sc : BitVec 2),
    let n := s.g b
    let guard := checkExtent s.extents (s.g d) 64 { kinds := [0, 1, 2], rd := true, wr := true }
    let region := checkExtent s.extents (s.g a) n.toNat { kinds := [0, 1], rd := false, wr := true }
    (n = 0 → exec (.gbind d a b sc) s = .next (s.trap ⟨.addr, s.g a, 0, 0⟩)) ∧
    (n ≠ 0 → ∀ tr, guard = .error tr → exec (.gbind d a b sc) s = .next (s.trap tr)) ∧
    (n ≠ 0 → ∀ gk ga, guard = .ok (gk, ga) →
      (ga % 64 ≠ 0 → exec (.gbind d a b sc) s = .next (s.trap ⟨.addr, s.g d, 0, 0⟩)) ∧
      (ga % 64 = 0 → gk ≠ 0 → sc ≠ 0 → exec (.gbind d a b sc) s = .next (s.trap ⟨.perm, s.g d, 0, 0⟩)) ∧
      (ga % 64 = 0 → gk = 0 ∨ sc = 0 →
        (∀ tr, region = .error tr → exec (.gbind d a b sc) s = .next (s.trap tr)) ∧
        (∀ rk ra, region = .ok (rk, ra) →
          (16 ≤ s.core.guards.length → exec (.gbind d a b sc) s = .next (s.trap ⟨.perm, s.g d, 0, 0⟩)) ∧
          (s.core.guards.length < 16 →
            let entry : Guard := { sc := sc, rlen := n.toNat, regionLocal := rk ≠ 0, rbase := ra, guardLocal := gk ≠ 0, gaddr := ga }
            ∃ t, exec (.gbind d a b sc) s = .next t ∧
              ({ s with core := { s.core with guards := s.core.guards ++ [entry] } } : State).WritesNone t 32))))) ∧
  (∀ (s : State) (a : BitVec 5),
    let guard := checkExtent s.extents (s.g a) 64 { kinds := [0, 1, 2], rd := true, wr := true }
    (∀ tr, guard = .error tr → exec (.gunbind a) s = .next (s.trap tr)) ∧
    (∀ gk ga, guard = .ok (gk, ga) →
      let kept := s.core.guards.filter fun x => ¬ (x.gaddr = ga ∧ (x.guardLocal = true ↔ gk ≠ 0))
      ∃ t, exec (.gunbind a) s = .next t ∧ ({ s with core := { s.core with guards := kept } } : State).WritesNone t 32)) ∧
  (∀ (s : State) (d a b : BitVec 5) (kind ga : Nat) (segs : List Seg), ga % 64 = 0 →
    (checkExtent s.extents (s.g a) 64 .atomic = .ok (kind, ga) → s.resolve s.via (s.g a) 64 .atomic = .ok segs →
      let c := (s.readSegs segs + 1) % 2 ^ 64
      ∃ t, exec (.rel d a) s = .next t ∧ (s.store (some (s.keep true)) segs 64 c).WritesG t 32 d (BitVec.ofNat 64 c)) ∧
    (checkExtent s.extents (s.g a) 64 .watch = .ok (kind, ga) → s.resolve s.via (s.g a) 64 .watch = .ok segs →
      ((s.g b).toNat ≤ s.readSegs segs →
        ∃ t, exec (.acq d a b) s = .next t ∧ s.WritesG t 32 d (BitVec.ofNat 64 (s.readSegs segs))) ∧
      (s.readSegs segs < (s.g b).toNat → ∃ t, exec (.acq d a b) s = .next t ∧ s.WaitsIn t (.acq d a b)))) ∧
  (∀ (s : State) (d a b : BitVec 5) (segs : List Seg), s.resolve s.via (s.g a) 64 .watch = .ok segs →
    (s.readSegs segs ≠ (s.g b).toNat →
      ∃ t, exec (.wfe d a b) s = .next t ∧ s.WritesG t 32 d (BitVec.ofNat 64 (s.readSegs segs))) ∧
    (s.readSegs segs = (s.g b).toNat → ∃ t, exec (.wfe d a b) s = .next t ∧ s.WaitsIn t (.wfe d a b))) ∧
  (∀ (s : State), ∃ t, exec .cfence s = .next t ∧ (s.withSeq { s.seq with constMark := s.ms.stamp }).WritesNone t 32 ∧
    ((∀ p ∈ s.ms.past, p.stamp ≤ s.ms.stamp) → ∀ segs, t.readSegsConst t.seq.constMark segs = t.readSegs segs))

/-- O43. Where g[A] selects a kind W extent with the permission each needs and offset 0: BARINIT of a window of at most 2^24 bits that no program delivers
into makes its block live with the extent's capacity and zero counts; BARWAIT goes on where the write count has reached g[B] and waits otherwise;
BARREL adds g[B] to the released count where that does not pass the write count, after it has waited for a chained load of the window that is still in
flight (that it waits on either sequencer is the model's reading of R156 and R226, log 23). No other byte of the local store and no register changes.
A missing kind or permission, a window that is not live or of another capacity (PERM), an offset (ADDR), a zero length, an excess release (BOUNDS) and
a bound window (BARCLOBBER) trap with nothing changed. -/
def Obligations.Windows : Prop :=
  ∀ (s : State) (a b : BitVec 5), s.core.ls.wf →
    let t0 := s.g a
    let n := s.g b
    (∀ tr, s.windowOf t0 true = .error tr → exec (.barinit a) s = .next (s.trap tr) ∧ exec (.barrel a b) s = .next (s.trap tr)) ∧
    (∀ tr, s.windowOf t0 false = .error tr → exec (.barwait a b) s = .next (s.trap tr)) ∧
    (∀ x, s.windowOf t0 true = .ok x → let blk := s.blockOf (extTidx x)
      (extLen x = 0 → exec (.barinit a) s = .next (s.trap ⟨.bounds, t0, 1, 0⟩)) ∧
      (extLen x ≠ 0 → liveOf blk → boundOf blk → exec (.barinit a) s = .next (s.trap ⟨.barclobber, t0, 0, 0⟩)) ∧
      (extLen x ≠ 0 → extLen x ≤ 2 ^ 24 → ¬ (liveOf blk ∧ boundOf blk) → ∃ u t, exec (.barinit a) s = .next t ∧ u.WritesNone t 32 ∧
        s.OnlyBlock u (extTidx x) ∧ u.blockOf (extTidx x) = extLen x * 2 ^ 128 + 2 ^ 154) ∧
      (¬ s.isOpen x → exec (.barrel a b) s = .next (s.trap ⟨.perm, t0, 0, 0⟩)) ∧
      (s.isOpen x → s.core.chaining (extTidx x) = false →
        (wcntOf blk < rcntOf blk + n.toNat →
          exec (.barrel a b) s = .next (s.trap ⟨.bounds, t0, n, BitVec.ofNat 64 (wcntOf blk - rcntOf blk)⟩)) ∧
        (rcntOf blk + n.toNat ≤ wcntOf blk → ∃ u t, exec (.barrel a b) s = .next t ∧ u.WritesNone t 32 ∧
          s.OnlyBlock u (extTidx x) ∧ u.blockOf (extTidx x) = blk + n.toNat * 2 ^ 64)) ∧
      (s.isOpen x → s.core.chaining (extTidx x) = true →
        ∃ t, exec (.barrel a b) s = .next t ∧ s.WaitsIn t .barrel)) ∧
    (∀ x, s.windowOf t0 false = .ok x → let blk := s.blockOf (extTidx x)
      (¬ s.isOpen x → exec (.barwait a b) s = .next (s.trap ⟨.perm, t0, 0, 0⟩)) ∧
      (s.isOpen x → n.toNat ≤ wcntOf blk → ∃ t, exec (.barwait a b) s = .next t ∧ s.WritesNone t 32) ∧
      (s.isOpen x → wcntOf blk < n.toNat → ∃ t, exec (.barwait a b) s = .next t ∧ s.WaitsIn t (.barwait a b)))

/-- O44. ACQ_SATISFIED, WFE_WAKE, NWAIT_SATISFIED, SQWAIT_DRAINED and WINDOW_COUNT_REACHED, for a running sequencer that waits in the instruction they
end, while no fatal error stands: where what it waits for has come (read with the operands and extents that it holds, as a replay entry's captured
ones where it is one), the instruction completes as it does when it is performed, and the sequencer goes on behind it, or with the rest of its replay
list; where it has not come, nothing changes. A VLD.WC in flight whose last elements have arrived loads them, applies the policies by the VL and VT it
captured and leaves the scoreboard; one whose sequencer waits for the elements before a failing one loads them and takes that trap. A sequencer that
waits in nothing and has no VLD.WC in flight stays as it is. VARIABLE_LATENCY_COMPLETE takes the named instruction in flight off the scoreboard, with
the flags it has raised so far, which FFLAGS shows only then (R164), or the next of its element groups alone, and changes nothing else; a VLD.WC
stays. When an instruction completes, and what a load in flight owes, is the model's reading (log 47); so are the replay entries (log 43). -/
def Obligations.WakeEvents : Prop :=
  (∀ (s : State) (c : Nat) (q : SeqId), let f := s.focus c q
    let u := f.retried
    s.halted = false → f.seq.running = true →
    (∀ d a b, f.seq.wait = some (.acq d a b) → ∀ kind ga segs, checkExtent u.extents (u.g a) 64 .watch = .ok (kind, ga) →
      ga % 64 = 0 → u.resolve u.via (u.g a) 64 .watch = .ok segs →
      ((u.g b).toNat ≤ u.readSegs segs → ∃ t v, exec (.acqSatisfied c q) s = .next t ∧
        u.WritesG v 32 d (BitVec.ofNat 64 (u.readSegs segs)) ∧ f.EndsWait v t) ∧
      (u.readSegs segs < (u.g b).toNat → exec (.acqSatisfied c q) s = .next s)) ∧
    (∀ d a b, f.seq.wait = some (.wfe d a b) → q = .main → ∀ segs, u.resolve u.via (u.g a) 64 .watch = .ok segs →
      (u.readSegs segs ≠ (u.g b).toNat → ∃ t v, exec (.wfeWake c) s = .next t ∧
        u.WritesG v 32 d (BitVec.ofNat 64 (u.readSegs segs)) ∧ f.EndsWait v t) ∧
      (u.readSegs segs = (u.g b).toNat → exec (.wfeWake c) s = .next s)) ∧
    (∀ d a b, f.seq.wait = some (.nwait d a b) → q = .main → ∀ segs, u.resolve u.via (u.g a) 64 .watch = .ok segs →
      ((u.g b).toNat ≤ u.readSegs segs → ∃ t v, exec (.nwaitSatisfied c) s = .next t ∧
        u.WritesG v 32 d (BitVec.ofNat 64 (u.readSegs segs)) ∧ f.EndsWait v t) ∧
      (u.readSegs segs < (u.g b).toNat → exec (.nwaitSatisfied c) s = .next s)) ∧
    (∀ n, f.seq.wait = some (.sqwait n) → q = .main → (u.queue n.toNat).fault = none →
      ((u.queue n.toNat).count = 0 → ∃ t v, exec (.sqwaitDrained c) s = .next t ∧ u.WritesNone v 32 ∧ f.EndsWait v t) ∧
      (0 < (u.queue n.toNat).count → exec (.sqwaitDrained c) s = .next s)) ∧
    (∀ a b x, f.seq.wait = some (.barwait a b) → u.windowOf (u.g a) false = .ok x → u.isOpen x →
      ((u.g b).toNat ≤ wcntOf (u.blockOf (extTidx x)) → ∃ t v, exec (.windowCountReached c q) s = .next t ∧
        u.WritesNone v 32 ∧ f.EndsWait v t) ∧
      (wcntOf (u.blockOf (extTidx x)) < (u.g b).toNat → exec (.windowCountReached c q) s = .next s)) ∧
    (f.seq.wait = none → f.seq.inFlight = [] → exec (.acqSatisfied c q) s = .next s ∧
      (c < 224 → exec (.windowCountReached c q) s = .next f) ∧
      (q = .main → exec (.wfeWake c) s = .next s ∧ exec (.nwaitSatisfied c) s = .next s ∧ exec (.sqwaitDrained c) s = .next s))) ∧
  (∀ (s : State) (c : Nat) (q : SeqId) (k : Chain) (at_ : Nat → List Seg), let f := s.focus c q
    s.halted = false → k.Sound →
    let g := vtG k.vt
    let cw := vtCw k.vt
    let value (u : State) (i : Nat) : Nat := (u.asIssued k).container (u.readSegs (at_ i))
    let others (u v : State) : Prop := ∀ p, p < k.d.toNat ∨ k.d.toNat + g ≤ p → v.vRaw p = u.vRaw p
    (∀ y, c < 224 → f.seq.wait = none → f.seq.inFlight = [y] → y.chain = some k →
      let todo := k.act.filter fun i => y.done ≤ i / k.epr
      (∀ i ∈ todo, f.Arrived k i (at_ i)) → ∃ (t : State) (v : Vector VReg 32), exec (.windowCountReached c q) s = .next t ∧
        t = ({ f with core := { f.core with v := v, ctl := f.core.ctl.marked k.d.toNat cw todo } }).withSeq
          { f.seq with inFlight := [] } ∧ others f t ∧
        ∀ i, cw * i + cw ≤ 16384 * g → t.elemAt k.d.toNat g cw i =
          if k.vl.toNat ≤ i then (if vtTail k.vt then 0 else f.elemAt k.d.toNat g cw i)
          else if i ∈ k.off ∧ vtMskp k.vt = true then 0
          else if i ∈ todo then value f i else f.elemAt k.d.toNat g cw i) ∧
    (f.seq.running = true → f.seq.wait = some (.chained k) → let u := f.retried
      ∀ n tr, n ∈ k.act → (u.asIssued k).chainAt k.t k.ext k.rel n = .error tr →
        (∀ i ∈ k.act, i < n → u.Arrived k i (at_ i)) → let below := k.act.filter (· < n)
        ∃ (w : State) (v : Vector VReg 32) (due : Nat) (back : Option (BitVec 58)), exec (.windowCountReached c q) s =
          .next ((w.trap tr).mapSeq fun x => { x with due := due, replay := [], back := back }) ∧
        w = { u with core := { u.core with
          v := v, ctl := { u.core.ctl.marked k.d.toNat cw below with estart := BitVec.ofNat 64 n } } } ∧ others u w ∧
        ∀ i, cw * i + cw ≤ 16384 * g → w.elemAt k.d.toNat g cw i =
          if i ∈ below then value u i else u.elemAt k.d.toNat g cw i)) ∧
  (∀ (s : State) (c : Nat) (q : SeqId) (n : Nat), c < 224 → let f := s.focus c q
    let left (fl : List InFlight) : State :=
      f.withSeq { f.seq with inFlight := f.seq.inFlight.take n ++ fl ++ f.seq.inFlight.drop (n + 1) }
    (f.seq.inFlight[n]? = none → exec (.variableLatencyComplete c q n) s = .next f) ∧
    (∀ x, f.seq.inFlight[n]? = some x →
      (x.chain.isSome = true → exec (.variableLatencyComplete c q n) s = .next f) ∧
      (x.chain = none → ∃ fl raised, exec (.variableLatencyComplete c q n) s = .next ((left fl).mapCtl fun r => r.raise q raised) ∧
        ((fl = [] ∧ raised = x.flags.foldl (· ||| ·) 0) ∨ ∃ y z rest, x.owes = y :: z :: rest ∧ raised = x.flags.headD 0 ∧
          fl = [{ x with owes := z :: rest, done := x.done + 1, flags := x.flags.tail }]))))

/-- O45. Where the checks of R300 pass, VNLD of a live version at or above the watermark returns it, waits parked for one not yet created, and traps below
the watermark (MISSVER) or from 2^48 on (ADDR); VNLD.LE returns the highest live version not above g[B] with its number in g[D+1], or 0 and all ones,
takes ADDR from 2^48 on, and is ILLOP for D = 0 and 31. A creation adds exactly its version and 128 to HUSED, wakes exactly who waits for it and the
region's unentered waiters, and writes no byte but the records of the tasks that it wakes, in their owners' pools. VNST creates exactly its version,
so, or traps with VSTALE, VCOLLIDE, ADDR or a pending VFULL, or parks for the heap. VNLDV loads every active word, or traps or parks at the lowest
that fails; VNSTV creates the active versions in order, or traps or parks at the lowest that fails, with those below it created and ESTART on it; both
are ILLOP with another container or an illegal group. VNQRY returns its four values. Where an instruction completes, no other register changes, and no
byte but those of such records; a failed check of R300 traps from the state as it was. -/
def Obligations.VersionedAccesses : Prop :=
  (∀ (r : VerSys) (n x v : Nat),
    (∀ y, r.latest n x v = some y → (y ∈ r.versions ∧ y.region = n ∧ y.word = x ∧ y.number ≤ v) ∧
      ∀ z ∈ r.versions, z.region = n → z.word = x → z.number ≤ v → z.number ≤ y.number) ∧
    (r.latest n x v = none → ∀ z ∈ r.versions, z.region = n → z.word = x → v < z.number)) ∧
  (∀ (s : State) (n x k : Nat) (value : Word), n < 64 → let u := s.createVersion n x k value
    s.ver.Creates u.ver n x k value ∧
      s.Wakes u (s.ver.waiters fun y => y.region = n && ((y.word = x && y.number = k) || ! y.entered))) ∧
  (∀ (s : State) (d a b : BitVec 5) (q l : BitVec 1), let t0 := s.g a
    let v := s.g b
    let k := v.toNat
    (d = 0 ∨ d = 31 → exec (.vnld d a b q 1) s = .next s.illop) ∧
    (∀ tr, s.verWord s.via t0 .verLoad = .error tr → exec (.vnld d a b q 0) s = .next (s.trap tr) ∧
      (d ≠ 0 → d ≠ 31 → exec (.vnld d a b q 1) s = .next (s.trap tr))) ∧
    (∀ n x, s.verWord s.via t0 .verLoad = .ok (n, x) → let w := regWmark (s.ver.region n)
      (2 ^ 48 ≤ k → exec (.vnld d a b q 0) s = .next (s.trap ⟨.addr, t0, 0, 0⟩) ∧
        (d ≠ 0 → d ≠ 31 → exec (.vnld d a b q 1) s = .next (s.trap ⟨.addr, t0, 0, 0⟩))) ∧
      (k < 2 ^ 48 → k < w → exec (.vnld d a b q 0) s = .next (s.trap ⟨.missver, t0, v, BitVec.ofNat 64 w⟩)) ∧
      (k < 2 ^ 48 → w ≤ k → (∀ y, s.ver.find n x k = some y → ∃ t, exec (.vnld d a b q 0) s = .next t ∧ s.WritesG t 32 d y.value) ∧
        (s.ver.find n x k = none → s.bound = true → s.coreNo < 224 → ∃ t e, exec (.vnld d a b q 0) s = .next t ∧
          s.Parks t .blockedVersion ∧ ({ region := n, word := x, number := k, who := .task s.boundKey, entered := e } : VWait) ∈ t.ver.waits)) ∧
      (k < 2 ^ 48 → d ≠ 0 → d ≠ 31 →
        (∀ y, s.ver.latest n x k = some y → ∃ t, exec (.vnld d a b q 1) s = .next t ∧
          (s.setG (d + 1) (BitVec.ofNat 64 y.number)).WritesG t 32 d y.value) ∧
        (s.ver.latest n x k = none → ∃ t, exec (.vnld d a b q 1) s = .next t ∧
          (s.setG (d + 1) (BitVec.allOnes 64)).WritesG t 32 d 0))) ∧
    (∀ tr, s.verWord s.via t0 .verStore = .error tr → exec (.vnst d a b l) s = .next (s.clearVfull.trap tr)) ∧
    (∀ n x, s.verWord s.via t0 .verStore = .ok (n, x) → let r := s.ver.region n
      let bad (c : Cause) : Trap := ⟨c, t0, v, BitVec.ofNat 64 (regWmark r)⟩
      (2 ^ 48 ≤ k → exec (.vnst d a b l) s = .next (s.clearVfull.trap ⟨.addr, t0, 0, 0⟩)) ∧
      (k < 2 ^ 48 → k < regWmark r → exec (.vnst d a b l) s = .next (s.clearVfull.trap (bad .vstale))) ∧
      (k < 2 ^ 48 → regWmark r ≤ k → s.ver.find n x k ≠ none → exec (.vnst d a b l) s = .next (s.clearVfull.trap (bad .vcollide))) ∧
      (k < 2 ^ 48 → regWmark r ≤ k → s.ver.find n x k = none →
        (regHused r + 128 ≤ regHcap r → ∃ u t, exec (.vnst d a b l) s = .next t ∧ u.WritesNone t 32 ∧
          s.ver.Creates u.ver n x k (s.g d) ∧
          s.clearVfull.Wakes u (s.ver.waiters fun y => y.region = n && ((y.word = x && y.number = k) || ! y.entered))) ∧
        (regHcap r < regHused r + 128 →
          (s.vfullPending = true → exec (.vnst d a b l) s = .next (s.clearVfull.trap ⟨.vfull, t0, v, BitVec.ofNat 64 (regHcap r)⟩)) ∧
          (s.vfullPending = false → s.bound = true → s.coreNo < 224 → ∃ t, exec (.vnst d a b l) s = .next t ∧
            s.Parks t .blockedVersion ∧ ∃ y ∈ t.ver.heapWaits, y.region = n ∧ y.who = .task s.boundKey))))) ∧
  (∀ (s : State) (d a b : BitVec 5) (k : BitVec 3) (q l : BitVec 1), s.cw ≠ 64 ∨ groupOk d s.grp = false →
    exec (.vnldv d a b k q) s = .next s.illop ∧ exec (.vnstv d a b k l) s = .next s.illop) ∧
  (∀ (s : State) (d a b : BitVec 5) (k : BitVec 3) (q : BitVec 1) (val : Nat → Word), s.cw = 64 → groupOk d s.grp = true →
    let act := s.active k s.estart
    let find := s.lookUpAt (s.g a) (s.g b)
    ((∀ i ∈ act, find i = .value (val i)) → ∃ t, exec (.vnldv d a b k q) s = .next t ∧ s.WritesV t 32 d.toNat s.grp 64 act
      (s.afterElem { len := 32, d := d, n := s.grp, w := 64, k := k, f := fun i => { val := (val i).toNat } }) 0 false) ∧
    (∀ n ∈ act, (∀ i ∈ act, i < n → find i = .value (val i)) →
      let below := act.filter (· < n)
      (∀ tr, find n = .bad tr → ∃ (u : State) (v : Vector VReg 32), exec (.vnldv d a b k q) s = .next (u.trap tr) ∧
        u = { s with core := { s.core with
          v := v, ctl := { s.core.ctl.marked d.toNat 64 below with estart := BitVec.ofNat 64 n } } } ∧
        (∀ p, p < d.toNat ∨ d.toNat + s.grp ≤ p → u.vRaw p = s.vRaw p) ∧
        ∀ i, 64 * i + 64 ≤ 16384 * s.grp → u.elemAt d.toNat s.grp 64 i =
          if i ∈ below then (val i).toNat else s.elemAt d.toNat s.grp 64 i) ∧
      (∀ r x, find n = .missing r x → s.bound = true → s.coreNo < 224 →
        ∃ t e, exec (.vnldv d a b k q) s = .next t ∧ s.Parks t .blockedVersion ∧
          ({ region := r, word := x, number := (s.g b).toNat, who := .task s.boundKey, entered := e } : VWait) ∈ t.ver.waits))) ∧
  (∀ (s : State) (d a b : BitVec 5) (k : BitVec 3) (l : BitVec 1) (at_ : Nat → Nat × Nat), s.cw = 64 → groupOk d s.grp = true →
    let act := s.active k s.estart
    let v := s.g b
    let made (xs : List Nat) : State :=
      s.createAll v.toNat at_ (fun i => BitVec.ofNat 64 (elem (s.group d.toNat s.grp) 64 i)) xs
    let stored (xs : List Nat) : Prop := ∀ ys i zs, xs = ys ++ i :: zs →
      (made ys).storeAt (s.g a) v i = .ok ((at_ i).1, (at_ i).2, false)
    (stored act → ∃ t, exec (.vnstv d a b k l) s = .next t ∧ ((made act).clearVfull.setEstart 0).WritesNone t 32) ∧
    (∀ xs n ys, act = xs ++ n :: ys → stored xs → let u := made xs
      (∀ tr, u.storeAt (s.g a) v n = .error tr →
        exec (.vnstv d a b k l) s = .next ((u.clearVfull.setEstart n).trap tr)) ∧
      (∀ r x t, u.storeAt (s.g a) v n = .ok (r, x, true) → wordAddr (s.g a) n = .ok t →
        (u.vfullPending = true → exec (.vnstv d a b k l) s =
          .next ((u.clearVfull.setEstart n).trap ⟨.vfull, t, v, BitVec.ofNat 64 (regHcap (u.ver.region r))⟩)) ∧
        (u.vfullPending = false → s.bound = true → s.coreNo < 224 → ∃ w, exec (.vnstv d a b k l) s = .next w ∧
          (u.setEstart n).Parks w .blockedVersion ∧ ∃ y ∈ w.ver.heapWaits, y.region = r ∧ y.who = .task s.boundKey)))) ∧
  (∀ (s : State) (d a : BitVec 5), let t0 := s.g a
    (∀ tr, s.verWord s.via t0 .verLoad = .error tr → exec (.vnqry d a 0) s = .next (s.trap tr)) ∧
    (∀ n x, s.verWord s.via t0 .verLoad = .ok (n, x) → ∃ t, exec (.vnqry d a 0) s = .next t ∧ s.WritesG t 32 d
      (match s.ver.latest n x (2 ^ 48) with | some y => BitVec.ofNat 64 y.number | none => BitVec.allOnes 64)) ∧
    (∀ tr, checkExtent s.extents t0 64 .verLoad = .error tr → ∀ sel : BitVec 2, sel ≠ 0 →
      exec (.vnqry d a sel) s = .next (s.trap tr)) ∧
    (∀ kv, checkExtent s.extents t0 64 .verLoad = .ok kv → let r := s.ver.region (extTidx (s.extents[t0.toNat / 2 ^ 60]?.getD 0))
      (regSt r = 1 → regAsid r = s.core.ctl.ptroot.toNat / 2 ^ 54 → ∀ sel : BitVec 2, sel ≠ 0 →
        ∃ t, exec (.vnqry d a sel) s = .next t ∧ s.WritesG t 32 d
          (BitVec.ofNat 64 (if sel = 1 then regWmark r else if sel = 2 then regHcap r else regHused r))) ∧
      (regSt r ≠ 1 ∨ regAsid r ≠ s.core.ctl.ptroot.toNat / 2 ^ 54 → ∀ sel : BitVec 2, sel ≠ 0 →
        exec (.vnqry d a sel) s = .next (s.trap ⟨.perm, t0, 0, 0⟩))))

/-- O46. VNDROP to a higher watermark sets it, wakes exactly the waiters below it (whose records alone change in memory) and leaves every word to be
reclaimed, with no version gone; to a lower one it has no effect. The reclamation of a word removes exactly its versions below the watermark, the
highest kept where none is at or above it, and lowers HUSED by 128 for each. A privileged VNOPEN installs the image with ST = 1 in a closed entry, the
one asked for or any, and returns its number, or installs nothing and returns bit 63 with the lowest reason; VNCLOSE wakes the waiters, removes the
versions and returns their number; for any other task both are PERM. A freed heap loses its protection; the watchdog ends a task's heap wait with
VFULL pending once VFWD ticks have passed, and not before. -/
def Obligations.VersionRegions : Prop :=
  (∀ (s : State) (a b : BitVec 5) (n x : Nat), s.verWord s.via (s.g a) .verStore = .ok (n, x) → let w := (s.g b).toNat
    (2 ^ 48 ≤ w → exec (.vndrop a b) s = .next (s.trap ⟨.addr, s.g a, 0, 0⟩)) ∧
    (w < 2 ^ 48 → w ≤ regWmark (s.ver.region n) → ∃ t, exec (.vndrop a b) s = .next t ∧ s.WritesNone t 32) ∧
    (w < 2 ^ 48 → regWmark (s.ver.region n) < w → ∃ u t, exec (.vndrop a b) s = .next t ∧ u.WritesNone t 32 ∧
      s.Wakes u (s.ver.waiters fun y => y.region = n && y.number < w) ∧ u.ver.versions = s.ver.versions ∧
      regWmark (u.ver.region n) = w ∧ sameRegion (u.ver.region n) (s.ver.region n) ∧ regHused (u.ver.region n) = regHused (s.ver.region n) ∧
      s.ver.OthersKept u.ver n ∧ u.ver.waits = (s.ver.waits.filter fun y => ¬ (y.region = n ∧ y.number < w)) ∧
      ∀ y ∈ s.ver.versions, y.region = n → (n, y.word) ∈ u.ver.reclaim)) ∧
  (∀ (s : State) (r : BitVec 6) (x : Nat), let n := r.toNat
    let w := regWmark (s.ver.region n)
    (¬ s.ver.reclaim.contains (n, x) → exec (.versionReclaim r x) s = .next s) ∧
    (s.ver.reclaim.contains (n, x) → ∃ u, exec (.versionReclaim r x) s = .next u ∧ s.ver.OthersKept u.ver n ∧
      u.core = s.core ∧ u.others = s.others ∧ (n, x) ∉ u.ver.reclaim ∧
      regHused (u.ver.region n) = regHused (s.ver.region n) - 128 * (s.ver.versions.length - u.ver.versions.length) ∧
      (∀ y ∈ u.ver.versions, y ∈ s.ver.versions) ∧
      (∀ y ∈ s.ver.versions, (y.region ≠ n ∨ y.word ≠ x ∨ w ≤ y.number) → y ∈ u.ver.versions) ∧
      (∀ y ∈ u.ver.versions, y.region = n → y.word = x → y.number < w →
        ∀ z ∈ s.ver.versions, z.region = n → z.word = x → z.number ≤ y.number) ∧
      ((∃ y ∈ s.ver.versions, y.region = n ∧ y.word = x) → ∃ y ∈ u.ver.versions, y.region = n ∧ y.word = x))) ∧
  (∀ (s : State) (d a b : BitVec 5), s.privileged = true →
    (∀ segs, s.resolve s.via (s.g a) 384 .load = .ok segs → let x := BitVec.ofNat 384 (s.readSegs segs)
      let want := (s.g b).toNat
      ((∀ r, ¬ s.refusesRegion x want r) → ∃ u t n, exec (.vnopen d a b) s = .next t ∧ s.Opens u x n ∧ (want ≠ 64 → n = want) ∧
        u.WritesG t 32 d (BitVec.ofNat 64 n)) ∧
      (∀ r, s.refusesRegion x want r → (∀ q, q < r → ¬ s.refusesRegion x want q) →
        ∃ t, exec (.vnopen d a b) s = .next t ∧ s.WritesG t 32 d (BitVec.ofNat 64 (2 ^ 63 + r)))) ∧
    (∀ n, n = (s.g a).toNat →
      (63 < n → exec (.vnclose d a) s = .next s.illop) ∧
      (n ≤ 63 → regSt (s.ver.region n) = 0 → ∃ t, exec (.vnclose d a) s = .next t ∧ s.WritesG t 32 d 0) ∧
      (n ≤ 63 → regSt (s.ver.region n) ≠ 0 → ∃ u t, exec (.vnclose d a) s = .next t ∧ s.Closes u n ∧
        u.WritesG t 32 d (BitVec.ofNat 64 (s.ver.versions.filter fun y => y.region = n).length)))) ∧
  (∀ (s : State) (d a b : BitVec 5), s.privileged = false →
    exec (.vnopen d a b) s = .next (s.trap s.refusal) ∧ exec (.vnclose d a) s = .next (s.trap s.refusal)) ∧
  (∀ (s : State) (r : BitVec 6), exec (.versionHeapFree r) s =
    .next { s with ver := { s.ver with closing := s.ver.closing.filter fun x => x.1 ≠ r.toNat } }) ∧
  (∀ (s : State) (r : BitVec 6) (i : Nat) (w : HeapWait) (k : TaskKey) (x : Task),
    (s.ver.heapWaits.filter fun y => y.region = r.toNat)[i]? = some w → w.who = .task k → s.sched.task k = some x →
    (s.sched.ticks - w.start < (s.sched.settings k.vdev).vfwd → exec (.vfullWatchdog r i) s = .next s) ∧
    ((s.sched.settings k.vdev).vfwd ≤ s.sched.ticks - w.start → ∃ u y, exec (.vfullWatchdog r i) s = .next u ∧
      u.sched.task k = some y ∧ y.vfull = true ∧ y.state = (if x.saved then .preempted else .ready) ∧
      u.ver.heapWaits = s.ver.heapWaits.filter (· ≠ w) ∧ u.ver.versions = s.ver.versions ∧ u.core = s.core))

/-- O47. STRM with B at most 29 and an aligned address appends exactly one program, with its address, the extents, VL, the partition of LLCP.SPID (R293)
and g[B] to g[B+2], to the queue named, waits while it holds eight, and takes a faulted queue's trap; SQWAIT goes on where the queue has no program,
waits otherwise, and takes the same trap; the trap empties that queue of programs (that the markers of QFENCE stay in it is the model's reading, log
31) and clears its fault, and no other queue changes. SQSTAT writes the report and changes nothing else. QFENCE appends one marker to each named
queue, after the programs then in them, or waits. A head program takes the lowest free context beside its home, or of the module, and no other program
changes; a stall and a wait for space end where the task is bound, or the released count allows it. -/
def Obligations.StreamControl : Prop :=
  (∀ (s : State) (a b : BitVec 5) (q : BitVec 4) (k : Task), s.task = some k → let t0 := s.g a
    let x := s.queue q.toNat
    let emptied : Queue := { entries := x.entries.filter fun e => ! e.isProgram, fault := none }
    (29 < b.toNat → exec (.strm a b q) s = .next s.illop) ∧
    (b.toNat ≤ 29 → t0.toNat / 2 ^ 58 % 4 ≠ 0 ∨ t0.toNat % 64 ≠ 0 → exec (.strm a b q) s = .next (s.trap ⟨.addr, t0, 0, 0⟩)) ∧
    (b.toNat ≤ 29 → t0.toNat / 2 ^ 58 % 4 = 0 → t0.toNat % 64 = 0 →
      (∀ f, x.fault = some f → ∃ u, exec (.strm a b q) s = .next (u.trap f.raised) ∧ s.OnlyQueue u q.toNat emptied) ∧
      (x.fault = none → 8 ≤ x.count → ∃ t, exec (.strm a b q) s = .next t ∧ s.WaitsIn t .strm) ∧
      (x.fault = none → x.count < 8 → ∃ (p : Program) (u t : State), exec (.strm a b q) s = .next t ∧ u.WritesNone t 32 ∧
        ({ s with str := { s.str with nextPid := s.str.nextPid + 1 } } : State).OnlyQueue u q.toNat
          { x with entries := x.entries ++ [.program p] } ∧
        p.pid = s.str.nextPid ∧ p.pc = t0 ∧ p.root = s.core.ctl.ptroot ∧ p.ext = s.extents ∧ p.assured = s.core.ctl.mode.getLsbD 1 ∧ p.constMark = s.seq.constMark ∧ p.part = s.core.ctl.llcp.toNat / 2 ^ 8 % 2 ^ 6 ∧
        ∀ i : Fin 16, p.c.get i = if i.val = 0 then s.core.ctl.vl else if i.val = 1 then s.g b else if i.val = 2 then s.g (b + 1)
          else if i.val = 3 then s.g (b + 2) else 0)) ∧
    (∀ f, x.fault = some f → ∃ u, exec (.sqwait q) s = .next (u.trap f.raised) ∧ s.OnlyQueue u q.toNat emptied) ∧
    (x.fault = none → x.count = 0 → ∃ t, exec (.sqwait q) s = .next t ∧ s.WritesNone t 32) ∧
    (x.fault = none → 0 < x.count → ∃ t, exec (.sqwait q) s = .next t ∧ s.WaitsIn t (.sqwait q))) ∧
  (∀ (s : State) (d : BitVec 5) (q : BitVec 4) (sel : BitVec 3),
    (sel.toNat ≤ 4 → ∃ t, exec (.sqstat d q sel) s = .next t ∧
      s.WritesG t 32 d (BitVec.ofNat 64 (reportOf s (s.queue q.toNat) sel.toNat))) ∧
    (4 < sel.toNat → exec (.sqstat d q sel) s = .next s.illop)) ∧
  (∀ (s : State) (m : BitVec 16) (k : Task), s.task = some k →
    (m = 0 → exec (.qfence m) s = .next s.illop) ∧
    ((∃ q, m.getLsbD q = true ∧ 8 ≤ (s.queue q).joins) → ∃ t, exec (.qfence m) s = .next t ∧ s.WaitsIn t .qfence) ∧
    (m ≠ 0 → (∀ q, m.getLsbD q = true → (s.queue q).joins < 8) → ∃ (ts : List Task) (after : List Nat) (t : State),
      exec (.qfence m) s = .next t ∧ ({ s with sched := { s.sched with tasks := ts } } : State).WritesNone t 32 ∧
      (∀ q, q < 16 → t.queue q = if m.getLsbD q then
        { s.queue q with entries := (s.queue q).entries ++ [.marker after] } else s.queue q) ∧
      ∀ pid, pid ∈ after ↔ ∃ q p, m.getLsbD q = true ∧ QEntry.program p ∈ (s.queue q).entries ∧ p.pid = pid)) ∧
  (∀ (s : State) (t : TaskKey) (q : BitVec 4) (k : Task), s.sched.task t = some k →
    let full (e : Nat) : Prop := ∀ m, m < 16 → ∃ c ∈ s.str.ctxs, c.engine = e ∧ c.slot = m
    let live (pid : Nat) : Prop := ∃ x p, x ∈ k.queues.toList ∧ QEntry.program p ∈ x.entries ∧ p.pid = pid
    (∀ p rest, (k.queue q.toNat).entries = .program p :: rest → (∀ c ∈ s.str.ctxs, c.pid ≠ p.pid) →
      ((∀ e, e < 40 → full e) → (∀ e ∈ s.enginesOf p, full e) → ∃ u, exec (.streamProgramStart t q) s = .next u ∧ u.str = s.str) ∧
      (∀ e n, (e ∈ s.enginesOf p ∧ (∀ f ∈ s.enginesOf p, f < e → full f)) ∨
          ((∀ f ∈ s.enginesOf p, full f) ∧ e < 40 ∧ ∀ f, f < e → full f) →
        n < 16 → (∀ c ∈ s.str.ctxs, ¬ (c.engine = e ∧ c.slot = n)) → (∀ m, m < n → ∃ c ∈ s.str.ctxs, c.engine = e ∧ c.slot = m) →
        ∃ u c, exec (.streamProgramStart t q) s = .next u ∧ u.str.ctxs = s.str.ctxs ++ [c] ∧ u.core = s.core ∧ u.ms = s.ms ∧
          c.pid = p.pid ∧ c.task = t ∧ c.queue = q.toNat ∧ c.engine = e ∧ c.slot = n ∧ c.spc = p.pc ∧ c.root = p.root ∧ c.c = p.c ∧
          c.ext = p.ext ∧ c.d = Vector.replicate 8 0 ∧ c.loops = [] ∧ c.bound = [] ∧ c.conv.src = 0 ∧ c.conv.dst = 0 ∧
          c.part = p.part ∧ c.waiting = false ∧ c.space = none ∧ c.skip = 0 ∧ c.stalled = false)) ∧
    (∀ after rest, (k.queue q.toNat).entries = .marker after :: rest → (∃ pid ∈ after, live pid) →
      ∃ u, exec (.streamProgramStart t q) s = .next u ∧ u.str = s.str)) ∧
  (∀ (s : State) (x : Nat),
    exec (.streamStallResume x) s = .next { s with str := { s.str with ctxs := s.str.ctxs.map fun y =>
      if y.pid = x ∧ (s.sched.coreOf y.task).isSome then { y with stalled := false } else y } } ∧
    ∃ u, exec (.deliverySpaceReady x) s = .next u ∧ u = { s with str := { s.str with ctxs := u.str.ctxs } } ∧
      u.str.ctxs.length = s.str.ctxs.length ∧ ∀ (j : Nat) (y : Ctx), s.str.ctxs[j]? = some y →
        let count (c n : Nat) : Nat := rcntOf ((s.coreAt c).ls.readBits (Config.blocksBase + 256 * n) 256)
        let ready := y.pid = x ∧ ∃ n need, y.space = some (n, need) ∧ ∀ c, s.sched.coreOf y.task = some c → need ≤ count c n
        (ready → u.str.ctxs[j]? = some { y with space := none }) ∧ (¬ ready → u.str.ctxs[j]? = some y))

/-- O48. With a program in focus: SDESC loads a descriptor (a number above 7 names none and is an ILLOP stream fault); STILE, SGATH and SFILL deliver
their items, each read in turn, densely to a kind G or L destination, or into a window's ring with the write count advanced by all of them, waiting
where the released count leaves no room; SSCAT writes the elements of the rows in range, a later row winning; SCONV, SLOOP, SNEXT and SFENCE change
the program's context alone; SWAITV goes on where the version exists and waits otherwise; SVER creates its version and wakes exactly its waiters, as
VNST does; SSIG writes 64 bits; SEND frees the context, its place in the queue and its bindings. Each goes on at the next command (SNEXT at the loop's
body while passes are left). A failing item ends the program in a stream fault, with what earlier items wrote kept and the queue faulted with its
record; one on a detached local store stalls. Of this the model chose that a command which meets a detached local store stalls at its start (log 33),
that STILE reads c[A] unsigned, that an extent without PW takes PERM at the first item, after the wait and the binding, and the order of a delivery's
checks (log 51), that SFENCE and SSIG have nothing left to order (log 3), that a descriptor number above 7 is refused as it is decoded and performed
alike (log 34), how FROM and TO of a conversion take single bits and a code of 0 on one side, that a command reads and writes item by item, so that it
can read what it wrote itself, and that SLOOP reads its count before c[D] is 0 (log 32), that a write of its is kept in some die's LLC or goes home
(log 15), and TVAL of an ILLOP's record (log 16). -/
def Obligations.StreamCommands : Prop :=
  ∀ (s : State) (x : Ctx), s.prog = some x →
    let c (r : BitVec 4) : Word := x.c.get r.toFin
    let illop (i : Instr) : Prop := exec i s = .next (s.streamFault ⟨.illop, s.str.word, 0, 0⟩ 0)
    let stalls (i : Instr) : Prop := exec i s = .next (s.mapProg fun y => { y with stalled := true })
    (∀ (t u : Word) (d : Int) (w : Nat), elemAddr t d = .ok u →
      (∀ tr, checkExtent x.ext u w .matrix = .error tr → s.streamRead x t d w = .bad tr w) ∧
      (∀ kind va, checkExtent x.ext u w .matrix = .ok (kind, va) →
        (kind = 1 ∨ kind = 2 → s.detached x = true → s.streamRead x t d w = .stall) ∧
        (kind = 0 ∨ (s.detached x = false ∧ kind ≠ 4) → (∀ segs, s.resolve x.via u w .matrix = .ok segs →
            s.streamRead x t d w = .val (s.readSegs segs)) ∧
          (∀ tr, s.resolve x.via u w .matrix = .error tr → s.streamRead x t d w = .bad tr w)))) ∧
    (∀ (r : BitVec 512) (i0 i1 : Nat), let c14 := (x.c.get 14).toNat
      let c15 := (x.c.get 15).toNat
      let str (j : Nat) : Int := toInt 64 (r.toNat / 2 ^ (192 + 64 * j) % 2 ^ 64)
      let size (j : Nat) : Nat := if r.toNat / 2 ^ 70 % 4 < j then 1 else r.toNat / 2 ^ (72 + 24 * j) % 2 ^ 24
      s.tensorRead x r i0 i1 = if i0 < size 0 ∧ i1 < size 1 ∧ c14 < size 2 ∧ c15 < size 3 then
          s.streamRead x (BitVec.ofNat 64 r.toNat) (i0 * str 0 + i1 * str 1 + c14 * str 2 + c15 * str 3) (r.toNat / 2 ^ 64 % 64 + 1)
        else .val (r.toNat / 2 ^ 448 % 2 ^ (r.toNat / 2 ^ 64 % 64 + 1))) ∧
    (∀ (d a : BitVec 4) (o : BitVec 46) (v w : Nat) (tr : Trap),
      (8 ≤ d.toNat → illop (.sdesc d a o)) ∧ (d.toNat < 8 →
      (s.streamRead x (c a) o.toInt 512 = .val v → v / 2 ^ 168 % 2 ^ 24 = 0 → ∃ t, exec (.sdesc d a o) s = .next t ∧
        s.CommandDone t fun y => { y with d := y.d.setIfInBounds d.toNat (BitVec.ofNat 512 v) }) ∧
      (s.streamRead x (c a) o.toInt 512 = .val v → v / 2 ^ 168 % 2 ^ 24 ≠ 0 → illop (.sdesc d a o)) ∧
      (s.streamRead x (c a) o.toInt 512 = .bad tr w → exec (.sdesc d a o) s = .next (s.streamFault tr w)) ∧
      (s.streamRead x (c a) o.toInt 512 = .stall → stalls (.sdesc d a o)))) ∧
    (∀ (i : Instr) (r : Delivery), State.delivery x i = some r → let e := x.ext[r.dst.toNat / 2 ^ 60]?.getD 0
      let all := r.count * r.w
      let fails (tr : Trap) (w : Nat) : Prop := exec i s = .next (s.streamFault tr w)
      (extKind e ≤ 1 → ∀ at_ val n, n ≤ r.count →
        let after (j : Nat) : State := s.dense x at_ r.w val j
        let place (j : Nat) : Reach := (after j).reach x r.dst (j * r.w : Nat) r.w .store
        (∀ j, j < n → r.get after j = .val (val j) ∧ place j = .segs (at_ j)) →
        (n = r.count → ∃ t, exec i s = .next t ∧ (after n).CommandDone t id) ∧
        (n < r.count →
          (∀ tr w, r.get after n = .bad tr w → exec i s = .next ((after n).streamFault tr w)) ∧
          (r.get after n = .stall → stalls i) ∧
          (∀ v, r.get after n = .val v →
            (∀ tr, place n = .bad tr → exec i s = .next ((after n).streamFault tr r.w)) ∧ (place n = .stall → stalls i)))) ∧
      (extKind e = 3 ∨ extKind e = 4 → r.dst.toNat / 2 ^ 58 % 4 = 0 → fails ⟨.perm, r.dst, 0, 0⟩ 0) ∧
      (extKind e = 2 → (r.dst.toNat / 2 ^ 58 % 4 ≠ 0 ∨ r.dst.toNat % 2 ^ 58 ≠ 0) → fails ⟨.addr, r.dst, 0, 0⟩ 0) ∧
      (extKind e = 2 → r.dst.toNat % 2 ^ 60 = 0 → s.detached x = true → stalls i) ∧
      (extKind e = 2 → r.dst.toNat % 2 ^ 60 = 0 → s.detached x = false →
        let k := extTidx e
        let blk := s.blockOf k
        let shut := ¬ liveOf blk ∨ capOf blk ≠ extLen e ∨ (boundOf blk ∧ k ∉ x.bound)
        (shut → fails ⟨.perm, r.dst, 0, 0⟩ 0) ∧
        (¬ shut → extLen e < all → fails ⟨.bounds, r.dst, BitVec.ofNat 64 all, BitVec.ofNat 64 (extLen e)⟩ all) ∧
        (¬ shut → all ≤ extLen e → 2 ^ 64 ≤ wcntOf blk + all → fails ⟨.addr, r.dst, 0, 0⟩ 0) ∧
        (¬ shut → all ≤ extLen e → wcntOf blk + all < 2 ^ 64 → rcntOf blk + extLen e < wcntOf blk + all →
          exec i s = .next ((s.bindWindow x k).mapProg fun y => { y with space := some (k, wcntOf blk + all - extLen e) })) ∧
        (¬ shut → all ≤ extLen e → wcntOf blk + all < 2 ^ 64 → wcntOf blk + all ≤ rcntOf blk + extLen e →
          (extWrite e = false → 0 < r.count → ∀ v, r.get (fun _ => s.bindWindow x k) 0 = .val v → exec i s = .next
            ((s.bindWindow x k).streamFault ⟨.perm, r.dst + BitVec.ofNat 64 (wcntOf blk % extLen e), 0, 0⟩ r.w)) ∧
          (extWrite e = true →
            (∀ a n, extBase e ≤ a → a + n ≤ extBase e + extLen e → s.core.touchesLive a n = false) → s.core.ls.wf →
            ∀ val, let after (j : Nat) : State := (s.bindWindow x k).ringItems e (wcntOf blk) r.w val j
            ((∀ j, j < r.count → r.get after j = .val (val j)) →
              ∃ t, exec i s = .next t ∧ ((after r.count).setCount k (wcntOf blk + all)).CommandDone t id) ∧
            (∀ n, n < r.count → (∀ j, j < n → r.get after j = .val (val j)) →
              ∀ tr w, r.get after n = .bad tr w → exec i s = .next ((after n).streamFault tr w)))))) ∧
    (∀ (d a b : BitVec 4) (n : BitVec 12) (iw : BitVec 2), let r := x.d[d.toNat]?.getD 0
      d.toNat < 8 → descSize r 0 = 0 → x.conv.use (descW r) false ≠ none → iw ≠ 3 →
      let e := x.ext[(c b).toNat / 2 ^ 60]?.getD 0
      let k := extTidx e
      let blk := s.blockOf k
      let rowsOn (u v : State) : Prop :=
        (∀ idx : Nat → Nat, (∀ i, i < x.rowCount n → u.indexRead x (c a) iw i = .val (idx i)) →
          ∃ t, exec (.sgath d a b n iw) s = .next t ∧ v.CommandDone t id) ∧
        (∀ m tr w, m < x.rowCount n → (∀ i, i < m → ∃ j, u.indexRead x (c a) iw i = .val j) →
          u.indexRead x (c a) iw m = .bad tr w → exec (.sgath d a b n iw) s = .next (u.streamFault tr w))
      (extKind e ≤ 1 → rowsOn s s) ∧
      (extKind e = 2 → (c b).toNat % 2 ^ 60 = 0 → s.detached x = false → liveOf blk → capOf blk = extLen e →
        (boundOf blk → k ∈ x.bound) → wcntOf blk ≤ rcntOf blk + extLen e →
        rowsOn (s.bindWindow x k) ((s.bindWindow x k).setCount k (wcntOf blk)))) ∧
    (∀ (d a b : BitVec 4) (cols rows n : BitVec 12) (o0 o1 : BitVec 11) (iw : BitVec 2),
      (State.delivery x (.stile d a b cols rows o0 o1) = none → illop (.stile d a b cols rows o0 o1)) ∧
      (8 ≤ d.toNat ∨ x.conv.use (descW (x.d[d.toNat]?.getD 0)) false = none ∨ iw = 3 → illop (.sgath d a b n iw)) ∧
      (8 ≤ d.toNat ∨ x.conv.use (descW (x.d[d.toNat]?.getD 0)) true = none ∨ iw = 3 → illop (.sscat d a b n iw)) ∧
      (∃ t, exec (.sfill b 0) s = .next t ∧ s.CommandDone t id)) ∧
    (∀ (d a b : BitVec 4) (n : BitVec 12) (iw : BitVec 2) (w : Nat) (f idx : Nat → Nat) (src : Nat → Nat → Nat) (at_ : Nat → Nat → List Seg),
      let r := x.d[d.toNat]?.getD 0
      let z := descSize r 0
      let val (i e : Nat) : Nat := f (src i e)
      let rows (i : Nat) : State := s.scatterRows r x idx at_ val i
      let before (i e : Nat) : State := (rows i).scatterElems r x (idx i) i at_ val e
      let read (i e : Nat) : Got := (before i e).streamRead x (c a) ((i * z + e) * w : Nat) w
      let place (i e : Nat) : Reach := (before i e).reach x (descBase r) (descDelta r (x.index e (idx i))) (descW r) .store
      let elems (i m : Nat) : Prop := ∀ e, e < m → inside r (x.index e (idx i)) = true →
        read i e = .val (src i e) ∧ place i e = .segs (at_ i e)
      let index (i : Nat) : Got := (rows i).indexRead x (c b) iw i
      let moves (m : Nat) : Prop := ∀ i, i < m → index i = .val (idx i) ∧ (idx i < descSize r 1 → elems i z)
      let ends (u : State) (tr : Trap) (w : Nat) : Prop := exec (.sscat d a b n iw) s = .next (u.streamFault tr w)
      d.toNat < 8 → x.conv.use (descW r) true = some (w, f) → iw ≠ 3 →
      (moves (x.rowCount n) → ∃ t, exec (.sscat d a b n iw) s = .next t ∧ (rows (x.rowCount n)).CommandDone t id) ∧
      (∀ m, m < x.rowCount n → moves m →
        (∀ tr v, index m = .bad tr v → ends (rows m) tr v) ∧ (index m = .stall → stalls (.sscat d a b n iw)) ∧
        (index m = .val (idx m) → idx m < descSize r 1 → ∀ e, e < z → elems m e → inside r (x.index e (idx m)) = true →
          (∀ tr v, read m e = .bad tr v → ends (before m e) tr v) ∧ (read m e = .stall → stalls (.sscat d a b n iw)) ∧
          (read m e = .val (src m e) →
            (∀ tr, place m e = .bad tr → ends (before m e) tr (descW r)) ∧ (place m e = .stall → stalls (.sscat d a b n iw)))))) ∧
    (∀ (f t : BitVec 5) (wd : BitVec 6) (rm : BitVec 3) (sat : BitVec 1), ∃ u, exec (.sconv f t wd rm sat) s = .next u ∧
      s.CommandDone u fun y => { y with conv := { src := f.toNat, dst := t.toNat, wd := wd.toNat + 1, rm := rm.toNat, sat := sat = 1 } }) ∧
    (∀ (d a : BitVec 4) (n : BitVec 32) (k : Word) (i : Instr), (i, k) = (.sloop d a 1 n, c a) ∨ (i, k) = (.sloop d a 0 n, n.setWidth 64) →
      (k = 0 → ∃ t, exec i s = .next t ∧ s.CommandDone t fun y => { y with c := y.c.set d.toNat 0 d.isLt, skip := 1 }) ∧
      (k ≠ 0 → x.loops.length < 4 → ∃ t, exec i s = .next t ∧ s.CommandDone t fun y =>
        { y with c := y.c.set d.toNat 0 d.isLt, loops := (d.toNat, k.toNat, y.spc + 64) :: y.loops }) ∧
      (k ≠ 0 → 4 ≤ x.loops.length → illop i)) ∧
    (∀ d : BitVec 4, (∀ n body rest, x.loops = (d.toNat, n, body) :: rest →
        ((c d + 1).toNat < n → exec (.snext d) s = .next (s.mapProg fun y => { y with c := y.c.set d.toNat (c d + 1) d.isLt, spc := body })) ∧
        (n ≤ (c d + 1).toNat → ∃ t, exec (.snext d) s = .next t ∧
          s.CommandDone t fun y => { y with c := y.c.set d.toNat (c d + 1) d.isLt, loops := rest })) ∧
      ((∀ n body rest, x.loops ≠ (d.toNat, n, body) :: rest) → illop (.snext d))) ∧
    (∀ (d a b : BitVec 4) (o : BitVec 46) (t0 : Word), elemAddr (c a) o.toInt = .ok t0 →
      (∀ v, s.lookUp x.via t0 (c b) = .value v → ∃ t, exec (.swaitv a b o) s = .next t ∧ s.CommandDone t id) ∧
      (∀ n w, s.lookUp x.via t0 (c b) = .missing n w → ∃ (v : VerSys) (e : Bool), exec (.swaitv a b o) s =
        .next (({ s with ver := v } : State).mapProg fun y => { y with waiting := true }) ∧
        v.waits = s.ver.waits ++ [{ region := n, word := w, number := (c b).toNat, who := .stream x.pid, entered := e }] ∧
        v.versions = s.ver.versions) ∧
      (∀ tr, s.lookUp x.via t0 (c b) = .bad tr → exec (.swaitv a b o) s = .next (s.streamFault tr 64)) ∧
      (∀ n w, s.storeCheck x.via t0 (c b) = .ok (n, w, false) → ∃ u t, exec (.sver d a b o) s = .next t ∧
        s.ver.Creates u.ver n w (c b).toNat (c d) ∧ u.CommandDone t (fun y => { y with vfull := false }) ∧
        s.Wakes u (s.ver.waiters fun y => y.region = n && ((y.word = w && y.number = (c b).toNat) || ! y.entered))) ∧
      (∀ n w, s.storeCheck x.via t0 (c b) = .ok (n, w, true) → x.vfull = true →
        exec (.sver d a b o) s = .next (s.streamFault ⟨.vfull, t0, c b, BitVec.ofNat 64 (regHcap (s.ver.region n))⟩ 64)) ∧
      (∀ n w, s.storeCheck x.via t0 (c b) = .ok (n, w, true) → x.vfull = false → ∃ v : VerSys, exec (.sver d a b o) s =
        .next (({ s with ver := v } : State).mapProg fun y => { y with waiting := true }) ∧ v.versions = s.ver.versions ∧
        ∃ y ∈ v.heapWaits, y.region = n ∧ y.who = .stream x.pid) ∧
      (∀ tr, s.storeCheck x.via t0 (c b) = .error tr → exec (.sver d a b o) s = .next (s.streamFault tr 64))) ∧
    (∀ (a b : BitVec 4) (o : BitVec 46),
      (∀ segs, s.reach x (c a) o.toInt 64 .store = .segs segs → ∃ t, exec (.ssig a b o) s = .next t ∧
        (s.store (s.streamKeep x segs) segs 64 (c b).toNat).CommandDone t id) ∧
      (∀ tr, s.reach x (c a) o.toInt 64 .store = .bad tr → exec (.ssig a b o) s = .next (s.streamFault tr 64)) ∧
      (s.reach x (c a) o.toInt 64 .store = .stall → stalls (.ssig a b o))) ∧
    (∀ sc, ∃ t, exec (.sfence sc) s = .next t ∧ s.CommandDone t id) ∧
    (∀ k : Task, s.sched.task x.task = some k → x.bound = [] ∨ s.detached x = false → s.core.ls.wf →
      (∃ u, exec .send s = .next u ∧ (∀ y, y ∈ u.str.ctxs ↔ y ∈ s.str.ctxs ∧ y.pid ≠ x.pid) ∧
        (∀ n ∈ x.bound, ¬ boundOf (u.blockOf n)) ∧ u.ms = s.ms ∧
        ∃ l, u.sched.task x.task = some l ∧ ∀ en, en ∈ (l.queue x.queue).entries ↔
          en ∈ (k.queue x.queue).entries ∧ ∀ p, en = .program p → p.pid ≠ x.pid) ∧
      (∀ tr w, tr.cause ∈ streamCauses → x.queue < 16 → s.Faults (s.streamFault tr w) x tr w)) ∧
    (x.bound ≠ [] → s.detached x = true → stalls .send)

/-- O49. TENQ of an aligned image that reads: the lowest reason that R370 gives comes back with bit 63 set and nothing else changed; otherwise the lowest
free slot gets the image in the state its DEPS give, each successor's DEPS rises by one for each field naming it, and g[D] is the slot; with no free
slot the task parks, and where no other task of its graph can free one the graph is aborted with POOLLOCK, naming the record that parked first. (The
handles that loaders have installed by then are the model's free choice, log 45.) TARG loads its word or traps; TSELF returns its four values, of
which the release number of a contract counts released and skipped times alike (the model's reading of R375 and R381, log 29); TYLD pre-empts the task
behind itself at the tail of its list. TEND traps on a running matrix sequencer, waits for queues with programs, takes the lowest faulted queue's
trap, and else ends the record: the core is vacant, no window is live, the guard table is empty, each waiting successor loses its predecessors and
becomes ready at 0, the graph's completion word is written if that was its last record, and the task of its graph that parked earliest for a pool slot
becomes ready, while the others stay parked. -/
def Obligations.TaskInstructions : Prop :=
  (∀ (s : State) (d a : BitVec 5) (img : BitVec 512) (at_ : Nat → List Seg) (me : Task) (g : Graph), let t0 := s.g a
    let k := s.taskKey
    (t0.toNat % 64 ≠ 0 → exec (.tenq d a) s = .next (s.trap ⟨.addr, t0, 0, 0⟩)) ∧
    (t0.toNat % 64 = 0 → ∀ n tr, n < 8 → (∀ j, j < n → s.spot t0 (64 * j : Nat) 64 .load = .ok (at_ j)) →
      s.spot t0 (64 * n : Nat) 64 .load = .error tr → exec (.tenq d a) s = .next (s.trap tr)) ∧
    (t0.toNat % 64 = 0 → (∀ j, j < 8 → s.spot t0 (64 * j : Nat) 64 .load = .ok (at_ j) ∧ field img (64 * j + 63) (64 * j) = s.readSegs (at_ j)) →
      s.task = some me → s.sched.graph k.vdev k.graph = some g → ∃ w : State, s.Loaded w k.vdev img ∧
      let bad := w.refusesImage k g.cap (field me.image 415 400) img
      (∀ r, bad r → (∀ q, q < r → ¬ bad q) → ∃ t : State, exec (.tenq d a) s = .next t ∧ w.WritesG t 32 d (BitVec.ofNat 64 (2 ^ 63 + r))) ∧
      ((∀ r, ¬ bad r) →
        (∀ i, s.sched.slotFree g i → (∀ j, j < i → ¬ s.sched.slotFree g j) → ∃ (u t : State) (x : Task), exec (.tenq d a) s = .next t ∧
          u.WritesG t 32 d (BitVec.ofNat 64 i) ∧ u.core = s.core ∧ u.others = s.others ∧
          u.sched.task { k with record := i } = some x ∧ x.image = img ∧ x.state = launchState (field img 279 264) ∧
          x.saved = false ∧ x.demoted = me.demoted ∧ ∀ j ∈ successors img, ∀ y, s.sched.task { k with record := j } = some y →
            ∃ z, u.sched.task { k with record := j } = some z ∧ z.state = .waiting ∧
              field z.image 279 264 = (field y.image 279 264 + (successors img).count j) % 2 ^ 16) ∧
        ((∀ i, ¬ s.sched.slotFree g i) → s.bound = true → s.coreNo < 224 →
          (∃ y ∈ s.sched.tasks, y.key ≠ s.boundKey ∧ y.key.vdev = s.boundKey.vdev ∧ y.key.graph = s.boundKey.graph ∧
            y.state ∈ [.ready, .bound, .running, .preempted, .blockedVersion, .blockedBarrier, .blockedRendezvous]) →
          ∃ t : State, exec (.tenq d a) s = .next t ∧ w.Parks t .blockedPool ∧ t.sched.poolParked = s.sched.poolParked ++ [s.boundKey]) ∧
        ((∀ i, ¬ s.sched.slotFree g i) → s.bound = true → s.coreNo < 224 → s.boundKey = k → g.aborted = false → ¬ (k.vdev = 0 ∧ k.graph = 0xFFFF) →
          (∀ y ∈ s.sched.tasks, y.key ≠ k → y.key.vdev = k.vdev → y.key.graph = k.graph → y.state ∈ [.waiting, .blockedPool, .ended]) →
          ∃ (p t : State) (first : TaskKey), exec (.tenq d a) s = .next t ∧ w.Parks p .blockedPool ∧
            p.sched.poolParked = s.sched.poolParked ++ [k] ∧ p.sched.poolParked.find? (fun j => j.vdev = k.vdev && j.graph = k.graph) = some first ∧
            p.Aborts t g 15 [15 + 2 ^ 16 * first.record, 0, 0, 0, 0, 0, 0, 0])))) ∧
  (∀ (s : State) (d a : BitVec 5) (me : Task), s.task = some me → let args := field me.image 121 64
    let x := args + 64 * (s.g a).toNat
    (2 ^ 58 ≤ x → exec (.targ d a) s = .next (s.trap ⟨.addr, BitVec.ofNat 64 args, 0, 0⟩)) ∧
    (x < 2 ^ 58 → (∀ segs, s.resolve s.via (BitVec.ofNat 64 x) 64 .load = .ok segs → ∃ t : State, exec (.targ d a) s = .next t ∧
        s.WritesG t 32 d (BitVec.ofNat 64 (s.readSegs segs))) ∧
      (∀ tr, s.resolve s.via (BitVec.ofNat 64 x) 64 .load = .error tr → exec (.targ d a) s = .next (s.trap tr)))) ∧
  (∀ (s : State) (d : BitVec 5) (me : Task), s.task = some me →
    (∃ t : State, exec (.tself d 0) s = .next t ∧ s.WritesG t 32 d s.core.ctl.taskid) ∧
    (∃ (t : State) (x : Word), exec (.tself d 1) s = .next t ∧ s.WritesG t 32 d x ∧ (s.sched.contractOf me = 0 →
        (∀ c ∈ s.sched.contracts, c.number ≠ 0) → x = 0) ∧
      ∀ c, s.sched.contracts.find? (fun y => y.number = s.sched.contractOf me) = some c → x = BitVec.ofNat 64 c.current) ∧
    (∃ t : State, exec (.tself d 2) s = .next t ∧ s.WritesG t 32 d s.core.budget) ∧
    (∃ t : State, exec (.tself d 3) s = .next t ∧
      s.WritesG t 32 d (BitVec.ofNat 64 (field me.image 419 416 + 2 ^ 16 * field me.image 415 400)))) ∧
  (∀ s : State, s.bound = true → s.coreNo < 224 → ∃ (u t : State) (l : ReadyList), exec .tyld s = .next t ∧ s.WritesNone u 32 ∧ u.Parks t .preempted ∧
    t.sched.lists.getLast? = some (l, s.boundKey)) ∧
  (∀ (s : State) (me : Task), s.task = some me →
    (s.core.matrix.running = true → exec .tend s = .next s.illop) ∧
    (s.core.matrix.running = false →
      ((∃ q, q < 16 ∧ (s.queue q).fault = none ∧ 0 < (s.queue q).count) → ∃ t : State, exec .tend s = .next t ∧ s.WaitsIn t .tend) ∧
      ((∀ q, q < 16 → (s.queue q).fault = none → (s.queue q).count = 0) →
        (∀ q f, q < 16 → (s.queue q).fault = some f → (∀ p, p < q → (s.queue p).fault = none) →
          ∃ u : State, exec .tend s = .next (u.trap f.raised) ∧
            s.OnlyQueue u q { entries := (s.queue q).entries.filter fun e => ! e.isProgram, fault := none }) ∧
        ((∀ q, q < 16 → (s.queue q).fault = none) → me.state = .running → (∀ k ∈ s.sched.poolParked, s.InState k .blockedPool) →
          s.core.ls.wf → let first := s.sched.poolParked.find? fun k => k.vdev = s.taskKey.vdev && k.graph = s.taskKey.graph
          ∃ t : State, exec .tend s = .next t ∧ t.InState s.taskKey .ended ∧
            (∃ u w : State, u.GraphEnds w s.taskKey.vdev s.taskKey.graph ∧ u.sched.tasks = t.sched.tasks ∧
              t = { w with sched := { w.sched with vdevs := t.sched.vdevs } }) ∧
            (∀ k y, first = some k → s.sched.task k = some y → t.InState k (wokenState y)) ∧
            (∀ k, k ∈ t.sched.poolParked ↔ k ∈ s.sched.poolParked ∧ some k ≠ first) ∧ t.core.main.running = false ∧ t.core.matrix.running = false ∧
            bindValid (t.sched.slot s.coreNo).run = false ∧ t.core.guards = [] ∧ (∀ n, n < 64 → ¬ liveOf (t.blockOf n)) ∧
            ∀ j y, s.sched.task { s.taskKey with record := j } = some y → j ≠ s.taskKey.record → y.state = .waiting →
              0 < (successors me.image).count j → (successors me.image).count j ≤ field y.image 279 264 →
              ∃ z, t.sched.task { s.taskKey with record := j } = some z ∧
                field z.image 279 264 = field y.image 279 264 - (successors me.image).count j ∧
                z.state = if field z.image 279 264 = 0 then wokenState y else .waiting))))

/-- O50. TASK_BIND on a core with a staged and no running record starts the task fresh (every register as R14 has it, and k0, the matrix sequencer's
registers and the buffers' contents, of which R14 is silent, zero, log 5), or with all that its save area holds, under the record's registers;
PREEMPT_SAVE leaves the core vacant and the record pre-empted, at the tail of its list if its quantum or budget had ended and at the head otherwise
(that the end of a budget with BN = 0 counts as the end of a quantum is the model's choice, log 27); a save leaves in the save area every register of
both sequencers and of the core, the extents, masks, guards, windows, valid buffers, written tiles, marked vector bits and footprint bits. BUDGET_END
notifies and pre-empts or reloads, and with BN = 1 a notice stands exactly where the quantum is over; BARRIER_PARK parks with the counts its waits
need, and the record wakes once one is reached or a program stalls; STG_SWAP stages Mason's choice, or pre-empts the contract task with the latest
deadline for an earlier one, or takes a record back at the head of its list; DCMD_PRE asks for the pre-emption of a running record, at the tail where
such a notice stands and else at the head; as a clamp it spares a contract task while a core runs another (that it may be one is a free choice, log
27). Mason's choice is the system class first (with BUDGET 0 and BN 0, the model's choice, log 28), then the earliest deadline of a device below its
share on the core it takes, then best effort with BN = 1 where nothing higher is staged; a die on its way to hint residency takes the system class
alone, and its cores count as idle for no contract task (R292). An event whose condition does not hold changes nothing. -/
def Obligations.BindAndSave : Prop :=
  (∀ (s : State) (c : Nat), let x := s.sched.slot c
    (¬ (c < 224 ∧ bindValid x.stg = true ∧ bindValid x.run = false) → exec (.taskBind c) s = .next s) ∧
    (c < 224 → bindValid x.stg = true → bindValid x.run = false → ∀ k y, k = keyOf (field x.stg 40 0) → s.sched.task k = some y →
      ∃ u : State, exec (.taskBind c) s = .next u ∧ u.InState k .running ∧ (u.sched.slot c).run = x.stg ∧ (u.sched.slot c).stg = 0 ∧
        (u.sched.slot c).dcmd = 0 ∧ (u.coreAt c).Bound x.stg ∧
        (y.saved = false → (u.coreAt c).Starts y.image
          (fun h => (s.sched.handles.find? fun z => z.1 = k.vdev ∧ z.2.1 = h).map (·.2.2))
          (((s.sched.lsimages.find? fun z => z.1 = k && ! y.added).map (·.2)).getD 0)) ∧
        (y.saved = true → (u.coreAt c).RestoredAt s.ms.mem (field x.stg 121 64) ∧
          (u.coreAt c).main.owed = y.owedMain ∧ (u.coreAt c).matrix.owed = y.owedMatrix))) ∧
  (∀ (s : State) (c : Core) (ctx foot : Nat), s.ms.mem.wf → c.SavedAt (s.saveContext c ctx foot).ms.mem ctx foot) ∧
  (∀ (s : State) (c : Nat), let x := s.sched.slot c
    let k := keyOf (field x.run 40 0)
    ((s.sched.slot c).dcmd = 0 → exec (.preemptSave c) s = .next s) ∧
    (∀ y, c < 224 → x.dcmd ≠ 0 → bindValid x.run = true → s.sched.task k = some y →
      ∃ u : State, exec (.preemptSave c) s = .next u ∧ u.InState k .preempted ∧ u.Vacant c ∧ (u.sched.slot c).dcmd = 0 ∧
        (x.tail = true → u.sched.lists.getLast? = some (s.sched.readyListOf y, k)) ∧
        (x.tail = false → u.sched.lists.head? = some (s.sched.readyListOf y, k)) ∧
        (∀ n, n ≠ c → u.coreAt n = s.coreAt n))) ∧
  (∀ (s : State) (c : Nat), let x := s.sched.slot c
    ((s.coreAt c).budget ≠ 0 ∨ field x.run 191 128 = 0 ∨ bindValid x.run = false → exec (.budgetEnd c) s = .next s) ∧
    (c < 224 → bindValid x.run = true → field x.run 191 128 ≠ 0 → (s.coreAt c).budget = 0 → x.dcmd = 0 →
      ∃ u : State, exec (.budgetEnd c) s = .next u ∧ (u.sched.slot c).run = x.run ∧
        (c ∈ u.sched.notices ↔ c ∈ s.sched.notices ∨ x.run.getLsbD 58 = false ∨ s.QuantumOver c) ∧
        (x.run.getLsbD 58 = true → (u.coreAt c).budget = BitVec.ofNat 64 (field x.run 191 128) ∧ (u.sched.slot c).dcmd = 0) ∧
        (x.run.getLsbD 58 = false → (u.sched.slot c).dcmd = 1 ∧ (u.sched.slot c).tail = true ∧ u.coreAt c = s.coreAt c))) ∧
  (∀ (s : State) (c : Nat), let x := s.sched.slot c
    let k := keyOf (field x.run 40 0)
    let m := s.coreAt c
    let long (q : Seq) : Prop := q.running = true → (∃ w, q.wait = some w ∧ w.parks = true) ∧ (s.sched.settings k.vdev).pkt < q.waited
    let barrier (q : Seq) : Prop := q.running = true ∧ ∃ w, q.wait = some w ∧ ∀ e, w ≠ .rdv e
    ((m.main.running = true ∧ m.main.wait = none) ∨ bindValid x.stg = false → exec (.barrierPark c) s = .next s) ∧
    (c < 224 → bindValid x.run = true → bindValid x.stg = true → (∃ y, s.sched.task k = some y) → long m.main → long m.matrix →
      (barrier m.main ∨ barrier m.matrix) → ∃ (u : State) (y : Task), exec (.barrierPark c) s = .next u ∧ u.Vacant c ∧
        u.sched.task k = some y ∧ y.state = (if m.main.atRdv then .blockedRendezvous else .blockedBarrier) ∧
        ∀ q, let t := s.focus c q
          (∀ a b, (m.seqAt q).wait = some (.barwait a b) → (extTidx (t.e (tagOf (t.g a))), (t.g b).toNat) ∈ y.needs) ∧
          (∀ a, (m.seqAt q).wait = some (.chained a) → (extTidx a.ext, t.chainNeed a 0) ∈ y.needs))) ∧
  (∀ (s : State) (k : TaskKey) (y : Task), s.sched.task k = some y →
    let due := (y.state = .blockedBarrier ∨ y.state = .blockedRendezvous) ∧
      ((∃ x ∈ y.needs, x.2 ≤ s.ms.mem.readBits (y.ctx + 155648 + 256 * x.1) 64) ∨ ∃ p ∈ s.str.ctxs, p.task = k ∧ p.stalled = true)
    (¬ due → exec (.barrierParkWake k) s = .next s) ∧
    (due → ∃ u : State, exec (.barrierParkWake k) s = .next u ∧ u.InState k (wokenState y) ∧ u.core = s.core)) ∧
  (∀ (s : State) (c : Nat), c < 224 → let x := s.sched.slot c
    let later := s.sched.Displaced c
    let asked (tail : Bool) : Slot := if bindValid x.run ∧ x.dcmd = 0 then { x with dcmd := 1, tail := tail } else x
    (later → ∃ u : State, exec (.stgSwap c false) s = .next u ∧ u = { s with sched := { s.sched with slots := u.sched.slots } } ∧
        u.sched.slot c = asked false ∧ ∀ n, n ≠ c → u.sched.slot n = s.sched.slot n) ∧
    (¬ later → s.choose c = none → exec (.stgSwap c false) s = .next s) ∧
    (¬ later → ∀ r d, s.choose c = some (r, d) → bindValid r = true → (∃ y, d.task (keyOf (field r 40 0)) = some y) → d.slots = s.sched.slots →
      ∃ u : State, exec (.stgSwap c false) s = .next u ∧ (u.sched.slot c).stg = r ∧ (u.sched.slot c).run = x.run ∧
        u.InState (keyOf (field r 40 0)) .bound ∧ (∀ l ∈ u.sched.lists, l.2 ≠ keyOf (field r 40 0)) ∧ u.core = s.core ∧
        ∀ y z, d.task (keyOf (field r 40 0)) = some y → d.task (keyOf (field x.run 40 0)) = some z → bindValid x.run = true → x.dcmd = 0 →
          ((u.sched.slot c).dcmd ≠ 0 ↔ (∃ n, d.readyListOf y = .contract n) ∧ ∃ v p, d.readyListOf z = .bestEffort v p)) ∧
    (bindValid x.stg = false → exec (.stgSwap c true) s = .next s) ∧
    (∀ y, bindValid x.stg = true → s.sched.task (keyOf (field x.stg 40 0)) = some y → ∃ (u : State) (l : ReadyList), exec (.stgSwap c true) s = .next u ∧
      (u.sched.slot c).stg = 0 ∧ (u.sched.slot c).run = x.run ∧ u.InState (keyOf (field x.stg 40 0)) y.left ∧
      u.sched.lists.head? = some (l, keyOf (field x.stg 40 0))) ∧
    (∃ u : State, exec (.dcmdPre c) s = .next u ∧
      u = { s with sched := { s.sched with slots := u.sched.slots, notices := u.sched.notices } } ∧
      (∀ n, n ≠ c → u.sched.slot n = s.sched.slot n ∧ (n ∈ u.sched.notices ↔ n ∈ s.sched.notices)) ∧
      (c ∈ s.sched.notices → u.sched.slot c = asked true ∧ c ∉ u.sched.notices) ∧
      (c ∉ s.sched.notices → u.sched.slot c = asked false ∨
        u = s ∧ s.sched.runContract x ≠ none ∧ ∃ p ∈ s.sched.slots, bindValid p.2.run = true ∧ s.sched.runContract p.2 = none))) ∧
  (∀ (s : State) (c : Nat), c < 224 → let hint := ((s.ms.llc[dieOf c]?).getD LlcDie.reset).cfg &&& 3
    (∀ k, s.sched.head .system = some k → s.choose c = some (s.sched.record k 0 false, s.sched)) ∧
    (s.sched.head .system = none → hint ≠ 0 → s.choose c = none) ∧
    (s.sched.nextContract = none → ∀ y l, ¬ s.sched.eligible y l) ∧
    (∀ x k, s.sched.nextContract = some (x, k) → s.sched.eligible x k ∧
      ∀ y l, s.sched.eligible y l → x.deadline < y.deadline ∨ (x.deadline = y.deadline ∧ x.number ≤ y.number)) ∧
    (s.sched.head .system = none → hint = 0 →
      let stg := (s.sched.slot c).stg
      (∀ x k, s.sched.nextContract = some (x, k) → s.Takes c → s.choose c = some (s.sched.record k x.remaining false, s.sched)) ∧
      (s.sched.nextContract = none ∨ ¬ s.Takes c →
        (bindValid stg = true → ¬ s.sched.BestEffort stg → s.choose c = none) ∧
        (bindValid stg = true → s.sched.BestEffort stg) → ∀ v d k, s.sched.roundRobin = some (v, d) →
          d.bestOf v = some k → s.choose c = some (d.record k (12 * (d.settings v).quant) true, d))) ∧
    (∀ v n e, s.sched.latest v = some (n, e) →
      (∃ x y, (n, x) ∈ s.sched.slots ∧ s.sched.runContract x = some y ∧ y.vdev = v ∧ y.deadline = e) ∧
      ∀ p ∈ s.sched.slots, ∀ y, s.sched.runContract p.2 = some y → y.vdev = v → y.deadline ≤ e) ∧
    (∀ (d : Sched) (v : Nat) (k : TaskKey), d.bestOf v = some k → ∃ p, p < 16 ∧ d.head (.bestEffort v p) = some k ∧
      ∀ q, p < q → q < 16 → d.head (.bestEffort v q) = none))

/-- O51. A release on the management counter comes at tick A + PHASE + k P and not before: every launch record of the graph returns to its launch image
and enters the state its DEPS give, the release is counted and the budget is C again; where the release before has not ended, it is a skip and nothing
restarts (release 0 has none before it, and stops what the launch itself still runs, the model's choice, log 29). A pulse counts; every DIV-th starts
such a release, and one less than P after the last is a skip. An overrun, while a release is open and its budget is used up, is counted, closes the
release, asks for the pre-emption of its running task, which is then to enter its list at the tail (the model's reading of R366, log 27), and moves
every unended task to best effort; otherwise nothing changes. -/
def Obligations.Contracts : Prop :=
  (∀ (s : State) (c : Contract) (at_ : Nat) (g : Graph), s.sched.graph c.vdev (field c.desc 103 88) = some g →
    let gid := field c.desc 103 88
    let ended := ∀ t ∈ s.sched.tasks, t.key.vdev = c.vdev → t.key.graph = gid → t.state = .ended
    let put (f : Contract → Contract) : List Contract := s.sched.contracts.map fun x => if x.number = c.number then f x else x
    (ended → (s.release c at_).sched.contracts = put (fun x => { x with
        releases := x.releases + 1, current := x.releases + x.skips, lastRelease := at_, remaining := field c.desc 71 32, open_ := true })) ∧
    (ended ∨ c.releases = 0 → ∀ i r, g.images[i]? = some r →
      ∃ t, (s.release c at_).sched.task { vdev := c.vdev, graph := gid, record := i } = some t ∧
        t.image = r ∧ t.state = launchState (field r 279 264) ∧ t.saved = false ∧ t.demoted = false) ∧
    (¬ ended → c.releases = 0 →
      (∀ y ∈ (s.release c at_).sched.contracts, y.number = c.number → y.lastRelease = at_ ∧ y.remaining = field c.desc 71 32 ∧ y.open_ = true ∧
        ∃ x ∈ s.sched.contracts, x.number = c.number ∧ y.releases = x.releases + 1 ∧ y.current = x.releases + x.skips) ∧
      ∀ p ∈ (s.release c at_).sched.slots, bindValid p.2.run = true →
        ¬ ((keyOf (field p.2.run 40 0)).vdev = c.vdev ∧ (keyOf (field p.2.run 40 0)).graph = gid)) ∧
    (¬ ended → 0 < c.releases → (s.release c at_).sched = { s.sched with contracts := put fun x => { x with skips := x.skips + 1 } } ∧
      (s.release c at_).ms = s.ms ∧ (s.release c at_).io.bbcnt = s.io.bbcnt + 1)) ∧
  (∀ (s : State) (n : Nat) (c : Contract), s.sched.contracts.find? (fun x => x.number = n) = some c →
    let due := c.admitted + field c.desc 159 128 + (c.releases + c.skips) * field c.desc 31 0
    (c.desc.getLsbD 76 = true ∨ s.sched.ticks < due → exec (.contractRelease n) s = .next s) ∧
    (c.desc.getLsbD 76 = false → due ≤ s.sched.ticks → exec (.contractRelease n) s = .next (s.release c due))) ∧
  (∀ (s : State), exec .frameSyncPulse s =
    .next ((s.sched.contracts.filter fun c => c.desc.getLsbD 76).foldl State.pulse s)) ∧
  (∀ (s : State) (c : Contract), let div := field c.desc 87 80
    let put (x : Contract) : State := { s with sched := { s.sched with
      contracts := s.sched.contracts.map fun y => if y.number = c.number then x else y } }
    let early := 0 < c.releases ∧ s.sched.ticks < c.lastRelease + field c.desc 31 0
    ((c.pulses + 1) % div ≠ 0 → s.pulse c = put { c with pulses := c.pulses + 1 }) ∧
    ((c.pulses + 1) % div = 0 → early → s.pulse c = put { c with pulses := c.pulses + 1, skips := c.skips + 1 }) ∧
    ((c.pulses + 1) % div = 0 → ¬ early → s.pulse c =
      (put { c with pulses := c.pulses + 1 }).release { c with pulses := c.pulses + 1 } s.sched.ticks)) ∧
  (∀ (s : State) (n : Nat) (c : Contract), s.sched.contracts.find? (fun x => x.number = n) = some c →
    let used := c.remaining = 0 ∨ ∃ k ∈ s.sched.contractCores n, field (s.sched.slot k).run 191 128 ≠ 0 ∧ (s.coreAt k).budget = 0
    (c.open_ = false ∨ ¬ used → exec (.contractOverrun n) s = .next s) ∧
    (c.open_ = true → used → ∃ u : State, exec (.contractOverrun n) s = .next u ∧ u.io.bbcnt = s.io.bbcnt + 1 ∧ u.core = s.core ∧ u.ms = s.ms ∧
      u.sched.contracts = (s.sched.contracts.map fun x => if x.number = n then { x with overruns := x.overruns + 1, open_ := false } else x) ∧
      (∀ k ∈ s.sched.contractCores n, bindValid (s.sched.slot k).run = true → (s.sched.slot k).dcmd = 0 →
        (u.sched.slot k).dcmd = 1 ∧ (u.sched.slot k).tail = true) ∧
      ∀ t ∈ s.sched.tasks, t.key.vdev = c.vdev → t.key.graph = field c.desc 103 88 → t.state ≠ .ended →
        ∀ y, u.sched.task t.key = some y → y.demoted = true))

/-- O52. A call step on a page whose next call is of its code takes it: a block that is unaligned or not mapped faults; a reserved code, a set reserved
bit or word is refused with its reason; otherwise the call has its effect on the state after the take, and its value, or bit 63 with the reason,
stands in word 7, with vector 0 where asked. LAUNCH enters every record by its DEPS; ABORT ends every record of the graph; ADMIT adds a contract with
a free number; REVOKE removes one; SETVD sets exactly the settings; VNOPEN and VNCLOSE open and close regions; STATUS reads; ENCOPEN, ENCCLOSE,
PEERSET, EXPOSE, SETPWR and SETIRQ add, remove or set their entry; each refuses, with nothing changed, for the lowest reason that holds. A step whose
page has no such call changes nothing. The ordered page takes a write as a doorbell page does, and a new envelope changes ENV alone. (That every call
reports the lowest reason, the reason of an unset peer and SETVD's reason 1 for an unassured share are the model's reading, log 30; the owner's root
is log 21; what loaders have handed over with a graph is the model's free choice, log 45.) -/
def Obligations.ServiceCalls : Prop :=
  (∀ (s : State) (i : Instr) (p code : Nat) (masks : List Word), callForm i = some (p, code, masks) →
    ((s.io.doorbell p).calls = [] → exec i s = .next s) ∧
    (∀ cb rest, (s.io.doorbell p).calls = cb :: rest → let u := s.takesCall p rest
      let vd := pageVdev p
      (cb.toNat % 512 ≠ 0 ∨ s.ownerRead vd cb.toNat 512 = none ∨ s.ownerSegs vd cb.toNat 512 true = none →
        ∃ t, exec i s = .next t ∧ u.BlockFaults t p cb) ∧
      (∀ b, cb.toNat % 512 = 0 → s.ownerRead vd cb.toNat 512 = some b → s.ownerSegs vd cb.toNat 512 true ≠ none →
        let irq := b.testBit 8
        let reserved := b / 2 ^ 9 % 2 ^ 55 ≠ 0 ∨ ∃ j, j < 6 ∧ blockWord b (j + 1) &&& ~~~(masks.getD j 0) ≠ 0
        (b % 256 = 0 ∨ 14 < b % 256 → ∃ t, exec i s = .next t ∧ u.Returns t p cb irq (2 ^ 63 + 0xFF)) ∧
        (0 < b % 256 → b % 256 ≤ 14 → b % 256 ≠ code → exec i s = .next s) ∧
        (b % 256 = code → reserved → ∃ t, exec i s = .next t ∧ u.Returns t p cb irq (2 ^ 63 + 1)) ∧
        (b % 256 = code → ¬ reserved → ∃ t, exec i s = .next t ∧
          let r := callEffect code u { vd := vd, w := blockWord b }
          r.1.Returns t p cb irq (resultWord r.2))))) ∧
  (∀ (s : State) (a : Args) (d : Nat), (a.w 1).toNat % 512 = 0 → s.ownerRead a.vd (a.w 1).toNat 512 = some d →
    let n := d / 2 ^ 80 % 2 ^ 16
    let gid := d / 2 ^ 96 % 2 ^ 16
    let imgs := s.readRecords a.vd (d % 2 ^ 58) n
    ∃ w : State, s.Handed w a.vd gid imgs ∧ Refuses s (s.launch a) (w.refusesLaunch a.vd d imgs) ∧
    ((∀ r, ¬ w.refusesLaunch a.vd d imgs r) → (s.launch a).2 = .ok 0 ∧ (s.launch a).1.core = s.core ∧
      (∀ j, j < n → ∃ x t, s.ownerRead a.vd (d % 2 ^ 58 + 512 * j) 512 = some x ∧
        (s.launch a).1.sched.task { vdev := a.vd, graph := gid, record := j } = some t ∧ t.image = BitVec.ofNat 512 x ∧
        t.state = launchState (field t.image 279 264)) ∧
      (0 < n → ∃ g, (s.launch a).1.sched.graph a.vd gid = some g ∧ g.cap = d / 2 ^ 64 % 2 ^ 16 ∧ g.pool = d % 2 ^ 58 ∧
        g.done = d / 2 ^ 128 % 2 ^ 58 ∧ g.fault = d / 2 ^ 192 % 2 ^ 58 ∧ g.images = imgs))) ∧
  (∀ (s : State) (a : Args), (s.ownerRead a.vd (a.w 1).toNat 512 = none ∨ (a.w 1).toNat % 512 ≠ 0 → s.launch a = (s, .error 2)) ∧
    (∀ g, s.sched.graph a.vd ((a.w 1).toNat % 2 ^ 16) = some g → (a.w 1).toNat % 2 ^ 16 ≠ 0xFFFF → (s.abortCall a).2 = .ok 0 ∧
      ∀ t ∈ (s.abortCall a).1.sched.tasks, t.key.vdev = a.vd → t.key.graph = (a.w 1).toNat % 2 ^ 16 → t.state = .ended) ∧
    (s.sched.graph a.vd ((a.w 1).toNat % 2 ^ 16) = none → s.abortCall a = (s, .error 3))) ∧
  (∀ (s : State) (a : Args) (x : Nat), (a.w 1).toNat % 256 = 0 → s.ownerRead a.vd (a.w 1).toNat 256 = some x →
    let d := BitVec.ofNat 256 x
    let gid := field d 103 88
    let images (n : Nat) : List (BitVec 512) := (s.sched.graph a.vd n).elim [] Graph.images
    let us := contractU d (images gid) :: (s.sched.contracts.filter fun c => c.vdev = a.vd).map fun c =>
      contractU c.desc (images (field c.desc 103 88))
    let st := s.sched.settings a.vd
    let why (n : Nat) : Prop := match n with
      | 1 => field d 255 160 ≠ 0 ∨ field d 127 104 ≠ 0 ∨ field d 79 77 ≠ 0
      | 3 => s.sched.graph a.vd gid = none ∨ (a.vd = 0 ∧ gid = 0xFFFF)
      | 4 => ∃ g, s.sched.graph a.vd gid = some g ∧ g.contract ≠ 0
      | 5 => field d 31 0 < 1000 ∨ field d 75 72 = 0 ∨ (field d 76 76 = 1 ∧ field d 87 80 = 0)
      | 6 => admits st.share us = false
      | 7 => ∀ n, 0 < n → n < 4096 → ∃ c ∈ s.sched.contracts, c.number = n
      | 9 => st.assured = false
      | _ => False
    Refuses s (s.accept a) why ∧
    ((∀ n, ¬ why n) → ∃ n c, 0 < n ∧ n < 4096 ∧ (∀ y ∈ s.sched.contracts, y.number ≠ n) ∧ (s.accept a).2 = .ok (BitVec.ofNat 64 n) ∧
      (s.accept a).1.sched.contracts = s.sched.contracts ++ [c] ∧ c.number = n ∧ c.vdev = a.vd ∧ c.desc = d ∧
      c.admitted = s.sched.ticks ∧ c.releases = 0 ∧ (s.accept a).1.core = s.core ∧ (s.accept a).1.ms = s.ms)) ∧
  (∀ (share : Nat) (us : List (Nat × Nat)), (∀ u ∈ us, 0 < u.2) →
    (admits share us = true ↔ (∀ u ∈ us, u.1 ≤ u.2) ∧ ∀ q : Nat × Nat, q ∈ us → (∀ u ∈ us, u.1 * q.2 ≤ q.1 * u.2) →
      (us.map fun u => ((u.1 : ℚ) / (u.2 : ℚ))).sum ≤ (share : ℚ) - ((share : ℚ) - 1) * ((q.1 : ℚ) / (q.2 : ℚ))) ) ∧
  (∀ (s : State) (a : Args),
    ((∀ c ∈ s.sched.contracts, ¬ (c.number = (a.w 1).toNat ∧ c.vdev = a.vd)) → s.revoke a = (s, .error 3)) ∧
    (∀ c ∈ s.sched.contracts, c.number = (a.w 1).toNat → c.vdev = a.vd → (s.revoke a).2 = .ok 0 ∧
      ∀ y ∈ (s.revoke a).1.sched.contracts, y.number ≠ (a.w 1).toNat)) ∧
  (∀ (s : State) (a : Args), Refuses s (s.setvd a) (s.refusesSettings a) ∧
    ((∀ n, ¬ s.refusesSettings a n) → let x := (s.setvd a).1.sched.settings (a.w 1).toNat
      (s.setvd a).2 = .ok 0 ∧ (s.setvd a).1 = { s with sched := { s.sched with vdevs := (s.setvd a).1.sched.vdevs } } ∧
      (∀ v, v ≠ (a.w 1).toNat → (s.setvd a).1.sched.settings v = s.sched.settings v) ∧
      x.weight = (a.w 2).toNat % 2 ^ 8 ∧ x.assured = (a.w 2).getLsbD 8 ∧ x.chk = (a.w 2).getLsbD 9 ∧
      x.cpid = (a.w 2).toNat / 2 ^ 10 % 2 ^ 6 ∧ x.spid = (a.w 2).toNat / 2 ^ 16 % 2 ^ 6 ∧ x.share = (a.w 2).toNat / 2 ^ 22 % 2 ^ 8 ∧
      x.quant = (a.w 3).toNat % 2 ^ 32 ∧ x.pkt = (a.w 3).toNat / 2 ^ 32 ∧ x.vfwd = (a.w 4).toNat)) ∧
  (∀ (s : State) (a : Args),
    (∀ img, (a.w 2).toNat ≤ 64 → s.ownerRead a.vd (a.w 1).toNat 384 = some img → let x := BitVec.ofNat 384 img
      ((∀ r, ¬ s.refusesRegion x (a.w 2).toNat r) → ∃ n, s.Opens (s.vnopenCall a).1 x n ∧ (s.vnopenCall a).2 = .ok (BitVec.ofNat 64 n)) ∧
      (∀ r, s.refusesRegion x (a.w 2).toNat r → (∀ q, q < r → ¬ s.refusesRegion x (a.w 2).toNat q) →
        s.vnopenCall a = (s, .error (0x10 + r)))) ∧
    (∀ n, n = (a.w 1).toNat → n < 64 → regSt (s.ver.region n) ≠ 0 → regAsid (s.ver.region n) = (s.sched.settings a.vd).root.toNat / 2 ^ 54 →
      s.Closes (s.vncloseCall a).1 n ∧ (s.vncloseCall a).2 = .ok (BitVec.ofNat 64 (s.ver.versions.filter fun y => y.region = n).length)) ∧
    (∀ n, n = (a.w 1).toNat → regSt (s.ver.region n) ≠ 0 → regAsid (s.ver.region n) ≠ (s.sched.settings a.vd).root.toNat / 2 ^ 54 →
      s.vncloseCall a = (s, .error 3))) ∧
  (∀ (s : State) (a : Args), let n := (a.w 1).toNat / 2 ^ 16 % 2 ^ 16
    ((a.w 1).toNat % 2 = 0 → ∀ g, s.sched.graph a.vd n = some g → s.statusCall a = (s, .ok (BitVec.ofNat 64
      ((s.sched.tasks.filter fun t => t.key.vdev = a.vd && t.key.graph = n && t.state ≠ .ended).length % 2 ^ 17)))) ∧
    ((a.w 1).toNat % 2 = 1 → ∀ c, s.sched.contracts.find? (fun c => c.number = n ∧ c.vdev = a.vd) = some c → s.statusCall a = (s, .ok
      (BitVec.ofNat 64 (c.releases % 2 ^ 26 + c.overruns % 2 ^ 18 * 2 ^ 26 + c.skips % 2 ^ 18 * 2 ^ 44))))) ∧
  (∀ (s : State) (a : Args), let w := (a.w 1).toNat
    let bad := w % 2 ^ 11 % 2 = 1 ∨ w % 2 ^ 11 < 64 ∨ 1920 < w % 2 ^ 11 ∨ w / 2 ^ 11 % 2 = 1 ∨ w / 2 ^ 11 % 2 ^ 11 < 64 ∨
      1080 < w / 2 ^ 11 % 2 ^ 11 ∨ w / 2 ^ 23 % 2 ^ 16 = 0 ∨ (15 < w / 2 ^ 40 % 2 ^ 5 ∧ w / 2 ^ 40 % 2 ^ 5 ≠ 31) ∨
      2 ^ (if w.testBit 39 then 40 else 8) ≤ (a.w 2).toNat
    (bad → s.encopen a = (s, .error 1)) ∧
    (¬ bad → (∀ n, n < 1024 → ∃ x ∈ s.io.encStreams, x.number = n) → s.encopen a = (s, .error 7)) ∧
    (¬ bad → (∃ n, n < 1024 ∧ ∀ x ∈ s.io.encStreams, x.number ≠ n) → ∃ y n, s.encopen a =
      ({ s with io := { s.io with encStreams := s.io.encStreams ++ [y] } }, .ok (BitVec.ofNat 64 n)) ∧ n < 1024 ∧ y.number = n ∧
      (∀ x ∈ s.io.encStreams, x.number ≠ n) ∧ y.vdev = a.vd ∧ y.encoder < 16 ∧ (w / 2 ^ 40 % 2 ^ 5 < 16 → y.encoder = w / 2 ^ 40 % 2 ^ 5) ∧
      y.width = w % 2 ^ 11 ∧ y.height = w / 2 ^ 11 % 2 ^ 11 ∧ y.deep = w.testBit 22 ∧ y.failed = false)) ∧
  (∀ (s : State) (a : Args), let n := (a.w 1).toNat
    ((∀ x ∈ s.io.encStreams, ¬ (x.number = n ∧ x.vdev = a.vd)) → s.encclose a = (s, .error 3)) ∧
    ((∃ x ∈ s.io.encStreams, x.number = n ∧ x.vdev = a.vd) → (s.encclose a).2 = .ok 0 ∧ (s.encclose a).1.core = s.core ∧
      (s.encclose a).1.io.encStreams = (s.io.encStreams.filter fun x => x.number ≠ n) ∧
      (s.encclose a).1.io.encJobs = (s.io.encJobs.filter fun j => j.stream ≠ n) ∧ (s.encclose a).1.ms = s.ms)) ∧
  (∀ (s : State) (a : Args), let j := (a.w 1).toNat % 2 ^ 12
    let others := s.io.peers.filter fun x => ¬ (x.vdev = a.vd ∧ x.index = j)
    let row : Peer := { vdev := a.vd, index := j, addr := a.w 3 ++ a.w 2, job := (a.w 4).setWidth 24 }
    ((a.w 1).getLsbD 12 = true → s.peerset a = ({ s with io := { s.io with peers := row :: others } }, .ok 0)) ∧
    ((a.w 1).getLsbD 12 = false → others.length < s.io.peers.length → s.peerset a = ({ s with io := { s.io with peers := others } }, .ok 0)) ∧
    ((a.w 1).getLsbD 12 = false → others.length = s.io.peers.length → s.peerset a = (s, .error 3))) ∧
  (∀ (s : State) (a : Args), let base := (a.w 2).toNat
    let len := (a.w 3).toNat
    let ctr := (a.w 4).toNat
    let why (n : Nat) : Prop := match n with
      | 1 => len % 8 ≠ 0 ∨ 2 ^ 58 < base + len
      | 2 => base % 8 ≠ 0 ∨ ctr % 64 ≠ 0 ∨ s.ownerSegs a.vd ctr 64 true = none ∨ s.ownerSegs a.vd ctr 64 false = none ∨
          ((a.w 5).getLsbD 0 = true ∧ s.ownerMapped a.vd base len true = false) ∨
          ((a.w 5).getLsbD 1 = true ∧ s.ownerMapped a.vd base len false = false)
      | 7 => ∀ n, n < 4096 → ∃ x ∈ s.io.exposed, x.vdev = a.vd ∧ x.key = n
      | _ => False
    let row (n : Nat) : Exposed := { vdev := a.vd, key := n, base := base, len := len, counter := ctr, write := (a.w 5).getLsbD 0, read := (a.w 5).getLsbD 1 }
    Refuses s (s.expose a) why ∧ ((∀ n, ¬ why n) → ∃ n, n < 4096 ∧ (∀ x ∈ s.io.exposed, ¬ (x.vdev = a.vd ∧ x.key = n)) ∧
      s.expose a = ({ s with io := { s.io with exposed := row n :: s.io.exposed } }, .ok (BitVec.ofNat 64 n)))) ∧
  (∀ (s : State) (a : Args), let w := a.w 1
    (w.toNat < 1200 ∨ 2600 < w.toNat → s.setpwr a = (s, .error 1)) ∧
    (1200 ≤ w.toNat → w.toNat ≤ 2600 → a.vd ≠ 0 → s.setpwr a = (s, .error 8)) ∧
    (1200 ≤ w.toNat → w.toNat ≤ 2600 → a.vd = 0 → s.setpwr a = ({ s with io := { s.io with envAsked := w } }, .ok s.io.env)) ∧
    exec .envelopeApply s = .next { s with io := { s.io with env := s.io.envAsked } } ∧
    (∀ v h, v = w.toNat → h = (a.w 2).toNat → let bad := v < 2 ∨ 4 < v ∨ (15 < h ∧ h ≠ 31)
      (bad → s.setirq a = (s, .error 1)) ∧ (¬ bad → a.vd ≠ 0 → s.setirq a = (s, .error 8)) ∧
      (¬ bad → a.vd = 0 → s.setirq a = ({ s with io := { s.io with route := s.io.route.setIfInBounds v h } }, .ok 0)))) ∧
  (∀ (s : State) (p o : Nat) (v : Word), let x := s.io.doorbell (385 + p)
    let put (y : Doorbell) : State := { s with io := s.io.setDoorbell y }
    (p < 2 → o = 0 → exec (.orderedDoorbellWrite p o v) s =
      .next (if s.io.mstate.toNat % 16 = 8 then put { x with calls := x.calls ++ [v.setWidth 58] } else s)) ∧
    (p < 2 → o = 0x10 → exec (.orderedDoorbellWrite p o v) s =
      .next (if v.getLsbD 63 then put { x with err := x.err &&& 0x7FFFFFFFFFFFFFFF } else s)) ∧
    (2 ≤ p ∨ (o ≠ 0 ∧ o ≠ 0x10) → exec (.orderedDoorbellWrite p o v) s = .next s))

/-- O53. HOST_READ and HOST_WRITE through BAR2 or a committed decoder move exactly the named bytes by the DPA map; to a heap they are refused as R304
says, and recorded; to a poisoned sector they return poison or are dropped; in BOOTFAIL only the configuration space answers, with its copy of MSTATE,
and nothing answers where no decoder decodes the address. BAR0 reads and whole-word writes reach the registers of R407, the other offsets reading
zero, and CXL.io those of the ordered page. Each privileged register write has its effect: OWNCMD and PKCMD are ignored while GO = 1, LLCCFG waits or
is ignored, and the ends of a flip, a repack and a mode change set their result. A base-die access is checked, then refused for a heap or poison, else
reads home values or writes the bits. A released hart loads, stores, performs atomics and rings its doorbell page. A decoder commits within the space.
Model's choices: where no memory is, the step faults, for want of a rule (log 20); a heap touched in part refuses the host's whole access, and a host
write that would merge with poison is dropped (log 40); how the ways of a decoder interleave, that narrow register writes are dropped, the RES 3 of a
misplaced PKCMD and the RES 1 of a misplaced OWNCMD, and that nothing answers where no decoder holds the address (log 40, from CXL or the model's
own); what an atomic of a hart does beyond its order (log 22); that a repack which may reach a heap ends with RES 3 (log 44); the place of the AER bit
(log 41). -/
def Obligations.Ports : Prop :=
  (∀ d n k, k < n → d + k < dpaBytes → ∃ r ∈ dpaRanges d n, r.1 ≤ 8 * k ∧ 8 * k + 8 ≤ r.1 + r.2.2 ∧ r.2.1 + (8 * k - r.1) = 8 * dpaByte (d + k)) ∧
  (∀ d n, ∀ r ∈ dpaRanges d n, r.1 + r.2.2 ≤ 8 * n ∧ 8 * d + r.1 + r.2.2 ≤ 8 * dpaBytes) ∧
  (∀ (s : State) (p : HostPath) (h d n v : Nat), s.io.mstate.getLsbD 4 = false → s.ms.mem.wf → s.hostReaches p h n d →
    (s.hostInHeap d n → (∃ t, exec (.hostRead p h n) s = .next t ∧ s.HostRefused t (if p = .bar2 then .completerAbort else .poisoned) false) ∧
      ∃ t, exec (.hostWrite p h n v) s = .next t ∧ s.HostRefused t (if p = .bar2 then .dropped else .ok) true) ∧
    (¬ s.hostInHeap d n →
      (s.hostPoisoned d n false → exec (.hostRead p h n) s = .next (s.withReply .poisoned 0)) ∧
      (s.hostPoisoned d n true → exec (.hostWrite p h n v) s = .next (s.withReply .dropped 0)) ∧
      (¬ s.hostPoisoned d n false → ∃ x, exec (.hostRead p h n) s = .next (s.withReply .ok x) ∧ x < 2 ^ (8 * n) ∧
        ∀ k, k < n → byteOf x k = if d + k < dpaBytes then (s.ms.mem.byte (dpaByte (d + k))).toNat else 0) ∧
      (¬ s.hostPoisoned d n true → ∃ t, exec (.hostWrite p h n v) s = .next t ∧ t = { (s.withReply .ok 0) with ms := t.ms } ∧
        (∀ k, k < n → d + k < dpaBytes → (t.ms.mem.byte (dpaByte (d + k))).toNat = byteOf v k) ∧
        ∀ a, (∀ k, k < n → d + k < dpaBytes → a ≠ dpaByte (d + k)) → t.ms.mem.byte a = s.ms.mem.byte a))) ∧
  (∀ (s : State) (p : HostPath) (b n v : Nat), p ≠ .vendorCapability → p ≠ .aerCapability →
    s.io.mstate.getLsbD 4 = true ∨ ((∃ q, p = .cxlMem q) ∧ 0 < n ∧ ∀ d, ¬ s.hostReaches p b n d) →
    exec (.hostRead p b n) s = .next (s.withReply .none 0) ∧ exec (.hostWrite p b n v) s = .next (s.withReply .none 0)) ∧
  (∀ (s : State) (p : HostPath) (word : Nat → Word),
    p = .vendorCapability ∧ word = (fun o => if o = 8 then s.io.mstate else 0) ∨
      p = .aerCapability ∧ word = (fun o => if o = 0 ∧ s.io.aer = true then 0x40000000000000 else 0) ∨
      (∃ q, p = .cxlIo q ∧ s.io.mstate.getLsbD 4 = false ∧ word = pageWord (s.io.doorbell (385 + q.toNat))) →
    ∀ b n, ∃ x, exec (.hostRead p b n) s = .next (s.withReply .ok x) ∧ x < 2 ^ (8 * n) ∧
      ∀ k, k < n → byteOf x k = byteOf (word ((b + k) / 8 * 8)).toNat ((b + k) % 8)) ∧
  (∀ (s : State) (b n v : Nat), exec (.hostWrite .vendorCapability b n v) s = .next (s.withReply .ok 0) ∧
    exec (.hostWrite .aerCapability b n v) s = .next
      (({ s with io := { s.io with aer := s.io.aer && ! (b = 4 && v.testBit 22) } } : State).withReply .ok 0) ∧
    ∀ q, s.io.mstate.getLsbD 4 = false → exec (.hostWrite (.cxlIo q) b n v) s =
      .next ((if n = 8 ∧ b % 8 = 0 ∧ b < 0x1000 then s.pagePut (385 + q.toNat) b (BitVec.ofNat 64 v) else s).withReply .ok 0)) ∧
  (∀ (s : State) (fn b n : Nat), s.io.mstate.getLsbD 4 = false →
    ∃ x, exec (.hostRead (.bar0 fn) b n) s = .next (s.withReply .ok x) ∧ x < 2 ^ (8 * n) ∧ ∀ k, k < n →
      let o := (b + k) / 8 * 8
      let at_ (w : Word) : Prop := byteOf x k = byteOf w.toNat ((b + k) % 8)
      (fn = 0 → ¬ (0x10000 ≤ o ∧ o < 0x20000) → at_ (s.ioWord o)) ∧
      (fn = 0 → ∀ m e, m < s.io.bbcnt.toNat → s.io.bbcnt.toNat ≤ m + 4096 → s.io.ring[s.io.bbcnt.toNat - 1 - m]? = some e →
        o / 16 = 0x1000 + m % 4096 → at_ (if o % 16 = 0 then e.setWidth 64 else (e >>> 64).setWidth 64)) ∧
      (0 < fn → fn ≤ 384 → at_ (if o < 0x1000 then pageWord (s.io.doorbell fn) o else 0)) ∧ (384 < fn → at_ 0)) ∧
  (∀ (s : State) (fn o n v : Nat), s.io.mstate.getLsbD 4 = false → let put (t : State) : Prop := exec (.hostWrite (.bar0 fn) o n v) s = .next (t.withReply .ok 0)
    let w := BitVec.ofNat 64 v
    (n ≠ 8 ∨ o % 8 ≠ 0 ∨ 384 < fn ∨ (0 < fn ∧ 0x1000 ≤ o) → put s) ∧
    (n = 8 → o % 8 = 0 → 0 < fn → fn ≤ 384 → o < 0x1000 → put (s.pagePut fn o w)) ∧
    (n = 8 → fn = 0 → o = 0 → put (s.pagePut 0 0 w)) ∧
    (∀ t, n = 8 → fn = 0 → o = 0x100000 → exec (.owncmdGo w) s = .next t → put t) ∧
    (∀ (t : State) (d : BitVec 2), n = 8 → fn = 0 → o = 0x200000 + d.toNat * 2 ^ 20 → exec (.llccfgWrite d w) s = .next t → put t) ∧
    (∀ (t : State) (x : BitVec 3), n = 8 → fn = 0 → o = 0x800008 + x.toNat * 2 ^ 16 → exec (.pkcmdGo x w) s = .next t → put t) ∧
    (n = 8 → fn = 0 → o % 8 = 0 → o ≠ 0 → o ≠ 0x100000 → ¬ (2 ≤ o / 2 ^ 20 ∧ o / 2 ^ 20 < 6 ∧ o % 2 ^ 20 = 0) →
      ¬ (0x800000 ≤ o ∧ o < 0x880000 ∧ o % 2 ^ 16 = 8) → put (s.ioPut o w))) ∧
  (∀ (s : State) (o : Nat) (v : Word), exec (.registerWindowWrite o v) s = .next (if o % 8 = 0 then s.ioPut o v else s)) ∧
  (∀ (s : State) (v : Word) (x : BitVec 3) (d : BitVec 2), let c := s.ms.owncmd
    exec (.owncmdGo v) s = .next (if c.getLsbD 63 then s else { s with ms := { s.ms with owncmd := mixWord c v 0x903FFFFFFE000000 } }) ∧
    (∀ p, s.ms.pkcmd[x.toNat]? = some p → exec (.pkcmdGo x v) s = .next (if p.getLsbD 63 then s else
      { s with ms := { s.ms with pkcmd := s.ms.pkcmd.setIfInBounds x.toNat (mixWord p v 0x803FFFFFFE0003FF) } })) ∧
    (∀ l, s.ms.llc[d.toNat]? = some l →
      (l.cfg.getLsbD 0 = v.getLsbD 0 ∨ l.cfg.getLsbD 1 = true ∨ s.dieInUse d.toNat → exec (.llccfgWrite d v) s = .next s) ∧
      (l.cfg.getLsbD 0 ≠ v.getLsbD 0 → l.cfg.getLsbD 1 = false → ¬ s.dieInUse d.toNat →
        exec (.llccfgWrite d v) s = .next (s.withLlc d.toNat fun y => { y with cfg := y.cfg ||| 2 })) ∧
      exec (.llcModeChangeDone d) s = .next (if l.cfg.getLsbD 1 then s.withLlc d.toNat fun y => { y with cfg := (l.cfg ^^^ 1) &&& 1 } else s))) ∧
  (∀ (s : State), let c := s.ms.owncmd
    let page := c.toNat / 2 ^ 25 % 2 ^ 29
    let ended (m : MemSys) (res : Word) : State := { s with ms := { m with owncmd := (c &&& 0x1FFFFFFFFFFFFFFF) ||| (res <<< 61) } }
    let exposed := s.ms.pageExposed (page * 2 ^ 25) = true
    (c.getLsbD 63 = false → exec .owncmdFlipDone s = .next s) ∧
    (c.getLsbD 63 = true → (¬ exposed → exec .owncmdFlipDone s = .next (ended s.ms 1)) ∧
      (exposed → (page ∈ s.ms.hostPages ↔ c.getLsbD 60 = true) → exec .owncmdFlipDone s = .next (ended s.ms 2)) ∧
      (exposed → page ∉ s.ms.hostPages → c.getLsbD 60 = true → ∃ t, exec .owncmdFlipDone s = .next t ∧
        t.ms.hostPages = page :: s.ms.hostPages ∧ t.ms.owncmd = c &&& 0x1FFFFFFFFFFFFFFF ∧ (∀ y ∈ t.ms.dirty, y.addr / 2 ^ 22 ≠ page) ∧
        (∀ y, y ∈ t.ms.cached ↔ y ∈ s.ms.cached ∧ y.addr / 2 ^ 22 ≠ page) ∧
        ((∀ y ∈ s.ms.cached, y.addr / 2 ^ 22 ≠ page) → t = ended t.ms 0 ∧ t.ms.mem = s.ms.mem ∧
          ∀ y, y ∈ t.ms.dirty ↔ y ∈ s.ms.dirty ∧ y.addr / 2 ^ 22 ≠ page)) ∧
      (exposed → page ∈ s.ms.hostPages → c.getLsbD 60 = false → ∃ t, exec .owncmdFlipDone s = .next t ∧ t = ended t.ms 0 ∧
        t = { s with ms := { s.ms with owncmd := t.ms.owncmd, hostPages := t.ms.hostPages } } ∧
        ∀ y, y ∈ t.ms.hostPages ↔ y ∈ s.ms.hostPages ∧ y ≠ page))) ∧
  (∀ (ms : MemSys) (page : Nat), ms.pageExposed (page * 2 ^ 25) = true → populated (page * 2 ^ 25) = true ∧ page * 2 ^ 25 < 2 ^ 53 ∧
    ∃ x ∈ ms.hdm.toList, x.committed = true) ∧
  (∀ (s : State) (n : BitVec 3) (c : Word), s.ms.pkcmd[n.toNat]? = some c → let frame := c.toNat / 2 ^ 25 % 2 ^ 29 * 2 ^ 25
    let chunk := c.toNat % 2 ^ 10
    let ended (m : MemSys) (res : Word) : State := { s with ms := { m with
      pkcmd := m.pkcmd.setIfInBounds n.toNat ((c &&& 0x1FFFFFFFFFFFFFFF) ||| (res <<< 61)) } }
    let inside := frame < 2 ^ 43 ∧ frame / 2 ^ 40 = n.toNat ∧ ∀ x ∈ s.ms.repackReach frame chunk, s.inHeap (1024 * x) 1024 = false
    (c.getLsbD 63 = false → exec (.pkcmdRepackDone n) s = .next s) ∧
    (c.getLsbD 63 = true → (¬ inside ∨ s.ms.pkSound frame chunk = false → exec (.pkcmdRepackDone n) s = .next (ended s.ms 3)) ∧
      (inside → s.ms.pkSound frame chunk = true → s.ms.pkEntry frame chunk / 2 ^ 126 % 4 ≠ 3 →
        exec (.pkcmdRepackDone n) s = .next (ended s.ms 2)) ∧
      (inside → s.ms.pkSound frame chunk = true → s.ms.pkEntry frame chunk / 2 ^ 126 % 4 = 3 →
        let f := chunkForm (slices 1024 32 (s.ms.mem.readBits (s.ms.rubble frame chunk) 32768))
        let need := formBlocks f.1 f.2.1
        ((s.ms.pkFree frame).length < need → exec (.pkcmdRepackDone n) s = .next (ended s.ms 1)) ∧
        (need ≤ (s.ms.pkFree frame).length → ∃ t, exec (.pkcmdRepackDone n) s = .next t ∧ t = ended t.ms 0 ∧
          (s.ms.mem.wf → (∀ b, frame ≤ 8 * b ∧ 8 * b < frame + 2 ^ 25 ∨ t.ms.mem.byte b = s.ms.mem.byte b) ∧
            t.ms.mem.readBits (frame + 128 * chunk) 128 = mkEntry f.1 need f.2.1 ((s.ms.pkFree frame).take need) ∧
            t.ms.mem.readBits (frame + 131072) 11 = (s.ms.pkWord frame % 2 ^ 11 - 1) % 2 ^ 11))))) ∧
  (∀ (s : State) (r : DieAccess) (v : Nat), Config.hostBase ≤ r.addr ∨ outside r.addr r.width →
    exec (.baseDieRead r) s = .fault .noSuchAddress ∧ exec (.baseDieWrite r v) s = .fault .noSuchAddress) ∧
  (∀ (s : State) (r : DieAccess) (v : Nat) (wr : Bool), r.addr < Config.hostBase → ¬ outside r.addr r.width → 0 < r.width → s.ms.mem.wf →
    let go : Result := if wr then exec (.baseDieWrite r v) s else exec (.baseDieRead r) s
    ∃ u : State, s.Checked u r wr ∧
    (r.packed = false →
      (s.inHeap r.addr r.width = true → go = .next (u.withReply (.trap .perm) 0)) ∧
      (s.inHeap r.addr r.width = false →
        (u.poisoned r.addr r.width wr = true → go = .next (u.withReply (.trap .page) 0)) ∧
        (u.poisoned r.addr r.width wr = false → ∃ x t, go = .next t ∧ t = { (u.withReply .ok x) with ms := t.ms } ∧
          (wr = false → t.ms = u.ms ∧ x < 2 ^ r.width ∧
            ∀ i, i < r.width → x.testBit i = (s.ms.homeByte ((r.addr + i) / 8)).getLsbD ((r.addr + i) % 8)) ∧
          (wr = true → x = 0 ∧ ∀ b, t.ms.mem.bit b = (writtenBit [.phys r.addr r.width] v b).getD (s.ms.mem.bit b))))) ∧
    (r.packed = true → let page := r.addr / 2 ^ 25 * 2 ^ 25
      let o := r.addr % 2 ^ 25
      let ends (x : Cause) : Prop := go = .next (u.withReply (.trap x) 0)
      let heap := ∃ x ∈ s.ms.packedReach page o r.width wr, s.inHeap (1024 * x) 1024 = true
      let bad := s.ms.readPacked page o r.width = none ∨ ∃ x ∈ u.ms.poison, s.needed r wr x
      (2 ^ 43 ≤ r.addr ∨ 2 ^ 25 < o + r.width → ends .page) ∧
      (r.addr < 2 ^ 43 → o + r.width ≤ 2 ^ 25 → (heap → ends .perm) ∧ (¬ heap → bad → ends .page) ∧
        (¬ heap → ¬ bad →
          (wr = true → go = .next ((u.store none [.packed page o r.width] r.width v).withReply .ok 0)) ∧
          (wr = false → ∃ x, x < 2 ^ r.width ∧ go = .next (u.withReply .ok x) ∧
            (r.addr / 2 ^ 25 ∉ s.ms.tainted → s.ms.readPacked page o r.width = some x)))))) ∧
  (∀ (s : State) (h : BitVec 4) (x : HartAccess), (∀ y, s.io.harts[h.toNat]? = some y → y.released = false) ∨ s.io.mstate.getLsbD 5 = true →
    exec (.applicationCoreAccess h x) s = .next s) ∧
  (∀ (s : State) (h : BitVec 4) (me : Hart) (op : AmoOp) (a n v : Nat) (aq rl : Bool), s.io.harts[h.toNat]? = some me → me.released = true →
    s.io.mstate.getLsbD 5 = false → let go (x : HartAccess) : Result := exec (.applicationCoreAccess h x) s
    let atomic (x : HartAccess) : Prop := x = .amo op a n v aq rl ∨ x = .loadReserved a n aq rl ∨ x = .storeConditional a n v aq rl
    let reads (x : HartAccess) : Prop := x = .load a n ∨ x = .amo op a n v aq rl ∨ x = .loadReserved a n aq rl
    let writes (x : HartAccess) : Prop := x = .store a n v ∨ x = .storeConditional a n v aq rl
    let fits := (n = 4 ∨ n = 8) ∧ a % n = 0
    let page := Config.hartVdev h.toNat
    let onPage := 0x800000000000 ≤ a ∧ a < 0x800000001000
    go .fence = .next (s.withReply .ok 0) ∧
    (onPage → (∃ x, go (.load a n) = .next (s.withReply .ok x) ∧ x < 2 ^ (8 * n) ∧
        ∀ k, k < n → byteOf x k = byteOf (pageWord (s.io.doorbell page) ((a - 0x800000000000 + k) / 8 * 8)).toNat ((a + k) % 8)) ∧
      (n = 8 → a % 8 = 0 → go (.store a n v) = .next ((s.pagePut page (a - 0x800000000000) (BitVec.ofNat 64 v)).withReply .ok 0)) ∧
      (n ≠ 8 ∨ a % 8 ≠ 0 → go (.store a n v) = .next (s.withReply .ok 0))) ∧
    (onPage ∨ ¬ fits → ∀ x, atomic x → go x = .next (s.withReply (.trap .addr) 0)) ∧
    (¬ onPage → ∀ x, x = HartAccess.load a n ∨ x = .store a n v ∨ (fits ∧ atomic x) →
      (outside (8 * a) (8 * n) → go x = .fault .noSuchAddress) ∧
      (¬ outside (8 * a) (8 * n) →
        (s.inHeap (8 * a) (8 * n) = true → go x = .next (s.withReply (.trap .perm) 0)) ∧
        (s.inHeap (8 * a) (8 * n) = false → s.linkDown (8 * a) (8 * n) = true → go x = .next (s.withReply (.trap .linkdown) 0)) ∧
        (s.inHeap (8 * a) (8 * n) = false → s.linkDown (8 * a) (8 * n) = false →
          (reads x ∧ s.poisoned (8 * a) (8 * n) false = true) ∨ (writes x ∧ s.poisoned (8 * a) (8 * n) true = true) →
            go x = .next (s.withReply (.trap .page) 0)))) ∧
    (¬ onPage → ¬ outside (8 * a) (8 * n) → s.inHeap (8 * a) (8 * n) = false → s.linkDown (8 * a) (8 * n) = false → s.ms.mem.wf →
      (s.poisoned (8 * a) (8 * n) false = false → ∃ m, m < 2 ^ (8 * n) ∧ (∀ k, k < n → byteOf m k = (s.ms.mem.byte (a + k)).toNat) ∧
        go (.load a n) = .next (s.withReply .ok m) ∧
        (fits → (∃ t, go (.amo op a n v aq rl) = .next t ∧ s.HartWrote t a n (amoGives op (8 * n) m v).toNat m) ∧
          go (.loadReserved a n aq rl) = .next (({ s with io := { s.io with
            harts := s.io.harts.setIfInBounds h.toNat { me with reserved := some (a, n, s.ms.stamp) } } } : State).withReply .ok m))) ∧
      (s.poisoned (8 * a) (8 * n) true = false → (∃ t, go (.store a n v) = .next t ∧ s.HartWrote t a n v 0) ∧
        (fits → let u : State := { s with io := { s.io with harts := s.io.harts.setIfInBounds h.toNat { me with reserved := none } } }
          let held := ∃ e, me.reserved = some (a, n, e) ∧ ∀ p ∈ s.ms.past, p.stamp ≤ e ∨ p.addr < a ∨ a + n ≤ p.addr
          go (.storeConditional a n v aq rl) = .next (u.withReply .ok 1) ∨
            (held ∧ ∃ t, go (.storeConditional a n v aq rl) = .next t ∧ u.HartWrote t a n v 0))))) ∧
  (∀ (s : State) (p : BitVec 1) (i : BitVec 2) (d : HdmDecoder), (s.io.mstate.getLsbD 4 = true →
      exec (.hdmDecoderCommit p i d) s = .next (s.withReply .none 0)) ∧
    (s.io.mstate.getLsbD 4 = false → let good := (d.ways = 1 ∨ d.ways = 2) ∧ (∃ j, j < 7 ∧ d.granularity = 256 * 2 ^ j) ∧ d.dpa + (d.size + d.ways - 1) / d.ways ≤ dpaBytes
    (good ∨ d.committed = false → exec (.hdmDecoderCommit p i d) s = .next
      (({ s with ms := { s.ms with hdm := s.ms.hdm.setIfInBounds (4 * p.toNat + i.toNat) d } } : State).withReply .ok 0)) ∧
    (¬ good → d.committed = true → exec (.hdmDecoderCommit p i d) s = .next (s.withReply .dropped 0))))

/-- O54. Refresh and alert back-off change no value and only the count of owed refreshes of their bank. A failed flit group is recorded with its link's
number within the die, and the third in a row is fatal (whether a good one came between two failures, and which die a link belongs to, is the model's
choice, log 41); a thermal trip and an uncorrectable error in the management core or the slot table are fatal; a fatal error sets FATAL, reports by
AER, writes its event and raises vector 4, once. A lost CXL link moves every dirty line behind the port into the next free slots, or loses it with
OVF, sets LD, is recorded and raises vector 3; a link that comes up is recorded. A function level reset leaves the device no running task of a live
graph, no contract, region, encoder stream or exposed region. A cold reset clears device memory, keys and black box; a warm reset keeps them; each
gives every other part its reset value (host memory and the model's own counters stand, log 20), MSTATE names the step reached or the reason, and the
application cores are released unless it fails. A measurement is a fixed 512-bit value (free, log 18), and nothing in BOOTFAIL. -/
def Obligations.ModuleEvents : Prop :=
  (∀ (s : State) (n : BitVec 3) (k : Nat), let owed := s.ms.owed n.toNat k
    (∃ t, exec (.refresh n k) s = .next t ∧ t = { s with ms := { s.ms with postponed := t.ms.postponed } } ∧
      t.ms.owed n.toNat k ≤ owed + 1 ∧ (Config.postponeLimit ≤ owed → t.ms.owed n.toNat k ≤ owed) ∧
      ∀ m j, m ≠ n.toNat ∨ j ≠ k → t.ms.owed m j = s.ms.owed m j) ∧
    (owed < Config.postponeLimit → exec (.alertBackoff n k) s = .next s) ∧
    (Config.postponeLimit ≤ owed → ∃ t, exec (.alertBackoff n k) s = .next t ∧ t = { s with ms := { s.ms with postponed := t.ms.postponed } } ∧
      t.ms.owed n.toNat k = 0 ∧ ∀ m j, m ≠ n.toNat ∨ j ≠ k → t.ms.owed m j = s.ms.owed m j)) ∧
  (∀ (s : State) (l : BitVec 5) (before : Nat), s.ms.authFails[l.toNat]? = some before →
    ∃ (n : Nat) (u t : State), (n = before + 1 ∨ n = 1) ∧ exec (.linkAuthFailure l) s = .next t ∧
      u = { s with ms := { s.ms with authFails := s.ms.authFails.setIfInBounds l.toNat n }, io := { s.io with bbcnt := u.io.bbcnt, ring := u.io.ring } } ∧
      s.io.Recorded u.io 6 ∧ (∃ e : BitVec 128, u.io.ring.head? = some e ∧ (e.extractLsb' 64 12).toNat = l.toNat % 8 ∧
        (e.extractLsb' 76 4).toNat = l.toNat / 8) ∧ (n < 3 → t = u) ∧ (3 ≤ n → u.Fails t)) ∧
  (∀ (s : State) (x : FatalSource), ∃ t, exec (.thermalTrip x) s = .next t ∧ s.Fails t) ∧
  (∀ (s : State) (p : BitVec 1), (s.ms.linkUp[p.toNat]? = some false → exec (.cxlLinkLoss p) s = .next s) ∧
    (s.ms.linkUp[p.toNat]? = some true → s.ms.mem.wf → ∃ (t : State) (order : List Nat), exec (.cxlLinkLoss p) s = .next t ∧
      let n := s.ms.qctl.toNat / 2 ^ 16 % 2 ^ 16
      let cap := s.ms.qctl.toNat % 2 ^ 16
      order.Nodup ∧ (∀ l, l ∈ order ↔ s.ms.behindPort p.toNat l) ∧
      (∀ (j : Nat) (l : Nat), order[j]? = some l → n + j < cap → populated (s.ms.slotAt (n + j)) = true → s.ms.slotAt (n + j) < Config.hostBase →
        t.ms.mem.readBits (s.ms.slotAt (n + j)) 2048 = slotImage l (s.ms.mem.readBits (1024 * l) 1024)) ∧
      ((s.ms.dirty.map Dirty.addr).Nodup → ∀ (l : Nat) (b : Nat), l ∈ order → b / 128 = l → t.ms.mem.byte b = s.ms.homeByte b) ∧
      (∀ y ∈ t.ms.dirty, ¬ s.ms.behindPort p.toNat (y.addr / 128)) ∧
      t.ms.qctl.getLsbD 63 = true ∧ t.ms.qctl.toNat % 2 ^ 16 = cap ∧
      t.ms.qctl.toNat / 2 ^ 16 % 2 ^ 16 = max n (min cap (n + order.length)) ∧
      (t.ms.qctl.getLsbD 62 = true ↔ s.ms.qctl.getLsbD 62 = true ∨ (order ≠ [] ∧ cap < n + order.length)) ∧
      t.ms.linkUp = s.ms.linkUp.setIfInBounds p.toNat false ∧
      t.ms.lost = (if s.ms.linkUp[1 - p.toNat]? = some true then s.ms.lost.setIfInBounds p.toNat true else Vector.replicate 2 true) ∧
      s.io.Recorded t.io 6 ∧ (∃ fn, t.io.msix = s.io.msix ++ [(fn, 3)]) ∧
      t = { s with ms := t.ms, io := { s.io with bbcnt := t.io.bbcnt, ring := t.io.ring, msix := t.io.msix } })) ∧
  (∀ (s : State) (p : BitVec 1), (s.ms.linkUp[p.toNat]? = some true → exec (.cxlLinkUp p) s = .next s) ∧
    (s.ms.linkUp[p.toNat]? = some false → ∃ t, exec (.cxlLinkUp p) s = .next t ∧ s.io.Recorded t.io 6 ∧
      t = { s with ms := { s.ms with linkUp := s.ms.linkUp.setIfInBounds p.toNat true }, io := { s.io with bbcnt := t.io.bbcnt, ring := t.io.ring } })) ∧
  (∀ (s : State) (n : Nat), (n = 0 ∨ 384 < n → exec (.functionLevelReset n) s = .next s) ∧
    (0 < n → n ≤ 384 → ∃ t, exec (.functionLevelReset n) s = .next t ∧
      (∀ g ∈ s.sched.graphs, g.live = true → g.vdev = n →
        (∀ x ∈ t.sched.tasks, x.key.vdev = n → x.key.graph = g.gid → x.state = .ended) ∧
        ∀ x ∈ t.sched.slots, bindValid x.2.run = true → keyOf (field x.2.run 40 0) ≠
          { vdev := n, graph := g.gid, record := (keyOf (field x.2.run 40 0)).record }) ∧
      (∀ c ∈ t.sched.contracts, c.vdev ≠ n) ∧ (∀ x ∈ t.io.encStreams, x.vdev ≠ n) ∧ (∀ x ∈ t.io.exposed, x.vdev ≠ n) ∧
      (∀ r, r < 64 → regAsid (t.ver.region r) = (s.sched.settings n).root.toNat / 2 ^ 54 → regSt (t.ver.region r) = 0) ∧
      (∀ x, x ∈ t.io.exposed ↔ x ∈ s.io.exposed ∧ x.vdev ≠ n) ∧ (∀ c ∈ s.sched.contracts, c.vdev ≠ n →
        (∀ y ∈ s.sched.contracts, y.number = c.number → y.vdev = c.vdev) → ∃ y ∈ t.sched.contracts, y.number = c.number))) ∧
  (∀ s : State, ∃ t, exec .coldReset s = .next t ∧
    t = { State.reset with ms := t.ms, io := t.io, agenda := s.agenda, turn := s.turn, fresh := s.fresh } ∧
    t.ms = { MemSys.reset with mem := t.ms.mem, keyGen := s.ms.keyGen + 1, stamp := s.ms.stamp } ∧
    (∀ b, 8 * b < Config.hostBase → t.ms.mem.byte b = 0) ∧
    ((s.ms.dirty.map Dirty.addr).Nodup → s.ms.mem.wf → ∀ b, Config.hostBase ≤ 8 * b → t.ms.mem.byte b = s.ms.homeByte b) ∧
    t.io = { Io.reset with mstate := t.io.mstate, bbcnt := 1, ring := t.io.ring, images := s.io.images, trains := s.io.trains, harts := t.io.harts } ∧
    (∀ (i : Nat) (x : Hart), t.io.harts[i]? = some x → (x.released = true ↔ t.io.mstate.getLsbD 4 = false) ∧ x.reserved = none) ∧
    Io.reset.Recorded t.io 12 ∧
    t.io.mstate = if s.io.trains then broughtUp (imagesReason s.io.images) 3 else broughtUp 4 1) ∧
  (∀ s : State, ∃ t, exec .warmReset s = .next t ∧
    t = { State.reset with ms := t.ms, io := t.io, agenda := s.agenda, turn := s.turn, fresh := s.fresh } ∧
    t.ms = { MemSys.reset with mem := s.ms.mem, cached := s.ms.cached, tainted := s.ms.tainted, poison := s.ms.poison, postponed := s.ms.postponed
                               keyGen := s.ms.keyGen, stamp := s.ms.stamp } ∧
    t.io = { Io.reset with mstate := broughtUp (imagesReason s.io.images) 3, bbcnt := s.io.bbcnt + 1, ring := t.io.ring, images := s.io.images, trains := s.io.trains,
                           harts := t.io.harts } ∧
    (∀ (i : Nat) (x : Hart), t.io.harts[i]? = some x → (x.released = true ↔ t.io.mstate.getLsbD 4 = false) ∧ x.reserved = none) ∧
    s.io.Recorded t.io 12) ∧
  (∀ i : Nat, ∃ x, x < 2 ^ 512 ∧ ∀ s : State,
    exec (.spdmGetMeasurements i) s = .next (if s.io.mstate.getLsbD 4 ∨ 5 ≤ i then s.withReply .none 0 else s.withReply .ok x))

/-- O55. NPOST of a bad A is ILLOP; the lowest reason of R418 comes back with bit 63 set and nothing enqueued; a failing extent check traps; with 256
requests open it waits; else one request with the registers' operands is added and g[D] is its number. NWAIT returns the counter once it is at least
g[B]. ENCJ returns a reason, traps on an extent, waits on 64 jobs, or adds one job. A completed request leaves the queue; a READ's bits are placed
page by page, and a page that is not mapped makes it fail; the counter grows by 1, or by 2^32 with an event. A received packet is placed whole or not
at all, a request with a byte outside its region not at all, and the packet that completes a request adds to the receive counter. A job starts when
its input version exists or faults, and waits else; its end writes a unit or a failure, creates the output version and removes the job, waits for heap
space with its unit written, or fails the stream. Choices the spec leaves open (which bits a remote READ brings, a unit, job numbers) are free values
(log 6, 17, 19); that a counter across a granule traps ADDR in NPOST, and what a packet of no request's bytes does, are the model's reading (log 39,
19). -/
def Obligations.NetworkAndEncoders : Prop :=
  (∀ (s : State) (d a : BitVec 5), a = 0 ∨ 26 < a.toNat → exec (.npost d a) s = .next s.illop) ∧
  (∀ (s : State) (d a : BitVec 5) (me : Task), a ≠ 0 → a.toNat ≤ 26 → s.task = some me → let w (i : Nat) : Word := s.g (a + BitVec.ofNat 5 i)
    let read := (w 0).toNat % 2 ^ 4 = 2
    let buf := checkExtent s.extents (w 1) (w 2).toNat { kinds := [0, 1], rd := decide (¬ read), wr := decide read }
    let ctr := checkExtent s.extents (w 4) 64 .atomic
    (∀ r, s.refusesPost w r → (∀ q, q < r → ¬ s.refusesPost w q) →
      ∃ t, exec (.npost d a) s = .next t ∧ s.WritesG t 32 d (BitVec.ofNat 64 (2 ^ 63 + r))) ∧
    ((∀ r, ¬ s.refusesPost w r) →
      (∀ tr, buf = .error tr → exec (.npost d a) s = .next (s.trap tr)) ∧
      (∀ b tr, buf = .ok b → ctr = .error tr → exec (.npost d a) s = .next (s.trap tr)) ∧
      (∀ bk ba ck ca, buf = .ok (bk, ba) → ctr = .ok (ck, ca) →
        let granule := if ck = 0 then 256 else 512
        (granule < ca % granule + 64 → exec (.npost d a) s = .next (s.trap ⟨.addr, w 4, 0, 0⟩)) ∧
        (ca % granule + 64 ≤ granule → (256 ≤ me.pendingNet → ∃ t, exec (.npost d a) s = .next t ∧ s.WaitsIn t .npost) ∧
          (me.pendingNet < 256 → ∃ (u t : State) (r : NetReq), exec (.npost d a) s = .next t ∧ u.WritesG t 32 d (BitVec.ofNat 64 me.posted) ∧
            u = { s with io := { s.io with requests := s.io.requests ++ [r] }, sched := s.sched.mapTask s.taskKey fun x =>
              { x with pendingNet := x.pendingNet + 1, posted := x.posted + 1 } } ∧
            r.task = s.taskKey ∧ r.number = me.posted ∧ (r.read = true ↔ read) ∧ r.peer = (w 0).toNat / 2 ^ 8 % 2 ^ 16 ∧
            (r.bufLocal = true ↔ bk ≠ 0) ∧ r.buf = ba ∧ r.len = (w 2).toNat ∧ r.remote = w 3 ∧ (r.ctrLocal = true ↔ ck ≠ 0) ∧ r.ctr = ca ∧
            r.root = s.via.root ∧ r.assured = s.via.assured ∧ r.amount = w 5))))) ∧
  (∀ (s : State) (d a b : BitVec 5),
    (∀ tr, s.resolve s.via (s.g a) 64 .watch = .error tr → exec (.nwait d a b) s = .next (s.trap tr)) ∧
    (∀ segs, s.resolve s.via (s.g a) 64 .watch = .ok segs →
      ((s.g b).toNat ≤ s.readSegs segs → ∃ t, exec (.nwait d a b) s = .next t ∧ s.WritesG t 32 d (BitVec.ofNat 64 (s.readSegs segs))) ∧
      (s.readSegs segs < (s.g b).toNat → ∃ t, exec (.nwait d a b) s = .next t ∧ s.WaitsIn t (.nwait d a b)))) ∧
  (∀ (s : State) (d a : BitVec 5), (∀ tr, s.resolve s.via (s.g a) 512 .load = .error tr → exec (.encj d a) s = .next (s.trap tr)) ∧
    (∀ segs, s.resolve s.via (s.g a) 512 .load = .ok segs → ∀ img : BitVec 512, img = BitVec.ofNat 512 (s.readSegs segs) →
      let mine (x : EncStream) : Prop := x.number = img.toNat % 2 ^ 10 ∧ x.vdev = s.taskKey.vdev
      ((∀ x ∈ s.io.encStreams, ¬ mine x) ∨ img.toNat / 2 ^ 11 % 2 ^ 53 ≠ 0 →
        ∃ t, exec (.encj d a) s = .next t ∧ s.WritesG t 32 d (BitVec.ofNat 64 (2 ^ 63 + 1))) ∧
      (img.toNat / 2 ^ 11 % 2 ^ 53 = 0 → ∀ xs x ys, s.io.encStreams = xs ++ x :: ys → mine x → (∀ y ∈ xs, ¬ mine y) →
        let e := s.extents
        let f (i : Nat) : Word := jobField img i
        let checks : List (Except Trap (Nat × Nat)) := [checkExtent e (f 1) 64 .verLoad,
          checkExtent e (f 3) (frameBits x) { kinds := [0], rd := true, wr := false },
          if (f 4).toNat % 2 ^ 58 % 8 ≠ 0 then .error ⟨.addr, f 4, 0, 0⟩ else checkExtent e (f 4) (f 5).toNat { kinds := [0], rd := false, wr := true },
          checkExtent e (f 6) 64 .verStore]
        (∀ (i : Nat) (tr : Trap), checks[i]? = some (.error tr) → (∀ j, j < i → ∃ y, checks[j]? = some (.ok y)) →
          exec (.encj d a) s = .next (s.trap tr)) ∧
        ((∀ c ∈ checks, ∃ y, c = .ok y) → let held := (s.io.encJobs.filter fun j => j.encoder = x.encoder).length
          (64 ≤ held → ∃ t, exec (.encj d a) s = .next t ∧ s.WaitsIn t .encj) ∧
          (held < 64 → ∃ (n : Nat) (t : State), n < 2 ^ 63 ∧ exec (.encj d a) s = .next t ∧
            (x.failed = true → s.WritesG t 32 d (BitVec.ofNat 64 n)) ∧
            (x.failed = false → ∃ (u : State) (j : EncJob), u.WritesG t 32 d (BitVec.ofNat 64 n) ∧
              u = { s with io := { s.io with encJobs := s.io.encJobs ++ [j], nextJob := s.io.nextJob + 1 } } ∧ j.id = s.io.nextJob ∧
              j.stream = x.number ∧ j.encoder = x.encoder ∧ j.image = img ∧ j.ext = e ∧
              j.root = s.via.root ∧ j.assured = s.via.assured ∧ j.started = false ∧ j.bad = false)))))) ∧
  (∀ (s : State) (i : Nat) (ok : Bool), (s.io.mstate.getLsbD 5 = true ∨ s.io.requests[i]? = none → exec (.netRequestComplete i ok) s = .next s) ∧
    (∀ r, s.io.mstate.getLsbD 5 = false → s.io.requests[i]? = some r → ∃ (b u t : State) (good : Bool), exec (.netRequestComplete i ok) s = .next t ∧
        let q : State := { s with io := { s.io with requests := s.io.requests.eraseIdx i }, sched := s.sched.mapTask r.task fun x =>
          { x with pendingNet := x.pendingNet - 1 } }
        let all := 2 ^ r.len - 1
        let fills (x mask : Nat) : State → Bool → Prop := FillsPages (engineVia r.root r.assured) r.buf x mask (pageParts r.buf r.len (r.len / 2 ^ 25 + 2) 0) q
        (r.read = false → b = q ∧ (good = true ↔ ok = true ∧ q.spotOf r r.bufLocal r.buf r.len .engineRead ≠ none)) ∧
        (r.read = true → r.bufLocal = true → good = ok ∧ ∃ p x mask, q.spotOf r true r.buf r.len .engineWrite = some p ∧
          b = q.spotWrite r.buf r.len x mask p ∧ (good = true → mask = all)) ∧
        (r.read = true → r.bufLocal = false → ∃ x mask whole, fills x mask b whole ∧ (good = true → ok = true ∧ mask = all ∧ whole = true) ∧
          (good = false → ok = false ∨ ∃ v, fills x all v false)) ∧
        (good = true → u = b) ∧ (good = false → b.OneEvent u) ∧
        let ctr := u.spotOf r r.ctrLocal r.ctr 64 .engineAtomic
        (ctr = none → t = u) ∧
        (∀ p, ctr = some p → t = u.spotWrite r.ctr 64 (u.spotRead r.ctr 64 p + if good then 1 else 2 ^ 32) (2 ^ 64 - 1) p))) ∧
  (∀ (s : State) (p : Packet), let mine (x : Exposed) : Prop := x.vdev = p.vdev ∧ x.key = p.key
    let via := engineVia (s.sched.settings p.vdev).root (s.sched.settings p.vdev).assured
    (s.io.mstate.getLsbD 5 = true ∨ (∀ x ∈ s.io.exposed, ¬ mine x) → exec (.netPacketReceive p) s = .next s) ∧
    (s.io.mstate.getLsbD 5 = false → ∀ xs x ys, s.io.exposed = xs ++ x :: ys → mine x → (∀ y ∈ xs, ¬ mine y) →
      let at_ := s.engineSegs via (x.base + 8 * p.offset) (8 * p.bytes) .engineWrite
      let y := s.io.arrived p
      let stands (z : Nat × Nat) : Prop := p.offset < z.1 + z.2 ∧ z.1 < p.offset + p.bytes
      let refused := x.write = false ∨ x.len < 8 * (p.first + p.total) ∨ p.bytes = 0 ∨ p.offset < p.first ∨
        p.first + p.total < p.offset + p.bytes ∨ ∃ z ∈ y.placed, stands z
      let put (t : State) (n : Incoming) : State := { t with io := t.io.setArrived n }
      (refused → exec (.netPacketReceive p) s = .next s) ∧
      (¬ refused → (at_ = none → exec (.netPacketReceive p) s = .next (put s { y with bad := true })) ∧
        (∀ g, at_ = some g → let u := s.store none g (8 * p.bytes) p.value
          let z := { y with placed := (p.offset, p.bytes) :: y.placed }
          let have_ := (z.placed.map (·.2)).sum
          (have_ < p.total → exec (.netPacketReceive p) s = .next (put u z)) ∧
          (p.total ≤ have_ → let v : State := { u with io := { u.io with
              incoming := u.io.incoming.filter fun o => ¬ (o.vdev = p.vdev ∧ o.key = p.key ∧ o.request = p.request) } }
            (y.bad = true ∨ v.engineSegs via x.counter 64 .engineAtomic = none → exec (.netPacketReceive p) s = .next v) ∧
            (∀ c, y.bad = false → v.engineSegs via x.counter 64 .engineAtomic = some c →
              exec (.netPacketReceive p) s = .next (v.store none c 64 (v.readSegs c + p.amount.toNat)))))))) ∧
  (∀ (s : State) (e : Nat), (s.io.mstate.getLsbD 5 = true ∨ (∀ j ∈ s.io.encJobs, j.encoder ≠ e) ∨ (∃ j, s.io.Next e j ∧ j.started = true) →
      exec (.encJobStart e) s = .next s) ∧
    (s.io.mstate.getLsbD 5 = false → (s.io.encJobs.map EncJob.id).Nodup → (∃ j ∈ s.io.encJobs, j.encoder = e) →
      (∀ j, s.io.Next e j → j.started = false) → ∃ (j : EncJob) (t : State), s.io.Next e j ∧ exec (.encJobStart e) s = .next t ∧
        let become (y : EncJob) : State := { s with io := { s.io with encJobs := s.io.encJobs.map fun x => if x.id = j.id then y else x } }
        let found := s.lookUp j.via (jobField j.image 1) (jobField j.image 2)
        (∀ v, found = .value v → t = become { j with started := true }) ∧
        (∀ tr, found = .bad tr → t = become { j with started := true, bad := true }) ∧
        (∀ n x, found = .missing n x → t = { s with ver := t.ver } ∧ ∃ y ∈ t.ver.waits, y.who = .encoder j.id))) ∧
  (∀ (s : State) (e : Nat), (s.io.mstate.getLsbD 5 = true ∨ (∀ j ∈ s.io.encJobs, ¬ (j.encoder = e ∧ j.started = true)) →
      exec (.encJobComplete e) s = .next s) ∧
    (s.io.mstate.getLsbD 5 = false → ∀ xs j ys zs x rest, s.io.encJobs = xs ++ j :: ys → j.encoder = e → j.started = true →
      (∀ y ∈ xs, ¬ (y.encoder = e ∧ y.started = true)) → s.io.encStreams = zs ++ x :: rest → x.number = j.stream → (∀ y ∈ zs, y.number ≠ j.stream) →
      ∃ (u t : State) (value : Nat), exec (.encJobComplete e) s = .next t ∧ s.Encodes u j x value ∧
        let v := jobField j.image 7
        let check := u.storeCheck j.via (jobField j.image 6) v
        (∀ tr, check = .error tr → t.io.bbcnt = u.io.bbcnt + 1 ∧ (∀ y ∈ t.io.encStreams, y.number = j.stream → y.failed = true) ∧
          (∀ y ∈ t.io.encJobs, y.stream ≠ j.stream) ∧ t.ms = u.ms ∧ t.ver.versions = s.ver.versions) ∧
        (∀ n w, check = .ok (n, w, true) → t = { u with ver := t.ver, io := { u.io with encJobs := u.io.encJobs.map fun y =>
              if y.id = j.id then { y with written := some value } else y } } ∧ t.ver.versions = s.ver.versions ∧
          ∃ y ∈ t.ver.heapWaits, y.who = .encoder j.id) ∧
        (∀ n w, check = .ok (n, w, false) → s.ver.Creates t.ver n w v.toNat (BitVec.ofNat 64 value) ∧
          ((s.ver.waiters fun y => y.region = n && ((y.word = w && y.number = v.toNat) || ! y.entered)) = [] → t.ms = u.ms) ∧
          t.io.encJobs = s.io.encJobs.filter fun y => y.id ≠ j.id)))

/-- O56. Where the next turn is a running sequencer's, with no replay, stop or owed frame, and the word or parcel at its pc, or the one its repeat frame
gives, decodes to an instruction it accepts, with no hold by the scoreboard and no source short of its latency, the step is exec of that instruction,
once the cycles until it have passed and what its chained loads wait for has come in, followed by the scoreboard's note of it and the passing of time
alone; a fault of exec is the step's. The next instruction of the sequencer issues no earlier than 1 + W cycles later, the distances grow by 1 + W,
and a result's latency is the table's; under unchecked issue a source short of it reads as old or new. A word that it does not accept or that is no
instruction is ILLOP, a failed fetch traps: both pages of a word are translated before either's permission, EX, is tested, and TVAL names the parcel
that fails (ADDR for a second parcel at 2^58 is the model's choice, log 38); a source short of its latency is WAITSHORT under checked issue (an
illegal encoding goes first, log 10), and the scoreboard's hold makes it wait while the oldest in flight completes and shows its flags; until then
FFLAGS lacks what an instruction in flight raised (R164, log 47). An event of the agenda is exec of it; a stream turn is exec of the command at SPC
(which agent moves is the model's choice, log 2). With nobody to move, time passes. -/
def Obligations.StepRunsInstruction : Prop :=
  (∀ (s u : State) (w : BitVec 32) (len : Nat) (i : Instr), s.Issues u w len → decode (natToBytes w.toNat (len / 8)) = .ok (i, []) →
    accepts u.cur w len = true → u.held w len (u.issueOperands w len) = false → u.earlySources w len = [] →
    let v := if u.core.ctl.mode.getLsbD 0 then u else u.withSeq { u.seq with view := [] }
    (∀ t, exec i v = .next t → ∃ x, step s = .next x ∧ v.Passed t x w len) ∧ (∀ f, exec i v = .fault f → step s = .fault f)) ∧
  (∀ (s u : State) (w : BitVec 32) (len : Nat), s.Issues u w len →
    (accepts u.cur w len = false ∨ (∃ e, decode (natToBytes w.toNat (len / 8)) = .error e) → ∃ x, step s = .next x ∧ u.illop.Later x) ∧
    (∀ i, accepts u.cur w len = true → decode (natToBytes w.toNat (len / 8)) = .ok (i, []) →
      (u.held w len (u.issueOperands w len) = true → ∃ x, step s = .next x ∧
        let d := u.oldestDone
        (d.withSeq { d.seq with wait := if u.behindChain then some .held else none }).Later x) ∧
      (∀ p rest, u.held w len (u.issueOperands w len) = false → u.core.ctl.mode.getLsbD 0 = true → u.earlySources w len = p :: rest →
        let early := p :: rest
        (u.illegal early (exec i) = false → ∃ x, step s = .next x ∧
          (u.trap ⟨.waitshort, BitVec.ofNat 64 (p.reg + 32 * p.cls.code + 256 * ((p.lat - p.dist) % 256)), 0, 0⟩).Later x) ∧
        (u.illegal early (exec i) = true → ∀ t, exec i u = .next t → ∃ x, step s = .next x ∧ u.Passed t x w len)) ∧
      (u.held w len (u.issueOperands w len) = false → u.core.ctl.mode.getLsbD 0 = false → let early := u.earlySources w len
        ∃ vs : List Seen, vs.length = early.length ∧ (∀ (n : Nat) p y, early[n]? = some p → vs[n]? = some y →
            y.cls = p.cls ∧ y.reg = p.reg ∧ u.EarlyValue p y.value) ∧ let v := u.withSeq { u.seq with view := vs }
          (∀ t, exec i v = .next t → ∃ x, step s = .next x ∧ v.Passed t x w len) ∧ ∀ f, exec i v = .fault f → step s = .fault f))) ∧
  (∀ (vt : Word) (w : BitVec 32), (operands vt w).lat = fixedLatency vt.toNat w.toNat) ∧
  (∀ (s : State) (va : BitVec 58), let a := va.toNat
    let at_ (n : Nat) : Option (Nat × Nat) := s.page s.via n 16 false
    let fails (c : Cause) (n : Nat) : Prop := s.fetchAt va = .error ⟨c, BitVec.ofNat 64 n, 0, 0⟩
    let bad (e pa : Nat) : Option Cause := if e / 8 % 2 = 0 then some .perm else
      s.permit s.via { kinds := [0], rd := false, wr := false } 0 e pa 16
    let word (e pa : Nat) : Nat := s.fetchSeg (pageSeg e pa 16)
    (∀ x n, s.ms.past = [] → s.fetchSeg (.phys x n) = s.ms.mem.readBits x n) ∧
    (at_ a = none → ∃ c, s.PageFails s.via.root a c ∧ fails c a) ∧
    (∀ e pa, at_ a = some (e, pa) →
      (word e pa % 2 = 0 → (∀ c, bad e pa = some c → fails c a) ∧
        (bad e pa = none → s.fetchAt va = .ok (BitVec.ofNat 32 (word e pa), 16))) ∧
      (word e pa % 2 = 1 → (2 ^ 58 < a + 32 → fails .addr a) ∧ (a + 32 ≤ 2 ^ 58 →
        (at_ (a + 16) = none → ∃ c, s.PageFails s.via.root (a + 16) c ∧ fails c (a + 16)) ∧
        ∀ e2 pa2, at_ (a + 16) = some (e2, pa2) → (∀ c, bad e pa = some c → fails c a) ∧
          (bad e pa = none → (∀ c, bad e2 pa2 = some c → fails c (a + 16)) ∧
            (bad e2 pa2 = none → s.fetchAt va = .ok (BitVec.ofNat 32 (word e pa + 2 ^ 16 * word e2 pa2), 32))))))) ∧
  (∀ (s s0 : State) (c : Nat) (q : SeqId), s.nextAgent = some (.seq c q, s0) → c < 224 → let v := s0.focus c q
    (v.seq.running = false ∨ v.io.mstate.getLsbD 5 = true → ∃ x, step s = .next x ∧ v.Later x) ∧
    let u := (v.elapse v.turnCycles).chains
    (∀ tr, v.seq.running = true → v.io.mstate.getLsbD 5 = false → (v.sched.slot v.coreNo).dcmd = 0 → (u.seq.wait = none ∨ u.seq.wait = some .held) →
      u.seq.replay = [] → u.seq.owed.frame = false → u.seq.frame = none → u.fetchAt u.seq.pc = .error tr →
      ∃ x, step s = .next x ∧ (u.trap tr).Later x)) ∧
  (∀ (s s0 : State) (i : Instr), s.nextAgent = some (.event i, s0) → encode i = [] → encodeCommand i = none →
    (s0.io.mstate.getLsbD 5 = false ∨ outlivesFatal i = true → (∀ t, exec i s0 = .next t → ∃ x, step s = .next x ∧ t.Later x) ∧
      ∀ f, exec i s0 = .fault f → step s = .fault f) ∧
    (s0.io.mstate.getLsbD 5 = true → outlivesFatal i = false → ∃ x, step s = .next x ∧ s0.Later x)) ∧
  (∀ (s s0 : State) (pid : Nat) (x : Ctx), s.nextAgent = some (.stream pid, s0) → let v : State := { s0 with str := { s0.str with focus := pid } }
    v.prog = some x → x.waiting = false → x.stalled = false → x.space = none → x.skip = 0 → v.io.mstate.getLsbD 5 = false →
    let u := (v.sched.coreOf x.task).elim v fun n => v.focus n v.cur
    ∀ g i, u.reach x x.spc 0 64 { kinds := [0], rd := true, wr := false } = .segs g → decodeCommand (BitVec.ofNat 64 (u.readSegs g)) = .ok i →
      ∀ t, exec i { u with str := { u.str with word := BitVec.ofNat 64 (u.readSegs g) } } = .next t → ∃ y, step s = .next y ∧ t.Later y) ∧
  (∀ s : State, (∀ a rest, s.agenda = a :: rest → s.nextAgent = some (a, { s with agenda := rest })) ∧
    (s.nextAgent = none → ∃ x, step s = .next x ∧ s.Later x))

/-- O57. Words written out from the spec's encodings, one or more for each family of majors (the extent operations, CTL, the loops, the atomics, the
versioned operations, the vector stores, group C of major 0x22 and the stream commands among them), decode to the instructions they stand for, with
their operands. 0xFFFFFFFF and the zero parcel are refused; so are ETAG with a reserved bit set, words of TEND's and NPOST's majors with a reserved
function, SDESC of descriptor 8, and a stream command with a reserved SOP. -/
def Obligations.DecodeWords : Prop :=
  decode32 0x04000383 = .ok (.addi 7 0 64 0) ∧ decode32 0x40442181 = .ok (.mul 3 2 2 1) ∧ decode32 0x820A4201 = .ok (.slli 4 4 37 0) ∧
  decode32 0x0200028D = .ok (.limm 5 0x200 0 0) ∧ decode32 0x7E0E1191 = .ok (.ld 3 1 7 0 63 0) ∧ decode32 0x7F005191 = .ok (.ld 3 5 0 0 63 4) ∧
  decode32 0x04083293 = .ok (.st 5 3 4 2 0) ∧ decode32 0xFE402E19 = .ok (.bne 2 0 0xFFC) ∧ decode32 0x3680301F = .ok (.rpt 3 2 3) ∧
  decode32 0x02005031 = .ok (.setvt 0 5 0) ∧ decode32 0x100830B3 = .ok (.vlds 1 3 4 0 0) ∧ decode32 0x00C210BB = .ok (.vaddVi 1 1 0 3 1) ∧
  decode32 0x3018823D = .ok (.vmaccVv 4 8 12 0 0) ∧ decode32 0x42200449 = .ok (.vfmaVs 8 0 16 1 0) ∧ decode32 0xE02A0A47 = .ok (.vfcvt4 20 0 21 0) ∧
  decode32 0x7028044B = .ok (.vsmax 8 0 20 0 0) ∧ decode32 0x000620CD = .ok (.kand 1 2 3 0) ∧ decode32 0x00143059 = .ok (.strm 3 10 0) ∧
  decode32 0x9022A02F = .ok (.barrel 10 17) ∧ decode32 0x1400A061 = .ok (.mlda 10 0 1) ∧ decode32 0x300001E1 = .ok (.mma 3) ∧
  decode32 0x4000006D = .ok .tend ∧ decode32 0x0000A36F = .ok (.npost 6 10) ∧ decode32 0x1008336F = .ok (.nwait 6 3 4) ∧
  decode32 0x200053EF = .ok (.encj 7 5) ∧
  decode32 0x00067197 = .ok (.etag 3 7 3 0) ∧ decode32 0x0A0A3217 = .ok (.extn 4 3 5 1 0) ∧ decode32 0x02200329 = .ok (.ctlr 6 0x030) ∧
  decode32 0x000806A9 = .ok (.ctlr 13 4) ∧ decode32 0x100C019F = .ok (.loopi 6 3) ∧ decode32 0x00C8332D = .ok (.amo 6 3 4 0 3) ∧
  decode32 0x10C8332D = .ok (.cas 6 3 4 3) ∧ decode32 0x2248342D = .ok (.vamo 8 3 4 1 1) ∧ decode32 0x3200312D = .ok (.faas 2 3 1) ∧
  decode32 0x08083351 = .ok (.vnld 6 3 4 1 0) ∧ decode32 0x0C0034D3 = .ok (.vnqry 9 3 3) ∧ decode32 0x10182053 = .ok (.vndrop 2 12) ∧
  decode32 0x100830B5 = .ok (.vsts 1 3 4 0 0) ∧ decode32 0xA00A3145 = .ok (.vcmpVi 2 3 2 0 0 5) ∧
  decodeCommand 0x0408000000000000 = .ok (.sdesc 0 2 0) ∧
  decode32 0xFFFFFFFF = .error .illegalMajor ∧ decode16 0 = .error .reservedCompact ∧
  decode32 0x02067197 = .error .unassigned ∧ decode32 0x5000006D = .error .unassigned ∧ decode32 0x3000A36F = .error .unassigned ∧
  decodeCommand 0x0608000000000000 = .error .noSlot ∧ decodeCommand 0xFFFFFFFFFFFFFFFF = .error .reservedCommand ∧
  (∀ b1 b0 : Byte, b0.getLsbD 0 = false → ∀ rest, decode (b0 :: b1 :: rest) = match decode16 (b1 ++ b0) with
    | .ok i => .ok (i, rest)
    | .error e => .error e)

/-- O58. For every well-formed instruction with an encoding, decoding its bytes, followed by any others, gives the instruction and leaves those others;
for every well-formed stream command, decoding its 64-bit word gives the command. No two well-formed instructions therefore share a word. -/
def Obligations.RoundTrip : Prop :=
  (∀ (i : Instr) (rest : List Byte), i.wf = true → encode i ≠ [] → decode (encode i ++ rest) = .ok (i, rest)) ∧
  (∀ (i : Instr) (w : BitVec 64), i.wf = true → encodeCommand i = some w → decodeCommand w = .ok i) ∧
  (∀ (i j : Instr), i.wf = true → j.wf = true → encode i ≠ [] → encode i = encode j → i = j)

/-- O59. For every state whose memory and whose cores' local stores are in the canonical form (addresses strictly rising, no byte listed that an unlisted
address reads as), the next state of a step is so too, whichever agent moves and whatever instruction, command or event it performs. The form is the
model's own (log 4). -/
def Obligations.InvStep : Prop :=
  ∀ s t : State, s.Inv → step s = .next t → t.Inv

/-- O60. Right after reset, which is the state after bring-up (the model's choice, log 1), memory and the local stores are in the canonical form and every
byte of memory, the host's among it, is zero (the model's choice, log 4); MODE has CHK set, VBYP holds 64 KiB in bits, ENV 2,600 W, and the other
control registers of both sequencers and of the core, and the registers of the windows, are zero; partition masks allow every way; no region is open,
no page host-owned, no lock or link bit set; MSTATE has step 8; Mason's graph is live, and the application cores are released. The general, vector,
mask and tile registers read zero, e0 is the whole space (R30) and the other extents are zero; of these, the values of the general, vector, mask and
tile registers and of the buffers, and of the pc, AER and others that no rule gives, are the model's choice (log 5). -/
def Obligations.ResetValues : Prop :=
  State.reset.Inv ∧ (∀ a, State.reset.ms.mem.byte a = 0) ∧ (∀ n, State.reset.coreAt n = Core.reset) ∧
  Core.reset.ctl.mode = 1 ∧ Core.reset.ctl.vbyp = 0x80000 ∧
  (∀ x ∈ Core.reset.ctl.saved, x = 0) ∧ Core.reset.ctl.cycle = 0 ∧ Core.reset.ctl.ptroot = 0 ∧ Core.reset.ctl.taskid = 0 ∧ Core.reset.ctl.llcp = 0 ∧
  (∀ c ∈ [Core.reset.main, Core.reset.matrix], c.running = false ∧ c.pc = 0 ∧ c.depth = 0 ∧ c.ldr = 0 ∧ c.rpidx = 0 ∧ c.rpbase = 0 ∧
    (∀ r : Fin 32, c.g.get r = 0) ∧ (∀ n : Fin 6, c.lc.get n = 0 ∧ c.le.get n = 0 ∧ c.lb.get n = 0 ∧ c.li.get n = 0) ∧
    c.frame = none ∧ c.replay = [] ∧ c.inFlight = []) ∧
  (∀ r : Fin 32, Core.reset.v.get r = 0) ∧ (∀ r : Fin 8, Core.reset.k.get r = 0 ∧ Core.reset.t.get r = 0) ∧ Core.reset.abuf = 0 ∧
  Core.reset.bbuf = 0 ∧ (∀ r : Fin 16, Core.reset.e.get r = if r.val = 0 then extentZero else 0) ∧ Core.reset.guards = [] ∧
  Core.reset.budget = 0 ∧
  (∀ n, n < 64 → regSt (State.reset.ver.region n) = 0) ∧ State.reset.ver.versions = [] ∧
  (∀ (d : Nat) (x : LlcDie), State.reset.ms.llc[d]? = some x → x.cfg = 0 ∧ x.src = 0 ∧ ∀ (p : Nat) (m : Word), x.part[p]? = some m → m = 0xFFFFFFFFFFFF) ∧
  State.reset.ms.hostPages = [] ∧ State.reset.ms.owncmd = 0 ∧ State.reset.ms.qctl = 0 ∧ State.reset.ms.qbase = 0 ∧
  (∀ (p : Nat) (x : Word), State.reset.ms.pklast[p]? = some x → x = 0) ∧ (∀ (p : Nat) (x : Word), State.reset.ms.pkcmd[p]? = some x → x = 0) ∧
  State.reset.io.mstate = 8 ∧ State.reset.io.env = 2600 ∧ State.reset.io.bbcnt = 0 ∧ State.reset.io.aer = false ∧
  (∀ (i : Nat) (x : Hart), State.reset.io.harts[i]? = some x → x.released = true) ∧ (∀ p, (State.reset.io.doorbell p).taken = 0 ∧ (State.reset.io.doorbell p).err = 0) ∧
  (∃ g, State.reset.sched.graph 0 0xFFFF = some g) ∧ State.reset.sched.tasks = []
end

