-- ==== Sys2Proof/Laws/Memory.lean ====
section
/-! SUPPORT. Memory as bytes and as bits: what a write changes, what it leaves, and that every operation keeps the canonical
form. -/

namespace Sys2Proof.Machine

/-- Every listed address of a tail lies above its head's. -/
theorem Mem.wf_cons {c : Host.Cell} {m : Mem} : Mem.wf (c :: m) ↔ (∀ d ∈ m, c.1 < d.1) ∧ c.2 ≠ 0 ∧ Mem.wf m := by
  simp only [Mem.wf, List.pairwise_cons, List.forall_mem_cons]
  tauto

/-- The byte at an address, by the first cell. -/
theorem Mem.byte_cons (c : Host.Cell) (m : Mem) (a : Nat) : Mem.byte (c :: m) a = if c.1 = a then c.2 else m.byte a := rfl

/-- The byte at an address that no cell lists is zero. -/
theorem Mem.byte_eq_zero {m : Mem} {a : Nat} (h : ∀ c ∈ m, c.1 ≠ a) : m.byte a = 0 := by
  induction m with
  | nil => rfl
  | cons c m ih =>
    rw [Mem.byte_cons, if_neg (h c (by simp)), ih fun d hd => h d (by simp [hd])]

/-- The byte at a listed address. -/
theorem Mem.byte_of_mem {m : Mem} (hm : m.wf) {c : Host.Cell} (hc : c ∈ m) : m.byte c.1 = c.2 := by
  induction m with
  | nil => simp at hc
  | cons d m ih =>
    obtain ⟨h1, -, h3⟩ := Mem.wf_cons.mp hm
    rw [Mem.byte_cons]
    rcases List.mem_cons.mp hc with rfl | hc
    · simp
    · rw [if_neg (Nat.ne_of_lt (h1 c hc)), ih h3 hc]

/-- Appending two lists of cells: the first list decides where it lists an address. -/
theorem Mem.byte_append (m n : Mem) (a : Nat) :
    Mem.byte (m ++ n) a = if ∃ c ∈ m, c.1 = a then m.byte a else n.byte a := by
  induction m with
  | nil => simp
  | cons c m ih =>
    rw [List.cons_append, Mem.byte_cons, Mem.byte_cons]
    by_cases h : c.1 = a
    · simp [h]
    · rw [if_neg h, if_neg h, ih]
      simp [h]

/-- The cells kept by an address range hold what they held. -/
theorem Mem.byte_filter {m : Mem} {p : Nat → Bool} (a : Nat) :
    Mem.byte (m.filter fun c => p c.1) a = if p a then m.byte a else 0 := by
  induction m with
  | nil => simp [Mem.byte]
  | cons c m ih =>
    rw [List.filter_cons]
    by_cases hp : p c.1
    · rw [if_pos hp, Mem.byte_cons, Mem.byte_cons]
      by_cases h : c.1 = a
      · subst h; simp [hp]
      · rw [if_neg h, if_neg h, ih]
    · rw [if_neg hp, ih]
      by_cases h : c.1 = a
      · subst h; simp [hp]
      · rw [Mem.byte_cons, if_neg h]

/-- The addresses of fresh cells lie in their range, and the cells are canonical. -/
theorem Mem.cells_spec (a n v : Nat) : (∀ c ∈ Mem.cells a n v, a ≤ c.1 ∧ c.1 < a + n) ∧ (Mem.cells a n v).wf := by
  induction n generalizing a v with
  | zero => simp [Mem.cells, Mem.wf]
  | succ n ih =>
    obtain ⟨h1, h2⟩ := ih (a + 1) (v >>> 8)
    unfold Mem.cells
    dsimp only
    split
    · exact ⟨fun c hc => by have := h1 c hc; omega, h2⟩
    · next h =>
      refine ⟨fun c hc => ?_, Mem.wf_cons.mpr ⟨fun d hd => by have := h1 d hd; simp; omega, h, h2⟩⟩
      rcases List.mem_cons.mp hc with rfl | hc
      · simp
      · have := h1 c hc; omega

/-- The bytes of fresh cells are those of the number. -/
theorem Mem.byte_cells (a n v x : Nat) :
    (Mem.cells a n v).byte x = if a ≤ x ∧ x < a + n then BitVec.ofNat 8 (v >>> (8 * (x - a))) else 0 := by
  induction n generalizing a v with
  | zero =>
    have : ¬ (a ≤ x ∧ x < a + 0) := by omega
    simp only [Mem.cells, Mem.byte, this, if_false]
  | succ n ih =>
    unfold Mem.cells
    dsimp only
    have step : a + 1 ≤ x → v >>> 8 >>> (8 * (x - (a + 1))) = v >>> (8 * (x - a)) := by
      intro h; rw [← Nat.shiftRight_add]; congr 1; omega
    split
    · next h =>
      rw [ih]
      by_cases hx : a = x
      · subst hx; simp [h]
      · by_cases h1 : a + 1 ≤ x ∧ x < a + 1 + n
        · rw [if_pos h1, if_pos (by omega), step h1.1]
        · rw [if_neg h1, if_neg (by omega)]
    · rw [Mem.byte_cons]
      by_cases hx : a = x
      · subst hx; simp
      · rw [if_neg hx, ih]
        by_cases h1 : a + 1 ≤ x ∧ x < a + 1 + n
        · rw [if_pos h1, if_pos (by omega), step h1.1]
        · rw [if_neg h1, if_neg (by omega)]

/-- A write sets the bytes of its range and no other. -/
theorem Mem.byte_write (m : Mem) (a n v x : Nat) :
    (m.write a n v).byte x = if a ≤ x ∧ x < a + n then BitVec.ofNat 8 (v >>> (8 * (x - a))) else m.byte x := by
  unfold Mem.write
  rw [Mem.byte_append, Mem.byte_append, Mem.byte_cells,
    Mem.byte_filter (p := fun y => y < a), Mem.byte_filter (p := fun y => a + n ≤ y)]
  have hc := (Mem.cells_spec a n v).1
  by_cases h1 : a ≤ x ∧ x < a + n
  · rw [if_neg (by simp only [List.mem_filter]; rintro ⟨c, ⟨-, h⟩, rfl⟩; simp at h; omega), if_pos h1, if_pos h1]
    split
    · rfl
    · next h =>
      rw [if_neg (by simp; omega)]
      have h0 := Mem.byte_eq_zero (m := Mem.cells a n v) (a := x) fun c hc' e => h ⟨c, hc', e⟩
      rw [Mem.byte_cells, if_pos h1] at h0
      exact h0.symm
  · rw [if_neg h1]
    have h2 : ¬ ∃ c ∈ Mem.cells a n v, c.1 = x := by
      rintro ⟨c, h, rfl⟩; exact h1 (hc c h)
    rw [if_neg h2]
    by_cases hx : x < a
    · split
      · simp [hx]
      · next h =>
        rw [if_neg (by simp; omega)]
        symm
        apply Mem.byte_eq_zero
        intro c hm e
        exact h ⟨c, List.mem_filter.mpr ⟨hm, by simp [e, hx]⟩, e⟩
    · rw [if_neg (by simp only [List.mem_filter]; rintro ⟨c, ⟨-, h⟩, rfl⟩; simp at h; omega), if_pos (by simp; omega), if_neg h1]

/-- A write keeps the canonical form. -/
theorem Mem.write_wf {m : Mem} (hm : m.wf) (a n v : Nat) : (m.write a n v).wf := by
  obtain ⟨h1, h2⟩ := Mem.cells_spec a n v
  unfold Mem.write
  refine ⟨List.pairwise_append.mpr ⟨hm.1.filter _, List.pairwise_append.mpr ⟨h2.1, hm.1.filter _, ?_⟩, ?_⟩, ?_⟩
  · intro c hc d hd
    have := h1 c hc
    simp only [List.mem_filter, decide_eq_true_eq] at hd
    omega
  · intro c hc d hd
    simp only [List.mem_filter, decide_eq_true_eq] at hc
    rcases List.mem_append.mp hd with hd | hd
    · have := h1 d hd; omega
    · simp only [List.mem_filter, decide_eq_true_eq] at hd; omega
  · intro c hc
    rcases List.mem_append.mp hc with hc | hc
    · exact hm.2 c (List.mem_filter.mp hc).1
    · rcases List.mem_append.mp hc with hc | hc
      · exact h2.2 c hc
      · exact hm.2 c (List.mem_filter.mp hc).1

/-- Two canonical memories with the same bytes are equal. -/
theorem Mem.ext {m n : Mem} (hm : m.wf) (hn : n.wf) (h : ∀ a, m.byte a = n.byte a) : m = n := by
  have key : ∀ {m n : Mem}, m.wf → n.wf → (∀ a, m.byte a = n.byte a) → ∀ c ∈ m, c ∈ n := by
    intro m n hm hn h c hc
    have h1 := Mem.byte_of_mem hm hc
    have h2 : ∃ d ∈ n, d.1 = c.1 := by
      by_contra hno
      have := Mem.byte_eq_zero (m := n) (a := c.1) fun d hd e => hno ⟨d, hd, e⟩
      exact hm.2 c hc (by rw [← h1, h, this])
    obtain ⟨d, hd, e⟩ := h2
    have h3 := Mem.byte_of_mem hn hd
    rw [e, ← h, h1] at h3
    have : d = c := Prod.ext e h3.symm
    exact this ▸ hd
  apply List.Perm.eq_of_pairwise (le := fun a b => a.1 < b.1) (fun a b _ _ h1 h2 => absurd h1 (by omega)) hm.1 hn.1
  have nodup : ∀ {m : Mem}, m.wf → m.Nodup := fun hm => hm.1.imp fun h e => by simp [e] at h
  exact (List.perm_ext_iff_of_nodup (nodup hm) (nodup hn)).mpr fun c => ⟨key hm hn h c, key hn hm (fun a => (h a).symm) c⟩

/-- Reading bytes gives their bits in ascending order (R17, R18). -/
theorem Mem.testBit_read {m : Mem} (hm : m.wf) (a n i : Nat) :
    (m.read a n).testBit i = (decide (i < 8 * n) && (m.byte (a + i / 8)).getLsbD (i % 8)) := by
  induction m with
  | nil => simp [Mem.read, Mem.byte]
  | cons c m ih =>
    obtain ⟨h1, -, h3⟩ := Mem.wf_cons.mp hm
    have ih := ih h3
    unfold Mem.read
    dsimp only
    have hz : c.1 = a + i / 8 → Mem.byte m (a + i / 8) = 0 := fun e => Mem.byte_eq_zero fun d hd => by
      have := h1 d hd; omega
    by_cases hin : a ≤ c.1 ∧ c.1 < a + n
    · rw [if_pos hin, Nat.testBit_or, ih, Nat.testBit_shiftLeft, BitVec.testBit_toNat]
      by_cases e : c.1 = a + i / 8
      · rw [hz e]
        rw [Mem.byte_cons, if_pos e]
        have e1 : i - 8 * (c.1 - a) = i % 8 := by omega
        have e2 : i ≥ 8 * (c.1 - a) := by omega
        have e3 : i < 8 * n := by omega
        simp [e1, e2, e3]
      · rw [Mem.byte_cons, if_neg e]
        have : (decide (i ≥ 8 * (c.1 - a)) && c.2.getLsbD (i - 8 * (c.1 - a))) = false := by
          by_cases e2 : i ≥ 8 * (c.1 - a)
          · rw [BitVec.getLsbD_of_ge _ _ (by omega)]; simp
          · simp [e2]
        rw [this, Bool.or_false]
    · rw [if_neg hin, ih, Mem.byte_cons]
      by_cases e : c.1 = a + i / 8
      · rw [if_pos e]
        have : ¬ i < 8 * n := by omega
        simp [this]
      · rw [if_neg e]

theorem spanBytes_le (a w : Nat) : w + a % 8 ≤ 8 * spanBytes a w := by unfold spanBytes; omega

/-- The w bits from a bit address, one by one (R17). -/
theorem Mem.testBit_readBits {m : Mem} (hm : m.wf) (a w i : Nat) :
    (m.readBits a w).testBit i = (decide (i < w) && m.bit (a + i)) := by
  unfold Mem.readBits Mem.bit
  rw [Nat.testBit_mod_two_pow, Nat.testBit_shiftRight, Mem.testBit_read hm]
  by_cases h : i < w
  · have := spanBytes_le a w
    have h1 : a % 8 + i < 8 * spanBytes a w := by omega
    have h2 : a / 8 + (a % 8 + i) / 8 = (a + i) / 8 := by omega
    have h3 : (a % 8 + i) % 8 = (a + i) % 8 := by omega
    simp [h, h1, h2, h3]
  · simp [h]

/-- A masked write changes, of its w bits, those whose mask bit is 1, and no other bit of memory (R21). -/
theorem Mem.bit_writeMasked {m : Mem} (hm : m.wf) (a w v mask b : Nat) :
    (m.writeMasked a w v mask).bit b =
      if a ≤ b ∧ b < a + w ∧ mask.testBit (b - a) then v.testBit (b - a) else m.bit b := by
  have hs := spanBytes_le a w
  unfold Mem.writeMasked Mem.bit
  dsimp only
  rw [Mem.byte_write]
  by_cases hb : a / 8 ≤ b / 8 ∧ b / 8 < a / 8 + spanBytes a w
  · rw [if_pos hb, BitVec.getLsbD_ofNat, Nat.testBit_shiftRight, Nat.testBit_xor, Nat.testBit_xor, Nat.testBit_and,
      Nat.testBit_or, Mem.testBit_read hm]
    have e1 : 8 * (b / 8 - a / 8) + b % 8 < 8 * spanBytes a w := by omega
    have e2 : a / 8 + (8 * (b / 8 - a / 8) + b % 8) / 8 = b / 8 := by omega
    have e3 : (8 * (b / 8 - a / 8) + b % 8) % 8 = b % 8 := by omega
    have e4 : b % 8 < 8 := by omega
    rw [e2, e3, Nat.testBit_shiftLeft, Nat.testBit_shiftLeft, Nat.testBit_mod_two_pow]
    by_cases hab : a ≤ b
    · have e5 : 8 * (b / 8 - a / 8) + b % 8 - a % 8 = b - a := by omega
      have e6 : 8 * (b / 8 - a / 8) + b % 8 ≥ a % 8 := by omega
      by_cases hw : b < a + w
      · have e7 : b - a < w := by omega
        cases hmk : mask.testBit (b - a) <;> simp [e1, e4, e5, e6, e7, hab, hw, hmk]
      · have e7 : ¬ b - a < w := by omega
        simp [e1, e4, e5, e6, e7, hab, hw]
    · have e6 : ¬ 8 * (b / 8 - a / 8) + b % 8 ≥ a % 8 := by omega
      simp [e1, e4, e6, hab]
  · rw [if_neg hb, if_neg (by unfold spanBytes at hb; omega)]

/-- A masked write keeps the canonical form. -/
theorem Mem.writeMasked_wf {m : Mem} (hm : m.wf) (a w v mask : Nat) : (m.writeMasked a w v mask).wf := Mem.write_wf hm ..

/-- An unmasked write keeps the canonical form. -/
theorem Mem.writeBits_wf {m : Mem} (hm : m.wf) (a w v : Nat) : (m.writeBits a w v).wf := Mem.writeMasked_wf hm ..

/-- A write of w bits sets them and no other (R21). -/
theorem Mem.bit_writeBits {m : Mem} (hm : m.wf) (a w v b : Nat) :
    (m.writeBits a w v).bit b = if a ≤ b ∧ b < a + w then v.testBit (b - a) else m.bit b := by
  unfold Mem.writeBits
  rw [Mem.bit_writeMasked hm]
  by_cases h : a ≤ b ∧ b < a + w
  · rw [if_pos h, if_pos ⟨h.1, h.2, by rw [Nat.testBit_two_pow_sub_one]; simp; omega⟩]
  · rw [if_neg h, if_neg fun x => h ⟨x.1, x.2.1⟩]

/-- Reading what was just written gives it back (R17, R21). -/
theorem Mem.readBits_writeBits {m : Mem} (hm : m.wf) (a w v : Nat) : (m.writeBits a w v).readBits a w = v % 2 ^ w := by
  apply Nat.eq_of_testBit_eq
  intro i
  rw [Mem.testBit_readBits (Mem.writeBits_wf hm ..), Mem.bit_writeBits hm, Nat.testBit_mod_two_pow]
  by_cases h : i < w
  · rw [if_pos (by omega)]; simp
  · simp [h]

/-- A masked write leaves every byte outside its span. -/
theorem Mem.byte_writeMasked (m : Mem) (a w v mask x : Nat) (h : ¬ (a / 8 ≤ x ∧ x < a / 8 + spanBytes a w)) :
    (m.writeMasked a w v mask).byte x = m.byte x := by
  unfold Mem.writeMasked
  rw [Mem.byte_write, if_neg h]

end Sys2Proof.Machine
end

