-- ==== Sys2Proof/Laws/State.lean ====
section
/-! SUPPORT. One lemma per field and per update of the state: what each update of the model changes and what it leaves. -/

namespace Sys2Proof.Machine

variable (s : State)

@[simp] theorem State.mapCore_core (f : Core → Core) : (s.mapCore f).core = f s.core := rfl
@[simp] theorem State.mapCore_coreNo (f : Core → Core) : (s.mapCore f).coreNo = s.coreNo := rfl
@[simp] theorem State.mapCore_others (f : Core → Core) : (s.mapCore f).others = s.others := rfl
@[simp] theorem State.mapCore_cur (f : Core → Core) : (s.mapCore f).cur = s.cur := rfl
@[simp] theorem State.mapCore_ms (f : Core → Core) : (s.mapCore f).ms = s.ms := rfl
@[simp] theorem State.mapCore_ver (f : Core → Core) : (s.mapCore f).ver = s.ver := rfl
@[simp] theorem State.mapCore_sched (f : Core → Core) : (s.mapCore f).sched = s.sched := rfl
@[simp] theorem State.mapCore_str (f : Core → Core) : (s.mapCore f).str = s.str := rfl
@[simp] theorem State.mapCore_io (f : Core → Core) : (s.mapCore f).io = s.io := rfl
@[simp] theorem State.mapCore_agenda (f : Core → Core) : (s.mapCore f).agenda = s.agenda := rfl
@[simp] theorem State.mapCore_turn (f : Core → Core) : (s.mapCore f).turn = s.turn := rfl
@[simp] theorem State.mapCore_fresh (f : Core → Core) : (s.mapCore f).fresh = s.fresh := rfl

@[simp] theorem State.mapMs_core (f : MemSys → MemSys) : (s.mapMs f).core = s.core := rfl
@[simp] theorem State.mapMs_coreNo (f : MemSys → MemSys) : (s.mapMs f).coreNo = s.coreNo := rfl
@[simp] theorem State.mapMs_others (f : MemSys → MemSys) : (s.mapMs f).others = s.others := rfl
@[simp] theorem State.mapMs_cur (f : MemSys → MemSys) : (s.mapMs f).cur = s.cur := rfl
@[simp] theorem State.mapMs_ms (f : MemSys → MemSys) : (s.mapMs f).ms = f s.ms := rfl
@[simp] theorem State.mapMs_ver (f : MemSys → MemSys) : (s.mapMs f).ver = s.ver := rfl
@[simp] theorem State.mapMs_sched (f : MemSys → MemSys) : (s.mapMs f).sched = s.sched := rfl
@[simp] theorem State.mapMs_str (f : MemSys → MemSys) : (s.mapMs f).str = s.str := rfl
@[simp] theorem State.mapMs_io (f : MemSys → MemSys) : (s.mapMs f).io = s.io := rfl
@[simp] theorem State.mapMs_agenda (f : MemSys → MemSys) : (s.mapMs f).agenda = s.agenda := rfl
@[simp] theorem State.mapMs_turn (f : MemSys → MemSys) : (s.mapMs f).turn = s.turn := rfl
@[simp] theorem State.mapMs_fresh (f : MemSys → MemSys) : (s.mapMs f).fresh = s.fresh := rfl

@[simp] theorem State.mapVer_core (f : VerSys → VerSys) : (s.mapVer f).core = s.core := rfl
@[simp] theorem State.mapVer_coreNo (f : VerSys → VerSys) : (s.mapVer f).coreNo = s.coreNo := rfl
@[simp] theorem State.mapVer_others (f : VerSys → VerSys) : (s.mapVer f).others = s.others := rfl
@[simp] theorem State.mapVer_cur (f : VerSys → VerSys) : (s.mapVer f).cur = s.cur := rfl
@[simp] theorem State.mapVer_ms (f : VerSys → VerSys) : (s.mapVer f).ms = s.ms := rfl
@[simp] theorem State.mapVer_ver (f : VerSys → VerSys) : (s.mapVer f).ver = f s.ver := rfl
@[simp] theorem State.mapVer_sched (f : VerSys → VerSys) : (s.mapVer f).sched = s.sched := rfl
@[simp] theorem State.mapVer_str (f : VerSys → VerSys) : (s.mapVer f).str = s.str := rfl
@[simp] theorem State.mapVer_io (f : VerSys → VerSys) : (s.mapVer f).io = s.io := rfl
@[simp] theorem State.mapVer_agenda (f : VerSys → VerSys) : (s.mapVer f).agenda = s.agenda := rfl
@[simp] theorem State.mapVer_turn (f : VerSys → VerSys) : (s.mapVer f).turn = s.turn := rfl
@[simp] theorem State.mapVer_fresh (f : VerSys → VerSys) : (s.mapVer f).fresh = s.fresh := rfl

@[simp] theorem State.mapSched_core (f : Sched → Sched) : (s.mapSched f).core = s.core := rfl
@[simp] theorem State.mapSched_coreNo (f : Sched → Sched) : (s.mapSched f).coreNo = s.coreNo := rfl
@[simp] theorem State.mapSched_others (f : Sched → Sched) : (s.mapSched f).others = s.others := rfl
@[simp] theorem State.mapSched_cur (f : Sched → Sched) : (s.mapSched f).cur = s.cur := rfl
@[simp] theorem State.mapSched_ms (f : Sched → Sched) : (s.mapSched f).ms = s.ms := rfl
@[simp] theorem State.mapSched_ver (f : Sched → Sched) : (s.mapSched f).ver = s.ver := rfl
@[simp] theorem State.mapSched_sched (f : Sched → Sched) : (s.mapSched f).sched = f s.sched := rfl
@[simp] theorem State.mapSched_str (f : Sched → Sched) : (s.mapSched f).str = s.str := rfl
@[simp] theorem State.mapSched_io (f : Sched → Sched) : (s.mapSched f).io = s.io := rfl
@[simp] theorem State.mapSched_agenda (f : Sched → Sched) : (s.mapSched f).agenda = s.agenda := rfl
@[simp] theorem State.mapSched_turn (f : Sched → Sched) : (s.mapSched f).turn = s.turn := rfl
@[simp] theorem State.mapSched_fresh (f : Sched → Sched) : (s.mapSched f).fresh = s.fresh := rfl

@[simp] theorem State.mapStr_core (f : Streams → Streams) : (s.mapStr f).core = s.core := rfl
@[simp] theorem State.mapStr_coreNo (f : Streams → Streams) : (s.mapStr f).coreNo = s.coreNo := rfl
@[simp] theorem State.mapStr_others (f : Streams → Streams) : (s.mapStr f).others = s.others := rfl
@[simp] theorem State.mapStr_cur (f : Streams → Streams) : (s.mapStr f).cur = s.cur := rfl
@[simp] theorem State.mapStr_ms (f : Streams → Streams) : (s.mapStr f).ms = s.ms := rfl
@[simp] theorem State.mapStr_ver (f : Streams → Streams) : (s.mapStr f).ver = s.ver := rfl
@[simp] theorem State.mapStr_sched (f : Streams → Streams) : (s.mapStr f).sched = s.sched := rfl
@[simp] theorem State.mapStr_str (f : Streams → Streams) : (s.mapStr f).str = f s.str := rfl
@[simp] theorem State.mapStr_io (f : Streams → Streams) : (s.mapStr f).io = s.io := rfl
@[simp] theorem State.mapStr_agenda (f : Streams → Streams) : (s.mapStr f).agenda = s.agenda := rfl
@[simp] theorem State.mapStr_turn (f : Streams → Streams) : (s.mapStr f).turn = s.turn := rfl
@[simp] theorem State.mapStr_fresh (f : Streams → Streams) : (s.mapStr f).fresh = s.fresh := rfl

@[simp] theorem State.mapIo_core (f : Io → Io) : (s.mapIo f).core = s.core := rfl
@[simp] theorem State.mapIo_coreNo (f : Io → Io) : (s.mapIo f).coreNo = s.coreNo := rfl
@[simp] theorem State.mapIo_others (f : Io → Io) : (s.mapIo f).others = s.others := rfl
@[simp] theorem State.mapIo_cur (f : Io → Io) : (s.mapIo f).cur = s.cur := rfl
@[simp] theorem State.mapIo_ms (f : Io → Io) : (s.mapIo f).ms = s.ms := rfl
@[simp] theorem State.mapIo_ver (f : Io → Io) : (s.mapIo f).ver = s.ver := rfl
@[simp] theorem State.mapIo_sched (f : Io → Io) : (s.mapIo f).sched = s.sched := rfl
@[simp] theorem State.mapIo_str (f : Io → Io) : (s.mapIo f).str = s.str := rfl
@[simp] theorem State.mapIo_io (f : Io → Io) : (s.mapIo f).io = f s.io := rfl
@[simp] theorem State.mapIo_agenda (f : Io → Io) : (s.mapIo f).agenda = s.agenda := rfl
@[simp] theorem State.mapIo_turn (f : Io → Io) : (s.mapIo f).turn = s.turn := rfl
@[simp] theorem State.mapIo_fresh (f : Io → Io) : (s.mapIo f).fresh = s.fresh := rfl

@[simp] theorem State.mapCtl_coreNo (f : Ctl → Ctl) : (s.mapCtl f).coreNo = s.coreNo := rfl
@[simp] theorem State.mapCtl_others (f : Ctl → Ctl) : (s.mapCtl f).others = s.others := rfl
@[simp] theorem State.mapCtl_cur (f : Ctl → Ctl) : (s.mapCtl f).cur = s.cur := rfl
@[simp] theorem State.mapCtl_ms (f : Ctl → Ctl) : (s.mapCtl f).ms = s.ms := rfl
@[simp] theorem State.mapCtl_ver (f : Ctl → Ctl) : (s.mapCtl f).ver = s.ver := rfl
@[simp] theorem State.mapCtl_sched (f : Ctl → Ctl) : (s.mapCtl f).sched = s.sched := rfl
@[simp] theorem State.mapCtl_str (f : Ctl → Ctl) : (s.mapCtl f).str = s.str := rfl
@[simp] theorem State.mapCtl_io (f : Ctl → Ctl) : (s.mapCtl f).io = s.io := rfl
@[simp] theorem State.mapCtl_agenda (f : Ctl → Ctl) : (s.mapCtl f).agenda = s.agenda := rfl
@[simp] theorem State.mapCtl_turn (f : Ctl → Ctl) : (s.mapCtl f).turn = s.turn := rfl
@[simp] theorem State.mapCtl_fresh (f : Ctl → Ctl) : (s.mapCtl f).fresh = s.fresh := rfl
@[simp] theorem State.mapCtl_core_main (f : Ctl → Ctl) : (s.mapCtl f).core.main = s.core.main := rfl
@[simp] theorem State.mapCtl_core_matrix (f : Ctl → Ctl) : (s.mapCtl f).core.matrix = s.core.matrix := rfl
@[simp] theorem State.mapCtl_core_v (f : Ctl → Ctl) : (s.mapCtl f).core.v = s.core.v := rfl
@[simp] theorem State.mapCtl_core_k (f : Ctl → Ctl) : (s.mapCtl f).core.k = s.core.k := rfl
@[simp] theorem State.mapCtl_core_t (f : Ctl → Ctl) : (s.mapCtl f).core.t = s.core.t := rfl
@[simp] theorem State.mapCtl_core_abuf (f : Ctl → Ctl) : (s.mapCtl f).core.abuf = s.core.abuf := rfl
@[simp] theorem State.mapCtl_core_bbuf (f : Ctl → Ctl) : (s.mapCtl f).core.bbuf = s.core.bbuf := rfl
@[simp] theorem State.mapCtl_core_ctl (f : Ctl → Ctl) : (s.mapCtl f).core.ctl = f s.core.ctl := rfl
@[simp] theorem State.mapCtl_core_e (f : Ctl → Ctl) : (s.mapCtl f).core.e = s.core.e := rfl
@[simp] theorem State.mapCtl_core_ls (f : Ctl → Ctl) : (s.mapCtl f).core.ls = s.core.ls := rfl
@[simp] theorem State.mapCtl_core_guards (f : Ctl → Ctl) : (s.mapCtl f).core.guards = s.core.guards := rfl
@[simp] theorem State.mapCtl_core_budget (f : Ctl → Ctl) : (s.mapCtl f).core.budget = s.core.budget := rfl

/-- The core with another value of the sequencer that performs. -/
theorem State.mapSeq_eq (f : Seq → Seq) : s.mapSeq f = { s with core := (s.mapSeq f).core } := by
  unfold State.mapSeq; split <;> rfl

@[simp] theorem State.mapSeq_coreNo (f : Seq → Seq) : (s.mapSeq f).coreNo = s.coreNo := by unfold State.mapSeq; split <;> rfl
@[simp] theorem State.mapSeq_others (f : Seq → Seq) : (s.mapSeq f).others = s.others := by unfold State.mapSeq; split <;> rfl
@[simp] theorem State.mapSeq_cur (f : Seq → Seq) : (s.mapSeq f).cur = s.cur := by unfold State.mapSeq; split <;> rfl
@[simp] theorem State.mapSeq_ms (f : Seq → Seq) : (s.mapSeq f).ms = s.ms := by unfold State.mapSeq; split <;> rfl
@[simp] theorem State.mapSeq_ver (f : Seq → Seq) : (s.mapSeq f).ver = s.ver := by unfold State.mapSeq; split <;> rfl
@[simp] theorem State.mapSeq_sched (f : Seq → Seq) : (s.mapSeq f).sched = s.sched := by unfold State.mapSeq; split <;> rfl
@[simp] theorem State.mapSeq_str (f : Seq → Seq) : (s.mapSeq f).str = s.str := by unfold State.mapSeq; split <;> rfl
@[simp] theorem State.mapSeq_io (f : Seq → Seq) : (s.mapSeq f).io = s.io := by unfold State.mapSeq; split <;> rfl
@[simp] theorem State.mapSeq_agenda (f : Seq → Seq) : (s.mapSeq f).agenda = s.agenda := by unfold State.mapSeq; split <;> rfl
@[simp] theorem State.mapSeq_turn (f : Seq → Seq) : (s.mapSeq f).turn = s.turn := by unfold State.mapSeq; split <;> rfl
@[simp] theorem State.mapSeq_fresh (f : Seq → Seq) : (s.mapSeq f).fresh = s.fresh := by unfold State.mapSeq; split <;> rfl
@[simp] theorem State.mapSeq_core_v (f : Seq → Seq) : (s.mapSeq f).core.v = s.core.v := by
  unfold State.mapSeq; split <;> rfl
@[simp] theorem State.mapSeq_core_k (f : Seq → Seq) : (s.mapSeq f).core.k = s.core.k := by
  unfold State.mapSeq; split <;> rfl
@[simp] theorem State.mapSeq_core_t (f : Seq → Seq) : (s.mapSeq f).core.t = s.core.t := by
  unfold State.mapSeq; split <;> rfl
@[simp] theorem State.mapSeq_core_abuf (f : Seq → Seq) : (s.mapSeq f).core.abuf = s.core.abuf := by
  unfold State.mapSeq; split <;> rfl
@[simp] theorem State.mapSeq_core_bbuf (f : Seq → Seq) : (s.mapSeq f).core.bbuf = s.core.bbuf := by
  unfold State.mapSeq; split <;> rfl
@[simp] theorem State.mapSeq_core_ctl (f : Seq → Seq) : (s.mapSeq f).core.ctl = s.core.ctl := by
  unfold State.mapSeq; split <;> rfl
@[simp] theorem State.mapSeq_core_e (f : Seq → Seq) : (s.mapSeq f).core.e = s.core.e := by
  unfold State.mapSeq; split <;> rfl
@[simp] theorem State.mapSeq_core_ls (f : Seq → Seq) : (s.mapSeq f).core.ls = s.core.ls := by
  unfold State.mapSeq; split <;> rfl
@[simp] theorem State.mapSeq_core_guards (f : Seq → Seq) : (s.mapSeq f).core.guards = s.core.guards := by
  unfold State.mapSeq; split <;> rfl
@[simp] theorem State.mapSeq_core_budget (f : Seq → Seq) : (s.mapSeq f).core.budget = s.core.budget := by
  unfold State.mapSeq; split <;> rfl

@[simp] theorem State.mapSeq_seq (f : Seq → Seq) : (s.mapSeq f).seq = f s.seq := by
  obtain ⟨c, n, o, cur⟩ := s; cases cur <;> rfl
@[simp] theorem State.mapSeq_mapSeq (f g : Seq → Seq) : (s.mapSeq f).mapSeq g = s.mapSeq fun q => g (f q) := by
  obtain ⟨c, n, o, cur⟩ := s; cases cur <;> rfl

@[simp] theorem State.mapMs_seq (f : MemSys → MemSys) : (s.mapMs f).seq = s.seq := rfl
@[simp] theorem State.mapVer_seq (f : VerSys → VerSys) : (s.mapVer f).seq = s.seq := rfl
@[simp] theorem State.mapSched_seq (f : Sched → Sched) : (s.mapSched f).seq = s.seq := rfl
@[simp] theorem State.mapStr_seq (f : Streams → Streams) : (s.mapStr f).seq = s.seq := rfl
@[simp] theorem State.mapIo_seq (f : Io → Io) : (s.mapIo f).seq = s.seq := rfl
@[simp] theorem State.mapCtl_seq (f : Ctl → Ctl) : (s.mapCtl f).seq = s.seq := rfl

/-! What the updates of Ctl and Seq keep. -/

@[simp] theorem Ctl.raise_vl (c : Ctl) (q : SeqId) (fl : Word) : (c.raise q fl).vl = c.vl := rfl
@[simp] theorem Ctl.raise_vt (c : Ctl) (q : SeqId) (fl : Word) : (c.raise q fl).vt = c.vt := rfl
@[simp] theorem Ctl.raise_estart (c : Ctl) (q : SeqId) (fl : Word) : (c.raise q fl).estart = c.estart := rfl
@[simp] theorem Ctl.raise_fxrm (c : Ctl) (q : SeqId) (fl : Word) : (c.raise q fl).fxrm = c.fxrm := rfl
@[simp] theorem Ctl.raise_frm (c : Ctl) (q : SeqId) (fl : Word) : (c.raise q fl).frm = c.frm := rfl
@[simp] theorem Ctl.raise_hwea (c : Ctl) (q : SeqId) (fl : Word) : (c.raise q fl).hwea = c.hwea := rfl
@[simp] theorem Ctl.raise_hweb (c : Ctl) (q : SeqId) (fl : Word) : (c.raise q fl).hweb = c.hweb := rfl
@[simp] theorem Ctl.raise_mode (c : Ctl) (q : SeqId) (fl : Word) : (c.raise q fl).mode = c.mode := rfl
@[simp] theorem Ctl.raise_cycle (c : Ctl) (q : SeqId) (fl : Word) : (c.raise q fl).cycle = c.cycle := rfl
@[simp] theorem Ctl.raise_taskid (c : Ctl) (q : SeqId) (fl : Word) : (c.raise q fl).taskid = c.taskid := rfl
@[simp] theorem Ctl.raise_mstat (c : Ctl) (q : SeqId) (fl : Word) : (c.raise q fl).mstat = c.mstat := rfl
@[simp] theorem Ctl.raise_ptroot (c : Ctl) (q : SeqId) (fl : Word) : (c.raise q fl).ptroot = c.ptroot := rfl
@[simp] theorem Ctl.raise_tcause (c : Ctl) (q : SeqId) (fl : Word) : (c.raise q fl).tcause = c.tcause := rfl
@[simp] theorem Ctl.raise_tval (c : Ctl) (q : SeqId) (fl : Word) : (c.raise q fl).tval = c.tval := rfl
@[simp] theorem Ctl.raise_tpc (c : Ctl) (q : SeqId) (fl : Word) : (c.raise q fl).tpc = c.tpc := rfl
@[simp] theorem Ctl.raise_tvec (c : Ctl) (q : SeqId) (fl : Word) : (c.raise q fl).tvec = c.tvec := rfl
@[simp] theorem Ctl.raise_tstat (c : Ctl) (q : SeqId) (fl : Word) : (c.raise q fl).tstat = c.tstat := rfl
@[simp] theorem Ctl.raise_txa (c : Ctl) (q : SeqId) (fl : Word) : (c.raise q fl).txa = c.txa := rfl
@[simp] theorem Ctl.raise_txb (c : Ctl) (q : SeqId) (fl : Word) : (c.raise q fl).txb = c.txb := rfl
@[simp] theorem Ctl.raise_staged (c : Ctl) (q : SeqId) (fl : Word) : (c.raise q fl).staged = c.staged := rfl

@[simp] theorem Ctl.marked_vl (c : Ctl) (r w : Nat) (is : List Nat) : (c.marked r w is).vl = c.vl := rfl
@[simp] theorem Ctl.marked_vt (c : Ctl) (r w : Nat) (is : List Nat) : (c.marked r w is).vt = c.vt := rfl
@[simp] theorem Ctl.marked_estart (c : Ctl) (r w : Nat) (is : List Nat) : (c.marked r w is).estart = c.estart := rfl
@[simp] theorem Ctl.marked_fxrm (c : Ctl) (r w : Nat) (is : List Nat) : (c.marked r w is).fxrm = c.fxrm := rfl
@[simp] theorem Ctl.marked_fxsat (c : Ctl) (r w : Nat) (is : List Nat) : (c.marked r w is).fxsat = c.fxsat := rfl
@[simp] theorem Ctl.marked_frm (c : Ctl) (r w : Nat) (is : List Nat) : (c.marked r w is).frm = c.frm := rfl
@[simp] theorem Ctl.marked_fflags (c : Ctl) (r w : Nat) (is : List Nat) : (c.marked r w is).fflags = c.fflags := rfl
@[simp] theorem Ctl.marked_mode (c : Ctl) (r w : Nat) (is : List Nat) : (c.marked r w is).mode = c.mode := rfl
@[simp] theorem Ctl.marked_cycle (c : Ctl) (r w : Nat) (is : List Nat) : (c.marked r w is).cycle = c.cycle := rfl
@[simp] theorem Ctl.marked_taskid (c : Ctl) (r w : Nat) (is : List Nat) : (c.marked r w is).taskid = c.taskid := rfl
@[simp] theorem Ctl.marked_mstat (c : Ctl) (r w : Nat) (is : List Nat) : (c.marked r w is).mstat = c.mstat := rfl
@[simp] theorem Ctl.marked_unseenMain (c : Ctl) (r w : Nat) (is : List Nat) : (c.marked r w is).unseenMain = c.unseenMain := rfl
@[simp] theorem Ctl.marked_unseenMatrix (c : Ctl) (r w : Nat) (is : List Nat) : (c.marked r w is).unseenMatrix = c.unseenMatrix := rfl

@[simp] theorem Seq.account_running (q : Seq) (s : State) (x : InFlight) (n : Nat) (o : Operands) (y : Nat) :
    (q.account s x n o y).running = q.running := rfl
@[simp] theorem Seq.account_pc (q : Seq) (s : State) (x : InFlight) (n : Nat) (o : Operands) (y : Nat) :
    (q.account s x n o y).pc = q.pc := rfl
@[simp] theorem Seq.account_g (q : Seq) (s : State) (x : InFlight) (n : Nat) (o : Operands) (y : Nat) :
    (q.account s x n o y).g = q.g := rfl
@[simp] theorem Seq.account_depth (q : Seq) (s : State) (x : InFlight) (n : Nat) (o : Operands) (y : Nat) :
    (q.account s x n o y).depth = q.depth := rfl
@[simp] theorem Seq.account_lc (q : Seq) (s : State) (x : InFlight) (n : Nat) (o : Operands) (y : Nat) :
    (q.account s x n o y).lc = q.lc := rfl
@[simp] theorem Seq.account_li (q : Seq) (s : State) (x : InFlight) (n : Nat) (o : Operands) (y : Nat) :
    (q.account s x n o y).li = q.li := rfl
@[simp] theorem Seq.account_lb (q : Seq) (s : State) (x : InFlight) (n : Nat) (o : Operands) (y : Nat) :
    (q.account s x n o y).lb = q.lb := rfl
@[simp] theorem Seq.account_le (q : Seq) (s : State) (x : InFlight) (n : Nat) (o : Operands) (y : Nat) :
    (q.account s x n o y).le = q.le := rfl
@[simp] theorem Seq.account_ldr (q : Seq) (s : State) (x : InFlight) (n : Nat) (o : Operands) (y : Nat) :
    (q.account s x n o y).ldr = q.ldr := rfl
@[simp] theorem Seq.account_rpidx (q : Seq) (s : State) (x : InFlight) (n : Nat) (o : Operands) (y : Nat) :
    (q.account s x n o y).rpidx = q.rpidx := rfl
@[simp] theorem Seq.account_rpbase (q : Seq) (s : State) (x : InFlight) (n : Nat) (o : Operands) (y : Nat) :
    (q.account s x n o y).rpbase = q.rpbase := rfl
@[simp] theorem Seq.account_frame (q : Seq) (s : State) (x : InFlight) (n : Nat) (o : Operands) (y : Nat) :
    (q.account s x n o y).frame = q.frame := rfl
@[simp] theorem Seq.account_wait (q : Seq) (s : State) (x : InFlight) (n : Nat) (o : Operands) (y : Nat) :
    (q.account s x n o y).wait = q.wait := rfl
@[simp] theorem Seq.account_snap (q : Seq) (s : State) (x : InFlight) (n : Nat) (o : Operands) (y : Nat) :
    (q.account s x n o y).snap = q.snap := rfl
@[simp] theorem Seq.account_replay (q : Seq) (s : State) (x : InFlight) (n : Nat) (o : Operands) (y : Nat) :
    (q.account s x n o y).replay = q.replay := rfl
@[simp] theorem Seq.account_owed (q : Seq) (s : State) (x : InFlight) (n : Nat) (o : Operands) (y : Nat) :
    (q.account s x n o y).owed = q.owed := rfl
@[simp] theorem Seq.account_back (q : Seq) (s : State) (x : InFlight) (n : Nat) (o : Operands) (y : Nat) :
    (q.account s x n o y).back = q.back := rfl
@[simp] theorem Seq.account_insn (q : Seq) (s : State) (x : InFlight) (n : Nat) (o : Operands) (y : Nat) :
    (q.account s x n o y).insn = q.insn := rfl
@[simp] theorem Seq.account_constMark (q : Seq) (s : State) (x : InFlight) (n : Nat) (o : Operands) (y : Nat) :
    (q.account s x n o y).constMark = q.constMark := rfl

@[simp] theorem Seq.lapse_running (q : Seq) (n : Nat) : (q.lapse n).running = q.running := rfl
@[simp] theorem Seq.lapse_pc (q : Seq) (n : Nat) : (q.lapse n).pc = q.pc := rfl
@[simp] theorem Seq.lapse_g (q : Seq) (n : Nat) : (q.lapse n).g = q.g := rfl
@[simp] theorem Seq.lapse_depth (q : Seq) (n : Nat) : (q.lapse n).depth = q.depth := rfl
@[simp] theorem Seq.lapse_lc (q : Seq) (n : Nat) : (q.lapse n).lc = q.lc := rfl
@[simp] theorem Seq.lapse_li (q : Seq) (n : Nat) : (q.lapse n).li = q.li := rfl
@[simp] theorem Seq.lapse_lb (q : Seq) (n : Nat) : (q.lapse n).lb = q.lb := rfl
@[simp] theorem Seq.lapse_le (q : Seq) (n : Nat) : (q.lapse n).le = q.le := rfl
@[simp] theorem Seq.lapse_ldr (q : Seq) (n : Nat) : (q.lapse n).ldr = q.ldr := rfl
@[simp] theorem Seq.lapse_rpidx (q : Seq) (n : Nat) : (q.lapse n).rpidx = q.rpidx := rfl
@[simp] theorem Seq.lapse_rpbase (q : Seq) (n : Nat) : (q.lapse n).rpbase = q.rpbase := rfl
@[simp] theorem Seq.lapse_frame (q : Seq) (n : Nat) : (q.lapse n).frame = q.frame := rfl
@[simp] theorem Seq.lapse_wait (q : Seq) (n : Nat) : (q.lapse n).wait = q.wait := rfl
@[simp] theorem Seq.lapse_snap (q : Seq) (n : Nat) : (q.lapse n).snap = q.snap := rfl
@[simp] theorem Seq.lapse_record (q : Seq) (n : Nat) : (q.lapse n).record = q.record := rfl
@[simp] theorem Seq.lapse_inFlight (q : Seq) (n : Nat) : (q.lapse n).inFlight = q.inFlight := rfl
@[simp] theorem Seq.lapse_replay (q : Seq) (n : Nat) : (q.lapse n).replay = q.replay := rfl
@[simp] theorem Seq.lapse_owed (q : Seq) (n : Nat) : (q.lapse n).owed = q.owed := rfl
@[simp] theorem Seq.lapse_back (q : Seq) (n : Nat) : (q.lapse n).back = q.back := rfl
@[simp] theorem Seq.lapse_insn (q : Seq) (n : Nat) : (q.lapse n).insn = q.insn := rfl
@[simp] theorem Seq.lapse_constMark (q : Seq) (n : Nat) : (q.lapse n).constMark = q.constMark := rfl

@[simp] theorem State.elapse_coreNo (n : Nat) : (s.elapse n).coreNo = s.coreNo := rfl
@[simp] theorem State.elapse_cur (n : Nat) : (s.elapse n).cur = s.cur := rfl
@[simp] theorem State.elapse_ms (n : Nat) : (s.elapse n).ms = s.ms := rfl
@[simp] theorem State.elapse_ver (n : Nat) : (s.elapse n).ver = s.ver := rfl
@[simp] theorem State.elapse_str (n : Nat) : (s.elapse n).str = s.str := rfl
@[simp] theorem State.elapse_io (n : Nat) : (s.elapse n).io = s.io := rfl
@[simp] theorem State.elapse_agenda (n : Nat) : (s.elapse n).agenda = s.agenda := rfl
@[simp] theorem State.elapse_turn (n : Nat) : (s.elapse n).turn = s.turn := rfl
@[simp] theorem State.elapse_fresh (n : Nat) : (s.elapse n).fresh = s.fresh := rfl
@[simp] theorem State.elapse_core_v (n : Nat) : (s.elapse n).core.v = s.core.v := rfl
@[simp] theorem State.elapse_core_k (n : Nat) : (s.elapse n).core.k = s.core.k := rfl
@[simp] theorem State.elapse_core_t (n : Nat) : (s.elapse n).core.t = s.core.t := rfl
@[simp] theorem State.elapse_core_abuf (n : Nat) : (s.elapse n).core.abuf = s.core.abuf := rfl
@[simp] theorem State.elapse_core_bbuf (n : Nat) : (s.elapse n).core.bbuf = s.core.bbuf := rfl
@[simp] theorem State.elapse_core_e (n : Nat) : (s.elapse n).core.e = s.core.e := rfl
@[simp] theorem State.elapse_core_ls (n : Nat) : (s.elapse n).core.ls = s.core.ls := rfl
@[simp] theorem State.elapse_core_guards (n : Nat) : (s.elapse n).core.guards = s.core.guards := rfl

/-! PC, the loop stack and LDR of another sequencer value. -/

@[simp] theorem Seq.withPlace_running (q r : Seq) : (q.withPlace r).running = q.running := rfl
@[simp] theorem Seq.withPlace_g (q r : Seq) : (q.withPlace r).g = q.g := rfl
@[simp] theorem Seq.withPlace_rpidx (q r : Seq) : (q.withPlace r).rpidx = q.rpidx := rfl
@[simp] theorem Seq.withPlace_rpbase (q r : Seq) : (q.withPlace r).rpbase = q.rpbase := rfl
@[simp] theorem Seq.withPlace_frame (q r : Seq) : (q.withPlace r).frame = q.frame := rfl
@[simp] theorem Seq.withPlace_record (q r : Seq) : (q.withPlace r).record = q.record := rfl
@[simp] theorem Seq.withPlace_view (q r : Seq) : (q.withPlace r).view = q.view := rfl
@[simp] theorem Seq.withPlace_insn (q r : Seq) : (q.withPlace r).insn = q.insn := rfl
@[simp] theorem Seq.withPlace_wait (q r : Seq) : (q.withPlace r).wait = q.wait := rfl
@[simp] theorem Seq.withPlace_waited (q r : Seq) : (q.withPlace r).waited = q.waited := rfl
@[simp] theorem Seq.withPlace_snap (q r : Seq) : (q.withPlace r).snap = q.snap := rfl
@[simp] theorem Seq.withPlace_due (q r : Seq) : (q.withPlace r).due = q.due := rfl
@[simp] theorem Seq.withPlace_owed (q r : Seq) : (q.withPlace r).owed = q.owed := rfl
@[simp] theorem Seq.withPlace_inFlight (q r : Seq) : (q.withPlace r).inFlight = q.inFlight := rfl
@[simp] theorem Seq.withPlace_replay (q r : Seq) : (q.withPlace r).replay = q.replay := rfl
@[simp] theorem Seq.withPlace_back (q r : Seq) : (q.withPlace r).back = q.back := rfl
@[simp] theorem Seq.withPlace_constMark (q r : Seq) : (q.withPlace r).constMark = q.constMark := rfl
@[simp] theorem Seq.withPlace_pc (q r : Seq) : (q.withPlace r).pc = r.pc := rfl
@[simp] theorem Seq.withPlace_depth (q r : Seq) : (q.withPlace r).depth = r.depth := rfl
@[simp] theorem Seq.withPlace_lc (q r : Seq) : (q.withPlace r).lc = r.lc := rfl
@[simp] theorem Seq.withPlace_li (q r : Seq) : (q.withPlace r).li = r.li := rfl
@[simp] theorem Seq.withPlace_lb (q r : Seq) : (q.withPlace r).lb = r.lb := rfl
@[simp] theorem Seq.withPlace_le (q r : Seq) : (q.withPlace r).le = r.le := rfl
@[simp] theorem Seq.withPlace_ldr (q r : Seq) : (q.withPlace r).ldr = r.ldr := rfl

/-! The flags of what is in flight (R164): none is raised by none, and only the flags move. -/

@[simp] theorem Ctl.raise_zero (c : Ctl) (q : SeqId) : c.raise q 0 = c := by
  have all (x : Word) : x &&& 18446744073709551615#64 = x := BitVec.and_allOnes
  cases q <;> cases c <;> simp [Ctl.raise, all]
@[simp] theorem State.landed_zero : s.landed 0 = s := by simp only [State.landed, State.mapCtl, Ctl.raise_zero]
@[simp] theorem State.landed_coreNo (fl : Word) : (s.landed fl).coreNo = s.coreNo := rfl
@[simp] theorem State.landed_cur (fl : Word) : (s.landed fl).cur = s.cur := rfl
@[simp] theorem State.landed_ms (fl : Word) : (s.landed fl).ms = s.ms := rfl
@[simp] theorem State.landed_ver (fl : Word) : (s.landed fl).ver = s.ver := rfl
@[simp] theorem State.landed_str (fl : Word) : (s.landed fl).str = s.str := rfl
@[simp] theorem State.landed_sched (fl : Word) : (s.landed fl).sched = s.sched := rfl
@[simp] theorem State.landed_io (fl : Word) : (s.landed fl).io = s.io := rfl
@[simp] theorem State.landed_agenda (fl : Word) : (s.landed fl).agenda = s.agenda := rfl
@[simp] theorem State.landed_fresh (fl : Word) : (s.landed fl).fresh = s.fresh := rfl
@[simp] theorem State.landed_core_main (fl : Word) : (s.landed fl).core.main = s.core.main := rfl
@[simp] theorem State.landed_core_matrix (fl : Word) : (s.landed fl).core.matrix = s.core.matrix := rfl
@[simp] theorem State.landed_core_v (fl : Word) : (s.landed fl).core.v = s.core.v := rfl
@[simp] theorem State.landed_core_k (fl : Word) : (s.landed fl).core.k = s.core.k := rfl
@[simp] theorem State.landed_core_t (fl : Word) : (s.landed fl).core.t = s.core.t := rfl
@[simp] theorem State.landed_core_abuf (fl : Word) : (s.landed fl).core.abuf = s.core.abuf := rfl
@[simp] theorem State.landed_core_bbuf (fl : Word) : (s.landed fl).core.bbuf = s.core.bbuf := rfl
@[simp] theorem State.landed_core_e (fl : Word) : (s.landed fl).core.e = s.core.e := rfl
@[simp] theorem State.landed_core_ls (fl : Word) : (s.landed fl).core.ls = s.core.ls := rfl
@[simp] theorem State.landed_core_guards (fl : Word) : (s.landed fl).core.guards = s.core.guards := rfl
@[simp] theorem State.flagsLater_self : s.flagsLater s = s := rfl
@[simp] theorem State.flagsLater_coreNo (u : State) : (s.flagsLater u).coreNo = s.coreNo := rfl
@[simp] theorem State.flagsLater_cur (u : State) : (s.flagsLater u).cur = s.cur := rfl
@[simp] theorem State.flagsLater_ms (u : State) : (s.flagsLater u).ms = s.ms := rfl
@[simp] theorem State.flagsLater_ver (u : State) : (s.flagsLater u).ver = s.ver := rfl
@[simp] theorem State.flagsLater_str (u : State) : (s.flagsLater u).str = s.str := rfl
@[simp] theorem State.flagsLater_sched (u : State) : (s.flagsLater u).sched = s.sched := rfl
@[simp] theorem State.flagsLater_io (u : State) : (s.flagsLater u).io = s.io := rfl
@[simp] theorem State.flagsLater_agenda (u : State) : (s.flagsLater u).agenda = s.agenda := rfl
@[simp] theorem State.flagsLater_fresh (u : State) : (s.flagsLater u).fresh = s.fresh := rfl
@[simp] theorem State.flagsLater_core_main (u : State) : (s.flagsLater u).core.main = s.core.main := rfl
@[simp] theorem State.flagsLater_core_matrix (u : State) : (s.flagsLater u).core.matrix = s.core.matrix := rfl
@[simp] theorem State.flagsLater_core_v (u : State) : (s.flagsLater u).core.v = s.core.v := rfl
@[simp] theorem State.flagsLater_core_k (u : State) : (s.flagsLater u).core.k = s.core.k := rfl
@[simp] theorem State.flagsLater_core_t (u : State) : (s.flagsLater u).core.t = s.core.t := rfl
@[simp] theorem State.flagsLater_core_abuf (u : State) : (s.flagsLater u).core.abuf = s.core.abuf := rfl
@[simp] theorem State.flagsLater_core_bbuf (u : State) : (s.flagsLater u).core.bbuf = s.core.bbuf := rfl
@[simp] theorem State.flagsLater_core_e (u : State) : (s.flagsLater u).core.e = s.core.e := rfl
@[simp] theorem State.flagsLater_core_ls (u : State) : (s.flagsLater u).core.ls = s.core.ls := rfl
@[simp] theorem State.flagsLater_core_guards (u : State) : (s.flagsLater u).core.guards = s.core.guards := rfl

/-- What completes is the whole instruction or its next group, and its flags are raised then (R152, R164). -/
theorem InFlight.release_flags (x : InFlight) (one : Bool) :
    (x.release one).2 = x.flags.headD 0 ∨ (x.release one).2 = x.flags.foldl (· ||| ·) 0 := by
  unfold InFlight.release
  split
  · cases one
    · exact .inr rfl
    · exact .inl rfl
  · exact .inr rfl

end Sys2Proof.Machine
end

