-- ==== Sys2Proof/Laws/Ops.lean ====
section
/-! SUPPORT. What each shared operation of a sequencer does: going on, writing a scalar register, jumping. -/

namespace Sys2Proof.Machine

variable (s : State)

/-- Every change of the performing sequencer is another value of it. -/
theorem State.mapSeq_withSeq (f : Seq → Seq) : s.mapSeq f = s.withSeq (f s.seq) := by
  obtain ⟨c, n, o, cur⟩ := s; cases cur <;> rfl

@[simp] theorem State.withSeq_seq (q : Seq) : (s.withSeq q).seq = q := by simp [State.withSeq]

@[simp] theorem State.withSeq_withSeq (q r : Seq) : (s.withSeq q).withSeq r = s.withSeq r := by simp [State.withSeq]

@[simp] theorem State.withSeq_seq_self : s.withSeq s.seq = s := by
  obtain ⟨c, n, o, cur⟩ := s; cases cur <;> rfl

/-- The end check touches pc, depth and the counters of the loops it ends or repeats, and nothing else. -/
theorem Seq.endCheck_frame (q : Seq) (next : BitVec 58) (k : Nat) :
    ∃ pc dp lc li, q.endCheck next k = { q with pc := pc, depth := dp, lc := lc, li := li } := by
  induction k generalizing q with
  | zero => exact ⟨_, _, _, _, rfl⟩
  | succ k ih =>
    unfold Seq.endCheck
    split
    · dsimp only
      split
      · obtain ⟨pc, dp, lc, li, h⟩ := ih { q with
          lc := q.lc.setIfInBounds k (q.lc[k]?.getD 0 - 1), li := q.li.setIfInBounds k (q.li[k]?.getD 0 + 1) }
        exact ⟨pc, dp, lc, li, h⟩
      · exact ⟨_, _, _, _, rfl⟩
    · exact ⟨_, _, _, _, rfl⟩

/-- Where the innermost loop does not end, the end check only sets pc (R132). -/
theorem Seq.fallTo_of_not_ends (q : Seq) (next : BitVec 58) (h : ¬ q.EndsAt next) : q.fallTo next = { q with pc := next } := by
  unfold Seq.fallTo
  unfold Seq.EndsAt at h
  cases hk : q.depth.toNat with
  | zero =>
    have : q.depth = 0 := by apply BitVec.eq_of_toNat_eq; simpa using hk
    simp [Seq.endCheck, this]
  | succ k =>
    rw [hk] at h
    have hd : BitVec.ofNat 3 (k + 1) = q.depth := by
      apply BitVec.eq_of_toNat_eq; rw [← hk]; simp
    have h' : ¬ (q.le[k]?.getD 0).toNat = next.toNat := fun e => h ⟨by omega, by simpa using e⟩
    unfold Seq.endCheck
    rw [if_neg h', hd]

/-- The end check does not look at a sequencer's registers or LDR. -/
theorem Seq.endCheck_regs (q : Seq) (next : BitVec 58) (k : Nat) (g : Vector Word 32) (l : Word) :
    ({ q with g := g, ldr := l } : Seq).endCheck next k = { q.endCheck next k with g := g, ldr := l } := by
  induction k generalizing q with
  | zero => rfl
  | succ k ih =>
    unfold Seq.endCheck
    split
    · dsimp only
      split
      · exact ih { q with
          lc := q.lc.setIfInBounds k (q.lc[k]?.getD 0 - 1), li := q.li.setIfInBounds k (q.li[k]?.getD 0 + 1) }
      · rfl
    · rfl

/-- Nor does going on. -/
theorem Seq.advance_regs (q : Seq) (len : Nat) (g : Vector Word 32) (l : Word) :
    ({ q with g := g, ldr := l } : Seq).advance len = { q.advance len with g := g, ldr := l } := by
  unfold Seq.advance Seq.frameNext Seq.fallTo
  dsimp only
  split
  · split
    · rfl
    · split
      · rfl
      · exact Seq.endCheck_regs { q with wait := none, waited := 0, snap := none, view := [], frame := none, rpidx := 0, rpbase := 0 } _ _ g l
  · exact Seq.endCheck_regs { q with wait := none, waited := 0, snap := none, view := [] } _ _ g l

/-- What going on leaves alone (R64, R132). -/
theorem Seq.advance_frame (q : Seq) (len : Nat) :
    ∃ pc dp lc li f ri rb, q.advance len =
      { q with pc := pc, depth := dp, lc := lc, li := li, frame := f, rpidx := ri, rpbase := rb
               wait := none, waited := 0, snap := none, view := [] } := by
  unfold Seq.advance
  dsimp only
  split
  · next f _ =>
    unfold Seq.frameNext
    dsimp only
    split
    · exact ⟨_, _, _, _, _, _, _, rfl⟩
    · split
      · exact ⟨_, _, _, _, _, _, _, rfl⟩
      · obtain ⟨pc, dp, lc, li, h⟩ := Seq.endCheck_frame
          { q with wait := none, waited := 0, snap := none, view := [], frame := none, rpidx := 0, rpbase := 0 } (f.addr 16) q.depth.toNat
        exact ⟨pc, dp, lc, li, _, _, _, h⟩
  · obtain ⟨pc, dp, lc, li, h⟩ := Seq.endCheck_frame
      { q with wait := none, waited := 0, snap := none, view := [] } (q.pc + BitVec.ofNat 58 len) q.depth.toNat
    exact ⟨pc, dp, lc, li, _, _, _, h⟩

/-- What completing an instruction of len bits leaves of the sequencer, and where it goes on (R64, R132). -/
theorem Seq.advance_spec (q : Seq) (len : Nat) :
    (q.advance len).g = q.g ∧ (q.advance len).ldr = q.ldr ∧ q.Kept (q.advance len) ∧ q.GoesOn len (q.advance len) := by
  obtain ⟨pc, dp, lc, li, f, ri, rb, h⟩ := q.advance_frame len
  refine ⟨by rw [h], by rw [h], by rw [h]; exact ⟨rfl, rfl, rfl, rfl, rfl, rfl, rfl, rfl, rfl, rfl, rfl⟩, ?_⟩
  exact ⟨by rw [h]; exact ⟨rfl, rfl, rfl, rfl⟩, rfl, rfl, rfl, rfl, rfl, rfl, rfl⟩

/-- The same with registers and LDR as an instruction wrote them. -/
theorem Seq.advance_wrote (q : Seq) (len : Nat) (g : Vector Word 32) (l : Word) :
    let r := ({ q with g := g, ldr := l } : Seq).advance len
    r.g = g ∧ r.ldr = l ∧ q.Kept r ∧ q.GoesOn len r := by
  obtain ⟨-, -, k, n⟩ := q.advance_spec len
  simp only [Seq.advance_regs]
  exact ⟨trivial, trivial, { k with }, { n with }⟩

/-- A write of a scalar register, as the registers hold it afterwards (R107). -/
theorem wroteG_set (old : Vector Word 32) (d : BitVec 5) (x : Word) :
    wroteG old (if d = 0 then old else old.set d.toNat x d.isLt) d x := by
  intro r
  by_cases hd : d = 0
  · simp [hd]
  · simp only [hd, if_false, ne_eq, not_false_eq_true, and_true]
    rw [Vector.get_eq_getElem, Vector.getElem_set, Vector.get_eq_getElem]
    have hr : (d.toNat = r.val) ↔ r = d.toFin := by
      constructor
      · intro h; exact Fin.ext h.symm
      · intro h; rw [h]; rfl
    simp [hr]

/-- A write of a scalar register changes the performing sequencer only. -/
theorem State.setG_withSeq (d : BitVec 5) (x : Word) :
    s.setG d x = s.withSeq { s.seq with g := if d = 0 then s.seq.g else s.seq.g.set d.toNat x d.isLt } := by
  unfold State.setG
  split
  · exact (s.withSeq_seq_self).symm
  · exact State.mapSeq_withSeq ..

/-- Writing g[d] with LDR and completing (R59, R107). -/
theorem State.finishG_writes (len : Nat) (d : BitVec 5) (x : Word) : s.WritesG (s.finishG len d x) len d x := by
  unfold State.finishG State.retire State.setLdr
  rw [State.setG_withSeq]
  simp only [State.mapSeq_withSeq, State.withSeq_seq, State.withSeq_withSeq]
  obtain ⟨hg, hl, hk, hn⟩ := s.seq.advance_wrote len
    (if d = 0 then s.seq.g else s.seq.g.set d.toNat x d.isLt) (ldrOf .g d.toNat)
  exact ⟨_, rfl, (congrArg (fun g => wroteG s.seq.g g d x) hg).mpr (wroteG_set _ _ _), hl, hk, hn⟩

/-- Completing an instruction that writes no register. -/
theorem State.retire_writesNone (len : Nat) : s.WritesNone (s.retire len) len := by
  unfold State.retire
  rw [State.mapSeq_withSeq]
  obtain ⟨hg, hl, hk, hn⟩ := Seq.advance_spec s.seq len
  exact ⟨_, rfl, hg, hl, hk, hn⟩

/-- A command that names a descriptor slot below 8 is performed as any command; one above is an ILLOP stream fault (R239, R241). -/
theorem State.slotCommand_spec (d : BitVec 4) (f : State → Ctx → Move) :
    (d.toNat < 8 → s.slotCommand d f = s.command f) ∧
    (8 ≤ d.toNat → ∀ x, s.prog = some x → s.slotCommand d f = s.streamFault ⟨.illop, s.str.word, 0, 0⟩ 0) := by
  refine ⟨fun h => ?_, fun h x hx => ?_⟩ <;> unfold State.slotCommand
  · simp only [if_neg (show ¬ 7 < d.toNat by omega)]
  · simp only [State.command, hx, if_pos (show 7 < d.toNat by omega), State.badCommand]

end Sys2Proof.Machine
end

