-- ==== Sys2Proof/Laws/Access.lean ====
section
/-! SUPPORT. What resolving an access gives, and what writing to its parts changes. -/

namespace Sys2Proof.Machine

/-- The widths of the parts of an access. -/
def totalWidth (segs : List Seg) : Nat := (segs.map Seg.width).sum

theorem pageSeg_width (e pa w : Nat) : (pageSeg e pa w).width = w := by unfold pageSeg; split <;> rfl

variable (s : State)

/-- The parts that translation gives hold all the bits asked for. -/
theorem State.pages_width {via : Via} {t : Word} {va w : Nat} {c : Class} {kind : Nat} {segs : List Seg}
    (h : s.pages via t va w c kind = .ok segs) : totalWidth segs = w := by
  unfold State.pages at h
  dsimp only at h
  have hw : min w (pageRest va) ≤ w := Nat.min_le_left ..
  split at h
  · simp at h
  · split at h
    · split at h
      · simp at h
      · simp only [Except.ok.injEq] at h
        subst h
        simp [totalWidth, pageSeg_width]
    · split at h
      · simp at h
      · split at h
        · simp at h
        · split at h
          · simp at h
          · simp only [Except.ok.injEq] at h
            subst h
            simp [totalWidth, pageSeg_width]

/-- The parts of a resolved access hold all the bits asked for. -/
theorem State.resolve_width {via : Via} {t : Word} {w : Nat} {c : Class} {segs : List Seg}
    (h : s.resolve via t w c = .ok segs) : totalWidth segs = w := by
  unfold State.resolve at h
  split at h
  · simp at h
  · split at h
    · split at h
      · simp at h
      · split at h
        · simp at h
        · simp only [Except.ok.injEq] at h
          subst h
          simp [totalWidth, Seg.width]
    · split at h
      · simp at h
      · next hp =>
        split at h
        · simp at h
        · simp only [Except.ok.injEq] at h
          subst h
          exact s.pages_width hp

/-- Writing to one part changes the memory system, the local store and, for a spilled chunk, the I/O die; no more. -/
theorem State.spills_eq (frame : Nat) (chunks : List Nat) : ∃ io, s.spills frame chunks = s.mapIo fun _ => io := by
  unfold State.spills
  induction chunks generalizing s with
  | nil => exact ⟨s.io, rfl⟩
  | cons c cs ih =>
    obtain ⟨io, h⟩ := ih ((s.event 9 (8 + (stackOf frame).getD 0) 0 (bits frame 53 25 + c <<< 32)).raise 0 2)
    exact ⟨io, by rw [List.foldl_cons, h]; rfl⟩

theorem State.writeSeg_eq (die : Option Keep) (g : Seg) (v mask : Nat) :
    ∃ ms ls io, s.writeSeg die g v mask = { s with ms := ms, io := io, core := { s.core with ls := ls } } := by
  unfold State.writeSeg
  cases g with
  | ls a w => exact ⟨_, _, _, rfl⟩
  | phys a w => exact ⟨_, _, _, rfl⟩
  | packed f o w =>
    obtain ⟨io, h⟩ := ({ s with ms := (s.ms.writeLines (s.keeper die f o) f o w v mask).1 }).spills_eq f
      (s.ms.writeLines (s.keeper die f o) f o w v mask).2
    exact ⟨_, _, _, h⟩

theorem State.writeSegs_eq (die : Option Keep) (segs : List Seg) (v mask : Nat) :
    ∃ ms ls io, s.writeSegs die segs v mask = { s with ms := ms, io := io, core := { s.core with ls := ls } } := by
  induction segs generalizing s v mask with
  | nil => exact ⟨_, _, _, rfl⟩
  | cons g gs ih =>
    obtain ⟨ms, ls, io, h⟩ := s.writeSeg_eq die g v mask
    unfold State.writeSegs
    rw [h]
    obtain ⟨ms', ls', io', h'⟩ := ih { s with ms := ms, io := io, core := { s.core with ls := ls } } (v >>> g.width)
      (mask >>> g.width)
    exact ⟨ms', ls', io', h'⟩

/-- Steps that leave memory alone, one after the other. -/
theorem MemSys.foldl_mem {α : Type} (f : MemSys → α → MemSys) (hf : ∀ ms x, (f ms x).mem = ms.mem) (xs : List α) (ms : MemSys) :
    (xs.foldl f ms).mem = ms.mem := by
  induction xs generalizing ms with
  | nil => rfl
  | cons x xs ih => rw [List.foldl_cons, ih, hf]

/-- Marking pack frames whose header a raw write may have made stale leaves memory alone (R282). -/
@[simp] theorem MemSys.taint_mem (ms : MemSys) (a w : Nat) : (ms.taint a w).mem = ms.mem := by
  unfold MemSys.taint
  split
  · rfl
  · exact MemSys.foldl_mem (fun ms f => { ms with tainted := ms.taintFrame a w f }) (fun _ _ => rfl) _ _

/-- A raw write writes the masked bits. -/
theorem MemSys.rawWrite_mem (ms : MemSys) (die : Option Nat) (a w v mask : Nat) :
    (ms.rawWrite die a w v mask).mem = ms.mem.writeMasked a w v mask := MemSys.taint_mem ..

/-- Whichever LLC keeps them, a write of physical bits writes the masked ones (R293). -/
theorem State.writePhys_mem (k : Option Keep) (a w v mask : Nat) :
    (s.writePhys k a w v mask).mem = s.ms.mem.writeMasked a w v mask := by
  unfold State.writePhys
  cases k <;> exact MemSys.rawWrite_mem ..

/-- Bits of a mask that covers an access. -/
def covers (n mask : Nat) : Prop := ∀ i < n, mask.testBit i = true

theorem covers_ones (n : Nat) : covers n (2 ^ n - 1) := fun i hi => by rw [Nat.testBit_two_pow_sub_one]; simpa using hi

theorem covers_shift {n k mask : Nat} (h : covers (k + n) mask) : covers n (mask >>> k) := fun i hi => by
  rw [Nat.testBit_shiftRight]; exact h _ (by omega)

/-- The memory invariant of one core and of memory. -/
theorem State.Inv.writeSeg {s : State} (hs : s.Inv) (die : Option Keep) (g : Seg) (v mask : Nat) (hg : ∀ f o w, g ≠ .packed f o w) :
    (s.writeSeg die g v mask).Inv := by
  unfold State.writeSeg
  cases g with
  | ls a w => exact ⟨hs.mem, Mem.writeMasked_wf hs.ls .., hs.others⟩
  | phys a w => exact ⟨by simpa [State.writePhys_mem] using Mem.writeMasked_wf hs.mem .., hs.ls, hs.others⟩
  | packed f o w => exact absurd rfl (hg f o w)

/-- A store to parts that lie in no packed page writes exactly the bits they name (R21, R250). -/
theorem State.writeSegs_stored {s : State} (hs : s.Inv) (die : Option Keep) (segs : List Seg) (v mask : Nat)
    (hp : unpacked segs) (hm : covers (totalWidth segs) mask) :
    (s.writeSegs die segs v mask).Inv ∧ s.Stored (s.writeSegs die segs v mask) segs v := by
  induction segs generalizing s v mask with
  | nil => exact ⟨hs, fun b => rfl, fun b => rfl⟩
  | cons g gs ih =>
    have hg := hp g (by simp)
    have hm' : covers (g.width + totalWidth gs) mask := by simpa [totalWidth] using hm
    obtain ⟨hi, hb, hl⟩ := ih (hs.writeSeg die g v mask hg) (v >>> g.width) (mask >>> g.width)
      (fun x hx => hp x (by simp [hx])) (covers_shift hm')
    refine ⟨hi, fun b => ?_, fun b => ?_⟩
    · unfold State.writeSegs writtenBit
      rw [hb b]
      cases h : writtenBit gs (v >>> g.width) b with
      | some x => rfl
      | none =>
        unfold State.writeSeg
        cases g with
        | ls a w => rfl
        | packed f o w => exact absurd rfl (hg f o w)
        | phys a w =>
          simp only [State.writePhys_mem, Option.getD_none]
          rw [Mem.bit_writeMasked hs.mem]
          by_cases hab : a ≤ b ∧ b < a + w
          · rw [if_pos ⟨hab.1, hab.2, hm' _ (by simp [Seg.width]; omega)⟩, if_pos hab]; rfl
          · rw [if_neg fun x => hab ⟨x.1, x.2.1⟩, if_neg hab]; rfl
    · unfold State.writeSegs writtenLocal
      rw [hl b]
      cases h : writtenLocal gs (v >>> g.width) b with
      | some x => rfl
      | none =>
        unfold State.writeSeg
        cases g with
        | phys a w => rfl
        | packed f o w => exact absurd rfl (hg f o w)
        | ls a w =>
          simp only [State.mapCore_core, Option.getD_none]
          rw [Mem.bit_writeMasked hs.ls]
          unfold lsMask
          by_cases hab : a ≤ b ∧ b < a + w
          · have hmb := hm' (b - a) (by simp [Seg.width]; omega)
            by_cases hw : a + w ≤ Config.blocksBase
            · rw [if_pos hw, if_pos ⟨hab.1, hab.2, hmb⟩, if_pos ⟨hab.1, hab.2, Or.inl hw⟩]; rfl
            · rw [if_neg hw, Nat.testBit_mod_two_pow]
              by_cases hbb : b < Config.blocksBase
              · rw [if_pos ⟨hab.1, hab.2, by rw [hmb]; simp; omega⟩, if_pos ⟨hab.1, hab.2, Or.inr hbb⟩]; rfl
              · rw [if_neg (by rintro ⟨-, -, x⟩; simp at x; omega), if_neg (by rintro ⟨-, -, x⟩; omega)]; rfl
          · rw [if_neg fun x => hab ⟨x.1, x.2.1⟩, if_neg fun x => hab ⟨x.1, x.2.1⟩]; rfl

/-- Removing lines changes no byte of another line (R294). -/
theorem MemSys.dropLine_byte (ms : MemSys) (die : Option Nat) (line x : Nat) (h : lineOf (8 * x) ≠ line) :
    (ms.dropLine die line).mem.byte x = ms.mem.byte x := by
  unfold MemSys.dropLine
  dsimp only
  have : ∀ (ds : List Dirty) (m : Mem), (∀ d ∈ ds, d.addr ≠ x) →
      (ds.foldl (fun m d => m.write d.addr 1 d.home.toNat) m).byte x = m.byte x := by
    intro ds
    induction ds with
    | nil => intro m _; rfl
    | cons d ds ih =>
      intro m hd
      rw [List.foldl_cons, ih _ fun e he => hd e (by simp [he]), Mem.byte_write, if_neg]
      have := hd d (by simp)
      omega
  apply this
  intro d hd e
  simp only [List.mem_filter, decide_eq_true_eq] at hd
  exact h (e ▸ hd.2.1)

/-- Removing the lines of an access changes the memory system only, and no byte of another line. -/
theorem State.dropSegs_spec (segs : List Seg) :
    ∃ ms, s.dropSegs segs = s.mapMs (fun _ => ms) ∧ s.OnlyLines (s.dropSegs segs) segs := by
  unfold State.OnlyLines touchesLine
  have lines : ∀ (ls : List Nat) (ms : MemSys) (x : Nat), lineOf (8 * x) ∉ ls →
      (ls.foldl (fun ms l => ms.dropLine (some (dieOf s.coreNo)) l) ms).mem.byte x = ms.mem.byte x := by
    intro ls
    induction ls with
    | nil => intro ms x _; rfl
    | cons l ls ih =>
      intro ms x hx
      rw [List.foldl_cons, ih _ _ fun h => hx (by simp [h]), MemSys.dropLine_byte _ _ _ _ fun h => hx (by simp [h])]
  suffices h : ∀ (gs : List Seg) (ms : MemSys), ∃ ms', (s.mapMs fun _ => ms).dropSegs gs = s.mapMs (fun _ => ms') ∧
      ∀ x, (∀ a w, Seg.phys a w ∈ gs → lineOf (8 * x) ∉ linesOf a w) → ms'.mem.byte x = ms.mem.byte x by
    obtain ⟨ms', h1, h2⟩ := h segs s.ms
    have h3 : s.dropSegs segs = s.mapMs fun _ => ms' := h1
    exact ⟨ms', h3, fun x hx => by rw [h3]; exact h2 x fun a w hg hl => hx ⟨a, w, hg, hl⟩⟩
  intro gs
  induction gs with
  | nil => intro ms; exact ⟨ms, rfl, fun x _ => rfl⟩
  | cons g gs ih =>
    intro ms
    cases g with
    | ls a w =>
      obtain ⟨ms', h1, h2⟩ := ih ms
      exact ⟨ms', h1, fun x hx => h2 x fun a w hg => hx a w (by simp [hg])⟩
    | packed f o w =>
      obtain ⟨ms', h1, h2⟩ := ih ((linesOf (f + o) w).foldl (fun ms l => ms.dropCached (some (dieOf s.coreNo)) l) ms)
      exact ⟨ms', h1, fun x hx => by rw [h2 x fun a w hg => hx a w (by simp [hg]), MemSys.foldl_mem (fun ms l => ms.dropCached (some (dieOf s.coreNo)) l) fun _ _ => rfl]⟩
    | phys a w =>
      obtain ⟨ms', h1, h2⟩ := ih ((linesOf a w).foldl (fun ms l => ms.dropLine (some (dieOf s.coreNo)) l) ms)
      exact ⟨ms', h1, fun x hx => by
        rw [h2 x fun a w hg => hx a w (by simp [hg]), lines _ _ _ (hx a w (by simp))]⟩

/-- A load's hint changes the memory system only, and only where last-use is obeyed; no byte of another line (R115, R294). -/
theorem State.loadHint_spec (h : BitVec 3) (segs : List Seg) :
    (∃ ms, s.loadHint h segs = s.mapMs fun _ => ms) ∧ (s.lastUse h = false → s.loadHint h segs = s) ∧
      s.OnlyLines (s.loadHint h segs) segs := by
  unfold State.loadHint
  split
  · next hl =>
    obtain ⟨ms, h1, h2⟩ := s.dropSegs_spec segs
    exact ⟨⟨ms, h1⟩, fun e => absurd hl (by simp [e]), h2⟩
  · exact ⟨⟨s.ms, rfl⟩, fun _ => rfl, fun x _ => rfl⟩

/-- The extension of a loaded value, as R112 writes it. -/
theorem extendTo_eq (sx : BitVec 1) (w x : Nat) (h0 : 0 < w) (hw : w ≤ 64) (hx : x < 2 ^ w) :
    extendTo (sx = 1) w x = extended sx w x := by
  unfold extendTo extended
  by_cases h : sx = 1
  · simp only [h, decide_true, if_true]
    apply BitVec.eq_of_toInt_eq
    rw [BitVec.toInt_signExtend_of_le hw, BitVec.toInt_eq_toNat_cond (BitVec.ofNat w x), BitVec.toInt_ofInt, BitVec.toNat_ofNat, Nat.mod_eq_of_lt hx]
    unfold toInt
    rw [Nat.mod_eq_of_lt hx]
    obtain ⟨m, rfl⟩ : ∃ m, w = m + 1 := ⟨w - 1, by omega⟩
    have hm : (2 : Nat) ^ m ≤ 2 ^ 63 := Nat.pow_le_pow_right (by omega) (by omega)
    simp only [Nat.add_sub_cancel, pow_succ] at *
    have hx : 2 * x < 2 ^ m * 2 ↔ x < 2 ^ m := by omega
    simp only [hx]
    split
    · rw [Int.bmod_eq_of_le] <;> omega
    · rw [Int.bmod_eq_of_le] <;> omega
  · simp only [h, decide_false, if_false, Bool.false_eq_true]
    apply BitVec.eq_of_toNat_eq
    have : (2:Nat) ^ w ≤ 2 ^ 64 := Nat.pow_le_pow_right (by omega) hw
    rw [BitVec.toNat_setWidth_of_le hw, BitVec.toNat_ofNat, BitVec.toNat_ofNat, Nat.mod_eq_of_lt hx, Nat.mod_eq_of_lt (by omega)]

/-- What a read of several parts returns fits their width. -/
theorem joinSegs_lt (read : Seg → Nat) (segs : List Seg) (h : ∀ g ∈ segs, read g < 2 ^ g.width) :
    joinSegs read segs < 2 ^ totalWidth segs := by
  induction segs with
  | nil => simp [joinSegs, totalWidth]
  | cons g gs ih =>
    unfold joinSegs
    have h1 := h g (by simp)
    have h2 := ih fun x hx => h x (by simp [hx])
    have : totalWidth (g :: gs) = g.width + totalWidth gs := by simp [totalWidth]
    rw [this, pow_add, Nat.shiftLeft_eq]
    generalize joinSegs read gs = y at *
    generalize totalWidth gs = m at *
    calc read g + y * 2 ^ g.width < 2 ^ g.width + y * 2 ^ g.width := by omega
      _ = (y + 1) * 2 ^ g.width := by ring
      _ ≤ 2 ^ m * 2 ^ g.width := Nat.mul_le_mul_right _ h2
      _ = _ := by ring

end Sys2Proof.Machine
end

