-- ==== Sys2Proof/Laws/Address.lean ====
section
/-! SUPPORT. Tagged addresses as arithmetic: the effective address of a scalar access (R29, R111). -/

namespace Sys2Proof.Machine

/-- A field of a number. -/
theorem bits_eq (x hi lo : Nat) : bits x hi lo = x / 2 ^ lo % 2 ^ (hi - lo + 1) := by
  unfold bits; rw [Nat.shiftRight_eq_div_pow]

/-- The tag, the offset and a tagged address as arithmetic (R29). -/
theorem tagOf_eq (t : Word) : tagOf t = t.toNat / 2 ^ 60 := by
  unfold tagOf
  rw [bits_eq]
  have : t.toNat < 2 ^ 64 := t.isLt
  norm_num at *
  omega

theorem offOf_eq (t : Word) : offOf t = t.toNat % 2 ^ 58 := by
  unfold offOf
  rw [bits_eq]
  norm_num

theorem tagged_eq (n off : Nat) (hn : n < 16) (ho : off < 2 ^ 58) : tagged n off = BitVec.ofNat 64 (n * 2 ^ 60 + off) := by
  unfold tagged
  rw [Nat.mod_eq_of_lt hn, Nat.mod_eq_of_lt ho, Nat.shiftLeft_eq]

/-- Where entry i of a table stands, and whether an entry points to a table, as arithmetic (R40, R41). -/
theorem tableSlot_eq (x i : Nat) : tableSlot x i = x / 2 ^ 17 % 2 ^ 37 * 2 ^ 17 + 64 * i := by
  unfold tableSlot pteTable; rw [bits_eq, Nat.shiftLeft_eq]

theorem leadsOn_iff (e : Nat) : leadsOn e = true ↔ isTable e := by
  unfold leadsOn isTable pteValid pteReserved pteLeaf ptePacked
  simp only [bits_eq, Bool.and_eq_true, Bool.not_eq_true', decide_eq_true_eq, decide_eq_false_iff_not]
  norm_num
  omega

/-- The entry at a slot leads on exactly where one is there that points to a table. -/
theorem leadsOn_entryAt (pte : Nat → Nat) (x i : Nat) :
    leadsOn (entryAt pte (tableSlot x i)) = true ↔ entryIs pte x i (entryAt pte (tableSlot x i)) ∧ isTable (entryAt pte (tableSlot x i)) := by
  rw [leadsOn_iff]
  unfold entryIs entryAt
  rw [← tableSlot_eq]
  split
  · next h => simp [h]
  · simp [isTable]

/-- The addresses that the walk reads (R40, R41). -/
theorem mem_walkReads (pte : Nat → Nat) (root : Word) (va a : Nat) : a ∈ walkReads pte root va ↔ WalkReads pte root va a := by
  have one (x i e : Nat) (h : entryIs pte x i e) : e = entryAt pte (tableSlot x i) := by
    obtain ⟨h1, h2⟩ := h
    rw [← tableSlot_eq] at h1 h2
    simp [entryAt, h1, h2]
  have f1 : bits va 57 47 = va / 2 ^ 47 % 2 ^ 11 := bits_eq ..
  have f2 : bits va 46 36 = va / 2 ^ 36 % 2 ^ 11 := bits_eq ..
  have f3 : bits va 35 25 = va / 2 ^ 25 % 2 ^ 11 := bits_eq ..
  have f0 : bits root.toNat 0 0 = root.toNat % 2 := by rw [bits_eq]; simp
  unfold walkReads WalkReads
  simp only [f0, f1, f2, f3, ← tableSlot_eq]
  constructor
  · intro h
    split at h
    · simp at h
    · next h0 =>
      refine ⟨by omega, ?_⟩
      rcases List.mem_cons.mp h with h | h
      · exact .inl h
      · split at h
        · next l1 =>
          obtain ⟨e1, t1⟩ := (leadsOn_entryAt ..).mp l1
          refine .inr ⟨_, e1, t1, ?_⟩
          rcases List.mem_cons.mp h with h | h
          · exact .inl h
          · split at h
            · next l2 =>
              obtain ⟨e2, t2⟩ := (leadsOn_entryAt ..).mp l2
              exact .inr ⟨_, e2, t2, List.mem_singleton.mp h⟩
            · simp at h
        · simp at h
  · rintro ⟨h0, h⟩
    rw [if_neg (by omega)]
    rcases h with h | ⟨e1, h1, t1, h⟩
    · exact List.mem_cons.mpr (.inl h)
    · obtain rfl := one _ _ _ h1
      rw [if_pos ((leadsOn_entryAt ..).mpr ⟨h1, t1⟩)]
      rcases h with h | ⟨e2, h2, t2, h⟩
      · exact List.mem_cons.mpr (.inr (List.mem_cons.mpr (.inl h)))
      · obtain rfl := one _ _ _ h2
        rw [if_pos ((leadsOn_entryAt ..).mpr ⟨h2, t2⟩)]
        exact List.mem_cons.mpr (.inr (List.mem_cons.mpr (.inr (List.mem_singleton.mpr h))))

/-- The walk reads a heap as the rules have it (R304). -/
theorem State.walkInHeap_iff (s : State) (root : Word) (va : Nat) : s.walkInHeap root va = true ↔ s.WalksHeap root va := by
  unfold State.walkInHeap State.WalksHeap
  simp [List.any_eq_true, mem_walkReads]

/-- The walk reads behind a lost port as the rules have it (R351). -/
theorem State.walkLost_iff (s : State) (root : Word) (va : Nat) : s.walkLost root va = true ↔ s.WalksLost root va := by
  unfold State.walkLost State.WalksLost
  simp [List.any_eq_true, mem_walkReads]

/-- What bars a walk, in the rules' terms (R304, R351). -/
theorem State.walkBar_spec (s : State) (root : Word) (va : Nat) :
    (s.WalksHeap root va → s.walkBar root va = some .perm) ∧
    (¬ s.WalksHeap root va → s.walkBar root va = none ∨ (s.walkBar root va = some .linkdown ∧ s.WalksLost root va)) := by
  rw [← State.walkInHeap_iff, ← State.walkLost_iff]
  unfold State.walkBar
  refine ⟨fun h => if_pos h, fun h => ?_⟩
  rw [if_neg h]
  split
  · next h => exact .inr ⟨rfl, (Bool.and_eq_true ..).mp h |>.1⟩
  · exact .inl rfl

/-- The cause of a page that fails (R41, R304, R351). -/
theorem State.walkCause_spec (s : State) (root : Word) (va : Nat) : s.PageFails root va (s.walkCause root va) := by
  obtain ⟨h1, h2⟩ := s.walkBar_spec root va
  refine ⟨fun h => by simp [State.walkCause, h1 h], fun h => ?_⟩
  rcases h2 h with h | ⟨h, hl⟩
  · exact .inl (by simp [State.walkCause, h])
  · exact .inr ⟨by simp [State.walkCause, h], hl⟩

/-- The exact offset of R111 and R148: the address, or ADDR with the base. -/
theorem offsetBy_spec (t : Word) (d : Int) : offsetBy t d =
    if 0 ≤ (t.toNat % 2 ^ 58 : Nat) + d ∧ (t.toNat % 2 ^ 58 : Nat) + d < 2 ^ 58 then
      .ok (BitVec.ofNat 64 (t.toNat / 2 ^ 60 * 2 ^ 60 + ((t.toNat % 2 ^ 58 : Nat) + d).toNat))
    else .error ⟨.addr, t, 0, 0⟩ := by
  unfold offsetBy
  rw [offOf_eq, tagOf_eq]
  have ht : t.toNat / 2 ^ 60 < 16 := by
    have : t.toNat < 2 ^ 64 := t.isLt
    exact Nat.div_lt_of_lt_mul (by norm_num at *; omega)
  generalize t.toNat / 2 ^ 60 = tag at *
  generalize (t.toNat % 2 ^ 58 : Nat) = o
  dsimp only
  have hp : ((2 ^ 58 : Nat) : Int) = 2 ^ 58 := by norm_num
  rw [hp]
  by_cases h : 0 ≤ (o : Int) + d ∧ (o : Int) + d < 2 ^ 58
  · rw [if_neg (by push Not; exact ⟨h.1, h.2⟩), if_pos h, tagged_eq _ _ ht]
    have := h.2
    rw [← hp] at this
    omega
  · rw [if_pos (by by_contra hc; push Not at hc; exact h ⟨hc.1, hc.2⟩), if_neg h]

/-- The effective address of R111. -/
theorem effective_eq_eaOf (t b : Word) : effective t b = match eaOf t b with | some e => .ok e | none => .error ⟨.addr, t, 0, 0⟩ := by
  unfold effective eaOf eaOffset
  rw [bits_eq, offsetBy_spec]
  have e : 2 ^ (59 - 58 + 1) = 4 := by norm_num
  rw [e]
  by_cases h1 : t.toNat / 2 ^ 58 % 4 = 0
  · rw [if_neg (by rw [h1]; simp)]
    split
    · next h => rw [if_pos ⟨h1, h⟩]
    · next h => rw [if_neg fun x => h x.2]
  · rw [if_pos h1, if_neg fun x => h1 x.1]

end Sys2Proof.Machine
end

