-- ==== Sys2Proof/Laws/Waking.lean ====
section
/-! SUPPORT. What waking a task writes: its record in the owner's pool, its state and its place in the lists (R357, R362, R366). -/

namespace Sys2Proof.Machine

/-- The places of a word in an owner's memory lie in no core's local store, and hold all its bits (R360). -/
theorem State.ownerSegs_spec (s : State) {vd va w : Nat} {wr : Bool} {segs : List Seg} (h : s.ownerSegs vd va w wr = some segs) :
    totalWidth segs = w ∧ ∀ g ∈ segs, ∀ a n, g ≠ .ls a n := by
  unfold State.ownerSegs at h
  dsimp only at h
  split at h
  · simp at h
  · split at h
    · simp at h
    · next hp =>
      split at h
      · simp only [Option.some.injEq] at h
        subst h
        refine ⟨s.pages_width hp, ?_⟩
        unfold State.pages at hp
        dsimp only at hp
        have hpage (e pa w a n : Nat) : pageSeg e pa w ≠ .ls a n := by unfold pageSeg; split <;> simp
        (repeat' split at hp) <;> simp only [reduceCtorEq, Except.ok.injEq] at hp <;> subst hp <;>
          simp only [List.mem_cons, List.not_mem_nil, or_false, forall_eq_or_imp, forall_eq] <;> simp [hpage]
      · simp at h

/-- Writing to parts outside the local store leaves the core alone, and, where no page is packed, the I/O die too. -/
theorem State.writeSegs_phys (s : State) (die : Option Keep) (segs : List Seg) (v mask : Nat) (h : ∀ g ∈ segs, ∀ a n, g ≠ .ls a n) :
    s.writeSegs die segs v mask = { s with ms := (s.writeSegs die segs v mask).ms, io := (s.writeSegs die segs v mask).io } ∧
      (unpacked segs → (s.writeSegs die segs v mask).io = s.io) := by
  induction segs generalizing s v mask with
  | nil => exact ⟨rfl, fun _ => rfl⟩
  | cons g gs ih =>
    have hg := h g (by simp)
    obtain ⟨h1, h2⟩ := ih (s.writeSeg die g v mask) (v >>> g.width) (mask >>> g.width) fun x hx => h x (by simp [hx])
    have hs : s.writeSeg die g v mask = { s with ms := (s.writeSeg die g v mask).ms, io := (s.writeSeg die g v mask).io } ∧
        ((∀ f o w, g ≠ .packed f o w) → (s.writeSeg die g v mask).io = s.io) := by
      cases g with
      | ls a w => exact absurd rfl (hg a w)
      | phys a w => exact ⟨rfl, fun _ => rfl⟩
      | packed f o w =>
        refine ⟨?_, fun x => absurd rfl (x f o w)⟩
        unfold State.writeSeg
        obtain ⟨io, hio⟩ := ({ s with ms := (s.ms.writeLines (s.keeper die f o) f o w v mask).1 }).spills_eq f
          (s.ms.writeLines (s.keeper die f o) f o w v mask).2
        dsimp only
        rw [hio]; rfl
    unfold State.writeSegs
    refine ⟨?_, fun hp => (h2 fun x hx => hp x (by simp [hx])).trans (hs.2 (hp g (by simp)))⟩
    rw [h1]
    generalize ((s.writeSeg die g v mask).writeSegs die gs (v >>> g.width) (mask >>> g.width)) = r
    rw [hs.1]

/-- Mason's write of a word (R360, R410). -/
theorem State.ownerWrite_stored (s : State) (vd va x : Nat) : s.OwnerStored (s.ownerWrite vd va 64 x) (s.ownerSegs vd va 64 true) x := by
  unfold State.OwnerStored State.ownerWrite
  cases h : s.ownerSegs vd va 64 true with
  | none => rfl
  | some segs =>
    obtain ⟨hw, hl⟩ := s.ownerSegs_spec h
    have := s.writeSegs_phys none segs x (2 ^ 64 - 1) hl
    exact ⟨rfl, this.1, fun hp => ⟨this.2 hp, fun hi => State.writeSegs_stored hi none segs x _ hp (hw ▸ covers_ones 64)⟩⟩

/-- Mason's writes of several words. -/
theorem State.ownerWords_wrote (s : State) (vd va : Nat) (xs : List Nat) : s.OwnerWrote vd va xs (s.ownerWords vd va xs) := by
  induction xs generalizing s va with
  | nil => rfl
  | cons x xs ih => exact ⟨_, s.ownerWrite_stored vd va x, ih _ _⟩

/-- They change the memory system, and the I/O die where a chunk spills; no more. -/
theorem State.ownerWords_eq (s : State) (vd va : Nat) (xs : List Nat) :
    s.ownerWords vd va xs = { s with ms := (s.ownerWords vd va xs).ms, io := (s.ownerWords vd va xs).io } := by
  induction xs generalizing s va with
  | nil => rfl
  | cons x xs ih =>
    have h : s.ownerWrite vd va 64 x = { s with ms := (s.ownerWrite vd va 64 x).ms, io := (s.ownerWrite vd va 64 x).io } := by
      unfold State.ownerWrite
      cases h : s.ownerSegs vd va 64 true with
      | none => rfl
      | some segs => exact (s.writeSegs_phys none segs x _ (s.ownerSegs_spec h).2).1
    unfold State.ownerWords
    rw [ih]
    generalize ((s.ownerWrite vd va 64 x).ownerWords vd (va + 64) xs) = r
    rw [h]

/-- A field of a word takes a value, and the other bits stay. -/
theorem putBits_eq (x hi lo v : Nat) (h : lo ≤ hi) : putBits x hi lo v =
    x - x / 2 ^ lo % 2 ^ (hi - lo + 1) * 2 ^ lo + v % 2 ^ (hi - lo + 1) * 2 ^ lo := by
  obtain ⟨n, rfl⟩ : ∃ n, hi = lo + n := ⟨hi - lo, by omega⟩
  have hn : lo + n - lo + 1 = n + 1 := by omega
  have hsplit : x - x / 2 ^ lo % 2 ^ (n + 1) * 2 ^ lo + v % 2 ^ (n + 1) * 2 ^ lo =
      2 ^ lo * (2 ^ (n + 1) * (x / 2 ^ lo / 2 ^ (n + 1)) + v % 2 ^ (n + 1)) + x % 2 ^ lo := by
    have h1 := Nat.div_add_mod x (2 ^ lo)
    have h2 := Nat.div_add_mod (x / 2 ^ lo) (2 ^ (n + 1))
    generalize x / 2 ^ lo / 2 ^ (n + 1) = a at *
    generalize x / 2 ^ lo % 2 ^ (n + 1) = b at *
    generalize x / 2 ^ lo = c at *
    generalize x % 2 ^ lo = r at *
    generalize v % 2 ^ (n + 1) = w
    generalize 2 ^ (n + 1) * a = d at *
    subst h2
    rw [← h1, Nat.mul_add, Nat.mul_add, Nat.mul_comm b, Nat.mul_comm w]
    omega
  unfold putBits
  rw [hn, hsplit]
  refine Nat.eq_of_testBit_eq fun i => ?_
  rw [Nat.testBit_two_pow_mul_add _ (Nat.mod_lt _ (Nat.two_pow_pos _)), Nat.testBit_two_pow_mul_add _ (Nat.mod_lt _ (Nat.two_pow_pos _))]
  simp only [Nat.testBit_xor, Nat.testBit_or, Nat.testBit_shiftLeft, Nat.testBit_two_pow_sub_one, Nat.testBit_mod_two_pow,
    Nat.testBit_div_two_pow, ge_iff_le]
  by_cases h1 : i < lo
  · simp [h1, Nat.not_le.2 h1]
  · have h3 : lo ≤ i := by omega
    by_cases h2 : i - lo < n + 1
    · simp [h1, h2, h3]
    · have h4 : i - lo - (n + 1) + (n + 1) + lo = i := by omega
      simp [h1, h2, h3]
      congr 1; omega

/-- A task's record goes to its place in the pool (R357, R362). -/
theorem State.syncRecord_wrote (s : State) (y : Task) : s.RecordWrote (s.syncRecord y) y ∧
    s.syncRecord y = { s with ms := (s.syncRecord y).ms, io := (s.syncRecord y).io } := by
  unfold State.RecordWrote State.syncRecord
  cases s.sched.graph y.key.vdev y.key.graph with
  | none => exact ⟨rfl, rfl⟩
  | some g =>
    have hw : (List.range 8).map (fun i => bits (putBits y.image.toNat 467 464 y.state.code) (64 * i + 63) (64 * i)) = y.recordWords := by
      unfold Task.recordWords
      have hc : y.state.code < 16 := by cases y.state <;> decide
      refine List.map_congr_left fun i _ => ?_
      rw [bits_eq]
      rw [putBits_eq _ _ _ _ (by omega), show 64 * i + 63 - 64 * i + 1 = 64 by omega]
      have : (467 - 464 + 1 : Nat) = 4 := rfl
      rw [this, Nat.mod_eq_of_lt (show y.state.code < 2 ^ 4 from hc)]
      rfl
    dsimp only
    rw [hw]
    by_cases ho : g.vdev = 0 ∧ g.gid = 0xFFFF
    · have : g.own = true := by unfold Graph.own; simp [ho]
      rw [if_pos this, if_pos ho]; exact ⟨rfl, rfl⟩
    · have : ¬ g.own = true := by unfold Graph.own; simpa using ho
      rw [if_neg this, if_neg ho]; exact ⟨s.ownerWords_wrote _ _ _, s.ownerWords_eq _ _ _⟩

/-- The first task of a key, where every task of that key becomes one. -/
theorem find?_put (l : List Task) (x y : Task) (h : l.find? (fun u => decide (u.key = x.key)) = some x) (hy : y.key = x.key) :
    (l.map fun z => if z.key = x.key then y else z).find? (fun u => decide (u.key = x.key)) = some y := by
  induction l with
  | nil => simp at h
  | cons a l ih =>
    by_cases ha : a.key = x.key
    · simp [ha, hy]
    · simp only [List.find?_cons, ha, decide_false] at h
      simp only [List.map_cons, List.find?_cons, ha, if_false, decide_false]
      exact ih h

/-- A task takes a state (R362): only tasks, memory and what a spill notes change. -/
theorem State.setTaskState_takes (s : State) (k : TaskKey) (st : TaskState) : s.TakesState (s.setTaskState k st) k st := by
  unfold State.TakesState State.setTaskState
  cases h : s.sched.task k with
  | none => rfl
  | some x =>
    obtain rfl : x.key = k := by simpa using List.find?_some h
    have hany : (s.sched.tasks.any fun u => decide (u.key = x.key)) = true :=
      List.any_eq_true.2 ⟨x, List.mem_of_find?_eq_some h, by simp⟩
    have hset : (s.mapSched fun c => c.setTask { x with state := st }) =
        { s with sched := { s.sched with tasks := s.sched.tasks.map fun z => if z.key = x.key then { x with state := st } else z } } := by
      unfold State.mapSched Sched.setTask
      simp only [hany, if_true]
    dsimp only
    rw [hset]
    exact (State.syncRecord_wrote _ _).1

/-- What the tasks of a state are once one of them has taken another state. -/
theorem State.setTaskState_sched (s : State) {k : TaskKey} {x : Task} (h : s.sched.task k = some x) (st : TaskState) :
    (s.setTaskState k st).sched = { s.sched with tasks := s.sched.tasks.map fun z => if z.key = k then { x with state := st } else z } := by
  obtain rfl : x.key = k := by simpa using List.find?_some h
  have hany : (s.sched.tasks.any fun u => decide (u.key = x.key)) = true :=
    List.any_eq_true.2 ⟨x, List.mem_of_find?_eq_some h, by simp⟩
  unfold State.setTaskState
  rw [h]
  dsimp only
  rw [(State.syncRecord_wrote _ _).2]
  unfold State.mapSched Sched.setTask
  simp only [hany, if_true]

/-- A task becomes ready, or pre-empted (R362, R366). -/
theorem State.makeReady_readies (s : State) (k : TaskKey) : s.Readies (s.makeReady k false) k := by
  unfold State.Readies State.makeReady
  cases h : s.sched.task k with
  | none => rfl
  | some x =>
    obtain rfl : x.key = k := by simpa using List.find?_some h
    dsimp only
    refine ⟨_, s.setTaskState_takes x.key (if x.saved then .preempted else .ready), ?_⟩
    have hs := s.setTaskState_sched h (if x.saved then .preempted else .ready)
    have hf : (s.setTaskState x.key (if x.saved then .preempted else .ready)).sched.task x.key =
        some { x with state := if x.saved then .preempted else .ready } := by
      rw [hs]; exact find?_put _ x { x with state := if x.saved then .preempted else .ready } h rfl
    unfold State.mapSched Sched.enlist
    simp only [hf]
    rfl

/-- Waking a list of waiters, one after the other (R297). -/
theorem State.wakeEach (s : State) (ws : List Waiter) : s.WakesEach ws (ws.foldl State.wakeWaiter s) := by
  induction ws generalizing s with
  | nil => rfl
  | cons w ws ih =>
    cases w with
    | task k => exact ⟨_, s.makeReady_readies k, ih _⟩
    | stream p => exact ih _
    | encoder j => exact ih _

/-- A test that a changed member passes as it did before. -/
theorem any_set {α : Type} (p : α → Bool) (l : List α) (n : Nat) (y : α) (h : ∀ x, l[n]? = some x → p y = p x) :
    (l.set n y).any p = l.any p := by
  induction l generalizing n with
  | nil => rfl
  | cons a l ih =>
    cases n with
    | zero => simp [h a (by simp)]
    | succ n => simp only [List.set_cons_succ, List.any_cons]; rw [ih n fun x hx => h x (by simpa using hx)]

/-- Every heap stays protected while a region's entry keeps its heap and does not become closed (R304). -/
theorem State.inHeap_put (s : State) (v : VerSys) (n : Nat) (y : BitVec 384) (hv : v.regions = s.ver.regions.setIfInBounds n y)
    (hc : v.closing = s.ver.closing)
    (hy : ∀ x, s.ver.regions.toList[n]? = some x → bits y.toNat 181 128 = bits x.toNat 181 128 ∧
      bits y.toNat 303 256 = bits x.toNat 303 256 ∧ (bits y.toNat 255 254 = 0 ↔ bits x.toNat 255 254 = 0)) (a w : Nat) :
    ({ s with ver := v } : State).inHeap a w = s.inHeap a w := by
  unfold State.inHeap
  dsimp only
  rw [hv, hc]
  congr 1
  rw [Vector.toList_setIfInBounds]
  refine any_set _ _ _ _ fun x hx => ?_
  obtain ⟨h1, h2, h3⟩ := hy x hx
  rw [h1, h2]
  refine congrArg (· && _) ?_
  exact decide_eq_decide.2 (not_congr h3)

/-- Fields that do not meet the one that is put keep their value. -/
theorem bits_putBits (x hi lo v a b : Nat) (h : lo ≤ hi) (hba : b ≤ a) (hab : a < lo ∨ hi < b) : bits (putBits x hi lo v) a b = bits x a b := by
  rw [bits_eq, bits_eq]
  refine Nat.eq_of_testBit_eq fun i => ?_
  simp only [Nat.testBit_mod_two_pow, Nat.testBit_div_two_pow]
  by_cases hi' : i < a - b + 1
  · simp only [hi', decide_true, Bool.true_and]
    unfold putBits
    simp only [Nat.testBit_xor, Nat.testBit_or, Nat.testBit_shiftLeft, Nat.testBit_two_pow_sub_one, Nat.testBit_mod_two_pow, ge_iff_le]
    by_cases h1 : lo ≤ i + b
    · have : ¬ i + b - lo < hi - lo + 1 := by omega
      simp [this]
    · simp [h1]
  · simp [hi']

/-- A field of a region's entry that is put, apart from its heap and ST, leaves every heap protected as it was (R304). -/
theorem State.inHeap_putField (s : State) (v : VerSys) (n hi lo x : Nat) (hv : v.regions = (s.ver.put n hi lo x).regions)
    (hc : v.closing = s.ver.closing) (h : lo ≤ hi) (hlo : 303 < lo ∨ (lo = 250 ∧ hi = 250)) (hx : hi < 384) (a w : Nat) :
    ({ s with ver := v } : State).inHeap a w = s.inHeap a w := by
  refine s.inHeap_put v n _ hv hc (fun y hy => ?_) a w
  have hr : s.ver.region n = y := by
    unfold VerSys.region; rw [← Vector.getElem?_toList, hy]; rfl
  have hlt : putBits (s.ver.region n).toNat hi lo x < 2 ^ 384 := by
    refine Nat.lt_pow_two_of_testBit _ fun i hi' => ?_
    have hb := (s.ver.region n).isLt
    unfold putBits
    simp only [Nat.testBit_xor, Nat.testBit_or, Nat.testBit_shiftLeft, Nat.testBit_two_pow_sub_one, Nat.testBit_mod_two_pow, ge_iff_le]
    have h1 : ¬ i - lo < hi - lo + 1 := by omega
    have h2 : (s.ver.region n).toNat.testBit i = false :=
      Nat.testBit_lt_two_pow (lt_of_lt_of_le hb (Nat.pow_le_pow_right (by omega) hi'))
    simp [h1, h2]
  rw [BitVec.toNat_ofNat, Nat.mod_eq_of_lt hlt, hr]
  refine ⟨bits_putBits _ _ _ _ _ _ h (by omega) (by omega), bits_putBits _ _ _ _ _ _ h (by omega) (by omega), ?_⟩
  rw [bits_putBits _ _ _ _ _ _ h (by omega) (by omega)]

/-- Ending the waits for a version that a test selects wakes who waits there (R297, R306). -/
theorem State.wakeVersions_wakes (s : State) (n : Nat) (hit : VWait → Bool) :
    ∃ v w, (∀ a b, ({ s with ver := v } : State).inHeap a b = s.inHeap a b) ∧
      ({ s with ver := v } : State).WakesEach (s.ver.waiters hit) w ∧ s.wakeVersions n hit = w ∧ v.versions = s.ver.versions := by
  have key (t : State) : t.WakesEach (s.ver.waiters hit) ((s.ver.waits.filter hit).foldl (fun s w => s.wakeWaiter w.who) t) := by
    have := t.wakeEach (s.ver.waiters hit)
    unfold VerSys.waiters at this ⊢
    rwa [List.foldl_map] at this
  let v : VerSys := { s.ver with waits := s.ver.waits.filter fun w => ! hit w }
  unfold State.wakeVersions
  dsimp only
  split
  · exact ⟨v, _, fun a b => rfl, key _, rfl, rfl⟩
  · exact ⟨v.put n 250 250 0, _,
      fun a b => s.inHeap_putField _ n 250 250 0 rfl rfl (by omega) (.inr ⟨rfl, rfl⟩) (by omega) a b, key _, rfl, rfl⟩

/-- Creating a version wakes its waiters and the unentered ones of its region (R297, R306, R311). -/
theorem State.createVersion_wakes (s : State) (n x k : Nat) (value : Word) :
    ∃ v w, (∀ a b, ({ s with ver := v } : State).inHeap a b = s.inHeap a b) ∧
      ({ s with ver := v } : State).WakesEach (s.ver.waiters fun y => y.region = n && ((y.word = x && y.number = k) || ! y.entered)) w ∧
      s.createVersion n x k value = w := by
  unfold State.createVersion
  obtain ⟨v, w, h1, h2, h3, -⟩ := (s.mapVer fun u => { u.put n 367 320 (regHused (u.region n) + 128) with
      versions := { region := n, word := x, number := k, value := value } :: u.versions }).wakeVersions_wakes n
    fun w => w.region = n && ((w.word = x && w.number = k) || ! w.entered)
  refine ⟨v, w, fun a b => (h1 a b).trans ?_, h2, h3⟩
  exact s.inHeap_putField _ n 367 320 _ rfl rfl (by omega) (.inl (by omega)) (by omega) a b

end Sys2Proof.Machine
end

