-- ==== Sys2Proof/Laws/Graphs.lean ====
section
/-! SUPPORT. What the end and the abort of a graph leave (R364, R365, R371). -/

namespace Sys2Proof.Machine

/-- The end of a graph's last record, or of one that is not its last (R365). -/
theorem State.finishGraph_ends (s : State) (vd gid : Nat) : s.GraphEnds (s.finishGraph vd gid) vd gid := by
  unfold State.GraphEnds State.finishGraph
  cases h : s.sched.graph vd gid with
  | none => rfl
  | some g =>
    have hall : ((s.sched.graphTasks vd gid).all fun t => decide (t.state = .ended)) = true ↔
        ¬ ∃ x ∈ s.sched.tasks, (x.key.vdev = vd ∧ x.key.graph = gid) ∧ x.state ≠ .ended := by
      unfold Sched.graphTasks
      simp only [List.all_eq_true, List.mem_filter, decide_eq_true_eq, Bool.and_eq_true, not_exists, not_and, not_not, and_imp]
    have hown : g.own = true ↔ g.vdev = 0 ∧ g.gid = 0xFFFF := by unfold Graph.own; simp
    have hw : (if g.aborted then 2 else 1) + g.code <<< 4 = (if g.aborted then 2 else 1) + 16 * g.code := by
      rw [Nat.shiftLeft_eq]; omega
    dsimp only
    refine ⟨fun ho => ?_, fun ho => ?_⟩
    · rcases ho with ho | ho
      · rw [if_pos (hown.2 ho)]
      · by_cases hg : g.own = true
        · rw [if_pos hg]
        · rw [if_neg hg, if_pos fun x => hall.1 x ho]
    · have h1 : ¬ g.own = true := fun x => ho (.inl (hown.1 x))
      have h2 := hall.2 fun x => ho (.inr x)
      rw [if_neg h1, if_neg (not_not.2 h2)]
      refine ⟨_, s.ownerWrite_stored vd g.done _, ?_⟩
      rw [hw]
      split
      · rfl
      · unfold State.mapSched Sched.mapGraph
        simp only [Bool.and_eq_true, decide_eq_true_eq, and_assoc]

/-- Changing core n changes that core alone, if there is one of that number (R1). -/
theorem State.coreAt_mapCoreNo (s : State) (n m : Nat) (f : Core → Core) :
    (s.mapCoreNo n f).coreAt m = if m = n ∧ n < 224 then f (s.coreAt n) else s.coreAt m := by
  unfold State.mapCoreNo
  by_cases hn : Config.cores ≤ n
  · rw [if_pos hn, if_neg fun x => absurd x.2 (by unfold Config.cores at hn; omega)]
  · rw [if_neg hn]
    have hlt : n < 224 := by unfold Config.cores at hn; omega
    by_cases h1 : n = s.coreNo
    · rw [if_pos h1]
      unfold State.coreAt
      by_cases h2 : m = n
      · rw [if_pos (h2.trans h1), if_pos h1]; simp [h2, hlt]
      · rw [if_neg fun x => h2 (x.trans h1.symm), if_neg fun x : m = s.coreNo => h2 (x.trans h1.symm)]; simp [h2]
    · rw [if_neg h1]
      unfold State.coreAt
      dsimp only
      have hfind (c : Core) (h2 : ¬ m = n) : ((n, c) :: s.others.filter fun x => decide (x.1 ≠ n)).find? (fun x => decide (x.1 = m)) =
          s.others.find? fun x => decide (x.1 = m) := by
        simp only [List.find?_cons, Ne.symm h2, decide_false]
        rw [List.find?_filter]
        congr 1; funext x
        by_cases hx : x.1 = m <;> simp [hx, h2]
      by_cases h2 : m = n
      · subst h2
        simp only [h1, if_false, List.find?_cons, decide_true, hlt, and_self, if_true]
      · by_cases h3 : m = s.coreNo
        · rw [if_pos h3, if_neg (fun x => h2 x.1), if_pos h3]
        · simp only [h3, if_false, h2, false_and, hfind _ h2]

/-- What no step of a sequence of changes touches is as before. -/
theorem foldl_same {σ α β : Type} (f : σ → α → σ) (p : σ → β) (h : ∀ s x, p (f s x) = p s) (xs : List α) (s : σ) :
    p (xs.foldl f s) = p s := by
  induction xs generalizing s with
  | nil => rfl
  | cons x xs ih => rw [List.foldl_cons, ih, h]

/-- A task's record survives what gives its key another task of the same record. -/
theorem Sched.task_setTask (c : Sched) (k : TaskKey) {x t : Task} (h : c.task t.key = some x) (ht : t.record = x.record) :
    ((c.setTask t).task k).map Task.record = (c.task k).map Task.record := by
  have hx : x.key = t.key := by simpa using List.find?_some h
  have hany : (c.tasks.any fun u => decide (u.key = t.key)) = true := List.any_eq_true.2 ⟨x, List.mem_of_find?_eq_some h, by simp [hx]⟩
  unfold Sched.setTask
  rw [if_pos hany]
  unfold Sched.task at h ⊢
  dsimp only
  generalize c.tasks = l at h
  induction l with
  | nil => simp at h
  | cons a l ih =>
    simp only [List.map_cons, List.find?_cons] at h ⊢
    by_cases ha : a.key = t.key
    · simp only [ha, decide_true, Option.some.injEq] at h
      subst h
      simp only [ha, if_true]
      by_cases hk : t.key = k
      · simp [hk, ht]
      · simp only [hk, decide_false]
        congr 1
        clear ih hany
        induction l with
        | nil => rfl
        | cons b l ih =>
          simp only [List.map_cons, List.find?_cons]
          by_cases hb : b.key = t.key
          · simp only [hb, if_true, hk, decide_false]; exact ih
          · simp only [hb, if_false]; split
            · rfl
            · exact ih
    · simp only [ha, decide_false] at h
      simp only [ha, if_false]
      split
      · rfl
      · exact ih h

/-- What an unbind charges leaves the records, the slots, the graphs and the lists alone (R378, R383). -/
theorem Sched.charge_kept (c : Sched) (k : TaskKey) : (∀ j, ((c.charge k).task j).map Task.record = (c.task j).map Task.record) ∧
    (c.charge k).slots = c.slots ∧ (c.charge k).graphs = c.graphs ∧ (c.charge k).lists = c.lists ∧ (c.charge k).poolParked = c.poolParked := by
  unfold Sched.charge
  cases h : c.task k with
  | none => exact ⟨fun _ => rfl, rfl, rfl, rfl, rfl⟩
  | some t =>
    have ht : t.key = k := by simpa using List.find?_some h
    refine ⟨fun j => Sched.task_setTask _ j (t := { t with ran := 0 }) (x := t)
      (by show c.task t.key = some t; rw [ht]; exact h) rfl, ?_⟩
    dsimp only
    unfold Sched.setTask
    split <;> exact ⟨rfl, rfl, rfl, rfl⟩

/-- Cores that stop for an abort, each with its charge, leave everything else alone (R364). -/
theorem State.stopCores (ns : List Nat) (s : State) :
    let u := ns.foldl (fun s n => (s.mapCoreNo n Core.idle).mapSched fun c => c.charge (keyOf (bindTid (c.slot n).run))) s
    u.ms = s.ms ∧ u.ver = s.ver ∧ u.str = s.str ∧ (∀ k, (u.sched.task k).map Task.record = (s.sched.task k).map Task.record) ∧
      u.sched.slots = s.sched.slots ∧ u.sched.graphs = s.sched.graphs ∧ u.sched.lists = s.sched.lists ∧
      u.sched.poolParked = s.sched.poolParked ∧ (∀ n, n ∉ ns → u.coreAt n = s.coreAt n) ∧
      (∀ n, ((s.coreAt n).main.running = false → (u.coreAt n).main.running = false) ∧
        ((s.coreAt n).matrix.running = false → (u.coreAt n).matrix.running = false)) ∧
      ∀ n ∈ ns, n < 224 → (u.coreAt n).main.running = false ∧ (u.coreAt n).matrix.running = false := by
  induction ns generalizing s with
  | nil => exact ⟨rfl, rfl, rfl, fun _ => rfl, rfl, rfl, rfl, rfl, fun _ _ => rfl, fun _ => ⟨id, id⟩, by simp⟩
  | cons n ns ih =>
    have hm : (s.mapCoreNo n Core.idle).ms = s.ms ∧ (s.mapCoreNo n Core.idle).ver = s.ver ∧ (s.mapCoreNo n Core.idle).str = s.str ∧
        (s.mapCoreNo n Core.idle).sched = s.sched := by
      unfold State.mapCoreNo; split
      · exact ⟨rfl, rfl, rfl, rfl⟩
      · split <;> exact ⟨rfl, rfl, rfl, rfl⟩
    have hc (m : Nat) := s.coreAt_mapCoreNo n m Core.idle
    let t := (s.mapCoreNo n Core.idle).mapSched fun c => c.charge (keyOf (bindTid (c.slot n).run))
    have ht (m : Nat) : t.coreAt m = (s.mapCoreNo n Core.idle).coreAt m := rfl
    obtain ⟨k1, k2, k3, k4, k5⟩ := (s.mapCoreNo n Core.idle).sched.charge_kept (keyOf (bindTid ((s.mapCoreNo n Core.idle).sched.slot n).run))
    obtain ⟨h1, h2, h3, h4, h5, h6, h7, h8, h9, h10, h11⟩ := ih t
    rw [hm.2.2.2] at k1 k2 k3 k4 k5
    have hs : t.sched = s.sched.charge (keyOf (bindTid (s.sched.slot n).run)) := by
      show (s.mapCoreNo n Core.idle).sched.charge (keyOf (bindTid ((s.mapCoreNo n Core.idle).sched.slot n).run)) = _
      rw [hm.2.2.2]
    dsimp only
    rw [List.foldl_cons]
    refine ⟨h1.trans hm.1, h2.trans hm.2.1, h3.trans hm.2.2.1, fun k => (h4 k).trans (by rw [hs]; exact k1 k), h5.trans (by rw [hs]; exact k2),
      h6.trans (by rw [hs]; exact k3), h7.trans (by rw [hs]; exact k4), h8.trans (by rw [hs]; exact k5), fun m hmn => ?_, fun m => ?_, fun m hmn hlt => ?_⟩
    · simp only [List.mem_cons, not_or] at hmn
      rw [h9 m hmn.2, ht, hc, if_neg fun x => hmn.1 x.1]
    · have := h10 m
      rw [ht, hc] at this
      split at this
      · next hx => exact ⟨fun _ => this.1 rfl, fun _ => this.2 rfl⟩
      · exact this
    · rcases List.mem_cons.1 hmn with hx | hx
      · have := h10 m
        rw [ht, hc, if_pos ⟨hx, hx ▸ hlt⟩] at this
        exact ⟨this.1 rfl, this.2 rfl⟩
      · exact h11 m hx hlt

/-- A record names a graph's task, in the model's words and the statements'. -/
theorem namesGraph_iff (vd gid : Nat) (r : BitVec 256) :
    (bindValid r && (keyOf (bindTid r)).vdev = vd && (keyOf (bindTid r)).graph = gid) = true ↔ namesGraph vd gid r := by
  unfold namesGraph keyOf bindTid field
  simp only [bits_eq, Bool.and_eq_true, decide_eq_true_eq, and_assoc]
  have h1 : r.toNat / 2 ^ 0 % 2 ^ (40 - 0 + 1) / 2 ^ 32 % 2 ^ (40 - 32 + 1) = r.toNat / 2 ^ 32 % 2 ^ (40 - 32 + 1) := by norm_num; omega
  have h2 : r.toNat / 2 ^ 0 % 2 ^ (40 - 0 + 1) / 2 ^ 16 % 2 ^ (31 - 16 + 1) = r.toNat / 2 ^ 16 % 2 ^ (31 - 16 + 1) := by norm_num; omega
  rw [h1, h2]

/-- Changing every task, but not what it is to its graph, keeps the record of each. -/
theorem find?_map_record (l : List Task) (f : Task → Task) (hf : ∀ x, (f x).record = x.record) (k : TaskKey) :
    ((l.map f).find? fun u => decide (u.key = k)).map Task.record = (l.find? fun u => decide (u.key = k)).map Task.record := by
  have hk (x : Task) : (f x).key = x.key := congrArg Prod.fst (hf x)
  induction l with
  | nil => rfl
  | cons a l ih =>
    simp only [List.map_cons, List.find?_cons, hk]
    split
    · exact congrArg some (hf a)
    · exact ih

/-- Steps 2 to 4 of an abort (R364). -/
theorem State.clearCores_givesUp (s : State) (vd gid : Nat) : s.GivesUp (s.clearCores vd gid) vd gid := by
  obtain ⟨h1, h2, h3, h4, h5, h6, h7, h8, h9, -, h11⟩ := s.stopCores (s.sched.coresOf vd gid)
  unfold State.clearCores
  generalize (s.sched.coresOf vd gid).foldl (fun s n =>
    (s.mapCoreNo n Core.idle).mapSched fun c => c.charge (keyOf (bindTid (c.slot n).run))) s = u at *
  have hcores (n : Nat) : n ∈ s.sched.coresOf vd gid ↔ ∃ p ∈ s.sched.slots, p.1 = n ∧ namesGraph vd gid p.2.run := by
    unfold Sched.coresOf
    simp only [List.mem_map, List.mem_filter, namesGraph_iff]
    constructor
    · rintro ⟨p, ⟨a, b⟩, rfl⟩; exact ⟨p, a, rfl, b⟩
    · rintro ⟨p, a, rfl, b⟩; exact ⟨p, ⟨a, b⟩, rfl⟩
  have hmine (k : TaskKey) : (decide (k.vdev = vd) && decide (k.graph = gid)) = true ↔ k.vdev = vd ∧ k.graph = gid := by simp
  unfold State.stopGraph
  dsimp only
  have hv : u.ver.versions = s.ver.versions := congrArg VerSys.versions h2
  refine ⟨⟨h1, hv⟩, fun p hp hlt hn => ?_, fun n hn => ?_, ?_, fun x => ?_, ⟨?_, ?_⟩, ⟨fun k => ?_, fun l => ?_⟩, fun k => ?_⟩
  · exact h11 p.1 ((hcores _).2 ⟨p, hp, rfl, hn⟩) hlt
  · refine h9 n fun hx => ?_
    obtain ⟨p, hp, hpn, hr⟩ := (hcores n).1 hx
    exact hn p hp hpn hr
  · intro p hp
    have : p ∈ (u.sched.clearSlots vd gid).slots := hp
    unfold Sched.clearSlots at this
    simp only [List.mem_map] at this
    obtain ⟨q, -, rfl⟩ := this
    have hz : ¬ namesGraph vd gid 0 := fun x => by simp [namesGraph, bindValid] at x
    have hit (r : BitVec 256) : ¬ namesGraph vd gid
        (if (bindValid r && decide ((keyOf (bindTid r)).vdev = vd) && decide ((keyOf (bindTid r)).graph = gid)) = true then 0 else r) := by
      split
      · exact hz
      · next h => exact fun x => h ((namesGraph_iff vd gid r).2 x)
    exact ⟨hit _, hit _⟩
  · show x ∈ u.str.ctxs.filter _ ↔ _
    simp only [List.mem_filter, h3, hmine, decide_eq_true_eq]
  · intro y hy k hk
    have : y ∈ u.ver.waits.filter _ := hy
    simp only [List.mem_filter, hk, Bool.not_eq_true'] at this
    exact fun x => by simp [x] at this
  · intro y hy k hk
    have : y ∈ u.ver.heapWaits.filter _ := hy
    simp only [List.mem_filter, hk, Bool.not_eq_true'] at this
    exact fun x => by simp [x] at this
  · show k ∈ u.sched.poolParked.filter _ ↔ _
    simp only [List.mem_filter, h8, hmine, decide_eq_true_eq]
  · show l ∈ u.sched.lists.filter _ ↔ _
    simp only [List.mem_filter, h7, hmine, decide_eq_true_eq]
  · rw [← h4 k]
    exact find?_map_record _ _ (fun x => by split <;> rfl) k

/-- Tasks become ended, one after the other (R364 step 5). -/
theorem State.setEnded_each (ks : List TaskKey) (s : State) : s.EndsEach ks (ks.foldl (fun s k => s.setTaskState k .ended) s) := by
  induction ks generalizing s with
  | nil => rfl
  | cons k ks ih => exact ⟨_, s.setTaskState_takes k .ended, ih _⟩

/-- Passing over what a test does not select is a fold over what it selects. -/
theorem foldl_skip {σ α : Type} (f : σ → α → σ) (p : α → Bool) (xs : List α) (s : σ) :
    xs.foldl (fun s x => if p x then s else f s x) s = (xs.filter fun x => ! p x).foldl f s := by
  induction xs generalizing s with
  | nil => rfl
  | cons x xs ih =>
    rw [List.foldl_cons, ih]
    by_cases h : p x = true <;> simp [h]

/-- Whether the cores that stop leave a graph's entry alone. -/
theorem State.clearCores_graph (s : State) (vd gid : Nat) : (s.clearCores vd gid).sched.graphs = s.sched.graphs := by
  obtain ⟨-, -, -, -, -, h6, -⟩ := s.stopCores (s.sched.coresOf vd gid)
  exact h6

/-- The abort of a live graph that is not aborted yet (R364, R365). -/
theorem State.abortGraph_aborts (s : State) (g : Graph) (code : Nat) (words : List Nat)
    (hg : s.sched.graph g.vdev g.gid = some g) (ha : g.aborted = false) (ho : ¬ (g.vdev = 0 ∧ g.gid = 0xFFFF)) :
    s.Aborts (s.abortGraph g.vdev g.gid code words) g code words := by
  have hown : g.own = false := by
    cases h : g.own with
    | false => rfl
    | true => exact absurd (by simpa [Graph.own] using h) ho
  have hw := s.ownerWords_eq g.vdev g.fault words
  have hws := s.ownerWords_wrote g.vdev g.fault words
  unfold State.abortGraph
  rw [hg]
  simp only [ha, hown, Bool.false_eq_true, or_self, if_false]
  generalize hw' : s.ownerWords g.vdev g.fault words = w at *
  let mark (x : Graph) : Graph := if x.aborted ∨ x.own then x else { x with aborted := true, code := code }
  let w3 : State := (w.event 10 4 0 (g.gid + g.vdev <<< 16)).mapSched fun c => c.mapGraph g.vdev g.gid mark
  have hgiv := w3.clearCores_givesUp g.vdev g.gid
  have hgr := w3.clearCores_graph g.vdev g.gid
  have hlive : g.live = true := by
    have := List.find?_some hg
    simp only [Bool.and_eq_true, decide_eq_true_eq] at this
    exact this.1.1
  refine ⟨w, w3.clearCores g.vdev g.gid, _, hws, ?_, ?_, State.setEnded_each _ _, ?_⟩
  · exact ⟨hgiv.memory, hgiv.cores, hgiv.others, hgiv.slots, hgiv.programs, hgiv.waits, hgiv.lists, hgiv.tasks⟩
  · unfold Sched.graph
    rw [hgr]
    have hs : w.sched = s.sched := by rw [hw]
    show (w.sched.graphs.map fun x => if (x.live && decide (x.vdev = g.vdev) && decide (x.gid = g.gid)) = true then mark x else x).find?
      (fun x => x.live && decide (x.vdev = g.vdev) && decide (x.gid = g.gid)) = _
    rw [hs]
    unfold Sched.graph at hg
    generalize s.sched.graphs = l at hg
    induction l with
    | nil => simp at hg
    | cons a l ih =>
      simp only [List.find?_cons, List.map_cons] at hg ⊢
      by_cases hp : (a.live && decide (a.vdev = g.vdev) && decide (a.gid = g.gid)) = true
      · rw [hp] at hg
        simp only [Option.some.injEq] at hg
        subst hg
        simp [mark, ha, hown, hlive]
      · simp only [hp, Bool.false_eq_true, if_false] at hg ⊢
        exact ih hg
  · have hf : (fun (s : State) (t : Task) => if t.state = .ended then s else s.setTaskState t.key .ended) =
        fun s t => if decide (t.state = .ended) then s else s.setTaskState t.key .ended := by funext s t; simp
    have hl : ((w3.clearCores g.vdev g.gid).sched.graphTasks g.vdev g.gid).filter (fun x => ! decide (x.state = .ended)) =
        (w3.clearCores g.vdev g.gid).sched.tasks.filter fun x => (x.key.vdev = g.vdev ∧ x.key.graph = g.gid) ∧ x.state ≠ .ended := by
      unfold Sched.graphTasks
      rw [List.filter_filter]
      congr 1; funext x
      rw [Bool.eq_iff_iff]
      simp only [Bool.and_eq_true, Bool.not_eq_true', decide_eq_true_eq, decide_eq_false_iff_not, ne_eq]
      tauto
    rw [hf, foldl_skip (fun (s : State) (t : Task) => s.setTaskState t.key .ended) (fun t => decide (t.state = .ended)), List.foldl_map]
    have hl2 : ∀ f (u : State), (((w3.clearCores g.vdev g.gid).sched.graphTasks g.vdev g.gid).filter fun x => ! decide (x.state = .ended)).foldl f u =
        ((w3.clearCores g.vdev g.gid).sched.tasks.filter fun x => (x.key.vdev = g.vdev ∧ x.key.graph = g.gid) ∧ x.state ≠ .ended).foldl f u :=
      fun f u => by rw [hl]
    erw [hl2]
    exact State.finishGraph_ends _ _ _

/-- A graph in which a task has parked for a pool slot, and in which no other can free one, is aborted with code 15 (R371). -/
theorem State.poolLock_spec (s : State) (vd gid : Nat) :
    s.poolLock vd gid = match s.sched.poolParked.find? fun k => k.vdev = vd && k.graph = gid with
      | none => s
      | some k => if ∃ x ∈ s.sched.tasks, (x.key.vdev = vd ∧ x.key.graph = gid) ∧
            x.state ∈ [.ready, .bound, .running, .preempted, .blockedVersion, .blockedBarrier, .blockedRendezvous] then s
          else s.abortGraph vd gid 15 [15 + 2 ^ 16 * k.record, 0, 0, 0, 0, 0, 0, 0] := by
  unfold State.poolLock
  split
  · next h => simp only [h]
  · next k h =>
    simp only [h]
    have : (((s.sched.graphTasks vd gid).any fun t => t.state = .ready || t.state = .bound || t.state = .running || t.state = .preempted ||
        t.state = .blockedVersion || t.state = .blockedBarrier || t.state = .blockedRendezvous) = true) ↔
        ∃ x ∈ s.sched.tasks, (x.key.vdev = vd ∧ x.key.graph = gid) ∧
          x.state ∈ [TaskState.ready, .bound, .running, .preempted, .blockedVersion, .blockedBarrier, .blockedRendezvous] := by
      unfold Sched.graphTasks
      simp [List.any_eq_true, and_assoc, or_assoc]
    simp only [this, Nat.shiftLeft_eq, Nat.mul_comm]

end Sys2Proof.Machine
end

