-- ==== Sys2Proof/Laws/PerInstr.lean ====
section
/-! SUPPORT. Encoding and decoding agree, constructor by constructor (R47, R48, R60, R61, R66, R68, R241). -/

namespace Sys2Proof.Laws

/-- Decoding the word, parcel or command word of a well-formed instruction gives it back, and bit 0 tells a word from a parcel. -/
def RoundTrip.Statement (i : Instr) : Prop :=
  i.wf = true →
    (∀ w, encode32 i = some w → decode32 w = .ok i ∧ w.getLsbD 0 = true) ∧
    (∀ w, encode16 i = some w → decode16 w = .ok i ∧ w.getLsbD 0 = false) ∧
    (∀ w, encodeCommand i = some w → decodeCommand w = .ok i)

theorem field_low {n m : Nat} (x : BitVec n) (y : BitVec m) (s l : Nat) (h : s + l ≤ m) :
    (x ++ y).extractLsb' s l = y.extractLsb' s l := BitVec.extractLsb'_append_eq_of_add_le h

theorem field_high {n m : Nat} (x : BitVec n) (y : BitVec m) (s l : Nat) (h : m ≤ s) :
    (x ++ y).extractLsb' s l = x.extractLsb' (s - m) l := BitVec.extractLsb'_append_eq_of_le h

theorem field_all {n : Nat} (x : BitVec n) : x.extractLsb' 0 n = x := BitVec.extractLsb'_eq_self

/-- A field that contains a part with another value has another value. -/
theorem part_ne {n : Nat} {v : BitVec n} {s l p q : Nat} {x : BitVec q} {c : BitVec l} (h : v.extractLsb' (s + p) q = x)
    (hpq : p + q ≤ l) (hne : c.extractLsb' p q ≠ x) : v.extractLsb' s l ≠ c := by
  intro hc
  apply hne
  rw [← h, ← hc]
  ext i hi
  simp only [BitVec.getElem_extractLsb', BitVec.getLsbD_extractLsb', Nat.add_assoc]
  simp only [decide_eq_true (show p + i < l by omega), Bool.true_and]

/-- A field cut in two and put together again. -/
theorem joined {n : Nat} (x : BitVec n) (s l m : Nat) (h : l = s) (hn : n = m + l) :
    x.extractLsb' s m ++ x.extractLsb' 0 l = x.cast hn := by
  subst h hn
  ext i hi
  simp only [BitVec.getElem_append, BitVec.getElem_extractLsb', BitVec.getElem_cast]
  split
  · simp [BitVec.getLsbD_eq_getElem (show i < m + l by omega)]
  · rw [show l + (i - l) = i by omega]; exact BitVec.getLsbD_eq_getElem hi

theorem join_7_5 (x : BitVec 12) : x.extractLsb' 5 7 ++ x.extractLsb' 0 5 = x := joined x 5 5 7 rfl rfl
theorem join_1_5 (x : BitVec 6) : x.extractLsb' 5 1 ++ x.extractLsb' 0 5 = x := joined x 5 5 1 rfl rfl
theorem join_5_11 (x : BitVec 16) : x.extractLsb' 11 5 ++ x.extractLsb' 0 11 = x := joined x 11 11 5 rfl rfl
theorem join_7_9 (x : BitVec 16) : x.extractLsb' 9 7 ++ x.extractLsb' 0 9 = x := joined x 9 9 7 rfl rfl

theorem one_bit (x : BitVec 1) : x = 0#1 ∨ x = 1#1 := by revert x; decide

theorem skip {c : Prop} [Decidable c] {α : Type} {t e r : α} (hn : ¬c) (h : e = r) : (if c then t else e) = r := (if_neg hn).trans h

theorem take {c : Prop} [Decidable c] {α : Type} {t e r : α} (hc : c) (h : t = r) : (if c then t else e) = r := (if_pos hc).trans h

/-- An instruction without an encoding. -/
theorem nothing {i : Instr} (h : encode32 i = none) (h16 : encode16 i = none) (hc : encodeCommand i = none) : RoundTrip.Statement i := by
  intro _
  rw [h, h16, hc]
  exact ⟨nofun, nofun, nofun⟩

theorem of32 {i : Instr} {v : BitVec 32} (h : encode32 i = some v) (h16 : encode16 i = none) (hc : encodeCommand i = none)
    (hb : v.getLsbD 0 = true) (hd : i.wf = true → decode32 v = .ok i) : RoundTrip.Statement i := by
  intro hw
  rw [h, h16, hc]
  refine ⟨fun w e => ?_, nofun, nofun⟩
  cases e
  exact ⟨hd hw, hb⟩

theorem of16 {i : Instr} {v : BitVec 16} (h : encode32 i = none) (h16 : encode16 i = some v) (hc : encodeCommand i = none)
    (hb : v.getLsbD 0 = false) (hd : decode16 v = .ok i) : RoundTrip.Statement i := by
  intro _
  rw [h, h16, hc]
  refine ⟨nofun, fun w e => ?_, nofun⟩
  cases e
  exact ⟨hd, hb⟩

theorem ofCommand {i : Instr} {v : BitVec 64} (h : encode32 i = none) (h16 : encode16 i = none) (hc : encodeCommand i = some v)
    (hd : i.wf = true → decodeCommand v = .ok i) : RoundTrip.Statement i := by
  intro hw
  rw [h, h16, hc]
  refine ⟨nofun, nofun, fun w e => ?_⟩
  cases e
  exact hd hw

theorem major00 {w : BitVec 32} (h : w.extractLsb' 1 6 = 0x00#6) : decode32 w = decodeMajor00 w := by unfold decode32; rw [h]; rfl
theorem major01 {w : BitVec 32} (h : w.extractLsb' 1 6 = 0x01#6) : decode32 w = decodeMajor01 w := by unfold decode32; rw [h]; rfl
theorem major02 {w : BitVec 32} (h : w.extractLsb' 1 6 = 0x02#6) : decode32 w = decodeMajor02 w := by unfold decode32; rw [h]; rfl
theorem major03 {w : BitVec 32} (h : w.extractLsb' 1 6 = 0x03#6) : decode32 w = decodeMajor03 w := by unfold decode32; rw [h]; rfl
theorem major04 {w : BitVec 32} (h : w.extractLsb' 1 6 = 0x04#6) : decode32 w = decodeMajor04 w := by unfold decode32; rw [h]; rfl
theorem major05 {w : BitVec 32} (h : w.extractLsb' 1 6 = 0x05#6) : decode32 w = decodeMajor05 w := by unfold decode32; rw [h]; rfl
theorem major06 {w : BitVec 32} (h : w.extractLsb' 1 6 = 0x06#6) : decode32 w = decodeMajor06 w := by unfold decode32; rw [h]; rfl
theorem major08 {w : BitVec 32} (h : w.extractLsb' 1 6 = 0x08#6) : decode32 w = decodeMajor08 w := by unfold decode32; rw [h]; rfl
theorem major09 {w : BitVec 32} (h : w.extractLsb' 1 6 = 0x09#6) : decode32 w = decodeMajor09 w := by unfold decode32; rw [h]; rfl
theorem major0A {w : BitVec 32} (h : w.extractLsb' 1 6 = 0x0A#6) : decode32 w = decodeMajor0A w := by unfold decode32; rw [h]; rfl
theorem major0B {w : BitVec 32} (h : w.extractLsb' 1 6 = 0x0B#6) : decode32 w = decodeMajor0B w := by unfold decode32; rw [h]; rfl
theorem major0C {w : BitVec 32} (h : w.extractLsb' 1 6 = 0x0C#6) : decode32 w = decodeMajor0C w := by unfold decode32; rw [h]; rfl
theorem major0D {w : BitVec 32} (h : w.extractLsb' 1 6 = 0x0D#6) : decode32 w = decodeMajor0D w := by unfold decode32; rw [h]; rfl
theorem major0E {w : BitVec 32} (h : w.extractLsb' 1 6 = 0x0E#6) : decode32 w = decodeMajor0E w := by unfold decode32; rw [h]; rfl
theorem major0F {w : BitVec 32} (h : w.extractLsb' 1 6 = 0x0F#6) : decode32 w = decodeMajor0F w := by unfold decode32; rw [h]; rfl
theorem major10 {w : BitVec 32} (h : w.extractLsb' 1 6 = 0x10#6) : decode32 w = decodeMajor10 w := by unfold decode32; rw [h]; rfl
theorem major11 {w : BitVec 32} (h : w.extractLsb' 1 6 = 0x11#6) : decode32 w = decodeMajor11 w := by unfold decode32; rw [h]; rfl
theorem major12 {w : BitVec 32} (h : w.extractLsb' 1 6 = 0x12#6) : decode32 w = decodeMajor12 w := by unfold decode32; rw [h]; rfl
theorem major13 {w : BitVec 32} (h : w.extractLsb' 1 6 = 0x13#6) : decode32 w = decodeMajor13 w := by unfold decode32; rw [h]; rfl
theorem major14 {w : BitVec 32} (h : w.extractLsb' 1 6 = 0x14#6) : decode32 w = decodeMajor14 w := by unfold decode32; rw [h]; rfl
theorem major15 {w : BitVec 32} (h : w.extractLsb' 1 6 = 0x15#6) : decode32 w = decodeMajor15 w := by unfold decode32; rw [h]; rfl
theorem major16 {w : BitVec 32} (h : w.extractLsb' 1 6 = 0x16#6) : decode32 w = decodeMajor16 w := by unfold decode32; rw [h]; rfl
theorem major17 {w : BitVec 32} (h : w.extractLsb' 1 6 = 0x17#6) : decode32 w = decodeMajor17 w := by unfold decode32; rw [h]; rfl
theorem major18 {w : BitVec 32} (h : w.extractLsb' 1 6 = 0x18#6) : decode32 w = decodeMajor18 w := by unfold decode32; rw [h]; rfl
theorem major19 {w : BitVec 32} (h : w.extractLsb' 1 6 = 0x19#6) : decode32 w = decodeMajor19 w := by unfold decode32; rw [h]; rfl
theorem major1A {w : BitVec 32} (h : w.extractLsb' 1 6 = 0x1A#6) : decode32 w = decodeMajor1A w := by unfold decode32; rw [h]; rfl
theorem major1B {w : BitVec 32} (h : w.extractLsb' 1 6 = 0x1B#6) : decode32 w = decodeMajor1B w := by unfold decode32; rw [h]; rfl
theorem major1C {w : BitVec 32} (h : w.extractLsb' 1 6 = 0x1C#6) : decode32 w = decodeMajor1C w := by unfold decode32; rw [h]; rfl
theorem major1D {w : BitVec 32} (h : w.extractLsb' 1 6 = 0x1D#6) : decode32 w = decodeMajor1D w := by unfold decode32; rw [h]; rfl
theorem major1E {w : BitVec 32} (h : w.extractLsb' 1 6 = 0x1E#6) : decode32 w = decodeMajor1E w := by unfold decode32; rw [h]; rfl
theorem major1F {w : BitVec 32} (h : w.extractLsb' 1 6 = 0x1F#6) : decode32 w = decodeMajor1F w := by unfold decode32; rw [h]; rfl
theorem major20 {w : BitVec 32} (h : w.extractLsb' 1 6 = 0x20#6) : decode32 w = decodeMajor20 w := by unfold decode32; rw [h]; rfl
theorem major21 {w : BitVec 32} (h : w.extractLsb' 1 6 = 0x21#6) : decode32 w = decodeMajor21 w := by unfold decode32; rw [h]; rfl
theorem major22 {w : BitVec 32} (h : w.extractLsb' 1 6 = 0x22#6) : decode32 w = decodeMajor22 w := by unfold decode32; rw [h]; rfl
theorem major23 {w : BitVec 32} (h : w.extractLsb' 1 6 = 0x23#6) : decode32 w = decodeMajor23 w := by unfold decode32; rw [h]; rfl
theorem major24 {w : BitVec 32} (h : w.extractLsb' 1 6 = 0x24#6) : decode32 w = decodeMajor24 w := by unfold decode32; rw [h]; rfl
theorem major25 {w : BitVec 32} (h : w.extractLsb' 1 6 = 0x25#6) : decode32 w = decodeMajor25 w := by unfold decode32; rw [h]; rfl
theorem major26 {w : BitVec 32} (h : w.extractLsb' 1 6 = 0x26#6) : decode32 w = decodeMajor26 w := by unfold decode32; rw [h]; rfl
theorem major28 {w : BitVec 32} (h : w.extractLsb' 1 6 = 0x28#6) : decode32 w = decodeMajor28 w := by unfold decode32; rw [h]; rfl
theorem major29 {w : BitVec 32} (h : w.extractLsb' 1 6 = 0x29#6) : decode32 w = decodeMajor29 w := by unfold decode32; rw [h]; rfl
theorem major2C {w : BitVec 32} (h : w.extractLsb' 1 6 = 0x2C#6) : decode32 w = decodeMajor2C w := by unfold decode32; rw [h]; rfl
theorem major30 {w : BitVec 32} (h : w.extractLsb' 1 6 = 0x30#6) : decode32 w = decodeMajor30 w := by unfold decode32; rw [h]; rfl
theorem major36 {w : BitVec 32} (h : w.extractLsb' 1 6 = 0x36#6) : decode32 w = decodeMajor36 w := by unfold decode32; rw [h]; rfl
theorem major37 {w : BitVec 32} (h : w.extractLsb' 1 6 = 0x37#6) : decode32 w = decodeMajor37 w := by unfold decode32; rw [h]; rfl

theorem cut_7_3_5_5_5_7 (x0 : BitVec 7) (x1 : BitVec 3) (x2 : BitVec 5) (x3 : BitVec 5) (x4 : BitVec 5) (x5 : BitVec 7) :
    (x0 ++ x1 ++ x2 ++ x3 ++ x4 ++ x5).extractLsb' 1 6 = x5.extractLsb' 1 6 ∧
    (x0 ++ x1 ++ x2 ++ x3 ++ x4 ++ x5).extractLsb' 25 7 = x0 ∧
    (x0 ++ x1 ++ x2 ++ x3 ++ x4 ++ x5).extractLsb' 7 5 = x4 ∧
    (x0 ++ x1 ++ x2 ++ x3 ++ x4 ++ x5).extractLsb' 12 5 = x3 ∧
    (x0 ++ x1 ++ x2 ++ x3 ++ x4 ++ x5).extractLsb' 17 5 = x2 ∧
    (x0 ++ x1 ++ x2 ++ x3 ++ x4 ++ x5).extractLsb' 22 3 = x1 ∧
    (x0 ++ x1 ++ x2 ++ x3 ++ x4 ++ x5).extractLsb' 27 5 = x0.extractLsb' 2 5 ∧
    (x0 ++ x1 ++ x2 ++ x3 ++ x4 ++ x5).extractLsb' 28 4 = x0.extractLsb' 3 4 ∧
    (x0 ++ x1 ++ x2 ++ x3 ++ x4 ++ x5).getLsbD 0 = x5.getLsbD 0 := by
  refine ⟨?_, ?_, ?_, ?_, ?_, ?_, ?_, ?_, ?_⟩
  all_goals first
    | simp (disch := decide) only [field_low, field_high, field_all, Nat.reduceSub]
    | exact BitVec.getLsbD_append.trans rfl

theorem cut_6_1_3_5_5_5_7 (x0 : BitVec 6) (x1 : BitVec 1) (x2 : BitVec 3) (x3 : BitVec 5) (x4 : BitVec 5) (x5 : BitVec 5) (x6 : BitVec 7) :
    (x0 ++ x1 ++ x2 ++ x3 ++ x4 ++ x5 ++ x6).extractLsb' 1 6 = x6.extractLsb' 1 6 ∧
    (x0 ++ x1 ++ x2 ++ x3 ++ x4 ++ x5 ++ x6).extractLsb' 26 6 = x0 ∧
    (x0 ++ x1 ++ x2 ++ x3 ++ x4 ++ x5 ++ x6).extractLsb' 7 5 = x5 ∧
    (x0 ++ x1 ++ x2 ++ x3 ++ x4 ++ x5 ++ x6).extractLsb' 12 5 = x4 ∧
    (x0 ++ x1 ++ x2 ++ x3 ++ x4 ++ x5 ++ x6).extractLsb' 25 1 = x1 ∧
    (x0 ++ x1 ++ x2 ++ x3 ++ x4 ++ x5 ++ x6).extractLsb' 17 5 = x3 ∧
    (x0 ++ x1 ++ x2 ++ x3 ++ x4 ++ x5 ++ x6).extractLsb' 22 3 = x2 ∧
    (x0 ++ x1 ++ x2 ++ x3 ++ x4 ++ x5 ++ x6).getLsbD 0 = x6.getLsbD 0 := by
  refine ⟨?_, ?_, ?_, ?_, ?_, ?_, ?_, ?_⟩
  all_goals first
    | simp (disch := decide) only [field_low, field_high, field_all, Nat.reduceSub]
    | exact BitVec.getLsbD_append.trans rfl

theorem cut_7_1_2_9_1_5_7 (x0 : BitVec 7) (x1 : BitVec 1) (x2 : BitVec 2) (x3 : BitVec 9) (x4 : BitVec 1) (x5 : BitVec 5) (x6 : BitVec 7) :
    (x0 ++ x1 ++ x2 ++ x3 ++ x4 ++ x5 ++ x6).extractLsb' 1 6 = x6.extractLsb' 1 6 ∧
    (x0 ++ x1 ++ x2 ++ x3 ++ x4 ++ x5 ++ x6).extractLsb' 24 1 = x1 ∧
    (x0 ++ x1 ++ x2 ++ x3 ++ x4 ++ x5 ++ x6).extractLsb' 7 5 = x5 ∧
    (x0 ++ x1 ++ x2 ++ x3 ++ x4 ++ x5 ++ x6).extractLsb' 25 7 = x0 ∧
    (x0 ++ x1 ++ x2 ++ x3 ++ x4 ++ x5 ++ x6).extractLsb' 13 9 = x3 ∧
    (x0 ++ x1 ++ x2 ++ x3 ++ x4 ++ x5 ++ x6).extractLsb' 22 2 = x2 ∧
    (x0 ++ x1 ++ x2 ++ x3 ++ x4 ++ x5 ++ x6).extractLsb' 12 1 = x4 ∧
    (x0 ++ x1 ++ x2 ++ x3 ++ x4 ++ x5 ++ x6).getLsbD 0 = x6.getLsbD 0 := by
  refine ⟨?_, ?_, ?_, ?_, ?_, ?_, ?_, ?_⟩
  all_goals first
    | simp (disch := decide) only [field_low, field_high, field_all, Nat.reduceSub]
    | exact BitVec.getLsbD_append.trans rfl

theorem cut_1_6_3_5_5_5_7 (x0 : BitVec 1) (x1 : BitVec 6) (x2 : BitVec 3) (x3 : BitVec 5) (x4 : BitVec 5) (x5 : BitVec 5) (x6 : BitVec 7) :
    (x0 ++ x1 ++ x2 ++ x3 ++ x4 ++ x5 ++ x6).extractLsb' 1 6 = x6.extractLsb' 1 6 ∧
    (x0 ++ x1 ++ x2 ++ x3 ++ x4 ++ x5 ++ x6).extractLsb' 7 5 = x5 ∧
    (x0 ++ x1 ++ x2 ++ x3 ++ x4 ++ x5 ++ x6).extractLsb' 12 5 = x4 ∧
    (x0 ++ x1 ++ x2 ++ x3 ++ x4 ++ x5 ++ x6).extractLsb' 17 5 = x3 ∧
    (x0 ++ x1 ++ x2 ++ x3 ++ x4 ++ x5 ++ x6).extractLsb' 31 1 = x0 ∧
    (x0 ++ x1 ++ x2 ++ x3 ++ x4 ++ x5 ++ x6).extractLsb' 25 6 = x1 ∧
    (x0 ++ x1 ++ x2 ++ x3 ++ x4 ++ x5 ++ x6).extractLsb' 22 3 = x2 ∧
    (x0 ++ x1 ++ x2 ++ x3 ++ x4 ++ x5 ++ x6).getLsbD 0 = x6.getLsbD 0 := by
  refine ⟨?_, ?_, ?_, ?_, ?_, ?_, ?_, ?_⟩
  all_goals first
    | simp (disch := decide) only [field_low, field_high, field_all, Nat.reduceSub]
    | exact BitVec.getLsbD_append.trans rfl

theorem cut_1_6_3_5_5_12 (x0 : BitVec 1) (x1 : BitVec 6) (x2 : BitVec 3) (x3 : BitVec 5) (x4 : BitVec 5) (x5 : BitVec 12) :
    (x0 ++ x1 ++ x2 ++ x3 ++ x4 ++ x5).extractLsb' 1 6 = x5.extractLsb' 1 6 ∧
    (x0 ++ x1 ++ x2 ++ x3 ++ x4 ++ x5).extractLsb' 31 1 = x0 ∧
    (x0 ++ x1 ++ x2 ++ x3 ++ x4 ++ x5).extractLsb' 7 5 = x5.extractLsb' 7 5 ∧
    (x0 ++ x1 ++ x2 ++ x3 ++ x4 ++ x5).extractLsb' 12 5 = x4 ∧
    (x0 ++ x1 ++ x2 ++ x3 ++ x4 ++ x5).extractLsb' 17 5 = x3 ∧
    (x0 ++ x1 ++ x2 ++ x3 ++ x4 ++ x5).extractLsb' 25 6 = x1 ∧
    (x0 ++ x1 ++ x2 ++ x3 ++ x4 ++ x5).extractLsb' 22 3 = x2 ∧
    (x0 ++ x1 ++ x2 ++ x3 ++ x4 ++ x5).getLsbD 0 = x5.getLsbD 0 := by
  refine ⟨?_, ?_, ?_, ?_, ?_, ?_, ?_, ?_⟩
  all_goals first
    | simp (disch := decide) only [field_low, field_high, field_all, Nat.reduceSub]
    | exact BitVec.getLsbD_append.trans rfl

theorem cut_5_2_3_5_5_5_7 (x0 : BitVec 5) (x1 : BitVec 2) (x2 : BitVec 3) (x3 : BitVec 5) (x4 : BitVec 5) (x5 : BitVec 5) (x6 : BitVec 7) :
    (x0 ++ x1 ++ x2 ++ x3 ++ x4 ++ x5 ++ x6).extractLsb' 1 6 = x6.extractLsb' 1 6 ∧
    (x0 ++ x1 ++ x2 ++ x3 ++ x4 ++ x5 ++ x6).extractLsb' 27 5 = x0 ∧
    (x0 ++ x1 ++ x2 ++ x3 ++ x4 ++ x5 ++ x6).extractLsb' 7 5 = x5 ∧
    (x0 ++ x1 ++ x2 ++ x3 ++ x4 ++ x5 ++ x6).extractLsb' 12 5 = x4 ∧
    (x0 ++ x1 ++ x2 ++ x3 ++ x4 ++ x5 ++ x6).extractLsb' 17 5 = x3 ∧
    (x0 ++ x1 ++ x2 ++ x3 ++ x4 ++ x5 ++ x6).extractLsb' 25 2 = x1 ∧
    (x0 ++ x1 ++ x2 ++ x3 ++ x4 ++ x5 ++ x6).extractLsb' 22 3 = x2 ∧
    (x0 ++ x1 ++ x2 ++ x3 ++ x4 ++ x5 ++ x6).getLsbD 0 = x6.getLsbD 0 := by
  refine ⟨?_, ?_, ?_, ?_, ?_, ?_, ?_, ?_⟩
  all_goals first
    | simp (disch := decide) only [field_low, field_high, field_all, Nat.reduceSub]
    | exact BitVec.getLsbD_append.trans rfl

theorem cut_20_5_7 (x0 : BitVec 20) (x1 : BitVec 5) (x2 : BitVec 7) :
    (x0 ++ x1 ++ x2).extractLsb' 1 6 = x2.extractLsb' 1 6 ∧
    (x0 ++ x1 ++ x2).extractLsb' 7 5 = x1 ∧
    (x0 ++ x1 ++ x2).extractLsb' 12 20 = x0 ∧
    (x0 ++ x1 ++ x2).getLsbD 0 = x2.getLsbD 0 := by
  refine ⟨?_, ?_, ?_, ?_⟩
  all_goals first
    | simp (disch := decide) only [field_low, field_high, field_all, Nat.reduceSub]
    | exact BitVec.getLsbD_append.trans rfl

theorem cut_4_11_5_12 (x0 : BitVec 4) (x1 : BitVec 11) (x2 : BitVec 5) (x3 : BitVec 12) :
    (x0 ++ x1 ++ x2 ++ x3).extractLsb' 1 6 = x3.extractLsb' 1 6 ∧
    (x0 ++ x1 ++ x2 ++ x3).extractLsb' 28 4 = x0 ∧
    (x0 ++ x1 ++ x2 ++ x3).extractLsb' 7 5 = x3.extractLsb' 7 5 ∧
    (x0 ++ x1 ++ x2 ++ x3).extractLsb' 12 5 = x2 ∧
    (x0 ++ x1 ++ x2 ++ x3).extractLsb' 17 11 = x1 ∧
    (x0 ++ x1 ++ x2 ++ x3).getLsbD 0 = x3.getLsbD 0 := by
  refine ⟨?_, ?_, ?_, ?_, ?_, ?_⟩
  all_goals first
    | simp (disch := decide) only [field_low, field_high, field_all, Nat.reduceSub]
    | exact BitVec.getLsbD_append.trans rfl

theorem cut_4_11_10_7 (x0 : BitVec 4) (x1 : BitVec 11) (x2 : BitVec 10) (x3 : BitVec 7) :
    (x0 ++ x1 ++ x2 ++ x3).extractLsb' 1 6 = x3.extractLsb' 1 6 ∧
    (x0 ++ x1 ++ x2 ++ x3).extractLsb' 28 4 = x0 ∧
    (x0 ++ x1 ++ x2 ++ x3).extractLsb' 17 11 = x1 ∧
    (x0 ++ x1 ++ x2 ++ x3).extractLsb' 7 10 = x2 ∧
    (x0 ++ x1 ++ x2 ++ x3).getLsbD 0 = x3.getLsbD 0 := by
  refine ⟨?_, ?_, ?_, ?_, ?_⟩
  all_goals first
    | simp (disch := decide) only [field_low, field_high, field_all, Nat.reduceSub]
    | exact BitVec.getLsbD_append.trans rfl

theorem cut_4_3_3_10_12 (x0 : BitVec 4) (x1 : BitVec 3) (x2 : BitVec 3) (x3 : BitVec 10) (x4 : BitVec 12) :
    (x0 ++ x1 ++ x2 ++ x3 ++ x4).extractLsb' 1 6 = x4.extractLsb' 1 6 ∧
    (x0 ++ x1 ++ x2 ++ x3 ++ x4).extractLsb' 28 4 = x0 ∧
    (x0 ++ x1 ++ x2 ++ x3 ++ x4).extractLsb' 7 5 = x4.extractLsb' 7 5 ∧
    (x0 ++ x1 ++ x2 ++ x3 ++ x4).extractLsb' 25 3 = x1 ∧
    (x0 ++ x1 ++ x2 ++ x3 ++ x4).extractLsb' 22 3 = x2 ∧
    (x0 ++ x1 ++ x2 ++ x3 ++ x4).extractLsb' 12 10 = x3 ∧
    (x0 ++ x1 ++ x2 ++ x3 ++ x4).getLsbD 0 = x4.getLsbD 0 := by
  refine ⟨?_, ?_, ?_, ?_, ?_, ?_, ?_⟩
  all_goals first
    | simp (disch := decide) only [field_low, field_high, field_all, Nat.reduceSub]
    | exact BitVec.getLsbD_append.trans rfl

theorem cut_4_21_7 (x0 : BitVec 4) (x1 : BitVec 21) (x2 : BitVec 7) :
    (x0 ++ x1 ++ x2).extractLsb' 1 6 = x2.extractLsb' 1 6 ∧
    (x0 ++ x1 ++ x2).extractLsb' 28 4 = x0 ∧
    (x0 ++ x1 ++ x2).extractLsb' 7 21 = x1 ∧
    (x0 ++ x1 ++ x2).getLsbD 0 = x2.getLsbD 0 := by
  refine ⟨?_, ?_, ?_, ?_⟩
  all_goals first
    | simp (disch := decide) only [field_low, field_high, field_all, Nat.reduceSub]
    | exact BitVec.getLsbD_append.trans rfl

theorem cut_3_2_2_3_5_5_5_7 (x0 : BitVec 3) (x1 : BitVec 2) (x2 : BitVec 2) (x3 : BitVec 3) (x4 : BitVec 5) (x5 : BitVec 5) (x6 : BitVec 5) (x7 : BitVec 7) :
    (x0 ++ x1 ++ x2 ++ x3 ++ x4 ++ x5 ++ x6 ++ x7).extractLsb' 1 6 = x7.extractLsb' 1 6 ∧
    (x0 ++ x1 ++ x2 ++ x3 ++ x4 ++ x5 ++ x6 ++ x7).extractLsb' 29 3 = x0 ∧
    (x0 ++ x1 ++ x2 ++ x3 ++ x4 ++ x5 ++ x6 ++ x7).extractLsb' 7 5 = x6 ∧
    (x0 ++ x1 ++ x2 ++ x3 ++ x4 ++ x5 ++ x6 ++ x7).extractLsb' 12 5 = x5 ∧
    (x0 ++ x1 ++ x2 ++ x3 ++ x4 ++ x5 ++ x6 ++ x7).extractLsb' 17 5 = x4 ∧
    (x0 ++ x1 ++ x2 ++ x3 ++ x4 ++ x5 ++ x6 ++ x7).extractLsb' 27 2 = x1 ∧
    (x0 ++ x1 ++ x2 ++ x3 ++ x4 ++ x5 ++ x6 ++ x7).extractLsb' 25 2 = x2 ∧
    (x0 ++ x1 ++ x2 ++ x3 ++ x4 ++ x5 ++ x6 ++ x7).extractLsb' 22 3 = x3 ∧
    (x0 ++ x1 ++ x2 ++ x3 ++ x4 ++ x5 ++ x6 ++ x7).getLsbD 0 = x7.getLsbD 0 := by
  refine ⟨?_, ?_, ?_, ?_, ?_, ?_, ?_, ?_, ?_⟩
  all_goals first
    | simp (disch := decide) only [field_low, field_high, field_all, Nat.reduceSub]
    | exact BitVec.getLsbD_append.trans rfl

theorem cut_4_16_12 (x0 : BitVec 4) (x1 : BitVec 16) (x2 : BitVec 12) :
    (x0 ++ x1 ++ x2).extractLsb' 1 6 = x2.extractLsb' 1 6 ∧
    (x0 ++ x1 ++ x2).extractLsb' 28 4 = x0 ∧
    (x0 ++ x1 ++ x2).extractLsb' 7 5 = x2.extractLsb' 7 5 ∧
    (x0 ++ x1 ++ x2).extractLsb' 12 16 = x1 ∧
    (x0 ++ x1 ++ x2).getLsbD 0 = x2.getLsbD 0 := by
  refine ⟨?_, ?_, ?_, ?_, ?_⟩
  all_goals first
    | simp (disch := decide) only [field_low, field_high, field_all, Nat.reduceSub]
    | exact BitVec.getLsbD_append.trans rfl

theorem cut_10_5_5_5_7 (x0 : BitVec 10) (x1 : BitVec 5) (x2 : BitVec 5) (x3 : BitVec 5) (x4 : BitVec 7) :
    (x0 ++ x1 ++ x2 ++ x3 ++ x4).extractLsb' 1 6 = x4.extractLsb' 1 6 ∧
    (x0 ++ x1 ++ x2 ++ x3 ++ x4).extractLsb' 28 4 = x0.extractLsb' 6 4 ∧
    (x0 ++ x1 ++ x2 ++ x3 ++ x4).extractLsb' 22 10 = x0 ∧
    (x0 ++ x1 ++ x2 ++ x3 ++ x4).extractLsb' 7 5 = x3 ∧
    (x0 ++ x1 ++ x2 ++ x3 ++ x4).extractLsb' 12 5 = x2 ∧
    (x0 ++ x1 ++ x2 ++ x3 ++ x4).extractLsb' 17 5 = x1 ∧
    (x0 ++ x1 ++ x2 ++ x3 ++ x4).getLsbD 0 = x4.getLsbD 0 := by
  refine ⟨?_, ?_, ?_, ?_, ?_, ?_, ?_⟩
  all_goals first
    | simp (disch := decide) only [field_low, field_high, field_all, Nat.reduceSub]
    | exact BitVec.getLsbD_append.trans rfl

theorem cut_10_5_5_12 (x0 : BitVec 10) (x1 : BitVec 5) (x2 : BitVec 5) (x3 : BitVec 12) :
    (x0 ++ x1 ++ x2 ++ x3).extractLsb' 1 6 = x3.extractLsb' 1 6 ∧
    (x0 ++ x1 ++ x2 ++ x3).extractLsb' 28 4 = x0.extractLsb' 6 4 ∧
    (x0 ++ x1 ++ x2 ++ x3).extractLsb' 22 10 = x0 ∧
    (x0 ++ x1 ++ x2 ++ x3).extractLsb' 7 5 = x3.extractLsb' 7 5 ∧
    (x0 ++ x1 ++ x2 ++ x3).extractLsb' 12 5 = x2 ∧
    (x0 ++ x1 ++ x2 ++ x3).extractLsb' 17 5 = x1 ∧
    (x0 ++ x1 ++ x2 ++ x3).getLsbD 0 = x3.getLsbD 0 := by
  refine ⟨?_, ?_, ?_, ?_, ?_, ?_, ?_⟩
  all_goals first
    | simp (disch := decide) only [field_low, field_high, field_all, Nat.reduceSub]
    | exact BitVec.getLsbD_append.trans rfl

theorem cut_10_5_17 (x0 : BitVec 10) (x1 : BitVec 5) (x2 : BitVec 17) :
    (x0 ++ x1 ++ x2).extractLsb' 1 6 = x2.extractLsb' 1 6 ∧
    (x0 ++ x1 ++ x2).extractLsb' 28 4 = x0.extractLsb' 6 4 ∧
    (x0 ++ x1 ++ x2).extractLsb' 22 10 = x0 ∧
    (x0 ++ x1 ++ x2).extractLsb' 7 10 = x2.extractLsb' 7 10 ∧
    (x0 ++ x1 ++ x2).extractLsb' 17 5 = x1 ∧
    (x0 ++ x1 ++ x2).getLsbD 0 = x2.getLsbD 0 := by
  refine ⟨?_, ?_, ?_, ?_, ?_, ?_⟩
  all_goals first
    | simp (disch := decide) only [field_low, field_high, field_all, Nat.reduceSub]
    | exact BitVec.getLsbD_append.trans rfl

theorem cut_4_4_2_5_5_5_7 (x0 : BitVec 4) (x1 : BitVec 4) (x2 : BitVec 2) (x3 : BitVec 5) (x4 : BitVec 5) (x5 : BitVec 5) (x6 : BitVec 7) :
    (x0 ++ x1 ++ x2 ++ x3 ++ x4 ++ x5 ++ x6).extractLsb' 1 6 = x6.extractLsb' 1 6 ∧
    (x0 ++ x1 ++ x2 ++ x3 ++ x4 ++ x5 ++ x6).extractLsb' 28 4 = x0 ∧
    (x0 ++ x1 ++ x2 ++ x3 ++ x4 ++ x5 ++ x6).extractLsb' 7 5 = x5 ∧
    (x0 ++ x1 ++ x2 ++ x3 ++ x4 ++ x5 ++ x6).extractLsb' 12 5 = x4 ∧
    (x0 ++ x1 ++ x2 ++ x3 ++ x4 ++ x5 ++ x6).extractLsb' 17 5 = x3 ∧
    (x0 ++ x1 ++ x2 ++ x3 ++ x4 ++ x5 ++ x6).extractLsb' 24 4 = x1 ∧
    (x0 ++ x1 ++ x2 ++ x3 ++ x4 ++ x5 ++ x6).extractLsb' 22 2 = x2 ∧
    (x0 ++ x1 ++ x2 ++ x3 ++ x4 ++ x5 ++ x6).getLsbD 0 = x6.getLsbD 0 := by
  refine ⟨?_, ?_, ?_, ?_, ?_, ?_, ?_, ?_⟩
  all_goals first
    | simp (disch := decide) only [field_low, field_high, field_all, Nat.reduceSub]
    | exact BitVec.getLsbD_append.trans rfl

theorem cut_8_2_5_5_5_7 (x0 : BitVec 8) (x1 : BitVec 2) (x2 : BitVec 5) (x3 : BitVec 5) (x4 : BitVec 5) (x5 : BitVec 7) :
    (x0 ++ x1 ++ x2 ++ x3 ++ x4 ++ x5).extractLsb' 1 6 = x5.extractLsb' 1 6 ∧
    (x0 ++ x1 ++ x2 ++ x3 ++ x4 ++ x5).extractLsb' 28 4 = x0.extractLsb' 4 4 ∧
    (x0 ++ x1 ++ x2 ++ x3 ++ x4 ++ x5).extractLsb' 24 8 = x0 ∧
    (x0 ++ x1 ++ x2 ++ x3 ++ x4 ++ x5).extractLsb' 7 5 = x4 ∧
    (x0 ++ x1 ++ x2 ++ x3 ++ x4 ++ x5).extractLsb' 12 5 = x3 ∧
    (x0 ++ x1 ++ x2 ++ x3 ++ x4 ++ x5).extractLsb' 17 5 = x2 ∧
    (x0 ++ x1 ++ x2 ++ x3 ++ x4 ++ x5).extractLsb' 22 2 = x1 ∧
    (x0 ++ x1 ++ x2 ++ x3 ++ x4 ++ x5).getLsbD 0 = x5.getLsbD 0 := by
  refine ⟨?_, ?_, ?_, ?_, ?_, ?_, ?_, ?_⟩
  all_goals first
    | simp (disch := decide) only [field_low, field_high, field_all, Nat.reduceSub]
    | exact BitVec.getLsbD_append.trans rfl

theorem cut_4_3_3_5_5_5_7 (x0 : BitVec 4) (x1 : BitVec 3) (x2 : BitVec 3) (x3 : BitVec 5) (x4 : BitVec 5) (x5 : BitVec 5) (x6 : BitVec 7) :
    (x0 ++ x1 ++ x2 ++ x3 ++ x4 ++ x5 ++ x6).extractLsb' 1 6 = x6.extractLsb' 1 6 ∧
    (x0 ++ x1 ++ x2 ++ x3 ++ x4 ++ x5 ++ x6).extractLsb' 28 4 = x0 ∧
    (x0 ++ x1 ++ x2 ++ x3 ++ x4 ++ x5 ++ x6).extractLsb' 7 5 = x5 ∧
    (x0 ++ x1 ++ x2 ++ x3 ++ x4 ++ x5 ++ x6).extractLsb' 12 5 = x4 ∧
    (x0 ++ x1 ++ x2 ++ x3 ++ x4 ++ x5 ++ x6).extractLsb' 17 5 = x3 ∧
    (x0 ++ x1 ++ x2 ++ x3 ++ x4 ++ x5 ++ x6).extractLsb' 25 3 = x1 ∧
    (x0 ++ x1 ++ x2 ++ x3 ++ x4 ++ x5 ++ x6).extractLsb' 22 3 = x2 ∧
    (x0 ++ x1 ++ x2 ++ x3 ++ x4 ++ x5 ++ x6).getLsbD 0 = x6.getLsbD 0 := by
  refine ⟨?_, ?_, ?_, ?_, ?_, ?_, ?_, ?_⟩
  all_goals first
    | simp (disch := decide) only [field_low, field_high, field_all, Nat.reduceSub]
    | exact BitVec.getLsbD_append.trans rfl

theorem cut_4_3_8_5_5_7 (x0 : BitVec 4) (x1 : BitVec 3) (x2 : BitVec 8) (x3 : BitVec 5) (x4 : BitVec 5) (x5 : BitVec 7) :
    (x0 ++ x1 ++ x2 ++ x3 ++ x4 ++ x5).extractLsb' 1 6 = x5.extractLsb' 1 6 ∧
    (x0 ++ x1 ++ x2 ++ x3 ++ x4 ++ x5).extractLsb' 28 4 = x0 ∧
    (x0 ++ x1 ++ x2 ++ x3 ++ x4 ++ x5).extractLsb' 17 8 = x2 ∧
    (x0 ++ x1 ++ x2 ++ x3 ++ x4 ++ x5).extractLsb' 7 5 = x4 ∧
    (x0 ++ x1 ++ x2 ++ x3 ++ x4 ++ x5).extractLsb' 12 5 = x3 ∧
    (x0 ++ x1 ++ x2 ++ x3 ++ x4 ++ x5).extractLsb' 25 3 = x1 ∧
    (x0 ++ x1 ++ x2 ++ x3 ++ x4 ++ x5).getLsbD 0 = x5.getLsbD 0 := by
  refine ⟨?_, ?_, ?_, ?_, ?_, ?_, ?_⟩
  all_goals first
    | simp (disch := decide) only [field_low, field_high, field_all, Nat.reduceSub]
    | exact BitVec.getLsbD_append.trans rfl

theorem cut_15_5_5_7 (x0 : BitVec 15) (x1 : BitVec 5) (x2 : BitVec 5) (x3 : BitVec 7) :
    (x0 ++ x1 ++ x2 ++ x3).extractLsb' 1 6 = x3.extractLsb' 1 6 ∧
    (x0 ++ x1 ++ x2 ++ x3).extractLsb' 22 10 = x0.extractLsb' 5 10 ∧
    (x0 ++ x1 ++ x2 ++ x3).extractLsb' 17 15 = x0 ∧
    (x0 ++ x1 ++ x2 ++ x3).extractLsb' 7 5 = x2 ∧
    (x0 ++ x1 ++ x2 ++ x3).extractLsb' 12 5 = x1 ∧
    (x0 ++ x1 ++ x2 ++ x3).extractLsb' 28 4 = x0.extractLsb' 11 4 ∧
    (x0 ++ x1 ++ x2 ++ x3).getLsbD 0 = x3.getLsbD 0 := by
  refine ⟨?_, ?_, ?_, ?_, ?_, ?_, ?_⟩
  all_goals first
    | simp (disch := decide) only [field_low, field_high, field_all, Nat.reduceSub]
    | exact BitVec.getLsbD_append.trans rfl

theorem cut_4_2_4_5_5_5_7 (x0 : BitVec 4) (x1 : BitVec 2) (x2 : BitVec 4) (x3 : BitVec 5) (x4 : BitVec 5) (x5 : BitVec 5) (x6 : BitVec 7) :
    (x0 ++ x1 ++ x2 ++ x3 ++ x4 ++ x5 ++ x6).extractLsb' 1 6 = x6.extractLsb' 1 6 ∧
    (x0 ++ x1 ++ x2 ++ x3 ++ x4 ++ x5 ++ x6).extractLsb' 28 4 = x0 ∧
    (x0 ++ x1 ++ x2 ++ x3 ++ x4 ++ x5 ++ x6).extractLsb' 22 4 = x2 ∧
    (x0 ++ x1 ++ x2 ++ x3 ++ x4 ++ x5 ++ x6).extractLsb' 7 5 = x5 ∧
    (x0 ++ x1 ++ x2 ++ x3 ++ x4 ++ x5 ++ x6).extractLsb' 12 5 = x4 ∧
    (x0 ++ x1 ++ x2 ++ x3 ++ x4 ++ x5 ++ x6).extractLsb' 17 5 = x3 ∧
    (x0 ++ x1 ++ x2 ++ x3 ++ x4 ++ x5 ++ x6).extractLsb' 26 2 = x1 ∧
    (x0 ++ x1 ++ x2 ++ x3 ++ x4 ++ x5 ++ x6).getLsbD 0 = x6.getLsbD 0 := by
  refine ⟨?_, ?_, ?_, ?_, ?_, ?_, ?_, ?_⟩
  all_goals first
    | simp (disch := decide) only [field_low, field_high, field_all, Nat.reduceSub]
    | exact BitVec.getLsbD_append.trans rfl

theorem cut_15_5_12 (x0 : BitVec 15) (x1 : BitVec 5) (x2 : BitVec 12) :
    (x0 ++ x1 ++ x2).extractLsb' 1 6 = x2.extractLsb' 1 6 ∧
    (x0 ++ x1 ++ x2).extractLsb' 22 10 = x0.extractLsb' 5 10 ∧
    (x0 ++ x1 ++ x2).extractLsb' 17 15 = x0 ∧
    (x0 ++ x1 ++ x2).extractLsb' 28 4 = x0.extractLsb' 11 4 ∧
    (x0 ++ x1 ++ x2).extractLsb' 7 5 = x2.extractLsb' 7 5 ∧
    (x0 ++ x1 ++ x2).extractLsb' 12 5 = x1 ∧
    (x0 ++ x1 ++ x2).getLsbD 0 = x2.getLsbD 0 := by
  refine ⟨?_, ?_, ?_, ?_, ?_, ?_, ?_⟩
  all_goals first
    | simp (disch := decide) only [field_low, field_high, field_all, Nat.reduceSub]
    | exact BitVec.getLsbD_append.trans rfl

theorem cut_4_2_2_24 (x0 : BitVec 4) (x1 : BitVec 2) (x2 : BitVec 2) (x3 : BitVec 24) :
    (x0 ++ x1 ++ x2 ++ x3).extractLsb' 1 6 = x3.extractLsb' 1 6 ∧
    (x0 ++ x1 ++ x2 ++ x3).extractLsb' 28 4 = x0 ∧
    (x0 ++ x1 ++ x2 ++ x3).extractLsb' 7 17 = x3.extractLsb' 7 17 ∧
    (x0 ++ x1 ++ x2 ++ x3).extractLsb' 26 2 = x1 ∧
    (x0 ++ x1 ++ x2 ++ x3).extractLsb' 24 2 = x2 ∧
    (x0 ++ x1 ++ x2 ++ x3).getLsbD 0 = x3.getLsbD 0 := by
  refine ⟨?_, ?_, ?_, ?_, ?_, ?_⟩
  all_goals first
    | simp (disch := decide) only [field_low, field_high, field_all, Nat.reduceSub]
    | exact BitVec.getLsbD_append.trans rfl

theorem cut_1_3_3_3_5_5_2_3_7 (x0 : BitVec 1) (x1 : BitVec 3) (x2 : BitVec 3) (x3 : BitVec 3) (x4 : BitVec 5) (x5 : BitVec 5) (x6 : BitVec 2) (x7 : BitVec 3) (x8 : BitVec 7) :
    (x0 ++ x1 ++ x2 ++ x3 ++ x4 ++ x5 ++ x6 ++ x7 ++ x8).extractLsb' 1 6 = x8.extractLsb' 1 6 ∧
    (x0 ++ x1 ++ x2 ++ x3 ++ x4 ++ x5 ++ x6 ++ x7 ++ x8).extractLsb' 31 1 = x0 ∧
    (x0 ++ x1 ++ x2 ++ x3 ++ x4 ++ x5 ++ x6 ++ x7 ++ x8).extractLsb' 10 2 = x6 ∧
    (x0 ++ x1 ++ x2 ++ x3 ++ x4 ++ x5 ++ x6 ++ x7 ++ x8).extractLsb' 7 3 = x7 ∧
    (x0 ++ x1 ++ x2 ++ x3 ++ x4 ++ x5 ++ x6 ++ x7 ++ x8).extractLsb' 12 5 = x5 ∧
    (x0 ++ x1 ++ x2 ++ x3 ++ x4 ++ x5 ++ x6 ++ x7 ++ x8).extractLsb' 17 5 = x4 ∧
    (x0 ++ x1 ++ x2 ++ x3 ++ x4 ++ x5 ++ x6 ++ x7 ++ x8).extractLsb' 28 3 = x1 ∧
    (x0 ++ x1 ++ x2 ++ x3 ++ x4 ++ x5 ++ x6 ++ x7 ++ x8).extractLsb' 25 3 = x2 ∧
    (x0 ++ x1 ++ x2 ++ x3 ++ x4 ++ x5 ++ x6 ++ x7 ++ x8).extractLsb' 22 3 = x3 ∧
    (x0 ++ x1 ++ x2 ++ x3 ++ x4 ++ x5 ++ x6 ++ x7 ++ x8).getLsbD 0 = x8.getLsbD 0 := by
  refine ⟨?_, ?_, ?_, ?_, ?_, ?_, ?_, ?_, ?_, ?_⟩
  all_goals first
    | simp (disch := decide) only [field_low, field_high, field_all, Nat.reduceSub]
    | exact BitVec.getLsbD_append.trans rfl

theorem cut_4_3_3_5_5_2_3_7 (x0 : BitVec 4) (x1 : BitVec 3) (x2 : BitVec 3) (x3 : BitVec 5) (x4 : BitVec 5) (x5 : BitVec 2) (x6 : BitVec 3) (x7 : BitVec 7) :
    (x0 ++ x1 ++ x2 ++ x3 ++ x4 ++ x5 ++ x6 ++ x7).extractLsb' 1 6 = x7.extractLsb' 1 6 ∧
    (x0 ++ x1 ++ x2 ++ x3 ++ x4 ++ x5 ++ x6 ++ x7).extractLsb' 28 4 = x0 ∧
    (x0 ++ x1 ++ x2 ++ x3 ++ x4 ++ x5 ++ x6 ++ x7).extractLsb' 7 3 = x6 ∧
    (x0 ++ x1 ++ x2 ++ x3 ++ x4 ++ x5 ++ x6 ++ x7).extractLsb' 12 5 = x4 ∧
    (x0 ++ x1 ++ x2 ++ x3 ++ x4 ++ x5 ++ x6 ++ x7).extractLsb' 17 5 = x3 ∧
    (x0 ++ x1 ++ x2 ++ x3 ++ x4 ++ x5 ++ x6 ++ x7).extractLsb' 25 3 = x1 ∧
    (x0 ++ x1 ++ x2 ++ x3 ++ x4 ++ x5 ++ x6 ++ x7).extractLsb' 22 3 = x2 ∧
    (x0 ++ x1 ++ x2 ++ x3 ++ x4 ++ x5 ++ x6 ++ x7).extractLsb' 10 2 = x5 ∧
    (x0 ++ x1 ++ x2 ++ x3 ++ x4 ++ x5 ++ x6 ++ x7).getLsbD 0 = x7.getLsbD 0 := by
  refine ⟨?_, ?_, ?_, ?_, ?_, ?_, ?_, ?_, ?_⟩
  all_goals first
    | simp (disch := decide) only [field_low, field_high, field_all, Nat.reduceSub]
    | exact BitVec.getLsbD_append.trans rfl

theorem cut_4_3_3_2_3_5_5_7 (x0 : BitVec 4) (x1 : BitVec 3) (x2 : BitVec 3) (x3 : BitVec 2) (x4 : BitVec 3) (x5 : BitVec 5) (x6 : BitVec 5) (x7 : BitVec 7) :
    (x0 ++ x1 ++ x2 ++ x3 ++ x4 ++ x5 ++ x6 ++ x7).extractLsb' 1 6 = x7.extractLsb' 1 6 ∧
    (x0 ++ x1 ++ x2 ++ x3 ++ x4 ++ x5 ++ x6 ++ x7).extractLsb' 28 4 = x0 ∧
    (x0 ++ x1 ++ x2 ++ x3 ++ x4 ++ x5 ++ x6 ++ x7).extractLsb' 20 2 = x3 ∧
    (x0 ++ x1 ++ x2 ++ x3 ++ x4 ++ x5 ++ x6 ++ x7).extractLsb' 7 5 = x6 ∧
    (x0 ++ x1 ++ x2 ++ x3 ++ x4 ++ x5 ++ x6 ++ x7).extractLsb' 12 5 = x5 ∧
    (x0 ++ x1 ++ x2 ++ x3 ++ x4 ++ x5 ++ x6 ++ x7).extractLsb' 25 3 = x1 ∧
    (x0 ++ x1 ++ x2 ++ x3 ++ x4 ++ x5 ++ x6 ++ x7).extractLsb' 22 3 = x2 ∧
    (x0 ++ x1 ++ x2 ++ x3 ++ x4 ++ x5 ++ x6 ++ x7).extractLsb' 17 3 = x4 ∧
    (x0 ++ x1 ++ x2 ++ x3 ++ x4 ++ x5 ++ x6 ++ x7).getLsbD 0 = x7.getLsbD 0 := by
  refine ⟨?_, ?_, ?_, ?_, ?_, ?_, ?_, ?_, ?_⟩
  all_goals first
    | simp (disch := decide) only [field_low, field_high, field_all, Nat.reduceSub]
    | exact BitVec.getLsbD_append.trans rfl

theorem cut_4_3_3_1_1_3_5_5_7 (x0 : BitVec 4) (x1 : BitVec 3) (x2 : BitVec 3) (x3 : BitVec 1) (x4 : BitVec 1) (x5 : BitVec 3) (x6 : BitVec 5) (x7 : BitVec 5) (x8 : BitVec 7) :
    (x0 ++ x1 ++ x2 ++ x3 ++ x4 ++ x5 ++ x6 ++ x7 ++ x8).extractLsb' 1 6 = x8.extractLsb' 1 6 ∧
    (x0 ++ x1 ++ x2 ++ x3 ++ x4 ++ x5 ++ x6 ++ x7 ++ x8).extractLsb' 28 4 = x0 ∧
    (x0 ++ x1 ++ x2 ++ x3 ++ x4 ++ x5 ++ x6 ++ x7 ++ x8).extractLsb' 21 1 = x3 ∧
    (x0 ++ x1 ++ x2 ++ x3 ++ x4 ++ x5 ++ x6 ++ x7 ++ x8).extractLsb' 7 5 = x7 ∧
    (x0 ++ x1 ++ x2 ++ x3 ++ x4 ++ x5 ++ x6 ++ x7 ++ x8).extractLsb' 12 5 = x6 ∧
    (x0 ++ x1 ++ x2 ++ x3 ++ x4 ++ x5 ++ x6 ++ x7 ++ x8).extractLsb' 25 3 = x1 ∧
    (x0 ++ x1 ++ x2 ++ x3 ++ x4 ++ x5 ++ x6 ++ x7 ++ x8).extractLsb' 22 3 = x2 ∧
    (x0 ++ x1 ++ x2 ++ x3 ++ x4 ++ x5 ++ x6 ++ x7 ++ x8).extractLsb' 20 1 = x4 ∧
    (x0 ++ x1 ++ x2 ++ x3 ++ x4 ++ x5 ++ x6 ++ x7 ++ x8).extractLsb' 17 3 = x5 ∧
    (x0 ++ x1 ++ x2 ++ x3 ++ x4 ++ x5 ++ x6 ++ x7 ++ x8).getLsbD 0 = x8.getLsbD 0 := by
  refine ⟨?_, ?_, ?_, ?_, ?_, ?_, ?_, ?_, ?_, ?_⟩
  all_goals first
    | simp (disch := decide) only [field_low, field_high, field_all, Nat.reduceSub]
    | exact BitVec.getLsbD_append.trans rfl

theorem cut_4_3_3_7_3_5_7 (x0 : BitVec 4) (x1 : BitVec 3) (x2 : BitVec 3) (x3 : BitVec 7) (x4 : BitVec 3) (x5 : BitVec 5) (x6 : BitVec 7) :
    (x0 ++ x1 ++ x2 ++ x3 ++ x4 ++ x5 ++ x6).extractLsb' 1 6 = x6.extractLsb' 1 6 ∧
    (x0 ++ x1 ++ x2 ++ x3 ++ x4 ++ x5 ++ x6).extractLsb' 28 4 = x0 ∧
    (x0 ++ x1 ++ x2 ++ x3 ++ x4 ++ x5 ++ x6).extractLsb' 15 7 = x3 ∧
    (x0 ++ x1 ++ x2 ++ x3 ++ x4 ++ x5 ++ x6).extractLsb' 7 5 = x5 ∧
    (x0 ++ x1 ++ x2 ++ x3 ++ x4 ++ x5 ++ x6).extractLsb' 12 3 = x4 ∧
    (x0 ++ x1 ++ x2 ++ x3 ++ x4 ++ x5 ++ x6).extractLsb' 25 3 = x1 ∧
    (x0 ++ x1 ++ x2 ++ x3 ++ x4 ++ x5 ++ x6).extractLsb' 22 3 = x2 ∧
    (x0 ++ x1 ++ x2 ++ x3 ++ x4 ++ x5 ++ x6).getLsbD 0 = x6.getLsbD 0 := by
  refine ⟨?_, ?_, ?_, ?_, ?_, ?_, ?_, ?_⟩
  all_goals first
    | simp (disch := decide) only [field_low, field_high, field_all, Nat.reduceSub]
    | exact BitVec.getLsbD_append.trans rfl

theorem cut_7_3_2_3_2_3_2_3_7 (x0 : BitVec 7) (x1 : BitVec 3) (x2 : BitVec 2) (x3 : BitVec 3) (x4 : BitVec 2) (x5 : BitVec 3) (x6 : BitVec 2) (x7 : BitVec 3) (x8 : BitVec 7) :
    (x0 ++ x1 ++ x2 ++ x3 ++ x4 ++ x5 ++ x6 ++ x7 ++ x8).extractLsb' 1 6 = x8.extractLsb' 1 6 ∧
    (x0 ++ x1 ++ x2 ++ x3 ++ x4 ++ x5 ++ x6 ++ x7 ++ x8).extractLsb' 25 7 = x0 ∧
    (x0 ++ x1 ++ x2 ++ x3 ++ x4 ++ x5 ++ x6 ++ x7 ++ x8).extractLsb' 20 2 = x2 ∧
    (x0 ++ x1 ++ x2 ++ x3 ++ x4 ++ x5 ++ x6 ++ x7 ++ x8).extractLsb' 15 2 = x4 ∧
    (x0 ++ x1 ++ x2 ++ x3 ++ x4 ++ x5 ++ x6 ++ x7 ++ x8).extractLsb' 10 2 = x6 ∧
    (x0 ++ x1 ++ x2 ++ x3 ++ x4 ++ x5 ++ x6 ++ x7 ++ x8).extractLsb' 7 3 = x7 ∧
    (x0 ++ x1 ++ x2 ++ x3 ++ x4 ++ x5 ++ x6 ++ x7 ++ x8).extractLsb' 12 3 = x5 ∧
    (x0 ++ x1 ++ x2 ++ x3 ++ x4 ++ x5 ++ x6 ++ x7 ++ x8).extractLsb' 17 3 = x3 ∧
    (x0 ++ x1 ++ x2 ++ x3 ++ x4 ++ x5 ++ x6 ++ x7 ++ x8).extractLsb' 22 3 = x1 ∧
    (x0 ++ x1 ++ x2 ++ x3 ++ x4 ++ x5 ++ x6 ++ x7 ++ x8).getLsbD 0 = x8.getLsbD 0 := by
  refine ⟨?_, ?_, ?_, ?_, ?_, ?_, ?_, ?_, ?_, ?_⟩
  all_goals first
    | simp (disch := decide) only [field_low, field_high, field_all, Nat.reduceSub]
    | exact BitVec.getLsbD_append.trans rfl

theorem cut_7_3_7_3_2_3_7 (x0 : BitVec 7) (x1 : BitVec 3) (x2 : BitVec 7) (x3 : BitVec 3) (x4 : BitVec 2) (x5 : BitVec 3) (x6 : BitVec 7) :
    (x0 ++ x1 ++ x2 ++ x3 ++ x4 ++ x5 ++ x6).extractLsb' 1 6 = x6.extractLsb' 1 6 ∧
    (x0 ++ x1 ++ x2 ++ x3 ++ x4 ++ x5 ++ x6).extractLsb' 25 7 = x0 ∧
    (x0 ++ x1 ++ x2 ++ x3 ++ x4 ++ x5 ++ x6).extractLsb' 15 7 = x2 ∧
    (x0 ++ x1 ++ x2 ++ x3 ++ x4 ++ x5 ++ x6).extractLsb' 10 2 = x4 ∧
    (x0 ++ x1 ++ x2 ++ x3 ++ x4 ++ x5 ++ x6).extractLsb' 7 3 = x5 ∧
    (x0 ++ x1 ++ x2 ++ x3 ++ x4 ++ x5 ++ x6).extractLsb' 12 3 = x3 ∧
    (x0 ++ x1 ++ x2 ++ x3 ++ x4 ++ x5 ++ x6).extractLsb' 22 3 = x1 ∧
    (x0 ++ x1 ++ x2 ++ x3 ++ x4 ++ x5 ++ x6).extractLsb' 28 4 = x0.extractLsb' 3 4 ∧
    (x0 ++ x1 ++ x2 ++ x3 ++ x4 ++ x5 ++ x6).getLsbD 0 = x6.getLsbD 0 := by
  refine ⟨?_, ?_, ?_, ?_, ?_, ?_, ?_, ?_, ?_⟩
  all_goals first
    | simp (disch := decide) only [field_low, field_high, field_all, Nat.reduceSub]
    | exact BitVec.getLsbD_append.trans rfl

theorem cut_7_3_5_5_2_3_7 (x0 : BitVec 7) (x1 : BitVec 3) (x2 : BitVec 5) (x3 : BitVec 5) (x4 : BitVec 2) (x5 : BitVec 3) (x6 : BitVec 7) :
    (x0 ++ x1 ++ x2 ++ x3 ++ x4 ++ x5 ++ x6).extractLsb' 1 6 = x6.extractLsb' 1 6 ∧
    (x0 ++ x1 ++ x2 ++ x3 ++ x4 ++ x5 ++ x6).extractLsb' 25 7 = x0 ∧
    (x0 ++ x1 ++ x2 ++ x3 ++ x4 ++ x5 ++ x6).extractLsb' 28 4 = x0.extractLsb' 3 4 ∧
    (x0 ++ x1 ++ x2 ++ x3 ++ x4 ++ x5 ++ x6).extractLsb' 17 5 = x2 ∧
    (x0 ++ x1 ++ x2 ++ x3 ++ x4 ++ x5 ++ x6).extractLsb' 10 2 = x4 ∧
    (x0 ++ x1 ++ x2 ++ x3 ++ x4 ++ x5 ++ x6).extractLsb' 7 3 = x5 ∧
    (x0 ++ x1 ++ x2 ++ x3 ++ x4 ++ x5 ++ x6).extractLsb' 12 5 = x3 ∧
    (x0 ++ x1 ++ x2 ++ x3 ++ x4 ++ x5 ++ x6).extractLsb' 22 3 = x1 ∧
    (x0 ++ x1 ++ x2 ++ x3 ++ x4 ++ x5 ++ x6).getLsbD 0 = x6.getLsbD 0 := by
  refine ⟨?_, ?_, ?_, ?_, ?_, ?_, ?_, ?_, ?_⟩
  all_goals first
    | simp (disch := decide) only [field_low, field_high, field_all, Nat.reduceSub]
    | exact BitVec.getLsbD_append.trans rfl

theorem cut_4_1_1_4_5_5_5_7 (x0 : BitVec 4) (x1 : BitVec 1) (x2 : BitVec 1) (x3 : BitVec 4) (x4 : BitVec 5) (x5 : BitVec 5) (x6 : BitVec 5) (x7 : BitVec 7) :
    (x0 ++ x1 ++ x2 ++ x3 ++ x4 ++ x5 ++ x6 ++ x7).extractLsb' 1 6 = x7.extractLsb' 1 6 ∧
    (x0 ++ x1 ++ x2 ++ x3 ++ x4 ++ x5 ++ x6 ++ x7).extractLsb' 28 4 = x0 ∧
    (x0 ++ x1 ++ x2 ++ x3 ++ x4 ++ x5 ++ x6 ++ x7).extractLsb' 22 4 = x3 ∧
    (x0 ++ x1 ++ x2 ++ x3 ++ x4 ++ x5 ++ x6 ++ x7).extractLsb' 7 5 = x6 ∧
    (x0 ++ x1 ++ x2 ++ x3 ++ x4 ++ x5 ++ x6 ++ x7).extractLsb' 12 5 = x5 ∧
    (x0 ++ x1 ++ x2 ++ x3 ++ x4 ++ x5 ++ x6 ++ x7).extractLsb' 17 5 = x4 ∧
    (x0 ++ x1 ++ x2 ++ x3 ++ x4 ++ x5 ++ x6 ++ x7).extractLsb' 27 1 = x1 ∧
    (x0 ++ x1 ++ x2 ++ x3 ++ x4 ++ x5 ++ x6 ++ x7).extractLsb' 26 1 = x2 ∧
    (x0 ++ x1 ++ x2 ++ x3 ++ x4 ++ x5 ++ x6 ++ x7).getLsbD 0 = x7.getLsbD 0 := by
  refine ⟨?_, ?_, ?_, ?_, ?_, ?_, ?_, ?_, ?_⟩
  all_goals first
    | simp (disch := decide) only [field_low, field_high, field_all, Nat.reduceSub]
    | exact BitVec.getLsbD_append.trans rfl

theorem cut_4_1_5_5_5_5_7 (x0 : BitVec 4) (x1 : BitVec 1) (x2 : BitVec 5) (x3 : BitVec 5) (x4 : BitVec 5) (x5 : BitVec 5) (x6 : BitVec 7) :
    (x0 ++ x1 ++ x2 ++ x3 ++ x4 ++ x5 ++ x6).extractLsb' 1 6 = x6.extractLsb' 1 6 ∧
    (x0 ++ x1 ++ x2 ++ x3 ++ x4 ++ x5 ++ x6).extractLsb' 28 4 = x0 ∧
    (x0 ++ x1 ++ x2 ++ x3 ++ x4 ++ x5 ++ x6).extractLsb' 22 5 = x2 ∧
    (x0 ++ x1 ++ x2 ++ x3 ++ x4 ++ x5 ++ x6).extractLsb' 7 5 = x5 ∧
    (x0 ++ x1 ++ x2 ++ x3 ++ x4 ++ x5 ++ x6).extractLsb' 12 5 = x4 ∧
    (x0 ++ x1 ++ x2 ++ x3 ++ x4 ++ x5 ++ x6).extractLsb' 17 5 = x3 ∧
    (x0 ++ x1 ++ x2 ++ x3 ++ x4 ++ x5 ++ x6).extractLsb' 27 1 = x1 ∧
    (x0 ++ x1 ++ x2 ++ x3 ++ x4 ++ x5 ++ x6).getLsbD 0 = x6.getLsbD 0 := by
  refine ⟨?_, ?_, ?_, ?_, ?_, ?_, ?_, ?_⟩
  all_goals first
    | simp (disch := decide) only [field_low, field_high, field_all, Nat.reduceSub]
    | exact BitVec.getLsbD_append.trans rfl

theorem cut_4_3_1_2_5_5_5_7 (x0 : BitVec 4) (x1 : BitVec 3) (x2 : BitVec 1) (x3 : BitVec 2) (x4 : BitVec 5) (x5 : BitVec 5) (x6 : BitVec 5) (x7 : BitVec 7) :
    (x0 ++ x1 ++ x2 ++ x3 ++ x4 ++ x5 ++ x6 ++ x7).extractLsb' 1 6 = x7.extractLsb' 1 6 ∧
    (x0 ++ x1 ++ x2 ++ x3 ++ x4 ++ x5 ++ x6 ++ x7).extractLsb' 28 4 = x0 ∧
    (x0 ++ x1 ++ x2 ++ x3 ++ x4 ++ x5 ++ x6 ++ x7).extractLsb' 22 2 = x3 ∧
    (x0 ++ x1 ++ x2 ++ x3 ++ x4 ++ x5 ++ x6 ++ x7).extractLsb' 7 5 = x6 ∧
    (x0 ++ x1 ++ x2 ++ x3 ++ x4 ++ x5 ++ x6 ++ x7).extractLsb' 12 5 = x5 ∧
    (x0 ++ x1 ++ x2 ++ x3 ++ x4 ++ x5 ++ x6 ++ x7).extractLsb' 17 5 = x4 ∧
    (x0 ++ x1 ++ x2 ++ x3 ++ x4 ++ x5 ++ x6 ++ x7).extractLsb' 25 3 = x1 ∧
    (x0 ++ x1 ++ x2 ++ x3 ++ x4 ++ x5 ++ x6 ++ x7).extractLsb' 24 1 = x2 ∧
    (x0 ++ x1 ++ x2 ++ x3 ++ x4 ++ x5 ++ x6 ++ x7).getLsbD 0 = x7.getLsbD 0 := by
  refine ⟨?_, ?_, ?_, ?_, ?_, ?_, ?_, ?_, ?_⟩
  all_goals first
    | simp (disch := decide) only [field_low, field_high, field_all, Nat.reduceSub]
    | exact BitVec.getLsbD_append.trans rfl

theorem cut_4_2_9_5_5_7 (x0 : BitVec 4) (x1 : BitVec 2) (x2 : BitVec 9) (x3 : BitVec 5) (x4 : BitVec 5) (x5 : BitVec 7) :
    (x0 ++ x1 ++ x2 ++ x3 ++ x4 ++ x5).extractLsb' 1 6 = x5.extractLsb' 1 6 ∧
    (x0 ++ x1 ++ x2 ++ x3 ++ x4 ++ x5).extractLsb' 28 4 = x0 ∧
    (x0 ++ x1 ++ x2 ++ x3 ++ x4 ++ x5).extractLsb' 17 9 = x2 ∧
    (x0 ++ x1 ++ x2 ++ x3 ++ x4 ++ x5).extractLsb' 7 5 = x4 ∧
    (x0 ++ x1 ++ x2 ++ x3 ++ x4 ++ x5).extractLsb' 12 5 = x3 ∧
    (x0 ++ x1 ++ x2 ++ x3 ++ x4 ++ x5).extractLsb' 26 2 = x1 ∧
    (x0 ++ x1 ++ x2 ++ x3 ++ x4 ++ x5).getLsbD 0 = x5.getLsbD 0 := by
  refine ⟨?_, ?_, ?_, ?_, ?_, ?_, ?_⟩
  all_goals first
    | simp (disch := decide) only [field_low, field_high, field_all, Nat.reduceSub]
    | exact BitVec.getLsbD_append.trans rfl

theorem cut_4_4_2_5_5_12 (x0 : BitVec 4) (x1 : BitVec 4) (x2 : BitVec 2) (x3 : BitVec 5) (x4 : BitVec 5) (x5 : BitVec 12) :
    (x0 ++ x1 ++ x2 ++ x3 ++ x4 ++ x5).extractLsb' 1 6 = x5.extractLsb' 1 6 ∧
    (x0 ++ x1 ++ x2 ++ x3 ++ x4 ++ x5).extractLsb' 28 4 = x0 ∧
    (x0 ++ x1 ++ x2 ++ x3 ++ x4 ++ x5).extractLsb' 22 2 = x2 ∧
    (x0 ++ x1 ++ x2 ++ x3 ++ x4 ++ x5).extractLsb' 7 5 = x5.extractLsb' 7 5 ∧
    (x0 ++ x1 ++ x2 ++ x3 ++ x4 ++ x5).extractLsb' 12 5 = x4 ∧
    (x0 ++ x1 ++ x2 ++ x3 ++ x4 ++ x5).extractLsb' 17 5 = x3 ∧
    (x0 ++ x1 ++ x2 ++ x3 ++ x4 ++ x5).extractLsb' 24 4 = x1 ∧
    (x0 ++ x1 ++ x2 ++ x3 ++ x4 ++ x5).getLsbD 0 = x5.getLsbD 0 := by
  refine ⟨?_, ?_, ?_, ?_, ?_, ?_, ?_, ?_⟩
  all_goals first
    | simp (disch := decide) only [field_low, field_high, field_all, Nat.reduceSub]
    | exact BitVec.getLsbD_append.trans rfl

theorem cut_4_4_24 (x0 : BitVec 4) (x1 : BitVec 4) (x2 : BitVec 24) :
    (x0 ++ x1 ++ x2).extractLsb' 1 6 = x2.extractLsb' 1 6 ∧
    (x0 ++ x1 ++ x2).extractLsb' 28 4 = x0 ∧
    (x0 ++ x1 ++ x2).extractLsb' 7 17 = x2.extractLsb' 7 17 ∧
    (x0 ++ x1 ++ x2).extractLsb' 24 4 = x1 ∧
    (x0 ++ x1 ++ x2).getLsbD 0 = x2.getLsbD 0 := by
  refine ⟨?_, ?_, ?_, ?_, ?_⟩
  all_goals first
    | simp (disch := decide) only [field_low, field_high, field_all, Nat.reduceSub]
    | exact BitVec.getLsbD_append.trans rfl

theorem cut_4_4_3_9_5_7 (x0 : BitVec 4) (x1 : BitVec 4) (x2 : BitVec 3) (x3 : BitVec 9) (x4 : BitVec 5) (x5 : BitVec 7) :
    (x0 ++ x1 ++ x2 ++ x3 ++ x4 ++ x5).extractLsb' 1 6 = x5.extractLsb' 1 6 ∧
    (x0 ++ x1 ++ x2 ++ x3 ++ x4 ++ x5).extractLsb' 28 4 = x0 ∧
    (x0 ++ x1 ++ x2 ++ x3 ++ x4 ++ x5).extractLsb' 12 9 = x3 ∧
    (x0 ++ x1 ++ x2 ++ x3 ++ x4 ++ x5).extractLsb' 7 5 = x4 ∧
    (x0 ++ x1 ++ x2 ++ x3 ++ x4 ++ x5).extractLsb' 24 4 = x1 ∧
    (x0 ++ x1 ++ x2 ++ x3 ++ x4 ++ x5).extractLsb' 21 3 = x2 ∧
    (x0 ++ x1 ++ x2 ++ x3 ++ x4 ++ x5).getLsbD 0 = x5.getLsbD 0 := by
  refine ⟨?_, ?_, ?_, ?_, ?_, ?_, ?_⟩
  all_goals first
    | simp (disch := decide) only [field_low, field_high, field_all, Nat.reduceSub]
    | exact BitVec.getLsbD_append.trans rfl

theorem cut_22_3_7 (x0 : BitVec 22) (x1 : BitVec 3) (x2 : BitVec 7) :
    (x0 ++ x1 ++ x2).extractLsb' 1 6 = x2.extractLsb' 1 6 ∧
    (x0 ++ x1 ++ x2).extractLsb' 10 22 = x0 ∧
    (x0 ++ x1 ++ x2).extractLsb' 7 3 = x1 ∧
    (x0 ++ x1 ++ x2).extractLsb' 28 4 = x0.extractLsb' 18 4 ∧
    (x0 ++ x1 ++ x2).getLsbD 0 = x2.getLsbD 0 := by
  refine ⟨?_, ?_, ?_, ?_, ?_⟩
  all_goals first
    | simp (disch := decide) only [field_low, field_high, field_all, Nat.reduceSub]
    | exact BitVec.getLsbD_append.trans rfl

theorem cut_4_2_4_5_5_12 (x0 : BitVec 4) (x1 : BitVec 2) (x2 : BitVec 4) (x3 : BitVec 5) (x4 : BitVec 5) (x5 : BitVec 12) :
    (x0 ++ x1 ++ x2 ++ x3 ++ x4 ++ x5).extractLsb' 1 6 = x5.extractLsb' 1 6 ∧
    (x0 ++ x1 ++ x2 ++ x3 ++ x4 ++ x5).extractLsb' 28 4 = x0 ∧
    (x0 ++ x1 ++ x2 ++ x3 ++ x4 ++ x5).extractLsb' 22 4 = x2 ∧
    (x0 ++ x1 ++ x2 ++ x3 ++ x4 ++ x5).extractLsb' 7 5 = x5.extractLsb' 7 5 ∧
    (x0 ++ x1 ++ x2 ++ x3 ++ x4 ++ x5).extractLsb' 12 5 = x4 ∧
    (x0 ++ x1 ++ x2 ++ x3 ++ x4 ++ x5).extractLsb' 17 5 = x3 ∧
    (x0 ++ x1 ++ x2 ++ x3 ++ x4 ++ x5).extractLsb' 26 2 = x1 ∧
    (x0 ++ x1 ++ x2 ++ x3 ++ x4 ++ x5).getLsbD 0 = x5.getLsbD 0 := by
  refine ⟨?_, ?_, ?_, ?_, ?_, ?_, ?_, ?_⟩
  all_goals first
    | simp (disch := decide) only [field_low, field_high, field_all, Nat.reduceSub]
    | exact BitVec.getLsbD_append.trans rfl

theorem cut_4_3_1_7_5_12 (x0 : BitVec 4) (x1 : BitVec 3) (x2 : BitVec 1) (x3 : BitVec 7) (x4 : BitVec 5) (x5 : BitVec 12) :
    (x0 ++ x1 ++ x2 ++ x3 ++ x4 ++ x5).extractLsb' 1 6 = x5.extractLsb' 1 6 ∧
    (x0 ++ x1 ++ x2 ++ x3 ++ x4 ++ x5).extractLsb' 28 4 = x0 ∧
    (x0 ++ x1 ++ x2 ++ x3 ++ x4 ++ x5).extractLsb' 17 7 = x3 ∧
    (x0 ++ x1 ++ x2 ++ x3 ++ x4 ++ x5).extractLsb' 7 5 = x5.extractLsb' 7 5 ∧
    (x0 ++ x1 ++ x2 ++ x3 ++ x4 ++ x5).extractLsb' 12 5 = x4 ∧
    (x0 ++ x1 ++ x2 ++ x3 ++ x4 ++ x5).extractLsb' 25 3 = x1 ∧
    (x0 ++ x1 ++ x2 ++ x3 ++ x4 ++ x5).extractLsb' 24 1 = x2 ∧
    (x0 ++ x1 ++ x2 ++ x3 ++ x4 ++ x5).getLsbD 0 = x5.getLsbD 0 := by
  refine ⟨?_, ?_, ?_, ?_, ?_, ?_, ?_, ?_⟩
  all_goals first
    | simp (disch := decide) only [field_low, field_high, field_all, Nat.reduceSub]
    | exact BitVec.getLsbD_append.trans rfl

theorem cut_4_1_10_5_2_3_7 (x0 : BitVec 4) (x1 : BitVec 1) (x2 : BitVec 10) (x3 : BitVec 5) (x4 : BitVec 2) (x5 : BitVec 3) (x6 : BitVec 7) :
    (x0 ++ x1 ++ x2 ++ x3 ++ x4 ++ x5 ++ x6).extractLsb' 1 6 = x6.extractLsb' 1 6 ∧
    (x0 ++ x1 ++ x2 ++ x3 ++ x4 ++ x5 ++ x6).extractLsb' 28 4 = x0 ∧
    (x0 ++ x1 ++ x2 ++ x3 ++ x4 ++ x5 ++ x6).extractLsb' 17 10 = x2 ∧
    (x0 ++ x1 ++ x2 ++ x3 ++ x4 ++ x5 ++ x6).extractLsb' 10 2 = x4 ∧
    (x0 ++ x1 ++ x2 ++ x3 ++ x4 ++ x5 ++ x6).extractLsb' 7 3 = x5 ∧
    (x0 ++ x1 ++ x2 ++ x3 ++ x4 ++ x5 ++ x6).extractLsb' 12 5 = x3 ∧
    (x0 ++ x1 ++ x2 ++ x3 ++ x4 ++ x5 ++ x6).extractLsb' 27 1 = x1 ∧
    (x0 ++ x1 ++ x2 ++ x3 ++ x4 ++ x5 ++ x6).getLsbD 0 = x6.getLsbD 0 := by
  refine ⟨?_, ?_, ?_, ?_, ?_, ?_, ?_, ?_⟩
  all_goals first
    | simp (disch := decide) only [field_low, field_high, field_all, Nat.reduceSub]
    | exact BitVec.getLsbD_append.trans rfl

theorem cut_5_4_8_3_5_7 (x0 : BitVec 5) (x1 : BitVec 4) (x2 : BitVec 8) (x3 : BitVec 3) (x4 : BitVec 5) (x5 : BitVec 7) :
    (x0 ++ x1 ++ x2 ++ x3 ++ x4 ++ x5).extractLsb' 1 6 = x5.extractLsb' 1 6 ∧
    (x0 ++ x1 ++ x2 ++ x3 ++ x4 ++ x5).extractLsb' 27 5 = x0 ∧
    (x0 ++ x1 ++ x2 ++ x3 ++ x4 ++ x5).extractLsb' 28 4 = x0.extractLsb' 1 4 ∧
    (x0 ++ x1 ++ x2 ++ x3 ++ x4 ++ x5).extractLsb' 15 8 = x2 ∧
    (x0 ++ x1 ++ x2 ++ x3 ++ x4 ++ x5).extractLsb' 7 5 = x4 ∧
    (x0 ++ x1 ++ x2 ++ x3 ++ x4 ++ x5).extractLsb' 12 3 = x3 ∧
    (x0 ++ x1 ++ x2 ++ x3 ++ x4 ++ x5).extractLsb' 23 4 = x1 ∧
    (x0 ++ x1 ++ x2 ++ x3 ++ x4 ++ x5).getLsbD 0 = x5.getLsbD 0 := by
  refine ⟨?_, ?_, ?_, ?_, ?_, ?_, ?_, ?_⟩
  all_goals first
    | simp (disch := decide) only [field_low, field_high, field_all, Nat.reduceSub]
    | exact BitVec.getLsbD_append.trans rfl

theorem cut_5_4_6_5_2_3_7 (x0 : BitVec 5) (x1 : BitVec 4) (x2 : BitVec 6) (x3 : BitVec 5) (x4 : BitVec 2) (x5 : BitVec 3) (x6 : BitVec 7) :
    (x0 ++ x1 ++ x2 ++ x3 ++ x4 ++ x5 ++ x6).extractLsb' 1 6 = x6.extractLsb' 1 6 ∧
    (x0 ++ x1 ++ x2 ++ x3 ++ x4 ++ x5 ++ x6).extractLsb' 27 5 = x0 ∧
    (x0 ++ x1 ++ x2 ++ x3 ++ x4 ++ x5 ++ x6).extractLsb' 28 4 = x0.extractLsb' 1 4 ∧
    (x0 ++ x1 ++ x2 ++ x3 ++ x4 ++ x5 ++ x6).extractLsb' 17 6 = x2 ∧
    (x0 ++ x1 ++ x2 ++ x3 ++ x4 ++ x5 ++ x6).extractLsb' 10 2 = x4 ∧
    (x0 ++ x1 ++ x2 ++ x3 ++ x4 ++ x5 ++ x6).extractLsb' 7 3 = x5 ∧
    (x0 ++ x1 ++ x2 ++ x3 ++ x4 ++ x5 ++ x6).extractLsb' 12 5 = x3 ∧
    (x0 ++ x1 ++ x2 ++ x3 ++ x4 ++ x5 ++ x6).extractLsb' 23 4 = x1 ∧
    (x0 ++ x1 ++ x2 ++ x3 ++ x4 ++ x5 ++ x6).getLsbD 0 = x6.getLsbD 0 := by
  refine ⟨?_, ?_, ?_, ?_, ?_, ?_, ?_, ?_, ?_⟩
  all_goals first
    | simp (disch := decide) only [field_low, field_high, field_all, Nat.reduceSub]
    | exact BitVec.getLsbD_append.trans rfl

theorem cut_4_2_14_5_7 (x0 : BitVec 4) (x1 : BitVec 2) (x2 : BitVec 14) (x3 : BitVec 5) (x4 : BitVec 7) :
    (x0 ++ x1 ++ x2 ++ x3 ++ x4).extractLsb' 1 6 = x4.extractLsb' 1 6 ∧
    (x0 ++ x1 ++ x2 ++ x3 ++ x4).extractLsb' 28 4 = x0 ∧
    (x0 ++ x1 ++ x2 ++ x3 ++ x4).extractLsb' 12 14 = x2 ∧
    (x0 ++ x1 ++ x2 ++ x3 ++ x4).extractLsb' 7 5 = x3 ∧
    (x0 ++ x1 ++ x2 ++ x3 ++ x4).extractLsb' 26 2 = x1 ∧
    (x0 ++ x1 ++ x2 ++ x3 ++ x4).getLsbD 0 = x4.getLsbD 0 := by
  refine ⟨?_, ?_, ?_, ?_, ?_, ?_⟩
  all_goals first
    | simp (disch := decide) only [field_low, field_high, field_all, Nat.reduceSub]
    | exact BitVec.getLsbD_append.trans rfl

theorem cut_5_5_6 (x0 : BitVec 5) (x1 : BitVec 5) (x2 : BitVec 6) :
    (x0 ++ x1 ++ x2).extractLsb' 1 5 = x2.extractLsb' 1 5 ∧
    (x0 ++ x1 ++ x2).extractLsb' 11 5 = x0 ∧
    (x0 ++ x1 ++ x2).extractLsb' 6 5 = x1 ∧
    (x0 ++ x1 ++ x2).getLsbD 0 = x2.getLsbD 0 := by
  refine ⟨?_, ?_, ?_, ?_⟩
  all_goals first
    | simp (disch := decide) only [field_low, field_high, field_all, Nat.reduceSub]
    | exact BitVec.getLsbD_append.trans rfl

theorem cut_5_11 (x0 : BitVec 5) (x1 : BitVec 11) :
    (x0 ++ x1).extractLsb' 1 5 = x1.extractLsb' 1 5 ∧
    (x0 ++ x1).extractLsb' 6 5 = x1.extractLsb' 6 5 ∧
    (x0 ++ x1).extractLsb' 11 5 = x0 ∧
    (x0 ++ x1).getLsbD 0 = x1.getLsbD 0 := by
  refine ⟨?_, ?_, ?_, ?_⟩
  all_goals first
    | simp (disch := decide) only [field_low, field_high, field_all, Nat.reduceSub]
    | exact BitVec.getLsbD_append.trans rfl

theorem cut_10_6 (x0 : BitVec 10) (x1 : BitVec 6) :
    (x0 ++ x1).extractLsb' 1 5 = x1.extractLsb' 1 5 ∧
    (x0 ++ x1).extractLsb' 6 10 = x0 ∧
    (x0 ++ x1).getLsbD 0 = x1.getLsbD 0 := by
  refine ⟨?_, ?_, ?_⟩
  all_goals first
    | simp (disch := decide) only [field_low, field_high, field_all, Nat.reduceSub]
    | exact BitVec.getLsbD_append.trans rfl

theorem command (s : BitVec 6) (d a b : BitVec 4) (m : BitVec 46) :
    cmdSop (cmdWord s d a b m) = s.toNat ∧ cmdD (cmdWord s d a b m) = d ∧ cmdA (cmdWord s d a b m) = a ∧
    cmdB (cmdWord s d a b m) = b ∧ cmdImm (cmdWord s d a b m) = m := by
  unfold cmdSop cmdD cmdA cmdB cmdImm cmdWord
  refine ⟨congrArg BitVec.toNat ?_, ?_, ?_, ?_, ?_⟩ <;>
    simp (disch := decide) only [field_low, field_high, field_all, Nat.reduceSub]

theorem slot {w : BitVec 64} {d : BitVec 4} {r e : Except Reject Instr} (hd : cmdD w = d) (hs : slotOk d = true) (h : r = e) :
    cmdSlot w r = e := by
  have hl : d.toNat < 8 := of_decide_eq_true hs
  unfold cmdSlot
  rw [hd, if_neg (by omega)]
  exact h

theorem RoundTrip.add (d : BitVec 5) (a : BitVec 5) (b : BitVec 5) (w : BitVec 3) : RoundTrip.Statement (.add d a b w) := by
  obtain ⟨h0, h1, h2, h3, h4, h5, _, _, hb⟩ := cut_7_3_5_5_5_7 0#7 w b a d 1#7
  refine of32 rfl rfl rfl hb fun hw => (major00 h0).trans ?_
  clear hb
  generalize 0#7 ++ w ++ b ++ a ++ d ++ 1#7 = v at h0 h1 h2 h3 h4 h5 ⊢
  unfold decodeMajor00
  refine take h1 ?_
  simp only [fD, fA, fB, fW, h2, h3, h4, h5]

theorem RoundTrip.sub (d : BitVec 5) (a : BitVec 5) (b : BitVec 5) (w : BitVec 3) : RoundTrip.Statement (.sub d a b w) := by
  obtain ⟨h0, h1, h2, h3, h4, h5, _, _, hb⟩ := cut_7_3_5_5_5_7 1#7 w b a d 1#7
  refine of32 rfl rfl rfl hb fun hw => (major00 h0).trans ?_
  clear hb
  generalize 1#7 ++ w ++ b ++ a ++ d ++ 1#7 = v at h0 h1 h2 h3 h4 h5 ⊢
  unfold decodeMajor00
  refine skip (fun e => absurd (h1.symm.trans e) (by decide)) ?_
  refine take h1 ?_
  simp only [fD, fA, fB, fW, h2, h3, h4, h5]

theorem RoundTrip.and (d : BitVec 5) (a : BitVec 5) (b : BitVec 5) (w : BitVec 3) : RoundTrip.Statement (.and d a b w) := by
  obtain ⟨h0, h1, h2, h3, h4, h5, _, _, hb⟩ := cut_7_3_5_5_5_7 2#7 w b a d 1#7
  refine of32 rfl rfl rfl hb fun hw => (major00 h0).trans ?_
  clear hb
  generalize 2#7 ++ w ++ b ++ a ++ d ++ 1#7 = v at h0 h1 h2 h3 h4 h5 ⊢
  unfold decodeMajor00
  iterate 2 refine skip (fun e => absurd (h1.symm.trans e) (by decide)) ?_
  refine take h1 ?_
  simp only [fD, fA, fB, fW, h2, h3, h4, h5]

theorem RoundTrip.or (d : BitVec 5) (a : BitVec 5) (b : BitVec 5) (w : BitVec 3) : RoundTrip.Statement (.or d a b w) := by
  obtain ⟨h0, h1, h2, h3, h4, h5, _, _, hb⟩ := cut_7_3_5_5_5_7 3#7 w b a d 1#7
  refine of32 rfl rfl rfl hb fun hw => (major00 h0).trans ?_
  clear hb
  generalize 3#7 ++ w ++ b ++ a ++ d ++ 1#7 = v at h0 h1 h2 h3 h4 h5 ⊢
  unfold decodeMajor00
  iterate 3 refine skip (fun e => absurd (h1.symm.trans e) (by decide)) ?_
  refine take h1 ?_
  simp only [fD, fA, fB, fW, h2, h3, h4, h5]

theorem RoundTrip.xor (d : BitVec 5) (a : BitVec 5) (b : BitVec 5) (w : BitVec 3) : RoundTrip.Statement (.xor d a b w) := by
  obtain ⟨h0, h1, h2, h3, h4, h5, _, _, hb⟩ := cut_7_3_5_5_5_7 4#7 w b a d 1#7
  refine of32 rfl rfl rfl hb fun hw => (major00 h0).trans ?_
  clear hb
  generalize 4#7 ++ w ++ b ++ a ++ d ++ 1#7 = v at h0 h1 h2 h3 h4 h5 ⊢
  unfold decodeMajor00
  iterate 4 refine skip (fun e => absurd (h1.symm.trans e) (by decide)) ?_
  refine take h1 ?_
  simp only [fD, fA, fB, fW, h2, h3, h4, h5]

theorem RoundTrip.andn (d : BitVec 5) (a : BitVec 5) (b : BitVec 5) (w : BitVec 3) : RoundTrip.Statement (.andn d a b w) := by
  obtain ⟨h0, h1, h2, h3, h4, h5, _, _, hb⟩ := cut_7_3_5_5_5_7 5#7 w b a d 1#7
  refine of32 rfl rfl rfl hb fun hw => (major00 h0).trans ?_
  clear hb
  generalize 5#7 ++ w ++ b ++ a ++ d ++ 1#7 = v at h0 h1 h2 h3 h4 h5 ⊢
  unfold decodeMajor00
  iterate 5 refine skip (fun e => absurd (h1.symm.trans e) (by decide)) ?_
  refine take h1 ?_
  simp only [fD, fA, fB, fW, h2, h3, h4, h5]

theorem RoundTrip.sll (d : BitVec 5) (a : BitVec 5) (b : BitVec 5) (w : BitVec 3) : RoundTrip.Statement (.sll d a b w) := by
  obtain ⟨h0, h1, h2, h3, h4, h5, _, _, hb⟩ := cut_7_3_5_5_5_7 6#7 w b a d 1#7
  refine of32 rfl rfl rfl hb fun hw => (major00 h0).trans ?_
  clear hb
  generalize 6#7 ++ w ++ b ++ a ++ d ++ 1#7 = v at h0 h1 h2 h3 h4 h5 ⊢
  unfold decodeMajor00
  iterate 6 refine skip (fun e => absurd (h1.symm.trans e) (by decide)) ?_
  refine take h1 ?_
  simp only [fD, fA, fB, fW, h2, h3, h4, h5]

theorem RoundTrip.srl (d : BitVec 5) (a : BitVec 5) (b : BitVec 5) (w : BitVec 3) : RoundTrip.Statement (.srl d a b w) := by
  obtain ⟨h0, h1, h2, h3, h4, h5, _, _, hb⟩ := cut_7_3_5_5_5_7 7#7 w b a d 1#7
  refine of32 rfl rfl rfl hb fun hw => (major00 h0).trans ?_
  clear hb
  generalize 7#7 ++ w ++ b ++ a ++ d ++ 1#7 = v at h0 h1 h2 h3 h4 h5 ⊢
  unfold decodeMajor00
  iterate 7 refine skip (fun e => absurd (h1.symm.trans e) (by decide)) ?_
  refine take h1 ?_
  simp only [fD, fA, fB, fW, h2, h3, h4, h5]

theorem RoundTrip.sra (d : BitVec 5) (a : BitVec 5) (b : BitVec 5) (w : BitVec 3) : RoundTrip.Statement (.sra d a b w) := by
  obtain ⟨h0, h1, h2, h3, h4, h5, _, _, hb⟩ := cut_7_3_5_5_5_7 8#7 w b a d 1#7
  refine of32 rfl rfl rfl hb fun hw => (major00 h0).trans ?_
  clear hb
  generalize 8#7 ++ w ++ b ++ a ++ d ++ 1#7 = v at h0 h1 h2 h3 h4 h5 ⊢
  unfold decodeMajor00
  iterate 8 refine skip (fun e => absurd (h1.symm.trans e) (by decide)) ?_
  refine take h1 ?_
  simp only [fD, fA, fB, fW, h2, h3, h4, h5]

theorem RoundTrip.rol (d : BitVec 5) (a : BitVec 5) (b : BitVec 5) (w : BitVec 3) : RoundTrip.Statement (.rol d a b w) := by
  obtain ⟨h0, h1, h2, h3, h4, h5, _, _, hb⟩ := cut_7_3_5_5_5_7 9#7 w b a d 1#7
  refine of32 rfl rfl rfl hb fun hw => (major00 h0).trans ?_
  clear hb
  generalize 9#7 ++ w ++ b ++ a ++ d ++ 1#7 = v at h0 h1 h2 h3 h4 h5 ⊢
  unfold decodeMajor00
  iterate 9 refine skip (fun e => absurd (h1.symm.trans e) (by decide)) ?_
  refine take h1 ?_
  simp only [fD, fA, fB, fW, h2, h3, h4, h5]

theorem RoundTrip.ror (d : BitVec 5) (a : BitVec 5) (b : BitVec 5) (w : BitVec 3) : RoundTrip.Statement (.ror d a b w) := by
  obtain ⟨h0, h1, h2, h3, h4, h5, _, _, hb⟩ := cut_7_3_5_5_5_7 10#7 w b a d 1#7
  refine of32 rfl rfl rfl hb fun hw => (major00 h0).trans ?_
  clear hb
  generalize 10#7 ++ w ++ b ++ a ++ d ++ 1#7 = v at h0 h1 h2 h3 h4 h5 ⊢
  unfold decodeMajor00
  iterate 10 refine skip (fun e => absurd (h1.symm.trans e) (by decide)) ?_
  refine take h1 ?_
  simp only [fD, fA, fB, fW, h2, h3, h4, h5]

theorem RoundTrip.slt (d : BitVec 5) (a : BitVec 5) (b : BitVec 5) (w : BitVec 3) : RoundTrip.Statement (.slt d a b w) := by
  obtain ⟨h0, h1, h2, h3, h4, h5, _, _, hb⟩ := cut_7_3_5_5_5_7 11#7 w b a d 1#7
  refine of32 rfl rfl rfl hb fun hw => (major00 h0).trans ?_
  clear hb
  generalize 11#7 ++ w ++ b ++ a ++ d ++ 1#7 = v at h0 h1 h2 h3 h4 h5 ⊢
  unfold decodeMajor00
  iterate 11 refine skip (fun e => absurd (h1.symm.trans e) (by decide)) ?_
  refine take h1 ?_
  simp only [fD, fA, fB, fW, h2, h3, h4, h5]

theorem RoundTrip.sltu (d : BitVec 5) (a : BitVec 5) (b : BitVec 5) (w : BitVec 3) : RoundTrip.Statement (.sltu d a b w) := by
  obtain ⟨h0, h1, h2, h3, h4, h5, _, _, hb⟩ := cut_7_3_5_5_5_7 12#7 w b a d 1#7
  refine of32 rfl rfl rfl hb fun hw => (major00 h0).trans ?_
  clear hb
  generalize 12#7 ++ w ++ b ++ a ++ d ++ 1#7 = v at h0 h1 h2 h3 h4 h5 ⊢
  unfold decodeMajor00
  iterate 12 refine skip (fun e => absurd (h1.symm.trans e) (by decide)) ?_
  refine take h1 ?_
  simp only [fD, fA, fB, fW, h2, h3, h4, h5]

theorem RoundTrip.min (d : BitVec 5) (a : BitVec 5) (b : BitVec 5) (w : BitVec 3) : RoundTrip.Statement (.min d a b w) := by
  obtain ⟨h0, h1, h2, h3, h4, h5, _, _, hb⟩ := cut_7_3_5_5_5_7 13#7 w b a d 1#7
  refine of32 rfl rfl rfl hb fun hw => (major00 h0).trans ?_
  clear hb
  generalize 13#7 ++ w ++ b ++ a ++ d ++ 1#7 = v at h0 h1 h2 h3 h4 h5 ⊢
  unfold decodeMajor00
  iterate 13 refine skip (fun e => absurd (h1.symm.trans e) (by decide)) ?_
  refine take h1 ?_
  simp only [fD, fA, fB, fW, h2, h3, h4, h5]

theorem RoundTrip.max (d : BitVec 5) (a : BitVec 5) (b : BitVec 5) (w : BitVec 3) : RoundTrip.Statement (.max d a b w) := by
  obtain ⟨h0, h1, h2, h3, h4, h5, _, _, hb⟩ := cut_7_3_5_5_5_7 14#7 w b a d 1#7
  refine of32 rfl rfl rfl hb fun hw => (major00 h0).trans ?_
  clear hb
  generalize 14#7 ++ w ++ b ++ a ++ d ++ 1#7 = v at h0 h1 h2 h3 h4 h5 ⊢
  unfold decodeMajor00
  iterate 14 refine skip (fun e => absurd (h1.symm.trans e) (by decide)) ?_
  refine take h1 ?_
  simp only [fD, fA, fB, fW, h2, h3, h4, h5]

theorem RoundTrip.minu (d : BitVec 5) (a : BitVec 5) (b : BitVec 5) (w : BitVec 3) : RoundTrip.Statement (.minu d a b w) := by
  obtain ⟨h0, h1, h2, h3, h4, h5, _, _, hb⟩ := cut_7_3_5_5_5_7 15#7 w b a d 1#7
  refine of32 rfl rfl rfl hb fun hw => (major00 h0).trans ?_
  clear hb
  generalize 15#7 ++ w ++ b ++ a ++ d ++ 1#7 = v at h0 h1 h2 h3 h4 h5 ⊢
  unfold decodeMajor00
  iterate 15 refine skip (fun e => absurd (h1.symm.trans e) (by decide)) ?_
  refine take h1 ?_
  simp only [fD, fA, fB, fW, h2, h3, h4, h5]

theorem RoundTrip.maxu (d : BitVec 5) (a : BitVec 5) (b : BitVec 5) (w : BitVec 3) : RoundTrip.Statement (.maxu d a b w) := by
  obtain ⟨h0, h1, h2, h3, h4, h5, _, _, hb⟩ := cut_7_3_5_5_5_7 16#7 w b a d 1#7
  refine of32 rfl rfl rfl hb fun hw => (major00 h0).trans ?_
  clear hb
  generalize 16#7 ++ w ++ b ++ a ++ d ++ 1#7 = v at h0 h1 h2 h3 h4 h5 ⊢
  unfold decodeMajor00
  iterate 16 refine skip (fun e => absurd (h1.symm.trans e) (by decide)) ?_
  refine take h1 ?_
  simp only [fD, fA, fB, fW, h2, h3, h4, h5]

theorem RoundTrip.mul (d : BitVec 5) (a : BitVec 5) (b : BitVec 5) (w : BitVec 3) : RoundTrip.Statement (.mul d a b w) := by
  obtain ⟨h0, h1, h2, h3, h4, h5, _, _, hb⟩ := cut_7_3_5_5_5_7 32#7 w b a d 1#7
  refine of32 rfl rfl rfl hb fun hw => (major00 h0).trans ?_
  clear hb
  generalize 32#7 ++ w ++ b ++ a ++ d ++ 1#7 = v at h0 h1 h2 h3 h4 h5 ⊢
  unfold decodeMajor00
  iterate 17 refine skip (fun e => absurd (h1.symm.trans e) (by decide)) ?_
  refine take h1 ?_
  simp only [fD, fA, fB, fW, h2, h3, h4, h5]

theorem RoundTrip.mulh (d : BitVec 5) (a : BitVec 5) (b : BitVec 5) (w : BitVec 3) : RoundTrip.Statement (.mulh d a b w) := by
  obtain ⟨h0, h1, h2, h3, h4, h5, _, _, hb⟩ := cut_7_3_5_5_5_7 33#7 w b a d 1#7
  refine of32 rfl rfl rfl hb fun hw => (major00 h0).trans ?_
  clear hb
  generalize 33#7 ++ w ++ b ++ a ++ d ++ 1#7 = v at h0 h1 h2 h3 h4 h5 ⊢
  unfold decodeMajor00
  iterate 18 refine skip (fun e => absurd (h1.symm.trans e) (by decide)) ?_
  refine take h1 ?_
  simp only [fD, fA, fB, fW, h2, h3, h4, h5]

theorem RoundTrip.mulhu (d : BitVec 5) (a : BitVec 5) (b : BitVec 5) (w : BitVec 3) : RoundTrip.Statement (.mulhu d a b w) := by
  obtain ⟨h0, h1, h2, h3, h4, h5, _, _, hb⟩ := cut_7_3_5_5_5_7 34#7 w b a d 1#7
  refine of32 rfl rfl rfl hb fun hw => (major00 h0).trans ?_
  clear hb
  generalize 34#7 ++ w ++ b ++ a ++ d ++ 1#7 = v at h0 h1 h2 h3 h4 h5 ⊢
  unfold decodeMajor00
  iterate 19 refine skip (fun e => absurd (h1.symm.trans e) (by decide)) ?_
  refine take h1 ?_
  simp only [fD, fA, fB, fW, h2, h3, h4, h5]

theorem RoundTrip.div (d : BitVec 5) (a : BitVec 5) (b : BitVec 5) (w : BitVec 3) : RoundTrip.Statement (.div d a b w) := by
  obtain ⟨h0, h1, h2, h3, h4, h5, _, _, hb⟩ := cut_7_3_5_5_5_7 35#7 w b a d 1#7
  refine of32 rfl rfl rfl hb fun hw => (major00 h0).trans ?_
  clear hb
  generalize 35#7 ++ w ++ b ++ a ++ d ++ 1#7 = v at h0 h1 h2 h3 h4 h5 ⊢
  unfold decodeMajor00
  iterate 20 refine skip (fun e => absurd (h1.symm.trans e) (by decide)) ?_
  refine take h1 ?_
  simp only [fD, fA, fB, fW, h2, h3, h4, h5]

theorem RoundTrip.divu (d : BitVec 5) (a : BitVec 5) (b : BitVec 5) (w : BitVec 3) : RoundTrip.Statement (.divu d a b w) := by
  obtain ⟨h0, h1, h2, h3, h4, h5, _, _, hb⟩ := cut_7_3_5_5_5_7 36#7 w b a d 1#7
  refine of32 rfl rfl rfl hb fun hw => (major00 h0).trans ?_
  clear hb
  generalize 36#7 ++ w ++ b ++ a ++ d ++ 1#7 = v at h0 h1 h2 h3 h4 h5 ⊢
  unfold decodeMajor00
  iterate 21 refine skip (fun e => absurd (h1.symm.trans e) (by decide)) ?_
  refine take h1 ?_
  simp only [fD, fA, fB, fW, h2, h3, h4, h5]

theorem RoundTrip.rem (d : BitVec 5) (a : BitVec 5) (b : BitVec 5) (w : BitVec 3) : RoundTrip.Statement (.rem d a b w) := by
  obtain ⟨h0, h1, h2, h3, h4, h5, _, _, hb⟩ := cut_7_3_5_5_5_7 37#7 w b a d 1#7
  refine of32 rfl rfl rfl hb fun hw => (major00 h0).trans ?_
  clear hb
  generalize 37#7 ++ w ++ b ++ a ++ d ++ 1#7 = v at h0 h1 h2 h3 h4 h5 ⊢
  unfold decodeMajor00
  iterate 22 refine skip (fun e => absurd (h1.symm.trans e) (by decide)) ?_
  refine take h1 ?_
  simp only [fD, fA, fB, fW, h2, h3, h4, h5]

theorem RoundTrip.remu (d : BitVec 5) (a : BitVec 5) (b : BitVec 5) (w : BitVec 3) : RoundTrip.Statement (.remu d a b w) := by
  obtain ⟨h0, h1, h2, h3, h4, h5, _, _, hb⟩ := cut_7_3_5_5_5_7 38#7 w b a d 1#7
  refine of32 rfl rfl rfl hb fun hw => (major00 h0).trans ?_
  clear hb
  generalize 38#7 ++ w ++ b ++ a ++ d ++ 1#7 = v at h0 h1 h2 h3 h4 h5 ⊢
  unfold decodeMajor00
  iterate 23 refine skip (fun e => absurd (h1.symm.trans e) (by decide)) ?_
  refine take h1 ?_
  simp only [fD, fA, fB, fW, h2, h3, h4, h5]

theorem RoundTrip.clz (d : BitVec 5) (a : BitVec 5) (w : BitVec 3) : RoundTrip.Statement (.clz d a w) := by
  obtain ⟨h0, h1, h2, h3, h4, h5, _, _, hb⟩ := cut_7_3_5_5_5_7 48#7 w 0#5 a d 1#7
  refine of32 rfl rfl rfl hb fun hw => (major00 h0).trans ?_
  clear hb
  generalize 48#7 ++ w ++ 0#5 ++ a ++ d ++ 1#7 = v at h0 h1 h2 h3 h4 h5 ⊢
  unfold decodeMajor00
  iterate 24 refine skip (fun e => absurd (h1.symm.trans e) (by decide)) ?_
  refine take ⟨h1, h4⟩ ?_
  simp only [fD, fA, fW, h2, h3, h5]

theorem RoundTrip.ctz (d : BitVec 5) (a : BitVec 5) (w : BitVec 3) : RoundTrip.Statement (.ctz d a w) := by
  obtain ⟨h0, h1, h2, h3, h4, h5, _, _, hb⟩ := cut_7_3_5_5_5_7 49#7 w 0#5 a d 1#7
  refine of32 rfl rfl rfl hb fun hw => (major00 h0).trans ?_
  clear hb
  generalize 49#7 ++ w ++ 0#5 ++ a ++ d ++ 1#7 = v at h0 h1 h2 h3 h4 h5 ⊢
  unfold decodeMajor00
  iterate 24 refine skip (fun e => absurd (h1.symm.trans e) (by decide)) ?_
  refine skip (fun e => absurd (h1.symm.trans e.1) (by decide)) ?_
  refine take ⟨h1, h4⟩ ?_
  simp only [fD, fA, fW, h2, h3, h5]

theorem RoundTrip.popc (d : BitVec 5) (a : BitVec 5) (w : BitVec 3) : RoundTrip.Statement (.popc d a w) := by
  obtain ⟨h0, h1, h2, h3, h4, h5, _, _, hb⟩ := cut_7_3_5_5_5_7 50#7 w 0#5 a d 1#7
  refine of32 rfl rfl rfl hb fun hw => (major00 h0).trans ?_
  clear hb
  generalize 50#7 ++ w ++ 0#5 ++ a ++ d ++ 1#7 = v at h0 h1 h2 h3 h4 h5 ⊢
  unfold decodeMajor00
  iterate 24 refine skip (fun e => absurd (h1.symm.trans e) (by decide)) ?_
  iterate 2 refine skip (fun e => absurd (h1.symm.trans e.1) (by decide)) ?_
  refine take ⟨h1, h4⟩ ?_
  simp only [fD, fA, fW, h2, h3, h5]

theorem RoundTrip.bext (d : BitVec 5) (a : BitVec 5) (b : BitVec 5) (w : BitVec 3) : RoundTrip.Statement (.bext d a b w) := by
  obtain ⟨h0, h1, h2, h3, h4, h5, _, _, hb⟩ := cut_7_3_5_5_5_7 51#7 w b a d 1#7
  refine of32 rfl rfl rfl hb fun hw => (major00 h0).trans ?_
  clear hb
  generalize 51#7 ++ w ++ b ++ a ++ d ++ 1#7 = v at h0 h1 h2 h3 h4 h5 ⊢
  unfold decodeMajor00
  iterate 24 refine skip (fun e => absurd (h1.symm.trans e) (by decide)) ?_
  iterate 3 refine skip (fun e => absurd (h1.symm.trans e.1) (by decide)) ?_
  refine take h1 ?_
  simp only [fD, fA, fB, fW, h2, h3, h4, h5]

theorem RoundTrip.bins (d : BitVec 5) (a : BitVec 5) (b : BitVec 5) (w : BitVec 3) : RoundTrip.Statement (.bins d a b w) := by
  obtain ⟨h0, h1, h2, h3, h4, h5, _, _, hb⟩ := cut_7_3_5_5_5_7 52#7 w b a d 1#7
  refine of32 rfl rfl rfl hb fun hw => (major00 h0).trans ?_
  clear hb
  generalize 52#7 ++ w ++ b ++ a ++ d ++ 1#7 = v at h0 h1 h2 h3 h4 h5 ⊢
  unfold decodeMajor00
  iterate 24 refine skip (fun e => absurd (h1.symm.trans e) (by decide)) ?_
  iterate 3 refine skip (fun e => absurd (h1.symm.trans e.1) (by decide)) ?_
  refine skip (fun e => absurd (h1.symm.trans e) (by decide)) ?_
  refine take h1 ?_
  simp only [fD, fA, fB, fW, h2, h3, h4, h5]

theorem RoundTrip.baddr (d : BitVec 5) (a : BitVec 5) (b : BitVec 5) (w : BitVec 3) : RoundTrip.Statement (.baddr d a b w) := by
  obtain ⟨h0, h1, h2, h3, h4, h5, _, _, hb⟩ := cut_7_3_5_5_5_7 53#7 w b a d 1#7
  refine of32 rfl rfl rfl hb fun hw => (major00 h0).trans ?_
  clear hb
  generalize 53#7 ++ w ++ b ++ a ++ d ++ 1#7 = v at h0 h1 h2 h3 h4 h5 ⊢
  unfold decodeMajor00
  iterate 24 refine skip (fun e => absurd (h1.symm.trans e) (by decide)) ?_
  iterate 3 refine skip (fun e => absurd (h1.symm.trans e.1) (by decide)) ?_
  iterate 2 refine skip (fun e => absurd (h1.symm.trans e) (by decide)) ?_
  refine take h1 ?_
  simp only [fD, fA, fB, fW, h2, h3, h4, h5]

theorem RoundTrip.slli (d : BitVec 5) (a : BitVec 5) (s : BitVec 6) (w : BitVec 3) : RoundTrip.Statement (.slli d a s w) := by
  obtain ⟨h0, h1, h2, h3, h4, h5, h6, hb⟩ := cut_6_1_3_5_5_5_7 32#6 (s.extractLsb' 5 1) w (s.extractLsb' 0 5) a d 1#7
  refine of32 rfl rfl rfl hb fun hw => (major00 h0).trans ?_
  clear hb
  generalize 32#6 ++ (s.extractLsb' 5 1) ++ w ++ (s.extractLsb' 0 5) ++ a ++ d ++ 1#7 = v at h0 h1 h2 h3 h4 h5 h6 ⊢
  unfold decodeMajor00
  iterate 24 refine skip (fun e => part_ne (s := 25) (l := 7) (p := 1) h1 (by decide) (by decide) e) ?_
  iterate 3 refine skip (fun e => part_ne (s := 25) (l := 7) (p := 1) h1 (by decide) (by decide) e.1) ?_
  iterate 3 refine skip (fun e => part_ne (s := 25) (l := 7) (p := 1) h1 (by decide) (by decide) e) ?_
  refine take h1 ?_
  simp only [fD, fA, fB, fW, h2, h3, h4, h5, h6, join_1_5]

theorem RoundTrip.srli (d : BitVec 5) (a : BitVec 5) (s : BitVec 6) (w : BitVec 3) : RoundTrip.Statement (.srli d a s w) := by
  obtain ⟨h0, h1, h2, h3, h4, h5, h6, hb⟩ := cut_6_1_3_5_5_5_7 33#6 (s.extractLsb' 5 1) w (s.extractLsb' 0 5) a d 1#7
  refine of32 rfl rfl rfl hb fun hw => (major00 h0).trans ?_
  clear hb
  generalize 33#6 ++ (s.extractLsb' 5 1) ++ w ++ (s.extractLsb' 0 5) ++ a ++ d ++ 1#7 = v at h0 h1 h2 h3 h4 h5 h6 ⊢
  unfold decodeMajor00
  iterate 24 refine skip (fun e => part_ne (s := 25) (l := 7) (p := 1) h1 (by decide) (by decide) e) ?_
  iterate 3 refine skip (fun e => part_ne (s := 25) (l := 7) (p := 1) h1 (by decide) (by decide) e.1) ?_
  iterate 3 refine skip (fun e => part_ne (s := 25) (l := 7) (p := 1) h1 (by decide) (by decide) e) ?_
  refine skip (fun e => absurd (h1.symm.trans e) (by decide)) ?_
  refine take h1 ?_
  simp only [fD, fA, fB, fW, h2, h3, h4, h5, h6, join_1_5]

theorem RoundTrip.srai (d : BitVec 5) (a : BitVec 5) (s : BitVec 6) (w : BitVec 3) : RoundTrip.Statement (.srai d a s w) := by
  obtain ⟨h0, h1, h2, h3, h4, h5, h6, hb⟩ := cut_6_1_3_5_5_5_7 34#6 (s.extractLsb' 5 1) w (s.extractLsb' 0 5) a d 1#7
  refine of32 rfl rfl rfl hb fun hw => (major00 h0).trans ?_
  clear hb
  generalize 34#6 ++ (s.extractLsb' 5 1) ++ w ++ (s.extractLsb' 0 5) ++ a ++ d ++ 1#7 = v at h0 h1 h2 h3 h4 h5 h6 ⊢
  unfold decodeMajor00
  iterate 24 refine skip (fun e => part_ne (s := 25) (l := 7) (p := 1) h1 (by decide) (by decide) e) ?_
  iterate 3 refine skip (fun e => part_ne (s := 25) (l := 7) (p := 1) h1 (by decide) (by decide) e.1) ?_
  iterate 3 refine skip (fun e => part_ne (s := 25) (l := 7) (p := 1) h1 (by decide) (by decide) e) ?_
  iterate 2 refine skip (fun e => absurd (h1.symm.trans e) (by decide)) ?_
  refine take h1 ?_
  simp only [fD, fA, fB, fW, h2, h3, h4, h5, h6, join_1_5]

theorem RoundTrip.addi (d : BitVec 5) (a : BitVec 5) (i : BitVec 12) (w : BitVec 3) : RoundTrip.Statement (.addi d a i w) := by
  obtain ⟨h0, h1, h2, h3, h4, h5, _, _, hb⟩ := cut_7_3_5_5_5_7 (i.extractLsb' 5 7) w (i.extractLsb' 0 5) a d 3#7
  refine of32 rfl rfl rfl hb fun hw => (major01 h0).trans ?_
  clear hb
  generalize (i.extractLsb' 5 7) ++ w ++ (i.extractLsb' 0 5) ++ a ++ d ++ 3#7 = v at h0 h1 h2 h3 h4 h5 ⊢
  unfold decodeMajor01
  simp only [fD, fA, fB, fW, fF, h2, h3, h1, h4, h5, join_7_5]

theorem RoundTrip.andi (d : BitVec 5) (a : BitVec 5) (i : BitVec 12) (w : BitVec 3) : RoundTrip.Statement (.andi d a i w) := by
  obtain ⟨h0, h1, h2, h3, h4, h5, _, _, hb⟩ := cut_7_3_5_5_5_7 (i.extractLsb' 5 7) w (i.extractLsb' 0 5) a d 5#7
  refine of32 rfl rfl rfl hb fun hw => (major02 h0).trans ?_
  clear hb
  generalize (i.extractLsb' 5 7) ++ w ++ (i.extractLsb' 0 5) ++ a ++ d ++ 5#7 = v at h0 h1 h2 h3 h4 h5 ⊢
  unfold decodeMajor02
  simp only [fD, fA, fB, fW, fF, h2, h3, h1, h4, h5, join_7_5]

theorem RoundTrip.ori (d : BitVec 5) (a : BitVec 5) (i : BitVec 12) (w : BitVec 3) : RoundTrip.Statement (.ori d a i w) := by
  obtain ⟨h0, h1, h2, h3, h4, h5, _, _, hb⟩ := cut_7_3_5_5_5_7 (i.extractLsb' 5 7) w (i.extractLsb' 0 5) a d 7#7
  refine of32 rfl rfl rfl hb fun hw => (major03 h0).trans ?_
  clear hb
  generalize (i.extractLsb' 5 7) ++ w ++ (i.extractLsb' 0 5) ++ a ++ d ++ 7#7 = v at h0 h1 h2 h3 h4 h5 ⊢
  unfold decodeMajor03
  simp only [fD, fA, fB, fW, fF, h2, h3, h1, h4, h5, join_7_5]

theorem RoundTrip.xori (d : BitVec 5) (a : BitVec 5) (i : BitVec 12) (w : BitVec 3) : RoundTrip.Statement (.xori d a i w) := by
  obtain ⟨h0, h1, h2, h3, h4, h5, _, _, hb⟩ := cut_7_3_5_5_5_7 (i.extractLsb' 5 7) w (i.extractLsb' 0 5) a d 9#7
  refine of32 rfl rfl rfl hb fun hw => (major04 h0).trans ?_
  clear hb
  generalize (i.extractLsb' 5 7) ++ w ++ (i.extractLsb' 0 5) ++ a ++ d ++ 9#7 = v at h0 h1 h2 h3 h4 h5 ⊢
  unfold decodeMajor04
  simp only [fD, fA, fB, fW, fF, h2, h3, h1, h4, h5, join_7_5]

theorem RoundTrip.slti (d : BitVec 5) (a : BitVec 5) (i : BitVec 12) (w : BitVec 3) : RoundTrip.Statement (.slti d a i w) := by
  obtain ⟨h0, h1, h2, h3, h4, h5, _, _, hb⟩ := cut_7_3_5_5_5_7 (i.extractLsb' 5 7) w (i.extractLsb' 0 5) a d 11#7
  refine of32 rfl rfl rfl hb fun hw => (major05 h0).trans ?_
  clear hb
  generalize (i.extractLsb' 5 7) ++ w ++ (i.extractLsb' 0 5) ++ a ++ d ++ 11#7 = v at h0 h1 h2 h3 h4 h5 ⊢
  unfold decodeMajor05
  simp only [fD, fA, fB, fW, fF, h2, h3, h1, h4, h5, join_7_5]

theorem RoundTrip.limm (d : BitVec 5) (i : BitVec 16) (h : BitVec 2) (k : BitVec 1) : RoundTrip.Statement (.limm d i h k) := by
  obtain ⟨h0, h1, h2, h3, h4, h5, h6, hb⟩ := cut_7_1_2_9_1_5_7 (i.extractLsb' 9 7) 0#1 h (i.extractLsb' 0 9) k d 13#7
  refine of32 rfl rfl rfl hb fun hw => (major06 h0).trans ?_
  clear hb
  generalize (i.extractLsb' 9 7) ++ 0#1 ++ h ++ (i.extractLsb' 0 9) ++ k ++ d ++ 13#7 = v at h0 h1 h2 h3 h4 h5 h6 ⊢
  unfold decodeMajor06
  refine take h1 ?_
  simp only [fD, fF, h2, h3, h4, h5, h6, join_7_9]

theorem RoundTrip.ld (d : BitVec 5) (a : BitVec 5) (b : BitVec 5) (s : BitVec 1) (w : BitVec 6) (h : BitVec 3) : RoundTrip.Statement (.ld d a b s w h) := by
  obtain ⟨h0, h1, h2, h3, h4, h5, h6, hb⟩ := cut_1_6_3_5_5_5_7 s w h b a d 17#7
  refine of32 rfl rfl rfl hb fun hw => (major08 h0).trans ?_
  clear hb
  generalize s ++ w ++ h ++ b ++ a ++ d ++ 17#7 = v at h0 h1 h2 h3 h4 h5 h6 ⊢
  unfold decodeMajor08
  simp only [fD, fA, fB, fW, h1, h2, h3, h4, h5, h6]

theorem RoundTrip.st (d : BitVec 5) (a : BitVec 5) (b : BitVec 5) (w : BitVec 6) (h : BitVec 3) : RoundTrip.Statement (.st d a b w h) := by
  obtain ⟨h0, h1, h2, h3, h4, h5, h6, hb⟩ := cut_1_6_3_5_5_5_7 0#1 w h b a d 19#7
  refine of32 rfl rfl rfl hb fun hw => (major09 h0).trans ?_
  clear hb
  generalize 0#1 ++ w ++ h ++ b ++ a ++ d ++ 19#7 = v at h0 h1 h2 h3 h4 h5 h6 ⊢
  unfold decodeMajor09
  refine take h4 ?_
  simp only [fD, fA, fB, fW, h1, h2, h3, h5, h6]

theorem RoundTrip.ldc (d : BitVec 5) (a : BitVec 5) (b : BitVec 5) (s : BitVec 1) (w : BitVec 6) (h : BitVec 3) : RoundTrip.Statement (.ldc d a b s w h) := by
  obtain ⟨h0, h1, h2, h3, h4, h5, h6, hb⟩ := cut_1_6_3_5_5_5_7 s w h b a d 21#7
  refine of32 rfl rfl rfl hb fun hw => (major0A h0).trans ?_
  clear hb
  generalize s ++ w ++ h ++ b ++ a ++ d ++ 21#7 = v at h0 h1 h2 h3 h4 h5 h6 ⊢
  unfold decodeMajor0A
  refine skip (fun e => of_decide_eq_true hw (h1.symm.trans e.2)) ?_
  simp only [fD, fA, fB, fW, h1, h2, h3, h4, h5, h6]

theorem RoundTrip.pref (a : BitVec 5) (b : BitVec 5) (w : BitVec 6) (h : BitVec 3) : RoundTrip.Statement (.pref a b w h) := by
  obtain ⟨h0, h1, h2, h3, h4, h5, h6, hb⟩ := cut_1_6_3_5_5_12 0#1 w h b a 21#12
  replace h2 : _ = 0#5 := h2
  refine of32 rfl rfl rfl hb fun hw => (major0A h0).trans ?_
  clear hb
  generalize 0#1 ++ w ++ h ++ b ++ a ++ 21#12 = v at h0 h1 h2 h3 h4 h5 h6 ⊢
  unfold decodeMajor0A
  refine take ⟨h1, h2⟩ ?_
  simp only [fA, fB, fW, h3, h4, h5, h6]

theorem RoundTrip.etag (d : BitVec 5) (a : BitVec 5) (b : BitVec 5) (w : BitVec 3) : RoundTrip.Statement (.etag d a b w) := by
  obtain ⟨h0, h1, h2, h3, h4, h5, _, _, hb⟩ := cut_7_3_5_5_5_7 0#7 w b a d 23#7
  refine of32 rfl rfl rfl hb fun hw => (major0B h0).trans ?_
  clear hb
  generalize 0#7 ++ w ++ b ++ a ++ d ++ 23#7 = v at h0 h1 h2 h3 h4 h5 ⊢
  unfold decodeMajor0B
  refine take h1 ?_
  simp only [fD, fA, fB, fW, h2, h3, h4, h5]

theorem RoundTrip.extn (d : BitVec 5) (a : BitVec 5) (b : BitVec 5) (p : BitVec 2) (w : BitVec 3) : RoundTrip.Statement (.extn d a b p w) := by
  obtain ⟨h0, h1, h2, h3, h4, h5, h6, hb⟩ := cut_5_2_3_5_5_5_7 1#5 p w b a d 23#7
  refine of32 rfl rfl rfl hb fun hw => (major0B h0).trans ?_
  clear hb
  generalize 1#5 ++ p ++ w ++ b ++ a ++ d ++ 23#7 = v at h0 h1 h2 h3 h4 h5 h6 ⊢
  unfold decodeMajor0B
  refine skip (fun e => part_ne (s := 25) (l := 7) (p := 2) h1 (by decide) (by decide) e) ?_
  refine take h1 ?_
  simp only [fD, fA, fB, fW, h2, h3, h4, h5, h6]

theorem RoundTrip.extrBase (d : BitVec 5) (b : BitVec 5) (w : BitVec 3) : RoundTrip.Statement (.extrBase d b w) := by
  obtain ⟨h0, h1, h2, h3, h4, h5, h6, _, hb⟩ := cut_7_3_5_5_5_7 8#7 w b 0#5 d 23#7
  replace h6 : _ = 2#5 := h6
  refine of32 rfl rfl rfl hb fun hw => (major0B h0).trans ?_
  clear hb
  generalize 8#7 ++ w ++ b ++ 0#5 ++ d ++ 23#7 = v at h0 h1 h2 h3 h4 h5 h6 ⊢
  unfold decodeMajor0B
  refine skip (fun e => absurd (h1.symm.trans e) (by decide)) ?_
  refine skip (fun e => absurd (h6.symm.trans e) (by decide)) ?_
  refine take ⟨h1, h3⟩ ?_
  simp only [fD, fB, fW, h2, h4, h5]

theorem RoundTrip.extrLen (d : BitVec 5) (b : BitVec 5) (w : BitVec 3) : RoundTrip.Statement (.extrLen d b w) := by
  obtain ⟨h0, h1, h2, h3, h4, h5, h6, _, hb⟩ := cut_7_3_5_5_5_7 9#7 w b 0#5 d 23#7
  replace h6 : _ = 2#5 := h6
  refine of32 rfl rfl rfl hb fun hw => (major0B h0).trans ?_
  clear hb
  generalize 9#7 ++ w ++ b ++ 0#5 ++ d ++ 23#7 = v at h0 h1 h2 h3 h4 h5 h6 ⊢
  unfold decodeMajor0B
  refine skip (fun e => absurd (h1.symm.trans e) (by decide)) ?_
  refine skip (fun e => absurd (h6.symm.trans e) (by decide)) ?_
  refine skip (fun e => absurd (h1.symm.trans e.1) (by decide)) ?_
  refine take ⟨h1, h3⟩ ?_
  simp only [fD, fB, fW, h2, h4, h5]

theorem RoundTrip.extrAttr (d : BitVec 5) (b : BitVec 5) (w : BitVec 3) : RoundTrip.Statement (.extrAttr d b w) := by
  obtain ⟨h0, h1, h2, h3, h4, h5, h6, _, hb⟩ := cut_7_3_5_5_5_7 10#7 w b 0#5 d 23#7
  replace h6 : _ = 2#5 := h6
  refine of32 rfl rfl rfl hb fun hw => (major0B h0).trans ?_
  clear hb
  generalize 10#7 ++ w ++ b ++ 0#5 ++ d ++ 23#7 = v at h0 h1 h2 h3 h4 h5 h6 ⊢
  unfold decodeMajor0B
  refine skip (fun e => absurd (h1.symm.trans e) (by decide)) ?_
  refine skip (fun e => absurd (h6.symm.trans e) (by decide)) ?_
  iterate 2 refine skip (fun e => absurd (h1.symm.trans e.1) (by decide)) ?_
  refine take ⟨h1, h3⟩ ?_
  simp only [fD, fB, fW, h2, h4, h5]

theorem RoundTrip.beq (a : BitVec 5) (b : BitVec 5) (o : BitVec 12) : RoundTrip.Statement (.beq a b o) := by
  obtain ⟨h0, h1, h2, h3, h4, h5, _, _, hb⟩ := cut_7_3_5_5_5_7 (o.extractLsb' 5 7) 0#3 b a (o.extractLsb' 0 5) 25#7
  refine of32 rfl rfl rfl hb fun hw => (major0C h0).trans ?_
  clear hb
  generalize (o.extractLsb' 5 7) ++ 0#3 ++ b ++ a ++ (o.extractLsb' 0 5) ++ 25#7 = v at h0 h1 h2 h3 h4 h5 ⊢
  unfold decodeMajor0C
  refine take h5 ?_
  simp only [fD, fA, fB, fF, h3, h4, h1, h2, join_7_5]

theorem RoundTrip.bne (a : BitVec 5) (b : BitVec 5) (o : BitVec 12) : RoundTrip.Statement (.bne a b o) := by
  obtain ⟨h0, h1, h2, h3, h4, h5, _, _, hb⟩ := cut_7_3_5_5_5_7 (o.extractLsb' 5 7) 1#3 b a (o.extractLsb' 0 5) 25#7
  refine of32 rfl rfl rfl hb fun hw => (major0C h0).trans ?_
  clear hb
  generalize (o.extractLsb' 5 7) ++ 1#3 ++ b ++ a ++ (o.extractLsb' 0 5) ++ 25#7 = v at h0 h1 h2 h3 h4 h5 ⊢
  unfold decodeMajor0C
  refine skip (fun e => absurd (h5.symm.trans e) (by decide)) ?_
  refine take h5 ?_
  simp only [fD, fA, fB, fF, h3, h4, h1, h2, join_7_5]

theorem RoundTrip.blt (a : BitVec 5) (b : BitVec 5) (o : BitVec 12) : RoundTrip.Statement (.blt a b o) := by
  obtain ⟨h0, h1, h2, h3, h4, h5, _, _, hb⟩ := cut_7_3_5_5_5_7 (o.extractLsb' 5 7) 2#3 b a (o.extractLsb' 0 5) 25#7
  refine of32 rfl rfl rfl hb fun hw => (major0C h0).trans ?_
  clear hb
  generalize (o.extractLsb' 5 7) ++ 2#3 ++ b ++ a ++ (o.extractLsb' 0 5) ++ 25#7 = v at h0 h1 h2 h3 h4 h5 ⊢
  unfold decodeMajor0C
  iterate 2 refine skip (fun e => absurd (h5.symm.trans e) (by decide)) ?_
  refine take h5 ?_
  simp only [fD, fA, fB, fF, h3, h4, h1, h2, join_7_5]

theorem RoundTrip.bge (a : BitVec 5) (b : BitVec 5) (o : BitVec 12) : RoundTrip.Statement (.bge a b o) := by
  obtain ⟨h0, h1, h2, h3, h4, h5, _, _, hb⟩ := cut_7_3_5_5_5_7 (o.extractLsb' 5 7) 3#3 b a (o.extractLsb' 0 5) 25#7
  refine of32 rfl rfl rfl hb fun hw => (major0C h0).trans ?_
  clear hb
  generalize (o.extractLsb' 5 7) ++ 3#3 ++ b ++ a ++ (o.extractLsb' 0 5) ++ 25#7 = v at h0 h1 h2 h3 h4 h5 ⊢
  unfold decodeMajor0C
  iterate 3 refine skip (fun e => absurd (h5.symm.trans e) (by decide)) ?_
  refine take h5 ?_
  simp only [fD, fA, fB, fF, h3, h4, h1, h2, join_7_5]

theorem RoundTrip.bltu (a : BitVec 5) (b : BitVec 5) (o : BitVec 12) : RoundTrip.Statement (.bltu a b o) := by
  obtain ⟨h0, h1, h2, h3, h4, h5, _, _, hb⟩ := cut_7_3_5_5_5_7 (o.extractLsb' 5 7) 4#3 b a (o.extractLsb' 0 5) 25#7
  refine of32 rfl rfl rfl hb fun hw => (major0C h0).trans ?_
  clear hb
  generalize (o.extractLsb' 5 7) ++ 4#3 ++ b ++ a ++ (o.extractLsb' 0 5) ++ 25#7 = v at h0 h1 h2 h3 h4 h5 ⊢
  unfold decodeMajor0C
  iterate 4 refine skip (fun e => absurd (h5.symm.trans e) (by decide)) ?_
  refine take h5 ?_
  simp only [fD, fA, fB, fF, h3, h4, h1, h2, join_7_5]

theorem RoundTrip.bgeu (a : BitVec 5) (b : BitVec 5) (o : BitVec 12) : RoundTrip.Statement (.bgeu a b o) := by
  obtain ⟨h0, h1, h2, h3, h4, h5, _, _, hb⟩ := cut_7_3_5_5_5_7 (o.extractLsb' 5 7) 5#3 b a (o.extractLsb' 0 5) 25#7
  refine of32 rfl rfl rfl hb fun hw => (major0C h0).trans ?_
  clear hb
  generalize (o.extractLsb' 5 7) ++ 5#3 ++ b ++ a ++ (o.extractLsb' 0 5) ++ 25#7 = v at h0 h1 h2 h3 h4 h5 ⊢
  unfold decodeMajor0C
  iterate 5 refine skip (fun e => absurd (h5.symm.trans e) (by decide)) ?_
  refine take h5 ?_
  simp only [fD, fA, fB, fF, h3, h4, h1, h2, join_7_5]

theorem RoundTrip.jal (d : BitVec 5) (o : BitVec 20) : RoundTrip.Statement (.jal d o) := by
  obtain ⟨h0, h1, h2, hb⟩ := cut_20_5_7 o d 27#7
  refine of32 rfl rfl rfl hb fun hw => (major0D h0).trans ?_
  clear hb
  generalize o ++ d ++ 27#7 = v at h0 h1 h2 ⊢
  unfold decodeMajor0D
  simp only [fD, h1, h2]

theorem RoundTrip.jalr (d : BitVec 5) (a : BitVec 5) (i : BitVec 12) (w : BitVec 3) : RoundTrip.Statement (.jalr d a i w) := by
  obtain ⟨h0, h1, h2, h3, h4, h5, _, _, hb⟩ := cut_7_3_5_5_5_7 (i.extractLsb' 5 7) w (i.extractLsb' 0 5) a d 29#7
  refine of32 rfl rfl rfl hb fun hw => (major0E h0).trans ?_
  clear hb
  generalize (i.extractLsb' 5 7) ++ w ++ (i.extractLsb' 0 5) ++ a ++ d ++ 29#7 = v at h0 h1 h2 h3 h4 h5 ⊢
  unfold decodeMajor0E
  simp only [fD, fA, fB, fW, fF, h2, h3, h1, h4, h5, join_7_5]

theorem RoundTrip.loop (a : BitVec 5) (e : BitVec 11) : RoundTrip.Statement (.loop a e) := by
  obtain ⟨h0, h1, h2, h3, h4, hb⟩ := cut_4_11_5_12 0#4 e a 31#12
  replace h2 : _ = 0#5 := h2
  refine of32 rfl rfl rfl hb fun hw => (major0F h0).trans ?_
  clear hb
  generalize 0#4 ++ e ++ a ++ 31#12 = v at h0 h1 h2 h3 h4 ⊢
  unfold decodeMajor0F
  refine take ⟨h1, h2⟩ ?_
  simp only [fA, h3, h4]

theorem RoundTrip.loopi (e : BitVec 11) (c : BitVec 10) : RoundTrip.Statement (.loopi e c) := by
  obtain ⟨h0, h1, h2, h3, hb⟩ := cut_4_11_10_7 1#4 e c 31#7
  refine of32 rfl rfl rfl hb fun hw => (major0F h0).trans ?_
  clear hb
  generalize 1#4 ++ e ++ c ++ 31#7 = v at h0 h1 h2 h3 ⊢
  unfold decodeMajor0F
  refine skip (fun e => absurd (h1.symm.trans e.1) (by decide)) ?_
  refine take h1 ?_
  simp only [h2, h3]

theorem RoundTrip.lexit : RoundTrip.Statement .lexit := of32 rfl rfl rfl rfl fun _ => (major0F rfl).trans rfl
theorem RoundTrip.rpt (m : BitVec 3) (s : BitVec 3) (c : BitVec 10) : RoundTrip.Statement (.rpt m s c) := by
  obtain ⟨h0, h1, h2, h3, h4, h5, hb⟩ := cut_4_3_3_10_12 3#4 m s c 31#12
  replace h2 : _ = 0#5 := h2
  refine of32 rfl rfl rfl hb fun hw => (major0F h0).trans ?_
  clear hb
  generalize 3#4 ++ m ++ s ++ c ++ 31#12 = v at h0 h1 h2 h3 h4 h5 ⊢
  unfold decodeMajor0F
  refine skip (fun e => absurd (h1.symm.trans e.1) (by decide)) ?_
  refine skip (fun e => absurd (h1.symm.trans e) (by decide)) ?_
  refine skip (fun e => part_ne (s := 7) (l := 25) (p := 21) h1 (by decide) (by decide) e) ?_
  refine take ⟨h1, h2⟩ ?_
  simp only [fW, fK, h3, h4, h5]

theorem RoundTrip.fork (o : BitVec 21) : RoundTrip.Statement (.fork o) := by
  obtain ⟨h0, h1, h2, hb⟩ := cut_4_21_7 4#4 o 31#7
  refine of32 rfl rfl rfl hb fun hw => (major0F h0).trans ?_
  clear hb
  generalize 4#4 ++ o ++ 31#7 = v at h0 h1 h2 ⊢
  unfold decodeMajor0F
  refine skip (fun e => absurd (h1.symm.trans e.1) (by decide)) ?_
  refine skip (fun e => absurd (h1.symm.trans e) (by decide)) ?_
  refine skip (fun e => part_ne (s := 7) (l := 25) (p := 21) h1 (by decide) (by decide) e) ?_
  refine skip (fun e => absurd (h1.symm.trans e.1) (by decide)) ?_
  refine take h1 ?_
  simp only [h2]

theorem RoundTrip.rdv : RoundTrip.Statement .rdv := of32 rfl rfl rfl rfl fun _ => (major0F rfl).trans rfl
theorem RoundTrip.rdvEnd : RoundTrip.Statement .rdvEnd := of32 rfl rfl rfl rfl fun _ => (major0F rfl).trans rfl
theorem RoundTrip.rdvPairComplete (c : Nat) : RoundTrip.Statement (.rdvPairComplete c) := nothing rfl rfl rfl

theorem RoundTrip.fadd (d : BitVec 5) (a : BitVec 5) (b : BitVec 5) (t : BitVec 2) (w : BitVec 3) : RoundTrip.Statement (.fadd d a b t w) := by
  obtain ⟨h0, h1, h2, h3, h4, h5, h6, hb⟩ := cut_5_2_3_5_5_5_7 0#5 t w b a d 33#7
  refine of32 rfl rfl rfl hb fun hw => (major10 h0).trans ?_
  clear hb
  generalize 0#5 ++ t ++ w ++ b ++ a ++ d ++ 33#7 = v at h0 h1 h2 h3 h4 h5 h6 ⊢
  unfold decodeMajor10
  refine take h1 ?_
  simp only [fD, fA, fB, fW, h2, h3, h4, h5, h6]

theorem RoundTrip.fsub (d : BitVec 5) (a : BitVec 5) (b : BitVec 5) (t : BitVec 2) (w : BitVec 3) : RoundTrip.Statement (.fsub d a b t w) := by
  obtain ⟨h0, h1, h2, h3, h4, h5, h6, hb⟩ := cut_5_2_3_5_5_5_7 1#5 t w b a d 33#7
  refine of32 rfl rfl rfl hb fun hw => (major10 h0).trans ?_
  clear hb
  generalize 1#5 ++ t ++ w ++ b ++ a ++ d ++ 33#7 = v at h0 h1 h2 h3 h4 h5 h6 ⊢
  unfold decodeMajor10
  refine skip (fun e => absurd (h1.symm.trans e) (by decide)) ?_
  refine take h1 ?_
  simp only [fD, fA, fB, fW, h2, h3, h4, h5, h6]

theorem RoundTrip.fmul (d : BitVec 5) (a : BitVec 5) (b : BitVec 5) (t : BitVec 2) (w : BitVec 3) : RoundTrip.Statement (.fmul d a b t w) := by
  obtain ⟨h0, h1, h2, h3, h4, h5, h6, hb⟩ := cut_5_2_3_5_5_5_7 2#5 t w b a d 33#7
  refine of32 rfl rfl rfl hb fun hw => (major10 h0).trans ?_
  clear hb
  generalize 2#5 ++ t ++ w ++ b ++ a ++ d ++ 33#7 = v at h0 h1 h2 h3 h4 h5 h6 ⊢
  unfold decodeMajor10
  iterate 2 refine skip (fun e => absurd (h1.symm.trans e) (by decide)) ?_
  refine take h1 ?_
  simp only [fD, fA, fB, fW, h2, h3, h4, h5, h6]

theorem RoundTrip.fdiv (d : BitVec 5) (a : BitVec 5) (b : BitVec 5) (t : BitVec 2) (w : BitVec 3) : RoundTrip.Statement (.fdiv d a b t w) := by
  obtain ⟨h0, h1, h2, h3, h4, h5, h6, hb⟩ := cut_5_2_3_5_5_5_7 3#5 t w b a d 33#7
  refine of32 rfl rfl rfl hb fun hw => (major10 h0).trans ?_
  clear hb
  generalize 3#5 ++ t ++ w ++ b ++ a ++ d ++ 33#7 = v at h0 h1 h2 h3 h4 h5 h6 ⊢
  unfold decodeMajor10
  iterate 3 refine skip (fun e => absurd (h1.symm.trans e) (by decide)) ?_
  refine take h1 ?_
  simp only [fD, fA, fB, fW, h2, h3, h4, h5, h6]

theorem RoundTrip.fsqrt (d : BitVec 5) (a : BitVec 5) (t : BitVec 2) (w : BitVec 3) : RoundTrip.Statement (.fsqrt d a t w) := by
  obtain ⟨h0, h1, h2, h3, h4, h5, h6, hb⟩ := cut_5_2_3_5_5_5_7 4#5 t w 0#5 a d 33#7
  refine of32 rfl rfl rfl hb fun hw => (major10 h0).trans ?_
  clear hb
  generalize 4#5 ++ t ++ w ++ 0#5 ++ a ++ d ++ 33#7 = v at h0 h1 h2 h3 h4 h5 h6 ⊢
  unfold decodeMajor10
  iterate 4 refine skip (fun e => absurd (h1.symm.trans e) (by decide)) ?_
  refine take ⟨h1, h4⟩ ?_
  simp only [fD, fA, fW, h2, h3, h5, h6]

theorem RoundTrip.fmin (d : BitVec 5) (a : BitVec 5) (b : BitVec 5) (t : BitVec 2) (w : BitVec 3) : RoundTrip.Statement (.fmin d a b t w) := by
  obtain ⟨h0, h1, h2, h3, h4, h5, h6, hb⟩ := cut_5_2_3_5_5_5_7 5#5 t w b a d 33#7
  refine of32 rfl rfl rfl hb fun hw => (major10 h0).trans ?_
  clear hb
  generalize 5#5 ++ t ++ w ++ b ++ a ++ d ++ 33#7 = v at h0 h1 h2 h3 h4 h5 h6 ⊢
  unfold decodeMajor10
  iterate 4 refine skip (fun e => absurd (h1.symm.trans e) (by decide)) ?_
  refine skip (fun e => absurd (h1.symm.trans e.1) (by decide)) ?_
  refine take h1 ?_
  simp only [fD, fA, fB, fW, h2, h3, h4, h5, h6]

theorem RoundTrip.fmax (d : BitVec 5) (a : BitVec 5) (b : BitVec 5) (t : BitVec 2) (w : BitVec 3) : RoundTrip.Statement (.fmax d a b t w) := by
  obtain ⟨h0, h1, h2, h3, h4, h5, h6, hb⟩ := cut_5_2_3_5_5_5_7 6#5 t w b a d 33#7
  refine of32 rfl rfl rfl hb fun hw => (major10 h0).trans ?_
  clear hb
  generalize 6#5 ++ t ++ w ++ b ++ a ++ d ++ 33#7 = v at h0 h1 h2 h3 h4 h5 h6 ⊢
  unfold decodeMajor10
  iterate 4 refine skip (fun e => absurd (h1.symm.trans e) (by decide)) ?_
  refine skip (fun e => absurd (h1.symm.trans e.1) (by decide)) ?_
  refine skip (fun e => absurd (h1.symm.trans e) (by decide)) ?_
  refine take h1 ?_
  simp only [fD, fA, fB, fW, h2, h3, h4, h5, h6]

theorem RoundTrip.fma (d : BitVec 5) (a : BitVec 5) (b : BitVec 5) (t : BitVec 2) (w : BitVec 3) : RoundTrip.Statement (.fma d a b t w) := by
  obtain ⟨h0, h1, h2, h3, h4, h5, h6, hb⟩ := cut_5_2_3_5_5_5_7 0#5 t w b a d 35#7
  refine of32 rfl rfl rfl hb fun hw => (major11 h0).trans ?_
  clear hb
  generalize 0#5 ++ t ++ w ++ b ++ a ++ d ++ 35#7 = v at h0 h1 h2 h3 h4 h5 h6 ⊢
  unfold decodeMajor11
  refine take h1 ?_
  simp only [fD, fA, fB, fW, h2, h3, h4, h5, h6]

theorem RoundTrip.fcmp (d : BitVec 5) (a : BitVec 5) (b : BitVec 5) (c : BitVec 2) (t : BitVec 2) (w : BitVec 3) : RoundTrip.Statement (.fcmp d a b c t w) := by
  obtain ⟨h0, h1, h2, h3, h4, h5, h6, h7, hb⟩ := cut_3_2_2_3_5_5_5_7 0#3 c t w b a d 37#7
  refine of32 rfl rfl rfl hb fun hw => (major12 h0).trans ?_
  clear hb
  generalize 0#3 ++ c ++ t ++ w ++ b ++ a ++ d ++ 37#7 = v at h0 h1 h2 h3 h4 h5 h6 h7 ⊢
  unfold decodeMajor12
  refine take h1 ?_
  simp only [fD, fA, fB, fW, h2, h3, h4, h5, h6, h7]

theorem RoundTrip.fcvt (d : BitVec 5) (a : BitVec 5) (w : BitVec 3) (c : BitVec 5) : RoundTrip.Statement (.fcvt d a w c) := by
  obtain ⟨h0, h1, h2, h3, h4, h5, _, _, hb⟩ := cut_7_3_5_5_5_7 0#7 w c a d 39#7
  refine of32 rfl rfl rfl hb fun hw => (major13 h0).trans ?_
  clear hb
  generalize 0#7 ++ w ++ c ++ a ++ d ++ 39#7 = v at h0 h1 h2 h3 h4 h5 ⊢
  unfold decodeMajor13
  refine take h1 ?_
  simp only [fD, fA, fB, fW, h2, h3, h5, h4]

theorem RoundTrip.fmv (d : BitVec 5) (a : BitVec 5) (t : BitVec 2) (w : BitVec 3) (o : BitVec 5) : RoundTrip.Statement (.fmv d a t w o) := by
  obtain ⟨h0, h1, h2, h3, h4, h5, h6, hb⟩ := cut_5_2_3_5_5_5_7 1#5 t w o a d 39#7
  refine of32 rfl rfl rfl hb fun hw => (major13 h0).trans ?_
  clear hb
  generalize 1#5 ++ t ++ w ++ o ++ a ++ d ++ 39#7 = v at h0 h1 h2 h3 h4 h5 h6 ⊢
  unfold decodeMajor13
  refine skip (fun e => part_ne (s := 25) (l := 7) (p := 2) h1 (by decide) (by decide) e) ?_
  refine take h1 ?_
  simp only [fD, fA, fB, fW, h2, h3, h5, h6, h4]

theorem RoundTrip.ctlr (d : BitVec 5) (r : BitVec 12) : RoundTrip.Statement (.ctlr d r) := by
  obtain ⟨h0, h1, h2, h3, h4, h5, _, _, hb⟩ := cut_7_3_5_5_5_7 (r.extractLsb' 5 7) 0#3 (r.extractLsb' 0 5) 0#5 d 41#7
  refine of32 rfl rfl rfl hb fun hw => (major14 h0).trans ?_
  clear hb
  generalize (r.extractLsb' 5 7) ++ 0#3 ++ (r.extractLsb' 0 5) ++ 0#5 ++ d ++ 41#7 = v at h0 h1 h2 h3 h4 h5 ⊢
  unfold decodeMajor14
  refine take ⟨h5, h3⟩ ?_
  simp only [fD, fB, fF, h2, h1, h4, join_7_5]

theorem RoundTrip.ctlw (d : BitVec 5) (a : BitVec 5) (r : BitVec 12) : RoundTrip.Statement (.ctlw d a r) := by
  obtain ⟨h0, h1, h2, h3, h4, h5, _, _, hb⟩ := cut_7_3_5_5_5_7 (r.extractLsb' 5 7) 1#3 (r.extractLsb' 0 5) a d 41#7
  refine of32 rfl rfl rfl hb fun hw => (major14 h0).trans ?_
  clear hb
  generalize (r.extractLsb' 5 7) ++ 1#3 ++ (r.extractLsb' 0 5) ++ a ++ d ++ 41#7 = v at h0 h1 h2 h3 h4 h5 ⊢
  unfold decodeMajor14
  refine skip (fun e => absurd (h5.symm.trans e.1) (by decide)) ?_
  refine take h5 ?_
  simp only [fD, fA, fB, fF, h2, h3, h1, h4, join_7_5]

theorem RoundTrip.ctls (d : BitVec 5) (a : BitVec 5) (r : BitVec 12) : RoundTrip.Statement (.ctls d a r) := by
  obtain ⟨h0, h1, h2, h3, h4, h5, _, _, hb⟩ := cut_7_3_5_5_5_7 (r.extractLsb' 5 7) 2#3 (r.extractLsb' 0 5) a d 41#7
  refine of32 rfl rfl rfl hb fun hw => (major14 h0).trans ?_
  clear hb
  generalize (r.extractLsb' 5 7) ++ 2#3 ++ (r.extractLsb' 0 5) ++ a ++ d ++ 41#7 = v at h0 h1 h2 h3 h4 h5 ⊢
  unfold decodeMajor14
  refine skip (fun e => absurd (h5.symm.trans e.1) (by decide)) ?_
  refine skip (fun e => absurd (h5.symm.trans e) (by decide)) ?_
  refine take h5 ?_
  simp only [fD, fA, fB, fF, h2, h3, h1, h4, join_7_5]

theorem RoundTrip.ctlc (d : BitVec 5) (a : BitVec 5) (r : BitVec 12) : RoundTrip.Statement (.ctlc d a r) := by
  obtain ⟨h0, h1, h2, h3, h4, h5, _, _, hb⟩ := cut_7_3_5_5_5_7 (r.extractLsb' 5 7) 3#3 (r.extractLsb' 0 5) a d 41#7
  refine of32 rfl rfl rfl hb fun hw => (major14 h0).trans ?_
  clear hb
  generalize (r.extractLsb' 5 7) ++ 3#3 ++ (r.extractLsb' 0 5) ++ a ++ d ++ 41#7 = v at h0 h1 h2 h3 h4 h5 ⊢
  unfold decodeMajor14
  refine skip (fun e => absurd (h5.symm.trans e.1) (by decide)) ?_
  iterate 2 refine skip (fun e => absurd (h5.symm.trans e) (by decide)) ?_
  refine take h5 ?_
  simp only [fD, fA, fB, fF, h2, h3, h1, h4, join_7_5]

theorem RoundTrip.extentLowWrite (c : Nat) (n : BitVec 4) (v : Word) : RoundTrip.Statement (.extentLowWrite c n v) := nothing rfl rfl rfl

theorem RoundTrip.extentHighWrite (c : Nat) (n : BitVec 4) (v : Word) : RoundTrip.Statement (.extentHighWrite c n v) := nothing rfl rfl rfl

theorem RoundTrip.vtWrite (c : Nat) (v : Word) : RoundTrip.Statement (.vtWrite c v) := nothing rfl rfl rfl

theorem RoundTrip.vlWrite (c : Nat) (v : Word) : RoundTrip.Statement (.vlWrite c v) := nothing rfl rfl rfl

theorem RoundTrip.frmWrite (c : Nat) (v : Word) : RoundTrip.Statement (.frmWrite c v) := nothing rfl rfl rfl

theorem RoundTrip.sys (c : BitVec 16) : RoundTrip.Statement (.sys c) := by
  obtain ⟨h0, h1, h2, h3, hb⟩ := cut_4_16_12 0#4 c 43#12
  replace h2 : _ = 0#5 := h2
  refine of32 rfl rfl rfl hb fun hw => (major15 h0).trans ?_
  clear hb
  generalize 0#4 ++ c ++ 43#12 = v at h0 h1 h2 h3 ⊢
  unfold decodeMajor15
  refine take ⟨h1, h2⟩ ?_
  simp only [h3]

theorem RoundTrip.eret : RoundTrip.Statement .eret := of32 rfl rfl rfl rfl fun _ => (major15 rfl).trans rfl
theorem RoundTrip.wfe (d : BitVec 5) (a : BitVec 5) (b : BitVec 5) : RoundTrip.Statement (.wfe d a b) := by
  obtain ⟨h0, h1, h2, h3, h4, h5, hb⟩ := cut_10_5_5_5_7 128#10 b a d 43#7
  replace h1 : _ = 2#4 := h1
  refine of32 rfl rfl rfl hb fun hw => (major15 h0).trans ?_
  clear hb
  generalize 128#10 ++ b ++ a ++ d ++ 43#7 = v at h0 h1 h2 h3 h4 h5 ⊢
  unfold decodeMajor15
  refine skip (fun e => absurd (h1.symm.trans e.1) (by decide)) ?_
  refine skip (fun e => part_ne (s := 7) (l := 25) (p := 15) h2 (by decide) (by decide) e) ?_
  refine take h2 ?_
  simp only [fD, fA, fB, h3, h4, h5]

theorem RoundTrip.wfeWake (c : Nat) : RoundTrip.Statement (.wfeWake c) := nothing rfl rfl rfl

theorem RoundTrip.tlbiPage (a : BitVec 5) (b : BitVec 5) : RoundTrip.Statement (.tlbiPage a b) := by
  obtain ⟨h0, h1, h2, h3, h4, h5, hb⟩ := cut_10_5_5_12 192#10 b a 43#12
  replace h1 : _ = 3#4 := h1
  replace h3 : _ = 0#5 := h3
  refine of32 rfl rfl rfl hb fun hw => (major15 h0).trans ?_
  clear hb
  generalize 192#10 ++ b ++ a ++ 43#12 = v at h0 h1 h2 h3 h4 h5 ⊢
  unfold decodeMajor15
  refine skip (fun e => absurd (h1.symm.trans e.1) (by decide)) ?_
  refine skip (fun e => part_ne (s := 7) (l := 25) (p := 15) h2 (by decide) (by decide) e) ?_
  refine skip (fun e => absurd (h2.symm.trans e) (by decide)) ?_
  refine take ⟨h2, h3⟩ ?_
  simp only [fA, fB, h4, h5]

theorem RoundTrip.tlbiAsid (b : BitVec 5) : RoundTrip.Statement (.tlbiAsid b) := by
  obtain ⟨h0, h1, h2, h3, h4, hb⟩ := cut_10_5_17 208#10 b 43#17
  replace h1 : _ = 3#4 := h1
  replace h3 : _ = 0#10 := h3
  refine of32 rfl rfl rfl hb fun hw => (major15 h0).trans ?_
  clear hb
  generalize 208#10 ++ b ++ 43#17 = v at h0 h1 h2 h3 h4 ⊢
  unfold decodeMajor15
  refine skip (fun e => absurd (h1.symm.trans e.1) (by decide)) ?_
  refine skip (fun e => part_ne (s := 7) (l := 25) (p := 15) h2 (by decide) (by decide) e) ?_
  refine skip (fun e => absurd (h2.symm.trans e) (by decide)) ?_
  refine skip (fun e => absurd (h2.symm.trans e.1) (by decide)) ?_
  refine take ⟨h2, h3⟩ ?_
  simp only [fB, h4]

theorem RoundTrip.tlbiAll : RoundTrip.Statement .tlbiAll := of32 rfl rfl rfl rfl fun _ => (major15 rfl).trans rfl
theorem RoundTrip.clwb (a : BitVec 5) (b : BitVec 5) : RoundTrip.Statement (.clwb a b) := by
  obtain ⟨h0, h1, h2, h3, h4, h5, hb⟩ := cut_10_5_5_12 256#10 b a 43#12
  replace h1 : _ = 4#4 := h1
  replace h3 : _ = 0#5 := h3
  refine of32 rfl rfl rfl hb fun hw => (major15 h0).trans ?_
  clear hb
  generalize 256#10 ++ b ++ a ++ 43#12 = v at h0 h1 h2 h3 h4 h5 ⊢
  unfold decodeMajor15
  refine skip (fun e => absurd (h1.symm.trans e.1) (by decide)) ?_
  refine skip (fun e => part_ne (s := 7) (l := 25) (p := 15) h2 (by decide) (by decide) e) ?_
  refine skip (fun e => absurd (h2.symm.trans e) (by decide)) ?_
  iterate 2 refine skip (fun e => absurd (h2.symm.trans e.1) (by decide)) ?_
  refine skip (fun e => part_ne (s := 7) (l := 25) (p := 15) h2 (by decide) (by decide) e) ?_
  refine take ⟨h2, h3⟩ ?_
  simp only [fA, fB, h4, h5]

theorem RoundTrip.clinv (a : BitVec 5) (b : BitVec 5) : RoundTrip.Statement (.clinv a b) := by
  obtain ⟨h0, h1, h2, h3, h4, h5, hb⟩ := cut_10_5_5_12 320#10 b a 43#12
  replace h1 : _ = 5#4 := h1
  replace h3 : _ = 0#5 := h3
  refine of32 rfl rfl rfl hb fun hw => (major15 h0).trans ?_
  clear hb
  generalize 320#10 ++ b ++ a ++ 43#12 = v at h0 h1 h2 h3 h4 h5 ⊢
  unfold decodeMajor15
  refine skip (fun e => absurd (h1.symm.trans e.1) (by decide)) ?_
  refine skip (fun e => part_ne (s := 7) (l := 25) (p := 15) h2 (by decide) (by decide) e) ?_
  refine skip (fun e => absurd (h2.symm.trans e) (by decide)) ?_
  iterate 2 refine skip (fun e => absurd (h2.symm.trans e.1) (by decide)) ?_
  refine skip (fun e => part_ne (s := 7) (l := 25) (p := 15) h2 (by decide) (by decide) e) ?_
  refine skip (fun e => absurd (h2.symm.trans e.1) (by decide)) ?_
  refine take ⟨h2, h3⟩ ?_
  simp only [fA, fB, h4, h5]

theorem RoundTrip.cldrop (a : BitVec 5) (b : BitVec 5) : RoundTrip.Statement (.cldrop a b) := by
  obtain ⟨h0, h1, h2, h3, h4, h5, hb⟩ := cut_10_5_5_12 384#10 b a 43#12
  replace h1 : _ = 6#4 := h1
  replace h3 : _ = 0#5 := h3
  refine of32 rfl rfl rfl hb fun hw => (major15 h0).trans ?_
  clear hb
  generalize 384#10 ++ b ++ a ++ 43#12 = v at h0 h1 h2 h3 h4 h5 ⊢
  unfold decodeMajor15
  refine skip (fun e => absurd (h1.symm.trans e.1) (by decide)) ?_
  refine skip (fun e => part_ne (s := 7) (l := 25) (p := 15) h2 (by decide) (by decide) e) ?_
  refine skip (fun e => absurd (h2.symm.trans e) (by decide)) ?_
  iterate 2 refine skip (fun e => absurd (h2.symm.trans e.1) (by decide)) ?_
  refine skip (fun e => part_ne (s := 7) (l := 25) (p := 15) h2 (by decide) (by decide) e) ?_
  iterate 2 refine skip (fun e => absurd (h2.symm.trans e.1) (by decide)) ?_
  refine take ⟨h2, h3⟩ ?_
  simp only [fA, fB, h4, h5]

theorem RoundTrip.bkpt (c : BitVec 16) : RoundTrip.Statement (.bkpt c) := by
  obtain ⟨h0, h1, h2, h3, hb⟩ := cut_4_16_12 7#4 c 43#12
  replace h2 : _ = 0#5 := h2
  refine of32 rfl rfl rfl hb fun hw => (major15 h0).trans ?_
  clear hb
  generalize 7#4 ++ c ++ 43#12 = v at h0 h1 h2 h3 ⊢
  unfold decodeMajor15
  refine skip (fun e => absurd (h1.symm.trans e.1) (by decide)) ?_
  refine skip (fun e => part_ne (s := 7) (l := 25) (p := 21) h1 (by decide) (by decide) e) ?_
  refine skip (fun e => part_ne (s := 22) (l := 10) (p := 6) h1 (by decide) (by decide) e) ?_
  iterate 2 refine skip (fun e => part_ne (s := 22) (l := 10) (p := 6) h1 (by decide) (by decide) e.1) ?_
  refine skip (fun e => part_ne (s := 7) (l := 25) (p := 21) h1 (by decide) (by decide) e) ?_
  iterate 3 refine skip (fun e => part_ne (s := 22) (l := 10) (p := 6) h1 (by decide) (by decide) e.1) ?_
  refine take ⟨h1, h2⟩ ?_
  simp only [h3]

theorem RoundTrip.ill : RoundTrip.Statement .ill := of32 rfl rfl rfl rfl fun _ => (major15 rfl).trans rfl
theorem RoundTrip.amo (d : BitVec 5) (a : BitVec 5) (b : BitVec 5) (o : BitVec 4) (z : BitVec 2) : RoundTrip.Statement (.amo d a b o z) := by
  obtain ⟨h0, h1, h2, h3, h4, h5, h6, hb⟩ := cut_4_4_2_5_5_5_7 0#4 o z b a d 45#7
  refine of32 rfl rfl rfl hb fun hw => (major16 h0).trans ?_
  clear hb
  generalize 0#4 ++ o ++ z ++ b ++ a ++ d ++ 45#7 = v at h0 h1 h2 h3 h4 h5 h6 ⊢
  unfold decodeMajor16
  refine take h1 ?_
  simp only [fD, fA, fB, h2, h3, h4, h5, h6]

theorem RoundTrip.cas (d : BitVec 5) (a : BitVec 5) (b : BitVec 5) (z : BitVec 2) : RoundTrip.Statement (.cas d a b z) := by
  obtain ⟨h0, h1, h2, h3, h4, h5, h6, hb⟩ := cut_8_2_5_5_5_7 16#8 z b a d 45#7
  replace h1 : _ = 1#4 := h1
  refine of32 rfl rfl rfl hb fun hw => (major16 h0).trans ?_
  clear hb
  generalize 16#8 ++ z ++ b ++ a ++ d ++ 45#7 = v at h0 h1 h2 h3 h4 h5 h6 ⊢
  unfold decodeMajor16
  refine skip (fun e => absurd (h1.symm.trans e) (by decide)) ?_
  refine take h2 ?_
  simp only [fD, fA, fB, h3, h4, h5, h6]

theorem RoundTrip.vamo (d : BitVec 5) (a : BitVec 5) (b : BitVec 5) (o : BitVec 3) (k : BitVec 3) : RoundTrip.Statement (.vamo d a b o k) := by
  obtain ⟨h0, h1, h2, h3, h4, h5, h6, hb⟩ := cut_4_3_3_5_5_5_7 2#4 o k b a d 45#7
  refine of32 rfl rfl rfl hb fun hw => (major16 h0).trans ?_
  clear hb
  generalize 2#4 ++ o ++ k ++ b ++ a ++ d ++ 45#7 = v at h0 h1 h2 h3 h4 h5 h6 ⊢
  unfold decodeMajor16
  refine skip (fun e => absurd (h1.symm.trans e) (by decide)) ?_
  refine skip (fun e => part_ne (s := 24) (l := 8) (p := 4) h1 (by decide) (by decide) e) ?_
  refine take h1 ?_
  simp only [fD, fA, fB, fW, fK, h2, h3, h4, h5, h6]

theorem RoundTrip.faas (d : BitVec 5) (a : BitVec 5) (k : BitVec 3) : RoundTrip.Statement (.faas d a k) := by
  obtain ⟨h0, h1, h2, h3, h4, h5, hb⟩ := cut_4_3_8_5_5_7 3#4 k 0#8 a d 45#7
  refine of32 rfl rfl rfl hb fun hw => (major16 h0).trans ?_
  clear hb
  generalize 3#4 ++ k ++ 0#8 ++ a ++ d ++ 45#7 = v at h0 h1 h2 h3 h4 h5 ⊢
  unfold decodeMajor16
  refine skip (fun e => absurd (h1.symm.trans e) (by decide)) ?_
  refine skip (fun e => part_ne (s := 24) (l := 8) (p := 4) h1 (by decide) (by decide) e) ?_
  refine skip (fun e => absurd (h1.symm.trans e) (by decide)) ?_
  refine take ⟨h1, h2⟩ ?_
  simp only [fD, fA, fK, h3, h4, h5]

theorem RoundTrip.acq (d : BitVec 5) (a : BitVec 5) (b : BitVec 5) : RoundTrip.Statement (.acq d a b) := by
  obtain ⟨h0, _, h2, h3, h4, h5, hb⟩ := cut_10_5_5_5_7 0#10 b a d 47#7
  refine of32 rfl rfl rfl hb fun hw => (major17 h0).trans ?_
  clear hb
  generalize 0#10 ++ b ++ a ++ d ++ 47#7 = v at h0 h2 h3 h4 h5 ⊢
  unfold decodeMajor17
  refine take h2 ?_
  simp only [fD, fA, fB, h3, h4, h5]

theorem RoundTrip.acqSatisfied (c : Nat) (q : SeqId) : RoundTrip.Statement (.acqSatisfied c q) := nothing rfl rfl rfl

theorem RoundTrip.rel (d : BitVec 5) (a : BitVec 5) : RoundTrip.Statement (.rel d a) := by
  obtain ⟨h0, h1, h2, h3, h4, _, hb⟩ := cut_15_5_5_7 2048#15 a d 47#7
  replace h1 : _ = 64#10 := h1
  refine of32 rfl rfl rfl hb fun hw => (major17 h0).trans ?_
  clear hb
  generalize 2048#15 ++ a ++ d ++ 47#7 = v at h0 h1 h2 h3 h4 ⊢
  unfold decodeMajor17
  refine skip (fun e => absurd (h1.symm.trans e) (by decide)) ?_
  refine take h2 ?_
  simp only [fD, fA, h3, h4]

theorem RoundTrip.gbind (d : BitVec 5) (a : BitVec 5) (b : BitVec 5) (s : BitVec 2) : RoundTrip.Statement (.gbind d a b s) := by
  obtain ⟨h0, h1, h2, h3, h4, h5, h6, hb⟩ := cut_4_2_4_5_5_5_7 2#4 s 0#4 b a d 47#7
  refine of32 rfl rfl rfl hb fun hw => (major17 h0).trans ?_
  clear hb
  generalize 2#4 ++ s ++ 0#4 ++ b ++ a ++ d ++ 47#7 = v at h0 h1 h2 h3 h4 h5 h6 ⊢
  unfold decodeMajor17
  refine skip (fun e => part_ne (s := 22) (l := 10) (p := 6) h1 (by decide) (by decide) e) ?_
  refine skip (fun e => part_ne (s := 17) (l := 15) (p := 11) h1 (by decide) (by decide) e) ?_
  refine take ⟨h1, h2⟩ ?_
  simp only [fD, fA, fB, h3, h4, h5, h6]

theorem RoundTrip.gunbind (a : BitVec 5) : RoundTrip.Statement (.gunbind a) := by
  obtain ⟨h0, h1, h2, h3, h4, h5, hb⟩ := cut_15_5_12 6144#15 a 47#12
  replace h1 : _ = 192#10 := h1
  replace h3 : _ = 3#4 := h3
  replace h4 : _ = 0#5 := h4
  refine of32 rfl rfl rfl hb fun hw => (major17 h0).trans ?_
  clear hb
  generalize 6144#15 ++ a ++ 47#12 = v at h0 h1 h2 h3 h4 h5 ⊢
  unfold decodeMajor17
  refine skip (fun e => absurd (h1.symm.trans e) (by decide)) ?_
  refine skip (fun e => absurd (h2.symm.trans e) (by decide)) ?_
  refine skip (fun e => absurd (h3.symm.trans e.1) (by decide)) ?_
  refine take ⟨h2, h4⟩ ?_
  simp only [fA, h5]

theorem RoundTrip.fence (s : BitVec 2) (k : BitVec 2) : RoundTrip.Statement (.fence s k) := by
  obtain ⟨h0, h1, h2, h3, h4, hb⟩ := cut_4_2_2_24 4#4 s k 47#24
  replace h2 : _ = 0#17 := h2
  refine of32 rfl rfl rfl hb fun hw => (major17 h0).trans ?_
  clear hb
  generalize 4#4 ++ s ++ k ++ 47#24 = v at h0 h1 h2 h3 h4 ⊢
  unfold decodeMajor17
  refine skip (fun e => part_ne (s := 22) (l := 10) (p := 6) h1 (by decide) (by decide) e) ?_
  refine skip (fun e => part_ne (s := 17) (l := 15) (p := 11) h1 (by decide) (by decide) e) ?_
  refine skip (fun e => absurd (h1.symm.trans e.1) (by decide)) ?_
  refine skip (fun e => part_ne (s := 17) (l := 15) (p := 11) h1 (by decide) (by decide) e.1) ?_
  refine take ⟨h1, h2⟩ ?_
  simp only [h3, h4]

theorem RoundTrip.qfence (q : BitVec 16) : RoundTrip.Statement (.qfence q) := by
  obtain ⟨h0, h1, h2, h3, hb⟩ := cut_4_16_12 5#4 q 47#12
  replace h2 : _ = 0#5 := h2
  refine of32 rfl rfl rfl hb fun hw => (major17 h0).trans ?_
  clear hb
  generalize 5#4 ++ q ++ 47#12 = v at h0 h1 h2 h3 ⊢
  unfold decodeMajor17
  refine skip (fun e => part_ne (s := 22) (l := 10) (p := 6) h1 (by decide) (by decide) e) ?_
  refine skip (fun e => part_ne (s := 17) (l := 15) (p := 11) h1 (by decide) (by decide) e) ?_
  refine skip (fun e => absurd (h1.symm.trans e.1) (by decide)) ?_
  refine skip (fun e => part_ne (s := 17) (l := 15) (p := 11) h1 (by decide) (by decide) e.1) ?_
  refine skip (fun e => absurd (h1.symm.trans e.1) (by decide)) ?_
  refine take ⟨h1, h2⟩ ?_
  simp only [h3]

theorem RoundTrip.cfence : RoundTrip.Statement .cfence := of32 rfl rfl rfl rfl fun _ => (major17 rfl).trans rfl
theorem RoundTrip.barinit (a : BitVec 5) : RoundTrip.Statement (.barinit a) := by
  obtain ⟨h0, h1, h2, h3, h4, h5, hb⟩ := cut_15_5_12 14336#15 a 47#12
  replace h1 : _ = 448#10 := h1
  replace h3 : _ = 7#4 := h3
  replace h4 : _ = 0#5 := h4
  refine of32 rfl rfl rfl hb fun hw => (major17 h0).trans ?_
  clear hb
  generalize 14336#15 ++ a ++ 47#12 = v at h0 h1 h2 h3 h4 h5 ⊢
  unfold decodeMajor17
  refine skip (fun e => absurd (h1.symm.trans e) (by decide)) ?_
  refine skip (fun e => absurd (h2.symm.trans e) (by decide)) ?_
  refine skip (fun e => absurd (h3.symm.trans e.1) (by decide)) ?_
  refine skip (fun e => absurd (h2.symm.trans e.1) (by decide)) ?_
  iterate 2 refine skip (fun e => absurd (h3.symm.trans e.1) (by decide)) ?_
  refine skip (fun e => part_ne (s := 7) (l := 25) (p := 10) h2 (by decide) (by decide) e) ?_
  refine take ⟨h2, h4⟩ ?_
  simp only [fA, h5]

theorem RoundTrip.barwait (a : BitVec 5) (b : BitVec 5) : RoundTrip.Statement (.barwait a b) := by
  obtain ⟨h0, h1, h2, h3, h4, h5, hb⟩ := cut_10_5_5_12 512#10 b a 47#12
  replace h1 : _ = 8#4 := h1
  replace h3 : _ = 0#5 := h3
  refine of32 rfl rfl rfl hb fun hw => (major17 h0).trans ?_
  clear hb
  generalize 512#10 ++ b ++ a ++ 47#12 = v at h0 h1 h2 h3 h4 h5 ⊢
  unfold decodeMajor17
  refine skip (fun e => absurd (h2.symm.trans e) (by decide)) ?_
  refine skip (fun e => part_ne (s := 17) (l := 15) (p := 5) h2 (by decide) (by decide) e) ?_
  refine skip (fun e => absurd (h1.symm.trans e.1) (by decide)) ?_
  refine skip (fun e => part_ne (s := 17) (l := 15) (p := 5) h2 (by decide) (by decide) e.1) ?_
  iterate 2 refine skip (fun e => absurd (h1.symm.trans e.1) (by decide)) ?_
  refine skip (fun e => part_ne (s := 7) (l := 25) (p := 15) h2 (by decide) (by decide) e) ?_
  refine skip (fun e => part_ne (s := 17) (l := 15) (p := 5) h2 (by decide) (by decide) e.1) ?_
  refine take ⟨h2, h3⟩ ?_
  simp only [fA, fB, h4, h5]

theorem RoundTrip.barrel (a : BitVec 5) (b : BitVec 5) : RoundTrip.Statement (.barrel a b) := by
  obtain ⟨h0, h1, h2, h3, h4, h5, hb⟩ := cut_10_5_5_12 576#10 b a 47#12
  replace h1 : _ = 9#4 := h1
  replace h3 : _ = 0#5 := h3
  refine of32 rfl rfl rfl hb fun hw => (major17 h0).trans ?_
  clear hb
  generalize 576#10 ++ b ++ a ++ 47#12 = v at h0 h1 h2 h3 h4 h5 ⊢
  unfold decodeMajor17
  refine skip (fun e => absurd (h2.symm.trans e) (by decide)) ?_
  refine skip (fun e => part_ne (s := 17) (l := 15) (p := 5) h2 (by decide) (by decide) e) ?_
  refine skip (fun e => absurd (h1.symm.trans e.1) (by decide)) ?_
  refine skip (fun e => part_ne (s := 17) (l := 15) (p := 5) h2 (by decide) (by decide) e.1) ?_
  iterate 2 refine skip (fun e => absurd (h1.symm.trans e.1) (by decide)) ?_
  refine skip (fun e => part_ne (s := 7) (l := 25) (p := 15) h2 (by decide) (by decide) e) ?_
  refine skip (fun e => part_ne (s := 17) (l := 15) (p := 5) h2 (by decide) (by decide) e.1) ?_
  refine skip (fun e => absurd (h2.symm.trans e.1) (by decide)) ?_
  refine take ⟨h2, h3⟩ ?_
  simp only [fA, fB, h4, h5]

theorem RoundTrip.windowCountReached (c : Nat) (q : SeqId) : RoundTrip.Statement (.windowCountReached c q) := nothing rfl rfl rfl

theorem RoundTrip.setvl (d : BitVec 5) (a : BitVec 5) (w : BitVec 3) : RoundTrip.Statement (.setvl d a w) := by
  obtain ⟨h0, h1, h2, h3, h4, h5, _, _, hb⟩ := cut_7_3_5_5_5_7 0#7 w 0#5 a d 49#7
  refine of32 rfl rfl rfl hb fun hw => (major18 h0).trans ?_
  clear hb
  generalize 0#7 ++ w ++ 0#5 ++ a ++ d ++ 49#7 = v at h0 h1 h2 h3 h4 h5 ⊢
  unfold decodeMajor18
  refine take ⟨h1, h4⟩ ?_
  simp only [fD, fA, fW, h2, h3, h5]

theorem RoundTrip.setvt (d : BitVec 5) (a : BitVec 5) (w : BitVec 3) : RoundTrip.Statement (.setvt d a w) := by
  obtain ⟨h0, h1, h2, h3, h4, h5, _, _, hb⟩ := cut_7_3_5_5_5_7 1#7 w 0#5 a d 49#7
  refine of32 rfl rfl rfl hb fun hw => (major18 h0).trans ?_
  clear hb
  generalize 1#7 ++ w ++ 0#5 ++ a ++ d ++ 49#7 = v at h0 h1 h2 h3 h4 h5 ⊢
  unfold decodeMajor18
  refine skip (fun e => absurd (h1.symm.trans e.1) (by decide)) ?_
  refine take ⟨h1, h4⟩ ?_
  simp only [fD, fA, fW, h2, h3, h5]

theorem RoundTrip.vld (d : BitVec 5) (a : BitVec 5) (k : BitVec 3) (h : BitVec 3) : RoundTrip.Statement (.vld d a k h) := by
  obtain ⟨h0, h1, h2, h3, h4, h5, h6, hb⟩ := cut_4_3_3_5_5_5_7 0#4 k h 0#5 a d 51#7
  refine of32 rfl rfl rfl hb fun hw => (major19 h0).trans ?_
  clear hb
  generalize 0#4 ++ k ++ h ++ 0#5 ++ a ++ d ++ 51#7 = v at h0 h1 h2 h3 h4 h5 h6 ⊢
  unfold decodeMajor19
  refine take ⟨h1, h4⟩ ?_
  simp only [fD, fA, fW, fK, h2, h3, h5, h6]

theorem RoundTrip.vlds (d : BitVec 5) (a : BitVec 5) (b : BitVec 5) (k : BitVec 3) (h : BitVec 3) : RoundTrip.Statement (.vlds d a b k h) := by
  obtain ⟨h0, h1, h2, h3, h4, h5, h6, hb⟩ := cut_4_3_3_5_5_5_7 1#4 k h b a d 51#7
  refine of32 rfl rfl rfl hb fun hw => (major19 h0).trans ?_
  clear hb
  generalize 1#4 ++ k ++ h ++ b ++ a ++ d ++ 51#7 = v at h0 h1 h2 h3 h4 h5 h6 ⊢
  unfold decodeMajor19
  refine skip (fun e => absurd (h1.symm.trans e.1) (by decide)) ?_
  refine take h1 ?_
  simp only [fD, fA, fB, fW, fK, h2, h3, h4, h5, h6]

theorem RoundTrip.vldx (d : BitVec 5) (a : BitVec 5) (b : BitVec 5) (k : BitVec 3) (h : BitVec 3) : RoundTrip.Statement (.vldx d a b k h) := by
  obtain ⟨h0, h1, h2, h3, h4, h5, h6, hb⟩ := cut_4_3_3_5_5_5_7 2#4 k h b a d 51#7
  refine of32 rfl rfl rfl hb fun hw => (major19 h0).trans ?_
  clear hb
  generalize 2#4 ++ k ++ h ++ b ++ a ++ d ++ 51#7 = v at h0 h1 h2 h3 h4 h5 h6 ⊢
  unfold decodeMajor19
  refine skip (fun e => absurd (h1.symm.trans e.1) (by decide)) ?_
  refine skip (fun e => absurd (h1.symm.trans e) (by decide)) ?_
  refine take h1 ?_
  simp only [fD, fA, fB, fW, fK, h2, h3, h4, h5, h6]

theorem RoundTrip.vldseg (d : BitVec 5) (a : BitVec 5) (k : BitVec 3) (h : BitVec 3) (n : BitVec 5) : RoundTrip.Statement (.vldseg d a k h n) := by
  obtain ⟨h0, h1, h2, h3, h4, h5, h6, hb⟩ := cut_4_3_3_5_5_5_7 3#4 k h n a d 51#7
  refine of32 rfl rfl rfl hb fun hw => (major19 h0).trans ?_
  clear hb
  generalize 3#4 ++ k ++ h ++ n ++ a ++ d ++ 51#7 = v at h0 h1 h2 h3 h4 h5 h6 ⊢
  unfold decodeMajor19
  refine skip (fun e => absurd (h1.symm.trans e.1) (by decide)) ?_
  iterate 2 refine skip (fun e => absurd (h1.symm.trans e) (by decide)) ?_
  refine take h1 ?_
  simp only [fD, fA, fB, fW, fK, h2, h3, h5, h6, h4]

theorem RoundTrip.vldff (d : BitVec 5) (a : BitVec 5) (k : BitVec 3) (h : BitVec 3) : RoundTrip.Statement (.vldff d a k h) := by
  obtain ⟨h0, h1, h2, h3, h4, h5, h6, hb⟩ := cut_4_3_3_5_5_5_7 4#4 k h 0#5 a d 51#7
  refine of32 rfl rfl rfl hb fun hw => (major19 h0).trans ?_
  clear hb
  generalize 4#4 ++ k ++ h ++ 0#5 ++ a ++ d ++ 51#7 = v at h0 h1 h2 h3 h4 h5 h6 ⊢
  unfold decodeMajor19
  refine skip (fun e => absurd (h1.symm.trans e.1) (by decide)) ?_
  iterate 3 refine skip (fun e => absurd (h1.symm.trans e) (by decide)) ?_
  refine take ⟨h1, h4⟩ ?_
  simp only [fD, fA, fW, fK, h2, h3, h5, h6]

theorem RoundTrip.vldWc (d : BitVec 5) (a : BitVec 5) (k : BitVec 3) (h : BitVec 3) : RoundTrip.Statement (.vldWc d a k h) := by
  obtain ⟨h0, h1, h2, h3, h4, h5, h6, hb⟩ := cut_4_3_3_5_5_5_7 5#4 k h 0#5 a d 51#7
  refine of32 rfl rfl rfl hb fun hw => (major19 h0).trans ?_
  clear hb
  generalize 5#4 ++ k ++ h ++ 0#5 ++ a ++ d ++ 51#7 = v at h0 h1 h2 h3 h4 h5 h6 ⊢
  unfold decodeMajor19
  refine skip (fun e => absurd (h1.symm.trans e.1) (by decide)) ?_
  iterate 3 refine skip (fun e => absurd (h1.symm.trans e) (by decide)) ?_
  refine skip (fun e => absurd (h1.symm.trans e.1) (by decide)) ?_
  refine take ⟨h1, h4⟩ ?_
  simp only [fD, fA, fW, fK, h2, h3, h5, h6]

theorem RoundTrip.vldc (d : BitVec 5) (a : BitVec 5) (k : BitVec 3) (h : BitVec 3) : RoundTrip.Statement (.vldc d a k h) := by
  obtain ⟨h0, h1, h2, h3, h4, h5, h6, hb⟩ := cut_4_3_3_5_5_5_7 6#4 k h 0#5 a d 51#7
  refine of32 rfl rfl rfl hb fun hw => (major19 h0).trans ?_
  clear hb
  generalize 6#4 ++ k ++ h ++ 0#5 ++ a ++ d ++ 51#7 = v at h0 h1 h2 h3 h4 h5 h6 ⊢
  unfold decodeMajor19
  refine skip (fun e => absurd (h1.symm.trans e.1) (by decide)) ?_
  iterate 3 refine skip (fun e => absurd (h1.symm.trans e) (by decide)) ?_
  iterate 2 refine skip (fun e => absurd (h1.symm.trans e.1) (by decide)) ?_
  refine take ⟨h1, h4⟩ ?_
  simp only [fD, fA, fW, fK, h2, h3, h5, h6]

theorem RoundTrip.vst (d : BitVec 5) (a : BitVec 5) (k : BitVec 3) (h : BitVec 3) : RoundTrip.Statement (.vst d a k h) := by
  obtain ⟨h0, h1, h2, h3, h4, h5, h6, hb⟩ := cut_4_3_3_5_5_5_7 0#4 k h 0#5 a d 53#7
  refine of32 rfl rfl rfl hb fun hw => (major1A h0).trans ?_
  clear hb
  generalize 0#4 ++ k ++ h ++ 0#5 ++ a ++ d ++ 53#7 = v at h0 h1 h2 h3 h4 h5 h6 ⊢
  unfold decodeMajor1A
  refine take ⟨h1, h4⟩ ?_
  simp only [fD, fA, fW, fK, h2, h3, h5, h6]

theorem RoundTrip.vsts (d : BitVec 5) (a : BitVec 5) (b : BitVec 5) (k : BitVec 3) (h : BitVec 3) : RoundTrip.Statement (.vsts d a b k h) := by
  obtain ⟨h0, h1, h2, h3, h4, h5, h6, hb⟩ := cut_4_3_3_5_5_5_7 1#4 k h b a d 53#7
  refine of32 rfl rfl rfl hb fun hw => (major1A h0).trans ?_
  clear hb
  generalize 1#4 ++ k ++ h ++ b ++ a ++ d ++ 53#7 = v at h0 h1 h2 h3 h4 h5 h6 ⊢
  unfold decodeMajor1A
  refine skip (fun e => absurd (h1.symm.trans e.1) (by decide)) ?_
  refine take h1 ?_
  simp only [fD, fA, fB, fW, fK, h2, h3, h4, h5, h6]

theorem RoundTrip.vstx (d : BitVec 5) (a : BitVec 5) (b : BitVec 5) (k : BitVec 3) (h : BitVec 3) : RoundTrip.Statement (.vstx d a b k h) := by
  obtain ⟨h0, h1, h2, h3, h4, h5, h6, hb⟩ := cut_4_3_3_5_5_5_7 2#4 k h b a d 53#7
  refine of32 rfl rfl rfl hb fun hw => (major1A h0).trans ?_
  clear hb
  generalize 2#4 ++ k ++ h ++ b ++ a ++ d ++ 53#7 = v at h0 h1 h2 h3 h4 h5 h6 ⊢
  unfold decodeMajor1A
  refine skip (fun e => absurd (h1.symm.trans e.1) (by decide)) ?_
  refine skip (fun e => absurd (h1.symm.trans e) (by decide)) ?_
  refine take h1 ?_
  simp only [fD, fA, fB, fW, fK, h2, h3, h4, h5, h6]

theorem RoundTrip.vstseg (d : BitVec 5) (a : BitVec 5) (k : BitVec 3) (h : BitVec 3) (n : BitVec 5) : RoundTrip.Statement (.vstseg d a k h n) := by
  obtain ⟨h0, h1, h2, h3, h4, h5, h6, hb⟩ := cut_4_3_3_5_5_5_7 3#4 k h n a d 53#7
  refine of32 rfl rfl rfl hb fun hw => (major1A h0).trans ?_
  clear hb
  generalize 3#4 ++ k ++ h ++ n ++ a ++ d ++ 53#7 = v at h0 h1 h2 h3 h4 h5 h6 ⊢
  unfold decodeMajor1A
  refine skip (fun e => absurd (h1.symm.trans e.1) (by decide)) ?_
  iterate 2 refine skip (fun e => absurd (h1.symm.trans e) (by decide)) ?_
  refine take h1 ?_
  simp only [fD, fA, fB, fW, fK, h2, h3, h5, h6, h4]

theorem RoundTrip.vaddVv (d : BitVec 5) (a : BitVec 5) (b : BitVec 5) (k : BitVec 3) (w : BitVec 3) : RoundTrip.Statement (.vaddVv d a b k w) := by
  obtain ⟨h0, h1, h2, h3, h4, h5, h6, hb⟩ := cut_4_3_3_5_5_5_7 0#4 k w b a d 55#7
  refine of32 rfl rfl rfl hb fun hw => (major1B h0).trans ?_
  clear hb
  generalize 0#4 ++ k ++ w ++ b ++ a ++ d ++ 55#7 = v at h0 h1 h2 h3 h4 h5 h6 ⊢
  unfold decodeMajor1B
  refine take h1 ?_
  simp only [fD, fA, fB, fW, fK, h2, h3, h4, h5, h6]

theorem RoundTrip.vaddVs (d : BitVec 5) (a : BitVec 5) (b : BitVec 5) (k : BitVec 3) (w : BitVec 3) : RoundTrip.Statement (.vaddVs d a b k w) := by
  obtain ⟨h0, h1, h2, h3, h4, h5, h6, hb⟩ := cut_4_3_3_5_5_5_7 0#4 k w b a d 57#7
  refine of32 rfl rfl rfl hb fun hw => (major1C h0).trans ?_
  clear hb
  generalize 0#4 ++ k ++ w ++ b ++ a ++ d ++ 57#7 = v at h0 h1 h2 h3 h4 h5 h6 ⊢
  unfold decodeMajor1C
  refine take h1 ?_
  simp only [fD, fA, fB, fW, fK, h2, h3, h4, h5, h6]

theorem RoundTrip.vaddVi (d : BitVec 5) (a : BitVec 5) (k : BitVec 3) (w : BitVec 3) (i : BitVec 5) : RoundTrip.Statement (.vaddVi d a k w i) := by
  obtain ⟨h0, h1, h2, h3, h4, h5, h6, hb⟩ := cut_4_3_3_5_5_5_7 0#4 k w i a d 59#7
  refine of32 rfl rfl rfl hb fun hw => (major1D h0).trans ?_
  clear hb
  generalize 0#4 ++ k ++ w ++ i ++ a ++ d ++ 59#7 = v at h0 h1 h2 h3 h4 h5 h6 ⊢
  unfold decodeMajor1D
  refine take h1 ?_
  simp only [fD, fA, fB, fW, fK, h2, h3, h5, h6, h4]

theorem RoundTrip.vsubVv (d : BitVec 5) (a : BitVec 5) (b : BitVec 5) (k : BitVec 3) (w : BitVec 3) : RoundTrip.Statement (.vsubVv d a b k w) := by
  obtain ⟨h0, h1, h2, h3, h4, h5, h6, hb⟩ := cut_4_3_3_5_5_5_7 1#4 k w b a d 55#7
  refine of32 rfl rfl rfl hb fun hw => (major1B h0).trans ?_
  clear hb
  generalize 1#4 ++ k ++ w ++ b ++ a ++ d ++ 55#7 = v at h0 h1 h2 h3 h4 h5 h6 ⊢
  unfold decodeMajor1B
  refine skip (fun e => absurd (h1.symm.trans e) (by decide)) ?_
  refine take h1 ?_
  simp only [fD, fA, fB, fW, fK, h2, h3, h4, h5, h6]

theorem RoundTrip.vsubVs (d : BitVec 5) (a : BitVec 5) (b : BitVec 5) (k : BitVec 3) (w : BitVec 3) : RoundTrip.Statement (.vsubVs d a b k w) := by
  obtain ⟨h0, h1, h2, h3, h4, h5, h6, hb⟩ := cut_4_3_3_5_5_5_7 1#4 k w b a d 57#7
  refine of32 rfl rfl rfl hb fun hw => (major1C h0).trans ?_
  clear hb
  generalize 1#4 ++ k ++ w ++ b ++ a ++ d ++ 57#7 = v at h0 h1 h2 h3 h4 h5 h6 ⊢
  unfold decodeMajor1C
  refine skip (fun e => absurd (h1.symm.trans e) (by decide)) ?_
  refine take h1 ?_
  simp only [fD, fA, fB, fW, fK, h2, h3, h4, h5, h6]

theorem RoundTrip.vsubVi (d : BitVec 5) (a : BitVec 5) (k : BitVec 3) (w : BitVec 3) (i : BitVec 5) : RoundTrip.Statement (.vsubVi d a k w i) := by
  obtain ⟨h0, h1, h2, h3, h4, h5, h6, hb⟩ := cut_4_3_3_5_5_5_7 1#4 k w i a d 59#7
  refine of32 rfl rfl rfl hb fun hw => (major1D h0).trans ?_
  clear hb
  generalize 1#4 ++ k ++ w ++ i ++ a ++ d ++ 59#7 = v at h0 h1 h2 h3 h4 h5 h6 ⊢
  unfold decodeMajor1D
  refine skip (fun e => absurd (h1.symm.trans e) (by decide)) ?_
  refine take h1 ?_
  simp only [fD, fA, fB, fW, fK, h2, h3, h5, h6, h4]

theorem RoundTrip.vrsubVv (d : BitVec 5) (a : BitVec 5) (b : BitVec 5) (k : BitVec 3) (w : BitVec 3) : RoundTrip.Statement (.vrsubVv d a b k w) := by
  obtain ⟨h0, h1, h2, h3, h4, h5, h6, hb⟩ := cut_4_3_3_5_5_5_7 2#4 k w b a d 55#7
  refine of32 rfl rfl rfl hb fun hw => (major1B h0).trans ?_
  clear hb
  generalize 2#4 ++ k ++ w ++ b ++ a ++ d ++ 55#7 = v at h0 h1 h2 h3 h4 h5 h6 ⊢
  unfold decodeMajor1B
  iterate 2 refine skip (fun e => absurd (h1.symm.trans e) (by decide)) ?_
  refine take h1 ?_
  simp only [fD, fA, fB, fW, fK, h2, h3, h4, h5, h6]

theorem RoundTrip.vrsubVs (d : BitVec 5) (a : BitVec 5) (b : BitVec 5) (k : BitVec 3) (w : BitVec 3) : RoundTrip.Statement (.vrsubVs d a b k w) := by
  obtain ⟨h0, h1, h2, h3, h4, h5, h6, hb⟩ := cut_4_3_3_5_5_5_7 2#4 k w b a d 57#7
  refine of32 rfl rfl rfl hb fun hw => (major1C h0).trans ?_
  clear hb
  generalize 2#4 ++ k ++ w ++ b ++ a ++ d ++ 57#7 = v at h0 h1 h2 h3 h4 h5 h6 ⊢
  unfold decodeMajor1C
  iterate 2 refine skip (fun e => absurd (h1.symm.trans e) (by decide)) ?_
  refine take h1 ?_
  simp only [fD, fA, fB, fW, fK, h2, h3, h4, h5, h6]

theorem RoundTrip.vrsubVi (d : BitVec 5) (a : BitVec 5) (k : BitVec 3) (w : BitVec 3) (i : BitVec 5) : RoundTrip.Statement (.vrsubVi d a k w i) := by
  obtain ⟨h0, h1, h2, h3, h4, h5, h6, hb⟩ := cut_4_3_3_5_5_5_7 2#4 k w i a d 59#7
  refine of32 rfl rfl rfl hb fun hw => (major1D h0).trans ?_
  clear hb
  generalize 2#4 ++ k ++ w ++ i ++ a ++ d ++ 59#7 = v at h0 h1 h2 h3 h4 h5 h6 ⊢
  unfold decodeMajor1D
  iterate 2 refine skip (fun e => absurd (h1.symm.trans e) (by decide)) ?_
  refine take h1 ?_
  simp only [fD, fA, fB, fW, fK, h2, h3, h5, h6, h4]

theorem RoundTrip.vandVv (d : BitVec 5) (a : BitVec 5) (b : BitVec 5) (k : BitVec 3) (w : BitVec 3) : RoundTrip.Statement (.vandVv d a b k w) := by
  obtain ⟨h0, h1, h2, h3, h4, h5, h6, hb⟩ := cut_4_3_3_5_5_5_7 3#4 k w b a d 55#7
  refine of32 rfl rfl rfl hb fun hw => (major1B h0).trans ?_
  clear hb
  generalize 3#4 ++ k ++ w ++ b ++ a ++ d ++ 55#7 = v at h0 h1 h2 h3 h4 h5 h6 ⊢
  unfold decodeMajor1B
  iterate 3 refine skip (fun e => absurd (h1.symm.trans e) (by decide)) ?_
  refine take h1 ?_
  simp only [fD, fA, fB, fW, fK, h2, h3, h4, h5, h6]

theorem RoundTrip.vandVs (d : BitVec 5) (a : BitVec 5) (b : BitVec 5) (k : BitVec 3) (w : BitVec 3) : RoundTrip.Statement (.vandVs d a b k w) := by
  obtain ⟨h0, h1, h2, h3, h4, h5, h6, hb⟩ := cut_4_3_3_5_5_5_7 3#4 k w b a d 57#7
  refine of32 rfl rfl rfl hb fun hw => (major1C h0).trans ?_
  clear hb
  generalize 3#4 ++ k ++ w ++ b ++ a ++ d ++ 57#7 = v at h0 h1 h2 h3 h4 h5 h6 ⊢
  unfold decodeMajor1C
  iterate 3 refine skip (fun e => absurd (h1.symm.trans e) (by decide)) ?_
  refine take h1 ?_
  simp only [fD, fA, fB, fW, fK, h2, h3, h4, h5, h6]

theorem RoundTrip.vandVi (d : BitVec 5) (a : BitVec 5) (k : BitVec 3) (w : BitVec 3) (i : BitVec 5) : RoundTrip.Statement (.vandVi d a k w i) := by
  obtain ⟨h0, h1, h2, h3, h4, h5, h6, hb⟩ := cut_4_3_3_5_5_5_7 3#4 k w i a d 59#7
  refine of32 rfl rfl rfl hb fun hw => (major1D h0).trans ?_
  clear hb
  generalize 3#4 ++ k ++ w ++ i ++ a ++ d ++ 59#7 = v at h0 h1 h2 h3 h4 h5 h6 ⊢
  unfold decodeMajor1D
  iterate 3 refine skip (fun e => absurd (h1.symm.trans e) (by decide)) ?_
  refine take h1 ?_
  simp only [fD, fA, fB, fW, fK, h2, h3, h5, h6, h4]

theorem RoundTrip.vorVv (d : BitVec 5) (a : BitVec 5) (b : BitVec 5) (k : BitVec 3) (w : BitVec 3) : RoundTrip.Statement (.vorVv d a b k w) := by
  obtain ⟨h0, h1, h2, h3, h4, h5, h6, hb⟩ := cut_4_3_3_5_5_5_7 4#4 k w b a d 55#7
  refine of32 rfl rfl rfl hb fun hw => (major1B h0).trans ?_
  clear hb
  generalize 4#4 ++ k ++ w ++ b ++ a ++ d ++ 55#7 = v at h0 h1 h2 h3 h4 h5 h6 ⊢
  unfold decodeMajor1B
  iterate 4 refine skip (fun e => absurd (h1.symm.trans e) (by decide)) ?_
  refine take h1 ?_
  simp only [fD, fA, fB, fW, fK, h2, h3, h4, h5, h6]

theorem RoundTrip.vorVs (d : BitVec 5) (a : BitVec 5) (b : BitVec 5) (k : BitVec 3) (w : BitVec 3) : RoundTrip.Statement (.vorVs d a b k w) := by
  obtain ⟨h0, h1, h2, h3, h4, h5, h6, hb⟩ := cut_4_3_3_5_5_5_7 4#4 k w b a d 57#7
  refine of32 rfl rfl rfl hb fun hw => (major1C h0).trans ?_
  clear hb
  generalize 4#4 ++ k ++ w ++ b ++ a ++ d ++ 57#7 = v at h0 h1 h2 h3 h4 h5 h6 ⊢
  unfold decodeMajor1C
  iterate 4 refine skip (fun e => absurd (h1.symm.trans e) (by decide)) ?_
  refine take h1 ?_
  simp only [fD, fA, fB, fW, fK, h2, h3, h4, h5, h6]

theorem RoundTrip.vorVi (d : BitVec 5) (a : BitVec 5) (k : BitVec 3) (w : BitVec 3) (i : BitVec 5) : RoundTrip.Statement (.vorVi d a k w i) := by
  obtain ⟨h0, h1, h2, h3, h4, h5, h6, hb⟩ := cut_4_3_3_5_5_5_7 4#4 k w i a d 59#7
  refine of32 rfl rfl rfl hb fun hw => (major1D h0).trans ?_
  clear hb
  generalize 4#4 ++ k ++ w ++ i ++ a ++ d ++ 59#7 = v at h0 h1 h2 h3 h4 h5 h6 ⊢
  unfold decodeMajor1D
  iterate 4 refine skip (fun e => absurd (h1.symm.trans e) (by decide)) ?_
  refine take h1 ?_
  simp only [fD, fA, fB, fW, fK, h2, h3, h5, h6, h4]

theorem RoundTrip.vxorVv (d : BitVec 5) (a : BitVec 5) (b : BitVec 5) (k : BitVec 3) (w : BitVec 3) : RoundTrip.Statement (.vxorVv d a b k w) := by
  obtain ⟨h0, h1, h2, h3, h4, h5, h6, hb⟩ := cut_4_3_3_5_5_5_7 5#4 k w b a d 55#7
  refine of32 rfl rfl rfl hb fun hw => (major1B h0).trans ?_
  clear hb
  generalize 5#4 ++ k ++ w ++ b ++ a ++ d ++ 55#7 = v at h0 h1 h2 h3 h4 h5 h6 ⊢
  unfold decodeMajor1B
  iterate 5 refine skip (fun e => absurd (h1.symm.trans e) (by decide)) ?_
  refine take h1 ?_
  simp only [fD, fA, fB, fW, fK, h2, h3, h4, h5, h6]

theorem RoundTrip.vxorVs (d : BitVec 5) (a : BitVec 5) (b : BitVec 5) (k : BitVec 3) (w : BitVec 3) : RoundTrip.Statement (.vxorVs d a b k w) := by
  obtain ⟨h0, h1, h2, h3, h4, h5, h6, hb⟩ := cut_4_3_3_5_5_5_7 5#4 k w b a d 57#7
  refine of32 rfl rfl rfl hb fun hw => (major1C h0).trans ?_
  clear hb
  generalize 5#4 ++ k ++ w ++ b ++ a ++ d ++ 57#7 = v at h0 h1 h2 h3 h4 h5 h6 ⊢
  unfold decodeMajor1C
  iterate 5 refine skip (fun e => absurd (h1.symm.trans e) (by decide)) ?_
  refine take h1 ?_
  simp only [fD, fA, fB, fW, fK, h2, h3, h4, h5, h6]

theorem RoundTrip.vxorVi (d : BitVec 5) (a : BitVec 5) (k : BitVec 3) (w : BitVec 3) (i : BitVec 5) : RoundTrip.Statement (.vxorVi d a k w i) := by
  obtain ⟨h0, h1, h2, h3, h4, h5, h6, hb⟩ := cut_4_3_3_5_5_5_7 5#4 k w i a d 59#7
  refine of32 rfl rfl rfl hb fun hw => (major1D h0).trans ?_
  clear hb
  generalize 5#4 ++ k ++ w ++ i ++ a ++ d ++ 59#7 = v at h0 h1 h2 h3 h4 h5 h6 ⊢
  unfold decodeMajor1D
  iterate 5 refine skip (fun e => absurd (h1.symm.trans e) (by decide)) ?_
  refine take h1 ?_
  simp only [fD, fA, fB, fW, fK, h2, h3, h5, h6, h4]

theorem RoundTrip.vsllVv (d : BitVec 5) (a : BitVec 5) (b : BitVec 5) (k : BitVec 3) (w : BitVec 3) : RoundTrip.Statement (.vsllVv d a b k w) := by
  obtain ⟨h0, h1, h2, h3, h4, h5, h6, hb⟩ := cut_4_3_3_5_5_5_7 6#4 k w b a d 55#7
  refine of32 rfl rfl rfl hb fun hw => (major1B h0).trans ?_
  clear hb
  generalize 6#4 ++ k ++ w ++ b ++ a ++ d ++ 55#7 = v at h0 h1 h2 h3 h4 h5 h6 ⊢
  unfold decodeMajor1B
  iterate 6 refine skip (fun e => absurd (h1.symm.trans e) (by decide)) ?_
  refine take h1 ?_
  simp only [fD, fA, fB, fW, fK, h2, h3, h4, h5, h6]

theorem RoundTrip.vsllVs (d : BitVec 5) (a : BitVec 5) (b : BitVec 5) (k : BitVec 3) (w : BitVec 3) : RoundTrip.Statement (.vsllVs d a b k w) := by
  obtain ⟨h0, h1, h2, h3, h4, h5, h6, hb⟩ := cut_4_3_3_5_5_5_7 6#4 k w b a d 57#7
  refine of32 rfl rfl rfl hb fun hw => (major1C h0).trans ?_
  clear hb
  generalize 6#4 ++ k ++ w ++ b ++ a ++ d ++ 57#7 = v at h0 h1 h2 h3 h4 h5 h6 ⊢
  unfold decodeMajor1C
  iterate 6 refine skip (fun e => absurd (h1.symm.trans e) (by decide)) ?_
  refine take h1 ?_
  simp only [fD, fA, fB, fW, fK, h2, h3, h4, h5, h6]

theorem RoundTrip.vsllVi (d : BitVec 5) (a : BitVec 5) (k : BitVec 3) (w : BitVec 3) (i : BitVec 5) : RoundTrip.Statement (.vsllVi d a k w i) := by
  obtain ⟨h0, h1, h2, h3, h4, h5, h6, hb⟩ := cut_4_3_3_5_5_5_7 6#4 k w i a d 59#7
  refine of32 rfl rfl rfl hb fun hw => (major1D h0).trans ?_
  clear hb
  generalize 6#4 ++ k ++ w ++ i ++ a ++ d ++ 59#7 = v at h0 h1 h2 h3 h4 h5 h6 ⊢
  unfold decodeMajor1D
  iterate 6 refine skip (fun e => absurd (h1.symm.trans e) (by decide)) ?_
  refine take h1 ?_
  simp only [fD, fA, fB, fW, fK, h2, h3, h5, h6, h4]

theorem RoundTrip.vsrlVv (d : BitVec 5) (a : BitVec 5) (b : BitVec 5) (k : BitVec 3) (w : BitVec 3) : RoundTrip.Statement (.vsrlVv d a b k w) := by
  obtain ⟨h0, h1, h2, h3, h4, h5, h6, hb⟩ := cut_4_3_3_5_5_5_7 7#4 k w b a d 55#7
  refine of32 rfl rfl rfl hb fun hw => (major1B h0).trans ?_
  clear hb
  generalize 7#4 ++ k ++ w ++ b ++ a ++ d ++ 55#7 = v at h0 h1 h2 h3 h4 h5 h6 ⊢
  unfold decodeMajor1B
  iterate 7 refine skip (fun e => absurd (h1.symm.trans e) (by decide)) ?_
  refine take h1 ?_
  simp only [fD, fA, fB, fW, fK, h2, h3, h4, h5, h6]

theorem RoundTrip.vsrlVs (d : BitVec 5) (a : BitVec 5) (b : BitVec 5) (k : BitVec 3) (w : BitVec 3) : RoundTrip.Statement (.vsrlVs d a b k w) := by
  obtain ⟨h0, h1, h2, h3, h4, h5, h6, hb⟩ := cut_4_3_3_5_5_5_7 7#4 k w b a d 57#7
  refine of32 rfl rfl rfl hb fun hw => (major1C h0).trans ?_
  clear hb
  generalize 7#4 ++ k ++ w ++ b ++ a ++ d ++ 57#7 = v at h0 h1 h2 h3 h4 h5 h6 ⊢
  unfold decodeMajor1C
  iterate 7 refine skip (fun e => absurd (h1.symm.trans e) (by decide)) ?_
  refine take h1 ?_
  simp only [fD, fA, fB, fW, fK, h2, h3, h4, h5, h6]

theorem RoundTrip.vsrlVi (d : BitVec 5) (a : BitVec 5) (k : BitVec 3) (w : BitVec 3) (i : BitVec 5) : RoundTrip.Statement (.vsrlVi d a k w i) := by
  obtain ⟨h0, h1, h2, h3, h4, h5, h6, hb⟩ := cut_4_3_3_5_5_5_7 7#4 k w i a d 59#7
  refine of32 rfl rfl rfl hb fun hw => (major1D h0).trans ?_
  clear hb
  generalize 7#4 ++ k ++ w ++ i ++ a ++ d ++ 59#7 = v at h0 h1 h2 h3 h4 h5 h6 ⊢
  unfold decodeMajor1D
  iterate 7 refine skip (fun e => absurd (h1.symm.trans e) (by decide)) ?_
  refine take h1 ?_
  simp only [fD, fA, fB, fW, fK, h2, h3, h5, h6, h4]

theorem RoundTrip.vsraVv (d : BitVec 5) (a : BitVec 5) (b : BitVec 5) (k : BitVec 3) (w : BitVec 3) : RoundTrip.Statement (.vsraVv d a b k w) := by
  obtain ⟨h0, h1, h2, h3, h4, h5, h6, hb⟩ := cut_4_3_3_5_5_5_7 8#4 k w b a d 55#7
  refine of32 rfl rfl rfl hb fun hw => (major1B h0).trans ?_
  clear hb
  generalize 8#4 ++ k ++ w ++ b ++ a ++ d ++ 55#7 = v at h0 h1 h2 h3 h4 h5 h6 ⊢
  unfold decodeMajor1B
  iterate 8 refine skip (fun e => absurd (h1.symm.trans e) (by decide)) ?_
  refine take h1 ?_
  simp only [fD, fA, fB, fW, fK, h2, h3, h4, h5, h6]

theorem RoundTrip.vsraVs (d : BitVec 5) (a : BitVec 5) (b : BitVec 5) (k : BitVec 3) (w : BitVec 3) : RoundTrip.Statement (.vsraVs d a b k w) := by
  obtain ⟨h0, h1, h2, h3, h4, h5, h6, hb⟩ := cut_4_3_3_5_5_5_7 8#4 k w b a d 57#7
  refine of32 rfl rfl rfl hb fun hw => (major1C h0).trans ?_
  clear hb
  generalize 8#4 ++ k ++ w ++ b ++ a ++ d ++ 57#7 = v at h0 h1 h2 h3 h4 h5 h6 ⊢
  unfold decodeMajor1C
  iterate 8 refine skip (fun e => absurd (h1.symm.trans e) (by decide)) ?_
  refine take h1 ?_
  simp only [fD, fA, fB, fW, fK, h2, h3, h4, h5, h6]

theorem RoundTrip.vsraVi (d : BitVec 5) (a : BitVec 5) (k : BitVec 3) (w : BitVec 3) (i : BitVec 5) : RoundTrip.Statement (.vsraVi d a k w i) := by
  obtain ⟨h0, h1, h2, h3, h4, h5, h6, hb⟩ := cut_4_3_3_5_5_5_7 8#4 k w i a d 59#7
  refine of32 rfl rfl rfl hb fun hw => (major1D h0).trans ?_
  clear hb
  generalize 8#4 ++ k ++ w ++ i ++ a ++ d ++ 59#7 = v at h0 h1 h2 h3 h4 h5 h6 ⊢
  unfold decodeMajor1D
  iterate 8 refine skip (fun e => absurd (h1.symm.trans e) (by decide)) ?_
  refine take h1 ?_
  simp only [fD, fA, fB, fW, fK, h2, h3, h5, h6, h4]

theorem RoundTrip.vminVv (d : BitVec 5) (a : BitVec 5) (b : BitVec 5) (k : BitVec 3) (w : BitVec 3) : RoundTrip.Statement (.vminVv d a b k w) := by
  obtain ⟨h0, h1, h2, h3, h4, h5, h6, hb⟩ := cut_4_3_3_5_5_5_7 9#4 k w b a d 55#7
  refine of32 rfl rfl rfl hb fun hw => (major1B h0).trans ?_
  clear hb
  generalize 9#4 ++ k ++ w ++ b ++ a ++ d ++ 55#7 = v at h0 h1 h2 h3 h4 h5 h6 ⊢
  unfold decodeMajor1B
  iterate 9 refine skip (fun e => absurd (h1.symm.trans e) (by decide)) ?_
  refine take h1 ?_
  simp only [fD, fA, fB, fW, fK, h2, h3, h4, h5, h6]

theorem RoundTrip.vminVs (d : BitVec 5) (a : BitVec 5) (b : BitVec 5) (k : BitVec 3) (w : BitVec 3) : RoundTrip.Statement (.vminVs d a b k w) := by
  obtain ⟨h0, h1, h2, h3, h4, h5, h6, hb⟩ := cut_4_3_3_5_5_5_7 9#4 k w b a d 57#7
  refine of32 rfl rfl rfl hb fun hw => (major1C h0).trans ?_
  clear hb
  generalize 9#4 ++ k ++ w ++ b ++ a ++ d ++ 57#7 = v at h0 h1 h2 h3 h4 h5 h6 ⊢
  unfold decodeMajor1C
  iterate 9 refine skip (fun e => absurd (h1.symm.trans e) (by decide)) ?_
  refine take h1 ?_
  simp only [fD, fA, fB, fW, fK, h2, h3, h4, h5, h6]

theorem RoundTrip.vminVi (d : BitVec 5) (a : BitVec 5) (k : BitVec 3) (w : BitVec 3) (i : BitVec 5) : RoundTrip.Statement (.vminVi d a k w i) := by
  obtain ⟨h0, h1, h2, h3, h4, h5, h6, hb⟩ := cut_4_3_3_5_5_5_7 9#4 k w i a d 59#7
  refine of32 rfl rfl rfl hb fun hw => (major1D h0).trans ?_
  clear hb
  generalize 9#4 ++ k ++ w ++ i ++ a ++ d ++ 59#7 = v at h0 h1 h2 h3 h4 h5 h6 ⊢
  unfold decodeMajor1D
  iterate 9 refine skip (fun e => absurd (h1.symm.trans e) (by decide)) ?_
  refine take h1 ?_
  simp only [fD, fA, fB, fW, fK, h2, h3, h5, h6, h4]

theorem RoundTrip.vmaxVv (d : BitVec 5) (a : BitVec 5) (b : BitVec 5) (k : BitVec 3) (w : BitVec 3) : RoundTrip.Statement (.vmaxVv d a b k w) := by
  obtain ⟨h0, h1, h2, h3, h4, h5, h6, hb⟩ := cut_4_3_3_5_5_5_7 10#4 k w b a d 55#7
  refine of32 rfl rfl rfl hb fun hw => (major1B h0).trans ?_
  clear hb
  generalize 10#4 ++ k ++ w ++ b ++ a ++ d ++ 55#7 = v at h0 h1 h2 h3 h4 h5 h6 ⊢
  unfold decodeMajor1B
  iterate 10 refine skip (fun e => absurd (h1.symm.trans e) (by decide)) ?_
  refine take h1 ?_
  simp only [fD, fA, fB, fW, fK, h2, h3, h4, h5, h6]

theorem RoundTrip.vmaxVs (d : BitVec 5) (a : BitVec 5) (b : BitVec 5) (k : BitVec 3) (w : BitVec 3) : RoundTrip.Statement (.vmaxVs d a b k w) := by
  obtain ⟨h0, h1, h2, h3, h4, h5, h6, hb⟩ := cut_4_3_3_5_5_5_7 10#4 k w b a d 57#7
  refine of32 rfl rfl rfl hb fun hw => (major1C h0).trans ?_
  clear hb
  generalize 10#4 ++ k ++ w ++ b ++ a ++ d ++ 57#7 = v at h0 h1 h2 h3 h4 h5 h6 ⊢
  unfold decodeMajor1C
  iterate 10 refine skip (fun e => absurd (h1.symm.trans e) (by decide)) ?_
  refine take h1 ?_
  simp only [fD, fA, fB, fW, fK, h2, h3, h4, h5, h6]

theorem RoundTrip.vmaxVi (d : BitVec 5) (a : BitVec 5) (k : BitVec 3) (w : BitVec 3) (i : BitVec 5) : RoundTrip.Statement (.vmaxVi d a k w i) := by
  obtain ⟨h0, h1, h2, h3, h4, h5, h6, hb⟩ := cut_4_3_3_5_5_5_7 10#4 k w i a d 59#7
  refine of32 rfl rfl rfl hb fun hw => (major1D h0).trans ?_
  clear hb
  generalize 10#4 ++ k ++ w ++ i ++ a ++ d ++ 59#7 = v at h0 h1 h2 h3 h4 h5 h6 ⊢
  unfold decodeMajor1D
  iterate 10 refine skip (fun e => absurd (h1.symm.trans e) (by decide)) ?_
  refine take h1 ?_
  simp only [fD, fA, fB, fW, fK, h2, h3, h5, h6, h4]

theorem RoundTrip.vminuVv (d : BitVec 5) (a : BitVec 5) (b : BitVec 5) (k : BitVec 3) (w : BitVec 3) : RoundTrip.Statement (.vminuVv d a b k w) := by
  obtain ⟨h0, h1, h2, h3, h4, h5, h6, hb⟩ := cut_4_3_3_5_5_5_7 11#4 k w b a d 55#7
  refine of32 rfl rfl rfl hb fun hw => (major1B h0).trans ?_
  clear hb
  generalize 11#4 ++ k ++ w ++ b ++ a ++ d ++ 55#7 = v at h0 h1 h2 h3 h4 h5 h6 ⊢
  unfold decodeMajor1B
  iterate 11 refine skip (fun e => absurd (h1.symm.trans e) (by decide)) ?_
  refine take h1 ?_
  simp only [fD, fA, fB, fW, fK, h2, h3, h4, h5, h6]

theorem RoundTrip.vminuVs (d : BitVec 5) (a : BitVec 5) (b : BitVec 5) (k : BitVec 3) (w : BitVec 3) : RoundTrip.Statement (.vminuVs d a b k w) := by
  obtain ⟨h0, h1, h2, h3, h4, h5, h6, hb⟩ := cut_4_3_3_5_5_5_7 11#4 k w b a d 57#7
  refine of32 rfl rfl rfl hb fun hw => (major1C h0).trans ?_
  clear hb
  generalize 11#4 ++ k ++ w ++ b ++ a ++ d ++ 57#7 = v at h0 h1 h2 h3 h4 h5 h6 ⊢
  unfold decodeMajor1C
  iterate 11 refine skip (fun e => absurd (h1.symm.trans e) (by decide)) ?_
  refine take h1 ?_
  simp only [fD, fA, fB, fW, fK, h2, h3, h4, h5, h6]

theorem RoundTrip.vminuVi (d : BitVec 5) (a : BitVec 5) (k : BitVec 3) (w : BitVec 3) (i : BitVec 5) : RoundTrip.Statement (.vminuVi d a k w i) := by
  obtain ⟨h0, h1, h2, h3, h4, h5, h6, hb⟩ := cut_4_3_3_5_5_5_7 11#4 k w i a d 59#7
  refine of32 rfl rfl rfl hb fun hw => (major1D h0).trans ?_
  clear hb
  generalize 11#4 ++ k ++ w ++ i ++ a ++ d ++ 59#7 = v at h0 h1 h2 h3 h4 h5 h6 ⊢
  unfold decodeMajor1D
  iterate 11 refine skip (fun e => absurd (h1.symm.trans e) (by decide)) ?_
  refine take h1 ?_
  simp only [fD, fA, fB, fW, fK, h2, h3, h5, h6, h4]

theorem RoundTrip.vmaxuVv (d : BitVec 5) (a : BitVec 5) (b : BitVec 5) (k : BitVec 3) (w : BitVec 3) : RoundTrip.Statement (.vmaxuVv d a b k w) := by
  obtain ⟨h0, h1, h2, h3, h4, h5, h6, hb⟩ := cut_4_3_3_5_5_5_7 12#4 k w b a d 55#7
  refine of32 rfl rfl rfl hb fun hw => (major1B h0).trans ?_
  clear hb
  generalize 12#4 ++ k ++ w ++ b ++ a ++ d ++ 55#7 = v at h0 h1 h2 h3 h4 h5 h6 ⊢
  unfold decodeMajor1B
  iterate 12 refine skip (fun e => absurd (h1.symm.trans e) (by decide)) ?_
  refine take h1 ?_
  simp only [fD, fA, fB, fW, fK, h2, h3, h4, h5, h6]

theorem RoundTrip.vmaxuVs (d : BitVec 5) (a : BitVec 5) (b : BitVec 5) (k : BitVec 3) (w : BitVec 3) : RoundTrip.Statement (.vmaxuVs d a b k w) := by
  obtain ⟨h0, h1, h2, h3, h4, h5, h6, hb⟩ := cut_4_3_3_5_5_5_7 12#4 k w b a d 57#7
  refine of32 rfl rfl rfl hb fun hw => (major1C h0).trans ?_
  clear hb
  generalize 12#4 ++ k ++ w ++ b ++ a ++ d ++ 57#7 = v at h0 h1 h2 h3 h4 h5 h6 ⊢
  unfold decodeMajor1C
  iterate 12 refine skip (fun e => absurd (h1.symm.trans e) (by decide)) ?_
  refine take h1 ?_
  simp only [fD, fA, fB, fW, fK, h2, h3, h4, h5, h6]

theorem RoundTrip.vmaxuVi (d : BitVec 5) (a : BitVec 5) (k : BitVec 3) (w : BitVec 3) (i : BitVec 5) : RoundTrip.Statement (.vmaxuVi d a k w i) := by
  obtain ⟨h0, h1, h2, h3, h4, h5, h6, hb⟩ := cut_4_3_3_5_5_5_7 12#4 k w i a d 59#7
  refine of32 rfl rfl rfl hb fun hw => (major1D h0).trans ?_
  clear hb
  generalize 12#4 ++ k ++ w ++ i ++ a ++ d ++ 59#7 = v at h0 h1 h2 h3 h4 h5 h6 ⊢
  unfold decodeMajor1D
  iterate 12 refine skip (fun e => absurd (h1.symm.trans e) (by decide)) ?_
  refine take h1 ?_
  simp only [fD, fA, fB, fW, fK, h2, h3, h5, h6, h4]

theorem RoundTrip.vmergeVv (d : BitVec 5) (a : BitVec 5) (b : BitVec 5) (k : BitVec 3) (w : BitVec 3) : RoundTrip.Statement (.vmergeVv d a b k w) := by
  obtain ⟨h0, h1, h2, h3, h4, h5, h6, hb⟩ := cut_4_3_3_5_5_5_7 13#4 k w b a d 55#7
  refine of32 rfl rfl rfl hb fun hw => (major1B h0).trans ?_
  clear hb
  generalize 13#4 ++ k ++ w ++ b ++ a ++ d ++ 55#7 = v at h0 h1 h2 h3 h4 h5 h6 ⊢
  unfold decodeMajor1B
  iterate 13 refine skip (fun e => absurd (h1.symm.trans e) (by decide)) ?_
  refine take h1 ?_
  simp only [fD, fA, fB, fW, fK, h2, h3, h4, h5, h6]

theorem RoundTrip.vmergeVs (d : BitVec 5) (a : BitVec 5) (b : BitVec 5) (k : BitVec 3) (w : BitVec 3) : RoundTrip.Statement (.vmergeVs d a b k w) := by
  obtain ⟨h0, h1, h2, h3, h4, h5, h6, hb⟩ := cut_4_3_3_5_5_5_7 13#4 k w b a d 57#7
  refine of32 rfl rfl rfl hb fun hw => (major1C h0).trans ?_
  clear hb
  generalize 13#4 ++ k ++ w ++ b ++ a ++ d ++ 57#7 = v at h0 h1 h2 h3 h4 h5 h6 ⊢
  unfold decodeMajor1C
  iterate 13 refine skip (fun e => absurd (h1.symm.trans e) (by decide)) ?_
  refine take h1 ?_
  simp only [fD, fA, fB, fW, fK, h2, h3, h4, h5, h6]

theorem RoundTrip.vmergeVi (d : BitVec 5) (a : BitVec 5) (k : BitVec 3) (w : BitVec 3) (i : BitVec 5) : RoundTrip.Statement (.vmergeVi d a k w i) := by
  obtain ⟨h0, h1, h2, h3, h4, h5, h6, hb⟩ := cut_4_3_3_5_5_5_7 13#4 k w i a d 59#7
  refine of32 rfl rfl rfl hb fun hw => (major1D h0).trans ?_
  clear hb
  generalize 13#4 ++ k ++ w ++ i ++ a ++ d ++ 59#7 = v at h0 h1 h2 h3 h4 h5 h6 ⊢
  unfold decodeMajor1D
  iterate 13 refine skip (fun e => absurd (h1.symm.trans e) (by decide)) ?_
  refine take h1 ?_
  simp only [fD, fA, fB, fW, fK, h2, h3, h5, h6, h4]

theorem RoundTrip.vmvVv (d : BitVec 5) (b : BitVec 5) (k : BitVec 3) (w : BitVec 3) : RoundTrip.Statement (.vmvVv d b k w) := by
  obtain ⟨h0, h1, h2, h3, h4, h5, h6, hb⟩ := cut_4_3_3_5_5_5_7 14#4 k w b 0#5 d 55#7
  refine of32 rfl rfl rfl hb fun hw => (major1B h0).trans ?_
  clear hb
  generalize 14#4 ++ k ++ w ++ b ++ 0#5 ++ d ++ 55#7 = v at h0 h1 h2 h3 h4 h5 h6 ⊢
  unfold decodeMajor1B
  iterate 14 refine skip (fun e => absurd (h1.symm.trans e) (by decide)) ?_
  refine take ⟨h1, h3⟩ ?_
  simp only [fD, fB, fW, fK, h2, h4, h5, h6]

theorem RoundTrip.vmvVs (d : BitVec 5) (b : BitVec 5) (k : BitVec 3) (w : BitVec 3) : RoundTrip.Statement (.vmvVs d b k w) := by
  obtain ⟨h0, h1, h2, h3, h4, h5, h6, hb⟩ := cut_4_3_3_5_5_5_7 14#4 k w b 0#5 d 57#7
  refine of32 rfl rfl rfl hb fun hw => (major1C h0).trans ?_
  clear hb
  generalize 14#4 ++ k ++ w ++ b ++ 0#5 ++ d ++ 57#7 = v at h0 h1 h2 h3 h4 h5 h6 ⊢
  unfold decodeMajor1C
  iterate 14 refine skip (fun e => absurd (h1.symm.trans e) (by decide)) ?_
  refine take ⟨h1, h3⟩ ?_
  simp only [fD, fB, fW, fK, h2, h4, h5, h6]

theorem RoundTrip.vmvVi (d : BitVec 5) (k : BitVec 3) (w : BitVec 3) (i : BitVec 5) : RoundTrip.Statement (.vmvVi d k w i) := by
  obtain ⟨h0, h1, h2, h3, h4, h5, h6, hb⟩ := cut_4_3_3_5_5_5_7 14#4 k w i 0#5 d 59#7
  refine of32 rfl rfl rfl hb fun hw => (major1D h0).trans ?_
  clear hb
  generalize 14#4 ++ k ++ w ++ i ++ 0#5 ++ d ++ 59#7 = v at h0 h1 h2 h3 h4 h5 h6 ⊢
  unfold decodeMajor1D
  iterate 14 refine skip (fun e => absurd (h1.symm.trans e) (by decide)) ?_
  refine take ⟨h1, h3⟩ ?_
  simp only [fD, fB, fW, fK, h2, h5, h6, h4]

theorem RoundTrip.vidx (d : BitVec 5) (k : BitVec 3) (w : BitVec 3) (t : BitVec 5) (s : BitVec 5) : RoundTrip.Statement (.vidx d k w t s) := by
  obtain ⟨h0, h1, h2, h3, h4, h5, h6, hb⟩ := cut_4_3_3_5_5_5_7 15#4 k w t s d 59#7
  refine of32 rfl rfl rfl hb fun hw => (major1D h0).trans ?_
  clear hb
  generalize 15#4 ++ k ++ w ++ t ++ s ++ d ++ 59#7 = v at h0 h1 h2 h3 h4 h5 h6 ⊢
  unfold decodeMajor1D
  iterate 14 refine skip (fun e => absurd (h1.symm.trans e) (by decide)) ?_
  refine skip (fun e => absurd (h1.symm.trans e.1) (by decide)) ?_
  refine take h1 ?_
  simp only [fD, fA, fB, fW, fK, h2, h5, h6, h4, h3]

theorem RoundTrip.vmulVv (d : BitVec 5) (a : BitVec 5) (b : BitVec 5) (k : BitVec 3) (w : BitVec 3) : RoundTrip.Statement (.vmulVv d a b k w) := by
  obtain ⟨h0, h1, h2, h3, h4, h5, h6, hb⟩ := cut_4_3_3_5_5_5_7 0#4 k w b a d 61#7
  refine of32 rfl rfl rfl hb fun hw => (major1E h0).trans ?_
  clear hb
  generalize 0#4 ++ k ++ w ++ b ++ a ++ d ++ 61#7 = v at h0 h1 h2 h3 h4 h5 h6 ⊢
  unfold decodeMajor1E
  refine take h1 ?_
  simp only [fD, fA, fB, fW, fK, h2, h3, h4, h5, h6]

theorem RoundTrip.vmulVs (d : BitVec 5) (a : BitVec 5) (b : BitVec 5) (k : BitVec 3) (w : BitVec 3) : RoundTrip.Statement (.vmulVs d a b k w) := by
  obtain ⟨h0, h1, h2, h3, h4, h5, h6, hb⟩ := cut_4_3_3_5_5_5_7 0#4 k w b a d 63#7
  refine of32 rfl rfl rfl hb fun hw => (major1F h0).trans ?_
  clear hb
  generalize 0#4 ++ k ++ w ++ b ++ a ++ d ++ 63#7 = v at h0 h1 h2 h3 h4 h5 h6 ⊢
  unfold decodeMajor1F
  refine take h1 ?_
  simp only [fD, fA, fB, fW, fK, h2, h3, h4, h5, h6]

theorem RoundTrip.vmulhVv (d : BitVec 5) (a : BitVec 5) (b : BitVec 5) (k : BitVec 3) (w : BitVec 3) : RoundTrip.Statement (.vmulhVv d a b k w) := by
  obtain ⟨h0, h1, h2, h3, h4, h5, h6, hb⟩ := cut_4_3_3_5_5_5_7 1#4 k w b a d 61#7
  refine of32 rfl rfl rfl hb fun hw => (major1E h0).trans ?_
  clear hb
  generalize 1#4 ++ k ++ w ++ b ++ a ++ d ++ 61#7 = v at h0 h1 h2 h3 h4 h5 h6 ⊢
  unfold decodeMajor1E
  refine skip (fun e => absurd (h1.symm.trans e) (by decide)) ?_
  refine take h1 ?_
  simp only [fD, fA, fB, fW, fK, h2, h3, h4, h5, h6]

theorem RoundTrip.vmulhVs (d : BitVec 5) (a : BitVec 5) (b : BitVec 5) (k : BitVec 3) (w : BitVec 3) : RoundTrip.Statement (.vmulhVs d a b k w) := by
  obtain ⟨h0, h1, h2, h3, h4, h5, h6, hb⟩ := cut_4_3_3_5_5_5_7 1#4 k w b a d 63#7
  refine of32 rfl rfl rfl hb fun hw => (major1F h0).trans ?_
  clear hb
  generalize 1#4 ++ k ++ w ++ b ++ a ++ d ++ 63#7 = v at h0 h1 h2 h3 h4 h5 h6 ⊢
  unfold decodeMajor1F
  refine skip (fun e => absurd (h1.symm.trans e) (by decide)) ?_
  refine take h1 ?_
  simp only [fD, fA, fB, fW, fK, h2, h3, h4, h5, h6]

theorem RoundTrip.vmulhuVv (d : BitVec 5) (a : BitVec 5) (b : BitVec 5) (k : BitVec 3) (w : BitVec 3) : RoundTrip.Statement (.vmulhuVv d a b k w) := by
  obtain ⟨h0, h1, h2, h3, h4, h5, h6, hb⟩ := cut_4_3_3_5_5_5_7 2#4 k w b a d 61#7
  refine of32 rfl rfl rfl hb fun hw => (major1E h0).trans ?_
  clear hb
  generalize 2#4 ++ k ++ w ++ b ++ a ++ d ++ 61#7 = v at h0 h1 h2 h3 h4 h5 h6 ⊢
  unfold decodeMajor1E
  iterate 2 refine skip (fun e => absurd (h1.symm.trans e) (by decide)) ?_
  refine take h1 ?_
  simp only [fD, fA, fB, fW, fK, h2, h3, h4, h5, h6]

theorem RoundTrip.vmulhuVs (d : BitVec 5) (a : BitVec 5) (b : BitVec 5) (k : BitVec 3) (w : BitVec 3) : RoundTrip.Statement (.vmulhuVs d a b k w) := by
  obtain ⟨h0, h1, h2, h3, h4, h5, h6, hb⟩ := cut_4_3_3_5_5_5_7 2#4 k w b a d 63#7
  refine of32 rfl rfl rfl hb fun hw => (major1F h0).trans ?_
  clear hb
  generalize 2#4 ++ k ++ w ++ b ++ a ++ d ++ 63#7 = v at h0 h1 h2 h3 h4 h5 h6 ⊢
  unfold decodeMajor1F
  iterate 2 refine skip (fun e => absurd (h1.symm.trans e) (by decide)) ?_
  refine take h1 ?_
  simp only [fD, fA, fB, fW, fK, h2, h3, h4, h5, h6]

theorem RoundTrip.vmaccVv (d : BitVec 5) (a : BitVec 5) (b : BitVec 5) (k : BitVec 3) (w : BitVec 3) : RoundTrip.Statement (.vmaccVv d a b k w) := by
  obtain ⟨h0, h1, h2, h3, h4, h5, h6, hb⟩ := cut_4_3_3_5_5_5_7 3#4 k w b a d 61#7
  refine of32 rfl rfl rfl hb fun hw => (major1E h0).trans ?_
  clear hb
  generalize 3#4 ++ k ++ w ++ b ++ a ++ d ++ 61#7 = v at h0 h1 h2 h3 h4 h5 h6 ⊢
  unfold decodeMajor1E
  iterate 3 refine skip (fun e => absurd (h1.symm.trans e) (by decide)) ?_
  refine take h1 ?_
  simp only [fD, fA, fB, fW, fK, h2, h3, h4, h5, h6]

theorem RoundTrip.vmaccVs (d : BitVec 5) (a : BitVec 5) (b : BitVec 5) (k : BitVec 3) (w : BitVec 3) : RoundTrip.Statement (.vmaccVs d a b k w) := by
  obtain ⟨h0, h1, h2, h3, h4, h5, h6, hb⟩ := cut_4_3_3_5_5_5_7 3#4 k w b a d 63#7
  refine of32 rfl rfl rfl hb fun hw => (major1F h0).trans ?_
  clear hb
  generalize 3#4 ++ k ++ w ++ b ++ a ++ d ++ 63#7 = v at h0 h1 h2 h3 h4 h5 h6 ⊢
  unfold decodeMajor1F
  iterate 3 refine skip (fun e => absurd (h1.symm.trans e) (by decide)) ?_
  refine take h1 ?_
  simp only [fD, fA, fB, fW, fK, h2, h3, h4, h5, h6]

theorem RoundTrip.vnmsacVv (d : BitVec 5) (a : BitVec 5) (b : BitVec 5) (k : BitVec 3) (w : BitVec 3) : RoundTrip.Statement (.vnmsacVv d a b k w) := by
  obtain ⟨h0, h1, h2, h3, h4, h5, h6, hb⟩ := cut_4_3_3_5_5_5_7 4#4 k w b a d 61#7
  refine of32 rfl rfl rfl hb fun hw => (major1E h0).trans ?_
  clear hb
  generalize 4#4 ++ k ++ w ++ b ++ a ++ d ++ 61#7 = v at h0 h1 h2 h3 h4 h5 h6 ⊢
  unfold decodeMajor1E
  iterate 4 refine skip (fun e => absurd (h1.symm.trans e) (by decide)) ?_
  refine take h1 ?_
  simp only [fD, fA, fB, fW, fK, h2, h3, h4, h5, h6]

theorem RoundTrip.vnmsacVs (d : BitVec 5) (a : BitVec 5) (b : BitVec 5) (k : BitVec 3) (w : BitVec 3) : RoundTrip.Statement (.vnmsacVs d a b k w) := by
  obtain ⟨h0, h1, h2, h3, h4, h5, h6, hb⟩ := cut_4_3_3_5_5_5_7 4#4 k w b a d 63#7
  refine of32 rfl rfl rfl hb fun hw => (major1F h0).trans ?_
  clear hb
  generalize 4#4 ++ k ++ w ++ b ++ a ++ d ++ 63#7 = v at h0 h1 h2 h3 h4 h5 h6 ⊢
  unfold decodeMajor1F
  iterate 4 refine skip (fun e => absurd (h1.symm.trans e) (by decide)) ?_
  refine take h1 ?_
  simp only [fD, fA, fB, fW, fK, h2, h3, h4, h5, h6]

theorem RoundTrip.vwaddVv (d : BitVec 5) (a : BitVec 5) (b : BitVec 5) (k : BitVec 3) (w : BitVec 3) : RoundTrip.Statement (.vwaddVv d a b k w) := by
  obtain ⟨h0, h1, h2, h3, h4, h5, h6, hb⟩ := cut_4_3_3_5_5_5_7 5#4 k w b a d 61#7
  refine of32 rfl rfl rfl hb fun hw => (major1E h0).trans ?_
  clear hb
  generalize 5#4 ++ k ++ w ++ b ++ a ++ d ++ 61#7 = v at h0 h1 h2 h3 h4 h5 h6 ⊢
  unfold decodeMajor1E
  iterate 5 refine skip (fun e => absurd (h1.symm.trans e) (by decide)) ?_
  refine take h1 ?_
  simp only [fD, fA, fB, fW, fK, h2, h3, h4, h5, h6]

theorem RoundTrip.vwaddVs (d : BitVec 5) (a : BitVec 5) (b : BitVec 5) (k : BitVec 3) (w : BitVec 3) : RoundTrip.Statement (.vwaddVs d a b k w) := by
  obtain ⟨h0, h1, h2, h3, h4, h5, h6, hb⟩ := cut_4_3_3_5_5_5_7 5#4 k w b a d 63#7
  refine of32 rfl rfl rfl hb fun hw => (major1F h0).trans ?_
  clear hb
  generalize 5#4 ++ k ++ w ++ b ++ a ++ d ++ 63#7 = v at h0 h1 h2 h3 h4 h5 h6 ⊢
  unfold decodeMajor1F
  iterate 5 refine skip (fun e => absurd (h1.symm.trans e) (by decide)) ?_
  refine take h1 ?_
  simp only [fD, fA, fB, fW, fK, h2, h3, h4, h5, h6]

theorem RoundTrip.vwmulVv (d : BitVec 5) (a : BitVec 5) (b : BitVec 5) (k : BitVec 3) (w : BitVec 3) : RoundTrip.Statement (.vwmulVv d a b k w) := by
  obtain ⟨h0, h1, h2, h3, h4, h5, h6, hb⟩ := cut_4_3_3_5_5_5_7 6#4 k w b a d 61#7
  refine of32 rfl rfl rfl hb fun hw => (major1E h0).trans ?_
  clear hb
  generalize 6#4 ++ k ++ w ++ b ++ a ++ d ++ 61#7 = v at h0 h1 h2 h3 h4 h5 h6 ⊢
  unfold decodeMajor1E
  iterate 6 refine skip (fun e => absurd (h1.symm.trans e) (by decide)) ?_
  refine take h1 ?_
  simp only [fD, fA, fB, fW, fK, h2, h3, h4, h5, h6]

theorem RoundTrip.vwmulVs (d : BitVec 5) (a : BitVec 5) (b : BitVec 5) (k : BitVec 3) (w : BitVec 3) : RoundTrip.Statement (.vwmulVs d a b k w) := by
  obtain ⟨h0, h1, h2, h3, h4, h5, h6, hb⟩ := cut_4_3_3_5_5_5_7 6#4 k w b a d 63#7
  refine of32 rfl rfl rfl hb fun hw => (major1F h0).trans ?_
  clear hb
  generalize 6#4 ++ k ++ w ++ b ++ a ++ d ++ 63#7 = v at h0 h1 h2 h3 h4 h5 h6 ⊢
  unfold decodeMajor1F
  iterate 6 refine skip (fun e => absurd (h1.symm.trans e) (by decide)) ?_
  refine take h1 ?_
  simp only [fD, fA, fB, fW, fK, h2, h3, h4, h5, h6]

theorem RoundTrip.vwmaccVv (d : BitVec 5) (a : BitVec 5) (b : BitVec 5) (k : BitVec 3) (w : BitVec 3) : RoundTrip.Statement (.vwmaccVv d a b k w) := by
  obtain ⟨h0, h1, h2, h3, h4, h5, h6, hb⟩ := cut_4_3_3_5_5_5_7 7#4 k w b a d 61#7
  refine of32 rfl rfl rfl hb fun hw => (major1E h0).trans ?_
  clear hb
  generalize 7#4 ++ k ++ w ++ b ++ a ++ d ++ 61#7 = v at h0 h1 h2 h3 h4 h5 h6 ⊢
  unfold decodeMajor1E
  iterate 7 refine skip (fun e => absurd (h1.symm.trans e) (by decide)) ?_
  refine take h1 ?_
  simp only [fD, fA, fB, fW, fK, h2, h3, h4, h5, h6]

theorem RoundTrip.vwmaccVs (d : BitVec 5) (a : BitVec 5) (b : BitVec 5) (k : BitVec 3) (w : BitVec 3) : RoundTrip.Statement (.vwmaccVs d a b k w) := by
  obtain ⟨h0, h1, h2, h3, h4, h5, h6, hb⟩ := cut_4_3_3_5_5_5_7 7#4 k w b a d 63#7
  refine of32 rfl rfl rfl hb fun hw => (major1F h0).trans ?_
  clear hb
  generalize 7#4 ++ k ++ w ++ b ++ a ++ d ++ 63#7 = v at h0 h1 h2 h3 h4 h5 h6 ⊢
  unfold decodeMajor1F
  iterate 7 refine skip (fun e => absurd (h1.symm.trans e) (by decide)) ?_
  refine take h1 ?_
  simp only [fD, fA, fB, fW, fK, h2, h3, h4, h5, h6]

theorem RoundTrip.vwmaccuVv (d : BitVec 5) (a : BitVec 5) (b : BitVec 5) (k : BitVec 3) (w : BitVec 3) : RoundTrip.Statement (.vwmaccuVv d a b k w) := by
  obtain ⟨h0, h1, h2, h3, h4, h5, h6, hb⟩ := cut_4_3_3_5_5_5_7 8#4 k w b a d 61#7
  refine of32 rfl rfl rfl hb fun hw => (major1E h0).trans ?_
  clear hb
  generalize 8#4 ++ k ++ w ++ b ++ a ++ d ++ 61#7 = v at h0 h1 h2 h3 h4 h5 h6 ⊢
  unfold decodeMajor1E
  iterate 8 refine skip (fun e => absurd (h1.symm.trans e) (by decide)) ?_
  refine take h1 ?_
  simp only [fD, fA, fB, fW, fK, h2, h3, h4, h5, h6]

theorem RoundTrip.vwmaccuVs (d : BitVec 5) (a : BitVec 5) (b : BitVec 5) (k : BitVec 3) (w : BitVec 3) : RoundTrip.Statement (.vwmaccuVs d a b k w) := by
  obtain ⟨h0, h1, h2, h3, h4, h5, h6, hb⟩ := cut_4_3_3_5_5_5_7 8#4 k w b a d 63#7
  refine of32 rfl rfl rfl hb fun hw => (major1F h0).trans ?_
  clear hb
  generalize 8#4 ++ k ++ w ++ b ++ a ++ d ++ 63#7 = v at h0 h1 h2 h3 h4 h5 h6 ⊢
  unfold decodeMajor1F
  iterate 8 refine skip (fun e => absurd (h1.symm.trans e) (by decide)) ?_
  refine take h1 ?_
  simp only [fD, fA, fB, fW, fK, h2, h3, h4, h5, h6]

theorem RoundTrip.vdivVv (d : BitVec 5) (a : BitVec 5) (b : BitVec 5) (k : BitVec 3) (w : BitVec 3) : RoundTrip.Statement (.vdivVv d a b k w) := by
  obtain ⟨h0, h1, h2, h3, h4, h5, h6, hb⟩ := cut_4_3_3_5_5_5_7 9#4 k w b a d 61#7
  refine of32 rfl rfl rfl hb fun hw => (major1E h0).trans ?_
  clear hb
  generalize 9#4 ++ k ++ w ++ b ++ a ++ d ++ 61#7 = v at h0 h1 h2 h3 h4 h5 h6 ⊢
  unfold decodeMajor1E
  iterate 9 refine skip (fun e => absurd (h1.symm.trans e) (by decide)) ?_
  refine take h1 ?_
  simp only [fD, fA, fB, fW, fK, h2, h3, h4, h5, h6]

theorem RoundTrip.vdivVs (d : BitVec 5) (a : BitVec 5) (b : BitVec 5) (k : BitVec 3) (w : BitVec 3) : RoundTrip.Statement (.vdivVs d a b k w) := by
  obtain ⟨h0, h1, h2, h3, h4, h5, h6, hb⟩ := cut_4_3_3_5_5_5_7 9#4 k w b a d 63#7
  refine of32 rfl rfl rfl hb fun hw => (major1F h0).trans ?_
  clear hb
  generalize 9#4 ++ k ++ w ++ b ++ a ++ d ++ 63#7 = v at h0 h1 h2 h3 h4 h5 h6 ⊢
  unfold decodeMajor1F
  iterate 9 refine skip (fun e => absurd (h1.symm.trans e) (by decide)) ?_
  refine take h1 ?_
  simp only [fD, fA, fB, fW, fK, h2, h3, h4, h5, h6]

theorem RoundTrip.vremVv (d : BitVec 5) (a : BitVec 5) (b : BitVec 5) (k : BitVec 3) (w : BitVec 3) : RoundTrip.Statement (.vremVv d a b k w) := by
  obtain ⟨h0, h1, h2, h3, h4, h5, h6, hb⟩ := cut_4_3_3_5_5_5_7 10#4 k w b a d 61#7
  refine of32 rfl rfl rfl hb fun hw => (major1E h0).trans ?_
  clear hb
  generalize 10#4 ++ k ++ w ++ b ++ a ++ d ++ 61#7 = v at h0 h1 h2 h3 h4 h5 h6 ⊢
  unfold decodeMajor1E
  iterate 10 refine skip (fun e => absurd (h1.symm.trans e) (by decide)) ?_
  refine take h1 ?_
  simp only [fD, fA, fB, fW, fK, h2, h3, h4, h5, h6]

theorem RoundTrip.vremVs (d : BitVec 5) (a : BitVec 5) (b : BitVec 5) (k : BitVec 3) (w : BitVec 3) : RoundTrip.Statement (.vremVs d a b k w) := by
  obtain ⟨h0, h1, h2, h3, h4, h5, h6, hb⟩ := cut_4_3_3_5_5_5_7 10#4 k w b a d 63#7
  refine of32 rfl rfl rfl hb fun hw => (major1F h0).trans ?_
  clear hb
  generalize 10#4 ++ k ++ w ++ b ++ a ++ d ++ 63#7 = v at h0 h1 h2 h3 h4 h5 h6 ⊢
  unfold decodeMajor1F
  iterate 10 refine skip (fun e => absurd (h1.symm.trans e) (by decide)) ?_
  refine take h1 ?_
  simp only [fD, fA, fB, fW, fK, h2, h3, h4, h5, h6]

theorem RoundTrip.vsaddVv (d : BitVec 5) (a : BitVec 5) (b : BitVec 5) (k : BitVec 3) (w : BitVec 3) : RoundTrip.Statement (.vsaddVv d a b k w) := by
  obtain ⟨h0, h1, h2, h3, h4, h5, h6, hb⟩ := cut_4_3_3_5_5_5_7 11#4 k w b a d 61#7
  refine of32 rfl rfl rfl hb fun hw => (major1E h0).trans ?_
  clear hb
  generalize 11#4 ++ k ++ w ++ b ++ a ++ d ++ 61#7 = v at h0 h1 h2 h3 h4 h5 h6 ⊢
  unfold decodeMajor1E
  iterate 11 refine skip (fun e => absurd (h1.symm.trans e) (by decide)) ?_
  refine take h1 ?_
  simp only [fD, fA, fB, fW, fK, h2, h3, h4, h5, h6]

theorem RoundTrip.vsaddVs (d : BitVec 5) (a : BitVec 5) (b : BitVec 5) (k : BitVec 3) (w : BitVec 3) : RoundTrip.Statement (.vsaddVs d a b k w) := by
  obtain ⟨h0, h1, h2, h3, h4, h5, h6, hb⟩ := cut_4_3_3_5_5_5_7 11#4 k w b a d 63#7
  refine of32 rfl rfl rfl hb fun hw => (major1F h0).trans ?_
  clear hb
  generalize 11#4 ++ k ++ w ++ b ++ a ++ d ++ 63#7 = v at h0 h1 h2 h3 h4 h5 h6 ⊢
  unfold decodeMajor1F
  iterate 11 refine skip (fun e => absurd (h1.symm.trans e) (by decide)) ?_
  refine take h1 ?_
  simp only [fD, fA, fB, fW, fK, h2, h3, h4, h5, h6]

theorem RoundTrip.vsadduVv (d : BitVec 5) (a : BitVec 5) (b : BitVec 5) (k : BitVec 3) (w : BitVec 3) : RoundTrip.Statement (.vsadduVv d a b k w) := by
  obtain ⟨h0, h1, h2, h3, h4, h5, h6, hb⟩ := cut_4_3_3_5_5_5_7 12#4 k w b a d 61#7
  refine of32 rfl rfl rfl hb fun hw => (major1E h0).trans ?_
  clear hb
  generalize 12#4 ++ k ++ w ++ b ++ a ++ d ++ 61#7 = v at h0 h1 h2 h3 h4 h5 h6 ⊢
  unfold decodeMajor1E
  iterate 12 refine skip (fun e => absurd (h1.symm.trans e) (by decide)) ?_
  refine take h1 ?_
  simp only [fD, fA, fB, fW, fK, h2, h3, h4, h5, h6]

theorem RoundTrip.vsadduVs (d : BitVec 5) (a : BitVec 5) (b : BitVec 5) (k : BitVec 3) (w : BitVec 3) : RoundTrip.Statement (.vsadduVs d a b k w) := by
  obtain ⟨h0, h1, h2, h3, h4, h5, h6, hb⟩ := cut_4_3_3_5_5_5_7 12#4 k w b a d 63#7
  refine of32 rfl rfl rfl hb fun hw => (major1F h0).trans ?_
  clear hb
  generalize 12#4 ++ k ++ w ++ b ++ a ++ d ++ 63#7 = v at h0 h1 h2 h3 h4 h5 h6 ⊢
  unfold decodeMajor1F
  iterate 12 refine skip (fun e => absurd (h1.symm.trans e) (by decide)) ?_
  refine take h1 ?_
  simp only [fD, fA, fB, fW, fK, h2, h3, h4, h5, h6]

theorem RoundTrip.vssubVv (d : BitVec 5) (a : BitVec 5) (b : BitVec 5) (k : BitVec 3) (w : BitVec 3) : RoundTrip.Statement (.vssubVv d a b k w) := by
  obtain ⟨h0, h1, h2, h3, h4, h5, h6, hb⟩ := cut_4_3_3_5_5_5_7 13#4 k w b a d 61#7
  refine of32 rfl rfl rfl hb fun hw => (major1E h0).trans ?_
  clear hb
  generalize 13#4 ++ k ++ w ++ b ++ a ++ d ++ 61#7 = v at h0 h1 h2 h3 h4 h5 h6 ⊢
  unfold decodeMajor1E
  iterate 13 refine skip (fun e => absurd (h1.symm.trans e) (by decide)) ?_
  refine take h1 ?_
  simp only [fD, fA, fB, fW, fK, h2, h3, h4, h5, h6]

theorem RoundTrip.vssubVs (d : BitVec 5) (a : BitVec 5) (b : BitVec 5) (k : BitVec 3) (w : BitVec 3) : RoundTrip.Statement (.vssubVs d a b k w) := by
  obtain ⟨h0, h1, h2, h3, h4, h5, h6, hb⟩ := cut_4_3_3_5_5_5_7 13#4 k w b a d 63#7
  refine of32 rfl rfl rfl hb fun hw => (major1F h0).trans ?_
  clear hb
  generalize 13#4 ++ k ++ w ++ b ++ a ++ d ++ 63#7 = v at h0 h1 h2 h3 h4 h5 h6 ⊢
  unfold decodeMajor1F
  iterate 13 refine skip (fun e => absurd (h1.symm.trans e) (by decide)) ?_
  refine take h1 ?_
  simp only [fD, fA, fB, fW, fK, h2, h3, h4, h5, h6]

theorem RoundTrip.vssubuVv (d : BitVec 5) (a : BitVec 5) (b : BitVec 5) (k : BitVec 3) (w : BitVec 3) : RoundTrip.Statement (.vssubuVv d a b k w) := by
  obtain ⟨h0, h1, h2, h3, h4, h5, h6, hb⟩ := cut_4_3_3_5_5_5_7 14#4 k w b a d 61#7
  refine of32 rfl rfl rfl hb fun hw => (major1E h0).trans ?_
  clear hb
  generalize 14#4 ++ k ++ w ++ b ++ a ++ d ++ 61#7 = v at h0 h1 h2 h3 h4 h5 h6 ⊢
  unfold decodeMajor1E
  iterate 14 refine skip (fun e => absurd (h1.symm.trans e) (by decide)) ?_
  refine take h1 ?_
  simp only [fD, fA, fB, fW, fK, h2, h3, h4, h5, h6]

theorem RoundTrip.vssubuVs (d : BitVec 5) (a : BitVec 5) (b : BitVec 5) (k : BitVec 3) (w : BitVec 3) : RoundTrip.Statement (.vssubuVs d a b k w) := by
  obtain ⟨h0, h1, h2, h3, h4, h5, h6, hb⟩ := cut_4_3_3_5_5_5_7 14#4 k w b a d 63#7
  refine of32 rfl rfl rfl hb fun hw => (major1F h0).trans ?_
  clear hb
  generalize 14#4 ++ k ++ w ++ b ++ a ++ d ++ 63#7 = v at h0 h1 h2 h3 h4 h5 h6 ⊢
  unfold decodeMajor1F
  iterate 14 refine skip (fun e => absurd (h1.symm.trans e) (by decide)) ?_
  refine take h1 ?_
  simp only [fD, fA, fB, fW, fK, h2, h3, h4, h5, h6]

theorem RoundTrip.vsmulVv (d : BitVec 5) (a : BitVec 5) (b : BitVec 5) (k : BitVec 3) (w : BitVec 3) : RoundTrip.Statement (.vsmulVv d a b k w) := by
  obtain ⟨h0, h1, h2, h3, h4, h5, h6, hb⟩ := cut_4_3_3_5_5_5_7 15#4 k w b a d 61#7
  refine of32 rfl rfl rfl hb fun hw => (major1E h0).trans ?_
  clear hb
  generalize 15#4 ++ k ++ w ++ b ++ a ++ d ++ 61#7 = v at h0 h1 h2 h3 h4 h5 h6 ⊢
  unfold decodeMajor1E
  iterate 15 refine skip (fun e => absurd (h1.symm.trans e) (by decide)) ?_
  refine take h1 ?_
  simp only [fD, fA, fB, fW, fK, h2, h3, h4, h5, h6]

theorem RoundTrip.vsmulVs (d : BitVec 5) (a : BitVec 5) (b : BitVec 5) (k : BitVec 3) (w : BitVec 3) : RoundTrip.Statement (.vsmulVs d a b k w) := by
  obtain ⟨h0, h1, h2, h3, h4, h5, h6, hb⟩ := cut_4_3_3_5_5_5_7 15#4 k w b a d 63#7
  refine of32 rfl rfl rfl hb fun hw => (major1F h0).trans ?_
  clear hb
  generalize 15#4 ++ k ++ w ++ b ++ a ++ d ++ 63#7 = v at h0 h1 h2 h3 h4 h5 h6 ⊢
  unfold decodeMajor1F
  iterate 15 refine skip (fun e => absurd (h1.symm.trans e) (by decide)) ?_
  refine take h1 ?_
  simp only [fD, fA, fB, fW, fK, h2, h3, h4, h5, h6]

theorem RoundTrip.vaaddVv (d : BitVec 5) (a : BitVec 5) (b : BitVec 5) (k : BitVec 3) (w : BitVec 3) : RoundTrip.Statement (.vaaddVv d a b k w) := by
  obtain ⟨h0, h1, h2, h3, h4, h5, h6, hb⟩ := cut_4_3_3_5_5_5_7 0#4 k w b a d 65#7
  refine of32 rfl rfl rfl hb fun hw => (major20 h0).trans ?_
  clear hb
  generalize 0#4 ++ k ++ w ++ b ++ a ++ d ++ 65#7 = v at h0 h1 h2 h3 h4 h5 h6 ⊢
  unfold decodeMajor20
  refine take h1 ?_
  simp only [fD, fA, fB, fW, fK, h2, h3, h4, h5, h6]

theorem RoundTrip.vaaddVs (d : BitVec 5) (a : BitVec 5) (b : BitVec 5) (k : BitVec 3) (w : BitVec 3) : RoundTrip.Statement (.vaaddVs d a b k w) := by
  obtain ⟨h0, h1, h2, h3, h4, h5, h6, hb⟩ := cut_4_3_3_5_5_5_7 0#4 k w b a d 67#7
  refine of32 rfl rfl rfl hb fun hw => (major21 h0).trans ?_
  clear hb
  generalize 0#4 ++ k ++ w ++ b ++ a ++ d ++ 67#7 = v at h0 h1 h2 h3 h4 h5 h6 ⊢
  unfold decodeMajor21
  refine take h1 ?_
  simp only [fD, fA, fB, fW, fK, h2, h3, h4, h5, h6]

theorem RoundTrip.vaaddVi (d : BitVec 5) (a : BitVec 5) (k : BitVec 3) (w : BitVec 3) (i : BitVec 5) : RoundTrip.Statement (.vaaddVi d a k w i) := by
  obtain ⟨h0, h1, h2, h3, h4, h5, h6, hb⟩ := cut_4_3_3_5_5_5_7 0#4 k w i a d 69#7
  refine of32 rfl rfl rfl hb fun hw => (major22 h0).trans ?_
  clear hb
  generalize 0#4 ++ k ++ w ++ i ++ a ++ d ++ 69#7 = v at h0 h1 h2 h3 h4 h5 h6 ⊢
  unfold decodeMajor22
  refine take h1 ?_
  simp only [fD, fA, fB, fW, fK, h2, h3, h5, h6, h4]

theorem RoundTrip.vssrVv (d : BitVec 5) (a : BitVec 5) (b : BitVec 5) (k : BitVec 3) (w : BitVec 3) : RoundTrip.Statement (.vssrVv d a b k w) := by
  obtain ⟨h0, h1, h2, h3, h4, h5, h6, hb⟩ := cut_4_3_3_5_5_5_7 1#4 k w b a d 65#7
  refine of32 rfl rfl rfl hb fun hw => (major20 h0).trans ?_
  clear hb
  generalize 1#4 ++ k ++ w ++ b ++ a ++ d ++ 65#7 = v at h0 h1 h2 h3 h4 h5 h6 ⊢
  unfold decodeMajor20
  refine skip (fun e => absurd (h1.symm.trans e) (by decide)) ?_
  refine take h1 ?_
  simp only [fD, fA, fB, fW, fK, h2, h3, h4, h5, h6]

theorem RoundTrip.vssrVs (d : BitVec 5) (a : BitVec 5) (b : BitVec 5) (k : BitVec 3) (w : BitVec 3) : RoundTrip.Statement (.vssrVs d a b k w) := by
  obtain ⟨h0, h1, h2, h3, h4, h5, h6, hb⟩ := cut_4_3_3_5_5_5_7 1#4 k w b a d 67#7
  refine of32 rfl rfl rfl hb fun hw => (major21 h0).trans ?_
  clear hb
  generalize 1#4 ++ k ++ w ++ b ++ a ++ d ++ 67#7 = v at h0 h1 h2 h3 h4 h5 h6 ⊢
  unfold decodeMajor21
  refine skip (fun e => absurd (h1.symm.trans e) (by decide)) ?_
  refine take h1 ?_
  simp only [fD, fA, fB, fW, fK, h2, h3, h4, h5, h6]

theorem RoundTrip.vssrVi (d : BitVec 5) (a : BitVec 5) (k : BitVec 3) (w : BitVec 3) (i : BitVec 5) : RoundTrip.Statement (.vssrVi d a k w i) := by
  obtain ⟨h0, h1, h2, h3, h4, h5, h6, hb⟩ := cut_4_3_3_5_5_5_7 1#4 k w i a d 69#7
  refine of32 rfl rfl rfl hb fun hw => (major22 h0).trans ?_
  clear hb
  generalize 1#4 ++ k ++ w ++ i ++ a ++ d ++ 69#7 = v at h0 h1 h2 h3 h4 h5 h6 ⊢
  unfold decodeMajor22
  refine skip (fun e => absurd (h1.symm.trans e) (by decide)) ?_
  refine take h1 ?_
  simp only [fD, fA, fB, fW, fK, h2, h3, h5, h6, h4]

theorem RoundTrip.vnshrVv (d : BitVec 5) (a : BitVec 5) (b : BitVec 5) (k : BitVec 3) (w : BitVec 3) : RoundTrip.Statement (.vnshrVv d a b k w) := by
  obtain ⟨h0, h1, h2, h3, h4, h5, h6, hb⟩ := cut_4_3_3_5_5_5_7 2#4 k w b a d 65#7
  refine of32 rfl rfl rfl hb fun hw => (major20 h0).trans ?_
  clear hb
  generalize 2#4 ++ k ++ w ++ b ++ a ++ d ++ 65#7 = v at h0 h1 h2 h3 h4 h5 h6 ⊢
  unfold decodeMajor20
  iterate 2 refine skip (fun e => absurd (h1.symm.trans e) (by decide)) ?_
  refine take h1 ?_
  simp only [fD, fA, fB, fW, fK, h2, h3, h4, h5, h6]

theorem RoundTrip.vnshrVs (d : BitVec 5) (a : BitVec 5) (b : BitVec 5) (k : BitVec 3) (w : BitVec 3) : RoundTrip.Statement (.vnshrVs d a b k w) := by
  obtain ⟨h0, h1, h2, h3, h4, h5, h6, hb⟩ := cut_4_3_3_5_5_5_7 2#4 k w b a d 67#7
  refine of32 rfl rfl rfl hb fun hw => (major21 h0).trans ?_
  clear hb
  generalize 2#4 ++ k ++ w ++ b ++ a ++ d ++ 67#7 = v at h0 h1 h2 h3 h4 h5 h6 ⊢
  unfold decodeMajor21
  iterate 2 refine skip (fun e => absurd (h1.symm.trans e) (by decide)) ?_
  refine take h1 ?_
  simp only [fD, fA, fB, fW, fK, h2, h3, h4, h5, h6]

theorem RoundTrip.vnshrVi (d : BitVec 5) (a : BitVec 5) (k : BitVec 3) (w : BitVec 3) (i : BitVec 5) : RoundTrip.Statement (.vnshrVi d a k w i) := by
  obtain ⟨h0, h1, h2, h3, h4, h5, h6, hb⟩ := cut_4_3_3_5_5_5_7 2#4 k w i a d 69#7
  refine of32 rfl rfl rfl hb fun hw => (major22 h0).trans ?_
  clear hb
  generalize 2#4 ++ k ++ w ++ i ++ a ++ d ++ 69#7 = v at h0 h1 h2 h3 h4 h5 h6 ⊢
  unfold decodeMajor22
  iterate 2 refine skip (fun e => absurd (h1.symm.trans e) (by decide)) ?_
  refine take h1 ?_
  simp only [fD, fA, fB, fW, fK, h2, h3, h5, h6, h4]

theorem RoundTrip.vsextVv (d : BitVec 5) (a : BitVec 5) (b : BitVec 5) (k : BitVec 3) (w : BitVec 3) : RoundTrip.Statement (.vsextVv d a b k w) := by
  obtain ⟨h0, h1, h2, h3, h4, h5, h6, hb⟩ := cut_4_3_3_5_5_5_7 3#4 k w b a d 65#7
  refine of32 rfl rfl rfl hb fun hw => (major20 h0).trans ?_
  clear hb
  generalize 3#4 ++ k ++ w ++ b ++ a ++ d ++ 65#7 = v at h0 h1 h2 h3 h4 h5 h6 ⊢
  unfold decodeMajor20
  iterate 3 refine skip (fun e => absurd (h1.symm.trans e) (by decide)) ?_
  refine take h1 ?_
  simp only [fD, fA, fB, fW, fK, h2, h3, h4, h5, h6]

theorem RoundTrip.vsextVs (d : BitVec 5) (a : BitVec 5) (b : BitVec 5) (k : BitVec 3) (w : BitVec 3) : RoundTrip.Statement (.vsextVs d a b k w) := by
  obtain ⟨h0, h1, h2, h3, h4, h5, h6, hb⟩ := cut_4_3_3_5_5_5_7 3#4 k w b a d 67#7
  refine of32 rfl rfl rfl hb fun hw => (major21 h0).trans ?_
  clear hb
  generalize 3#4 ++ k ++ w ++ b ++ a ++ d ++ 67#7 = v at h0 h1 h2 h3 h4 h5 h6 ⊢
  unfold decodeMajor21
  iterate 3 refine skip (fun e => absurd (h1.symm.trans e) (by decide)) ?_
  refine take h1 ?_
  simp only [fD, fA, fB, fW, fK, h2, h3, h4, h5, h6]

theorem RoundTrip.vsextVi (d : BitVec 5) (a : BitVec 5) (k : BitVec 3) (w : BitVec 3) (i : BitVec 5) : RoundTrip.Statement (.vsextVi d a k w i) := by
  obtain ⟨h0, h1, h2, h3, h4, h5, h6, hb⟩ := cut_4_3_3_5_5_5_7 3#4 k w i a d 69#7
  refine of32 rfl rfl rfl hb fun hw => (major22 h0).trans ?_
  clear hb
  generalize 3#4 ++ k ++ w ++ i ++ a ++ d ++ 69#7 = v at h0 h1 h2 h3 h4 h5 h6 ⊢
  unfold decodeMajor22
  iterate 3 refine skip (fun e => absurd (h1.symm.trans e) (by decide)) ?_
  refine take h1 ?_
  simp only [fD, fA, fB, fW, fK, h2, h3, h5, h6, h4]

theorem RoundTrip.vzextVv (d : BitVec 5) (a : BitVec 5) (b : BitVec 5) (k : BitVec 3) (w : BitVec 3) : RoundTrip.Statement (.vzextVv d a b k w) := by
  obtain ⟨h0, h1, h2, h3, h4, h5, h6, hb⟩ := cut_4_3_3_5_5_5_7 4#4 k w b a d 65#7
  refine of32 rfl rfl rfl hb fun hw => (major20 h0).trans ?_
  clear hb
  generalize 4#4 ++ k ++ w ++ b ++ a ++ d ++ 65#7 = v at h0 h1 h2 h3 h4 h5 h6 ⊢
  unfold decodeMajor20
  iterate 4 refine skip (fun e => absurd (h1.symm.trans e) (by decide)) ?_
  refine take h1 ?_
  simp only [fD, fA, fB, fW, fK, h2, h3, h4, h5, h6]

theorem RoundTrip.vzextVs (d : BitVec 5) (a : BitVec 5) (b : BitVec 5) (k : BitVec 3) (w : BitVec 3) : RoundTrip.Statement (.vzextVs d a b k w) := by
  obtain ⟨h0, h1, h2, h3, h4, h5, h6, hb⟩ := cut_4_3_3_5_5_5_7 4#4 k w b a d 67#7
  refine of32 rfl rfl rfl hb fun hw => (major21 h0).trans ?_
  clear hb
  generalize 4#4 ++ k ++ w ++ b ++ a ++ d ++ 67#7 = v at h0 h1 h2 h3 h4 h5 h6 ⊢
  unfold decodeMajor21
  iterate 4 refine skip (fun e => absurd (h1.symm.trans e) (by decide)) ?_
  refine take h1 ?_
  simp only [fD, fA, fB, fW, fK, h2, h3, h4, h5, h6]

theorem RoundTrip.vzextVi (d : BitVec 5) (a : BitVec 5) (k : BitVec 3) (w : BitVec 3) (i : BitVec 5) : RoundTrip.Statement (.vzextVi d a k w i) := by
  obtain ⟨h0, h1, h2, h3, h4, h5, h6, hb⟩ := cut_4_3_3_5_5_5_7 4#4 k w i a d 69#7
  refine of32 rfl rfl rfl hb fun hw => (major22 h0).trans ?_
  clear hb
  generalize 4#4 ++ k ++ w ++ i ++ a ++ d ++ 69#7 = v at h0 h1 h2 h3 h4 h5 h6 ⊢
  unfold decodeMajor22
  iterate 4 refine skip (fun e => absurd (h1.symm.trans e) (by decide)) ?_
  refine take h1 ?_
  simp only [fD, fA, fB, fW, fK, h2, h3, h5, h6, h4]

theorem RoundTrip.vcmpVv (d : BitVec 3) (a : BitVec 5) (b : BitVec 5) (c : BitVec 3) (k : BitVec 3) (w : BitVec 3) : RoundTrip.Statement (.vcmpVv d a b c k w) := by
  obtain ⟨h0, h1, h2, h3, h4, h5, h6, h7, h8, hb⟩ := cut_1_3_3_3_5_5_2_3_7 1#1 c k w b a 0#2 d 65#7
  refine of32 rfl rfl rfl hb fun hw => (major20 h0).trans ?_
  clear hb
  generalize 1#1 ++ c ++ k ++ w ++ b ++ a ++ 0#2 ++ d ++ 65#7 = v at h0 h1 h2 h3 h4 h5 h6 h7 h8 ⊢
  unfold decodeMajor20
  iterate 5 refine skip (fun e => part_ne (s := 28) (l := 4) (p := 3) h1 (by decide) (by decide) e) ?_
  refine take ⟨h1, h2⟩ ?_
  simp only [fA, fB, fW, fK, h3, h4, h5, h6, h7, h8]

theorem RoundTrip.vcmpVs (d : BitVec 3) (a : BitVec 5) (b : BitVec 5) (c : BitVec 3) (k : BitVec 3) (w : BitVec 3) : RoundTrip.Statement (.vcmpVs d a b c k w) := by
  obtain ⟨h0, h1, h2, h3, h4, h5, h6, h7, h8, hb⟩ := cut_1_3_3_3_5_5_2_3_7 1#1 c k w b a 0#2 d 67#7
  refine of32 rfl rfl rfl hb fun hw => (major21 h0).trans ?_
  clear hb
  generalize 1#1 ++ c ++ k ++ w ++ b ++ a ++ 0#2 ++ d ++ 67#7 = v at h0 h1 h2 h3 h4 h5 h6 h7 h8 ⊢
  unfold decodeMajor21
  iterate 5 refine skip (fun e => part_ne (s := 28) (l := 4) (p := 3) h1 (by decide) (by decide) e) ?_
  refine take ⟨h1, h2⟩ ?_
  simp only [fA, fB, fW, fK, h3, h4, h5, h6, h7, h8]

theorem RoundTrip.vcmpVi (d : BitVec 3) (a : BitVec 5) (c : BitVec 3) (k : BitVec 3) (w : BitVec 3) (i : BitVec 5) : RoundTrip.Statement (.vcmpVi d a c k w i) := by
  obtain ⟨h0, h1, h2, h3, h4, h5, h6, h7, h8, hb⟩ := cut_1_3_3_3_5_5_2_3_7 1#1 c k w i a 0#2 d 69#7
  refine of32 rfl rfl rfl hb fun hw => (major22 h0).trans ?_
  clear hb
  generalize 1#1 ++ c ++ k ++ w ++ i ++ a ++ 0#2 ++ d ++ 69#7 = v at h0 h1 h2 h3 h4 h5 h6 h7 h8 ⊢
  unfold decodeMajor22
  iterate 5 refine skip (fun e => part_ne (s := 28) (l := 4) (p := 3) h1 (by decide) (by decide) e) ?_
  refine take ⟨h1, h2⟩ ?_
  simp only [fA, fB, fW, fK, h3, h4, h6, h7, h8, h5]

theorem RoundTrip.vfaddVv (d : BitVec 5) (a : BitVec 5) (b : BitVec 5) (k : BitVec 3) (w : BitVec 3) : RoundTrip.Statement (.vfaddVv d a b k w) := by
  obtain ⟨h0, h1, h2, h3, h4, h5, h6, hb⟩ := cut_4_3_3_5_5_5_7 0#4 k w b a d 71#7
  refine of32 rfl rfl rfl hb fun hw => (major23 h0).trans ?_
  clear hb
  generalize 0#4 ++ k ++ w ++ b ++ a ++ d ++ 71#7 = v at h0 h1 h2 h3 h4 h5 h6 ⊢
  unfold decodeMajor23
  refine take h1 ?_
  simp only [fD, fA, fB, fW, fK, h2, h3, h4, h5, h6]

theorem RoundTrip.vfaddVs (d : BitVec 5) (a : BitVec 5) (b : BitVec 5) (k : BitVec 3) (w : BitVec 3) : RoundTrip.Statement (.vfaddVs d a b k w) := by
  obtain ⟨h0, h1, h2, h3, h4, h5, h6, hb⟩ := cut_4_3_3_5_5_5_7 0#4 k w b a d 73#7
  refine of32 rfl rfl rfl hb fun hw => (major24 h0).trans ?_
  clear hb
  generalize 0#4 ++ k ++ w ++ b ++ a ++ d ++ 73#7 = v at h0 h1 h2 h3 h4 h5 h6 ⊢
  unfold decodeMajor24
  refine take h1 ?_
  simp only [fD, fA, fB, fW, fK, h2, h3, h4, h5, h6]

theorem RoundTrip.vfsubVv (d : BitVec 5) (a : BitVec 5) (b : BitVec 5) (k : BitVec 3) (w : BitVec 3) : RoundTrip.Statement (.vfsubVv d a b k w) := by
  obtain ⟨h0, h1, h2, h3, h4, h5, h6, hb⟩ := cut_4_3_3_5_5_5_7 1#4 k w b a d 71#7
  refine of32 rfl rfl rfl hb fun hw => (major23 h0).trans ?_
  clear hb
  generalize 1#4 ++ k ++ w ++ b ++ a ++ d ++ 71#7 = v at h0 h1 h2 h3 h4 h5 h6 ⊢
  unfold decodeMajor23
  refine skip (fun e => absurd (h1.symm.trans e) (by decide)) ?_
  refine take h1 ?_
  simp only [fD, fA, fB, fW, fK, h2, h3, h4, h5, h6]

theorem RoundTrip.vfsubVs (d : BitVec 5) (a : BitVec 5) (b : BitVec 5) (k : BitVec 3) (w : BitVec 3) : RoundTrip.Statement (.vfsubVs d a b k w) := by
  obtain ⟨h0, h1, h2, h3, h4, h5, h6, hb⟩ := cut_4_3_3_5_5_5_7 1#4 k w b a d 73#7
  refine of32 rfl rfl rfl hb fun hw => (major24 h0).trans ?_
  clear hb
  generalize 1#4 ++ k ++ w ++ b ++ a ++ d ++ 73#7 = v at h0 h1 h2 h3 h4 h5 h6 ⊢
  unfold decodeMajor24
  refine skip (fun e => absurd (h1.symm.trans e) (by decide)) ?_
  refine take h1 ?_
  simp only [fD, fA, fB, fW, fK, h2, h3, h4, h5, h6]

theorem RoundTrip.vfmulVv (d : BitVec 5) (a : BitVec 5) (b : BitVec 5) (k : BitVec 3) (w : BitVec 3) : RoundTrip.Statement (.vfmulVv d a b k w) := by
  obtain ⟨h0, h1, h2, h3, h4, h5, h6, hb⟩ := cut_4_3_3_5_5_5_7 2#4 k w b a d 71#7
  refine of32 rfl rfl rfl hb fun hw => (major23 h0).trans ?_
  clear hb
  generalize 2#4 ++ k ++ w ++ b ++ a ++ d ++ 71#7 = v at h0 h1 h2 h3 h4 h5 h6 ⊢
  unfold decodeMajor23
  iterate 2 refine skip (fun e => absurd (h1.symm.trans e) (by decide)) ?_
  refine take h1 ?_
  simp only [fD, fA, fB, fW, fK, h2, h3, h4, h5, h6]

theorem RoundTrip.vfmulVs (d : BitVec 5) (a : BitVec 5) (b : BitVec 5) (k : BitVec 3) (w : BitVec 3) : RoundTrip.Statement (.vfmulVs d a b k w) := by
  obtain ⟨h0, h1, h2, h3, h4, h5, h6, hb⟩ := cut_4_3_3_5_5_5_7 2#4 k w b a d 73#7
  refine of32 rfl rfl rfl hb fun hw => (major24 h0).trans ?_
  clear hb
  generalize 2#4 ++ k ++ w ++ b ++ a ++ d ++ 73#7 = v at h0 h1 h2 h3 h4 h5 h6 ⊢
  unfold decodeMajor24
  iterate 2 refine skip (fun e => absurd (h1.symm.trans e) (by decide)) ?_
  refine take h1 ?_
  simp only [fD, fA, fB, fW, fK, h2, h3, h4, h5, h6]

theorem RoundTrip.vfdivVv (d : BitVec 5) (a : BitVec 5) (b : BitVec 5) (k : BitVec 3) (w : BitVec 3) : RoundTrip.Statement (.vfdivVv d a b k w) := by
  obtain ⟨h0, h1, h2, h3, h4, h5, h6, hb⟩ := cut_4_3_3_5_5_5_7 3#4 k w b a d 71#7
  refine of32 rfl rfl rfl hb fun hw => (major23 h0).trans ?_
  clear hb
  generalize 3#4 ++ k ++ w ++ b ++ a ++ d ++ 71#7 = v at h0 h1 h2 h3 h4 h5 h6 ⊢
  unfold decodeMajor23
  iterate 3 refine skip (fun e => absurd (h1.symm.trans e) (by decide)) ?_
  refine take h1 ?_
  simp only [fD, fA, fB, fW, fK, h2, h3, h4, h5, h6]

theorem RoundTrip.vfdivVs (d : BitVec 5) (a : BitVec 5) (b : BitVec 5) (k : BitVec 3) (w : BitVec 3) : RoundTrip.Statement (.vfdivVs d a b k w) := by
  obtain ⟨h0, h1, h2, h3, h4, h5, h6, hb⟩ := cut_4_3_3_5_5_5_7 3#4 k w b a d 73#7
  refine of32 rfl rfl rfl hb fun hw => (major24 h0).trans ?_
  clear hb
  generalize 3#4 ++ k ++ w ++ b ++ a ++ d ++ 73#7 = v at h0 h1 h2 h3 h4 h5 h6 ⊢
  unfold decodeMajor24
  iterate 3 refine skip (fun e => absurd (h1.symm.trans e) (by decide)) ?_
  refine take h1 ?_
  simp only [fD, fA, fB, fW, fK, h2, h3, h4, h5, h6]

theorem RoundTrip.vfmaVv (d : BitVec 5) (a : BitVec 5) (b : BitVec 5) (k : BitVec 3) (w : BitVec 3) : RoundTrip.Statement (.vfmaVv d a b k w) := by
  obtain ⟨h0, h1, h2, h3, h4, h5, h6, hb⟩ := cut_4_3_3_5_5_5_7 4#4 k w b a d 71#7
  refine of32 rfl rfl rfl hb fun hw => (major23 h0).trans ?_
  clear hb
  generalize 4#4 ++ k ++ w ++ b ++ a ++ d ++ 71#7 = v at h0 h1 h2 h3 h4 h5 h6 ⊢
  unfold decodeMajor23
  iterate 4 refine skip (fun e => absurd (h1.symm.trans e) (by decide)) ?_
  refine take h1 ?_
  simp only [fD, fA, fB, fW, fK, h2, h3, h4, h5, h6]

theorem RoundTrip.vfmaVs (d : BitVec 5) (a : BitVec 5) (b : BitVec 5) (k : BitVec 3) (w : BitVec 3) : RoundTrip.Statement (.vfmaVs d a b k w) := by
  obtain ⟨h0, h1, h2, h3, h4, h5, h6, hb⟩ := cut_4_3_3_5_5_5_7 4#4 k w b a d 73#7
  refine of32 rfl rfl rfl hb fun hw => (major24 h0).trans ?_
  clear hb
  generalize 4#4 ++ k ++ w ++ b ++ a ++ d ++ 73#7 = v at h0 h1 h2 h3 h4 h5 h6 ⊢
  unfold decodeMajor24
  iterate 4 refine skip (fun e => absurd (h1.symm.trans e) (by decide)) ?_
  refine take h1 ?_
  simp only [fD, fA, fB, fW, fK, h2, h3, h4, h5, h6]

theorem RoundTrip.vfnmaVv (d : BitVec 5) (a : BitVec 5) (b : BitVec 5) (k : BitVec 3) (w : BitVec 3) : RoundTrip.Statement (.vfnmaVv d a b k w) := by
  obtain ⟨h0, h1, h2, h3, h4, h5, h6, hb⟩ := cut_4_3_3_5_5_5_7 5#4 k w b a d 71#7
  refine of32 rfl rfl rfl hb fun hw => (major23 h0).trans ?_
  clear hb
  generalize 5#4 ++ k ++ w ++ b ++ a ++ d ++ 71#7 = v at h0 h1 h2 h3 h4 h5 h6 ⊢
  unfold decodeMajor23
  iterate 5 refine skip (fun e => absurd (h1.symm.trans e) (by decide)) ?_
  refine take h1 ?_
  simp only [fD, fA, fB, fW, fK, h2, h3, h4, h5, h6]

theorem RoundTrip.vfnmaVs (d : BitVec 5) (a : BitVec 5) (b : BitVec 5) (k : BitVec 3) (w : BitVec 3) : RoundTrip.Statement (.vfnmaVs d a b k w) := by
  obtain ⟨h0, h1, h2, h3, h4, h5, h6, hb⟩ := cut_4_3_3_5_5_5_7 5#4 k w b a d 73#7
  refine of32 rfl rfl rfl hb fun hw => (major24 h0).trans ?_
  clear hb
  generalize 5#4 ++ k ++ w ++ b ++ a ++ d ++ 73#7 = v at h0 h1 h2 h3 h4 h5 h6 ⊢
  unfold decodeMajor24
  iterate 5 refine skip (fun e => absurd (h1.symm.trans e) (by decide)) ?_
  refine take h1 ?_
  simp only [fD, fA, fB, fW, fK, h2, h3, h4, h5, h6]

theorem RoundTrip.vfminVv (d : BitVec 5) (a : BitVec 5) (b : BitVec 5) (k : BitVec 3) (w : BitVec 3) : RoundTrip.Statement (.vfminVv d a b k w) := by
  obtain ⟨h0, h1, h2, h3, h4, h5, h6, hb⟩ := cut_4_3_3_5_5_5_7 6#4 k w b a d 71#7
  refine of32 rfl rfl rfl hb fun hw => (major23 h0).trans ?_
  clear hb
  generalize 6#4 ++ k ++ w ++ b ++ a ++ d ++ 71#7 = v at h0 h1 h2 h3 h4 h5 h6 ⊢
  unfold decodeMajor23
  iterate 6 refine skip (fun e => absurd (h1.symm.trans e) (by decide)) ?_
  refine take h1 ?_
  simp only [fD, fA, fB, fW, fK, h2, h3, h4, h5, h6]

theorem RoundTrip.vfminVs (d : BitVec 5) (a : BitVec 5) (b : BitVec 5) (k : BitVec 3) (w : BitVec 3) : RoundTrip.Statement (.vfminVs d a b k w) := by
  obtain ⟨h0, h1, h2, h3, h4, h5, h6, hb⟩ := cut_4_3_3_5_5_5_7 6#4 k w b a d 73#7
  refine of32 rfl rfl rfl hb fun hw => (major24 h0).trans ?_
  clear hb
  generalize 6#4 ++ k ++ w ++ b ++ a ++ d ++ 73#7 = v at h0 h1 h2 h3 h4 h5 h6 ⊢
  unfold decodeMajor24
  iterate 6 refine skip (fun e => absurd (h1.symm.trans e) (by decide)) ?_
  refine take h1 ?_
  simp only [fD, fA, fB, fW, fK, h2, h3, h4, h5, h6]

theorem RoundTrip.vfmaxVv (d : BitVec 5) (a : BitVec 5) (b : BitVec 5) (k : BitVec 3) (w : BitVec 3) : RoundTrip.Statement (.vfmaxVv d a b k w) := by
  obtain ⟨h0, h1, h2, h3, h4, h5, h6, hb⟩ := cut_4_3_3_5_5_5_7 7#4 k w b a d 71#7
  refine of32 rfl rfl rfl hb fun hw => (major23 h0).trans ?_
  clear hb
  generalize 7#4 ++ k ++ w ++ b ++ a ++ d ++ 71#7 = v at h0 h1 h2 h3 h4 h5 h6 ⊢
  unfold decodeMajor23
  iterate 7 refine skip (fun e => absurd (h1.symm.trans e) (by decide)) ?_
  refine take h1 ?_
  simp only [fD, fA, fB, fW, fK, h2, h3, h4, h5, h6]

theorem RoundTrip.vfmaxVs (d : BitVec 5) (a : BitVec 5) (b : BitVec 5) (k : BitVec 3) (w : BitVec 3) : RoundTrip.Statement (.vfmaxVs d a b k w) := by
  obtain ⟨h0, h1, h2, h3, h4, h5, h6, hb⟩ := cut_4_3_3_5_5_5_7 7#4 k w b a d 73#7
  refine of32 rfl rfl rfl hb fun hw => (major24 h0).trans ?_
  clear hb
  generalize 7#4 ++ k ++ w ++ b ++ a ++ d ++ 73#7 = v at h0 h1 h2 h3 h4 h5 h6 ⊢
  unfold decodeMajor24
  iterate 7 refine skip (fun e => absurd (h1.symm.trans e) (by decide)) ?_
  refine take h1 ?_
  simp only [fD, fA, fB, fW, fK, h2, h3, h4, h5, h6]

theorem RoundTrip.vfsqrt (d : BitVec 5) (a : BitVec 5) (k : BitVec 3) (w : BitVec 3) : RoundTrip.Statement (.vfsqrt d a k w) := by
  obtain ⟨h0, h1, h2, h3, h4, h5, h6, hb⟩ := cut_4_3_3_5_5_5_7 8#4 k w 0#5 a d 71#7
  refine of32 rfl rfl rfl hb fun hw => (major23 h0).trans ?_
  clear hb
  generalize 8#4 ++ k ++ w ++ 0#5 ++ a ++ d ++ 71#7 = v at h0 h1 h2 h3 h4 h5 h6 ⊢
  unfold decodeMajor23
  iterate 8 refine skip (fun e => absurd (h1.symm.trans e) (by decide)) ?_
  refine take ⟨h1, h4⟩ ?_
  simp only [fD, fA, fW, fK, h2, h3, h5, h6]

theorem RoundTrip.vfexp2 (d : BitVec 5) (a : BitVec 5) (k : BitVec 3) (w : BitVec 3) : RoundTrip.Statement (.vfexp2 d a k w) := by
  obtain ⟨h0, h1, h2, h3, h4, h5, h6, hb⟩ := cut_4_3_3_5_5_5_7 9#4 k w 0#5 a d 71#7
  refine of32 rfl rfl rfl hb fun hw => (major23 h0).trans ?_
  clear hb
  generalize 9#4 ++ k ++ w ++ 0#5 ++ a ++ d ++ 71#7 = v at h0 h1 h2 h3 h4 h5 h6 ⊢
  unfold decodeMajor23
  iterate 8 refine skip (fun e => absurd (h1.symm.trans e) (by decide)) ?_
  refine skip (fun e => absurd (h1.symm.trans e.1) (by decide)) ?_
  refine take ⟨h1, h4⟩ ?_
  simp only [fD, fA, fW, fK, h2, h3, h5, h6]

theorem RoundTrip.vflog2 (d : BitVec 5) (a : BitVec 5) (k : BitVec 3) (w : BitVec 3) : RoundTrip.Statement (.vflog2 d a k w) := by
  obtain ⟨h0, h1, h2, h3, h4, h5, h6, hb⟩ := cut_4_3_3_5_5_5_7 10#4 k w 0#5 a d 71#7
  refine of32 rfl rfl rfl hb fun hw => (major23 h0).trans ?_
  clear hb
  generalize 10#4 ++ k ++ w ++ 0#5 ++ a ++ d ++ 71#7 = v at h0 h1 h2 h3 h4 h5 h6 ⊢
  unfold decodeMajor23
  iterate 8 refine skip (fun e => absurd (h1.symm.trans e) (by decide)) ?_
  iterate 2 refine skip (fun e => absurd (h1.symm.trans e.1) (by decide)) ?_
  refine take ⟨h1, h4⟩ ?_
  simp only [fD, fA, fW, fK, h2, h3, h5, h6]

theorem RoundTrip.vfrece (d : BitVec 5) (a : BitVec 5) (k : BitVec 3) (w : BitVec 3) : RoundTrip.Statement (.vfrece d a k w) := by
  obtain ⟨h0, h1, h2, h3, h4, h5, h6, hb⟩ := cut_4_3_3_5_5_5_7 11#4 k w 0#5 a d 71#7
  refine of32 rfl rfl rfl hb fun hw => (major23 h0).trans ?_
  clear hb
  generalize 11#4 ++ k ++ w ++ 0#5 ++ a ++ d ++ 71#7 = v at h0 h1 h2 h3 h4 h5 h6 ⊢
  unfold decodeMajor23
  iterate 8 refine skip (fun e => absurd (h1.symm.trans e) (by decide)) ?_
  iterate 3 refine skip (fun e => absurd (h1.symm.trans e.1) (by decide)) ?_
  refine take ⟨h1, h4⟩ ?_
  simp only [fD, fA, fW, fK, h2, h3, h5, h6]

theorem RoundTrip.vfrsqe (d : BitVec 5) (a : BitVec 5) (k : BitVec 3) (w : BitVec 3) : RoundTrip.Statement (.vfrsqe d a k w) := by
  obtain ⟨h0, h1, h2, h3, h4, h5, h6, hb⟩ := cut_4_3_3_5_5_5_7 12#4 k w 0#5 a d 71#7
  refine of32 rfl rfl rfl hb fun hw => (major23 h0).trans ?_
  clear hb
  generalize 12#4 ++ k ++ w ++ 0#5 ++ a ++ d ++ 71#7 = v at h0 h1 h2 h3 h4 h5 h6 ⊢
  unfold decodeMajor23
  iterate 8 refine skip (fun e => absurd (h1.symm.trans e) (by decide)) ?_
  iterate 4 refine skip (fun e => absurd (h1.symm.trans e.1) (by decide)) ?_
  refine take ⟨h1, h4⟩ ?_
  simp only [fD, fA, fW, fK, h2, h3, h5, h6]

theorem RoundTrip.vfcvt (d : BitVec 5) (a : BitVec 5) (k : BitVec 3) (w : BitVec 3) (c : BitVec 5) : RoundTrip.Statement (.vfcvt d a k w c) := by
  obtain ⟨h0, h1, h2, h3, h4, h5, h6, hb⟩ := cut_4_3_3_5_5_5_7 13#4 k w c a d 71#7
  refine of32 rfl rfl rfl hb fun hw => (major23 h0).trans ?_
  clear hb
  generalize 13#4 ++ k ++ w ++ c ++ a ++ d ++ 71#7 = v at h0 h1 h2 h3 h4 h5 h6 ⊢
  unfold decodeMajor23
  iterate 8 refine skip (fun e => absurd (h1.symm.trans e) (by decide)) ?_
  iterate 5 refine skip (fun e => absurd (h1.symm.trans e.1) (by decide)) ?_
  refine take h1 ?_
  simp only [fD, fA, fB, fW, fK, h2, h3, h5, h6, h4]

theorem RoundTrip.vfcvt4 (d : BitVec 5) (a : BitVec 5) (b : BitVec 5) (w : BitVec 3) : RoundTrip.Statement (.vfcvt4 d a b w) := by
  obtain ⟨h0, h1, h2, h3, h4, h5, _, h7, hb⟩ := cut_7_3_5_5_5_7 112#7 w b a d 71#7
  replace h7 : _ = 14#4 := h7
  refine of32 rfl rfl rfl hb fun hw => (major23 h0).trans ?_
  clear hb
  generalize 112#7 ++ w ++ b ++ a ++ d ++ 71#7 = v at h0 h1 h2 h3 h4 h5 h7 ⊢
  unfold decodeMajor23
  iterate 8 refine skip (fun e => absurd (h7.symm.trans e) (by decide)) ?_
  iterate 5 refine skip (fun e => absurd (h7.symm.trans e.1) (by decide)) ?_
  refine skip (fun e => absurd (h7.symm.trans e) (by decide)) ?_
  refine take h1 ?_
  simp only [fD, fA, fB, fW, h2, h3, h4, h5]

theorem RoundTrip.vfcmpVv (d : BitVec 3) (a : BitVec 5) (b : BitVec 5) (k : BitVec 3) (w : BitVec 3) (c : BitVec 2) : RoundTrip.Statement (.vfcmpVv d a b k w c) := by
  obtain ⟨h0, h1, h2, h3, h4, h5, h6, h7, hb⟩ := cut_4_3_3_5_5_2_3_7 15#4 k w b a c d 71#7
  refine of32 rfl rfl rfl hb fun hw => (major23 h0).trans ?_
  clear hb
  generalize 15#4 ++ k ++ w ++ b ++ a ++ c ++ d ++ 71#7 = v at h0 h1 h2 h3 h4 h5 h6 h7 ⊢
  unfold decodeMajor23
  iterate 8 refine skip (fun e => absurd (h1.symm.trans e) (by decide)) ?_
  iterate 5 refine skip (fun e => absurd (h1.symm.trans e.1) (by decide)) ?_
  refine skip (fun e => absurd (h1.symm.trans e) (by decide)) ?_
  refine skip (fun e => part_ne (s := 25) (l := 7) (p := 3) h1 (by decide) (by decide) e) ?_
  refine take h1 ?_
  simp only [fA, fB, fW, fK, h2, h3, h4, h5, h6, h7]

theorem RoundTrip.vfcmpVs (d : BitVec 3) (a : BitVec 5) (b : BitVec 5) (k : BitVec 3) (w : BitVec 3) (c : BitVec 2) : RoundTrip.Statement (.vfcmpVs d a b k w c) := by
  obtain ⟨h0, h1, h2, h3, h4, h5, h6, h7, hb⟩ := cut_4_3_3_5_5_2_3_7 15#4 k w b a c d 73#7
  refine of32 rfl rfl rfl hb fun hw => (major24 h0).trans ?_
  clear hb
  generalize 15#4 ++ k ++ w ++ b ++ a ++ c ++ d ++ 73#7 = v at h0 h1 h2 h3 h4 h5 h6 h7 ⊢
  unfold decodeMajor24
  iterate 8 refine skip (fun e => absurd (h1.symm.trans e) (by decide)) ?_
  refine take h1 ?_
  simp only [fA, fB, fW, fK, h2, h3, h4, h5, h6, h7]

theorem RoundTrip.vrsum (d : BitVec 5) (a : BitVec 5) (k : BitVec 3) (w : BitVec 3) (s : BitVec 3) : RoundTrip.Statement (.vrsum d a k w s) := by
  obtain ⟨h0, h1, h2, h3, h4, h5, h6, h7, hb⟩ := cut_4_3_3_2_3_5_5_7 0#4 k w 0#2 s a d 75#7
  refine of32 rfl rfl rfl hb fun hw => (major25 h0).trans ?_
  clear hb
  generalize 0#4 ++ k ++ w ++ 0#2 ++ s ++ a ++ d ++ 75#7 = v at h0 h1 h2 h3 h4 h5 h6 h7 ⊢
  unfold decodeMajor25
  refine take ⟨h1, h2⟩ ?_
  simp only [fD, fA, fW, fK, h3, h4, h5, h6, h7]

theorem RoundTrip.vrmax (d : BitVec 5) (a : BitVec 5) (k : BitVec 3) (w : BitVec 3) (s : BitVec 3) : RoundTrip.Statement (.vrmax d a k w s) := by
  obtain ⟨h0, h1, h2, h3, h4, h5, h6, h7, hb⟩ := cut_4_3_3_2_3_5_5_7 1#4 k w 0#2 s a d 75#7
  refine of32 rfl rfl rfl hb fun hw => (major25 h0).trans ?_
  clear hb
  generalize 1#4 ++ k ++ w ++ 0#2 ++ s ++ a ++ d ++ 75#7 = v at h0 h1 h2 h3 h4 h5 h6 h7 ⊢
  unfold decodeMajor25
  refine skip (fun e => absurd (h1.symm.trans e.1) (by decide)) ?_
  refine take ⟨h1, h2⟩ ?_
  simp only [fD, fA, fW, fK, h3, h4, h5, h6, h7]

theorem RoundTrip.vrmin (d : BitVec 5) (a : BitVec 5) (k : BitVec 3) (w : BitVec 3) (s : BitVec 3) : RoundTrip.Statement (.vrmin d a k w s) := by
  obtain ⟨h0, h1, h2, h3, h4, h5, h6, h7, hb⟩ := cut_4_3_3_2_3_5_5_7 2#4 k w 0#2 s a d 75#7
  refine of32 rfl rfl rfl hb fun hw => (major25 h0).trans ?_
  clear hb
  generalize 2#4 ++ k ++ w ++ 0#2 ++ s ++ a ++ d ++ 75#7 = v at h0 h1 h2 h3 h4 h5 h6 h7 ⊢
  unfold decodeMajor25
  iterate 2 refine skip (fun e => absurd (h1.symm.trans e.1) (by decide)) ?_
  refine take ⟨h1, h2⟩ ?_
  simp only [fD, fA, fW, fK, h3, h4, h5, h6, h7]

theorem RoundTrip.vrfsum (d : BitVec 5) (a : BitVec 5) (k : BitVec 3) (w : BitVec 3) (s : BitVec 3) : RoundTrip.Statement (.vrfsum d a k w s) := by
  obtain ⟨h0, h1, h2, h3, h4, h5, h6, h7, hb⟩ := cut_4_3_3_2_3_5_5_7 3#4 k w 0#2 s a d 75#7
  refine of32 rfl rfl rfl hb fun hw => (major25 h0).trans ?_
  clear hb
  generalize 3#4 ++ k ++ w ++ 0#2 ++ s ++ a ++ d ++ 75#7 = v at h0 h1 h2 h3 h4 h5 h6 h7 ⊢
  unfold decodeMajor25
  iterate 3 refine skip (fun e => absurd (h1.symm.trans e.1) (by decide)) ?_
  refine take ⟨h1, h2⟩ ?_
  simp only [fD, fA, fW, fK, h3, h4, h5, h6, h7]

theorem RoundTrip.vrfmax (d : BitVec 5) (a : BitVec 5) (k : BitVec 3) (w : BitVec 3) (s : BitVec 3) : RoundTrip.Statement (.vrfmax d a k w s) := by
  obtain ⟨h0, h1, h2, h3, h4, h5, h6, h7, hb⟩ := cut_4_3_3_2_3_5_5_7 4#4 k w 0#2 s a d 75#7
  refine of32 rfl rfl rfl hb fun hw => (major25 h0).trans ?_
  clear hb
  generalize 4#4 ++ k ++ w ++ 0#2 ++ s ++ a ++ d ++ 75#7 = v at h0 h1 h2 h3 h4 h5 h6 h7 ⊢
  unfold decodeMajor25
  iterate 4 refine skip (fun e => absurd (h1.symm.trans e.1) (by decide)) ?_
  refine take ⟨h1, h2⟩ ?_
  simp only [fD, fA, fW, fK, h3, h4, h5, h6, h7]

theorem RoundTrip.vscan (d : BitVec 5) (a : BitVec 5) (k : BitVec 3) (w : BitVec 3) (e : BitVec 1) (s : BitVec 3) : RoundTrip.Statement (.vscan d a k w e s) := by
  obtain ⟨h0, h1, h2, h3, h4, h5, h6, h7, h8, hb⟩ := cut_4_3_3_1_1_3_5_5_7 5#4 k w 0#1 e s a d 75#7
  refine of32 rfl rfl rfl hb fun hw => (major25 h0).trans ?_
  clear hb
  generalize 5#4 ++ k ++ w ++ 0#1 ++ e ++ s ++ a ++ d ++ 75#7 = v at h0 h1 h2 h3 h4 h5 h6 h7 h8 ⊢
  unfold decodeMajor25
  iterate 5 refine skip (fun e => absurd (h1.symm.trans e.1) (by decide)) ?_
  refine take ⟨h1, h2⟩ ?_
  simp only [fD, fA, fW, fK, h3, h4, h5, h6, h7, h8]

theorem RoundTrip.vfscan (d : BitVec 5) (a : BitVec 5) (k : BitVec 3) (w : BitVec 3) (e : BitVec 1) (s : BitVec 3) : RoundTrip.Statement (.vfscan d a k w e s) := by
  obtain ⟨h0, h1, h2, h3, h4, h5, h6, h7, h8, hb⟩ := cut_4_3_3_1_1_3_5_5_7 6#4 k w 0#1 e s a d 75#7
  refine of32 rfl rfl rfl hb fun hw => (major25 h0).trans ?_
  clear hb
  generalize 6#4 ++ k ++ w ++ 0#1 ++ e ++ s ++ a ++ d ++ 75#7 = v at h0 h1 h2 h3 h4 h5 h6 h7 h8 ⊢
  unfold decodeMajor25
  iterate 6 refine skip (fun e => absurd (h1.symm.trans e.1) (by decide)) ?_
  refine take ⟨h1, h2⟩ ?_
  simp only [fD, fA, fW, fK, h3, h4, h5, h6, h7, h8]

theorem RoundTrip.vsmax (d : BitVec 5) (a : BitVec 5) (b : BitVec 5) (k : BitVec 3) (w : BitVec 3) : RoundTrip.Statement (.vsmax d a b k w) := by
  obtain ⟨h0, h1, h2, h3, h4, h5, h6, hb⟩ := cut_4_3_3_5_5_5_7 7#4 k w b a d 75#7
  refine of32 rfl rfl rfl hb fun hw => (major25 h0).trans ?_
  clear hb
  generalize 7#4 ++ k ++ w ++ b ++ a ++ d ++ 75#7 = v at h0 h1 h2 h3 h4 h5 h6 ⊢
  unfold decodeMajor25
  iterate 7 refine skip (fun e => absurd (h1.symm.trans e.1) (by decide)) ?_
  refine take h1 ?_
  simp only [fD, fA, fB, fW, fK, h2, h3, h4, h5, h6]

theorem RoundTrip.vslup (d : BitVec 5) (a : BitVec 5) (b : BitVec 5) (k : BitVec 3) (w : BitVec 3) : RoundTrip.Statement (.vslup d a b k w) := by
  obtain ⟨h0, h1, h2, h3, h4, h5, h6, hb⟩ := cut_4_3_3_5_5_5_7 8#4 k w b a d 75#7
  refine of32 rfl rfl rfl hb fun hw => (major25 h0).trans ?_
  clear hb
  generalize 8#4 ++ k ++ w ++ b ++ a ++ d ++ 75#7 = v at h0 h1 h2 h3 h4 h5 h6 ⊢
  unfold decodeMajor25
  iterate 7 refine skip (fun e => absurd (h1.symm.trans e.1) (by decide)) ?_
  refine skip (fun e => absurd (h1.symm.trans e) (by decide)) ?_
  refine take h1 ?_
  simp only [fD, fA, fB, fW, fK, h2, h3, h4, h5, h6]

theorem RoundTrip.vsldn (d : BitVec 5) (a : BitVec 5) (b : BitVec 5) (k : BitVec 3) (w : BitVec 3) : RoundTrip.Statement (.vsldn d a b k w) := by
  obtain ⟨h0, h1, h2, h3, h4, h5, h6, hb⟩ := cut_4_3_3_5_5_5_7 9#4 k w b a d 75#7
  refine of32 rfl rfl rfl hb fun hw => (major25 h0).trans ?_
  clear hb
  generalize 9#4 ++ k ++ w ++ b ++ a ++ d ++ 75#7 = v at h0 h1 h2 h3 h4 h5 h6 ⊢
  unfold decodeMajor25
  iterate 7 refine skip (fun e => absurd (h1.symm.trans e.1) (by decide)) ?_
  iterate 2 refine skip (fun e => absurd (h1.symm.trans e) (by decide)) ?_
  refine take h1 ?_
  simp only [fD, fA, fB, fW, fK, h2, h3, h4, h5, h6]

theorem RoundTrip.vrgat (d : BitVec 5) (a : BitVec 5) (b : BitVec 5) (k : BitVec 3) (w : BitVec 3) : RoundTrip.Statement (.vrgat d a b k w) := by
  obtain ⟨h0, h1, h2, h3, h4, h5, h6, hb⟩ := cut_4_3_3_5_5_5_7 10#4 k w b a d 75#7
  refine of32 rfl rfl rfl hb fun hw => (major25 h0).trans ?_
  clear hb
  generalize 10#4 ++ k ++ w ++ b ++ a ++ d ++ 75#7 = v at h0 h1 h2 h3 h4 h5 h6 ⊢
  unfold decodeMajor25
  iterate 7 refine skip (fun e => absurd (h1.symm.trans e.1) (by decide)) ?_
  iterate 3 refine skip (fun e => absurd (h1.symm.trans e) (by decide)) ?_
  refine take h1 ?_
  simp only [fD, fA, fB, fW, fK, h2, h3, h4, h5, h6]

theorem RoundTrip.vcomp (d : BitVec 5) (a : BitVec 5) (b : BitVec 5) (w : BitVec 3) : RoundTrip.Statement (.vcomp d a b w) := by
  obtain ⟨h0, h1, h2, h3, h4, h5, _, h7, hb⟩ := cut_7_3_5_5_5_7 88#7 w b a d 75#7
  replace h7 : _ = 11#4 := h7
  refine of32 rfl rfl rfl hb fun hw => (major25 h0).trans ?_
  clear hb
  generalize 88#7 ++ w ++ b ++ a ++ d ++ 75#7 = v at h0 h1 h2 h3 h4 h5 h7 ⊢
  unfold decodeMajor25
  iterate 7 refine skip (fun e => absurd (h7.symm.trans e.1) (by decide)) ?_
  iterate 4 refine skip (fun e => absurd (h7.symm.trans e) (by decide)) ?_
  refine take h1 ?_
  simp only [fD, fA, fB, fW, h2, h3, h4, h5]

theorem RoundTrip.viota (d : BitVec 5) (a : BitVec 3) (k : BitVec 3) (w : BitVec 3) : RoundTrip.Statement (.viota d a k w) := by
  obtain ⟨h0, h1, h2, h3, h4, h5, h6, hb⟩ := cut_4_3_3_7_3_5_7 12#4 k w 0#7 a d 75#7
  refine of32 rfl rfl rfl hb fun hw => (major25 h0).trans ?_
  clear hb
  generalize 12#4 ++ k ++ w ++ 0#7 ++ a ++ d ++ 75#7 = v at h0 h1 h2 h3 h4 h5 h6 ⊢
  unfold decodeMajor25
  iterate 7 refine skip (fun e => absurd (h1.symm.trans e.1) (by decide)) ?_
  iterate 4 refine skip (fun e => absurd (h1.symm.trans e) (by decide)) ?_
  refine skip (fun e => part_ne (s := 25) (l := 7) (p := 3) h1 (by decide) (by decide) e) ?_
  refine take ⟨h1, h2⟩ ?_
  simp only [fD, fW, fK, h3, h4, h5, h6]

theorem RoundTrip.vextr (d : BitVec 5) (a : BitVec 5) (b : BitVec 5) (w : BitVec 3) : RoundTrip.Statement (.vextr d a b w) := by
  obtain ⟨h0, h1, h2, h3, h4, h5, _, h7, hb⟩ := cut_7_3_5_5_5_7 104#7 w b a d 75#7
  replace h7 : _ = 13#4 := h7
  refine of32 rfl rfl rfl hb fun hw => (major25 h0).trans ?_
  clear hb
  generalize 104#7 ++ w ++ b ++ a ++ d ++ 75#7 = v at h0 h1 h2 h3 h4 h5 h7 ⊢
  unfold decodeMajor25
  iterate 7 refine skip (fun e => absurd (h7.symm.trans e.1) (by decide)) ?_
  iterate 4 refine skip (fun e => absurd (h7.symm.trans e) (by decide)) ?_
  refine skip (fun e => absurd (h1.symm.trans e) (by decide)) ?_
  refine skip (fun e => absurd (h7.symm.trans e.1) (by decide)) ?_
  refine take h1 ?_
  simp only [fD, fA, fB, fW, h2, h3, h4, h5]

theorem RoundTrip.vins (d : BitVec 5) (a : BitVec 5) (b : BitVec 5) (w : BitVec 3) : RoundTrip.Statement (.vins d a b w) := by
  obtain ⟨h0, h1, h2, h3, h4, h5, _, h7, hb⟩ := cut_7_3_5_5_5_7 112#7 w b a d 75#7
  replace h7 : _ = 14#4 := h7
  refine of32 rfl rfl rfl hb fun hw => (major25 h0).trans ?_
  clear hb
  generalize 112#7 ++ w ++ b ++ a ++ d ++ 75#7 = v at h0 h1 h2 h3 h4 h5 h7 ⊢
  unfold decodeMajor25
  iterate 7 refine skip (fun e => absurd (h7.symm.trans e.1) (by decide)) ?_
  iterate 4 refine skip (fun e => absurd (h7.symm.trans e) (by decide)) ?_
  refine skip (fun e => absurd (h1.symm.trans e) (by decide)) ?_
  refine skip (fun e => absurd (h7.symm.trans e.1) (by decide)) ?_
  refine skip (fun e => absurd (h1.symm.trans e) (by decide)) ?_
  refine take h1 ?_
  simp only [fD, fA, fB, fW, h2, h3, h4, h5]

theorem RoundTrip.kand (d : BitVec 3) (a : BitVec 3) (b : BitVec 3) (w : BitVec 3) : RoundTrip.Statement (.kand d a b w) := by
  obtain ⟨h0, h1, h2, h3, h4, h5, h6, h7, h8, hb⟩ := cut_7_3_2_3_2_3_2_3_7 0#7 w 0#2 b 0#2 a 0#2 d 77#7
  refine of32 rfl rfl rfl hb fun hw => (major26 h0).trans ?_
  clear hb
  generalize 0#7 ++ w ++ 0#2 ++ b ++ 0#2 ++ a ++ 0#2 ++ d ++ 77#7 = v at h0 h1 h2 h3 h4 h5 h6 h7 h8 ⊢
  unfold decodeMajor26
  refine take ⟨h1, h2, h3, h4⟩ ?_
  simp only [fW, h5, h6, h7, h8]

theorem RoundTrip.kor (d : BitVec 3) (a : BitVec 3) (b : BitVec 3) (w : BitVec 3) : RoundTrip.Statement (.kor d a b w) := by
  obtain ⟨h0, h1, h2, h3, h4, h5, h6, h7, h8, hb⟩ := cut_7_3_2_3_2_3_2_3_7 8#7 w 0#2 b 0#2 a 0#2 d 77#7
  refine of32 rfl rfl rfl hb fun hw => (major26 h0).trans ?_
  clear hb
  generalize 8#7 ++ w ++ 0#2 ++ b ++ 0#2 ++ a ++ 0#2 ++ d ++ 77#7 = v at h0 h1 h2 h3 h4 h5 h6 h7 h8 ⊢
  unfold decodeMajor26
  refine skip (fun e => absurd (h1.symm.trans e.1) (by decide)) ?_
  refine take ⟨h1, h2, h3, h4⟩ ?_
  simp only [fW, h5, h6, h7, h8]

theorem RoundTrip.kxor (d : BitVec 3) (a : BitVec 3) (b : BitVec 3) (w : BitVec 3) : RoundTrip.Statement (.kxor d a b w) := by
  obtain ⟨h0, h1, h2, h3, h4, h5, h6, h7, h8, hb⟩ := cut_7_3_2_3_2_3_2_3_7 16#7 w 0#2 b 0#2 a 0#2 d 77#7
  refine of32 rfl rfl rfl hb fun hw => (major26 h0).trans ?_
  clear hb
  generalize 16#7 ++ w ++ 0#2 ++ b ++ 0#2 ++ a ++ 0#2 ++ d ++ 77#7 = v at h0 h1 h2 h3 h4 h5 h6 h7 h8 ⊢
  unfold decodeMajor26
  iterate 2 refine skip (fun e => absurd (h1.symm.trans e.1) (by decide)) ?_
  refine take ⟨h1, h2, h3, h4⟩ ?_
  simp only [fW, h5, h6, h7, h8]

theorem RoundTrip.kandn (d : BitVec 3) (a : BitVec 3) (b : BitVec 3) (w : BitVec 3) : RoundTrip.Statement (.kandn d a b w) := by
  obtain ⟨h0, h1, h2, h3, h4, h5, h6, h7, h8, hb⟩ := cut_7_3_2_3_2_3_2_3_7 24#7 w 0#2 b 0#2 a 0#2 d 77#7
  refine of32 rfl rfl rfl hb fun hw => (major26 h0).trans ?_
  clear hb
  generalize 24#7 ++ w ++ 0#2 ++ b ++ 0#2 ++ a ++ 0#2 ++ d ++ 77#7 = v at h0 h1 h2 h3 h4 h5 h6 h7 h8 ⊢
  unfold decodeMajor26
  iterate 3 refine skip (fun e => absurd (h1.symm.trans e.1) (by decide)) ?_
  refine take ⟨h1, h2, h3, h4⟩ ?_
  simp only [fW, h5, h6, h7, h8]

theorem RoundTrip.knot (d : BitVec 3) (a : BitVec 3) (w : BitVec 3) : RoundTrip.Statement (.knot d a w) := by
  obtain ⟨h0, h1, h2, h3, h4, h5, h6, _, hb⟩ := cut_7_3_7_3_2_3_7 32#7 w 0#7 a 0#2 d 77#7
  refine of32 rfl rfl rfl hb fun hw => (major26 h0).trans ?_
  clear hb
  generalize 32#7 ++ w ++ 0#7 ++ a ++ 0#2 ++ d ++ 77#7 = v at h0 h1 h2 h3 h4 h5 h6 ⊢
  unfold decodeMajor26
  iterate 4 refine skip (fun e => absurd (h1.symm.trans e.1) (by decide)) ?_
  refine take ⟨h1, h2, h3⟩ ?_
  simp only [fW, h4, h5, h6]

theorem RoundTrip.kffs (d : BitVec 5) (a : BitVec 3) (k : BitVec 3) (w : BitVec 3) : RoundTrip.Statement (.kffs d a k w) := by
  obtain ⟨h0, h1, h2, h3, h4, h5, h6, hb⟩ := cut_4_3_3_7_3_5_7 5#4 k w 0#7 a d 77#7
  refine of32 rfl rfl rfl hb fun hw => (major26 h0).trans ?_
  clear hb
  generalize 5#4 ++ k ++ w ++ 0#7 ++ a ++ d ++ 77#7 = v at h0 h1 h2 h3 h4 h5 h6 ⊢
  unfold decodeMajor26
  iterate 5 refine skip (fun e => part_ne (s := 25) (l := 7) (p := 3) h1 (by decide) (by decide) e.1) ?_
  refine take ⟨h1, h2⟩ ?_
  simp only [fD, fW, fK, h3, h4, h5, h6]

theorem RoundTrip.kpopc (d : BitVec 5) (a : BitVec 3) (k : BitVec 3) (w : BitVec 3) : RoundTrip.Statement (.kpopc d a k w) := by
  obtain ⟨h0, h1, h2, h3, h4, h5, h6, hb⟩ := cut_4_3_3_7_3_5_7 6#4 k w 0#7 a d 77#7
  refine of32 rfl rfl rfl hb fun hw => (major26 h0).trans ?_
  clear hb
  generalize 6#4 ++ k ++ w ++ 0#7 ++ a ++ d ++ 77#7 = v at h0 h1 h2 h3 h4 h5 h6 ⊢
  unfold decodeMajor26
  iterate 5 refine skip (fun e => part_ne (s := 25) (l := 7) (p := 3) h1 (by decide) (by decide) e.1) ?_
  refine skip (fun e => absurd (h1.symm.trans e.1) (by decide)) ?_
  refine take ⟨h1, h2⟩ ?_
  simp only [fD, fW, fK, h3, h4, h5, h6]

theorem RoundTrip.kset (d : BitVec 3) (a : BitVec 5) (w : BitVec 3) : RoundTrip.Statement (.kset d a w) := by
  obtain ⟨h0, h1, h2, h3, h4, h5, h6, h7, hb⟩ := cut_7_3_5_5_2_3_7 56#7 w 0#5 a 0#2 d 77#7
  replace h2 : _ = 7#4 := h2
  refine of32 rfl rfl rfl hb fun hw => (major26 h0).trans ?_
  clear hb
  generalize 56#7 ++ w ++ 0#5 ++ a ++ 0#2 ++ d ++ 77#7 = v at h0 h1 h2 h3 h4 h5 h6 h7 ⊢
  unfold decodeMajor26
  iterate 5 refine skip (fun e => absurd (h1.symm.trans e.1) (by decide)) ?_
  iterate 2 refine skip (fun e => absurd (h2.symm.trans e.1) (by decide)) ?_
  refine take ⟨h1, h3, h4⟩ ?_
  simp only [fA, fW, h5, h6, h7]

theorem RoundTrip.kmv (d : BitVec 3) (a : BitVec 3) (w : BitVec 3) : RoundTrip.Statement (.kmv d a w) := by
  obtain ⟨h0, h1, h2, h3, h4, h5, h6, h7, hb⟩ := cut_7_3_7_3_2_3_7 64#7 w 0#7 a 0#2 d 77#7
  replace h7 : _ = 8#4 := h7
  refine of32 rfl rfl rfl hb fun hw => (major26 h0).trans ?_
  clear hb
  generalize 64#7 ++ w ++ 0#7 ++ a ++ 0#2 ++ d ++ 77#7 = v at h0 h1 h2 h3 h4 h5 h6 h7 ⊢
  unfold decodeMajor26
  iterate 5 refine skip (fun e => absurd (h1.symm.trans e.1) (by decide)) ?_
  iterate 2 refine skip (fun e => absurd (h7.symm.trans e.1) (by decide)) ?_
  refine skip (fun e => absurd (h1.symm.trans e.1) (by decide)) ?_
  refine take ⟨h1, h2, h3⟩ ?_
  simp only [fW, h4, h5, h6]

theorem RoundTrip.cAdd (p : BitVec 5) : RoundTrip.Statement (.cAdd p) := by
  obtain ⟨h0, h1, h2, hb⟩ := cut_5_5_6 0#5 p 2#6
  refine of16 rfl rfl rfl hb ?_
  replace h0 : _ = 1#5 := h0
  unfold decode16
  rw [h0]
  simp only [BitVec.reduceToNat, h1, h2]
  rfl

theorem RoundTrip.cSub (p : BitVec 5) : RoundTrip.Statement (.cSub p) := by
  obtain ⟨h0, h1, h2, hb⟩ := cut_5_5_6 0#5 p 4#6
  refine of16 rfl rfl rfl hb ?_
  replace h0 : _ = 2#5 := h0
  unfold decode16
  rw [h0]
  simp only [BitVec.reduceToNat, h1, h2]
  rfl

theorem RoundTrip.cAnd (p : BitVec 5) : RoundTrip.Statement (.cAnd p) := by
  obtain ⟨h0, h1, h2, hb⟩ := cut_5_5_6 0#5 p 6#6
  refine of16 rfl rfl rfl hb ?_
  replace h0 : _ = 3#5 := h0
  unfold decode16
  rw [h0]
  simp only [BitVec.reduceToNat, h1, h2]
  rfl

theorem RoundTrip.cOr (p : BitVec 5) : RoundTrip.Statement (.cOr p) := by
  obtain ⟨h0, h1, h2, hb⟩ := cut_5_5_6 0#5 p 8#6
  refine of16 rfl rfl rfl hb ?_
  replace h0 : _ = 4#5 := h0
  unfold decode16
  rw [h0]
  simp only [BitVec.reduceToNat, h1, h2]
  rfl

theorem RoundTrip.cXor (p : BitVec 5) : RoundTrip.Statement (.cXor p) := by
  obtain ⟨h0, h1, h2, hb⟩ := cut_5_5_6 0#5 p 10#6
  refine of16 rfl rfl rfl hb ?_
  replace h0 : _ = 5#5 := h0
  unfold decode16
  rw [h0]
  simp only [BitVec.reduceToNat, h1, h2]
  rfl

theorem RoundTrip.cMul (p : BitVec 5) : RoundTrip.Statement (.cMul p) := by
  obtain ⟨h0, h1, h2, hb⟩ := cut_5_5_6 0#5 p 12#6
  refine of16 rfl rfl rfl hb ?_
  replace h0 : _ = 6#5 := h0
  unfold decode16
  rw [h0]
  simp only [BitVec.reduceToNat, h1, h2]
  rfl

theorem RoundTrip.cAddi (i : BitVec 10) : RoundTrip.Statement (.cAddi i) := by
  obtain ⟨h0, h1, hb⟩ := cut_10_6 i 14#6
  refine of16 rfl rfl rfl hb ?_
  replace h0 : _ = 7#5 := h0
  unfold decode16
  rw [h0]
  simp only [BitVec.reduceToNat, h1]

theorem RoundTrip.cLi (i : BitVec 10) : RoundTrip.Statement (.cLi i) := by
  obtain ⟨h0, h1, hb⟩ := cut_10_6 i 16#6
  refine of16 rfl rfl rfl hb ?_
  replace h0 : _ = 8#5 := h0
  unfold decode16
  rw [h0]
  simp only [BitVec.reduceToNat, h1]

theorem RoundTrip.cSlli (s : BitVec 5) : RoundTrip.Statement (.cSlli s) := by
  obtain ⟨h0, h1, h2, hb⟩ := cut_5_11 s 18#11
  refine of16 rfl rfl rfl hb ?_
  replace h1 : _ = 0#5 := h1
  replace h0 : _ = 9#5 := h0
  unfold decode16
  rw [h0]
  simp only [BitVec.reduceToNat, h1, h2]
  rfl

theorem RoundTrip.cSrli (s : BitVec 5) : RoundTrip.Statement (.cSrli s) := by
  obtain ⟨h0, h1, h2, hb⟩ := cut_5_11 s 20#11
  refine of16 rfl rfl rfl hb ?_
  replace h1 : _ = 0#5 := h1
  replace h0 : _ = 10#5 := h0
  unfold decode16
  rw [h0]
  simp only [BitVec.reduceToNat, h1, h2]
  rfl

theorem RoundTrip.cSrai (s : BitVec 5) : RoundTrip.Statement (.cSrai s) := by
  obtain ⟨h0, h1, h2, hb⟩ := cut_5_11 s 22#11
  refine of16 rfl rfl rfl hb ?_
  replace h1 : _ = 0#5 := h1
  replace h0 : _ = 11#5 := h0
  unfold decode16
  rw [h0]
  simp only [BitVec.reduceToNat, h1, h2]
  rfl

theorem RoundTrip.cMv (p : BitVec 5) : RoundTrip.Statement (.cMv p) := by
  obtain ⟨h0, h1, h2, hb⟩ := cut_5_5_6 0#5 p 24#6
  refine of16 rfl rfl rfl hb ?_
  replace h0 : _ = 12#5 := h0
  unfold decode16
  rw [h0]
  simp only [BitVec.reduceToNat, h1, h2]
  rfl

theorem RoundTrip.cMin (p : BitVec 5) : RoundTrip.Statement (.cMin p) := by
  obtain ⟨h0, h1, h2, hb⟩ := cut_5_5_6 0#5 p 26#6
  refine of16 rfl rfl rfl hb ?_
  replace h0 : _ = 13#5 := h0
  unfold decode16
  rw [h0]
  simp only [BitVec.reduceToNat, h1, h2]
  rfl

theorem RoundTrip.cMax (p : BitVec 5) : RoundTrip.Statement (.cMax p) := by
  obtain ⟨h0, h1, h2, hb⟩ := cut_5_5_6 0#5 p 28#6
  refine of16 rfl rfl rfl hb ?_
  replace h0 : _ = 14#5 := h0
  unfold decode16
  rw [h0]
  simp only [BitVec.reduceToNat, h1, h2]
  rfl

theorem RoundTrip.cVadd (p : BitVec 5) : RoundTrip.Statement (.cVadd p) := by
  obtain ⟨h0, h1, h2, hb⟩ := cut_5_5_6 0#5 p 32#6
  refine of16 rfl rfl rfl hb ?_
  replace h0 : _ = 16#5 := h0
  unfold decode16
  rw [h0]
  simp only [BitVec.reduceToNat, h1, h2]
  rfl

theorem RoundTrip.cVsub (p : BitVec 5) : RoundTrip.Statement (.cVsub p) := by
  obtain ⟨h0, h1, h2, hb⟩ := cut_5_5_6 0#5 p 34#6
  refine of16 rfl rfl rfl hb ?_
  replace h0 : _ = 17#5 := h0
  unfold decode16
  rw [h0]
  simp only [BitVec.reduceToNat, h1, h2]
  rfl

theorem RoundTrip.cVand (p : BitVec 5) : RoundTrip.Statement (.cVand p) := by
  obtain ⟨h0, h1, h2, hb⟩ := cut_5_5_6 0#5 p 36#6
  refine of16 rfl rfl rfl hb ?_
  replace h0 : _ = 18#5 := h0
  unfold decode16
  rw [h0]
  simp only [BitVec.reduceToNat, h1, h2]
  rfl

theorem RoundTrip.cVor (p : BitVec 5) : RoundTrip.Statement (.cVor p) := by
  obtain ⟨h0, h1, h2, hb⟩ := cut_5_5_6 0#5 p 38#6
  refine of16 rfl rfl rfl hb ?_
  replace h0 : _ = 19#5 := h0
  unfold decode16
  rw [h0]
  simp only [BitVec.reduceToNat, h1, h2]
  rfl

theorem RoundTrip.cVxor (p : BitVec 5) : RoundTrip.Statement (.cVxor p) := by
  obtain ⟨h0, h1, h2, hb⟩ := cut_5_5_6 0#5 p 40#6
  refine of16 rfl rfl rfl hb ?_
  replace h0 : _ = 20#5 := h0
  unfold decode16
  rw [h0]
  simp only [BitVec.reduceToNat, h1, h2]
  rfl

theorem RoundTrip.cVmul (p : BitVec 5) : RoundTrip.Statement (.cVmul p) := by
  obtain ⟨h0, h1, h2, hb⟩ := cut_5_5_6 0#5 p 42#6
  refine of16 rfl rfl rfl hb ?_
  replace h0 : _ = 21#5 := h0
  unfold decode16
  rw [h0]
  simp only [BitVec.reduceToNat, h1, h2]
  rfl

theorem RoundTrip.cVmacc (q : BitVec 5) (p : BitVec 5) : RoundTrip.Statement (.cVmacc q p) := by
  obtain ⟨h0, h1, h2, hb⟩ := cut_5_5_6 q p 44#6
  refine of16 rfl rfl rfl hb ?_
  replace h0 : _ = 22#5 := h0
  unfold decode16
  rw [h0]
  simp only [BitVec.reduceToNat, h1, h2]

theorem RoundTrip.cVadds (p : BitVec 5) : RoundTrip.Statement (.cVadds p) := by
  obtain ⟨h0, h1, h2, hb⟩ := cut_5_5_6 0#5 p 46#6
  refine of16 rfl rfl rfl hb ?_
  replace h0 : _ = 23#5 := h0
  unfold decode16
  rw [h0]
  simp only [BitVec.reduceToNat, h1, h2]
  rfl

theorem RoundTrip.cVmuls (p : BitVec 5) : RoundTrip.Statement (.cVmuls p) := by
  obtain ⟨h0, h1, h2, hb⟩ := cut_5_5_6 0#5 p 48#6
  refine of16 rfl rfl rfl hb ?_
  replace h0 : _ = 24#5 := h0
  unfold decode16
  rw [h0]
  simp only [BitVec.reduceToNat, h1, h2]
  rfl

theorem RoundTrip.cVfadd (p : BitVec 5) : RoundTrip.Statement (.cVfadd p) := by
  obtain ⟨h0, h1, h2, hb⟩ := cut_5_5_6 0#5 p 50#6
  refine of16 rfl rfl rfl hb ?_
  replace h0 : _ = 25#5 := h0
  unfold decode16
  rw [h0]
  simp only [BitVec.reduceToNat, h1, h2]
  rfl

theorem RoundTrip.cVfmul (p : BitVec 5) : RoundTrip.Statement (.cVfmul p) := by
  obtain ⟨h0, h1, h2, hb⟩ := cut_5_5_6 0#5 p 52#6
  refine of16 rfl rfl rfl hb ?_
  replace h0 : _ = 26#5 := h0
  unfold decode16
  rw [h0]
  simp only [BitVec.reduceToNat, h1, h2]
  rfl

theorem RoundTrip.cVfma (q : BitVec 5) (p : BitVec 5) : RoundTrip.Statement (.cVfma q p) := by
  obtain ⟨h0, h1, h2, hb⟩ := cut_5_5_6 q p 54#6
  refine of16 rfl rfl rfl hb ?_
  replace h0 : _ = 27#5 := h0
  unfold decode16
  rw [h0]
  simp only [BitVec.reduceToNat, h1, h2]

theorem RoundTrip.cVfmas (q : BitVec 5) (p : BitVec 5) : RoundTrip.Statement (.cVfmas q p) := by
  obtain ⟨h0, h1, h2, hb⟩ := cut_5_5_6 q p 56#6
  refine of16 rfl rfl rfl hb ?_
  replace h0 : _ = 28#5 := h0
  unfold decode16
  rw [h0]
  simp only [BitVec.reduceToNat, h1, h2]

theorem RoundTrip.cVfadds (p : BitVec 5) : RoundTrip.Statement (.cVfadds p) := by
  obtain ⟨h0, h1, h2, hb⟩ := cut_5_5_6 0#5 p 58#6
  refine of16 rfl rfl rfl hb ?_
  replace h0 : _ = 29#5 := h0
  unfold decode16
  rw [h0]
  simp only [BitVec.reduceToNat, h1, h2]
  rfl

theorem RoundTrip.vnld (d : BitVec 5) (a : BitVec 5) (b : BitVec 5) (q : BitVec 1) (l : BitVec 1) : RoundTrip.Statement (.vnld d a b q l) := by
  obtain ⟨h0, h1, h2, h3, h4, h5, h6, h7, hb⟩ := cut_4_1_1_4_5_5_5_7 0#4 q l 0#4 b a d 81#7
  refine of32 rfl rfl rfl hb fun hw => (major28 h0).trans ?_
  clear hb
  generalize 0#4 ++ q ++ l ++ 0#4 ++ b ++ a ++ d ++ 81#7 = v at h0 h1 h2 h3 h4 h5 h6 h7 ⊢
  unfold decodeMajor28
  refine take ⟨h1, h2⟩ ?_
  simp only [fD, fA, fB, h3, h4, h5, h6, h7]

theorem RoundTrip.vnst (d : BitVec 5) (a : BitVec 5) (b : BitVec 5) (r : BitVec 1) : RoundTrip.Statement (.vnst d a b r) := by
  obtain ⟨h0, h1, h2, h3, h4, h5, h6, hb⟩ := cut_4_1_5_5_5_5_7 1#4 r 0#5 b a d 81#7
  refine of32 rfl rfl rfl hb fun hw => (major28 h0).trans ?_
  clear hb
  generalize 1#4 ++ r ++ 0#5 ++ b ++ a ++ d ++ 81#7 = v at h0 h1 h2 h3 h4 h5 h6 ⊢
  unfold decodeMajor28
  refine skip (fun e => absurd (h1.symm.trans e.1) (by decide)) ?_
  refine take ⟨h1, h2⟩ ?_
  simp only [fD, fA, fB, h3, h4, h5, h6]

theorem RoundTrip.vnldv (d : BitVec 5) (a : BitVec 5) (b : BitVec 5) (k : BitVec 3) (q : BitVec 1) : RoundTrip.Statement (.vnldv d a b k q) := by
  obtain ⟨h0, h1, h2, h3, h4, h5, h6, h7, hb⟩ := cut_4_3_1_2_5_5_5_7 2#4 k q 0#2 b a d 81#7
  refine of32 rfl rfl rfl hb fun hw => (major28 h0).trans ?_
  clear hb
  generalize 2#4 ++ k ++ q ++ 0#2 ++ b ++ a ++ d ++ 81#7 = v at h0 h1 h2 h3 h4 h5 h6 h7 ⊢
  unfold decodeMajor28
  iterate 2 refine skip (fun e => absurd (h1.symm.trans e.1) (by decide)) ?_
  refine take ⟨h1, h2⟩ ?_
  simp only [fD, fA, fB, fK, h3, h4, h5, h6, h7]

theorem RoundTrip.vnstv (d : BitVec 5) (a : BitVec 5) (b : BitVec 5) (k : BitVec 3) (r : BitVec 1) : RoundTrip.Statement (.vnstv d a b k r) := by
  obtain ⟨h0, h1, h2, h3, h4, h5, h6, h7, hb⟩ := cut_4_3_1_2_5_5_5_7 3#4 k r 0#2 b a d 81#7
  refine of32 rfl rfl rfl hb fun hw => (major28 h0).trans ?_
  clear hb
  generalize 3#4 ++ k ++ r ++ 0#2 ++ b ++ a ++ d ++ 81#7 = v at h0 h1 h2 h3 h4 h5 h6 h7 ⊢
  unfold decodeMajor28
  iterate 3 refine skip (fun e => absurd (h1.symm.trans e.1) (by decide)) ?_
  refine take ⟨h1, h2⟩ ?_
  simp only [fD, fA, fB, fK, h3, h4, h5, h6, h7]

theorem RoundTrip.vnqry (d : BitVec 5) (a : BitVec 5) (s : BitVec 2) : RoundTrip.Statement (.vnqry d a s) := by
  obtain ⟨h0, h1, h2, h3, h4, h5, hb⟩ := cut_4_2_9_5_5_7 0#4 s 0#9 a d 83#7
  refine of32 rfl rfl rfl hb fun hw => (major29 h0).trans ?_
  clear hb
  generalize 0#4 ++ s ++ 0#9 ++ a ++ d ++ 83#7 = v at h0 h1 h2 h3 h4 h5 ⊢
  unfold decodeMajor29
  refine take ⟨h1, h2⟩ ?_
  simp only [fD, fA, h3, h4, h5]

theorem RoundTrip.vndrop (a : BitVec 5) (b : BitVec 5) : RoundTrip.Statement (.vndrop a b) := by
  obtain ⟨h0, h1, h2, h3, h4, h5, hb⟩ := cut_10_5_5_12 64#10 b a 83#12
  replace h1 : _ = 1#4 := h1
  replace h3 : _ = 0#5 := h3
  refine of32 rfl rfl rfl hb fun hw => (major29 h0).trans ?_
  clear hb
  generalize 64#10 ++ b ++ a ++ 83#12 = v at h0 h1 h2 h3 h4 h5 ⊢
  unfold decodeMajor29
  refine skip (fun e => absurd (h1.symm.trans e.1) (by decide)) ?_
  refine take ⟨h2, h3⟩ ?_
  simp only [fA, fB, h4, h5]

theorem RoundTrip.vnopen (d : BitVec 5) (a : BitVec 5) (b : BitVec 5) : RoundTrip.Statement (.vnopen d a b) := by
  obtain ⟨h0, h1, h2, h3, h4, h5, hb⟩ := cut_10_5_5_5_7 128#10 b a d 83#7
  replace h1 : _ = 2#4 := h1
  refine of32 rfl rfl rfl hb fun hw => (major29 h0).trans ?_
  clear hb
  generalize 128#10 ++ b ++ a ++ d ++ 83#7 = v at h0 h1 h2 h3 h4 h5 ⊢
  unfold decodeMajor29
  refine skip (fun e => absurd (h1.symm.trans e.1) (by decide)) ?_
  refine skip (fun e => absurd (h2.symm.trans e.1) (by decide)) ?_
  refine take h2 ?_
  simp only [fD, fA, fB, h3, h4, h5]

theorem RoundTrip.vnclose (d : BitVec 5) (a : BitVec 5) : RoundTrip.Statement (.vnclose d a) := by
  obtain ⟨h0, h1, h2, h3, h4, h5, hb⟩ := cut_15_5_5_7 6144#15 a d 83#7
  replace h1 : _ = 192#10 := h1
  replace h5 : _ = 3#4 := h5
  refine of32 rfl rfl rfl hb fun hw => (major29 h0).trans ?_
  clear hb
  generalize 6144#15 ++ a ++ d ++ 83#7 = v at h0 h1 h2 h3 h4 h5 ⊢
  unfold decodeMajor29
  refine skip (fun e => absurd (h5.symm.trans e.1) (by decide)) ?_
  refine skip (fun e => absurd (h1.symm.trans e.1) (by decide)) ?_
  refine skip (fun e => absurd (h1.symm.trans e) (by decide)) ?_
  refine take h2 ?_
  simp only [fD, fA, h3, h4]

theorem RoundTrip.versionReclaim (r : BitVec 6) (x : Nat) : RoundTrip.Statement (.versionReclaim r x) := nothing rfl rfl rfl

theorem RoundTrip.versionHeapFree (r : BitVec 6) : RoundTrip.Statement (.versionHeapFree r) := nothing rfl rfl rfl

theorem RoundTrip.vfullWatchdog (r : BitVec 6) (i : Nat) : RoundTrip.Statement (.vfullWatchdog r i) := nothing rfl rfl rfl

theorem RoundTrip.strm (a : BitVec 5) (b : BitVec 5) (q : BitVec 4) : RoundTrip.Statement (.strm a b q) := by
  obtain ⟨h0, h1, h2, h3, h4, h5, h6, hb⟩ := cut_4_4_2_5_5_12 0#4 q 0#2 b a 89#12
  replace h3 : _ = 0#5 := h3
  refine of32 rfl rfl rfl hb fun hw => (major2C h0).trans ?_
  clear hb
  generalize 0#4 ++ q ++ 0#2 ++ b ++ a ++ 89#12 = v at h0 h1 h2 h3 h4 h5 h6 ⊢
  unfold decodeMajor2C
  refine take ⟨h1, h2, h3⟩ ?_
  simp only [fA, fB, h4, h5, h6]

theorem RoundTrip.sqwait (q : BitVec 4) : RoundTrip.Statement (.sqwait q) := by
  obtain ⟨h0, h1, h2, h3, hb⟩ := cut_4_4_24 1#4 q 89#24
  replace h2 : _ = 0#17 := h2
  refine of32 rfl rfl rfl hb fun hw => (major2C h0).trans ?_
  clear hb
  generalize 1#4 ++ q ++ 89#24 = v at h0 h1 h2 h3 ⊢
  unfold decodeMajor2C
  refine skip (fun e => absurd (h1.symm.trans e.1) (by decide)) ?_
  refine take ⟨h1, h2⟩ ?_
  simp only [h3]

theorem RoundTrip.sqstat (d : BitVec 5) (q : BitVec 4) (s : BitVec 3) : RoundTrip.Statement (.sqstat d q s) := by
  obtain ⟨h0, h1, h2, h3, h4, h5, hb⟩ := cut_4_4_3_9_5_7 2#4 q s 0#9 d 89#7
  refine of32 rfl rfl rfl hb fun hw => (major2C h0).trans ?_
  clear hb
  generalize 2#4 ++ q ++ s ++ 0#9 ++ d ++ 89#7 = v at h0 h1 h2 h3 h4 h5 ⊢
  unfold decodeMajor2C
  iterate 2 refine skip (fun e => absurd (h1.symm.trans e.1) (by decide)) ?_
  refine take ⟨h1, h2⟩ ?_
  simp only [fD, h3, h4, h5]

theorem RoundTrip.sqwaitDrained (c : Nat) : RoundTrip.Statement (.sqwaitDrained c) := nothing rfl rfl rfl

theorem RoundTrip.streamProgramStart (t : TaskKey) (q : BitVec 4) : RoundTrip.Statement (.streamProgramStart t q) := nothing rfl rfl rfl

theorem RoundTrip.streamStallResume (x : Nat) : RoundTrip.Statement (.streamStallResume x) := nothing rfl rfl rfl

theorem RoundTrip.deliverySpaceReady (x : Nat) : RoundTrip.Statement (.deliverySpaceReady x) := nothing rfl rfl rfl

theorem RoundTrip.sdesc (d : BitVec 4) (a : BitVec 4) (o : BitVec 46) : RoundTrip.Statement (.sdesc d a o) := by
  refine ofCommand rfl rfl rfl fun hw => ?_
  obtain ⟨h0, h1, h2, h3, h4⟩ := command 1 d a 0 o
  unfold decodeCommand
  simp only [h0, h1, h2, h3, h4, BitVec.reduceToNat]
  exact slot h1 hw rfl

theorem RoundTrip.stile (d : BitVec 4) (a : BitVec 4) (b : BitVec 4) (cols : BitVec 12) (rows : BitVec 12) (o0 : BitVec 11) (o1 : BitVec 11) : RoundTrip.Statement (.stile d a b cols rows o0 o1) := by
  refine ofCommand rfl rfl rfl fun hw => ?_
  obtain ⟨h0, h1, h2, h3, h4⟩ := command 2 d a b (cols ++ rows ++ o0 ++ o1)
  unfold decodeCommand
  simp only [h0, h1, h2, h3, h4, BitVec.reduceToNat]
  simp (disch := decide) only [field_low, field_high, field_all, Nat.reduceSub]
  exact slot h1 hw rfl

theorem RoundTrip.sgath (d : BitVec 4) (a : BitVec 4) (b : BitVec 4) (n : BitVec 12) (iw : BitVec 2) : RoundTrip.Statement (.sgath d a b n iw) := by
  refine ofCommand rfl rfl rfl fun hw => ?_
  obtain ⟨h0, h1, h2, h3, h4⟩ := command 3 d a b (n ++ iw ++ 0#32)
  unfold decodeCommand
  simp only [h0, h1, h2, h3, h4, BitVec.reduceToNat]
  simp (disch := decide) only [field_low, field_high, field_all, Nat.reduceSub]
  exact slot h1 (Bool.and_eq_true _ _ ▸ hw).1 rfl

theorem RoundTrip.sscat (d : BitVec 4) (a : BitVec 4) (b : BitVec 4) (n : BitVec 12) (iw : BitVec 2) : RoundTrip.Statement (.sscat d a b n iw) := by
  refine ofCommand rfl rfl rfl fun hw => ?_
  obtain ⟨h0, h1, h2, h3, h4⟩ := command 4 d a b (n ++ iw ++ 0#32)
  unfold decodeCommand
  simp only [h0, h1, h2, h3, h4, BitVec.reduceToNat]
  simp (disch := decide) only [field_low, field_high, field_all, Nat.reduceSub]
  exact slot h1 (Bool.and_eq_true _ _ ▸ hw).1 rfl

theorem RoundTrip.sconv (f : BitVec 5) (t : BitVec 5) (wd : BitVec 6) (rm : BitVec 3) (sat : BitVec 1) : RoundTrip.Statement (.sconv f t wd rm sat) := by
  refine ofCommand rfl rfl rfl fun hw => ?_
  obtain ⟨h0, h1, h2, h3, h4⟩ := command 5 0 0 0 (f ++ t ++ wd ++ rm ++ sat ++ 0#26)
  unfold decodeCommand
  simp only [h0, h1, h2, h3, h4, BitVec.reduceToNat]
  simp (disch := decide) only [field_low, field_high, field_all, Nat.reduceSub]
  rfl

theorem RoundTrip.sfill (b : BitVec 4) (m : BitVec 46) : RoundTrip.Statement (.sfill b m) := by
  refine ofCommand rfl rfl rfl fun hw => ?_
  obtain ⟨h0, h1, h2, h3, h4⟩ := command 6 0 0 b m
  unfold decodeCommand
  simp only [h0, h1, h2, h3, h4, BitVec.reduceToNat]
  rfl

theorem RoundTrip.sloop (d : BitVec 4) (a : BitVec 4) (r : BitVec 1) (n : BitVec 32) : RoundTrip.Statement (.sloop d a r n) := by
  refine ofCommand rfl rfl rfl fun hw => ?_
  obtain ⟨h0, h1, h2, h3, h4⟩ := command 7 d a 0 (r ++ 0#13 ++ n)
  unfold decodeCommand
  simp only [h0, h1, h2, h3, h4, BitVec.reduceToNat]
  simp (disch := decide) only [field_low, field_high, field_all, Nat.reduceSub]
  rcases one_bit r with rfl | rfl
  · cases (of_decide_eq_true hw : a = 0); rfl
  · cases (of_decide_eq_true hw : n = 0); rfl

theorem RoundTrip.snext (d : BitVec 4) : RoundTrip.Statement (.snext d) := by
  refine ofCommand rfl rfl rfl fun hw => ?_
  obtain ⟨h0, h1, h2, h3, h4⟩ := command 8 d 0 0 0
  unfold decodeCommand
  simp only [h0, h1, h2, h3, h4, BitVec.reduceToNat]
  rfl

theorem RoundTrip.swaitv (a : BitVec 4) (b : BitVec 4) (o : BitVec 46) : RoundTrip.Statement (.swaitv a b o) := by
  refine ofCommand rfl rfl rfl fun hw => ?_
  obtain ⟨h0, h1, h2, h3, h4⟩ := command 9 0 a b o
  unfold decodeCommand
  simp only [h0, h1, h2, h3, h4, BitVec.reduceToNat]
  rfl

theorem RoundTrip.sver (d : BitVec 4) (a : BitVec 4) (b : BitVec 4) (o : BitVec 46) : RoundTrip.Statement (.sver d a b o) := by
  refine ofCommand rfl rfl rfl fun hw => ?_
  obtain ⟨h0, h1, h2, h3, h4⟩ := command 10 d a b o
  unfold decodeCommand
  simp only [h0, h1, h2, h3, h4, BitVec.reduceToNat]


theorem RoundTrip.ssig (a : BitVec 4) (b : BitVec 4) (o : BitVec 46) : RoundTrip.Statement (.ssig a b o) := by
  refine ofCommand rfl rfl rfl fun hw => ?_
  obtain ⟨h0, h1, h2, h3, h4⟩ := command 11 0 a b o
  unfold decodeCommand
  simp only [h0, h1, h2, h3, h4, BitVec.reduceToNat]
  rfl

theorem RoundTrip.sfence (s : BitVec 2) : RoundTrip.Statement (.sfence s) := by
  refine ofCommand rfl rfl rfl fun hw => ?_
  obtain ⟨h0, h1, h2, h3, h4⟩ := command 12 0 0 0 (0#44 ++ s)
  unfold decodeCommand
  simp only [h0, h1, h2, h3, h4, BitVec.reduceToNat]
  simp (disch := decide) only [field_low, field_high, field_all, Nat.reduceSub]
  rfl

theorem RoundTrip.send  : RoundTrip.Statement (.send) := by
  refine ofCommand rfl rfl rfl fun hw => ?_
  obtain ⟨h0, h1, h2, h3, h4⟩ := command 13 0 0 0 0
  unfold decodeCommand
  simp only [h0, h1, h2, h3, h4, BitVec.reduceToNat]
  rfl

theorem RoundTrip.mzero (d : BitVec 3) : RoundTrip.Statement (.mzero d) := by
  obtain ⟨h0, h1, h2, _, hb⟩ := cut_22_3_7 0#22 d 97#7
  refine of32 rfl rfl rfl hb fun hw => (major30 h0).trans ?_
  clear hb
  generalize 0#22 ++ d ++ 97#7 = v at h0 h1 h2 ⊢
  unfold decodeMajor30
  refine take h1 ?_
  simp only [h2]

theorem RoundTrip.mlda (a : BitVec 5) (b : BitVec 5) (f : BitVec 2) : RoundTrip.Statement (.mlda a b f) := by
  obtain ⟨h0, h1, h2, h3, h4, h5, h6, hb⟩ := cut_4_2_4_5_5_12 1#4 f 0#4 b a 97#12
  replace h3 : _ = 0#5 := h3
  refine of32 rfl rfl rfl hb fun hw => (major30 h0).trans ?_
  clear hb
  generalize 1#4 ++ f ++ 0#4 ++ b ++ a ++ 97#12 = v at h0 h1 h2 h3 h4 h5 h6 ⊢
  unfold decodeMajor30
  refine skip (fun e => part_ne (s := 10) (l := 22) (p := 18) h1 (by decide) (by decide) e) ?_
  refine take ⟨h1, h2, h3⟩ ?_
  simp only [fA, fB, h4, h5, h6]

theorem RoundTrip.mldb (a : BitVec 5) (f : BitVec 3) (u : BitVec 1) : RoundTrip.Statement (.mldb a f u) := by
  obtain ⟨h0, h1, h2, h3, h4, h5, h6, hb⟩ := cut_4_3_1_7_5_12 2#4 f u 0#7 a 97#12
  replace h3 : _ = 0#5 := h3
  refine of32 rfl rfl rfl hb fun hw => (major30 h0).trans ?_
  clear hb
  generalize 2#4 ++ f ++ u ++ 0#7 ++ a ++ 97#12 = v at h0 h1 h2 h3 h4 h5 h6 ⊢
  unfold decodeMajor30
  refine skip (fun e => part_ne (s := 10) (l := 22) (p := 18) h1 (by decide) (by decide) e) ?_
  refine skip (fun e => absurd (h1.symm.trans e.1) (by decide)) ?_
  refine take ⟨h1, h2, h3⟩ ?_
  simp only [fA, fK, h4, h5, h6]

theorem RoundTrip.mma (d : BitVec 3) : RoundTrip.Statement (.mma d) := by
  obtain ⟨h0, h1, h2, h3, hb⟩ := cut_22_3_7 786432#22 d 97#7
  replace h3 : _ = 3#4 := h3
  refine of32 rfl rfl rfl hb fun hw => (major30 h0).trans ?_
  clear hb
  generalize 786432#22 ++ d ++ 97#7 = v at h0 h1 h2 h3 ⊢
  unfold decodeMajor30
  refine skip (fun e => absurd (h1.symm.trans e) (by decide)) ?_
  iterate 2 refine skip (fun e => absurd (h3.symm.trans e.1) (by decide)) ?_
  refine take h1 ?_
  simp only [h2]

theorem RoundTrip.mrsc (d : BitVec 3) (a : BitVec 5) (m : BitVec 1) : RoundTrip.Statement (.mrsc d a m) := by
  obtain ⟨h0, h1, h2, h3, h4, h5, h6, hb⟩ := cut_4_1_10_5_2_3_7 4#4 m 0#10 a 0#2 d 97#7
  refine of32 rfl rfl rfl hb fun hw => (major30 h0).trans ?_
  clear hb
  generalize 4#4 ++ m ++ 0#10 ++ a ++ 0#2 ++ d ++ 97#7 = v at h0 h1 h2 h3 h4 h5 h6 ⊢
  unfold decodeMajor30
  refine skip (fun e => part_ne (s := 10) (l := 22) (p := 18) h1 (by decide) (by decide) e) ?_
  iterate 2 refine skip (fun e => absurd (h1.symm.trans e.1) (by decide)) ?_
  refine skip (fun e => part_ne (s := 10) (l := 22) (p := 18) h1 (by decide) (by decide) e) ?_
  refine take ⟨h1, h2, h3⟩ ?_
  simp only [fA, h4, h5, h6]

theorem RoundTrip.mstr (d : BitVec 3) (a : BitVec 5) (b : BitVec 5) (f : BitVec 3) : RoundTrip.Statement (.mstr d a b f) := by
  obtain ⟨h0, h1, h2, h3, h4, h5, h6, h7, hb⟩ := cut_4_3_3_5_5_2_3_7 5#4 f 0#3 b a 0#2 d 97#7
  refine of32 rfl rfl rfl hb fun hw => (major30 h0).trans ?_
  clear hb
  generalize 5#4 ++ f ++ 0#3 ++ b ++ a ++ 0#2 ++ d ++ 97#7 = v at h0 h1 h2 h3 h4 h5 h6 h7 ⊢
  unfold decodeMajor30
  refine skip (fun e => part_ne (s := 10) (l := 22) (p := 18) h1 (by decide) (by decide) e) ?_
  iterate 2 refine skip (fun e => absurd (h1.symm.trans e.1) (by decide)) ?_
  refine skip (fun e => part_ne (s := 10) (l := 22) (p := 18) h1 (by decide) (by decide) e) ?_
  refine skip (fun e => absurd (h1.symm.trans e.1) (by decide)) ?_
  refine take ⟨h1, h6, h7⟩ ?_
  simp only [fA, fB, fK, h2, h3, h4, h5]

theorem RoundTrip.mmovvToV (d : BitVec 5) (a : BitVec 3) (q : BitVec 4) : RoundTrip.Statement (.mmovvToV d a q) := by
  obtain ⟨h0, h1, h2, h3, h4, h5, h6, hb⟩ := cut_5_4_8_3_5_7 12#5 q 0#8 a d 97#7
  replace h2 : _ = 6#4 := h2
  refine of32 rfl rfl rfl hb fun hw => (major30 h0).trans ?_
  clear hb
  generalize 12#5 ++ q ++ 0#8 ++ a ++ d ++ 97#7 = v at h0 h1 h2 h3 h4 h5 h6 ⊢
  unfold decodeMajor30
  refine skip (fun e => part_ne (s := 10) (l := 22) (p := 17) h1 (by decide) (by decide) e) ?_
  iterate 2 refine skip (fun e => absurd (h2.symm.trans e.1) (by decide)) ?_
  refine skip (fun e => part_ne (s := 10) (l := 22) (p := 17) h1 (by decide) (by decide) e) ?_
  iterate 2 refine skip (fun e => absurd (h2.symm.trans e.1) (by decide)) ?_
  refine take ⟨h1, h3⟩ ?_
  simp only [fD, h4, h5, h6]

theorem RoundTrip.mmovvToT (d : BitVec 3) (a : BitVec 5) (q : BitVec 4) : RoundTrip.Statement (.mmovvToT d a q) := by
  obtain ⟨h0, h1, h2, h3, h4, h5, h6, h7, hb⟩ := cut_5_4_6_5_2_3_7 13#5 q 0#6 a 0#2 d 97#7
  replace h2 : _ = 6#4 := h2
  refine of32 rfl rfl rfl hb fun hw => (major30 h0).trans ?_
  clear hb
  generalize 13#5 ++ q ++ 0#6 ++ a ++ 0#2 ++ d ++ 97#7 = v at h0 h1 h2 h3 h4 h5 h6 h7 ⊢
  unfold decodeMajor30
  refine skip (fun e => part_ne (s := 10) (l := 22) (p := 17) h1 (by decide) (by decide) e) ?_
  iterate 2 refine skip (fun e => absurd (h2.symm.trans e.1) (by decide)) ?_
  refine skip (fun e => part_ne (s := 10) (l := 22) (p := 17) h1 (by decide) (by decide) e) ?_
  iterate 2 refine skip (fun e => absurd (h2.symm.trans e.1) (by decide)) ?_
  refine skip (fun e => absurd (h1.symm.trans e.1) (by decide)) ?_
  refine take ⟨h1, h3, h4⟩ ?_
  simp only [fA, h5, h6, h7]

theorem RoundTrip.tenq (d : BitVec 5) (a : BitVec 5) : RoundTrip.Statement (.tenq d a) := by
  obtain ⟨h0, _, h2, h3, h4, _, hb⟩ := cut_15_5_5_7 0#15 a d 109#7
  refine of32 rfl rfl rfl hb fun hw => (major36 h0).trans ?_
  clear hb
  generalize 0#15 ++ a ++ d ++ 109#7 = v at h0 h2 h3 h4 ⊢
  unfold decodeMajor36
  refine take h2 ?_
  simp only [fD, fA, h3, h4]

theorem RoundTrip.targ (d : BitVec 5) (a : BitVec 5) : RoundTrip.Statement (.targ d a) := by
  obtain ⟨h0, _, h2, h3, h4, _, hb⟩ := cut_15_5_5_7 2048#15 a d 109#7
  refine of32 rfl rfl rfl hb fun hw => (major36 h0).trans ?_
  clear hb
  generalize 2048#15 ++ a ++ d ++ 109#7 = v at h0 h2 h3 h4 ⊢
  unfold decodeMajor36
  refine skip (fun e => absurd (h2.symm.trans e) (by decide)) ?_
  refine take h2 ?_
  simp only [fD, fA, h3, h4]

theorem RoundTrip.tyld : RoundTrip.Statement .tyld := of32 rfl rfl rfl rfl fun _ => (major36 rfl).trans rfl
theorem RoundTrip.tself (d : BitVec 5) (s : BitVec 2) : RoundTrip.Statement (.tself d s) := by
  obtain ⟨h0, h1, h2, h3, h4, hb⟩ := cut_4_2_14_5_7 3#4 s 0#14 d 109#7
  refine of32 rfl rfl rfl hb fun hw => (major36 h0).trans ?_
  clear hb
  generalize 3#4 ++ s ++ 0#14 ++ d ++ 109#7 = v at h0 h1 h2 h3 h4 ⊢
  unfold decodeMajor36
  iterate 2 refine skip (fun e => part_ne (s := 17) (l := 15) (p := 11) h1 (by decide) (by decide) e) ?_
  refine skip (fun e => part_ne (s := 7) (l := 25) (p := 21) h1 (by decide) (by decide) e) ?_
  refine take ⟨h1, h2⟩ ?_
  simp only [fD, h3, h4]

theorem RoundTrip.tend : RoundTrip.Statement .tend := of32 rfl rfl rfl rfl fun _ => (major36 rfl).trans rfl
theorem RoundTrip.npost (d : BitVec 5) (a : BitVec 5) : RoundTrip.Statement (.npost d a) := by
  obtain ⟨h0, _, h2, h3, h4, _, hb⟩ := cut_15_5_5_7 0#15 a d 111#7
  refine of32 rfl rfl rfl hb fun hw => (major37 h0).trans ?_
  clear hb
  generalize 0#15 ++ a ++ d ++ 111#7 = v at h0 h2 h3 h4 ⊢
  unfold decodeMajor37
  refine take h2 ?_
  simp only [fD, fA, h3, h4]

theorem RoundTrip.nwait (d : BitVec 5) (a : BitVec 5) (b : BitVec 5) : RoundTrip.Statement (.nwait d a b) := by
  obtain ⟨h0, _, h2, h3, h4, h5, hb⟩ := cut_10_5_5_5_7 64#10 b a d 111#7
  refine of32 rfl rfl rfl hb fun hw => (major37 h0).trans ?_
  clear hb
  generalize 64#10 ++ b ++ a ++ d ++ 111#7 = v at h0 h2 h3 h4 h5 ⊢
  unfold decodeMajor37
  refine skip (fun e => part_ne (s := 17) (l := 15) (p := 5) h2 (by decide) (by decide) e) ?_
  refine take h2 ?_
  simp only [fD, fA, fB, h3, h4, h5]

theorem RoundTrip.encj (d : BitVec 5) (a : BitVec 5) : RoundTrip.Statement (.encj d a) := by
  obtain ⟨h0, h1, h2, h3, h4, _, hb⟩ := cut_15_5_5_7 4096#15 a d 111#7
  replace h1 : _ = 128#10 := h1
  refine of32 rfl rfl rfl hb fun hw => (major37 h0).trans ?_
  clear hb
  generalize 4096#15 ++ a ++ d ++ 111#7 = v at h0 h1 h2 h3 h4 ⊢
  unfold decodeMajor37
  refine skip (fun e => absurd (h2.symm.trans e) (by decide)) ?_
  refine skip (fun e => absurd (h1.symm.trans e) (by decide)) ?_
  refine take h2 ?_
  simp only [fD, fA, h3, h4]

theorem RoundTrip.nwaitSatisfied (c : Nat) : RoundTrip.Statement (.nwaitSatisfied c) := nothing rfl rfl rfl

theorem RoundTrip.netRequestComplete (i : Nat) (ok : Bool) : RoundTrip.Statement (.netRequestComplete i ok) := nothing rfl rfl rfl

theorem RoundTrip.netPacketReceive (p : Packet) : RoundTrip.Statement (.netPacketReceive p) := nothing rfl rfl rfl

theorem RoundTrip.encJobStart (e : Nat) : RoundTrip.Statement (.encJobStart e) := nothing rfl rfl rfl

theorem RoundTrip.encJobComplete (e : Nat) : RoundTrip.Statement (.encJobComplete e) := nothing rfl rfl rfl

theorem RoundTrip.variableLatencyComplete (c : Nat) (q : SeqId) (i : Nat) : RoundTrip.Statement (.variableLatencyComplete c q i) := nothing rfl rfl rfl

theorem RoundTrip.taskBind (c : Nat) : RoundTrip.Statement (.taskBind c) := nothing rfl rfl rfl

theorem RoundTrip.preemptSave (c : Nat) : RoundTrip.Statement (.preemptSave c) := nothing rfl rfl rfl

theorem RoundTrip.budgetEnd (c : Nat) : RoundTrip.Statement (.budgetEnd c) := nothing rfl rfl rfl

theorem RoundTrip.barrierPark (c : Nat) : RoundTrip.Statement (.barrierPark c) := nothing rfl rfl rfl

theorem RoundTrip.barrierParkWake (t : TaskKey) : RoundTrip.Statement (.barrierParkWake t) := nothing rfl rfl rfl

theorem RoundTrip.stgSwap (c : Nat) (back : Bool) : RoundTrip.Statement (.stgSwap c back) := nothing rfl rfl rfl

theorem RoundTrip.dcmdPre (c : Nat) : RoundTrip.Statement (.dcmdPre c) := nothing rfl rfl rfl

theorem RoundTrip.contractRelease (n : Nat) : RoundTrip.Statement (.contractRelease n) := nothing rfl rfl rfl

theorem RoundTrip.frameSyncPulse  : RoundTrip.Statement (.frameSyncPulse) := nothing rfl rfl rfl

theorem RoundTrip.contractOverrun (n : Nat) : RoundTrip.Statement (.contractOverrun n) := nothing rfl rfl rfl

theorem RoundTrip.launch (p : Nat) : RoundTrip.Statement (.launch p) := nothing rfl rfl rfl

theorem RoundTrip.abort (p : Nat) : RoundTrip.Statement (.abort p) := nothing rfl rfl rfl

theorem RoundTrip.admitCall (p : Nat) : RoundTrip.Statement (.admitCall p) := nothing rfl rfl rfl

theorem RoundTrip.revoke (p : Nat) : RoundTrip.Statement (.revoke p) := nothing rfl rfl rfl

theorem RoundTrip.setvd (p : Nat) : RoundTrip.Statement (.setvd p) := nothing rfl rfl rfl

theorem RoundTrip.vnopenCall (p : Nat) : RoundTrip.Statement (.vnopenCall p) := nothing rfl rfl rfl

theorem RoundTrip.vncloseCall (p : Nat) : RoundTrip.Statement (.vncloseCall p) := nothing rfl rfl rfl

theorem RoundTrip.status (p : Nat) : RoundTrip.Statement (.status p) := nothing rfl rfl rfl

theorem RoundTrip.encopen (p : Nat) : RoundTrip.Statement (.encopen p) := nothing rfl rfl rfl

theorem RoundTrip.encclose (p : Nat) : RoundTrip.Statement (.encclose p) := nothing rfl rfl rfl

theorem RoundTrip.peerset (p : Nat) : RoundTrip.Statement (.peerset p) := nothing rfl rfl rfl

theorem RoundTrip.expose (p : Nat) : RoundTrip.Statement (.expose p) := nothing rfl rfl rfl

theorem RoundTrip.setpwr (p : Nat) : RoundTrip.Statement (.setpwr p) := nothing rfl rfl rfl

theorem RoundTrip.setirq (p : Nat) : RoundTrip.Statement (.setirq p) := nothing rfl rfl rfl

theorem RoundTrip.envelopeApply  : RoundTrip.Statement (.envelopeApply) := nothing rfl rfl rfl

theorem RoundTrip.orderedDoorbellWrite (p : Nat) (o : Nat) (v : Word) : RoundTrip.Statement (.orderedDoorbellWrite p o v) := nothing rfl rfl rfl

theorem RoundTrip.hostRead (p : HostPath) (b : Nat) (n : Nat) : RoundTrip.Statement (.hostRead p b n) := nothing rfl rfl rfl

theorem RoundTrip.hostWrite (p : HostPath) (b : Nat) (n : Nat) (v : Nat) : RoundTrip.Statement (.hostWrite p b n v) := nothing rfl rfl rfl

theorem RoundTrip.spdmGetMeasurements (i : Nat) : RoundTrip.Statement (.spdmGetMeasurements i) := nothing rfl rfl rfl

theorem RoundTrip.baseDieRead (r : DieAccess) : RoundTrip.Statement (.baseDieRead r) := nothing rfl rfl rfl

theorem RoundTrip.baseDieWrite (r : DieAccess) (v : Nat) : RoundTrip.Statement (.baseDieWrite r v) := nothing rfl rfl rfl

theorem RoundTrip.pkcmdGo (s : BitVec 3) (v : Word) : RoundTrip.Statement (.pkcmdGo s v) := nothing rfl rfl rfl

theorem RoundTrip.pkcmdRepackDone (s : BitVec 3) : RoundTrip.Statement (.pkcmdRepackDone s) := nothing rfl rfl rfl

theorem RoundTrip.owncmdGo (v : Word) : RoundTrip.Statement (.owncmdGo v) := nothing rfl rfl rfl

theorem RoundTrip.owncmdFlipDone  : RoundTrip.Statement (.owncmdFlipDone) := nothing rfl rfl rfl

theorem RoundTrip.llccfgWrite (d : BitVec 2) (v : Word) : RoundTrip.Statement (.llccfgWrite d v) := nothing rfl rfl rfl

theorem RoundTrip.llcModeChangeDone (d : BitVec 2) : RoundTrip.Statement (.llcModeChangeDone d) := nothing rfl rfl rfl

theorem RoundTrip.registerWindowWrite (o : Nat) (v : Word) : RoundTrip.Statement (.registerWindowWrite o v) := nothing rfl rfl rfl

theorem RoundTrip.refresh (s : BitVec 3) (k : Nat) : RoundTrip.Statement (.refresh s k) := nothing rfl rfl rfl

theorem RoundTrip.alertBackoff (s : BitVec 3) (k : Nat) : RoundTrip.Statement (.alertBackoff s k) := nothing rfl rfl rfl

theorem RoundTrip.linkAuthFailure (l : BitVec 5) : RoundTrip.Statement (.linkAuthFailure l) := nothing rfl rfl rfl

theorem RoundTrip.cxlLinkLoss (p : BitVec 1) : RoundTrip.Statement (.cxlLinkLoss p) := nothing rfl rfl rfl

theorem RoundTrip.thermalTrip (x : FatalSource) : RoundTrip.Statement (.thermalTrip x) := nothing rfl rfl rfl

theorem RoundTrip.functionLevelReset (n : Nat) : RoundTrip.Statement (.functionLevelReset n) := nothing rfl rfl rfl

theorem RoundTrip.coldReset  : RoundTrip.Statement (.coldReset) := nothing rfl rfl rfl

theorem RoundTrip.warmReset  : RoundTrip.Statement (.warmReset) := nothing rfl rfl rfl

theorem RoundTrip.cxlLinkUp (p : BitVec 1) : RoundTrip.Statement (.cxlLinkUp p) := nothing rfl rfl rfl

theorem RoundTrip.applicationCoreAccess (h : BitVec 4) (a : HartAccess) : RoundTrip.Statement (.applicationCoreAccess h a) := nothing rfl rfl rfl

theorem RoundTrip.hdmDecoderCommit (p : BitVec 1) (i : BitVec 2) (d : HdmDecoder) : RoundTrip.Statement (.hdmDecoderCommit p i d) := nothing rfl rfl rfl

end Sys2Proof.Laws
end

