-- ==== Sys2Proof/Laws/Scalar.lean ====
section
/-! SUPPORT. The scalar operations of the model compute the formulas of R51 and R107 to R109. -/

namespace Sys2Proof.Machine

/-- A shift amount is bits [5:0] (R107). -/
theorem shamt_eq_mod (b : Word) : shamt b = b.toNat % 64 := by simp [shamt]

theorem minS_eq (a b : Word) : minS a b = BitVec.ofInt 64 (min a.toInt b.toInt) := by
  unfold minS
  rw [BitVec.slt_eq_decide]; simp only [decide_eq_true_eq]
  split
  · rw [min_eq_left (by omega), BitVec.ofInt_toInt]
  · rw [min_eq_right (by omega), BitVec.ofInt_toInt]

theorem maxS_eq (a b : Word) : maxS a b = BitVec.ofInt 64 (max a.toInt b.toInt) := by
  unfold maxS
  rw [BitVec.slt_eq_decide]; simp only [decide_eq_true_eq]
  split
  · rw [max_eq_right (by omega), BitVec.ofInt_toInt]
  · rw [max_eq_left (by omega), BitVec.ofInt_toInt]

theorem minU_eq (a b : Word) : minU a b = BitVec.ofNat 64 (min a.toNat b.toNat) := by
  unfold minU
  split
  · next h => rw [min_eq_left (by exact Nat.le_of_lt h), BitVec.ofNat_toNat, BitVec.setWidth_eq]
  · next h => rw [min_eq_right (by exact Nat.le_of_not_lt h), BitVec.ofNat_toNat, BitVec.setWidth_eq]

theorem maxU_eq (a b : Word) : maxU a b = BitVec.ofNat 64 (max a.toNat b.toNat) := by
  unfold maxU
  split
  · next h => rw [max_eq_right (by exact Nat.le_of_lt h), BitVec.ofNat_toNat, BitVec.setWidth_eq]
  · next h => rw [max_eq_left (by exact Nat.le_of_not_lt h), BitVec.ofNat_toNat, BitVec.setWidth_eq]

theorem boolWord_lessS (a b : Word) : boolWord (lessS a b) = oneIf (a.toInt < b.toInt) := by
  simp [boolWord, lessS, oneIf, BitVec.slt_eq_decide]

theorem boolWord_lt (a b : Word) : boolWord (a < b) = oneIf (a.toNat < b.toNat) := by
  simp [boolWord, oneIf, BitVec.lt_def]

theorem divU_eq (a b : Word) : divU a b = if b = 0 then -1 else a / b := by
  unfold divU; split; rfl
  apply BitVec.eq_of_toNat_eq
  simp
  exact Nat.lt_of_le_of_lt (Nat.div_le_self _ _) a.isLt

theorem remU_eq (a b : Word) : remU a b = if b = 0 then a else a % b := by
  unfold remU; split; rfl
  apply BitVec.eq_of_toNat_eq
  simp
  exact Nat.lt_of_le_of_lt (Nat.mod_le _ _) a.isLt

/-- The quotient of R108 is that of sdiv but for a zero divisor. -/
theorem divS_eq_sdiv (a b : Word) : BitVec.ofInt 64 (divS 64 a.toInt b.toInt) = if b = 0 then -1 else a.sdiv b := by
  unfold divS
  have hb : b.toInt = 0 ↔ b = 0 := by
    constructor
    · intro h; apply BitVec.eq_of_toInt_eq; simpa using h
    · rintro rfl; rfl
  by_cases h : b = 0
  · simp [h]
  · rw [if_neg (by simpa [hb] using h), if_neg h]
    split
    · next h2 =>
      have ha : a = BitVec.intMin 64 := by apply BitVec.eq_of_toInt_eq; rw [h2.1]; decide
      have hb : b = -1 := by apply BitVec.eq_of_toInt_eq; rw [h2.2]; decide
      subst ha hb; decide
    · next h2 =>
      apply BitVec.eq_of_toInt_eq
      rw [BitVec.toInt_sdiv, BitVec.toInt_ofInt]

theorem remS_eq_srem (a b : Word) : BitVec.ofInt 64 (remS 64 a.toInt b.toInt) = if b = 0 then a else a.srem b := by
  unfold remS
  have hb : b.toInt = 0 ↔ b = 0 := by
    constructor
    · intro h; apply BitVec.eq_of_toInt_eq; simpa using h
    · rintro rfl; rfl
  by_cases h : b = 0
  · simp [h]
  · rw [if_neg (by simpa [hb] using h), if_neg h]
    split
    · next h2 =>
      have ha : a = BitVec.intMin 64 := by apply BitVec.eq_of_toInt_eq; rw [h2.1]; decide
      have hb : b = -1 := by apply BitVec.eq_of_toInt_eq; rw [h2.2]; decide
      subst ha hb; decide
    · next h2 =>
      rw [← BitVec.toInt_srem, BitVec.ofInt_toInt]

theorem clz_eq_size (a : Word) : clz a = 64 - a.toNat.size := by
  unfold clz
  split
  · next h => simp [h]
  · next h =>
    have : a.toNat ≠ 0 := fun e => h (BitVec.eq_of_toNat_eq (by simpa using e))
    have h1 : a.toNat.size = Nat.log2 a.toNat + 1 := by
      apply le_antisymm
      · rw [Nat.size_le]; exact Nat.lt_log2_self
      · rw [Nat.succ_le_iff, Nat.lt_size]; exact Nat.log2_self_le this
    omega

/-- The first number below n with a property is how many numbers lack it before one has it. -/
theorem find?_range_getD (p : Nat → Bool) (n : Nat) :
    ((List.range n).find? p).getD n = ((List.range n).takeWhile fun i => ! p i).length := by
  induction n with
  | zero => rfl
  | succ n ih =>
    rw [List.range_succ, List.find?_append, List.takeWhile_append]
    cases h : (List.range n).find? p with
    | some x =>
      rw [h] at ih
      simp at ih
      have hx : x < n := by simpa using List.mem_of_find?_eq_some h
      simp
      rw [if_neg (by omega)]
      exact ih
    | none =>
      rw [h] at ih
      simp at ih
      rw [if_pos (by simp [← ih])]
      cases hp : p n <;> simp [List.takeWhile, hp]

theorem ctz_eq_takeWhile (a : Word) : ctz a = ((List.range 64).takeWhile fun n => ! a.getLsbD n).length := find?_range_getD _ 64

theorem popCount_eq_countP (a : Word) : popCount 64 a.toNat = (List.finRange 64).countP fun n => a.getLsbD n.val := by
  unfold popCount
  rw [List.countP_eq_length_filter, show List.range 64 = (List.finRange 64).map Fin.val by decide, List.filter_map, List.length_map]
  rfl

/-- BEXT as R109 writes it. -/
theorem bitExtract_eq (a b : Word) : bitExtract a b = bextValue a b := by
  have hp : fieldPos b = b.toNat % 64 := by simp [fieldPos, bits]
  have hn : fieldLen b = b.toNat / 2 ^ 8 % 64 + 1 := by simp [fieldLen, bits, Nat.shiftRight_eq_div_pow]
  unfold bitExtract bextValue
  rw [hp, hn]
  dsimp only
  generalize hN : b.toNat / 2 ^ 8 % 64 + 1 = n
  have h0 : 0 < n := by omega
  unfold fieldSx
  have hf : (BitVec.setWidth n (a >>> (b.toNat % 64))).toNat = (a.toNat >>> (b.toNat % 64)) % 2 ^ n := by
    simp
  split
  · apply BitVec.eq_of_toInt_eq
    rw [BitVec.toInt_signExtend_of_le (by omega), BitVec.toInt_eq_toNat_cond (BitVec.setWidth n _), hf]
    unfold toInt
    have : (a.toNat >>> (b.toNat % 64)) % 2 ^ n < 2 ^ n := Nat.mod_lt _ (by positivity)
    rw [Nat.mod_mod]
    generalize (a.toNat >>> (b.toNat % 64)) % 2 ^ n = x at *
    rw [BitVec.toInt_ofInt]
    obtain ⟨m, rfl⟩ : ∃ m, n = m + 1 := ⟨n - 1, by omega⟩
    have hm : (2 : Nat) ^ m ≤ 2 ^ 63 := Nat.pow_le_pow_right (by omega) (by omega)
    simp only [Nat.add_sub_cancel, pow_succ] at *
    have hx : 2 * x < 2 ^ m * 2 ↔ x < 2 ^ m := by omega
    simp only [hx]
    split
    · rw [Int.bmod_eq_of_le] <;> omega
    · rw [Int.bmod_eq_of_le] <;> omega
  · apply BitVec.eq_of_toNat_eq
    rw [BitVec.toNat_setWidth_of_le (by omega), hf]
    simp
    apply Nat.lt_of_lt_of_le (Nat.mod_lt _ (by positivity))
    exact Nat.pow_le_pow_right (by omega) (by omega : n ≤ 64)

/-- BINS as R109 writes it. -/
theorem bitInsert_eq (d a b : Word) : bitInsert d a b = binsValue d a b := by
  have hp : fieldPos b = b.toNat % 64 := by simp [fieldPos, bits]
  have hn : fieldLen b = b.toNat / 2 ^ 8 % 64 + 1 := by simp [fieldLen, bits, Nat.shiftRight_eq_div_pow]
  unfold bitInsert binsValue
  rw [hp, hn]
  have : ∀ n p : Nat, BitVec.ofNat 64 ((2 ^ n - 1) <<< p) = ((1#64 <<< n) - 1) <<< p := by
    intro n p
    rw [show (1#64 <<< n) - 1 = BitVec.ofNat 64 (2 ^ n - 1) from ?_]
    · apply BitVec.eq_of_toNat_eq
      simp [Nat.shiftLeft_eq, Nat.mul_mod]
    · have : 1#64 <<< n = BitVec.ofNat 64 (2 ^ n) := by
        apply BitVec.eq_of_toNat_eq; simp [Nat.shiftLeft_eq]
      rw [this]
      exact BitVec.ofNat_sub_ofNat_of_le (2 ^ n) 1 (by norm_num) (Nat.one_le_two_pow)
  simp only [this]

/-- LIMM as R51 writes it. -/
theorem immPart_eq (o : Word) (i h k) : immPart o i h k = limmValue o i h k := by
  unfold immPart limmValue
  rcases BitVec.eq_zero_or_eq_one k with rfl | rfl <;> rfl

theorem mulHigh_eq (a b : Word) : mulHigh a b = BitVec.ofInt 64 (a.toInt * b.toInt / 2 ^ 64) := by
  unfold mulHigh; norm_num

theorem boolWord_lessS_signExtend (a : Word) (i : BitVec 12) : boolWord (lessS a (i.signExtend 64)) = oneIf (a.toInt < i.toInt) := by
  rw [boolWord_lessS, BitVec.toInt_signExtend_of_le (by omega)]

end Sys2Proof.Machine
end

