-- ==== Sys2Proof/Laws/Vector.lean ====
section
/-! SUPPORT. Element and register-group laws: reading an element of a group after elements were put into it, and the element-wise
frame of R187. -/

namespace Sys2Proof.Machine

/-- Replacing bits hi down to lo replaces exactly them. -/
theorem testBit_putBits (x hi lo v j : Nat) (h : lo ≤ hi) :
    (putBits x hi lo v).testBit j = if lo ≤ j ∧ j ≤ hi then v.testBit (j - lo) else x.testBit j := by
  unfold putBits
  dsimp only
  rw [Nat.testBit_xor, Nat.testBit_xor, Nat.testBit_or, Nat.testBit_shiftLeft, Nat.testBit_shiftLeft, Nat.testBit_mod_two_pow,
    Nat.testBit_two_pow_sub_one]
  by_cases h1 : lo ≤ j
  · by_cases h2 : j ≤ hi
    · have : j - lo < hi - lo + 1 := by omega
      simp [h1, h2, this]
    · have : ¬ j - lo < hi - lo + 1 := by omega
      simp [h1, h2, this]
  · simp [h1]

/-- The bits of an element. -/
theorem testBit_elem (x w i j : Nat) : (elem x w i).testBit j = (decide (j < w) && x.testBit (w * i + j)) := by
  unfold elem
  rw [Nat.testBit_mod_two_pow, Nat.testBit_shiftRight]

theorem elem_lt (x w i : Nat) : elem x w i < 2 ^ w := Nat.mod_lt _ (Nat.two_pow_pos w)

/-- Replacing an element leaves the others. -/
theorem elem_putBits (x w i v j : Nat) (hw : 0 < w) :
    elem (putBits x (w * i + w - 1) (w * i) v) w j = if j = i then v % 2 ^ w else elem x w j := by
  apply Nat.eq_of_testBit_eq
  intro b
  rw [testBit_elem, testBit_putBits _ _ _ _ _ (by omega)]
  by_cases hb : b < w
  · by_cases h : j = i
    · subst h
      rw [if_pos (by omega), if_pos rfl, Nat.testBit_mod_two_pow]
      simp [hb]
    · rw [if_neg h, testBit_elem, if_neg]
      rcases Nat.lt_or_gt_of_ne h with h | h
      · have : w * (j + 1) ≤ w * i := Nat.mul_le_mul_left w h
        rw [Nat.mul_succ] at this; omega
      · have : w * (i + 1) ≤ w * j := Nat.mul_le_mul_left w h
        rw [Nat.mul_succ] at this; omega
  · by_cases h : j = i
    · simp [h, hb]
    · simp [h, hb, testBit_elem]

/-- An element after several were put: the value put there last, or the old one. -/
theorem elem_setElems_of_notMem (x w j : Nat) (es : List (Nat × Nat)) (hw : 0 < w) (h : ∀ e ∈ es, e.1 ≠ j) :
    elem (setElems x w es) w j = elem x w j := by
  unfold setElems
  induction es generalizing x with
  | nil => rfl
  | cons e es ih =>
    rw [List.foldl_cons, ih _ fun f hf => h f (by simp [hf]), elem_putBits _ _ _ _ _ hw,
      if_neg fun he => h e (by simp) he.symm]

/-- An element after several were put, each element once. -/
theorem elem_setElems_of_mem (x w : Nat) (es : List (Nat × Nat)) (hw : 0 < w) (hn : (es.map (·.1)).Nodup) {e : Nat × Nat}
    (he : e ∈ es) : elem (setElems x w es) w e.1 = e.2 % 2 ^ w := by
  unfold setElems
  induction es generalizing x with
  | nil => simp at he
  | cons f es ih =>
    rw [List.map_cons, List.nodup_cons] at hn
    rw [List.foldl_cons]
    rcases List.mem_cons.mp he with rfl | he
    · have := elem_setElems_of_notMem (putBits x (w * e.1 + w - 1) (w * e.1) e.2) w e.1 es hw fun g hg hge =>
        hn.1 (by rw [← hge]; exact List.mem_map_of_mem hg)
      unfold setElems at this
      rw [this, elem_putBits _ _ _ _ _ hw, if_pos rfl]
    · exact ih _ hn.2 he

/-- The bits of slices joined in ascending order. -/
theorem testBit_joinSlices (w : Nat) (hw : 0 < w) (xs : List Nat) (j : Nat) :
    (joinSlices w xs).testBit j = (xs[j / w]?.getD 0).testBit (j % w) := by
  induction xs generalizing j with
  | nil => simp [joinSlices]
  | cons x xs ih =>
    have hd : joinSlices w (x :: xs) = x % 2 ^ w + joinSlices w xs <<< w := rfl
    rw [hd, Nat.add_comm, Nat.shiftLeft_eq, Nat.mul_comm, Nat.testBit_two_pow_mul_add _ (Nat.mod_lt _ (Nat.two_pow_pos w))]
    by_cases h : j < w
    · rw [if_pos h, Nat.testBit_mod_two_pow, Nat.div_eq_of_lt h, Nat.mod_eq_of_lt h]
      simp [h]
    · obtain ⟨k, rfl⟩ : ∃ k, j = w + k := ⟨j - w, by omega⟩
      rw [if_neg h, Nat.add_sub_cancel_left, ih, Nat.add_div_left _ hw, Nat.add_mod_left]
      rfl

variable (s : State)

/-- The bits of a group of registers (R142). -/
theorem State.testBit_groupRaw (r n j : Nat) :
    (s.groupRaw r n).testBit j = (decide (j < 16384 * n) && (s.vRaw (r + j / 16384)).getLsbD (j % 16384)) := by
  unfold State.groupRaw
  rw [testBit_joinSlices _ (by norm_num)]
  by_cases h : j < 16384 * n
  · have : j / 16384 < n := by omega
    simp [h, this, BitVec.testBit_toNat]
  · have : ¬ j / 16384 < n := by omega
    simp [h, this]

theorem State.groupRaw_lt (r n : Nat) : s.groupRaw r n < 2 ^ (16384 * n) := by
  apply Nat.lt_pow_two_of_testBit
  intro i hi
  rw [State.testBit_groupRaw]
  have : ¬ i < 16384 * n := by omega
  simp [this]

/-- Writing one register. -/
theorem State.vRaw_setV (r p : Nat) (x : VReg) : (s.setV r x).vRaw p = if p = r ∧ r < 32 then x else s.vRaw p := by
  simp only [State.vRaw, State.setV, State.mapCore_core, Vector.getElem?_setIfInBounds]
  by_cases h : r = p
  · subst h
    by_cases hr : r < 32
    · simp [hr]
    · simp [hr]
  · have : ¬ p = r := fun e => h e.symm
    simp [h, this]

/-- Writing a group writes its registers and no other. -/
theorem State.vRaw_setGroup (r n x p : Nat) (h : r + n ≤ 32) :
    (s.setGroup r n x).vRaw p =
      if r ≤ p ∧ p < r + n then BitVec.ofNat 16384 (x >>> (16384 * (p - r))) else s.vRaw p := by
  unfold State.setGroup
  induction n with
  | zero => rw [if_neg (by omega)]; rfl
  | succ n ih =>
    rw [List.range_succ, List.foldl_append, List.foldl_cons, List.foldl_nil, State.vRaw_setV, ih (by omega)]
    by_cases hp : p = r + n
    · subst hp
      rw [if_pos (by omega), if_pos (by omega)]
      simp
    · rw [if_neg (by omega)]
      by_cases h2 : r ≤ p ∧ p < r + n
      · rw [if_pos h2, if_pos (by omega)]
      · rw [if_neg h2, if_neg (by omega)]

/-- Writing a group changes vector registers only. -/
theorem State.setGroup_eq (r n x : Nat) : ∃ v, s.setGroup r n x = s.mapCore fun c => { c with v := v } := by
  unfold State.setGroup
  induction n with
  | zero => exact ⟨s.core.v, rfl⟩
  | succ n ih =>
    obtain ⟨v, hv⟩ := ih
    rw [List.range_succ, List.foldl_append, hv]
    exact ⟨_, rfl⟩

/-- A group just written reads as what was written. -/
theorem State.groupRaw_setGroup (r n x : Nat) (h : r + n ≤ 32) : (s.setGroup r n x).groupRaw r n = x % 2 ^ (16384 * n) := by
  apply Nat.eq_of_testBit_eq
  intro j
  rw [State.testBit_groupRaw, State.vRaw_setGroup _ _ _ _ _ h, Nat.testBit_mod_two_pow]
  by_cases hj : j < 16384 * n
  · rw [if_pos (by omega), BitVec.getLsbD_ofNat, Nat.testBit_shiftRight]
    have h1 : j % 16384 < 16384 := Nat.mod_lt _ (by norm_num)
    have h2 : 16384 * (r + j / 16384 - r) + j % 16384 = j := by omega
    rw [h2]
    simp [hj, h1]
  · simp [hj]

/-- An element of a number cut to the length of a group. -/
theorem elem_mod (x w m i : Nat) (h : w * i + w ≤ m) : elem (x % 2 ^ m) w i = elem x w i := by
  apply Nat.eq_of_testBit_eq
  intro b
  rw [testBit_elem, testBit_elem, Nat.testBit_mod_two_pow]
  by_cases hb : b < w
  · have : w * i + b < m := by omega
    simp [hb, this]
  · simp [hb]

/-- An element of a number cut below it. -/
theorem elem_mod_zero (x w m i : Nat) (h : m ≤ w * i) : elem (x % 2 ^ m) w i = 0 := by
  apply Nat.eq_of_testBit_eq
  intro b
  rw [testBit_elem, Nat.testBit_mod_two_pow]
  have : ¬ w * i + b < m := by omega
  simp [this]

/-- The state with other vector registers. -/
theorem State.vRaw_congr {s t : State} (h : t.core.v = s.core.v) (p : Nat) : t.vRaw p = s.vRaw p := by
  unfold State.vRaw; rw [h]

theorem State.groupRaw_congr {s t : State} (h : t.core.v = s.core.v) (r n : Nat) : t.groupRaw r n = s.groupRaw r n := by
  unfold State.groupRaw; simp only [State.vRaw_congr h]

/-- Writing a group: its elements and the other registers. -/
theorem State.setGroup_spec (d n x : Nat) (h : d + n ≤ 32) :
    ∃ v, s.setGroup d n x = s.mapCore (fun c => { c with v := v }) ∧
      (∀ w i, w * i + w ≤ 16384 * n → (s.setGroup d n x).elemAt d n w i = elem x w i) ∧
      ∀ p, p < d ∨ d + n ≤ p → (s.setGroup d n x).vRaw p = s.vRaw p := by
  obtain ⟨v, hv⟩ := s.setGroup_eq d n x
  refine ⟨v, hv, fun w i hi => ?_, fun p hp => ?_⟩
  · unfold State.elemAt
    rw [State.groupRaw_setGroup _ _ _ _ h, elem_mod _ _ _ _ hi]
  · rw [State.vRaw_setGroup _ _ _ _ _ h, if_neg (by omega)]

/-- Flags raised one after the other are raised together (R164, R174). -/
theorem Ctl.raise_raise (c : Ctl) (q : SeqId) (x y : Word) : (c.raise q x).raise q y = c.raise q (x ||| y) := by
  have new : ∀ u : Word, u ||| (x &&& ~~~c.flags) ||| (y &&& ~~~(c.raise q x).flags) = u ||| ((x ||| y) &&& ~~~c.flags) := by
    intro u
    simp only [Ctl.flags, Ctl.raise]
    ext i hi
    simp only [BitVec.getElem_or, BitVec.getElem_and, BitVec.getElem_not, BitVec.getElem_shiftLeft, BitVec.getElem_ushiftRight]
    by_cases h8 : i < 8
    · simp only [h8]
      cases u[i] <;> cases x[i] <;> cases y[i] <;> cases c.fflags[i] <;> cases (31#64)[i] <;> rfl
    · simp only [h8, BitVec.getLsbD_eq_getElem, show 8 + (i - 8) = i by omega, hi]
      cases u[i] <;> cases x[i] <;> cases y[i] <;> cases c.fflags[i] <;> cases (31#64)[i] <;> cases c.fxsat[i - 8] <;> rfl
  have clear : ∀ u : Word, u &&& ~~~x &&& ~~~y = u &&& ~~~(x ||| y) := fun u => by
    rw [BitVec.not_or, BitVec.and_assoc]
  have low : c.fflags ||| (x &&& 0x1F) ||| (y &&& 0x1F) = c.fflags ||| ((x ||| y) &&& 0x1F) := by
    rw [BitVec.or_assoc, BitVec.and_or_distrib_right]
  have sat : c.fxsat ||| x >>> 8 ||| y >>> 8 = c.fxsat ||| (x ||| y) >>> 8 := by rw [BitVec.or_assoc, BitVec.ushiftRight_or_distrib]
  cases q <;> simp only [Ctl.raise, if_true, if_false, reduceCtorEq] at new ⊢ <;> simp only [new, clear, low, sat]

/-- Flags and saturation added to the control registers (R168, R174). -/
theorem State.orFlags_orSat (f : Nat) (sat : Bool) :
    (s.orFlags f).orSat sat = s.mapCtl fun _ => s.raised s.core.ctl f sat := by
  have low : ∀ n < 32, BitVec.ofNat 64 n &&& 31#64 = BitVec.ofNat 64 n ∧ BitVec.ofNat 64 (n + 256) &&& 31#64 = BitVec.ofNat 64 n ∧
      BitVec.ofNat 64 n >>> 8 = 0#64 ∧ BitVec.ofNat 64 (n + 256) >>> 8 = 1#64 ∧
      BitVec.ofNat 64 n ||| 0x100 = BitVec.ofNat 64 (n + 256) := by decide
  obtain ⟨h1, h2, h3, h4, h5⟩ := low (f % 32) (Nat.mod_lt _ (by omega))
  cases sat
  · simp [State.orSat, State.orFlags, State.raised, Ctl.raise, State.mapCtl, h1, h3]
  · have h : (s.orFlags f).orSat true = s.mapCtl fun c => (c.raise s.cur (BitVec.ofNat 64 (f % 32))).raise s.cur 0x100 := rfl
    rw [h]
    simp only [Ctl.raise_raise, h5]
    simp [State.raised, Ctl.raise, State.mapCtl, h2, h4]

/-- Computed elements put into a group, with their marks (R161, R189). -/
theorem State.putElems_spec (d n w : Nat) (es : List (Nat × Nat)) (h : d + n ≤ 32) :
    ∃ v, s.putElems d n w es = (s.mapCore fun c => { c with v := v }).mark d w (es.map (·.1)) ∧
      (∀ i, w * i + w ≤ 16384 * n → (s.putElems d n w es).elemAt d n w i = elem (setElems (s.groupRaw d n) w es) w i) ∧
      ∀ p, p < d ∨ d + n ≤ p → (s.putElems d n w es).vRaw p = s.vRaw p := by
  obtain ⟨v, hv, h1, h2⟩ := s.setGroup_spec d n (setElems (s.groupRaw d n) w es) h
  have e : (s.putElems d n w es).core.v = (s.setGroup d n (setElems (s.groupRaw d n) w es)).core.v := rfl
  refine ⟨v, by unfold State.putElems; rw [hv], fun i hi => ?_, fun p hp => ?_⟩
  · rw [← h1 w i hi]; unfold State.elemAt; rw [State.groupRaw_congr e]
  · rw [← h2 p hp, State.vRaw_congr e]

/-- The masked policy on a group. -/
theorem State.maskPolicy_spec (d n w : Nat) (off : List Nat) (h : d + n ≤ 32) :
    ∃ v, s.maskPolicy d n w off = s.mapCore (fun c => { c with v := v }) ∧
      (∀ i, w * i + w ≤ 16384 * n → (s.maskPolicy d n w off).elemAt d n w i =
        if vtMskp s.vt then elem (setElems (s.groupRaw d n) w (off.map fun i => (i, 0))) w i else s.elemAt d n w i) ∧
      ∀ p, p < d ∨ d + n ≤ p → (s.maskPolicy d n w off).vRaw p = s.vRaw p := by
  unfold State.maskPolicy
  split
  · next hm =>
    obtain ⟨v, hv, h1, h2⟩ := s.setGroup_spec d n (setElems (s.groupRaw d n) w (off.map fun i => (i, 0))) h
    exact ⟨v, hv, fun i hi => by rw [h1 w i hi], h2⟩
  · next hm => exact ⟨s.core.v, rfl, fun i _ => rfl, fun p _ => rfl⟩

/-- The tail policy on a group. -/
theorem State.tailPolicy_spec (d n w first : Nat) (h : d + n ≤ 32) :
    ∃ v, s.tailPolicy d n w first = s.mapCore (fun c => { c with v := v }) ∧
      (∀ i, w * i + w ≤ 16384 * n → (s.tailPolicy d n w first).elemAt d n w i =
        if vtTail s.vt ∧ first ≤ i then 0 else s.elemAt d n w i) ∧
      ∀ p, p < d ∨ d + n ≤ p → (s.tailPolicy d n w first).vRaw p = s.vRaw p := by
  unfold State.tailPolicy
  split
  · next ht =>
    obtain ⟨v, hv, h1, h2⟩ := s.setGroup_spec d n (s.groupRaw d n % 2 ^ (w * first)) h
    refine ⟨v, hv, fun i hi => ?_, h2⟩
    rw [h1 w i hi]
    by_cases hf : first ≤ i
    · rw [if_pos ⟨ht, hf⟩, elem_mod_zero _ _ _ _ (Nat.mul_le_mul_left w hf)]
    · have : w * (i + 1) ≤ w * first := Nat.mul_le_mul_left w (by omega)
      rw [Nat.mul_succ] at this
      rw [if_neg (by tauto), elem_mod _ _ _ _ this]; rfl
  · next ht => exact ⟨s.core.v, rfl, fun i _ => by simp [ht], fun p _ => rfl⟩

theorem State.active_nodup (k : BitVec 3) (n : Nat) : (s.active k n).Nodup := List.nodup_range.filter _

theorem State.maskedOff_nodup (k : BitVec 3) (n : Nat) : (s.maskedOff k n).Nodup := List.nodup_range.filter _

theorem State.mem_active (k : BitVec 3) (n i : Nat) : i ∈ s.active k n ↔ i < s.vl ∧ n ≤ i ∧ s.maskBit k i = true := by
  simp [State.active]

theorem State.mem_maskedOff (k : BitVec 3) (n i : Nat) : i ∈ s.maskedOff k n ↔ i < s.vl ∧ n ≤ i ∧ s.maskBit k i = false := by
  simp [State.maskedOff]

/-- Elements put by a function on a list of indexes. -/
theorem elem_setElems_map (x w : Nat) (hw : 0 < w) (is : List Nat) (hn : is.Nodup) (f : Nat → Nat) (i : Nat) :
    elem (setElems x w (is.map fun i => (i, f i))) w i = if i ∈ is then f i % 2 ^ w else elem x w i := by
  have hk : ((is.map fun i => (i, f i)).map (·.1)) = is := by rw [List.map_map]; exact List.map_id' is
  by_cases h : i ∈ is
  · rw [if_pos h]
    exact elem_setElems_of_mem x w _ hw (by rw [hk]; exact hn) (e := (i, f i)) (List.mem_map.mpr ⟨i, h, rfl⟩)
  · rw [if_neg h]
    refine elem_setElems_of_notMem x w i _ hw fun e he => ?_
    obtain ⟨j, hj, rfl⟩ := List.mem_map.mp he
    rintro rfl
    exact h hj

/-- The element-wise frame where no element raises an enabled flag (R175, R187, R188). -/
theorem State.vecOp_writes (r : VSpec) (hd : groupOk r.d r.n) (hw : 0 < r.w) (hq : s.Quiet r.k r.f) :
    s.WritesV (s.vecOp r.len r.d r.n r.w r.k false r.f) r.len r.d.toNat r.n r.w (s.active r.k s.estart) (s.afterElem r) (s.flagsOf r.k r.f)
      (s.satOf r.k r.f) := by
  have h32 : r.d.toNat + r.n ≤ 32 := by simp [groupOk] at hd; exact hd.2
  unfold State.vecOp State.eachElem
  simp only [Bool.false_eq_true, if_false]
  have hnone : ((s.active r.k s.estart).map fun i => (i, r.f i)).find? (fun x => x.2.flags &&& s.ten ≠ 0) = none := by
    rw [List.find?_eq_none]
    intro x hx
    obtain ⟨i, hi, rfl⟩ := List.mem_map.mp hx
    obtain ⟨h1, h2, h3⟩ := (s.mem_active ..).mp hi
    simp [hq i h2 h1 h3]
  rw [hnone]
  simp only [List.map_map]
  have hes : List.map ((fun x : Nat × Out => (x.1, x.2.val)) ∘ fun i => (i, r.f i)) (s.active r.k s.estart) =
      (s.active r.k s.estart).map fun i => (i, (r.f i).val) := rfl
  rw [hes]
  have hfl : ((s.active r.k s.estart).map fun i => (i, r.f i)).foldl (fun f x => f ||| x.2.flags) 0 = s.flagsOf r.k r.f := by
    rw [List.foldl_map]; rfl
  have hsat : (((s.active r.k s.estart).map fun i => (i, r.f i)).any fun x => x.2.sat) = s.satOf r.k r.f := by
    rw [List.any_map]; rfl
  rw [hfl, hsat]
  obtain ⟨v1, e1, p1, o1⟩ := s.putElems_spec r.d.toNat r.n r.w ((s.active r.k s.estart).map fun i => (i, (r.f i).val)) h32
  generalize hu1 : s.putElems r.d.toNat r.n r.w ((s.active r.k s.estart).map fun i => (i, (r.f i).val)) = u1 at *
  rw [State.orFlags_orSat]
  generalize hu3 : (u1.mapCtl fun _ => u1.raised u1.core.ctl (s.flagsOf r.k r.f) (s.satOf r.k r.f)) = u3
  have hv3 : u3.core.v = u1.core.v := by rw [← hu3]; rfl
  have hvt1 : u1.vt = s.vt := by rw [e1]; rfl
  have hvt3 : u3.vt = s.vt := by rw [← hvt1, ← hu3]; rfl
  obtain ⟨v4, e4, p4, o4⟩ := u3.maskPolicy_spec r.d.toNat r.n r.w (s.maskedOff r.k s.estart) h32
  generalize u3.maskPolicy r.d.toNat r.n r.w (s.maskedOff r.k s.estart) = u4 at *
  have hvt4 : u4.vt = s.vt := by rw [← hvt3, e4]; rfl
  obtain ⟨v5, e5, p5, o5⟩ := u4.tailPolicy_spec r.d.toNat r.n r.w s.vl h32
  generalize u4.tailPolicy r.d.toNat r.n r.w s.vl = u5 at *
  have core : ((u5.setLdr .v r.d.toNat).setEstart 0).retire r.len =
      ({ s with core := { s.core with
          v := v5, ctl := (s.vectorCtl (s.flagsOf r.k r.f) (s.satOf r.k r.f)).marked r.d.toNat r.w (s.active r.k s.estart) } }).withSeq
        (({ s.seq with g := s.seq.g, ldr := ldrOf .v r.d.toNat } : Seq).advance r.len) := by
    subst e5 e4 hu3 e1
    rw [List.map_map, show ((fun x : Nat × Nat => x.1) ∘ fun i => (i, (r.f i).val)) = id from rfl, List.map_id]
    unfold State.setLdr State.setEstart State.retire State.vectorCtl
    obtain ⟨c, n, o, cur⟩ := s
    cases cur <;> rfl
  obtain ⟨hg, hl, hk, hn⟩ := s.seq.advance_wrote r.len s.seq.g (ldrOf .v r.d.toNat)
  have hvf : (((u5.setLdr .v r.d.toNat).setEstart 0).retire r.len).core.v = u5.core.v := by
    simp [State.setLdr, State.setEstart, State.retire]
  refine ⟨_, v5, core, fun i hi => ?_, fun p hp => ?_, hg, hl, hk, hn⟩
  · have hx : State.elemAt (((u5.setLdr .v r.d.toNat).setEstart 0).retire r.len) r.d.toNat r.n r.w i = u5.elemAt r.d.toNat r.n r.w i := by
      unfold State.elemAt; rw [State.groupRaw_congr hvf]
    have h31 : u3.elemAt r.d.toNat r.n r.w i = u1.elemAt r.d.toNat r.n r.w i := by
      unfold State.elemAt; rw [State.groupRaw_congr hv3]
    rw [hx, p5 i hi, p4 i hi, hvt4, hvt3, elem_setElems_map _ _ hw _ (s.maskedOff_nodup ..) (fun _ => 0), h31]
    have hg3 : elem (u3.groupRaw r.d.toNat r.n) r.w i = u1.elemAt r.d.toNat r.n r.w i := h31
    rw [hg3, p1 i hi, elem_setElems_map _ _ hw _ (s.active_nodup ..) (fun i => (r.f i).val)]
    unfold State.afterElem
    simp only [State.mem_maskedOff, State.mem_active]
    by_cases h1 : s.vl ≤ i
    · have : ¬ i < s.vl := by omega
      simp [h1, this, State.elemAt]
    · have h2 : i < s.vl := by omega
      by_cases h3 : i < s.estart
      · have : ¬ s.estart ≤ i := by omega
        simp [h1, h2, h3, this, State.elemAt]
      · have : s.estart ≤ i := by omega
        cases hm : s.maskBit r.k i <;> simp [h1, h2, h3, this, State.elemAt]
  · rw [State.vRaw_congr hvf, o5 p hp, o4 p hp, State.vRaw_congr hv3, o1 p hp]

end Sys2Proof.Machine
end

