-- ==== Sys2Proof/Laws/VectorOps.lean ====
section
/-! SUPPORT. The element operations of the model compute the formulas of R191, R194 and R195. -/

namespace Sys2Proof.Machine

/-- An exact value modulo 2^W, in the model's words and in the statements'. -/
theorem intOut_eq (w : Nat) (x : Int) : intOut w x = modOut w x := by
  unfold intOut modOut ofInt; norm_num

theorem ofInt_lt (w : Nat) (x : Int) : ofInt w x < 2 ^ w := by
  unfold ofInt
  have h : (0 : Int) < ((2 ^ w : Nat) : Int) := by exact_mod_cast Nat.two_pow_pos w
  have := Int.emod_lt_of_pos x h
  have := Int.emod_nonneg x (ne_of_gt h)
  omega

/-- A value read as sW and put back modulo 2^W. -/
theorem ofInt_toInt (w a : Nat) (h : a < 2 ^ w) : ofInt w (toInt w a) = a := by
  unfold ofInt toInt
  rw [Nat.mod_eq_of_lt h]
  split
  · rw [Int.emod_eq_of_lt (by omega) (by exact_mod_cast h)]; simp
  · rw [Int.sub_emod_right, Int.emod_eq_of_lt (by omega) (by exact_mod_cast h)]; simp

theorem modOut_toInt (w a : Nat) (h : a < 2 ^ w) : modOut w (toInt w a) = { val := a } := by
  rw [← intOut_eq]; unfold intOut; rw [ofInt_toInt w a h]

theorem modOut_natCast (w a : Nat) : modOut w (a : Int) = { val := a % 2 ^ w } := by
  unfold modOut; norm_cast

theorem toInt_eq_zero (w a : Nat) (h : a < 2 ^ w) : toInt w a = 0 ↔ a = 0 := by
  unfold toInt
  rw [Nat.mod_eq_of_lt h]
  have : 0 < 2 ^ (w - 1) := Nat.two_pow_pos _
  split <;> omega

variable {w a b d : Nat}

theorem opAdd_eq : opAdd w a b d = vaddSpec w a b d := by unfold opAdd vaddSpec; rw [intOut_eq]; norm_cast

theorem opSub_eq : opSub w a b d = vsubSpec w a b d := intOut_eq ..

theorem opRsub_eq : opRsub w a b d = vrsubSpec w a b d := intOut_eq ..

theorem opSll_eq : opSll w a b d = vsllSpec w a b d := by unfold opSll vsllSpec; rw [Nat.shiftLeft_eq]

theorem opSrl_eq : opSrl w a b d = vsrlSpec w a b d := by unfold opSrl vsrlSpec; rw [Nat.shiftRight_eq_div_pow]

theorem opSra_eq : opSra w a b d = vsraSpec w a b d := by unfold opSra vsraSpec; rw [intOut_eq]; norm_cast

theorem opMin_eq (ha : a < 2 ^ w) (hb : b < 2 ^ w) : opMin w a b d = vminSpec w a b d := by
  unfold opMin vminSpec
  split
  · rw [min_eq_left (by omega), modOut_toInt _ _ ha]
  · rw [min_eq_right (by omega), modOut_toInt _ _ hb]

theorem opMax_eq (ha : a < 2 ^ w) (hb : b < 2 ^ w) : opMax w a b d = vmaxSpec w a b d := by
  unfold opMax vmaxSpec
  split
  · rw [max_eq_right (by omega), modOut_toInt _ _ hb]
  · rw [max_eq_left (by omega), modOut_toInt _ _ ha]

theorem opMulh_eq : opMulh w a b d = vmulhSpec w a b d := by unfold opMulh vmulhSpec; rw [intOut_eq]; norm_cast

theorem opNmsac_eq : opNmsac w a b d = vnmsacSpec w a b d := by unfold opNmsac vnmsacSpec; rw [intOut_eq]

theorem divS_eq (n : Nat) (a b : Int) (hn : 0 < n) (ha : a < 2 ^ (n - 1)) (hb : b ≠ 0) :
    ofInt n (divS n a b) = ofInt n (a.tdiv b) := by
  unfold divS
  rw [if_neg hb]
  split
  · next h =>
    rw [h.2, h.1]
    unfold ofInt
    obtain ⟨m, rfl⟩ : ∃ m, n = m + 1 := ⟨n - 1, by omega⟩
    simp only [Nat.add_sub_cancel]
    have : (-((2 ^ m : Nat) : Int)).tdiv (-1) = (2 ^ m : Nat) := by simp
    rw [this]
    congr 1
    have : (-((2 ^ m : Nat) : Int)) = ((2 ^ m : Nat) : Int) - ((2 ^ (m + 1) : Nat) : Int) := by push_cast; ring
    rw [this, Int.sub_emod_right]
  · rfl

theorem remS_eq (n : Nat) (a b : Int) (hb : b ≠ 0) : remS n a b = a.tmod b := by
  unfold remS
  rw [if_neg hb]
  split
  · next h => rw [h.2]; simp
  · rfl

theorem toInt_lt (w a : Nat) : toInt w a < 2 ^ (w - 1) := by
  unfold toInt
  have := Nat.mod_lt a (Nat.two_pow_pos w)
  split
  · exact_mod_cast ‹_›
  · have : (2:Nat) ^ (w - 1) > 0 := Nat.two_pow_pos _
    have : ((2:Nat)^(w-1) : Int) > 0 := by exact_mod_cast this
    push_cast at *
    omega

theorem opDiv_eq (s : State) (hw : 0 < w) (hb : b < 2 ^ w) :
    opDiv (vtMsx s.vt) w a b d = vdivSpec s w a b d := by
  unfold opDiv vdivSpec quotient
  by_cases h : b = 0
  · subst h
    cases vtMsx s.vt
    · simp
    · have : toInt w 0 = 0 := (toInt_eq_zero w 0 hb).mpr rfl
      simp only [if_true, this]
      unfold divS intOut ofInt
      simp only [if_true]
      have h1 : (-1 : Int) % ((2 ^ w : Nat) : Int) = ((2 ^ w : Nat) : Int) - 1 := by
        rw [show (-1 : Int) = (((2 ^ w : Nat) : Int) - 1) - ((2 ^ w : Nat) : Int) by ring, Int.sub_emod_right,
          Int.emod_eq_of_lt] <;> have := Nat.two_pow_pos w <;> omega
      rw [h1]
      congr 1
      have := Nat.two_pow_pos w
      omega
  · have hb' : toInt w b ≠ 0 := fun e => h ((toInt_eq_zero w b hb).mp e)
    rw [if_neg h]
    split
    · rw [← intOut_eq]; unfold intOut; rw [divS_eq _ _ _ hw (toInt_lt w a) hb']
    · rfl

theorem opRem_eq (s : State) (ha : a < 2 ^ w) (hb : b < 2 ^ w) :
    opRem (vtMsx s.vt) w a b d = vremSpec s w a b d := by
  unfold opRem vremSpec remainder
  by_cases h : b = 0
  · subst h
    cases vtMsx s.vt
    · simp
    · have : toInt w 0 = 0 := (toInt_eq_zero w 0 hb).mpr rfl
      simp only [if_true, this]
      unfold remS intOut
      simp only [if_true]
      rw [ofInt_toInt w a ha]
  · have hb' : toInt w b ≠ 0 := fun e => h ((toInt_eq_zero w b hb).mp e)
    rw [if_neg h]
    split
    · rw [← intOut_eq]; unfold intOut; rw [remS_eq _ _ _ hb']
    · rfl

theorem satOut_signed (w : Nat) (x : Int) : satOut w true x = clampS w x := by
  unfold satOut clampS ofInt; simp

theorem satOut_unsigned (w : Nat) (x : Int) : satOut w false x = clampZ w x := by
  unfold satOut clampZ ofInt
  simp only [Bool.false_eq_true, if_false]
  have h : 0 ≤ satZ x w ∧ satZ x w < (2 ^ w : Nat) := by
    have := Nat.two_pow_pos w
    unfold satZ
    split
    · omega
    · split <;> omega
  rw [Int.emod_eq_of_lt h.1 h.2]

theorem opSmul_eq (s : State) : opSmul s.fxrm w a b d = vsmulSpec s w a b d := satOut_signed ..

theorem opAadd_eq (s : State) : opAadd s.fxrm w a b d = vaaddSpec s w a b d := intOut_eq ..

theorem opSsr_eq (s : State) : opSsr s.fxrm w a b d = vssrSpec s w a b d := intOut_eq ..

theorem extInt_eq (sg : Bool) (h : a < 2 ^ w) : extInt sg w a = readAs sg w a := by
  unfold extInt readAs; rw [Nat.mod_eq_of_lt h]

theorem opNshr_eq (s : State) (ha : a < 2 ^ (2 * w)) : opNshr (vtMsx s.vt) s.fxrm w a b = vnshrSpec s w a b := by
  unfold opNshr vnshrSpec
  rw [extInt_eq _ ha]
  cases vtMsx s.vt
  · rw [satOut_unsigned]; rfl
  · rw [satOut_signed]; rfl

theorem opSext_eq (n : Nat) : opSext w a n = signField w a n := by
  unfold opSext signField
  split
  · rfl
  · rw [← intOut_eq]; rfl

theorem opWadd_eq (s : State) (ha : a < 2 ^ w) (hb : b < 2 ^ w) : opWadd (vtMsx s.vt) w a b d = vwaddSpec s w a b d := by
  unfold opWadd vwaddSpec; rw [intOut_eq, extInt_eq _ ha, extInt_eq _ hb]

theorem opWmul_eq (s : State) (ha : a < 2 ^ w) (hb : b < 2 ^ w) : opWmul (vtMsx s.vt) w a b d = vwmulSpec s w a b d := by
  unfold opWmul vwmulSpec; rw [intOut_eq, extInt_eq _ ha, extInt_eq _ hb]

theorem opWmacc_eq (ha : a < 2 ^ w) (hb : b < 2 ^ w) : opWmacc true w a b d = vwmaccSpec w a b d := by
  unfold opWmacc vwmaccSpec; rw [intOut_eq, extInt_eq _ ha, extInt_eq _ hb]; rfl

theorem opWmaccu_eq (ha : a < 2 ^ w) (hb : b < 2 ^ w) : opWmacc false w a b d = vwmaccuSpec w a b d := by
  unfold opWmacc vwmaccuSpec; rw [intOut_eq, extInt_eq _ ha, extInt_eq _ hb, ← modOut_natCast]
  simp [readAs]

theorem State.source_lt (s : State) (b : VSrc) (n w i : Nat) (hw : 5 ≤ w) : s.source b n w i < 2 ^ w := by
  unfold State.source
  cases b with
  | vv r => exact elem_lt ..
  | vs r => exact Nat.mod_lt _ (Nat.two_pow_pos w)
  | imm i => exact ofInt_lt ..
  | uimm i => exact Nat.lt_of_lt_of_le i.isLt (Nat.pow_le_pow_right (by norm_num) hw)

theorem State.cw_ge (s : State) : 8 ≤ s.cw := by
  unfold State.cw vtCw
  exact Nat.le_mul_of_pos_right _ (Nat.two_pow_pos _)

end Sys2Proof.Machine
end

