-- ==== Sys2Proof/Tests/Slice0.lean ====
section
/-! SUPPORT. The model's own tests: an ill-formed term for each check of WellFormed, words written out from the spec's
encodings, single steps with results taken from the spec's examples and rules, and for each statement with hypotheses a
witness that meets them. -/

set_option Elab.async false
set_option maxRecDepth 100000

namespace Sys2Proof.Tests

open Sys2Proof.Machine

/-! ## Well-formedness: each check refuses the term beside the neighbour it accepts -/

theorem test_wf_registers : (Instr.ldc 0 1 2 0 63 0).wf = false ∧ (Instr.ldc 1 1 2 0 63 0).wf = true ∧
    (Instr.etag 1 2 16 0).wf = false ∧ (Instr.etag 1 2 15 0).wf = true ∧ (Instr.extn 0 1 2 3 0).wf = false ∧
    (Instr.extn 16 1 2 3 0).wf = false ∧ (Instr.extn 15 1 2 3 0).wf = true ∧ (Instr.extrBase 1 16 0).wf = false ∧
    (Instr.extrLen 1 16 0).wf = false ∧ (Instr.extrAttr 1 16 0).wf = false := by decide

theorem test_wf_control : (Instr.loop 1 0).wf = false ∧ (Instr.loopi 0 4).wf = false ∧ (Instr.loop 1 1).wf = true ∧
    (Instr.fence 0 0).wf = false ∧ (Instr.fence 0 1).wf = true ∧ (Instr.qfence 0).wf = false ∧ (Instr.qfence 1).wf = true ∧
    (Instr.amo 1 2 3 10 3).wf = false ∧ (Instr.amo 1 2 3 9 1).wf = false ∧ (Instr.amo 1 2 3 9 2).wf = true := by decide

theorem test_wf_float : (Instr.fcvt 1 2 0 10).wf = false ∧ (Instr.fcvt 1 2 0 0x13).wf = true ∧ (Instr.fcvt 1 2 0 0x14).wf = false ∧
    (Instr.fcvt 1 2 0 0x1C).wf = false ∧ (Instr.fmv 1 2 0 0 3).wf = false ∧ (Instr.fmv 1 2 0 0 2).wf = true ∧
    (Instr.vfcvt 1 2 0 0 9).wf = false ∧ (Instr.vfcvt 1 2 0 0 8).wf = true := by decide

theorem test_wf_vector : (Instr.vldseg 1 2 0 0 0).wf = false ∧ (Instr.vldseg 1 2 0 0 8).wf = false ∧ (Instr.vldseg 1 2 0 0 7).wf = true ∧
    (Instr.vstseg 1 2 0 0 8).wf = false ∧ (Instr.vmergeVv 1 2 3 0 0).wf = false ∧ (Instr.vmergeVs 1 2 3 0 0).wf = false ∧
    (Instr.vmergeVi 1 2 0 0 3).wf = false ∧ (Instr.vmergeVv 1 2 3 1 0).wf = true ∧ (Instr.vsmax 1 2 0 0 0).wf = false ∧
    (Instr.vsmax 1 2 31 0 0).wf = false ∧ (Instr.vsmax 1 2 30 0 0).wf = true := by decide

theorem test_wf_versions_and_streams : (Instr.vnld 0 1 2 1 1).wf = false ∧ (Instr.vnld 0 1 2 1 0).wf = true ∧ (Instr.vnld 31 1 2 0 1).wf = false ∧
    (Instr.vnld 30 1 2 0 1).wf = true ∧ (Instr.strm 1 30 0).wf = false ∧ (Instr.strm 1 29 0).wf = true ∧ (Instr.sqstat 1 0 5).wf = false ∧
    (Instr.sdesc 8 0 0).wf = false ∧ (Instr.stile 8 0 0 0 0 0 0).wf = false ∧ (Instr.sgath 0 0 0 0 3).wf = false ∧
    (Instr.sscat 8 0 0 0 0).wf = false ∧ (Instr.sscat 7 0 0 0 2).wf = true ∧ (Instr.sconv 9 0 0 0 0).wf = false ∧
    (Instr.sconv 0 1 0 0 0).wf = false ∧ (Instr.sconv 1 0 0 6 0).wf = false ∧ (Instr.sconv 8 8 0 5 0).wf = true ∧
    (Instr.sloop 1 2 1 3).wf = false ∧ (Instr.sloop 1 2 0 3).wf = false ∧ (Instr.sloop 1 2 1 0).wf = true := by decide

theorem test_wf_matrix_and_io : (Instr.mlda 1 2 3).wf = false ∧ (Instr.mlda 1 2 2).wf = true ∧ (Instr.mldb 1 4 0).wf = false ∧
    (Instr.mldb 1 1 1).wf = false ∧ (Instr.mldb 1 2 1).wf = true ∧ (Instr.mstr 0 1 2 6).wf = false ∧ (Instr.mstr 0 1 2 5).wf = true ∧
    (Instr.npost 1 0).wf = false ∧ (Instr.npost 1 27).wf = false ∧ (Instr.npost 1 26).wf = true ∧ (Instr.encJobStart 16).wf = false ∧
    (Instr.encJobComplete 16).wf = false ∧ (Instr.netPacketReceive ⟨0, 0, 0, 0, 1, 0, 1, 256, 0⟩).wf = false ∧
    (Instr.netPacketReceive ⟨0, 0, 0, 0, 1, 0, 1, 255, 0⟩).wf = true := by decide

theorem test_wf_cores : ([Instr.rdvPairComplete 224, .extentLowWrite 224 1 0, .extentHighWrite 224 1 0, .vtWrite 224 0, .vlWrite 224 0,
    .frmWrite 224 0, .wfeWake 224, .acqSatisfied 224 .main, .windowCountReached 224 .main, .sqwaitDrained 224, .nwaitSatisfied 224,
    .variableLatencyComplete 224 .main 0, .taskBind 224, .preemptSave 224, .budgetEnd 224, .barrierPark 224, .stgSwap 224 true,
    .dcmdPre 224].all fun i => ! i.wf) = true ∧ (Instr.rdvPairComplete 223).wf = true := by decide

theorem test_wf_pages : ([Instr.launch 387, .abort 387, .admitCall 387, .revoke 387, .setvd 387, .vnopenCall 387, .vncloseCall 387,
    .status 387, .encopen 387, .encclose 387, .peerset 387, .expose 387, .setpwr 387, .setirq 387, .orderedDoorbellWrite 2 0 0].all
    fun i => ! i.wf) = true ∧ (Instr.launch 386).wf = true ∧ (Instr.orderedDoorbellWrite 1 0 0).wf = true := by decide

theorem test_wf_ports : (Instr.hostWrite .bar2 0 1 256).wf = false ∧ (Instr.hostWrite .bar2 0 1 255).wf = true ∧
    (Instr.baseDieRead ⟨2 ^ 54 - 7, 8, false, .clean⟩).wf = false ∧ (Instr.baseDieRead ⟨2 ^ 54 - 8, 8, false, .clean⟩).wf = true ∧
    (Instr.baseDieWrite ⟨0, 8, false, .clean⟩ 256).wf = false ∧ (Instr.registerWindowWrite 4 0).wf = false ∧
    (Instr.hdmDecoderCommit 0 0 ⟨0, 0, 0, 0, 256, true⟩).wf = false := by decide

/-! ## Decoding: words that the spec writes out (R68 and the encodings of each chapter) -/

theorem test_decode_scalar : decode32 0x04000383 = .ok (.addi 7 0 64 0) ∧ decode32 0x40442181 = .ok (.mul 3 2 2 1) ∧
    decode32 0x820A4201 = .ok (.slli 4 4 37 0) ∧ decode32 0x0200028D = .ok (.limm 5 0x200 0 0) ∧
    decode32 0x0240118D = .ok (.limm 3 0x200 1 1) ∧ decode32 0x00067197 = .ok (.etag 3 7 3 0) := by decide +kernel

theorem test_decode_memory : decode32 0x7E0E1191 = .ok (.ld 3 1 7 0 63 0) ∧ decode32 0x7F005191 = .ok (.ld 3 5 0 0 63 4) ∧
    decode32 0x04083293 = .ok (.st 5 3 4 2 0) ∧ decode32 0x100830B3 = .ok (.vlds 1 3 4 0 0) ∧ decode32 0x100830B5 = .ok (.vsts 1 3 4 0 0) ∧
    decode32 0x02003135 = .ok (.vst 2 3 1 0) := by decide +kernel

theorem test_decode_control : decode32 0xFE402E19 = .ok (.bne 2 0 0xFFC) ∧ decode32 0x3680301F = .ok (.rpt 3 2 3) ∧
    decode32 0x100C019F = .ok (.loopi 6 3) ∧ decode32 0x02200329 = .ok (.ctlr 6 0x030) ∧ decode32 0x4000006D = .ok .tend := by decide +kernel

theorem test_decode_vector : decode32 0x02005031 = .ok (.setvt 0 5 0) ∧ decode32 0x00002331 = .ok (.setvl 6 2 0) ∧
    decode32 0x00C210BB = .ok (.vaddVi 1 1 0 3 1) ∧ decode32 0x3018823D = .ok (.vmaccVv 4 8 12 0 0) ∧
    decode32 0xF00600BB = .ok (.vidx 1 0 0 3 0) ∧ decode32 0xA00A3145 = .ok (.vcmpVi 2 3 2 0 0 5) := by decide +kernel

theorem test_decode_vector_float : decode32 0x42200449 = .ok (.vfmaVs 8 0 16 1 0) ∧ decode32 0xD0002247 = .ok (.vfcvt 4 2 0 0 0) ∧
    decode32 0xE02A0A47 = .ok (.vfcvt4 20 0 21 0) ∧ decode32 0x6012464B = .ok (.vfscan 12 4 0 0 1 1) ∧
    decode32 0x7028044B = .ok (.vsmax 8 0 20 0 0) := by decide +kernel

theorem test_decode_rearrange : decode32 0x0004824B = .ok (.vrsum 4 8 0 0 2) ∧ decode32 0x0204824B = .ok (.vrsum 4 8 1 0 2) ∧
    decode32 0xB006884B = .ok (.vcomp 16 8 3 0) ∧ decode32 0x000620CD = .ok (.kand 1 2 3 0) ∧ decode32 0x500024CD = .ok (.kffs 9 2 0 0) := by
  decide +kernel

theorem test_decode_matrix : decode32 0x00000061 = .ok (.mzero 0) ∧ decode32 0x1400A061 = .ok (.mlda 10 0 1) ∧
    decode32 0x20013061 = .ok (.mldb 19 0 0) ∧ decode32 0x300001E1 = .ok (.mma 3) ∧ decode32 0x40010061 = .ok (.mrsc 0 16 0) := by
  decide +kernel

theorem test_decode_sync : decode32 0x3000502F = .ok (.gunbind 5) ∧ decode32 0x4900002F = .ok (.fence 2 1) ∧
    decode32 0x5000302F = .ok (.qfence 3) ∧ decode32 0x6000002F = .ok .cfence ∧ decode32 0x7000A02F = .ok (.barinit 10) ∧
    decode32 0x8022A02F = .ok (.barwait 10 17) ∧ decode32 0x9022A02F = .ok (.barrel 10 17) := by decide +kernel

theorem test_decode_units : decode32 0x00143059 = .ok (.strm 3 10 0) ∧ decode32 0x10000059 = .ok (.sqwait 0) ∧
    decode32 0x0000A36F = .ok (.npost 6 10) ∧ decode32 0x1008336F = .ok (.nwait 6 3 4) ∧ decode32 0x200053EF = .ok (.encj 7 5) := by
  decide +kernel

theorem test_decode_bytes : decode [0x83, 0x03, 0x00, 0x04, 0x99] = .ok (.addi 7 0 64 0, [0x99]) ∧ decode [0x83, 0x03, 0x00] = .error .short ∧
    decodeTableWord 32 0x04000383 = some (.addi 7 0 64 0) ∧ decode32 0xFFFFFFFF = .error .illegalMajor ∧
    decode16 0 = .error .reservedCompact := by decide +kernel

theorem test_encode : encode (.addi 7 0 64 0) = [0x83, 0x03, 0x00, 0x04] ∧ encode (.vfscan 12 4 0 0 1 1) = [0x4B, 0x46, 0x12, 0x60] ∧
    encode (.cAdd 3) = [0xC2, 0x00] ∧ encode .coldReset = [] := by decide +kernel

/-! ## Single steps -/

/-- A running main sequencer; e1 a local extent, e2 a window; the first 2^36 bits of the address space mapped to physical
0 by two page tables at bits 2^17 and 2^18. -/
def base : State := { State.reset with
  core := { Core.reset with
    main := { Seq.reset with running := true }
    ctl := { Ctl.reset with ptroot := 0x20001 }
    e := #v[extentZero, mkExtent 0 65536 1 true true 0, mkExtent 65536 1024 2 true true 3, mkExtent 0 4096 3 true true 5,
      0, 0, 0, 0, 0, 0, 0, 0, 0, 0, 0, 0] }
  ms := { MemSys.reset with mem := [(16384, 1), (16386, 4), (32768, 0x7F)] } }

/-- A state with scalar registers of the current sequencer set. -/
def regs (s : State) (l : List (BitVec 5 × Word)) : State := l.foldl (fun s p => s.setG p.1 p.2) s

/-- A register of elements of w bits. -/
def vec (w : Nat) (l : List Nat) : VReg := BitVec.ofNat 16384 (joinSlices w l)

/-- A state with vector registers set, VT and VL. -/
def vecs (s : State) (vt vl : Word) (l : List (Nat × VReg)) : State :=
  l.foldl (fun s p => s.setV p.1 p.2) (s.mapCtl fun c => { c with vt := vt, vl := vl })

/-- A state with mask registers set. -/
def masks (s : State) (l : List (Nat × Nat)) : State :=
  s.mapCore fun c => { c with k := l.foldl (fun k p => k.setIfInBounds p.1 (BitVec.ofNat 16384 p.2)) c.k }

/-- The next state of an instruction; the state itself where there is none. -/
def after (i : Instr) (s : State) : State := match exec i s with
  | .next t => t
  | _ => s

/-- The low elements of a vector register. -/
def elems (s : State) (r w n : Nat) : List Nat := (List.range n).map fun j => elem (s.vRaw r).toNat w j

/-- The cause and TVAL left by a trap, and whether the task has stopped. -/
def trapped (i : Instr) (s : State) : Word × Word × Bool :=
  let t := after i s
  (t.core.ctl.tcause, t.core.ctl.tval, t.core.main.running)

theorem test_addi : (after (.addi 7 0 0xFFF 0) base).g 7 = 0xFFFFFFFFFFFFFFFF ∧ (after (.addi 0 0 5 0) base).g 0 = 0 := by decide +kernel

theorem test_div : (after (.div 1 2 3 0) (regs base [(2, 7), (3, 0)])).g 1 = 0xFFFFFFFFFFFFFFFF ∧
    (after (.rem 1 2 3 0) (regs base [(2, 7), (3, 0)])).g 1 = 7 ∧
    (after (.div 1 2 3 0) (regs base [(2, 0x8000000000000000), (3, 0xFFFFFFFFFFFFFFFF)])).g 1 = 0x8000000000000000 := by decide +kernel

theorem test_mulh : (after (.mulh 1 2 3 0) (regs base [(2, 0xFFFFFFFFFFFFFFFF), (3, 2)])).g 1 = 0xFFFFFFFFFFFFFFFF ∧
    (after (.mulhu 1 2 3 0) (regs base [(2, 0xFFFFFFFFFFFFFFFF), (3, 2)])).g 1 = 1 := by decide +kernel

theorem test_limm : (after (.limm 3 0x1234 1 1) (regs base [(3, 0x5555)])).g 3 = 0x12345555 ∧
    (after (.limm 3 0x1234 1 0) (regs base [(3, 0x5555)])).g 3 = 0x12340000 := by decide +kernel

/-- R117 and R172: 1 + 2 = 3, and 1 / 0 raises DZ. -/
theorem test_float : (after (.fadd 1 2 3 1 0) (regs base [(2, 0x3F800000), (3, 0x40000000)])).g 1 = 0x40400000 ∧
    (after (.fdiv 1 2 3 1 0) (regs base [(2, 0x3F800000), (3, 0)])).g 1 = 0x7F800000 ∧
    (after (.fdiv 1 2 3 1 0) (regs base [(2, 0x3F800000), (3, 0)])).core.ctl.fflags = 8 := by decide +kernel

theorem test_store_load : (after (.st 5 3 0 63 0) (regs base [(3, 0x1000), (5, 0xDEAD)])).ms.mem.readBits 0x1000 64 = 0xDEAD ∧
    (after (.ld 7 3 0 1 7 0) (regs { base with ms := { base.ms with mem := [(0x200, 0x80)] ++ base.ms.mem } } [(3, 0x1000)])).g 7 =
      0xFFFFFFFFFFFFFF80 := by decide +kernel

/-- The store of three bits at an odd bit address changes those three bits alone (R21). -/
theorem test_store_bits : (after (.st 5 3 0 2 0) (regs base [(3, 0x1000000000000005), (5, 0xFF)])).core.ls = [(0, 0xE0)] := by decide +kernel

theorem test_access_traps : trapped (.ld 7 3 0 0 63 0) (regs base [(3, 0x1000000000010000)]) = (6, 0x1000000000010000, false) ∧
    trapped (.ld 7 3 0 0 63 0) (regs base [(3, 0x4000000000000000)]) = (8, 0x4000000000000000, false) := by decide +kernel

/-- "BNE g2, g0, back": four parcels back (R128). -/
theorem test_branch : (after (.bne 2 0 0xFFC) (regs (base.mapSeq fun q => { q with pc := 0x100 }) [(2, 1)])).seq.pc = 0xC0 ∧
    (after (.bne 2 0 0xFFC) (base.mapSeq fun q => { q with pc := 0x100 })).seq.pc = 0x120 := by decide +kernel

theorem test_jump : (after (.jal 1 2) (base.mapSeq fun q => { q with pc := 0x100 })).seq.pc = 0x120 ∧
    (after (.jal 1 2) (base.mapSeq fun q => { q with pc := 0x100 })).g 1 = 0x120 ∧
    (after (.jalr 1 1 0x10 0) (regs base [(1, 0x200)])).seq.pc = 0x210 := by decide +kernel

/-- "LOOPI 3, gend" at 0 with the body at 0x20 and the end at 0x80 (R129). -/
theorem test_loop : let q := (after (.loopi 6 3) base).seq
    q.pc = 0x20 ∧ q.depth = 1 ∧ q.lc[0] = 3 ∧ q.le[0] = 0x80 ∧ q.lb[0] = 0x20 := by decide +kernel

/-- A trap enters the handler with the record of R356, and ERET returns (R390). -/
theorem test_trap_entry : let s := (base.mapCtl fun c => { c with tvec := 0x4000 }).mapSeq fun q => { q with pc := 0x140 }
    let t := after (.bkpt 7) s
    t.seq.pc = 0x4000 ∧ t.core.ctl.tpc = 0x140 ∧ t.core.ctl.tval = 7 ∧ t.core.ctl.tstat = 1 ∧ (after .eret t).seq.pc = 0x140 ∧
    (after .eret t).core.ctl.tstat = 0 := by decide +kernel

theorem test_syscall : let s := (base.mapCtl fun c => { c with tvec := 0x4000 }).mapSeq fun q => { q with pc := 0x140 }
    (after (.sys 9) s).core.ctl.tpc = 0x160 ∧ (after (.sys 9) s).core.ctl.tval = 9 := by decide +kernel

/-- A task that is not privileged may not write PTROOT (R124, R385). -/
theorem test_privilege : let s := base.mapCtl fun c => { c with taskid := 0x0000000100000000 }
    (after (.ctlw 0 1 0x050) s).core.ctl.tcause = 8 := by decide +kernel

/-- SETVT of 0x1F02 gives VLMAX 512, and SETVL clips to it (R142, R143). -/
theorem test_setvl : (after (.setvt 6 5 0) (regs base [(5, 0x1F02)])).g 6 = 512 ∧
    (after (.setvl 6 2 0) (regs (base.mapCtl fun c => { c with vt := 0x1F02 }) [(2, 1000)])).g 6 = 512 := by decide +kernel

/-- VIDX with start 0 and step 3 (R192). -/
theorem test_vidx : elems (after (.vidx 1 0 0 3 0) (vecs base 0x1F02 4 [])) 1 32 5 = [0, 3, 6, 9, 0] := by decide +kernel

/-- The resumed VMACC of R204's example: ESTART keeps element 0, and the tail keeps its value. -/
theorem test_vmacc_resumed : let s := (vecs base 0x1F02 3 [(4, vec 32 [16, 10, 10, 10]), (8, vec 32 [3, 3, 3, 3]), (12, vec 32 [2, 2, 2, 2])])
    elems (after (.vmaccVv 4 8 12 0 0) (s.mapCtl fun c => { c with estart := 1 })) 4 32 4 = [16, 16, 16, 10] := by decide +kernel

/-- The masked store of four s4 elements (R145, R166). -/
theorem test_masked_store : let s := masks (vecs (regs base [(3, 0x1000000000000000)]) 0xC301 4 [(2, vec 16 [5, 0xFFF9, 9, 0xFFF0])]) [(1, 11)]
    let t := after (.vst 2 3 1 0) (s.mapCore fun c => { c with ls := [(0, 0xFF), (1, 0xFF)] })
    t.core.ls.readBits 0 16 = 0x8F95 ∧ t.core.ctl.fxsat = 1 := by decide +kernel

/-- The ragged rows of R210. -/
theorem test_vrsum : let s := masks (vecs base 0x1F02 7 [(8, vec 32 [1, 2, 3, 4, 5, 6, 7])]) [(1, 0x5F), (2, 0x18)]
    elems (after (.vrsum 4 8 0 0 2) s) 4 32 4 = [6, 4, 18, 0] ∧ elems (after (.vrsum 4 8 1 0 2) s) 4 32 4 = [6, 4, 12, 0] ∧
    (after (.vrsum 5 8 0 0 0) s).g 5 = 28 := by decide +kernel

/-- The pairwise tree of R181: 1, 2^24, 1, -2^24, 1 gives 2. -/
theorem test_pair_tree : (after (.vrfsum 5 8 0 0 0) (vecs base 0x1F02 5
    [(8, vec 32 [0x3F800000, 0x4B800000, 0x3F800000, 0xCB800000, 0x3F800000])])).g 5 = 0x40000000 := by decide +kernel

/-- Running sums in segments (R211). -/
theorem test_vscan : let s := masks (vecs base 0x1F02 7 [(8, vec 32 [1, 2, 3, 4, 5, 6, 7])]) [(2, 0x18)]
    elems (after (.vscan 4 8 0 0 0 2) s) 4 32 7 = [1, 3, 6, 4, 5, 11, 18] ∧
    elems (after (.vscan 4 8 0 0 1 2) s) 4 32 7 = [0, 1, 3, 0, 0, 5, 11] := by decide +kernel

/-- The block of the example at R177: codes, scale and NX. -/
theorem test_block_convert : let s := vecs base 0x1F02 32 [(21, vec 32 [0x41200000, 0xC0600000, 0x3F000000, 0x3F800000, 0x40E00000,
      0xBF600000, 0x40280000, 0x400C0000])]
    let t := after (.vfcvt4 4 21 6 0) s
    elem (t.vRaw 4).toNat 128 0 = 0x239611C7 ∧ elem (t.vRaw 6).toNat 8 0 = 0x86 ∧ t.core.ctl.fflags = 1 := by decide +kernel

/-- KFFS of an empty mask gives 2^64 - 1 (R220). -/
theorem test_kffs : (after (.kffs 9 2 0 0) (vecs base 0x1F02 8 [])).g 9 = 0xFFFFFFFFFFFFFFFF ∧
    (after (.kffs 9 2 0 0) (masks (vecs base 0x1F02 8 []) [(2, 0x50)])).g 9 = 4 := by decide +kernel

/-- The exact special cases of VFEXP2 and VFLOG2 (R182). -/
theorem test_exp2_log2 : elems (after (.vfexp2 4 8 0 0) (vecs base 0x1F02 2 [(8, vec 32 [0x40400000, 0])])) 4 32 2 = [0x41000000, 0x3F800000] ∧
    elems (after (.vflog2 4 8 0 0) (vecs base 0x1F02 2 [(8, vec 32 [0x41000000, 0x3F800000])])) 4 32 2 = [0x40400000, 0] := by
  decide +kernel

/-- The estimate of a reciprocal that is subnormal is within 2^-12 (R183): with x = m 2^p and y = b 2^-149, |m b - 2^(149-p)| against it. -/
theorem test_vfrece_subnormal : let xs := [0x7F000000, 0x7F2F5C29, 0x7F400001, 0x7F7FFFFF, 0x7EB33333]
    let s := after (.vfrece 4 8 0 0) (vecs base 0x1F02 5 [(8, vec 32 xs)])
    (List.zip xs (elems s 4 32 5)).all fun p =>
      let m := p.1 % 2 ^ 23 + 2 ^ 23
      let at1 := 2 ^ (299 - p.1 / 2 ^ 23)
      decide ((m * p.2 - at1) + (at1 - m * p.2) ≤ at1 / 2 ^ 12) := by decide +kernel

theorem test_amo : let s := regs { base with core := { base.core with ls := [(0, 5)] } } [(2, 0x1000000000000000), (3, 7)]
    (after (.amo 1 2 3 1 3) s).g 1 = 5 ∧ (after (.cas 1 2 3 3) (regs s [(1, 5)])).core.ls = [(0, 7)] := by decide +kernel

/-- BARINIT writes the whole block, and BARWAIT then waits for the first bit (R250, R252). -/
theorem test_window : let s := after (.barinit 10) (regs base [(10, 0x2000000000000000), (17, 1)])
    s.blockOf 3 = 1024 * 2 ^ 128 + 2 ^ 154 ∧ (after (.barwait 10 17) s).seq.wait = some (.barwait 10 17) := by decide +kernel

theorem test_gbind : let s := regs base [(1, 0x1000000000000000), (2, 0x1000000000000100), (3, 64)]
    (after (.gbind 1 2 3 0) s).core.guards = [⟨0, 64, true, 0x100, true, 0⟩] ∧
    (after (.gunbind 1) (after (.gbind 1 2 3 0) s)).core.guards = [] := by decide +kernel

/-- An undeclared tile is refused, a declared one is zeroed and marked (R256, R268). -/
theorem test_mzero : let s := base.mapCtl fun c => { c with mstat := 0x100 }
    trapped (.mzero 1) s = (8, 0xFFFFFFFF00000000, false) ∧ (after (.mzero 0) s).core.ctl.mstat = 0x101 := by decide +kernel

/-- From its bytes in memory, ADDI g7, g0, 64 runs in one step (R47, R66). -/
theorem test_fetch_and_step : let s := { base with ms := { base.ms with mem := [(0, 0x83), (1, 0x03), (3, 0x04)] ++ base.ms.mem } }
    (match step s with
      | .next t => some (t.core.main.g.get 7, t.core.main.pc)
      | _ => none) = some (64, 32) := by decide +kernel

/-- A cold reset clears device memory and starts the black box with one event (R426, R428). -/
theorem test_cold_reset : (after .coldReset base).ms.mem = [] ∧ (after .coldReset base).io.bbcnt = 1 ∧
    (after .coldReset base).io.mstate = 8 := by decide +kernel

/-! ## Witnesses: for each statement with hypotheses, states and operands that meet them, clause by clause -/

/-- Element 0 is the only one below a VL of 1. -/
theorem below_one {i n : Nat} (h : i < n) (hn : n = 1) : i = 0 := by omega

theorem some_of {α : Type} {o : Option α} (h : o.isSome = true) : ∃ r, o = some r := Option.isSome_iff_exists.mp h

theorem some_with {α : Type} {P : α → Prop} (o : Option α) (h : o.isSome = true) (hp : P (o.get h)) : ∃ r, o = some r ∧ P r :=
  ⟨o.get h, (Option.some_get h).symm, hp⟩

/-- The local extent with an offset, the window of e2, and the region of e3. -/
def loc (o : Nat) : Word := BitVec.ofNat 64 (2 ^ 60 + o)
def win : Word := 0x2000000000000000
def ver : Word := 0x3000000000000000

theorem witness_ScalarResults : base.scalarResult (.addi 7 0 64 0) = some ⟨32, 7, 64⟩ ∧
    (base.mapSeq fun q => { q with ldr := 0x23 }).scalarResult (.cAddi 5) = some ⟨16, 3, 5⟩ := by decide +kernel

theorem witness_AddressesAndExtents : base.addressResult (.etag 3 0 1 0) = some ⟨32, 3, loc 0⟩ ∧
    (regs base [(1, 0x0400000000000000)]).addressResult (.baddr 3 1 2 0) = none ∧
    baddrOffset 0 (BitVec.ofInt 64 (-1)) < 0 ∧ 2 ^ 58 ≤ baddrOffset 0x03FFFFFFFFFFFFFF 1 ∧ 2 ^ 58 ≤ (0x0400000000000000 : Word).toNat ∧
    extKind (base.core.e[2]?.getD 0) = 2 ∧ extKind (base.core.e[3]?.getD 0) = 3 ∧ extLen (base.core.e[1]?.getD 0) = 65536 := by
  decide +kernel

theorem witness_ScalarLoad : eaOf (loc 8) 8 = some (loc 16) ∧ base.resolve base.via (loc 16) 64 .load = .ok [.ls 16 64] ∧
    base.lastUse 0 = false ∧ base.resolve base.via 0x1000 64 .const = .ok [.phys 0x1000 64] ∧
    base.ms.changedBits base.seq.constMark 0x1000 64 = 0 := by decide +kernel

theorem base_inv : base.Inv := ⟨by decide +kernel, by decide +kernel, by decide +kernel⟩

theorem witness_ScalarStore : base.Inv ∧ eaOf (loc 8) 8 = some (loc 16) ∧
    base.resolve base.via (loc 16) 3 .store = .ok [.ls 16 3] ∧ unpacked [.ls 16 3] ∧ base.lastUse 0 = false :=
  ⟨base_inv, by decide +kernel, by decide +kernel, by simp [unpacked], by decide +kernel⟩

theorem witness_ScalarAccessTraps : eaOf 0x0400000000000000 0 = none ∧ eaOf (loc 65472) 64 = some (loc 65536) ∧
    base.resolve base.via (loc 65536) 1 .load = .error ⟨.bounds, loc 65536, 1, 65536⟩ ∧
    base.resolve base.via (loc 65536) 1 .store = .error ⟨.bounds, loc 65536, 1, 65536⟩ ∧
    base.resolve base.via (loc 0) 1 .const = .error ⟨.perm, loc 0, 0, 0⟩ := by decide +kernel

/-- Every floating exception enabled. -/
def strict : State := base.mapCtl fun c => { c with fflags := 0x1F00 }

theorem witness_ScalarFloatResults :
    (∃ r, (regs base [(2, 0x3F800000)]).scalarFloat (.fadd 1 2 0 1 0) = some (1, r) ∧ r.flags &&& base.ten = 0) ∧
    (∃ r, (regs strict [(2, 0x3F800000)]).scalarFloat (.fdiv 1 2 0 1 0) = some (1, r) ∧ r.flags &&& strict.ten ≠ 0) ∧
    (10 : BitVec 5).toNat ∉ [0, 1, 2, 3, 4, 5, 6, 7, 8, 9, 16, 17, 18, 19, 24, 25, 26, 27] :=
  ⟨⟨_, rfl, by decide +kernel⟩, ⟨_, rfl, by decide +kernel⟩, by decide⟩

theorem witness_FixedPointRounding : (let r : Int := 1 - 2 ^ 1 * roundFX 1 1 1; 2 * r = 2 ^ 1 ∨ 2 * r = -2 ^ 1) ∧
    (let r : Int := 1 - 2 ^ 1 * roundFX 1 1 3; r ≠ 0) := by decide +kernel

theorem witness_FloatRounding : Fmt.f32.unpack 0x3F800000 = .fin false 0x800000 (-23) ∧ (∃ b, Fmt.e5m2.unpack 0x7F = .nan b) ∧
    3 % 2 ^ 1 ≠ 0 ∧ 4 % 2 ^ 1 = 0 := ⟨by decide +kernel, ⟨false, by decide +kernel⟩, by decide, by decide⟩

theorem witness_ConditionalBranches : base.branchOf (.beq 0 0 4) = some (true, 4) ∧ base.branchOf (.bne 0 0 4) = some (false, 4) ∧
    inSpace (base.seq.pc.toNat + 16 * (4 : BitVec 12).toInt) ∧ ¬ inSpace (base.seq.pc.toNat + 16 * (0xFFF : BitVec 12).toInt) := by
  unfold inSpace; decide +kernel

theorem witness_Jumps : inSpace (base.seq.pc.toNat + 16 * (4 : BitVec 20).toInt) ∧
    ¬ inSpace (base.seq.pc.toNat + 16 * (0xFFFFF : BitVec 20).toInt) ∧
    inSpace ((base.g 1).toNat + (16 : BitVec 12).toInt) ∧ ((base.g 1).toNat + (16 : BitVec 12).toInt) % 16 = 0 ∧
    ¬ (inSpace ((base.g 1).toNat + (8 : BitVec 12).toInt) ∧ ((base.g 1).toNat + (8 : BitVec 12).toInt) % 16 = 0) := by
  unfold inSpace; decide +kernel

/-- A loop of one level that ends at bit 0x80, with two passes left. -/
def inLoop : Seq := { base.seq with depth := 1, lc := #v[2, 0, 0, 0, 0, 0], le := #v[0x80, 0, 0, 0, 0, 0], lb := #v[0x20, 0, 0, 0, 0, 0] }

theorem witness_HardwareLoops : (regs base [(1, 3)]).g 1 ≠ 0 ∧ base.seq.depth.toNat < 6 ∧ ¬ base.seq.EndsAt 0x80 ∧ base.seq.depth = 0 ∧
    0 < inLoop.depth.toNat ∧ inLoop.EndsAt 0x80 ∧ inLoop.depth.toNat = 0 + 1 ∧ inLoop.lc[0]?.getD 0 - 1 ≠ 0 ∧
    ({ inLoop with lc := #v[1, 0, 0, 0, 0, 0] } : Seq).lc[0]?.getD 0 - 1 = 0 ∧ 6 ≤ ({ inLoop with depth := 6 } : Seq).depth.toNat := by
  unfold Seq.EndsAt; decide +kernel

/-- Sixteen ADDs behind the word at 0. -/
def framed : State := { base with ms := { base.ms with mem := ((List.range 16).map fun n => (4 + 4 * n, 1)) ++ base.ms.mem } }

/-- The frame that RPT 2 opens there. -/
def frame16 : Frame := { base := 0, passes := 2, step := 0, sm := 0, words := List.replicate 16 1, pos := 0 }

/-- A sequencer in that frame, at an instruction and a pass. -/
def inFrame (pos : Nat) (idx : Word) : Seq := { base.seq with frame := some { frame16 with pos := pos }, rpidx := idx }

theorem witness_RepeatFrame : framed.openFrame 0 2 0 0 = .ok frame16 ∧
    base.openFrame 0 2 0 0 = .error ⟨.illframe, frameValue 0 0 0, 0, 0⟩ ∧
    (inFrame 0 0).frame = some frame16 ∧ (inFrame 0 0).pass < frame16.passes ∧ frame16.passes ≤ 1024 ∧
    (inFrame 15 0).pass + 1 < frame16.passes ∧ (inFrame 15 1).pass + 1 = frame16.passes ∧
    ¬ (inFrame 15 1).EndsAt (frame16.base + 544) := by
  unfold Seq.EndsAt
  decide +kernel

/-- Both sequencers running, each in its rendezvous; the matrix sequencer in focus in the second. -/
def paired (ends : Bool) : State := base.mapCore fun c => { c with
  main := { c.main with wait := some (.rdv false) }, matrix := { c.matrix with running := true, wait := some (.rdv ends) } }

theorem witness_ForkAndRendezvous : base.cur = .main ∧ inSpace (base.seq.pc.toNat + 16 * (4 : BitVec 21).toInt) ∧
    base.core.matrix.running = false ∧ base.core.main.inFlight = [] ∧ (paired false).core.matrix.running = true ∧
    (base.focus 0 .matrix).cur = .matrix ∧ ¬ inSpace (base.seq.pc.toNat + 16 * (0x1FFFFF : BitVec 21).toInt) ∧
    (base.core.main.atRdv && base.core.matrix.atRdv) = false ∧ ((paired true).coreAt 0).main.atRdv = true ∧
    ((paired true).coreAt 0).matrix.atRdv = true ∧ (paired true).core.matrix.wait = some (.rdv true) ∧
    (paired false).core.matrix.wait = some (.rdv false) := by unfold inSpace; decide +kernel

/-- Two 32-bit elements in the registers v8 and v12, all active. -/
def two : State := vecs base 0x1F02 2 [(8, vec 32 [5, 6]), (12, vec 32 [7, 8])]
/-- One element of f32, 1.0 over 0. -/
def ratio (s : State) : State := vecs s 0x1F02 1 [(8, vec 32 [0x3F800000])]

theorem witness_VectorIntegerResults : (∃ r, two.vectorInteger (.vaddVv 4 8 12 0 0) = some r) ∧
    (∃ r, (two.mapSeq fun q => { q with ldr := 0x48 }).vectorInteger (.cVadd 12) = some r) ∧
    (∃ r, two.vectorResizing (.vwaddVv 4 8 12 0 0) = some r) ∧ (∃ r, two.vectorInteger (.vmergeVv 4 8 12 1 0) = some r) :=
  ⟨some_of (by decide +kernel), some_of (by decide +kernel), some_of (by decide +kernel), some_of (by decide +kernel)⟩

theorem witness_VectorFloatResults :
    (∃ r, (ratio base).vectorFloat (.vfaddVv 4 8 12 0 0) = some r ∧ (ratio base).Quiet r.k r.f) ∧
    (∃ r, (ratio base).vectorMask (.vfcmpVv 2 8 12 0 0 1) = some r ∧ (ratio base).Quiet r.k r.f) := by
  refine ⟨some_with _ (by decide +kernel) ?_, some_with _ (by decide +kernel) ?_⟩
  all_goals
    intro i _ hi _
    cases below_one hi (by decide +kernel)
    decide +kernel

theorem witness_VectorFloatTraps : ∃ r, (ratio strict).vectorFloat (.vfdivVv 4 8 12 0 0) = some r ∧ (ratio strict).TrapsAt r.k r.f 0 :=
  some_with _ (by decide +kernel) ⟨by decide +kernel, by decide +kernel, fun j _ h => absurd h (Nat.not_lt_zero j)⟩

theorem witness_BlockConvert : let s := ratio base
    (s.cw = 32 ∧ groupOk 21 s.grp = true ∧ ¬ groupsMeet 4 1 21 s.grp ∧ ¬ groupsMeet 6 1 21 s.grp ∧ (4 : BitVec 5) ≠ 6) ∧
    ¬ (s.cw = 32 ∧ groupOk 21 s.grp = true ∧ ¬ groupsMeet 4 1 21 s.grp ∧ ¬ groupsMeet 4 1 21 s.grp ∧ (4 : BitVec 5) ≠ 4) ∧
    ∀ j ∈ (List.range ((s.vl + 31) / 32)).filter fun j => s.estart / 32 ≤ j,
      (blockConvert ((List.range 32).map fun m => elem (s.group 21 s.grp % 2 ^ (32 * s.vl)) 32 (32 * j + m))).flags &&& s.ten = 0 := by
  decide +kernel

/-- The place of element i of 32 bits at the start of the local extent. -/
def dense32 (i _f : Nat) : List Seg := [.ls (32 * i) 32]

theorem witness_VectorLoads : let s := regs two [(3, loc 0)]
    ∃ r, s.vectorLoad (.vld 4 3 0 0) = some r ∧ s.Placed r s.vl dense32 ∧ s.lastUse r.h = false := by
  refine some_with _ (by decide +kernel) ⟨?_, by decide +kernel⟩
  unfold State.Placed
  decide +kernel

/-- A base whose second element of 32 bits passes the end of the local extent, and the trap of that element. -/
def nearEnd : State := regs two [(3, loc 65504)]
def pastEnd : Trap := ⟨.bounds, loc 65536, 32, 65536⟩

theorem witness_VectorLoadFaults : ∃ r, nearEnd.vectorLoad (.vldff 4 3 0 0) = some r ∧ nearEnd.FailsAt r 1 pastEnd ∧
    nearEnd.Placed r 1 (fun _ _ => [.ls 65504 32]) ∧ ((∃ j ∈ nearEnd.active r.k nearEnd.estart, j < 1) ∧
      pastEnd.cause ∈ [Cause.addr, .bounds, .page, .perm]) := by
  refine some_with _ (by decide +kernel) ⟨⟨by decide +kernel, 0, by decide +kernel, by decide +kernel, ?_⟩, ?_, by decide +kernel⟩
  · exact fun g h => absurd h (Nat.not_lt_zero g)
  · unfold State.Placed
    decide +kernel

theorem witness_VectorStores : let s := regs two [(3, loc 0)]
    s.Inv ∧ (∃ r, s.vectorStore (.vst 8 3 0 0) = some r ∧ s.Placed r s.vl dense32 ∧ s.lastUse r.h = false ∧
      s.parts r s.vl dense32 = [.ls 0 32, .ls 32 32]) ∧ unpacked [.ls 0 32, .ls 32 32] ∧
    (∃ r, nearEnd.vectorStore (.vst 8 3 0 0) = some r ∧ nearEnd.FailsAt r 1 pastEnd ∧ nearEnd.Placed r 1 (fun _ _ => [.ls 65504 32])) := by
  refine ⟨⟨by decide +kernel, by decide +kernel, by decide +kernel⟩,
    some_with _ (by decide +kernel) ⟨?_, by decide +kernel, by decide +kernel⟩, by simp [unpacked],
    some_with _ (by decide +kernel) ⟨⟨by decide +kernel, 0, by decide +kernel, by decide +kernel, ?_⟩, ?_⟩⟩
  · unfold State.Placed; decide +kernel
  · exact fun g h => absurd h (Nat.not_lt_zero g)
  · unfold State.Placed; decide +kernel

/-- The window of e2 initialised, and the same with the write count at n. -/
def opened : State := after (.barinit 10) (regs two [(10, win)])
def openedTo (n : Nat) : State := opened.setCount 3 n

/-- Infinities of both signs, whose sum is invalid. -/
def clash (s : State) : State := vecs s 0x1F02 2 [(8, vec 32 [0x7F800000, 0xFF800000])]

theorem witness_Reductions :
    (∃ r, two.reduction (.vrsum 5 8 0 0 0) = some r ∧ groupOk r.a two.grp = true ∧ r.sm = 0 ∧ (two.wholeResult r).flags &&& two.ten = 0) ∧
    (∃ r, (clash strict).reduction (.vrfsum 5 8 0 0 0) = some r ∧ r.sm = 0 ∧ ((clash strict).wholeResult r).flags &&& (clash strict).ten ≠ 0) ∧
    (∃ r, two.reduction (.vrsum 4 8 0 0 2) = some r ∧ r.sm ≠ 0 ∧ groupOk r.d two.grp = true ∧ two.segmentFlags r &&& two.ten = 0) ∧
    (∃ r, (clash strict).reduction (.vrfsum 4 8 0 0 2) = some r ∧ r.sm ≠ 0 ∧ (clash strict).segmentFlags r &&& (clash strict).ten ≠ 0) :=
  by and_intros; all_goals exact some_with _ (by decide +kernel) (by decide +kernel)

/-- The scan of R211 in f32 over v8, doubled often enough for the VL. -/
def scan32 (s : State) : (Nat → Option Nat) × Nat :=
  scanRun (fAdd .f32 s.rmode) (s.startOf 0) s.vl 1 1 fun i => some (elem (s.group 8 s.grp) 32 i)

theorem witness_Scans : groupOk 8 two.grp = true ∧ groupOk 4 two.grp = true ∧ two.vl ≤ vlmax two.vt ∧ vtFmt two.vt = some .f32 ∧
    (scan32 (clash base)).2 &&& (clash base).ten = 0 ∧ (scan32 (clash strict)).2 &&& (clash strict).ten ≠ 0 := by decide +kernel

theorem witness_StripSoftmax : let s := ratio base
    (s.cw = 32 ∧ (20 : BitVec 5) ≠ 0 ∧ (20 : BitVec 5) ≠ 31 ∧ groupOk 4 s.grp = true ∧ groupOk 8 s.grp = true) ∧
    (strip (s.g 20) ((s.active 0 0).map fun i => elem (s.group 8 s.grp) 32 i)).flags &&& s.ten = 0 ∧
    (strip 0 [0x7F800001]).flags &&& strict.ten ≠ 0 ∧ elem ((vecs strict 0x1F02 1 [(8, vec 32 [0x7F800001])]).group 8 1) 32 0 = 0x7F800001 := by
  decide +kernel

theorem witness_Permutations : (∃ r, two.permutation (.vslup 4 8 1 0 0) = some r) ∧ (∃ r, two.permutation (.vcomp 4 8 3 0) = some r) ∧
    (∃ r, two.permutation (.vins 4 1 2 0) = some r) :=
  ⟨some_of (by decide +kernel), some_of (by decide +kernel), some_of (by decide +kernel)⟩

theorem witness_MaskResults : (∃ r, two.maskResult (.kand 1 2 3 0) = some r) ∧ (∃ r, two.scalarFromVector (.vextr 5 8 1 0) = some r) :=
  ⟨some_of (by decide +kernel), some_of (by decide +kernel)⟩

/-- Tile 0 declared, both buffers valid. -/
def tiled : State := base.mapCtl fun c => { c with mstat := 0x90100 }

theorem witness_TileMoves : tiled.declared 0 ∧ ¬ tiled.declared 1 := by unfold State.declared; decide +kernel

/-- Fields at their offsets in the local extent. -/
def flat (o : Int) (w : Nat) : List Seg := [.ls o.toNat w]

theorem local_spot {s : State} (he : s.extents[1]? = some (mkExtent 0 65536 1 true true 0)) (o w : Nat) (h : o + w ≤ 65536) :
    s.spot (loc 0) o w .matrix = .ok [.ls o w] := by
  have hb : (loc 0).toNat = 2 ^ 60 := rfl
  have ho : (((loc 0).toNat % 2 ^ 58 : Nat) : Int) + (o : Int) = o := by rw [hb]; omega
  have ht : (BitVec.ofNat 64 ((loc 0).toNat / 2 ^ 60 * 2 ^ 60 + o)).toNat = 2 ^ 60 + o := by
    rw [hb, BitVec.toNat_ofNat]; omega
  have hn : tagOf (BitVec.ofNat 64 ((loc 0).toNat / 2 ^ 60 * 2 ^ 60 + o)) = 1 := by
    unfold tagOf bits; rw [ht]; omega
  have hf : offOf (BitVec.ofNat 64 ((loc 0).toNat / 2 ^ 60 * 2 ^ 60 + o)) = o := by
    unfold offOf bits; rw [ht]; omega
  have hz : bits (BitVec.ofNat 64 ((loc 0).toNat / 2 ^ 60 * 2 ^ 60 + o)).toNat 59 58 = 0 := by
    unfold bits; rw [ht]; omega
  have hx : extKind (mkExtent 0 65536 1 true true 0) = 1 ∧ extLen (mkExtent 0 65536 1 true true 0) = 65536 ∧
    extBase (mkExtent 0 65536 1 true true 0) = 0 ∧ extRead (mkExtent 0 65536 1 true true 0) = true := by decide +kernel
  have hc : checkExtent s.via.ext (BitVec.ofNat 64 ((loc 0).toNat / 2 ^ 60 * 2 ^ 60 + o)) w .matrix = .ok (1, o) := by
    have hv : s.via.ext[1]?.getD 0 = mkExtent 0 65536 1 true true 0 := by rw [show s.via.ext = s.extents from rfl, he]; rfl
    unfold checkExtent
    simp only [hn, hf, hz, hv, hx]
    rw [if_neg (by decide), if_neg (by decide), if_neg (by decide), if_neg (by decide), if_neg (by omega), Nat.zero_add]
  unfold State.spot
  simp only [ho]
  rw [if_neg (by rw [hb]; omega)]
  unfold State.resolve
  simp only [Int.toNat_natCast, hc]
  rw [if_pos (by decide), if_neg (fun x => absurd x.1 (by decide)), if_neg (fun x => absurd x.1 (by decide))]

theorem all_local {s : State} (he : s.extents[1]? = some (mkExtent 0 65536 1 true true 0)) (f : Nat → Nat × Nat) (n : Nat)
    (h : ∀ i, i < n → (f i).1 + (f i).2 ≤ 65536) : s.AllPass (loc 0) ((List.range n).map fun i => (((f i).1 : Int), (f i).2)) flat := by
  intro x hx
  obtain ⟨i, hi, rfl⟩ := List.mem_map.mp hx
  exact local_spot he _ _ (h i (List.mem_range.mp hi))

/-- A base in the extent e4, which permits nothing. -/
def shut : Word := 0x4000000000000000

theorem fails_first {s : State} {f : Nat → Int × Nat} {n : Nat} {tr : Trap} (h0 : (f 0).1 = 0) (hf : ∀ m, 0 ≤ (f m).1) (hn : 0 < n)
    (ht : s.spot shut (f 0).1 (f 0).2 .matrix = .error tr) : s.LowestFails shut ((List.range n).map f) tr := by
  refine ⟨0, f 0, by simp [hn], ht, fun m y e hy _ => ?_⟩
  simp only [List.getElem?_map, Option.map_eq_some_iff] at hy
  obtain ⟨k, -, rfl⟩ := hy
  have := hf k
  omega

theorem witness_MatrixLoads : (regs base [(1, loc 0)]).AllPass (loc 0) (mldaItems 512 16) flat ∧
    (regs base [(1, loc 0)]).AllPass (loc 0) (blockItems 2 true) flat ∧
    base.LowestFails shut (mldaItems 512 16) ⟨.perm, shut, 0, 0⟩ ∧ (2 : BitVec 3).toNat ≤ 3 ∧ ((1 : BitVec 1) = 1 → 2 ≤ (2 : BitVec 3).toNat) := by
  refine ⟨?_, ?_, fails_first (by decide) (fun m => ?_) (by decide) (by decide +kernel), by decide, by decide⟩
  · refine Eq.mp ?_ (all_local (s := regs base [(1, loc 0)]) rfl (fun i => (i / 32 * 512 + i % 32 * 16, 16)) 4096 fun i h => by dsimp only; omega)
    unfold mldaItems
    simp only [Int.natCast_add, Int.natCast_mul, Nat.cast_ofNat]
  · refine Eq.mp ?_ (all_local (s := regs base [(1, loc 0)]) rfl (fun i => (0 + i * 8, 8)) 2048 fun i h => by dsimp only; omega)
    rw [show blockItems 2 true = (List.range 2048).map (fun i => (((0 + i * 8 : Nat) : Int), 8)) ++ [] from rfl, List.append_nil]
  · show (0 : Int) ≤ (m / 32 : Nat) * 512 + (m % 32 * 16 : Nat)
    omega

theorem witness_MatrixMultiply : tiled.core.ctl.mstat.getLsbD 16 = true ∧ tiled.core.ctl.mstat.getLsbD 19 = true ∧ tiled.declared 0 ∧
    base.core.ctl.mstat.getLsbD 16 = false ∧
    (regs tiled [(1, loc 0)]).AllPass (loc 0) ((List.range 64).map fun c => ((32 * c : Nat), 32)) flat ∧
    tiled.LowestFails shut ((List.range 64).map fun c => ((64 * c : Nat), 64)) ⟨.perm, shut, 0, 0⟩ ∧
    [FVal.fin false 0 0, .fin true 0 0].Perm [.fin true 0 0, .fin false 0 0] ∧ (∀ p ∈ [FVal.fin false 0 0, .fin true 0 0], p.isZero = true) := by
  and_intros
  on_goal 6 => exact fails_first (by decide) (fun m => Int.natCast_nonneg _) (by decide) (by decide +kernel)
  on_goal 6 => exact List.Perm.swap _ _ _
  all_goals first | decide +kernel | (unfold State.declared; decide +kernel) | (unfold State.AllPass; decide +kernel)

theorem witness_TileStore : base.Inv ∧ 64 * min ((regs base [(2, 1)]).g 2).toNat 128 = 64 ∧
    (∀ n, n < 64 → (regs base [(2, 1)]).spot (loc 0) ((n * 32 : Nat) : Int) 32 .store = .ok [.ls (32 * n) 32]) ∧
    (∀ n, unpacked [.ls (32 * n) 32]) ∧ base.spot (loc 65504) ((0 * 32 : Nat) : Int) 32 .store = .ok [.ls 65504 32] ∧
    base.spot (loc 65504) ((1 * 32 : Nat) : Int) 32 .store = .error pastEnd :=
  ⟨base_inv, by decide +kernel, by decide +kernel, fun n => by simp [unpacked], by decide +kernel, by decide +kernel⟩

/-- The state of a task that is not privileged. -/
def user : State := base.mapCtl fun c => { c with taskid := 0x0000000100000000 }
/-- The state of a task of Mason's graph. -/
def mason : State := base.mapCtl fun c => { c with taskid := 0xFFFF0000 }

theorem witness_ControlReads : base.crValue 0x020 = some 1 ∧ base.crValue 0xFFF = none ∧ base.crValue 0x11F = some 0 := by decide +kernel

theorem witness_ControlWrites : base.crValue 0x005 = some 0 ∧ crPrivileged 0x050 ∧ ¬ crPrivileged 0x005 ∧ user.privileged = false ∧
    mason.privileged = true ∧ ¬ vtLegal 0x4 ∧ 5 < (6 : Word).toNat % 8 ∧ ¬ (5 < (5 : Word).toNat % 8) ∧ vtLegal 0x1F02 ∧
    ¬ crLinked 0x101 0x102 ∧ crLinked 0x103 0x102 ∧ (0 < (1 : Fin 16).val ∧ 0x102 = 0x100 + 2 * (1 : Fin 16).val) := by
  unfold crPrivileged vtLegal crLinked
  decide +kernel

theorem witness_RegisterWriteEvents : 223 < 224 ∧ base.cur = SeqId.main ∧ base.coreNo < 224 ∧ vtLegal 0x1F02 ∧ ¬ vtLegal 0x80000 ∧
    (5 : Word).toNat % 8 ≤ 5 ∧ 5 < (6 : Word).toNat % 8 := by
  unfold vtLegal
  decide +kernel

theorem witness_VectorConfiguration : vtLegal 0x1F02 ∧ vtLegal 0x3FF1B ∧ ¬ vtLegal 0x2002 ∧ ¬ vtLegal 0x80000 := by
  unfold vtLegal
  decide +kernel

/-- Mason's task with a record that has not ended. -/
def aTask (k : TaskKey) (x : TaskState) : Task :=
  { key := k, image := 0, state := x, left := x, saved := false, ctx := 0, vfull := false,
    added := false, queues := Vector.replicate 16 { entries := [], fault := none }, pendingNet := 0, posted := 0, ran := 0, demoted := false,
    markMain := 0, markMatrix := 0 }
def masonKey : TaskKey := { vdev := 0, graph := 0xFFFF, record := 0 }
def tasked : State := mason.mapSched fun c => { c with tasks := [aTask masonKey .running] }

theorem witness_TrapEntry : (let s := base.mapCtl fun c => { c with tvec := 0x4000 }
      s.core.ctl.tvec.setWidth 58 ≠ (0 : BitVec 58) ∧ s.core.ctl.tstat.getLsbD 0 = false) ∧
    base.core.ctl.tvec.setWidth 58 = (0 : BitVec 58) ∧ tasked.taskKey = masonKey ∧
    tasked.sched.graph tasked.taskKey.vdev tasked.taskKey.graph ≠ none ∧ tasked.sched.task masonKey ≠ none := by decide +kernel

/-- A handler that runs, over a frame whose RPT stands at 0. -/
def handling : State := let s : State := { framed with ms := { framed.ms with mem := [(0, 0x1F), (1, 0x10), (3, 0x30)] ++ framed.ms.mem } }
  (s.mapCtl fun c => { c with tstat := 1 }).mapSeq fun q => { q with rpidx := 0x8000 }

theorem witness_SystemTrapsAndReturn : base.core.ctl.tstat.getLsbD 0 = false ∧ handling.core.ctl.tstat.getLsbD 0 = true ∧
    (handling.mapSeq fun q => { q with rpidx := 0 }).seq.rpidx.getLsbD 15 = false ∧ handling.seq.rpidx.getLsbD 15 = true ∧
    handling.resumeFrame = .ok frame16 ∧ (handling.mapSeq fun q => { q with rpbase := 0x100 }).resumeFrame = .error ⟨.illframe, frameValue 0 1 3, 0, 0⟩ := by
  decide +kernel

theorem witness_Privilege : user.privileged = false ∧ crPrivileged 0x050 ∧ user.crValue 0x050 ≠ none ∧ mason.privileged = true := by
  unfold crPrivileged
  decide +kernel

theorem witness_TranslationMaintenance : mason.privileged = true ∧ mason.ms.past = [] ∧ (mason.g 1).toNat < 2 ^ 58 ∧
    2 ^ 58 ≤ ((regs mason [(1, 0x0400000000000000)]).g 1).toNat ∧ (0x20001 : Word).toNat / 2 ^ 54 = (mason.g 2).toNat % 1024 := by decide +kernel

theorem witness_CacheMaintenance : let s := regs mason [(2, 64)]
    (s.g 2).toNat ≠ 0 ∧ (mason.g 2).toNat = 0 ∧ 0 % 2 ^ 25 + 64 ≤ 2 ^ 25 ∧ ptePacked 0x7F = false ∧
    checkExtent s.extents (s.g 1) 64 .clean = .ok (0, 0) ∧ s.page s.via 0 64 false = some (0x7F, 0) ∧ s.permitLines .clean 0x7F 0 64 = none ∧
    s.privileged = true ∧ s.ms.mem.wf ∧ (s.ms.dirty.map (·.addr)).Nodup ∧ checkExtent s.extents (s.g 1) 64 .drop = .ok (0, 0) ∧
    s.page s.via 0 64 true = some (0x7F, 0) ∧ s.permitLines .drop 0x7F 0 64 = none ∧
    checkExtent s.extents shut 64 .clean = .error ⟨.perm, shut, 0, 0⟩ := by decide +kernel

theorem witness_Atomics : base.Inv ∧ ¬ ((10 : BitVec 4).toNat ≤ 9 ∧ ((10 : BitVec 4) = 9 → 2 ≤ (3 : BitVec 2).toNat)) ∧
    ((9 : BitVec 4).toNat ≤ 9 ∧ ((9 : BitVec 4) = 9 → 2 ≤ (2 : BitVec 2).toNat)) ∧
    base.resolve base.via (loc 448) 64 .atomic = .ok [.ls 448 64] ∧ unpacked [.ls 448 64] ∧
    base.readSegs [.ls 448 64] = (base.g 1).toNat % 2 ^ 64 ∧ base.readSegs [.ls 448 64] ≠ ((regs base [(1, 1)]).g 1).toNat % 2 ^ 64 ∧
    base.resolve base.via (loc 449) 64 .atomic = .error ⟨.addr, loc 449, 0, 0⟩ :=
  ⟨base_inv, by simp, by simp, by and_intros; all_goals first | decide +kernel | simp [unpacked]⟩

theorem witness_VectorAtomics : let s := regs two [(3, loc 0)]
    vtW s.vt = s.cw ∧ groupOk 4 s.grp = true ∧ groupOk 12 s.grp = true ∧ ¬ groupsMeet 4 s.grp 12 s.grp ∧ vtFmt s.vt = some .f32 ∧ 16 ≤ s.cw ∧
    (∀ i ∈ s.active 0 s.estart, s.spot (loc 0) (s.indexAt 12 i) s.cw .atomic = .ok [.ls (7 + i) 32]) ∧
    s.resolve s.via (s.g 3) s.cw .atomic = .ok [.ls 0 32] := by decide +kernel

/-- Guards in the local store: bound, and with the table full. -/
def guarded (n : Nat) : State := (regs base [(1, loc 0), (2, loc 256), (3, 64)]).mapCore fun c =>
  { c with guards := List.replicate n { sc := 0, rlen := 64, regionLocal := true, rbase := 256, guardLocal := true, gaddr := 0 } }
def bothWays : Machine.Class := { kinds := [0, 1, 2], rd := true, wr := true }
def regionOnly : Machine.Class := { kinds := [0, 1], rd := false, wr := true }

theorem witness_GuardsAndWaits : let s := guarded 0
    base.g 3 = 0 ∧ s.g 3 ≠ 0 ∧ checkExtent s.extents shut 64 bothWays = .error ⟨.perm, shut, 0, 0⟩ ∧
    checkExtent s.extents (loc 0) 64 bothWays = .ok (1, 0) ∧ checkExtent s.extents (loc 32) 64 bothWays = .ok (1, 32) ∧ 32 % 64 ≠ 0 ∧
    checkExtent s.extents win 64 regionOnly = .error ⟨.perm, win, 0, 0⟩ ∧ checkExtent s.extents (loc 256) 64 regionOnly = .ok (1, 256) ∧
    16 ≤ (guarded 16).core.guards.length ∧ s.core.guards.length < 16 ∧
    checkExtent s.extents (loc 0) 64 .atomic = .ok (1, 0) ∧ s.resolve s.via (loc 0) 64 .atomic = .ok [.ls 0 64] ∧
    checkExtent s.extents (loc 0) 64 .watch = .ok (1, 0) ∧ s.resolve s.via (loc 0) 64 .watch = .ok [.ls 0 64] ∧
    (s.g 4).toNat ≤ s.readSegs [.ls 0 64] ∧ s.readSegs [.ls 0 64] < (s.g 3).toNat ∧ s.readSegs [.ls 0 64] = (s.g 4).toNat ∧
    s.readSegs [.ls 0 64] ≠ (s.g 3).toNat ∧ (∀ p ∈ s.ms.past, p.stamp ≤ s.ms.stamp) := by decide +kernel

/-- A chained load of v4 through the window, from a tagged address, as the main sequencer of a state issues it; and its entry in the
scoreboard. -/
def chainAt (s : State) (t : Word) : Chain := s.chainOf 4 t 0 (mkExtent 65536 1024 2 true true 3) 0
def flying (k : Option Chain) (owes : List (List Res)) : InFlight :=
  { addr := 0, word := 0, first := 0, ga := win, gb := 0, gd := 0, epr := 512, owes := owes, dests := owes.flatten, reads := [], window := some 3, chain := k }
def inFlight (s : State) (l : List InFlight) : State := s.mapCore fun c => { c with main := { c.main with inFlight := l } }
def chaining (n : Nat) : State := inFlight (openedTo n) [flying (some (chainAt opened win)) [[.reg .v 4]]]

theorem witness_Windows : opened.core.ls.wf ∧ opened.windowOf (loc 0) true = .error ⟨.perm, loc 0, 0, 0⟩ ∧
    opened.windowOf (win + 8) false = .error ⟨.addr, win + 8, 0, 0⟩ ∧ opened.windowOf win true = .ok (mkExtent 65536 1024 2 true true 3) ∧
    opened.windowOf win false = .ok (mkExtent 65536 1024 2 true true 3) ∧ extLen (mkExtent 65536 1024 2 true true 3) = 1024 ∧
    extLen (mkExtent 65536 0 2 true true 3) = 0 ∧ extTidx (mkExtent 65536 1024 2 true true 3) = 3 ∧
    opened.isOpen (mkExtent 65536 1024 2 true true 3) ∧ ¬ opened.isOpen (mkExtent 65536 512 2 true true 3) ∧ ¬ boundOf (opened.blockOf 3) ∧
    boundOf ((opened.putBinding 3 true 0).blockOf 3) ∧ wcntOf ((openedTo 64).blockOf 3) = 64 ∧ wcntOf (opened.blockOf 3) < 0 + 1 ∧
    opened.core.chaining 3 = false ∧ (chaining 64).core.chaining 3 = true := by
  unfold State.isOpen liveOf boundOf
  decide +kernel

/-- The sequencer waits in an instruction. -/
def waiting (w : Wait) : State := base.mapSeq fun q => { q with wait := some w }

/-- Region 5 open over the extent e3, with its watermark, capacity and use; version 5 of its word 0 is 77. -/
def regionImage (mark cap used : Nat) : BitVec 384 :=
  BitVec.ofNat 384 (4096 * 2 ^ 64 + 2 ^ 30 * 2 ^ 128 + mark * 2 ^ 200 + 2 ^ 254 + cap * 2 ^ 256 + used * 2 ^ 320)
def versioned (mark cap : Nat) (v : Word) : State := let s := regs mason [(1, ver), (2, v), (3, ver + 64)]
  { s with ver := { VerSys.reset with regions := VerSys.reset.regions.setIfInBounds 5 (regionImage mark cap 128)
                                      versions := [{ region := 5, word := 0, number := 5, value := 77 }] } }
/-- Mason's task bound to core 0, with a record that has not ended. -/
def boundTask (s : State) (x : Task) : State := s.mapSched fun c => { c with
  slots := [(0, { run := mkBind 0x20001 1000 0x8000 true 0 0 false false masonKey, stg := 0, dcmd := 0, since := 0 })], tasks := [x] }

theorem witness_VersionedAccesses : let s := boundTask (versioned 3 1024 7) (aTask masonKey .running)
    s.verWord s.via (s.g 1) .verLoad = .ok (5, 0) ∧ s.verWord s.via (s.g 1) .verStore = .ok (5, 0) ∧
    s.verWord s.via win .verLoad = .error ⟨.perm, win, 0, 0⟩ ∧ s.verWord s.via win .verStore = .error ⟨.perm, win, 0, 0⟩ ∧
    (s.ver.latest 5 0 7).isSome = true ∧ s.ver.latest 5 0 4 = none ∧ ¬ 2 ^ 48 ≤ (s.g 2).toNat ∧ regWmark (s.ver.region 5) ≤ (s.g 2).toNat ∧
    ¬ regWmark (s.ver.region 5) ≤ ((versioned 3 1024 2).g 2).toNat ∧ (s.ver.find 5 0 7) = none ∧ (s.ver.find 5 0 5).isSome = true ∧
    s.bound = true ∧ s.coreNo < 224 ∧ regHused (s.ver.region 5) + 128 ≤ regHcap (s.ver.region 5) ∧
    regHcap ((versioned 3 128 7).ver.region 5) < regHused ((versioned 3 128 7).ver.region 5) + 128 ∧ s.vfullPending = false ∧
    (boundTask s { aTask masonKey .running with vfull := true }).vfullPending = true ∧
    checkExtent s.extents (s.g 1) 64 .verLoad = .ok (3, 0) ∧ extTidx (s.core.e[3]?.getD 0) = 5 ∧ regSt (s.ver.region 5) = 1 ∧
    regAsid (s.ver.region 5) = s.core.ctl.ptroot.toNat / 2 ^ 54 ∧ regSt (base.ver.region 5) ≠ 1 := by decide +kernel

theorem witness_VersionVectors : let s := boundTask (vecs (versioned 3 1024 5) 0x3F03 2 [(8, vec 64 [1, 2])]) (aTask masonKey .running)
    s.cw = 64 ∧ groupOk 4 s.grp = true ∧ s.active 0 s.estart = [0, 1] ∧ wordAddr (s.g 1) 0 = .ok ver ∧ wordAddr (s.g 1) 1 = .ok (ver + 64) ∧
    s.lookUp s.via ver (s.g 2) = .value 77 ∧ s.lookUp s.via (ver + 64) (s.g 2) = .missing 5 1 ∧ s.lookUp s.via win (s.g 2) = .bad ⟨.perm, win, 0, 0⟩ ∧
    s.lookUp s.via ver 2 = .bad ⟨.missver, ver, 2, 3⟩ ∧ s.bound = true ∧ s.coreNo < 224 ∧ wordAddr (s.g 3) 0 = .ok (ver + 64) ∧
    wordAddr (s.g 3) 1 = .ok (ver + 128) ∧ s.storeCheck s.via (ver + 64) (s.g 2) = .ok (5, 1, false) ∧
    (s.createVersion 5 1 5 1).storeCheck s.via (ver + 128) (s.g 2) = .ok (5, 2, false) := by decide +kernel

theorem witness_VersionRegions : let s := versioned 3 1024 7
    let image (x : BitVec 384) : State := { s with ms := { s.ms with mem := ((List.range 48).filterMap fun j =>
      if byteOf x.toNat j = 0 then none else some (j, BitVec.ofNat 8 (byteOf x.toNat j))) ++ s.ms.mem } }
    let x := regionImage 0 1024 0
    let parked := boundTask { s with ver := { s.ver with heapWaits := [{ region := 5, who := .task masonKey, start := 0 }] } } (aTask masonKey .blockedVersion)
    s.verWord s.via (s.g 1) .verStore = .ok (5, 0) ∧ regWmark (s.ver.region 5) < (s.g 2).toNat ∧ (s.g 2).toNat < 2 ^ 48 ∧
    ((versioned 3 1024 2).g 2).toNat ≤ regWmark (s.ver.region 5) ∧ s.ver.reclaim.contains (5, 0) = false ∧
    ({ s.ver with reclaim := [(5, 0)] } : VerSys).reclaim.contains (5, 0) = true ∧ s.privileged = true ∧ user.privileged = false ∧
    s.resolve s.via (s.g 0) 384 .load = .ok [.phys 0 384] ∧ BitVec.ofNat 384 ((image x).readSegs [.phys 0 384]) = x ∧
    regSt (s.ver.region 5) ≠ 0 ∧ regSt (s.ver.region 6) = 0 ∧ parked.sched.task masonKey = some (aTask masonKey .blockedVersion) ∧
    (parked.ver.heapWaits.filter fun y => y.region = (5 : BitVec 6).toNat)[0]? = some { region := 5, who := .task masonKey, start := 0 } ∧
    parked.sched.ticks - 0 < (parked.sched.settings 0).vfwd ∧
    (parked.mapSched fun c => { c with ticks := 2000000 }).sched.ticks - 0 ≥ (parked.sched.settings 0).vfwd := by
  decide +kernel

/-- An image that VNOPEN installs, and one that it refuses for reason 2. -/
theorem witness_VnopenReasons : (∀ r, ¬ base.refusesRegion (regionImage 0 1024 0) 5 r) ∧
    (versioned 3 1024 7).refusesRegion (regionImage 0 1024 0) 5 2 ∧
    ∀ q, q < 2 → ¬ (versioned 3 1024 7).refusesRegion (regionImage 0 1024 0) 5 q := by
  refine ⟨fun r h => ?_, ?_, fun q hq h => ?_⟩
  · match r, h with
    | 1, h => exact absurd h.1 (by decide)
    | 2, h => exact absurd h (by simp only [State.refusesRegion]; decide +kernel)
    | 3, h => exact absurd h (by simp only [State.refusesRegion]; decide +kernel)
    | 4, h => exact absurd h (by simp only [State.refusesRegion]; decide +kernel)
    | 5, h => exact absurd h (by simp only [State.refusesRegion]; decide +kernel)
  · simp only [State.refusesRegion]; decide +kernel
  · match q, h with
    | 1, h => exact absurd h.1 (by decide)

/-- A stream program of the task, at the first page of memory. -/
def program : Program := { pid := 7, pc := 0x1000, root := 0x20001, assured := false, ext := base.core.e, c := Vector.replicate 16 0, constMark := 0, part := 0 }
/-- The task with one queue. -/
def queued (x : Queue) : Task := { aTask masonKey .running with queues := (aTask masonKey .running).queues.setIfInBounds 2 x }
def withQueue (x : Queue) : State := boundTask (regs mason [(10, 0x1000)]) (queued x)
def faulted : SFault := { cause := 4, tval := shut, width := 64, limit := 0, command := 0x1000 }

theorem witness_StreamControl : let idle := withQueue { entries := [], fault := none }
    let busy := withQueue { entries := [.program program], fault := none }
    let full := withQueue { entries := List.replicate 8 (.program program), fault := none }
    let marks := withQueue { entries := List.replicate 8 (.marker []), fault := none }
    idle.task = some (queued { entries := [], fault := none }) ∧ 29 < (30 : BitVec 5).toNat ∧ (3 : BitVec 5).toNat ≤ 29 ∧
    (idle.g 10).toNat / 2 ^ 58 % 4 = 0 ∧ (idle.g 10).toNat % 64 = 0 ∧ (loc 32).toNat % 64 ≠ 0 ∧
    ((withQueue { entries := [.program program], fault := some faulted }).queue 2).fault = some faulted ∧ (full.queue 2).count = 8 ∧
    (idle.queue 2).count = 0 ∧ (busy.queue 2).count = 1 ∧ (busy.queue 2).fault = none ∧ (4 : BitVec 3).toNat ≤ 4 ∧ 4 < (5 : BitVec 3).toNat ∧
    (4 : BitVec 16).getLsbD 2 = true ∧ (marks.queue 2).joins = 8 ∧ (∀ q, q < 16 → (busy.queue q).joins < 8) ∧
    busy.sched.task masonKey = some (queued { entries := [.program program], fault := none }) ∧ busy.str.ctxs = [] ∧
    busy.enginesOf program = [0, 1, 2, 3] ∧ (∀ e, e < 40 → ¬ ∀ m, m < 16 → ∃ c ∈ busy.str.ctxs, c.engine = e ∧ c.slot = m) := by
  decide +kernel

/-- The state with poisoned sectors. -/
def poisoning (l : List Nat) : State := { base with ms := { base.ms with poison := l } }
/-- An extent over all of the local store, and an address of it. -/
def wide (o : Nat) : Word := BitVec.ofNat 64 (5 * 2 ^ 60 + o)
def widened (s : State) : State := s.mapCore fun c => { c with e := c.e.set 5 (mkExtent 0 (2 ^ 24) 1 true true 0) }

/-- Each check of an access, in its order, at the edge where it begins to fail. -/
theorem witness_AccessChecks : let up := widened (after (.barinit 10) (regs base [(10, win)]))
    let edge : Word := BitVec.ofNat 64 (2 ^ 25 - 32)
    let may (l : List Nat) (pa w : Nat) : Option Cause := (poisoning l).permit base.via .load 0 0x7F pa w
    (2 ^ 58 / 2 ^ 58 % 4 ≠ 0 ∧ extRead (base.extents[4]?.getD 0) = false ∧ extLen (base.extents[1]?.getD 0) < 65536 + 1) ∧
    (512 < 449 % 512 + 64 ∧ up.core.touchesLive (Config.blocksBase + 768) 64 = true ∧ up.core.touchesLive 8 64 = false ∧
      (wide (Config.blocksBase + 768)).toNat / 2 ^ 60 = 5) ∧
    (base.page base.via (2 ^ 40) 64 false = none ∧ base.page base.via 0x1000 64 true = some (0x7F, 0x1000) ∧
      may [4] 0x1000 64 = some .page ∧ may [] 0x1000 64 = none ∧ (pageSeg 0x7F 0x11E0 64).inGranule = false) ∧
    (min 64 (2 ^ 25 - edge.toNat % 2 ^ 25) = 32 ∧ base.page base.via (2 ^ 36) 32 false = none ∧
      base.page base.via (2 ^ 36 - 32) 32 false ≠ none ∧ may [32768] (2 ^ 25) 32 = some .page ∧ may [32768] (2 ^ 25 - 32) 32 = none) := by
  decide +kernel

/-- A rendezvous of the main sequencer as its oldest replay entry. -/
theorem witness_RendezvousReplayed : let e : Replay := { addr := 0x100, word := 0, first := 0, ga := 0, gb := 0, gd := 0 }
    let s := (paired false).mapCore fun c => { c with main := { c.main with replay := [e] } }
    (s.coreAt 0).main.atRdv = true ∧ (s.coreAt 0).matrix.atRdv = true ∧ (s.coreAt 0).main.running = true ∧
    (s.coreAt 0).matrix.running = true ∧ s.io.mstate.getLsbD 5 = false ∧ (s.coreAt 0).main.replay = e :: [] := by decide +kernel

theorem witness_CompareTraps : let s := vecs strict 0x1F02 1 [(8, vec 32 [0x7F800001])]
    ∃ r, s.vectorMask (.vfcmpVv 2 8 12 0 0 1) = some r ∧ s.TrapsAt r.k r.f 0 :=
  some_with _ (by decide +kernel) ⟨by decide +kernel, by decide +kernel, fun j _ h => absurd h (Nat.not_lt_zero j)⟩

/-- The block of the example at R177, which raises NX. -/
theorem witness_BlockConvertTraps : let s := vecs strict 0x1F02 32 [(21, vec 32 [0x41200000, 0xC0600000, 0x3F000000])]
    (s.cw = 32 ∧ groupOk 21 s.grp = true ∧ ¬ groupsMeet 4 1 21 s.grp ∧ ¬ groupsMeet 6 1 21 s.grp) ∧
    0 ∈ (List.range ((s.vl + 31) / 32)).filter (fun j => s.estart / 32 ≤ j) ∧
    (blockConvert ((List.range 32).map fun m => elem (s.group 21 s.grp % 2 ^ (32 * s.vl)) 32 m)).flags &&& s.ten ≠ 0 := by decide +kernel

/-- The chained load of v4 from a tagged address of the window e2, whose block counts n bits written. -/
theorem witness_ChainedLoad : let s := openedTo 64
    let x := mkExtent 65536 1024 2 true true 3
    let late := win + 992
    4 % s.grp = 0 ∧ 4 + s.grp ≤ 32 ∧ 4 % (vecs base 0x3FF1B 2 []).grp ≠ 0 ∧ (win + 2 ^ 58).toNat / 2 ^ 58 % 4 ≠ 0 ∧
    s.extents[win.toNat / 2 ^ 60]?.getD 0 = x ∧ extKind x = 2 ∧ liveOf (s.blockOf 3) ∧ capOf (s.blockOf 3) = extLen x ∧
    ¬ liveOf (two.blockOf 3) ∧ s.vl ≤ vlmax s.vt ∧ s.active 0 s.estart = [0, 1] ∧
    (∀ i ∈ [0, 1], s.chainAt win x 0 i = .ok [.ls (65536 + 32 * i) 32] ∧ s.chainPos win x 0 i + vtW s.vt ≤ 64) ∧
    (wcntOf (opened.blockOf 3) = 0 ∧ opened.chainAt win x 0 0 = .ok [.ls 65536 32] ∧ 0 < opened.chainPos win x 0 0 + vtW opened.vt) ∧
    s.chainAt late x 0 0 = .ok [.ls 66528 32] ∧ s.chainAt late x 0 1 = .error ⟨.bounds, win + 1024, 32, 1024⟩ ∧
    s.chainPos late x 0 0 + vtW s.vt = 1024 ∧ wcntOf ((openedTo 1024).blockOf 3) = 1024 ∧
    s.chainAt (win + 32) x 32 0 = .ok [.ls 65568 32] ∧ s.chainAt win x 32 0 = .ok [.ls 65536 32] ∧
    s.chainAt (win + 16) x 32 0 = .error ⟨.bounds, win + 16, 32, 1024⟩ := by
  unfold liveOf
  decide +kernel

theorem witness_Translation : base.translate base.via.root (2 ^ 40) = none ∧ base.translate base.via.root 0x1000 = some (0x7F, 0x1000) ∧
    base.permit base.via .load 0 0x7D 0x1000 64 = some .perm ∧ base.permit base.via .load 0 0x7F 0x1000 64 = none ∧
    walk base.ms.pte base.via.root 0x1000 = some (0x7F, 0x1000) := by decide +kernel

/-- The second 4 MiB page mapped packed, its header valid and all chunks zero. -/
def packedHere : State := regs { mason with ms := { mason.ms with
  mem := [(16384, 1), (16386, 4), (32768, 1), (32770, 8), (65544, 0xFF), (65547, 2), (4210691, 2), (4210695, 0x80)] } } [(1, 2 ^ 25), (2, 64)]

theorem witness_PackedMaintenance : let s := packedHere
    s.privileged = true ∧ (s.g 2).toNat = 64 ∧ 2 ^ 25 % 2 ^ 25 + 64 ≤ 2 ^ 25 ∧ ptePacked 0x20000FF = true ∧
    checkExtent s.extents (s.g 1) 64 .drop = .ok (0, 2 ^ 25) ∧ s.page s.via (2 ^ 25) 64 true = some (0x20000FF, 2 ^ 25) ∧
    s.permitLines .drop 0x20000FF (2 ^ 25) 64 = none := by decide +kernel

theorem witness_VectorAtomicTraps : let s := regs two [(3, shut)]
    vtW s.vt = s.cw ∧ groupOk 4 s.grp = true ∧ groupOk 12 s.grp = true ∧ ¬ groupsMeet 4 s.grp 12 s.grp ∧
    0 ∈ s.active 0 s.estart ∧ s.spot (s.g 3) (s.indexAt 12 0) s.cw .atomic = .error ⟨.perm, shut + 7, 0, 0⟩ ∧
    s.resolve s.via (s.g 3) s.cw .atomic = .error ⟨.perm, shut, 0, 0⟩ ∧ groupOk 31 (vecs base 0x3FF1B 2 []).grp = false := by decide +kernel

/-- What ACQ, WFE, NWAIT, SQWAIT and BARWAIT wait for, come and not come. -/
theorem witness_WakeEvents : let at_ (w : Wait) (n : Word) := regs (waiting w) [(2, loc 0), (3, n)]
    let open_ (n : Word) := regs ((openedTo 64).mapSeq fun q => { q with wait := some (.barwait 10 17) }) [(10, win), (17, n)]
    let x := mkExtent 65536 1024 2 true true 3
    base.halted = false ∧ (waiting (.acq 1 2 3)).seq.running = true ∧ (at_ (.acq 1 2 3) 0).retried = at_ (.acq 1 2 3) 0 ∧
    (at_ (.acq 1 2 3) 0).seq.wait = some (.acq 1 2 3) ∧
    (let u := at_ (.acq 1 2 3) 1;
      checkExtent u.extents (u.g 2) 64 .watch = .ok (1, 0) ∧ u.resolve u.via (u.g 2) 64 .watch = .ok [.ls 0 64] ∧
      u.readSegs [.ls 0 64] = 0 ∧ (u.g 3).toNat = 1) ∧
    (let u := withQueue { entries := [], fault := none };
      (u.queue 2).fault = none ∧ (u.queue 2).count = 0 ∧ 0 < ((withQueue { entries := [.program program], fault := none }).queue 2).count) ∧
    ((open_ 64).windowOf ((open_ 64).g 10) false = .ok x ∧ (open_ 64).isOpen x ∧ wcntOf ((open_ 64).blockOf 3) = 64 ∧
      ((open_ 65).g 17).toNat = 65) ∧ base.seq.wait = none ∧ base.seq.inFlight = [] := by
  and_intros
  all_goals first | rfl | decide +kernel

/-- A VLD.WC in flight whose elements have arrived, one that waits before a failing element, and what else may be in flight. -/
theorem witness_ChainsEnd : let k := chainAt opened win
    let late := chainAt opened (win + 992)
    let u := (openedTo 1024).mapSeq fun q => { q with wait := some (.chained late) }
    k.Sound ∧ late.Sound ∧ (chaining 64).seq.wait = none ∧ (chaining 64).seq.inFlight = [flying (some k) [[.reg .v 4]]] ∧
    (∀ i ∈ k.act, (chaining 64).Arrived k i [.ls (65536 + 32 * i) 32]) ∧ u.seq.running = true ∧ u.seq.wait = some (.chained late) ∧
    late.act = [0, 1] ∧ (u.asIssued late).chainAt late.t late.ext late.rel 1 = .error ⟨.bounds, win + 1024, 32, 1024⟩ ∧
    u.Arrived late 0 [.ls 66528 32] ∧ (inFlight base [flying none [[.reg .g 7]]]).seq.inFlight[0]? = some (flying none [[.reg .g 7]]) ∧
    (chaining 64).seq.inFlight[1]? = none := by
  and_intros
  all_goals first | rfl | exact List.filter_sublist .. | (unfold State.Arrived; decide +kernel) | decide +kernel

theorem witness_VersionVectorStops : let s := boundTask (vecs (versioned 3 1024 5) 0x3F03 2 [(8, vec 64 [1, 2])]) (aTask masonKey .running)
    let full := boundTask (vecs (versioned 3 128 5) 0x3F03 2 []) (aTask masonKey .running)
    let owed := boundTask (vecs (versioned 3 128 5) 0x3F03 2 []) { aTask masonKey .running with vfull := true }
    s.active 0 s.estart = [] ++ 0 :: [1] ∧ s.storeAt (s.g 1) (s.g 2) 0 = .error ⟨.vcollide, ver, 5, 3⟩ ∧
    s.lookUpAt (s.g 1) (s.g 2) 0 = .value 77 ∧ s.lookUpAt (s.g 1) (s.g 2) 1 = .missing 5 1 ∧ s.lookUpAt win (s.g 2) 0 = .bad ⟨.perm, win, 0, 0⟩ ∧
    s.storeAt (s.g 3) (s.g 2) 0 = .ok (5, 1, false) ∧ (s.createVersion 5 1 5 1).storeAt (s.g 3) (s.g 2) 1 = .ok (5, 2, false) ∧
    full.storeAt (full.g 3) (full.g 2) 0 = .ok (5, 1, true) ∧ wordAddr (full.g 3) 0 = .ok (ver + 64) ∧ full.vfullPending = false ∧
    full.bound = true ∧ full.coreNo < 224 ∧ owed.vfullPending = true ∧
    checkExtent s.extents win 64 .verLoad = .error ⟨.perm, win, 0, 0⟩ := by decide +kernel
/-- Four elements of 8 bits from an offset of the local extent. -/
def tensor (o : Nat) : BitVec 512 := BitVec.ofNat 512 ((loc o).toNat + 7 * 2 ^ 64 + 4 * 2 ^ 72 + 8 * 2 ^ 192)
/-- The program in context, and the machine that performs its commands. -/
def streamCtx : Ctx where
  pid := 7
  task := masonKey
  queue := 2
  engine := 0
  slot := 0
  spc := 0x1000
  root := 0x20001
  assured := false
  c := Vector.replicate 16 0
  d := (Vector.replicate 8 0).setIfInBounds 1 (tensor 0)
  loops := []
  conv := { src := 0, dst := 0, wd := 1, rm := 0, sat := false }
  ext := base.core.e
  bound := []
  waiting := false
  space := none
  skip := 0
  stalled := false
  vfull := false
  constMark := 0
  part := 0
def streaming (s : State) (x : Ctx) : State := { s with str := { s.str with ctxs := [x], focus := 7 } }
def consts (x : Ctx) (l : List (Nat × Word)) : Ctx := { x with c := l.foldl (fun c p => c.setIfInBounds p.1 p.2) x.c }

theorem witness_StreamReads : let s := streaming (boundTask mason (aTask masonKey .running)) streamCtx
    s.prog = some streamCtx ∧ elemAddr (loc 0) 8 = .ok (loc 8) ∧ checkExtent streamCtx.ext (loc 8) 8 .matrix = .ok (1, 8) ∧
    checkExtent streamCtx.ext shut 8 .matrix = .error ⟨.perm, shut, 0, 0⟩ ∧ s.detached streamCtx = false ∧
    (streaming mason streamCtx).detached streamCtx = true ∧ s.resolve streamCtx.via (loc 8) 8 .matrix = .ok [.ls 8 8] ∧
    s.resolve streamCtx.via (2 ^ 40) 8 .matrix = .error ⟨.page, 2 ^ 40, 0, 0⟩ ∧ checkExtent streamCtx.ext (2 ^ 40) 8 .matrix = .ok (0, 2 ^ 40) ∧
    s.streamRead streamCtx (loc 0) 0 512 = .val 0 ∧ s.streamRead streamCtx shut 0 512 = .bad ⟨.perm, shut, 0, 0⟩ 512 ∧
    (streaming mason streamCtx).streamRead streamCtx (loc 0) 0 512 = .stall ∧
    (s.mapCore fun c => { c with ls := [(21, 1)] }).streamRead streamCtx (loc 0) 0 512 = .val (2 ^ 168) := by decide +kernel

/-- SFILL of two bits at 0x400 of the local extent, and STILE of the tensor there. -/
theorem witness_DenseDeliveries : let x := consts streamCtx [(5, loc 0x400), (6, 1)]
    let s := streaming (boundTask mason (aTask masonKey .running)) x
    (∃ r, State.delivery x (.sfill 5 2) = some r ∧ extKind (x.ext[r.dst.toNat / 2 ^ 60]?.getD 0) ≤ 1 ∧ ∀ j, j < r.count →
      r.get (s.dense x (fun j => [.ls (0x400 + j) 1]) r.w (fun _ => 0)) j = .val 0 ∧
      (s.dense x (fun j => [.ls (0x400 + j) 1]) r.w (fun _ => 0) j).reach x r.dst (j * r.w : Nat) r.w .store = .segs [.ls (0x400 + j) 1]) ∧
    (∃ r, State.delivery x (.stile 1 6 5 3 0 0 0) = some r ∧ extKind (x.ext[r.dst.toNat / 2 ^ 60]?.getD 0) ≤ 1 ∧ ∀ j, j < r.count →
      r.get (s.dense x (fun j => [.ls (0x400 + 8 * j) 8]) r.w (fun _ => 0)) j = .val 0 ∧
      (s.dense x (fun j => [.ls (0x400 + 8 * j) 8]) r.w (fun _ => 0) j).reach x r.dst (j * r.w : Nat) r.w .store = .segs [.ls (0x400 + 8 * j) 8]) ∧
    (∃ r, State.delivery (consts streamCtx [(5, shut)]) (.sfill 5 2) = some r ∧ 0 < r.count ∧ r.get (fun _ => s) 0 = .val 0 ∧
      s.reach x r.dst (0 * r.w : Nat) r.w .store = .bad ⟨.perm, shut, 0, 0⟩) ∧
    State.delivery (consts streamCtx []) (.sgath 1 6 5 1 3) = none ∧ State.delivery { x with conv := { x.conv with rm := 7, src := 1 } } (.stile 1 6 5 3 0 0 0) = none :=
  by and_intros; all_goals first | rfl | exact some_with _ (by decide +kernel) (by decide +kernel)

/-- The program bound to the core, at the window of e2, which is live; the counts at 0, or at a bit from the full ring. -/
def ringing (n : Nat) : State := streaming (boundTask ((openedTo n).mapCtl fun c => { c with taskid := 0xFFFF0000 }) (aTask masonKey .running))
  (consts streamCtx [(5, win)])

theorem below_blocks (c : Core) {e : BitVec 128} (he : extBase e + extLen e ≤ Config.blocksBase) (a n : Nat) (h : a + n ≤ extBase e + extLen e) :
    c.touchesLive a n = false := by
  unfold Core.touchesLive
  rw [decide_eq_false (by omega), Bool.false_and]

theorem witness_WindowDeliveries : let x := consts streamCtx [(5, win)]
    let e := x.ext[2]?.getD 0
    let s := ringing 64
    (∃ r, State.delivery x (.sfill 5 2) = some r ∧ extKind (x.ext[r.dst.toNat / 2 ^ 60]?.getD 0) = 2 ∧ r.dst.toNat % 2 ^ 60 = 0 ∧
      ∀ j, j < r.count → r.get ((s.bindWindow x 3).ringItems e 64 r.w (fun _ => 0)) j = .val 0) ∧
    s.prog = some x ∧ s.detached x = false ∧ extTidx e = 3 ∧ liveOf (s.blockOf 3) ∧ capOf (s.blockOf 3) = extLen e ∧ ¬ boundOf (s.blockOf 3) ∧
    wcntOf (s.blockOf 3) + 2 < 2 ^ 64 ∧ wcntOf (s.blockOf 3) + 2 ≤ rcntOf (s.blockOf 3) + extLen e ∧ extWrite e = true ∧
    (∀ a n, extBase e ≤ a → a + n ≤ extBase e + extLen e → s.core.touchesLive a n = false) ∧ s.core.ls.wf ∧
    rcntOf ((ringing 1023).blockOf 3) + extLen e < wcntOf ((ringing 1023).blockOf 3) + 2 ∧
    2 ^ 64 ≤ wcntOf ((ringing (2 ^ 64 - 2)).blockOf 3) + 2 ∧ (3 ∉ x.bound ∧ boundOf ((s.putBinding 3 true 0).blockOf 3)) ∧
    extLen e < 1025 ∧ (win + 2 ^ 59).toNat / 2 ^ 58 % 4 ≠ 0 ∧ (win + 8).toNat % 2 ^ 58 ≠ 0 := by
  refine ⟨some_with _ (by decide +kernel) (by decide +kernel), ?_⟩
  unfold liveOf boundOf
  and_intros
  all_goals first | decide +kernel | exact fun a n _ h => below_blocks _ (by decide +kernel) a n h

theorem plain_use (c : Conv) (w : Nat) (sc : Bool) (h : c.src = 0) (h' : c.dst = 0) : c.use w sc = some (w, id) := if_pos ⟨h, h'⟩
theorem bad_use (c : Conv) (w : Nat) (sc : Bool) (h : ¬ (c.src = 0 ∧ c.dst = 0)) (h' : 5 < c.rm) : c.use w sc = none :=
  (if_neg h).trans (if_pos (Or.inl h'))

/-- SSCAT of one row of four elements from 0x400, by the index at 0x800, into the tensor at 0. -/
theorem witness_Scatter : let x := consts streamCtx [(5, loc 0x800), (6, loc 0x400)]
    let s := streaming (boundTask mason (aTask masonKey .running)) x
    let r := x.d[(1 : BitVec 4).toNat]?.getD 0
    let at_ (_ e : Nat) : List Seg := [.ls (8 * e) 8]
    x.conv.use (descW r) true = some (descW r, id) ∧ descW r = 8 ∧ (0 : BitVec 2) ≠ 3 ∧ x.rowCount 1 = 1 ∧
    (∀ i, i < x.rowCount 1 → (s.scatterRows r x (fun _ => 0) at_ (fun _ _ => 0) i).indexRead x (x.c.get 5) 0 i = .val 0) ∧
    (∀ i e, i < x.rowCount 1 → 0 < descSize r 1 → e < descSize r 0 → inside r (x.index e 0) = true →
      let u := (s.scatterRows r x (fun _ => 0) at_ (fun _ _ => 0) i).scatterElems r x 0 i at_ (fun _ _ => 0) e
      u.streamRead x (x.c.get 6) ((i * descSize r 0 + e) * 8 : Nat) 8 = .val 0 ∧
      u.reach x (descBase r) (descDelta r (x.index e 0)) (descW r) .store = .segs (at_ i e)) ∧
    ({ x with conv := { x.conv with rm := 7, src := 1 } } : Ctx).conv.use (descW r) true = none := by
  intro x s r at_
  refine ⟨plain_use x.conv (descW r) true rfl rfl, by decide +kernel, by decide, by decide, by decide +kernel, ?_, bad_use _ _ _ (by decide) (by decide)⟩
  have h : ∀ i, i < 1 → ∀ e, e < 4 → let x := consts streamCtx [(5, loc 0x800), (6, loc 0x400)]
      let s := streaming (boundTask mason (aTask masonKey .running)) x
      let r := x.d[(1 : BitVec 4).toNat]?.getD 0
      let at_ (_ e : Nat) : List Seg := [.ls (8 * e) 8]
      let u := (s.scatterRows r x (fun _ => 0) at_ (fun _ _ => 0) i).scatterElems r x 0 i at_ (fun _ _ => 0) e
      u.streamRead x (x.c.get 6) ((i * descSize r 0 + e) * 8 : Nat) 8 = .val 0 ∧
      u.reach x (descBase r) (descDelta r (x.index e 0)) (descW r) .store = .segs (at_ i e) := by decide +kernel
  have hz : descSize ((consts streamCtx [(5, loc 0x800), (6, loc 0x400)]).d[(1 : BitVec 4).toNat]?.getD 0) 0 = 4 := by decide +kernel
  exact fun i e hi _ he _ => h i hi e (lt_of_lt_of_eq he hz)

theorem witness_StreamCommands : let task := { queued { entries := [.program program], fault := none } with key := masonKey }
    let x := { consts streamCtx [(1, ver), (2, 5), (3, 3), (4, loc 64), (6, shut), (7, ver + 64), (8, win)] with loops := [(0, 2, 0x1040)] }
    let s := streaming (boundTask (versioned 3 1024 7) task) x
    let full := streaming (boundTask (versioned 3 128 7) task) x
    s.prog = some x ∧ x.c.get 0 = 0 ∧ x.c.get 3 ≠ 0 ∧ x.loops.length < 4 ∧ 4 ≤ [(0, 2, 0x1040), (0, 2, 0x1040), (0, 2, 0x1040), (0, 2, (0x1040 : Word))].length ∧
    x.loops = ((0 : BitVec 4).toNat, 2, 0x1040) :: [] ∧ (x.c.get 0 + 1).toNat < 2 ∧ 2 ≤ ((consts x [(0, 1)]).c.get 0 + 1).toNat ∧
    (∀ n body rest, x.loops ≠ ((1 : BitVec 4).toNat, n, body) :: rest) ∧
    elemAddr (x.c.get 1) 0 = .ok ver ∧ s.lookUp x.via ver (x.c.get 2) = .value 77 ∧ s.lookUp x.via (ver + 64) (x.c.get 2) = .missing 5 1 ∧
    s.lookUp x.via win (x.c.get 2) = .bad ⟨.perm, win, 0, 0⟩ ∧ s.storeCheck x.via (ver + 64) (x.c.get 2) = .ok (5, 1, false) ∧
    full.storeCheck x.via (ver + 64) (x.c.get 2) = .ok (5, 1, true) ∧ x.vfull = false ∧
    s.storeCheck x.via ver (x.c.get 2) = .error ⟨.vcollide, ver, 5, 3⟩ ∧
    s.reach x (x.c.get 4) 0 64 .store = .segs [.ls 64 64] ∧ s.reach x (x.c.get 6) 0 64 .store = .bad ⟨.perm, shut, 0, 0⟩ ∧
    (streaming mason x).reach x (x.c.get 4) 0 64 .store = .stall ∧ s.sched.task x.task = some task ∧ x.bound = [] ∧ s.core.ls.wf ∧
    Cause.perm ∈ streamCauses ∧ x.queue < 16 ∧ ({ x with bound := [3] } : Ctx).bound ≠ [] ∧ (streaming mason x).detached x = true := by
  and_intros
  on_goal 9 => exact fun n body rest h => absurd (congrArg Prod.fst (List.cons.inj h).1) (by show ¬ ((0 : Nat) = 1); decide)
  all_goals first | rfl | decide +kernel

/-- Mason's task with an image that names its graph, in a graph of one slot where asked. -/
def selfImage : BitVec 512 := BitVec.ofNat 512 (0xFFFF * 2 ^ 384)
def enqueuing (cap : Nat) (l : List Task) : State := (boundTask (regs mason [(10, loc 0)]) (aTask masonKey .running)).mapSched fun c => { c with
  graphs := [{ masonGraph with cap := cap }], tasks := aTask masonKey .running :: l }
def other (j : Nat) (x : TaskState) : Task := { aTask masonKey x with key := { masonKey with record := j } }

theorem witness_TaskEnqueue : let s := enqueuing 8 []
    let named := s.mapCore fun c => { c with ls := [(48, 0xFF), (49, 0xFF)] }
    (loc 8).toNat % 64 ≠ 0 ∧ (s.g 10).toNat % 64 = 0 ∧ (∀ j, j < 8 → s.spot (loc 0) (64 * j : Nat) 64 .load = .ok [.ls (64 * j) 64]) ∧
    s.spot shut (64 * 0 : Nat) 64 .load = .error ⟨.perm, shut, 0, 0⟩ ∧
    (∀ j, j < 8 → field selfImage (64 * j + 63) (64 * j) = named.readSegs [.ls (64 * j) 64]) ∧
    (∀ j, j < 8 → field (0 : BitVec 512) (64 * j + 63) (64 * j) = s.readSegs [.ls (64 * j) 64]) ∧
    s.task = some (aTask masonKey .running) ∧ s.sched.graph 0 0xFFFF = some { masonGraph with cap := 8 } ∧ s.bound = true ∧ s.coreNo < 224 ∧
    s.taskKey = masonKey ∧
    (∃ y ∈ (enqueuing 1 [other 1 .ready]).sched.tasks, y.key ≠ masonKey ∧ y.key.vdev = masonKey.vdev ∧ y.key.graph = masonKey.graph ∧
      y.state ∈ [TaskState.ready, .bound]) := by decide +kernel

theorem witness_EnqueueReasons : let s := enqueuing 8 []
    (∀ r, ¬ s.refusesImage masonKey 8 0 selfImage r) ∧ s.refusesImage masonKey 8 0 0 2 ∧ (∀ q, q < 2 → ¬ s.refusesImage masonKey 8 0 0 q) ∧
    s.sched.slotFree { masonGraph with cap := 8 } 1 ∧ (∀ j, j < 1 → ¬ s.sched.slotFree { masonGraph with cap := 8 } j) ∧
    ∀ i, ¬ (enqueuing 1 []).sched.slotFree { masonGraph with cap := 1 } i := by
  have h0 : ∀ cap, ¬ (enqueuing cap []).sched.slotFree { masonGraph with cap := cap } 0 := fun cap h =>
    absurd (h.2 (aTask masonKey .running) rfl) (by decide)
  refine ⟨fun r h => ?_, ?_, fun q hq h => ?_, ⟨by decide, fun t h => ?_⟩, fun j hj h => ?_, fun i h => ?_⟩
  · match r, h with
    | 1, h => exact absurd h (by simp only [State.refusesImage]; decide +kernel)
    | 2, h => exact absurd h (by simp only [State.refusesImage]; decide +kernel)
    | 3, ⟨i, hi, _⟩ => exact absurd hi (by rw [show successors selfImage = [] from by decide +kernel]; exact List.not_mem_nil)
    | 4, h => exact absurd h (by simp only [State.refusesImage]; decide +kernel)
    | 5, ⟨j, hj, hb, _⟩ =>
      have : ∀ j, j < 8 → selfImage.getLsbD (256 + j) = false := by decide +kernel
      exact absurd hb (by rw [this j hj]; decide)
  · simp only [State.refusesImage]; decide +kernel
  · match q, h with
    | 1, h => exact absurd h (by simp only [State.refusesImage]; decide +kernel)
  · exact absurd h (by rw [show (enqueuing 8 []).sched.task { vdev := masonGraph.vdev, graph := masonGraph.gid, record := 1 } = none from by decide +kernel]; simp)
  · cases below_one hj rfl
    exact h0 8 h
  · cases below_one h.1 rfl
    exact h0 1 h

/-- A contract with number 3, and a task of it. -/
def aContract : Contract :=
  { number := 3, vdev := 0, gid := 0xFFFF, desc := BitVec.ofNat 256 (2000 + 100 * 2 ^ 32 + 2 ^ 72 + 2 ^ 80 + 0xFFFF * 2 ^ 88), admitted := 0, releases := 1, current := 0,
    overruns := 0, skips := 0, pulses := 0, lastRelease := 0, remaining := 100, open_ := true }
def contractTask : Task := { aTask masonKey .running with image := BitVec.ofNat 512 (3 * 2 ^ 400) }
def contracted (c : Contract) : State := (boundTask mason contractTask).mapSched fun d => { d with
  contracts := [c], vdevs := [(0, { share := 2, root := 0x20001 })] }

/-- A task with one successor, which counts it. -/
def leading : Task := { aTask masonKey .running with image := BitVec.ofNat 512 (2 ^ 280 + 2 ^ 288) }
def counted : Task := { other 1 .waiting with image := BitVec.ofNat 512 (2 ^ 264) }

theorem witness_TaskInstructions : let s := boundTask (regs mason [(10, 2 ^ 34), (11, 2 ^ 52)]) (aTask masonKey .running)
    let led := (boundTask mason leading).mapSched fun c => { c with tasks := [leading, counted] }
    s.task = some (aTask masonKey .running) ∧ 2 ^ 58 ≤ 0 + 64 * (s.g 11).toNat ∧ 0 + 64 * (s.g 10).toNat < 2 ^ 58 ∧
    s.resolve s.via 0 64 .load = .ok [.phys 0 64] ∧ s.resolve s.via (BitVec.ofNat 64 (2 ^ 40)) 64 .load = .error ⟨.page, 2 ^ 40, 0, 0⟩ ∧
    s.sched.contractOf (aTask masonKey .running) = 0 ∧ (∀ c ∈ s.sched.contracts, c.number ≠ 0) ∧
    (contracted aContract).sched.contracts.find? (fun y => y.number = (contracted aContract).sched.contractOf contractTask) = some aContract ∧
    s.bound = true ∧ s.core.matrix.running = false ∧ (paired true).core.matrix.running = true ∧
    ((withQueue { entries := [.program program], fault := none }).queue 2).count = 1 ∧
    ((withQueue { entries := [], fault := some faulted }).queue 2).fault = some faulted ∧
    (∀ p, p < 2 → ((withQueue { entries := [], fault := some faulted }).queue p).fault = none) ∧
    (∀ q, q < 16 → (led.queue q).fault = none ∧ (led.queue q).count = 0) ∧ led.sched.poolParked = [] ∧ led.core.ls.wf ∧
    led.task = some leading ∧ led.sched.task { led.taskKey with record := 1 } = some counted ∧ led.taskKey.record = 0 ∧
    (successors leading.image).count 1 = 1 ∧ field counted.image 279 264 = 1 := by decide +kernel

/-- A slot with running and staged records, and one with only the first. -/
def record (k : TaskKey) (bn : Bool) : BitVec 256 := mkBind 0x20001 1000 0x8000 bn 0 0 false false k
def slotted (run stg : BitVec 256) (dcmd : Word) (l : List Task) (s : State) : State :=
  s.mapSched fun c => { c with slots := [(0, { run := run, stg := stg, dcmd := dcmd, since := 0 })], tasks := l }

theorem witness_BindAndSave : let t := aTask masonKey .running
    let staged := slotted 0 (record masonKey true) 0 [aTask masonKey .bound] mason
    let resumed := slotted 0 (record masonKey true) 0 [{ aTask masonKey .bound with saved := true, ctx := 0x8000 }] mason
    let both := slotted (record masonKey true) (record { masonKey with record := 1 } true) 0 [t, other 1 .bound] mason
    let stopping := slotted (record masonKey true) 0 1 [t] mason
    let parking := both.mapCore fun c => { c with main := { c.main with running := true, wait := some (.barwait 1 2), waited := 12001 } }
    (0 < 224 ∧ bindValid (staged.sched.slot 0).stg = true ∧ bindValid (staged.sched.slot 0).run = false) ∧
    keyOf (field (staged.sched.slot 0).stg 40 0) = masonKey ∧ (staged.sched.task masonKey).map Task.saved = some false ∧
    (resumed.sched.task masonKey).map Task.saved = some true ∧ base.ms.mem.wf ∧ (stopping.sched.slot 0).dcmd ≠ 0 ∧
    bindValid (stopping.sched.slot 0).run = true ∧ keyOf (field (stopping.sched.slot 0).run 40 0) = masonKey ∧ stopping.sched.task masonKey = some t ∧
    stopping.sched.notices.contains 0 = false ∧ (stopping.mapSched fun c => { c with notices := [0] }).sched.notices.contains 0 = true ∧
    field (both.sched.slot 0).run 191 128 ≠ 0 ∧ (both.coreAt 0).budget = 0 ∧ (both.sched.slot 0).dcmd = 0 ∧
    (both.sched.slot 0).run.getLsbD 58 = true ∧ (slotted (record masonKey false) 0 0 [t] mason).sched.slot 0 ≠ both.sched.slot 0 ∧
    ((parking.coreAt 0).main.wait = some (.barwait 1 2) ∧ (Wait.barwait 1 2).parks = true ∧
      (parking.sched.settings 0).pkt < (parking.coreAt 0).main.waited ∧ (parking.coreAt 0).matrix.running = false ∧
      bindValid (parking.sched.slot 0).stg = true) ∧
    (∃ p ∈ (streaming (boundTask mason (aTask masonKey .blockedBarrier)) { streamCtx with stalled := true }).str.ctxs, p.task = masonKey ∧ p.stalled = true) := by
  decide +kernel

/-- Mason's choice of the system class, of a contract, of best effort, and of none. -/
theorem witness_MasonsChoice : let k := masonKey
    let sys := mason.mapSched fun c => { c with lists := [(.system, k)], tasks := [aTask k .ready] }
    let con := mason.mapSched fun c => { c with lists := [(.contract 3, k)], tasks := [{ contractTask with state := .ready }], contracts := [aContract],
                                                vdevs := [(0, { share := 2 })] }
    let best := mason.mapSched fun c => { c with lists := [(.bestEffort 0 5, k)], tasks := [aTask k .ready], vdevs := [(0, { weight := 1 })] }
    mason.choose 0 = none ∧ sys.sched.head .system = some k ∧ (sys.choose 0).isSome = true ∧ con.sched.head .system = none ∧
    ((con.ms.llc[dieOf 0]?).getD LlcDie.reset).cfg &&& 3 = 0 ∧ con.sched.nextContract = some (aContract, k) ∧
    best.sched.nextContract = none ∧ (best.sched.roundRobin.map fun p => (p.1, p.2.bestOf p.1)) = some (0, some k) ∧
    ((sys.choose 0).map fun p => (bindValid p.1, (p.2.task (keyOf (field p.1 40 0))).isSome, decide (p.2.slots = sys.sched.slots))) =
      some (true, true, true) ∧
    ((mason.withLlc 0 fun y => { y with cfg := 1 }).ms.llc[dieOf 0]?.getD LlcDie.reset).cfg &&& 3 ≠ 0 := by decide +kernel

theorem witness_Contracts : let s := contracted aContract
    let ended := s.mapSched fun c => { c with tasks := [{ contractTask with state := .ended }] }
    let pulsed : Contract := { aContract with desc := aContract.desc ||| BitVec.ofNat 256 (2 ^ 76) }
    s.sched.graph 0 (field aContract.desc 103 88) = some masonGraph ∧ (∀ t ∈ ended.sched.tasks, t.state = .ended) ∧
    ¬ (∀ t ∈ s.sched.tasks, t.key.vdev = 0 → t.key.graph = 0xFFFF → t.state = .ended) ∧
    s.sched.contracts.find? (fun x => x.number = 3) = some aContract ∧ aContract.desc.getLsbD 76 = false ∧
    s.sched.ticks < aContract.admitted + field aContract.desc 159 128 + (aContract.releases + aContract.skips) * field aContract.desc 31 0 ∧
    aContract.admitted + field aContract.desc 159 128 + (aContract.releases + aContract.skips) * field aContract.desc 31 0 ≤ 2000 ∧
    pulsed.desc.getLsbD 76 = true ∧ (pulsed.pulses + 1) % field pulsed.desc 87 80 = 0 ∧ 0 < pulsed.releases ∧
    s.sched.ticks < pulsed.lastRelease + field pulsed.desc 31 0 ∧ aContract.open_ = true ∧ ({ aContract with remaining := 0 } : Contract).remaining = 0 ∧
    (contracted { aContract with remaining := 0 }).sched.contracts.find? (fun x => x.number = 3) = some { aContract with remaining := 0 } ∧
    (1 + 1) % 3 ≠ 0 := by decide +kernel

/-- The owner of page 0 with the address space of `base`, a call at an address waiting on the page, and cells below the tables. -/
def calling (cb : BitVec 58) (cells : List (Nat × Byte)) : State := { base with
  ms := { base.ms with mem := cells.map (fun p => (p.1, p.2)) ++ base.ms.mem }
  sched := { base.sched with vdevs := [(0, { root := 0x20001, assured := true, share := 2 })] }
  io := { base.io with doorbells := [{ page := 0, taken := 0, err := 0, calls := [cb] }] } }
def args (l : List (Nat × Word)) : Args := { vd := 0, w := fun i => ((l.find? fun p => p.1 = i).map (·.2)).getD 0 }

theorem witness_ServiceCalls : callForm (.launch 0) = some (0, 1, [0x3FFFFFFFFFFFFFF]) ∧ (base.io.doorbell 0).calls = [] ∧
    ((calling 8 []).io.doorbell 0).calls = [8] ∧ (8 : BitVec 58).toNat % 512 ≠ 0 ∧ (calling 0 []).ownerRead 0 0 512 = some 0 ∧
    (calling 0 []).ownerSegs 0 0 512 true ≠ none ∧ (calling 0 []).ownerRead 0 (2 ^ 40) 512 = none ∧ (0 % 256 = 0 ∨ 14 < 0 % 256) ∧
    ((calling 0 [(0, 2)]).ownerRead 0 0 512).map (· % 256) = some 2 ∧
    ((calling 0 [(0, 1), (1, 2)]).ownerRead 0 0 512).map (fun b => (b % 256, b / 2 ^ 9 % 2 ^ 55)) = some (1, 1) ∧
    ((calling 0 [(0, 1)]).ownerRead 0 0 512).map (fun b => (b % 256, b / 2 ^ 9 % 2 ^ 55, blockWord b 1 &&& ~~~0x3FFFFFFFFFFFFFF)) = some (1, 0, 0) := by
  decide +kernel

/-- A graph of one record: descriptor at 0, record at 0x1000, completion and fault records behind it, number 7. -/
def launching : State := calling 0 [(1, 0x10), (8, 1), (10, 1), (12, 7), (17, 0x20), (25, 0x22), (560, 7)]
def launchWord : Nat := 0x1000 + 2 ^ 64 + 2 ^ 80 + 7 * 2 ^ 96 + 0x2000 * 2 ^ 128 + 0x2200 * 2 ^ 192
def oneRecord : List (BitVec 512) := [BitVec.ofNat 512 (7 * 2 ^ 384)]

theorem witness_Launch : (args []).w 1 = 0 ∧ launching.ownerRead 0 0 512 = some launchWord ∧ launching.readRecords 0 0x1000 1 = oneRecord ∧
    (∀ r, ¬ launching.refusesLaunch 0 launchWord oneRecord r) ∧ launching.refusesLaunch 0 0 [] 1 ∧ ¬ launching.refusesLaunch 0 0 [] 0 := by
  have r5 : ∀ (i : Nat) (x : BitVec 512), oneRecord[i]? = some x → i < 1 → x = BitVec.ofNat 512 (7 * 2 ^ 384) := by
    intro i x hx hi
    cases below_one hi rfl
    exact (Option.some.inj hx).symm
  refine ⟨rfl, by decide +kernel, by decide +kernel, fun r h => ?_, Or.inr (Or.inr (Or.inr (Or.inr (Or.inl rfl)))), fun h => h⟩
  match r with
  | 1 => exact absurd h (by simp only [State.refusesLaunch, oneRecord, List.mem_singleton, exists_eq_left]; decide +kernel)
  | 2 => exact absurd h (by simp only [State.refusesLaunch]; decide +kernel)
  | 4 => exact absurd h (by simp only [State.refusesLaunch]; decide +kernel)
  | 5 =>
    simp only [State.refusesLaunch] at h
    obtain ⟨i, x, hi, hn, h⟩ := h
    rw [show launchWord / 2 ^ 80 % 2 ^ 16 = 1 from by decide +kernel] at hn
    have hx := r5 i x hi hn
    cases below_one hn rfl
    subst hx
    revert h
    decide +kernel

/-- A contract descriptor of graph 7 at 0: P = 2000, C = 100, N = 1. -/
def admitting : State := (calling 0 [(0, 0xD0), (1, 7), (4, 100), (9, 1), (11, 7)]).mapSched fun c => { c with
  graphs := { masonGraph with gid := 7, live := true } :: c.graphs }
def admitWord : Nat := 2000 + 100 * 2 ^ 32 + 2 ^ 72 + 7 * 2 ^ 88

theorem witness_Admission : let d := BitVec.ofNat 256 admitWord
    let g := { masonGraph with gid := 7, live := true }
    admitting.ownerRead 0 0 256 = some admitWord ∧ admitting.sched.graph 0 (field d 103 88) = some g ∧ g.contract = 0 ∧
    ¬ (field d 255 160 ≠ 0 ∨ field d 127 104 ≠ 0 ∨ field d 79 77 ≠ 0) ∧ ¬ (field d 31 0 < 1000 ∨ field d 75 72 = 0 ∨ field d 76 76 = 1) ∧
    admits (admitting.sched.settings 0).share [contractU d g.images] = true ∧ (admitting.sched.settings 0).assured = true ∧
    admitting.sched.contracts = [] ∧ (∀ u ∈ [contractU d g.images], 0 < u.2) ∧ (∀ u ∈ [contractU d g.images], u.1 * u.2 ≤ u.1 * u.2) ∧
    (calling 0 []).sched.graph 0 (field (0 : BitVec 256) 103 88) = none ∧ (calling 0 []).ownerRead 0 0 256 = some 0 := by decide +kernel

theorem witness_CallEffects : let s := contracted aContract
    let streams := List.map (fun n => ({ number := n, vdev := 0, encoder := 0, width := 64, height := 64, deep := false, interval := 1, rate := 0,
                                         quant := 0, failed := false } : EncStream))
    let peer : Peer := { vdev := 0, index := 4, addr := 1, job := 2 }
    (calling 0 []).ownerRead 0 0 512 ≠ none ∧ (calling 0 []).ownerRead 0 (2 ^ 40) 512 = none ∧ admitting.sched.graph 0 7 ≠ none ∧
    admitting.sched.graph 0 8 = none ∧ (∃ c ∈ s.sched.contracts, c.number = (3 : Word).toNat ∧ c.vdev = 0) ∧
    (∀ c ∈ s.sched.contracts, ¬ (c.number = (4 : Word).toNat ∧ c.vdev = 0)) ∧ aContract.vdev = 0 ∧
    ((0x10000 : Word).toNat / 2 ^ 16 % 2 ^ 16 = 1 ∧ (0x10000 : Word).toNat % 2 = 0 ∧ (0x10001 : Word).toNat % 2 = 1) ∧
    ((versioned 3 1024 5).sched.settings 0).root.toNat / 2 ^ 54 = regAsid ((versioned 3 1024 5).ver.region 5) ∧
    regSt ((versioned 3 1024 5).ver.region 5) ≠ 0 ∧ (∀ n, n < 1024 → ∃ x ∈ streams (List.range 1024), x.number = n) ∧
    (∀ x ∈ streams [], x.number ≠ 0) ∧ (∃ x ∈ streams [5], x.number = 5 ∧ x.vdev = 0) ∧
    (let w := (64 + 64 * 2 ^ 11 + 2 ^ 23 : Nat); w % 2 ^ 11 % 2 = 0 ∧ 64 ≤ w % 2 ^ 11 ∧ w / 2 ^ 11 % 2 ^ 11 = 64 ∧ w / 2 ^ 23 % 2 ^ 16 ≠ 0) ∧
    (4096 + 4 : Word).getLsbD 12 = true ∧ (4 : Word).getLsbD 12 = false ∧ [peer].filter (fun x => ¬ (x.vdev = 0 ∧ x.index = 4)) = [] ∧
    (calling 0 []).ownerSegs 0 64 64 true ≠ none ∧ (calling 0 []).ownerSegs 0 64 64 false ≠ none ∧ (calling 0 []).ownerMapped 0 0 64 true = true ∧
    (1 : Nat) % 8 ≠ 0 ∧ (1200 ≤ (1200 : Word).toNat ∧ (2600 : Word).toNat ≤ 2600 ∧ (1199 : Word).toNat < 1200 ∧ 2600 < (2601 : Word).toNat) ∧
    (8 : Nat) = base.io.mstate.toNat % 16 ∧ (0x8000000000000000 : Word).getLsbD 63 = true := by
  and_intros
  all_goals first | exact fun n hn => ⟨_, List.mem_map_of_mem (List.mem_range.mpr hn), rfl⟩ | decide +kernel

/-- SETVD of an assured device with a share of 2, and of a device number that is too great. -/
theorem witness_Settings : let a := args [(1, 5), (2, 0x802301), (3, 1000), (4, 1)]
    (∀ n, ¬ base.refusesSettings a n) ∧ base.refusesSettings (args [(1, 385)]) 1 ∧ ¬ base.refusesSettings (args [(1, 385)]) 0 := by
  refine ⟨fun r h => ?_, Or.inl (by decide), fun h => h⟩
  match r, h with
  | 1, h => exact absurd h (by simp only [State.refusesSettings]; decide +kernel)
  | 6, h => exact absurd h (by simp only [State.refusesSettings]; decide +kernel)
  | 8, h => exact absurd h (by simp only [State.refusesSettings]; decide +kernel)
  | 9, h => exact absurd h (by simp only [State.refusesSettings]; decide +kernel)

/-- The first page exposed by a decoder of both ports, and a sector of it poisoned. -/
def exposing : State := { base with ms := { base.ms with
  hdm := Vector.replicate 8 { base := 0, size := 2 ^ 30, dpa := 0, ways := 1, granularity := 256, committed := true } } }
def poisonedAt (n : Nat) : State := { exposing with ms := { exposing.ms with poison := [n] } }
def failedBoot : State := { base with io := { base.io with mstate := 0x118 } }
def commanded (v : Word) : State := { exposing with ms := { exposing.ms with owncmd := v } }

theorem witness_HostPorts : let d : DieAccess := { addr := 0, width := 64, packed := false, ecc := .clean }
    let heap := versioned 3 1024 7
    base.io.mstate.getLsbD 4 = false ∧ base.ms.mem.wf ∧ heap.hostInHeap (2 ^ 27) 8 ∧ ¬ base.hostInHeap 0 8 ∧ (poisonedAt 0).hostPoisoned 0 8 false ∧
    ¬ (poisonedAt 0).hostPoisoned 0 128 true ∧ failedBoot.io.mstate.getLsbD 4 = true ∧
    base.io.bbcnt.toNat = 0 ∧ 8 % 8 = 0 ∧ (base.ms.pkcmd[(2 : BitVec 3).toNat]?).isSome = true ∧ (base.ms.llc[(3 : BitVec 2).toNat]?).isSome = true ∧
    (boundTask mason (other 1 .running)).sched.slots ≠ [] ∧ d.addr < Config.hostBase ∧ ¬ outside d.addr d.width ∧
    outside (2 ^ 40 - 64) 8 ∧ Config.hostBase ≤ 2 ^ 57 ∧ base.inHeap 0 64 = false ∧ heap.inHeap (2 ^ 30) 64 = true ∧
    (poisonedAt 0).poisoned 0 64 false = true ∧ (poisonedAt 0).poisoned 0 1024 true = false ∧ base.poisoned 0 64 false = false := by
  unfold State.hostInHeap State.hostPoisoned outside
  decide +kernel

theorem witness_HostPaths : base.hostReaches .bar2 0 8 0 ∧ exposing.hostReaches (.cxlMem 1) 0 8 0 ∧ (∀ d, ¬ base.hostReaches (.cxlMem 0) 0 8 d) ∧
    ¬ base.dieInUse 0 := by
  refine ⟨rfl, ⟨by decide +kernel, by decide, 0, _, by decide, rfl, ⟨rfl, 0, rfl, by decide, rfl⟩, fun j _ _ hj => absurd hj (by omega)⟩, ?_, ?_⟩
  · rintro d ⟨-, -, i, x, hi, hx, ⟨hc, -⟩, -⟩
    have h : ∀ j, j < 8 → (base.ms.hdm[j]?).map HdmDecoder.committed = some false := by decide +kernel
    have hz : 4 * (0 : BitVec 1).toNat + i = i := by rw [show (0 : BitVec 1).toNat = 0 from rfl]; omega
    rw [hz] at hx
    have := h i (by omega)
    rw [hx] at this
    exact absurd hc (by rw [Option.some.inj this]; decide)
  · rintro ⟨x, hx, -⟩
    exact List.not_mem_nil hx

theorem witness_OwnershipFlip : let c : Word := 0x8000000000000000
    c.getLsbD 63 = true ∧ exposing.ms.pageExposed (0 * 2 ^ 25) = true ∧ base.ms.pageExposed (0 * 2 ^ 25) = false ∧
    0 ∉ (commanded (c ||| 0x1000000000000000)).ms.hostPages ∧ (c ||| 0x1000000000000000).getLsbD 60 = true ∧ c.getLsbD 60 = false ∧
    0 ∈ ({ (commanded c) with ms := { (commanded c).ms with hostPages := [0] } } : State).ms.hostPages ∧
    (c ||| 0x1000000000000000).toNat / 2 ^ 25 % 2 ^ 29 = 0 := by decide +kernel

/-- A packed page at 0 whose header is valid, chunk 0 in the form of a command. -/
def packedPage (form : Byte) : MemSys := { base.ms with mem := (if form = 0 then [] else [(15, form)]) ++ [(16387, 2), (16391, 0x80)] }

/-- What the rubble copy of chunk 0 of that page is, as R281 takes it. -/
def rubbled : Nat × Nat × Nat := chunkForm (slices 1024 32 ((packedPage 0xC0).mem.readBits ((packedPage 0xC0).rubble 0 0) 32768))

theorem witness_Repack : (0 < 2 ^ 43 ∧ 0 / 2 ^ 40 = (0 : BitVec 3).toNat) ∧ base.ms.pkSound 0 0 = false ∧
    (packedPage 0).pkSound 0 0 = true ∧ (packedPage 0).pkEntry 0 0 / 2 ^ 126 % 4 ≠ 3 ∧
    (packedPage 0xC0).pkSound 0 0 = true ∧ (packedPage 0xC0).pkEntry 0 0 / 2 ^ 126 % 4 = 3 ∧ (packedPage 0xC0).mem.wf ∧
    formBlocks rubbled.1 rubbled.2.1 ≤ ((packedPage 0xC0).pkFree 0).length := by
  have fits : formBlocks rubbled.1 rubbled.2.1 ≤ ((packedPage 0xC0).pkFree 0).length := by
    rw [show formBlocks rubbled.1 rubbled.2.1 = 0 from by decide +kernel]
    exact Nat.zero_le _
  and_intros
  all_goals first | exact fits | decide +kernel

theorem witness_Harts : base.io.mstate.getLsbD 5 = false ∧ (0x800000000000 ≤ 0x800000000FF8 ∧ 0x800000000FF8 < 0x800000001000) ∧
    ¬ (0x800000000000 ≤ 0x7FFFFFFFFFFF) ∧ outside (8 * (2 ^ 37 - 8)) 64 ∧ ¬ outside 0 64 ∧ base.linkDown 0 64 = false ∧
    granuleOf (8 * 28) < 8 * 28 % granuleOf (8 * 28) + 8 * 8 ∧ 8 * 24 % granuleOf (8 * 24) + 8 * 8 ≤ granuleOf (8 * 24) ∧
    ({ base with ms := { base.ms with qctl := 0x8000000000000000, lost := Vector.replicate 2 true } } : State).linkDown Config.hostBase 64 = true ∧
    ¬ outside Config.hostBase 64 ∧ (∃ j, j < 7 ∧ 256 = 256 * 2 ^ j) ∧ 0 + (2 ^ 30 + 1 - 1) / 1 ≤ dpaBytes ∧ ¬ (2 ^ 50 + (1 + 1 - 1) / 1 ≤ dpaBytes) := by
  unfold outside
  decide +kernel

/-- A host line behind port 0 that is dirty, with the quarantine at 2^36 (bits) of two slots. -/
def behind : State := { base with ms := { base.ms with
  dirty := [{ die := 0, addr := Config.hostBase / 8, home := 1 }], qbase := 0x1000000000, qctl := 2 } }
def cutOff : State := { base with ms := { base.ms with linkUp := Vector.replicate 2 false } }
/-- A device with a live graph. -/
def deviced : State := base.mapSched fun c => { c with graphs := { masonGraph with vdev := 5, gid := 7, live := true } :: c.graphs }

theorem witness_Refreshes : base.ms.owed 0 0 < Config.postponeLimit ∧
    Config.postponeLimit ≤ ({ base.ms with postponed := [(0, 0, Config.postponeLimit)] } : MemSys).owed 0 0 :=
  ⟨Nat.succ_pos _, Nat.le_refl _⟩

theorem witness_ModuleEvents :
    base.ms.authFails[(31 : BitVec 5).toNat]? = some 0 ∧ base.ms.linkUp[(1 : BitVec 1).toNat]? = some true ∧
    cutOff.ms.linkUp[(1 : BitVec 1).toNat]? = some false ∧ behind.ms.mem.wf ∧ behind.ms.behindPort 0 (Config.hostBase / 1024) ∧
    ¬ behind.ms.behindPort 1 (Config.hostBase / 1024) ∧ behind.ms.qctl.toNat / 2 ^ 16 % 2 ^ 16 + 0 < behind.ms.qctl.toNat % 2 ^ 16 ∧
    populated (behind.ms.slotAt 0) = true ∧ behind.ms.slotAt 0 < Config.hostBase ∧ (behind.ms.dirty.map Dirty.addr).Nodup ∧
    (0 < 384 ∧ 384 ≤ 384) ∧ (∃ g ∈ deviced.sched.graphs, g.live = true ∧ g.vdev = 5) ∧ base.io.trains = true ∧
    imagesReason base.io.images = 0 ∧ failedBoot.io.mstate.getLsbD 4 = true ∧ base.io.mstate.getLsbD 5 = false := by
  unfold MemSys.behindPort
  decide +kernel

/-- NPOST of a write of 64 bits from the local extent to peer 4, counted at 512 of it. -/
def posting (len : Word) (n : Nat) : State :=
  let s := regs mason [(10, 0x401), (11, loc 0), (12, len), (13, 0), (14, loc 512), (15, 1)]
  let t := boundTask s { aTask masonKey .running with pendingNet := n }
  { t with io := { t.io with peers := [{ vdev := 0, index := 4, addr := 0, job := 0 }] } }
def postWord (s : State) (i : Nat) : Word := s.g (10 + BitVec.ofNat 5 i)

theorem witness_NetworkPosts : let buf : Machine.Class := { kinds := [0, 1], rd := true, wr := false }
    let s := posting 64 0
    (∀ r, ¬ s.refusesPost (postWord s) r) ∧ (posting 9 0).refusesPost (postWord (posting 9 0)) 2 ∧
    (∀ q, q < 2 → ¬ (posting 9 0).refusesPost (postWord (posting 9 0)) q) ∧
    checkExtent s.extents (postWord s 1) 64 buf = .ok (1, 0) ∧ checkExtent s.extents (postWord s 4) 64 .atomic = .ok (1, 512) ∧
    checkExtent s.extents shut 64 buf = .error ⟨.perm, shut, 0, 0⟩ ∧ checkExtent s.extents shut 64 .atomic = .error ⟨.perm, shut, 0, 0⟩ ∧
    512 % 512 + 64 ≤ 512 ∧ 512 < 480 % 512 + 64 ∧ s.task = some { aTask masonKey .running with pendingNet := 0 } ∧
    (posting 64 256).task = some { aTask masonKey .running with pendingNet := 256 } ∧
    s.resolve s.via (loc 0) 64 .watch = .ok [.ls 0 64] ∧ s.resolve s.via shut 64 .watch = .error ⟨.perm, shut, 0, 0⟩ := by
  refine ⟨fun r h => ?_, by simp only [State.refusesPost]; decide +kernel, fun q hq h => ?_, by and_intros; all_goals decide +kernel⟩
  · match r, h with
    | 1, h => exact absurd h (by simp only [State.refusesPost]; decide +kernel)
    | 2, h => exact absurd h (by simp only [State.refusesPost]; decide +kernel)
    | 3, h => exact absurd h (by simp only [State.refusesPost]; decide +kernel)
    | 4, h => exact absurd (h { vdev := 0, index := 4, addr := 0, job := 0 } (List.mem_singleton.mpr rfl)) (by decide +kernel)
  · match q, h with
    | 1, h => exact absurd h (by simp only [State.refusesPost]; decide +kernel)

/-- A request of the task, an exposed page, a stream with a job, and what the engine makes of them. -/
def request (where_ : Bool) : NetReq :=
  { task := masonKey, number := 0, read := true, peer := 4, bufLocal := where_, buf := 0, len := 64, remote := 0, ctrLocal := false, ctr := 512,
    root := 0x20001, assured := false, amount := 0 }
def requesting (l : List NetReq) (s : State) : State := { s with io := { s.io with requests := l } }
def exposedPage : Exposed := { vdev := 0, key := 3, base := 0, len := 4096, counter := 512, write := true, read := true }
def packet (total : Nat) : Packet :=
  { vdev := 0, key := 3, request := 9, first := 0, total := total, offset := 0, bytes := 8, value := 5, amount := 1 }
def exposedState : State := let s := calling 0 []; { s with io := { s.io with exposed := [exposedPage] } }

theorem witness_NetworkEvents : let s := boundTask mason (aTask masonKey .running)
    let away := (requesting [request true] mason).mapSched fun c => { c with tasks := [aTask masonKey .preempted] }
    s.io.mstate.getLsbD 5 = false ∧ (requesting [request true] s).io.requests[0]? = some (request true) ∧
    (request true).read = true ∧ s.sched.coreOf (request true).task ≠ none ∧ (s.place (request true) true 0 64 .engineWrite).isSome = true ∧
    (s.place (request false) false 512 64 .engineAtomic).isSome = true ∧ away.sched.coreOf masonKey = none ∧
    (away.sched.task masonKey).map Task.state = some .preempted ∧ (s.place (request false) false (2 ^ 40) 64 .engineAtomic).isSome = false ∧
    exposedState.io.exposed = [] ++ exposedPage :: [] ∧ exposedPage.vdev = (packet 8).vdev ∧ exposedPage.key = (packet 8).key ∧
    8 * ((packet 8).first + (packet 8).total) ≤ exposedPage.len ∧ (packet 8).offset + (packet 8).bytes ≤ (packet 8).first + (packet 8).total ∧
    (packet 8).total ≤ 8 ∧ 8 < (packet 16).total ∧ exposedState.io.arrived (packet 8) =
      { vdev := 0, key := 3, request := 9, placed := [], bad := false } ∧
    (let via := engineVia (exposedState.sched.settings 0).root (exposedState.sched.settings 0).assured
     exposedState.engineSegs via (exposedPage.base + 8 * (packet 8).offset) (8 * (packet 8).bytes) .engineWrite ≠ none ∧
     exposedState.engineSegs via exposedPage.counter 64 .engineAtomic ≠ none ∧ exposedState.engineSegs via (2 ^ 40) 64 .engineAtomic = none) := by
  and_intros
  all_goals first | rfl | decide +kernel

/-- A stream of the device, a job image of it in the local store, and the job. -/
def encStream : EncStream :=
  { number := 5, vdev := 0, encoder := 0, width := 64, height := 64, deep := false, interval := 1, rate := 0, quant := 0, failed := false }
def jobImage : BitVec 512 := BitVec.ofNat 512 (5 + ver.toNat * 2 ^ 64 + 5 * 2 ^ 128 + 65536 * 2 ^ 256 + 64 * 2 ^ 320 + (ver + 64).toNat * 2 ^ 384 + 6 * 2 ^ 448)
def anJob (started : Bool) : EncJob :=
  { id := 1, stream := 5, encoder := 0, image := jobImage, ext := base.core.e, root := 0x20001, assured := false, started := started, bad := false, written := none }
def encoding (jobs : List EncJob) : State := let s := boundTask (versioned 3 1024 5) (aTask masonKey .running)
  { s with io := { s.io with encStreams := [encStream], encJobs := jobs } }

theorem witness_Encoders : let s := encoding []
    s.resolve s.via (loc 0) 512 .load = .ok [.ls 0 512] ∧ s.resolve s.via shut 512 .load = .error ⟨.perm, shut, 0, 0⟩ ∧
    jobImage.toNat / 2 ^ 11 % 2 ^ 53 = 0 ∧ s.io.encStreams = [] ++ encStream :: [] ∧
    (encStream.number = jobImage.toNat % 2 ^ 10 ∧ encStream.vdev = s.taskKey.vdev) ∧
    checkExtent s.extents (jobField jobImage 1) 64 .verLoad = .ok (3, 0) ∧
    checkExtent s.extents (jobField jobImage 3) (frameBits encStream) { kinds := [0], rd := true, wr := false } = .ok (0, 0) ∧
    (jobField jobImage 4).toNat % 2 ^ 58 % 8 = 0 ∧
    checkExtent s.extents (jobField jobImage 4) (jobField jobImage 5).toNat { kinds := [0], rd := false, wr := true } = .ok (0, 65536) ∧
    checkExtent s.extents (jobField jobImage 6) 64 .verStore = .ok (3, 64) ∧ (s.io.encJobs.filter fun j => j.encoder = 0).length < 64 ∧
    64 ≤ ((encoding (List.replicate 64 (anJob false))).io.encJobs.filter fun j => j.encoder = 0).length ∧
    ((encoding [anJob false]).io.encJobs.map EncJob.id).Nodup ∧
    (encoding [anJob false]).lookUp (anJob false).via (jobField jobImage 1) (jobField jobImage 2) = .value 77 ∧
    (encoding [anJob true]).storeCheck (anJob true).via (jobField jobImage 6) (jobField jobImage 7) = .ok (5, 1, false) ∧
    (encoding [anJob true]).io.encJobs = [] ++ anJob true :: [] ∧ (anJob true).started = true ∧ (anJob false).started = false ∧
    (versioned 3 128 5).storeCheck (anJob true).via (jobField jobImage 6) (jobField jobImage 7) = .ok (5, 1, true) ∧
    ((encoding [{ anJob true with written := some 8 }]).encode { anJob true with written := some 8 } encStream).2 = 8 ∧
    base.storeCheck (anJob true).via (jobField jobImage 6) (jobField jobImage 7) = .error ⟨.perm, ver + 64, 0, 0⟩ := by
  decide +kernel

/-- The core's turn, with a word at 0, "ADDI g7, g0, 64" being 0x04000383. -/
def atWord (l : List (Nat × Byte)) : State := { base with agenda := [.seq 0 .main], ms := { base.ms with mem := l ++ base.ms.mem } }
def issuing (l : List (Nat × Byte)) (w : BitVec 32) : State :=
  let v0 := ({ atWord l with agenda := [] } : State).focus 0 .main
  ((v0.elapse v0.turnCycles).chains).issuing w
def addiBytes : List (Nat × Byte) := [(0, 0x83), (1, 0x03), (3, 0x04)]

theorem issues_at {l : List (Nat × Byte)} {w : BitVec 32} {n : Nat} (ha : (atWord l).nextAgent = some (.seq 0 .main, { atWord l with agenda := [] }))
    (h : let v0 := ({ atWord l with agenda := [] } : State).focus 0 .main
      let v := (v0.elapse v0.turnCycles).chains
      (v0.seq.running = true ∧ v0.io.mstate.getLsbD 5 = false ∧ (v0.sched.slot v0.coreNo).dcmd = 0 ∧ v.seq.wait = none ∧
        v.seq.replay = [] ∧ v.seq.owed.frame = false) ∧ v.seq.frame = none ∧ v.fetchAt v.seq.pc = .ok (w, n)) :
    (atWord l).Issues (issuing l w) w n :=
  ⟨0, .main, _, ha, by decide, rfl, h.1.1, h.1.2.1, h.1.2.2.1, .inl h.1.2.2.2.1, h.1.2.2.2.2.1, h.1.2.2.2.2.2, .inr h.2⟩

theorem witness_StepRunsInstruction : (atWord addiBytes).Issues (issuing addiBytes 0x04000383) 0x04000383 32 ∧
    decode (natToBytes (0x04000383 : BitVec 32).toNat (32 / 8)) = .ok (.addi 7 0 64 0, []) ∧
    accepts (issuing addiBytes 0x04000383).cur 0x04000383 32 = true ∧
    (issuing addiBytes 0x04000383).held 0x04000383 32 ((issuing addiBytes 0x04000383).issueOperands 0x04000383 32) = false ∧
    (issuing addiBytes 0x04000383).earlySources 0x04000383 32 = [] ∧
    (atWord []).Issues (issuing [] 0) 0 16 ∧ decode (natToBytes (0 : BitVec 32).toNat (16 / 8)) = .error .reservedCompact :=
  by and_intros; all_goals first | decide +kernel | exact issues_at rfl (by decide +kernel)

/-- A turn of a sequencer that stands, of one whose fetch fails, of an event, and of nobody. -/
theorem witness_OtherTurns : let stopped : State := { State.reset with agenda := [.seq 0 .main] }
    let lost := (atWord []).mapSeq fun q => { q with pc := BitVec.ofNat 58 (2 ^ 40) }
    let event : State := { base with agenda := [.event .envelopeApply] }
    stopped.nextAgent = some (.seq 0 .main, { stopped with agenda := [] }) ∧ ({ stopped with agenda := [] } : State).seq.running = false ∧
    lost.nextAgent = some (.seq 0 .main, { lost with agenda := [] }) ∧ lost.fetchAt lost.seq.pc = .error ⟨.page, BitVec.ofNat 64 (2 ^ 40), 0, 0⟩ ∧
    event.nextAgent = some (.event .envelopeApply, base) ∧ encode .envelopeApply = [] ∧ encodeCommand .envelopeApply = none ∧
    event.io.mstate.getLsbD 5 = false ∧ outlivesFatal .envelopeApply = false ∧ State.reset.nextAgent = none := by
  and_intros
  all_goals rfl

/-- An add whose source was written by the instruction before it, under checked issue (R56), or is in flight (R391). -/
theorem witness_EarlySources : let w : BitVec 32 := 0x04000383
    let s := issuing addiBytes w
    let early := s.withSeq { s.seq with record := [{ cls := .g, reg := 7, lat := 2, dist := 0, old := 0 }] }
    let owed := s.withSeq { s.seq with inFlight := [flying none [[.reg .g 7]]] }
    (s.mapCtl fun c => { c with mode := 1 }).core.ctl.mode.getLsbD 0 = true ∧ early.earlySources 0x04007083 32 ≠ [] ∧
    owed.held 0x04007083 32 (owed.issueOperands 0x04007083 32) = true := by decide +kernel

/-- A tensor behind a base that permits nothing, and one whose rows have no elements. -/
def badTensor : BitVec 512 := BitVec.ofNat 512 (shut.toNat + 7 * 2 ^ 64 + 4 * 2 ^ 72 + 8 * 2 ^ 192)
def emptyRows : BitVec 512 := BitVec.ofNat 512 ((loc 0).toNat + 7 * 2 ^ 64)
def failing : Ctx := { consts streamCtx [(5, loc 0x800), (6, loc 0x400), (7, shut), (8, win)] with
  d := (streamCtx.d.setIfInBounds 2 badTensor).setIfInBounds 3 emptyRows }

/-- Items that fail or stall, in a dense delivery, into a window and in a scatter, and an index list that does. -/
theorem witness_FailingItems : let s := streaming (boundTask mason (aTask masonKey .running)) failing
    let away := streaming mason failing
    let ring := streaming (ringing 64) failing
    let shut_ := (ringing 64).mapCore fun c => { c with e := c.e.set 2 (mkExtent 65536 1024 2 true false 3) }
    (∃ r, State.delivery failing (.stile 2 6 6 3 0 0 0) = some r ∧ 0 < r.count ∧ extKind (failing.ext[r.dst.toNat / 2 ^ 60]?.getD 0) ≤ 1 ∧
      r.get (s.dense failing (fun _ => []) r.w fun _ => 0) 0 = .bad ⟨.perm, shut, 0, 0⟩ 8) ∧
    (∃ r, State.delivery failing (.stile 1 6 6 3 0 0 0) = some r ∧ 0 < r.count ∧ r.get (away.dense failing (fun _ => []) r.w fun _ => 0) 0 = .stall) ∧
    (∃ r, State.delivery failing (.sfill 6 2) = some r ∧ 0 < r.count ∧ r.get (away.dense failing (fun _ => []) r.w fun _ => 0) 0 = .val 0 ∧
      away.reach failing r.dst 0 r.w .store = .stall) ∧
    (∃ r, State.delivery failing (.stile 2 6 8 3 0 0 0) = some r ∧ 0 < r.count ∧ r.dst.toNat % 2 ^ 60 = 0 ∧ r.count * r.w ≤ 1024 ∧
      r.get ((ring.bindWindow failing 3).ringItems (mkExtent 65536 1024 2 true true 3) 64 r.w fun _ => 0) 0 = .bad ⟨.perm, shut, 0, 0⟩ 8) ∧
    (descSize (failing.d[3]?.getD 0) 0 = 0 ∧ failing.rowCount 1 = 1 ∧ s.indexRead failing (loc 0x800) 0 0 = .val 0 ∧
      s.indexRead failing shut 0 0 = .bad ⟨.perm, shut, 0, 0⟩ 16 ∧ (ring.bindWindow failing 3).indexRead failing (loc 0x800) 0 0 = .val 0) ∧
    (s.streamRead failing shut 0 8 = .bad ⟨.perm, shut, 0, 0⟩ 8 ∧ away.streamRead failing (loc 0x400) 0 8 = .stall ∧
      away.indexRead failing (loc 0x800) 0 0 = .stall ∧ away.indexRead failing 0x100000 0 0 = .val 0 ∧ away.streamRead failing 0x100000 0 8 = .val 0 ∧
      s.reach failing shut 0 8 .store = .bad ⟨.perm, shut, 0, 0⟩ ∧ away.reach failing (loc 0) 0 8 .store = .stall) ∧
    (extWrite (shut_.core.e[2]?.getD 0) = false ∧ liveOf (shut_.blockOf 3) ∧ capOf (shut_.blockOf 3) = 1024) := by
  and_intros
  all_goals first | rfl | exact some_with _ (by decide +kernel) (by decide +kernel)

theorem witness_ConversionFields : failing.conv.use (descW (failing.d[3]?.getD 0)) false ≠ none ∧
    failing.conv.use (descW (failing.d[2]?.getD 0)) true = some (8, id) :=
  ⟨by rw [plain_use _ _ _ rfl rfl]; simp, plain_use _ _ _ rfl rfl⟩

/-- Two tasks parked for a slot of the pool, in the order in which they parked. -/
theorem witness_PoolWaiters : let led := (boundTask mason leading).mapSched fun c => { c with
      tasks := [leading, counted, other 2 .blockedPool, other 3 .blockedPool], poolParked := [(other 2 .ready).key, (other 3 .ready).key] }
    (∀ k ∈ led.sched.poolParked, led.InState k .blockedPool) ∧
    led.sched.poolParked.find? (fun k => k.vdev = led.taskKey.vdev && k.graph = led.taskKey.graph) = some (other 2 .ready).key ∧
    led.Loaded led 0 selfImage := by
  refine ⟨fun k hk => ?_, by decide +kernel, rfl, [], rfl, fun x hx => absurd hx List.not_mem_nil⟩
  simp only [List.mem_cons, List.not_mem_nil, or_false, State.mapSched] at hk
  rcases hk with rfl | rfl
  · exact ⟨other 2 .blockedPool, by decide +kernel, rfl⟩
  · exact ⟨other 3 .blockedPool, by decide +kernel, rfl⟩

/-- Contract 4, of an earlier deadline, and a device with all cores taken and another with a ready task and credit. -/
def sooner : Contract := { aContract with number := 4, desc := BitVec.ofNat 256 (1000 + 100 * 2 ^ 32 + 2 ^ 72 + 2 ^ 80 + 0xFFFF * 2 ^ 88) }
def urgent (share : Nat) : State := (contracted aContract).mapSched fun d => { d with
  contracts := [aContract, sooner], vdevs := [(0, { share := share, root := 0x20001 })], lists := [(.contract 4, (other 1 .ready).key)]
  tasks := contractTask :: [{ other 1 .ready with image := BitVec.ofNat 512 (4 * 2 ^ 400) }] }
def crowded : State := mason.mapSched fun d => { d with
  slots := (List.range 224).map fun n => (n, { run := record masonKey true, stg := 0, dcmd := 0, since := 0 })
  notices := [0], vdevs := [(5, { weight := 1, credit := 7 })], lists := [(.bestEffort 5 0, { masonKey with vdev := 5 })]
  tasks := [aTask masonKey .running] }

theorem witness_PreemptionCauses :
    (urgent 1).sched.Displaced 0 ∧ (urgent 1).sched.latest 0 = some (0, 2000) ∧ crowded.QuantumOver 0 ∧
    ¬ mason.QuantumOver 0 ∧ (urgent 2).sched.nextContract = some (sooner, (other 1 .ready).key) ∧
    (urgent 2).idleCore 1 ∧ (urgent 2).Takes 1 ∧
    (∃ r d, (urgent 2).choose 1 = some (r, d) ∧ bindValid r = true ∧ d.slots = (urgent 2).sched.slots) := by
  have busy : ∀ m, m < 224 → bindValid (crowded.sched.slot m).run = true := by decide +kernel
  have idle : (urgent 2).idleCore 1 := by unfold State.idleCore; decide +kernel
  refine ⟨⟨sooner, (other 1 .ready).key, 2000, ⟨.tail _ (.head _), by decide +kernel, by decide +kernel, by decide +kernel⟩, by decide +kernel,
    by decide +kernel, by decide +kernel⟩, by decide +kernel, ⟨⟨5, by decide +kernel⟩, fun m hm => ?_⟩, fun ⟨⟨v, _, hv, _⟩, _⟩ => ?_,
    by decide +kernel, idle, ⟨fun _ => idle, fun h => absurd ⟨1, idle⟩ h⟩, ?_⟩
  · exact absurd (busy m hm.1) (by simp [hm.2.1])
  · exact absurd hv (by rw [show mason.sched.readyVdevs = [] by decide +kernel]; simp)
  · exact ⟨_, _, Option.some_get (by decide +kernel) |>.symm, by decide +kernel, by decide +kernel⟩

/-- A contract task runs on core 0 and a best-effort one on core 1, where a record is staged. -/
def mixed (stg : BitVec 256) : State := (contracted aContract).mapSched fun d => { d with
  slots := (1, { run := record { masonKey with vdev := 5 } true, stg := stg, dcmd := 0, since := 0 }) :: d.slots
  tasks := d.tasks ++ [aTask { masonKey with vdev := 5 } .running] }

theorem witness_MixedClasses : let best := record { masonKey with vdev := 5 } true
    (mixed 0).sched.runContract ((mixed 0).sched.slot 0) ≠ none ∧ (mixed 0).sched.notices = [] ∧
    (∃ p ∈ (mixed 0).sched.slots, bindValid p.2.run = true ∧ (mixed 0).sched.runContract p.2 = none) ∧
    (mixed best).sched.BestEffort ((mixed best).sched.slot 1).stg ∧ bindValid ((mixed best).sched.slot 1).stg = true ∧
    (mixed best).sched.nextContract = none ∧ ¬ (mixed (record masonKey true)).sched.BestEffort ((mixed (record masonKey true)).sched.slot 1).stg ∧
    bindValid ((mixed (record masonKey true)).sched.slot 1).stg = true := by
  refine ⟨by decide +kernel, by decide +kernel, by decide +kernel,
    ⟨_, 5, 0, (Option.some_get (by decide +kernel)).symm, by decide +kernel⟩, by decide +kernel, by decide +kernel, ?_, by decide +kernel⟩
  rintro ⟨y, v, p, hy, h⟩
  have c : ((mixed (record masonKey true)).sched.task (keyOf (field ((mixed (record masonKey true)).sched.slot 1).stg 40 0))).all
      (fun y => (mixed (record masonKey true)).sched.contractOf y ≠ 0 ∧ y.demoted = false) = true := by decide +kernel
  rw [hy] at c
  unfold Sched.readyListOf at h
  simp only [Option.all_some, decide_eq_true_eq] at c
  split at h <;> simp_all

/-- A slot whose task goes to the tail of its list, waits that park with the counts they need, and a count that is reached. -/
theorem witness_Parking : let t := aTask masonKey .running
    let both := slotted (record masonKey true) (record { masonKey with record := 1 } true) 0 [t, other 1 .bound] mason
    let chained := (openedTo 0).mapCore fun c => { c with main := { c.main with wait := some (.chained (chainAt opened win)), waited := 12001 } }
    let reached := boundTask mason { aTask masonKey .blockedBarrier with ctx := 0x8000, needs := [(3, 0)] }
    (both.mapSched fun c => { c with slots := [(0, { c.slot 0 with dcmd := 1, tail := true })] }).sched.slot 0 ≠ both.sched.slot 0 ∧
    ((chained.coreAt 0).main.wait = some (.chained (chainAt opened win)) ∧ (Wait.chained (chainAt opened win)).parks = true ∧
      chained.chainNeed (chainAt opened win) 0 = 64) ∧
    (∃ x ∈ (aTask masonKey .blockedBarrier).needs ++ [(3, 0)], x.2 ≤ reached.ms.mem.readBits (0x8000 + 155648 + 256 * x.1) 64) ∧
    (reached.sched.task masonKey).map Task.state = some .blockedBarrier ∧ mason.choose 0 = none ∧
    (field (record masonKey false) 191 128 ≠ 0 ∧ (record masonKey false).getLsbD 58 = false) := by decide +kernel

theorem witness_FirstRelease : let s := contracted { aContract with releases := 0 }
    s.sched.contracts.find? (fun x => x.number = 3) = some { aContract with releases := 0 } ∧
    (∃ t ∈ s.sched.tasks, t.key.vdev = 0 ∧ t.key.graph = 0xFFFF ∧ t.state ≠ .ended) ∧
    ((contracted { aContract with remaining := 0 }).sched.contractCores 3 = [0]) ∧
    bindValid ((contracted aContract).sched.slot 0).run = true ∧ ((contracted aContract).sched.slot 0).dcmd = 0 := by decide +kernel

theorem witness_Handed : launching.Handed launching 0 7 oneRecord := by
  refine ⟨rfl, ⟨[], rfl, fun x hx => absurd hx List.not_mem_nil⟩, [], ?_, fun x hx => absurd hx List.not_mem_nil⟩
  decide +kernel

/-- Every key of a device is used, and every contract number. -/
theorem witness_NumbersUsed : let keys := (List.range 4096).map fun n => ({ exposedPage with key := n } : Exposed)
    let all := (List.range 4096).map fun n => ({ aContract with number := n } : Contract)
    (∀ n, n < 4096 → ∃ x ∈ keys, x.vdev = 0 ∧ x.key = n) ∧ ∀ n, 0 < n → n < 4096 → ∃ c ∈ all, c.number = n :=
  ⟨fun _ hn => ⟨_, List.mem_map_of_mem (List.mem_range.mpr hn), rfl, rfl⟩, fun _ _ hn => ⟨_, List.mem_map_of_mem (List.mem_range.mpr hn), rfl⟩⟩

/-- An access of a die to a packed page: sound, not sound, poisoned, and over a heap. -/
theorem witness_PackedDieAccess : let r : DieAccess := { addr := 2 ^ 25, width := 64, packed := true, ecc := .clean }
    let bad := { packedHere with ms := { packedHere.ms with poison := [32768] } }
    r.addr < 2 ^ 43 ∧ r.addr % 2 ^ 25 + r.width ≤ 2 ^ 25 ∧ packedHere.ms.readPacked (2 ^ 25) 0 64 = some 0 ∧ packedHere.needed r false 32768 ∧
    base.ms.readPacked (2 ^ 25) 0 64 = none ∧ (∃ x ∈ bad.ms.poison, bad.needed r false x) ∧ packedHere.inHeap (1024 * 32768) 1024 = false ∧
    (∃ x ∈ (versioned 3 1024 7).ms.packedReach (2 ^ 30) 0 64 false, (versioned 3 1024 7).inHeap (1024 * x) 1024 = true) ∧
    2 ^ 25 ∉ packedHere.ms.tainted := by
  unfold State.needed
  refine ⟨by decide, by decide, by decide +kernel, by decide +kernel, by decide +kernel, ⟨32768, ?_⟩, by decide +kernel, ⟨2 ^ 20, ?_⟩, by decide +kernel⟩
  all_goals decide +kernel

/-- An application core that is not released, and one with a reservation that still holds. -/
theorem witness_HartStates : let harts (x : Hart) : State := { base with io := { base.io with harts := base.io.harts.setIfInBounds 3 x } }
    let held : Hart := { released := true, pc := 0, reserved := some (64, 8, base.ms.stamp) }
    (harts { held with released := false }).io.harts[(3 : BitVec 4).toNat]? = some { held with released := false } ∧
    (harts held).io.harts[(3 : BitVec 4).toNat]? = some held ∧ base.io.harts[(3 : BitVec 4).toNat]?.map Hart.released = some true ∧
    (∀ p ∈ base.ms.past, p.stamp ≤ base.ms.stamp) ∧ ((8 = 4 ∨ 8 = 8) ∧ 64 % 8 = 0) ∧ ¬ ((2 = 4 ∨ 2 = 8) ∧ 64 % 2 = 0) ∧
    outside (2 ^ 63) 64 ∧ ¬ outside (8 * 64) 64 ∧ (versioned 3 1024 7).inHeap (8 * 2 ^ 27) 64 = true ∧ base.inHeap (8 * 64) 64 = false ∧
    (poisonedAt 0).poisoned (8 * 64) 64 false = true ∧ (poisonedAt 0).poisoned (8 * 64) 64 true = true ∧ base.poisoned (8 * 64) 64 true = false := by
  unfold outside
  decide +kernel

/-- Two decoders of a two-way set, of which each port has every second block. -/
theorem witness_Interleave : let x : HdmDecoder := { base := 4096, size := 2 ^ 30, dpa := 0, ways := 2, granularity := 256, committed := true }
    hdmGives x 0 (4096 + 512) 8 256 ∧ hdmGives x 1 (4096 + 256) 8 0 :=
  ⟨⟨rfl, 512, rfl, by decide, 1, 0, by decide⟩, ⟨rfl, 256, rfl, by decide, 0, 0, by decide⟩⟩

/-- A request in the queue with its buffer and counter in place, and the next job of a stream at an encoder. -/
theorem witness_EngineStates : let s := boundTask mason (aTask masonKey .running)
    (s.spotOf (request true) true 0 64 .engineWrite).isSome = true ∧ (s.spotOf (request true) false (2 ^ 40) 64 .engineAtomic).isSome = false ∧
    (encoding [anJob false]).io.Next 0 (anJob false) ∧ (encoding [anJob true]).io.Next 0 (anJob true) ∧
    (∀ j ∈ (encoding [anJob false]).io.encJobs, ¬ (j.encoder = 0 ∧ j.started = true)) ∧
    (base.lookUp (anJob false).via (jobField jobImage 1) 6 = .bad ⟨.perm, ver, 0, 0⟩) ∧
    (encoding []).lookUp (anJob false).via (jobField jobImage 1) 6 = .missing 5 0 := by
  refine ⟨by decide +kernel, by decide +kernel, ⟨[], [], rfl, rfl, ?_⟩, ⟨[], [], rfl, rfl, ?_⟩, by decide +kernel, by decide +kernel, by decide +kernel⟩
  all_goals exact fun y hy => absurd hy List.not_mem_nil

/-- An instruction behind a VLD.WC that waits, and an illegal ETAG whose source is early (log 10). -/
theorem witness_HeldAndIllegal : let w : BitVec 32 := 0x04000383
    let s := issuing addiBytes w
    let behind_ := s.withSeq { s.seq with inFlight := [flying (some (chainAt opened win)) [[.reg .g 7]]] }
    behind_.behindChain = true ∧ (s.withSeq { s.seq with inFlight := [flying none [[.reg .g 7]]] }).behindChain = false ∧
    let early : List Pending := [{ cls := .g, reg := 7, lat := 4, dist := 1, old := 0 }]
    s.illegal early (exec (.addi 7 0 64 0)) = false ∧ s.illegal early (exec (.etag 3 7 16 0)) = true := by decide +kernel

theorem witness_RoundTrip : (Instr.addi 7 0 64 0).wf = true ∧ encode (.addi 7 0 64 0) ≠ [] ∧ (Instr.sver 1 2 3 4).wf = true ∧
    (encodeCommand (.sver 1 2 3 4)).isSome = true ∧ (Instr.addi 7 0 64 0).wf = true := by decide +kernel

theorem witness_InvStep : (atWord addiBytes).Inv ∧ ∃ t, step (atWord addiBytes) = .next t := by
  refine ⟨⟨by decide +kernel, by decide +kernel, by decide +kernel⟩, ?_⟩
  have h : (match step (atWord addiBytes) with
    | .next _ => true
    | _ => false) = true := by decide +kernel
  cases hs : step (atWord addiBytes) <;> simp_all

theorem witness_ResetValues : (State.reset.ms.llc[3]?).isSome = true ∧ (LlcDie.reset.part[63]?).isSome = true ∧
    (State.reset.ms.pklast[7]?).isSome = true ∧ (State.reset.ms.pkcmd[7]?).isSome = true ∧ (63 : Nat) < 64 := by decide +kernel

/-- The tables of `base`, and a third-level table for the second 8 GiB in the heap of region 5. -/
def heapTables : State := { base with
  ms := { base.ms with mem := base.ms.mem ++ [(32776, 1), (32778, 6)] }
  ver := { VerSys.reset with regions := VerSys.reset.regions.setIfInBounds 5 (BitVec.ofNat 384 (0x60000 * 2 ^ 128 + 2 ^ 254 + 2 ^ 17 * 2 ^ 256)) } }

/-- A walk that reads a heap and one that only fails, for the first and for the second of two pages (R41, R304). -/
theorem witness_HeapWalks : heapTables.WalksHeap 0x20001 (2 ^ 36) ∧ ¬ heapTables.WalksHeap 0x20001 0 ∧ ¬ base.WalksHeap 0x20001 (2 ^ 36) ∧
    heapTables.page heapTables.via (2 ^ 36) 8 false = none ∧ base.page base.via (2 ^ 36) 8 false = none ∧
    heapTables.page heapTables.via (2 ^ 36 - 8) 8 false = some (0x7F, 2 ^ 36 - 8) ∧
    base.page base.via (2 ^ 36 - 8) 8 false = some (0x7F, 2 ^ 36 - 8) ∧
    heapTables.resolve heapTables.via (2 ^ 36 - 8) 16 .load = .error ⟨.perm, 2 ^ 36, 0, 0⟩ ∧
    base.resolve base.via (2 ^ 36 - 8) 16 .load = .error ⟨.page, 2 ^ 36, 0, 0⟩ := by
  simp only [← State.walkInHeap_iff]
  decide +kernel

theorem witness_BlockBehindVl : let s := (ratio base).mapCtl fun c => { c with vl := 40, estart := 50 }
    let t := s.mapCtl fun c => { c with estart := 64 }
    (s.vl ≤ s.estart ∧ s.estart / 32 < (s.vl + 31) / 32) ∧ t.vl ≤ t.estart ∧ ¬ t.estart / 32 < (t.vl + 31) / 32 ∧
    (s.cw = 32 ∧ groupOk 21 s.grp = true ∧ ¬ groupsMeet 4 1 21 s.grp ∧ ¬ groupsMeet 6 1 21 s.grp) ∧
    (blockConvert ((List.range 32).map fun m => elem (s.group 21 s.grp % 2 ^ (32 * s.vl)) 32 (32 + m))).flags &&& s.ten = 0 := by
  decide +kernel

theorem witness_DescriptorSlots : let s := streaming (boundTask mason (aTask masonKey .running)) failing
    (1 : BitVec 4).toNat < 8 ∧ 8 ≤ (9 : BitVec 4).toNat ∧ State.delivery failing (.stile 9 6 6 3 0 0 0) = none ∧
    exec (.sdesc 9 6 0) s = .next (s.streamFault ⟨.illop, s.str.word, 0, 0⟩ 0) := by
  and_intros
  all_goals first | rfl | decide

/-- Pages that a READ's bits reach, and one that is not mapped. -/
theorem witness_FillsPages : let via := engineVia 0x20001 false
    (∃ t, FillsPages via 0 5 (2 ^ 64 - 1) [(0, 64)] mason t true) ∧ FillsPages via (2 ^ 40) 5 (2 ^ 64 - 1) [(0, 64)] mason mason false ∧
    (let s := requesting [request false] (boundTask mason (aTask masonKey .running))
     s.io.mstate.getLsbD 5 = false ∧ s.io.requests[0]? = some (request false)) :=
  ⟨⟨_, .placed rfl (.done _)⟩, .skipped rfl (.done _), rfl, rfl⟩

/-- A vector instruction of two groups in flight, with flags of each. -/
theorem witness_FlagsInFlight : let x := { flying none [[.reg .v 4], [.reg .v 5]] with flags := [1, 16] }
    (inFlight base [x]).seq.inFlight[0]? = some x ∧ x.chain = none ∧ x.owes = [.reg .v 4] :: [.reg .v 5] :: [] ∧ x.flags.headD 0 = 1 := by
  decide +kernel

/-- "LD.z64 g3, g1, g7", which stays in flight, at 0. -/
theorem witness_StaysInFlight : let l := [(0, 0x91), (1, 0x11), (2, 0x0E), (3, 0x7E)]
    let s := issuing l 0x7E0E1191
    (atWord l).Issues s 0x7E0E1191 32 ∧ decode (natToBytes (0x7E0E1191 : BitVec 32).toNat (32 / 8)) = .ok (.ld 3 1 7 0 63 0, []) ∧
    accepts s.cur 0x7E0E1191 32 = true ∧ s.held 0x7E0E1191 32 (s.issueOperands 0x7E0E1191 32) = false ∧ s.earlySources 0x7E0E1191 32 = [] ∧
    staysInFlight 0x7E0E1191 32 (s.issueOperands 0x7E0E1191 32) = true ∧ byGroups 0x7E0E1191 = false ∧ s.core.ctl.flags = 0 ∧
    (∃ t, exec (.ld 3 1 7 0 63 0) s = .next t ∧ stoppedBy s t = false ∧ t.seq.wait = none) :=
  by and_intros; all_goals first | decide +kernel | exact issues_at rfl (by decide +kernel) | exact ⟨_, rfl, by decide +kernel, by decide +kernel⟩

/-- A contract task while the only idle cores are those of dies on their way to hint residency (R292). -/
def hinted : State := [1, 2, 3].foldl (fun s n => s.withLlc n fun y => { y with cfg := 1 }) <| (urgent 2).mapSched fun d => { d with
  slots := (List.range 56).map fun n => (n, { run := record { masonKey with vdev := 5 } true, stg := 0, dcmd := 0, since := 0 })
  tasks := d.tasks ++ [aTask { masonKey with vdev := 5 } .running] }

theorem witness_HintedDies : hinted.Takes 0 ∧ ¬ hinted.idleCore 60 ∧ bindValid (hinted.sched.slot 60).run = false ∧
    (∃ p, hinted.sched.nextContract = some p) ∧ ((hinted.ms.llc[dieOf 0]?).getD LlcDie.reset).cfg &&& 3 = 0 ∧
    ∃ p, hinted.choose 0 = some p := by
  have busy : ∀ n, n < 224 → ¬ (bindValid (hinted.sched.slot n).run = false ∧ bindValid (hinted.sched.slot n).stg = false ∧
    ((hinted.ms.llc[n / 56]?).getD LlcDie.reset).cfg.toNat % 4 = 0) := by decide +kernel
  have none_ : ∀ n, ¬ hinted.idleCore n := fun n h => busy n h.1 h.2
  have same : ∀ p ∈ hinted.sched.slots, p.2.since ≤ (hinted.sched.slot 0).since := by decide +kernel
  refine ⟨⟨fun ⟨m, h⟩ => absurd h (none_ m), fun _ => ⟨by decide +kernel, fun p hp _ => same p hp⟩⟩, none_ 60, by decide +kernel,
    some_of (by decide +kernel), by decide +kernel, some_of (by decide +kernel)⟩

/-- The 16 ADDs are fetched and pass the checks with D staggered; a parcel, a register number past 31 and a loop end fail them. -/
theorem witness_FrameCapture : let at_ (j : Nat) : BitVec 58 := 0 + BitVec.ofNat 58 (32 + 32 * j)
    let looped := framed.mapSeq fun q => { q with depth := 1, le := q.le.setIfInBounds 0 40 }
    at_ 0 = 0 + 32 ∧ (∀ j, j < 16 → framed.fetchAt (at_ j) = .ok (1, 32) ∧ at_ (j + 1) = at_ j + BitVec.ofNat 58 32) ∧
    (∀ j r, j < 16 → ¬ framed.FrameFails 1 2 1 (at_ j).toNat 1 32 r) ∧
    base.fetchAt 32 = .ok (0, 16) ∧ base.FrameFails 1 2 1 32 0 16 0 ∧
    framed.FrameFails 1 1024 7 32 1 32 1 ∧ looped.FrameFails 1 2 1 32 1 32 2 ∧ ¬ looped.FrameFails 1 2 1 64 1 32 2 ∧
    ((atWord []).mapSeq fun q => { q with pc := BitVec.ofNat 58 (2 ^ 40) }).fetchAt (BitVec.ofNat 58 (2 ^ 40)) = .error ⟨.page, BitVec.ofNat 64 (2 ^ 40), 0, 0⟩ ∧
    frame16.words[frame16.pos]? = some 1 ∧ staggerLimit framed.vt 1 1 0 = some 31 ∧ regField 1 0 + 1 * 1 ≤ 31 := by
  have h0 : staggerLimit framed.vt 1 1 0 = some 31 := by decide +kernel
  have hn : ∀ j, j ≠ 0 → staggerLimit framed.vt 1 1 j = none := fun j hj => by
    match j, hj with
    | 1, _ => decide +kernel
    | 2, _ => decide +kernel
    | j + 3, _ => unfold staggerLimit; split <;> rfl
  refine ⟨rfl, by decide +kernel, fun j r _ h => ?_, by decide +kernel, .inl rfl, ⟨0, 31, h0, by decide⟩, ⟨0, by decide +kernel⟩, ?_,
    by decide +kernel, rfl, h0, by decide⟩
  · match r, h with
    | 0, h => exact h.elim (by decide) fun h => h (by unfold isArithmetic; decide)
    | 1, ⟨j, m, hm, hl⟩ =>
      by_cases hj : j = 0
      · subst hj
        cases h0.symm.trans hm
        exact absurd hl (by decide)
      · exact absurd ((hn j hj).symm.trans hm) (by simp)
    | 2, ⟨k, hk, _⟩ => exact absurd hk (Nat.not_lt_zero _)
  · rintro ⟨k, hk, hl⟩
    have : k = 0 := below_one hk (by decide +kernel)
    subst this
    exact absurd hl (by decide +kernel)

/-- A group whose products cancel and one whose do not (R261). -/
theorem witness_Cancellation : let ps := [FVal.fin false 1 0, .fin true 1 0]
    LargestExponent ps 0 ∧ (ps.map (gridOf 0)).sum = 0 ∧ (([FVal.fin false 3 0, .fin true 1 0] : List FVal).map (gridOf 1)).sum ≠ 0 ∧
    LargestExponent [FVal.fin false 3 0, .fin true 1 0] 1 := by
  have log3 : Nat.log2 3 = 1 := by decide +kernel
  refine ⟨⟨⟨false, 1, 0, by simp, by decide, rfl⟩, fun neg m e h hm => ?_⟩, by decide +kernel, by decide +kernel,
    ⟨⟨false, 3, 0, by simp, by decide, by rw [log3]; rfl⟩, fun neg m e h hm => ?_⟩⟩
  · simp only [List.mem_cons, FVal.fin.injEq, List.not_mem_nil, or_false] at h
    rcases h with ⟨-, rfl, rfl⟩ | ⟨-, rfl, rfl⟩ <;> decide +kernel
  · simp only [List.mem_cons, FVal.fin.injEq, List.not_mem_nil, or_false] at h
    rcases h with ⟨-, rfl, rfl⟩ | ⟨-, rfl, rfl⟩ <;> decide +kernel

/-- A walk whose third table is in host memory behind a lost port (R351). -/
def lostTables : State := { base with
  ms := { base.ms with mem := base.ms.mem ++ [(32776, 1), (32782, 0x20)], qctl := 0x8000000000000000, lost := Vector.replicate 2 true } }

theorem witness_LostWalks : lostTables.WalksLost 0x20001 (2 ^ 36) ∧ ¬ lostTables.WalksLost 0x20001 0 ∧ ¬ lostTables.WalksHeap 0x20001 (2 ^ 36) := by
  simp only [← State.walkLost_iff, ← State.walkInHeap_iff]
  decide +kernel

/-- A task of another device's graph, whose pool has one slot and whose other record waits. -/
def crampedKey : TaskKey := { vdev := 5, graph := 7, record := 0 }
def cramped : State :=
  let s := (regs (base.mapCtl fun c => { c with taskid := 0x0000000500070000 }) [(10, loc 0)]).mapCore fun c => { c with ls := [(48, 7)] }
  s.mapSched fun c => { c with
    tasks := [aTask crampedKey .running]
    graphs := { masonGraph with vdev := 5, gid := 7, cap := 1, live := true } :: c.graphs
    slots := [(0, { run := record crampedKey false, stg := 0, dcmd := 0, since := 0 })] }

theorem witness_PoolLock : let s := cramped
    let g : Graph := { masonGraph with vdev := 5, gid := 7, cap := 1, live := true }
    let img := BitVec.ofNat 512 (7 * 2 ^ 384)
    s.task = some (aTask crampedKey .running) ∧ s.sched.graph 5 7 = some g ∧ s.taskKey = crampedKey ∧ s.boundKey = crampedKey ∧
    s.bound = true ∧ s.coreNo < 224 ∧ g.aborted = false ∧ (s.g 10).toNat % 64 = 0 ∧
    (∀ j, j < 8 → s.spot (loc 0) (64 * j : Nat) 64 .load = .ok [.ls (64 * j) 64]) ∧
    (∀ j, j < 8 → field img (64 * j + 63) (64 * j) = s.readSegs [.ls (64 * j) 64]) ∧
    (∀ y ∈ s.sched.tasks, y.key ≠ crampedKey → y.state ∈ [TaskState.waiting, .blockedPool, .ended]) ∧ s.Loaded s 5 img ∧
    (∀ r, ¬ s.refusesImage crampedKey 1 0 img r) ∧ (∀ i, ¬ s.sched.slotFree g i) := by
  have hs : successors (BitVec.ofNat 512 (7 * 2 ^ 384)) = [] := by decide +kernel
  and_intros
  on_goal 12 => rfl
  on_goal 12 => exact ⟨[], rfl, fun x hx => absurd hx List.not_mem_nil⟩
  on_goal 12 =>
    intro r h
    match r, h with
    | 1, h => exact absurd h (by simp only [State.refusesImage]; decide +kernel)
    | 2, h => exact absurd h (by simp only [State.refusesImage]; decide +kernel)
    | 3, ⟨i, hi, _⟩ => exact absurd hi (by rw [hs]; exact List.not_mem_nil)
    | 4, h => exact absurd h (by simp only [State.refusesImage]; decide +kernel)
    | 5, ⟨j, hj, hb, _⟩ =>
      have : ∀ j, j < 8 → (BitVec.ofNat 512 (7 * 2 ^ 384)).getLsbD (256 + j) = false := by decide +kernel
      exact absurd hb (by rw [this j hj]; decide)
  on_goal 12 =>
    rintro i ⟨hi, h⟩
    cases below_one hi rfl
    exact absurd (h (aTask crampedKey .running) (by decide +kernel)) (by decide)
  all_goals first | rfl | decide +kernel

/-- A source short of its latency under unchecked issue (R57), and the cases of a fetch: no page, a parcel, a word, a page without EX, and a
word whose second page fails (R19, R41, R46). -/
theorem witness_UncheckedIssueAndFetch : let w : BitVec 32 := 0x04007083
    let s := issuing addiBytes 0x04000383
    let early := (s.withSeq { s.seq with record := [{ cls := .g, reg := 7, lat := 2, dist := 0, old := 0 }] }).mapCtl fun c => { c with mode := 0 }
    let closed : State := { framed with ms := { framed.ms with mem := framed.ms.mem.map fun p => if p.1 = 32768 then (p.1, 0x77) else p } }
    let edge : State := { base with ms := { base.ms with mem := base.ms.mem ++ [(2 ^ 33 - 2, 1)] } }
    early.held w 32 (early.issueOperands w 32) = false ∧ early.core.ctl.mode.getLsbD 0 = false ∧ (early.earlySources w 32).length = 1 ∧
    base.ms.past = [] ∧ base.page base.via (2 ^ 40) 16 false = none ∧ base.page base.via 32 16 false = some (0x7F, 32) ∧
    base.fetchSeg (pageSeg 0x7F 32 16) % 2 = 0 ∧ framed.fetchSeg (pageSeg 0x7F 32 16) % 2 = 1 ∧ framed.fetchAt 32 = .ok (1, 32) ∧
    closed.fetchAt 32 = .error ⟨.perm, 32, 0, 0⟩ ∧ edge.fetchSeg (pageSeg 0x7F (2 ^ 36 - 16) 16) % 2 = 1 ∧
    edge.page edge.via (2 ^ 36) 16 false = none ∧ edge.fetchAt (BitVec.ofNat 58 (2 ^ 36 - 16)) = .error ⟨.page, 2 ^ 36, 0, 0⟩ := by
  and_intros
  all_goals rfl

end Sys2Proof.Tests
end

section
/-! SUPPORT. The context save area: parts that lie one behind the other, each read back as it was written (R395, R396, R397). -/

namespace Sys2Proof.Machine

/-- Reading bytes gives every bit that some cell lists, in any list of cells. -/
theorem Mem.testBit_read_any (m : Mem) (a n i : Nat) :
    (m.read a n).testBit i = (decide (i < 8 * n) && m.any fun c => decide (c.1 = a + i / 8) && c.2.getLsbD (i % 8)) := by
  induction m with
  | nil => simp [Mem.read]
  | cons c m ih =>
    unfold Mem.read
    dsimp only
    rw [List.any_cons]
    by_cases hin : a ≤ c.1 ∧ c.1 < a + n
    · rw [if_pos hin, Nat.testBit_or, ih, Nat.testBit_shiftLeft, BitVec.testBit_toNat]
      by_cases e : c.1 = a + i / 8
      · rw [decide_eq_true e, decide_eq_true (show i < 8 * n by omega), decide_eq_true (show i ≥ 8 * (c.1 - a) by omega),
          show i - 8 * (c.1 - a) = i % 8 by omega]
        simp only [Bool.true_and, Bool.or_comm]
      · have : (decide (i ≥ 8 * (c.1 - a)) && c.2.getLsbD (i - 8 * (c.1 - a))) = false := by
          by_cases e2 : i ≥ 8 * (c.1 - a)
          · rw [BitVec.getLsbD_of_ge _ _ (by omega), Bool.and_false]
          · simp [e2]
        simp [this, e]
    · rw [if_neg hin, ih]
      by_cases e : c.1 = a + i / 8
      · have : ¬ i < 8 * n := by omega
        simp [this]
      · simp [e]

/-- A range of bits within another one. -/
theorem Mem.readBits_part (m : Mem) (a w i n : Nat) (h : i + n ≤ w) : m.readBits (a + i) n = m.readBits a w / 2 ^ i % 2 ^ n := by
  refine Nat.eq_of_testBit_eq fun j => ?_
  unfold Mem.readBits
  simp only [Nat.testBit_mod_two_pow, Nat.testBit_div_two_pow, Nat.testBit_shiftRight, Mem.testBit_read_any]
  by_cases hj : j < n
  · have h1 := spanBytes_le (a + i) n
    have h2 := spanBytes_le a w
    simp only [hj, show j + i < w by omega, show (a + i) % 8 + j < 8 * spanBytes (a + i) n by omega,
      show a % 8 + (j + i) < 8 * spanBytes a w by omega, show (a + i) / 8 + ((a + i) % 8 + j) / 8 = a / 8 + (a % 8 + (j + i)) / 8 by omega,
      show ((a + i) % 8 + j) % 8 = (a % 8 + (j + i)) % 8 by omega, decide_true, Bool.true_and]
  · simp [hj]

/-- A range of bits is a number of that many bits. -/
theorem Mem.readBits_lt (m : Mem) (a w : Nat) : m.readBits a w < 2 ^ w := Nat.mod_lt _ (Nat.two_pow_pos w)

/-- A field of the low k bits. -/
theorem field_mod (x k i n : Nat) (h : i + n ≤ k) : x % 2 ^ k / 2 ^ i % 2 ^ n = x / 2 ^ i % 2 ^ n := by
  rw [← Nat.mod_mul_right_div_self, ← Nat.mod_mul_right_div_self, ← pow_add, Nat.mod_mod_of_dvd _ (Nat.pow_dvd_pow 2 h)]

/-- A field that lies below bit k does not see what is added from there on. -/
theorem field_add_shiftLeft (x y k i n : Nat) (h : i + n ≤ k) : (x + y <<< k) / 2 ^ i % 2 ^ n = x / 2 ^ i % 2 ^ n := by
  rw [← field_mod (x + y <<< k) k i n h, Nat.shiftLeft_eq, Nat.add_mul_mod_self_right, field_mod x k i n h]

/-- A field that lies from bit k on sees only what is added there. -/
theorem field_shiftLeft_add (x y : Nat) {j k : Nat} (i : Nat) (h : x < 2 ^ j) (hj : j ≤ k) :
    (x + y <<< k) / 2 ^ (k + i) = y / 2 ^ i := by
  rw [pow_add, ← Nat.div_div_eq_div_mul, Nat.shiftLeft_eq, Nat.add_mul_div_right _ _ (Nat.two_pow_pos k),
    Nat.div_eq_of_lt (h.trans_le (Nat.pow_le_pow_right Nat.two_pos hj)), Nat.zero_add]

/-- One of the slices that were joined. -/
theorem joinSlices_slice (w : Nat) (hw : 0 < w) (xs : List Nat) (i : Nat) :
    joinSlices w xs / 2 ^ (w * i) % 2 ^ w = (xs[i]?.getD 0) % 2 ^ w := by
  refine Nat.eq_of_testBit_eq fun j => ?_
  rw [Nat.testBit_mod_two_pow, Nat.testBit_mod_two_pow, Nat.testBit_div_two_pow, testBit_joinSlices w hw]
  by_cases hj : j < w
  · rw [Nat.add_mul_div_left _ _ hw, Nat.div_eq_of_lt hj, Nat.add_mul_mod_self_left, Nat.mod_eq_of_lt hj, Nat.zero_add]
  · simp [hj]

/-- A field of one of the slices that were joined. -/
theorem joinSlices_field {w : Nat} (hw : 0 < w) {xs : List Nat} {i v : Nat} (hv : xs[i]? = some v) (k n : Nat) (h : k + n ≤ w) :
    joinSlices w xs / 2 ^ (w * i + k) % 2 ^ n = v / 2 ^ k % 2 ^ n := by
  rw [pow_add, ← Nat.div_div_eq_div_mul, ← field_mod _ w k n h, joinSlices_slice w hw, hv, Option.getD_some, field_mod v w k n h]

/-- Joined slices fit their width. -/
theorem joinSlices_lt (w : Nat) (hw : 0 < w) (xs : List Nat) : joinSlices w xs < 2 ^ (w * xs.length) := by
  refine Nat.lt_pow_two_of_testBit _ fun j hj => ?_
  rw [testBit_joinSlices w hw, List.getElem?_eq_none ((Nat.le_div_iff_mul_le hw).2 (by rwa [Nat.mul_comm]))]
  simp

/-- A word of a list of words as one value. -/
theorem packWords_word {xs : List Word} {i : Nat} {v : Word} (h : xs[i]? = some v) : packWords xs / 2 ^ (64 * i) % 2 ^ 64 = v.toNat := by
  unfold packWords
  rw [joinSlices_slice 64 (by omega), List.getElem?_map, h, Option.map_some, Option.getD_some, Nat.mod_eq_of_lt v.isLt]

theorem packWords_lt (xs : List Word) : packWords xs < 2 ^ (64 * xs.length) := by
  have := joinSlices_lt 64 (by omega) (xs.map BitVec.toNat)
  rwa [List.length_map] at this

/-! ## The parts of a save -/

/-- Parts, each with its offset, its width and its value, lie from lo to hi, one behind the other. -/
structure Laid (lo hi : Nat) (ps : List (Nat × Nat × Nat)) : Prop where
  within : ∀ x ∈ ps, lo ≤ x.1 ∧ x.1 + x.2.1 ≤ hi
  order : ps.Pairwise fun x y => x.1 + x.2.1 ≤ y.1

theorem Laid.nil (lo hi : Nat) : Laid lo hi [] := ⟨by simp, .nil⟩

theorem Laid.append {lo mid hi : Nat} {ps qs : List (Nat × Nat × Nat)} (hp : Laid lo mid ps) (hq : Laid mid hi qs) (h1 : lo ≤ mid)
    (h2 : mid ≤ hi) : Laid lo hi (ps ++ qs) where
  within x hx := by
    rcases List.mem_append.1 hx with hx | hx
    · have := hp.within x hx; omega
    · have := hq.within x hx; omega
  order := List.pairwise_append.2 ⟨hp.order, hq.order, fun x hx y hy => by
    have := hp.within x hx
    have := hq.within y hy
    omega⟩

theorem Laid.single {lo hi w : Nat} (v : Nat) (h : lo + w ≤ hi) : Laid lo hi [(lo, w, v)] :=
  ⟨by simpa using h, List.pairwise_singleton ..⟩

theorem Laid.cons {lo mid hi w : Nat} {ps : List (Nat × Nat × Nat)} (hp : Laid mid hi ps) (v : Nat) (h1 : lo + w ≤ mid)
    (h2 : mid ≤ hi) : Laid lo hi ((lo, w, v) :: ps) := (Laid.single v h1).append hp (by omega) h2

/-- A part that is there or not. -/
theorem Laid.ite {lo hi : Nat} {ps qs : List (Nat × Nat × Nat)} (p : Prop) [Decidable p] (hp : Laid lo hi ps) (hq : Laid lo hi qs) :
    Laid lo hi (if p then ps else qs) := by
  split <;> assumption

/-- Parts at equal distances, some of them left out. -/
theorem Laid.filterMap_range (lo step n : Nat) (f : Nat → Option (Nat × Nat × Nat))
    (hf : ∀ i x, f i = some x → x.1 = lo + step * i ∧ x.2.1 ≤ step) : Laid lo (lo + step * n) ((List.range n).filterMap f) := by
  induction n with
  | zero => exact Laid.nil ..
  | succ n ih =>
    rw [List.range_succ, List.filterMap_append]
    refine ih.append ⟨fun x hx => ?_, ?_⟩ (by omega) (by rw [Nat.mul_succ]; omega)
    · obtain ⟨i, hi, hfx⟩ := List.mem_filterMap.1 hx
      obtain rfl := List.mem_singleton.1 hi
      have := hf i x hfx
      rw [Nat.mul_succ]; omega
    · cases h : f n <;> simp [h]

/-- Memory after parts were written behind ctx, one after the other. -/
def Mem.putParts (m : Mem) (ctx : Nat) (ps : List (Nat × Nat × Nat)) : Mem :=
  ps.foldl (fun m x => m.writeBits (ctx + x.1) x.2.1 x.2.2) m

theorem Mem.putParts_wf {m : Mem} (hm : m.wf) (ctx : Nat) (ps : List (Nat × Nat × Nat)) : (m.putParts ctx ps).wf := by
  induction ps generalizing m with
  | nil => exact hm
  | cons x ps ih => exact ih (Mem.writeBits_wf hm ..)

/-- Bits before all the parts stay. -/
theorem Mem.bit_putParts {m : Mem} (hm : m.wf) (ctx : Nat) (ps : List (Nat × Nat × Nat)) (b : Nat) (h : ∀ x ∈ ps, b < ctx + x.1) :
    (m.putParts ctx ps).bit b = m.bit b := by
  induction ps generalizing m with
  | nil => rfl
  | cons x ps ih =>
    have hx := h x (by simp)
    refine (ih (Mem.writeBits_wf hm ..) fun y hy => h y (by simp [hy])).trans ?_
    rw [Mem.bit_writeBits hm, if_neg (by omega)]

/-- A part reads as it was written. -/
theorem Mem.readBits_putParts {m : Mem} (hm : m.wf) (ctx : Nat) {lo hi : Nat} {ps : List (Nat × Nat × Nat)} (hp : Laid lo hi ps)
    {x : Nat × Nat × Nat} (hx : x ∈ ps) : (m.putParts ctx ps).readBits (ctx + x.1) x.2.1 = x.2.2 % 2 ^ x.2.1 := by
  obtain ⟨hw, ho⟩ := hp
  clear hw
  induction ps generalizing m with
  | nil => simp at hx
  | cons y ps ih =>
    obtain ⟨hy, ho⟩ := List.pairwise_cons.1 ho
    have hm' : (m.writeBits (ctx + y.1) y.2.1 y.2.2).wf := Mem.writeBits_wf hm ..
    rcases List.mem_cons.1 hx with rfl | hx
    · rw [← Mem.readBits_writeBits hm (ctx + x.1)]
      refine Nat.eq_of_testBit_eq fun i => ?_
      rw [Mem.testBit_readBits (Mem.putParts_wf hm ..), Mem.testBit_readBits hm']
      by_cases hi : i < x.2.1
      · rw [show m.putParts ctx (x :: ps) = (m.writeBits (ctx + x.1) x.2.1 x.2.2).putParts ctx ps from rfl,
          Mem.bit_putParts hm' ctx ps _ fun z hz => by have := hy z hz; omega]
      · simp [hi]
    · exact ih hm' hx ho

/-- So does a field of a part. -/
theorem Mem.readBits_putParts_field {m : Mem} (hm : m.wf) (ctx : Nat) {lo hi : Nat} {ps : List (Nat × Nat × Nat)} (hp : Laid lo hi ps)
    {o w v : Nat} (hx : (o, w, v) ∈ ps) (i n : Nat) (h : i + n ≤ w) : (m.putParts ctx ps).readBits (ctx + o + i) n = v / 2 ^ i % 2 ^ n := by
  rw [Mem.readBits_part _ _ w i n h, Mem.readBits_putParts hm ctx hp hx, field_mod v w i n h]

theorem markCover_le (hwea hweb : Word) (n : Nat) : markCover hwea hweb n ≤ 16384 := by
  have hlt (x k : Nat) : bits x (4 * k + 3) (4 * k) < 16 := by
    unfold bits
    rw [show 4 * k + 3 - 4 * k + 1 = 4 by omega]
    exact Nat.mod_lt _ (by omega)
  have h1 := hlt hwea.toNat n
  have h2 := hlt hweb.toNat (n - 16)
  unfold markCover
  dsimp only
  split
  · split <;> omega
  · split <;> omega

/-- The parts of the vector registers up to their marks, and of the tiles that a save writes (R396, R397). -/
def Core.vectorParts (c : Core) : List (Nat × Nat × Nat) :=
  (List.range 32).filterMap fun n =>
    let w := markCover c.ctl.hwea c.ctl.hweb n
    if w = 0 then none else some (260096 + 16384 * n, w, (c.v[n]?.getD 0).toNat)

def Core.tileParts (c : Core) : List (Nat × Nat × Nat) :=
  (List.range 8).filterMap fun n =>
    if savedTile c.ctl.mstat n then some (784384 + 262144 * n, 262144, (c.t[n]?.getD 0).toNat) else none

theorem Core.vectorParts_laid (c : Core) : Laid 260096 784384 c.vectorParts := by
  refine Laid.filterMap_range 260096 16384 32 _ fun i x hx => ?_
  dsimp only at hx
  split at hx
  · simp at hx
  · simp only [Option.some.injEq] at hx
    subst hx
    exact ⟨rfl, markCover_le ..⟩

theorem Core.tileParts_laid (c : Core) : Laid 784384 2881536 c.tileParts := by
  refine Laid.filterMap_range 784384 262144 8 _ fun i x hx => ?_
  split at hx
  · simp only [Option.some.injEq] at hx
    subst hx
    exact ⟨rfl, Nat.le_refl _⟩
  · simp at hx

/-- The parts that every save writes (R395, R396). -/
def Core.fixedParts (c : Core) (foot : Nat) : List (Nat × Nat × Nat) :=
  [(0, 1024, packWords [1, BitVec.ofNat 64 foot, BitVec.ofNat 64 c.guards.length]),
   (1024, 8192, c.main.pack), (9216, 8192, c.matrix.pack), (17408, 4096, c.packCtl),
   (21504, 131072, joinSlices 16384 (c.k.toList.map BitVec.toNat)),
   (152576, 3072, joinSlices 192 (c.guards.map Guard.pack)),
   (155648, 16384, c.ls.readBits Config.blocksBase 16384)]

theorem Core.fixedParts_laid (c : Core) (foot : Nat) : Laid 0 172032 (c.fixedParts foot) := by
  unfold Core.fixedParts
  have h6 := Laid.single (lo := 155648) (w := 16384) (hi := 172032) (c.ls.readBits Config.blocksBase 16384) (by omega)
  exact (((((h6.cons _ (by omega) (by omega)).cons _ (by omega) (by omega)).cons _ (by omega) (by omega)).cons _ (by omega)
    (by omega)).cons _ (by omega) (by omega)).cons _ (by omega) (by omega)

theorem Core.saveParts_eq (c : Core) (foot : Nat) : c.saveParts foot =
    c.fixedParts foot ++ (if mstatAv c.ctl.mstat then [(172032, 65536, c.abuf.toNat)] else []) ++
    (if mstatBv c.ctl.mstat then [(237568, 22528, c.bbuf.toNat)] else []) ++ c.vectorParts ++ c.tileParts ++
    (if foot = 0 then [] else [(2881536, foot, c.ls.readBits 0 foot)]) := rfl

/-- The parts of a save lie one behind the other (R395). -/
theorem Core.saveParts_laid (c : Core) (foot : Nat) : Laid 0 (2881536 + foot) (c.saveParts foot) := by
  have ha : Laid 172032 237568 (if mstatAv c.ctl.mstat then [(172032, 65536, c.abuf.toNat)] else []) :=
    .ite _ (.single _ (by omega)) (.nil ..)
  have hb : Laid 237568 260096 (if mstatBv c.ctl.mstat then [(237568, 22528, c.bbuf.toNat)] else []) :=
    .ite _ (.single _ (by omega)) (.nil ..)
  have hs : Laid 2881536 (2881536 + foot) (if foot = 0 then [] else [(2881536, foot, c.ls.readBits 0 foot)]) :=
    .ite _ (.nil ..) (.single _ (by omega))
  rw [Core.saveParts_eq]
  exact (((((c.fixedParts_laid foot).append ha (by omega) (by omega)).append hb (by omega) (by omega)).append c.vectorParts_laid
    (by omega) (by omega)).append c.tileParts_laid (by omega) (by omega)).append hs (by omega) (by omega)

/-- A save writes its parts and nothing else of memory (R396). -/
theorem State.saveContext_mem (s : State) (c : Core) (ctx foot : Nat) :
    (s.saveContext c ctx foot).ms.mem = s.ms.mem.putParts ctx (c.saveParts foot) := by
  unfold State.saveContext Mem.putParts
  generalize c.saveParts foot = ps
  induction ps generalizing s with
  | nil => rfl
  | cons x ps ih => exact ih _

/-! ## What each part holds -/

/-- The words of a sequencer block, its replay list apart (R395). -/
def Seq.words (q : Seq) : List Word :=
  [BitVec.ofNat 64 (q.running.toNat <<< 63 + q.pc.toNat / 16 * 16)] ++ q.g.toList.tail ++ [q.depth.setWidth 64] ++
    q.lc.toList ++ q.le.toList ++ q.lb.toList ++ q.li.toList ++ [q.ldr, q.rpidx, q.rpbase, BitVec.ofNat 64 q.replay.length]

theorem Seq.pack_eq (q : Seq) : q.pack = packWords q.words + joinSlices 512 (q.replay.map Replay.pack) <<< 4096 := rfl

/-- An entry of the second of two lists in a row. -/
theorem getElem?_behind {α : Type} {xs ys : List α} {n j : Nat} (hn : xs.length = n) : (xs ++ ys)[n + j]? = ys[j]? := by
  rw [List.getElem?_append_right (by omega), hn, Nat.add_sub_cancel_left]

theorem getElem?_toList {α : Type} {n : Nat} (v : Vector α n) (i : Fin n) : v.toList[i.val]? = some (v.get i) := by
  simp [Vector.get_eq_getElem]

theorem getElem?_tail_toList {α : Type} {n : Nat} (v : Vector α n) (i : Fin n) (j : Nat) (h : i.val = j + 1) :
    v.toList.tail[j]? = some (v.get i) := by
  rw [← getElem?_toList, h, List.getElem?_tail]

theorem Seq.words_g (q : Seq) (i : Fin 32) (h : i.val ≠ 0) : q.words[i.val]? = some (q.g.get i) := by
  obtain ⟨j, hj⟩ := Nat.exists_eq_succ_of_ne_zero h
  have hl : j < q.g.toList.tail.length := by simp; omega
  rw [← getElem?_tail_toList q.g i j hj, hj]
  simp only [Seq.words, List.append_assoc, List.nil_append, List.cons_append, List.getElem?_cons_succ]
  rw [List.getElem?_append_left hl]

theorem Seq.words_loops (q : Seq) (i : Fin 6) : q.words[33 + i.val]? = some (q.lc.get i) ∧ q.words[39 + i.val]? = some (q.le.get i) ∧
    q.words[45 + i.val]? = some (q.lb.get i) ∧ q.words[51 + i.val]? = some (q.li.get i) := by
  simp only [← getElem?_toList]
  unfold Seq.words
  refine ⟨?_, ?_, ?_, ?_⟩
  · rw [List.getElem?_append_left (by simp; omega), List.getElem?_append_left (by simp; omega),
      List.getElem?_append_left (by simp; omega), List.getElem?_append_left (by simp; omega), getElem?_behind (by simp)]
  · rw [List.getElem?_append_left (by simp; omega), List.getElem?_append_left (by simp; omega),
      List.getElem?_append_left (by simp; omega), getElem?_behind (by simp)]
  · rw [List.getElem?_append_left (by simp; omega), List.getElem?_append_left (by simp; omega), getElem?_behind (by simp)]
  · rw [List.getElem?_append_left (by simp; omega), getElem?_behind (by simp)]

/-- A word of a sequencer block. -/
theorem Seq.pack_word (q : Seq) {i : Nat} {v : Word} (h : q.words[i]? = some v) : q.pack / 2 ^ (64 * i) % 2 ^ 64 = v.toNat := by
  have hi : i < 61 := by
    have := (List.getElem?_eq_some_iff.1 h).1
    simpa [Seq.words] using this
  rw [Seq.pack_eq, field_add_shiftLeft _ _ _ _ _ (by omega), packWords_word h]

/-- A word of a replay entry of a sequencer block. -/
theorem Seq.pack_replay (q : Seq) {i : Nat} {e : Replay} (h : q.replay[i]? = some e) (k : Nat) (hk : 64 * k + 64 ≤ 512) :
    q.pack / 2 ^ (4096 + 512 * i + 64 * k) % 2 ^ 64 = e.pack / 2 ^ (64 * k) % 2 ^ 64 := by
  have hw : 64 * q.words.length ≤ 4096 := by simp [Seq.words]
  rw [Seq.pack_eq, Nat.add_assoc, field_shiftLeft_add _ _ _ (packWords_lt q.words) hw, joinSlices_field (by omega) (v := e.pack) (by simp [h]) _ _ hk]

/-- The words of a replay entry (R395). -/
theorem Replay.pack_words (e : Replay) : e.pack / 2 ^ (64 * 0) % 2 ^ 64 = 2 ^ 63 + e.addr.toNat / 16 * 16 ∧
    e.pack / 2 ^ (64 * 1) % 2 ^ 64 = e.word.toNat + 2 ^ 32 * (e.first % 2 ^ 15) ∧ e.pack / 2 ^ (64 * 2) % 2 ^ 64 = e.ga.toNat ∧
    e.pack / 2 ^ (64 * 3) % 2 ^ 64 = e.gb.toNat ∧ e.pack / 2 ^ (64 * 4) % 2 ^ 64 = e.gd.toNat := by
  have ha := e.addr.isLt
  have hw := e.word.isLt
  unfold Replay.pack
  refine ⟨(packWords_word rfl).trans ?_, (packWords_word rfl).trans ?_, packWords_word rfl, packWords_word rfl, packWords_word rfl⟩
  · rw [BitVec.toNat_ofNat, Nat.mod_eq_of_lt (by omega)]
  · rw [BitVec.toNat_ofNat, Nat.shiftLeft_eq, Nat.mod_eq_of_lt (by omega), Nat.mul_comm]

/-- Memory that holds a sequencer's block holds the sequencer (R395). -/
theorem Seq.savedAt (q : Seq) {m : Mem} {x : Nat} (h : ∀ i n, i + n ≤ 8192 → m.readBits (x + i) n = q.pack / 2 ^ i % 2 ^ n) :
    q.SavedAt m x := by
  have word {i : Nat} {v : Word} (hv : q.words[i]? = some v) (hi : i < 61) : m.readBits (x + 64 * i) 64 = v.toNat := by
    rw [h _ _ (by omega), q.pack_word hv]
  have entry {i : Nat} {e : Replay} (hi : i < 8) (he : q.replay[i]? = some e) (k : Nat) (hk : k < 5) :
      m.readBits (x + 4096 + 512 * i + 64 * k) 64 = e.pack / 2 ^ (64 * k) % 2 ^ 64 := by
    rw [← q.pack_replay he k (by omega), ← h _ _ (by omega)]
    simp only [Nat.add_assoc]
  refine {
    pc := ?_
    g := fun i hi => word (q.words_g i hi) (by omega)
    depth := ?_
    loops := fun i => ?_
    ldr := word (by simp [Seq.words]) (by omega)
    frame := ⟨word (by simp [Seq.words]) (by omega), word (by simp [Seq.words]) (by omega)⟩
    replay := ⟨?_, fun i e hi he => ?_⟩ }
  · have hp := q.pc.isLt
    have : m.readBits x 64 = _ := word (i := 0) (v := BitVec.ofNat 64 (q.running.toNat <<< 63 + q.pc.toNat / 16 * 16)) (by simp [Seq.words]) (by omega)
    rw [this, BitVec.toNat_ofNat, Nat.shiftLeft_eq]
    cases q.running
    · simp; omega
    · simp; omega
  · rw [word (v := q.depth.setWidth 64) (by simp [Seq.words]) (by omega), BitVec.toNat_setWidth, Nat.mod_eq_of_lt]
    have := q.depth.isLt
    omega
  · obtain ⟨h1, h2, h3, h4⟩ := q.words_loops i
    exact ⟨word h1 (by omega), word h2 (by omega), word h3 (by omega), word h4 (by omega)⟩
  · rw [word (v := BitVec.ofNat 64 q.replay.length) (by simp [Seq.words]) (by omega), BitVec.toNat_ofNat]
  · obtain ⟨w0, w1, w2, w3, w4⟩ := e.pack_words
    exact ⟨(entry hi he 0 (by omega)).trans w0, (entry hi he 1 (by omega)).trans w1, (entry hi he 2 (by omega)).trans w2,
      (entry hi he 3 (by omega)).trans w3, (entry hi he 4 (by omega)).trans w4⟩

/-- The words of a core block: the control registers, then the extents in two words each (R395). -/
def Core.extentWords (c : Core) : List Word :=
  c.e.toList.tail.flatMap fun x => [BitVec.ofNat 64 x.toNat, BitVec.ofNat 64 (x.toNat >>> 64)]

theorem Core.packCtl_eq (c : Core) : c.packCtl = packWords (c.ctl.saved ++ c.extentWords) := rfl

/-- The two members that each entry of a list gives. -/
theorem getElem?_flatMap_pair {α β : Type} (f g : α → β) (xs : List α) (j : Nat) :
    (xs.flatMap fun x => [f x, g x])[2 * j]? = xs[j]?.map f ∧ (xs.flatMap fun x => [f x, g x])[2 * j + 1]? = xs[j]?.map g := by
  induction xs generalizing j with
  | nil => simp
  | cons x xs ih =>
    cases j with
    | zero => simp
    | succ j =>
      rw [List.getElem?_cons_succ]
      exact ih j

/-- The words of extent n of a core block (R395). -/
theorem Core.extentWords_get (c : Core) (n : Fin 16) (h : 0 < n.val) :
    c.packCtl / 2 ^ (64 * (16 + 2 * n.val)) % 2 ^ 128 = (c.e.get n).toNat := by
  obtain ⟨j, hj⟩ := Nat.exists_eq_succ_of_ne_zero (Nat.ne_of_gt h)
  have he := getElem?_tail_toList c.e n j hj
  obtain ⟨h0, h1⟩ := getElem?_flatMap_pair (fun x : BitVec 128 => BitVec.ofNat 64 x.toNat) (fun x => BitVec.ofNat 64 (x.toNat >>> 64))
    c.e.toList.tail j
  rw [he] at h0 h1
  have lo : (c.ctl.saved ++ c.extentWords)[18 + 2 * j]? = some (BitVec.ofNat 64 (c.e.get n).toNat) := (getElem?_behind rfl).trans h0
  have hi : (c.ctl.saved ++ c.extentWords)[18 + (2 * j + 1)]? = some (BitVec.ofNat 64 ((c.e.get n).toNat >>> 64)) :=
    (getElem?_behind rfl).trans h1
  have lo' := packWords_word lo
  have hi' := packWords_word hi
  have hlt := (c.e.get n).isLt
  rw [BitVec.toNat_ofNat] at lo' hi'
  rw [Core.packCtl_eq, show 16 + 2 * n.val = 18 + 2 * j by omega, show (2 : Nat) ^ 128 = 2 ^ 64 * 2 ^ 64 by norm_num, Nat.mod_mul, lo',
    Nat.div_div_eq_div_mul, ← pow_add, show 64 * (18 + 2 * j) + 64 = 64 * (18 + (2 * j + 1)) by omega, hi', Nat.shiftRight_eq_div_pow]
  omega

/-- The bits of a part that a save writes (R396). -/
theorem State.saveContext_part (s : State) (c : Core) (ctx foot : Nat) (hm : s.ms.mem.wf) {o w v : Nat}
    (hx : (o, w, v) ∈ c.saveParts foot) (i n : Nat) (h : i + n ≤ w) :
    (s.saveContext c ctx foot).ms.mem.readBits (ctx + o + i) n = v / 2 ^ i % 2 ^ n := by
  rw [State.saveContext_mem]
  exact Mem.readBits_putParts_field hm ctx (c.saveParts_laid foot) hx i n h

/-- The whole of a part. -/
theorem State.saveContext_whole (s : State) (c : Core) (ctx foot : Nat) (hm : s.ms.mem.wf) {o w v : Nat}
    (hx : (o, w, v) ∈ c.saveParts foot) : (s.saveContext c ctx foot).ms.mem.readBits (ctx + o) w = v % 2 ^ w := by
  rw [State.saveContext_mem]
  exact Mem.readBits_putParts hm ctx (c.saveParts_laid foot) hx

/-- The vector registers up to their marks, the declared tiles that were written and the footprint are parts of a save (R396, R397). -/
theorem Core.vector_mem_saveParts (c : Core) (foot : Nat) (n : Fin 32) (hw : markCover c.ctl.hwea c.ctl.hweb n.val ≠ 0) :
    (260096 + 16384 * n.val, markCover c.ctl.hwea c.ctl.hweb n.val, (c.v.get n).toNat) ∈ c.saveParts foot := by
  have : (260096 + 16384 * n.val, markCover c.ctl.hwea c.ctl.hweb n.val, (c.v.get n).toNat) ∈ c.vectorParts :=
    List.mem_filterMap.2 ⟨n.val, List.mem_range.2 n.isLt, by simp [hw, Vector.get_eq_getElem]⟩
  rw [Core.saveParts_eq]
  simp only [List.mem_append, this, true_or, or_true]

theorem Core.tile_mem_saveParts (c : Core) (foot : Nat) (n : Fin 8) (h : savedTile c.ctl.mstat n.val = true) :
    (784384 + 262144 * n.val, 262144, (c.t.get n).toNat) ∈ c.saveParts foot := by
  have : (784384 + 262144 * n.val, 262144, (c.t.get n).toNat) ∈ c.tileParts :=
    List.mem_filterMap.2 ⟨n.val, List.mem_range.2 n.isLt, by simp [h, Vector.get_eq_getElem]⟩
  rw [Core.saveParts_eq]
  simp only [List.mem_append, this, true_or, or_true]

theorem Core.store_mem_saveParts (c : Core) {foot : Nat} (h : foot ≠ 0) : (2881536, foot, c.ls.readBits 0 foot) ∈ c.saveParts foot := by
  rw [Core.saveParts_eq]
  simp [h]

theorem Core.fixed_mem_saveParts {c : Core} {foot : Nat} {x : Nat × Nat × Nat} (h : x ∈ c.fixedParts foot) : x ∈ c.saveParts foot := by
  rw [Core.saveParts_eq]
  simp only [List.mem_append, h, true_or]

/-- A save leaves in the save area all of a core's context (R395, R396, R397). -/
theorem State.saveContext_savedAt (s : State) (c : Core) (ctx foot : Nat) (hm : s.ms.mem.wf) :
    c.SavedAt (s.saveContext c ctx foot).ms.mem ctx foot := by
  have part {o w v : Nat} (hx : (o, w, v) ∈ c.fixedParts foot) (i n : Nat) (h : i + n ≤ w) :=
    s.saveContext_part c ctx foot hm (Core.fixed_mem_saveParts hx) i n h
  have whole {o w v : Nat} (hx : (o, w, v) ∈ c.saveParts foot) := s.saveContext_whole c ctx foot hm hx
  generalize (s.saveContext c ctx foot).ms.mem = m at *
  have head {i : Nat} {v : Word} (hv : [1, BitVec.ofNat 64 foot, BitVec.ofNat 64 c.guards.length][i]? = some v) (hi : i < 3) :
      m.readBits (ctx + 0 + 64 * i) 64 = v.toNat := by
    rw [part (o := 0) (w := 1024) (v := packWords [1, BitVec.ofNat 64 foot, BitVec.ofNat 64 c.guards.length])
      (by simp [Core.fixedParts]) _ _ (by omega), packWords_word hv]
  have ctl (i n : Nat) (h : i + n ≤ 4096) := part (o := 17408) (w := 4096) (v := c.packCtl) (by simp [Core.fixedParts]) i n h
  refine {
    head := ⟨head (i := 0) rfl (by omega), ?_, ?_⟩
    main := ?_
    matrix := ?_
    ctl := fun i v hv => ?_
    extents := fun n hn => ?_
    masks := fun n => ?_
    guards := fun i g hi hg => ?_
    windows := ?_
    buffers := ⟨fun ha => ?_, fun hb => ?_⟩
    vectors := fun n => ?_
    tiles := fun n h1 h2 => ?_
    store := ?_ }
  · exact (head (i := 1) rfl (by omega)).trans (BitVec.toNat_ofNat ..)
  · exact (head (i := 2) rfl (by omega)).trans (BitVec.toNat_ofNat ..)
  · exact c.main.savedAt fun i n h => part (o := 1024) (w := 8192) (v := c.main.pack) (by simp [Core.fixedParts]) i n h
  · exact c.matrix.savedAt fun i n h => part (o := 9216) (w := 8192) (v := c.matrix.pack) (by simp [Core.fixedParts]) i n h
  · have hi : i < 18 := (List.getElem?_eq_some_iff.1 hv).1
    rw [ctl _ _ (by omega), Core.packCtl_eq, packWords_word ((List.getElem?_append_left hi).trans hv)]
  · rw [ctl _ _ (by omega), c.extentWords_get n hn]
  · have := (c.k.get n).isLt
    rw [part (o := 21504) (w := 131072) (v := joinSlices 16384 (c.k.toList.map BitVec.toNat)) (by simp [Core.fixedParts]) _ _ (by omega),
      joinSlices_slice 16384 (by omega), List.getElem?_map, getElem?_toList, Option.map_some, Option.getD_some, Nat.mod_eq_of_lt this]
  · rw [part (o := 152576) (w := 3072) (v := joinSlices 192 (c.guards.map Guard.pack)) (by simp [Core.fixedParts]) _ _ (by omega),
      joinSlices_slice 192 (by omega), List.getElem?_map, hg, Option.map_some, Option.getD_some]
  · rw [whole (o := 155648) (w := 16384) (v := c.ls.readBits Config.blocksBase 16384) (Core.fixed_mem_saveParts (by simp [Core.fixedParts])),
      Nat.mod_eq_of_lt (Mem.readBits_lt ..)]
  · rw [whole (o := 172032) (w := 65536) (v := c.abuf.toNat) (by rw [Core.saveParts_eq]; simp [mstatAv, ha]), Nat.mod_eq_of_lt c.abuf.isLt]
  · rw [whole (o := 237568) (w := 22528) (v := c.bbuf.toNat) (by rw [Core.saveParts_eq]; simp [mstatBv, hb]), Nat.mod_eq_of_lt c.bbuf.isLt]
  · dsimp only
    by_cases hw : markCover c.ctl.hwea c.ctl.hweb n.val = 0
    · rw [hw, pow_zero, Nat.mod_one]
      exact Nat.mod_one _
    · rw [Nat.add_assoc]
      exact whole (c.vector_mem_saveParts foot n hw)
  · rw [Nat.add_assoc, whole (c.tile_mem_saveParts foot n (by simp [savedTile, h1, h2])), Nat.mod_eq_of_lt (c.t.get n).isLt]
  · by_cases hf : foot = 0
    · subst hf
      exact (Nat.mod_one _).trans (Nat.mod_one _).symm
    · rw [whole (c.store_mem_saveParts hf), Nat.mod_eq_of_lt (Mem.readBits_lt ..)]

end Sys2Proof.Machine
end

section
/-! SUPPORT. What a bind leaves of a core: the fresh start, the restore, and the registers of the bind record (R14, R368, R398). -/

namespace Sys2Proof.Machine

/-! ## The restore -/

/-- A word of a value that memory holds. -/
theorem wordAt_readBits (m : Mem) (a w i : Nat) (h : 64 * i + 64 ≤ w) :
    wordAt (m.readBits a w) i = BitVec.ofNat 64 (m.readBits (a + 64 * i) 64) := by
  unfold wordAt
  rw [m.readBits_part a w _ _ h, Nat.shiftRight_eq_div_pow]
  exact BitVec.eq_of_toNat_eq (by simp)

theorem wordsFrom_get (x i n : Nat) (j : Fin n) : (wordsFrom x i n).get j = wordAt x (i + j.val) := by
  simp [wordsFrom, Vector.get_eq_getElem]

/-- A replay entry of a sequencer block (R395, R398). -/
theorem Seq.unpack_replay (x mark : Nat) (owed : Owed) {i : Nat} {e : Replay} (h : (Seq.unpack x mark owed).replay[i]? = some e) :
    i < 8 ∧ e = Replay.unpack (x >>> (4096 + 512 * i)) := by
  unfold Seq.unpack at h
  dsimp only at h
  rw [List.getElem?_map, Option.map_eq_some_iff] at h
  obtain ⟨j, hj, rfl⟩ := h
  obtain ⟨hlt, rfl⟩ := List.getElem?_eq_some_iff.1 hj
  rw [List.length_range] at hlt
  rw [List.getElem_range]
  exact ⟨by omega, rfl⟩

/-- The fields of a replay entry by its words (R395). -/
theorem Replay.unpack_words (y : Nat) : let word (n : Nat) : Nat := y / 2 ^ (64 * n) % 2 ^ 64
    (unpack y).addr = BitVec.ofNat 58 (word 0 / 16 * 16) ∧ (unpack y).word = BitVec.ofNat 32 (word 1) ∧
    (unpack y).first = word 1 / 2 ^ 32 % 2 ^ 15 ∧ (unpack y).ga = BitVec.ofNat 64 (word 2) ∧ (unpack y).gb = BitVec.ofNat 64 (word 3) ∧
    (unpack y).gd = BitVec.ofNat 64 (word 4) := by
  have hw (n : Nat) : wordAt y n = BitVec.ofNat 64 (y / 2 ^ (64 * n) % 2 ^ 64) := by
    unfold wordAt
    rw [Nat.shiftRight_eq_div_pow]
    exact BitVec.eq_of_toNat_eq (by simp)
  refine ⟨BitVec.eq_of_toNat_eq ?_, BitVec.eq_of_toNat_eq ?_, ?_, hw 2, hw 3, hw 4⟩
  · simp only [unpack, parcelAddr, BitVec.toNat_ofNat]
    omega
  · simp only [unpack, BitVec.toNat_ofNat, Nat.shiftRight_eq_div_pow]
    omega
  · simp only [unpack, bits_eq]
    omega

/-- A sequencer as its block gives it back (R395, R398). -/
theorem Seq.unpack_restoredAt (m : Mem) (x mark : Nat) (owed : Owed) :
    (Seq.unpack (m.readBits x 8192) mark owed).RestoredAt m x := by
  have word (i : Nat) (h : 64 * i + 64 ≤ 8192) := wordAt_readBits m x 8192 i h
  have first : m.readBits x 64 = m.readBits x 8192 % 2 ^ 64 := by
    have := m.readBits_part x 8192 0 64 (by omega)
    rwa [Nat.add_zero, pow_zero, Nat.div_one] at this
  refine {
    pc := ⟨?_, BitVec.eq_of_toNat_eq ?_⟩
    g := fun i => ?_
    depth := ?_
    loops := fun i => ⟨?_, ?_, ?_, ?_⟩
    ldr := ?_
    frame := ⟨rfl, ?_, ?_⟩
    fresh := ⟨rfl, rfl, rfl⟩
    replay := ⟨?_, fun i e he => ?_⟩ }
  · rw [first, Nat.testBit_mod_two_pow, Nat.testBit_eq_decide_div_mod_eq]
    simp only [Seq.unpack, bits_eq]
    rfl
  · simp only [Seq.unpack, parcelAddr, BitVec.toNat_ofNat]
    rw [first]
    omega
  · simp only [Seq.unpack, Vector.get_eq_getElem, Vector.getElem_set]
    split
    · next h => rw [if_pos h.symm]
    · next h =>
      rw [if_neg (Ne.symm h), ← word i.val (by omega)]
      simp [wordsFrom]
  · have := m.readBits_part x 8192 (64 * 32) 64 (by omega)
    rw [this]
    simp only [Seq.unpack, Nat.shiftRight_eq_div_pow]
    exact BitVec.eq_of_toNat_eq (by simp only [BitVec.toNat_ofNat]; omega)
  · exact (wordsFrom_get ..).trans (word _ (by omega))
  · dsimp only
    rw [← word _ (by omega), ← wordsFrom_get]
    simp [Seq.unpack, Vector.get_eq_getElem, ctlMask]
  · dsimp only
    rw [← word _ (by omega), ← wordsFrom_get]
    simp [Seq.unpack, Vector.get_eq_getElem, ctlMask]
  · exact (wordsFrom_get ..).trans (word _ (by omega))
  · rw [← word _ (by omega)]; rfl
  · rw [← word _ (by omega)]; rfl
  · rw [← word _ (by omega)]; rfl
  · simp only [Seq.unpack, List.length_map, List.length_range]
    rw [word _ (by omega), BitVec.toNat_ofNat, Nat.mod_eq_of_lt (Mem.readBits_lt ..)]
  · obtain ⟨hi, rfl⟩ := Seq.unpack_replay _ _ _ he
    have hword (n : Nat) (hn : n < 5) : m.readBits (x + 4096 + 512 * i + 64 * n) 64 =
        m.readBits x 8192 >>> (4096 + 512 * i) / 2 ^ (64 * n) % 2 ^ 64 := by
      rw [Nat.shiftRight_eq_div_pow, Nat.div_div_eq_div_mul, ← pow_add, ← m.readBits_part x 8192 _ _ (by omega)]
      simp only [Nat.add_assoc]
    dsimp only
    rw [hword 0 (by omega), hword 1 (by omega), hword 2 (by omega), hword 3 (by omega), hword 4 (by omega)]
    exact Replay.unpack_words _

/-- The control registers that a core block gives back (R122, R395). -/
theorem Ctl.unpack_saved (c : Ctl) (x : Nat) :
    (c.unpack x).saved = List.zipWith (fun i b => wordAt x i &&& b) (List.range 18) savedBits := by
  have all (w : Word) : w &&& 18446744073709551615#64 = w := BitVec.and_allOnes
  simp [Ctl.unpack, Ctl.saved, savedBits, ctlMask, all, List.range_succ]

/-- A local store that a bind makes: a footprint's bits and the window control blocks' (R368, R398). -/
theorem localStore_bit (foot x blocks b : Nat) : (localStore foot x blocks).bit b =
    if 0xFFC000 ≤ b ∧ b < 2 ^ 24 then blocks.testBit (b - 0xFFC000) else decide (b < foot) && x.testBit b := by
  have h0 : Mem.wf [] := ⟨.nil, by simp⟩
  have hz : Mem.bit [] b = false := by simp [Mem.bit, Mem.byte]
  unfold localStore
  dsimp only
  rw [Mem.bit_writeBits (Mem.writeBits_wf h0 ..), Mem.bit_writeBits h0, hz]
  unfold Config.blocksBase
  by_cases hb : 0xFFC000 ≤ b ∧ b < 2 ^ 24
  · rw [if_pos (by omega), if_pos hb]
  · rw [if_neg (by omega), if_neg hb]
    by_cases hf : b < foot
    · rw [if_pos (by omega), Nat.sub_zero, decide_eq_true hf, Bool.true_and]
    · rw [if_neg (by omega), decide_eq_false hf, Bool.false_and]

/-- The fields of a guard entry (R328). -/
theorem Guard.unpack_fields (x : Nat) : (unpack x).sc = BitVec.ofNat 2 (x / 2 ^ 187) ∧ (unpack x).rlen = x / 2 ^ 128 % 2 ^ 59 ∧
    (unpack x).regionLocal = x.testBit 127 ∧ (unpack x).rbase = x / 2 ^ 64 % 2 ^ 58 ∧ (unpack x).guardLocal = x.testBit 63 ∧
    (unpack x).gaddr = x % 2 ^ 58 := by
  unfold unpack
  simp only [bits_eq, Nat.shiftRight_eq_div_pow, Nat.testBit_eq_decide_div_mod_eq, pow_zero, Nat.div_one]
  simp

/-- A restore gives a core what its save area holds (R398). -/
theorem State.restoreContext_restoredAt (s : State) (c : Core) (ctx : Nat) (t : Task) :
    (s.restoreContext c ctx t).RestoredAt s.ms.mem ctx := by
  generalize hm : s.ms.mem = m
  have at_ (o w : Nat) : s.ms.mem.readBits (ctx + o) w = m.readBits (ctx + o) w := by rw [hm]
  have ctl (i : Nat) (h : 64 * i + 64 ≤ 4096) := wordAt_readBits m (ctx + 17408) 4096 i h
  unfold State.restoreContext
  simp only [at_]
  refine {
    main := Seq.unpack_restoredAt ..
    matrix := Seq.unpack_restoredAt ..
    ctl := fun i v b hv hb => ?_
    extents := fun n => ?_
    masks := fun n => ?_
    guards := ⟨?_, fun i g hg => ?_⟩
    buffers := ⟨fun ha => if_pos ha, fun hb => if_pos hb⟩
    vectors := fun n => ?_
    tiles := fun n => ?_
    store := fun b => ?_ }
  · have hi : i < 18 := (List.getElem?_eq_some_iff.1 hb).1
    rw [Ctl.unpack_saved, List.getElem?_zipWith, hb, List.getElem?_range hi] at hv
    rw [← ctl i (by omega)]
    exact (Option.some.inj hv).symm
  · simp only [unpackExtents, Vector.get_eq_getElem, Vector.getElem_ofFn]
    split
    · rfl
    · rw [m.readBits_part (ctx + 17408) 4096 _ _ (by omega), Nat.shiftRight_eq_div_pow, show 18 + 2 * (n.val - 1) = 16 + 2 * n.val by omega]
      exact BitVec.eq_of_toNat_eq (by simp only [BitVec.toNat_ofNat, Nat.mod_mod])
  · simp only [Vector.get_eq_getElem, Vector.getElem_ofFn, Nat.add_assoc]
  · simp only [List.length_map, List.length_range]
  · simp only [List.getElem?_map, Option.map_eq_some_iff] at hg
    obtain ⟨j, hj, rfl⟩ := hg
    obtain ⟨hlt, rfl⟩ := List.getElem?_eq_some_iff.1 hj
    rw [List.getElem_range]
    simp only [Nat.add_assoc]
    exact Guard.unpack_fields _
  · simp only [Vector.get_eq_getElem, Vector.getElem_ofFn, Nat.add_assoc]
  · simp only [Vector.get_eq_getElem, Vector.getElem_ofFn, Nat.add_assoc, savedTile, Bool.and_eq_true]
  · exact localStore_bit ..

/-- The registers of a bind record leave what a restore or a start gave (R368). -/
theorem Core.RestoredAt.bindRegs {c : Core} {m : Mem} {ctx : Nat} (h : c.RestoredAt m ctx) (r : BitVec 256) :
    (c.bindRegs r).RestoredAt m ctx :=
  ⟨h.main, h.matrix, h.ctl, h.extents, h.masks, h.guards, h.buffers, h.vectors, h.tiles, h.store⟩

/-! ## The fresh start -/

/-- The parts of an extent of 128 bits (R30). -/
theorem extent_parts (x : BitVec 128) : extBase x = x.toNat % 2 ^ 58 ∧ extLen x = x.toNat / 2 ^ 58 % 2 ^ 59 ∧
    extKind x = x.toNat / 2 ^ 117 % 2 ^ 3 ∧ (extRead x).toNat = x.toNat / 2 ^ 120 % 2 ∧ (extWrite x).toNat = x.toNat / 2 ^ 121 % 2 ∧
    extTidx x = x.toNat / 2 ^ 122 % 2 ^ 6 := by
  have hb (y : Nat) : (decide (y % 2 = 1)).toNat = y % 2 := by
    rcases Nat.mod_two_eq_zero_or_one y with h | h <;> simp [h]
  unfold extBase extLen extKind extRead extWrite extTidx
  simp only [bits_eq, pow_zero, Nat.div_one, Nat.reduceSub, Nat.reduceAdd, pow_one, hb]
  exact ⟨trivial, trivial, trivial, trivial, trivial, trivial⟩

/-- Clearing the length of an extent. -/
theorem clearLen_toNat (x : BitVec 128) : (x &&& ~~~(((2 ^ 59 - 1 : Nat) : BitVec 128) <<< 58)).toNat = putBits x.toNat 116 58 0 := by
  have hx := x.isLt
  have hc (j : Nat) (hj : j < 128) : (((2 ^ 59 - 1 : Nat) : BitVec 128)).getLsbD j = decide (j < 59) := by
    rw [show (((2 ^ 59 - 1 : Nat) : BitVec 128)) = BitVec.ofNat 128 (2 ^ 59 - 1) from rfl, BitVec.getLsbD_ofNat,
      Nat.testBit_two_pow_sub_one, decide_eq_true hj, Bool.true_and]
  refine Nat.eq_of_testBit_eq fun i => ?_
  rw [testBit_putBits _ _ _ _ _ (by omega), Nat.zero_testBit, BitVec.testBit_toNat, BitVec.getLsbD_and, BitVec.getLsbD_not,
    BitVec.getLsbD_shiftLeft, ← BitVec.testBit_toNat]
  by_cases hi : i < 128
  · rw [hc _ (by omega)]
    by_cases h : 58 ≤ i ∧ i ≤ 116
    · simp [h, hi, show ¬ i < 58 by omega, show i - 58 < 59 by omega]
    · rw [if_neg h]
      by_cases h' : i < 58
      · simp [h', hi]
      · simp [h', hi, show ¬ i - 58 < 59 by omega]
  · rw [if_neg (by omega), Nat.testBit_lt_two_pow (hx.trans_le (Nat.pow_le_pow_right (by omega) (by omega))), Bool.false_and]

/-- The fields of an extent but its length make up what is left without it. -/
theorem fields_but_length (x : Nat) (hx : x < 2 ^ 128) :
    x % 2 ^ 58 % 2 ^ 58 + 0 % 2 ^ 59 * 2 ^ 58 + x / 2 ^ 117 % 2 ^ 3 % 8 * 2 ^ 117 + x / 2 ^ 120 % 2 * 2 ^ 120 + x / 2 ^ 121 % 2 * 2 ^ 121 +
      x / 2 ^ 122 % 2 ^ 6 % 64 * 2 ^ 122 = x - x / 2 ^ 58 % 2 ^ 59 * 2 ^ 58 := by
  have h1 := Nat.div_add_mod x (2 ^ 58)
  have h2 := Nat.div_add_mod (x / 2 ^ 58) (2 ^ 59)
  rw [Nat.div_div_eq_div_mul, ← pow_add] at h2
  norm_num at *
  omega

/-- An extent of length 0 in place of another one (R31). -/
theorem mkExtent_empty (x : BitVec 128) : mkExtent (extBase x) 0 (extKind x) (extRead x) (extWrite x) (extTidx x) =
    x &&& ~~~(((2 ^ 59 - 1 : Nat) : BitVec 128) <<< 58) := by
  obtain ⟨h1, -, h3, h4, h5, h6⟩ := extent_parts x
  refine BitVec.eq_of_toNat_eq ?_
  rw [clearLen_toNat, putBits_eq _ _ _ _ (by omega), Nat.zero_mod, Nat.zero_mul, Nat.add_zero]
  unfold mkExtent
  simp only [BitVec.toNat_ofNat, h1, h3, h4, h5, h6, Nat.shiftLeft_eq]
  rw [fields_but_length _ x.isLt, Nat.mod_eq_of_lt (Nat.lt_of_le_of_lt (Nat.sub_le ..) x.isLt)]

/-- An extent as the loader's descriptor installs it (R31, R98). -/
theorem checkedExtent_eq (x : BitVec 128) : checkedExtent x = installed x := by
  have hx := x.isLt
  obtain ⟨h1, h2, h3, -, -, h6⟩ := extent_parts x
  unfold checkedExtent installed
  rw [mkExtent_empty]
  have hok : extentOk x = true ↔ (x.extractLsb' 0 58).toNat + (x.extractLsb' 58 59).toNat ≤
      (if (x.extractLsb' 117 3).toNat = 1 ∨ (x.extractLsb' 117 3).toNat = 2 then 2 ^ 24 else 2 ^ 58) ∧ (x.extractLsb' 117 3).toNat ≤ 4 ∧
      ((x.extractLsb' 117 3).toNat = 2 ∨ (x.extractLsb' 117 3).toNat = 3 ∨ x.extractLsb' 122 6 = 0) := by
    unfold extentOk
    rw [← BitVec.toNat_inj (x := x.extractLsb' 122 6)]
    simp only [BitVec.extractLsb'_toNat, Nat.shiftRight_eq_div_pow, h1, h2, h3, h6, decide_eq_true_eq, pow_zero, Nat.div_one,
      BitVec.toNat_zero, BitVec.ofNat_eq_ofNat]
  simp only [hok]

/-- The extents of a fresh task (R14). -/
theorem State.startExtents_spec (s : State) (t : Task) : (s.startExtents t)[0]? = some extentZero ∧
    (s.startExtents t)[15]? = some (mkExtent 0 (2 ^ 24) 1 true true 0) ∧
    (∀ j, j < 8 → (s.startExtents t)[j + 1]? = some (if t.image.getLsbD (256 + j) then
      ((s.sched.handles.find? fun z => z.1 = t.key.vdev ∧ z.2.1 = field t.image (143 + 16 * j) (128 + 16 * j)).map (·.2.2)).elim 0 installed
      else 0)) ∧
    ∀ j, 9 ≤ j → j < 15 → (s.startExtents t)[j]? = some 0 := by
  have hbit (j : Nat) : recExv t.image j = t.image.getLsbD (256 + j) := by
    unfold recExv
    rw [bits_eq, ← BitVec.testBit_toNat, Nat.testBit_eq_decide_div_mod_eq]
    simp
  have hext (j : Nat) : recExt t.image j = field t.image (143 + 16 * j) (128 + 16 * j) := by
    unfold recExt field
    rw [bits_eq, show 128 + 16 * j + 15 = 143 + 16 * j by omega]
  unfold State.startExtents
  dsimp only
  refine ⟨by simp, by simp, fun j hj => ?_, fun j h9 h15 => ?_⟩
  · simp only [hbit, hext, checkedExtent_eq]
    rw [Vector.getElem?_eq_getElem (by omega), Vector.getElem_ofFn]
    simp only [Nat.add_sub_cancel, show ¬ j + 1 = 0 by omega, show j + 1 ≤ 8 by omega, if_true, if_false]
    congr 1
    split
    · cases s.sched.handles.find? fun z => decide (z.1 = t.key.vdev ∧ z.2.1 = field t.image (143 + 16 * j) (128 + 16 * j)) <;> rfl
    · rfl
  · rw [Vector.getElem?_eq_getElem (by omega), Vector.getElem_ofFn]
    simp only [show ¬ j = 0 by omega, show ¬ j ≤ 8 by omega, show ¬ j = 15 by omega, if_false]

/-- A sequencer at reset, running or not, at some PC, stands at the start of a task (R14). -/
theorem Seq.reset_starts (run : Bool) (pc : BitVec 58) (g : Vector Word 32) (mark : Nat) :
    ({ Seq.reset with running := run, pc := pc, g := g, constMark := mark } : Seq).Starts :=
  ⟨⟨rfl, rfl, rfl, rfl, rfl⟩, ⟨rfl, rfl, rfl⟩, ⟨rfl, rfl, rfl, rfl, rfl⟩⟩

/-- A task without a saved context starts fresh (R14, R96, R256, R368). -/
theorem State.startContext_starts (s : State) (c : Core) (t : Task) (r : BitVec 256) :
    ((s.startContext c t).bindRegs r).Starts t.image (fun h => (s.sched.handles.find? fun z => z.1 = t.key.vdev ∧ z.2.1 = h).map (·.2.2))
      (((s.sched.lsimages.find? fun z => z.1 = t.key && ! t.added).map (·.2)).getD 0) := by
  obtain ⟨e0, e15, e1, e9⟩ := s.startExtents_spec t
  have hargs : recArgs t.image < 2 ^ 58 := Nat.mod_lt _ (by norm_num)
  refine {
    main := ⟨rfl, ?_, Seq.reset_starts ..⟩
    matrix := ⟨rfl, Seq.reset_starts .., rfl⟩
    regs := fun i => ?_
    vectors := ⟨rfl, rfl, rfl⟩
    buffers := ⟨rfl, rfl⟩
    ctl := ⟨rfl, rfl, rfl, rfl, rfl, rfl, ?_⟩
    modes := ⟨rfl, rfl, rfl, rfl, rfl, rfl, rfl, rfl⟩
    traps := ⟨rfl, rfl, rfl, rfl, rfl⟩
    ext := ⟨e0, e15, e1, e9⟩
    store := fun b => ?_
    guards := rfl }
  · show (BitVec.ofNat 58 (recEntry t.image)).toNat = _
    unfold recEntry field
    rw [bits_eq, BitVec.toNat_ofNat, Nat.mod_mod]
  · show (Seq.reset.g.set 1 (tagged 0 (recArgs t.image))).get i = _
    rw [Vector.get_eq_getElem, Vector.getElem_set]
    by_cases hi : i.val = 1
    · rw [if_pos hi.symm, if_pos hi]
      unfold tagged
      rw [Nat.mod_eq_of_lt hargs, Nat.zero_mod, Nat.zero_shiftLeft, Nat.zero_add]
      unfold recArgs field
      rw [bits_eq]
    · rw [if_neg (Ne.symm hi), if_neg hi]
      simp [Seq.reset]
  · show BitVec.ofNat 64 (recTiles t.image <<< 8) = _
    unfold recTiles field
    rw [bits_eq, Nat.shiftLeft_eq, Nat.mul_comm]
  · show (localStore (recFoot t.image) (_ % 2 ^ recFoot t.image) 0).bit b = _
    rw [localStore_bit, Nat.zero_testBit, Nat.testBit_mod_two_pow, show recFoot t.image = field t.image 448 424 from bits_eq ..]
    by_cases hb : 0xFFC000 ≤ b ∧ b < 2 ^ 24
    · rw [if_pos hb, decide_eq_false fun h => h.2 hb, Bool.false_and]
    · rw [if_neg hb]
      by_cases hf : b < field t.image 448 424
      · rw [decide_eq_true hf, decide_eq_true (And.intro hf hb)]
        cases s.sched.lsimages.find? fun x => x.1 = t.key && ! t.added <;> simp
      · rw [decide_eq_false hf, decide_eq_false fun h => hf h.1, Bool.false_and, Bool.false_and]

/-- The registers of a bind record (R11, R367, R368). -/
theorem Core.bindRegs_bound (c : Core) (r : BitVec 256) : (c.bindRegs r).Bound r := by
  have hb (i : Nat) : r.getLsbD i = decide (r.toNat / 2 ^ i % 2 = 1) := by
    rw [← BitVec.testBit_toNat, Nat.testBit_eq_decide_div_mod_eq]
  have hn (y : Nat) : (decide (y % 2 = 1)).toNat = y % 2 := by
    rcases Nat.mod_two_eq_zero_or_one y with h | h <;> simp [h]
  have h1 (i : Nat) : (r.getLsbD i).toNat = field r i i := by
    rw [hb, hn, field, Nat.sub_self, Nat.zero_add, pow_one]
  refine { budget := ?_, root := ?_, mode := ?_, llcp := ?_, taskid := ?_ }
  · show BitVec.ofNat 64 (bits r.toNat 191 128) = _
    rw [bits_eq]; rfl
  · show BitVec.ofNat 64 (bits r.toNat 255 192) &&& _ = _
    rw [bits_eq]; rfl
  · show BitVec.ofNat 64 ((r.getLsbD 44).toNat + 2 * (r.getLsbD 45).toNat) = _
    rw [h1, h1]
  · show BitVec.ofNat 64 (bits r.toNat 51 46 + bits r.toNat 57 52 <<< 8) = _
    rw [bits_eq, bits_eq, Nat.shiftLeft_eq, Nat.mul_comm _ (2 ^ 8)]; rfl
  · show BitVec.ofNat 64 (bits r.toNat 40 0) = _
    rw [bits_eq]; rfl

end Sys2Proof.Machine
end

section
/-! SUPPORT. Tasks, slots and cores through a bind and an unbind: what each step changes and what it leaves (R362, R366, R368, R392). -/

namespace Sys2Proof.Machine

/-! ## Tasks and slots of the scheduler -/

/-- The first task of a key, where the change of all tasks keeps their keys. -/
theorem find?_map_key (l : List Task) (f : Task → Task) (hf : ∀ x, (f x).key = x.key) (k : TaskKey) :
    (l.map f).find? (fun u => decide (u.key = k)) = (l.find? fun u => decide (u.key = k)).map f := by
  rw [List.find?_map]
  congr 2
  funext x
  simp only [Function.comp_apply, hf]

theorem Sched.task_key {c : Sched} {k : TaskKey} {t : Task} (h : c.task k = some t) : t.key = k := by
  simpa using List.find?_some h

theorem Sched.task_of_map {c d : Sched} {f : Task → Task} (h : d.tasks = c.tasks.map f) (hf : ∀ x, (f x).key = x.key) (k : TaskKey) :
    d.task k = (c.task k).map f := by
  unfold Sched.task; rw [h, find?_map_key _ _ hf]

/-- Every task of key k becomes y. -/
def putTask (k : TaskKey) (y z : Task) : Task := if z.key = k then y else z

theorem putTask_key {k : TaskKey} {y : Task} (hy : y.key = k) (z : Task) : (putTask k y z).key = z.key := by
  unfold putTask
  split
  · next h => rw [hy, h]
  · rfl

/-- The tasks once those of key k have become y. -/
theorem Sched.task_of_put {c d : Sched} {k : TaskKey} {x y : Task} (h : d.tasks = c.tasks.map (putTask k y)) (hx : c.task k = some x)
    (hy : y.key = k) (j : TaskKey) : d.task j = if j = k then some y else c.task j := by
  rw [Sched.task_of_map h (putTask_key hy)]
  by_cases hj : j = k
  · subst hj
    rw [hx, if_pos rfl, Option.map_some, putTask, if_pos (Sched.task_key hx)]
  · rw [if_neg hj]
    cases hc : c.task j with
    | none => rfl
    | some t => rw [Option.map_some, putTask, if_neg fun e => hj ((Sched.task_key hc).symm.trans e)]

/-- A task of key k once all of that key have changed. -/
theorem Sched.task_mapTask {c : Sched} {k : TaskKey} {t : Task} (h : c.task k = some t) (f : Task → Task) (hf : ∀ x, (f x).key = x.key) :
    (c.mapTask k f).task k = some (f t) := by
  have hkey (x : Task) : (if x.key = k then f x else x).key = x.key := by
    split
    · exact hf x
    · rfl
  rw [Sched.task_of_map (c := c) rfl hkey, h]
  exact congrArg some (if_pos (Sched.task_key h))

theorem Sched.setTask_known {c : Sched} {t x : Task} (h : c.task t.key = some x) :
    c.setTask t = { c with tasks := c.tasks.map (putTask t.key t) } := by
  have hany : (c.tasks.any fun u => decide (u.key = t.key)) = true :=
    List.any_eq_true.2 ⟨x, List.mem_of_find?_eq_some h, by simp [Sched.task_key h]⟩
  unfold Sched.setTask
  rw [if_pos hany]
  rfl

/-- Removing members of other numbers leaves the first one of number m. -/
theorem find?_filter_other {α : Type} (l : List (Nat × α)) (p : Nat × α → Bool) (m : Nat) (hp : ∀ x, x.1 = m → p x = true) :
    (l.filter p).find? (fun x => decide (x.1 = m)) = l.find? fun x => decide (x.1 = m) := by
  rw [List.find?_filter]
  congr 1
  funext x
  by_cases hx : x.1 = m
  · simp [hx, hp x hx]
  · simp [hx]

@[simp] theorem Sched.slot_setSlot (c : Sched) (n m : Nat) (x : Slot) : (c.setSlot n x).slot m = if m = n then x else c.slot m := by
  unfold Sched.slot Sched.setSlot
  dsimp only
  by_cases h : m = n
  · simp [h]
  · rw [List.find?_cons_of_neg (by simpa using Ne.symm h), if_neg h, find?_filter_other _ _ _ fun x hx => by simpa [hx] using h]

theorem Sched.slot_of_slots {c d : Sched} (h : d.slots = c.slots) (n : Nat) : d.slot n = c.slot n := by
  unfold Sched.slot; rw [h]

/-- A ready list follows from a task's key, record and demotion, and the graphs (R366, R384). -/
theorem Sched.readyListOf_congr {c d : Sched} {t u : Task} (hg : d.graphs = c.graphs) (hk : u.key = t.key) (hi : u.image = t.image)
    (hd : u.demoted = t.demoted) : d.readyListOf u = c.readyListOf t := by
  unfold Sched.readyListOf Sched.contractOf Sched.graph
  rw [hg, hk, hi, hd]

/-- What an unbind charges changes credits, contracts and the cycles that the task ran (R378, R383). -/
theorem Sched.charge_eq {c : Sched} {k : TaskKey} {t : Task} (h : c.task k = some t) : ∃ vs cs,
    c.charge k = { c with vdevs := vs, contracts := cs, tasks := c.tasks.map (putTask k { t with ran := 0 }) } := by
  obtain rfl := Sched.task_key h
  unfold Sched.charge
  rw [h]
  dsimp only
  refine ⟨_, _, (Sched.setTask_known (x := t) ?_).trans rfl⟩
  exact h

/-- A task takes a state (R362): tasks, memory and what a spill notes change. -/
theorem State.setTaskState_frame (s : State) (k : TaskKey) (st : TaskState) : ∃ ts ms io,
    s.setTaskState k st = { s with sched := { s.sched with tasks := ts }, ms := ms, io := io } := by
  unfold State.setTaskState
  cases h : s.sched.task k with
  | none => exact ⟨_, _, _, rfl⟩
  | some x =>
    obtain rfl := Sched.task_key h
    dsimp only
    have hset : (s.mapSched fun c => c.setTask { x with state := st }) =
        { s with sched := { s.sched with tasks := s.sched.tasks.map (putTask x.key { x with state := st }) } } :=
      congrArg (fun c => { s with sched := c }) (Sched.setTask_known (c := s.sched) (t := { x with state := st }) h)
    rw [hset]
    exact ⟨_, _, _, (State.syncRecord_wrote _ _).2⟩

/-- The tasks once one has taken a state. -/
theorem State.task_setTaskState {s : State} {k : TaskKey} {x : Task} (h : s.sched.task k = some x) (st : TaskState) (j : TaskKey) :
    (s.setTaskState k st).sched.task j = if j = k then some { x with state := st } else s.sched.task j :=
  have hk := Sched.task_key h
  Sched.task_of_put (c := s.sched) (d := (s.setTaskState k st).sched) (y := { x with state := st })
    (congrArg Sched.tasks (s.setTaskState_sched h st)) h hk j

section
variable (s : State) (k : TaskKey) (st : TaskState)

@[simp] theorem State.setTaskState_core : (s.setTaskState k st).core = s.core := by
  obtain ⟨_, _, _, h⟩ := s.setTaskState_frame k st
  rw [h]

@[simp] theorem State.setTaskState_slot (n : Nat) : (s.setTaskState k st).sched.slot n = s.sched.slot n := by
  obtain ⟨_, _, _, h⟩ := s.setTaskState_frame k st
  rw [h]; rfl

@[simp] theorem State.setTaskState_lists : (s.setTaskState k st).sched.lists = s.sched.lists := by
  obtain ⟨_, _, _, h⟩ := s.setTaskState_frame k st
  rw [h]

@[simp] theorem State.setTaskState_graphs : (s.setTaskState k st).sched.graphs = s.sched.graphs := by
  obtain ⟨_, _, _, h⟩ := s.setTaskState_frame k st
  rw [h]

@[simp] theorem State.setTaskState_coreAt (n : Nat) : (s.setTaskState k st).coreAt n = s.coreAt n := by
  obtain ⟨_, _, _, h⟩ := s.setTaskState_frame k st
  rw [h]; rfl

end

/-! ## Cores -/

@[simp] theorem State.focus_coreNo (s : State) (n : Nat) (q : SeqId) : (s.focus n q).coreNo = n := by
  unfold State.focus
  split
  · next h => exact h.symm
  · rfl

@[simp] theorem State.focus_cur (s : State) (n : Nat) (q : SeqId) : (s.focus n q).cur = q := by
  unfold State.focus
  split <;> rfl

@[simp] theorem State.focus_sched (s : State) (n : Nat) (q : SeqId) : (s.focus n q).sched = s.sched := by
  unfold State.focus
  split <;> rfl

@[simp] theorem State.focus_ms (s : State) (n : Nat) (q : SeqId) : (s.focus n q).ms = s.ms := by
  unfold State.focus
  split <;> rfl

@[simp] theorem State.focus_core (s : State) (n : Nat) (q : SeqId) : (s.focus n q).core = s.coreAt n := by
  unfold State.focus State.coreAt
  split
  · rfl
  · rfl

/-- Bringing a core into focus leaves every core as it is. -/
@[simp] theorem State.coreAt_focus (s : State) (n : Nat) (q : SeqId) (m : Nat) : (s.focus n q).coreAt m = s.coreAt m := by
  unfold State.focus
  by_cases h : n = s.coreNo
  · rw [if_pos h]; rfl
  · rw [if_neg h]
    by_cases hm : m = n
    · subst hm; simp [State.coreAt]
    · unfold State.coreAt
      dsimp only
      rw [if_neg hm]
      by_cases h0 : m = s.coreNo
      · simp [h0]
      · rw [if_neg h0, List.find?_cons_of_neg (by simpa using Ne.symm h0), find?_filter_other _ _ _ fun x hx => by simp [hx, hm, h0]]

/-- The sequencer that comes into focus. -/
theorem State.focus_seq (s : State) (n : Nat) (q : SeqId) : (s.focus n q).seq = (s.coreAt n).seqAt q := by
  unfold State.seq
  rw [State.focus_cur, State.focus_core]
  cases q <;> rfl

/-- Changing one core changes nothing but cores. -/
theorem State.mapCoreNo_frame (s : State) (n : Nat) (f : Core → Core) : ∃ c os, s.mapCoreNo n f = { s with core := c, others := os } := by
  unfold State.mapCoreNo
  split
  · exact ⟨_, _, rfl⟩
  · split
    · exact ⟨_, _, rfl⟩
    · exact ⟨_, _, rfl⟩

/-- State u is s but for the core in focus. -/
def State.OnCore (s u : State) : Prop := ∃ c, u = { s with core := c }

theorem State.OnCore.refl (s : State) : s.OnCore s := ⟨s.core, rfl⟩

theorem State.OnCore.trans {s t u : State} (h1 : s.OnCore t) (h2 : t.OnCore u) : s.OnCore u := by
  obtain ⟨c, rfl⟩ := h1
  obtain ⟨d, rfl⟩ := h2
  exact ⟨d, rfl⟩

theorem State.OnCore.mapCore {s t : State} (h : s.OnCore t) (f : Core → Core) : s.OnCore (t.mapCore f) := h.trans ⟨_, rfl⟩

theorem State.OnCore.mapCtl {s t : State} (h : s.OnCore t) (f : Ctl → Ctl) : s.OnCore (t.mapCtl f) := h.trans ⟨_, rfl⟩

theorem State.OnCore.mapSeq {s t : State} (h : s.OnCore t) (f : Seq → Seq) : s.OnCore (t.mapSeq f) := by
  refine h.trans ?_
  unfold State.mapSeq
  split <;> exact ⟨_, rfl⟩

theorem State.OnCore.foldl {α : Type} {f : State → α → State} (hf : ∀ (s : State) x, s.OnCore (f s x)) (xs : List α) {s t : State}
    (h : s.OnCore t) : s.OnCore (xs.foldl f t) := by
  induction xs generalizing t with
  | nil => exact h
  | cons x xs ih => exact ih (h.trans (hf t x))

theorem State.OnCore.foldl_fst {α β : Type} {f : State × β → α → State × β} (hf : ∀ (r : State × β) x, r.1.OnCore (f r x).1) (xs : List α)
    (r : State × β) : r.1.OnCore (xs.foldl f r).1 := by
  induction xs generalizing r with
  | nil => exact .refl _
  | cons x xs ih => exact (hf r x).trans (ih _)

theorem State.putBack_onCore (s : State) (x : Seen) : s.OnCore (s.putBack x) := by
  unfold State.putBack
  split
  · unfold State.setG
    split
    · exact .refl s
    · exact (OnCore.refl s).mapSeq _
  · exact ⟨_, rfl⟩
  · exact ⟨_, rfl⟩

theorem State.abandon_onCore (s : State) (x : InFlight) : s.OnCore (s.abandon x) := by
  unfold State.abandon
  dsimp only
  have h := (OnCore.foldl State.putBack_onCore (x.old.filter fun y => x.owes.flatten.contains y.res)
    (OnCore.foldl State.putBack_onCore (x.bare.filter fun y => ! x.owes.flatten.contains y.res) (.refl s))).mapCtl
      fun c => (vectorRegs (x.old.filter fun y => x.owes.flatten.contains y.res)).foldl (fun c n => c.unmark x n) c
  split
  · exact h.mapCore _
  · exact h

theorem State.giveUp_onCore (s : State) (x : InFlight) : s.OnCore (s.giveUp x).1 := by
  unfold State.giveUp
  dsimp only
  split
  · exact ⟨_, rfl⟩
  · exact ((OnCore.refl s).mapCtl _).trans (State.abandon_onCore ..)

theorem State.pushReplay_onCore (s : State) (es : List Replay) : s.OnCore (s.pushReplay es) := by
  unfold State.pushReplay State.stopAt
  dsimp only
  split
  · split
    · exact ((OnCore.refl s).mapSeq _).mapCtl _
    · exact (OnCore.refl s).mapSeq _
  · exact (OnCore.refl s).mapSeq _

/-- The stop of what is in flight changes the core in focus alone (R392). -/
theorem State.stopFlight_onCore (s : State) : s.OnCore s.stopFlight := by
  unfold State.stopFlight
  split
  next t es n h =>
  have ht : s.OnCore (t, es, n).1 := by
    rw [← h]
    refine OnCore.foldl_fst (fun r x => ?_) _ (s, [], 0)
    dsimp only
    split
    · exact .refl _
    · split
      · exact State.giveUp_onCore ..
      · exact ⟨_, rfl⟩
  exact (ht.trans (State.pushReplay_onCore ..)).mapSeq _

/-- So does the stop of a wait (R392). -/
theorem State.stopWait_onCore (s : State) : s.OnCore s.stopWait := by
  unfold State.stopWait State.stopAt
  dsimp only
  split
  · exact .refl s
  · exact .refl s
  · split
    · split
      · exact ((OnCore.refl s).mapSeq _).mapCtl _
      · exact (OnCore.refl s).mapSeq _
    · split
      · split
        · exact (OnCore.refl s).mapCtl _
        · exact .refl s
      · split
        · exact ((OnCore.refl s).mapSeq _).mapCtl _
        · exact (OnCore.refl s).mapSeq _

/-- The stop of one sequencer of core n changes that core alone (R392). -/
theorem State.stopOne_frame (s : State) (n : Nat) (q : SeqId) : let u := ((s.focus n q).stopWait.stopFlight).mapSeq Seq.stopped
    u.coreNo = n ∧ u.sched = s.sched ∧ u.ms = s.ms ∧ ∀ m, m ≠ n → u.coreAt m = s.coreAt m := by
  have h := (((s.focus n q).stopWait_onCore).trans (State.stopFlight_onCore _)).mapSeq Seq.stopped
  dsimp only
  obtain ⟨c, hc⟩ := h
  rw [hc]
  refine ⟨s.focus_coreNo n q, s.focus_sched n q, s.focus_ms n q, fun m hm => ?_⟩
  rw [← s.coreAt_focus n q m]
  unfold State.coreAt
  dsimp only
  rw [s.focus_coreNo n q, if_neg hm, if_neg hm]

/-- Before a save, a core stops (R392): the others, the scheduler and memory stay. -/
theorem State.stopCore_frame (s : State) (n : Nat) :
    (s.stopCore n).sched = s.sched ∧ (s.stopCore n).ms = s.ms ∧ ∀ m, m ≠ n → (s.stopCore n).coreAt m = s.coreAt m := by
  unfold State.stopCore
  dsimp only
  obtain ⟨-, s1, m1, c1⟩ := s.stopOne_frame n .main
  generalize ((s.focus n .main).stopWait.stopFlight).mapSeq Seq.stopped = t at *
  obtain ⟨-, s2, m2, c2⟩ := t.stopOne_frame n .matrix
  exact ⟨by rw [State.focus_sched, s2, s1], by rw [State.focus_ms, m2, m1],
    fun m hm => by rw [State.coreAt_focus, c2 m hm, c1 m hm]⟩

end Sys2Proof.Machine
end

section
/-! SUPPORT. What a bind and an unbind leave (R362, R366, R368, R392). -/

namespace Sys2Proof.Machine

/-- A task that enters its list (R366). -/
theorem Sched.enlist_eq {c : Sched} {k : TaskKey} {t : Task} (h : c.task k = some t) (head : Bool) : c.enlist k head =
    { c with lists := if head then (c.readyListOf t, k) :: (c.unlist k).lists else (c.unlist k).lists ++ [(c.readyListOf t, k)] } := by
  unfold Sched.enlist
  rw [h]
  rfl

/-- Its list is the one of the task as it was before it took its new state. -/
theorem Sched.enlist_lists {c d : Sched} {k : TaskKey} {t u : Task} (h : d.task k = some u) (hg : d.graphs = c.graphs)
    (hl : d.lists = c.lists) (hk : u.key = t.key) (hi : u.image = t.image) (hd : u.demoted = t.demoted) (head : Bool) :
    (d.enlist k head).lists =
      if head then (c.readyListOf t, k) :: (c.unlist k).lists else (c.unlist k).lists ++ [(c.readyListOf t, k)] := by
  rw [Sched.enlist_eq h, Sched.readyListOf_congr hg hk hi hd]
  unfold Sched.unlist
  rw [hl]

@[simp] theorem Sched.task_enlist (c : Sched) (k : TaskKey) (head : Bool) (j : TaskKey) : (c.enlist k head).task j = c.task j := by
  unfold Sched.enlist
  split <;> rfl

@[simp] theorem Sched.slot_enlist (c : Sched) (k : TaskKey) (head : Bool) (n : Nat) : (c.enlist k head).slot n = c.slot n := by
  unfold Sched.enlist
  split <;> rfl

@[simp] theorem Sched.slot_settle (c : Sched) (n : Nat) : c.settle.slot n = c.slot n := rfl
@[simp] theorem State.coreAt_mapSched (s : State) (f : Sched → Sched) (n : Nat) : (s.mapSched f).coreAt n = s.coreAt n := rfl

/-- A save changes memory only. -/
theorem State.saveContext_frame (s : State) (c : Core) (ctx foot : Nat) : ∃ ms, s.saveContext c ctx foot = { s with ms := ms } := by
  unfold State.saveContext
  generalize c.saveParts foot = ps
  induction ps generalizing s with
  | nil => exact ⟨_, rfl⟩
  | cons x ps ih =>
    obtain ⟨ms, h⟩ := ih (s.mapMs fun ms => ms.writeBits none (ctx + x.1) x.2.1 x.2.2)
    exact ⟨ms, h⟩

/-! ## The unbind -/

/-- What an unbind notes of the core with its task. -/
def Task.parked (t : Task) (c : Core) : Task :=
  { t with
    saved := true, markMain := c.main.constMark, markMatrix := c.matrix.constMark, owedMain := c.main.owed, owedMatrix := c.matrix.owed }

/-- The scheduler as an unbind of core n leaves it, before the task takes its new state (R368, R378, R392). -/
def Sched.vacate (d : Sched) (n : Nat) (x : Slot) (c : Core) : Sched :=
  let k := keyOf (bindTid x.run)
  Sched.mapTask { (d.charge k).setSlot n { x with run := 0, dcmd := 0 } with notices := d.notices.filter (· ≠ n) } k fun t => t.parked c

theorem Sched.vacate_spec {d : Sched} {n : Nat} {x : Slot} {t : Task} (ht : d.task (keyOf (bindTid x.run)) = some t) (c : Core) :
    (d.vacate n x c).graphs = d.graphs ∧ (d.vacate n x c).lists = d.lists ∧
    (d.vacate n x c).slot n = { x with run := 0, dcmd := 0 } ∧
    (d.vacate n x c).task (keyOf (bindTid x.run)) = some ({ t with ran := 0 }.parked c) := by
  obtain ⟨vs, cs, h⟩ := Sched.charge_eq ht
  have hkey := Sched.task_key ht
  unfold Sched.vacate
  dsimp only
  rw [h]
  refine ⟨rfl, rfl, (Sched.slot_setSlot { d with vdevs := vs, contracts := cs, tasks := _ } n n _).trans (if_pos rfl), ?_⟩
  refine Sched.task_mapTask (t := { t with ran := 0 }) ?_ _ fun _ => rfl
  exact (Sched.task_of_put (c := d) (y := { t with ran := 0 }) rfl ht hkey _).trans (if_pos rfl)

/-- The state of an unbind before its task takes its new state: the core has stopped and is saved, and RUN is clear (R368, R392). -/
def State.unloaded (s : State) (n : Nat) (t : Task) : State :=
  let x := s.sched.slot n
  let c := (s.stopCore n).coreAt n
  let s := ((s.stopCore n).saveContext c (bindCtx x.run) (recFoot t.image)).mapCoreNo n fun _ => c.idle
  (s.event 2 (dieOf n) (n % 56) ((bindTid x.run) <<< 5)).mapSched fun d => d.vacate n x c

theorem State.unbind_eq {s : State} {n : Nat} {t : Task} (ht : s.sched.task (keyOf (bindTid (s.sched.slot n).run)) = some t)
    (hv : bindValid (s.sched.slot n).run = true) (st : TaskState) (head : Bool) : s.unbind n st head =
      let k := keyOf (bindTid (s.sched.slot n).run)
      let u := (s.unloaded n t).setTaskState k st
      (if st = .preempted then u.mapSched fun d => d.enlist k head else u).mapSched Sched.settle := by
  unfold State.unbind
  simp only [ht, hv, Bool.true_eq_false, if_false]
  rfl

theorem State.unloaded_sched (s : State) (n : Nat) (t : Task) :
    (s.unloaded n t).sched = s.sched.vacate n (s.sched.slot n) ((s.stopCore n).coreAt n) := by
  obtain ⟨hs, -, -⟩ := s.stopCore_frame n
  unfold State.unloaded
  dsimp only
  generalize (s.stopCore n).coreAt n = c
  obtain ⟨ms, h1⟩ := (s.stopCore n).saveContext_frame c (bindCtx (s.sched.slot n).run) (recFoot t.image)
  rw [h1]
  obtain ⟨k, os, h2⟩ := ({ s.stopCore n with ms := ms } : State).mapCoreNo_frame n fun _ => c.idle
  rw [h2]
  exact congrArg (fun d : Sched => d.vacate n (s.sched.slot n) c) hs

theorem State.unloaded_coreAt (s : State) (n : Nat) (t : Task) (hn : n < 224) (m : Nat) :
    (s.unloaded n t).coreAt m = if m = n then ((s.stopCore n).coreAt n).idle else s.coreAt m := by
  obtain ⟨-, -, hc⟩ := s.stopCore_frame n
  have h := ((s.stopCore n).saveContext ((s.stopCore n).coreAt n) (bindCtx (s.sched.slot n).run) (recFoot t.image)).coreAt_mapCoreNo n m
    fun _ => ((s.stopCore n).coreAt n).idle
  obtain ⟨ms, h1⟩ := (s.stopCore n).saveContext_frame ((s.stopCore n).coreAt n) (bindCtx (s.sched.slot n).run) (recFoot t.image)
  refine Eq.trans h ?_
  by_cases hm : m = n
  · rw [if_pos ⟨hm, hn⟩, if_pos hm]
  · rw [if_neg fun x => hm x.1, if_neg hm, h1, ← hc m hm]
    rfl

/-- Core n's task t of key k has left it for state st (R368, R392). -/
structure State.Unbound (s u : State) (n : Nat) (k : TaskKey) (t : Task) (st : TaskState) (head : Bool) : Prop where
  task : u.InState k st
  vacant : u.Vacant n
  dcmd : (u.sched.slot n).dcmd = 0
  others : ∀ m, m ≠ n → u.coreAt m = s.coreAt m
  lists : st = .preempted → u.sched.lists = if head then (s.sched.readyListOf t, k) :: (s.sched.unlist k).lists
    else (s.sched.unlist k).lists ++ [(s.sched.readyListOf t, k)]

theorem State.unbind_unbound {s : State} {n : Nat} {k : TaskKey} {t : Task} (hk : keyOf (bindTid (s.sched.slot n).run) = k)
    (ht : s.sched.task k = some t) (hv : bindValid (s.sched.slot n).run = true) (hn : n < 224) (st : TaskState) (head : Bool) :
    s.Unbound (s.unbind n st head) n k t st head := by
  subst hk
  have hcore := s.unloaded_coreAt n t hn
  obtain ⟨hg, hl, hslot, htask⟩ := Sched.vacate_spec (n := n) ht ((s.stopCore n).coreAt n)
  rw [← s.unloaded_sched n t] at hg hl hslot htask
  rw [State.unbind_eq ht hv]
  dsimp only
  generalize s.unloaded n t = w at *
  generalize keyOf (bindTid (s.sched.slot n).run) = k at *
  have hstate := (State.task_setTaskState htask st k).trans (if_pos rfl)
  have hvacant : (w.setTaskState k st).Vacant n := by
    unfold State.Vacant
    rw [State.setTaskState_slot, hslot, State.setTaskState_coreAt, hcore, if_pos rfl]
    exact ⟨by simp [bindValid], rfl, rfl⟩
  have hdcmd : ((w.setTaskState k st).sched.slot n).dcmd = 0 := by rw [State.setTaskState_slot, hslot]
  have hothers (m : Nat) (hm : m ≠ n) : (w.setTaskState k st).coreAt m = s.coreAt m := by
    rw [State.setTaskState_coreAt, hcore, if_neg hm]
  by_cases hst : st = .preempted
  · rw [if_pos hst]
    exact {
      task := ⟨_, (Sched.task_enlist _ k head k).trans hstate, rfl⟩
      vacant := by simpa [State.Vacant] using hvacant
      dcmd := by simpa using hdcmd
      others := hothers
      lists := fun _ => Sched.enlist_lists hstate (by simpa using hg) (by simpa using hl) rfl rfl rfl head }
  · rw [if_neg hst]
    exact {
      task := ⟨_, hstate, rfl⟩
      vacant := hvacant
      dcmd := hdcmd
      others := hothers
      lists := fun h => absurd h hst }

/-- PREEMPT_SAVE leaves the core vacant and the task pre-empted, on its list (R366, R392). -/
theorem preemptSave_unbound {s : State} {c : Nat} {k : TaskKey} {y : Task} (hk : keyOf (bindTid (s.sched.slot c).run) = k) (hc : c < 224)
    (hd : (s.sched.slot c).dcmd ≠ 0) (hv : bindValid (s.sched.slot c).run = true) (hy : s.sched.task k = some y) :
    ∃ u, exec (.preemptSave c) s = .next u ∧ s.Unbound u c k y .preempted (! (s.sched.slot c).tail) := by
  refine ⟨_, ?_, State.unbind_unbound hk hy hv hc .preempted (! (s.sched.slot c).tail)⟩
  show execPreemptSave c s = _
  unfold execPreemptSave
  rw [if_pos ⟨hc, hd⟩]

/-! ## The bind -/

/-- Core c with CYCLE as it has counted on until a bind (R125). -/
def State.cycled (s : State) (c : Core) : Core := { c with ctl := { c.ctl with cycle := c.ctl.cycle + BitVec.ofNat 64 (s.drawNat 1 1) } }

/-- The core that a bind makes of core c for task t (R368, R398). -/
def State.boundCore (s : State) (r : BitVec 256) (t : Task) (c : Core) : Core :=
  (if t.saved then s.restoreContext (s.cycled c) (bindCtx r) t else s.startContext (s.cycled c) t).bindRegs r

/-- The state of a bind before its task runs: the core is made, and its record stands in RUN (R368). -/
def State.taken (s : State) (n : Nat) (r : BitVec 256) (t : Task) : State :=
  ((s.mapCoreNo n (s.boundCore r t)).mapSched fun c => { c with
    slots := (c.setSlot n { run := r, stg := 0, dcmd := 0, since := c.ticks, tail := false }).slots
    notices := c.notices.filter (· ≠ n) }).mapSched fun c => c.mapTask (keyOf (bindTid r)) fun t => { t with ran := 0 }

theorem State.bind_eq {s : State} {n : Nat} {r : BitVec 256} {t : Task} (h : s.sched.task (keyOf (bindTid r)) = some t) :
    s.bind n r = (s.taken n r t).setTaskState (keyOf (bindTid r)) .running := by
  unfold State.bind
  dsimp only
  rw [h]
  rfl

theorem State.taken_task {s : State} {n : Nat} {r : BitVec 256} {t : Task} (h : s.sched.task (keyOf (bindTid r)) = some t) :
    (s.taken n r t).sched.task (keyOf (bindTid r)) = some { t with ran := 0 } := by
  obtain ⟨c, os, hc⟩ := s.mapCoreNo_frame n (s.boundCore r t)
  unfold State.taken
  rw [hc]
  exact Sched.task_mapTask h (fun t => { t with ran := 0 }) fun _ => rfl

theorem State.taken_slot (s : State) (n : Nat) (r : BitVec 256) (t : Task) :
    ((s.taken n r t).sched.slot n).run = r ∧ ((s.taken n r t).sched.slot n).stg = 0 ∧ ((s.taken n r t).sched.slot n).dcmd = 0 := by
  obtain ⟨c, os, hc⟩ := s.mapCoreNo_frame n (s.boundCore r t)
  have h : (s.taken n r t).sched.slot n = { run := r, stg := 0, dcmd := 0, since := s.sched.ticks, tail := false } := by
    unfold State.taken
    rw [hc]
    exact (s.sched.slot_setSlot n n _).trans (if_pos rfl)
  rw [h]
  exact ⟨rfl, rfl, rfl⟩

theorem State.taken_coreAt (s : State) {n : Nat} (r : BitVec 256) (t : Task) (hn : n < 224) :
    (s.taken n r t).coreAt n = s.boundCore r t (s.coreAt n) :=
  (s.coreAt_mapCoreNo n n (s.boundCore r t)).trans (if_pos ⟨rfl, hn⟩)

/-- TASK_BIND starts the task of the staged record, or restores it (R368, R398). -/
theorem State.bind_spec {s : State} {n : Nat} {r : BitVec 256} {t : Task} (h : s.sched.task (keyOf (bindTid r)) = some t) (hn : n < 224) :
    let u := s.bind n r
    u.InState (keyOf (bindTid r)) .running ∧ (u.sched.slot n).run = r ∧ (u.sched.slot n).stg = 0 ∧ (u.sched.slot n).dcmd = 0 ∧
      u.coreAt n = s.boundCore r t (s.coreAt n) := by
  obtain ⟨h1, h2, h3⟩ := s.taken_slot n r t
  dsimp only
  rw [State.bind_eq h, State.setTaskState_slot, State.setTaskState_coreAt, s.taken_coreAt r t hn]
  exact ⟨⟨_, (State.task_setTaskState (State.taken_task h) .running _).trans (if_pos rfl), rfl⟩, h1, h2, h3, rfl⟩

theorem State.boundCore_starts (s : State) (r : BitVec 256) {t : Task} (c : Core) (h : t.saved = false) :
    (s.boundCore r t c).Starts t.image (fun h => (s.sched.handles.find? fun z => z.1 = t.key.vdev ∧ z.2.1 = h).map (·.2.2))
      (((s.sched.lsimages.find? fun z => z.1 = t.key && ! t.added).map (·.2)).getD 0) := by
  unfold State.boundCore
  rw [if_neg (by rw [h]; exact Bool.false_ne_true)]
  exact s.startContext_starts _ t r

theorem State.boundCore_restored (s : State) (r : BitVec 256) {t : Task} (c : Core) (h : t.saved = true) :
    (s.boundCore r t c).RestoredAt s.ms.mem (bindCtx r) ∧ (s.boundCore r t c).main.owed = t.owedMain ∧
      (s.boundCore r t c).matrix.owed = t.owedMatrix := by
  unfold State.boundCore
  rw [if_pos h]
  exact ⟨(s.restoreContext_restoredAt _ (bindCtx r) t).bindRegs r, rfl, rfl⟩

end Sys2Proof.Machine
end

section
/-! SUPPORT. Mason's choice (R292, R366, R378, R383) in the words of its rules. -/

namespace Sys2Proof.Machine

theorem bindTid_eq (r : BitVec 256) : bindTid r = field r 40 0 := bits_eq ..
theorem bindBudget_eq (r : BitVec 256) : bindBudget r = field r 191 128 := bits_eq ..
theorem bindCtx_eq (r : BitVec 256) : bindCtx r = field r 121 64 := bits_eq ..

/-! ## Idle cores, and the core that a contract task takes -/

theorem word_and_three (x : Word) : x &&& 3 = 0 ↔ x.toNat % 4 = 0 := by
  rw [← BitVec.toNat_inj, BitVec.toNat_and]
  exact iff_of_eq (congrArg (· = 0) (Nat.and_two_pow_sub_one_eq_mod x.toNat 2))

theorem State.isFree_iff (s : State) {n : Nat} (h : n < 224) : s.isFree n = true ↔ s.idleCore n := by
  unfold State.isFree State.idleCore Slot.free State.hinted
  simp only [Bool.and_eq_true, Bool.not_eq_true', decide_eq_false_iff_not, not_not, word_and_three, h, true_and, and_assoc]
  rfl

theorem State.freeCore_iff (s : State) : s.freeCore = true ↔ ∃ m, s.idleCore m := by
  unfold State.freeCore Config.cores
  rw [List.any_eq_true]
  constructor
  · rintro ⟨m, hm, h⟩
    exact ⟨m, (s.isFree_iff (List.mem_range.1 hm)).1 h⟩
  · rintro ⟨m, h⟩
    exact ⟨m, List.mem_range.2 h.1, (s.isFree_iff h.1).2 h⟩

theorem State.takes_iff (s : State) {n : Nat} (hn : n < 224) : s.takes n = true ↔ s.Takes n := by
  unfold State.takes State.Takes
  dsimp only
  by_cases h : ∃ m, s.idleCore m
  · rw [if_pos (s.freeCore_iff.2 h), s.isFree_iff hn]
    exact ⟨fun x => ⟨fun _ => x, fun y => absurd h y⟩, fun x => x.1 h⟩
  · rw [if_neg fun x => h (s.freeCore_iff.1 x)]
    simp only [Bool.and_eq_true, List.all_eq_true, Bool.or_eq_true, Bool.not_eq_true', decide_eq_true_eq]
    constructor
    · rintro ⟨h1, h2⟩
      refine ⟨fun x => absurd x h, fun _ => ⟨h1, fun p hp hy => (h2 p hp).resolve_left ?_⟩⟩
      rw [hy]; exact Bool.true_eq_false.mp
    · rintro ⟨-, h2⟩
      refine ⟨(h2 h).1, fun p hp => ?_⟩
      cases hy : s.sched.yields p.2
      · exact .inl rfl
      · exact .inr ((h2 h).2 p hp hy)

theorem State.quantumOver_iff (s : State) (n : Nat) : s.quantumOver n = true ↔ s.QuantumOver n := by
  unfold State.quantumOver State.QuantumOver
  have hf : s.freeCore = false ↔ ∀ m, ¬ s.idleCore m := by
    rw [← Bool.not_eq_true, s.freeCore_iff, not_exists]
  simp only [Bool.and_eq_true, Bool.not_eq_true', hf, List.any_eq_true, decide_eq_true_eq, bindTid_eq]
  constructor
  · rintro ⟨⟨v, hv, h1, h2⟩, h3⟩
    exact ⟨⟨v, h1, hv, h2⟩, h3⟩
  · rintro ⟨⟨v, h1, hv, h2⟩, h3⟩
    exact ⟨⟨v, hv, h1, h2⟩, h3⟩

/-- Core n is in hint residency or on its way to it (R292). -/
theorem State.hinted_iff (s : State) (n : Nat) : s.hinted n = true ↔ ((s.ms.llc[dieOf n]?).getD LlcDie.reset).cfg &&& 3 ≠ 0 :=
  decide_eq_true_iff

theorem Sched.isBest_iff (c : Sched) (r : BitVec 256) : c.isBest r = true ↔ c.BestEffort r := by
  unfold Sched.isBest Sched.BestEffort
  rw [bindTid_eq, Option.any_eq_true]
  constructor
  · rintro ⟨t, ht, h⟩
    split at h
    · next v p hl => exact ⟨t, v, p, ht, hl⟩
    · exact absurd h Bool.false_ne_true
  · rintro ⟨t, v, p, ht, hl⟩
    exact ⟨t, ht, by rw [hl]⟩

/-! ## The contract whose task runs next -/

theorem Sched.contractReady_iff (c : Sched) (x : Contract) (k : TaskKey) (hx : x ∈ c.contracts) :
    c.contractReady x = some k ↔ c.Awaits x k := by
  unfold Sched.contractReady Sched.Awaits
  split
  · next h =>
    simp only [reduceCtorEq, false_iff]
    rintro ⟨-, -, h1, h2⟩
    rcases h with h | h
    · rw [h1] at h; exact Bool.false_ne_true h
    · exact h2 h
  · next h =>
    rw [not_or, Bool.not_eq_true] at h
    exact ⟨fun hk => ⟨hx, hk, h⟩, fun hk => hk.2.1⟩

theorem Sched.eligible_iff (c : Sched) (x : Contract) (k : TaskKey) (hx : x ∈ c.contracts) :
    c.eligible x k ↔ c.contractReady x = some k ∧ c.shareFull x.vdev = false := by
  unfold Sched.eligible Sched.shareFull
  rw [c.contractReady_iff x k hx, decide_eq_false_iff_not, Nat.not_le]

/-- x comes before y, by deadline and then by number (R383). -/
def Contract.before (x y : Contract) : Prop := x.deadline < y.deadline ∨ (x.deadline = y.deadline ∧ x.number ≤ y.number)

theorem Contract.before_refl (x : Contract) : x.before x := .inr ⟨rfl, Nat.le_refl _⟩

theorem Contract.before_trans {x y z : Contract} (h1 : x.before y) (h2 : y.before z) : x.before z := by
  unfold Contract.before at *
  omega

/-- One step of the choice: a contract in the place of the best so far. -/
def Sched.better (c : Sched) (m : Option (Contract × TaskKey)) (x : Contract) : Option (Contract × TaskKey) :=
  match c.contractReady x with
  | none => m
  | some k =>
    if c.shareFull x.vdev then m else
    match m with
    | none => some (x, k)
    | some (y, _) => if x.deadline < y.deadline ∨ (x.deadline = y.deadline ∧ x.number < y.number) then some (x, k) else m

theorem Sched.nextContract_eq (c : Sched) : c.nextContract = c.contracts.foldl c.better none := rfl

/-- m is the first of the eligible contracts of a list. -/
def Sched.FirstOf (c : Sched) (xs : List Contract) (m : Option (Contract × TaskKey)) : Prop :=
  (m = none → ∀ y ∈ xs, ∀ l, ¬ c.eligible y l) ∧
  ∀ x k, m = some (x, k) → c.eligible x k ∧ ∀ y ∈ xs, ∀ l, c.eligible y l → x.before y

theorem Sched.firstOf_better {c : Sched} {xs : List Contract} {m : Option (Contract × TaskKey)} {x : Contract} (h : c.FirstOf xs m)
    (hx : x ∈ c.contracts) : c.FirstOf (xs ++ [x]) (c.better m x) := by
  have he := c.eligible_iff x
  have skip (hn : ∀ l, ¬ c.eligible x l) : c.FirstOf (xs ++ [x]) m := by
    refine ⟨fun hm y hy l => ?_, fun z k hm => ⟨(h.2 z k hm).1, fun y hy l hl => ?_⟩⟩ <;>
    rcases List.mem_append.1 hy with hy | hy
    · exact h.1 hm y hy l
    · rw [List.mem_singleton.1 hy]; exact hn l
    · exact (h.2 z k hm).2 y hy l hl
    · rw [List.mem_singleton.1 hy] at hl; exact absurd hl (hn l)
  unfold Sched.better
  cases hr : c.contractReady x with
  | none => exact skip fun l hl => by simpa [hr] using ((he l hx).1 hl).1
  | some k =>
    dsimp only
    cases hf : c.shareFull x.vdev with
    | true => exact skip fun l hl => by simpa [hf] using ((he l hx).1 hl).2
    | false =>
      have hk : c.eligible x k := (he k hx).2 ⟨hr, hf⟩
      rw [if_neg Bool.false_ne_true]
      have only (hb : ∀ y ∈ xs, ∀ l, c.eligible y l → x.before y) : c.FirstOf (xs ++ [x]) (some (x, k)) := by
        refine ⟨fun hm => by simp at hm, fun z j hm => ?_⟩
        obtain ⟨rfl, rfl⟩ := Prod.mk.inj (Option.some.inj hm)
        refine ⟨hk, fun y hy l hl => ?_⟩
        rcases List.mem_append.1 hy with hy | hy
        · exact hb y hy l hl
        · rw [List.mem_singleton.1 hy]; exact x.before_refl
      cases m with
      | none => exact only fun y hy l hl => absurd hl (h.1 rfl y hy l)
      | some p =>
        obtain ⟨y, j⟩ := p
        obtain ⟨hy, hmin⟩ := h.2 y j rfl
        dsimp only
        split
        · next hlt =>
          have hxy : x.before y := by unfold Contract.before; omega
          exact only fun z hz l hl => Contract.before_trans hxy (hmin z hz l hl)
        · next hge =>
          refine ⟨fun hm => by simp at hm, fun z i hm => ?_⟩
          obtain ⟨rfl, rfl⟩ := Prod.mk.inj (Option.some.inj hm)
          refine ⟨hy, fun z hz l hl => ?_⟩
          rcases List.mem_append.1 hz with hz | hz
          · exact hmin z hz l hl
          · rw [List.mem_singleton.1 hz]
            unfold Contract.before
            omega

theorem Sched.firstOf_foldl {c : Sched} (ys xs : List Contract) {m : Option (Contract × TaskKey)} (h : c.FirstOf xs m)
    (hy : ∀ y ∈ ys, y ∈ c.contracts) : c.FirstOf (xs ++ ys) (ys.foldl c.better m) := by
  induction ys generalizing xs m with
  | nil => simpa using h
  | cons y ys ih =>
    have := ih (xs ++ [y]) (Sched.firstOf_better h (hy y (by simp))) fun z hz => hy z (by simp [hz])
    simpa using this

/-- The next contract is the earliest of all eligible ones (R383). -/
theorem Sched.nextContract_spec (c : Sched) : (c.nextContract = none → ∀ y l, ¬ c.eligible y l) ∧
    ∀ x k, c.nextContract = some (x, k) → c.eligible x k ∧
      ∀ y l, c.eligible y l → x.deadline < y.deadline ∨ (x.deadline = y.deadline ∧ x.number ≤ y.number) := by
  have h : c.FirstOf ([] ++ c.contracts) (c.contracts.foldl c.better none) :=
    Sched.firstOf_foldl c.contracts [] ⟨fun _ y hy => by simp at hy, fun x k hm => by simp at hm⟩ fun y hy => hy
  rw [List.nil_append, ← Sched.nextContract_eq] at h
  exact ⟨fun hm y l hl => h.1 hm y hl.1.1 l hl, fun x k hm => ⟨(h.2 x k hm).1, fun y l hl => (h.2 x k hm).2 y hl.1.1 l hl⟩⟩

/-! ## The running contract task with the latest deadline -/

/-- One step of the search for it. -/
def Sched.later (c : Sched) (vd : Nat) (m : Option (Nat × Nat)) (x : Nat × Slot) : Option (Nat × Nat) :=
  match c.runContract x.2 with
  | none => m
  | some y => if y.vdev = vd ∧ m.all (fun z => z.2 < y.deadline) then some (x.1, y.deadline) else m

theorem Sched.latest_eq (c : Sched) (vd : Nat) : c.latest vd = c.slots.foldl (c.later vd) none := rfl

/-- m is the latest of the running contract tasks of a device among some slots. -/
def Sched.LatestOf (c : Sched) (vd : Nat) (xs : List (Nat × Slot)) (m : Option (Nat × Nat)) : Prop :=
  (∀ n e, m = some (n, e) → ∃ x y, (n, x) ∈ xs ∧ c.runContract x = some y ∧ y.vdev = vd ∧ y.deadline = e) ∧
  ∀ p ∈ xs, ∀ y, c.runContract p.2 = some y → y.vdev = vd → ∃ n e, m = some (n, e) ∧ y.deadline ≤ e

theorem Sched.latestOf_later {c : Sched} {vd : Nat} {xs : List (Nat × Slot)} {m : Option (Nat × Nat)} (h : c.LatestOf vd xs m)
    (x : Nat × Slot) : c.LatestOf vd (xs ++ [x]) (c.later vd m x) := by
  have old : ∀ n e, m = some (n, e) → ∃ z y, (n, z) ∈ xs ++ [x] ∧ c.runContract z = some y ∧ y.vdev = vd ∧ y.deadline = e := by
    intro n e hm
    obtain ⟨z, y, hz, hy⟩ := h.1 n e hm
    exact ⟨z, y, List.mem_append_left _ hz, hy⟩
  have keep (hk : ∀ y, c.runContract x.2 = some y → y.vdev = vd → ∃ n e, m = some (n, e) ∧ y.deadline ≤ e) :
      c.LatestOf vd (xs ++ [x]) m := by
    refine ⟨old, fun p hp => ?_⟩
    rcases List.mem_append.1 hp with hp | hp
    · exact h.2 p hp
    · rw [List.mem_singleton.1 hp]; exact hk
  unfold Sched.later
  cases hr : c.runContract x.2 with
  | none => exact keep fun y hy => by simp [hr] at hy
  | some y =>
    dsimp only
    by_cases hv : y.vdev = vd
    · by_cases hl : m.all (fun z => decide (z.2 < y.deadline)) = true
      · rw [if_pos ⟨hv, hl⟩]
        refine ⟨fun n e hm => ?_, fun p hp z hz hzv => ⟨_, _, rfl, ?_⟩⟩
        · obtain ⟨rfl, rfl⟩ := Prod.mk.inj (Option.some.inj hm)
          exact ⟨x.2, y, by simp, hr, hv, rfl⟩
        · rcases List.mem_append.1 hp with hp | hp
          · obtain ⟨n, e, rfl, hle⟩ := h.2 p hp z hz hzv
            have : e < y.deadline := by simpa using hl
            omega
          · rw [List.mem_singleton.1 hp, hr] at hz
            rw [Option.some.inj hz]
      · rw [if_neg fun x => hl x.2]
        refine keep fun z hz _ => ?_
        obtain rfl := Option.some.inj (hr.symm.trans hz)
        cases m with
        | none => simp at hl
        | some p => exact ⟨p.1, p.2, rfl, by simpa using hl⟩
    · rw [if_neg fun x => hv x.1]
      exact keep fun z hz hzv => absurd (Option.some.inj (hr.symm.trans hz) ▸ hzv) hv

theorem Sched.latestOf_foldl {c : Sched} {vd : Nat} (ys xs : List (Nat × Slot)) {m : Option (Nat × Nat)} (h : c.LatestOf vd xs m) :
    c.LatestOf vd (xs ++ ys) (ys.foldl (c.later vd) m) := by
  induction ys generalizing xs m with
  | nil => simpa using h
  | cons y ys ih => simpa using ih (xs ++ [y]) (Sched.latestOf_later h y)

theorem Sched.latest_spec {c : Sched} {vd n e : Nat} (h : c.latest vd = some (n, e)) :
    (∃ x y, (n, x) ∈ c.slots ∧ c.runContract x = some y ∧ y.vdev = vd ∧ y.deadline = e) ∧
    ∀ p ∈ c.slots, ∀ y, c.runContract p.2 = some y → y.vdev = vd → y.deadline ≤ e := by
  have hl : c.LatestOf vd ([] ++ c.slots) (c.slots.foldl (c.later vd) none) :=
    Sched.latestOf_foldl c.slots [] ⟨fun n e hm => by simp at hm, fun p hp => by simp at hp⟩
  rw [List.nil_append, ← Sched.latest_eq, h] at hl
  refine ⟨hl.1 n e rfl, fun p hp y hy hv => ?_⟩
  obtain ⟨m, f, hm, hle⟩ := hl.2 p hp y hy hv
  obtain ⟨rfl, rfl⟩ := Prod.mk.inj (Option.some.inj hm)
  exact hle

/-- A core is to give up its contract task (R383). -/
theorem Sched.displaced_iff (c : Sched) (n : Nat) : c.displaced n = true ↔ c.Displaced n := by
  unfold Sched.displaced Sched.Displaced Sched.shareFull
  simp only [List.any_eq_true, Bool.and_eq_true, Option.isSome_iff_exists, Option.any_eq_true, decide_eq_true_eq, and_assoc]
  constructor
  · rintro ⟨x, hx, ⟨k, hk⟩, hs, ⟨m, e⟩, hl, hm, hd⟩
    exact ⟨x, k, e, (c.contractReady_iff x k hx).1 hk, hs, by rw [hl, ← hm], hd⟩
  · rintro ⟨x, k, e, ha, hs, hl, hd⟩
    exact ⟨x, ha.1, ⟨k, (c.contractReady_iff x k ha.1).2 ha⟩, hs, ⟨n, e⟩, hl, rfl, hd⟩

/-! ## The choice -/

/-- The first task of the highest priority (R378). -/
theorem Sched.bestOf_spec {d : Sched} {v : Nat} {k : TaskKey} (h : d.bestOf v = some k) : ∃ p, p < 16 ∧ d.head (.bestEffort v p) = some k ∧
    ∀ q, p < q → q < 16 → d.head (.bestEffort v q) = none := by
  have key (n : Nat) (h : (List.range n).reverse.findSome? (fun p => d.head (.bestEffort v p)) = some k) : ∃ p, p < n ∧
      d.head (.bestEffort v p) = some k ∧ ∀ q, p < q → q < n → d.head (.bestEffort v q) = none := by
    induction n with
    | zero => simp at h
    | succ n ih =>
      rw [List.range_succ, List.reverse_append, List.reverse_singleton, List.singleton_append, List.findSome?_cons] at h
      split at h
      · next j hj => exact ⟨n, by omega, hj.trans h, fun q h1 h2 => by omega⟩
      · next hn =>
        obtain ⟨p, hp, hk, hq⟩ := ih h
        refine ⟨p, by omega, hk, fun q h1 h2 => ?_⟩
        by_cases e : q = n
        · rw [e, hn]
        · exact hq q h1 (by omega)
  exact key 16 h

/-- The system class comes first, and is all that a die in hint residency takes (R292, R366). -/
theorem State.choose_system (s : State) {c : Nat} {k : TaskKey} (h : s.sched.head .system = some k) :
    s.choose c = some (s.sched.record k 0 false, s.sched) := by
  unfold State.choose
  simp only [h]

theorem State.choose_hinted {s : State} {c : Nat} (h : s.sched.head .system = none) (hh : s.hinted c = true) : s.choose c = none := by
  unfold State.choose
  simp only [h, hh, if_true]

/-- Then a contract task, on the core it takes (R383). -/
theorem State.choose_contract {s : State} {c : Nat} {x : Contract} {k : TaskKey} (h : s.sched.head .system = none)
    (hh : s.hinted c = false) (hx : s.sched.nextContract = some (x, k)) (ht : s.takes c = true) :
    s.choose c = some (s.sched.record k x.remaining false, s.sched) := by
  unfold State.choose
  simp only [h, hh, hx, ht, Option.filter_some, if_true, Bool.false_eq_true, if_false]

/-- No contract task goes to a core that none takes. -/
theorem State.contract_untaken {s : State} {c : Nat} (h : s.sched.nextContract = none ∨ s.takes c = false) :
    (s.sched.nextContract.filter fun _ => s.takes c) = none := by
  rcases h with h | h
  · rw [h]; rfl
  · cases s.sched.nextContract <;> simp [h]

theorem Sched.stagesBest_iff (c : Sched) (x : Slot) : c.stagesBest x = true ↔ (bindValid x.stg = true → c.BestEffort x.stg) := by
  unfold Sched.stagesBest
  rw [← c.isBest_iff]
  cases bindValid x.stg <;> simp

/-- Then best effort, where nothing of a higher class is staged (R378). -/
theorem State.choose_best {s : State} {c : Nat} {v : Nat} {d : Sched} {k : TaskKey} (h : s.sched.head .system = none)
    (hh : s.hinted c = false) (hx : s.sched.nextContract = none ∨ s.takes c = false) (hs : s.sched.stagesBest (s.sched.slot c) = true)
    (hr : s.sched.roundRobin = some (v, d)) (hk : d.bestOf v = some k) :
    s.choose c = some (d.record k (12 * (d.settings v).quant) true, d) := by
  have hf := State.contract_untaken hx
  unfold State.choose
  simp only [h, hh, hf, hs, hr, hk, Bool.false_eq_true, if_false, not_true_eq_false, Option.map_some]

end Sys2Proof.Machine
end

section
/-! SUPPORT. Mason's events: the end of a budget, parking, the swap of a staged record, and pre-emption (R363, R366, R367, R368, R378, R383). -/

namespace Sys2Proof.Machine

/-! ## Pre-emption -/

/-- A slot whose running task is to be pre-empted (R368). -/
def Slot.asked (x : Slot) (tail : Bool) : Slot := if bindValid x.run ∧ x.dcmd = 0 then { x with dcmd := 1, tail := tail } else x

theorem Slot.asked_stg (x : Slot) (tail : Bool) : (x.asked tail).stg = x.stg := by unfold Slot.asked; split <;> rfl
theorem Slot.asked_run (x : Slot) (tail : Bool) : (x.asked tail).run = x.run := by unfold Slot.asked; split <;> rfl

theorem Sched.preempt_frame (c : Sched) (n : Nat) (tail : Bool) : c.preempt n tail = { c with slots := (c.preempt n tail).slots } := by
  unfold Sched.preempt
  dsimp only
  split <;> rfl

@[simp] theorem Sched.slot_preempt (c : Sched) (n : Nat) (tail : Bool) (m : Nat) :
    (c.preempt n tail).slot m = if m = n then (c.slot n).asked tail else c.slot m := by
  unfold Sched.preempt Slot.asked
  dsimp only
  split
  · rw [Sched.slot_setSlot]
  · split
    · next h => rw [h]
    · rfl

@[simp] theorem Sched.task_preempt (c : Sched) (n : Nat) (tail : Bool) (k : TaskKey) : (c.preempt n tail).task k = c.task k := by
  rw [Sched.preempt_frame]; rfl

@[simp] theorem Sched.notices_preempt (c : Sched) (n : Nat) (tail : Bool) : (c.preempt n tail).notices = c.notices := by
  rw [Sched.preempt_frame]

/-- What DCMD_PRE may leave as it is (R424). -/
theorem Sched.clampable_false {c : Sched} {n : Nat} (h : c.clampable n = false) : c.runContract (c.slot n) ≠ none ∧
    ∃ p ∈ c.slots, bindValid p.2.run = true ∧ c.runContract p.2 = none := by
  unfold Sched.clampable at h
  rw [Bool.or_eq_false_iff, List.all_eq_false] at h
  obtain ⟨h1, p, hp, h2⟩ := h
  refine ⟨fun e => by simp [e] at h1, p, hp, ?_⟩
  simpa using h2

/-- The state once core c's task is to be pre-empted and c's notice is gone (R368, R378). -/
def State.preempting (s : State) (c : Nat) (tail : Bool) : State :=
  s.mapSched fun d => { d.preempt c tail with notices := d.notices.filter (· ≠ c) }

theorem State.preempting_slot (s : State) (c : Nat) (tail : Bool) (n : Nat) :
    (s.preempting c tail).sched.slot n = if n = c then (s.sched.slot c).asked tail else s.sched.slot n :=
  s.sched.slot_preempt c tail n

theorem State.preempting_notices (s : State) (c : Nat) (tail : Bool) (n : Nat) :
    n ∈ (s.preempting c tail).sched.notices ↔ n ∈ s.sched.notices ∧ n ≠ c := by
  show n ∈ s.sched.notices.filter (· ≠ c) ↔ _
  rw [List.mem_filter, decide_eq_true_iff]

theorem State.preempting_frame (s : State) (c : Nat) (tail : Bool) : let u := s.preempting c tail
    u = { s with sched := { s.sched with slots := u.sched.slots, notices := u.sched.notices } } := by
  show ({ s with sched := { s.sched.preempt c tail with notices := s.sched.notices.filter (· ≠ c) } } : State) = _
  rw [Sched.preempt_frame]
  rfl

/-- Other cores keep their slots and notices. -/
theorem State.preempting_others (s : State) {c n : Nat} (tail : Bool) (hn : n ≠ c) :
    (s.preempting c tail).sched.slot n = s.sched.slot n ∧ (n ∈ (s.preempting c tail).sched.notices ↔ n ∈ s.sched.notices) :=
  ⟨(s.preempting_slot c tail n).trans (if_neg hn), (s.preempting_notices c tail n).trans (and_iff_left hn)⟩

/-- DCMD_PRE (R366, R368, R378, R424). -/
theorem dcmdPre_spec (s : State) {c : Nat} (hc : c < 224) : ∃ u : State, exec (.dcmdPre c) s = .next u ∧
    u = { s with sched := { s.sched with slots := u.sched.slots, notices := u.sched.notices } } ∧
    (∀ n, n ≠ c → u.sched.slot n = s.sched.slot n ∧ (n ∈ u.sched.notices ↔ n ∈ s.sched.notices)) ∧
    (c ∈ s.sched.notices → u.sched.slot c = (s.sched.slot c).asked true ∧ c ∉ u.sched.notices) ∧
    (c ∉ s.sched.notices → u.sched.slot c = (s.sched.slot c).asked false ∨
      u = s ∧ s.sched.runContract (s.sched.slot c) ≠ none ∧
        ∃ p ∈ s.sched.slots, bindValid p.2.run = true ∧ s.sched.runContract p.2 = none) := by
  show ∃ u, execDcmdPre c s = .next u ∧ _
  unfold execDcmdPre
  dsimp only
  rw [if_neg (Nat.not_le.2 hc : ¬ Config.cores ≤ c)]
  by_cases hn : c ∈ s.sched.notices
  · rw [List.contains_iff_mem.2 hn, if_pos (.inl rfl)]
    exact ⟨s.preempting c true, rfl, s.preempting_frame c true, fun n h => s.preempting_others true h,
      fun _ => ⟨(s.preempting_slot c true c).trans (if_pos rfl), fun h => ((s.preempting_notices c true c).1 h).2 rfl⟩, fun h => absurd hn h⟩
  · have hf : s.sched.notices.contains c = false := by simpa using hn
    rw [hf]
    split
    · exact ⟨s.preempting c false, rfl, s.preempting_frame c false, fun n h => s.preempting_others false h, fun h => absurd h hn,
        fun _ => .inl ((s.preempting_slot c false c).trans (if_pos rfl))⟩
    · next h =>
      rw [not_or, not_or] at h
      exact ⟨s, rfl, rfl, fun n _ => ⟨rfl, Iff.rfl⟩, fun h => absurd h hn,
        fun _ => .inr ⟨rfl, Sched.clampable_false (Bool.not_eq_true _ ▸ h.2.1)⟩⟩

/-! ## The end of a budget -/

theorem budgetEnd_idle {s : State} {c : Nat} (h : (s.coreAt c).budget ≠ 0 ∨ field (s.sched.slot c).run 191 128 = 0 ∨
    bindValid (s.sched.slot c).run = false) : exec (.budgetEnd c) s = .next s := by
  show execBudgetEnd c s = _
  unfold execBudgetEnd
  dsimp only
  rw [bindBudget_eq, if_pos (by tauto)]

/-- The state of BUDGET_END once its notice stands, where it gives one (R378). -/
def State.noticed (s : State) (c : Nat) : State := s.mapSched fun d => { d with
  notices := if d.notices.contains c ∨ (bindBn (s.sched.slot c).run ∧ ¬ s.quantumOver c) then d.notices else d.notices ++ [c] }

theorem State.noticed_iff (s : State) (c : Nat) : c ∈ (s.noticed c).sched.notices ↔
    c ∈ s.sched.notices ∨ bindBn (s.sched.slot c).run = false ∨ s.QuantumOver c := by
  show (c ∈ if s.sched.notices.contains c ∨ (bindBn (s.sched.slot c).run ∧ ¬ s.quantumOver c) then s.sched.notices
    else s.sched.notices ++ [c]) ↔ _
  rw [← s.quantumOver_iff]
  by_cases hn : c ∈ s.sched.notices
  · simp [hn]
  · by_cases hq : bindBn (s.sched.slot c).run = true ∧ ¬ s.quantumOver c = true
    · rw [if_pos (.inr hq)]
      simp [hn, hq.1, hq.2]
    · rw [if_neg (by simpa [hn] using hq)]
      rw [not_and, not_not] at hq
      cases hbn : bindBn (s.sched.slot c).run
      · simp
      · simp [hq hbn]

/-- BUDGET_END of a running task: with BN its budget is loaded again, without BN it is pre-empted (R368, R378). -/
theorem budgetEnd_eq {s : State} {c : Nat} (hc : c < 224) (hv : bindValid (s.sched.slot c).run = true)
    (hb : field (s.sched.slot c).run 191 128 ≠ 0) (h0 : (s.coreAt c).budget = 0) (hd : (s.sched.slot c).dcmd = 0) :
    exec (.budgetEnd c) s = .next (if bindBn (s.sched.slot c).run then
      (s.noticed c).mapCoreNo c fun k => { k with budget := BitVec.ofNat 64 (field (s.sched.slot c).run 191 128) }
      else (s.noticed c).mapSched fun d => d.preempt c true) := by
  show execBudgetEnd c s = _
  unfold execBudgetEnd
  dsimp only
  rw [bindBudget_eq, if_neg (by simp only [hv, hb, h0, hd, Config.cores]; simp; omega)]
  split <;> rfl

theorem budgetEnd_spec {s : State} {c : Nat} (hc : c < 224) (hv : bindValid (s.sched.slot c).run = true)
    (hb : field (s.sched.slot c).run 191 128 ≠ 0) (h0 : (s.coreAt c).budget = 0) (hd : (s.sched.slot c).dcmd = 0) :
    ∃ u : State, exec (.budgetEnd c) s = .next u ∧ (u.sched.slot c).run = (s.sched.slot c).run ∧
      (c ∈ u.sched.notices ↔ c ∈ s.sched.notices ∨ (s.sched.slot c).run.getLsbD 58 = false ∨ s.QuantumOver c) ∧
      ((s.sched.slot c).run.getLsbD 58 = true →
        (u.coreAt c).budget = BitVec.ofNat 64 (field (s.sched.slot c).run 191 128) ∧ (u.sched.slot c).dcmd = 0) ∧
      ((s.sched.slot c).run.getLsbD 58 = false →
        (u.sched.slot c).dcmd = 1 ∧ (u.sched.slot c).tail = true ∧ u.coreAt c = s.coreAt c) := by
  have hnotice : c ∈ (s.noticed c).sched.notices ↔
      c ∈ s.sched.notices ∨ (s.sched.slot c).run.getLsbD 58 = false ∨ s.QuantumOver c := s.noticed_iff c
  refine ⟨_, budgetEnd_eq hc hv hb h0 hd, ?_⟩
  cases hbn : (s.sched.slot c).run.getLsbD 58 with
  | true =>
    rw [if_pos (show bindBn (s.sched.slot c).run = true from hbn), State.coreAt_mapCoreNo, if_pos ⟨rfl, hc⟩]
    obtain ⟨k, os, h⟩ := (s.noticed c).mapCoreNo_frame c fun k => { k with budget := BitVec.ofNat 64 (field (s.sched.slot c).run 191 128) }
    rw [h]
    exact ⟨rfl, hbn ▸ hnotice, fun _ => ⟨rfl, hd⟩, fun h => absurd h Bool.true_eq_false.mp⟩
  | false =>
    rw [if_neg (show ¬ bindBn (s.sched.slot c).run = true from fun h => Bool.false_ne_true (hbn.symm.trans h)), State.mapSched_sched, Sched.notices_preempt]
    have hslot : ((s.noticed c).sched.preempt c true).slot c = { s.sched.slot c with dcmd := 1, tail := true } :=
      ((s.noticed c).sched.slot_preempt c true c).trans ((if_pos rfl).trans (if_pos ⟨hv, hd⟩))
    rw [hslot]
    exact ⟨rfl, hbn ▸ hnotice, fun h => absurd h Bool.false_ne_true, fun _ => ⟨rfl, rfl, rfl⟩⟩

/-! ## Parking -/

/-- A parked task wakes (R363). -/
theorem barrierParkWake_spec {s : State} {k : TaskKey} {y : Task} (hy : s.sched.task k = some y) :
    let due := (y.state = .blockedBarrier ∨ y.state = .blockedRendezvous) ∧
      ((∃ x ∈ y.needs, x.2 ≤ s.ms.mem.readBits (y.ctx + 155648 + 256 * x.1) 64) ∨ ∃ p ∈ s.str.ctxs, p.task = k ∧ p.stalled = true)
    (¬ due → exec (.barrierParkWake k) s = .next s) ∧
    (due → ∃ u : State, exec (.barrierParkWake k) s = .next u ∧ u.InState k (wokenState y) ∧ u.core = s.core) := by
  dsimp only
  have hdue : ((y.state = .blockedBarrier ∨ y.state = .blockedRendezvous) ∧
      (s.needReached y ∨ s.str.ctxs.any fun p => p.task = k && p.stalled)) ↔ (y.state = .blockedBarrier ∨ y.state = .blockedRendezvous) ∧
      ((∃ x ∈ y.needs, x.2 ≤ s.ms.mem.readBits (y.ctx + 155648 + 256 * x.1) 64) ∨ ∃ p ∈ s.str.ctxs, p.task = k ∧ p.stalled = true) := by
    unfold State.needReached
    simp only [List.any_eq_true, Bool.and_eq_true, decide_eq_true_eq]
  have hexec : exec (.barrierParkWake k) s = execBarrierParkWake k s := rfl
  rw [hexec]
  unfold execBarrierParkWake
  rw [hy]
  dsimp only
  refine ⟨fun h => by rw [if_neg (hdue.not.2 h)], fun h => ⟨_, by rw [if_pos (hdue.2 h)], ?_, ?_⟩⟩
  · unfold State.makeReady
    rw [hy]
    refine ⟨_, (Sched.task_enlist _ k false k).trans ((State.task_setTaskState hy _ k).trans (if_pos rfl)), rfl⟩
  · unfold State.makeReady
    rw [hy]
    exact State.setTaskState_core ..

theorem barrierPark_idle {s : State} {c : Nat} (h : ((s.coreAt c).main.running = true ∧ (s.coreAt c).main.wait = none) ∨
    bindValid (s.sched.slot c).stg = false) : exec (.barrierPark c) s = .next s := by
  show execBarrierPark c s = _
  unfold execBarrierPark
  dsimp only
  rw [if_neg]
  rintro ⟨-, -, hs, -, hl, -⟩
  rcases h with ⟨hr, hw⟩ | h
  · rw [List.filter_cons_of_pos hr, List.filterMap_cons_none hw, List.length_cons] at hl
    have := List.length_filterMap_le Seq.wait ([(s.coreAt c).matrix].filter Seq.running)
    omega
  · rw [h] at hs
    exact Bool.false_ne_true hs

/-- A sequencer that has waited for so long that it may park (R363). -/
def Seq.longWait (q : Seq) (pkt : Nat) : Prop := q.running = true → (∃ w, q.wait = some w ∧ w.parks = true) ∧ pkt < q.waited

/-- The sequencers of a core that run. -/
def Core.active (k : Core) : List Seq := [k.main, k.matrix].filter Seq.running

/-- The condition of BARRIER_PARK (R363). -/
def State.MayPark (s : State) (c : Nat) : Prop :=
  let x := s.sched.slot c
  let qs := (s.coreAt c).active
  c < Config.cores ∧ bindValid x.run ∧ bindValid x.stg ∧ qs ≠ [] ∧ (qs.filterMap Seq.wait).length = qs.length ∧
    (qs.all fun q => (s.sched.settings (keyOf (bindTid x.run)).vdev).pkt < q.waited) ∧ (qs.filterMap Seq.wait).all Wait.parks ∧
    (qs.filterMap Seq.wait).any fun w => w ≠ .rdv true ∧ w ≠ .rdv false

/-- It holds where the running sequencers have waited for long, one of them at a barrier. -/
theorem State.mayPark_of_long {s : State} {c : Nat} (hc : c < 224) (hr : bindValid (s.sched.slot c).run = true)
    (hs : bindValid (s.sched.slot c).stg = true)
    (hl : ∀ q ∈ [(s.coreAt c).main, (s.coreAt c).matrix],
      q.longWait (s.sched.settings (keyOf (bindTid (s.sched.slot c).run)).vdev).pkt)
    (hb : ∃ q ∈ [(s.coreAt c).main, (s.coreAt c).matrix], q.running = true ∧ ∃ w, q.wait = some w ∧ ∀ e, w ≠ .rdv e) : s.MayPark c := by
  have hlong : ∀ q ∈ (s.coreAt c).active, (∃ w, q.wait = some w ∧ w.parks = true) ∧
      (s.sched.settings (keyOf (bindTid (s.sched.slot c).run)).vdev).pkt < q.waited := by
    intro q hq
    obtain ⟨hm, hrun⟩ := List.mem_filter.1 hq
    exact hl q hm hrun
  obtain ⟨q, hq, hrun, w, hw, hne⟩ := hb
  have hqf : q ∈ (s.coreAt c).active := List.mem_filter.2 ⟨hq, hrun⟩
  refine ⟨hc, hr, hs, List.ne_nil_of_mem hqf, ?_, ?_, ?_, ?_⟩
  · rw [List.length_filterMap_eq_countP, List.countP_eq_length]
    intro q hq
    obtain ⟨⟨w, hw, -⟩, -⟩ := hlong q hq
    rw [hw]; rfl
  · rw [List.all_eq_true]
    exact fun q hq => decide_eq_true (hlong q hq).2
  · rw [List.all_eq_true]
    intro w hw
    obtain ⟨q, hq, hqw⟩ := List.mem_filterMap.1 hw
    obtain ⟨⟨v, hv, hp⟩, -⟩ := hlong q hq
    rw [Option.some.inj (hqw.symm.trans hv)]
    exact hp
  · rw [List.any_eq_true]
    exact ⟨w, List.mem_filterMap.2 ⟨q, hqf, hw⟩, decide_eq_true ⟨hne true, hne false⟩⟩

/-- The state that BARRIER_PARK leaves (R363). -/
def State.barrierParked (s : State) (c : Nat) : State :=
  (s.unbind c (if (s.coreAt c).main.atRdv then .blockedRendezvous else .blockedBarrier) false).mapSched fun d =>
    d.mapTask (keyOf (bindTid (s.sched.slot c).run)) fun t => { t with needs := s.waitNeeds c .main ++ s.waitNeeds c .matrix }

theorem barrierPark_eq {s : State} {c : Nat} (h : s.MayPark c) : exec (.barrierPark c) s = .next (s.barrierParked c) :=
  congrArg Host.Outcome.next (if_pos h)

/-- BARRIER_PARK parks the task with the counts that its waits need (R363). -/
theorem State.barrierParked_spec {s : State} {c : Nat} {k : TaskKey} {y : Task} (hk : keyOf (bindTid (s.sched.slot c).run) = k)
    (hc : c < 224) (hr : bindValid (s.sched.slot c).run = true) (hy : s.sched.task k = some y) :
    ∃ z : Task, (s.barrierParked c).Vacant c ∧ (s.barrierParked c).sched.task k = some z ∧
      z.state = (if (s.coreAt c).main.atRdv then .blockedRendezvous else .blockedBarrier) ∧
      z.needs = s.waitNeeds c .main ++ s.waitNeeds c .matrix := by
  have hu := State.unbind_unbound hk hy hr hc (if (s.coreAt c).main.atRdv then .blockedRendezvous else .blockedBarrier) false
  obtain ⟨z, hz, hstate⟩ := hu.task
  subst hk
  refine ⟨{ z with needs := s.waitNeeds c .main ++ s.waitNeeds c .matrix }, hu.vacant, ?_, hstate, rfl⟩
  exact Sched.task_mapTask hz (fun t => { t with needs := s.waitNeeds c .main ++ s.waitNeeds c .matrix }) fun _ => rfl

/-- What a barrier wait and a chained load need of their windows (R363). -/
theorem State.waitNeeds_barwait {s : State} {c : Nat} {q : SeqId} {a b : BitVec 5} (h : ((s.coreAt c).seqAt q).wait = some (.barwait a b)) :
    let t := s.focus c q
    (extTidx (t.e (tagOf (t.g a))), (t.g b).toNat) ∈ s.waitNeeds c q := by
  unfold State.waitNeeds
  dsimp only
  rw [State.focus_seq, h]
  exact List.mem_singleton.2 rfl

theorem State.waitNeeds_chained {s : State} {c : Nat} {q : SeqId} {a : Chain} (h : ((s.coreAt c).seqAt q).wait = some (.chained a)) :
    (extTidx a.ext, (s.focus c q).chainNeed a 0) ∈ s.waitNeeds c q := by
  unfold State.waitNeeds
  dsimp only
  rw [State.focus_seq, h]
  exact List.mem_singleton.2 rfl

end Sys2Proof.Machine
end

section
/-! SUPPORT. The swap of a staged record (R362, R366, R367, R383). -/

namespace Sys2Proof.Machine

/-- Two tasks that have the same key, record and demotion, and so the same ready list (R366, R384). -/
def Task.Alike (t u : Task) : Prop := u.key = t.key ∧ u.image = t.image ∧ u.demoted = t.demoted

theorem Task.Alike.refl (t : Task) : t.Alike t := ⟨rfl, rfl, rfl⟩

theorem Task.Alike.trans {t u v : Task} (h1 : t.Alike u) (h2 : u.Alike v) : t.Alike v :=
  ⟨h2.1.trans h1.1, h2.2.1.trans h1.2.1, h2.2.2.trans h1.2.2⟩

/-- Every task of c is in d, alike (R366). -/
def Sched.Keeps (c d : Sched) : Prop := d.graphs = c.graphs ∧ ∀ k t, c.task k = some t → ∃ u, d.task k = some u ∧ t.Alike u

theorem Sched.Keeps.trans {c d e : Sched} (h1 : c.Keeps d) (h2 : d.Keeps e) : c.Keeps e := by
  refine ⟨h2.1.trans h1.1, fun k t ht => ?_⟩
  obtain ⟨u, hu, ha⟩ := h1.2 k t ht
  obtain ⟨v, hv, hb⟩ := h2.2 k u hu
  exact ⟨v, hv, ha.trans hb⟩

theorem Sched.Keeps.readyListOf {c d : Sched} (h : c.Keeps d) {k : TaskKey} {t : Task} (ht : c.task k = some t) :
    ∃ u, d.task k = some u ∧ d.readyListOf u = c.readyListOf t := by
  obtain ⟨u, hu, hk, hi, hd⟩ := h.2 k t ht
  exact ⟨u, hu, Sched.readyListOf_congr h.1 hk hi hd⟩

theorem Sched.keeps_of_tasks {c d : Sched} (hg : d.graphs = c.graphs) (ht : ∀ k, d.task k = c.task k) : c.Keeps d :=
  ⟨hg, fun k t h => ⟨t, (ht k).trans h, .refl t⟩⟩

/-- A task that takes a state stays alike. -/
theorem State.keeps_setTaskState (s : State) (k : TaskKey) (st : TaskState) : s.sched.Keeps (s.setTaskState k st).sched := by
  refine ⟨s.setTaskState_graphs k st, fun j t ht => ?_⟩
  cases h : s.sched.task k with
  | none =>
    refine ⟨t, ?_, .refl t⟩
    unfold State.setTaskState
    rw [h]
    exact ht
  | some x =>
    rw [State.task_setTaskState h]
    by_cases hj : j = k
    · subst hj
      rw [if_pos rfl]
      exact ⟨_, rfl, Option.some.inj (h.symm.trans ht) ▸ ⟨rfl, rfl, rfl⟩⟩
    · rw [if_neg hj]
      exact ⟨t, ht, .refl t⟩

@[simp] theorem Sched.graphs_enlist (c : Sched) (k : TaskKey) (head : Bool) : (c.enlist k head).graphs = c.graphs := by
  unfold Sched.enlist
  split <;> rfl

/-! ## Taking a record back -/

/-- The state before Mason puts a task that it takes back on its list. -/
def State.unstaged (s : State) (n : Nat) : State := s.mapSched fun c => c.setSlot n { s.sched.slot n with stg := 0 }

theorem State.withdraw_eq {s : State} {n : Nat} {y : Task} (hv : bindValid (s.sched.slot n).stg = true)
    (hy : s.sched.task (keyOf (bindTid (s.sched.slot n).stg)) = some y) : s.withdraw n =
      ((s.unstaged n).setTaskState (keyOf (bindTid (s.sched.slot n).stg)) y.left).mapSched fun c =>
        c.enlist (keyOf (bindTid (s.sched.slot n).stg)) true := by
  unfold State.withdraw
  dsimp only
  rw [if_neg (by rw [hv]; exact Bool.true_eq_false.mp)]
  split
  · next h => exact absurd (hy.symm.trans h) (by simp)
  · next t h => rw [Option.some.inj (hy.symm.trans h)]; rfl

theorem State.withdraw_invalid {s : State} {n : Nat} (hv : bindValid (s.sched.slot n).stg = false) : s.withdraw n = s := by
  unfold State.withdraw
  dsimp only
  rw [if_pos hv]

theorem State.withdraw_unknown {s : State} {n : Nat} (hv : bindValid (s.sched.slot n).stg = true)
    (hy : s.sched.task (keyOf (bindTid (s.sched.slot n).stg)) = none) : s.withdraw n = s.unstaged n := by
  unfold State.withdraw
  dsimp only
  rw [if_neg (by rw [hv]; exact Bool.true_eq_false.mp)]
  split
  · rfl
  · next t h => exact absurd (hy.symm.trans h) (by simp)

@[simp] theorem State.unstaged_slot (s : State) (n : Nat) : (s.unstaged n).sched.slot n = { s.sched.slot n with stg := 0 } :=
  (s.sched.slot_setSlot n n _).trans (if_pos rfl)

/-- The staged task goes back to the head of its list in the state it had before (R362, R366). -/
theorem State.withdraw_spec {s : State} {n : Nat} {k : TaskKey} {y : Task} (hk : keyOf (bindTid (s.sched.slot n).stg) = k)
    (hv : bindValid (s.sched.slot n).stg = true) (hy : s.sched.task k = some y) :
    ((s.withdraw n).sched.slot n).stg = 0 ∧ ((s.withdraw n).sched.slot n).run = (s.sched.slot n).run ∧ (s.withdraw n).InState k y.left ∧
      (s.withdraw n).sched.lists.head? = some (s.sched.readyListOf y, k) := by
  subst hk
  rw [State.withdraw_eq hv hy]
  have hy' : (s.unstaged n).sched.task (keyOf (bindTid (s.sched.slot n).stg)) = some y := hy
  have hstate := (State.task_setTaskState hy' y.left (keyOf (bindTid (s.sched.slot n).stg))).trans (if_pos rfl)
  generalize keyOf (bindTid (s.sched.slot n).stg) = k at *
  refine ⟨?_, ?_, ⟨_, (Sched.task_enlist _ k true k).trans hstate, rfl⟩, ?_⟩
  · simp
  · simp
  · rw [State.mapSched_sched, Sched.enlist_lists (c := s.sched) (t := y) hstate (by simp; rfl) (by simp; rfl) rfl rfl rfl]
    rfl

/-- Taking a record back, if there is one, leaves what runs and every task's list (R362, R366). -/
theorem State.withdraw_kept (s : State) (n : Nat) : (s.withdraw n).core = s.core ∧ s.sched.Keeps (s.withdraw n).sched ∧
    ((s.withdraw n).sched.slot n).run = (s.sched.slot n).run ∧ ((s.withdraw n).sched.slot n).dcmd = (s.sched.slot n).dcmd := by
  cases hv : bindValid (s.sched.slot n).stg with
  | false =>
    rw [State.withdraw_invalid hv]
    exact ⟨rfl, Sched.keeps_of_tasks rfl fun _ => rfl, rfl, rfl⟩
  | true =>
    have hkeep : s.sched.Keeps (s.unstaged n).sched := Sched.keeps_of_tasks rfl fun _ => rfl
    cases hy : s.sched.task (keyOf (bindTid (s.sched.slot n).stg)) with
    | none =>
      rw [State.withdraw_unknown hv hy]
      exact ⟨rfl, hkeep, by simp, by simp⟩
    | some y =>
      rw [State.withdraw_eq hv hy]
      have hstate := State.keeps_setTaskState (s.unstaged n) (keyOf (bindTid (s.sched.slot n).stg)) y.left
      refine ⟨by simp; rfl, (hkeep.trans hstate).trans (Sched.keeps_of_tasks (by simp) fun k => Sched.task_enlist _ _ true k), ?_, ?_⟩ <;> simp

/-! ## Staging a record -/

/-- The scheduler once record r stands in STG of core n, before its task is bound. -/
def Sched.staged (c : Sched) (n : Nat) (r : BitVec 256) : Sched :=
  (((c.setSlot n { c.slot n with stg := r }).unlist (keyOf (bindTid r))).settle).mapTask (keyOf (bindTid r)) fun t => { t with left := t.state }

theorem State.stage_eq (s : State) (n : Nat) (r : BitVec 256) :
    s.stage n r = (s.mapSched fun c => c.staged n r).setTaskState (keyOf (bindTid r)) .bound := rfl

theorem Sched.staged_spec (c : Sched) (n : Nat) (r : BitVec 256) : c.Keeps (c.staged n r) ∧
    (c.staged n r).slot n = { c.slot n with stg := r } ∧ ∀ l ∈ (c.staged n r).lists, l.2 ≠ keyOf (bindTid r) := by
  have hf (t : Task) : (if t.key = keyOf (bindTid r) then { t with left := t.state } else t).key = t.key := by split <;> rfl
  refine ⟨⟨rfl, fun k t ht => ⟨_, (Sched.task_of_map (c := c) rfl hf k).trans (by rw [ht]; rfl), ?_⟩⟩,
    (c.slot_setSlot n n _).trans (if_pos rfl), fun l hl => ?_⟩
  · dsimp only
    split
    · exact ⟨rfl, rfl, rfl⟩
    · exact .refl t
  · have : l ∈ c.lists.filter fun x => x.2 ≠ keyOf (bindTid r) := hl
    simpa using (List.mem_filter.1 this).2

theorem State.stage_spec {s : State} {n : Nat} {r : BitVec 256} {y : Task} (hy : s.sched.task (keyOf (bindTid r)) = some y) :
    (s.stage n r).core = s.core ∧ s.sched.Keeps (s.stage n r).sched ∧ (s.stage n r).sched.slot n = { s.sched.slot n with stg := r } ∧
      (s.stage n r).InState (keyOf (bindTid r)) .bound ∧ ∀ l ∈ (s.stage n r).sched.lists, l.2 ≠ keyOf (bindTid r) := by
  obtain ⟨hk, hs, hl⟩ := s.sched.staged_spec n r
  obtain ⟨z, hz, -⟩ := hk.2 _ y hy
  rw [State.stage_eq]
  refine ⟨by simp, hk.trans (State.keeps_setTaskState ..), by simpa using hs, ⟨_, (State.task_setTaskState hz .bound _).trans (if_pos rfl), rfl⟩,
    by simpa using hl⟩

/-! ## The swap -/

/-- A contract task is staged over a best-effort one (R383). -/
theorem Sched.outranked_iff {c d : Sched} (h : c.Keeps d) {n : Nat} {y z : Task} (hv : bindValid (d.slot n).stg = true)
    (hy : c.task (keyOf (bindTid (d.slot n).stg)) = some y) (hz : c.task (keyOf (bindTid (d.slot n).run)) = some z) :
    d.outranked n = true ↔ (∃ m, c.readyListOf y = .contract m) ∧ ∃ v p, c.readyListOf z = .bestEffort v p := by
  obtain ⟨y', hy', ly⟩ := h.readyListOf hy
  obtain ⟨z', hz', lz⟩ := h.readyListOf hz
  unfold Sched.outranked
  dsimp only
  rw [hv, hy', hz', Option.any_some, Option.any_some, Bool.true_and, Bool.and_eq_true, decide_eq_true_iff, decide_eq_true_iff, ← ly, ← lz]
  have hcontract : d.readyListOf y' = .contract (d.contractOf y') ↔ ∃ m, d.readyListOf y' = .contract m := by
    refine ⟨fun h => ⟨_, h⟩, fun ⟨m, h⟩ => ?_⟩
    unfold Sched.readyListOf at h ⊢
    split at h
    · simp at h
    · next h1 =>
      rw [if_neg h1]
      split at h
      · next h2 => rw [if_pos h2]
      · simp at h
  have hbest : d.readyListOf z' = .bestEffort z'.key.vdev (recPrio z'.image) ↔ ∃ v p, d.readyListOf z' = .bestEffort v p := by
    refine ⟨fun h => ⟨_, _, h⟩, fun ⟨v, p, h⟩ => ?_⟩
    unfold Sched.readyListOf at h ⊢
    split at h
    · simp at h
    · next h1 =>
      rw [if_neg h1]
      split at h
      · simp at h
      · next h2 => rw [if_neg h2]
  rw [hcontract, hbest]

/-- The state once Mason has staged its choice. -/
def State.swapped (s : State) (c : Nat) (r : BitVec 256) (d : Sched) : State :=
  (({ s with sched := d }.withdraw c).stage c r).mapSched fun d => if d.outranked c then d.preempt c false else d

/-- What STG_SWAP leaves where Mason chooses record r (R362, R366, R367, R383). -/
theorem State.swapped_spec {s : State} {c : Nat} {r : BitVec 256} {d : Sched} {y : Task} (hr : bindValid r = true)
    (hy : d.task (keyOf (bindTid r)) = some y) (hd : d.slots = s.sched.slots) : let u := s.swapped c r d
    (u.sched.slot c).stg = r ∧ (u.sched.slot c).run = (s.sched.slot c).run ∧ u.InState (keyOf (bindTid r)) .bound ∧
      (∀ l ∈ u.sched.lists, l.2 ≠ keyOf (bindTid r)) ∧ u.core = s.core ∧
      ∀ z, d.task (keyOf (bindTid (s.sched.slot c).run)) = some z → bindValid (s.sched.slot c).run = true → (s.sched.slot c).dcmd = 0 →
        ((u.sched.slot c).dcmd ≠ 0 ↔ (∃ n, d.readyListOf y = .contract n) ∧ ∃ v p, d.readyListOf z = .bestEffort v p) := by
  have hslot : d.slot c = s.sched.slot c := Sched.slot_of_slots hd c
  obtain ⟨wc, wk, wr, wd⟩ := ({ s with sched := d } : State).withdraw_kept c
  obtain ⟨y', hy', -⟩ := wk.2 _ y hy
  obtain ⟨vc, vk, vs, vb, vl⟩ := State.stage_spec (n := c) hy'
  unfold State.swapped
  generalize hv : (({ s with sched := d } : State).withdraw c).stage c r = v at *
  have hrun : (v.sched.slot c).run = (s.sched.slot c).run := by rw [vs, ← hslot]; exact wr
  have hdcmd : (v.sched.slot c).dcmd = (s.sched.slot c).dcmd := by rw [vs, ← hslot]; exact wd
  have hstg : (v.sched.slot c).stg = r := by rw [vs]
  have hout (z : Task) (hz : d.task (keyOf (bindTid (s.sched.slot c).run)) = some z) :=
    Sched.outranked_iff (wk.trans vk) (n := c) (y := y) (z := z) (by rw [hstg, hr]) (by rw [hstg]; exact hy) (by rw [hrun]; exact hz)
  have hcore : v.core = s.core := vc.trans wc
  cases ho : v.sched.outranked c with
  | true =>
    have hu : (v.mapSched fun d => if d.outranked c then d.preempt c false else d) = v.mapSched fun d => d.preempt c false :=
      congrArg (fun e => { v with sched := e }) (if_pos ho)
    rw [hu]
    dsimp only
    rw [State.mapSched_sched]
    have hs : ((v.sched.preempt c false).slot c) = (v.sched.slot c).asked false := (Sched.slot_preempt ..).trans (if_pos rfl)
    refine ⟨by rw [hs, Slot.asked_stg, hstg], by rw [hs, Slot.asked_run, hrun], ?_, ?_, hcore, fun z hz hrv h0 => ?_⟩
    · obtain ⟨t, ht, hst⟩ := vb
      exact ⟨t, (Sched.task_preempt ..).trans ht, hst⟩
    · rw [Sched.preempt_frame]; exact vl
    · rw [← hout z hz, ho, hs, Slot.asked, if_pos ⟨by rw [hrun]; exact hrv, by rw [hdcmd]; exact h0⟩]
      simp
  | false =>
    have hu : (v.mapSched fun d => if d.outranked c then d.preempt c false else d) = v :=
      congrArg (fun e => { v with sched := e }) (if_neg (ho ▸ Bool.false_ne_true))
    rw [hu]
    refine ⟨hstg, hrun, vb, vl, hcore, fun z hz hrv h0 => ?_⟩
    rw [← hout z hz, ho, hdcmd, h0]
    simp

section
variable {s : State} {c : Nat} (hc : c < 224)
include hc

theorem stgSwap_back : exec (.stgSwap c true) s = .next (s.withdraw c) :=
  congrArg Host.Outcome.next ((if_neg (Nat.not_le.2 hc)).trans (if_pos rfl))

theorem stgSwap_displaced (h : s.sched.Displaced c) : exec (.stgSwap c false) s = .next (s.mapSched fun d => d.preempt c false) :=
  congrArg Host.Outcome.next
    ((if_neg (Nat.not_le.2 hc)).trans ((if_neg Bool.false_ne_true).trans (if_pos ((s.sched.displaced_iff c).2 h))))

theorem stgSwap_choose (h : ¬ s.sched.Displaced c) : exec (.stgSwap c false) s = .next (match s.choose c with
    | none => s
    | some (r, d) => s.swapped c r d) :=
  congrArg Host.Outcome.next
    ((if_neg (Nat.not_le.2 hc)).trans ((if_neg Bool.false_ne_true).trans (if_neg fun x => h ((s.sched.displaced_iff c).1 x))))

end

end Sys2Proof.Machine
end

section
/-! Settled: O50, by the rules for each of Mason's events. -/

namespace Sys2Proof.Machine

/-- The task of a record is named by the bits that R359 gives. -/
theorem keyOf_bindTid (r : BitVec 256) : keyOf (field r 40 0) = keyOf (bindTid r) := by rw [bindTid_eq]

/-- TASK_BIND (R14, R359, R395). -/
theorem taskBind_spec {s : State} {c : Nat} {k : TaskKey} {y : Task} (hc : c < 224) (hs : bindValid (s.sched.slot c).stg = true)
    (hr : bindValid (s.sched.slot c).run = false) (hk : keyOf (bindTid (s.sched.slot c).stg) = k) (hy : s.sched.task k = some y) :
    ∃ u : State, exec (.taskBind c) s = .next u ∧ u.InState k .running ∧ (u.sched.slot c).run = (s.sched.slot c).stg ∧
      (u.sched.slot c).stg = 0 ∧ (u.sched.slot c).dcmd = 0 ∧
      u.coreAt c = s.boundCore (s.sched.slot c).stg y (s.coreAt c) := by
  subst hk
  exact ⟨_, congrArg Host.Outcome.next (if_pos ⟨hc, hs, by simp [hr]⟩), State.bind_spec hy hc⟩

theorem taskBind_idle {s : State} {c : Nat}
    (h : ¬ (c < 224 ∧ bindValid (s.sched.slot c).stg = true ∧ bindValid (s.sched.slot c).run = false)) :
    exec (.taskBind c) s = .next s :=
  congrArg Host.Outcome.next (if_neg fun ⟨hc, hs, hr⟩ => h ⟨hc, hs, by simpa using hr⟩)

theorem preemptSave_idle {s : State} {c : Nat} (h : (s.sched.slot c).dcmd = 0) : exec (.preemptSave c) s = .next s := by
  show execPreemptSave c s = _
  unfold execPreemptSave
  exact congrArg Host.Outcome.next (if_neg fun ⟨_, hd⟩ => hd h)

theorem State.boundCore_bound (s : State) (r : BitVec 256) (t : Task) (c : Core) : (s.boundCore r t c).Bound r :=
  Core.bindRegs_bound _ r

/-- Each window that a wait of a parked task needs is among its counts (R363). -/
theorem State.waitNeeds_mem (s : State) (c : Nat) (q : SeqId) {x : Nat × Nat} (h : x ∈ s.waitNeeds c q) :
    x ∈ s.waitNeeds c .main ++ s.waitNeeds c .matrix := by
  cases q with
  | main => exact List.mem_append_left _ h
  | matrix => exact List.mem_append_right _ h


/-- Settles O50, by the rule of each event: the state that it leaves, read field by field. -/
theorem bindAndSave : Obligations.BindAndSave := by
  unfold Obligations.BindAndSave
  refine ⟨fun s c => ?bind, fun s c ctx foot hm => s.saveContext_savedAt c ctx foot hm, fun s c => ?preempt, fun s c => ?budget,
    fun s c => ?park, fun s k y hy => barrierParkWake_spec hy, fun s c hc => ?swap, fun s c hc => ?choose⟩
  case bind =>
    refine ⟨taskBind_idle, fun hc hs hr k y hk hy => ?_⟩
    have hkey := Sched.task_key hy
    obtain ⟨u, hu, hstate, hrun, hstg, hdcmd, hcore⟩ := taskBind_spec hc hs hr (hk.trans (keyOf_bindTid _)).symm hy
    refine ⟨u, hu, hstate, hrun, hstg, hdcmd, ?_, fun hsaved => ?_, fun hsaved => ?_⟩ <;> rw [hcore]
    · exact s.boundCore_bound _ y _
    · exact hkey ▸ s.boundCore_starts _ _ hsaved
    · exact bindCtx_eq (s.sched.slot c).stg ▸ s.boundCore_restored _ _ hsaved
  case preempt =>
    refine ⟨preemptSave_idle, fun y hc hd hr hy => ?_⟩
    obtain ⟨u, hu, h⟩ := preemptSave_unbound (keyOf_bindTid _).symm hc hd hr hy
    have hlists := h.lists rfl
    refine ⟨u, hu, h.task, h.vacant, h.dcmd, fun ht => ?_, fun ht => ?_, h.others⟩ <;> rw [hlists, ht]
    · exact List.getLast?_concat
    · rfl
  case budget =>
    exact ⟨budgetEnd_idle, fun hc hv hb h0 hd => budgetEnd_spec hc hv hb h0 hd⟩
  case park =>
    refine ⟨barrierPark_idle, fun hc hr hs ⟨y, hy⟩ hmain hmatrix hb => ?_⟩
    rw [keyOf_bindTid] at hy hmain hmatrix ⊢
    have hmay : s.MayPark c := by
      refine State.mayPark_of_long hc hr hs ?_ ?_
      · simpa using ⟨hmain, hmatrix⟩
      · simpa using hb
    obtain ⟨z, hvacant, hz, hstate, hneeds⟩ := State.barrierParked_spec rfl hc hr hy
    refine ⟨_, z, barrierPark_eq hmay, hvacant, hz, hstate, fun q => ⟨fun a b hw => ?_, fun a hw => ?_⟩⟩ <;>
      refine hneeds ▸ s.waitNeeds_mem c q ?_
    · exact State.waitNeeds_barwait hw
    · exact State.waitNeeds_chained hw
  case swap =>
    refine ⟨fun h => ?_, fun h hn => ?_, fun h r d hd hr ⟨y, hy⟩ hslots => ?_, fun hv => ?_, fun y hv hy => ?_, dcmdPre_spec s hc⟩
    · refine ⟨_, stgSwap_displaced hc h, ?_, ?_, fun n hn => ?_⟩
      · exact congrArg (fun e => { s with sched := e }) (Sched.preempt_frame ..)
      · exact (Sched.slot_preempt ..).trans (if_pos rfl)
      · exact (Sched.slot_preempt ..).trans (if_neg hn)
    · rw [stgSwap_choose hc h, hn]
    · rw [keyOf_bindTid] at hy ⊢
      obtain ⟨hstg, hrun, hstate, hlists, hcore, -⟩ := State.swapped_spec hr hy hslots
      refine ⟨_, by rw [stgSwap_choose hc h, hd], hstg, hrun, hstate, hlists, hcore, fun x z hx hz hv h0 => ?_⟩
      rw [keyOf_bindTid] at hz
      obtain ⟨-, -, -, -, -, hdcmd⟩ := State.swapped_spec hr hx hslots
      exact hdcmd z hz hv h0
    · rw [stgSwap_back hc, State.withdraw_invalid hv]
    · obtain ⟨hstg, hrun, hstate, hlists⟩ := State.withdraw_spec (keyOf_bindTid _).symm hv hy
      exact ⟨_, _, stgSwap_back hc, hstg, hrun, hstate, hlists⟩
  case choose =>
    have hint := s.hinted_iff c
    refine ⟨fun k h => s.choose_system h, fun h hh => State.choose_hinted h (hint.2 hh), (Sched.nextContract_spec _).1,
      (Sched.nextContract_spec _).2, fun h hh => ?_, fun v n e hl => Sched.latest_spec hl, fun d v k hk => Sched.bestOf_spec hk⟩
    have hhint : s.hinted c = false := Bool.eq_false_iff.2 fun x => hint.1 x hh
    refine ⟨fun x k hx ht => State.choose_contract h hhint hx ((s.takes_iff hc).2 ht), fun hx => ?_⟩
    have hfree : s.sched.nextContract = none ∨ s.takes c = false :=
      hx.imp_right fun ht => Bool.eq_false_iff.2 fun x => ht ((s.takes_iff hc).1 x)
    rintro ⟨-, hbest⟩ v d k hr hk
    exact State.choose_best h hhint hfree ((Sched.stagesBest_iff ..).2 hbest) hr hk

end Sys2Proof.Machine
end

section
/-! SUPPORT. The canonical form of memory and the local stores (log 4): what it speaks of, and that every write keeps it. -/

namespace Sys2Proof.Machine

/-- The local stores of unfocused cores are in the canonical form. -/
def StoresWf (l : List (Nat × Core)) : Prop := ∀ x ∈ l, x.2.ls.wf

@[simp] theorem State.inv_mk (c : Core) (n : Nat) (o : List (Nat × Core)) (q : SeqId) (m : MemSys) (v : VerSys) (d : Sched)
    (r : Streams) (io : Io) (ag : List Agent) (tu fr : Nat) :
    (State.mk c n o q m v d r io ag tu fr).Inv ↔ m.mem.wf ∧ c.ls.wf ∧ StoresWf o :=
  ⟨fun h => ⟨h.mem, h.ls, h.others⟩, fun ⟨hm, hl, ho⟩ => ⟨hm, hl, ho⟩⟩

variable {s t : State}

theorem State.inv_iff : s.Inv ↔ s.ms.mem.wf ∧ s.core.ls.wf ∧ StoresWf s.others := State.inv_mk ..

theorem State.Inv.stores (hs : s.Inv) : StoresWf s.others := hs.others

/-- Inv speaks of memory and of the local stores alone. -/
theorem State.inv_congr (hm : t.ms.mem = s.ms.mem) (hl : t.core.ls = s.core.ls) (ho : t.others = s.others) : t.Inv ↔ s.Inv := by
  rw [State.inv_iff, State.inv_iff, hm, hl, ho]

@[simp] theorem State.inv_ite (p : Prop) [Decidable p] : State.Inv (if p then s else t) ↔ if p then s.Inv else t.Inv := by
  split <;> rfl

@[simp] theorem State.mapCtl_inv (f : Ctl → Ctl) : (s.mapCtl f).Inv ↔ s.Inv := State.inv_congr rfl rfl rfl
@[simp] theorem State.mapVer_inv (f : VerSys → VerSys) : (s.mapVer f).Inv ↔ s.Inv := State.inv_congr rfl rfl rfl
@[simp] theorem State.mapSched_inv (f : Sched → Sched) : (s.mapSched f).Inv ↔ s.Inv := State.inv_congr rfl rfl rfl
@[simp] theorem State.mapStr_inv (f : Streams → Streams) : (s.mapStr f).Inv ↔ s.Inv := State.inv_congr rfl rfl rfl
@[simp] theorem State.mapIo_inv (f : Io → Io) : (s.mapIo f).Inv ↔ s.Inv := State.inv_congr rfl rfl rfl
@[simp] theorem State.mapSeq_inv (f : Seq → Seq) : (s.mapSeq f).Inv ↔ s.Inv :=
  State.inv_congr (by simp) (by simp) (by simp)

theorem State.Inv.mapCore {f : Core → Core} (hs : s.Inv) (hf : (f s.core).ls.wf) : (s.mapCore f).Inv := ⟨hs.mem, hf, hs.others⟩
@[simp] theorem State.mapCore_inv {f : Core → Core} (hf : (f s.core).ls = s.core.ls) : (s.mapCore f).Inv ↔ s.Inv :=
  State.inv_congr rfl hf rfl
theorem State.Inv.mapMs {f : MemSys → MemSys} (hs : s.Inv) (hf : (f s.ms).mem.wf) : (s.mapMs f).Inv := ⟨hf, hs.ls, hs.others⟩
@[simp] theorem State.mapMs_inv {f : MemSys → MemSys} (hf : (f s.ms).mem = s.ms.mem) : (s.mapMs f).Inv ↔ s.Inv :=
  State.inv_congr hf rfl rfl

/-- A fold keeps what each of its steps keeps. -/
theorem foldl_keeps {σ α : Type} {P : σ → Prop} {f : σ → α → σ} (hf : ∀ s x, P s → P (f s x)) (xs : List α) {s : σ}
    (hs : P s) : P (xs.foldl f s) :=
  List.foldlRecOn xs f hs fun _ hs x _ => hf _ x hs

@[simp] theorem State.foldl_inv {α : Type} {f : State → α → State} (hf : ∀ s x, (f s x).Inv ↔ s.Inv) (xs : List α) :
    (xs.foldl f s).Inv ↔ s.Inv := by
  induction xs generalizing s with
  | nil => rfl
  | cons x xs ih => rw [List.foldl_cons, ih, hf]

theorem State.Inv.foldl {α : Type} {f : State → α → State} (hf : ∀ s x, s.Inv → (f s x).Inv) (xs : List α) (hs : s.Inv) :
    (xs.foldl f s).Inv := foldl_keeps hf xs hs

/-- The canonical form of what a step answers. -/
def Keeps (r : Result) : Prop := ∀ t, r = .next t → t.Inv

@[simp] theorem keeps_next : Keeps (.next s) ↔ s.Inv := ⟨fun h => h s rfl, fun h t ht => by cases ht; exact h⟩
@[simp] theorem keeps_fault (f : Fault) : Keeps (.fault f) := fun _ h => nomatch h
@[simp] theorem keeps_refused (f : Refusal) : Keeps (.refused f) := fun _ h => nomatch h
@[simp] theorem keeps_ite (p : Prop) [Decidable p] (x y : Result) : Keeps (if p then x else y) ↔ if p then Keeps x else Keeps y := by
  split <;> rfl

/-! ## The memory system -/

section
variable {ms : MemSys}

@[simp] theorem MemSys.writeMasked_wf (hm : ms.mem.wf) (die : Option Nat) (a w v mask : Nat) : (ms.writeMasked die a w v mask).mem.wf :=
  Mem.writeMasked_wf hm ..

@[simp] theorem MemSys.writeBits_wf (hm : ms.mem.wf) (die : Option Nat) (a w v : Nat) : (ms.writeBits die a w v).mem.wf :=
  Mem.writeMasked_wf hm ..

@[simp] theorem MemSys.writeBack_mem (line : Nat) : (ms.writeBack line).mem = ms.mem := rfl
@[simp] theorem MemSys.cleanRange_mem (a w : Nat) : (ms.cleanRange a w).mem = ms.mem := rfl
@[simp] theorem MemSys.refresh_mem (a w : Nat) : (ms.refresh a w).mem = ms.mem := rfl
@[simp] theorem MemSys.dropCached_mem (die : Option Nat) (line : Nat) : (ms.dropCached die line).mem = ms.mem := rfl
@[simp] theorem MemSys.sendHome_mem (die : Nat) (lines : List Nat) : (ms.sendHome die lines).mem = ms.mem := rfl

@[simp] theorem MemSys.dropLine_wf (hm : ms.mem.wf) (die : Option Nat) (line : Nat) : (ms.dropLine die line).mem.wf :=
  foldl_keeps (P := Mem.wf) (fun _ d h => Mem.write_wf h d.addr 1 d.home.toNat) _ hm

@[simp] theorem MemSys.dropRange_wf (hm : ms.mem.wf) (a w : Nat) : (ms.dropRange a w).mem.wf :=
  foldl_keeps (P := fun ms : MemSys => ms.mem.wf) (fun _ l h => MemSys.dropLine_wf h none l) _ hm

@[simp] theorem MemSys.pkMark_wf (hm : ms.mem.wf) (frame : Nat) (blocks : List Nat) (used : Nat) :
    (ms.pkMark frame blocks used).mem.wf :=
  foldl_keeps (P := fun ms : MemSys => ms.mem.wf) (fun _ _ h => MemSys.writeBits_wf h ..) _ hm

@[simp] theorem MemSys.pkInstall_wf (hm : ms.mem.wf) (frame i form size value : Nat) (blocks : List Nat) :
    (ms.pkInstall frame i form size value blocks).mem.wf :=
  MemSys.writeBits_wf (foldl_keeps (P := fun ms : MemSys => ms.mem.wf) (fun _ _ h => MemSys.writeBits_wf h ..) _ hm) ..

@[simp] theorem MemSys.writeChunk_wf (hm : ms.mem.wf) (frame i : Nat) (sectors : List Nat) : (ms.writeChunk frame i sectors).1.mem.wf := by
  rw [MemSys.writeChunk]
  rcases chunkForm sectors with ⟨form, size, value⟩
  dsimp only
  split
  · exact MemSys.pkInstall_wf (MemSys.pkMark_wf hm ..) ..
  · split
    · exact MemSys.pkInstall_wf (MemSys.pkMark_wf hm ..) ..
    · exact MemSys.writeBits_wf (MemSys.pkMark_wf (MemSys.writeBits_wf (MemSys.writeBits_wf hm ..) ..) ..) none ..

/-- What a write into a chunk does: nothing, raw bits, or a new chunk. (The definition is unfolded as a function: at its arguments
the kernel would evaluate the chunk.) -/
theorem MemSys.mergeChunk_cases {frame i off w v mask : Nat} {r : MemSys × Bool} (hr : ms.mergeChunk frame i off w v mask = r) :
    r = (ms, false) ∨ (∃ a, r = (ms.writeMasked none a w v mask, false)) ∨ ∃ sectors, r = ms.writeChunk frame i sectors := by
  obtain ⟨merge, hmerge⟩ : ∃ f, f = MemSys.mergeChunk := ⟨_, rfl⟩
  rw [← hmerge] at hr
  delta MemSys.mergeChunk at hmerge
  subst hmerge
  beta_reduce at hr
  generalize ms.chunk frame i = o at hr
  cases o with
  | none => exact .inl hr.symm
  | some sectors =>
    dsimp only at hr
    split at hr
    · exact .inr (.inl ⟨_, hr.symm⟩)
    · exact .inr (.inr ⟨_, hr.symm⟩)

@[simp] theorem MemSys.mergeChunk_wf (hm : ms.mem.wf) (frame i off w v mask : Nat) : (ms.mergeChunk frame i off w v mask).1.mem.wf := by
  generalize hr : ms.mergeChunk frame i off w v mask = r
  obtain rfl | ⟨a, rfl⟩ | ⟨sectors, rfl⟩ := MemSys.mergeChunk_cases hr
  · exact hm
  · exact MemSys.writeMasked_wf hm ..
  · exact MemSys.writeChunk_wf hm ..

@[simp] theorem MemSys.writeChunks_wf (hm : ms.mem.wf) (frame n off w v mask : Nat) : (ms.writeChunks frame n off w v mask).1.mem.wf := by
  induction n generalizing ms off w v mask with
  | zero => exact hm
  | succ n ih =>
    unfold MemSys.writeChunks
    split
    · exact hm
    · exact ih (MemSys.mergeChunk_wf hm ..) ..

@[simp] theorem MemSys.writePacked_wf (hm : ms.mem.wf) (frame off w v mask : Nat) : (ms.writePacked frame off w v mask).1.mem.wf :=
  MemSys.writeChunks_wf hm ..

@[simp] theorem MemSys.writeLines_wf (hm : ms.mem.wf) (die : Option Nat) (frame off w v mask : Nat) :
    (ms.writeLines die frame off w v mask).1.mem.wf := by
  unfold MemSys.writeLines
  dsimp only
  split
  · exact hm
  · refine MemSys.writePacked_wf ?_ ..
    exact hm

@[simp] theorem MemSys.cleanLine_wf (hm : ms.mem.wf) (line : Nat) : (ms.cleanLine line).1.mem.wf := by
  unfold MemSys.cleanLine
  dsimp only
  split
  · exact hm
  · split
    · refine MemSys.writePacked_wf ?_ ..
      exact hm
    · dsimp only
      refine MemSys.writePacked_wf ?_ ..
      exact hm

@[simp] theorem MemSys.rawWrite_wf (hm : ms.mem.wf) (die : Option Nat) (a w v mask : Nat) : (ms.rawWrite die a w v mask).mem.wf := by
  rw [MemSys.rawWrite_mem]
  exact Mem.writeMasked_wf hm ..

@[simp] theorem MemSys.repack_wf (hm : ms.mem.wf) (frame i : Nat) : (ms.repack frame i).1.mem.wf := by
  rw [MemSys.repack]
  split
  · exact hm
  · split
    · exact hm
    · generalize chunkForm _ = f
      obtain ⟨form, size, value⟩ := f
      dsimp only
      split
      · exact hm
      · exact MemSys.writeBits_wf (MemSys.pkInstall_wf (MemSys.pkMark_wf hm ..) ..) ..

end

/-! ## Writes through segments -/

section
variable {s : State}

@[simp] theorem State.event_inv (type die unit data : Nat) : (s.event type die unit data).Inv ↔ s.Inv := State.inv_congr rfl rfl rfl
@[simp] theorem State.raise_inv (fn vec : Nat) : (s.raise fn vec).Inv ↔ s.Inv := State.inv_congr rfl rfl rfl
@[simp] theorem State.spills_inv (frame : Nat) (chunks : List Nat) : (s.spills frame chunks).Inv ↔ s.Inv :=
  State.foldl_inv (by simp) _

@[simp] theorem State.Inv.writePhys (hs : s.Inv) (k : Option Keep) (a w v mask : Nat) : (s.writePhys k a w v mask).mem.wf := by
  rw [State.writePhys_mem]
  exact Mem.writeMasked_wf hs.mem ..

/-- The same for a part in a packed page too, of which no bit has an address of its own. -/
@[simp] theorem State.Inv.writeSeg_any (hs : s.Inv) (die : Option Keep) (g : Seg) (v mask : Nat) : (s.writeSeg die g v mask).Inv := by
  cases g with
  | packed f o w => exact (State.spills_inv ..).2 ⟨MemSys.writeLines_wf hs.mem .., hs.ls, hs.others⟩
  | ls a w => exact hs.writeSeg die _ v mask (by simp)
  | phys a w => exact hs.writeSeg die _ v mask (by simp)

@[simp] theorem State.Inv.writeSegs (hs : s.Inv) (die : Option Keep) (gs : List Seg) (v mask : Nat) : (s.writeSegs die gs v mask).Inv := by
  induction gs generalizing s v mask with
  | nil => exact hs
  | cons g gs ih => exact ih (hs.writeSeg_any ..) ..

@[simp] theorem State.Inv.store (hs : s.Inv) (die : Option Keep) (gs : List Seg) (w v : Nat) : (s.store die gs w v).Inv :=
  hs.writeSegs ..

end

/-! ## Cores -/

section
variable {s : State}

/-- Each core's local store is in the canonical form. -/
@[simp] theorem State.Inv.coreAt (hs : s.Inv) (n : Nat) : (s.coreAt n).ls.wf := by
  unfold State.coreAt
  split
  · exact hs.ls
  · split
    · next x h => exact hs.others x (List.mem_of_find?_eq_some h)
    · exact ⟨.nil, by simp [Core.reset]⟩

@[simp] theorem State.Inv.focus (hs : s.Inv) (n : Nat) (q : SeqId) : (s.focus n q).Inv := by
  unfold State.focus
  split
  · exact ⟨hs.mem, hs.ls, hs.others⟩
  · refine ⟨hs.mem, hs.coreAt n, fun x hx => ?_⟩
    rcases List.mem_cons.1 hx with rfl | hx
    · exact hs.ls
    · exact hs.others x (List.mem_of_mem_filter hx)

/-- A change of a core that keeps its local store in the canonical form. -/
theorem State.Inv.mapCoreNo (hs : s.Inv) (n : Nat) {f : Core → Core} (hf : (f (s.coreAt n)).ls.wf) : (s.mapCoreNo n f).Inv := by
  unfold State.mapCoreNo
  unfold State.coreAt at hf
  split
  · exact hs
  · split
    · next h => rw [if_pos h] at hf; exact ⟨hs.mem, hf, hs.others⟩
    · next h =>
      rw [if_neg h] at hf
      refine ⟨hs.mem, hs.ls, fun x hx => ?_⟩
      rcases List.mem_cons.1 hx with rfl | hx
      · exact hf
      · exact hs.others x (List.mem_of_mem_filter hx)

/-- A change of a core that leaves its local store as it is. -/
@[simp] theorem State.Inv.mapCoreNo_ls (hs : s.Inv) (n : Nat) {f : Core → Core} (hf : (f (s.coreAt n)).ls = (s.coreAt n).ls) :
    (s.mapCoreNo n f).Inv := hs.mapCoreNo n (hf ▸ hs.coreAt n)

@[simp] theorem Core.idle_ls (c : Core) : c.idle.ls = c.ls := rfl

end

/-! ## The ready unit, graphs and their ends -/

section
variable {s : State}

@[simp] theorem State.Inv.ownerWrite (hs : s.Inv) (vd va w v : Nat) : (s.ownerWrite vd va w v).Inv := by
  unfold State.ownerWrite
  split
  · exact hs
  · exact hs.store ..

@[simp] theorem State.Inv.ownerWords (hs : s.Inv) (vd va : Nat) (xs : List Nat) : (s.ownerWords vd va xs).Inv := by
  induction xs generalizing s va with
  | nil => exact hs
  | cons x xs ih => exact ih (hs.ownerWrite ..) _

@[simp] theorem State.Inv.syncRecord (hs : s.Inv) (t : Task) : (s.syncRecord t).Inv := by
  unfold State.syncRecord
  split
  · exact hs
  · split
    · exact hs
    · exact hs.ownerWords ..

@[simp] theorem State.Inv.setTaskState (hs : s.Inv) (k : TaskKey) (x : TaskState) : (s.setTaskState k x).Inv := by
  unfold State.setTaskState
  split <;> simp [hs]

@[simp] theorem State.Inv.makeReady (hs : s.Inv) (k : TaskKey) (head : Bool) : (s.makeReady k head).Inv := by
  unfold State.makeReady
  split <;> simp [hs]

@[simp] theorem State.Inv.decDeps (hs : s.Inv) (vd gid idx : Nat) : (s.decDeps vd gid idx).Inv := by
  unfold State.decDeps
  dsimp only
  split
  · exact hs
  · simp [hs]

@[simp] theorem State.Inv.wakePool (hs : s.Inv) (vd gid : Nat) : (s.wakePool vd gid).Inv := by
  unfold State.wakePool
  split <;> simp [hs]

@[simp] theorem State.stopGraph_inv (vd gid : Nat) : (s.stopGraph vd gid).Inv ↔ s.Inv := State.inv_congr rfl rfl rfl

@[simp] theorem State.Inv.finishGraph (hs : s.Inv) (vd gid : Nat) : (s.finishGraph vd gid).Inv := by
  unfold State.finishGraph
  split <;> simp [hs]

@[simp] theorem State.Inv.clearCores (hs : s.Inv) (vd gid : Nat) : (s.clearCores vd gid).Inv := by
  refine (State.stopGraph_inv ..).2 ((State.mapSched_inv _).2 (hs.foldl (fun s n hs => ?_) _))
  exact (State.mapSched_inv _).2 (hs.mapCoreNo_ls n rfl)

@[simp] theorem State.Inv.abortGraph (hs : s.Inv) (vd gid code : Nat) (words : List Nat) : (s.abortGraph vd gid code words).Inv := by
  unfold State.abortGraph
  split
  · exact hs
  · refine State.Inv.finishGraph (State.Inv.foldl (fun s t hs => ?_) _ (State.Inv.clearCores ?_ ..)) ..
    · simp [hs]
    · simp [hs]

@[simp] theorem State.Inv.poolLock (hs : s.Inv) (vd gid : Nat) : (s.poolLock vd gid).Inv := by
  unfold State.poolLock
  dsimp only
  split <;> simp [hs]

end

end Sys2Proof.Machine
end

section
/-! SUPPORT. What each operation of the model does to the canonical form: `f_inv` where it touches no bytes, `Inv.f` where it may. -/

namespace Sys2Proof.Machine

section
variable {s : State}

/-! ## The operations of the state -/

@[simp] theorem State.setG_inv (r : BitVec 5) (x : Word) : (s.setG r x).Inv ↔ s.Inv := by simp [State.setG]
@[simp] theorem State.setV_inv (r : Nat) (x : VReg) : (s.setV r x).Inv ↔ s.Inv := State.inv_congr rfl rfl rfl
@[simp] theorem State.setK_inv (r : Nat) (x : VReg) : (s.setK r x).Inv ↔ s.Inv := State.inv_congr rfl rfl rfl
@[simp] theorem State.setLdr_inv (c : RegClass) (n : Nat) : (s.setLdr c n).Inv ↔ s.Inv := by simp [State.setLdr]
@[simp] theorem State.retire_inv (len : Nat) : (s.retire len).Inv ↔ s.Inv := by simp [State.retire]
@[simp] theorem State.jump_inv (target : BitVec 58) : (s.jump target).Inv ↔ s.Inv := by simp [State.jump]
@[simp] theorem State.waitIn_inv (i : Wait) : (s.waitIn i).Inv ↔ s.Inv := by simp [State.waitIn]
@[simp] theorem State.finishG_inv (len : Nat) (d : BitVec 5) (x : Word) :
    (s.finishG len d x).Inv ↔ s.Inv := by simp [State.finishG]

@[simp] theorem State.Inv.endFaulted (hs : s.Inv) : s.endFaulted.Inv :=
  State.Inv.abortGraph (hs.mapCore hs.ls) ..

@[simp] theorem State.Inv.trapAt (hs : s.Inv) (t : Trap) (pc : BitVec 58) : (s.trapAt t pc).Inv := by simp [State.trapAt, hs]
@[simp] theorem State.Inv.trap (hs : s.Inv) (t : Trap) : (s.trap t).Inv := by simp [State.trap, hs]
@[simp] theorem State.Inv.illop (hs : s.Inv) : s.illop.Inv := by simp [State.illop, hs]
@[simp] theorem State.Inv.denied (hs : s.Inv) : s.denied.Inv := by simp [State.denied, hs]

@[simp] theorem State.Inv.orTrap {α : Type} {r : Except Trap α} {f : α → State} (hs : s.Inv) (hf : ∀ x, r = .ok x → (f x).Inv) :
    (s.orTrap r f).Inv := by
  cases r with
  | ok x => exact hf x rfl
  | error t => exact hs.trap t

@[simp] theorem State.Inv.jumpTo (hs : s.Inv) (x : Int) : (s.jumpTo x).Inv := by simp [State.jumpTo, hs]

/-! ## Operands -/

@[simp] theorem State.setEstart_inv (i : Nat) : (s.setEstart i).Inv ↔ s.Inv := State.inv_congr rfl rfl rfl
@[simp] theorem State.orFlags_inv (fl : Nat) : (s.orFlags fl).Inv ↔ s.Inv := State.inv_congr rfl rfl rfl
@[simp] theorem State.orSat_inv (sat : Bool) : (s.orSat sat).Inv ↔ s.Inv := by simp [State.orSat]
@[simp] theorem State.setGroup_inv (r n x : Nat) : (s.setGroup r n x).Inv ↔ s.Inv := State.foldl_inv (by simp) _
@[simp] theorem State.mark_inv (r w : Nat) (is : List Nat) : (s.mark r w is).Inv ↔ s.Inv := State.inv_congr rfl rfl rfl
@[simp] theorem State.putElems_inv (d n w : Nat) (es : List (Nat × Nat)) :
    (s.putElems d n w es).Inv ↔ s.Inv := by simp [State.putElems]
@[simp] theorem State.maskPolicy_inv (d n w : Nat) (off : List Nat) :
    (s.maskPolicy d n w off).Inv ↔ s.Inv := by simp [State.maskPolicy]
@[simp] theorem State.tailPolicy_inv (d n w first : Nat) : (s.tailPolicy d n w first).Inv ↔ s.Inv := by simp [State.tailPolicy]

@[simp] theorem State.Inv.eachElem (hs : s.Inv) (len : Nat) (act : List Nat) (op : Nat → Out)
    (write : State → List (Nat × Nat) → State) (finish : State → State) (hwrite : ∀ y0 y1, y0.Inv → (write y0 y1).Inv)
    (hfinish : ∀ y0, y0.Inv → (finish y0).Inv) :
    (s.eachElem len act op write finish).Inv := by
  unfold State.eachElem
  dsimp only
  (repeat' split) <;> simp [hs, hwrite, hfinish]

@[simp] theorem State.Inv.vecOp (hs : s.Inv) (len : Nat) (d : BitVec 5) (n w : Nat) (k : BitVec 3) (merge : Bool) (op : Nat → Out) :
    (s.vecOp len d n w k merge op).Inv := by simp [State.vecOp, hs]
@[simp] theorem State.putBitsK_inv (d : Nat) (es : List (Nat × Nat)) :
    (s.putBitsK d es).Inv ↔ s.Inv := State.inv_congr rfl rfl rfl
@[simp] theorem State.tailK_inv (d vl : Nat) : (s.tailK d vl).Inv ↔ s.Inv := by simp [State.tailK]
@[simp] theorem State.Inv.maskOp (hs : s.Inv) (len : Nat) (d k : BitVec 3) (op : Nat → Out) :
    (s.maskOp len d k op).Inv := by simp [State.maskOp, hs]

@[simp] theorem State.Inv.compact (hs : s.Inv) {c : RegClass} {f : BitVec 5 → State} (hf : ∀ l, (f l).Inv) :
    (s.compact c f).Inv := by
  unfold State.compact
  split <;> simp [hs, hf]

/-! ## Instructions in flight -/

@[simp] theorem State.landed_inv (fl : Word) : (s.landed fl).Inv ↔ s.Inv := State.inv_congr rfl rfl rfl

@[simp] theorem State.putBack_inv (x : Seen) : (s.putBack x).Inv ↔ s.Inv := by
  unfold State.putBack
  split <;> simp

@[simp] theorem Core.putBuffers_ls {c : Core} (w : BitVec 32) (x : Buffers) : (c.putBuffers w x).ls = c.ls := by
  unfold Core.putBuffers
  (repeat' split) <;> simp

@[simp] theorem State.abandon_inv (x : InFlight) : (s.abandon x).Inv ↔ s.Inv := by
  unfold State.abandon
  split
  · rw [State.mapCore_inv (by simp), State.mapCtl_inv, State.foldl_inv fun _ _ => State.putBack_inv _,
      State.foldl_inv fun _ _ => State.putBack_inv _]
  · rw [State.mapCtl_inv, State.foldl_inv fun _ _ => State.putBack_inv _, State.foldl_inv fun _ _ => State.putBack_inv _]

@[simp] theorem State.stopAt_inv (first : Nat) : (s.stopAt first).Inv ↔ s.Inv := by simp [State.stopAt]

@[simp] theorem State.Inv.pushReplay (hs : s.Inv) (es : List Replay) : (s.pushReplay es).Inv := by
  unfold State.pushReplay
  dsimp only
  (repeat' split) <;> simp [hs]

@[simp] theorem State.giveUp_inv (x : InFlight) : (s.giveUp x).1.Inv ↔ s.Inv := by
  unfold State.giveUp
  (repeat' split) <;> simp

@[simp] theorem State.Inv.stopFlight (hs : s.Inv) : s.stopFlight.Inv := by
  simp only [State.stopFlight, State.mapSeq_inv]
  refine State.Inv.pushReplay (foldl_keeps (P := fun r : State × List Replay × Nat => r.1.Inv) (fun r x hr => ?_) _ hs) _
  (repeat' split) <;> simp [hr]

@[simp] theorem State.Inv.stopWait (hs : s.Inv) : s.stopWait.Inv := by
  unfold State.stopWait
  dsimp only
  (repeat' split) <;> simp [hs]

/-! ## Issue, replay and waits -/

@[simp] theorem State.elapse_inv (n : Nat) : (s.elapse n).Inv ↔ s.Inv := State.inv_congr rfl rfl rfl
@[simp] theorem State.noPolicies_inv : s.noPolicies.Inv ↔ s.Inv := State.inv_congr rfl rfl rfl

theorem bareRun_inv {act : State → Result} (hact : ∀ s, s.Inv → Keeps (act s)) (hs : s.Inv) : (bareRun act s).Inv := by
  unfold bareRun
  split
  · next t h => exact hact s.noPolicies (by simpa using hs) t h
  · exact hs

@[simp] theorem State.noFlags_inv : s.noFlags.Inv ↔ s.Inv := State.inv_congr rfl rfl rfl
@[simp] theorem State.groupAlone_inv (n : Nat) : (s.groupAlone n).Inv ↔ s.Inv := State.inv_congr rfl rfl rfl
@[simp] theorem State.flagsLater_inv {s t : State} : (t.flagsLater s).Inv ↔ t.Inv := State.inv_congr rfl rfl rfl

theorem State.Inv.perform (hs : s.Inv) (len : Nat) {act : State → Result} (hact : ∀ s, s.Inv → Keeps (act s)) :
    Keeps (s.perform len act) := by
  unfold State.perform
  dsimp only
  split
  · simp
  · simp
  · next t h =>
    have ht := hact s hs t h
    split
    · simpa using ht
    · simpa using ht

theorem State.Inv.checked (hs : s.Inv) (len : Nat) {act : State → Result} (hact : ∀ s, s.Inv → Keeps (act s)) :
    Keeps (s.checked len act) := by
  unfold State.checked
  dsimp only
  split
  · split
    · split
      · exact hs.perform len hact
      · simp [hs]
    · exact hs.perform len hact
  · exact State.Inv.perform (by simpa using hs) len hact

@[simp] theorem State.hold_inv : s.hold.Inv ↔ s.Inv := by simp [State.hold]

theorem State.Inv.issue (hs : s.Inv) {m : Meaning} (hm : ∀ w len act, m w len = some act → ∀ s, s.Inv → Keeps (act s)) (w : BitVec 32)
    (len : Nat) :
    Keeps (s.issue m w len) := by
  unfold State.issue
  dsimp only
  split
  · simp [hs]
  · split
    · simp [hs]
    · next act h =>
      split
      · simp [hs]
      · exact State.Inv.checked (by simpa using hs) len (hm w len act h)

@[simp] theorem State.Inv.reopen (hs : s.Inv) : s.reopen.Inv := by
  unfold State.reopen
  split <;> simp [hs]

@[simp] theorem State.atReplay_inv (e : Replay) : (s.atReplay e).Inv ↔ s.Inv := by simp [State.atReplay]

@[simp] theorem State.afterReplay_inv {s u : State} (rest : List Replay) : (s.afterReplay u rest).Inv ↔ u.Inv := by
  simp [State.afterReplay]

theorem State.Inv.replayWith (hs : s.Inv) (e : Replay) (rest : List Replay) {act : State → Result} (hact : ∀ s, s.Inv → Keeps (act s)) :
    Keeps (s.replayWith e rest act) := by
  unfold State.replayWith
  dsimp only
  split
  · simp
  · simp
  · next u h =>
    have hu := State.Inv.perform (s := s.atReplay e) (by simpa using hs) e.len hact u h
    split
    · simpa using hu
    · split <;> simp [hu]

theorem State.Inv.replayStep (hs : s.Inv) {m : Meaning} (hm : ∀ w len act, m w len = some act → ∀ s, s.Inv → Keeps (act s))
    (e : Replay) (rest : List Replay) :
    Keeps (s.replayStep m e rest) := by
  unfold State.replayStep
  split
  · simp [hs]
  · next act h =>
    dsimp only
    split
    · simp [hs]
    · exact State.Inv.replayWith (by simpa using hs) e rest (hm _ _ _ h)

theorem State.Inv.again (hs : s.Inv) {act : State → Result} (hact : ∀ s, s.Inv → Keeps (act s)) : Keeps (s.again act) := by
  unfold State.again
  split
  · exact hs.replayWith _ _ hact
  · exact hs.perform 32 hact

theorem State.Inv.wake (hs : s.Inv) (c : Nat) (q : SeqId) {act : State → State} (hact : ∀ s, s.Inv → (act s).Inv) :
    (s.wake c q act).Inv := by
  unfold State.wake
  split
  · exact hs
  · split
    · next t h =>
      split
      · exact hs
      · exact (hs.focus c q).again (fun s hs => keeps_next.2 (hact s hs)) t h
    · exact hs

/-! ## Scalar instructions -/

@[simp] theorem State.op2_inv (len : Nat) (d a b : BitVec 5) (f : Word → Word → Word) :
    (s.op2 len d a b f).Inv ↔ s.Inv := by simp [State.op2]
@[simp] theorem State.op1_inv (len : Nat) (d a : BitVec 5) (f : Word → Word) :
    (s.op1 len d a f).Inv ↔ s.Inv := by simp [State.op1]

/-! ## Integer vector instructions -/

@[simp] theorem State.Inv.vecSame (hs : s.Inv) (len : Nat) (d a : BitVec 5) (b : VSrc) (k : BitVec 3) (op : Nat → Nat → Nat → Out) :
    (s.vecSame len d a b k op).Inv := by simp [State.vecSame, hs]
@[simp] theorem State.Inv.vecWide (hs : s.Inv) (d a : BitVec 5) (b : VSrc) (k : BitVec 3) (op : Nat → Nat → Nat → Out) :
    (s.vecWide d a b k op).Inv := by simp [State.vecWide, hs]
@[simp] theorem State.Inv.vecNarrow (hs : s.Inv) (d a : BitVec 5) (b : VSrc) (k : BitVec 3) (op : Nat → Nat → Out) :
    (s.vecNarrow d a b k op).Inv := by simp [State.vecNarrow, hs]
@[simp] theorem State.Inv.vecCmp (hs : s.Inv) (d : BitVec 3) (a : BitVec 5) (b : VSrc) (c k : BitVec 3) :
    (s.vecCmp d a b c k).Inv := by simp [State.vecCmp, hs]
@[simp] theorem State.Inv.vecMerge (hs : s.Inv) (d a : BitVec 5) (b : VSrc) (k : BitVec 3) :
    (s.vecMerge d a b k).Inv := by simp [State.vecMerge, hs]
@[simp] theorem State.Inv.vecMv (hs : s.Inv) (d : BitVec 5) (b : VSrc) (k : BitVec 3) :
    (s.vecMv d b k).Inv := by simp [State.vecMv, hs]

/-! ## Scalar accesses -/

@[simp] theorem MemSys.writeThrough_mem {ms : MemSys} (a w mask : Nat) : (ms.writeThrough a w mask).mem = ms.mem := rfl

@[simp] theorem State.Inv.dropSegs (hs : s.Inv) (segs : List Seg) : (s.dropSegs segs).Inv := by
  refine hs.foldl (fun s g hs => ?_) segs
  split
  · exact hs.mapMs (foldl_keeps (P := fun ms : MemSys => ms.mem.wf) (fun _ _ h => MemSys.dropLine_wf h ..) _ hs.mem)
  · exact hs.mapMs (foldl_keeps (P := fun ms : MemSys => ms.mem.wf) (fun ms l h => (congrArg Mem.wf (ms.dropCached_mem _ l)).mpr h) _ hs.mem)
  · exact hs

@[simp] theorem State.Inv.throughSegs (hs : s.Inv) (segs : List Seg) : (s.throughSegs segs).Inv := by
  refine hs.foldl (fun s g hs => ?_) segs
  split
  · exact hs.mapMs hs.mem
  · exact (State.spills_inv ..).2 ⟨MemSys.writePacked_wf hs.mem .., hs.ls, hs.others⟩
  · exact hs

@[simp] theorem State.Inv.loadHint (hs : s.Inv) (h : BitVec 3) (segs : List Seg) :
    (s.loadHint h segs).Inv := by simp [State.loadHint, hs]

@[simp] theorem State.Inv.storeHint (hs : s.Inv) (h : BitVec 3) (segs : List Seg) (v mask : Nat) :
    (s.storeHint h segs v mask).Inv := by
  have hw := hs.writeSegs s.via.die segs v mask
  unfold State.storeHint
  dsimp only
  split
  · exact (hw.throughSegs segs).dropSegs segs
  · exact hw

@[simp] theorem State.Inv.loadWith (hs : s.Inv) (d a b : BitVec 5) (sx : BitVec 1) (w : Nat) (h : BitVec 3) (c : Class)
    (read : List Seg → Nat) :
    (s.loadWith d a b sx w h c read).Inv :=
  hs.orTrap fun _ _ => hs.orTrap fun _ _ => by simp [hs]

@[simp] theorem State.setE_inv (n : Nat) (x : BitVec 128) : (s.setE n x).Inv ↔ s.Inv := State.inv_congr rfl rfl rfl
@[simp] theorem State.Inv.extr (hs : s.Inv) (d b : BitVec 5) (f : BitVec 128 → Nat) :
    (s.extr d b f).Inv := by simp [State.extr, hs]

/-! ## Vector accesses -/

@[simp] theorem State.putFields_inv (d : BitVec 5) (nf : Nat) (es : List (Nat × List Nat)) :
    (s.putFields d nf es).Inv ↔ s.Inv := by simp [State.putFields]
@[simp] theorem State.finishLoad_inv (d : BitVec 5) (nf : Nat) (off : List Nat) :
    (s.finishLoad d nf off).Inv ↔ s.Inv := by simp [State.finishLoad]

@[simp] theorem State.Inv.vload (hs : s.Inv) (d : BitVec 5) (k h : BitVec 3) (x : VAccess) (ff : Bool) (read : List Seg → Nat) :
    (s.vload d k h x ff read).Inv := by
  unfold State.vload
  (repeat' split) <;> simp [hs]

@[simp] theorem State.Inv.vstore (hs : s.Inv) (d : BitVec 5) (k h : BitVec 3) (x : VAccess) : (s.vstore d k h x).Inv := by
  have hw (data : List (List Seg × Nat × Bool)) := hs.foldl (f := fun t (y : List Seg × Nat × Bool) =>
    t.writeSegs s.via.die y.1 y.2.1 (2 ^ vtW s.vt - 1)) (fun _ _ ht => ht.writeSegs ..) data
  unfold State.vstore
  dsimp only
  split
  · split <;> simp [hw]
  · split
    · exact State.Inv.trap ((State.setEstart_inv _).2 <| ((((State.orSat_inv _).2 (hw _)).throughSegs _).dropSegs _)) _
    · exact State.Inv.trap ((State.setEstart_inv _).2 <| (State.orSat_inv _).2 (hw _)) _

@[simp] theorem State.Inv.under (hs : s.Inv) (c : Chain) (f : State → State) (hf : ∀ y0, y0.Inv → (f y0).Inv) :
    (s.under c f).Inv := by simp [State.under, hs, hf]
@[simp] theorem State.Inv.chainPut (hs : s.Inv) (c : Chain) (es : List (Nat × List Seg × Nat)) :
    (s.chainPut c es).Inv := by simp [State.chainPut, hs]
@[simp] theorem State.Inv.chainPolicies (hs : s.Inv) (c : Chain) : (s.chainPolicies c).Inv := by simp [State.chainPolicies, hs]
@[simp] theorem State.beginChain_inv (c : Chain) (i : Nat) : (s.beginChain c i).Inv ↔ s.Inv := by simp [State.beginChain]

@[simp] theorem State.Inv.chainGo (hs : s.Inv) (c : Chain) : (s.chainGo c).Inv := by
  unfold State.chainGo
  dsimp only
  (repeat' split) <;> simp [hs]

@[simp] theorem State.Inv.chainedLoad (hs : s.Inv) (d a : BitVec 5) (k : BitVec 3) :
    (s.chainedLoad d a k).Inv := by simp [State.chainedLoad, hs]

@[simp] theorem State.Inv.chainStep (hs : s.Inv) (x : InFlight) (c : Chain) : (s.chainStep x c).1.Inv := by
  unfold State.chainStep
  dsimp only
  (repeat' split) <;> simp [hs]

@[simp] theorem State.Inv.chains (hs : s.Inv) : s.chains.Inv := by
  have h : (s.seq.inFlight.foldl (fun (r : State × List InFlight) x =>
      match x.chain with
      | none => (r.1, r.2 ++ [x])
      | some c => ((r.1.chainStep x c).1, r.2 ++ (r.1.chainStep x c).2.toList)) (s, [])).1.Inv := by
    refine foldl_keeps (P := fun r : State × List InFlight => r.1.Inv) (fun r x hr => ?_) _ hs
    split <;> simp [hr]
  unfold State.chains
  dsimp only
  split
  · exact (State.mapSeq_inv _).2 h
  · exact hs

/-! ## Atomics, guards and windows -/

@[simp] theorem State.Inv.atomic (hs : s.Inv) (segs : List Seg) (w : Nat) (f : Nat → Option Nat) : (s.atomic segs w f).Inv := by
  unfold State.atomic
  split <;> simp [hs]

@[simp] theorem State.Inv.amo (hs : s.Inv) (d a : BitVec 5) (w : Nat) (f : Nat → Option Nat) :
    (s.amo d a w f).Inv := by simp [State.amo, hs]

@[simp] theorem State.Inv.vamo (hs : s.Inv) (d a b : BitVec 5) (op : Nat) (k : BitVec 3) : (s.vamo d a b op k).Inv := by
  unfold State.vamo
  dsimp only
  split
  · exact hs.illop
  · have h (good : List (Nat × List (List Seg))) (f : Option Fmt) (w x : Nat) :=
      foldl_keeps (P := fun r : State × List (Nat × Nat) => r.1.Inv) (f := fun (r : State × List (Nat × Nat)) e =>
        (r.1.atomic e.2.flatten w fun m => some (vamoOp op w f m (elem x w e.1)), (e.1, r.1.readSegs e.2.flatten) :: r.2))
        (fun r x hr => by dsimp only; exact hr.atomic ..) good (s := (s, [])) hs
    split <;> simp [h]

@[simp] theorem State.Inv.faas (hs : s.Inv) (d a : BitVec 5) (k : BitVec 3) : (s.faas d a k).Inv := by simp [State.faas, hs]
@[simp] theorem State.Inv.acq (hs : s.Inv) (d a b : BitVec 5) : (s.acq d a b).Inv := by simp [State.acq, hs]
@[simp] theorem State.Inv.wfe (hs : s.Inv) (d a b : BitVec 5) : (s.wfe d a b).Inv := by simp [State.wfe, hs]
@[simp] theorem Core.putBlock_wf {c : Core} (hc : c.ls.wf) (n b : Nat) : (c.putBlock n b).ls.wf := Mem.writeBits_wf hc ..
@[simp] theorem State.Inv.barwait (hs : s.Inv) (a b : BitVec 5) : (s.barwait a b).Inv := by simp [State.barwait, hs]

@[simp] theorem State.Inv.barrel (hs : s.Inv) (a b : BitVec 5) : (s.barrel a b).Inv := by
  refine hs.orTrap fun x _ => ?_
  dsimp only
  split
  · simp [hs]
  · split
    · exact hs.trap _
    · exact (State.retire_inv _).2 (hs.mapCore (Core.putBlock_wf hs.ls ..))

/-! ## Branches, loops and rendezvous -/

@[simp] theorem State.Inv.branch (hs : s.Inv) (a b : BitVec 5) (o : BitVec 12) (taken : Word → Word → Bool) :
    (s.branch a b o taken).Inv := by simp [State.branch, hs]
@[simp] theorem State.Inv.openLoop (hs : s.Inv) (n : Word) (e : BitVec 11) : (s.openLoop n e).Inv := by simp [State.openLoop, hs]
@[simp] theorem State.Inv.fork (hs : s.Inv) (target : Int) : (s.fork target).Inv := by simp [State.fork, hs]

@[simp] theorem State.Inv.completeRdv (hs : s.Inv) : s.completeRdv.Inv := by
  unfold State.completeRdv
  dsimp only
  (repeat' split) <;> simp [hs]

@[simp] theorem State.Inv.rdv (hs : s.Inv) (ends : Bool) : (s.rdv ends).Inv := by simp [State.rdv, hs]

/-! ## Matrix instructions -/

@[simp] theorem State.putMstat_inv (hi lo v : Nat) : (s.putMstat hi lo v).Inv ↔ s.Inv := State.inv_congr rfl rfl rfl
@[simp] theorem State.setTile_inv (d : BitVec 3) (x : Nat) : (s.setTile d x).Inv ↔ s.Inv := State.inv_congr rfl rfl rfl
@[simp] theorem State.Inv.onTile {f : State} (hs : s.Inv) (hf : f.Inv) (d : BitVec 3) :
    (s.onTile d f).Inv := by simp [State.onTile, hs, hf]
@[simp] theorem State.Inv.loadA (hs : s.Inv) (a b : BitVec 5) (f : Nat) : (s.loadA a b f).Inv := by simp [State.loadA, hs]
@[simp] theorem State.Inv.loadB (hs : s.Inv) (a : BitVec 5) (wf : Nat) (u : Bool) :
    (s.loadB a wf u).Inv := by simp [State.loadB, hs]
@[simp] theorem State.Inv.mma (hs : s.Inv) (d : BitVec 3) : (s.mma d).Inv := by simp [State.mma, hs]
@[simp] theorem State.Inv.rescale (hs : s.Inv) (d : BitVec 3) (a : BitVec 5) (whole : Bool) :
    (s.rescale d a whole).Inv := by simp [State.rescale, hs]

@[simp] theorem State.Inv.storeTileElems (hs : s.Inv) (d : BitVec 3) (a : BitVec 5) (f n : Nat) :
    (s.storeTileElems d a f n).1.Inv := by
  unfold State.storeTileElems
  dsimp only
  rw [State.orFlags_inv]
  exact hs.foldl (fun _ _ h => h.store ..) _

@[simp] theorem State.Inv.storeTile (hs : s.Inv) (d : BitVec 3) (a b : BitVec 5) (f : Nat) : (s.storeTile d a b f).Inv := by
  have h := hs.storeTileElems d a f (64 * s.storedRows b)
  unfold State.storeTile
  split
  · exact hs.illop
  · split
    · next u hu => rw [hu] at h; simpa using h
    · next u e hu => rw [hu] at h; exact h.trap e

/-! ## Control registers -/

@[simp] theorem Core.stageExtent_ls {c : Core} (n : Nat) (v : Word) : (c.stageExtent n v).ls = c.ls := by
  unfold Core.stageExtent
  (repeat' split) <;> simp

@[simp] theorem Core.installExtent_ls {c : Core} (n : Nat) (v : Word) : (c.installExtent n v).ls = c.ls := by
  unfold Core.installExtent
  (repeat' split) <;> simp

theorem State.Inv.ctlStore (hs : s.Inv) (a : Nat) (v : Word) : ∀ t, s.ctlStore a v = .ok t → t.Inv := by
  intro t ht
  unfold State.ctlStore at ht
  split at ht
  · nomatch ht
  · split at ht
    · split at ht
      · nomatch ht
      · cases ht; simpa using hs
    · split at ht
      · cases ht
        refine (State.mapCore_inv ?_).2 hs
        split <;> simp
      · cases ht; simpa using hs

theorem State.Inv.ctlWrite (hs : s.Inv) (a : Nat) (v : Word) : ∀ t, s.ctlWrite a v = .ok t → t.Inv := by
  intro t ht
  unfold State.ctlWrite at ht
  split at ht
  · nomatch ht
  · exact hs.ctlStore a v t ht

@[simp] theorem State.Inv.ctl (hs : s.Inv) (d : BitVec 5) (r : BitVec 12) (x : Word) (f : Word → Word → Word) :
    (s.ctl d r x f).Inv := by
  unfold State.ctl
  split
  · exact hs.illop
  · exact hs.orTrap fun t ht => by simpa using hs.ctlWrite _ _ t ht

/-! ## Binding and saving -/

@[simp] theorem State.Inv.saveContext (hs : s.Inv) (c : Core) (ctx foot : Nat) : (s.saveContext c ctx foot).Inv :=
  hs.foldl (fun _ _ h => h.mapMs (MemSys.writeBits_wf h.mem ..)) _

@[simp] theorem localStore_wf (foot x blocks : Nat) : (localStore foot x blocks).wf :=
  Mem.writeBits_wf (Mem.writeBits_wf ⟨.nil, by simp⟩ ..) ..

@[simp] theorem State.restoreContext_wf (s : State) (c : Core) (ctx : Nat) (t : Task) :
    (s.restoreContext c ctx t).ls.wf := localStore_wf ..
@[simp] theorem State.startContext_wf (s : State) (c : Core) (t : Task) : (s.startContext c t).ls.wf := localStore_wf ..
@[simp] theorem Core.bindRegs_ls {c : Core} (r : BitVec 256) : (c.bindRegs r).ls = c.ls := rfl

@[simp] theorem State.Inv.bind (hs : s.Inv) (n : Nat) (r : BitVec 256) : (s.bind n r).Inv := by
  rw [State.bind]
  split
  · exact hs
  · refine State.Inv.setTaskState ((State.mapSched_inv _).2 ((State.mapSched_inv _).2 (hs.mapCoreNo n ?_))) ..
    dsimp only
    rw [Core.bindRegs_ls]
    split
    · exact State.restoreContext_wf ..
    · exact State.startContext_wf ..

@[simp] theorem State.Inv.stopCore (hs : s.Inv) (n : Nat) : (s.stopCore n).Inv := by
  have one (t : State) (q : SeqId) (ht : t.Inv) : (((t.focus n q).stopWait.stopFlight).mapSeq Seq.stopped).Inv :=
    (State.mapSeq_inv _).2 (ht.focus n q).stopWait.stopFlight
  exact (one _ .matrix (one s .main hs)).focus ..

@[simp] theorem State.Inv.unbind (hs : s.Inv) (n : Nat) (x : TaskState) (head : Bool) : (s.unbind n x head).Inv := by
  unfold State.unbind
  dsimp only
  split
  · exact hs
  · next t _ =>
    have hsave := (hs.stopCore n).saveContext ((s.stopCore n).coreAt n) (bindCtx (s.sched.slot n).run) (recFoot t.image)
    have hidle := hsave.mapCoreNo n (f := fun _ => ((s.stopCore n).coreAt n).idle) ((hs.stopCore n).coreAt n)
    split
    · exact hs
    · simp [hidle]

@[simp] theorem State.Inv.park (hs : s.Inv) (toState : TaskState) : (s.park toState).Inv := by simp [State.park, hs]

/-! ## System instructions and maintenance -/

@[simp] theorem State.Inv.eret (hs : s.Inv) : s.eret.Inv := by
  unfold State.eret
  (repeat' split) <;> simp [hs]

@[simp] theorem State.Inv.ifPrivileged {f : State} (hs : s.Inv) (hf : f.Inv) :
    (s.ifPrivileged f).Inv := by simp [State.ifPrivileged, hs, hf]
@[simp] theorem State.shootdown_inv (asid page : Option Nat) : (s.shootdown asid page).Inv ↔ s.Inv := by simp [State.shootdown]

@[simp] theorem State.Inv.cleanLine (hs : s.Inv) (l : Nat) : (s.cleanLine l).Inv := by
  unfold State.cleanLine
  split
  · exact hs
  · exact (State.spills_inv ..).2 ⟨MemSys.cleanLine_wf hs.mem l, hs.ls, hs.others⟩

@[simp] theorem State.Inv.cleanPacked (hs : s.Inv) (f o w : Nat) : (s.cleanPacked f o w).Inv :=
  hs.foldl (fun _ l h => h.cleanLine l) _

/-- A maintenance of lines that keeps the canonical form. -/
def LineAct.KeepsInv (act : LineAct) : Prop := ∀ s g, s.Inv → (act s g).Inv

theorem cleanLines_keepsInv : LineAct.KeepsInv cleanLines := by
  intro s g hs
  cases g with
  | phys a w => exact (State.mapMs_inv (f := fun ms => ms.cleanRange a w) rfl).2 hs
  | packed f o w => exact hs.cleanPacked f o w
  | ls a w => exact hs

theorem invalidateLines_keepsInv : LineAct.KeepsInv invalidateLines := by
  intro s g hs
  have h := cleanLines_keepsInv s g hs
  cases g with
  | phys a w => exact (State.mapMs_inv (f := fun ms => ms.refresh a w) rfl).2 h
  | packed f o w => exact h
  | ls a w => exact h

theorem dropLines_keepsInv : LineAct.KeepsInv dropLines := by
  intro s g hs
  cases g with
  | phys a w => exact hs.mapMs (f := fun ms => (ms.dropRange a w).refresh a w) (MemSys.dropRange_wf hs.mem a w)
  | packed f o w =>
    refine hs.mapMs (f := fun ms => (linesOf (f + o) w).foldl (fun ms l => ms.dropCached none l) ms) ?_
    exact foldl_keeps (P := fun ms : MemSys => ms.mem.wf) (fun ms l h => (congrArg Mem.wf (ms.dropCached_mem none l)).mpr h) _ hs.mem
  | ls a w => exact hs

theorem State.Inv.overPages (hs : s.Inv) (t : Word) (va w : Nat) (c : Class) {act : LineAct} (hact : act.KeepsInv) (n off : Nat) :
    (s.overPages t va w c act n off).1.Inv := by
  induction n generalizing s off with
  | zero => exact hs
  | succ n ih =>
    unfold State.overPages
    split
    · exact hs
    · dsimp only
      split
      · exact hs
      · split
        · exact hs
        · exact ih (hact _ _ hs) _

theorem State.Inv.maintainPart (hs : s.Inv) (t : Word) (va w : Nat) (c : Class) {act : LineAct} (hact : act.KeepsInv) :
    (s.maintainPart t va w c act).1.Inv :=
  hs.overPages t va w c hact ..

theorem State.Inv.maintain (hs : s.Inv) (a b : BitVec 5) (c : Class) {act : LineAct} (hact : act.KeepsInv) :
    (s.maintain a b c act).Inv := by
  unfold State.maintain
  dsimp only
  split
  · simpa using hs
  · refine hs.orTrap fun x _ => ?_
    have h := hs.maintainPart (s.g a) x.2 (s.g b).toNat c hact
    split
    · next u hu => rw [hu] at h; simpa using h
    · next u e hu => rw [hu] at h; exact h.trap e

theorem lineWord_keepsInv {w : BitVec 32} {c : Class} {act : LineAct} (h : lineWord w = some (c, act)) : act.KeepsInv := by
  unfold lineWord at h
  split at h
  · split at h <;> cases h
    · exact cleanLines_keepsInv
    · exact invalidateLines_keepsInv
    · exact dropLines_keepsInv
  · cases h

theorem State.Inv.maintainSome (hs : s.Inv) (w : BitVec 32) (n : Nat) : ∀ t, s.maintainSome w n = some t → t.Inv := by
  intro t ht
  unfold State.maintainSome at ht
  split at ht
  · cases ht
  · next c act hc =>
    dsimp only at ht
    split at ht
    · cases ht
    · split at ht
      · cases ht
      · next x va _ =>
        split at ht
        · cases ht
        · have h := hs.maintainPart (s.g (fA w)) va (1024 * n - va % 1024) c (lineWord_keepsInv hc)
          split at ht
          · next u hu => cases ht; rw [hu] at h; exact h
          · cases ht

/-! ## Versions -/

@[simp] theorem State.Inv.wakeWaiter (hs : s.Inv) (w : Waiter) : (s.wakeWaiter w).Inv := by
  unfold State.wakeWaiter
  split <;> simp [hs]

@[simp] theorem State.Inv.wakeVersions (hs : s.Inv) (n : Nat) (hit : VWait → Bool) : (s.wakeVersions n hit).Inv := by
  unfold State.wakeVersions
  refine State.Inv.foldl (fun _ w h => h.wakeWaiter w.who) _ ?_
  split <;> simpa using hs

@[simp] theorem State.Inv.wakeHeap (hs : s.Inv) (n : Nat) : (s.wakeHeap n).Inv :=
  State.Inv.foldl (fun _ w h => h.wakeWaiter w.who) _ ((State.mapVer_inv _).2 hs)

@[simp] theorem State.waitVersion_inv (n x v : Nat) (who : Waiter) :
    (s.waitVersion n x v who).Inv ↔ s.Inv := State.inv_congr rfl rfl rfl
@[simp] theorem State.Inv.createVersion (hs : s.Inv) (n x v : Nat) (value : Word) :
    (s.createVersion n x v value).Inv := by simp [State.createVersion, hs]
@[simp] theorem State.Inv.parkVersion (hs : s.Inv) (n x v : Nat) : (s.parkVersion n x v).Inv := by simp [State.parkVersion, hs]
@[simp] theorem State.Inv.parkHeap (hs : s.Inv) (n : Nat) : (s.parkHeap n).Inv := by simp [State.parkHeap, hs]
@[simp] theorem State.clearVfull_inv : s.clearVfull.Inv ↔ s.Inv := State.inv_congr rfl rfl rfl

@[simp] theorem State.Inv.vnldLe (hs : s.Inv) (d a b : BitVec 5) : (s.vnldLe d a b).Inv := by
  unfold State.vnldLe
  dsimp only
  split
  · exact hs.illop
  · refine hs.orTrap fun x _ => ?_
    split
    · exact hs.trap _
    · split <;> simp [hs]

@[simp] theorem State.Inv.vnld (hs : s.Inv) (d a b : BitVec 5) : (s.vnld d a b).Inv := by
  unfold State.vnld
  split <;> simp [hs]

@[simp] theorem State.Inv.vnst (hs : s.Inv) (d a b : BitVec 5) : (s.vnst d a b).Inv := by
  unfold State.vnst
  dsimp only
  (repeat' split) <;> simp [hs]

@[simp] theorem State.Inv.vnldv (hs : s.Inv) (d a b : BitVec 5) (k : BitVec 3) : (s.vnldv d a b k).Inv := by
  unfold State.vnldv
  (repeat' split) <;> simp [hs]

@[simp] theorem State.Inv.storeElems (hs : s.Inv) (t v : Word) (x : Nat) (is : List Nat) : (s.storeElems t v x is).Inv := by
  induction is generalizing s with
  | nil => simpa [State.storeElems] using hs
  | cons i is ih =>
    unfold State.storeElems
    split
    · simp [hs]
    · split
      · simp [hs]
      · split
        · split <;> simp [hs]
        · exact ih (hs.createVersion ..)

@[simp] theorem State.Inv.vnstv (hs : s.Inv) (d a b : BitVec 5) (k : BitVec 3) :
    (s.vnstv d a b k).Inv := by simp [State.vnstv, hs]
@[simp] theorem State.Inv.vnqry (hs : s.Inv) (d a : BitVec 5) (sel : Nat) : (s.vnqry d a sel).Inv := by simp [State.vnqry, hs]
@[simp] theorem State.Inv.raiseWatermark (hs : s.Inv) (n w : Nat) :
    (s.raiseWatermark n w).Inv := by simp [State.raiseWatermark, hs]
@[simp] theorem State.Inv.vndrop (hs : s.Inv) (a b : BitVec 5) : (s.vndrop a b).Inv := by simp [State.vndrop, hs]
@[simp] theorem State.dropJobs_inv (n : Nat) : (s.dropJobs n).Inv ↔ s.Inv := State.inv_congr rfl rfl rfl
@[simp] theorem State.openEvent_inv (unit : Nat) : (s.openEvent unit).Inv ↔ s.Inv := State.inv_congr rfl rfl rfl

@[simp] theorem State.failStream_inv (n : Nat) : (s.failStream n).Inv ↔ s.Inv := by
  unfold State.failStream
  split <;> simp

@[simp] theorem State.Inv.openRegion (hs : s.Inv) (img want : Nat) : (s.openRegion img want).1.Inv := by
  unfold State.openRegion
  dsimp only
  (repeat' split) <;> simp [hs]

@[simp] theorem State.Inv.vnopen (hs : s.Inv) (d a b : BitVec 5) : (s.vnopen d a b).Inv := by simp [State.vnopen, hs]

@[simp] theorem State.Inv.closeRegion (hs : s.Inv) (n : Nat) : (s.closeRegion n).1.Inv := by
  unfold State.closeRegion
  dsimp only
  split
  · exact hs
  · simp only [State.mapVer_inv]
    exact State.Inv.foldl (fun _ w h => h.wakeWaiter w) _ ((State.mapVer_inv _).2 hs)

@[simp] theorem State.Inv.vnclose (hs : s.Inv) (d a : BitVec 5) : (s.vnclose d a).Inv := by simp [State.vnclose, hs]

/-! ## Stream commands -/

@[simp] theorem State.Inv.takeFault (hs : s.Inv) (q : Nat) (f : SFault) : (s.takeFault q f).Inv := by simp [State.takeFault, hs]

@[simp] theorem State.Inv.strm (hs : s.Inv) (a b : BitVec 5) (q : Nat) : (s.strm a b q).Inv := by
  unfold State.strm
  dsimp only
  (repeat' split) <;> simp [hs]

@[simp] theorem State.Inv.sqwait (hs : s.Inv) (q : BitVec 4) : (s.sqwait q).Inv := by
  unfold State.sqwait
  dsimp only
  (repeat' split) <;> simp [hs]

@[simp] theorem State.Inv.qfence (hs : s.Inv) (m : BitVec 16) : (s.qfence m).Inv := by simp [State.qfence, hs]
@[simp] theorem State.mapProg_inv (f : Ctx → Ctx) : (s.mapProg f).Inv ↔ s.Inv := State.mapStr_inv _

/-- The state that a move leads to, or fails in, is in the canonical form. -/
def Move.Keeps : Move → Prop
  | .ok s | .jump s | .bad s _ _ | .wait s => s.Inv
  | .stall => True

@[simp] theorem Move.keeps_ok : (Move.ok s).Keeps ↔ s.Inv := Iff.rfl
@[simp] theorem Move.keeps_jump : (Move.jump s).Keeps ↔ s.Inv := Iff.rfl
@[simp] theorem Move.keeps_bad (t : Trap) (w : Nat) : (Move.bad s t w).Keeps ↔ s.Inv := Iff.rfl
@[simp] theorem Move.keeps_wait : (Move.wait s).Keeps ↔ s.Inv := Iff.rfl
@[simp] theorem Move.keeps_stall : Move.stall.Keeps := trivial
@[simp] theorem Move.keeps_ite (p : Prop) [Decidable p] (x y : Move) :
    (if p then x else y).Keeps ↔ if p then x.Keeps else y.Keeps := by
  split <;> rfl

@[simp] theorem Got.andThen_keeps (hs : s.Inv) (g : Got) {f : Nat → Move} (hf : ∀ x, (f x).Keeps) :
    (Got.andThen s g f).Keeps := by
  cases g with
  | val x => exact hf x
  | bad t w => exact hs
  | stall => trivial

@[simp] theorem State.Inv.streamWrite (hs : s.Inv) (x : Ctx) (t : Word) (d : Int) (w v : Nat) :
    (s.streamWrite x t d w v).Keeps := by
  unfold State.streamWrite
  split <;> simp [hs]

/-- Moves one after another, each from where the one before it led. -/
theorem doAll_keeps {f : State → Nat → Move} (hf : ∀ s i, s.Inv → (f s i).Keeps) (hs : s.Inv) (is : List Nat) :
    (doAll f s is).Keeps := by
  induction is generalizing s with
  | nil => exact hs
  | cons i is ih =>
    have h := hf s i hs
    unfold doAll
    split
    · next t ht => rw [ht] at h; exact ih h
    · exact h

@[simp] theorem State.Inv.putBinding (hs : s.Inv) (n : Nat) (on : Bool) (q : Nat) : (s.putBinding n on q).Inv :=
  hs.mapCore (Core.putBlock_wf hs.ls ..)

@[simp] theorem State.Inv.clearBindings (hs : s.Inv) (x : Ctx) : (s.clearBindings x).Inv :=
  hs.foldl (fun _ _ h => h.putBinding ..) _

@[simp] theorem State.dropProgram_inv (pid : Nat) : (s.dropProgram pid).Inv ↔ s.Inv := State.inv_congr rfl rfl rfl

@[simp] theorem State.Inv.streamFault (hs : s.Inv) (t : Trap) (w : Nat) : (s.streamFault t w).Inv := by
  unfold State.streamFault
  dsimp only
  (repeat' split) <;> simp [hs]

theorem State.Inv.command (hs : s.Inv) {f : State → Ctx → Move} (hf : ∀ x, (f s x).Keeps) : (s.command f).Inv := by
  unfold State.command
  split
  · exact hs
  · next x _ =>
    have h := hf x
    split <;> next hm => simp_all

@[simp] theorem State.Inv.badCommand (hs : s.Inv) : s.badCommand.Keeps := hs

theorem State.Inv.slotCommand (hs : s.Inv) (d : BitVec 4) {f : State → Ctx → Move} (hf : ∀ x, (f s x).Keeps) :
    (s.slotCommand d f).Inv :=
  hs.command fun x => by simp [hs, hf]

@[simp] theorem State.Inv.ringWrite (hs : s.Inv) (dst : Word) (e : BitVec 128) (p w v : Nat) :
    (s.ringWrite dst e p w v).Keeps := by
  unfold State.ringWrite
  dsimp only
  split
  · exact hs
  · split
    · exact hs
    · exact hs.foldl (fun _ _ h => h.writeSeg_any ..) _

theorem State.Inv.openDelivery (hs : s.Inv) (x : Ctx) (dst : Word) (e : BitVec 128) (n : Nat) {go : State → Nat → Move}
    (hgo : ∀ s p, s.Inv → (go s p).Keeps) :
    (s.openDelivery x dst e n go).Keeps := by
  unfold State.openDelivery
  dsimp only
  split
  · exact hs
  · split
    · exact hs
    · split
      · exact hs
      · split_ifs <;> simp [hs, hgo]

/-- A delivery keeps the canonical form where its body does with every way to put an item that does. -/
theorem State.Inv.deliverBy (hs : s.Inv) (x : Ctx) (dst : Word) (w count : Nat) {body : (State → Nat → Nat → Move) → State → Move}
    (hbody : ∀ put s, (∀ s i v, s.Inv → (put s i v).Keeps) → s.Inv → (body put s).Keeps) :
    (s.deliverBy x dst w count body).Keeps := by
  have hring (s : State) (p : Nat) (hs : s.Inv) := hbody (fun s i v => s.ringWrite dst ((x.ext[tagOf dst]?).getD 0) (p + i * w) w v) s
    (fun s i v hs => hs.ringWrite ..) hs
  unfold State.deliverBy
  dsimp only
  split
  · exact hbody _ s (fun s i v hs => hs.streamWrite ..) hs
  · split
    · exact hs
    · split
      · exact hs
      · split
        · exact hs
        · split
          · trivial
          · refine hs.openDelivery x dst _ _ fun s p hs => ?_
            have h := hring s p hs
            split
            · next t ht =>
              rw [ht] at h
              exact State.Inv.mapCore h (Core.putBlock_wf h.ls ..)
            · exact h

theorem State.Inv.deliver (hs : s.Inv) (x : Ctx) (dst : Word) (w count : Nat) (get : State → Nat → Got) :
    (s.deliver x dst w count get).Keeps :=
  hs.deliverBy x dst w count fun _ _ hput hs => doAll_keeps (fun _ _ hs => Got.andThen_keeps hs _ fun _ => hput _ _ _ hs) hs _

theorem State.Inv.streamTurn (hs : s.Inv) {m : Commands} (hm : ∀ w act, m w = some act → ∀ s, s.Inv → Keeps (act s)) (pid : Nat) :
    Keeps (State.streamTurn m s pid) := by
  unfold State.streamTurn
  extract_lets t
  have ht : t.Inv := by simpa [t] using hs
  clear_value t
  split
  · simpa using ht
  · next x _ =>
    split
    · simpa using ht
    · extract_lets u
      have hu : u.Inv := by
        dsimp only [u]
        split <;> simp [ht]
      clear_value u
      split
      · simp [hu]
      · simpa using hu
      · extract_lets w v
        have hv : v.Inv := by simpa [v] using hu
        clear_value v
        split
        · exact keeps_next.2 (hv.command fun _ => hv.badCommand)
        · next act h =>
          split
          · exact hm w act h v hv
          · exact keeps_next.2 (hv.command fun _ => by simpa using hv)

/-! ## Tasks -/

@[simp] theorem State.Inv.enterTask (hs : s.Inv) (t : Task) : (s.enterTask t).Inv := by simp [State.enterTask, hs]

@[simp] theorem State.loadHandles_inv (vd n : Nat) (img : BitVec 512) : (s.loadHandles vd n img).Inv ↔ s.Inv := by
  refine State.foldl_inv (fun s j => ?_) _
  dsimp only
  split
  · split <;> simp
  · rfl

@[simp] theorem State.Inv.install (hs : s.Inv) (k : TaskKey) (img : BitVec 512) : (s.install k img).Inv :=
  (hs.foldl (fun _ _ h => State.Inv.setTaskState ((State.mapSched_inv _).2 h) ..) _).enterTask _

@[simp] theorem State.Inv.parkPool (hs : s.Inv) : s.parkPool.Inv := by simp [State.parkPool, hs]

@[simp] theorem State.Inv.tenq (hs : s.Inv) (d a : BitVec 5) : (s.tenq d a).Inv := by
  unfold State.tenq
  dsimp only
  split
  · exact hs.trap _
  · refine hs.orTrap fun img _ => ?_
    split_ifs
    · simpa using hs
    · generalize ((s.sched.graph _ _).bind _) = o
      cases o <;> simp [hs]

@[simp] theorem Core.closeWindows_wf {c : Core} (hc : c.ls.wf) : c.closeWindows.ls.wf :=
  foldl_keeps (P := fun c : Core => c.ls.wf) (fun _ _ h => Core.putBlock_wf h ..) _ hc

@[simp] theorem State.Inv.endTask (hs : s.Inv) (k : TaskKey) : (s.endTask k).Inv := by
  unfold State.endTask
  split
  · exact hs
  · exact ((State.Inv.setTaskState (hs.foldl (fun _ _ h => h.decDeps ..) _) ..).wakePool ..).finishGraph ..

@[simp] theorem State.Inv.endBound (hs : s.Inv) : s.endBound.Inv := by
  refine (State.mapSched_inv _).2 (State.Inv.endTask ((State.mapSched_inv _).2 (hs.mapCore ?_)) _)
  exact Core.closeWindows_wf hs.ls

@[simp] theorem State.Inv.tend (hs : s.Inv) : s.tend.Inv := by
  unfold State.tend
  (repeat' split) <;> simp [hs]

@[simp] theorem State.Inv.withdraw (hs : s.Inv) (n : Nat) : (s.withdraw n).Inv := by
  unfold State.withdraw
  dsimp only
  (repeat' split) <;> simp [hs]

@[simp] theorem State.Inv.stage (hs : s.Inv) (n : Nat) (r : BitVec 256) : (s.stage n r).Inv := by simp [State.stage, hs]

@[simp] theorem State.Inv.release (hs : s.Inv) (c : Contract) (at_ : Nat) : (s.release c at_).Inv := by
  unfold State.release
  dsimp only
  split
  · exact hs
  · split
    · simpa using hs
    · refine State.Inv.foldl (fun _ _ h => h.enterTask _) _ ?_
      split <;> simp [hs]

@[simp] theorem State.Inv.pulse (hs : s.Inv) (c : Contract) : (s.pulse c).Inv := by simp [State.pulse, hs]

/-! ## Service calls -/

@[simp] theorem State.doorbellWrite_inv (p o : Nat) (v : Word) :
    (s.doorbellWrite p o v).Inv ↔ s.Inv := by simp [State.doorbellWrite]
@[simp] theorem State.blockFault_inv (p cb : Nat) : (s.blockFault p cb).Inv ↔ s.Inv := State.inv_congr rfl rfl rfl

@[simp] theorem State.Inv.finishCall (hs : s.Inv) (p cb : Nat) (irq : Bool) (r : Except Nat Word) :
    (s.finishCall p cb irq r).Inv := by
  unfold State.finishCall
  dsimp only
  (repeat' split) <;> simp [hs]

@[simp] theorem State.Inv.call (hs : s.Inv) (p code : Nat) (masks : List Word) (body : State → Args → State × Except Nat Word)
    (hbody : ∀ y0 y1, y0.Inv → (body y0 y1).1.Inv) :
    (s.call p code masks body).Inv := by
  unfold State.call
  dsimp only
  (repeat' split) <;> simp [hs, hbody]

@[simp] theorem refuseOr_keeps (hs : s.Inv) (rs : List (Bool × Nat)) (f : Unit → State × Except Nat Word) (hf : ∀ y0, (f y0).1.Inv) :
    (refuseOr s rs f).1.Inv := by
  unfold refuseOr
  split <;> simp [hs, hf]

@[simp] theorem State.load_inv (vd gid : Nat) (imgs : List (BitVec 512)) : (s.load vd gid imgs).Inv ↔ s.Inv := by
  simp [State.load]

@[simp] theorem State.Inv.launch (hs : s.Inv) (a : Args) : (s.launch a).1.Inv := by
  unfold State.launch
  dsimp only
  split
  · exact hs
  · split
    · exact hs
    · refine refuseOr_keeps hs _ _ fun _ => ?_
      dsimp only
      split
      · refine State.Inv.finishGraph (State.Inv.foldl (fun _ _ h => h.enterTask _) _ ?_) ..
        simpa using hs
      · refine State.Inv.foldl (fun _ _ h => h.enterTask _) _ ?_
        simpa using hs

@[simp] theorem State.Inv.abortCall (hs : s.Inv) (a : Args) : (s.abortCall a).1.Inv := by
  unfold State.abortCall
  dsimp only
  (repeat' split) <;> simp [hs]

@[simp] theorem State.Inv.accept (hs : s.Inv) (a : Args) : (s.accept a).1.Inv := by
  unfold State.accept
  dsimp only
  (repeat' split) <;> simp [hs]

@[simp] theorem State.Inv.withdrawContract (hs : s.Inv) (c : Contract) :
    (s.withdrawContract c).Inv := by simp [State.withdrawContract, hs]

@[simp] theorem State.Inv.revoke (hs : s.Inv) (a : Args) : (s.revoke a).1.Inv := by
  unfold State.revoke
  split <;> simp [hs]

@[simp] theorem State.Inv.setvd (hs : s.Inv) (a : Args) : (s.setvd a).1.Inv := by simp [State.setvd, hs]

@[simp] theorem State.Inv.vnopenCall (hs : s.Inv) (a : Args) : (s.vnopenCall a).1.Inv := by
  unfold State.vnopenCall
  dsimp only
  (repeat' split) <;> simp [hs]

@[simp] theorem State.Inv.vncloseCall (hs : s.Inv) (a : Args) : (s.vncloseCall a).1.Inv := by
  unfold State.vncloseCall
  dsimp only
  (repeat' split) <;> simp [hs]

@[simp] theorem State.Inv.statusCall (hs : s.Inv) (a : Args) : (s.statusCall a).1.Inv := by
  unfold State.statusCall
  dsimp only
  (repeat' split) <;> simp [hs]

@[simp] theorem State.Inv.encopen (hs : s.Inv) (a : Args) : (s.encopen a).1.Inv := by simp [State.encopen, hs]
@[simp] theorem State.closeStream_inv (n : Nat) : (s.closeStream n).Inv ↔ s.Inv := State.inv_congr rfl rfl rfl

@[simp] theorem State.Inv.encclose (hs : s.Inv) (a : Args) : (s.encclose a).1.Inv := by
  unfold State.encclose
  dsimp only
  (repeat' split) <;> simp [hs]

@[simp] theorem State.Inv.peerset (hs : s.Inv) (a : Args) : (s.peerset a).1.Inv := by
  unfold State.peerset
  dsimp only
  (repeat' split) <;> simp [hs]

@[simp] theorem State.Inv.expose (hs : s.Inv) (a : Args) : (s.expose a).1.Inv := by simp [State.expose, hs]
@[simp] theorem State.Inv.setpwr (hs : s.Inv) (a : Args) : (s.setpwr a).1.Inv := by simp [State.setpwr, hs]
@[simp] theorem State.Inv.setirq (hs : s.Inv) (a : Args) : (s.setirq a).1.Inv := by simp [State.setirq, hs]

/-! ## Scalar floating point -/

@[simp] theorem State.Inv.finishF (hs : s.Inv) (d : BitVec 5) (r : FOut) : (s.finishF d r).Inv := by simp [State.finishF, hs]
@[simp] theorem State.Inv.fpOp2 (hs : s.Inv) (d a b : BitVec 5) (t : BitVec 2) (op : Fmt → Nat → Nat → FOut) :
    (s.fpOp2 d a b t op).Inv := by simp [State.fpOp2, hs]

/-! ## The network and the encoders -/

@[simp] theorem State.Inv.npost (hs : s.Inv) (d a : BitVec 5) : (s.npost d a).Inv := by
  unfold State.npost
  dsimp only
  split
  · exact hs.illop
  · split
    · refine hs.orTrap fun _ _ => hs.orTrap fun _ _ => ?_
      split_ifs <;> simp [hs]
    · simpa using hs

@[simp] theorem State.Inv.nwait (hs : s.Inv) (d a b : BitVec 5) : (s.nwait d a b).Inv := by simp [State.nwait, hs]

@[simp] theorem State.Inv.fillPages (hs : s.Inv) (via : Via) (va w v mask : Nat) : (s.fillPages via va w v mask).1.Inv := by
  refine foldl_keeps (P := fun r : State × Bool => r.1.Inv) (fun r p hr => ?_) _ hs
  split <;> simp [hr]

@[simp] theorem State.Inv.putPlace (hs : s.Inv) (p : Place) (v mask : Nat) : (s.putPlace p v mask).Inv := by
  cases p with
  | store n a w =>
    exact hs.mapCoreNo n (f := fun c => { c with ls := c.ls.writeMasked a w v (lsMask a w mask) }) (Mem.writeMasked_wf (hs.coreAt n) ..)
  | nowhere => exact hs
  | segs g => exact hs.writeSegs ..

@[simp] theorem State.Inv.moveData (hs : s.Inv) (r : NetReq) (ok : Bool) : (s.moveData r ok).1.Inv := by
  unfold State.moveData
  dsimp only
  split
  · exact hs
  · split
    · cases s.place r true r.buf r.len .engineWrite <;> simp [hs]
    · split <;> simp [hs]

@[simp] theorem State.Inv.endRequest (hs : s.Inv) (i : Nat) (r : NetReq) (ok : Bool) : (s.endRequest i r ok).Inv := by
  unfold State.endRequest
  dsimp only
  (repeat' split) <;> simp [hs]

@[simp] theorem State.Inv.receive (hs : s.Inv) (p : Packet) : (s.receive p).Inv := by
  unfold State.receive
  dsimp only
  (repeat' split) <;> simp [hs]

@[simp] theorem State.Inv.encj (hs : s.Inv) (d a : BitVec 5) : (s.encj d a).Inv := by
  refine hs.orTrap fun _ _ => ?_
  dsimp only
  split
  · simpa using hs
  · next x _ =>
    split
    · simpa using hs
    · refine hs.orTrap fun _ _ => ?_
      split
      · simpa using hs
      · by_cases hx : x.failed = true <;> simpa [hx] using hs

@[simp] theorem State.mapJob_inv (i : Nat) (f : EncJob → EncJob) : (s.mapJob i f).Inv ↔ s.Inv := State.inv_congr rfl rfl rfl

@[simp] theorem State.Inv.startJob (hs : s.Inv) (e : Nat) : (s.startJob e).Inv := by
  unfold State.startJob
  dsimp only
  (repeat' split) <;> simp [hs]

@[simp] theorem State.Inv.encode (hs : s.Inv) (j : EncJob) (x : EncStream) : (s.encode j x).1.Inv := by
  have h (o : Option (List Seg)) (v m : Nat) : ((o.map fun g => s.writeSegs none g v m).getD s).Inv := by
    cases o <;> simp [hs]
  unfold State.encode
  dsimp only
  split
  · exact hs
  · split
    · exact hs
    · split
      · split <;> simp [hs]
      · exact h ..

@[simp] theorem State.Inv.finishJob (hs : s.Inv) (j : EncJob) (x : EncStream) : (s.finishJob j x).Inv := by
  unfold State.finishJob
  dsimp only
  (repeat' split) <;> simp [hs]

/-! ## Ports -/

@[simp] theorem State.answer_inv (x : ReplyStatus) (v : Nat) : (s.answer x v).Inv ↔ s.Inv := State.inv_congr rfl rfl rfl
@[simp] theorem State.refuseHost_inv (p : HostPath) (a : Nat) (wr : Bool) :
    (s.refuseHost p a wr).Inv ↔ s.Inv := State.inv_congr rfl rfl rfl

@[simp] theorem State.Inv.hostLoad (hs : s.Inv) (p : HostPath) (d n : Nat) : (s.hostLoad p d n).Inv := by
  unfold State.hostLoad
  dsimp only
  (repeat' split) <;> simp [hs]

@[simp] theorem State.Inv.hostStore (hs : s.Inv) (p : HostPath) (d n v : Nat) : (s.hostStore p d n v).Inv := by
  unfold State.hostStore
  dsimp only
  split
  · simpa using hs
  · split
    · simpa using hs
    · refine (State.answer_inv ..).2 (hs.foldl (fun s r h => ?_) _)
      exact ⟨h.writePhys .., h.ls, h.others⟩

@[simp] theorem State.writePklast_inv (n : Nat) (v : Word) : (s.writePklast n v).Inv ↔ s.Inv := State.inv_congr rfl rfl rfl
@[simp] theorem State.writePkcmd_inv (n : Nat) (v : Word) : (s.writePkcmd n v).Inv ↔ s.Inv := by simp [State.writePkcmd]

@[simp] theorem State.Inv.repackDone (hs : s.Inv) (n : Nat) : (s.repackDone n).Inv := by
  unfold State.repackDone
  extract_lets c frame i heap r src
  have hr : r.1.mem.wf := by
    simp only [r]
    split
    · exact MemSys.repack_wf hs.mem ..
    · exact hs.mem
  clear_value r
  split
  · exact hs
  · exact ⟨hr, hs.ls, hs.others⟩

@[simp] theorem State.writeOwncmd_inv (v : Word) : (s.writeOwncmd v).Inv ↔ s.Inv := by simp [State.writeOwncmd]

@[simp] theorem State.setOwncmd_inv (x : Word) : (s.mapMs fun ms => { ms with owncmd := x }).Inv ↔ s.Inv := State.mapMs_inv rfl

@[simp] theorem State.mapHostPages_inv (f : List Nat → List Nat) :
    (s.mapMs fun ms => { ms with hostPages := f ms.hostPages }).Inv ↔ s.Inv := State.mapMs_inv rfl

@[simp] theorem State.cleanRange_inv (a w : Nat) : (s.mapMs fun ms => ms.cleanRange a w).Inv ↔ s.Inv := State.mapMs_inv rfl

@[simp] theorem State.Inv.flipDone (hs : s.Inv) : s.flipDone.Inv := by
  unfold State.flipDone
  dsimp only
  split_ifs
  · exact hs
  · simpa using hs
  · simpa using hs
  · rw [State.setOwncmd_inv, State.mapHostPages_inv (List.cons _), State.cleanRange_inv]
    exact hs.cleanPacked ..
  · rw [State.setOwncmd_inv, State.mapHostPages_inv (List.filter _)]
    exact hs

@[simp] theorem State.mapLlc_inv (d : Nat) (f : LlcDie → LlcDie) : (s.mapLlc d f).Inv ↔ s.Inv := by
  refine State.mapMs_inv ?_
  split <;> rfl

@[simp] theorem State.Inv.writeLlccfg (hs : s.Inv) (d : Nat) (v : Word) :
    (s.writeLlccfg d v).Inv := by simp [State.writeLlccfg, hs]
@[simp] theorem State.Inv.llcModeDone (hs : s.Inv) (d : Nat) : (s.llcModeDone d).Inv := by simp [State.llcModeDone, hs]

@[simp] theorem State.writeQctl_inv (v : Word) : (s.writeQctl v).Inv ↔ s.Inv := by
  refine State.mapMs_inv ?_
  dsimp only
  split <;> rfl

@[simp] theorem State.Inv.windowWriteOther (hs : s.Inv) (o : Nat) (v : Word) : (s.windowWriteOther o v).Inv := by
  unfold State.windowWriteOther
  split <;> simp [hs]

@[simp] theorem State.Inv.windowWrite (hs : s.Inv) (o : Nat) (v : Word) : (s.windowWrite o v).Inv := by
  unfold State.windowWrite
  split <;> simp [hs]

@[simp] theorem State.Inv.barWrite (hs : s.Inv) (fn o n : Nat) (v : Word) :
    (s.barWrite fn o n v).Inv := by simp [State.barWrite, hs]

@[simp] theorem State.Inv.hostRead (hs : s.Inv) (p : HostPath) (b n : Nat) : (s.hostRead p b n).Inv := by
  unfold State.hostRead
  (repeat' split) <;> simp [hs]

@[simp] theorem State.Inv.hostWrite (hs : s.Inv) (p : HostPath) (b n v : Nat) : (s.hostWrite p b n v).Inv := by
  unfold State.hostWrite
  (repeat' split) <;> simp [hs]

@[simp] theorem State.checkSector_inv (r : DieAccess) (wr : Bool) : (s.checkSector r wr).Inv ↔ s.Inv := by
  unfold State.checkSector
  split <;> simp

@[simp] theorem State.Inv.dieAccess (hs : s.Inv) (r : DieAccess) (wr : Bool) (f : State → State) (hf : ∀ y0, y0.Inv → (f y0).Inv) :
    Keeps (s.dieAccess r wr f) := by simp [State.dieAccess, hs, hf]

theorem State.Inv.hartMemory (hs : s.Inv) (addr bytes : Nat) (wr : Bool) {f : State → Nat → Nat → State} (hf : ∀ a w, (f s a w).Inv) :
    Keeps (s.hartMemory addr bytes wr f) := by
  unfold State.hartMemory
  dsimp only
  split
  · simp
  · (repeat' split) <;> simp [hs, hf]

@[simp] theorem State.mapHart_inv (h : Nat) (f : Hart → Hart) : (s.mapHart h f).Inv ↔ s.Inv := State.inv_congr rfl rfl rfl
@[simp] theorem State.Inv.hartWrite (hs : s.Inv) (h addr bytes value : Nat) (atomic : Bool) :
    (s.hartWrite h addr bytes value atomic).Inv := by simp [State.hartWrite, hs]

theorem State.Inv.hartAtomic (hs : s.Inv) (addr bytes : Nat) (wr : Bool) {f : State → Nat → State} (hf : ∀ m, (f s m).Inv) :
    Keeps (s.hartAtomic addr bytes wr f) := by
  unfold State.hartAtomic
  split
  · simpa using hs
  · exact hs.hartMemory addr bytes wr fun _ _ => hf _

@[simp] theorem State.Inv.hartAccess (hs : s.Inv) (h : Nat) (x : HartAccess) : Keeps (s.hartAccess h x) := by
  cases x with
  | load addr bytes =>
    simp only [State.hartAccess]
    split
    · simpa using hs
    · exact hs.hartMemory addr bytes false fun _ _ => by simpa using hs
  | store addr bytes value =>
    simp only [State.hartAccess]
    split
    · split <;> simp [hs]
    · exact hs.hartMemory addr bytes true fun _ _ => by simp [hs]
  | amo op addr bytes value _ _ =>
    simp only [State.hartAccess]
    exact hs.hartAtomic addr bytes false fun _ => by simp [hs]
  | loadReserved addr bytes _ _ =>
    simp only [State.hartAccess]
    exact hs.hartAtomic addr bytes false fun _ => by simp [hs]
  | storeConditional addr bytes value _ _ =>
    simp only [State.hartAccess]
    exact hs.hartAtomic addr bytes true fun _ => by split <;> simp [hs]
  | fence => simpa [State.hartAccess] using hs

@[simp] theorem State.commitHdm_inv (p i : Nat) (d : HdmDecoder) : (s.commitHdm p i d).Inv ↔ s.Inv := by simp [State.commitHdm]

/-! ## Module events -/

@[simp] theorem MemSys.setOwed_mem {ms : MemSys} (n k c : Nat) : (ms.setOwed n k c).mem = ms.mem := rfl
@[simp] theorem State.fatalError_inv (die : Nat) : (s.fatalError die).Inv ↔ s.Inv := by simp [State.fatalError]

@[simp] theorem State.Inv.quarantine (hs : s.Inv) (line : Nat) : (s.quarantine line).Inv := by
  refine State.Inv.mapMs (f := fun ms => ms.dropLine none line) ?_ (MemSys.dropLine_wf (State.Inv.mem ?_) none line) <;>
  · split
    · refine (State.mapMs_inv rfl).2 ?_
      split
      · exact hs.mapMs (MemSys.writeBits_wf hs.mem ..)
      · exact hs
    · exact (State.mapMs_inv rfl).2 hs

@[simp] theorem State.Inv.linkLoss (hs : s.Inv) (p : Nat) : (s.linkLoss p).Inv := by
  unfold State.linkLoss
  dsimp only
  split
  · exact hs
  · rw [State.raise_inv, State.event_inv, State.mapMs_inv rfl]
    exact hs.foldl (fun _ _ h => h.quarantine _) _

@[simp] theorem State.Inv.functionReset (hs : s.Inv) (n : Nat) : (s.functionReset n).Inv := by
  unfold State.functionReset
  dsimp only
  split
  · exact hs
  · rw [State.mapIo_inv]
    refine (State.foldl_inv (fun _ _ => State.closeStream_inv _) _).2 (State.Inv.foldl (fun _ _ h => h.closeRegion _) _ (State.Inv.foldl
      (fun _ _ h => h.withdrawContract _) _ (hs.foldl (fun _ _ h => h.abortGraph ..) _)))

@[simp] theorem State.Inv.freshStart {ms : MemSys} (hm : ms.mem.wf) (io : Io) : (s.freshStart ms io).Inv :=
  ⟨hm, ⟨.nil, fun _ h => nomatch h⟩, fun _ h => nomatch h⟩

@[simp] theorem State.Inv.coldReset (hs : s.Inv) : s.coldReset.Inv := by
  refine (State.event_inv ..).2 (State.Inv.freshStart (s := s) ?_ _)
  have h := foldl_keeps (P := Mem.wf) (fun _ (d : Dirty) h => Mem.write_wf h d.addr 1 d.home.toNat) s.ms.dirty hs.mem
  exact ⟨h.1.filter _, fun c hc => h.2 c (List.mem_of_mem_filter hc)⟩

@[simp] theorem State.Inv.warmReset (hs : s.Inv) : s.warmReset.Inv := by
  refine (State.event_inv ..).2 (State.Inv.freshStart (s := s) ?_ _)
  exact hs.mem

/-! ## Floating vector instructions -/

@[simp] theorem State.Inv.withFmt (hs : s.Inv) (f : Fmt → State) (hf : ∀ y0, (f y0).Inv) : (s.withFmt f).Inv := by
  unfold State.withFmt
  split <;> simp [hs, hf]

@[simp] theorem State.Inv.vecF (hs : s.Inv) (len : Nat) (d a : BitVec 5) (b : VSrc) (k : BitVec 3) (op : Fmt → Nat → Nat → Nat → FOut) :
    (s.vecF len d a b k op).Inv := by simp [State.vecF, hs]
@[simp] theorem State.Inv.vecF1 (hs : s.Inv) (d a : BitVec 5) (k : BitVec 3) (op : Fmt → Nat → FOut) :
    (s.vecF1 d a k op).Inv := by simp [State.vecF1, hs]
@[simp] theorem State.Inv.vecSpecial (hs : s.Inv) (d a : BitVec 5) (k : BitVec 3) (op : Fmt → Nat → FOut) :
    (s.vecSpecial d a k op).Inv := by simp [State.vecSpecial, hs]
@[simp] theorem State.Inv.vecFcmp (hs : s.Inv) (d : BitVec 3) (a : BitVec 5) (b : VSrc) (k : BitVec 3) (c : BitVec 2) :
    (s.vecFcmp d a b k c).Inv := by simp [State.vecFcmp, hs]

@[simp] theorem State.Inv.vecCvt (hs : s.Inv) (d a : BitVec 5) (k : BitVec 3) (c : Nat) : (s.vecCvt d a k c).Inv := by
  refine hs.withFmt _ fun f => ?_
  dsimp only
  split
  case h_2 | h_4 => split <;> simp [hs]
  case h_9 => split <;> simp [hs]
  all_goals simp [hs]

@[simp] theorem State.Inv.vecCvt4 (hs : s.Inv) (d a b : BitVec 5) : (s.vecCvt4 d a b).Inv := by simp [State.vecCvt4, hs]

/-! ## Reductions and rearrangements -/

@[simp] theorem State.Inv.wholeTrap (hs : s.Inv) (flags : Nat) : (s.wholeTrap flags).Inv := by simp [State.wholeTrap, hs]
@[simp] theorem State.Inv.whole (hs : s.Inv) (flags : Nat) (write : State → State) (hwrite : ∀ y0, y0.Inv → (write y0).Inv) :
    (s.whole flags write).Inv := by simp [State.whole, hs, hwrite]
@[simp] theorem State.putG_inv (d : BitVec 5) (x : Word) : (s.putG d x).Inv ↔ s.Inv := by simp [State.putG]
@[simp] theorem State.Inv.reduce (hs : s.Inv) (d a : BitVec 5) (k sm : BitVec 3) (fold : List Nat → Fold) :
    (s.reduce d a k sm fold).Inv := by simp [State.reduce, hs]
@[simp] theorem State.Inv.reduceInt (hs : s.Inv) (d a : BitVec 5) (k sm : BitVec 3) (op : Int → Int → Int) (e : Bool → Nat → Int) :
    (s.reduceInt d a k sm op e).Inv := by simp [State.reduceInt, hs]
@[simp] theorem State.Inv.scan (hs : s.Inv) (d a : BitVec 5) (k sm : BitVec 3) (ex : BitVec 1) (op : Nat → Nat → FOut) :
    (s.scan d a k sm ex op).Inv := by simp [State.scan, hs]
@[simp] theorem State.Inv.softmax (hs : s.Inv) (d a b : BitVec 5) (k : BitVec 3) :
    (s.softmax d a b k).Inv := by simp [State.softmax, hs]
@[simp] theorem State.Inv.permute (hs : s.Inv) (d : BitVec 5) (k : BitVec 3) (op : Nat → Option Nat) :
    (s.permute d k op).Inv := by simp [State.permute, hs]
@[simp] theorem State.Inv.maskLogic (hs : s.Inv) (d : BitVec 3) (x : VReg) :
    (s.maskLogic d x).Inv := by simp [State.maskLogic, hs]

/-! ## Turns -/

@[simp] theorem State.tick_inv (n : Nat) : (s.tick n).Inv ↔ s.Inv := State.inv_congr rfl rfl rfl

end

end Sys2Proof.Machine
end

section
/-! SUPPORT. The canonical form under the arms of exec that are more than one operation, and under every arm. -/

namespace Sys2Proof.Machine

section
variable {s : State}

/-! ## Scalar accesses -/

@[simp] theorem execSt_keeps (hs : s.Inv) (d a b : BitVec 5) (w : BitVec 6) (h : BitVec 3) :
    Keeps (execSt d a b w h s) := keeps_next.2 (hs.orTrap fun _ _ => hs.orTrap fun _ _ => by simp [hs])

/-! ## Atomics, guards and windows -/

@[simp] theorem execGbind_keeps (hs : s.Inv) (d a b : BitVec 5) (sc : BitVec 2) : Keeps (execGbind d a b sc s) := by
  unfold execGbind
  dsimp only
  rw [keeps_next]
  split
  · exact hs.trap _
  · refine hs.orTrap fun _ _ => ?_
    split
    · exact hs.trap _
    · refine hs.orTrap fun _ _ => ?_
      split
      · exact hs.trap _
      · exact (State.retire_inv _).2 (hs.mapCore hs.ls)

@[simp] theorem execRel_keeps (hs : s.Inv) (d a : BitVec 5) :
    Keeps (execRel d a s) := keeps_next.2 (hs.orTrap fun _ _ => hs.orTrap fun _ _ => by simp [hs])

@[simp] theorem execAcqSatisfied_keeps (hs : s.Inv) (c : Nat) (q : SeqId) : Keeps (execAcqSatisfied c q s) := by
  unfold execAcqSatisfied
  rw [keeps_next]
  split
  · exact hs.wake c q fun _ h => h.acq ..
  · exact hs

@[simp] theorem execWfeWake_keeps (hs : s.Inv) (c : Nat) : Keeps (execWfeWake c s) := by
  unfold execWfeWake
  rw [keeps_next]
  split
  · exact hs.wake c .main fun _ h => h.wfe ..
  · exact hs

@[simp] theorem execBarinit_keeps (hs : s.Inv) (a : BitVec 5) : Keeps (execBarinit a s) := by
  refine keeps_next.2 (hs.orTrap fun _ _ => ?_)
  dsimp only
  split
  · exact hs.trap _
  · split
    · exact hs.trap _
    · exact (State.retire_inv _).2 (hs.mapCore (Core.putBlock_wf hs.ls ..))

@[simp] theorem execWindowCountReached_keeps (hs : s.Inv) (c : Nat) (q : SeqId) : Keeps (execWindowCountReached c q s) := by
  unfold execWindowCountReached
  split
  · exact keeps_next.2 (hs.wake c q fun _ h => h.barwait ..)
  · split
    · simpa using hs
    · exact (hs.focus c q).again fun _ h => by simp [h]
  · split <;> simp [hs]

@[simp] theorem execVariableLatencyComplete_keeps (hs : s.Inv) (c : Nat) (q : SeqId) (i : Nat) :
    Keeps (execVariableLatencyComplete c q i s) := by
  unfold execVariableLatencyComplete
  dsimp only
  (repeat' split) <;> simp [hs]

/-! ## Branches, loops and rendezvous -/

@[simp] theorem execRdvPairComplete_keeps (hs : s.Inv) (c : Nat) : Keeps (execRdvPairComplete c s) := by
  unfold execRdvPairComplete
  dsimp only
  rw [keeps_next]
  split
  · exact hs.wake c .main fun _ h => h.rdv _
  · exact hs

/-! ## Control registers -/

@[simp] theorem execCtlr_keeps (hs : s.Inv) (d : BitVec 5) (r : BitVec 12) : Keeps (execCtlr d r s) := by
  unfold execCtlr
  split <;> simp [hs]

@[simp] theorem execVtWrite_keeps (hs : s.Inv) (c : Nat) (v : Word) : Keeps (execVtWrite c v s) := by
  unfold execVtWrite
  dsimp only
  rw [keeps_next]
  split
  · exact hs
  · exact State.Inv.orTrap (hs.focus c .main) fun t ht => (hs.focus c .main).ctlStore _ _ t ht

@[simp] theorem execVlWrite_keeps (hs : s.Inv) (c : Nat) (v : Word) : Keeps (execVlWrite c v s) := by
  unfold execVlWrite
  dsimp only
  rw [keeps_next]
  split
  · exact hs
  · exact State.Inv.orTrap (hs.focus c .main) fun t ht => (hs.focus c .main).ctlStore _ _ t ht

@[simp] theorem execFrmWrite_keeps (hs : s.Inv) (c : Nat) (v : Word) : Keeps (execFrmWrite c v s) := by
  unfold execFrmWrite
  dsimp only
  rw [keeps_next]
  split
  · exact hs
  · exact State.Inv.orTrap (hs.focus c .main) fun t ht => (hs.focus c .main).ctlStore _ _ t ht

/-! ## Binding and saving -/

@[simp] theorem execBarrierParkWake_keeps (hs : s.Inv) (t : TaskKey) : Keeps (execBarrierParkWake t s) := by
  unfold execBarrierParkWake
  split <;> simp [hs]

/-! ## System instructions and maintenance -/

@[simp] theorem execClwb_keeps (hs : s.Inv) (a b : BitVec 5) :
    Keeps (execClwb a b s) := keeps_next.2 (hs.maintain a b .clean cleanLines_keepsInv)
@[simp] theorem execClinv_keeps (hs : s.Inv) (a b : BitVec 5) :
    Keeps (execClinv a b s) := keeps_next.2 (hs.maintain a b .clean invalidateLines_keepsInv)
@[simp] theorem execCldrop_keeps (hs : s.Inv) (a b : BitVec 5) :
    Keeps (execCldrop a b s) := keeps_next.2 (hs.ifPrivileged (hs.maintain a b .drop dropLines_keepsInv))

/-! ## Versions -/

@[simp] theorem execVfullWatchdog_keeps (hs : s.Inv) (r : BitVec 6) (i : Nat) : Keeps (execVfullWatchdog r i s) := by
  unfold execVfullWatchdog
  dsimp only
  (repeat' split) <;> simp [hs]

/-! ## Stream commands -/

@[simp] theorem execSdesc_keeps (hs : s.Inv) (d a : BitVec 4) (o : BitVec 46) : Keeps (execSdesc d a o s) := by
  refine keeps_next.2 (hs.slotCommand d fun x => Got.andThen_keeps hs _ fun v => ?_)
  split <;> simp [hs]

@[simp] theorem execStile_keeps (hs : s.Inv) (d a b : BitVec 4) (cols rows : BitVec 12) (o0 o1 : BitVec 11) :
    Keeps (execStile d a b cols rows o0 o1 s) := by
  refine keeps_next.2 (hs.slotCommand d fun x => ?_)
  dsimp only
  split
  · exact hs
  · exact hs.deliver ..

@[simp] theorem execSgath_keeps (hs : s.Inv) (d a b : BitVec 4) (n : BitVec 12) (iw : BitVec 2) :
    Keeps (execSgath d a b n iw s) := by
  refine keeps_next.2 (hs.slotCommand d fun x => ?_)
  dsimp only
  split
  · exact hs
  · split
    · exact hs
    · exact hs.deliverBy x _ _ _ fun put s hput hs => doAll_keeps (fun s i hs => Got.andThen_keeps hs _ fun j =>
        doAll_keeps (fun s k hs => Got.andThen_keeps hs _ fun v => hput _ _ _ hs) hs _) hs _

@[simp] theorem execSscat_keeps (hs : s.Inv) (d a b : BitVec 4) (n : BitVec 12) (iw : BitVec 2) :
    Keeps (execSscat d a b n iw s) := by
  refine keeps_next.2 (hs.slotCommand d fun x => ?_)
  dsimp only
  split
  · exact hs
  · split
    · exact hs
    · refine doAll_keeps (fun s i hs => Got.andThen_keeps hs _ fun j => ?_) hs _
      split
      · exact hs
      · refine doAll_keeps (fun s e hs => ?_) hs _
        split
        · exact hs
        · exact Got.andThen_keeps hs _ fun v => hs.streamWrite ..

@[simp] theorem execSconv_keeps (hs : s.Inv) (f t : BitVec 5) (wd : BitVec 6) (rm : BitVec 3) (sat : BitVec 1) :
    Keeps (execSconv f t wd rm sat s) := keeps_next.2 (hs.command fun _ => by simpa using hs)

@[simp] theorem execSfill_keeps (hs : s.Inv) (b : BitVec 4) (m : BitVec 46) : Keeps (execSfill b m s) := by
  refine keeps_next.2 (hs.command fun x => ?_)
  split
  · exact hs
  · exact hs.deliver ..

@[simp] theorem execSloop_keeps (hs : s.Inv) (d a : BitVec 4) (r : BitVec 1) (n : BitVec 32) : Keeps (execSloop d a r n s) := by
  refine keeps_next.2 (hs.command fun x => ?_)
  dsimp only
  split_ifs <;> simp [hs]

@[simp] theorem execSnext_keeps (hs : s.Inv) (d : BitVec 4) : Keeps (execSnext d s) := by
  refine keeps_next.2 (hs.command fun x => ?_)
  split
  · exact hs
  · dsimp only
    split_ifs <;> simp [hs]

@[simp] theorem execSwaitv_keeps (hs : s.Inv) (a b : BitVec 4) (o : BitVec 46) : Keeps (execSwaitv a b o s) := by
  refine keeps_next.2 (hs.command fun x => ?_)
  split
  · exact hs
  · split <;> simp [hs]

@[simp] theorem execSver_keeps (hs : s.Inv) (d a b : BitVec 4) (o : BitVec 46) : Keeps (execSver d a b o s) := by
  refine keeps_next.2 (hs.command fun x => ?_)
  split
  · exact hs
  · split
    · exact hs
    · split_ifs <;> simp [hs]

@[simp] theorem execSsig_keeps (hs : s.Inv) (a b : BitVec 4) (o : BitVec 46) :
    Keeps (execSsig a b o s) := keeps_next.2 (hs.command fun _ => hs.streamWrite ..)
@[simp] theorem execSfence_keeps (hs : s.Inv) (sc : BitVec 2) : Keeps (execSfence sc s) := keeps_next.2 (hs.command fun _ => hs)

@[simp] theorem execSend_keeps (hs : s.Inv) : Keeps (execSend s) := by
  refine keeps_next.2 (hs.command fun x => ?_)
  split
  · trivial
  · dsimp only
    split <;> simp [hs]

@[simp] theorem execStreamProgramStart_keeps (hs : s.Inv) (t : TaskKey) (q : BitVec 4) :
    Keeps (execStreamProgramStart t q s) := by
  unfold execStreamProgramStart
  dsimp only
  (repeat' split) <;> simp [hs]

/-! ## Tasks -/

@[simp] theorem execTself_keeps (hs : s.Inv) (d : BitVec 5) (sel : BitVec 2) :
    Keeps (execTself d sel s) := keeps_next.2 ((State.finishG_inv ..).2 hs)

@[simp] theorem execSqwaitDrained_keeps (hs : s.Inv) (c : Nat) : Keeps (execSqwaitDrained c s) := by
  unfold execSqwaitDrained
  rw [keeps_next]
  split
  · exact hs.wake c .main fun _ h => h.sqwait _
  · exact hs.wake c .main fun _ h => h.tend
  · exact hs

@[simp] theorem execStgSwap_keeps (hs : s.Inv) (c : Nat) (back : Bool) : Keeps (execStgSwap c back s) := by
  unfold execStgSwap
  rw [keeps_next]
  split_ifs
  · exact hs
  · exact hs.withdraw c
  · simpa using hs
  · split
    · exact hs
    · next r d _ =>
      have hd : State.Inv { s with sched := d } := ⟨hs.mem, hs.ls, hs.others⟩
      exact (State.mapSched_inv _).2 ((hd.withdraw c).stage ..)

@[simp] theorem execBudgetEnd_keeps (hs : s.Inv) (c : Nat) : Keeps (execBudgetEnd c s) := by
  unfold execBudgetEnd
  dsimp only
  rw [keeps_next]
  split_ifs
  · exact hs
  · exact State.Inv.mapCoreNo_ls (by simpa using hs) c rfl
  · simpa using hs

@[simp] theorem execContractRelease_keeps (hs : s.Inv) (n : Nat) : Keeps (execContractRelease n s) := by
  unfold execContractRelease
  split <;> simp [hs]

@[simp] theorem execFrameSyncPulse_keeps (hs : s.Inv) :
    Keeps (execFrameSyncPulse s) := keeps_next.2 (hs.foldl (fun _ _ h => h.pulse _) _)

@[simp] theorem execContractOverrun_keeps (hs : s.Inv) (n : Nat) : Keeps (execContractOverrun n s) := by
  unfold execContractOverrun
  split <;> simp [hs]

/-! ## Service calls -/

@[simp] theorem execLaunch_keeps (hs : s.Inv) (p : Nat) :
    Keeps (execLaunch p s) := keeps_next.2 (hs.call _ _ _ _ fun _ _ h => h.launch _)
@[simp] theorem execAbort_keeps (hs : s.Inv) (p : Nat) :
    Keeps (execAbort p s) := keeps_next.2 (hs.call _ _ _ _ fun _ _ h => h.abortCall _)
@[simp] theorem execAdmitCall_keeps (hs : s.Inv) (p : Nat) :
    Keeps (execAdmitCall p s) := keeps_next.2 (hs.call _ _ _ _ fun _ _ h => h.accept _)
@[simp] theorem execRevoke_keeps (hs : s.Inv) (p : Nat) :
    Keeps (execRevoke p s) := keeps_next.2 (hs.call _ _ _ _ fun _ _ h => h.revoke _)
@[simp] theorem execSetvd_keeps (hs : s.Inv) (p : Nat) :
    Keeps (execSetvd p s) := keeps_next.2 (hs.call _ _ _ _ fun _ _ h => h.setvd _)
@[simp] theorem execVnopenCall_keeps (hs : s.Inv) (p : Nat) :
    Keeps (execVnopenCall p s) := keeps_next.2 (hs.call _ _ _ _ fun _ _ h => h.vnopenCall _)
@[simp] theorem execVncloseCall_keeps (hs : s.Inv) (p : Nat) :
    Keeps (execVncloseCall p s) := keeps_next.2 (hs.call _ _ _ _ fun _ _ h => h.vncloseCall _)
@[simp] theorem execStatus_keeps (hs : s.Inv) (p : Nat) :
    Keeps (execStatus p s) := keeps_next.2 (hs.call _ _ _ _ fun _ _ h => h.statusCall _)
@[simp] theorem execEncopen_keeps (hs : s.Inv) (p : Nat) :
    Keeps (execEncopen p s) := keeps_next.2 (hs.call _ _ _ _ fun _ _ h => h.encopen _)
@[simp] theorem execEncclose_keeps (hs : s.Inv) (p : Nat) :
    Keeps (execEncclose p s) := keeps_next.2 (hs.call _ _ _ _ fun _ _ h => h.encclose _)
@[simp] theorem execPeerset_keeps (hs : s.Inv) (p : Nat) :
    Keeps (execPeerset p s) := keeps_next.2 (hs.call _ _ _ _ fun _ _ h => h.peerset _)
@[simp] theorem execExpose_keeps (hs : s.Inv) (p : Nat) :
    Keeps (execExpose p s) := keeps_next.2 (hs.call _ _ _ _ fun _ _ h => h.expose _)
@[simp] theorem execSetpwr_keeps (hs : s.Inv) (p : Nat) :
    Keeps (execSetpwr p s) := keeps_next.2 (hs.call _ _ _ _ fun _ _ h => h.setpwr _)
@[simp] theorem execSetirq_keeps (hs : s.Inv) (p : Nat) :
    Keeps (execSetirq p s) := keeps_next.2 (hs.call _ _ _ _ fun _ _ h => h.setirq _)

/-! ## Scalar floating point -/

@[simp] theorem execFcvt_keeps (hs : s.Inv) (d a : BitVec 5) (_w : BitVec 3) (c : BitVec 5) : Keeps (execFcvt d a _w c s) := by
  unfold execFcvt
  split <;> simp [hs]

@[simp] theorem execFmv_keeps (hs : s.Inv) (d a : BitVec 5) (t : BitVec 2) (_w : BitVec 3) (o : BitVec 5) :
    Keeps (execFmv d a t _w o s) := by
  unfold execFmv
  split <;> simp [hs]

/-! ## The network and the encoders -/

@[simp] theorem execNwaitSatisfied_keeps (hs : s.Inv) (c : Nat) : Keeps (execNwaitSatisfied c s) := by
  unfold execNwaitSatisfied
  rw [keeps_next]
  split
  · exact hs.wake c .main fun _ h => h.nwait ..
  · exact hs

@[simp] theorem execNetRequestComplete_keeps (hs : s.Inv) (i : Nat) (ok : Bool) : Keeps (execNetRequestComplete i ok s) := by
  unfold execNetRequestComplete
  split <;> simp [hs]

@[simp] theorem execEncJobComplete_keeps (hs : s.Inv) (e : Nat) : Keeps (execEncJobComplete e s) := by
  unfold execEncJobComplete
  (repeat' split) <;> simp [hs]

/-! ## Ports -/

@[simp] theorem execBaseDieRead_keeps (hs : s.Inv) (r : DieAccess) :
    Keeps (execBaseDieRead r s) := hs.dieAccess r false _ fun _ h => by simpa using h
@[simp] theorem execBaseDieWrite_keeps (hs : s.Inv) (r : DieAccess) (v : Nat) :
    Keeps (execBaseDieWrite r v s) := hs.dieAccess r true _ fun _ h => by simp [h]

@[simp] theorem execApplicationCoreAccess_keeps (hs : s.Inv) (h : BitVec 4) (a : HartAccess) :
    Keeps (execApplicationCoreAccess h a s) := by
  unfold execApplicationCoreAccess
  split
  · exact keeps_next.2 hs
  · exact hs.hartAccess _ _

/-! ## Module events -/

@[simp] theorem execRefresh_keeps (hs : s.Inv) (n : BitVec 3) (k : Nat) :
    Keeps (execRefresh n k s) := keeps_next.2 ((State.mapMs_inv rfl).2 hs)

@[simp] theorem execAlertBackoff_keeps (hs : s.Inv) (n : BitVec 3) (k : Nat) : Keeps (execAlertBackoff n k s) := by
  refine keeps_next.2 ((State.mapMs_inv ?_).2 hs)
  split <;> rfl

@[simp] theorem execSpdmGetMeasurements_keeps (hs : s.Inv) (i : Nat) : Keeps (execSpdmGetMeasurements i s) := by
  unfold execSpdmGetMeasurements
  rw [keeps_next]
  split
  · exact (State.answer_inv ..).2 hs
  · exact (State.answer_inv ..).2 hs

end

/-- Every instruction, command and event keeps the canonical form: those below each by its own lemma, all others because what they
answer is put together from operations that do. -/
theorem exec_keeps {s : State} (hs : s.Inv) (i : Instr) : Keeps (exec i s) := by
  cases i
  case st d a b w h => exact execSt_keeps hs d a b w h
  case gbind d a b sc => exact execGbind_keeps hs d a b sc
  case rel d a => exact execRel_keeps hs d a
  case acqSatisfied c q => exact execAcqSatisfied_keeps hs c q
  case wfeWake c => exact execWfeWake_keeps hs c
  case barinit a => exact execBarinit_keeps hs a
  case windowCountReached c q => exact execWindowCountReached_keeps hs c q
  case variableLatencyComplete c q i => exact execVariableLatencyComplete_keeps hs c q i
  case rdvPairComplete c => exact execRdvPairComplete_keeps hs c
  case ctlr d r => exact execCtlr_keeps hs d r
  case vtWrite c v => exact execVtWrite_keeps hs c v
  case vlWrite c v => exact execVlWrite_keeps hs c v
  case frmWrite c v => exact execFrmWrite_keeps hs c v
  case barrierParkWake t => exact execBarrierParkWake_keeps hs t
  case clwb a b => exact execClwb_keeps hs a b
  case clinv a b => exact execClinv_keeps hs a b
  case cldrop a b => exact execCldrop_keeps hs a b
  case vfullWatchdog r i => exact execVfullWatchdog_keeps hs r i
  case sdesc d a o => exact execSdesc_keeps hs d a o
  case stile d a b cols rows o0 o1 => exact execStile_keeps hs d a b cols rows o0 o1
  case sgath d a b n iw => exact execSgath_keeps hs d a b n iw
  case sscat d a b n iw => exact execSscat_keeps hs d a b n iw
  case sconv f t wd rm sat => exact execSconv_keeps hs f t wd rm sat
  case sfill b m => exact execSfill_keeps hs b m
  case sloop d a r n => exact execSloop_keeps hs d a r n
  case snext d => exact execSnext_keeps hs d
  case swaitv a b o => exact execSwaitv_keeps hs a b o
  case sver d a b o => exact execSver_keeps hs d a b o
  case ssig a b o => exact execSsig_keeps hs a b o
  case sfence sc => exact execSfence_keeps hs sc
  case send => exact execSend_keeps hs
  case streamProgramStart t q => exact execStreamProgramStart_keeps hs t q
  case tself d sel => exact execTself_keeps hs d sel
  case sqwaitDrained c => exact execSqwaitDrained_keeps hs c
  case stgSwap c back => exact execStgSwap_keeps hs c back
  case budgetEnd c => exact execBudgetEnd_keeps hs c
  case contractRelease n => exact execContractRelease_keeps hs n
  case frameSyncPulse => exact execFrameSyncPulse_keeps hs
  case contractOverrun n => exact execContractOverrun_keeps hs n
  case launch p => exact execLaunch_keeps hs p
  case abort p => exact execAbort_keeps hs p
  case admitCall p => exact execAdmitCall_keeps hs p
  case revoke p => exact execRevoke_keeps hs p
  case setvd p => exact execSetvd_keeps hs p
  case vnopenCall p => exact execVnopenCall_keeps hs p
  case vncloseCall p => exact execVncloseCall_keeps hs p
  case status p => exact execStatus_keeps hs p
  case encopen p => exact execEncopen_keeps hs p
  case encclose p => exact execEncclose_keeps hs p
  case peerset p => exact execPeerset_keeps hs p
  case expose p => exact execExpose_keeps hs p
  case setpwr p => exact execSetpwr_keeps hs p
  case setirq p => exact execSetirq_keeps hs p
  case fcvt d a w c => exact execFcvt_keeps hs d a w c
  case fmv d a t w o => exact execFmv_keeps hs d a t w o
  case nwaitSatisfied c => exact execNwaitSatisfied_keeps hs c
  case netRequestComplete i ok => exact execNetRequestComplete_keeps hs i ok
  case encJobComplete e => exact execEncJobComplete_keeps hs e
  case baseDieRead r => exact execBaseDieRead_keeps hs r
  case baseDieWrite r v => exact execBaseDieWrite_keeps hs r v
  case applicationCoreAccess h a => exact execApplicationCoreAccess_keeps hs h a
  case refresh n k => exact execRefresh_keeps hs n k
  case alertBackoff n k => exact execAlertBackoff_keeps hs n k
  case spdmGetMeasurements i => exact execSpdmGetMeasurements_keeps hs i
  all_goals exact keeps_next.2 (by simp [hs])

end Sys2Proof.Machine
end

section
/-! SUPPORT. The canonical form under the turns of a sequencer and under a step. -/

namespace Sys2Proof.Machine

/-- An act of the sequencer in focus that keeps the canonical form, performed for its first elements alone. -/
theorem State.Inv.stopInside {s t : State} (hs : s.Inv) (ht : t.Inv) (c : Source) {act : State → Result}
    (hact : ∀ s, s.Inv → Keeps (act s)) (len bound : Nat) : Keeps (s.stopInside t c act len bound) := by
  unfold State.stopInside
  dsimp only
  split
  · simp
  · simp
  · next u h =>
    have hu := hact _ (by simpa using ht) u h
    split_ifs <;> simp [hs, hu]

/-- The next instruction of a sequencer is performed in a state of the canonical form. -/
theorem State.Inv.upcoming {s : State} (hs : s.Inv) {c : Source} {t : State} {len : Nat} (h : s.upcoming = some (c, t, len)) : t.Inv := by
  unfold State.upcoming at h
  split at h
  · cases h; simpa using hs
  · split at h
    · cases h; simpa using hs
    · split at h
      · cases h
      · cases h; simpa using hs

section
variable {m : Meaning} (hm : ∀ w len act, m w len = some act → ∀ s, s.Inv → Keeps (act s)) {s : State} (hs : s.Inv)
include hm hs

theorem State.Inv.stopStep : Keeps (State.stopStep m s) := by
  unfold State.stopStep
  split
  · exact keeps_next.2 hs
  · split
    · exact keeps_next.2 hs
    · next c t len h =>
      have ht := hs.upcoming h
      extract_lets w o early u n
      have hu : u.Inv := by
        dsimp only [u]
        split <;> simp [ht]
      clear_value u
      have hmstr (n : Nat) := hu.storeTileElems ((fD w).setWidth 3) (fA w) (fK w).toNat n
      split
      · exact keeps_next.2 hs
      · split
        · exact keeps_next.2 hs
        · next act _ ha _ =>
          dsimp only
          split_ifs
          · exact keeps_next.2 hs
          · exact keeps_next.2 hs
          · exact hs.stopInside hu c (hm _ _ _ ha) _ _
        · split
          · exact keeps_next.2 hs
          · split
            · split
              · next v hv => exact keeps_next.2 ((State.mapSeq_inv _).2 (hv ▸ hmstr n :))
              · next v e hv => exact keeps_next.2 ((State.mapSeq_inv _).2 (State.Inv.trap (hv ▸ hmstr n :) e))
            · split
              · next v hv => exact keeps_next.2 ((State.mapSeq_inv _).2 (hu.maintainSome _ _ v hv))
              · exact keeps_next.2 hs

theorem State.Inv.goOn : Keeps (State.goOn m s) := by
  unfold State.goOn
  split
  · exact hs.replayStep hm _ _
  · split
    · simp [hs]
    · split
      · exact hs.issue hm _ _
      · split
        · simp [hs]
        · exact hs.issue hm _ _

theorem State.Inv.turnSeq : Keeps (State.turnSeq m s) := by
  unfold State.turnSeq
  split
  · exact keeps_next.2 hs
  · split
    · exact hs.stopStep hm
    · have h : (s.elapse s.turnCycles).chains.Inv := by simp [hs]
      dsimp only
      split
      · exact h.goOn hm
      · exact h.goOn hm
      · exact h.again fun t ht => by simp [ht]
      · split
        · next act ha => exact h.again (hm _ _ _ ha)
        · exact keeps_next.2 h

end

/-- What a word means keeps the canonical form, whatever the word. -/
theorem meaning_keeps (w : BitVec 32) (len : Nat) (act : State → Result) (h : meaning w len = some act) (s : State) (hs : s.Inv) :
    Keeps (act s) := by
  obtain ⟨i, -, rfl⟩ := Option.map_eq_some_iff.mp h
  exact exec_keeps hs i

theorem commandMeaning_keeps (w : Word) (act : State → Result) (h : commandMeaning w = some act) (s : State) (hs : s.Inv) :
    Keeps (act s) := by
  unfold commandMeaning at h
  split at h
  · next i _ => cases h; exact exec_keeps hs i
  · cases h

theorem State.Inv.turnOf {s : State} (hs : s.Inv) (a : Agent) : Keeps (s.turnOf a) := by
  unfold State.turnOf
  split
  · split
    · exact (hs.focus _ _).turnSeq meaning_keeps
    · exact keeps_next.2 hs
  · exact hs.streamTurn commandMeaning_keeps _
  · split
    · exact exec_keeps hs _
    · exact keeps_next.2 hs

/-- The state in which the next agent moves differs by the agenda and the turn alone. -/
theorem State.Inv.nextAgent {s t : State} (hs : s.Inv) {a : Agent} (h : s.nextAgent = some (a, t)) : t.Inv := by
  unfold State.nextAgent at h
  split at h
  · cases h; exact ⟨hs.mem, hs.ls, hs.others⟩
  · split at h <;> cases h
    exact ⟨hs.mem, hs.ls, hs.others⟩

theorem keeps_tickResult {n : Nat} {r : Result} (hr : Keeps r) : Keeps (tickResult n r) := by
  cases r with
  | next s => simpa [tickResult] using hr
  | fault f => exact keeps_fault f
  | refused f => exact keeps_refused f

end Sys2Proof.Machine
end

section
/-! Settled: O59, in the words of the statement, from the lemmas above. -/

namespace Sys2Proof.Machine

/-- Settles O59: every action of the model, taken by itself, keeps the canonical form; a step is a turn of one agent, and that is the
action of an instruction, a command or an event, or what a sequencer does around one. -/
theorem invStep : Obligations.InvStep := by
  intro s t hs h
  unfold step State.advance at h
  dsimp only at h
  split at h
  · next a u hu => exact keeps_tickResult ((hs.nextAgent hu).turnOf a) t h
  · cases h
    exact (State.tick_inv _).2 hs

end Sys2Proof.Machine
end

section
/-! Settled: O57, in the words of the statement, each word by running the decoder. -/

namespace Sys2Proof.Machine

/-- Settles O57: the words are closed, so the decoder runs on each; the last clause is the decoder's own case of a clear bit 0. -/
theorem decodeWords : Obligations.DecodeWords := by
  unfold Obligations.DecodeWords
  iterate 47 refine ⟨rfl, ?_⟩
  intro b1 b0 h rest
  exact if_neg (Bool.eq_false_iff.1 h)

end Sys2Proof.Machine
end

section
/-! SUPPORT. Control registers: the map as a table, the fields that a store reaches, and VT and VLMAX (R122, R123, R140, R141). -/

namespace Sys2Proof.Machine

theorem vtValid_iff (v : Word) : vtValid v = true ↔ vtLegal v := by
  have hv := v.isLt
  unfold vtValid vtLegal vtFfmt vtW vtCw
  simp only [bits_eq, Bool.and_eq_true, decide_eq_true_eq]
  norm_num
  omega

theorem vlmax_eq (v : Word) : vlmax v = vlMaxOf v := by
  unfold vlmax vlMaxOf vtG vtCw
  simp only [bits_eq]
  norm_num

/-! ## The map of the control registers -/

/-- The registers of the map that are no array's. -/
def State.crSingles (s : State) : List (Nat × Word) :=
  let c := s.core.ctl
  let q := s.seq
  [(0x000, c.vl), (0x001, c.vt), (0x002, c.estart), (0x003, c.fxrm), (0x004, c.fxsat), (0x005, c.frm), (0x006, c.fflags),
   (0x007, q.ldr), (0x008, q.rpidx), (0x009, c.hwea), (0x00A, c.hweb), (0x00B, q.rpbase), (0x01C, q.depth.setWidth 64),
   (0x020, c.mode), (0x021, c.cycle), (0x022, c.taskid), (0x023, Config.grancap), (0x024, c.vbyp), (0x025, c.mstat),
   (0x026, c.llcp), (0x040, c.tcause), (0x041, c.tval), (0x042, c.tpc), (0x043, c.tvec), (0x044, c.tstat), (0x045, c.txa),
   (0x046, c.txb), (0x050, c.ptroot)]

/-- Six registers in a row, and the two halves of each extent. -/
def crSix (base : Nat) (v : Vector Word 6) : List (Nat × Word) := v.toList.zipIdx.map fun x => (base + x.2, x.1)
def crExtents (e : Vector (BitVec 128) 16) : List (Nat × Word) :=
  e.toList.zipIdx.flatMap fun x => [(0x100 + 2 * x.2, x.1.extractLsb' 0 64), (0x101 + 2 * x.2, x.1.extractLsb' 64 64)]

/-- The whole map of a state (R123). -/
def State.crTable (s : State) : List (Nat × Word) :=
  s.crSingles ++ crSix 0x010 s.seq.lc ++ crSix 0x016 s.seq.le ++ crSix 0x030 s.seq.li ++ crSix 0x038 s.seq.lb ++ crExtents s.core.e

theorem State.crValue_eq (s : State) (a : Nat) : s.crValue a = (s.crTable.find? fun x => x.1 = a).map (·.2) := rfl

/-- The addresses of the map, which no state changes. -/
def crAddresses : List Nat :=
  [0x000, 0x001, 0x002, 0x003, 0x004, 0x005, 0x006, 0x007, 0x008, 0x009, 0x00A, 0x00B, 0x01C, 0x020, 0x021, 0x022, 0x023, 0x024, 0x025,
   0x026, 0x040, 0x041, 0x042, 0x043, 0x044, 0x045, 0x046, 0x050] ++ (List.range 6).map (0x010 + ·) ++ (List.range 6).map (0x016 + ·) ++
  (List.range 6).map (0x030 + ·) ++ (List.range 6).map (0x038 + ·) ++ (List.range 16).flatMap fun n => [0x100 + 2 * n, 0x101 + 2 * n]

theorem crSix_addresses (base : Nat) (v : Vector Word 6) : (crSix base v).map Prod.fst = (List.range 6).map (base + ·) := by
  unfold crSix
  rw [List.map_map, show (Prod.fst ∘ fun x : Word × Nat => (base + x.2, x.1)) = (base + ·) ∘ Prod.snd from rfl, ← List.map_map,
    List.zipIdx_map_snd, Vector.length_toList, List.range_eq_range']

theorem crExtents_addresses (e : Vector (BitVec 128) 16) :
    (crExtents e).map Prod.fst = (List.range 16).flatMap fun n => [0x100 + 2 * n, 0x101 + 2 * n] := by
  have h : List.range 16 = e.toList.zipIdx.map Prod.snd := by
    rw [List.zipIdx_map_snd, Vector.length_toList, List.range_eq_range']
  unfold crExtents
  rw [h, List.map_flatMap, List.flatMap_map]
  rfl

theorem State.crTable_addresses (s : State) : s.crTable.map Prod.fst = crAddresses := by
  unfold State.crTable crAddresses
  simp only [List.map_append, crSix_addresses, crExtents_addresses]
  rfl

theorem crAddresses_nodup : crAddresses.Nodup := by decide

theorem mem_crSix {base b : Nat} {v : Vector Word 6} {x : Word} :
    (b, x) ∈ crSix base v ↔ ∃ n : Fin 6, b = base + n.val ∧ x = v.get n := by
  unfold crSix
  simp only [List.mem_map, List.mem_zipIdx_iff_getElem?, Prod.exists, Prod.mk.injEq]
  constructor
  · rintro ⟨y, n, h, rfl, rfl⟩
    obtain ⟨hn, rfl⟩ := List.getElem?_eq_some_iff.1 h
    exact ⟨⟨n, by simpa using hn⟩, rfl, by simp [Vector.get_eq_getElem]⟩
  · rintro ⟨n, rfl, rfl⟩
    exact ⟨v.get n, n.val, by simp [Vector.get_eq_getElem], rfl, rfl⟩

theorem mem_crExtents {b : Nat} {e : Vector (BitVec 128) 16} {x : Word} :
    (b, x) ∈ crExtents e ↔ ∃ n : Fin 16, b = 0x100 + 2 * n.val ∧ x = (e.get n).extractLsb' 0 64 ∨
      b = 0x101 + 2 * n.val ∧ x = (e.get n).extractLsb' 64 64 := by
  unfold crExtents
  simp only [List.mem_flatMap, List.mem_zipIdx_iff_getElem?, Prod.exists, List.mem_cons, Prod.mk.injEq, List.not_mem_nil, or_false]
  constructor
  · rintro ⟨y, n, h, hb⟩
    obtain ⟨hn, rfl⟩ := List.getElem?_eq_some_iff.1 h
    exact ⟨⟨n, by simpa using hn⟩, by simpa [Vector.get_eq_getElem] using hb⟩
  · rintro ⟨n, hb⟩
    exact ⟨e.get n, n.val, by simp [Vector.get_eq_getElem], hb⟩

/-- An entry of the map is a single register, one of an array, or half an extent. -/
theorem State.mem_crTable {s : State} {b : Nat} {x : Word} : (b, x) ∈ s.crTable ↔ (b, x) ∈ s.crSingles ∨
    (∃ n : Fin 6, b = 0x010 + n.val ∧ x = s.seq.lc.get n) ∨ (∃ n : Fin 6, b = 0x016 + n.val ∧ x = s.seq.le.get n) ∨
    (∃ n : Fin 6, b = 0x030 + n.val ∧ x = s.seq.li.get n) ∨ (∃ n : Fin 6, b = 0x038 + n.val ∧ x = s.seq.lb.get n) ∨
    ∃ n : Fin 16, b = 0x100 + 2 * n.val ∧ x = (s.core.e.get n).extractLsb' 0 64 ∨
      b = 0x101 + 2 * n.val ∧ x = (s.core.e.get n).extractLsb' 64 64 := by
  simp only [State.crTable, List.mem_append, mem_crSix, mem_crExtents, or_assoc]

theorem State.crValue_iff {s : State} {a : Nat} {x : Word} : s.crValue a = some x ↔ (a, x) ∈ s.crTable := by
  have hn : (s.crTable.map Prod.fst).Nodup := s.crTable_addresses ▸ crAddresses_nodup
  rw [State.crValue_eq, Option.map_eq_some_iff]
  constructor
  · rintro ⟨⟨b, y⟩, hy, rfl⟩
    obtain rfl : b = a := by simpa using List.find?_some hy
    exact List.mem_of_find?_eq_some hy
  · intro h
    cases hf : s.crTable.find? fun y => y.1 = a with
    | none => simpa using List.find?_eq_none.1 hf _ h
    | some y =>
      refine ⟨y, rfl, ?_⟩
      obtain rfl : y.1 = a := by simpa using List.find?_some hf
      exact congrArg Prod.snd (List.inj_on_of_nodup_map hn (List.mem_of_find?_eq_some hf) h rfl)

theorem State.crValue_none_iff {s : State} {b : Nat} : s.crValue b = none ↔ b ∉ crAddresses := by
  rw [State.crValue_eq, Option.map_eq_none_iff, List.find?_eq_none, ← s.crTable_addresses, List.mem_map]
  simp only [decide_eq_true_eq]
  exact ⟨fun h ⟨x, hx, hb⟩ => h x hx hb, fun h x hx hb => h ⟨x, hx, hb⟩⟩

/-- A register reads in u as in s where the entries of s for it are entries of u. -/
theorem State.crValue_congr {s u : State} {b : Nat} (h : ∀ x, (b, x) ∈ s.crTable → (b, x) ∈ u.crTable) : u.crValue b = s.crValue b := by
  cases hs : s.crValue b with
  | some x => exact State.crValue_iff.2 (h x (State.crValue_iff.1 hs))
  | none => exact State.crValue_none_iff.2 (State.crValue_none_iff.1 hs)

end Sys2Proof.Machine
end

section
/-! SUPPORT. What the store of a control register leaves: the fields it does not reach, and the one it does (R31, R122, R143). -/

namespace Sys2Proof.Machine

theorem crBits_above {a : Nat} (h : 0x50 < a) : crBits a = BitVec.allOnes 64 := by
  unfold crBits
  dsimp only
  rw [List.find?_eq_none.2]
  · rfl
  · intro x hx
    have : x.1 ≤ 0x50 := by
      revert x
      decide
    simp
    omega

theorem and_crBits {a : Nat} (h : crBits a = BitVec.allOnes 64) (v : Word) : v &&& crBits a = v := by
  rw [h, BitVec.and_allOnes]

theorem ctlMask_above {a : Nat} (h : 0x50 < a) : ctlMask a = BitVec.allOnes 64 := by
  unfold ctlMask
  split
  any_goals omega
  rw [if_neg (by omega)]
  rfl

/-- The bits that a store keeps are those that the register holds; FRM's are cut where its value is tested (R122, R173). -/
theorem ctlMask_eq {a : Nat} (h : a ≠ 0x005) : ctlMask a = crBits a := by
  by_cases ha : 0x50 < a
  · rw [crBits_above ha, ctlMask_above ha]
  · have hall : ∀ b < 0x51, b ≠ 0x005 → ctlMask b = crBits b := by decide +kernel
    exact hall a (by omega) h

theorem ctlPrivileged_iff (a : Nat) : ctlPrivileged a = true ↔ crPrivileged a := by
  simp [ctlPrivileged, crPrivileged]

/-- The registers of a core agree but for that of address a, and for VL where that is VT (R143). -/
structure Ctl.SameBut (a : Nat) (c d : Ctl) : Prop where
  vl : a ≠ 0x000 → a ≠ 0x001 → d.vl = c.vl
  vt : a ≠ 0x001 → d.vt = c.vt
  estart : a ≠ 0x002 → d.estart = c.estart
  fxrm : a ≠ 0x003 → d.fxrm = c.fxrm
  fxsat : a ≠ 0x004 → d.fxsat = c.fxsat
  frm : a ≠ 0x005 → d.frm = c.frm
  fflags : a ≠ 0x006 → d.fflags = c.fflags
  hwea : a ≠ 0x009 → d.hwea = c.hwea
  hweb : a ≠ 0x00A → d.hweb = c.hweb
  mode : a ≠ 0x020 → d.mode = c.mode
  taskid : a ≠ 0x022 → d.taskid = c.taskid
  vbyp : a ≠ 0x024 → d.vbyp = c.vbyp
  mstat : a ≠ 0x025 → d.mstat = c.mstat
  llcp : a ≠ 0x026 → d.llcp = c.llcp
  tcause : a ≠ 0x040 → d.tcause = c.tcause
  tval : a ≠ 0x041 → d.tval = c.tval
  tpc : a ≠ 0x042 → d.tpc = c.tpc
  tvec : a ≠ 0x043 → d.tvec = c.tvec
  tstat : a ≠ 0x044 → d.tstat = c.tstat
  txa : a ≠ 0x045 → d.txa = c.txa
  txb : a ≠ 0x046 → d.txb = c.txb
  ptroot : a ≠ 0x050 → d.ptroot = c.ptroot
  cycle : d.cycle = c.cycle

theorem Ctl.store_sameBut (c : Ctl) (a : Nat) (w : Word) : c.SameBut a (c.store a w) := by
  unfold Ctl.store
  split <;> constructor <;> simp [Ctl.installVl, Ctl.installVt]

theorem Ctl.store_staged (c : Ctl) (a : Nat) (w : Word) : (c.store a w).staged = c.staged := by
  unfold Ctl.store
  split <;> rfl

/-- The single registers of a sequencer that a store does not name (R59, R65, R130). -/
theorem Seq.store_singles (q : Seq) (a : Nat) (w : Word) :
    (a ≠ 0x007 → (q.store a w).ldr = q.ldr) ∧ (a ≠ 0x008 → (q.store a w).rpidx = q.rpidx) ∧
    (a ≠ 0x00B → (q.store a w).rpbase = q.rpbase) ∧ (a ≠ 0x01C → (q.store a w).depth = q.depth) := by
  unfold Seq.store
  split_ifs <;> simp_all only [ne_eq, not_true_eq_false, false_implies, not_false_eq_true, implies_true, and_self]

section
variable (q : Seq) (a : Nat) (w : Word)

theorem Seq.store_lc : (q.store a w).lc = if 0x010 ≤ a ∧ a ≤ 0x015 then q.lc.setIfInBounds (a - 0x010) w else q.lc := by
  unfold Seq.store
  split_ifs <;> grind

theorem Seq.store_le : (q.store a w).le = if 0x016 ≤ a ∧ a ≤ 0x01B then q.le.setIfInBounds (a - 0x016) w else q.le := by
  unfold Seq.store
  split_ifs <;> grind

theorem Seq.store_li : (q.store a w).li = if 0x030 ≤ a ∧ a ≤ 0x035 then q.li.setIfInBounds (a - 0x030) w else q.li := by
  unfold Seq.store
  split_ifs <;> grind

theorem Seq.store_lb : (q.store a w).lb = if 0x038 ≤ a ∧ a ≤ 0x03D then q.lb.setIfInBounds (a - 0x038) w else q.lb := by
  unfold Seq.store
  split_ifs <;> grind

end

/-- What else a sequencer holds is out of a store's reach. -/
theorem Seq.store_rest (q : Seq) (a : Nat) (w : Word) : let r := q.store a w
    r.g = q.g ∧ r.pc = q.pc ∧ r.frame = q.frame ∧ r.running = q.running ∧ r.insn = q.insn ∧ r.record = q.record ∧
    r.inFlight = q.inFlight ∧ r.replay = q.replay ∧ r.back = q.back ∧
    r.owed = q.owed ∧ r.due = q.due ∧ r.constMark = q.constMark ∧ r.wait = q.wait ∧
    r.snap = q.snap ∧ r.view = q.view ∧ r.waited = q.waited := by
  unfold Seq.store
  split_ifs <;> simp

end Sys2Proof.Machine
end

section
/-! SUPPORT. The state after a write of a control register, and how every register of the map reads there (R122, R123). -/

namespace Sys2Proof.Machine

/-- The core after a write of v to address a. -/
def Core.ctlWritten (c : Core) (a : Nat) (v : Word) : Core :=
  if 0x100 ≤ a ∧ a ≤ 0x11F then
    if a % 2 = 0 then c.stageExtent ((a - 0x100) / 2) v else c.installExtent ((a - 0x100) / 2) v
  else { c with ctl := c.ctl.store a (v &&& crBits a) }

/-- The values that VT and FRM do not take (R141, R173). -/
def CtlRefuses (a : Nat) (v : Word) : Prop := a = 0x001 ∧ ¬ vtLegal v ∨ a = 0x005 ∧ 5 < v.toNat % 8

theorem State.mapSeq_self {s : State} {f : Seq → Seq} (h : f s.seq = s.seq) : s.mapSeq f = s := by
  rw [State.mapSeq_withSeq, h, State.withSeq_seq_self]

theorem Seq.store_core {q : Seq} {a : Nat} {w : Word} (h : a < 0x007 ∨ 0x100 ≤ a) : q.store a w = q := by
  unfold Seq.store
  simp only [show ¬ a = 0x007 by omega, show ¬ a = 0x008 by omega, show ¬ a = 0x00B by omega, show ¬ (0x010 ≤ a ∧ a ≤ 0x015) by omega,
    show ¬ (0x016 ≤ a ∧ a ≤ 0x01B) by omega, show ¬ a = 0x01C by omega, show ¬ (0x030 ≤ a ∧ a ≤ 0x035) by omega,
    show ¬ (0x038 ≤ a ∧ a ≤ 0x03D) by omega, if_false]

/-- A refused value is the ILLOP of VT and FRM (R141, R173). -/
theorem State.ctlStore_refused {s : State} {a : Nat} {v : Word} (h : CtlRefuses a v) : s.ctlStore a v = .error ⟨.illop, v, 0, 0⟩ := by
  unfold State.ctlStore
  obtain ⟨rfl, hv⟩ | ⟨rfl, hv⟩ := h
  · rw [if_pos ⟨rfl, by rwa [vtValid_iff]⟩]
  · rw [if_neg (by simp), if_pos rfl, if_pos (by simpa [bits_eq] using hv)]

/-- Any other write stores the legal bits, in the core and in the sequencer (R31, R122). -/
theorem State.ctlStore_taken {s : State} {a : Nat} {v : Word} (h : ¬ CtlRefuses a v) :
    s.ctlStore a v = .ok ((s.mapCore fun c => c.ctlWritten a v).mapSeq fun q => q.store a (v &&& crBits a)) := by
  unfold CtlRefuses at h
  push Not at h
  obtain ⟨hvt, hfrm⟩ := h
  unfold State.ctlStore
  rw [if_neg (fun x => x.2 ((vtValid_iff v).2 (hvt x.1)))]
  by_cases h5 : a = 0x005
  · subst h5
    rw [if_pos rfl, if_neg (by simpa [bits_eq] using hfrm rfl), State.mapSeq_self (Seq.store_core (by omega))]
    rfl
  · rw [if_neg h5]
    by_cases he : 0x100 ≤ a ∧ a ≤ 0x11F
    · rw [if_pos he, State.mapSeq_self (Seq.store_core (by omega))]
      simp only [Core.ctlWritten, he, and_self, if_true]
    · rw [if_neg he, ctlMask_eq h5]
      simp only [Core.ctlWritten, he, if_false]
      rfl

section
variable (s : State) (a : Nat) (v m n : Word) (g : Vector Word 32)

/-- The state after a write of v to address a, but for the hidden flags and the general registers, which no address names. -/
def State.ctlWritten : State :=
  let ctl := { (s.core.ctlWritten a v).ctl with unseenMain := m, unseenMatrix := n }
  ({ s with core := { s.core with ctl := ctl, e := (s.core.ctlWritten a v).e } }).withSeq
    { s.seq.store a (v &&& crBits a) with g := g }

@[simp] theorem State.ctlWritten_seq : (s.ctlWritten a v m n g).seq = { s.seq.store a (v &&& crBits a) with g := g } := by
  simp [State.ctlWritten]

theorem State.ctlWritten_ctl : (s.ctlWritten a v m n g).core.ctl =
    { (s.core.ctlWritten a v).ctl with unseenMain := m, unseenMatrix := n } := by
  simp [State.ctlWritten, State.withSeq]

@[simp] theorem State.ctlWritten_e : (s.ctlWritten a v m n g).core.e = (s.core.ctlWritten a v).e := by
  simp [State.ctlWritten, State.withSeq]

theorem State.ctlWritten_onlyControl : s.OnlyControl (s.ctlWritten a v m n g) := by
  obtain ⟨-, h⟩ := s.seq.store_rest a (v &&& crBits a)
  exact ⟨_, _, _, rfl, h⟩

/-- Registers of the core that an address beside the extents' does not name, and all of them for one of the extents. -/
theorem Core.ctlWritten_ctl (c : Core) (h : ¬ (0x100 ≤ a ∧ a ≤ 0x11F)) : (c.ctlWritten a v).ctl = c.ctl.store a (v &&& crBits a) := by
  simp only [Core.ctlWritten, h, if_false]

theorem Core.ctlWritten_extent (c : Core) (h : 0x100 ≤ a ∧ a ≤ 0x11F) :
    (c.ctlWritten a v).ctl = { c.ctl with staged := if a % 2 = 0 ∧ 0x101 < a then v else c.ctl.staged } := by
  simp only [Core.ctlWritten, h, and_self, if_true]
  unfold Core.stageExtent Core.installExtent
  split_ifs <;> grind

theorem Core.ctlWritten_e (c : Core) (j : Fin 16) : (c.ctlWritten a v).e.get j =
    if a = 0x101 + 2 * j.val ∧ j.val ≠ 0 then installed (v ++ c.ctl.staged) else c.e.get j := by
  unfold Core.ctlWritten
  by_cases he : 0x100 ≤ a ∧ a ≤ 0x11F
  · rw [if_pos he]
    by_cases hev : a % 2 = 0
    · rw [if_pos hev, if_neg (by omega), Core.stageExtent]
      split <;> rfl
    · rw [if_neg hev, Core.installExtent, checkedExtent_eq]
      by_cases h0 : (a - 0x100) / 2 = 0
      · rw [if_pos h0, if_neg (by omega)]
      · rw [if_neg h0, Vector.get_eq_getElem, Vector.getElem_setIfInBounds]
        by_cases hj : (a - 0x100) / 2 = j.val
        · rw [if_pos hj, if_pos (by omega)]
        · rw [if_neg hj, if_neg (by omega), Vector.get_eq_getElem]
  · rw [if_neg he, if_neg (by omega)]

/-- Six registers in a row after a store: the one that is named, and the others. -/
theorem get_stored (x : Vector Word 6) (base top : Nat) (w : Word) (j : Fin 6) (ht : top = base + 5) :
    (if base ≤ a ∧ a ≤ top then x.setIfInBounds (a - base) w else x).get j = if a = base + j.val then w else x.get j := by
  by_cases h : base ≤ a ∧ a ≤ top
  · rw [if_pos h, Vector.get_eq_getElem, Vector.getElem_setIfInBounds]
    by_cases hj : a - base = j.val
    · rw [if_pos hj, if_pos (by omega)]
    · rw [if_neg hj, if_neg (by omega), Vector.get_eq_getElem]
  · rw [if_neg h, if_neg (by omega)]

theorem State.ctlWritten_sameBut : s.core.ctl.SameBut a (s.ctlWritten a v m n g).core.ctl := by
  rw [State.ctlWritten_ctl]
  by_cases he : 0x100 ≤ a ∧ a ≤ 0x11F
  · rw [Core.ctlWritten_extent _ _ _ he]
    constructor <;> intros <;> rfl
  · rw [Core.ctlWritten_ctl _ _ _ he]
    obtain ⟨⟩ := s.core.ctl.store_sameBut a (v &&& crBits a)
    constructor <;> assumption

/-- The registers that an address does not name, and that are not linked to it, read as before (R122, R143, R31). -/
theorem State.crValue_unlinked {b : Nat} (hb : ¬ crLinked a b) : (s.ctlWritten a v m n g).crValue b = s.crValue b := by
  unfold crLinked at hb
  push Not at hb
  obtain ⟨hab, hvt, hext⟩ := hb
  have hc := s.ctlWritten_sameBut a v m n g
  obtain ⟨h07, h08, h0b, h1c⟩ := s.seq.store_singles a (v &&& crBits a)
  refine State.crValue_congr fun x hx => State.mem_crTable.2 ?_
  obtain hx | ⟨j, rfl, rfl⟩ | ⟨j, rfl, rfl⟩ | ⟨j, rfl, rfl⟩ | ⟨j, rfl, rfl⟩ | ⟨j, ⟨rfl, rfl⟩ | ⟨rfl, rfl⟩⟩ :=
    State.mem_crTable.1 hx
  · left
    have hall : ∀ p ∈ s.crSingles, a ≠ p.1 → (a = 0x001 → p.1 ≠ 0x000) → p ∈ (s.ctlWritten a v m n g).crSingles := by
      simp only [State.crSingles, List.forall_mem_cons, List.not_mem_nil, false_implies, implies_true, and_true]
      and_intros
      all_goals intro hab hvt
      · simp [hc.vl hab fun h1 => hvt h1 rfl]
      all_goals
        simp [hab, h07, h08, h0b, h1c, hc.vt, hc.estart, hc.fxrm, hc.fxsat, hc.frm, hc.fflags, hc.hwea, hc.hweb, hc.mode,
          hc.taskid, hc.vbyp, hc.mstat, hc.llcp, hc.tcause, hc.tval, hc.tpc, hc.tvec, hc.tstat, hc.txa, hc.txb, hc.ptroot, hc.cycle]
    exact hall _ hx hab hvt
  · exact .inr (.inl ⟨j, rfl, by rw [State.ctlWritten_seq, Seq.store_lc, get_stored _ _ _ _ _ _ rfl, if_neg hab]⟩)
  · exact .inr (.inr (.inl ⟨j, rfl, by rw [State.ctlWritten_seq, Seq.store_le, get_stored _ _ _ _ _ _ rfl, if_neg hab]⟩))
  · exact .inr (.inr (.inr (.inl ⟨j, rfl, by rw [State.ctlWritten_seq, Seq.store_li, get_stored _ _ _ _ _ _ rfl, if_neg hab]⟩)))
  · exact .inr (.inr (.inr (.inr (.inl ⟨j, rfl, by rw [State.ctlWritten_seq, Seq.store_lb, get_stored _ _ _ _ _ _ rfl, if_neg hab]⟩))))
  · refine .inr (.inr (.inr (.inr (.inr ⟨j, .inl ⟨rfl, ?_⟩⟩))))
    rw [State.ctlWritten_e, Core.ctlWritten_e, if_neg (by omega)]
  · refine .inr (.inr (.inr (.inr (.inr ⟨j, .inr ⟨rfl, ?_⟩⟩))))
    rw [State.ctlWritten_e, Core.ctlWritten_e, if_neg (by omega)]

/-- DEPTH takes the low three bits of any value but 7 (R130). -/
theorem Seq.store_depth (q : Seq) (v : Word) :
    (q.store 0x01C v).depth.setWidth 64 = if v.toNat % 8 = 7 then q.depth.setWidth 64 else v &&& 7 := by
  have h7 : v.setWidth 3 = (7 : BitVec 3) ↔ v.toNat % 8 = 7 := by
    rw [← BitVec.toNat_inj, BitVec.toNat_setWidth]
    rfl
  have hv : (v.setWidth 3).setWidth 64 = v &&& 7 := by
    refine BitVec.eq_of_toNat_eq ?_
    rw [BitVec.toNat_setWidth, BitVec.toNat_setWidth, BitVec.toNat_and]
    exact (Nat.mod_eq_of_lt (by omega)).trans (Nat.and_two_pow_sub_one_eq_mod v.toNat 3).symm
  unfold Seq.store
  simp only [show ¬ (0x01C : Nat) = 0x007 by omega, show ¬ (0x01C : Nat) = 0x008 by omega, show ¬ (0x01C : Nat) = 0x00B by omega,
    show ¬ (0x010 ≤ (0x01C : Nat) ∧ (0x01C : Nat) ≤ 0x015) by omega,
    show ¬ (0x016 ≤ (0x01C : Nat) ∧ (0x01C : Nat) ≤ 0x01B) by omega,
    if_false, if_true, h7]
  split
  · rfl
  · exact hv

/-- A register without a rule of its own holds the legal bits. -/
theorem State.crHeld_masked (old : Word) (h0 : a ≠ 0x000) (h : a ∉ [0x01C, 0x021, 0x023]) (he : a < 0x100) :
    s.crHeld a v old = v &&& crBits a := by
  simp only [List.mem_cons, List.not_mem_nil, or_false, not_or] at h
  obtain ⟨h1c, h21, h23⟩ := h
  unfold State.crHeld
  rw [if_neg h0, if_neg (by simp [h21, h23]), if_neg h1c, if_neg (by omega)]

/-- The named register holds what its rule says (R31, R122, R125, R130, R143). -/
theorem State.crValue_written {old : Word} (h : s.crValue a = some old) :
    (s.ctlWritten a v m n g).crValue a = some (s.crHeld a v old) := by
  have h0 : v &&& crBits 0x000 = v := and_crBits (by decide +kernel) v
  have h1 : v &&& crBits 0x001 = v := and_crBits (by decide +kernel) v
  have h1c : v &&& crBits 0x01C = v := and_crBits (by decide +kernel) v
  have hdepth := s.seq.store_depth v
  rw [State.crValue_iff] at h ⊢
  rw [State.mem_crTable]
  obtain hx | ⟨j, rfl, rfl⟩ | ⟨j, rfl, rfl⟩ | ⟨j, rfl, rfl⟩ | ⟨j, rfl, rfl⟩ | ⟨j, ⟨rfl, rfl⟩ | ⟨rfl, rfl⟩⟩ :=
    State.mem_crTable.1 h
  · left
    by_cases hd : a = 0x01C
    · subst hd
      obtain rfl : old = s.seq.depth.setWidth 64 := by simpa [State.crSingles] using hx
      simp [State.crSingles, State.crHeld, h1c, hdepth]
    have hall : ∀ p ∈ s.crSingles, p.1 ≠ 0x01C → (p.1, s.crHeld p.1 v p.2) ∈ (s.ctlWritten p.1 v m n g).crSingles := by
      rw [State.crSingles]
      simp only [List.forall_mem_cons, List.not_mem_nil, false_implies, implies_true, and_true]
      and_intros
      all_goals
        simp [State.crSingles, State.crHeld, State.ctlWritten_ctl, Core.ctlWritten, Ctl.store, Ctl.installVl, Ctl.installVt, Seq.store,
          vlmax_eq, State.vt, h0, h1]
    exact hall _ hx hd
  · refine .inr (.inl ⟨j, rfl, ?_⟩)
    rw [State.ctlWritten_seq, Seq.store_lc, get_stored _ _ _ _ _ _ rfl, if_pos rfl]
    exact s.crHeld_masked _ _ _ (by omega) (by simp; omega) (by omega)
  · refine .inr (.inr (.inl ⟨j, rfl, ?_⟩))
    rw [State.ctlWritten_seq, Seq.store_le, get_stored _ _ _ _ _ _ rfl, if_pos rfl]
    exact s.crHeld_masked _ _ _ (by omega) (by simp; omega) (by omega)
  · refine .inr (.inr (.inr (.inl ⟨j, rfl, ?_⟩)))
    rw [State.ctlWritten_seq, Seq.store_li, get_stored _ _ _ _ _ _ rfl, if_pos rfl]
    exact s.crHeld_masked _ _ _ (by omega) (by simp; omega) (by omega)
  · refine .inr (.inr (.inr (.inr (.inl ⟨j, rfl, ?_⟩))))
    rw [State.ctlWritten_seq, Seq.store_lb, get_stored _ _ _ _ _ _ rfl, if_pos rfl]
    exact s.crHeld_masked _ _ _ (by omega) (by simp; omega) (by omega)
  · refine .inr (.inr (.inr (.inr (.inr ⟨j, .inl ⟨rfl, ?_⟩⟩))))
    rw [State.ctlWritten_e, Core.ctlWritten_e, if_neg (by omega), State.crHeld, if_neg (by omega), if_neg (by omega), if_neg (by omega),
      if_pos (by omega), if_pos (by omega)]
  · refine .inr (.inr (.inr (.inr (.inr ⟨j, .inr ⟨rfl, ?_⟩⟩))))
    rw [State.ctlWritten_e, Core.ctlWritten_e, State.crHeld, if_neg (by omega), if_neg (by omega), if_neg (by omega), if_pos (by omega)]
    by_cases hj : j.val = 0
    · rw [if_pos (by omega), if_neg (by omega)]
    · rw [if_neg (by omega), if_pos (by omega)]

end

end Sys2Proof.Machine
end

section
/-! SUPPORT. What CTLR reads, and what CTLW, CTLS and CTLC do (R122, R164, R385). -/

namespace Sys2Proof.Machine

variable {s : State}

/-- The flags that a sequencer does not see are among those that the other one raised (R164). -/
theorem State.hidden_unseen (s : State) :
    s.hidden &&& (if s.cur = .main then s.core.ctl.unseenMain else s.core.ctl.unseenMatrix) = s.hidden := by
  unfold State.hidden
  rw [BitVec.and_comm, ← BitVec.and_assoc, BitVec.and_self]

/-- Of a register but FXSAT and FFLAGS the sequencer sees the whole. -/
theorem State.crSees_all {a : Nat} (h4 : a ≠ 0x004) (h6 : a ≠ 0x006) (x : Word) : s.crSees a x x :=
  ⟨s.hidden, s.hidden_unseen, by rw [if_neg h4, if_neg h6]⟩

theorem State.ctlTrue_all {a : Nat} (h4 : a ≠ 0x004) (h6 : a ≠ 0x006) (x : Word) : s.ctlTrue a x = x := by
  rw [State.ctlTrue, if_neg h4, if_neg h6]

/-- A register of the map reads as what the sequencer sees of it, and CTLS and CTLC start from its own value (R122, R164). -/
theorem State.ctlRead_of_crValue {a : Nat} {old : Word} (h : s.crValue a = some old) :
    ∃ y, s.ctlRead a = some y ∧ s.crSees a old y ∧ s.ctlTrue a y = old := by
  by_cases h4 : a = 0x004
  · subst h4
    obtain rfl : s.core.ctl.fxsat = old := Option.some.inj h
    exact ⟨_, rfl, ⟨s.hidden, s.hidden_unseen, rfl⟩, rfl⟩
  by_cases h6 : a = 0x006
  · subst h6
    obtain rfl : s.core.ctl.fflags = old := Option.some.inj h
    exact ⟨_, rfl, ⟨s.hidden, s.hidden_unseen, rfl⟩, rfl⟩
  refine ⟨old, ?_, State.crSees_all h4 h6 old, State.ctlTrue_all h4 h6 old⟩
  obtain hx | ⟨j, rfl, rfl⟩ | ⟨j, rfl, rfl⟩ | ⟨j, rfl, rfl⟩ | ⟨j, rfl, rfl⟩ | ⟨j, ⟨rfl, rfl⟩ | ⟨rfl, rfl⟩⟩ :=
    State.mem_crTable.1 (State.crValue_iff.1 h)
  · have hall : ∀ p ∈ s.crSingles, p.1 ≠ 0x004 → p.1 ≠ 0x006 → s.ctlRead p.1 = some p.2 := by
      simp only [State.crSingles, List.forall_mem_cons, List.not_mem_nil, false_implies, implies_true, and_true]
      and_intros
      any_goals exact fun _ _ => rfl
      · exact fun h => absurd rfl h
      · exact fun _ h => absurd rfl h
    exact hall _ hx h4 h6
  all_goals fin_cases j <;> rfl

theorem Ctl.noted_frame (c : Ctl) (q : SeqId) (a : Nat) (x : Word) :
    ∃ m n, c.noted q a x = { c with unseenMain := m, unseenMatrix := n } := by
  unfold Ctl.noted
  cases q
  · exact ⟨_, c.unseenMatrix, rfl⟩
  · exact ⟨c.unseenMain, _, rfl⟩

theorem Core.ctlWritten_frame (c : Core) (a : Nat) (v : Word) :
    c.ctlWritten a v = { c with ctl := (c.ctlWritten a v).ctl, e := (c.ctlWritten a v).e } := by
  unfold Core.ctlWritten Core.stageExtent Core.installExtent
  split_ifs <;> rfl

/-- The parts of a write, one after another, make the written state. -/
theorem State.ctlWritten_of_parts (s : State) (a : Nat) (v : Word) {x : Word} {m n : Word} {d : BitVec 5} {y : Word}
    (h : (s.core.ctlWritten a v).ctl.noted s.cur a x = { (s.core.ctlWritten a v).ctl with unseenMain := m, unseenMatrix := n }) :
    (((s.mapCore fun c => c.ctlWritten a v).mapSeq fun q => q.store a (v &&& crBits a)).mapCtl fun c => c.noted s.cur a x).setG d y =
      s.ctlWritten a v m n (if d = 0 then s.seq.g else s.seq.g.set d.toNat y d.isLt) := by
  obtain ⟨hg, -⟩ := s.seq.store_rest a (v &&& crBits a)
  have hc := s.core.ctlWritten_frame a v
  rw [State.setG_withSeq]
  obtain ⟨c, k, o, cur⟩ := s
  cases cur
  · simp only [State.ctlWritten, State.withSeq, State.mapCtl, State.mapSeq, State.mapCore, State.seq] at *
    rw [hc]
    simp only [h, hg]
  · simp only [State.ctlWritten, State.withSeq, State.mapCtl, State.mapSeq, State.mapCore, State.seq] at *
    rw [hc]
    simp only [h, hg]

/-- A write of VT clips VL (R143). -/
theorem State.vl_written (s : State) (v m n : Word) (g : Vector Word 32) :
    (s.ctlWritten 0x001 v m n g).vl = min s.vl (vlMaxOf v) := by
  have h1 : v &&& crBits 0x001 = v := and_crBits (by decide +kernel) v
  unfold State.vl
  rw [State.ctlWritten_ctl, Core.ctlWritten_ctl _ _ _ (by omega), h1]
  change (BitVec.ofNat 64 (min s.core.ctl.vl.toNat (vlmax v))).toNat = _
  rw [BitVec.toNat_ofNat, vlmax_eq, Nat.mod_eq_of_lt (by have := s.core.ctl.vl.isLt; omega)]

/-- The low word of an extent is staged, and no extent changes (R31). -/
theorem Core.ctlWritten_low (c : Core) {a : Nat} (v : Word) (h : 0x100 ≤ a ∧ a ≤ 0x11F ∧ a % 2 = 0) :
    (c.ctlWritten a v).e = c.e ∧ (c.ctlWritten a v).ctl.staged = if 0x101 < a then v else c.ctl.staged := by
  obtain ⟨hlo, hhi, hev⟩ := h
  refine ⟨Vector.ext fun j hj => ?_, ?_⟩
  · have he := c.ctlWritten_e a v ⟨j, hj⟩
    rwa [if_neg (by dsimp only; omega), Vector.get_eq_getElem, Vector.get_eq_getElem] at he
  · rw [Core.ctlWritten_extent _ _ _ ⟨hlo, hhi⟩]
    simp only [hev, true_and]

/-- The three writes of a control register, by the value that each would store (R122). -/
theorem State.ctl_spec {old y v : Word} {d : BitVec 5} {r : BitVec 12} {x : Word} {f : Word → Word → Word}
    (hread : s.ctlRead r.toNat = some y) (htrue : s.ctlTrue r.toNat y = old) (hv : v = f old x) :
    (crPrivileged r.toNat → s.privileged = false → s.ctl d r x f = s.trap s.refusal) ∧
    (¬ crPrivileged r.toNat ∨ s.privileged = true →
      (CtlRefuses r.toNat v → s.ctl d r x f = s.trap ⟨.illop, v, 0, 0⟩) ∧
      (¬ CtlRefuses r.toNat v → ∃ m n g, wroteG s.seq.g g d y ∧ s.ctl d r x f = (s.ctlWritten r.toNat v m n g).retire 32)) := by
  subst hv
  unfold State.ctl
  rw [hread]
  dsimp only
  rw [htrue, State.ctlWrite]
  refine ⟨fun hp hu => ?_, fun hok => ?_⟩
  · rw [if_pos ⟨(ctlPrivileged_iff _).2 hp, by simp [hu]⟩]
    rfl
  · rw [if_neg (by simpa [ctlPrivileged_iff, imp_iff_not_or] using hok)]
    refine ⟨fun h => ?_, fun h => ?_⟩
    · rw [State.ctlStore_refused h]
      rfl
    · rw [State.ctlStore_taken h]
      obtain ⟨m, n, hmn⟩ := (s.core.ctlWritten r.toNat (f old x)).ctl.noted_frame s.cur r.toNat x
      refine ⟨m, n, _, wroteG_set s.seq.g d y, congrArg (State.retire · 32) ?_⟩
      exact s.ctlWritten_of_parts r.toNat (f old x) hmn

end Sys2Proof.Machine
end

section
/-! Settled: O32 and O33, in the words of the statements, from the lemmas above. -/

namespace Sys2Proof.Machine

/-- Settles O32: each of the three is the same write of another value; the written state is given, so that each clause reads off it. -/
theorem controlWrites : Obligations.ControlWrites := by
  intro s d a r old i v hold hi
  obtain ⟨y, hread, hsees, htrue⟩ := State.ctlRead_of_crValue hold
  have hspec : ∃ f : Word → Word → Word, v = f old (s.g a) ∧ exec i s = .next (s.ctl d r (s.g a) f) := by
    obtain ⟨rfl, rfl⟩ | ⟨rfl, rfl⟩ | ⟨rfl, rfl⟩ := hi
    · exact ⟨fun _ x => x, rfl, rfl⟩
    · exact ⟨fun old x => old ||| x, rfl, rfl⟩
    · exact ⟨fun old x => old &&& ~~~x, rfl, rfl⟩
  obtain ⟨f, hv, hexec⟩ := hspec
  obtain ⟨hpriv, hopen⟩ := State.ctl_spec (d := d) hread htrue hv
  have hrefuse : (r = 0x001 ∧ ¬ vtLegal v ∨ r = 0x005 ∧ 5 < v.toNat % 8) ↔ CtlRefuses r.toNat v := by
    unfold CtlRefuses
    rw [← BitVec.toNat_inj, ← BitVec.toNat_inj]
    rfl
  rw [hexec, hrefuse]
  refine ⟨fun hp hu => congrArg _ (hpriv hp hu), fun hok => ⟨fun h => congrArg _ ((hopen hok).1 h), fun h => ?_⟩⟩
  obtain ⟨m, n, g, hg, hs⟩ := (hopen hok).2 h
  refine ⟨_, s.ctlWritten r.toNat v m n g, congrArg _ hs, State.retire_writesNone .., s.ctlWritten_onlyControl .., ⟨y, hsees, ?_⟩,
    s.crValue_written _ _ _ _ _ hold, fun b hb => s.crValue_unlinked _ _ _ _ _ hb, fun h1 => ?_, fun j hj hr => ?_, fun j hj hr => ?_,
    fun hr => ?_⟩
  · simpa using hg
  · subst h1
    exact s.vl_written v m n g
  · obtain ⟨he, hst⟩ := s.core.ctlWritten_low (a := r.toNat) v (by omega)
    rw [State.ctlWritten_ctl, State.ctlWritten_e]
    exact ⟨by rw [hst, if_pos (by omega)], he⟩
  · have he := s.core.ctlWritten_e r.toNat v
    rw [State.ctlWritten_ctl, State.ctlWritten_e, Core.ctlWritten_extent _ _ _ (by omega)]
    refine ⟨if_neg (by omega), by rw [he, if_pos (by omega)], fun k hk => by rw [he, if_neg (by omega)]⟩
  · have hr : r.toNat = 0x100 ∨ r.toNat = 0x101 := by simpa using hr
    have he : (s.core.ctlWritten r.toNat v).e = s.core.e := by
      refine Vector.ext fun j hj => ?_
      have := s.core.ctlWritten_e r.toNat v ⟨j, hj⟩
      rwa [if_neg (by dsimp only; omega), Vector.get_eq_getElem, Vector.get_eq_getElem] at this
    rw [State.ctlWritten_ctl, State.ctlWritten_e, Core.ctlWritten_extent _ _ _ (by omega)]
    exact ⟨he, if_neg (by omega)⟩

/-- Without a general register to write, what is left of a write is the core's. -/
theorem State.ctlStore_core {s : State} {a : Nat} {v : Word} (h : ¬ CtlRefuses a v) (ha : a < 0x007) :
    s.ctlStore a v = .ok (s.mapCtl fun c => c.store a (v &&& crBits a)) := by
  rw [State.ctlStore_taken h, State.mapSeq_self (Seq.store_core (.inl ha))]
  simp only [Core.ctlWritten, show ¬ (0x100 ≤ a ∧ a ≤ 0x11F) by omega, if_false]
  rfl

/-- The main sequencer of the core in focus stays in focus. -/
theorem State.focus_self {s : State} (h : s.cur = .main) : s.focus s.coreNo .main = s := by
  rw [State.focus, if_pos rfl, ← h]

/-- A change of one core leaves the other cores and the rest of the module (R1). -/
theorem State.mapCoreNo_spec (s : State) {c : Nat} (f : Core → Core) (h : c < 224) :
    (s.mapCoreNo c f).coreAt c = f (s.coreAt c) ∧ (∀ m, m ≠ c → (s.mapCoreNo c f).coreAt m = s.coreAt m) ∧
      (s.mapCoreNo c f).ms = s.ms ∧ (s.mapCoreNo c f).ver = s.ver ∧ (s.mapCoreNo c f).sched = s.sched ∧
      (s.mapCoreNo c f).str = s.str ∧ (s.mapCoreNo c f).io = s.io := by
  refine ⟨by rw [State.coreAt_mapCoreNo, if_pos ⟨rfl, h⟩], fun m hm => by rw [State.coreAt_mapCoreNo, if_neg fun x => hm x.1], ?_⟩
  obtain ⟨d, os, hs⟩ := s.mapCoreNo_frame c f
  rw [hs]
  exact ⟨rfl, rfl, rfl, rfl, rfl⟩

/-- EXTENT_LOW_WRITE (R31). -/
theorem Core.stageExtent_eq (k : Core) (n : BitVec 4) (v : Word) :
    k.stageExtent n.toNat v = { k with ctl := { k.ctl with staged := if n = 0 then k.ctl.staged else v } } := by
  have hn : n.toNat = 0 ↔ n = 0 := BitVec.toNat_inj (y := 0)
  simp only [Core.stageExtent, hn]
  split <;> rfl

/-- EXTENT_HIGH_WRITE (R31). -/
theorem Core.installExtent_eq (k : Core) (n : BitVec 4) (v : Word) :
    k.installExtent n.toNat v =
      { k with e := if n = 0 then k.e else k.e.setIfInBounds n.toNat (installed (v ++ k.ctl.staged)) } := by
  have hn : n.toNat = 0 ↔ n = 0 := BitVec.toNat_inj (y := 0)
  simp only [Core.installExtent, hn, checkedExtent_eq]
  split <;> rfl

/-- Settles O33: the extent words are a change of one core, and the others the store that the write instructions make too. -/
theorem registerWriteEvents : Obligations.RegisterWriteEvents := by
  refine ⟨fun s c n v hc => ⟨⟨_, rfl, ?_⟩, ⟨_, rfl, ?_⟩⟩, fun s v hcur hc => ?_⟩
  · rw [← Core.stageExtent_eq]
    exact s.mapCoreNo_spec (fun k => k.stageExtent n.toNat v) hc
  · rw [← Core.installExtent_eq]
    exact s.mapCoreNo_spec (fun k => k.installExtent n.toNat v) hc
  have hw (a : Nat) : (Host.Outcome.next (if Config.cores ≤ s.coreNo then s
      else (s.focus s.coreNo .main).orTrap ((s.focus s.coreNo .main).ctlStore a v) id) : Result) = .next (s.orTrap (s.ctlStore a v) id) := by
    rw [if_neg (by unfold Config.cores; omega), State.focus_self hcur]
  refine ⟨(hw 0).trans ?_, fun h => (hw 1).trans ?_, fun h => (hw 1).trans ?_, fun h => (hw 5).trans ?_, fun h => (hw 5).trans ?_⟩
  · rw [State.ctlStore_core (by simp [CtlRefuses]) (by omega), and_crBits (by decide +kernel)]
    rw [State.vt, ← vlmax_eq]
    rfl
  · rw [State.ctlStore_core (by simpa [CtlRefuses] using h) (by omega), and_crBits (by decide +kernel)]
    rw [State.vl, ← vlmax_eq]
    rfl
  · rw [State.ctlStore_refused (.inl ⟨rfl, h⟩)]
    rfl
  · rw [State.ctlStore_core (by simpa [CtlRefuses] using h) (by omega)]
    rfl
  · rw [State.ctlStore_refused (.inr ⟨rfl, h⟩)]
    rfl

end Sys2Proof.Machine
end

section
/-! SUPPORT. Extents from their fields, and the address and extent instructions by their checks (R30, R36-R38, R110). -/

namespace Sys2Proof.Machine

/-- The fields of an extent that is built from fields (R30). -/
theorem mkExtent_parts (base len kind : Nat) (rd wr : Bool) (tidx : Nat) : let x := mkExtent base len kind rd wr tidx
    extBase x = base % 2 ^ 58 ∧ extLen x = len % 2 ^ 59 ∧ extKind x = kind % 8 ∧ extRead x = rd ∧ extWrite x = wr ∧
      extTidx x = tidx % 64 := by
  have hb := Nat.mod_lt base (show 0 < 2 ^ 58 by norm_num)
  have hl := Nat.mod_lt len (show 0 < 2 ^ 59 by norm_num)
  have hk := Nat.mod_lt kind (show 0 < 8 by norm_num)
  have ht := Nat.mod_lt tidx (show 0 < 64 by norm_num)
  have hr := rd.toNat_lt
  have hw := wr.toNat_lt
  have hx : (mkExtent base len kind rd wr tidx).toNat = base % 2 ^ 58 + len % 2 ^ 59 * 2 ^ 58 + kind % 8 * 2 ^ 117 + rd.toNat * 2 ^ 120 +
      wr.toNat * 2 ^ 121 + tidx % 64 * 2 ^ 122 := by
    unfold mkExtent
    simp only [BitVec.toNat_ofNat, Nat.shiftLeft_eq]
    refine Nat.mod_eq_of_lt ?_
    norm_num at *
    omega
  dsimp only
  obtain ⟨h1, h2, h3, h4, h5, h6⟩ := extent_parts (mkExtent base len kind rd wr tidx)
  have hrd : ∀ a b : Bool, a.toNat = b.toNat → a = b := by decide
  generalize base % 2 ^ 58 = base at *
  generalize len % 2 ^ 59 = len at *
  generalize kind % 8 = kind at *
  generalize tidx % 64 = tidx at *
  rw [hx] at h1 h2 h3 h4 h5 h6
  norm_num at hb hl h1 h2 h3 h4 h5 h6
  refine ⟨by omega, by omega, by omega, hrd _ _ (by omega), hrd _ _ (by omega), by omega⟩

/-- The fields of an extent register fit their widths (R30). -/
theorem extent_fits (x : BitVec 128) : extLen x < 2 ^ 59 ∧ extKind x < 8 ∧ extTidx x < 64 := by
  obtain ⟨-, h2, h3, -, -, h6⟩ := extent_parts x
  rw [h2, h3, h6]
  exact ⟨Nat.mod_lt _ (by norm_num), Nat.mod_lt _ (by norm_num), Nat.mod_lt _ (by norm_num)⟩
  
/-- The fields of an extent that EXTR shows (R38). -/
theorem extBase_extractLsb (x : BitVec 128) : (x.extractLsb' 0 58).toNat = extBase x := by
  rw [(extent_parts x).1, BitVec.extractLsb'_toNat, Nat.shiftRight_zero]

theorem extLen_extractLsb (x : BitVec 128) : (x.extractLsb' 58 59).toNat = extLen x := by
  rw [(extent_parts x).2.1, BitVec.extractLsb'_toNat, Nat.shiftRight_eq_div_pow]

theorem extAttr_eq (x : BitVec 128) : extAttr x = (x.extractLsb' 117 3).toNat + 8 * (x.extractLsb' 120 1).toNat +
    16 * (x.extractLsb' 121 1).toNat + 32 * (x.extractLsb' 122 6).toNat := by
  obtain ⟨-, -, h3, h4, h5, h6⟩ := extent_parts x
  unfold extAttr
  simp only [BitVec.extractLsb'_toNat, Nat.shiftRight_eq_div_pow, Nat.shiftLeft_eq, h3, h4, h5, h6, pow_one]
  omega

/-- The reserved bits of a tagged address, and the bits above an offset (R29, R36). -/
theorem bits_tag_iff (t : Word) : bits t.toNat 59 58 ≠ 0 ↔ t.toNat / 2 ^ 58 % 4 ≠ 0 := by
  rw [bits_eq]
  norm_num

theorem bits_above_offset (x : Word) : bits x.toNat 63 58 ≠ 0 ↔ 2 ^ 58 ≤ x.toNat := by
  have := x.isLt
  rw [bits_eq]
  norm_num at *
  omega

/-- EXTR, BADDR and ETAG by their checks (R36, R38, R110). -/
theorem State.extr_eq (s : State) (d b : BitVec 5) (f : BitVec 128 → Nat) :
    s.extr d b f = if b.toNat < 16 then s.finishG 32 d (BitVec.ofNat 64 (f (s.extents[b.toNat]?.getD 0))) else s.illop := by
  unfold State.extr
  by_cases h : b.toNat < 16
  · rw [if_pos h, if_neg (by omega)]
    rfl
  · rw [if_neg h, if_pos (by omega)]

theorem execBaddr_eq (s : State) (d a b : BitVec 5) (w : BitVec 3) : exec (.baddr d a b w) s = .next (
    if (s.g a).toNat / 2 ^ 58 % 4 = 0 ∧ 0 ≤ baddrOffset (s.g a) (s.g b) ∧ baddrOffset (s.g a) (s.g b) < 2 ^ 58 then
      s.finishG 32 d (BitVec.ofNat 64 ((s.g a).toNat / 2 ^ 60 * 2 ^ 60 + (baddrOffset (s.g a) (s.g b)).toNat))
    else s.trap ⟨.addr, s.g a, 0, 0⟩) := by
  refine congrArg Host.Outcome.next ?_
  rw [offsetBy_spec, ← baddrOffset]
  by_cases h : (s.g a).toNat / 2 ^ 58 % 4 = 0
  · rw [if_neg (by rw [bits_tag_iff]; exact not_not.2 h)]
    by_cases ho : 0 ≤ baddrOffset (s.g a) (s.g b) ∧ baddrOffset (s.g a) (s.g b) < 2 ^ 58
    · rw [if_pos ho, if_pos ⟨h, ho⟩]
      rfl
    · rw [if_neg ho, if_neg (fun x => ho x.2)]
      rfl
  · rw [if_pos ((bits_tag_iff _).2 h), if_neg (fun x => h x.1)]

theorem execEtag_eq (s : State) (d a b : BitVec 5) (w : BitVec 3) : exec (.etag d a b w) s = .next (
    if 16 ≤ b.toNat then s.illop else if 2 ^ 58 ≤ (s.g a).toNat then s.trap ⟨.addr, s.g a, 0, 0⟩
    else s.finishG 32 d (BitVec.ofNat 64 (b.toNat * 2 ^ 60 + (s.g a).toNat))) := by
  refine congrArg Host.Outcome.next ?_
  simp only [bits_above_offset]
  change (if 16 ≤ b.toNat then _ else _) = _
  split
  · rfl
  split
  · rfl
  next hb ha => rw [offOf_eq, Nat.mod_eq_of_lt (by omega), tagged_eq _ _ (by omega) (by omega)]

theorem State.addressResult_spec (s : State) (i : Instr) (r : GResult) (h : s.addressResult i = some r) :
    exec i s = .next (s.finishG r.len r.d r.x) := by
  have hres {p : Prop} [Decidable p] {d : BitVec 5} {x : Word} (h : (if p then res d x else none) = some r) :
      p ∧ r = ⟨32, d, x⟩ := by
    split at h
    · exact ⟨‹p›, (Option.some.inj h).symm⟩
    · cases h
  have hex (d b : BitVec 5) (x : Word) (f : BitVec 128 → Nat) (h : (if b.toNat < 16 then res d x else none) = some r)
      (hf : x = BitVec.ofNat 64 (f (s.extents[b.toNat]?.getD 0))) :
      (Host.Outcome.next (s.extr d b f) : Result) = .next (
      s.finishG r.len r.d r.x) := by
    obtain ⟨hb, rfl⟩ := hres h
    rw [State.extr_eq, if_pos hb, hf]
  unfold State.addressResult at h
  split at h
  · obtain ⟨hc, rfl⟩ := hres h
    rw [execBaddr_eq, if_pos hc]
  · obtain ⟨⟨hb, ha⟩, rfl⟩ := hres h
    rw [execEtag_eq, if_neg (by omega), if_neg (by omega)]
  · refine hex _ _ _ extBase h ?_
    rw [← extBase_extractLsb, BitVec.ofNat_toNat]
  · refine hex _ _ _ extLen h ?_
    rw [← extLen_extractLsb, BitVec.ofNat_toNat]
  · refine hex _ _ _ extAttr h (congrArg _ ?_)
    exact (extAttr_eq _).symm
  · cases h

/-- The extent that EXTN makes: the base moved, the new length, and the permissions that both keep (R37). -/
def narrowedExtent (x : BitVec 128) (off len : Nat) (p : BitVec 2) : BitVec 128 :=
  mkExtent (extBase x + off) len (extKind x) (extRead x && p.getLsbD 0) (extWrite x && p.getLsbD 1) (extTidx x)

theorem narrowedExtent_parts (x : BitVec 128) (off len : Nat) (p : BitVec 2) (h : len ≤ extLen x) :
    let y := narrowedExtent x off len p
    extBase y = (extBase x + off) % 2 ^ 58 ∧ extLen y = len ∧ extKind y = extKind x ∧ extTidx y = extTidx x ∧
      extRead y = (extRead x && p.getLsbD 0) ∧ extWrite y = (extWrite x && p.getLsbD 1) := by
  obtain ⟨hl, hk, ht⟩ := extent_fits x
  obtain ⟨e1, e2, e3, e4, e5, e6⟩ := mkExtent_parts (extBase x + off) len (extKind x) (extRead x && p.getLsbD 0)
    (extWrite x && p.getLsbD 1) (extTidx x)
  rw [Nat.mod_eq_of_lt (by omega)] at e2
  rw [Nat.mod_eq_of_lt hk] at e3
  rw [Nat.mod_eq_of_lt ht] at e6
  exact ⟨e1, e2, e3, e6, e4, e5⟩

/-- EXTN by its checks (R37). -/
theorem execExtn_eq (s : State) (d a b : BitVec 5) (p : BitVec 2) (w : BitVec 3) (h0 : 0 < d.toNat) (h16 : d.toNat < 16) :
    let t := s.g a
    let len := (s.g b).toNat
    let off := t.toNat % 2 ^ 58
    let x := s.extents[t.toNat / 2 ^ 60]?.getD 0
    exec (.extn d a b p w) s = .next (
      if t.toNat / 2 ^ 58 % 4 ≠ 0 then s.trap ⟨.addr, t, 0, 0⟩
      else if extKind x = 2 then s.trap ⟨.perm, t, 0, 0⟩
      else if extKind x = 3 ∧ (off % 64 ≠ 0 ∨ len % 64 ≠ 0) then s.trap ⟨.addr, t, 0, 0⟩
      else if extLen x < off + len then s.trap ⟨.bounds, t, s.g b, BitVec.ofNat 64 (extLen x)⟩
      else (s.setE d.toNat (narrowedExtent x off len p)).retire 32) := by
  dsimp only
  rw [← offOf_eq, ← tagOf_eq]
  simp only [← bits_tag_iff]
  refine congrArg Host.Outcome.next (if_neg ?_)
  rintro (rfl | h)
  · exact absurd h0 (by decide)
  · omega

end Sys2Proof.Machine
end

section
/-! Settled: O2, in the words of the statement, from the lemmas above. -/

namespace Sys2Proof.Machine

/-- Settles O2: each instruction is its checks in order, and EXTN's new extent has the fields it is built from. -/
theorem addressesAndExtents : Obligations.AddressesAndExtents := by
  refine ⟨fun s i r h => ⟨_, s.addressResult_spec i r h, State.finishG_writes ..⟩,
    fun s d a b w => ⟨fun h => ?_, fun hb ha => ?_, fun hb => ?_⟩,
    fun s d a b p w h0 h16 => ?_, fun s d a b p w h => ?_⟩
  · rw [execBaddr_eq, if_neg (by push Not; omega)]
  · rw [execEtag_eq, if_neg (by omega), if_pos ha]
  · have hx (f : BitVec 128 → Nat) : s.extr d b f = s.illop := by rw [State.extr_eq, if_neg (by omega)]
    exact ⟨by rw [execEtag_eq, if_pos hb], congrArg _ (hx extBase), congrArg _ (hx extLen), congrArg _ (hx extAttr)⟩
  · have hexec := execExtn_eq s d a b p w h0 h16
    intro t len off x tr
    change exec _ s = .next (if t.toNat / 2 ^ 58 % 4 ≠ 0 then _ else if extKind x = 2 then _ else
      if extKind x = 3 ∧ (off % 64 ≠ 0 ∨ len % 64 ≠ 0) then _ else if extLen x < off + len then _ else _) at hexec
    simp only [show tr = if t.toNat / 2 ^ 58 % 4 ≠ 0 then some ⟨.addr, t, 0, 0⟩
        else if extKind x = 2 then some ⟨.perm, t, 0, 0⟩
        else if extKind x = 3 ∧ (off % 64 ≠ 0 ∨ len % 64 ≠ 0) then some ⟨.addr, t, 0, 0⟩
        else if extLen x < off + len then some ⟨.bounds, t, s.g b, BitVec.ofNat 64 (extLen x)⟩
        else none from rfl]
    split_ifs at hexec ⊢
    iterate 4 exact hexec
    next hlen =>
      exact ⟨_, _, hexec, State.retire_writesNone ..,
        narrowedExtent_parts x off len p (Nat.le_trans (Nat.le_add_left len off) (Nat.le_of_not_lt hlen))⟩
  · refine congrArg Host.Outcome.next (if_pos (h.imp (fun h => ?_) fun h => h))
    exact BitVec.eq_of_toNat_eq h

end Sys2Proof.Machine
end

section
/-! SUPPORT. The checks of an access in their order: its extent, then the local store or its pages (R29, R33, R43, R46). -/

namespace Sys2Proof.Machine

variable {s : State} {via : Via} {t : Word} {w : Nat} {c : Machine.Class}

/-- The checks of an extent in their order (R29, R33): the address is well formed, the extent allows the access, and it holds it. -/
theorem checkExtent_spec (ext : Vector (BitVec 128) 16) (t : Word) (w : Nat) (c : Machine.Class) :
    let n := t.toNat / 2 ^ 60
    let x := ext[n]?.getD 0
    let off := t.toNat % 2 ^ 58
    let allowed := extKind x ∈ c.kinds ∧ (c.rd = true → extRead x = true) ∧ (c.wr = true → extWrite x = true)
    let fits := if n = 0 then off + w ≤ 2 ^ 58 else off + w ≤ extLen x
    (t.toNat / 2 ^ 58 % 4 ≠ 0 → checkExtent ext t w c = .error ⟨.addr, t, 0, 0⟩) ∧
    (t.toNat / 2 ^ 58 % 4 = 0 →
      (¬ allowed → checkExtent ext t w c = .error ⟨.perm, t, 0, 0⟩) ∧
      (allowed → ¬ fits → checkExtent ext t w c = .error (if n = 0 then ⟨.addr, t, 0, 0⟩ else
        ⟨.bounds, t, BitVec.ofNat 64 w, BitVec.ofNat 64 (extLen x)⟩)) ∧
      (allowed → fits → checkExtent ext t w c = .ok (extKind x, if n = 0 then off else extBase x + off))) := by
  unfold checkExtent
  rw [tagOf_eq, offOf_eq]
  dsimp only
  generalize ext[t.toNat / 2 ^ 60]?.getD 0 = x
  generalize t.toNat / 2 ^ 60 = n
  generalize t.toNat % 2 ^ 58 = off
  simp only [bits_tag_iff]
  refine ⟨fun h => if_pos h, fun h => ?_⟩
  rw [if_neg (not_not.2 h)]
  have hkind : c.kinds.contains (extKind x) = true ↔ extKind x ∈ c.kinds := List.contains_iff_mem
  refine ⟨fun ha => ?_, fun ha hf => ?_, fun ha hf => ?_⟩
  · by_cases hk : extKind x ∈ c.kinds
    · rw [if_neg (not_not.2 (hkind.2 hk)), if_pos]
      grind
    · rw [if_pos (by rwa [hkind])]
  · obtain ⟨hk, hr, hw⟩ := ha
    rw [if_neg (not_not.2 (hkind.2 hk)), if_neg (by grind)]
    by_cases hn : n = 0
    · rw [if_pos hn] at hf
      rw [if_pos hn, if_pos hn, if_pos (by omega)]
    · rw [if_neg hn] at hf
      rw [if_neg hn, if_neg hn, if_pos (by omega)]
  · obtain ⟨hk, hr, hw⟩ := ha
    rw [if_neg (not_not.2 (hkind.2 hk)), if_neg (by grind)]
    by_cases hn : n = 0
    · rw [if_pos hn] at hf
      rw [if_pos hn, if_pos hn, if_neg (by omega)]
    · rw [if_neg hn] at hf
      rw [if_neg hn, if_neg hn, if_neg (by omega)]

/-- A check that fails is the trap, with nothing done. -/
theorem State.orTrap_error (s : State) {α : Type} {x : Except Trap α} {tr : Trap} (h : x = .error tr) (f : α → State) :
    s.orTrap x f = s.trap tr := by
  rw [h]
  rfl

/-- An access that its extent refuses (R33). -/
theorem State.resolve_error {tr : Trap} (h : checkExtent via.ext t w c = .error tr) : s.resolve via t w c = .error tr := by
  rw [State.resolve, h]

/-- An access to the local store: an atomic's granule, then a live window control block (R26, R250). -/
theorem State.resolve_local {kind a : Nat} (h : checkExtent via.ext t w c = .ok (kind, a)) (hk : kind = 1 ∨ kind = 2) :
    let crosses := c.whole = true ∧ 512 < a % 512 + w
    (crosses → s.resolve via t w c = .error ⟨.addr, t, 0, 0⟩) ∧
    (¬ crosses → c.wr = true → s.core.touchesLive a w = true → s.resolve via t w c = .error ⟨.barclobber, t, 0, 0⟩) ∧
    (¬ crosses → ¬ (c.wr = true ∧ s.core.touchesLive a w = true) → s.resolve via t w c = .ok [.ls a w]) := by
  rw [State.resolve, h]
  simp only [Seg.inGranule, decide_eq_true_eq, not_le]
  rw [if_pos hk]
  refine ⟨fun hc => if_pos hc, fun hc hwr ht => ?_, fun hc ht => ?_⟩
  · rw [if_neg hc, if_pos ⟨hwr, ht⟩]
  · rw [if_neg hc, if_neg ht]

section
variable {kind a : Nat} (h : checkExtent via.ext t w c = .ok (kind, a)) (hk : ¬ (kind = 1 ∨ kind = 2))
include h hk

/-- Elsewhere an access fails where its pages do; an atomic needs one granule (R26, R46). -/
theorem State.resolve_pages_error {tr : Trap} (hp : s.pages via t a w c kind = .error tr) : s.resolve via t w c = .error tr := by
  rw [State.resolve, h]
  dsimp only
  rw [if_neg hk, hp]

theorem State.resolve_one {g : Seg} (hp : s.pages via t a w c kind = .ok [g]) : s.resolve via t w c =
    if c.whole = true ∧ g.inGranule = false then .error ⟨.addr, t, 0, 0⟩ else .ok [g] := by
  rw [State.resolve, h]
  dsimp only
  rw [if_neg hk, hp]
  simp

theorem State.resolve_two {g g' : Seg} (hp : s.pages via t a w c kind = .ok [g, g']) : s.resolve via t w c =
    if c.whole = true then .error ⟨.addr, t, 0, 0⟩ else .ok [g, g'] := by
  rw [State.resolve, h]
  dsimp only
  rw [if_neg hk, hp]
  simp

end

/-- An access on one page or on two: both are translated before a permission is tested (R43, R46). -/
theorem State.pages_spec {va kind : Nat} : let w1 := min w (2 ^ 25 - va % 2 ^ 25)
    let fails (y : Cause) : Trap := ⟨y, t, 0, 0⟩
    let fails2 (y : Cause) : Trap := ⟨y, t + BitVec.ofNat 64 w1, 0, 0⟩
    let may (e pa k : Nat) : Option Cause := s.permit via c kind e pa k
    (s.page via va w1 c.wr = none → s.pages via t va w c kind = .error (fails (s.walkCause via.root va))) ∧
    (∀ e pa, s.page via va w1 c.wr = some (e, pa) →
      (w1 = w →
        (∀ y, may e pa w = some y → s.pages via t va w c kind = .error (fails y)) ∧
        (may e pa w = none → s.pages via t va w c kind = .ok [pageSeg e pa w])) ∧
      (w1 < w → s.page via (va + w1) (w - w1) c.wr = none →
        s.pages via t va w c kind = .error (fails2 (s.walkCause via.root (va + w1)))) ∧
      (w1 < w → ∀ e2 pa2, s.page via (va + w1) (w - w1) c.wr = some (e2, pa2) →
        (∀ y, may e pa w1 = some y → s.pages via t va w c kind = .error (fails y)) ∧
        (may e pa w1 = none → ∀ y, may e2 pa2 (w - w1) = some y → s.pages via t va w c kind = .error (fails2 y)) ∧
        (may e pa w1 = none → may e2 pa2 (w - w1) = none →
          s.pages via t va w c kind = .ok [pageSeg e pa w1, pageSeg e2 pa2 (w - w1)]))) := by
  unfold State.pages pageRest
  dsimp only
  generalize min w (2 ^ 25 - va % 2 ^ 25) = w1
  refine ⟨fun h => by rw [h], fun e pa h => ?_⟩
  rw [h]
  dsimp only
  refine ⟨fun hw => ?_, fun hw h2 => ?_, fun hw e2 pa2 h2 => ?_⟩
  · rw [if_pos hw.symm]
    exact ⟨fun y hy => by rw [hy], fun hy => by rw [hy]⟩
  · rw [if_neg (by omega), h2]
  · rw [if_neg (by omega), h2]
    exact ⟨fun y hy => by simp only [hy], fun hy y hy2 => by simp only [hy, hy2], fun hy hy2 => by simp only [hy, hy2]⟩

end Sys2Proof.Machine
end

section
/-! Settled: O5, in the words of the statement, from the lemmas above. -/

namespace Sys2Proof.Machine

/-- Settles O5: each access instruction takes the trap of its address or of its access; the checks of an access are those of its extent, then
those of the local store or of its pages. -/
theorem scalarAccessTraps : Obligations.ScalarAccessTraps := by
  refine ⟨fun s d a b sx w h => ⟨fun hea => ?_, fun ea tr hea => ?_, ⟨_, rfl, State.retire_writesNone ..⟩,
    fun sc k hk => ⟨_, congrArg Host.Outcome.next (if_neg hk), State.retire_writesNone ..⟩⟩, fun s t w c hw hw64 => ?_⟩
  · have he : effective (s.g a) (s.g b) = .error ⟨.addr, s.g a, 0, 0⟩ := by rw [effective_eq_eaOf, hea]
    refine ⟨congrArg _ (s.orTrap_error he _), congrArg _ (s.orTrap_error he _),
      fun hd => congrArg _ ((if_neg hd).trans (s.orTrap_error he _))⟩
  · have he : effective (s.g a) (s.g b) = .ok ea := by rw [effective_eq_eaOf, hea]
    have hacc {f : List Seg → State} {n : Nat} {c : Machine.Class} (hr : s.resolve s.via ea n c = .error tr) :
        s.orTrap (effective (s.g a) (s.g b)) (fun ea => s.orTrap (s.resolve s.via ea n c) f) = s.trap tr := by
      rw [he]
      exact s.orTrap_error hr f
    exact ⟨fun hr => congrArg _ (hacc hr), fun hr => congrArg _ (hacc hr), fun hd hr => congrArg _ ((if_neg hd).trans (hacc hr))⟩
  intro n x off allowed fits a w1 fails fails2 inLocal crosses may
  obtain ⟨hbad, hgood⟩ := checkExtent_spec s.via.ext t w c
  refine ⟨fun h => State.resolve_error (hbad h), fun h => ?_⟩
  obtain ⟨hperm, hfit, hok⟩ := hgood h
  replace hok : allowed → fits → checkExtent s.via.ext t w c = .ok (extKind x, a) := hok
  refine ⟨fun ha => State.resolve_error (hperm ha), fun ha hf => State.resolve_error (hfit ha hf),
    fun ha hf hl => State.resolve_local (hok ha hf) hl, fun ha hf hl => ?_⟩
  have herr {tr : Trap} := State.resolve_pages_error (s := s) (tr := tr) (hok ha hf) hl
  obtain ⟨h1, h2⟩ := State.pages_spec (s := s) (via := s.via) (t := t) (w := w) (c := c) (va := a) (kind := extKind x)
  refine ⟨fun hp => ⟨_, s.walkCause_spec _ _, herr (h1 hp)⟩, fun e pa hp => ?_⟩
  obtain ⟨hone, hpage, htwo⟩ := h2 e pa hp
  refine ⟨fun hw => ⟨fun y hy => herr ((hone hw).1 y hy), fun hy => State.resolve_one (hok ha hf) hl ((hone hw).2 hy)⟩,
    fun hw hp2 => ⟨_, s.walkCause_spec _ _, herr (hpage hw hp2)⟩, fun hw e2 pa2 hp2 => ?_⟩
  obtain ⟨hm1, hm2, hboth⟩ := htwo hw e2 pa2 hp2
  exact ⟨fun y hy => herr (hm1 y hy), fun hy y hy2 => herr (hm2 hy y hy2),
    fun hy hy2 => State.resolve_two (hok ha hf) hl (hboth hy hy2)⟩

end Sys2Proof.Machine
end

section
/-! SUPPORT. The walk, the checks of a page, and what a TLBI settles (R40, R41, R43, R44, R404). -/

namespace Sys2Proof.Machine

/-- Blocks and leaves as the fields of an entry (R41). -/
theorem isBlock_iff (e : Nat) : isBlock e ↔ pteValid e ∧ ¬ pteReserved e ∧ ¬ ptePacked e ∧ pteLeaf e ∧ bits e 35 17 = 0 := by
  unfold isBlock pteValid pteReserved pteLeaf ptePacked
  simp only [bits_eq, decide_eq_true_eq]
  norm_num
  omega

theorem isLeaf_iff (e : Nat) : isLeaf e ↔ pteValid e ∧ ¬ pteReserved e ∧ pteLeaf e ∧ bits e 24 17 = 0 := by
  unfold isLeaf pteValid pteReserved pteLeaf
  simp only [bits_eq, decide_eq_true_eq]
  norm_num
  omega

theorem isTable_iff (e : Nat) : isTable e ↔ pteValid e ∧ ¬ pteReserved e ∧ ¬ ptePacked e ∧ ¬ pteLeaf e := by
  rw [← leadsOn_iff]
  simp only [leadsOn, Bool.and_eq_true, Bool.not_eq_true', Bool.not_eq_true]
  tauto

/-- An entry with a property that the empty entry lacks stands in memory: it is what the walker finds there (R40, R43). -/
theorem entryIs_and_iff {P : Nat → Prop} (h0 : ¬ P 0) {pte : Nat → Nat} {x i e : Nat} :
    entryIs pte x i e ∧ P e ↔ e = entryAt pte (tableSlot x i) ∧ P e := by
  unfold entryIs entryAt
  rw [← tableSlot_eq]
  constructor
  · rintro ⟨⟨hp, rfl⟩, he⟩
    exact ⟨(if_pos hp).symm, he⟩
  · rintro ⟨h, he⟩
    by_cases hp : populated (tableSlot x i) = true
    · exact ⟨⟨hp, by rw [h, if_pos hp]⟩, he⟩
    · rw [if_neg hp] at h
      exact absurd (h ▸ he) h0

/-- The walk by the kinds of the entries that it finds (R40, R41). -/
theorem walk_eq (pte : Nat → Nat) (root : Word) (va : Nat) :
    let e1 := entryAt pte (tableSlot root.toNat (va / 2 ^ 47 % 2 ^ 11))
    let e2 := entryAt pte (tableSlot e1 (va / 2 ^ 36 % 2 ^ 11))
    let e3 := entryAt pte (tableSlot e2 (va / 2 ^ 25 % 2 ^ 11))
    (walk pte root va = some (e2, e2 / 2 ^ 36 % 2 ^ 18 * 2 ^ 36 + va % 2 ^ 36) ∧ root.toNat % 2 = 1 ∧ isTable e1 ∧ isBlock e2) ∨
    (walk pte root va = some (e3, e3 / 2 ^ 25 % 2 ^ 29 * 2 ^ 25 + va % 2 ^ 25) ∧ root.toNat % 2 = 1 ∧
      isTable e1 ∧ isTable e2 ∧ isLeaf e3) ∨
    (walk pte root va = none ∧ ¬ (root.toNat % 2 = 1 ∧ isTable e1 ∧ (isBlock e2 ∨ (isTable e2 ∧ isLeaf e3)))) := by
  intro e1 e2 e3
  have hw : walk pte root va = (if root.toNat % 2 = 0 then none else
      if ¬ pteValid e1 ∨ pteReserved e1 ∨ pteLeaf e1 ∨ ptePacked e1 then none else
      if ¬ pteValid e2 ∨ pteReserved e2 ∨ ptePacked e2 then none else
      if pteLeaf e2 then if bits e2 35 17 ≠ 0 then none else some (e2, e2 / 2 ^ 36 % 2 ^ 18 * 2 ^ 36 + va % 2 ^ 36, true)
      else if ¬ pteValid e3 ∨ pteReserved e3 ∨ ¬ pteLeaf e3 ∨ bits e3 24 17 ≠ 0 then none else
        some (e3, e3 / 2 ^ 25 % 2 ^ 29 * 2 ^ 25 + va % 2 ^ 25, false)).map fun r => (r.1, r.2.1) := by
    unfold walk walkLevels
    simp only [e1, e2, e3, tableSlot, pteTable, entryAt, bits_eq, Nat.shiftLeft_eq, pow_zero, Nat.div_one]
    rfl
  rw [hw, isTable_iff, isTable_iff, isBlock_iff, isLeaf_iff]
  clear_value e1 e2 e3
  clear hw
  split_ifs <;> grind

/-- The walk leads where the rules have it (R40, R41). -/
theorem walk_iff (pte : Nat → Nat) (root : Word) (va e pa : Nat) : walk pte root va = some (e, pa) ↔ LeadsTo pte root va e pa := by
  have h0 : ¬ isTable 0 ∧ ¬ isBlock 0 ∧ ¬ isLeaf 0 := by simp [isTable, isBlock, isLeaf]
  obtain ⟨ht, hb, hl⟩ := h0
  have hleads : LeadsTo pte root va e pa ↔ root.toNat % 2 = 1 ∧
      let e1 := entryAt pte (tableSlot root.toNat (va / 2 ^ 47 % 2 ^ 11))
      let e2 := entryAt pte (tableSlot e1 (va / 2 ^ 36 % 2 ^ 11))
      let e3 := entryAt pte (tableSlot e2 (va / 2 ^ 25 % 2 ^ 11))
      isTable e1 ∧ (isBlock e2 ∧ e = e2 ∧ pa = e2 / 2 ^ 36 % 2 ^ 18 * 2 ^ 36 + va % 2 ^ 36 ∨
        isTable e2 ∧ isLeaf e3 ∧ e = e3 ∧ pa = e3 / 2 ^ 25 % 2 ^ 29 * 2 ^ 25 + va % 2 ^ 25) := by
    refine and_congr_right fun _ => ⟨?_, ?_⟩
    · rintro ⟨e1, e2, h1, t1, h2, ⟨b2, rfl, rfl⟩ | ⟨t2, h3, l3, rfl⟩⟩
      · obtain ⟨rfl, -⟩ := (entryIs_and_iff ht).1 ⟨h1, t1⟩
        obtain ⟨rfl, -⟩ := (entryIs_and_iff hb).1 ⟨h2, b2⟩
        exact ⟨t1, .inl ⟨b2, rfl, rfl⟩⟩
      · obtain ⟨rfl, -⟩ := (entryIs_and_iff ht).1 ⟨h1, t1⟩
        obtain ⟨rfl, -⟩ := (entryIs_and_iff ht).1 ⟨h2, t2⟩
        obtain ⟨rfl, -⟩ := (entryIs_and_iff hl).1 ⟨h3, l3⟩
        exact ⟨t1, .inr ⟨t2, l3, rfl, rfl⟩⟩
    · rintro ⟨t1, ⟨b2, rfl, rfl⟩ | ⟨t2, l3, rfl, rfl⟩⟩
      · exact ⟨_, _, ((entryIs_and_iff ht).2 ⟨rfl, t1⟩).1, t1, ((entryIs_and_iff hb).2 ⟨rfl, b2⟩).1, .inl ⟨b2, rfl, rfl⟩⟩
      · exact ⟨_, _, ((entryIs_and_iff ht).2 ⟨rfl, t1⟩).1, t1, ((entryIs_and_iff ht).2 ⟨rfl, t2⟩).1,
          .inr ⟨t2, ((entryIs_and_iff hl).2 ⟨rfl, l3⟩).1, l3, rfl⟩⟩
  have hne {x : Nat} (h : isTable x) : ¬ isBlock x := fun hb => by
    obtain ⟨-, h4, -⟩ := h
    obtain ⟨-, h4', -⟩ := hb
    omega
  have hw := walk_eq pte root va
  rw [hleads]
  dsimp only at hw ⊢
  generalize entryAt pte (tableSlot root.toNat (va / 2 ^ 47 % 2 ^ 11)) = e1 at hw ⊢
  generalize entryAt pte (tableSlot e1 (va / 2 ^ 36 % 2 ^ 11)) = e2 at hw ⊢
  generalize entryAt pte (tableSlot e2 (va / 2 ^ 25 % 2 ^ 11)) = e3 at hw ⊢
  obtain ⟨hw, hr, t1, b2⟩ | ⟨hw, hr, t1, t2, l3⟩ | ⟨hw, hn⟩ := hw
  · have hnt : ¬ isTable e2 := fun t2 => hne t2 b2
    simp [hw, hr, t1, b2, hnt, eq_comm]
  · simp [hw, hr, t1, hne t2, t2, l3, eq_comm]
  · simp only [hw, reduceCtorEq, false_iff]
    rintro ⟨hr, t1, ⟨b2, -⟩ | ⟨t2, l3, -⟩⟩
    · exact hn ⟨hr, t1, .inl b2⟩
    · exact hn ⟨hr, t1, .inr ⟨t2, l3⟩⟩

/-- One page of an access (R41, R43, R304, R351). -/
theorem State.page_barred {s : State} {via : Via} {va : Nat} (w : Nat) (wr : Bool) (h : s.walkBar via.root va ≠ none) :
    s.page via va w wr = none := if_pos (Option.isSome_iff_ne_none.2 h)

theorem State.page_open {s : State} {via : Via} {va : Nat} (w : Nat) (wr : Bool) (h : s.walkBar via.root va = none) :
    (s.translate via.root va = none → s.page via va w wr = none) ∧
    (∀ e pa, s.translate via.root va = some (e, pa) → s.page via va w wr =
      if populated pa = true ∧ populated (pa + w - 1) = true ∧ e / 2 ^ 5 % 2 = 1 ∧ (wr = true → e / 2 ^ 6 % 2 = 1) ∧
        (e / 2 ^ 7 % 2 = 1 → pa < 2 ^ 43) then some (e, pa) else none) := by
  unfold State.page
  rw [h]
  refine ⟨fun ht => by rw [ht]; rfl, fun e pa ht => ?_⟩
  have hp : ptePacked e = true ↔ e / 2 ^ 7 % 2 = 1 := by simp [ptePacked, bits_eq]
  have hs : stackOf pa = none ↔ ¬ pa < 2 ^ 43 := by
    unfold stackOf
    split <;> simp_all
  rw [ht, if_neg (by simp)]
  dsimp only
  simp only [hp, hs, bits_eq, Nat.reduceSub, Nat.reduceAdd, pow_one]
  refine (if_congr (Q := ¬ _) ?_ rfl rfl).trans (ite_not ..)
  grind

/-- What a page lacks for an access, and that an assured task does not reach the host (R41, R382). -/
theorem State.permit_spec (s : State) (via : Via) (c : Machine.Class) (kind e pa w : Nat) :
    let lacks := (c.rd = true ∧ e / 2 % 2 = 0) ∨ (c.wr = true ∧ e / 2 ^ 2 % 2 = 0) ∨ (kind = 3 ∧ e / 2 ^ 7 % 2 = 1)
    (lacks → s.permit via c kind e pa w = some .perm) ∧
    (s.permit via c kind e pa w = none → ¬ lacks ∧ (via.assured = true → pa < Config.hostBase)) := by
  have hp : ptePacked e = true ↔ e / 2 ^ 7 % 2 = 1 := by simp [ptePacked, bits_eq]
  have hr : bits e 1 1 = e / 2 % 2 := by simp [bits_eq]
  have hw : bits e 2 2 = e / 2 ^ 2 % 2 := by simp [bits_eq]
  have hh : hostHomed pa = true ↔ ¬ pa < Config.hostBase := by simp [hostHomed]
  unfold State.permit
  rw [hr, hw]
  dsimp only
  by_cases h1 : (c.rd = true ∧ e / 2 % 2 = 0) ∨ (c.wr = true ∧ e / 2 ^ 2 % 2 = 0)
  · rw [if_pos h1]
    exact ⟨fun _ => rfl, fun h => by cases h⟩
  rw [if_neg h1]
  by_cases h2 : kind = 3 ∧ ptePacked e = true
  · rw [if_pos h2]
    exact ⟨fun _ => rfl, fun h => by cases h⟩
  rw [if_neg h2]
  rw [hp] at h2
  refine ⟨fun h => ?_, fun h => ⟨?_, fun ha => ?_⟩⟩
  · tauto
  · tauto
  · by_contra hpa
    rw [if_pos (⟨ha, hh.2 hpa⟩ : via.assured = true ∧ hostHomed pa = true)] at h
    split at h
    · split at h <;> cases h
    · split at h <;> cases h

/-- A TLBI counts for every page that it names (R44, R404). -/
theorem MemSys.le_latest {ms : MemSys} {x : Shootdown} (hx : x ∈ ms.shootdowns) {asid : Nat} {hit : Option Nat → Bool}
    (ha : x.asid.getD asid = asid) (hp : hit x.page = true) : x.stamp ≤ ms.latest asid hit := by
  unfold MemSys.latest
  generalize ms.shootdowns = xs at hx
  have hmono (ys : List Shootdown) (m : Nat) :
      m ≤ ys.foldl (fun m x => if x.asid.getD asid = asid ∧ hit x.page = true then max m x.stamp else m) m := by
    refine List.foldlRecOn ys _ (motive := fun n => m ≤ n) le_rfl fun n hn y _ => ?_
    split
    · omega
    · exact hn
  generalize 0 = m
  induction xs generalizing m with
  | nil => cases hx
  | cons y ys ih =>
    rw [List.foldl_cons]
    rcases List.mem_cons.1 hx with rfl | hx
    · rw [if_pos ⟨ha, hp⟩]
      exact le_trans (Nat.le_max_right ..) (hmono ..)
    · exact ih hx _

/-- Where no write came after write n, memory was then what it is (R113). -/
theorem MemSys.readBitsAt_now {ms : MemSys} {n : Nat} (h : ∀ p ∈ ms.past, p.stamp ≤ n) (a w : Nat) :
    ms.readBitsAt n a w = ms.mem.readBits a w := by
  unfold MemSys.readBitsAt Mem.readBits
  dsimp only
  generalize hv : ms.mem.read (a / 8) (spanBytes a w) = v
  refine congrArg (fun x => (x >>> (a % 8)) % 2 ^ w)
    (List.foldlRecOn ms.past _ (motive := fun x => x = v) rfl fun x hx p hp => ?_)
  rw [if_neg fun hc => absurd hc.1 (by have := h p hp; omega)]
  exact hx

/-- The walk of the tables as memory holds them, with or without the entries in poisoned sectors (R288; log 14). -/
def State.Walks (s : State) (root : Word) (va : Nat) : Prop := s.translate root va = walk s.ms.pte root va ∨
  (s.ms.poison ≠ [] ∧ s.translate root va = walk (fun x => s.ms.mem.readBits x 64) root va)

/-- After a TLBI with no write behind it, a translation is the walk of memory (R44, R404). -/
theorem State.walks_of_settled {s : State} {root : Word} {va : Nat}
    (h : ∀ p ∈ s.ms.past, p.stamp ≤ s.ms.tlbMark (bits root.toNat 63 54) (va >>> 25)) : s.Walks root va := by
  unfold State.Walks State.translate
  dsimp only
  by_cases hp : s.ms.poison = []
  · exact .inl (if_pos ⟨by simpa using h, hp⟩)
  rw [if_neg fun x => hp x.2]
  have hpte (k : Nat) : (fun a => s.ms.readBitsAt (s.ms.tlbMark (bits root.toNat 63 54) (va >>> 25) + k) a 64) =
      fun a => s.ms.mem.readBits a 64 :=
    funext fun a => MemSys.readBitsAt_now (fun p hx => (h p hx).trans (Nat.le_add_right ..)) a 64
  rw [hpte]
  unfold walk
  split
  · next e pa block hw =>
    rw [hw]
    split
    · exact .inl rfl
    · exact .inr ⟨hp, rfl⟩
  · exact .inl rfl

@[simp] theorem State.retire_ms (s : State) (len : Nat) : (s.retire len).ms = s.ms := by simp [State.retire]

/-- A TLBI changes nothing but what was noted of it, and settles the translations that it names (R404). -/
theorem State.shootdown_spec {s : State} (hpast : ∀ p ∈ s.ms.past, p.stamp ≤ s.ms.stamp) (asid page : Option Nat) :
    (∃ x, ({ s with ms := { s.ms with shootdowns := x } } : State).WritesNone (s.shootdown asid page) 32) ∧
    ∀ root va, asid.getD (bits root.toNat 63 54) = bits root.toNat 63 54 → page.getD (va >>> 25) = va >>> 25 →
      (s.shootdown asid page).Walks root va := by
  refine ⟨⟨_, State.retire_writesNone ..⟩, fun root va ha hp => State.walks_of_settled fun p hx => ?_⟩
  unfold State.shootdown at hx ⊢
  rw [State.retire_ms] at hx ⊢
  refine (hpast p hx).trans ?_
  exact MemSys.le_latest (x := { stamp := s.ms.stamp, asid := asid, page := page }) List.mem_cons_self ha (by simpa using hp)

theorem bits_asid (x : Word) : bits x.toNat 63 54 = x.toNat / 2 ^ 54 := by
  have := x.isLt
  rw [bits_eq]
  norm_num at *
  omega

end Sys2Proof.Machine
end

section
/-! Settled: O38, in the words of the statement, from the lemmas above. -/

namespace Sys2Proof.Machine

/-- Settles O38: the walk and the checks of a page as the rules have them, and a TLBI raises the mark behind which no noted write lies. -/
theorem translationMaintenance : Obligations.TranslationMaintenance := by
  refine ⟨walk_iff, fun s via va w wr => ⟨fun h => ?_, fun e pa h hheap => ?_⟩, State.permit_spec, fun s a b hpriv hpast => ?_⟩
  · obtain ⟨hheap, hfree⟩ := s.walkBar_spec via.root va
    by_cases hb : s.walkBar via.root va = none
    · refine (State.page_open w wr hb).1 (h.resolve_right fun hw => ?_)
      rw [hheap hw] at hb
      cases hb
    · exact State.page_barred w wr hb
  · obtain hb | ⟨hb, hlost⟩ := (s.walkBar_spec via.root va).2 hheap
    · exact .inr ((State.page_open w wr hb).2 e pa h)
    · exact .inl ⟨hlost, State.page_barred w wr (by simp [hb])⟩
  · intro walks done
    have hdo (x : State) : s.ifPrivileged x = x := if_pos hpriv
    have hasid {root : Word} (h : root.toNat / 2 ^ 54 = (s.g b).toNat % 1024) : asidOf (s.g b) = bits root.toNat 63 54 := by
      rw [bits_asid, h, asidOf, bits_eq]
      norm_num
    have hpage : (bits (s.g a).toNat 63 58 ≠ 0) = (2 ^ 58 ≤ (s.g a).toNat) := propext (bits_above_offset _)
    have hexec : exec (.tlbiPage a b) s = .next (if 2 ^ 58 ≤ (s.g a).toNat then s.trap ⟨.addr, s.g a, 0, 0⟩
        else s.shootdown (some (asidOf (s.g b))) (some ((s.g a).toNat >>> 25))) := by
      refine congrArg Host.Outcome.next ((hdo _).trans ?_)
      simp only [hpage]
    refine ⟨⟨_, congrArg Host.Outcome.next (hdo _), ?_⟩, ⟨_, congrArg Host.Outcome.next (hdo _), ?_⟩,
      fun h => ⟨_, hexec.trans (congrArg _ (if_neg (by omega))), ?_⟩,
      fun h => hexec.trans (congrArg _ (if_pos h)), fun h root va => State.walks_of_settled (by simp [h])⟩
    · obtain ⟨hd, hw⟩ := State.shootdown_spec hpast none none
      exact ⟨hd, fun root va => hw root va rfl rfl⟩
    · obtain ⟨hd, hw⟩ := State.shootdown_spec hpast (some (asidOf (s.g b))) none
      exact ⟨hd, fun root va hr => hw root va (hasid hr) rfl⟩
    · obtain ⟨hd, hw⟩ := State.shootdown_spec hpast (some (asidOf (s.g b))) (some ((s.g a).toNat >>> 25))
      refine ⟨hd, fun root va hr hv => hw root va (hasid hr) ?_⟩
      rw [Option.getD_some, Nat.shiftRight_eq_div_pow, Nat.shiftRight_eq_div_pow, hv]

end Sys2Proof.Machine
end

section
/-! SUPPORT. Ordered lists of elements: how a scan and a chained load's groups cut them (R46, R155). -/

namespace Sys2Proof.Machine

/-- A list in ascending order, cut where a property that only its first members have ends. -/
theorem filter_append_filter_not {l : List Nat} (hl : l.Pairwise (· < ·)) (p : Nat → Bool)
    (hp : ∀ i j, i < j → p j = true → p i = true) : l.filter p ++ l.filter (fun i => ! p i) = l := by
  induction l with
  | nil => rfl
  | cons i l ih =>
    obtain ⟨hi, hl⟩ := List.pairwise_cons.1 hl
    by_cases h : p i = true
    · simp [h, ih hl]
    · have hnone : l.filter p = [] := List.filter_eq_nil_iff.2 fun j hj hpj => h (hp i j (hi j hj) hpj)
      have hall : l.filter (fun i => ! p i) = l :=
        List.filter_eq_self.2 fun j hj => by simpa using fun hpj => h (hp i j (hi j hj) hpj)
      simp [h, hnone, hall]

/-- What stands in an ascending list at a member and behind it. -/
theorem eq_filter_append_cons {l : List Nat} (hl : l.Pairwise (· < ·)) {n : Nat} (hn : n ∈ l) :
    ∃ post, l = l.filter (· < n) ++ n :: post := by
  have hcut := filter_append_filter_not hl (fun i => decide (i < n)) fun i j hij hj => by
    simp only [decide_eq_true_eq] at hj ⊢
    omega
  have hmem : n ∈ l.filter fun i => ! decide (i < n) := by simpa using hn
  cases hf : l.filter fun i => ! decide (i < n) with
  | nil => rw [hf] at hmem; cases hmem
  | cons m post =>
    rw [hf] at hcut hmem
    have hm : m ∈ l.filter fun i => ! decide (i < n) := hf ▸ List.mem_cons_self
    have hnm : n ≤ m := by simpa using (List.mem_filter.1 hm).2
    have hs : (m :: post).Pairwise (· < ·) := hf ▸ hl.filter _
    have : n = m := (List.mem_cons.1 hmem).elim id fun h => absurd ((List.pairwise_cons.1 hs).1 n h) (by omega)
    exact ⟨post, by rw [this] at hcut ⊢; exact hcut.symm⟩

/-- A scan in which no element fails. -/
theorem scanElems_ok {β : Type} {f : Nat → Except Trap β} {g : Nat → β} {is : List Nat} (h : ∀ i ∈ is, f i = .ok (g i)) :
    scanElems f is = (is.map fun i => (i, g i), none) := by
  induction is with
  | nil => rfl
  | cons i is ih =>
    rw [scanElems, h i List.mem_cons_self]
    dsimp only
    rw [ih fun j hj => h j (List.mem_cons_of_mem _ hj)]
    rfl

/-- A scan up to the lowest element that fails. -/
theorem scanElems_error {β : Type} {f : Nat → Except Trap β} {g : Nat → β} {is post : List Nat} {n : Nat} {tr : Trap}
    (h : ∀ i ∈ is, f i = .ok (g i)) (hn : f n = .error tr) :
    scanElems f (is ++ n :: post) = (is.map fun i => (i, g i), some (n, tr)) := by
  induction is with
  | nil => rw [List.nil_append, scanElems, hn]; rfl
  | cons i is ih =>
    rw [List.cons_append, scanElems, h i List.mem_cons_self]
    dsimp only
    rw [ih fun j hj => h j (List.mem_cons_of_mem _ hj)]
    rfl

theorem takeWhile_append_stop {α : Type} {p : α → Bool} {l m : List α} (h : ∀ y ∈ m, p y = false) :
    (l ++ m).takeWhile p = l.takeWhile p := by
  induction l with
  | nil =>
    cases m with
    | nil => rfl
    | cons y m => simp [h y List.mem_cons_self]
  | cons x l ih => simp only [List.cons_append, List.takeWhile_cons, ih]

theorem drop_takeWhile_append {α : Type} (p : α → Bool) (l m : List α) :
    (l ++ m).drop (l.takeWhile p).length = l.dropWhile p ++ m := by
  conv_lhs => rw [← List.takeWhile_append_dropWhile (p := p) (l := l), List.append_assoc]
  rw [List.takeWhile_append_dropWhile, List.drop_left]

/-- Behind the members of the first group stand those of higher ones. -/
theorem lt_of_mem_dropWhile {α : Type} {g : α → Nat} {j : Nat} {l : List α} (hl : l.Pairwise fun x y => g x ≤ g y)
    (hj : ∀ y ∈ l, j ≤ g y) : ∀ y ∈ l.dropWhile (fun y => g y = j), j < g y := by
  induction l with
  | nil => exact fun y hy => by cases hy
  | cons x l ih =>
    obtain ⟨hx, hl⟩ := List.pairwise_cons.1 hl
    rw [List.dropWhile_cons]
    split
    · exact ih hl fun y hy => hj y (List.mem_cons_of_mem _ hy)
    · next h =>
      have hlt : j < g x := Nat.lt_of_le_of_ne (hj x List.mem_cons_self) fun e => h (by simp [e])
      intro y hy
      rcases List.mem_cons.1 hy with rfl | hy
      · exact hlt
      · exact hlt.trans_le (hx y hy)

/-- The groups of a chained load that have arrived: those of `xs`, where the first group of `ys` has not (R155). -/
theorem readyElems_append {wcnt epr : Nat} {xs ys : List (Nat × List Seg × Nat)} (fuel a : Nat)
    (hsort : xs.Pairwise fun x y => x.1 / epr ≤ y.1 / epr) (hlt : ∀ x ∈ xs, ∀ y ∈ ys, x.1 / epr < y.1 / epr)
    (hready : ∀ x ∈ xs, x.2.2 ≤ wcnt) (hfuel : ∀ x ∈ xs, a ≤ x.1 / epr ∧ x.1 / epr < a + fuel)
    (hstuck : ∀ y ∈ ys.head?, ∃ x ∈ ys.takeWhile (fun x => x.1 / epr = y.1 / epr), wcnt < x.2.2) :
    readyElems wcnt epr fuel (xs ++ ys) = xs.length := by
  induction fuel generalizing a xs with
  | zero =>
    cases xs with
    | nil => rfl
    | cons x xs => have := hfuel x List.mem_cons_self; omega
  | succ fuel ih =>
    cases xs with
    | nil =>
      cases ys with
      | nil => rfl
      | cons y ys =>
        obtain ⟨x, hx, hw⟩ := hstuck y rfl
        rw [List.nil_append, readyElems]
        refine if_neg fun hall => ?_
        have := List.all_eq_true.1 hall x hx
        simp only [decide_eq_true_eq] at this
        omega
    | cons x xs =>
      let p (z : Nat × List Seg × Nat) : Bool := z.1 / epr = x.1 / epr
      have htake : ((x :: xs) ++ ys).takeWhile p = (x :: xs).takeWhile p :=
        takeWhile_append_stop fun y hy => decide_eq_false (Nat.ne_of_gt (hlt x List.mem_cons_self y hy))
      have hrest : (x :: xs).dropWhile p = xs.dropWhile p := by simp [p]
      have hmem {y} (hy : y ∈ xs.dropWhile p) : y ∈ x :: xs := List.mem_cons_of_mem _ ((List.dropWhile_sublist p).subset hy)
      have hgt : ∀ y ∈ xs.dropWhile p, x.1 / epr < y.1 / epr :=
        lt_of_mem_dropWhile (g := fun y : Nat × List Seg × Nat => y.1 / epr) (List.pairwise_cons.1 hsort).2 (List.pairwise_cons.1 hsort).1
      have hrec : readyElems wcnt epr fuel (xs.dropWhile p ++ ys) = (xs.dropWhile p).length := by
        refine ih (x.1 / epr + 1) ((List.pairwise_cons.1 hsort).2.sublist (List.dropWhile_sublist p)) (fun y hy => hlt y (hmem hy))
          (fun y hy => hready y (hmem hy)) fun y hy => ?_
        have h1 := hgt y hy
        have h2 := hfuel x List.mem_cons_self
        have h3 := hfuel y (hmem hy)
        omega
      rw [List.cons_append, readyElems]
      change (if (((x :: xs) ++ ys).takeWhile p).all _ then
        (((x :: xs) ++ ys).takeWhile p).length + readyElems wcnt epr fuel (((x :: xs) ++ ys).drop (((x :: xs) ++ ys).takeWhile p).length)
        else 0) = _
      rw [htake, drop_takeWhile_append, hrest, hrec, if_pos]
      · rw [← hrest, ← List.length_append, List.takeWhile_append_dropWhile]
      · exact List.all_eq_true.2 fun y hy => decide_eq_true (hready y ((List.takeWhile_sublist p).subset hy))

end Sys2Proof.Machine
end

section
/-! SUPPORT. The elements of a chained load: where each lies, and which of them have arrived (R154, R155). -/

namespace Sys2Proof.Machine

section
variable {is : List Nat} (hs : is.Pairwise (· < ·)) {e : Nat → Nat × List Seg × Nat} (he : ∀ i, (e i).1 = i) {wcnt epr : Nat}
  (hfuel : ∀ i ∈ is, i / epr < 512)
include hs he hfuel

/-- Where every element has arrived, the load takes them all (R155). -/
theorem readyElems_all (h : ∀ i ∈ is, (e i).2.2 ≤ wcnt) : readyElems wcnt epr 512 (is.map e) = is.length := by
  have hr := readyElems_append (wcnt := wcnt) (epr := epr) (xs := is.map e) (ys := []) 512 0
    (List.pairwise_map.2 (hs.imp fun {i j} hij => by rw [he, he]; exact Nat.div_le_div_right (Nat.le_of_lt hij)))
    (fun _ _ _ hy => by cases hy) (by simpa using h) (by simpa [he] using hfuel) (fun _ hy => by cases hy)
  rwa [List.append_nil, List.length_map] at hr

/-- Where group m is the first that has not arrived, the load takes the elements below it, and is to go on there (R155). -/
theorem readyElems_waits {m : Nat} (hm : ∃ i ∈ is, i / epr = m ∧ wcnt < (e i).2.2)
    (h : ∀ i ∈ is, i / epr < m → (e i).2.2 ≤ wcnt) : let n := readyElems wcnt epr 512 (is.map e)
    (is.map e).take n = (is.filter (· / epr < m)).map e ∧ ∃ i, i / epr = m ∧ ((is.map e).drop n).head? = some (e i) := by
  let p (i : Nat) : Bool := i / epr < m
  obtain ⟨j, hj, hjm, hjw⟩ := hm
  have hcut : is.filter p ++ is.filter (fun i => ! p i) = is := filter_append_filter_not hs p fun i k hik hk => by
    simp only [p, decide_eq_true_eq] at hk ⊢
    exact (Nat.div_le_div_right (Nat.le_of_lt hik)).trans_lt hk
  have hge {i : Nat} : i ∈ is.filter (fun i => ! p i) ↔ i ∈ is ∧ m ≤ i / epr := by simp [p, List.mem_filter]
  have hlt {i : Nat} : i ∈ is.filter p ↔ i ∈ is ∧ i / epr < m := by simp [p, List.mem_filter]
  have hsort := hs.filter fun i => ! p i
  have hj' := hge.2 ⟨hj, hjm.ge⟩
  cases hys : is.filter (fun i => ! p i) with
  | nil => rw [hys] at hj'; cases hj'
  | cons y ys =>
    rw [hys] at hcut hj' hsort
    have hgrp {i : Nat} (hi : i ∈ y :: ys) : y / epr ≤ i / epr := by
      rcases List.mem_cons.1 hi with rfl | hi
      · exact le_rfl
      · exact Nat.div_le_div_right (Nat.le_of_lt ((List.pairwise_cons.1 hsort).1 i hi))
    have hym : y / epr = m := Nat.le_antisymm (hjm ▸ hgrp hj') (hge.1 (hys ▸ List.mem_cons_self)).2
    have hmap : is.map e = (is.filter p).map e ++ (y :: ys).map e := by rw [← List.map_append, hcut]
    have hmono {l : List Nat} (hl : l.Pairwise (· < ·)) : (l.map e).Pairwise fun x y => x.1 / epr ≤ y.1 / epr :=
      List.pairwise_map.2 (hl.imp fun {i j} hij => by rw [he, he]; exact Nat.div_le_div_right (Nat.le_of_lt hij))
    have hready : readyElems wcnt epr 512 (is.map e) = ((is.filter p).map e).length := by
      rw [hmap]
      refine readyElems_append 512 0 (hmono (hs.filter p)) ?_ ?_ ?_ ?_
      · simp only [List.forall_mem_map, he]
        exact fun a ha b hb => (hlt.1 ha).2.trans_le (hge.1 (hys ▸ hb)).2
      · simp only [List.forall_mem_map]
        exact fun a ha => h a (hlt.1 ha).1 (hlt.1 ha).2
      · simp only [List.forall_mem_map, he]
        exact fun a ha => ⟨Nat.zero_le _, (hfuel a (hlt.1 ha).1).trans_le (by omega)⟩
      · rintro z hz
        obtain rfl : e y = z := Option.some.inj hz
        have hmem : e j ∈ (y :: ys).map e := List.mem_map_of_mem hj'
        rw [← List.takeWhile_append_dropWhile (p := fun x : Nat × List Seg × Nat => x.1 / epr = (e y).1 / epr) (l := (y :: ys).map e),
          List.mem_append] at hmem
        refine ⟨e j, hmem.resolve_right fun hd => ?_, hjw⟩
        have hall : ∀ z ∈ (y :: ys).map e, (e y).1 / epr ≤ z.1 / epr := by
          simp only [List.forall_mem_map, he]
          exact fun i hi => hgrp hi
        have := lt_of_mem_dropWhile (g := fun x : Nat × List Seg × Nat => x.1 / epr) (hmono hsort) hall _ hd
        rw [he, he] at this
        omega
    intro n
    have hn : n = ((is.filter p).map e).length := hready
    rw [hn, hmap]
    exact ⟨List.take_left, y, hym, by rw [List.drop_left]; rfl⟩

end

/-- An access depends on the extents only through the one that its address selects (R33). -/
theorem State.resolve_ext (s : State) (via : Via) (ext : Vector (BitVec 128) 16) (t : Word) (w : Nat) (c : Machine.Class)
    (h : ext[tagOf t]?.getD 0 = via.ext[tagOf t]?.getD 0) : s.resolve { via with ext := ext } t w c = s.resolve via t w c := by
  have hc : checkExtent ext t w c = checkExtent via.ext t w c := by
    unfold checkExtent
    dsimp only
    rw [h]
  unfold State.resolve
  dsimp only
  rw [hc]
  rfl

/-- The tag and the offset of a tagged address that keeps the tag of another one (R29). -/
theorem tagged_parts (t : Word) {o : Nat} (ho : o < 2 ^ 58) :
    (BitVec.ofNat 64 (t.toNat / 2 ^ 60 * 2 ^ 60 + o)).toNat = t.toNat / 2 ^ 60 * 2 ^ 60 + o ∧
    tagOf (BitVec.ofNat 64 (t.toNat / 2 ^ 60 * 2 ^ 60 + o)) = t.toNat / 2 ^ 60 ∧
    offOf (BitVec.ofNat 64 (t.toNat / 2 ^ 60 * 2 ^ 60 + o)) = o := by
  have hu : (BitVec.ofNat 64 (t.toNat / 2 ^ 60 * 2 ^ 60 + o)).toNat = t.toNat / 2 ^ 60 * 2 ^ 60 + o := by
    have := t.isLt
    rw [BitVec.toNat_ofNat]
    norm_num at *
    omega
  refine ⟨hu, ?_, ?_⟩
  · rw [tagOf_eq, hu]
    omega
  · rw [offOf_eq, hu]
    omega

/-- A well-formed tagged address moved within the space (R29). -/
theorem tagged_add (t : Word) {n : Nat} (ht : t.toNat / 2 ^ 58 % 4 = 0) (hn : t.toNat % 2 ^ 58 + n < 2 ^ 58) :
    BitVec.ofNat 64 (t.toNat / 2 ^ 60 * 2 ^ 60 + (t.toNat % 2 ^ 58 + n)) = t + BitVec.ofNat 64 n := by
  refine BitVec.eq_of_toNat_eq ?_
  have := t.isLt
  rw [(tagged_parts t hn).1, BitVec.toNat_add, BitVec.toNat_ofNat]
  norm_num at *
  omega

theorem tag_lt (t : Word) : t.toNat / 2 ^ 60 < 16 := by
  have := t.isLt
  norm_num at *
  omega

variable {s : State}

/-- A chained load's means reach what its sequencer's do, where its extent is the one of the address (R34). -/
theorem State.resolve_chainVia (c : Chain) {u : Word} (w : Nat) (h : c.ext = s.extents[tagOf u]?.getD 0) :
    s.resolve (s.chainVia c) u w .chained = s.resolve s.via u w .chained := by
  refine s.resolve_ext s.via (Vector.replicate 16 c.ext) u w .chained ?_
  have h16 := tag_lt u
  rw [← tagOf_eq] at h16
  rw [Vector.getElem?_replicate, if_pos h16, h]
  rfl

/-- The address of an element at an exact offset: a trap, or the base moved within the space (R148). -/
theorem State.spot_elemAddr (t : Word) (o w : Nat) (c : Machine.Class) :
    (∃ e, elemAddr t (o : Int) = .error e ∧ s.spot t (o : Int) w c = .error e) ∨
    ∃ u, elemAddr t (o : Int) = .ok u ∧ s.spot t (o : Int) w c = s.resolve s.via u w c ∧ tagOf u = t.toNat / 2 ^ 60 ∧
      offOf u = t.toNat % 2 ^ 58 + o ∧ u = t + BitVec.ofNat 64 o := by
  unfold elemAddr State.spot
  rw [offsetBy_spec]
  simp only [bits_tag_iff, ← Int.natCast_add, Int.toNat_natCast]
  by_cases h1 : t.toNat / 2 ^ 58 % 4 = 0
  · rw [if_neg (not_not.2 h1)]
    by_cases h2 : t.toNat % 2 ^ 58 + o < 2 ^ 58
    · obtain ⟨-, htag, hoff⟩ := tagged_parts t h2
      refine .inr ⟨_, if_pos (by omega), if_neg (by omega), htag, hoff, tagged_add t h1 h2⟩
    · exact .inl ⟨_, if_neg (by omega), if_pos (by omega)⟩
  · exact .inl ⟨_, if_pos h1, if_pos (.inl h1)⟩

/-! An element of a chained load, by what its address, the access and the lap give. -/

section
variable {c : Chain} {i : Nat}

theorem State.chainElem_addr_error {e : Trap} (h : elemAddr c.t (unitDelta 1 (vtW c.vt) i 0) = .error e) : s.chainElem c i = .error e := by
  unfold State.chainElem
  simp only [h]

variable {u : Word} (h : elemAddr c.t (unitDelta 1 (vtW c.vt) i 0) = .ok u)
include h

theorem State.chainElem_access_error {e : Trap} (hr : s.resolve (s.chainVia c) u (vtW c.vt) .chained = .error e) :
    s.chainElem c i = .error e := by
  unfold State.chainElem
  simp only [h, hr]

theorem State.chainElem_access_ok {segs : List Seg} (hr : s.resolve (s.chainVia c) u (vtW c.vt) .chained = .ok segs) :
    s.chainElem c i =
      let p := ringPosition c.rel (extLen c.ext) (offOf u)
      if p + vtW c.vt > c.rel + extLen c.ext then .error ⟨.bounds, u, BitVec.ofNat 64 (vtW c.vt), BitVec.ofNat 64 (extLen c.ext)⟩
      else .ok (segs, p + vtW c.vt) := by
  unfold State.chainElem
  simp only [h, hr]

end

/-- An element of a chained load is checked as the rule has it (R154, R155). -/
theorem State.chainElem_spec (c : Chain) (hc : c.vt = s.vt) (hx : c.ext = s.extents[c.t.toNat / 2 ^ 60]?.getD 0) (i : Nat) :
    (∀ e, s.chainAt c.t c.ext c.rel i = .error e → s.chainElem c i = .error e) ∧
    (∀ segs, s.chainAt c.t c.ext c.rel i = .ok segs → s.chainElem c i = .ok (segs, s.chainPos c.t c.ext c.rel i + vtW s.vt)) := by
  have hd : unitDelta 1 (vtW c.vt) i 0 = ((i * vtW s.vt : Nat) : Int) := by simp [unitDelta, hc]
  unfold State.chainAt
  dsimp only
  obtain ⟨e, he, hs⟩ | ⟨u, hu, hs, htag, hoff, haddr⟩ := State.spot_elemAddr (s := s) c.t (i * vtW s.vt) (vtW s.vt) .chained
  · rw [hs]
    rw [← hd] at he
    exact ⟨fun _ h => Except.error.inj h ▸ State.chainElem_addr_error he, fun _ h => by cases h⟩
  · rw [hs]
    rw [← hd] at hu
    have hres := State.resolve_chainVia c (vtW s.vt) (u := u) (by rw [htag, hx])
    rw [← hc] at hres haddr ⊢
    cases hr : s.resolve s.via u (vtW c.vt) .chained with
    | error e =>
      rw [hr] at hres
      exact ⟨fun _ h => Except.error.inj h ▸ State.chainElem_access_error hu hres, fun _ h => by cases h⟩
    | ok segs =>
      rw [hr] at hres
      have hpos : ringPosition c.rel (extLen c.ext) (offOf u) = s.chainPos c.t c.ext c.rel i := by
        rw [hoff]
        rfl
      rw [State.chainElem_access_ok hu hres, hpos, ← haddr]
      dsimp only
      by_cases hlap : s.chainPos c.t c.ext c.rel i + vtW c.vt ≤ c.rel + extLen c.ext
      · rw [if_pos hlap, if_neg (by omega)]
        exact ⟨fun _ h => (by cases h), fun _ h => by rw [Except.ok.inj h]⟩
      · rw [if_neg hlap, if_pos (by omega)]
        exact ⟨fun _ h => Except.error.inj h ▸ rfl, fun _ h => by cases h⟩

end Sys2Proof.Machine
end

section
/-! SUPPORT. What a chained load writes: the elements of the groups that have arrived, then the policies (R145, R149, R155). -/

namespace Sys2Proof.Machine

/-- A value read as sW, in the model's words and as a machine word's. -/
theorem toInt_eq_bitVec {w : Nat} (hw : 0 < w) (x : Nat) : toInt w x = (BitVec.ofNat w x).toInt := by
  obtain ⟨n, rfl⟩ : ∃ n, w = n + 1 := ⟨w - 1, by omega⟩
  rw [BitVec.toInt_eq_toNat_cond, BitVec.toNat_ofNat, toInt, Nat.add_sub_cancel]
  refine if_congr ?_ rfl rfl
  rw [pow_succ]
  omega

/-- A loaded value in its container, in the model's words and in the rules' (R149). -/
theorem State.loaded_container (s : State) (x : Nat) : s.loaded x % 2 ^ s.cw = s.container x := by
  unfold State.loaded State.container
  split
  · have hw : 0 < vtW s.vt := Nat.succ_pos _
    rw [Nat.mod_eq_of_lt (ofInt_lt ..), toInt_eq_bitVec hw, BitVec.signExtend, BitVec.toNat_ofInt]
    rfl
  · rw [Nat.mod_mod]

variable {s : State} {c : Chain}

/-- Under the vector state in force, a chained load changes what it says and no more (R163). -/
theorem State.under_self (hvl : c.vl = s.core.ctl.vl) (hvt : c.vt = s.core.ctl.vt) {f : State → State}
    (hf : (f s).core.ctl.vl = s.core.ctl.vl ∧ (f s).core.ctl.vt = s.core.ctl.vt) : s.under c f = f s := by
  obtain ⟨h1, h2⟩ := hf
  unfold State.under
  dsimp only
  rw [show s.mapCtl (fun x => { x with vl := c.vl, vt := c.vt }) = s by rw [hvl, hvt]; rfl, ← h1, ← h2]
  rfl

/-- Elements put into the destination of a chained load, with their marks (R149, R161). -/
theorem State.chainPut_spec (hvl : c.vl = s.core.ctl.vl) (hvt : c.vt = s.core.ctl.vt) (h32 : c.d.toNat + s.grp ≤ 32) (is : List Nat)
    (at_ : Nat → List Seg) (need : Nat → Nat) : let u := s.chainPut c (is.map fun i => (i, at_ i, need i))
    ∃ v, u = { s with core := { s.core with v := v, ctl := s.core.ctl.marked c.d.toNat s.cw is } } ∧
      (∀ i, s.cw * i + s.cw ≤ 16384 * s.grp → u.elemAt c.d.toNat s.grp s.cw i =
        elem (setElems (s.groupRaw c.d.toNat s.grp) s.cw (is.map fun i => (i, s.loaded (s.readSegs (at_ i))))) s.cw i) ∧
      ∀ p, p < c.d.toNat ∨ c.d.toNat + s.grp ≤ p → u.vRaw p = s.vRaw p := by
  have hput : s.putFields c.d 1 ((is.map fun i => (i, at_ i, need i)).map fun e => (e.1, [s.loaded (s.readSegs e.2.1)])) =
      s.putElems c.d.toNat s.grp s.cw (is.map fun i => (i, s.loaded (s.readSegs (at_ i)))) := by
    unfold State.putFields
    rw [List.range_one, List.foldl_cons, List.foldl_nil, Nat.zero_mul, Nat.add_zero, List.map_map, List.map_map]
    rfl
  obtain ⟨v, hv, he, ho⟩ := s.putElems_spec c.d.toNat s.grp s.cw (is.map fun i => (i, s.loaded (s.readSegs (at_ i)))) h32
  have hu : s.chainPut c (is.map fun i => (i, at_ i, need i)) =
      s.putElems c.d.toNat s.grp s.cw (is.map fun i => (i, s.loaded (s.readSegs (at_ i)))) := by
    unfold State.chainPut
    rw [State.under_self hvl hvt, hput]
    rw [hput, hv]
    exact ⟨rfl, rfl⟩
  rw [hu]
  refine ⟨v, ?_, he, ho⟩
  rw [hv, List.map_map]
  exact congrArg (fun is => { s with core := { s.core with v := v, ctl := s.core.ctl.marked c.d.toNat s.cw is } }) (List.map_id' is)

/-- A chained load's policies, by VT and the elements that its mask leaves out (R145). -/
theorem State.chainPolicies_spec (hvl : c.vl = s.core.ctl.vl) (hvt : c.vt = s.core.ctl.vt) (h32 : c.d.toNat + s.grp ≤ 32) :
    let u := s.chainPolicies c
    ∃ v, u = s.mapCore (fun c => { c with v := v }) ∧
      (∀ i, s.cw * i + s.cw ≤ 16384 * s.grp → u.elemAt c.d.toNat s.grp s.cw i =
        if vtTail s.vt ∧ s.vl ≤ i then 0 else
          if vtMskp s.vt then elem (setElems (s.groupRaw c.d.toNat s.grp) s.cw (c.off.map fun i => (i, 0))) s.cw i
          else s.elemAt c.d.toNat s.grp s.cw i) ∧
      ∀ p, p < c.d.toNat ∨ c.d.toNat + s.grp ≤ p → u.vRaw p = s.vRaw p := by
  obtain ⟨v1, e1, p1, o1⟩ := s.maskPolicy_spec c.d.toNat s.grp s.cw c.off h32
  obtain ⟨v2, e2, p2, o2⟩ := (s.maskPolicy c.d.toNat s.grp s.cw c.off).tailPolicy_spec c.d.toNat s.grp s.cw c.vl.toNat h32
  have hctl : ((s.maskPolicy c.d.toNat s.grp s.cw c.off).tailPolicy c.d.toNat s.grp s.cw c.vl.toNat) =
      s.mapCore fun c => { c with v := v2 } := by
    rw [e2, e1]
    rfl
  have hu : s.chainPolicies c = (s.maskPolicy c.d.toNat s.grp s.cw c.off).tailPolicy c.d.toNat s.grp s.cw c.vl.toNat := by
    unfold State.chainPolicies
    rw [State.under_self hvl hvt]
    rw [hctl]
    exact ⟨rfl, rfl⟩
  rw [hu]
  have hvt1 : (s.maskPolicy c.d.toNat s.grp s.cw c.off).vt = s.vt := by rw [e1]; rfl
  refine ⟨v2, hctl, fun i hi => ?_, fun p hp => (o2 p hp).trans (o1 p hp)⟩
  rw [p2 i hi, p1 i hi, hvt1, hvl]
  rfl

/-! ## What stands in the registers -/

/-- The loads with one field, as the statement has them. -/
def State.chainSpec (s : State) (d : BitVec 5) (k h : BitVec 3) (t : Word) : MSpec :=
  { d := d, k := k, h := h, nf := 1, base := t, off := fun i _ => (i * vtW s.vt : Nat), cls := .chained, read := s.readSegs }

variable {d : BitVec 5} {k h : BitVec 3} {t : Word}

theorem State.loadMarks_one (ctl : Ctl) (is : List Nat) : s.loadMarks (s.chainSpec d k h t) ctl is = ctl.marked d.toNat s.cw is := by
  unfold State.loadMarks State.chainSpec
  rw [List.range_one, List.foldl_cons, List.foldl_nil, Nat.zero_mul, Nat.add_zero]

/-- With one field, what a load leaves is said of one group. -/
theorem State.loads_one {u : State} {n : Nat} {done : Bool} {at_ : Nat → List Seg}
    (he : ∀ i, s.cw * i + s.cw ≤ 16384 * s.grp → u.elemAt d.toNat s.grp s.cw i =
      s.afterLoad (s.chainSpec d k h t) n done (fun i _ => at_ i) 0 i)
    (ho : ∀ p, p < d.toNat ∨ d.toNat + s.grp ≤ p → u.vRaw p = s.vRaw p) :
    s.Loads u (s.chainSpec d k h t) n done (fun i _ => at_ i) := by
  refine ⟨fun f hf i hi => ?_, fun p hp => ho p ?_⟩
  · obtain rfl : f = 0 := by
      have : f < 1 := hf
      omega
    rw [Nat.zero_mul, Nat.add_zero]
    exact he i hi
  · rwa [show (s.chainSpec d k h t).nf = 1 from rfl, Nat.one_mul] at hp

theorem State.cw_pos (s : State) : 0 < s.cw := by
  unfold State.cw vtCw
  positivity

/-- The elements below n loaded, and the policies not yet applied (R145, R149). -/
theorem State.loads_below {u : State} (n : Nat) {at_ : Nat → List Seg}
    (he : ∀ i, s.cw * i + s.cw ≤ 16384 * s.grp → u.elemAt d.toNat s.grp s.cw i = elem (setElems (s.groupRaw d.toNat s.grp) s.cw
      (((s.active k s.estart).filter (· < n)).map fun i => (i, s.loaded (s.readSegs (at_ i))))) s.cw i)
    (ho : ∀ p, p < d.toNat ∨ d.toNat + s.grp ≤ p → u.vRaw p = s.vRaw p) :
    s.Loads u (s.chainSpec d k h t) n false (fun i _ => at_ i) := by
  refine State.loads_one (fun i hi => ?_) ho
  rw [he i hi, elem_setElems_map _ _ s.cw_pos _ ((s.active_nodup ..).filter _) (fun i => s.loaded (s.readSegs (at_ i))), s.loaded_container]
  simp only [List.mem_filter, State.mem_active, decide_eq_true_eq]
  unfold State.afterLoad State.elemAt
  simp only [State.chainSpec, Nat.zero_mul, Nat.add_zero, Bool.false_and, Bool.false_eq_true, if_false]
  split_ifs <;> grind

/-- All elements loaded, and the policies applied (R145, R149). -/
theorem State.loads_all {u u' : State} {at_ : Nat → List Seg}
    (he : ∀ i, s.cw * i + s.cw ≤ 16384 * s.grp → u.elemAt d.toNat s.grp s.cw i = elem (setElems (s.groupRaw d.toNat s.grp) s.cw
      ((s.active k s.estart).map fun i => (i, s.loaded (s.readSegs (at_ i))))) s.cw i)
    (ho : ∀ p, p < d.toNat ∨ d.toNat + s.grp ≤ p → u.vRaw p = s.vRaw p)
    (he' : ∀ i, s.cw * i + s.cw ≤ 16384 * s.grp → u'.elemAt d.toNat s.grp s.cw i = if vtTail s.vt ∧ s.vl ≤ i then 0 else
      if vtMskp s.vt then elem (setElems (u.groupRaw d.toNat s.grp) s.cw ((s.maskedOff k s.estart).map fun i => (i, 0))) s.cw i
      else u.elemAt d.toNat s.grp s.cw i)
    (ho' : ∀ p, p < d.toNat ∨ d.toNat + s.grp ≤ p → u'.vRaw p = u.vRaw p) :
    s.Loads u' (s.chainSpec d k h t) s.vl true (fun i _ => at_ i) := by
  refine State.loads_one (fun i hi => ?_) fun p hp => (ho' p hp).trans (ho p hp)
  have hu : elem (u.groupRaw d.toNat s.grp) s.cw i = u.elemAt d.toNat s.grp s.cw i := rfl
  rw [he' i hi, elem_setElems_map _ _ s.cw_pos _ (s.maskedOff_nodup ..) (fun _ => 0), hu, he i hi,
    elem_setElems_map _ _ s.cw_pos _ (s.active_nodup ..) (fun i => s.loaded (s.readSegs (at_ i))), s.loaded_container]
  simp only [State.mem_maskedOff, State.mem_active, Nat.zero_mod]
  unfold State.afterLoad State.elemAt
  simp only [State.chainSpec, Nat.zero_mul, Nat.add_zero, Bool.true_and]
  split_ifs <;> grind

end Sys2Proof.Machine
end

section
/-! SUPPORT. How a chained load goes on: complete, in flight, waiting, or into a trap (R155, R156). -/

namespace Sys2Proof.Machine

/-- The end check does not look at the loads in flight. -/
theorem Seq.endCheck_inFlight (q : Seq) (next : BitVec 58) (k : Nat) (fl : List InFlight) :
    ({ q with inFlight := fl } : Seq).endCheck next k = { q.endCheck next k with inFlight := fl } := by
  induction k generalizing q with
  | zero => rfl
  | succ k ih =>
    unfold Seq.endCheck
    split
    · dsimp only
      split
      · exact ih { q with
          lc := q.lc.setIfInBounds k (q.lc[k]?.getD 0 - 1), li := q.li.setIfInBounds k (q.li[k]?.getD 0 + 1) }
      · rfl
    · rfl

/-- Nor does going on. -/
theorem Seq.advance_inFlight (q : Seq) (len : Nat) (fl : List InFlight) :
    ({ q with inFlight := fl } : Seq).advance len = { q.advance len with inFlight := fl } := by
  unfold Seq.advance Seq.frameNext Seq.fallTo
  dsimp only
  split
  · split
    · rfl
    · split
      · rfl
      · exact Seq.endCheck_inFlight { q with wait := none, waited := 0, snap := none, view := [], frame := none, rpidx := 0, rpbase := 0 }
          _ _ fl
  · exact Seq.endCheck_inFlight { q with wait := none, waited := 0, snap := none, view := [] } _ _ fl

variable {s : State}

/-- A completed load: LDR on its group, ESTART 0, and the sequencer goes on (R59, R145). -/
theorem State.completed_eq (s : State) (d : BitVec 5) : ((s.setLdr .v d.toNat).setEstart 0).retire 32 =
    ({ s with core := { s.core with ctl := { s.core.ctl with estart := 0 } } }).withSeq
      (({ s.seq with g := s.seq.g, ldr := ldrOf .v d.toNat } : Seq).advance 32) := by
  unfold State.setLdr State.setEstart State.retire
  obtain ⟨c, n, o, cur⟩ := s
  cases cur <;> rfl

/-- The registers that a chained load owes from group m on. -/
theorem chain_owes (g d m : Nat) : ((groupsOf g ((List.range g).map fun j => (RegClass.v, d + j))).drop m).flatten =
    (List.range' (d + m) (g - m)).map (.reg .v) := by
  have hone : groupsOf g ((List.range g).map fun j => (RegClass.v, d + j)) = (List.range g).map fun j => [Res.reg .v (d + j)] := by
    unfold groupsOf
    refine List.map_congr_left fun j hj => ?_
    have hz : ((List.range g).map fun j => (RegClass.v, d + j)).zipIdx = (List.range g).map fun j => ((RegClass.v, d + j), j) := by
      refine List.ext_getElem (by simp) fun n h1 h2 => ?_
      simp
    have hf : (List.range g).filter (fun i => decide (i % g = j)) = [j] := by
      rw [List.filter_congr (q := (· == j)) fun i hi => by simp [Nat.mod_eq_of_lt (List.mem_range.1 hi), beq_eq_decide], List.filter_beq,
        List.count_eq_one_of_mem List.nodup_range hj]
      rfl
    rw [hz, List.filter_map, Function.comp_def, hf]
    rfl
  rw [hone, List.range_eq_range', ← List.map_drop, List.drop_range', ← List.flatMap_def, ← List.map_eq_flatMap, Nat.mul_one, Nat.zero_add,
    show List.range' (d + m) (g - m) = (List.range' m (g - m)).map (d + ·) from (List.map_add_range' ..).symm, List.map_map]
  rfl

/-- What stands in the scoreboard for a chained load whose groups below n are complete (R152, R155). -/
def State.chainFlight (s : State) (c : Chain) (n : Nat) : InFlight :=
  { s.flight s s.seq.insn (operands c.vt s.seq.insn) with
    first := c.first, epr := c.epr
    owes := (groupsOf (vtG c.vt) ((List.range (vtG c.vt)).map fun j => (.v, c.d.toNat + j))).drop n, done := n
    dests := regsOf ((List.range (vtG c.vt)).map fun j => (.v, c.d.toNat + j))
    old := [], bare := [], window := some (extTidx c.ext), chain := some c }

/-- A chained load that enters the scoreboard: the sequencer goes on as after a completed load (R155, R156). -/
theorem State.beginChain_eq (c : Chain) (i : Nat) : s.beginChain c i =
    ({ s with core := { s.core with ctl := { s.core.ctl with estart := 0 } } }).withSeq
      { ({ s.seq with g := s.seq.g, ldr := ldrOf .v c.d.toNat } : Seq).advance 32 with
        inFlight := s.seq.inFlight ++ [s.chainFlight c (i / c.epr)] } := by
  have hb : s.beginChain c i =
      (((s.mapSeq fun q => { q with inFlight := q.inFlight ++ [s.chainFlight c (i / c.epr)] }).setLdr .v c.d.toNat).setEstart 0).retire 32 := rfl
  rw [hb, State.completed_eq, State.mapSeq_withSeq, ← Seq.advance_inFlight]
  obtain ⟨c, n, o, cur⟩ := s
  cases cur <;> rfl

/-! ## Going on with what has arrived -/

section
variable {c : Chain} {good : List (Nat × List Seg × Nat)}

/-- What is left of the checked elements once those that have arrived are taken. -/
def State.chainRest (s : State) (c : Chain) (good : List (Nat × List Seg × Nat)) : Option (Nat × List Seg × Nat) :=
  (good.drop (readyElems (s.chainCount c) c.epr 512 good)).head?

/-- The elements of the groups that have arrived. -/
def State.chainReady (s : State) (c : Chain) (good : List (Nat × List Seg × Nat)) : List (Nat × List Seg × Nat) :=
  good.take (readyElems (s.chainCount c) c.epr 512 good)

/-! The four ways on, by whether an element is left and whether one fails (R155, R156). -/

theorem State.chainGo_complete (hs : scanElems (s.chainElem c) c.act = (good, none)) (hr : s.chainRest c good = none) :
    s.chainGo c = (((((s.chainPut c (s.chainReady c good)).chainPolicies c).setLdr .v c.d.toNat).setEstart 0).retire 32) := by
  unfold State.chainRest at hr
  unfold State.chainGo State.chainReady
  simp only [hs, hr]

theorem State.chainGo_trap {n : Nat} {tr : Trap} (hs : scanElems (s.chainElem c) c.act = (good, some (n, tr)))
    (hr : s.chainRest c good = none) : s.chainGo c = ((s.chainPut c (s.chainReady c good)).setEstart n).trap tr := by
  unfold State.chainRest at hr
  unfold State.chainGo State.chainReady
  simp only [hs, hr]

theorem State.chainGo_waits {b : Nat × Trap} {x : Nat × List Seg × Nat} (hs : scanElems (s.chainElem c) c.act = (good, some b))
    (hr : s.chainRest c good = some x) : s.chainGo c =
      (s.chainPut c (s.chainReady c good)).waitIn (.chained { c with act := c.act.filter fun i => x.1 / c.epr ≤ i / c.epr }) := by
  unfold State.chainRest at hr
  unfold State.chainGo State.chainReady
  simp only [hs, hr]

theorem State.chainGo_begins {x : Nat × List Seg × Nat} (hs : scanElems (s.chainElem c) c.act = (good, none))
    (hr : s.chainRest c good = some x) : s.chainGo c = (s.chainPut c (s.chainReady c good)).beginChain c x.1 := by
  unfold State.chainRest at hr
  unfold State.chainGo State.chainReady
  simp only [hs, hr]

end

end Sys2Proof.Machine
end

section
/-! SUPPORT. VLD.WC by its checks (R154), and the state that each of its ways on leaves. -/

namespace Sys2Proof.Machine

variable {s : State}

theorem State.vmemOk_one (s : State) (d : BitVec 5) : s.vmemOk d 1 = true ↔ d.toNat % s.grp = 0 ∧ d.toNat + s.grp ≤ 32 := by
  simp only [State.vmemOk, groupOk, Bool.and_eq_true, decide_eq_true_eq, Nat.one_mul, and_assoc, and_self]

/-- The checks of a window's extent and its control block (R154, R252). -/
theorem State.liveWindow_spec (s : State) (t : Word) :
    let x := s.extents[t.toNat / 2 ^ 60]?.getD 0
    let blk := s.core.ls.readBits (Config.blocksBase + 256 * extTidx x) 256
    let live := extKind x = 2 ∧ blk / 2 ^ 154 % 2 = 1 ∧ blk / 2 ^ 128 % 2 ^ 25 = extLen x
    (t.toNat / 2 ^ 58 % 4 ≠ 0 → s.liveWindow t = .error ⟨.addr, t, 0, 0⟩) ∧
    (t.toNat / 2 ^ 58 % 4 = 0 → (¬ live → s.liveWindow t = .error ⟨.perm, t, 0, 0⟩) ∧ (live → s.liveWindow t = .ok (x, blk))) := by
  intro x blk live
  have hl : live ↔ ¬ (extKind x ≠ 2 ∨ ¬ blockLive blk ∨ blockCap blk ≠ extLen x) := by
    simp only [live, blockLive, blockCap, bits_eq, Nat.reduceSub, Nat.reduceAdd, pow_one, decide_eq_true_eq]
    tauto
  have hw : s.liveWindow t = if bits t.toNat 59 58 ≠ 0 then .error ⟨.addr, t, 0, 0⟩
      else if extKind x ≠ 2 ∨ ¬ blockLive blk ∨ blockCap blk ≠ extLen x then .error ⟨.perm, t, 0, 0⟩ else .ok (x, blk) := by
    unfold State.liveWindow
    rw [tagOf_eq]
    rfl
  simp only [bits_tag_iff] at hw
  rw [hw, hl]
  refine ⟨fun h => if_pos h, fun h => ?_⟩
  rw [if_neg (not_not.2 h)]
  exact ⟨fun hn => if_pos (not_not.1 hn), fun hn => if_neg hn⟩

theorem State.chainedLoad_illegal {d a : BitVec 5} {k : BitVec 3} (h : ¬ s.vmemOk d 1 = true) : s.chainedLoad d a k = s.illop := if_pos h

theorem State.chainedLoad_error {d a : BitVec 5} {k : BitVec 3} (h : s.vmemOk d 1 = true) {tr : Trap}
    (hw : s.liveWindow (s.g a) = .error tr) : s.chainedLoad d a k = s.trap tr := (if_neg (not_not.2 h)).trans (s.orTrap_error hw _)

/-- A chained load of a live window goes on with what it captures (R34, R155). -/
theorem State.chainedLoad_live {d a : BitVec 5} {k : BitVec 3} (h : s.vmemOk d 1 = true) {x : BitVec 128} {blk : Nat}
    (hw : s.liveWindow (s.g a) = .ok (x, blk)) : s.chainedLoad d a k = s.chainGo (s.chainOf d (s.g a) k x (blk / 2 ^ 64 % 2 ^ 64)) := by
  have hoff : (List.range s.vl).filter (fun i => decide (s.estart ≤ i ∧ s.maskBit k i = false)) = s.maskedOff k s.estart := by
    refine List.filter_congr fun i _ => ?_
    simp
  have hrel : blockRcnt blk = blk / 2 ^ 64 % 2 ^ 64 := bits_eq ..
  unfold State.chainedLoad State.chainOf
  rw [if_neg (not_not.2 h), hw, hoff, ← hrel]
  rfl

section
variable {d : BitVec 5} {k h : BitVec 3} {t : Word} {x : BitVec 128} {rel : Nat}

theorem State.vectorCtl_quiet (s : State) : s.vectorCtl 0 false = { s.core.ctl with estart := 0 } := by
  unfold State.vectorCtl State.raised Ctl.raise
  have hall (y : Word) : y &&& 18446744073709551615#64 = y := BitVec.and_allOnes
  cases s.cur <;> simp [hall]

/-- A state with the same vector registers holds what a load leaves. -/
theorem State.Loads.congr {u u' : State} {r : MSpec} {n : Nat} {done : Bool} {at_ : Nat → Nat → List Seg} (hl : s.Loads u r n done at_)
    (hv : u'.core.v = u.core.v) : s.Loads u' r n done at_ := by
  obtain ⟨he, ho⟩ := hl
  refine ⟨fun f hf i hi => ?_, fun p hp => ?_⟩
  · rw [← he f hf i hi]
    unfold State.elemAt
    rw [State.groupRaw_congr hv]
  · rw [State.vRaw_congr hv, ho p hp]

/-- A chained load that has taken the elements below n (R149, R155, R161). -/
theorem State.chainPut_below (h32 : d.toNat + s.grp ≤ 32) (n : Nat) {is : List Nat} (his : is = (s.active k s.estart).filter (· < n))
    (at_ : Nat → List Seg) (need : Nat → Nat) : let u := s.chainPut (s.chainOf d t k x rel) (is.map fun i => (i, at_ i, need i))
    ∃ v, u = { s with core := { s.core with v := v, ctl := s.loadMarks (s.chainSpec d k h t) s.core.ctl is } } ∧
      s.Loads u (s.chainSpec d k h t) n false (fun i _ => at_ i) := by
  obtain ⟨v, hv, he, ho⟩ := State.chainPut_spec (s := s) (c := s.chainOf d t k x rel) rfl rfl h32 is at_ need
  refine ⟨v, by rw [State.loadMarks_one]; exact hv, ?_⟩
  subst his
  exact State.loads_below n he ho

/-- A chained load that has completed (R145, R155). -/
theorem State.chain_completed (h32 : d.toNat + s.grp ≤ 32) (at_ : Nat → List Seg) (need : Nat → Nat) :
    let c := s.chainOf d t k x rel
    let loaded := s.chainPut c ((s.active k s.estart).map fun i => (i, at_ i, need i))
    let u := (((loaded.chainPolicies c).setLdr .v c.d.toNat).setEstart 0).retire 32
    let ctl := s.loadMarks (s.chainSpec d k h t) (s.vectorCtl 0 false) (s.active k s.estart)
    ∃ q v, u = ({ s with core := { s.core with v := v, ctl := ctl } }).withSeq q ∧
      s.Loads u (s.chainSpec d k h t) s.vl true (fun i _ => at_ i) ∧ q.g = s.seq.g ∧ q.ldr = ldrOf .v d.toNat ∧ s.seq.Kept q ∧
      s.seq.GoesOn 32 q := by
  intro c loaded u ctl
  obtain ⟨v, hv, he, ho⟩ := State.chainPut_spec (s := s) (c := c) rfl rfl h32 (s.active k s.estart) at_ need
  dsimp only [loaded, u, ctl]
  clear ctl u loaded
  generalize s.chainPut c ((s.active k s.estart).map fun i => (i, at_ i, need i)) = u at hv he ho ⊢
  have hgrp : u.grp = s.grp := by rw [hv]; rfl
  have hcw : u.cw = s.cw := by rw [hv]; rfl
  have hvt : u.vt = s.vt := by rw [hv]; rfl
  have hvl : u.vl = s.vl := by rw [hv]; rfl
  obtain ⟨v', hv', he', ho'⟩ := State.chainPolicies_spec (s := u) (c := c) (by rw [hv]; rfl) (by rw [hv]; rfl) (by rw [hgrp]; exact h32)
  have hoff : c.off = s.maskedOff k s.estart := List.filter_congr fun i _ => by simp
  rw [hgrp, hcw, hvt, hvl, hoff] at he'
  rw [hgrp] at ho'
  obtain ⟨hg, hl, hk, hn⟩ := s.seq.advance_wrote 32 s.seq.g (ldrOf .v d.toNat)
  refine ⟨({ s.seq with g := s.seq.g, ldr := ldrOf .v d.toNat } : Seq).advance 32, v', ?_, ?_, hg, hl, hk, hn⟩
  · rw [State.completed_eq, hv', hv, State.loadMarks_one, State.vectorCtl_quiet]
    rfl
  · refine (State.loads_all he ho he' ho').congr ?_
    rw [State.completed_eq]
    simp [State.withSeq]

end

end Sys2Proof.Machine
end

section
/-! SUPPORT. The elements of a chained load under its own checks: which have arrived, and where it stops (R46, R155). -/

namespace Sys2Proof.Machine

theorem State.active_sorted (s : State) (k : BitVec 3) (n : Nat) : (s.active k n).Pairwise (· < ·) := List.pairwise_lt_range.filter _

/-- Elements fill a register (R139, R142). -/
theorem State.cw_dvd (s : State) : s.cw ∣ 16384 := by
  have hn : bits s.vt.toNat 2 0 < 8 := Nat.mod_lt _ (by norm_num)
  rw [State.cw, vtCw, show 16384 = 8 * 2 ^ 11 by norm_num]
  exact Nat.mul_dvd_mul_left 8 (pow_dvd_pow 2 (by omega))

/-- The groups of a legal destination are few (R140, R142). -/
theorem State.chain_groups {s : State} {i : Nat} (h32 : s.grp ≤ 32) (hvl : s.vl ≤ vlmax s.vt) (hi : i < s.vl) :
    i / (16384 / s.cw) < 512 := by
  have hdvd := s.cw_dvd
  have hmax : vlmax s.vt = 16384 / s.cw * s.grp := (Nat.div_mul_right_comm hdvd s.grp).symm
  have hlt : i < s.grp * (16384 / s.cw) := by
    rw [Nat.mul_comm, ← hmax]
    omega
  exact (Nat.div_lt_of_lt_mul (by rwa [Nat.mul_comm] at hlt)).trans_le (by omega)

section
variable {s : State} {d : BitVec 5} {k h : BitVec 3} {t : Word} {x : BitVec 128} {rel : Nat} (hx : x = s.extents[t.toNat / 2 ^ 60]?.getD 0)
  (at_ : Nat → List Seg)

/-- A checked element of a chained load: its number, where it lies, and the write count it needs. -/
def State.chainItem (s : State) (t : Word) (x : BitVec 128) (rel : Nat) (at_ : Nat → List Seg) (i : Nat) : Nat × List Seg × Nat :=
  (i, at_ i, s.chainPos t x rel i + vtW s.vt)

include hx

/-- Where every active element passes its checks. -/
theorem State.chain_scan_ok (hok : ∀ i ∈ s.active k s.estart, s.chainAt t x rel i = .ok (at_ i)) :
    scanElems (s.chainElem (s.chainOf d t k x rel)) (s.active k s.estart) =
      ((s.active k s.estart).map (s.chainItem t x rel at_), none) :=
  scanElems_ok (g := fun i => (at_ i, s.chainPos t x rel i + vtW s.vt)) fun i hi =>
    (State.chainElem_spec (s.chainOf d t k x rel) rfl hx i).2 _ (hok i hi)

/-- Where element n is the lowest that fails. -/
theorem State.chain_scan_error {n : Nat} {tr : Trap} (hn : n ∈ s.active k s.estart) (htr : s.chainAt t x rel n = .error tr)
    (hok : ∀ i ∈ s.active k s.estart, i < n → s.chainAt t x rel i = .ok (at_ i)) :
    scanElems (s.chainElem (s.chainOf d t k x rel)) (s.active k s.estart) =
      (((s.active k s.estart).filter (· < n)).map (s.chainItem t x rel at_), some (n, tr)) := by
  obtain ⟨post, hpost⟩ := eq_filter_append_cons (s.active_sorted k s.estart) hn
  have hspec := State.chainElem_spec (s.chainOf d t k x rel) rfl hx
  conv_lhs => rw [hpost]
  refine scanElems_error (g := fun i => (at_ i, s.chainPos t x rel i + vtW s.vt)) (fun i hi => ?_) ((hspec n).1 _ htr)
  obtain ⟨hi, hin⟩ := List.mem_filter.1 hi
  exact (hspec i).2 _ (hok i hi (by simpa using hin))

end

section
variable {s : State} {c : Chain} {is : List Nat} (hs : is.Pairwise (· < ·)) (hfuel : ∀ i ∈ is, i / c.epr < 512)
  {e : Nat → Nat × List Seg × Nat}
  (he : ∀ i, (e i).1 = i)
include hs hfuel he

/-- Where all have arrived nothing is left. -/
theorem State.chainRest_none (h : ∀ i ∈ is, (e i).2.2 ≤ s.chainCount c) :
    s.chainRest c (is.map e) = none ∧ s.chainReady c (is.map e) = is.map e := by
  unfold State.chainRest State.chainReady
  rw [readyElems_all hs he hfuel h, ← List.length_map (f := e), List.drop_length, List.take_length]
  exact ⟨rfl, rfl⟩

/-- Where group m is the first that has not arrived, the elements below it are taken. -/
theorem State.chainRest_some {m : Nat} (hm : ∃ i ∈ is, i / c.epr = m ∧ s.chainCount c < (e i).2.2)
    (h : ∀ i ∈ is, i / c.epr < m → (e i).2.2 ≤ s.chainCount c) :
    (∃ i, i / c.epr = m ∧ s.chainRest c (is.map e) = some (e i)) ∧
      s.chainReady c (is.map e) = (is.filter (· / c.epr < m)).map e := by
  obtain ⟨htake, hrest⟩ := readyElems_waits hs he hfuel hm h
  exact ⟨hrest, htake⟩

end

/-! ## What each way on leaves -/

section
variable {s : State} {d : BitVec 5} {k h : BitVec 3} {t : Word} {x : BitVec 128} {rel n : Nat} (h32 : d.toNat + s.grp ≤ 32)
  {good : List (Nat × List Seg × Nat)} {is : List Nat} (his : is = (s.active k s.estart).filter (· < n)) {at_ : Nat → List Seg}
  (hready : s.chainReady (s.chainOf d t k x rel) good = is.map (s.chainItem t x rel at_))
include h32 his hready

/-- In flight, with the elements that have arrived loaded (R155, R156). -/
theorem State.chainGo_inFlight {e : Nat × List Seg × Nat}
    (hscan : scanElems (s.chainElem (s.chainOf d t k x rel)) (s.active k s.estart) = (good, none))
    (hrest : s.chainRest (s.chainOf d t k x rel) good = some e) : let c := s.chainOf d t k x rel
    let m := e.1 / c.epr
    ∃ u q v y, s.chainGo c = u ∧
      u = ({ s with core := { s.core with v := v, ctl := { s.loadMarks (s.chainSpec d k h t) s.core.ctl is with estart := 0 } } }).withSeq
          { q with inFlight := s.seq.inFlight ++ [y] } ∧
      s.Loads u (s.chainSpec d k h t) n false (fun i _ => at_ i) ∧
      y.chain = some c ∧ y.done = m ∧ y.first = s.estart ∧ y.word = s.seq.insn ∧ y.addr = s.seq.pc ∧
      y.owes.flatten = (List.range' (d.toNat + m) (s.grp - m)).map (.reg .v) ∧ y.window = some (extTidx x) ∧
      q.g = s.seq.g ∧ q.ldr = ldrOf .v d.toNat ∧ s.seq.Kept q ∧ s.seq.GoesOn 32 q := by
  intro c m
  obtain ⟨v, hv, hloads⟩ := State.chainPut_below (h := h) (t := t) (x := x) (rel := rel) h32 n his at_
    fun i => s.chainPos t x rel i + vtW s.vt
  have hgo := State.chainGo_begins (c := c) hscan hrest
  rw [hready] at hgo
  obtain ⟨hg, hl, hk, hn⟩ := s.seq.advance_wrote 32 s.seq.g (ldrOf .v d.toNat)
  change s.chainPut c (is.map (s.chainItem t x rel at_)) = _ at hv
  change s.Loads (s.chainPut c (is.map (s.chainItem t x rel at_))) _ _ _ _ at hloads
  generalize s.chainPut c (is.map (s.chainItem t x rel at_)) = u at hv hloads hgo
  have hseq : u.seq = s.seq := by rw [hv]; rfl
  refine ⟨_, ({ s.seq with g := s.seq.g, ldr := ldrOf .v d.toNat } : Seq).advance 32, v, u.chainFlight c m, hgo, ?_, ?_,
    rfl, rfl, rfl, congrArg Seq.insn hseq, congrArg Seq.pc hseq, chain_owes .., rfl, hg, hl, hk, hn⟩
  · rw [State.beginChain_eq, hseq, hv]
    rfl
  · refine hloads.congr ?_
    rw [State.beginChain_eq]
    simp [State.withSeq]

/-- In a trap at element n, with those below it loaded (R155). -/
theorem State.chainGo_traps {b : Nat} {tr : Trap}
    (hscan : scanElems (s.chainElem (s.chainOf d t k x rel)) (s.active k s.estart) = (good, some (b, tr)))
    (hrest : s.chainRest (s.chainOf d t k x rel) good = none) : ∃ u v, s.chainGo (s.chainOf d t k x rel) = u.trap tr ∧
      u = { s with core := { s.core with
        v := v, ctl := { s.loadMarks (s.chainSpec d k h t) s.core.ctl is with estart := BitVec.ofNat 64 b } } } ∧
      s.Loads u (s.chainSpec d k h t) n false (fun i _ => at_ i) := by
  obtain ⟨v, hv, hloads⟩ := State.chainPut_below (h := h) (t := t) (x := x) (rel := rel) h32 n his at_
    fun i => s.chainPos t x rel i + vtW s.vt
  have hgo := State.chainGo_trap hscan hrest
  rw [hready] at hgo
  exact ⟨_, v, hgo, congrArg (fun u => u.setEstart b) hv, hloads.congr rfl⟩

/-- Waiting, where an element behind those that have not arrived fails (R155). -/
theorem State.chainGo_waiting {b : Nat × Trap} {e : Nat × List Seg × Nat}
    (hscan : scanElems (s.chainElem (s.chainOf d t k x rel)) (s.active k s.estart) = (good, some b))
    (hrest : s.chainRest (s.chainOf d t k x rel) good = some e) : let c := s.chainOf d t k x rel
    ∃ u v, s.chainGo c = u ∧
      u = ({ s with core := { s.core with v := v, ctl := s.loadMarks (s.chainSpec d k h t) s.core.ctl is } }).withSeq
        { s.seq with wait := some (.chained { c with act := (s.active k s.estart).filter (e.1 / c.epr ≤ · / c.epr) }),
                     snap := some s.extents } ∧
      s.Loads u (s.chainSpec d k h t) n false (fun i _ => at_ i) := by
  intro c
  obtain ⟨v, hv, hloads⟩ := State.chainPut_below (h := h) (t := t) (x := x) (rel := rel) h32 n his at_
    fun i => s.chainPos t x rel i + vtW s.vt
  have hgo := State.chainGo_waits (c := c) hscan hrest
  rw [hready] at hgo
  change s.chainPut c (is.map (s.chainItem t x rel at_)) = _ at hv
  change s.Loads (s.chainPut c (is.map (s.chainItem t x rel at_))) _ _ _ _ at hloads
  generalize s.chainPut c (is.map (s.chainItem t x rel at_)) = u at hv hloads hgo
  refine ⟨_, v, hgo, ?_, hloads.congr ?_⟩
  · rw [State.waitIn, State.mapSeq_withSeq, hv]
    rfl
  · simp [State.waitIn]

end

end Sys2Proof.Machine
end

section
/-! Settled: O21, in the words of the statement, from the lemmas above. -/

namespace Sys2Proof.Machine

/-- Settles O21: the checks, then the four ways on of a load whose groups arrive in order. -/
theorem chainedLoad : Obligations.ChainedLoad := by
  intro s d a k h at_ t x blk rel live legal act grp here r c
  have hlegal : s.vmemOk d 1 = true ↔ legal := s.vmemOk_one d
  obtain ⟨haddr, hwin⟩ := s.liveWindow_spec t
  refine ⟨fun hl => congrArg _ (State.chainedLoad_illegal fun hv => hl (hlegal.1 hv)),
    fun hl ht => congrArg _ (State.chainedLoad_error (hlegal.2 hl) (haddr ht)),
    fun hl ht hn => congrArg _ (State.chainedLoad_error (hlegal.2 hl) ((hwin ht).1 hn)), fun hl ht hlive hvl => ?_⟩
  have hexec : exec (.vldWc d a k h) s = .next (s.chainGo c) :=
    congrArg _ (State.chainedLoad_live (hlegal.2 hl) ((hwin ht).2 hlive))
  have h32 : d.toNat + s.grp ≤ 32 := hl.2
  have hcount : s.chainCount c = blk % 2 ^ 64 := (bits_eq ..).trans (by rw [pow_zero, Nat.div_one]; rfl)
  have hfuel {is : List Nat} (his : ∀ i ∈ is, i ∈ act) : ∀ i ∈ is, i / c.epr < 512 := fun i hi =>
    State.chain_groups (by omega) hvl ((s.mem_active ..).1 (his i hi)).1
  have hhere (i : Nat) : here i ↔ (s.chainItem t x rel at_ i).2.2 ≤ s.chainCount c := by rw [hcount]; rfl
  have hsort : act.Pairwise (· < ·) := s.active_sorted ..
  have hitem (i : Nat) : (s.chainItem t x rel at_ i).1 = i := rfl
  have hepr : 0 < 16384 / s.cw := Nat.div_pos (Nat.le_of_dvd (by norm_num) s.cw_dvd) s.cw_pos
  have hbelow (m : Nat) : act.filter (grp · < m) = act.filter (· < m * (16384 / s.cw)) :=
    List.filter_congr fun i _ => by
      simp only [grp, decide_eq_decide]
      exact Nat.div_lt_iff_lt_mul hepr
  refine ⟨fun hok => ⟨fun hall => ?_, fun m hm hlow => ?_⟩, fun n tr hn htr hok => ⟨fun hall => ?_, fun m hm hlow => ?_⟩⟩
  · have hscan := State.chain_scan_ok (d := d) rfl at_ hok
    obtain ⟨hrest, hready⟩ := State.chainRest_none (s := s) (c := c) hsort (hfuel fun _ h => h) hitem fun i hi => (hhere i).1 (hall i hi)
    obtain ⟨q, v, hu, hloads, hq⟩ := State.chain_completed (h := h) (t := t) (k := k) (x := x) (rel := rel) h32 at_
      fun i => s.chainPos t x rel i + vtW s.vt
    refine ⟨_, q, v, hexec.trans (congrArg _ ?_), hu, hloads, hq⟩
    rw [State.chainGo_complete hscan hrest, hready]
    rfl
  · have hscan := State.chain_scan_ok (d := d) rfl at_ hok
    obtain ⟨i, hi, him, hni⟩ := hm
    obtain ⟨⟨j, hj, hrest⟩, hready⟩ := State.chainRest_some (s := s) (c := c) hsort (hfuel fun _ h => h) hitem
      ⟨i, hi, him, Nat.lt_of_not_le fun hle => hni ((hhere i).2 hle)⟩ fun i hi him => (hhere i).1 (hlow i hi him)
    obtain ⟨u, q, v, y, hgo, hu, hloads, hchain, hdone, hy⟩ := State.chainGo_inFlight (h := h) h32 (hbelow m) hready hscan hrest
    rw [show (s.chainItem t x rel at_ j).1 / (s.chainOf d t k x rel).epr = m from hj] at hdone hy
    exact ⟨u, q, v, y, hexec.trans (congrArg _ hgo), hu, hloads, hchain, hdone, hy⟩
  · have hscan := State.chain_scan_error (d := d) rfl at_ hn htr hok
    obtain ⟨hrest, hready⟩ := State.chainRest_none (s := s) (c := c) (hsort.filter (· < n)) (hfuel fun _ h => (List.mem_filter.1 h).1) hitem
      fun i hi => (hhere i).1 (hall i (List.mem_filter.1 hi).1 (by simpa using (List.mem_filter.1 hi).2))
    obtain ⟨u, v, hgo, hu, hloads⟩ := State.chainGo_traps (h := h) h32 rfl hready hscan hrest
    exact ⟨u, v, hexec.trans (congrArg _ hgo), hu, hloads⟩
  · have hscan := State.chain_scan_error (d := d) rfl at_ hn htr hok
    obtain ⟨i, hi, hin, him, hni⟩ := hm
    have hmem {j : Nat} : j ∈ act.filter (· < n) ↔ j ∈ act ∧ j < n := by simp
    obtain ⟨⟨j, hj, hrest⟩, hready⟩ := State.chainRest_some (s := s) (c := c) (hsort.filter (· < n))
      (hfuel fun _ h => (hmem.1 h).1) hitem
      ⟨i, hmem.2 ⟨hi, hin⟩, him, Nat.lt_of_not_le fun hle => hni ((hhere i).2 hle)⟩
      fun i hi him => (hhere i).1 (hlow i (hmem.1 hi).1 (hmem.1 hi).2 him)
    have hcut : (act.filter (· < n)).filter (grp · < m) = act.filter (grp · < m) := by
      rw [List.filter_filter]
      refine List.filter_congr fun j _ => ?_
      by_cases hjm : grp j < m
      · have : j < n := lt_trans (lt_of_not_ge fun hij => absurd (show grp i ≤ grp j from Nat.div_le_div_right hij) (by omega)) hin
        simp [hjm, this]
      · simp [hjm]
    obtain ⟨u, v, hgo, hu, hloads⟩ := State.chainGo_waiting (h := h) h32 (hbelow m)
      (hready.trans (congrArg (List.map (s.chainItem t x rel at_)) hcut)) hscan hrest
    rw [show (s.chainItem t x rel at_ j).1 / (s.chainOf d t k x rel).epr = m from hj] at hu
    exact ⟨u, v, hexec.trans (congrArg _ hgo), hu, hloads⟩

end Sys2Proof.Machine
end

section
/-! SUPPORT. The flip of a page to the host where a dirty expanded line of a packed mapping cannot go home (R283, R288, R349; log
44), for O53. -/

namespace Sys2Proof.Machine

/-- An access to a packed page needs the sector with the index entry of its first chunk (R283). -/
theorem MemSys.index_mem_packedSectors (ms : MemSys) (frame off : Nat) {w : Nat} (hw : 0 < w) (wr : Bool) :
    (frame + 128 * (off / 32768)) / 1024 ∈ ms.packedSectors frame off w wr := by
  unfold MemSys.packedSectors MemSys.pkNeeds
  rw [if_neg hw.ne']
  exact List.mem_append_left _ List.mem_cons_self

/-- Poison in the sector of a chunk's index entry bars the write-back of every line of the chunk (R288). -/
theorem State.lineFails_of_index_poisoned {s : State} {l : Nat}
    (hp : (frameOf (1024 * l) + 128 * (pageOff (1024 * l) / 32768)) / 1024 ∈ s.ms.poison) : s.lineFails l ≠ none := by
  have hpoisoned : s.packedPoisoned (1024 * l) 1024 true = true :=
    List.any_eq_true.2 ⟨_, s.ms.index_mem_packedSectors _ _ (by decide) true, List.contains_iff_mem.2 hp⟩
  unfold State.lineFails
  by_cases hheap : s.packedInHeap (1024 * l) 1024 true = true
  · simp [hheap]
  · simp [hheap, hpoisoned]

/-- A line whose write-back is barred stays dirty, and nothing changes (log 44). -/
theorem State.cleanLine_barred {s : State} {l : Nat} (h : s.lineFails l ≠ none) : s.cleanLine l = s := if_pos h

/-- Where the write-back of every expanded line is barred, cleaning a page does nothing. -/
theorem State.cleanPacked_barred {s : State} (h : ∀ c ∈ s.ms.cached, s.lineFails (lineOf (8 * c.addr)) ≠ none) (f o w : Nat) :
    s.cleanPacked f o w = s := by
  have hdirty : ∀ l ∈ s.ms.dirtyLines (f + o) w, s.cleanLine l = s := by
    intro l hl
    obtain ⟨c, hc, rfl⟩ : ∃ c ∈ s.ms.cached, lineOf (8 * c.addr) = l := by
      simpa [MemSys.dirtyLines] using (List.mem_filter.1 hl).2
    exact State.cleanLine_barred (h c hc)
  unfold State.cleanPacked
  generalize s.ms.dirtyLines (f + o) w = lines at hdirty
  induction lines with
  | nil => rfl
  | cons l ls ih =>
    rw [List.foldl_cons, hdirty l List.mem_cons_self]
    exact ih fun x hx => hdirty x (List.mem_cons_of_mem l hx)

/-- A flip to the host keeps the expanded lines whose write-back is barred. -/
theorem State.flipDone_cached_of_barred {s : State}
    (h : ∀ c ∈ s.ms.cached, s.lineFails (lineOf (8 * c.addr)) ≠ none) : s.flipDone.ms.cached = s.ms.cached := by
  unfold State.flipDone
  dsimp only
  rw [State.cleanPacked_barred h]
  split_ifs <;> rfl

/-- The page at address 0 is exposed by a committed decoder and on its way to the host; an LLC holds a dirty expanded byte of its
chunk 0, whose index entry lies in a poisoned sector. -/
def flipBarred : State := { State.reset with ms := { MemSys.reset with
  hdm := Vector.replicate 8 { base := 0, size := 2 ^ 22, dpa := 0, ways := 1, granularity := 256, committed := true }
  owncmd := 0x9000000000000000
  cached := [{ die := 0, addr := 0, value := 0 }]
  poison := [0] } }

/-- The dirty byte of `flipBarred` outlasts the flip. -/
theorem flipBarred_cached : flipBarred.flipDone.ms.cached = [{ die := 0, addr := 0, value := 0 }] := by
  refine State.flipDone_cached_of_barred fun c hc => ?_
  obtain rfl : c = { die := 0, addr := 0, value := 0 } := List.mem_singleton.1 hc
  exact State.lineFails_of_index_poisoned (by decide)

end Sys2Proof.Machine
end

section
/-! Settled: O53, in the words of the statement, from the lemmas above. -/

namespace Sys2Proof.Machine

/-- Refutes O53: its clause of the end of a flip to the host says that no expanded line of the page stays in an LLC. In `flipBarred`
the write-back of such a line is barred by poison in a sector that it needs, and the model leaves the line dirty (log 44), so that
the line is there after the flip. -/
theorem not_ports : ¬ Obligations.Ports := by
  unfold Obligations.Ports
  rintro ⟨-, -, -, -, -, -, -, -, -, -, hflip, -⟩
  obtain ⟨-, hgo⟩ := hflip flipBarred
  obtain ⟨-, -, htoHost, -⟩ := hgo rfl
  obtain ⟨t, ht, -, -, -, hcached, -⟩ := htoHost (by decide) (List.not_mem_nil) rfl
  obtain rfl : flipBarred.flipDone = t := Host.Outcome.next.inj ht
  have hkept : { die := 0, addr := 0, value := 0 } ∈ flipBarred.flipDone.ms.cached := by
    rw [flipBarred_cached]
    exact List.mem_singleton_self _
  exact ((hcached _).1 hkept).2 rfl

end Sys2Proof.Machine
end

section
/-! SUPPORT. Branches, jumps and loops by their checks: where a target lies, and what the end check depends on (R126-R133). -/

namespace Sys2Proof.Machine

theorem legalTarget_iff (x : Int) : legalTarget x = true ↔ inSpace x := by
  simp only [legalTarget, inSpace, Bool.and_eq_true, decide_eq_true_eq]
  norm_num

/-- A jump sets pc and ends any wait, and nothing else changes (R132). -/
theorem State.jump_eq (s : State) (x : BitVec 58) : s.jump x =
    s.withSeq { s.seq with pc := x, wait := none, waited := 0, snap := none, view := [] } := State.mapSeq_withSeq ..

theorem State.jumpTo_inSpace (s : State) {x : Int} (h : inSpace x) : s.jumpTo x = s.jump (BitVec.ofInt 58 x) :=
  if_pos ((legalTarget_iff x).2 h)

theorem State.jumpTo_outside (s : State) {x : Int} (h : ¬ inSpace x) : s.jumpTo x = s.trap ⟨.addr, BitVec.ofInt 64 x, 0, 0⟩ :=
  if_neg fun hl => h ((legalTarget_iff x).1 hl)

/-- The conditional branches are one, with the condition of each (R126). -/
theorem State.branchOf_spec {s : State} {i : Instr} {taken : Bool} {o : BitVec 12} (h : s.branchOf i = some (taken, o)) :
    exec i s = .next (if taken then s.jumpTo (branchTarget s.seq.pc o.toInt) else s.retire 32) := by
  have hbranch {a b : BitVec 5} {o' : BitVec 12} {c : Bool} {f : Word → Word → Bool} (h : some (c, o') = some (taken, o))
      (hf : f (s.g a) (s.g b) = c) : s.branch a b o' f = if taken then s.jumpTo (branchTarget s.seq.pc o.toInt) else s.retire 32 := by
    obtain ⟨rfl, rfl⟩ : c = taken ∧ o' = o := by simpa using h
    rw [State.branch, hf]
  unfold State.branchOf at h
  split at h
  case h_1 => exact congrArg _ (hbranch h rfl)
  case h_2 => exact congrArg _ (hbranch h rfl)
  case h_3 => exact congrArg _ (hbranch h BitVec.slt_eq_decide)
  case h_4 a b o' =>
    refine congrArg _ (hbranch h ?_)
    rw [BitVec.slt_eq_decide, ← decide_not, decide_eq_decide]
    exact Int.not_lt
  case h_5 => exact congrArg _ (hbranch h rfl)
  case h_6 => exact congrArg _ (hbranch h rfl)
  case h_7 => cases h

/-- A jump that writes its link first (R127). -/
theorem State.jump_linking (s : State) (d : BitVec 5) {x : Int} (h : inSpace x) :
    s.JumpsLinking (((s.setG d s.link).setLdr .g d.toNat).jumpTo x) d x := by
  rw [State.jumpTo_inSpace _ h, State.jump_eq, State.setG_withSeq, State.setLdr, State.mapSeq_withSeq]
  simp only [State.withSeq_seq, State.withSeq_withSeq]
  exact ⟨_, rfl, ⟨⟨rfl, rfl, rfl, rfl⟩, rfl, rfl, rfl, rfl, rfl, rfl, rfl⟩, wroteG_set _ _ _, rfl,
    ⟨rfl, rfl, rfl, rfl, rfl, rfl, rfl, rfl, rfl, rfl, rfl⟩⟩

/-- The end check reads the loop stack alone, and sets pc, depth and the counters (R132). -/
theorem Seq.endCheck_congr {q r : Seq} (hlc : r.lc = q.lc) (hli : r.li = q.li) (hlb : r.lb = q.lb) (hle : r.le = q.le)
    (next : BitVec 58) (k : Nat) : let x := q.endCheck next k
    r.endCheck next k = { r with pc := x.pc, depth := x.depth, lc := x.lc, li := x.li } := by
  induction k generalizing q r with
  | zero =>
    simp only [Seq.endCheck]
    rw [← hlc, ← hli]
  | succ k ih =>
    simp only [Seq.endCheck]
    rw [hlc, hli, hlb, hle]
    split
    · split
      · exact ih rfl rfl rfl rfl
      · rfl
    · rw [← hlc, ← hli]

/-- Where the innermost loop ends, a pass of it is over (R132). -/
theorem Seq.fallTo_of_ends {q : Seq} {next : BitVec 58} {k : Nat} (hk : q.depth.toNat = k + 1) (h : q.EndsAt next) :
    let c := q.lc[k]?.getD 0 - 1
    let r := { q with lc := q.lc.setIfInBounds k c, li := q.li.setIfInBounds k (q.li[k]?.getD 0 + 1) }
    (c ≠ 0 → q.fallTo next = { r with pc := (q.lb[k]?.getD 0).setWidth 58 }) ∧
    (c = 0 → q.fallTo next = ({ r with depth := BitVec.ofNat 3 k } : Seq).fallTo next) := by
  intro c r
  obtain ⟨-, hle⟩ := h
  rw [hk, Nat.add_sub_cancel] at hle
  have hlt := q.depth.isLt
  have hd : BitVec.ofNat 3 (k + 1) = q.depth := by rw [← hk, BitVec.ofNat_toNat, BitVec.setWidth_eq]
  unfold Seq.fallTo
  rw [hk, Seq.endCheck, if_pos hle]
  refine ⟨fun hc => ?_, fun hc => ?_⟩
  · rw [if_neg hc, hd]
  · have hk3 : (BitVec.ofNat 3 k).toNat = k := by rw [BitVec.toNat_ofNat, Nat.mod_eq_of_lt (by omega)]
    rw [if_pos hc]
    change r.endCheck next k = ({ r with depth := BitVec.ofNat 3 k } : Seq).endCheck next (BitVec.ofNat 3 k).toNat
    rw [hk3, Seq.endCheck_congr (q := r) (r := r) rfl rfl rfl rfl,
      Seq.endCheck_congr (q := r) (r := { r with depth := BitVec.ofNat 3 k }) rfl rfl rfl rfl]

/-- A loop without a pass: the sequencer falls through to its end (R131, R132). -/
theorem Seq.fallTo_fresh (q : Seq) (last : BitVec 58) :
    let r := ({ q with wait := none, waited := 0, snap := none, view := [] } : Seq).fallTo last
    q.FallsTo r last ∧ r.g = q.g ∧ r.ldr = q.ldr ∧ q.Kept r := by
  have h := Seq.endCheck_congr (q := q) (r := { q with wait := none, waited := 0, snap := none, view := [] }) rfl rfl rfl rfl last
    q.depth.toNat
  intro r
  have hr : r = { q with
      wait := none, waited := 0, snap := none, view := [], pc := (q.fallTo last).pc, depth := (q.fallTo last).depth
      lc := (q.fallTo last).lc, li := (q.fallTo last).li } := h
  rw [hr]
  exact ⟨⟨⟨rfl, rfl, rfl, rfl⟩, rfl, rfl, rfl, rfl, rfl, rfl, rfl⟩, rfl, rfl, ⟨rfl, rfl, rfl, rfl, rfl, rfl, rfl, rfl, rfl, rfl, rfl⟩⟩

/-- LOOP and LOOPI by their checks: END, a zero count, and a free level (R129, R131). -/
theorem State.openLoop_spec (s : State) (n : Word) (e : BitVec 11) : let body := s.seq.pc + 32
    let last := body + BitVec.ofNat 58 (16 * e.toNat)
    (e = 0 → s.openLoop n e = s.illop) ∧
    (e ≠ 0 → n = 0 → ∃ q, s.openLoop n e = s.withSeq q ∧ s.seq.FallsTo q last ∧ q.g = s.seq.g ∧ q.ldr = s.seq.ldr ∧ s.seq.Kept q) ∧
    (e ≠ 0 → n ≠ 0 → s.seq.depth.toNat < 6 → ∃ q, s.openLoop n e = s.withSeq q ∧ s.seq.Opens q n body last) ∧
    (e ≠ 0 → n ≠ 0 → 6 ≤ s.seq.depth.toNat → s.openLoop n e = s.trap ⟨.loopovf, s.word, 0, 0⟩) := by
  unfold State.openLoop
  refine ⟨fun he => if_pos he, fun he hn => ?_, fun he hn hk => ?_, fun he hn hk => ?_⟩
  · dsimp only
    rw [if_neg he, if_pos hn, State.mapSeq_withSeq]
    exact ⟨_, rfl, Seq.fallTo_fresh ..⟩
  · dsimp only
    rw [if_neg he, if_neg hn, if_neg (by omega), State.jump_eq, State.mapSeq_withSeq]
    simp only [State.withSeq_seq, State.withSeq_withSeq]
    have hdepth : (BitVec.ofNat 3 (s.seq.depth.toNat + 1)).toNat = s.seq.depth.toNat + 1 := by
      rw [BitVec.toNat_ofNat, Nat.mod_eq_of_lt (by omega)]
    exact ⟨_, rfl, ⟨rfl, rfl, rfl, rfl⟩, hdepth, rfl, rfl, rfl, rfl, rfl, rfl, rfl, rfl, rfl, rfl, rfl, rfl, rfl, rfl, rfl, rfl, rfl,
      rfl, rfl⟩
  · dsimp only
    rw [if_neg he, if_neg hn, if_pos hk]

end Sys2Proof.Machine
end

section
/-! Settled: O9, O10 and O11, in the words of the statements, from the lemmas above. -/

namespace Sys2Proof.Machine

/-- Settles O9: every conditional branch is a jump where its condition holds, and only goes on where it fails. -/
theorem conditionalBranches : Obligations.ConditionalBranches := by
  intro s i taken o h x
  rw [State.branchOf_spec h]
  refine ⟨fun ht => ?_, fun ht hx => ?_, fun ht hx => ?_⟩
  · rw [if_neg (by simp [ht])]
    exact ⟨_, rfl, State.retire_writesNone ..⟩
  · rw [if_pos ht, show branchTarget s.seq.pc o.toInt = x from rfl, State.jumpTo_inSpace s hx, State.jump_eq]
    exact ⟨_, rfl, _, rfl, ⟨⟨rfl, rfl, rfl, rfl⟩, rfl, rfl, rfl, rfl, rfl, rfl, rfl⟩, rfl, rfl,
      ⟨rfl, rfl, rfl, rfl, rfl, rfl, rfl, rfl, rfl, rfl, rfl⟩⟩
  · rw [if_pos ht]
    exact congrArg _ (State.jumpTo_outside s (x := x) hx)

/-- Settles O10: a legal target is jumped to with the link written, and any other is the trap. -/
theorem jumps : Obligations.Jumps := by
  intro s d a o i w x y
  have hx : legalTarget (branchTarget s.seq.pc o.toInt) = true ↔ inSpace x := legalTarget_iff x
  have hy : (legalTarget ((s.g a).toNat + i.toInt) = true ∧ ((s.g a).toNat + i.toInt : Int) % 16 = 0) ↔ inSpace y ∧ y % 16 = 0 :=
    and_congr_left' (legalTarget_iff y)
  refine ⟨fun h => ⟨_, congrArg Host.Outcome.next (if_pos (hx.2 h)), s.jump_linking d h⟩, fun h => congrArg Host.Outcome.next ?_,
    fun h h16 => ⟨_, congrArg Host.Outcome.next (if_pos (hy.2 ⟨h, h16⟩)), s.jump_linking d h⟩,
    fun h => congrArg Host.Outcome.next (if_neg fun hl => h (hy.1 hl))⟩
  exact (if_neg fun hl => h (hx.1 hl)).trans (State.jumpTo_outside s (x := x) h)

/-- Settles O11: the loop instructions by their checks, and the end check one level at a time. -/
theorem hardwareLoops : Obligations.HardwareLoops := by
  refine ⟨fun s a e c => ⟨fun i n hi => ?_, fun h => congrArg Host.Outcome.next (if_pos h), fun h => ?_⟩,
    fun q next k hk _ h => Seq.fallTo_of_ends hk h, Seq.fallTo_of_not_ends, fun s x => ?_⟩
  · have hexec : exec i s = .next (s.openLoop n e) := by
      rcases hi with hi | hi <;> cases hi <;> rfl
    obtain ⟨hzero, hskip, hopen, hfull⟩ := s.openLoop_spec n e
    rw [hexec]
    refine ⟨fun he => congrArg _ (hzero he), fun he hn => ?_, fun he hn hk => ?_, fun he hn hk => congrArg _ (hfull he hn hk)⟩
    · obtain ⟨q, hq, hfall⟩ := hskip he hn
      exact ⟨q, congrArg _ hq, hfall⟩
    · obtain ⟨q, hq, hopens⟩ := hopen he hn hk
      exact ⟨q, congrArg _ hq, hopens⟩
  · have hne : s.seq.depth ≠ 0 := fun h0 => by simp [h0] at h
    refine ⟨_, congrArg Host.Outcome.next (if_neg hne), ?_⟩
    rw [State.mapSeq_withSeq]
    exact State.retire_writesNone ..
  · rw [State.jump_eq, State.withSeq_seq]
    exact ⟨rfl, rfl, rfl⟩

end Sys2Proof.Machine
end

section
/-! SUPPORT. The addresses that the map of the control registers leaves out (R122, R123). -/

namespace Sys2Proof.Machine

/-- The arrays of the map, by their first and last address. -/
def crArrays : List (Nat × Nat) := [(0x010, 0x015), (0x016, 0x01B), (0x030, 0x035), (0x038, 0x03D), (0x100, 0x11F)]

theorem crArrays_addresses : ∀ p ∈ crArrays, ∀ a < 0x120, p.1 ≤ a ∧ a ≤ p.2 → a ∈ crAddresses := by decide +kernel

theorem crArrays_last : ∀ p ∈ crArrays, p.2 < 0x120 := by decide

/-- No register is read outside the map (R122). -/
theorem State.ctlRead_of_crValue_none {s : State} {a : Nat} (h : s.crValue a = none) : s.ctlRead a = none := by
  rw [State.crValue_none_iff] at h
  have hout (p : Nat × Nat) (hp : p ∈ crArrays) : ¬ (p.1 ≤ a ∧ a ≤ p.2) := fun ha =>
    h (crArrays_addresses p hp a (ha.2.trans_lt (crArrays_last p hp)) ha)
  unfold State.ctlRead
  split
  case h_29 =>
    rw [if_neg (hout (0x010, 0x015) (by decide)), if_neg (hout (0x016, 0x01B) (by decide)), if_neg (hout (0x030, 0x035) (by decide)),
      if_neg (hout (0x038, 0x03D) (by decide)), if_neg (hout (0x100, 0x11F) (by decide))]
  all_goals exact absurd (by decide) h

end Sys2Proof.Machine
end

section
/-! Settled: O31, in the words of the statement, from the lemmas above. -/

namespace Sys2Proof.Machine

/-- Settles O31: CTLR reads what the sequencer sees of a register of the map, and nothing outside it. -/
theorem controlReads : Obligations.ControlReads := by
  refine ⟨fun s d r => ?_, vlmax_eq⟩
  cases h : s.crValue r.toNat with
  | none =>
    refine congrArg Host.Outcome.next ?_
    rw [State.ctlRead_of_crValue_none h]
  | some x =>
    obtain ⟨y, hread, hsees, -⟩ := State.ctlRead_of_crValue h
    have hexec : exec (.ctlr d r) s = .next ((s.setG d y).retire 32) := by
      refine congrArg Host.Outcome.next ?_
      rw [hread]
    obtain ⟨hg, hl, hk, hn⟩ := s.seq.advance_wrote 32 (if d = 0 then s.seq.g else s.seq.g.set d.toNat y d.isLt) s.seq.ldr
    refine ⟨_, _, y, hexec, ?_, hsees, ?_, hl, hk, hn⟩
    · rw [State.setG_withSeq, State.retire, State.mapSeq_withSeq, State.withSeq_seq, State.withSeq_withSeq]
    · rw [hg]
      exact wroteG_set _ _ _

end Sys2Proof.Machine
end

section
/-! SUPPORT. The state right after reset, part by part (R292, R293, R302, R428). -/

namespace Sys2Proof.Machine

/-- Memory and the local stores are empty lists (log 4). -/
theorem State.reset_inv : State.reset.Inv where
  mem := ⟨List.Pairwise.nil, fun _ h => absurd h List.not_mem_nil⟩
  ls := ⟨List.Pairwise.nil, fun _ h => absurd h List.not_mem_nil⟩
  others := fun _ h => absurd h List.not_mem_nil

theorem State.reset_coreAt (n : Nat) : State.reset.coreAt n = Core.reset := by
  unfold State.coreAt
  split <;> rfl

theorem get_replicate {α : Type} {n : Nat} (x : α) (r : Fin n) : (Vector.replicate n x).get r = x := by
  rw [Vector.get_eq_getElem, Vector.getElem_replicate]

theorem eq_of_getElem?_replicate {α : Type} {n i : Nat} {x y : α} (h : (Vector.replicate n x)[i]? = some y) : y = x := by
  rw [Vector.getElem?_replicate] at h
  split at h
  · exact (Option.some.inj h).symm
  · cases h

/-- e0 is the whole space and the other extents are empty (R30). -/
theorem Core.reset_e (r : Fin 16) : Core.reset.e.get r = if r.val = 0 then extentZero else 0 := by
  have he : Core.reset.e = (Vector.replicate 16 0).set 0 extentZero := rfl
  rw [he, Vector.get_eq_getElem, Vector.getElem_set, Vector.getElem_replicate]
  simp only [eq_comm]

/-- No sequencer has a task (R14, log 5). -/
theorem Seq.reset_idle : let c := Seq.reset
    c.running = false ∧ c.pc = 0 ∧ c.depth = 0 ∧ c.ldr = 0 ∧ c.rpidx = 0 ∧ c.rpbase = 0 ∧ (∀ r : Fin 32, c.g.get r = 0) ∧
    (∀ n : Fin 6, c.lc.get n = 0 ∧ c.le.get n = 0 ∧ c.lb.get n = 0 ∧ c.li.get n = 0) ∧ c.frame = none ∧ c.replay = [] ∧
    c.inFlight = [] :=
  ⟨rfl, rfl, rfl, rfl, rfl, rfl, get_replicate _, fun n => ⟨get_replicate _ n, get_replicate _ n, get_replicate _ n, get_replicate _ n⟩,
    rfl, rfl, rfl⟩

/-- No region is open (R302). -/
theorem VerSys.reset_region (n : Nat) : VerSys.reset.region n = 0#384 := by
  have hr : VerSys.reset.regions = Vector.replicate 64 0 := rfl
  unfold VerSys.region
  rw [hr, Vector.getElem?_replicate]
  split <;> rfl

/-- Mason's graph is live (R385). -/
theorem Sched.reset_graph : Sched.reset.graph 0 0xFFFF = some masonGraph := by
  simp [Sched.graph, Sched.reset, masonGraph]

/-- The partition masks allow every way, and each die is open (R292, R293). -/
theorem MemSys.reset_llc {d : Nat} {x : LlcDie} (h : MemSys.reset.llc[d]? = some x) : x = LlcDie.reset := eq_of_getElem?_replicate h

end Sys2Proof.Machine
end

section
/-! Settled: O60, in the words of the statement, from the lemmas above. -/

namespace Sys2Proof.Machine

/-- Settles O60: each register file is one value repeated, and each list is empty. -/
theorem resetValues : Obligations.ResetValues := by
  refine ⟨State.reset_inv, fun _ => rfl, State.reset_coreAt, rfl, rfl, fun _ => List.eq_of_mem_replicate (n := 18), rfl, rfl, rfl, rfl, fun c hc => ?_, get_replicate _,
    fun r => ⟨get_replicate _ r, get_replicate _ r⟩, rfl, rfl, Core.reset_e, rfl, rfl, fun n _ => ?_, rfl, fun d x hx => ?_, rfl, rfl, rfl,
    rfl, fun _ _ => eq_of_getElem?_replicate, fun _ _ => eq_of_getElem?_replicate, rfl, rfl, rfl, rfl, fun i x hx => ?_,
    fun _ => ⟨rfl, rfl⟩, ⟨masonGraph, Sched.reset_graph⟩, rfl⟩
  · rcases List.mem_pair.1 hc with rfl | rfl
    · exact Seq.reset_idle
    · exact Seq.reset_idle
  · rw [show State.reset.ver.region n = 0#384 from VerSys.reset_region n, regSt, BitVec.toNat_zero, bits_eq, Nat.zero_div,
      Nat.zero_mod]
  · rw [MemSys.reset_llc hx]
    exact ⟨rfl, rfl, fun _ _ => eq_of_getElem?_replicate⟩
  · rw [eq_of_getElem?_replicate (x := Hart.atEntry) hx]
    rfl

end Sys2Proof.Machine
end

section
/-! SUPPORT. What a scalar access reads fits its width, and what LD, LDC and ST leave (R111-R113, R115, R294). -/

namespace Sys2Proof.Machine

variable {s t : State}

/-- A write of the performing sequencer's registers touches neither memory nor the local store. -/
theorem State.WritesG.memory {len : Nat} {d : BitVec 5} {x : Word} (h : s.WritesG t len d x) :
    t.ms = s.ms ∧ t.core.ls = s.core.ls := by
  obtain ⟨q, rfl, -⟩ := h
  exact ⟨s.mapSeq_ms _, s.mapSeq_core_ls _⟩

theorem State.WritesNone.memory {len : Nat} (h : s.WritesNone t len) : t.ms = s.ms ∧ t.core.ls = s.core.ls := by
  obtain ⟨q, rfl, -⟩ := h
  exact ⟨s.mapSeq_ms _, s.mapSeq_core_ls _⟩

theorem MemSys.readLines_lt (ms : MemSys) (f o w : Nat) : (ms.readLines f o w).getD 0 < 2 ^ w := by
  unfold MemSys.readLines
  cases ms.readPacked f o w with
  | none => exact Nat.two_pow_pos w
  | some v => exact Nat.mod_lt _ (Nat.two_pow_pos w)

theorem State.readPage_lt (s : State) (f o w : Nat) : s.readPage f o w < 2 ^ w := by
  unfold State.readPage
  split
  · exact Nat.mod_lt _ (Nat.two_pow_pos w)
  · exact s.ms.readLines_lt f o w

theorem State.readSeg_lt (s : State) (g : Seg) : s.readSeg g < 2 ^ g.width := by
  cases g with
  | ls a w => exact Mem.readBits_lt ..
  | phys a w => exact Mem.readBits_lt ..
  | packed f o w => exact s.readPage_lt f o w

/-- The constant path returns bits of the range too (R113). -/
theorem State.readSegConst_lt (s : State) (mark : Nat) (g : Seg) : s.readSegConst mark g < 2 ^ g.width := by
  cases g with
  | ls a w => exact Mem.readBits_lt ..
  | packed f o w => exact s.readPage_lt f o w
  | phys a w =>
    have hnow : s.ms.mem.readBits a w < 2 ^ w := Mem.readBits_lt ..
    have hch : s.ms.changedBits mark a w < 2 ^ w := Nat.mod_lt _ (Nat.two_pow_pos w)
    change (if s.ms.changedBits mark a w = 0 then s.ms.mem.readBits a w else _) < 2 ^ w
    split
    · exact hnow
    · exact Nat.xor_lt_two_pow (Nat.or_lt_two_pow hnow hch) (Nat.and_le_left.trans_lt hch)

/-- Where no write since the mark touched them, the constant path returns the bits of a plain load (R113). -/
theorem State.readSegsConst_of_unchanged {mark : Nat} {segs : List Seg}
    (h : ∀ x y, Seg.phys x y ∈ segs → s.ms.changedBits mark x y = 0) : s.readSegsConst mark segs = s.readSegs segs := by
  unfold State.readSegsConst State.readSegs
  induction segs with
  | nil => rfl
  | cons g gs ih =>
    have hg : s.readSegConst mark g = s.readSeg g := by
      cases g with
      | ls a w => rfl
      | packed f o w => rfl
      | phys a w => exact if_pos (h a w List.mem_cons_self)
    rw [joinSegs, joinSegs, hg, ih fun x y hx => h x y (List.mem_cons_of_mem _ hx)]

variable {d a b : BitVec 5} {sx : BitVec 1} {w : BitVec 6} {h : BitVec 3} {c : Machine.Class} {ea : Word} {segs : List Seg}

/-- An access whose checks pass goes on with its parts (R111, R112). -/
theorem State.orTrap_access {n : Nat} (hea : eaOf (s.g a) (s.g b) = some ea) (hr : s.resolve s.via ea n c = .ok segs)
    (f : List Seg → State) :
    s.orTrap (effective (s.g a) (s.g b)) (fun ea => s.orTrap (s.resolve s.via ea n c) f) = f segs := by
  have he : effective (s.g a) (s.g b) = .ok ea := by rw [effective_eq_eaOf, hea]
  rw [he]
  change s.orTrap (s.resolve s.via ea n c) f = _
  rw [hr]
  rfl

/-- A scalar load whose checks pass, whichever path it reads by (R112, R113, R115). -/
theorem State.loadWith_spec {read : Seg → Nat} (hread : ∀ g, read g < 2 ^ g.width) (hea : eaOf (s.g a) (s.g b) = some ea)
    (hr : s.resolve s.via ea (w.toNat + 1) c = .ok segs) :
    let t := s.loadWith d a b sx (w.toNat + 1) h c (joinSegs read)
    let x := extended sx (w.toNat + 1) (joinSegs read segs)
    (s.loadHint h segs).WritesG t 32 d x ∧ (s.lastUse h = false → s.WritesG t 32 d x) ∧ s.OnlyLines t segs ∧
      t.core.ls = s.core.ls := by
  intro t x
  have hlt : joinSegs read segs < 2 ^ (w.toNat + 1) := s.resolve_width hr ▸ joinSegs_lt read segs fun g _ => hread g
  have ht : t = (s.loadHint h segs).finishG 32 d x := by
    dsimp only [t, x, State.loadWith]
    rw [State.orTrap_access hea hr, extendTo_eq sx _ _ (by omega) (by omega) hlt]
  have hw : (s.loadHint h segs).WritesG t 32 d x := ht ▸ State.finishG_writes ..
  obtain ⟨⟨ms, hms⟩, hplain, hlines⟩ := s.loadHint_spec h segs
  obtain ⟨htms, htls⟩ := hw.memory
  refine ⟨hw, fun hl => ?_, fun y hy => ?_, ?_⟩
  · rwa [hplain hl] at hw
  · rw [htms]
    exact hlines y hy
  · rw [htls, hms]
    rfl

/-- A raw write leaves the cache registers of the dies alone (R292). -/
theorem MemSys.taint_eq (ms : MemSys) (a w : Nat) : ∃ x, ms.taint a w = { ms with tainted := x } := by
  unfold MemSys.taint
  split
  · exact ⟨_, rfl⟩
  · generalize framesOf a w = fs
    induction fs generalizing ms with
    | nil => exact ⟨_, rfl⟩
    | cons f fs ih =>
      obtain ⟨x, hx⟩ := ih { ms with tainted := ms.taintFrame a w f }
      exact ⟨x, hx⟩

theorem State.writePhys_llc (s : State) (k : Option Keep) (a w v mask : Nat) : (s.writePhys k a w v mask).llc = s.ms.llc := by
  obtain ⟨x, hx⟩ := (s.ms.writeMasked (k.map Keep.die) a w v mask).taint_eq a w
  unfold State.writePhys MemSys.rawWrite
  rw [hx]
  cases k <;> rfl

/-- So a store outside packed pages leaves whether a hint is obeyed. -/
theorem State.writeSegs_lastUse (die : Option Keep) (v mask : Nat) (hu : unpacked segs) :
    (s.writeSegs die segs v mask).lastUse h = s.lastUse h := by
  induction segs generalizing s v mask with
  | nil => rfl
  | cons g gs ih =>
    rw [State.writeSegs, ih _ _ fun x hx => hu x (List.mem_cons_of_mem _ hx)]
    cases g with
    | ls a w => rfl
    | phys a w =>
      unfold State.writeSeg State.lastUse
      dsimp only
      rw [State.writePhys_llc]
    | packed f o w => exact absurd rfl (hu _ List.mem_cons_self f o w)

/-- A store outside packed pages and without a hint writes its bits (R21, R112). -/
theorem State.storeHint_stored (hs : s.Inv) {n : Nat} (hr : s.resolve s.via ea n c = .ok segs) (hu : unpacked segs)
    (hl : s.lastUse h = false) (v : Nat) : s.Stored (s.storeHint h segs v (2 ^ n - 1)) segs v := by
  obtain ⟨-, hst⟩ := State.writeSegs_stored hs s.via.die segs v (2 ^ n - 1) hu (s.resolve_width hr ▸ covers_ones _)
  unfold State.storeHint
  rwa [if_neg (by simp [State.writeSegs_lastUse _ _ _ hu, hl])]

end Sys2Proof.Machine
end

section
/-! Settled: O3 and O4, in the words of the statements, from the lemmas above. -/

namespace Sys2Proof.Machine

/-- Settles O3: LD and LDC are one load through two ways of reading. -/
theorem scalarLoad : Obligations.ScalarLoad := by
  intro s d a b sx w h ea segs hea
  refine ⟨fun hr => ⟨_, rfl, State.loadWith_spec s.readSeg_lt hea hr⟩, fun hd hr => ?_⟩
  obtain ⟨hw, -, hlines, hls⟩ :=
    State.loadWith_spec (d := d) (sx := sx) (h := h) (s.readSegConst_lt s.seq.constMark) hea hr
  exact ⟨_, congrArg Host.Outcome.next (if_neg hd), hw, State.readSegsConst_of_unchanged, hlines, hls⟩

/-- Settles O4: ST writes the parts of its access, and only goes on. -/
theorem scalarStore : Obligations.ScalarStore := by
  intro s d a b w h ea segs hs hea hr
  have hwrites := (s.storeHint h segs (s.g d).toNat (2 ^ (w.toNat + 1) - 1)).retire_writesNone 32
  obtain ⟨hms, hls⟩ := hwrites.memory
  refine ⟨_, congrArg Host.Outcome.next (State.orTrap_access hea hr _), hwrites, fun hu hl => ?_⟩
  obtain ⟨hmem, hlocal⟩ := State.storeHint_stored hs hr hu hl (s.g d).toNat
  exact ⟨fun x => hms ▸ hmem x, fun x => hls ▸ hlocal x⟩

end Sys2Proof.Machine
end

section
/-! SUPPORT. Scalar floating point by its results and flags, and the assigned codes of FCVT and FMV (R117-R121). -/

namespace Sys2Proof.Machine

variable (s : State) (d : BitVec 5)

/-- Raising flags leaves the trap enables (R174). -/
theorem State.orFlags_ten (f : Nat) : (s.orFlags f).ten = s.ten := by
  have hlow : (BitVec.ofNat 64 (f % 32) &&& 0x1F : Word).toNat < 2 ^ 8 := by
    rw [BitVec.toNat_and]
    exact Nat.and_le_right.trans_lt (by decide)
  have hff : (s.orFlags f).core.ctl.fflags.toNat = s.core.ctl.fflags.toNat ||| (BitVec.ofNat 64 (f % 32) &&& 0x1F : Word).toNat :=
    BitVec.toNat_or ..
  unfold State.ten bits
  rw [hff, Nat.shiftRight_or_distrib, Nat.shiftRight_eq_zero _ _ hlow, Nat.or_zero]

theorem State.orFlags_zero : s.orFlags 0 = s := by
  have : s.orFlags 0 = s.mapCtl fun c => c.raise s.cur 0 := rfl
  simp only [this, Ctl.raise_zero]
  rfl

/-- A result whose flags are not enabled is written; one with an enabled flag is the trap (R117, R175). -/
theorem State.finishF_spec (r : FOut) :
    (r.flags &&& s.ten = 0 → (s.orFlags r.flags).WritesG (s.finishF d r) 32 d (BitVec.ofNat 64 r.bits)) ∧
    (r.flags &&& s.ten ≠ 0 → s.finishF d r = (s.orFlags r.flags).trap ⟨.fpexc, BitVec.ofNat 64 (r.flags &&& s.ten), 0, 0⟩) := by
  unfold State.finishF
  dsimp only
  rw [State.orFlags_ten]
  refine ⟨fun h => ?_, fun h => if_pos h⟩
  rw [if_neg (not_not.2 h)]
  exact State.finishG_writes ..

/-- A move raises no flag, so it is a result without one (R121). -/
theorem State.finishF_moves (x : Nat) : s.finishF d { bits := x } = s.finishG 32 d (BitVec.ofNat 64 x) := by
  unfold State.finishF
  dsimp only
  rw [Nat.zero_and, if_neg (fun h => h rfl), State.orFlags_zero]

/-- Bit n of a number of n + 1 bits turned over is 2^n added (R121). -/
theorem xor_top_bit {x n : Nat} (hx : x < 2 ^ (n + 1)) : x ^^^ 2 ^ n = (x + 2 ^ n) % 2 ^ (n + 1) := by
  refine Nat.eq_of_testBit_eq fun j => ?_
  rw [Nat.testBit_xor, Nat.testBit_two_pow, Nat.testBit_mod_two_pow, Nat.add_comm x]
  rcases Nat.lt_trichotomy j n with h | rfl | h
  · rw [Nat.testBit_two_pow_add_gt h, decide_eq_false (by omega), decide_eq_true (by omega), Bool.xor_false, Bool.true_and]
  · rw [Nat.testBit_two_pow_add_eq, decide_eq_true rfl, decide_eq_true (by omega), Bool.xor_true, Bool.true_and]
  · have hj : x.testBit j = false := Nat.testBit_lt_two_pow (hx.trans_le (Nat.pow_le_pow_right Nat.two_pos h))
    rw [hj, decide_eq_false (by omega), decide_eq_false (by omega), Bool.xor_false, Bool.false_and]

theorem Fmt.width_pos (f : Fmt) : 0 < f.width := by cases f <;> decide

/-- The sign of an operand turned over (R121). -/
theorem State.low_xor_top (t : BitVec 2) (a : BitVec 5) : s.low t a ^^^ 2 ^ ((scalarFmt t).width - 1) =
    (s.low t a + 2 ^ ((scalarFmt t).width - 1)) % 2 ^ (scalarFmt t).width := by
  have hw := (scalarFmt t).width_pos
  have hlt : s.low t a < 2 ^ (scalarFmt t).width := Nat.mod_lt _ (Nat.two_pow_pos _)
  obtain ⟨n, hn⟩ : ∃ n, (scalarFmt t).width = n + 1 := ⟨(scalarFmt t).width - 1, by omega⟩
  rw [hn] at hlt ⊢
  exact xor_top_bit hlt

/-- Each scalar floating-point instruction finishes with the result that its rule gives (R118-R121). -/
theorem State.scalarFloat_spec {s : State} {i : Instr} {d : BitVec 5} {r : FOut} (h : s.scalarFloat i = some (d, r)) :
    exec i s = .next (s.finishF d r) := by
  have hres {d' : BitVec 5} {r' : FOut} (h : some (d', r') = some (d, r)) : s.finishF d' r' = s.finishF d r := by
    obtain ⟨rfl, rfl⟩ : d' = d ∧ r' = r := by simpa using h
    rfl
  unfold State.scalarFloat at h
  split at h
  case h_8 d a b c t w =>
    refine congrArg Host.Outcome.next (Eq.trans ?_ (hres h))
    unfold State.fpOp2
    dsimp only
    congr 2
    exact Bool.cond_eq_ite ..
  case h_10 d a w c =>
    obtain ⟨r', hr', h⟩ := Option.map_eq_some_iff.1 h
    refine congrArg Host.Outcome.next (Eq.trans ?_ (hres (congrArg some h)))
    rw [hr']
  case h_11 d a t w o =>
    refine congrArg Host.Outcome.next ?_
    by_cases h0 : o = 0
    · subst h0
      rw [← hres h, State.finishF_moves]
      rfl
    rw [if_neg h0] at h
    by_cases h1 : o = 1
    · subst h1
      rw [← hres h, State.finishF_moves, ← State.low_xor_top]
      rfl
    rw [if_neg h1] at h
    by_cases h2 : o = 2
    · subst h2
      rw [← hres h, State.finishF_moves]
      rfl
    · rw [if_neg h2] at h
      cases h
  case h_12 => cases h
  all_goals exact congrArg Host.Outcome.next (hres h)

/-- The codes of FCVT that are assigned (R120). -/
theorem scalarCvt_unassigned (mode : Nat) (x : Word) {c : Nat}
    (h : c ∉ [0, 1, 2, 3, 4, 5, 6, 7, 8, 9, 16, 17, 18, 19, 24, 25, 26, 27]) : scalarCvt mode c x = none := by
  unfold scalarCvt
  dsimp only
  split
  case h_19 => rfl
  all_goals exact absurd (by decide) h

end Sys2Proof.Machine
end

section
/-! Settled: O6, in the words of the statement, from the lemmas above. -/

namespace Sys2Proof.Machine

/-- Settles O6: every instruction finishes with its result in the same way; the unassigned codes have none. -/
theorem scalarFloatResults : Obligations.ScalarFloatResults := by
  refine ⟨fun s i d r h => ?_, fun s d a t w c => ⟨fun hc => congrArg Host.Outcome.next ?_, fun hc => congrArg Host.Outcome.next ?_⟩⟩
  · obtain ⟨hquiet, htrap⟩ := s.finishF_spec d r
    rw [State.scalarFloat_spec h]
    exact ⟨fun hq => ⟨_, rfl, hquiet hq⟩, fun ht => congrArg _ (htrap ht)⟩
  · rw [scalarCvt_unassigned _ _ hc]
  · obtain ⟨n, hn⟩ : ∃ n, c.toNat = n + 3 := ⟨c.toNat - 3, by omega⟩
    rw [hn]
    rfl

end Sys2Proof.Machine
end

section
/-! SUPPORT. Vector loads by their checks: where the fields of an element lie, and the elements up to the first that fails (R147,
R148). -/

namespace Sys2Proof.Machine

theorem tryAll_ok {α β ε : Type} {f : α → Except ε β} {g : α → β} {xs : List α} (h : ∀ x ∈ xs, f x = .ok (g x)) :
    tryAll f xs = .ok (xs.map g) := by
  induction xs with
  | nil => rfl
  | cons x xs ih =>
    rw [tryAll, h x List.mem_cons_self]
    dsimp only
    rw [ih fun y hy => h y (List.mem_cons_of_mem _ hy)]
    rfl

theorem tryAll_error {α β ε : Type} {f : α → Except ε β} {xs post : List α} {x : α} {e : ε} (h : ∀ y ∈ xs, ∃ z, f y = .ok z)
    (hx : f x = .error e) : tryAll f (xs ++ x :: post) = .error e := by
  induction xs with
  | nil => rw [List.nil_append, tryAll, hx]
  | cons y xs ih =>
    obtain ⟨z, hz⟩ := h y List.mem_cons_self
    rw [List.cons_append, tryAll, hz]
    dsimp only
    rw [ih fun w hw => h w (List.mem_cons_of_mem _ hw)]

/-- The place of an element at an exact offset, or the trap of its address or of its access (R148). -/
theorem State.spot_eq (s : State) (t : Word) (o : Int) (w : Nat) (c : Machine.Class) :
    s.spot t o w c = (elemAddr t o).bind fun u => s.resolve s.via u w c := by
  unfold State.spot elemAddr
  rw [offsetBy_spec]
  simp only [bits_tag_iff]
  generalize ((t.toNat % 2 ^ 58 : Nat) : Int) + o = z
  by_cases h1 : t.toNat / 2 ^ 58 % 4 = 0
  · by_cases h2 : 0 ≤ z ∧ z < 2 ^ 58
    · simp only [h1, h2.1, h2.2, Int.not_lt.2 h2.1, Int.not_le.2 h2.2, ne_eq, not_true_eq_false, or_self, and_self, if_true, if_false,
        Except.bind]
    · rw [if_pos (.inr ((not_and_or.1 h2).imp Int.not_le.1 Int.not_lt.1)), if_neg (not_not.2 h1), if_neg h2]
      rfl
  · rw [if_pos (.inl h1), if_pos h1]
    rfl

/-- An access whose fields are those of a load as the statements have it. -/
structure VAccess.Of (x : VAccess) (r : MSpec) : Prop where
  base : x.base = r.base
  nf : x.nf = r.nf
  cls : x.cls = r.cls
  delta : ∀ i f, f < r.nf → x.delta i f = r.off i f

section
variable {s : State} {x : VAccess} {r : MSpec} (hx : x.Of r) {i : Nat}
include hx

/-- The check of one field of an element, in the model's words and in the rules' (R148). -/
theorem VAccess.Of.field {f : Nat} (hf : f < r.nf) :
    (elemAddr x.base (x.delta i f)).bind (fun u => s.resolve s.via u (vtW s.vt) x.cls) = s.fieldAt r i f := by
  rw [hx.base, hx.cls, hx.delta i f hf, ← State.spot_eq]
  rfl

theorem VAccess.Of.elemSegs_eq : s.elemSegs x i = tryAll (s.fieldAt r i) (List.range r.nf) := by
  unfold State.elemSegs
  rw [hx.nf]
  have hcongr {f g : Nat → Except Trap (List Seg)} {is : List Nat} (h : ∀ j ∈ is, f j = g j) : tryAll f is = tryAll g is := by
    induction is with
    | nil => rfl
    | cons j is ih => rw [tryAll, tryAll, h j List.mem_cons_self, ih fun k hk => h k (List.mem_cons_of_mem _ hk)]
  refine hcongr fun f hf => Eq.trans ?_ (hx.field (List.mem_range.1 hf))
  cases elemAddr x.base (x.delta i f) <;> rfl

theorem VAccess.Of.elemSegs_ok {at_ : Nat → List Seg} (h : ∀ f, f < r.nf → s.fieldAt r i f = .ok (at_ f)) :
    s.elemSegs x i = .ok ((List.range r.nf).map at_) := by
  rw [hx.elemSegs_eq]
  exact tryAll_ok fun f hf => h f (List.mem_range.1 hf)

theorem VAccess.Of.elemSegs_error {tr : Trap} (h : s.FailsAt r i tr) : s.elemSegs x i = .error tr := by
  obtain ⟨-, f, hf, hfail, hok⟩ := h
  obtain ⟨post, hpost⟩ := eq_filter_append_cons (List.pairwise_lt_range (n := r.nf)) (List.mem_range.2 hf)
  rw [hx.elemSegs_eq, hpost]
  exact tryAll_error (fun g hg => hok g (by simpa using (List.mem_filter.1 hg).2)) hfail

/-- Where every active element passes. -/
theorem VAccess.Of.scan_ok {at_ : Nat → Nat → List Seg} (h : s.Placed r s.vl at_) :
    scanElems (s.elemSegs x) (s.active r.k s.estart) =
      ((s.active r.k s.estart).map fun i => (i, (List.range r.nf).map (at_ i)), none) :=
  scanElems_ok (g := fun i => (List.range r.nf).map (at_ i)) fun i hi => hx.elemSegs_ok (h i hi ((s.mem_active ..).1 hi).1)

/-- Where element n is the lowest that fails. -/
theorem VAccess.Of.scan_error {at_ : Nat → Nat → List Seg} {n : Nat} {tr : Trap} (hn : s.FailsAt r n tr) (h : s.Placed r n at_) :
    scanElems (s.elemSegs x) (s.active r.k s.estart) =
      (((s.active r.k s.estart).filter (· < n)).map fun i => (i, (List.range r.nf).map (at_ i)), some (n, tr)) := by
  obtain ⟨post, hpost⟩ := eq_filter_append_cons (s.active_sorted r.k s.estart) hn.1
  conv_lhs => rw [hpost]
  refine scanElems_error (g := fun i => (List.range r.nf).map (at_ i)) (fun i hi => ?_) (hx.elemSegs_error hn)
  obtain ⟨hi, hin⟩ := List.mem_filter.1 hi
  exact hx.elemSegs_ok (h i hi (by simpa using hin))

end

/-- The vector loads are one, with the fields, the class and the way of reading of each (R146, R147, R153, R158). -/
theorem State.vectorLoad_spec {s : State} {i : Instr} {r : MSpec} (h : s.vectorLoad i = some r) :
    ∃ x ff, x.Of r ∧ r.d.toNat + r.nf * s.grp ≤ 32 ∧ exec i s = .next (s.vload r.d r.k r.h x ff r.read) ∧
      (ff = true ↔ ∃ d a k h, i = .vldff d a k h) := by
  have hone {d a : BitVec 5} {k h : BitVec 3} {c : Machine.Class} {read : List Seg → Nat} {off : Nat → Int}
      (hr : s.oneField d a k h c read off = some r) {x : VAccess} (hb : x.base = s.g a) (hn : x.nf = 1) (hc : x.cls = c)
      (hd : ∀ i, x.delta i 0 = off i) : x.Of r ∧ r.d.toNat + r.nf * s.grp ≤ 32 ∧ s.vmemOk d 1 = true ∧
        r.d = d ∧ r.k = k ∧ r.h = h ∧ r.read = read := by
    unfold State.oneField at hr
    split at hr
    · next hl =>
      obtain rfl := Option.some.inj hr
      refine ⟨⟨hb, hn, hc, fun i f hf => ?_⟩, (Nat.one_mul s.grp).symm ▸ hl.2, (s.vmemOk_one d).2 hl, rfl, rfl, rfl, rfl⟩
      obtain rfl : f = 0 := Nat.lt_one_iff.1 hf
      exact hd i
    · cases hr
  have hunit (i : Nat) : unitDelta 1 (vtW s.vt) i 0 = (i * vtW s.vt : Nat) := by simp [unitDelta]
  unfold State.vectorLoad at h
  split at h
  case h_1 d a k h' =>
    obtain ⟨hx, h32, hok, rfl, rfl, rfl, hread⟩ := hone h (x := s.unit a .load) rfl rfl rfl hunit
    exact ⟨_, false, hx, h32, hread ▸ congrArg Host.Outcome.next (if_pos hok), by simp⟩
  case h_2 d a b k h' =>
    obtain ⟨hx, h32, hok, rfl, rfl, rfl, hread⟩ := hone h (x := s.strided a b .load) rfl rfl rfl fun _ => rfl
    exact ⟨_, false, hx, h32, hread ▸ congrArg Host.Outcome.next (if_pos hok), by simp⟩
  case h_3 d a b k h' =>
    split at h
    · next hb =>
      obtain ⟨hx, h32, hok, rfl, rfl, rfl, hread⟩ := hone h (x := s.indexed a b .load) rfl rfl rfl fun _ => rfl
      exact ⟨_, false, hx, h32, hread ▸ congrArg Host.Outcome.next (if_pos ⟨hok, hb⟩), by simp⟩
    · cases h
  case h_4 d a k h' n =>
    unfold State.manyFields at h
    dsimp only at h
    split at h
    · next hl =>
      obtain ⟨h2, h8, hd, h32⟩ := hl
      obtain rfl := Option.some.inj h
      have hok : s.vmemOk d (n.toNat + 1) = true := by
        have : d.toNat + s.grp ≤ 32 := le_trans (by gcongr; exact Nat.le_mul_of_pos_left _ (by omega)) h32
        simp [State.vmemOk, groupOk, hd, h32, this]
      exact ⟨s.segments a (n.toNat + 1) .load, false, ⟨rfl, rfl, rfl, fun _ _ _ => rfl⟩, h32,
        congrArg Host.Outcome.next (if_pos ⟨h2, h8, hok⟩), by simp⟩
    · cases h
  case h_5 d a k h' =>
    obtain ⟨hx, h32, hok, rfl, rfl, rfl, hread⟩ := hone h (x := s.unit a .load) rfl rfl rfl hunit
    exact ⟨_, true, hx, h32, hread ▸ congrArg Host.Outcome.next (if_pos hok), by simp⟩
  case h_6 d a k h' =>
    obtain ⟨hx, h32, hok, rfl, rfl, rfl, hread⟩ := hone h (x := s.unit a .const) rfl rfl rfl hunit
    exact ⟨_, false, hx, h32, hread ▸ congrArg Host.Outcome.next (if_pos hok), by simp⟩
  case h_7 => cases h

end Sys2Proof.Machine
end

section
/-! SUPPORT. What a vector load leaves: the fields of an element one after the other, the policies, and the lines that a hint drops
(R145, R149, R161, R294). -/

namespace Sys2Proof.Machine

/-- A group of registers reads as before where its registers are as before. -/
theorem State.elemAt_congr {s u : State} {r n : Nat} (h : ∀ p, r ≤ p → p < r + n → u.vRaw p = s.vRaw p) (w i : Nat) :
    u.elemAt r n w i = s.elemAt r n w i := by
  have hg : u.groupRaw r n = s.groupRaw r n := by
    unfold State.groupRaw
    refine congrArg _ (List.map_congr_left fun j hj => ?_)
    rw [h (r + j) (Nat.le_add_right r j) (Nat.add_lt_add_left (List.mem_range.1 hj) r)]
  unfold State.elemAt
  rw [hg]

/-- Field f's group lies within the registers of all fields. -/
theorem field_le {d n m f : Nat} (hf : f < m) : d + f * n + n ≤ d + m * n := by
  rw [Nat.add_assoc, ← Nat.succ_mul]
  exact Nat.add_le_add_left (Nat.mul_le_mul_right n hf) d

/-- A change of one group after the other: what each makes of an element of its group, and that the groups keep apart. -/
theorem fields_foldl {s : State} {F : State → Nat → State} {P : Nat → State → Prop} {val : Nat → Nat → Nat → Nat} {d n w m : Nat}
    (h0 : P 0 s) (hF : ∀ f < m, ∀ u, P f u → P (f + 1) (F u f) ∧
      (∀ i, w * i + w ≤ 16384 * n → (F u f).elemAt (d + f * n) n w i = val f i (u.elemAt (d + f * n) n w i)) ∧
      ∀ p, p < d + f * n ∨ d + f * n + n ≤ p → (F u f).vRaw p = u.vRaw p) :
    let u := (List.range m).foldl F s
    P m u ∧ (∀ f < m, ∀ i, w * i + w ≤ 16384 * n → u.elemAt (d + f * n) n w i = val f i (s.elemAt (d + f * n) n w i)) ∧
      ∀ p, p < d ∨ d + m * n ≤ p → u.vRaw p = s.vRaw p := by
  induction m with
  | zero => exact ⟨h0, fun f hf => absurd hf (Nat.not_lt_zero f), fun p _ => rfl⟩
  | succ m ih =>
    rw [List.range_succ, List.foldl_append, List.foldl_cons, List.foldl_nil]
    obtain ⟨hP, he, ho⟩ := ih fun f hf => hF f (Nat.lt_succ_of_lt hf)
    obtain ⟨hP', he', ho'⟩ := hF m (Nat.lt_succ_self m) _ hP
    refine ⟨hP', fun f hf i hi => ?_, fun p hp => ?_⟩
    · rcases Nat.lt_succ_iff_lt_or_eq.1 hf with hf | rfl
      · rw [← he f hf i hi]
        exact State.elemAt_congr (fun p _ hp => ho' p (.inl (hp.trans_le (field_le hf)))) w i
      · rw [he' i hi]
        exact congrArg _ (State.elemAt_congr (fun p hp _ => ho p (.inr hp)) w i)
    · rw [Nat.succ_mul, ← Nat.add_assoc] at hp
      rw [ho' p (hp.imp (fun h => h.trans_le (Nat.le_add_right ..)) id), ho p (hp.imp id fun h => (Nat.le_add_right ..).trans h)]

/-! ## What a hint drops depends on the memory system alone -/

theorem State.dropSegs_core (s : State) (c : Core) (segs : List Seg) :
    ({ s with core := c } : State).dropSegs segs = { s.dropSegs segs with core := c } := by
  unfold State.dropSegs
  exact List.foldl_hom (fun t : State => ({ t with core := c } : State)) fun t g => by cases g <;> rfl

theorem State.loadHint_core (s : State) (c : Core) (h : BitVec 3) (segs : List Seg) :
    ({ s with core := c } : State).loadHint h segs = { s.loadHint h segs with core := c } := by
  unfold State.loadHint
  rw [State.dropSegs_core]
  exact (apply_ite (fun t : State => { t with core := c }) (s.lastUse h = true) (s.dropSegs segs) s).symm

/-! ## The elements that are taken -/

variable {s : State} {r : MSpec} {at_ : Nat → Nat → List Seg}

/-- The elements `is` of a load, read and put into their registers, and the lines dropped that a hint names. -/
def State.takenElems (s : State) (r : MSpec) (at_ : Nat → Nat → List Seg) (is : List Nat) : State :=
  (s.putFields r.d r.nf (is.map fun i => (i, (List.range r.nf).map fun f => s.loaded (r.read (at_ i f))))).loadHint r.h
    (is.flatMap fun i => (List.range r.nf).flatMap (at_ i))

/-- The marks do not depend on ESTART. -/
theorem State.loadMarks_estart (c : Ctl) (e : Word) (is : List Nat) :
    s.loadMarks r { c with estart := e } is = { s.loadMarks r c is with estart := e } := by
  unfold State.loadMarks
  exact List.foldl_hom (fun c : Ctl => ({ c with estart := e } : Ctl)) (g₁ := fun c f => c.marked (r.d.toNat + f * s.grp) s.cw is)
    fun _ _ => rfl

/-- Raising marks changes the two mark registers alone (R397). -/
theorem State.loadMarks_frame (c : Ctl) (is : List Nat) : ∃ a b, s.loadMarks r c is = { c with hwea := a, hweb := b } := by
  unfold State.loadMarks
  induction List.range r.nf generalizing c with
  | nil => exact ⟨_, _, rfl⟩
  | cons f fs ih => exact ih (c.marked (r.d.toNat + f * s.grp) s.cw is)

/-- The fields of the elements `is`, put into their groups with their marks (R149, R161). -/
theorem State.putFields_spec (h32 : r.d.toNat + r.nf * s.grp ≤ 32) {is : List Nat} (hn : is.Nodup) (val : Nat → Nat → Nat) :
    let u := s.putFields r.d r.nf (is.map fun i => (i, (List.range r.nf).map (val i)))
    (∃ v, u = { s with core := { s.core with v := v, ctl := s.loadMarks r s.core.ctl is } }) ∧
    (∀ f < r.nf, ∀ i, s.cw * i + s.cw ≤ 16384 * s.grp → u.elemAt (r.d.toNat + f * s.grp) s.grp s.cw i =
      if i ∈ is then val i f % 2 ^ s.cw else s.elemAt (r.d.toNat + f * s.grp) s.grp s.cw i) ∧
    ∀ p, p < r.d.toNat ∨ r.d.toNat + r.nf * s.grp ≤ p → u.vRaw p = s.vRaw p := by
  refine (fields_foldl (P := fun m u => u.vt = s.vt ∧ ∃ v, u = { s with core := { s.core with
    v := v, ctl := (List.range m).foldl (fun c f => c.marked (r.d.toNat + f * s.grp) s.cw is) s.core.ctl } })
    (val := fun f i old => if i ∈ is then val i f % 2 ^ s.cw else old) ⟨rfl, s.core.v, rfl⟩ fun f hf u hu => ?_).imp And.right id
  obtain ⟨hvt, v, hv⟩ := hu
  have hgrp : u.grp = s.grp := congrArg vtG hvt
  have hcw : u.cw = s.cw := congrArg vtCw hvt
  have hes : (is.map fun i => (i, (List.range r.nf).map (val i))).map (fun e => (e.1, e.2.getD f 0)) = is.map fun i => (i, val i f) := by
    rw [List.map_map]
    refine List.map_congr_left fun i _ => ?_
    simp [hf]
  rw [hgrp, hcw, hes]
  obtain ⟨v', hv', he, ho⟩ := u.putElems_spec (r.d.toNat + f * s.grp) s.grp s.cw (is.map fun i => (i, val i f))
    ((field_le hf).trans h32)
  refine ⟨⟨by rw [hv']; exact hvt, v', ?_⟩, fun i hi => ?_, ho⟩
  · rw [hv', hv, List.range_succ, List.foldl_append, List.map_map]
    exact congrArg (fun js => _) (List.map_id' is)
  · rw [he i hi, elem_setElems_map _ _ s.cw_pos _ hn fun i => val i f]
    rfl

/-- The elements below n loaded, and the policies not yet applied (R145, R149, R294). -/
theorem State.takenElems_spec (h32 : r.d.toNat + r.nf * s.grp ≤ 32) (n : Nat) : let is := (s.active r.k s.estart).filter (· < n)
    (∃ v, s.takenElems r at_ is = { s.loadHint r.h (s.parts r n at_) with core := { s.core with v := v, ctl := s.loadMarks r s.core.ctl is } }) ∧
      s.Loads (s.takenElems r at_ is) r n false at_ := by
  intro is
  obtain ⟨⟨v, hv⟩, he, ho⟩ := s.putFields_spec h32 ((s.active_nodup r.k s.estart).filter (· < n)) fun i f => s.loaded (r.read (at_ i f))
  have hu : s.takenElems r at_ is = { s.loadHint r.h (s.parts r n at_) with
      core := { s.core with v := v, ctl := s.loadMarks r s.core.ctl is } } := by
    unfold State.takenElems
    rw [hv, State.loadHint_core]
    rfl
  refine ⟨⟨v, hu⟩, State.Loads.congr ⟨fun f hf i hi => ?_, ho⟩ ?_⟩
  · rw [he f hf i hi, s.loaded_container]
    simp only [List.mem_filter, State.mem_active, decide_eq_true_eq]
    unfold State.afterLoad
    simp only [Bool.false_and, Bool.false_eq_true, if_false]
    split_ifs <;> grind
  · rw [hu, hv]

/-! ## The policies -/

/-- The policies of a load on the group of each field (R145). -/
theorem State.policies_spec {u : State} {d nf : Nat} (h32 : d + nf * u.grp ≤ 32) {off : List Nat} (hn : off.Nodup) :
    let t := (List.range nf).foldl (fun s f => (s.maskPolicy (d + f * s.grp) s.grp s.cw off).tailPolicy (d + f * s.grp) s.grp s.cw s.vl) u
    (∃ v, t = u.mapCore fun c => { c with v := v }) ∧
    (∀ f < nf, ∀ i, u.cw * i + u.cw ≤ 16384 * u.grp → t.elemAt (d + f * u.grp) u.grp u.cw i =
      if vtTail u.vt ∧ u.vl ≤ i then 0 else if vtMskp u.vt ∧ i ∈ off then 0 else u.elemAt (d + f * u.grp) u.grp u.cw i) ∧
    ∀ p, p < d ∨ d + nf * u.grp ≤ p → t.vRaw p = u.vRaw p := by
  refine fields_foldl (P := fun _ t => ∃ v, t = u.mapCore fun c => { c with v := v })
    (val := fun f i old => if vtTail u.vt ∧ u.vl ≤ i then 0 else if vtMskp u.vt ∧ i ∈ off then 0 else old) ⟨u.core.v, rfl⟩
    fun f hf t ht => ?_
  obtain ⟨v, hv⟩ := ht
  have hgrp : t.grp = u.grp := by rw [hv]; rfl
  have hcw : t.cw = u.cw := by rw [hv]; rfl
  have hvt : t.vt = u.vt := by rw [hv]; rfl
  have hvl : t.vl = u.vl := by rw [hv]; rfl
  have hd := (field_le (d := d) (n := u.grp) hf).trans h32
  rw [hgrp, hcw, hvl]
  obtain ⟨v1, e1, p1, o1⟩ := t.maskPolicy_spec (d + f * u.grp) u.grp u.cw off hd
  obtain ⟨v2, e2, p2, o2⟩ := (t.maskPolicy (d + f * u.grp) u.grp u.cw off).tailPolicy_spec (d + f * u.grp) u.grp u.cw u.vl hd
  have hvt1 : (t.maskPolicy (d + f * u.grp) u.grp u.cw off).vt = u.vt := by rw [e1, hv]; rfl
  refine ⟨⟨v2, by rw [e2, e1, hv]; rfl⟩, fun i hi => ?_, fun p hp => (o2 p hp).trans (o1 p hp)⟩
  rw [p2 i hi, p1 i hi, hvt1, hvt, elem_setElems_map _ _ u.cw_pos _ hn fun _ => 0, Nat.zero_mod]
  unfold State.elemAt
  split_ifs <;> grind

/-- A load that has taken all its elements completes (R59, R145). -/
theorem State.finishLoad_spec {u : State} {ms : MemSys} {v : Vector VReg 32} {is : List Nat} (h32 : r.d.toNat + r.nf * s.grp ≤ 32)
    (hu : u = { s.mapMs fun _ => ms with core := { s.core with v := v, ctl := s.loadMarks r s.core.ctl is } })
    (hl : s.Loads u r s.vl false at_) :
    let t := u.finishLoad r.d r.nf (s.maskedOff r.k s.estart)
    ∃ q v, t = ({ s.mapMs fun _ => ms with core := { s.core with
        v := v, ctl := s.loadMarks r (s.vectorCtl 0 false) is } }).withSeq q ∧
      s.Loads t r s.vl true at_ ∧ q.g = s.seq.g ∧ q.ldr = ldrOf .v r.d.toNat ∧ s.seq.Kept q ∧ s.seq.GoesOn 32 q := by
  intro t
  obtain ⟨a, b, hmarks⟩ := s.loadMarks_frame (r := r) s.core.ctl is
  have hctl : u.core.ctl = { s.core.ctl with hwea := a, hweb := b } := by rw [hu]; exact hmarks
  have hvt : u.vt = s.vt := (congrArg Ctl.vt hctl :)
  have hvl : u.vl = s.vl := (congrArg (fun c : Ctl => c.vl.toNat) hctl :)
  have hgrp : u.grp = s.grp := congrArg vtG hvt
  have hcw : u.cw = s.cw := congrArg vtCw hvt
  obtain ⟨⟨v', hv'⟩, he, ho⟩ := u.policies_spec (d := r.d.toNat) (nf := r.nf) (hgrp ▸ h32) (s.maskedOff_nodup r.k s.estart)
  obtain ⟨hel, hol⟩ := hl
  obtain ⟨hg, hldr, hk, hn⟩ := s.seq.advance_wrote 32 s.seq.g (ldrOf .v r.d.toNat)
  have ht : t = ({ s.mapMs fun _ => ms with core := { s.core with
      v := v', ctl := s.loadMarks r (s.vectorCtl 0 false) is } }).withSeq
        (({ s.seq with g := s.seq.g, ldr := ldrOf .v r.d.toNat } : Seq).advance 32) := by
    rw [State.vectorCtl_quiet, State.loadMarks_estart s.core.ctl 0 is]
    dsimp only [t, State.finishLoad]
    rw [State.completed_eq, hv', hu]
    rfl
  refine ⟨_, v', ht, State.Loads.congr (u := u.mapCore fun c => { c with v := v' }) ⟨fun f hf i hi => ?_, fun p hp => ?_⟩ ?_,
    hg, hldr, hk, hn⟩
  · rw [hgrp, hcw, hvt, hvl, hv'] at he
    rw [he f hf i hi, hel f hf i hi]
    simp only [State.mem_maskedOff]
    unfold State.afterLoad
    simp only [Bool.true_and, Bool.false_and, Bool.false_eq_true, if_false]
    split_ifs <;> grind
  · rw [hgrp, hv'] at ho
    exact (ho p hp).trans (hol p hp)
  · rw [ht]
    simp [State.withSeq]

end Sys2Proof.Machine
end

section
/-! SUPPORT. A vector load by the outcome of its checks (R145, R148, R153). -/

namespace Sys2Proof.Machine
variable {s : State} {r : MSpec} {at_ : Nat → Nat → List Seg} {x : VAccess}

/-- The elements that passed, as the load has them from its checks. -/
theorem State.takenElems_eq (is : List Nat) : let good := is.map fun i => (i, (List.range r.nf).map (at_ i))
    (s.putFields r.d r.nf (good.map fun e => (e.1, e.2.map fun g => s.loaded (r.read g)))).loadHint r.h (good.flatMap fun e => e.2.flatten) =
      s.takenElems r at_ is := by
  simp only [State.takenElems, List.map_map, List.flatMap_map, Function.comp_def, ← List.flatMap_def]

theorem trims_iff (c : Cause) : trims c = true ↔ c ∈ [Cause.addr, .bounds, .page, .perm] := by
  simp [trims, or_assoc]

section
variable {is : List Nat} {ff : Bool} (hx : x.Of r)
include hx

theorem State.vload_pass
    (hscan : scanElems (s.elemSegs x) (s.active r.k s.estart) = (is.map fun i => (i, (List.range r.nf).map (at_ i)), none)) :
    s.vload r.d r.k r.h x ff r.read = (s.takenElems r at_ is).finishLoad r.d r.nf (s.maskedOff r.k s.estart) := by
  unfold State.vload
  rw [hscan, hx.nf]
  exact congrArg (fun t : State => t.finishLoad r.d r.nf (s.maskedOff r.k s.estart)) (State.takenElems_eq is)

variable {n : Nat} {tr : Trap}
  (hscan : scanElems (s.elemSegs x) (s.active r.k s.estart) = (is.map fun i => (i, (List.range r.nf).map (at_ i)), some (n, tr)))
include hscan

theorem State.vload_fail : s.vload r.d r.k r.h x ff r.read =
    if ff = true ∧ is ≠ [] ∧ tr.cause ∈ [Cause.addr, .bounds, .page, .perm] then
      ((s.takenElems r at_ is).mapCtl fun c => { c with vl := BitVec.ofNat 64 n }).finishLoad r.d r.nf
        ((s.maskedOff r.k s.estart).filter (· < n))
    else ((s.takenElems r at_ is).setEstart n).trap tr := by
  unfold State.vload
  rw [hscan, hx.nf]
  dsimp only
  rw [State.takenElems_eq is]
  simp only [trims_iff, ne_eq, List.map_eq_nil_iff]

end

/-! ## The vector length set to the first element that fails (R153) -/

/-- The state with VL set to n. -/
def State.setVl (s : State) (n : Nat) : State := s.mapCtl fun c => { c with vl := BitVec.ofNat 64 n }

theorem State.setVl_vl {n : Nat} (hn : n < s.vl) : (s.setVl n).vl = n :=
  Nat.mod_eq_of_lt (hn.trans s.core.ctl.vl.isLt)

/-- The elements below n of those that a condition picks. -/
theorem filter_range_lt {n m : Nat} (hn : n ≤ m) (p : Nat → Bool) :
    ((List.range m).filter p).filter (· < n) = (List.range n).filter p := by
  rw [List.filter_comm, ← List.Ico.zero_bot, ← List.Ico.zero_bot, List.Ico.filter_lt_of_ge hn]

theorem State.setVl_active {n : Nat} (hn : n < s.vl) (k : BitVec 3) (m : Nat) :
    (s.setVl n).active k m = (s.active k m).filter (· < n) := by
  unfold State.active
  rw [State.setVl_vl hn, filter_range_lt hn.le]
  rfl

theorem State.setVl_maskedOff {n : Nat} (hn : n < s.vl) (k : BitVec 3) (m : Nat) :
    (s.setVl n).maskedOff k m = (s.maskedOff k m).filter (· < n) := by
  unfold State.maskedOff
  rw [State.setVl_vl hn, filter_range_lt hn.le]
  rfl

theorem State.setVl_setGroup (n d g y : Nat) : (s.setVl n).setGroup d g y = (s.setGroup d g y).setVl n := by
  unfold State.setGroup
  exact List.foldl_hom (fun t : State => t.setVl n) fun _ _ => rfl

theorem State.setVl_putElems (n d g w : Nat) (es : List (Nat × Nat)) : (s.setVl n).putElems d g w es = (s.putElems d g w es).setVl n := by
  have hraw : (s.setVl n).groupRaw d g = s.groupRaw d g := rfl
  unfold State.putElems
  rw [hraw, State.setVl_setGroup]
  rfl

theorem State.setVl_putFields (n nf : Nat) (d : BitVec 5) (es : List (Nat × List Nat)) :
    (s.setVl n).putFields d nf es = (s.putFields d nf es).setVl n := by
  unfold State.putFields
  exact List.foldl_hom (fun t : State => t.setVl n) fun t f => t.setVl_putElems n ..

/-- Taking elements does not look at VL and leaves it. -/
theorem State.setVl_takenElems (n : Nat) (is : List Nat) : (s.setVl n).takenElems r at_ is = (s.takenElems r at_ is).setVl n := by
  have hloaded : (s.setVl n).loaded = s.loaded := rfl
  unfold State.takenElems
  rw [hloaded, State.setVl_putFields]
  generalize s.putFields r.d r.nf (is.map fun i => (i, (List.range r.nf).map fun f => s.loaded (r.read (at_ i f)))) = t
  refine (State.loadHint_core t _ r.h _).trans ?_
  obtain ⟨⟨ms, hms⟩, -⟩ := State.loadHint_spec (s := t) r.h (is.flatMap fun i => (List.range r.nf).flatMap (at_ i))
  rw [hms]
  rfl

end Sys2Proof.Machine
end

section
/-! Settled: O18. -/

namespace Sys2Proof.Machine

/-- Settles O18: every check passes, so the elements of all fields are taken and the load completes with its policies. -/
theorem vectorLoads : Obligations.VectorLoads := by
  intro s i r at_ hi hat
  obtain ⟨x, ff, hx, h32, hexec, -⟩ := State.vectorLoad_spec hi
  have hall : (s.active r.k s.estart).filter (· < s.vl) = s.active r.k s.estart :=
    List.filter_eq_self.2 fun j hj => decide_eq_true ((s.mem_active ..).1 hj).1
  obtain ⟨⟨v, hv⟩, hl⟩ := State.takenElems_spec (s := s) (at_ := at_) h32 s.vl
  rw [hall] at hv hl
  obtain ⟨⟨ms, hms⟩, hsame, hlines⟩ := State.loadHint_spec (s := s) r.h (s.parts r s.vl at_)
  rw [hms] at hv hsame hlines
  obtain ⟨q, v', ht, hl', hg, hldr, hk, hn⟩ := State.finishLoad_spec h32 hv hl
  refine ⟨_, q, v', hexec.trans (congrArg Host.Outcome.next (State.vload_pass hx (hx.scan_ok hat))), ?_, hl', hg, hldr, hk, hn, ?_, ?_⟩
  · rw [hms]
    exact ht
  · intro h
    rw [ht, State.withSeq, State.mapSeq_ms]
    exact (congrArg State.ms (hsame h) :)
  · intro y hy
    rw [ht, State.withSeq, State.mapSeq_ms]
    exact hlines y hy

end Sys2Proof.Machine
end

section
/-! Settled: O19. -/

namespace Sys2Proof.Machine
variable {s : State} {r : MSpec} {at_ : Nat → Nat → List Seg} {n : Nat} {tr : Trap}

/-- The state from which the trap of element n is taken (R145, R148, R294). -/
theorem State.takenElems_trap (h32 : r.d.toNat + r.nf * s.grp ≤ 32) (n : Nat) :
    let below := (s.active r.k s.estart).filter (· < n)
    let u := (s.takenElems r at_ below).setEstart n
    (∃ v, u = { s.loadHint r.h (s.parts r n at_) with core := { s.core with
      v := v, ctl := { s.loadMarks r s.core.ctl below with estart := BitVec.ofNat 64 n } } }) ∧ s.Loads u r n false at_ := by
  obtain ⟨⟨v, hv⟩, hl⟩ := State.takenElems_spec (s := s) (at_ := at_) h32 n
  refine ⟨⟨v, ?_⟩, hl.congr rfl⟩
  dsimp only
  rw [hv]
  rfl

/-- A fault-only-first load that ends early is VLD with VL at the element that fails (R153). -/
theorem State.vload_early {x : VAccess} {d a : BitVec 5} {k h : BitVec 3} (hi : s.vectorLoad (.vldff d a k h) = some r) (hx : x.Of r)
    (hfail : s.FailsAt r n tr) (hat : s.Placed r n at_)
    (hearly : (s.active r.k s.estart).filter (· < n) ≠ [] ∧ tr.cause ∈ [Cause.addr, .bounds, .page, .perm]) :
    Host.Outcome.next (s.vload r.d r.k r.h x true r.read) = exec (.vld d a k h) (s.setVl n) := by
  have hn : n < s.vl := ((s.mem_active ..).1 hfail.1).1
  have hi' : (s.setVl n).vectorLoad (.vld d a k h) = some r := hi
  obtain ⟨x', ff, hx', -, hexec, hff⟩ := State.vectorLoad_spec hi'
  have hscan : scanElems ((s.setVl n).elemSegs x') ((s.setVl n).active r.k (s.setVl n).estart) =
      (((s.active r.k s.estart).filter (· < n)).map fun i => (i, (List.range r.nf).map (at_ i)), none) := by
    have hest : (s.setVl n).estart = s.estart := rfl
    rw [hest, State.setVl_active hn]
    refine scanElems_ok fun i hi => ?_
    obtain ⟨hi, hin⟩ := List.mem_filter.1 hi
    exact hx'.elemSegs_ok (s := s) (hat i hi (of_decide_eq_true hin))
  rw [hexec, State.vload_pass hx' hscan, State.vload_fail hx (hx.scan_error hfail hat), if_pos ⟨rfl, hearly⟩,
    State.setVl_takenElems, State.setVl_maskedOff hn]
  rfl

/-- Settles O19: the elements before the first that fails are taken; then the trap, or an early end at VL. -/
theorem vectorLoadFaults : Obligations.VectorLoadFaults := by
  intro s i r n tr at_ hi hfail hat below early
  obtain ⟨x, ff, hx, h32, hexec, hff⟩ := State.vectorLoad_spec hi
  refine ⟨fun hno => ?_, fun d a k h hvld hearly => ?_⟩
  · obtain ⟨⟨v, hv⟩, hl⟩ := State.takenElems_trap (s := s) (at_ := at_) h32 n
    have htrap : ¬ (ff = true ∧ below ≠ [] ∧ tr.cause ∈ [Cause.addr, .bounds, .page, .perm]) := by
      rintro ⟨hf, hearly⟩
      obtain ⟨d, a, k, h, hvld⟩ := hff.1 hf
      exact hno.elim (fun hne => hne d a k h hvld) fun hne => hne hearly
    exact ⟨_, v, by rw [hexec, State.vload_fail hx (hx.scan_error hfail hat), if_neg htrap], hv, hl⟩
  · subst hvld
    obtain rfl : ff = true := hff.2 ⟨d, a, k, h, rfl⟩
    exact hexec.trans (State.vload_early hi hx hfail hat hearly)

end Sys2Proof.Machine
end

section
/-! Settled: O34. -/

namespace Sys2Proof.Machine

/-- Settles O34: both complete as a write of g[D] from the state with the new VL, VT and ESTART; an invalid value is refused by the
test of R141. -/
theorem vectorConfiguration : Obligations.VectorConfiguration := by
  intro s d a w v
  refine ⟨⟨_, rfl, ?_⟩, fun hv => ⟨_, congrArg Host.Outcome.next (if_neg (not_not.2 ((vtValid_iff v).2 hv))), ?_⟩, fun hv => ?_⟩
  · rw [← vlmax_eq]
    exact State.finishG_writes ..
  · rw [← vlmax_eq]
    exact State.finishG_writes ..
  · exact congrArg Host.Outcome.next (if_pos fun h => hv ((vtValid_iff v).1 h))

end Sys2Proof.Machine
end

section
/-! SUPPORT. Windows by their checks, and what a write of a control block leaves of the local store (R250, R252). -/

namespace Sys2Proof.Machine

variable {s : State}

/-- The checks of a window's extent, in the model's words and in the rules' (R252). -/
theorem State.windowExtent_eq (s : State) (t : Word) (wr : Bool) : s.windowExtent t wr = s.windowOf t wr := by
  unfold State.windowExtent State.windowOf
  simp only [bits_tag_iff, offOf_eq, tagOf_eq, State.e]
  cases wr <;> simp

/-- A window is open where its block is live and has the extent's capacity (R252). -/
theorem State.isOpen_iff (s : State) (x : BitVec 128) : s.isOpen x ↔
    ¬ (¬ blockLive (s.core.block (extTidx x)) ∨ blockCap (s.core.block (extTidx x)) ≠ extLen x) := by
  have hblk : s.core.block (extTidx x) = s.blockOf (extTidx x) := rfl
  unfold State.isOpen liveOf capOf blockLive blockCap
  simp only [hblk, bits_eq, Nat.reduceSub, Nat.reduceAdd, pow_one, decide_eq_true_eq]
  tauto

variable {t : Word} {wr : Bool} {x : BitVec 128}

theorem State.openWindow_error {tr : Trap} (h : s.windowOf t wr = .error tr) : s.openWindow t wr = .error tr := by
  unfold State.openWindow
  rw [State.windowExtent_eq, h]

theorem State.openWindow_closed (h : s.windowOf t wr = .ok x) (ho : ¬ s.isOpen x) : s.openWindow t wr = .error ⟨.perm, t, 0, 0⟩ := by
  unfold State.openWindow
  rw [State.windowExtent_eq, h]
  exact if_pos (not_not.1 fun hn => ho ((s.isOpen_iff x).2 hn))

theorem State.openWindow_open (h : s.windowOf t wr = .ok x) (ho : s.isOpen x) : s.openWindow t wr = .ok (x, s.blockOf (extTidx x)) := by
  unfold State.openWindow
  rw [State.windowExtent_eq, h]
  exact if_neg ((s.isOpen_iff x).1 ho)

theorem State.orTrap_ok {α : Type} {r : Except Trap α} {y : α} (h : r = .ok y) (f : α → State) : s.orTrap r f = f y := by
  rw [h]
  rfl

theorem State.waitIn_waitsIn (s : State) (i : Wait) : s.WaitsIn (s.waitIn i) i := s.mapSeq_withSeq _

/-- A write of a control block changes that block alone (R250). -/
theorem State.putBlock_onlyBlock (s : State) (n b : Nat) : s.OnlyBlock (s.mapCore fun c => c.putBlock n b) n := by
  refine ⟨_, rfl, fun y hy => Mem.byte_writeMasked _ _ _ _ _ _ ?_⟩
  have hspan : spanBytes (Config.blocksBase + 256 * n) 256 = 32 := by
    unfold spanBytes Config.blocksBase
    omega
  omega

theorem State.putBlock_blockOf (hw : s.core.ls.wf) (n b : Nat) : (s.mapCore fun c => c.putBlock n b).blockOf n = b % 2 ^ 256 :=
  Mem.readBits_writeBits hw ..

theorem blockLive_iff (b : Nat) : blockLive b = true ↔ liveOf b := by
  simp [blockLive, liveOf, bits_eq]

theorem blockBound_iff (b : Nat) : blockBound b = true ↔ boundOf b := by
  simp [blockBound, boundOf, bits_eq]

/-- A control block that is live, with zero counts (R252). -/
theorem mkBlock_fresh (cap : Nat) : mkBlock 0 0 cap true false 0 = cap * 2 ^ 128 + 2 ^ 154 := by
  unfold mkBlock
  simp only [Nat.shiftLeft_eq, Bool.toNat_true, Bool.toNat_false]
  omega

/-- The released count goes up by n, and no other field of the block changes (R226, R250). -/
theorem putBits_released {blk n : Nat} (h : rcntOf blk + n < 2 ^ 64) : putBits blk 127 64 (rcntOf blk + n) = blk + n * 2 ^ 64 := by
  have hle : rcntOf blk * 2 ^ 64 ≤ blk := by
    unfold rcntOf
    omega
  rw [putBits_eq _ _ _ _ (by omega), Nat.mod_eq_of_lt h, Nat.add_mul]
  unfold rcntOf at *
  omega

theorem State.blockOf_lt (s : State) (n : Nat) : s.blockOf n < 2 ^ 256 := Nat.mod_lt _ (Nat.two_pow_pos _)

end Sys2Proof.Machine
end

section
/-! SUPPORT. BARINIT, BARWAIT and BARREL by the outcome of their checks (R252). -/

namespace Sys2Proof.Machine

variable {s : State} {a b : BitVec 5} {x : BitVec 128}

theorem execBarinit_ok (h : s.windowOf (s.g a) true = .ok x) : exec (.barinit a) s = .next (
    if extLen x = 0 then s.trap ⟨.bounds, s.g a, 1, 0⟩
    else if blockLive (s.blockOf (extTidx x)) ∧ blockBound (s.blockOf (extTidx x)) then s.trap ⟨.barclobber, s.g a, 0, 0⟩
    else (s.mapCore fun c => c.putBlock (extTidx x) (extLen x * 2 ^ 128 + 2 ^ 154)).retire 32) := by
  have hexec : exec (.barinit a) s = .next (s.orTrap (s.windowExtent (s.g a) true) fun x =>
    if extLen x = 0 then s.trap ⟨.bounds, s.g a, 1, 0⟩
    else if blockLive (s.blockOf (extTidx x)) ∧ blockBound (s.blockOf (extTidx x)) then s.trap ⟨.barclobber, s.g a, 0, 0⟩
    else (s.mapCore fun c => c.putBlock (extTidx x) (mkBlock 0 0 (extLen x) true false 0)).retire 32) := rfl
  rw [hexec, State.windowExtent_eq, State.orTrap_ok h, mkBlock_fresh]

theorem State.barwait_open (h : s.windowOf (s.g a) false = .ok x) (ho : s.isOpen x) : s.barwait a b =
    if (s.g b).toNat ≤ wcntOf (s.blockOf (extTidx x)) then s.retire 32 else s.waitIn (.barwait a b) := by
  have hcnt : blockWcnt (s.blockOf (extTidx x)) = wcntOf (s.blockOf (extTidx x)) := by simp [blockWcnt, wcntOf, bits_eq]
  unfold State.barwait
  rw [State.orTrap_ok (State.openWindow_open h ho)]
  simp only [hcnt]

theorem State.barrel_open (h : s.windowOf (s.g a) true = .ok x) (ho : s.isOpen x) : let blk := s.blockOf (extTidx x)
    s.barrel a b = if s.core.chaining (extTidx x) then s.waitIn .barrel
      else if wcntOf blk < rcntOf blk + (s.g b).toNat then
        s.trap ⟨.bounds, s.g a, s.g b, BitVec.ofNat 64 (wcntOf blk - rcntOf blk)⟩
      else (s.mapCore fun c => c.putBlock (extTidx x) (putBits blk 127 64 (rcntOf blk + (s.g b).toNat))).retire 32 := by
  intro blk
  have hw : blockWcnt blk = wcntOf blk := by simp [blockWcnt, wcntOf, bits_eq]
  have hr : blockRcnt blk = rcntOf blk := by simp [blockRcnt, rcntOf, bits_eq]
  unfold State.barrel
  rw [State.orTrap_ok (State.openWindow_open h ho)]
  simp only [hw, hr, blk]

end Sys2Proof.Machine
end

section
/-! Settled: O43. -/

namespace Sys2Proof.Machine

/-- Settles O43: each instruction is its checks and then one write of its window's control block, a wait, or nothing. -/
theorem windows : Obligations.Windows := by
  intro s a b hls t0 n
  refine ⟨fun tr h => ⟨?_, ?_⟩, fun tr h => ?_, fun x h => ⟨fun h0 => ?_, fun h0 hl hb => ?_, fun h0 hle hfree => ?_, fun ho => ?_,
    fun ho hch => ⟨fun hn => ?_, fun hn => ?_⟩, fun ho hch => ?_⟩, fun x h => ⟨fun ho => ?_, fun ho hn => ?_, fun ho hn => ?_⟩⟩
  · exact congrArg Host.Outcome.next (s.orTrap_error ((s.windowExtent_eq t0 true).trans h) _)
  · exact congrArg Host.Outcome.next (s.orTrap_error (State.openWindow_error h) _)
  · exact congrArg Host.Outcome.next (s.orTrap_error (State.openWindow_error h) _)
  · rw [execBarinit_ok h, if_pos h0]
  · rw [execBarinit_ok h, if_neg h0, if_pos ⟨(blockLive_iff _).2 hl, (blockBound_iff _).2 hb⟩]
  · rw [← blockLive_iff, ← blockBound_iff] at hfree
    refine ⟨_, _, (execBarinit_ok h).trans (by rw [if_neg h0, if_neg hfree]), State.retire_writesNone .., s.putBlock_onlyBlock .., ?_⟩
    rw [State.putBlock_blockOf hls]
    exact Nat.mod_eq_of_lt (by omega)
  · exact congrArg Host.Outcome.next (s.orTrap_error (State.openWindow_closed h ho) _)
  · exact congrArg Host.Outcome.next ((State.barrel_open h ho).trans (by rw [hch, if_neg (by simp), if_pos hn]))
  · let blk := s.blockOf (extTidx x)
    have hlt : rcntOf blk + n.toNat < 2 ^ 64 := hn.trans_lt (Nat.mod_lt _ (Nat.two_pow_pos _))
    have hblk : blk + n.toNat * 2 ^ 64 < 2 ^ 256 := by
      have := s.blockOf_lt (extTidx x)
      unfold rcntOf at hlt
      omega
    refine ⟨_, _, congrArg Host.Outcome.next ((State.barrel_open h ho).trans (by rw [hch, if_neg (by simp), if_neg (Nat.not_lt.2 hn)])),
      State.retire_writesNone .., s.putBlock_onlyBlock .., ?_⟩
    rw [State.putBlock_blockOf hls, putBits_released hlt]
    exact Nat.mod_eq_of_lt hblk
  · exact ⟨_, congrArg Host.Outcome.next ((State.barrel_open h ho).trans (by rw [hch, if_pos rfl])), s.waitIn_waitsIn _⟩
  · exact congrArg Host.Outcome.next (s.orTrap_error (State.openWindow_closed h ho) _)
  · exact ⟨_, congrArg Host.Outcome.next ((State.barwait_open h ho).trans (if_pos hn)), State.retire_writesNone ..⟩
  · exact ⟨_, congrArg Host.Outcome.next ((State.barwait_open h ho).trans (if_neg (Nat.not_le.2 hn))), s.waitIn_waitsIn _⟩

end Sys2Proof.Machine
end

section
/-! SUPPORT. High-water marks register by register, and that the order in which elements raise them does not matter (R161, R397). -/

namespace Sys2Proof.Machine

/-- A raised mark, and the other marks as they were (R397). -/
theorem elem_raiseMark (old m n : Nat) {b : Nat} (hb : b < 16384) :
    elem (raiseMark old m b) 4 n = if n = m then max (elem old 4 m) (max 1 (b / 1024)) else elem old 4 n := by
  have hold : bits old (4 * m + 3) (4 * m) = elem old 4 m := by
    unfold bits elem
    congr 2
    omega
  have hlt := elem_lt old 4 m
  unfold raiseMark
  rw [hold, show 4 * m + 3 = 4 * m + 4 - 1 from rfl, elem_putBits _ _ _ _ _ (by omega)]
  refine if_congr Iff.rfl ?_ rfl
  rw [Nat.mod_eq_of_lt] <;> omega

theorem raiseMark_lt {old m b : Nat} (hm : m < 16) (hold : old < 2 ^ 64) : raiseMark old m b < 2 ^ 64 := by
  refine Nat.lt_pow_two_of_testBit _ fun i hi => ?_
  unfold raiseMark
  rw [testBit_putBits _ _ _ _ _ (by omega), if_neg (by omega)]
  exact Nat.testBit_lt_two_pow (hold.trans_le (Nat.pow_le_pow_right (by omega) hi))

/-- The sixteen marks of one of the two registers, after the elements `is` have raised theirs (R161, R189). -/
theorem elem_marks {w : Nat} (hdvd : w ∣ 16384) (r half : Nat) (is : List Nat) (old : Nat) (h0 : old < 2 ^ 64) :
    let put := is.foldl (fun hw i =>
      let p := r + i * w / 16384
      if p / 16 = half then raiseMark hw (p % 16) (i * w % 16384 + w - 1) else hw) old
    put < 2 ^ 64 ∧ ∀ n < 16, elem put 4 n = coverMark r w (16 * half + n) is (elem old 4 n) := by
  induction is generalizing old with
  | nil => exact ⟨h0, fun n _ => rfl⟩
  | cons i is ih =>
    obtain ⟨c, hc⟩ := hdvd
    have hlast : i * w % 16384 + w - 1 < 16384 := by
      have hmod : i * w % 16384 = w * (i % c) := by rw [hc, Nat.mul_comm i, Nat.mul_mod_mul_left]
      have hle : w * (i % c + 1) ≤ w * c := Nat.mul_le_mul_left w (Nat.mod_lt _ (Nat.pos_of_ne_zero (by rintro rfl; omega)))
      rw [Nat.mul_succ] at hle
      omega
    let p := r + i * w / 16384
    have hnext : (if p / 16 = half then raiseMark old (p % 16) (i * w % 16384 + w - 1) else old) < 2 ^ 64 := by
      split
      · exact raiseMark_lt (by omega) h0
      · exact h0
    obtain ⟨hlt, hmarks⟩ := ih _ hnext
    refine ⟨hlt, fun n hn => (hmarks n hn).trans ?_⟩
    unfold coverMark
    rw [List.foldl_cons]
    congr 1
    have hreg : p = 16 * half + n ↔ p / 16 = half ∧ n = p % 16 := by omega
    by_cases hh : p / 16 = half
    · rw [if_pos hh, elem_raiseMark _ _ _ hlast]
      by_cases hp : n = p % 16
      · rw [if_pos hp, if_pos (hreg.2 ⟨hh, hp⟩), hp]
      · rw [if_neg hp, if_neg fun h => hp (hreg.1 h).2]
    · rw [if_neg hh, if_neg fun h => hh (hreg.1 h).1]

theorem Ctl.markAt_eq (c : Ctl) (n : Nat) : c.markAt n = elem (if n < 16 then c.hwea else c.hweb).toNat 4 (n % 16) := by
  unfold Ctl.markAt elem
  rw [Nat.shiftRight_eq_div_pow]
  norm_num

/-- The marks after elements of a width that divides a register were written (R161, R189, R397). -/
theorem Ctl.marked_markAt (c : Ctl) {w : Nat} (hdvd : w ∣ 16384) (r : Nat) (is : List Nat) {n : Nat} (hn : n < 32) :
    (c.marked r w is).markAt n = coverMark r w n is (c.markAt n) := by
  rw [Ctl.markAt_eq, Ctl.markAt_eq]
  by_cases h : n < 16
  · obtain ⟨hlt, hmarks⟩ := elem_marks hdvd r 0 is c.hwea.toNat c.hwea.isLt
    rw [if_pos h, if_pos h, Nat.mod_eq_of_lt h]
    have h0 := hmarks n h
    rw [Nat.mul_zero, Nat.zero_add] at h0
    rw [← h0]
    exact congrArg (elem · 4 n) (Nat.mod_eq_of_lt hlt)
  · obtain ⟨hlt, hmarks⟩ := elem_marks hdvd r 1 is c.hweb.toNat c.hweb.isLt
    rw [if_neg h, if_neg h]
    have h1 := hmarks (n % 16) (by omega)
    rw [show 16 * 1 + n % 16 = n by omega] at h1
    rw [← h1]
    exact congrArg (elem · 4 (n % 16)) (Nat.mod_eq_of_lt hlt)

/-- A word is its sixteen marks. -/
theorem eq_of_marks {x y : Word} (h : ∀ n < 16, elem x.toNat 4 n = elem y.toNat 4 n) : x = y := by
  refine BitVec.eq_of_getLsbD_eq fun i hi => ?_
  have hbit := congrArg (Nat.testBit · (i % 4)) (h (i / 4) (by omega))
  simp only [testBit_elem, Nat.mod_lt i (show 0 < 4 by omega), decide_true, Bool.true_and, Nat.div_add_mod, BitVec.testBit_toNat] at hbit
  exact hbit

/-- In whatever order elements are written, the marks are the same. -/
theorem Ctl.marked_perm (c : Ctl) {w : Nat} (hdvd : w ∣ 16384) (r : Nat) {is js : List Nat} (h : is.Perm js) :
    c.marked r w is = c.marked r w js := by
  have hmark : ∀ n < 32, (c.marked r w is).markAt n = (c.marked r w js).markAt n := fun n hn => by
    rw [c.marked_markAt hdvd r is hn, c.marked_markAt hdvd r js hn]
    refine h.foldl_eq' (fun i _ j _ x => ?_) _
    split_ifs <;> omega
  have hlow : (c.marked r w is).hwea = (c.marked r w js).hwea := eq_of_marks fun n hn => by
    have := hmark n (by omega)
    rwa [Ctl.markAt_eq, Ctl.markAt_eq, if_pos hn, if_pos hn, Nat.mod_eq_of_lt hn] at this
  have hhigh : (c.marked r w is).hweb = (c.marked r w js).hweb := eq_of_marks fun n hn => by
    have := hmark (16 + n) (by omega)
    rwa [Ctl.markAt_eq, Ctl.markAt_eq, if_neg (by omega), if_neg (by omega), show (16 + n) % 16 = n by omega] at this
  have hframe (ks : List Nat) : c.marked r w ks = { c with hwea := (c.marked r w ks).hwea, hweb := (c.marked r w ks).hweb } := rfl
  rw [hframe is, hframe js, hlow, hhigh]

/-- The last element of a register raises its mark to the top (R397). -/
theorem coverMark_last {r n h : Nat} (hh : h < 16) : coverMark r 32 n [511] h = if n = r then 15 else h := by
  unfold coverMark
  rw [List.foldl_cons, List.foldl_nil]
  split_ifs <;> omega

theorem Ctl.markAt_lt (c : Ctl) (n : Nat) : c.markAt n < 16 := Nat.mod_lt _ (by omega)

end Sys2Proof.Machine
end

section
/-! SUPPORT. Tiles: what a write of one leaves of it, of the others and of MSTAT, and the refusal of one that is not declared (R254 to
R256, R268). -/

namespace Sys2Proof.Machine

variable {s : State} {d : BitVec 3}

theorem State.mstatDecl_iff (s : State) (d : BitVec 3) : mstatDecl s.core.ctl.mstat d = true ↔ s.declared d := by
  unfold mstatDecl State.declared
  rw [← BitVec.testBit_toNat, Nat.testBit_eq_decide_div_mod_eq, decide_eq_true_eq]

theorem State.onTile_declared (h : s.declared d) (f : State) : s.onTile d f = f := if_pos ((s.mstatDecl_iff d).2 h)

/-- A tile that is not declared is refused with the TVAL of a refused operation (R256, R385). -/
theorem State.onTile_undeclared (h : ¬ s.declared d) (f : State) : s.onTile d f = s.trap s.refusal := by
  have hdenied : s.denied = s.trap s.refusal := by
    unfold State.denied State.refusedValue State.refusal
    rw [Nat.shiftLeft_eq]
  exact (if_neg fun hd => h ((s.mstatDecl_iff d).1 hd)).trans hdenied

/-- MMA tests its buffers before its tile (R261; log 10). -/
theorem State.mma_undeclared (h : ¬ s.declared d) :
    s.mma d = if s.core.ctl.mstat.getLsbD 16 ∧ s.core.ctl.mstat.getLsbD 19 then s.trap s.refusal else s.illop := by
  by_cases hv : s.core.ctl.mstat.getLsbD 16 ∧ s.core.ctl.mstat.getLsbD 19
  · rw [if_pos hv]
    exact (if_neg (by simp [mstatAv, mstatBv, hv])).trans (State.onTile_undeclared h _)
  · rw [if_neg hv]
    exact if_pos (by simpa [mstatAv, mstatBv, imp_iff_not_or] using hv)

/-- A field of one bit is set. -/
theorem ofNat_putBits_bit (x : Word) (i : Nat) : BitVec.ofNat 64 (putBits x.toNat i i 1) = x ||| 1#64 <<< i := by
  refine BitVec.eq_of_getLsbD_eq fun j hj => ?_
  rw [BitVec.getLsbD_ofNat, testBit_putBits _ _ _ _ _ (Nat.le_refl i), BitVec.getLsbD_or, BitVec.getLsbD_shiftLeft, BitVec.testBit_toNat]
  by_cases h : i = j
  · subst h
    simp [hj]
  · rw [if_neg (by omega)]
    have : ¬ (¬ j < i ∧ j - i = 0) := by omega
    by_cases h1 : j < i
    · simp [hj, h1]
    · have : j - i ≠ 0 := by omega
      simp [hj, h1, this]

/-- No flag is raised and no result has saturated. -/
theorem State.raised_quiet (s : State) (c : Ctl) :
    s.raised c 0 false = { c with unseenMain := s.core.ctl.unseenMain, unseenMatrix := s.core.ctl.unseenMatrix } := by
  have hraise : s.core.ctl.raise s.cur (BitVec.ofNat 64 (0 % 32 + 256 * false.toNat)) = s.core.ctl := Ctl.raise_zero ..
  unfold State.raised
  rw [hraise]
  simp

/-- A written tile holds the value, its DT bit is set, and nothing else changes (R256). -/
theorem State.setTile_writes (s : State) (d : BitVec 3) (x : Nat) {val : Nat → Nat} (hval : ∀ i < 8192, elem x 32 i = val i) :
    s.WritesTile ((s.setTile d x).retire 32) d val 0 false := by
  obtain ⟨hg, hl, hk, hn⟩ := s.seq.advance_spec 32
  have ht : (s.setTile d x).retire 32 = ({ s with core := { s.core with
      t := s.core.t.set d.toNat (BitVec.ofNat 262144 x) d.isLt
      ctl := s.raised { s.core.ctl with mstat := s.core.ctl.mstat ||| (1#64 <<< d.toNat) } 0 false } }).withSeq (s.seq.advance 32) := by
    rw [State.raised_quiet, ← ofNat_putBits_bit]
    obtain ⟨c, n, o, cur⟩ := s
    cases cur <;> rfl
  have htiles : ((s.setTile d x).retire 32).core.t = s.core.t.set d.toNat (BitVec.ofNat 262144 x) d.isLt := by
    rw [ht]
    simp [State.withSeq]
  refine ⟨_, _, ht, fun i hi => ?_, fun e he => ?_, hg, hl, hk, hn⟩
  · unfold State.tileAt
    rw [htiles, Vector.get_eq_getElem, ← hval i hi]
    simp only [BitVec.val_toFin, Vector.getElem_set_self, BitVec.toNat_ofNat]
    exact elem_mod _ _ _ _ (by omega)
  · rw [htiles, Vector.get_eq_getElem, Vector.get_eq_getElem]
    refine Vector.getElem_set_ne _ _ fun h => he (BitVec.eq_of_toNat_eq h.symm)

/-- A register of 512 elements put in place q of a tile (R268). -/
theorem elem_putBits_register (x q v i : Nat) : elem (putBits x (16384 * q + 16383) (16384 * q) v) 32 i =
    if i / 512 = q then elem v 32 (i % 512) else elem x 32 i := by
  refine Nat.eq_of_testBit_eq fun b => ?_
  rw [testBit_elem, testBit_putBits _ _ _ _ _ (by omega)]
  by_cases hb : b < 32
  · by_cases hq : i / 512 = q
    · rw [if_pos (by omega), if_pos hq, testBit_elem, show 32 * i + b - 16384 * q = 32 * (i % 512) + b by omega]
    · rw [if_neg (by omega), if_neg hq, testBit_elem]
  · split_ifs <;> simp [testBit_elem, hb]

/-- The elements of a tile from one on. -/
theorem elem_shift (x m i : Nat) : elem (x >>> (32 * m)) 32 i = elem x 32 (m + i) := by
  unfold elem
  rw [← Nat.shiftRight_add, Nat.mul_add]

/-- The elements of the register that holds place q of a tile (R268). -/
theorem elem_register (x q : Nat) {i : Nat} (hi : i < 512) :
    elem (BitVec.ofNat 16384 (x >>> (16384 * q))).toNat 32 i = elem x 32 (512 * q + i) := by
  rw [BitVec.toNat_ofNat, elem_mod _ _ _ _ (by omega), show 16384 * q = 32 * (512 * q) by omega, elem_shift]

theorem elem_zero (w i : Nat) : elem 0 w i = 0 := by simp [elem]

/-- MMOVV to a vector register leaves its value, its mark and LDR (R161, R268). -/
theorem execMmovvToV_eq (s : State) (v : BitVec 5) (t : BitVec 3) (q : BitVec 4) : exec (.mmovvToV v t q) s = .next (
    ({ s with core := { s.core with
      v := s.core.v.setIfInBounds v.toNat (BitVec.ofNat 16384 (s.tile t >>> (16384 * q.toNat)))
      ctl := s.core.ctl.marked v.toNat 32 [511] } }).withSeq
      (({ s.seq with g := s.seq.g, ldr := ldrOf .v v.toNat } : Seq).advance 32)) := by
  have hexec : exec (.mmovvToV v t q) s = .next ((((s.setV v.toNat (BitVec.ofNat 16384 (s.tile t >>> (16384 * q.toNat)))).mark
    v.toNat 32 [511]).setLdr .v v.toNat).retire 32) := rfl
  rw [hexec]
  obtain ⟨c, n, o, cur⟩ := s
  cases cur <;> rfl

end Sys2Proof.Machine
end

section
/-! Settled: O27. -/

namespace Sys2Proof.Machine

/-- Settles O27: each move is one write of a tile or of a register, and the marks are read register by register. -/
theorem tileMoves : Obligations.TileMoves := by
  intro s t v q
  refine ⟨fun h => ⟨_, congrArg Host.Outcome.next (State.onTile_declared h _), s.setTile_writes t 0 fun i _ => elem_zero 32 i⟩,
    fun h => ⟨_, congrArg Host.Outcome.next (State.onTile_declared h _), s.setTile_writes t _ fun i _ => elem_putBits_register ..⟩,
    ⟨_, _, _, execMmovvToV_eq s v t q, rfl, ?_, fun n hn hne => ?_, fun i hi => elem_register _ _ hi, s.seq.advance_wrote 32 s.seq.g _⟩,
    fun h => ?_, fun r w is hw => ⟨rfl, fun n hn => s.core.ctl.marked_markAt ?_ r is hn⟩⟩
  · rw [State.withSeq, State.mapSeq_core_ctl, Ctl.marked_markAt _ (by decide) _ _ v.isLt, coverMark_last (Ctl.markAt_lt ..),
      if_pos rfl]
  · rw [State.withSeq, State.mapSeq_core_ctl, Ctl.marked_markAt _ (by decide) _ _ hn, coverMark_last (Ctl.markAt_lt ..),
      if_neg hne]
  · have hno (f : State) := State.onTile_undeclared h f
    exact ⟨congrArg Host.Outcome.next (hno _), congrArg Host.Outcome.next (hno _), congrArg Host.Outcome.next (State.mma_undeclared h),
      fun a m => congrArg Host.Outcome.next (hno _)⟩
  · have hall : ∀ w ∈ [8, 16, 32, 64, 128], w ∣ 16384 := by decide
    exact hall w hw

end Sys2Proof.Machine
end

section
/-! SUPPORT. Vector stores by their checks, and the writes that they make one after the other (R146, R147, R150). -/

namespace Sys2Proof.Machine

variable {s : State} {r : MSpec} {at_ : Nat → Nat → List Seg}

/-- An access with one field, as the statements have it (R146, R147). -/
theorem State.oneField_spec {d a : BitVec 5} {k h : BitVec 3} {c : Machine.Class} {read : List Seg → Nat} {off : Nat → Int}
    (hr : s.oneField d a k h c read off = some r) {x : VAccess} (hb : x.base = s.g a) (hn : x.nf = 1) (hc : x.cls = c)
    (hd : ∀ i, x.delta i 0 = off i) : x.Of r ∧ s.vmemOk d 1 = true ∧ r.d = d ∧ r.k = k ∧ r.h = h := by
  unfold State.oneField at hr
  split at hr
  · next hl =>
    obtain rfl := Option.some.inj hr
    refine ⟨⟨hb, hn, hc, fun i f hf => ?_⟩, (s.vmemOk_one d).2 hl, rfl, rfl, rfl⟩
    obtain rfl : f = 0 := Nat.lt_one_iff.1 hf
    exact hd i
  · cases hr

/-- A segment access, as the statements have it (R146, R147). -/
theorem State.manyFields_spec {d a : BitVec 5} {k h : BitVec 3} {n : BitVec 5} {c : Machine.Class}
    (hr : s.manyFields d a k h n c = some r) : (s.segments a (n.toNat + 1) c).Of r ∧
      (2 ≤ n.toNat + 1 ∧ n.toNat + 1 ≤ 8 ∧ s.vmemOk d (n.toNat + 1) = true) ∧ r.d = d ∧ r.k = k ∧ r.h = h := by
  unfold State.manyFields at hr
  dsimp only at hr
  split at hr
  · next hl =>
    obtain ⟨h2, h8, hd, h32⟩ := hl
    obtain rfl := Option.some.inj hr
    have hone : d.toNat + s.grp ≤ 32 := le_trans (by gcongr; exact Nat.le_mul_of_pos_left _ (by omega)) h32
    exact ⟨⟨rfl, rfl, rfl, fun _ _ _ => rfl⟩, ⟨h2, h8, by simp [State.vmemOk, groupOk, hd, h32, hone]⟩, rfl, rfl, rfl⟩
  · cases hr

/-- The vector stores are one, with the fields of each (R146, R147, R150). -/
theorem State.vectorStore_spec {i : Instr} (h : s.vectorStore i = some r) :
    ∃ x, x.Of r ∧ exec i s = .next (s.vstore r.d r.k r.h x) := by
  have hunit (i : Nat) : unitDelta 1 (vtW s.vt) i 0 = (i * vtW s.vt : Nat) := by simp [unitDelta]
  unfold State.vectorStore at h
  split at h
  case h_1 d a k h' =>
    obtain ⟨hx, hok, rfl, rfl, rfl⟩ := State.oneField_spec h (x := s.unit a .store) rfl rfl rfl hunit
    exact ⟨_, hx, congrArg Host.Outcome.next (if_pos hok)⟩
  case h_2 d a b k h' =>
    obtain ⟨hx, hok, rfl, rfl, rfl⟩ := State.oneField_spec h (x := s.strided a b .store) rfl rfl rfl fun _ => rfl
    exact ⟨_, hx, congrArg Host.Outcome.next (if_pos hok)⟩
  case h_3 d a b k h' =>
    split at h
    · next hb =>
      obtain ⟨hx, hok, rfl, rfl, rfl⟩ := State.oneField_spec h (x := s.indexed a b .store) rfl rfl rfl fun _ => rfl
      exact ⟨_, hx, congrArg Host.Outcome.next (if_pos ⟨hok, hb⟩)⟩
    · cases h
  case h_4 d a k h' n =>
    obtain ⟨hx, hok, rfl, rfl, rfl⟩ := State.manyFields_spec h
    exact ⟨_, hx, congrArg Host.Outcome.next (if_pos hok)⟩
  case h_5 => cases h

/-- What a store writes of a container, in the model's words and in the rules' (R150, R166). -/
theorem State.narrowed_eq (s : State) (x : Nat) : s.narrowed x = ((s.storedOut x).val, (s.storedOut x).sat) := by
  unfold State.narrowed State.storedOut
  dsimp only
  split_ifs
  · rfl
  · simp [clampS, ofInt]
  · rfl

/-- A field that passes its checks has the width of VT (R148). -/
theorem State.fieldAt_width {i f : Nat} {segs : List Seg} (h : s.fieldAt r i f = .ok segs) : totalWidth segs = vtW s.vt := by
  unfold State.fieldAt at h
  rw [State.spot_eq] at h
  cases ha : elemAddr r.base (r.off i f) with
  | error e => rw [ha] at h; cases h
  | ok u => rw [ha] at h; exact s.resolve_width h

/-! ## Writes one after the other -/

/-- The state after a list of writes of w bits, in their order (R150). -/
def State.wroteAll (s : State) (k : Option Keep) (w : Nat) (ws : List (List Seg × Out)) : State :=
  ws.foldl (fun t y => t.store k y.1 w y.2.val) s

/-- A write outside packed pages changes the memory system and the local store alone. -/
theorem State.writeSegs_unpacked (s : State) (k : Option Keep) {segs : List Seg} (hp : unpacked segs) (v mask : Nat) :
    ∃ ms ls, s.writeSegs k segs v mask = { s with ms := ms, core := { s.core with ls := ls } } := by
  induction segs generalizing s v mask with
  | nil => exact ⟨s.ms, s.core.ls, rfl⟩
  | cons g gs ih =>
    obtain ⟨ms, ls, hg⟩ : ∃ ms ls, s.writeSeg k g v mask = { s with ms := ms, core := { s.core with ls := ls } } := by
      cases g with
      | ls a w => exact ⟨_, _, rfl⟩
      | phys a w => exact ⟨_, _, rfl⟩
      | packed f o w => exact absurd rfl (hp _ List.mem_cons_self f o w)
    obtain ⟨ms', ls', h⟩ := ih { s with ms := ms, core := { s.core with ls := ls } } (fun x hx => hp x (List.mem_cons_of_mem _ hx))
      (v >>> g.width) (mask >>> g.width)
    exact ⟨ms', ls', by rw [State.writeSegs, hg, h]⟩

/-- After several writes outside packed pages, each bit is what the last one over it put there (R21, R150, R250). -/
theorem State.wroteAll_spec (hs : s.Inv) (k : Option Keep) {w : Nat} {ws : List (List Seg × Out)}
    (hws : ∀ y ∈ ws, unpacked y.1 ∧ totalWidth y.1 = w) : let t := s.wroteAll k w ws
    (∃ ms ls, t = { s with ms := ms, core := { s.core with ls := ls } }) ∧
      (∀ b, t.ms.mem.bit b = (writtenBits ws b).getD (s.ms.mem.bit b)) ∧
      ∀ b, t.core.ls.bit b = (writtenLocals ws b).getD (s.core.ls.bit b) := by
  induction ws generalizing s with
  | nil => exact ⟨⟨s.ms, s.core.ls, rfl⟩, fun b => rfl, fun b => rfl⟩
  | cons y ws ih =>
    obtain ⟨hun, hwidth⟩ := hws y List.mem_cons_self
    obtain ⟨hinv, hmem, hls⟩ := State.writeSegs_stored hs k y.1 y.2.val (2 ^ w - 1) hun (hwidth ▸ covers_ones w)
    obtain ⟨ms, ls, hone⟩ := s.writeSegs_unpacked k hun y.2.val (2 ^ w - 1)
    obtain ⟨⟨ms', ls', hall⟩, hmem', hls'⟩ := ih (s := s.store k y.1 w y.2.val) hinv fun z hz => hws z (List.mem_cons_of_mem _ hz)
    refine ⟨⟨ms', ls', hall.trans (by rw [State.store, hone])⟩, fun b => (hmem' b).trans ?_, fun b => (hls' b).trans ?_⟩
    · rw [State.store, hmem b, writtenBits]
      cases writtenBits ws b <;> rfl
    · rw [State.store, hls b, writtenLocals]
      cases writtenLocals ws b <;> rfl

/-- The writes of a store lie in its parts, and have the width of VT. -/
theorem State.writes_ok {n : Nat} (hat : s.Placed r n at_) (hun : unpacked (s.parts r n at_)) :
    ∀ y ∈ s.writes r n at_, unpacked y.1 ∧ totalWidth y.1 = vtW s.vt := by
  intro y hy
  obtain ⟨i, hi, hy⟩ := List.mem_flatMap.1 hy
  obtain ⟨f, hf, rfl⟩ := List.mem_map.1 hy
  obtain ⟨hact, hn⟩ := List.mem_filter.1 hi
  exact ⟨fun g hg => hun g (List.mem_flatMap.2 ⟨i, hi, List.mem_flatMap.2 ⟨f, hf, hg⟩⟩),
    State.fieldAt_width (hat i hact (of_decide_eq_true hn) f (List.mem_range.1 hf))⟩

/-- FXSAT is set where a value saturated, and nothing else (R168). -/
theorem State.orSat_eq (s : State) (sat : Bool) : s.orSat sat = s.mapCtl fun _ => s.raised s.core.ctl 0 sat := by
  have hflags : s.orFlags 0 = s := s.landed_zero
  rw [← State.orFlags_orSat, hflags]

/-- The state of a store that has made its writes below n, with ESTART set (R150, R168). -/
theorem State.wroteAll_stores (hs : s.Inv) {n : Nat} (hat : s.Placed r n at_) (hun : unpacked (s.parts r n at_)) (e : Nat) :
    let ws := s.writes r n at_
    let t := ((s.wroteAll s.via.die (vtW s.vt) ws).orSat (ws.any fun y => y.2.sat)).setEstart e
    t.seq = s.seq ∧ ∀ q, s.Stores (t.withSeq q) ws (BitVec.ofNat 64 e) q := by
  intro ws t
  obtain ⟨⟨ms, ls, hframe⟩, hmem, hls⟩ := State.wroteAll_spec hs s.via.die (State.writes_ok hat hun)
  have ht : t = { s with ms := ms, core := { s.core with
      ls := ls, ctl := { (s.raised s.core.ctl 0 (ws.any fun y => y.2.sat)) with estart := BitVec.ofNat 64 e } } } := by
    dsimp only [t]
    rw [State.orSat_eq, hframe]
    rfl
  rw [hframe] at hmem hls
  rw [ht]
  refine ⟨rfl, fun q => ⟨⟨ms, ls, rfl⟩, fun b => ?_, fun b => ?_⟩⟩
  · rw [State.withSeq, State.mapSeq_ms]
    exact hmem b
  · rw [State.withSeq, State.mapSeq_core_ls]
    exact hls b

/-! ## A store by the outcome of its checks -/

/-- What a store writes, as the model has it from its checks. -/
theorem State.writes_data (n : Nat) : let is := (s.active r.k s.estart).filter (· < n)
    ((is.map fun i => (i, (List.range r.nf).map (at_ i))).flatMap fun e =>
      (((List.range r.nf).map fun f => s.group (r.d.toNat + f * s.grp) s.grp).zip e.2).map
        fun p => (p.2, s.narrowed (elem p.1 s.cw e.1))) =
      (s.writes r n at_).map fun y => (y.1, y.2.val, y.2.sat) := by
  intro is
  unfold State.writes
  simp only [List.flatMap_map, List.map_flatMap, List.map_map, List.zip_map', State.narrowed_eq, Function.comp_def]
  rfl

/-- A store makes the writes of the elements that pass; then it completes, or takes the trap of the one that fails (R148, R150). -/
theorem State.vstore_eq {x : VAccess} (hx : x.Of r) (hlast : s.lastUse r.h = false) {n : Nat} {bad : Option (Nat × Trap)} :
    scanElems (s.elemSegs x) (s.active r.k s.estart) =
      (((s.active r.k s.estart).filter (· < n)).map fun i => (i, (List.range r.nf).map (at_ i)), bad) →
    let ws := s.writes r n at_
    let t := (s.wroteAll s.via.die (vtW s.vt) ws).orSat (ws.any fun y => y.2.sat)
    s.vstore r.d r.k r.h x = match bad with
      | none => (t.setEstart 0).retire 32
      | some (i, tr) => (t.setEstart i).trap tr := by
  intro hscan
  unfold State.vstore
  rw [hscan, hx.nf]
  dsimp only
  rw [State.writes_data n, hlast, List.foldl_map, List.any_map]
  rfl

end Sys2Proof.Machine
end

section
/-! Settled: O20. -/

namespace Sys2Proof.Machine

/-- Settles O20: a store makes the writes of the elements before the first that fails; then it completes or traps. -/
theorem vectorStores : Obligations.VectorStores := by
  intro s i r at_ hs hi hlast
  obtain ⟨x, hx, hexec⟩ := State.vectorStore_spec hi
  refine ⟨fun hat hun => ?_, fun n tr hfail hat hun => ?_⟩
  · have hall : (s.active r.k s.estart).filter (· < s.vl) = s.active r.k s.estart :=
      List.filter_eq_self.2 fun j hj => decide_eq_true ((s.mem_active ..).1 hj).1
    obtain ⟨hseq, hst⟩ := State.wroteAll_stores hs hat hun 0
    obtain ⟨hg, hl, hk, hn⟩ := s.seq.advance_spec 32
    have hscan : scanElems (s.elemSegs x) (s.active r.k s.estart) =
        (((s.active r.k s.estart).filter (· < s.vl)).map fun i => (i, (List.range r.nf).map (at_ i)), none) := by
      rw [hall]
      exact hx.scan_ok hat
    refine ⟨_, _, hexec.trans (congrArg Host.Outcome.next (State.vstore_eq hx hlast hscan)), ?_, hg, hl, hk, hn⟩
    · rw [State.retire, State.mapSeq_withSeq, hseq]
      exact hst _
  · obtain ⟨hseq, hst⟩ := State.wroteAll_stores hs hat hun n
    refine ⟨_, hexec.trans (congrArg Host.Outcome.next (State.vstore_eq hx hlast (hx.scan_error hfail hat))), ?_⟩
    have hself := hst s.seq
    rwa [← hseq, State.withSeq_seq_self, hseq] at hself

end Sys2Proof.Machine
end

section
/-! SUPPORT. Atomic operations on elements, one after the other, and what the model's operations compute (R339, R341). -/

namespace Sys2Proof.Machine

theorem amoOp_eq (op w m b : Nat) : amoOp op w m b = amoValue op w m b := by
  unfold amoOp amoValue
  split <;> grind

/-- The operations of VAMO, where the format of .fadd is the containers' (R339, R341). -/
theorem vamoOp_eq {op : Nat} {o : Option Fmt} {f : Fmt} (hf : op = 1 → o = some f) (w m b : Nat) :
    vamoOp op w o m b = vamoValue op w f m b := by
  unfold vamoOp vamoValue
  split
  · exact amoOp_eq ..
  · next f' =>
    obtain rfl := Option.some.inj (hf rfl)
    simp
  · cases hf rfl
  · next h0 hsome hnone =>
    have h1 : op ≠ 1 := fun h => by
      cases o with
      | none => exact hnone h rfl
      | some g => exact hsome g h rfl
    rw [amoOp_eq, if_neg h0, if_neg h1]
    by_cases h4 : 4 ≤ op
    · rw [if_pos h4, if_neg (by omega), if_neg (by omega), show op - 1 + 1 = op by omega]
    · rw [if_neg h4, Nat.add_zero]
      have h23 : op = 2 ∨ op = 3 := by
        have : op ≠ 0 := h0
        omega
      rcases h23 with rfl | rfl <;> rfl

variable {s : State} {w : Nat} {new : Nat → Nat → Nat} {at_ : Nat → List Seg}

/-- A run of atomics changes the memory system, the local store and, for a spilled chunk, the I/O die; no more. -/
theorem State.vamoRun_frame (is : List Nat) :
    ∃ ms ls io, (s.vamoRun w new at_ is).1 = { s with ms := ms, io := io, core := { s.core with ls := ls } } := by
  induction is generalizing s with
  | nil => exact ⟨_, _, _, rfl⟩
  | cons i is ih =>
    obtain ⟨ms, ls, io, hone⟩ := s.writeSegs_eq (some (s.keep true)) (at_ i) (new i (s.readSegs (at_ i))) (2 ^ w - 1)
    obtain ⟨ms', ls', io', hall⟩ := ih (s := s.store (some (s.keep true)) (at_ i) w (new i (s.readSegs (at_ i))))
    exact ⟨ms', ls', io', hall.trans (by rw [State.store, hone])⟩

/-- The run as VAMO makes it: the state, and the old values, the last element's first (R341). -/
theorem State.vamoRun_eq {f : Nat → Nat → Nat} (hf : ∀ i m, f i m = new i m) (is : List Nat) (hn : is.Nodup) (acc : List (Nat × Nat)) :
    (is.map fun i => (i, [at_ i])).foldl (fun (r : State × List (Nat × Nat)) e =>
      (r.1.atomic e.2.flatten w fun m => some (f e.1 m), (e.1, r.1.readSegs e.2.flatten) :: r.2)) (s, acc) =
    ((s.vamoRun w new at_ is).1, (is.reverse.map fun i => (i, (s.vamoRun w new at_ is).2 i)) ++ acc) := by
  induction is generalizing s acc with
  | nil => rfl
  | cons i is ih =>
    obtain ⟨hi, hn⟩ := List.nodup_cons.1 hn
    have hone : s.atomic (at_ i) w (fun m => some (f i m)) = s.store (some (s.keep true)) (at_ i) w (new i (s.readSegs (at_ i))) := by
      rw [← hf]
      rfl
    rw [List.map_cons, List.foldl_cons]
    dsimp only
    rw [List.flatten_singleton, hone, ih hn]
    have hvals : is.reverse.map (fun j => (j, (s.vamoRun w new at_ (i :: is)).2 j)) = is.reverse.map fun j =>
        (j, ((s.store (some (s.keep true)) (at_ i) w (new i (s.readSegs (at_ i)))).vamoRun w new at_ is).2 j) :=
      List.map_congr_left fun j hj => Prod.ext rfl (if_neg fun e : j = i => hi (e ▸ List.mem_reverse.1 hj))
    rw [List.reverse_cons, List.map_append, hvals, List.append_assoc]
    have hfirst : (s.vamoRun w new at_ (i :: is)).2 i = s.readSegs (at_ i) := if_pos rfl
    rw [List.map_singleton, hfirst]
    rfl

end Sys2Proof.Machine
end

section
/-! SUPPORT. A group whose elements are put and to which the policies are then applied (R145, R161). -/

namespace Sys2Proof.Machine

/-- What an element of a group holds where the elements `is` are put and the policies then applied to the elements `off` (R145). -/
def State.settled (s : State) (d n w : Nat) (is off : List Nat) (val : Nat → Nat) (i : Nat) : Nat :=
  if vtTail s.vt ∧ s.vl ≤ i then 0 else if vtMskp s.vt ∧ i ∈ off then 0
  else if i ∈ is then val i % 2 ^ w else s.elemAt d n w i

variable {s : State} {d n w : Nat} {is off : List Nat} {val : Nat → Nat}

theorem groupOk_le {d : BitVec 5} (h : groupOk d n = true) : d.toNat + n ≤ 32 := by
  simp only [groupOk, Bool.and_eq_true, decide_eq_true_eq] at h
  exact h.2

/-- Elements put into a group, each once, with their marks (R161, R189). -/
theorem State.putElems_map (hd : d + n ≤ 32) (hw : 0 < w) (hn : is.Nodup) (val : Nat → Nat) :
    let u := s.putElems d n w (is.map fun i => (i, val i))
    (∃ v, u = { s with core := { s.core with v := v, ctl := s.core.ctl.marked d w is } }) ∧
    (∀ i, w * i + w ≤ 16384 * n → u.elemAt d n w i = if i ∈ is then val i % 2 ^ w else s.elemAt d n w i) ∧
    ∀ p, p < d ∨ d + n ≤ p → u.vRaw p = s.vRaw p := by
  obtain ⟨v, hv, he, ho⟩ := s.putElems_spec d n w (is.map fun i => (i, val i)) hd
  refine ⟨⟨v, ?_⟩, fun i hi => (he i hi).trans (elem_setElems_map _ _ hw _ hn val i), ho⟩
  rw [hv, List.map_map]
  exact congrArg (fun js => { s with core := { s.core with v := v, ctl := s.core.ctl.marked d w js } }) (List.map_id' is)

/-- Both policies on a group (R145). -/
theorem State.policies_one (hd : d + n ≤ 32) (hw : 0 < w) (hoff : off.Nodup) :
    let u := (s.maskPolicy d n w off).tailPolicy d n w s.vl
    (∃ v, u = { s with core := { s.core with v := v } }) ∧
    (∀ i, w * i + w ≤ 16384 * n → u.elemAt d n w i =
      if vtTail s.vt ∧ s.vl ≤ i then 0 else if vtMskp s.vt ∧ i ∈ off then 0 else s.elemAt d n w i) ∧
    ∀ p, p < d ∨ d + n ≤ p → u.vRaw p = s.vRaw p := by
  obtain ⟨v1, e1, p1, o1⟩ := s.maskPolicy_spec d n w off hd
  obtain ⟨v2, e2, p2, o2⟩ := (s.maskPolicy d n w off).tailPolicy_spec d n w s.vl hd
  have hvt : (s.maskPolicy d n w off).vt = s.vt := by rw [e1]; rfl
  refine ⟨⟨v2, by rw [e2, e1]; rfl⟩, fun i hi => ?_, fun p hp => (o2 p hp).trans (o1 p hp)⟩
  rw [p2 i hi, p1 i hi, hvt, elem_setElems_map _ _ hw _ hoff fun _ => 0, Nat.zero_mod]
  unfold State.elemAt
  split_ifs <;> grind

/-- The elements put and the policies applied. -/
theorem State.settled_spec (hd : d + n ≤ 32) (hw : 0 < w) (hn : is.Nodup) (hoff : off.Nodup) (val : Nat → Nat) :
    let u := ((s.putElems d n w (is.map fun i => (i, val i))).maskPolicy d n w off).tailPolicy d n w s.vl
    (∃ v, u = { s with core := { s.core with v := v, ctl := s.core.ctl.marked d w is } }) ∧
    (∀ i, w * i + w ≤ 16384 * n → u.elemAt d n w i = s.settled d n w is off val i) ∧
    ∀ p, p < d ∨ d + n ≤ p → u.vRaw p = s.vRaw p := by
  obtain ⟨⟨v, hv⟩, he, ho⟩ := State.putElems_map (s := s) hd hw hn val
  obtain ⟨⟨v', hv'⟩, he', ho'⟩ := State.policies_one (s := s.putElems d n w (is.map fun i => (i, val i))) hd hw hoff
  have hvt : (s.putElems d n w (is.map fun i => (i, val i))).vt = s.vt := by rw [hv]; rfl
  have hvl : (s.putElems d n w (is.map fun i => (i, val i))).vl = s.vl := by rw [hv]; rfl
  rw [hvl] at hv' he' ho'
  refine ⟨⟨v', by rw [hv', hv]⟩, fun i hi => ?_, fun p hp => (ho' p hp).trans (ho p hp)⟩
  rw [he' i hi, he i hi, hvt]
  rfl

/-- What an element-wise instruction leaves of its group, where the elements from ESTART on are put and the policies applied to those
that the mask leaves out (R187). -/
theorem State.settled_afterElem (s : State) (len : Nat) (d : BitVec 5) (n w : Nat) (k : BitVec 3) {js : List Nat}
    (hjs : ∀ i, i ∈ js ↔ i ∈ s.active k s.estart) (val : Nat → Nat) (i : Nat) :
    s.settled d.toNat n w js (s.maskedOff k s.estart) val i =
      s.afterElem { len := len, d := d, n := n, w := w, k := k, f := fun i => { val := val i } } i := by
  unfold State.settled State.afterElem
  simp only [hjs, State.mem_active, State.mem_maskedOff]
  split_ifs <;> grind

/-- What an instruction writes, with its elements in another order and its values in other words. -/
theorem State.WritesV.congr {t : State} {len flags : Nat} {sat : Bool} {val' : Nat → Nat} {js : List Nat}
    (h : s.WritesV t len d n w is val flags sat) (hdvd : w ∣ 16384) (hp : is.Perm js) (hval : ∀ i, val i = val' i) :
    s.WritesV t len d n w js val' flags sat := by
  obtain ⟨q, v, ht, he, hrest⟩ := h
  exact ⟨q, v, by rw [ht, Ctl.marked_perm _ hdvd d hp], fun i hi => (he i hi).trans (hval i), hrest⟩

/-- A group that is settled, with LDR on it and ESTART 0, is the whole of what an instruction writes (R59, R161). -/
theorem State.completed_writesV {d : BitVec 5} (hd : d.toNat + n ≤ 32) (hw : 0 < w) (hn : is.Nodup) (hoff : off.Nodup) (val : Nat → Nat) :
    let u := ((s.putElems d.toNat n w (is.map fun i => (i, val i))).maskPolicy d.toNat n w off).tailPolicy d.toNat n w s.vl
    s.WritesV (((u.setLdr .v d.toNat).setEstart 0).retire 32) 32 d.toNat n w is (s.settled d.toNat n w is off val) 0 false := by
  intro u
  obtain ⟨⟨v, hv⟩, he, ho⟩ := State.settled_spec (s := s) hd hw hn hoff val
  obtain ⟨hg, hl, hk, hgo⟩ := s.seq.advance_wrote 32 s.seq.g (ldrOf .v d.toNat)
  have ht : ((u.setLdr .v d.toNat).setEstart 0).retire 32 = ({ s with core := { s.core with
      v := v, ctl := (s.vectorCtl 0 false).marked d.toNat w is } }).withSeq
        (({ s.seq with g := s.seq.g, ldr := ldrOf .v d.toNat } : Seq).advance 32) := by
    dsimp only [u]
    rw [State.completed_eq, hv, State.vectorCtl_quiet]
    rfl
  have hregs : (((u.setLdr .v d.toNat).setEstart 0).retire 32).core.v = u.core.v := by
    dsimp only [u]
    rw [ht, hv]
    simp [State.withSeq]
  refine ⟨_, v, ht, fun i hi => ?_, fun p hp => ?_, hg, hl, hk, hgo⟩
  · rw [← he i hi]
    unfold State.elemAt
    rw [State.groupRaw_congr hregs]
  · rw [← ho p hp, State.vRaw_congr hregs]

end Sys2Proof.Machine
end

section
/-! SUPPORT. VAMO by the outcome of its checks (R340, R341). -/

namespace Sys2Proof.Machine

variable {s : State} {d a b : BitVec 5} {o k : BitVec 3} {at_ : Nat → List Seg} {f : Fmt}

/-- The operands that VAMO takes (R341). -/
def State.vamoLegal (s : State) (d b : BitVec 5) (o : BitVec 3) : Prop :=
  vtW s.vt = s.cw ∧ groupOk d s.grp = true ∧ groupOk b s.grp = true ∧ ¬ groupsMeet d s.grp b s.grp ∧
    (o = 1 → vtFmt s.vt ≠ none ∧ 16 ≤ s.cw)

theorem State.vamoLegal_iff (s : State) (d b : BitVec 5) (o : BitVec 3) : s.vamoLegal d b o ↔
    ¬ (vtW s.vt ≠ s.cw ∨ (o.toNat = 1 ∧ (vtFmt s.vt = none ∨ s.cw < 16)) ∨ ¬ (groupOk d s.grp ∧ groupOk b s.grp) ∨
      groupsMeet d s.grp b s.grp) := by
  have ho : o.toNat = 1 ↔ o = 1 := BitVec.toNat_inj (y := 1)
  unfold State.vamoLegal
  rw [ho, ← Nat.not_le]
  tauto

/-- VAMO's access as the statements have one: a field for each element, at an index (R146, R341). -/
def State.vamoSpec (s : State) (d a b : BitVec 5) (k : BitVec 3) : MSpec :=
  { d := d, k := k, h := 0, nf := 1, base := s.g a, off := fun i _ => s.indexAt b i, cls := .atomic, read := s.readSegs }

theorem State.vamoSpec_of (s : State) (d a b : BitVec 5) (k : BitVec 3) : (s.indexed a b .atomic).Of (s.vamoSpec d a b k) :=
  ⟨rfl, rfl, rfl, fun _ _ _ => rfl⟩

/-- One atomic per listed element, as the statement has the run (R341). -/
def State.vamoAt (s : State) (d : BitVec 5) (o : BitVec 3) (f : Fmt) (at_ : Nat → List Seg) (is : List Nat) : State × (Nat → Nat) :=
  s.vamoRun s.cw (fun i m => vamoValue o.toNat s.cw f m (elem (s.group d.toNat s.grp) s.cw i)) at_ is

/-- The state with the elements `is` performed and their old values put, the last one first. -/
def State.vamoPut (s : State) (d : BitVec 5) (o : BitVec 3) (f : Fmt) (at_ : Nat → List Seg) (is : List Nat) : State :=
  (s.vamoAt d o f at_ is).1.putElems d.toNat s.grp s.cw (is.reverse.map fun i => (i, (s.vamoAt d o f at_ is).2 i))

/-- A legal VAMO, by what its checks give. -/
theorem State.vamo_eq (hl : s.vamoLegal d b o) (hf : o = 1 → vtFmt s.vt = some f) {is : List Nat} (hn : is.Nodup)
    {bad : Option (Nat × Trap)} :
    scanElems (s.elemSegs (s.indexed a b .atomic)) (s.active k s.estart) = (is.map fun i => (i, [at_ i]), bad) →
    s.vamo d a b o.toNat k = match bad with
      | none => (s.vamoPut d o f at_ is).finishLoad d 1 (s.maskedOff k s.estart)
      | some (i, tr) => ((s.vamoPut d o f at_ is).setEstart i).trap tr := by
  have hop : ∀ i m, vamoOp o.toNat s.cw (vtFmt s.vt) m (elem (s.group d.toNat s.grp) s.cw i) =
      vamoValue o.toNat s.cw f m (elem (s.group d.toNat s.grp) s.cw i) := fun i m =>
    vamoOp_eq (fun ho => hf (BitVec.eq_of_toNat_eq ho)) ..
  intro hscan
  unfold State.vamo
  dsimp only
  rw [if_neg ((s.vamoLegal_iff d b o).1 hl), hscan]
  dsimp only
  rw [State.vamoRun_eq hop is hn, List.append_nil]
  rfl

theorem State.vamoAt_frame (is : List Nat) :
    ∃ ms ls io, (s.vamoAt d o f at_ is).1 = { s with ms := ms, io := io, core := { s.core with ls := ls } } := State.vamoRun_frame is

/-- VAMO completes with the old values in its group (R145, R341). -/
theorem State.vamoPut_writes (hd : groupOk d s.grp = true) : let act := s.active k s.estart
    (s.vamoAt d o f at_ act).1.WritesV ((s.vamoPut d o f at_ act).finishLoad d 1 (s.maskedOff k s.estart)) 32 d.toNat s.grp s.cw act
      (s.afterElem { len := 32, d := d, n := s.grp, w := s.cw, k := k, f := fun i => { val := (s.vamoAt d o f at_ act).2 i } }) 0 false := by
  intro act
  obtain ⟨ms, ls, io, hrun⟩ := State.vamoAt_frame (s := s) (d := d) (o := o) (f := f) (at_ := at_) act
  have h32 := groupOk_le hd
  have hn : act.reverse.Nodup := List.nodup_reverse.2 (s.active_nodup ..)
  have hw := State.completed_writesV (s := (s.vamoAt d o f at_ act).1) h32 s.cw_pos hn (s.maskedOff_nodup k s.estart)
    (s.vamoAt d o f at_ act).2
  have hput : (s.vamoPut d o f at_ act).finishLoad d 1 (s.maskedOff k s.estart) =
      (((((s.vamoPut d o f at_ act).maskPolicy d.toNat s.grp s.cw (s.maskedOff k s.estart)).tailPolicy d.toNat s.grp s.cw
        (s.vamoAt d o f at_ act).1.vl).setLdr .v d.toNat).setEstart 0).retire 32 := by
    obtain ⟨v, hv⟩ := (State.putElems_map (s := (s.vamoAt d o f at_ act).1) h32 s.cw_pos hn (s.vamoAt d o f at_ act).2).1
    have hctl : (s.vamoPut d o f at_ act).core.ctl = s.core.ctl.marked d.toNat s.cw act.reverse := by
      unfold State.vamoPut
      rw [hv, hrun]
    have hgrp : (s.vamoPut d o f at_ act).grp = s.grp := (congrArg (fun c : Ctl => vtG c.vt) hctl :)
    have hcw : (s.vamoPut d o f at_ act).cw = s.cw := (congrArg (fun c : Ctl => vtCw c.vt) hctl :)
    have hvl : (s.vamoPut d o f at_ act).vl = (s.vamoAt d o f at_ act).1.vl := by
      rw [hrun]
      exact (congrArg (fun c : Ctl => c.vl.toNat) hctl :)
    unfold State.finishLoad
    rw [List.range_one, List.foldl_cons, List.foldl_nil, Nat.zero_mul, Nat.add_zero, hgrp, hcw, hvl]
  rw [hput]
  refine hw.congr s.cw_dvd (List.reverse_perm act) fun i => ?_
  rw [hrun]
  exact s.settled_afterElem 32 d s.grp s.cw k (fun j => List.mem_reverse) (s.vamoAt d o f at_ act).2 i

/-- The state from which VAMO's trap is taken: the elements below performed, and no policy applied (R148, R341; log 26). -/
theorem State.vamoPut_trap (hd : groupOk d s.grp = true) {is : List Nat} (hn : is.Nodup) (n : Nat) :
    let u := (s.vamoPut d o f at_ is).setEstart n
    (∃ v, u = { (s.vamoAt d o f at_ is).1 with core := { (s.vamoAt d o f at_ is).1.core with
      v := v, ctl := { s.core.ctl.marked d.toNat s.cw is with estart := BitVec.ofNat 64 n } } }) ∧
    (∀ j, s.cw * j + s.cw ≤ 16384 * s.grp → u.elemAt d.toNat s.grp s.cw j =
      if j ∈ is then (s.vamoAt d o f at_ is).2 j % 2 ^ s.cw else s.elemAt d.toNat s.grp s.cw j) ∧
    ∀ p, p < d.toNat ∨ d.toNat + s.grp ≤ p → u.vRaw p = s.vRaw p := by
  obtain ⟨ms, ls, io, hrun⟩ := State.vamoAt_frame (s := s) (d := d) (o := o) (f := f) (at_ := at_) is
  have h32 := groupOk_le hd
  obtain ⟨⟨v, hv⟩, he, ho⟩ := State.putElems_map (s := (s.vamoAt d o f at_ is).1) h32 s.cw_pos (List.nodup_reverse.2 hn)
    (s.vamoAt d o f at_ is).2
  refine ⟨⟨v, ?_⟩, fun j hj => (he j hj).trans ?_, fun p hp => (ho p hp).trans ?_⟩
  · unfold State.vamoPut
    rw [hv, hrun, s.core.ctl.marked_perm s.cw_dvd d.toNat (List.reverse_perm is).symm]
    rfl
  · simp only [List.mem_reverse]
    rw [hrun]
    rfl
  · rw [hrun]
    rfl

end Sys2Proof.Machine
end

section
/-! SUPPORT. FAAS: the offsets that its elements get, and what it leaves (R343). -/

namespace Sys2Proof.Machine

/-- Each element of an ascending list with the sum of those below it (R343). -/
theorem zip_prefixSums {l : List Nat} (hl : l.Pairwise (· < ·)) (x : Nat → Nat) (m : Nat) :
    l.zip (prefixSums m (l.map x)) = l.map fun i => (i, m + ((l.filter (· < i)).map x).sum) := by
  induction l generalizing m with
  | nil => rfl
  | cons j l ih =>
    obtain ⟨hj, hl⟩ := List.pairwise_cons.1 hl
    have hfirst : (j :: l).filter (· < j) = [] := List.filter_eq_nil_iff.2 fun i hi => by
      rcases List.mem_cons.1 hi with rfl | hi
      · simp
      · simpa using (hj i hi).le
    rw [List.map_cons, prefixSums, List.zip_cons_cons, ih hl, List.map_cons, hfirst]
    refine congrArg _ (List.map_congr_left fun i hi => ?_)
    rw [List.filter_cons_of_pos (by simpa using hj i hi), List.map_cons, List.sum_cons, Nat.add_assoc]

variable {s : State} {d a : BitVec 5} {k : BitVec 3} {segs : List Seg}

/-- The word that FAAS leaves in memory, and the state with it (R343). -/
def State.faasStored (s : State) (d : BitVec 5) (k : BitVec 3) (segs : List Seg) : State :=
  s.store (some (s.keep true)) segs s.cw
    ((s.readSegs segs + ((s.active k 0).map fun i => elem (s.group d.toNat s.grp) s.cw i).sum) % 2 ^ s.cw)

/-- What element i of FAAS gets: the old word plus the active elements below it (R343). -/
def State.faasOffset (s : State) (d : BitVec 5) (k : BitVec 3) (segs : List Seg) (i : Nat) : Nat :=
  s.readSegs segs + (((s.active k 0).filter (· < i)).map fun j => elem (s.group d.toNat s.grp) s.cw j).sum

/-- FAAS's group with its offsets, after the policies (R145, R343). -/
def State.faasPut (s : State) (d : BitVec 5) (k : BitVec 3) (segs : List Seg) : State :=
  (((s.faasStored d k segs).putElems d.toNat s.grp s.cw ((s.active k 0).map fun i => (i, s.faasOffset d k segs i))).maskPolicy
    d.toNat s.grp s.cw (s.maskedOff k 0)).tailPolicy d.toNat s.grp s.cw s.vl

theorem State.faasStored_frame : ∃ ms ls io, s.faasStored d k segs = { s with ms := ms, io := io, core := { s.core with ls := ls } } :=
  s.writeSegs_eq ..

theorem State.faasStored_vl : (s.faasStored d k segs).vl = s.vl := by
  obtain ⟨ms, ls, io, hst⟩ := State.faasStored_frame (s := s) (d := d) (k := k) (segs := segs)
  rw [hst]
  rfl

/-- A legal FAAS whose word passes: its group is settled, and only the main sequencer's clears ESTART (R343, R386). -/
theorem State.faas_eq (hd : groupOk d s.grp = true) (h : s.resolve s.via (s.g a) s.cw .atomic = .ok segs) : s.faas d a k =
    (if s.cur = .main then ((s.faasPut d k segs).setLdr .v d.toNat).setEstart 0 else (s.faasPut d k segs).setLdr .v d.toNat).retire 32 := by
  unfold State.faas
  dsimp only
  rw [if_neg (not_not.2 hd), h]
  dsimp only [State.orTrap]
  rw [zip_prefixSums (s.active_sorted k 0), ← List.sum_eq_foldl]
  rfl

/-- FAAS on the main sequencer writes its group as an element-wise instruction does, with ESTART taken as 0 (R145, R343). -/
theorem State.faasPut_writes (hd : groupOk d s.grp = true) :
    (s.faasStored d k segs).WritesV ((((s.faasPut d k segs).setLdr .v d.toNat).setEstart 0).retire 32) 32 d.toNat s.grp s.cw (s.active k 0)
      ((s.setEstart 0).afterElem { len := 32, d := d, n := s.grp, w := s.cw, k := k
                                   f := fun i => { val := s.faasOffset d k segs i % 2 ^ s.cw } }) 0 false := by
  obtain ⟨ms, ls, io, hst⟩ := State.faasStored_frame (s := s) (d := d) (k := k) (segs := segs)
  have hw := State.completed_writesV (s := s.faasStored d k segs) (groupOk_le hd) s.cw_pos (s.active_nodup k 0) (s.maskedOff_nodup k 0)
    (s.faasOffset d k segs)
  rw [State.faasStored_vl] at hw
  refine hw.congr s.cw_dvd (List.Perm.refl _) fun i => ?_
  refine Eq.trans ?_ ((s.setEstart 0).settled_afterElem 32 d s.grp s.cw k (js := s.active k 0) (fun j => Iff.rfl)
    (fun i => s.faasOffset d k segs i % 2 ^ s.cw) i)
  rw [hst]
  unfold State.settled
  rw [Nat.mod_mod]
  rfl

/-- An instruction that leaves ESTART is one that clears it, with ESTART put back (R386). -/
theorem State.retire_keeps_estart (s : State) (len : Nat) : s.retire len = { (s.setEstart 0).retire len with
    core := { ((s.setEstart 0).retire len).core with
      ctl := { ((s.setEstart 0).retire len).core.ctl with estart := s.core.ctl.estart } } } := by
  unfold State.retire State.setEstart
  obtain ⟨c, n, o, cur⟩ := s
  cases cur <;> rfl

theorem State.faasPut_estart (hd : groupOk d s.grp = true) :
    ((s.faasPut d k segs).setLdr .v d.toNat).core.ctl.estart = s.core.ctl.estart := by
  obtain ⟨ms, ls, io, hst⟩ := State.faasStored_frame (s := s) (d := d) (k := k) (segs := segs)
  obtain ⟨v, hv⟩ := (State.settled_spec (s := s.faasStored d k segs) (groupOk_le hd) s.cw_pos (s.active_nodup k 0)
    (s.maskedOff_nodup k 0) (s.faasOffset d k segs)).1
  unfold State.faasPut
  rw [State.setLdr, State.mapSeq_core_ctl, ← State.faasStored_vl, hv, hst]
  rfl

end Sys2Proof.Machine
end

section
/-! Settled: O41. -/

namespace Sys2Proof.Machine

variable {s : State} {d a b : BitVec 5} {o k : BitVec 3} {at_ : Nat → List Seg} {n : Nat}

/-- Where each element of VAMO lies, as the statement has it and as an access with one field (R148, R341). -/
theorem State.vamoSpec_placed (hw : vtW s.vt = s.cw)
    (h : ∀ i ∈ s.active k s.estart, i < n → s.spot (s.g a) (s.indexAt b i) s.cw .atomic = .ok (at_ i)) :
    s.Placed (s.vamoSpec d a b k) n fun i _ => at_ i := by
  intro i hi hin f hf
  unfold State.fieldAt
  rw [hw]
  exact h i hi hin

theorem State.vamoSpec_fails {tr : Trap} (hw : vtW s.vt = s.cw) (hn : n ∈ s.active k s.estart)
    (h : s.spot (s.g a) (s.indexAt b n) s.cw .atomic = .error tr) : s.FailsAt (s.vamoSpec d a b k) n tr := by
  refine ⟨hn, 0, Nat.zero_lt_one, ?_, fun g hg => absurd hg (Nat.not_lt_zero g)⟩
  unfold State.fieldAt
  rw [hw]
  exact h

/-- Settles O41: VAMO is a run of atomics whose old values are put into its group, FAAS one atomic with its offsets put. -/
theorem vectorAtomics : Obligations.VectorAtomics := by
  refine ⟨fun s d a b o k at_ f => ?_, fun s d a k => ⟨fun hd => ?_, fun hd tr htr => ?_, fun hd segs hsegs => ?_⟩⟩
  · intro place act legal run
    refine ⟨fun h => congrArg Host.Outcome.next (if_pos (not_not.1 fun hn => h ((s.vamoLegal_iff d b o).2 hn))), fun h hf =>
      ⟨fun hat => ?_, fun n hn tr hfail hat => ?_⟩⟩
    · have hscan := (s.vamoSpec_of d a b k).scan_ok (State.vamoSpec_placed h.1 fun i hi _ => hat i hi)
      exact ⟨_, congrArg Host.Outcome.next (State.vamo_eq h hf (s.active_nodup k s.estart) hscan), State.vamoPut_writes h.2.1⟩
    · have hscan := (s.vamoSpec_of d a b k).scan_error (State.vamoSpec_fails h.1 hn hfail) (State.vamoSpec_placed h.1 hat)
      have hnodup : (act.filter (· < n)).Nodup := (s.active_nodup k s.estart).filter _
      obtain ⟨⟨v, hv⟩, he, ho⟩ := State.vamoPut_trap (o := o) (f := f) (at_ := at_) h.2.1 hnodup n
      exact ⟨_, v, congrArg Host.Outcome.next (State.vamo_eq h hf hnodup hscan), hv, he, ho⟩
  · exact congrArg Host.Outcome.next (if_pos (by simp [hd]))
  · exact congrArg Host.Outcome.next ((if_neg (by simp [hd])).trans (s.orTrap_error htr _))
  · refine ⟨_, congrArg Host.Outcome.next ((State.faas_eq hd hsegs).trans ?_), State.faasPut_writes hd⟩
    by_cases hcur : s.cur = .main
    · rw [if_pos hcur, if_pos hcur]
    · rw [if_neg hcur, if_neg hcur, State.retire_keeps_estart, State.faasPut_estart hd]

end Sys2Proof.Machine
end
